-- ==== Sys2Proof/Word.lean ====
section
/-! DEFINITION. The word types of the DV-1 (spec R2, R3, R29) and the plainest arithmetic on them. -/

namespace Sys2Proof

/-- A byte: the unit memory is addressed in (R3). -/
abbrev Byte := BitVec 8

/-- The 64-bit word of the `s` registers and of a double (R3, R29). -/
abbrev Word := BitVec 64

/-- A 72-bit virtual address or PC (R29, R48, R58). -/
abbrev Addr := BitVec 72

/-- A `v` register (R164). -/
abbrev Vec := BitVec 1024

/-- A map from numbers, written sparsely: a list of (key, value) pairs. `SMap.get` and `SMap.set`
(Sys2Proof/Machine/SMap.lean) read and write it in one canonical form. -/
abbrev SMap (α : Type) := List (Nat × α)

/-- Bits [lo+n-1 : lo] of a number. -/
def bits (x lo n : Nat) : Nat := x / 2 ^ lo % 2 ^ n

/-- Bit `i` of a number. -/
def bit (x i : Nat) : Bool := bits x i 1 == 1

/-- `n` bits read as a signed two's-complement number. -/
def sgn (n x : Nat) : Int := if x % 2 ^ n < 2 ^ (n - 1) then (x % 2 ^ n : Nat) else ((x % 2 ^ n : Nat) : Int) - (2 ^ n : Nat)

/-- The 72-bit address that is `x` modulo 2^72. -/
abbrev addr (x : Int) : Addr := BitVec.ofInt 72 x

/-- 1 for true and 0 for false. -/
abbrev b2n (b : Bool) : Nat := if b then 1 else 0

end Sys2Proof
end

