-- ==== Sys2Proof/Config.lean ====
section
/-! DEFINITION. What an implementation of the DV-1 fixes and the spec leaves open. Each is an opaque constant: nothing in
Lean can evaluate it, so a statement proved of the model holds whatever it is. The argument `n` of a free value is the
state's counter `fresh`, which every use advances or reads beside an operand position (log 6). -/

namespace Sys2Proof.Config

/-- A pending register is read as its new value rather than its old one (R38 item 3): `n` counts issued instructions and
`pos` is the operand's position. -/
opaque readNew (n pos : Nat) : Bool

/-- A register written again while pending keeps the returned value (R38 item 5). -/
opaque clobberKeepsReturn (n : Nat) : Bool

/-- A byte the spec leaves UNKNOWN (R201, R214, R424, R198). -/
opaque freeByte (n i : Nat) : Byte

/-- A double the spec leaves UNKNOWN (R198, R201), or a value it does not state; `i` tells apart those of one step. -/
opaque freeWord (n i : Nat) : Word

/-- A choice the spec leaves UNKNOWN: an old or a new fetch line, TLB entry or micro-word (R51, R356, R366). -/
opaque freeChoice (n i : Nat) : Bool

/-- The cycles that a request is on its way (R273). -/
opaque delay (n : Nat) : Nat

/-- How far the last byte of pool storage in use lies beyond the bytes held (R147). -/
opaque poolSlack (n : Nat) : Nat

/-- The node identifier from which the DV-1 looks for the next one to give out (R142). -/
opaque nodeSeed (n : Nat) : Nat

/-- The position, in steps of 64 bytes, at which the scheduler places a unit's scratchpad allocation (R338). -/
opaque unitBase (n : Nat) : Nat

/-- SHA-512 of a message, as a 512-bit number (R410, R418). -/
opaque sha512 (msg : List Byte) : Nat

/-- ECDSA on P-521: whether (r, s) signs a message under the public key (x, y) (R409, R411, R418). -/
opaque ecdsaOk (x y : Nat) (msg : List Byte) (r s : Nat) : Bool

/-- Whether a point lies on P-521 (R411). -/
opaque onP521 (x y : Nat) : Bool

/-- The identity key's signature over a message, r then s (R410), its public key and the hash of the running firmware. -/
opaque idSign (msg : List Byte) : Nat × Nat
opaque idKey : Nat × Nat
opaque fwHash : Nat
/-- The hash of the backup image, the versions of the two, and the root public key's hash that the boot ROM holds (R416, R418). -/
opaque backupHash : Nat
opaque fwVersion : Nat
opaque backupVersion : Nat
opaque rootKeyHash : Nat

/-- The flits routed through a tile's port in a heartbeat period, as its neighbours count them (R375). -/
opaque flits (tile period : Nat) : Nat

/-- The Stavuo port the fabric chooses and whether it needs another path are the fabric's own (R214, R233). -/
opaque pickPort (n : Nat) : Nat

/-- The part's position in its domain, the positions that hold parts, their fabric node identifiers, and the part's serial
number (R25, R257). -/
opaque domPos : Nat
opaque members : Nat
opaque fabid (q : Nat) : Nat
opaque serial : Nat

/-- Silicon stepping (R25) and the plumb skew of the domain (R257). -/
opaque stepping : Nat
opaque skew : Nat

end Sys2Proof.Config
end

