-- ==== Sys2Proof/Machine/SMap.lean ====
section
/-! DEFINITION. Reading and writing a sparse map (`SMap`) in its one canonical form: keys strictly rising, and, for a map
with a default, no entry equal to the default. Memory, register files and every table of the machine are such maps. -/

namespace Sys2Proof.Machine

/-- The entry at a key. -/
def SMap.find {α : Type} : SMap α → Nat → Option α
  | [], _ => none
  | (k, v) :: m, j => if j = k then some v else SMap.find m j

/-- Writes an entry. -/
def SMap.put {α : Type} : SMap α → Nat → α → SMap α
  | [], j, x => [(j, x)]
  | (k, v) :: m, j, x =>
    if j < k then (j, x) :: (k, v) :: m else if j = k then (j, x) :: m else (k, v) :: SMap.put m j x

/-- Removes an entry. -/
def SMap.erase {α : Type} : SMap α → Nat → SMap α
  | [], _ => []
  | (k, v) :: m, j => if j = k then SMap.erase m j else (k, v) :: SMap.erase m j

/-- The value at a key of a map whose unlisted keys read `d`. -/
def SMap.get {α : Type} (d : α) (m : SMap α) (j : Nat) : α := (SMap.find m j).getD d

/-- Writes a value into a map whose unlisted keys read `d`: writing `d` removes the entry. -/
def SMap.set {α : Type} [DecidableEq α] (d : α) (m : SMap α) (j : Nat) (x : α) : SMap α :=
  if x = d then SMap.erase m j else SMap.put m j x

/-- Keys strictly rising above `lo`. -/
def SMap.rising {α : Type} : Nat → SMap α → Bool
  | _, [] => true
  | lo, (k, _) :: m => lo ≤ k && SMap.rising (k + 1) m

/-- The canonical form of a map whose unlisted keys read `d`. -/
def SMap.wf {α : Type} [DecidableEq α] (d : α) (m : SMap α) : Bool := SMap.rising 0 m && m.all fun e => e.2 ≠ d

/-- Applies a function to every value. -/
def SMap.map {α β : Type} (f : Nat → α → β) (m : SMap α) : SMap β := List.map (fun e => (e.1, f e.1 e.2)) m

end Sys2Proof.Machine
end

