-- ==== Sys2Proof/Syntax.lean ====
section
/-! DEFINITION. The abstract syntax of the DV-1: one constructor for every row of spec/opcode_table.json.
Rows that are Hexarn instructions carry the common fields (`Ctl`, R55) and the body of their format (R57 to R60, and
the X layouts given with each instruction). Rows that are steps of another agent (spec 95) carry the tile, line, node
or message they concern; they have no encoding. Register numbers and code fields are numbers; `Instr.wf`
(Sys2Proof/WellFormed.lean) says which are legal. -/

namespace Sys2Proof

/-- The fields every instruction has beside its opcode (R55): switch marker, predicate negate, predicate register. -/
structure Ctl where
  s  : Bool := false
  pn : Bool := false
  pg : Nat := 0
  deriving DecidableEq, Repr

/-- Body of format RR: three sources and a destination (R57). -/
structure FRR where
  (d a b c fn : Nat)
  deriving DecidableEq, Repr

/-- Body of format RI: register and 64-bit immediate (R57). -/
structure FRI where
  (d a fn imm : Nat)
  deriving DecidableEq, Repr

/-- Body of format AI: address register and 72-bit immediate (R57). -/
structure FAI where
  (d fn imm : Nat)
  deriving DecidableEq, Repr

/-- Body of format M: memory access (R57, R58); `disp` is the raw 48-bit field. -/
structure FM where
  (d base idx sc sz ordq disp : Nat)
  deriving DecidableEq, Repr

/-- Body of format B: branch (R57, R59); `dl` is the raw 29-bit field. -/
structure FB where
  (a b cnd fn dl sl : Nat)
  deriving DecidableEq, Repr

/-- Body of format V: vector (R59). -/
structure FV where
  (vd va vb vc km ty fn ss rm imm : Nat)
  deriving DecidableEq, Repr

/-- Body of format E: engine command (R59); `ext` is bits [38:34]. -/
structure FE where
  (acc abase astr bbase bstr kreg fa fb mode ext : Nat)
  deriving DecidableEq, Repr

/-- Body of format Loopi: LOOPI (R84). -/
structure FLoopi where
  (cnt dl sl : Nat)
  deriving DecidableEq, Repr

/-- Body of format Callat: CALLAT (R319). -/
structure FCallat where
  (t a c : Nat)
  deriving DecidableEq, Repr

/-- Body of format Atom: SC, AMO, CAS and RED (R272). -/
structure FAtom where
  (d base a b ordq sz fn disp : Nat)
  deriving DecidableEq, Repr

/-- Body of format Append: the APPEND variants (R280). -/
structure FAppend where
  (d a t n fn ar : Nat)
  deriving DecidableEq, Repr

/-- Body of format Fence: FENCE and FENCEE (R283). -/
structure FFence where
  (d scope kind : Nat)
  deriving DecidableEq, Repr

/-- Body of format Region: the region instructions (R299); `imm` is bits [31:0]. -/
structure FRegion where
  (d e pd fn ar imm : Nat)
  deriving DecidableEq, Repr

/-- Body of format Mu: MRDV, MWRV, MPROG, MSYNC and MSTAT (R186). -/
structure FMu where
  (d vr acc row fn : Nat)
  deriving DecidableEq, Repr

/-- Body of format Cu: the copy instructions (R199). -/
structure FCu where
  (ad asrc n t ay ar ai td ts tr rm sc fn imm : Nat)
  deriving DecidableEq, Repr

/-- Body of format Coll: the collectives (R209). -/
structure FColl where
  (d ad asrc n g k ty fn : Nat)
  deriving DecidableEq, Repr

/-- Body of format Lin: the lineage instructions (R158). -/
structure FLin where
  (d a b c ar pd fn : Nat)
  deriving DecidableEq, Repr

/-- Body of format Trap: TRAP (R97). -/
structure FTrap where
  (imm : Nat)
  deriving DecidableEq, Repr

/-- Body of format Nul: an instruction whose body is all zero (R98). -/
structure FNul where
  deriving DecidableEq, Repr

/-- Body of format Tlbi: TLBI (R357). -/
structure FTlbi where
  (ar sa scope fn : Nat)
  deriving DecidableEq, Repr

/-- Body of format Park: PARK (R99). -/
structure FPark where
  (d a : Nat)
  deriving DecidableEq, Repr

/-- Body of format Hawk: TRWB, TRWL, TRWU and TRWQ (R365). -/
structure FHawk where
  (d a b ar opx bk st : Nat)
  deriving DecidableEq, Repr

/-- Body of format Trowel: a trowel opcode 0x3C0 + `op` (R59, R69). -/
structure FTrowel where
  (op d a b c vp imm : Nat)
  deriving DecidableEq, Repr

/-- The rows of spec/opcode_table.json. -/
inductive Instr where
  | nop (k : Ctl) (f : FRR)
  | add (k : Ctl) (f : FRR)
  | sub (k : Ctl) (f : FRR)
  | addi (k : Ctl) (f : FRI)
  | mul (k : Ctl) (f : FRR)
  | mulh (k : Ctl) (f : FRR)
  | mulhu (k : Ctl) (f : FRR)
  | div (k : Ctl) (f : FRR)
  | divu (k : Ctl) (f : FRR)
  | rem (k : Ctl) (f : FRR)
  | remu (k : Ctl) (f : FRR)
  | and (k : Ctl) (f : FRR)
  | or (k : Ctl) (f : FRR)
  | xor (k : Ctl) (f : FRR)
  | andn (k : Ctl) (f : FRR)
  | andi (k : Ctl) (f : FRI)
  | ori (k : Ctl) (f : FRI)
  | xori (k : Ctl) (f : FRI)
  | shl (k : Ctl) (f : FRR)
  | shr (k : Ctl) (f : FRR)
  | sra (k : Ctl) (f : FRR)
  | rotr (k : Ctl) (f : FRR)
  | shli (k : Ctl) (f : FRI)
  | shri (k : Ctl) (f : FRI)
  | srai (k : Ctl) (f : FRI)
  | clz (k : Ctl) (f : FRR)
  | ctz (k : Ctl) (f : FRR)
  | pcnt (k : Ctl) (f : FRR)
  | bswap (k : Ctl) (f : FRR)
  | min (k : Ctl) (f : FRR)
  | max (k : Ctl) (f : FRR)
  | minu (k : Ctl) (f : FRR)
  | maxu (k : Ctl) (f : FRR)
  | cmp (k : Ctl) (f : FRR)
  | cmpi (k : Ctl) (f : FRI)
  | sel (k : Ctl) (f : FRR)
  | pset (k : Ctl) (f : FRR)
  | mov (k : Ctl) (f : FRR)
  | movAl (k : Ctl) (f : FRR)
  | movAh (k : Ctl) (f : FRR)
  | movi (k : Ctl) (f : FRI)
  | ext (k : Ctl) (f : FRR)
  | bfx (k : Ctl) (f : FRI)
  | bfi (k : Ctl) (f : FRI)
  | lea (k : Ctl) (f : FM)
  | adda (k : Ctl) (f : FRR)
  | suba (k : Ctl) (f : FRR)
  | subaD (k : Ctl) (f : FRR)
  | mova (k : Ctl) (f : FRR)
  | movaS (k : Ctl) (f : FRR)
  | movaSh (k : Ctl) (f : FRR)
  | cmpa (k : Ctl) (f : FRR)
  | movai (k : Ctl) (f : FAI)
  | br (k : Ctl) (f : FB)
  | bc (k : Ctl) (f : FB)
  | bcmp (k : Ctl) (f : FB)
  | bi (k : Ctl) (f : FRR)
  | call (k : Ctl) (f : FB)
  | calli (k : Ctl) (f : FRR)
  | ret (k : Ctl) (f : FRR)
  | jtab (k : Ctl) (f : FRR)
  | loop (k : Ctl) (f : FB)
  | loopi (k : Ctl) (f : FLoopi)
  | breakl (k : Ctl) (f : FRR)
  | forkb (k : Ctl) (f : FB)
  | join (k : Ctl) (f : FRR)
  | callat (k : Ctl) (f : FCallat)
  | spawn (k : Ctl) (f : FRR)
  | tdep (k : Ctl) (f : FRR)
  | signal (k : Ctl) (f : FRR)
  | texit (k : Ctl) (f : FRR)
  | yield (k : Ctl) (f : FRR)
  | tqry (k : Ctl) (f : FRR)
  | cancelTask (k : Ctl) (f : FRR)
  | cancelLevel (k : Ctl) (f : FRR)
  | lcnt (k : Ctl) (f : FRR)
  | semp (k : Ctl) (f : FRR)
  | semv (k : Ctl) (f : FRR)
  | qpush (k : Ctl) (f : FRR)
  | qpop (k : Ctl) (f : FRR)
  | qstat (k : Ctl) (f : FRR)
  | ld (k : Ctl) (f : FM)
  | st (k : Ctl) (f : FM)
  | lda (k : Ctl) (f : FM)
  | sta (k : Ctl) (f : FM)
  | ldq (k : Ctl) (f : FM)
  | stq (k : Ctl) (f : FM)
  | lds (k : Ctl) (f : FM)
  | stf (k : Ctl) (f : FM)
  | sete (k : Ctl) (f : FM)
  | feq (k : Ctl) (f : FM)
  | pref (k : Ctl) (f : FM)
  | vld (k : Ctl) (f : FM)
  | vst (k : Ctl) (f : FM)
  | vlds (k : Ctl) (f : FM)
  | vsts (k : Ctl) (f : FM)
  | vgath (k : Ctl) (f : FV)
  | vscat (k : Ctl) (f : FV)
  | clean (k : Ctl) (f : FM)
  | disc (k : Ctl) (f : FM)
  | zero (k : Ctl) (f : FM)
  | lr (k : Ctl) (f : FM)
  | sc (k : Ctl) (f : FAtom)
  | amo (k : Ctl) (f : FAtom)
  | cas (k : Ctl) (f : FAtom)
  | red (k : Ctl) (f : FAtom)
  | append (k : Ctl) (f : FAppend)
  | appendCfg (k : Ctl) (f : FAppend)
  | appendPop (k : Ctl) (f : FAppend)
  | appendStat (k : Ctl) (f : FAppend)
  | wrs (k : Ctl) (f : FM)
  | fence (k : Ctl) (f : FFence)
  | fencee (k : Ctl) (f : FFence)
  | rbegin (k : Ctl) (f : FRegion)
  | rcommit (k : Ctl) (f : FRegion)
  | rabort (k : Ctl) (f : FRegion)
  | rstat (k : Ctl) (f : FRegion)
  | rposB (k : Ctl) (f : FRegion)
  | rposL (k : Ctl) (f : FRegion)
  | vadd (k : Ctl) (f : FV)
  | vsub (k : Ctl) (f : FV)
  | vmul (k : Ctl) (f : FV)
  | vfma (k : Ctl) (f : FV)
  | vfms (k : Ctl) (f : FV)
  | vmin (k : Ctl) (f : FV)
  | vmax (k : Ctl) (f : FV)
  | vabs (k : Ctl) (f : FV)
  | vneg (k : Ctl) (f : FV)
  | vrcp (k : Ctl) (f : FV)
  | vrsq (k : Ctl) (f : FV)
  | vexp2 (k : Ctl) (f : FV)
  | vlog2 (k : Ctl) (f : FV)
  | vdiv (k : Ctl) (f : FV)
  | vsqrt (k : Ctl) (f : FV)
  | vand (k : Ctl) (f : FV)
  | vor (k : Ctl) (f : FV)
  | vxor (k : Ctl) (f : FV)
  | vshl (k : Ctl) (f : FV)
  | vshr (k : Ctl) (f : FV)
  | vsra (k : Ctl) (f : FV)
  | vcmp (k : Ctl) (f : FV)
  | vsel (k : Ctl) (f : FV)
  | vcvt (k : Ctl) (f : FV)
  | vred (k : Ctl) (f : FV)
  | vscan (k : Ctl) (f : FV)
  | vperm (k : Ctl) (f : FV)
  | vbcast (k : Ctl) (f : FV)
  | vins (k : Ctl) (f : FV)
  | vext (k : Ctl) (f : FV)
  | vmov (k : Ctl) (f : FV)
  | vmovi (k : Ctl) (f : FV)
  | kop (k : Ctl) (f : FV)
  | kmov (k : Ctl) (f : FV)
  | vhist (k : Ctl) (f : FV)
  | mma (k : Ctl) (f : FE)
  | mmat (k : Ctl) (f : FE)
  | mmas (k : Ctl) (f : FE)
  | mzero (k : Ctl) (f : FE)
  | mrdv (k : Ctl) (f : FMu)
  | mwrv (k : Ctl) (f : FMu)
  | mst (k : Ctl) (f : FE)
  | mlda (k : Ctl) (f : FE)
  | mprogGo (k : Ctl) (f : FMu)
  | mprogDrop (k : Ctl) (f : FMu)
  | msync (k : Ctl) (f : FMu)
  | mstat (k : Ctl) (f : FMu)
  | cpy (k : Ctl) (f : FCu)
  | cpyc (k : Ctl) (f : FCu)
  | cpyg (k : Ctl) (f : FCu)
  | cbatch (k : Ctl) (f : FCu)
  | cwaitb (k : Ctl) (f : FCu)
  | syncw (k : Ctl) (f : FCu)
  | syncwt (k : Ctl) (f : FCu)
  | syncwtInit (k : Ctl) (f : FCu)
  | csyncWait (k : Ctl) (f : FCu)
  | csyncStat (k : Ctl) (f : FCu)
  | csyncGo (k : Ctl) (f : FCu)
  | csyncDrop (k : Ctl) (f : FCu)
  | cgrp (k : Ctl) (f : FColl)
  | cring (k : Ctl) (f : FColl)
  | credu (k : Ctl) (f : FColl)
  | cgath (k : Ctl) (f : FColl)
  | cbar (k : Ctl) (f : FColl)
  | cwait (k : Ctl) (f : FColl)
  | lnew (k : Ctl) (f : FLin)
  | lmap (k : Ctl) (f : FLin)
  | lunmap (k : Ctl) (f : FLin)
  | fork (k : Ctl) (f : FLin)
  | rebase (k : Ctl) (f : FLin)
  | flatten (k : Ctl) (f : FLin)
  | drop (k : Ctl) (f : FLin)
  | lnq (k : Ctl) (f : FLin)
  | ldiff (k : Ctl) (f : FLin)
  | trap (k : Ctl) (f : FTrap)
  | eret (k : Ctl) (f : FNul)
  | csrr (k : Ctl) (f : FRI)
  | csrw (k : Ctl) (f : FRI)
  | csrx (k : Ctl) (f : FRI)
  | tlbi (k : Ctl) (f : FTlbi)
  | icinv (k : Ctl) (f : FM)
  | park (k : Ctl) (f : FPark)
  | trwb (k : Ctl) (f : FHawk)
  | trwl (k : Ctl) (f : FHawk)
  | trwu (k : Ctl) (f : FHawk)
  | trwq (k : Ctl) (f : FHawk)
  | trowel (k : Ctl) (f : FTrowel)
  | muCommandRun (t c : Nat)
  | cuCopyRun (t c : Nat)
  | syncArrival (t c off amt : Nat)
  | collectiveRun (t c : Nat)
  | chunkArrival (n : Nat)
  | chunkAck (t c rank seq idx : Nat)
  | chunkResend (t c rank seq idx : Nat)
  | noPathLimit (t c g : Nat)
  | lineageBlockRecompose (p node : Nat)
  | lineageOpEnd (p node : Nat)
  | lineageUndo (p node : Nat)
  | classVResult (t c i n : Nat)
  | lineRefetch (t c i : Nat)
  | trapEntry (t c i cause addr : Nat)
  | leaseGrant (t line : Nat)
  | leaseExpiry (t line : Nat)
  | fifoSend (t : Nat)
  | storePerformAtSlice (d line : Nat)
  | releaseMarkerAck (t : Nat)
  | ownershipArrival (d line : Nat)
  | rds (ag line : Nat)
  | rdx (ag line : Nat)
  | upg (ag line : Nat)
  | wb (ag line : Nat)
  | prs (ag line : Nat)
  | pri (ag line : Nat)
  | prx (ag line : Nat)
  | snoopFilterVictim (line : Nat)
  | notPresentAnswer (ag line pid : Nat)
  | hostRead (pa mv : Nat)
  | hostMemWr (pa data : Nat)
  | bisnpAnswer (pa rsp : Nat)
  | hostSnoop (pa kind : Nat)
  | reservationGrant (line : Nat)
  | reservationRelease (line : Nat)
  | lrTimeout (t c i : Nat)
  | hostLineSnoopAnswer (line : Nat)
  | inboxDelivery (n : Nat)
  | callatReturnDelivery (n : Nat)
  | heldReturnDelivery (t c : Nat)
  | ldsWake (t c i : Nat)
  | wrsWake (t c i : Nat)
  | wrsTimeout (t c i : Nat)
  | joinRecheck (t c i : Nat)
  | parkTimeout (t c i : Nat)
  | syncwWake (t c i : Nat)
  | remoteLoadWake (t c i : Nat)
  | narrowingMessage (n : Nat)
  | regionAccessAtSlice (t c i line wr : Nat)
  | sealAtSlice (t c i line : Nat)
  | finalPositionBroadcast (t c i line : Nat)
  | regionAbort (t c i cause tc : Nat)
  | tokenGrant (t c i : Nat)
  | launchSlotPoll (p q : Nat)
  | launchStart (p q : Nat)
  | dispatch (t : Nat)
  | overflowMove (t : Nat)
  | stealRequest (t : Nat)
  | balance (t : Nat)
  | successorSignal (n : Nat)
  | unitComplete (t c : Nat)
  | doneMessage (p l t : Nat)
  | redAck (n : Nat)
  | launchComplete (p l : Nat)
  | preemptRequest (t c : Nat)
  | eviction (t c : Nat)
  | becomeResumable (p n : Nat)
  | resume (t : Nat)
  | foldedResume (t n : Nat)
  | nonresidentTraffic (n : Nat)
  | watchdogStep1 (p q : Nat)
  | watchdogStep2 (p q : Nat)
  | watchdogStep3 (p q : Nat)
  | heartbeatSend (t dir : Nat)
  | heartbeatReceive (t dir tid hseq health : Nat)
  | periodJudgement (t dir : Nat)
  | accusation (t target accuser judge : Nat)
  | voteExpiry (t dir : Nat)
  | fenceLearn (die x cause : Nat)
  | orphanDiscard (n : Nat)
  | firmwareReferral (x fence : Nat)
  | bistResult (t pass : Nat)
  | appeal (t dir : Nat)
  | probationEnd (t : Nat)
  | appealTimeout (t : Nat)
  | correctableError (kind id : Nat)
  | bucketLeak (kind id : Nat)
  | ueDetected (t c i va : Nat)
  | registerUe (t c i : Nat)
  | dramScrub (line : Nat)
  | sdc (t c i addr unit : Nat)
  | sdcCountSave
  | dieFail (d : Nat)
  | partFail (q : Nat)
  | laneFailure (port : Nat)
  | portDown (link : Nat)
  | d2dWireSpare (j : Nat)
  | currentMonitorSample (d amps : Nat)
  | powerSample (amps watts temp : Nat)
  | coldReset (fails : Nat)
  | fatalDump (cause : Nat)
  | firmwareWatchdog
  | attest
  | partcfg
  | dump
  | clearsr
  | dumpack
  | opkey
  | launchQueueTailWrite (p q v : Nat)
  | launchQueueEnable (p q v fromS : Nat)
  | launchQueueDescWrite (p q off v fromS : Nat)
  | eventRingHeadWrite (p v : Nat)
  | eventRingDescWrite (p v : Nat)
  | lpoolWrite (p v : Nat)
  | lsplitWrite (t v : Nat)
  | lgrpWrite (t v : Nat)
  | leaseWrite (p v : Nat)
  | balWrite (p v : Nat)
  | rlimitWrite (t c v : Nat)
  | hbperWrite (t v : Nat)
  | histWrite (t n v : Nat)
  | mprWrite (t c v : Nat)
  | ptbrWrite (t c v : Nat)
  | lsegWrite (t c i v : Nat)
  | tsrWrite (t c i v : Nat)
  | registerWrite (off v view : Nat)
  | spuriousWake (t c i : Nat)
  | yieldHoldExpiry (t c i : Nat)
  | lineEviction (kind ag line : Nat)
  deriving DecidableEq, Repr

end Sys2Proof
end

