-- ==== Sys2Proof/Machine/State.lean ====
section
/-! DEFINITION. The state of one DV-1 part as plain data, and the state right after reset. Every map is a sparse map in
canonical form. The thread, context and tile that the running turn belongs to are held unpacked (`thr`, `ctx`, `tile`,
named by `cur`); the others lie in maps (log 2). -/

namespace Sys2Proof.Machine

/-- Stops of the machine. -/
inductive Fault where
  /-- Raised by nobody, hence safe: every exception the spec describes is a next state. -/
  | never
  deriving DecidableEq, Repr

/-- Instructions without a meaning. -/
inductive Refusal where
  /-- Raised by an arm of `exec` that has no meaning yet; safe, since the machine stops. -/
  | notModelled (mnemonic : String)
  deriving DecidableEq, Repr

/-! ### Threads -/

/-- A register that an instruction can name as a destination. -/
inductive Reg where
  | s (n : Nat) | a (n : Nat) | v (n : Nat) | k (n : Nat) | p (n : Nat)
  deriving DecidableEq, Repr

/-- A hardware thread: tile, context and thread index (R11, R29, R337). -/
structure Key where
  t : Nat
  c : Nat
  i : Nat
  deriving DecidableEq, Repr

/-- Where a translated or window address leads (R16, R156, R258). -/
inductive Place where
  /-- Device DRAM or host memory at a physical address. -/
  | pa (a : Nat)
  /-- The device register window of the part (R16, R403). -/
  | dev (off : Nat)
  /-- A byte of a lineage node of a partition; `rw` is false for a read-only binding (R156). -/
  | lin (pid node off : Nat) (rw : Bool)
  /-- A byte of a lineage window beyond the node's size (R156). -/
  | linPad
  /-- A LIN page that no binding covers (R156). -/
  | linNone
  /-- A byte of a tile's local SRAM (R258). -/
  | sram (tile byte : Nat)
  /-- A tile-window address whose unit is not resident (R259). -/
  | away (vtile off : Nat)
  deriving DecidableEq, Repr

/-- What a thread waits for (R35, R305); the operands are those that its wake needs. -/
inductive Wait where
  | none
  /-- A sync load parked on a double (R266). -/
  | lds (at_ : Place)
  /-- The double became full with this value (R266). -/
  | ldsMet (v : Word)
  /-- A WRS parked on a line until a plumb reading, with or without a monitor entry (R282). -/
  | wrs (at_ : Place) (till : Nat) (entry : Bool)
  /-- The monitored line was written (R282). -/
  | wrsMet (at_ : Place)
  /-- A JOIN parked on a counter until a plumb reading (R321). -/
  | join (at_ : Place) (till : Nat)
  /-- A SYNCW parked until `GEN` differs (R207). -/
  | syncw (off gen : Nat)
  /-- PARK with its time limit (R99). -/
  | park (till : Option Nat)
  /-- YIELD until a plumb reading (R324). -/
  | yield (till : Nat)
  /-- A full queue, an empty queue, a semaphore at zero (R330). -/
  | qpush (q : Nat) | qpop (q : Nat) | semp (n : Nat)
  /-- A tile-window access to a unit that is not resident (R259). -/
  | remote (vtile : Nat)
  /-- A collective wait on a group (R213). -/
  | cwait (g : Nat)
  /-- Waiting for the die's irrevocable token (R298). -/
  | token
  /-- FENCEE until the MU and the CU have ended these many commands (R283). -/
  | fencee (mu cu : Nat)
  /-- A trailing thread after a difference (R393). -/
  | differs
  /-- A trap that waits for the outstanding class V results (R95): its cause and address. -/
  | trap (cause : Nat) (at_ : Addr)
  /-- Any other wait that its instruction tests again at each turn (R35). -/
  | hold
  deriving DecidableEq, Repr

/-- A destination of a class V instruction and the value it will hold; `clob` when a younger instruction has written it
since (R38). -/
structure Dest where
  r    : Reg
  v    : Vec
  clob : Bool := false
  deriving DecidableEq, Repr

/-- Where an access leads, and the attributes of its page. -/
structure Spot where
  place : Place
  ord   : Nat := 0
  comp  : Bool := false
  repl  : Bool := false
  deriving DecidableEq, Repr

/-- A piece of an access that lies in one page: its place and its bytes. -/
structure Piece where
  spot : Spot
  n    : Nat
  deriving DecidableEq, Repr

/-- A store that waits in the comparator of redundant execution (R393): its address, its checked pieces, its bytes, and whether it goes as
STQ. -/
structure HeldStore where
  a    : Addr
  l    : List (Addr × List Piece)
  bs   : List Byte
  drop : Bool
  deriving DecidableEq, Repr

/-- What a class V result still needs before it can return. -/
inductive PendK where
  /-- Nothing: the value is known. -/
  | ready
  /-- That every older vector instruction's result has returned (R165). -/
  | vec
  /-- A store performed at a scope (R228, R238). -/
  | store (scope : Nat)
  /-- A fence complete at a scope (R283). -/
  | fence (kind scope : Nat)
  /-- A reservation granted and released (R273); `acq` when it is also an acquire (R227). -/
  | atomic (acq : Bool)
  /-- A message answered (R281). -/
  | msg
  /-- An MRDV run (R186). -/
  | mrdv
  /-- A store of a thread that is trailed, which the trailing thread has still to produce (R393). -/
  | held (x : HeldStore)
  deriving DecidableEq, Repr

/-- What a plain load of memory may still bind (R226, R229, log 7): its parts, each seen as a whole, as physical address, bytes and place
in the register; the size code of a word that is extended; and whether it is of an unordered page alone. -/
structure Unbound where
  parts : List (Nat × Nat × Nat)
  ext   : Option Nat := none
  uo    : Bool := false
  deriving DecidableEq, Repr

/-- A class V instruction whose result has not returned (R38, R39). -/
structure Pend where
  id    : Nat
  pc    : Addr
  what  : PendK
  dests : List Dest
  /-- The load is not bound yet; its destination holds what it would have read when it issued. -/
  load  : Option Unbound := none
  /-- A condition that arrived with the response: trap cause and address (R39). -/
  cond  : Option (Nat × Addr) := none
  deriving DecidableEq, Repr

/-- A condition that arrived with a response and waits for an S (R39): the class V instruction's entry and PC, the cause and the
address. -/
structure Cond where
  id    : Nat
  pc    : Addr
  cause : Nat
  at_   : Addr
  deriving DecidableEq, Repr

/-- The loop registers (R83). -/
structure Loops where
  lc0 : Word := 0
  lc1 : Word := 0
  ls  : Addr := 0
  le  : Addr := 0
  deriving DecidableEq, Repr

/-- The registers a region keeps (R284). -/
structure Check where
  sr : SMap Word
  ar : SMap Addr
  vr : SMap Vec
  kr : SMap (BitVec 32)
  pr : SMap Bool
  tsr : Word
  loops : Loops
  deriving DecidableEq, Repr

/-- An active region (R284 to R298). `buf` is the region buffer by physical address. -/
structure Region where
  elastic : Bool
  irr     : Bool := false
  check   : Check
  target  : Addr
  reads   : List Nat := []
  writes  : List Nat := []
  buf     : SMap Byte := []
  /-- The lines whose SEAL has been accepted, once the commit has begun, and whether one was refused (R295). -/
  sealing : Option (List Nat) := none
  /-- The lines whose slice has taken the SEAL and waits for acknowledgements before it answers (R302). -/
  asked   : List Nat := []
  refused : Bool := false
  /-- The lines that have taken the final-position broadcast (R295). -/
  told    : List Nat := []
  /-- An abort that has been decided and takes effect before the next turn: cause and trap code (R298). -/
  doom    : Option (Nat × Nat) := none
  deriving DecidableEq, Repr

/-- An LR reservation (R276, R427). -/
structure Resv where
  line    : Nat
  size    : Nat
  since   : Nat
  broken  : Bool := false
  /-- On a scratchpad: the tile that keeps it (R427). -/
  scratch : Option Nat := none
  deriving DecidableEq, Repr

/-- Life of a hardware thread (R35, R96). -/
inductive Life where
  | idle | live | exited | hfault
  deriving DecidableEq, Repr

/-- A trowel sequence under way: its binding, the words of its bank when it began, the next word, and the micro-operations retired (R363, R366). -/
structure HawkRun where
  idx   : Nat
  bind  : Word
  words : List Word
  upc   : Nat := 0
  nuop  : Nat := 0
  nmem  : Nat := 0
  deriving DecidableEq, Repr

/-- A thread (R29). -/
structure Thread where
  life  : Life := .idle
  role  : Nat := 0
  priv  : Nat := 0
  pc    : Addr := 0
  sr    : SMap Word := []
  ar    : SMap Addr := []
  vr    : SMap Vec := []
  kr    : SMap (BitVec 32) := []
  pr    : SMap Bool := []
  loops : Loops := {}
  tloops : Loops := {}
  tpc   : Addr := 0
  tcause : Word := 0
  taddr : Addr := 0
  tstat : Word := 0
  tvec  : Addr := 0
  tsp   : Addr := 0
  tscr  : SMap Word := []
  hfpc  : Addr := 0
  hfcause : Word := 0
  hfaddr : Addr := 0
  lseg  : Addr := 0
  tsr   : Word := 0x6100
  lstat : Word := 0
  rlo   : Word := 0
  rhi   : Word := 0
  rseq  : BitVec 32 := 0
  rstat : Word := 0
  rcnt  : Word := 0
  trwt  : Word := 0xFF03
  mpc   : Word := 0
  /-- The trowel instruction at the PC goes on at MPC rather than starting anew (R98, R364). -/
  mcont : Bool := false
  /-- The trowel sequence under way (R363). -/
  mrun  : Option HawkRun := none
  /-- The line that the instruction at the PC was drawn from, its slots' bytes and its line word: one that has taken its effect on a queue
  completes from it (R36, R37). -/
  drawn : Option (List Byte × Nat) := none
  hreg  : SMap Word := []
  wait  : Wait := .none
  /-- The result of a wait that has been met and that its instruction has not yet taken. -/
  retry : Option Word := none
  pend  : List Pend := []
  /-- Conditions that wait for an S, the oldest instruction's first (R39, R92). -/
  defer : List Cond := []
  region : Option Region := none
  resv  : Option Resv := none
  /-- RILL is taken before the next instruction issues (R287). -/
  rill  : Bool := false
  /-- The watchdog's trap is taken before the next turn (R339): the launch identifier. -/
  wdog  : Option Nat := none
  /-- The wait, or its result, belongs to the younger member of the pair at the PC (R36). -/
  young : Bool := false
  /-- The issue slot is parked until a plumb reading (R388). -/
  ueStall : Option Nat := none
  /-- The load-value queue a TRAIL thread takes its values from. -/
  lvq   : List Vec := []
  /-- What a thread that is trailed waits to send, and whether the trailing thread has produced the same (R393). The stores that wait in the
  comparator before it are among the thread's results to come (`PendK.held`). -/
  cmpq  : Option (List Nat × Bool) := none
  deriving DecidableEq, Repr

/-! ### Contexts -/

/-- A thread queue (R28, R330) with the threads that wait on it, oldest first. -/
structure TQueue where
  ents   : List Word := []
  pops   : List Nat := []
  pushes : List (Nat × Word) := []
  deriving DecidableEq, Repr

/-- A semaphore (R28, R330). -/
structure Sem where
  cnt   : Nat := 0
  waits : List Nat := []
  deriving DecidableEq, Repr

/-- The inbox (R279). -/
structure Inbox where
  en   : Bool := false
  base : Nat := 0
  nent : Nat := 0
  head : Nat := 0
  tail : Nat := 0
  deriving DecidableEq, Repr

/-- An MU command with its operands as read at issue (R177). -/
structure MuCmd where
  op    : Nat
  acc   : Nat
  a     : Addr := 0
  astr  : Int := 0
  b     : Addr := 0
  bstr  : Int := 0
  k     : Nat := 0
  fa    : Nat := 0
  fb    : Nat := 0
  mode  : Nat := 0
  x     : Addr := 0
  row   : Nat := 0
  fn    : Nat := 0
  vr    : Nat := 0
  data  : Vec := 0
  thr   : Nat := 0
  pc    : Addr := 0
  priv  : Nat := 0
  xsp   : Bool := false
  hoff  : Nat := 0
  pend  : Nat := 0
  /-- The command has begun to run; a program has written the child node while an MMAS reads it (R184). -/
  run   : Bool := false
  spoilt : Bool := false
  deriving DecidableEq, Repr

/-- The MU of a context (R177, R187 to R190). -/
structure Mu where
  q     : List MuCmd := []
  done  : Nat := 0
  gdone : Nat := 0
  valid : Bool := false
  pois  : Bool := false
  pre   : Bool := false
  macc  : Nat := 0
  opc   : Nat := 0
  stop  : Bool := false
  pend  : Bool := false
  cause : Nat := 0
  addr  : Addr := 0
  /-- The PC of the command that stopped. -/
  spc   : Addr := 0
  /-- Commands ended since the unit started. -/
  ended : Nat := 0
  /-- Writes of the rows in hand that are still to be performed, in no order (R254): address, bytes, and where it lies in memory, as the
  row's check found it; and how many rows these are. -/
  burst : List (Addr × List Byte × Option Nat) := []
  rows  : Nat := 1
  deriving DecidableEq, Repr

/-- A copy or collective of the CU queue with its operands as read at issue (R199, R209). -/
structure CuCmd where
  op    : Nat
  dst   : Addr := 0
  src   : Addr := 0
  n     : Nat := 0
  tile  : Nat := 0
  sync  : Nat := 0
  res   : Addr := 0
  rin   : Addr := 0
  fn    : Nat := 0
  td    : Nat := 0
  ts    : Nat := 0
  tr    : Nat := 0
  rm    : Nat := 0
  scales : Word := 0
  thr   : Nat := 0
  priv  : Nat := 0
  xsp   : Bool := false
  batch : Nat := 0
  g     : Nat := 0
  seq   : Nat := 0
  ty    : Nat := 0
  id    : Nat := 0
  /-- Residues of CPYC computed and not yet written, as sign, mantissa and exponent of two, and whether one comes from poison (R204). -/
  carry : List ((Bool × Nat × Int) × Bool) := []
  /-- The source of a CPY that its destination overlaps, as it was read ahead (R201). -/
  ahead : Option (List Byte) := none
  /-- The bytes that a CPYG, or a CPYC of its residues, has written of doubles that it has not completed, by double (R208). -/
  masks : SMap Nat := []
  /-- A copy of nothing has made its arrival (R197). -/
  arrived : Bool := false
  /-- The source of a collective that is not complete has been written; its destination has been read (R424). -/
  spoilt : Bool := false
  early  : Bool := false
  deriving DecidableEq, Repr

/-- A write of a copy: to its destination or to its residue out, at an offset; its bytes, those that carry poison, and where it lies in
memory, as the part's check found it. -/
structure CuPut where
  res  : Bool
  off  : Nat
  bs   : List Byte
  bad  : List Nat := []
  at_  : Option Nat := none
  deriving DecidableEq, Repr

/-- Parts of a copy whose writes are under way, in no order (R254). Once all are made, `DONE` moves by `step`, the bytes of each part are
counted, the doubles at `fills` (the residue's or not, and an offset) are complete, and the command goes on as `next` (R206, R208). -/
structure Burst where
  writes : List CuPut
  step   : Nat
  amts   : List Nat
  fills  : List (Bool × Nat) := []
  next   : CuCmd
  deriving DecidableEq, Repr

/-- A chunk of a collective in flight (R211, R214). `fail` is a failure mark in place of the bytes (R424). -/
structure Chunk where
  pid   : Nat
  dstTile : Nat
  dstFab : Nat
  key   : Nat
  seq   : Nat
  rank  : Nat
  idx   : Nat
  total : Nat
  /-- Opcode, `FN`, `TY` and count, which must agree at every rank (R211). -/
  op    : Nat
  fn    : Nat
  ty    : Nat
  n     : Nat
  xsp   : Bool
  srcTile : Nat
  srcFab : Nat
  bytes : List Byte
  /-- Bytes of it that come from a poisoned double (R388). -/
  bad   : List Nat := []
  fail  : Bool := false
  rerouted : Bool := false
  /-- Its source was written before the collective was complete (R214). -/
  spoilt : Bool := false
  /-- The physical tile it comes from (R382). Of the copy that its sender keeps: a link has gone down since it was last sent, and its receiver
  has taken it or discarded it as a repeat (R214). -/
  phys : Nat := 0
  due  : Bool := false
  took : Bool := false
  deriving DecidableEq, Repr

/-- A collective group (R210, R213). -/
structure Group where
  key   : Nat
  /-- (tile, fabric node identifier) of each rank. -/
  members : List (Nat × Nat)
  rank  : Nat
  seq   : Nat := 0
  /-- The OR of the statuses of completed collectives that no CWAIT has reported (R213). -/
  status : Nat := 0
  retx  : Nat := 0
  /-- Collectives issued and not complete. -/
  left  : Nat := 0
  /-- The sender of a dropped narrow message, not yet delivered as FMTX (R213). -/
  fmx   : Option Nat := none
  /-- Chunks of the collective at the head of the queue: received ones, whether its source is sent. -/
  got   : List Chunk := []
  sent  : Bool := false
  /-- Chunks sent and not acknowledged (R214). -/
  kept  : List Chunk := []
  failed : Bool := false
  mismatch : Bool := false
  rerouted : Bool := false
  /-- A member's tile is known to be fenced (R381). -/
  lost  : Bool := false
  /-- The reading since which no chunk of the collective in hand has gone through (R214). -/
  since : Nat := 0
  deriving DecidableEq, Repr

/-- The CU of a context (R205, R206). -/
structure Cu where
  q     : List CuCmd := []
  done  : Nat := 0
  stop  : Bool := false
  pend  : Bool := false
  cause : Nat := 0
  addr  : Addr := 0
  /-- The number of the open batch; queued copies carry their batch's number (R205). -/
  batch : Nat := 0
  /-- Copies and collectives ended since the unit started. -/
  ended : Nat := 0
  /-- The part of the head copy whose writes are under way (R254). -/
  burst : Option Burst := none
  deriving DecidableEq, Repr

/-- Who called a unit by CALLAT (R319). -/
structure Caller where
  tile   : Nat
  launch : Nat
  seq    : Nat
  tag    : Nat
  deriving DecidableEq, Repr

/-- What a task starts with beside its TCB (R319, R320). -/
structure Extra where
  caller : Option Caller := none
  join   : Option Addr := none
  start  : Option Addr := none
  deriving DecidableEq, Repr

/-- A resident unit, or a folded context (R27 to R30, R44, R337). -/
structure Ctx where
  live   : Bool := false
  tcb    : Addr := 0
  launch : Nat := 0
  queue  : Nat := 0
  seq    : Nat := 0
  prio   : Nat := 0
  origin : Nat := 0
  idem   : Bool := false
  /-- `NOSTEAL` of the TCB (R42). -/
  nosteal : Bool := false
  vtile  : Nat := 0
  entry  : Nat := 0
  sregs  : Nat := 64
  vregs  : Nat := 32
  scratch : Nat := 0
  roles  : List Nat := []
  /-- The hardware threads that its threads have taken (R337). -/
  hw     : List Nat := List.range 8
  hflags : Nat := 0
  ubase  : Nat := 0
  ptbr   : Word := 0
  pid    : Nat := 0
  rlimit : Nat := 8
  qs     : SMap TQueue := []
  sems   : SMap Sem := []
  inbox  : Inbox := {}
  /-- CALLAT returns held: tag, sender and value (R281). -/
  held   : List (Nat × Nat × Word) := []
  acc    : SMap (BitVec 32) := []
  mu     : Mu := {}
  cu     : Cu := {}
  groups : SMap Group := []
  /-- Sync objects of the scratchpad with a recorded narrow mismatch, oldest first (R207). -/
  fmx    : List Nat := []
  binds  : SMap Word := []
  preempt : Bool := false
  /-- The moment of its eviction has come: no thread issues, and the image is written once its results and stores are out (R331, R332). -/
  leaving : Bool := false
  extra  : Extra := {}
  exitVal : Word := 0
  /-- The last thread has ended and UNIT_COMPLETE is due (R323). -/
  ended  : Bool := false
  /-- How far the completion has come (R323): 0 not begun, 1 the successors are being signalled, 2 the join counter is being changed; and
  whether the successor list could not be read. -/
  exiting : Nat := 0
  exitBad : Bool := false
  /-- Killed, to end with this TCB status and cause (R326, R327, R339). -/
  killed : Option (Nat × Nat) := none
  deriving DecidableEq, Repr

/-! ### Tiles -/

/-- A store on its way to memory (R237, R238). `rel` when it is a release at die scope or wider. -/
structure Store where
  a     : Nat
  bytes : List Byte
  pid   : Nat
  tile  : Nat
  /-- The scope at which its instruction returns, and that instruction's pending entry, if it waits. -/
  scope : Nat := 1
  owner : Option (Key × Nat) := none
  /-- The store is performed only when it is merged into an owned line (R239). -/
  merge : Bool := false
  /-- The store is seen as a whole (R229). -/
  whole : Bool := true
  /-- The thread whose store it is, and its place in program order (R178, R208). -/
  src : Option (Key × Nat) := none
  /-- The scope of an ordered store, else 0 (R227). -/
  rel : Nat := 0
  /-- The partition whose event ring the record belongs to (R412). -/
  ring : Option Nat := none
  deriving DecidableEq, Repr

/-- An entry of the dirty-address FIFO: a store, or a release marker at a scope (R238). -/
inductive FifoEnt where
  | store (x : Store)
  | marker (scope : Nat) (owner : Option (Key × Nat))
  deriving DecidableEq, Repr

/-- A tile's leased copy of a line (R236). -/
structure Copy where
  data : Vec
  till : Nat
  pid  : Nat
  deriving DecidableEq, Repr

/-- A cached translation (R356): `lvl` is the leaf's level and `e` the entry. With `at_` it is a walker's copy of the table entry that
lies at that physical address, brought in for this tile. -/
structure TlbEnt where
  pid  : Nat
  asid : Nat
  va   : Nat
  lvl  : Nat
  e    : Word
  mu   : Bool := false
  at_  : Option Nat := none
  deriving DecidableEq, Repr

/-- A READY task or a resumable unit (R310, R311). -/
structure Entry where
  pid    : Nat
  launch : Nat
  tcb    : Addr
  seq    : Nat
  prio   : Nat
  origin : Nat
  tready : Nat
  nosteal : Bool := false
  /-- The tile the task is READY on; its virtual tile once dispatched. -/
  tile   : Nat
  /-- The place of a parked unit in its partition's list, by `SEQ` of the launch, when the entry is a resumption. -/
  resume : Bool := false
  extra  : Extra := {}
  deriving DecidableEq, Repr

/-- What a tile keeps of one mesh neighbour beside its `VOTE` register (R375, R377, R384). -/
structure Neigh where
  /-- Heartbeats heard in this period, and whether one had a wrong sequence number or tile. -/
  heard : Nat := 0
  odd   : Bool := false
  /-- A heartbeat has been heard since the neighbour's numbers began at 0. -/
  last  : Bool := false
  /-- Consecutive periods over the flit mark. -/
  overs  : Nat := 0
  /-- Periods since the tile's own judgement, while no quorum has been reached. -/
  age   : Option Nat := none
  /-- The judgement that the last accusation heard named (R377). -/
  why    : Nat := 0
  /-- Clean periods since an APPEAL, while one is being listened to. -/
  listen : Option Nat := none
  /-- The period in which it was last judged. -/
  judged : Nat := 0
  deriving DecidableEq, Repr

/-- Lath state of a tile (R373 to R385). -/
structure Lath where
  /-- The next `HSEQ` in each direction, and the period, plus 1, in which the last heartbeat went there. -/
  hseq    : SMap Nat := []
  sent    : SMap Nat := []
  neigh   : SMap Neigh := []
  /-- A BIST that was run since the tile was sheeted has passed. -/
  bist    : Bool := false
  /-- The reading at this tile's own APPEAL, the directions it has gone to, and appeals failed (R385). -/
  appeal  : Option Nat := none
  told    : SMap Bool := []
  fails   : Nat := 0
  /-- The reading at which probation began (R384). -/
  prob    : Nat := 0
  /-- A value of HBPER that waits for the period's end, and the reading at which that period ends (R374). -/
  hbNext  : Option (Word × Nat) := none
  /-- The last built-in self-test failed (R373). -/
  bistBad : Bool := false
  deriving DecidableEq, Repr

/-- A tile. -/
structure Tile where
  sram   : SMap Byte := []
  /-- Doubles of local SRAM that are empty, and that are poisoned (R265, R388). -/
  empty  : SMap Bool := []
  poison : SMap Bool := []
  hawk   : SMap Word := []
  lsplit : Nat := 4
  lgrp   : Nat := 0
  hist   : SMap (BitVec 32) := []
  vote   : SMap Word := []
  fencest : Word := 0
  hbper  : Word := 0x0C00000C
  lath   : Lath := {}
  copies : SMap Copy := []
  fifo   : List FifoEnt := []
  /-- Fetch lines held, by physical line of 64 bytes (R50, R51). -/
  fetched : SMap (List Byte) := []
  tlb    : List TlbEnt := []
  deque  : List Entry := []
  rot    : Nat := 0
  steal  : Nat := 0
  deriving DecidableEq, Repr

/-! ### Dies and homes -/

/-- The states of a line in an agent (R242); absence is I. -/
inductive LState where
  | m | o | e | s
  deriving DecidableEq, Repr

/-- A line held by an agent (R242, R247, R248). -/
structure Held where
  st   : LState
  data : Vec
  pid  : Nat
  comp : Bool := false
  deriving DecidableEq, Repr

/-- A snoop-filter entry (R243): `dst` 1 S, 2 O, 3 X. -/
structure SfEnt where
  dst : Nat
  own : Nat := 0
  shv : Nat := 0
  h   : Bool := false
  deriving DecidableEq, Repr

/-- A transaction in progress at a home (R244, R246, R251). -/
structure Txn where
  /-- 0 RdS, 1 RdX, 2 Upg, 3 a victim, 4 host read with meta S, 5 host read with meta A, 6 host MemWr. -/
  kind : Nat
  ag   : Nat
  pid  : Nat := 0
  /-- The reading at which its probes went out (R247). -/
  since : Nat := 0
  /-- `DST` was I and `H` 0 when it began (R244). -/
  lone : Bool := false
  /-- Agents still to answer. -/
  await : List Nat := []
  /-- Halves of the line the host still has to answer for (R250, R251), and whether one answer was not BIRspI. -/
  host : List Nat := []
  hkeep : Bool := false
  /-- A host write: its address and bytes. -/
  wr   : Option (Nat × List Byte) := none
  /-- Agents that answered "not present", which count as holding nothing (R247). -/
  absent : List Nat := []
  deriving DecidableEq, Repr

/-- A request that has reached a line's home, at a plumb reading, and that no transaction has taken (R244, R246). -/
structure HomeReq where
  kind : Nat
  ag   : Nat
  pid  : Nat
  at_  : Nat
  wr   : Option (Nat × List Byte) := none
  deriving DecidableEq, Repr

/-- A queued atomic or LR (R273, R276). -/
structure ResvReq where
  who  : Key
  pend : Nat
  /-- 0 AMO, 1 CAS, 2 RED, 3 LR, 4 SC. -/
  op   : Nat
  fn   : Nat
  size : Nat
  a    : Nat
  /-- The virtual address of the access. -/
  va   : Addr := 0
  x    : Word
  y    : Word := 0
  pid  : Nat
  launch : Nat := 0
  /-- The value to merge, once granted; none for a CAS that does not write, an LR or a failed SC. -/
  new  : Option Word := none
  old  : Word := 0
  granted : Bool := false
  since : Nat := 0
  /-- The reading at which it reaches the home slice (R273). -/
  at_  : Nat := 0
  deriving DecidableEq, Repr

/-- The identity of a region (R284): its thread, the `SEQ` of its `RID`, and the `TILE` by which `RID` names its tile. -/
structure RegId where
  k   : Key
  seq : Nat := 0
  vt  : Nat := 0
  deriving DecidableEq, Repr

/-- A region's record at a slice (R292): the line, the party and its bounds as carried. -/
structure Party where
  line : Nat
  who  : RegId
  ld   : Bool
  st   : Bool
  elastic : Bool
  lo   : Nat
  hi   : Nat
  sealed_ : Option Nat := none
  /-- It is irrevocable: its stores are performed at once (R298). -/
  irr  : Bool := false
  deriving DecidableEq, Repr

/-- A recorded precedence: `x` before `y` on a line, with the positions of ended parties (R292, R295). -/
structure Edge where
  line : Nat
  x    : RegId
  y    : RegId
  px   : Option Nat := none
  py   : Option Nat := none
  deriving DecidableEq, Repr

/-- A narrowing message to a tile (R292): the region it narrows, the one whose access or seal caused it, and, of a seal's, the line whose
slice waits for its acknowledgement (R302); and the partition of the region that caused it (R347). -/
structure Narrow where
  who  : RegId
  cause : RegId
  lo   : Nat
  hi   : Nat
  line : Option Nat := none
  pid  : Nat := 0
  deriving DecidableEq, Repr

/-- A read-only replica of a line, made for a launch in a slice (R241). `live` once the launch has loaded the line with the hint. -/
structure Replica where
  slice  : Nat
  pid    : Nat
  launch : Nat
  line   : Nat
  data   : Vec
  live   : Bool := false
  deriving DecidableEq, Repr

/-- A die: its slices, region tables and monitors. -/
structure Die where
  emax   : SMap Nat := []
  waitSt : List Store := []
  pendB  : List Store := []
  repl   : List Replica := []
  owned  : List Nat := []
  /-- `wpos` and `rpos` of lines, and the floor (R292). -/
  wpos   : SMap Nat := []
  rpos   : SMap Nat := []
  flr    : SMap Nat := []
  parties : List Party := []
  edges  : List Edge := []
  token  : Option Key := none
  pmax   : Nat := 0
  /-- The overflow store (R310). -/
  overflow : List Entry := []
  /-- Turns withheld by the current monitor: 0 none, 1 every second, 2 all (R19). -/
  withhold : Nat := 0
  salvage : List (Nat × Nat × Nat × Vec) := []
  failed : Bool := false
  dumpFree : Bool := true
  /-- The fences of tiles that the die's tiles have learnt of (R381), and `NSHEET` and `LASTID` of their FENCEST (R379). -/
  knows  : List Nat := []
  nsheet : Nat := 0
  lastid : Nat := 0
  deriving DecidableEq, Repr

/-! ### Lineage -/

/-- A REBASE or FLATTEN in flight (R153, R155). `target` is 0 for none. -/
structure Engine where
  target : Nat
  cursor : Nat := 0
  undo   : Bool := false
  /-- The virtual tile of the unit to signal, and the offset of its sync object. -/
  sync   : Option (Nat × Nat) := none
  launch : Nat := 0
  kindsOld : SMap Nat := []
  paysOld : SMap (BitVec 512) := []
  deriving DecidableEq, Repr

/-- A lineage node (R143, R144). A payload is held as the value it unpacks to. -/
structure Node where
  blocks : Nat
  parent : Nat
  hidden : Bool := false
  kids   : Nat := 0
  busy   : Option Engine := none
  kinds  : SMap Nat := []
  pays   : SMap (BitVec 512) := []
  /-- Doubles known to be poisoned (1) or good (2); any other is as its block's encoding has it (R206, R388). -/
  bads   : SMap Nat := []
  last   : Nat := 0
  deriving DecidableEq, Repr

/-- A binding of a node in an address space (R156). -/
structure Bind where
  space : Nat
  base  : Nat
  node  : Nat
  rw    : Bool
  deriving DecidableEq, Repr

/-! ### Partitions -/

/-- A launch-queue descriptor (R404) and the queue's watchdog (R339). -/
structure LQ where
  en    : Bool := false
  log2n : Nat := 0
  base  : Nat := 0
  sup   : Bool := false
  tail  : Nat := 0
  head  : Nat := 0
  qptbr : Word := 0
  hslog : Nat := 0
  qtvec : Addr := 0
  qhstk : Addr := 0
  /-- The next reading at which the head slot is read again (R406). -/
  poll  : Nat := 0
  /-- The entry at the head has been read valid (R406). -/
  ready : Bool := false
  /-- The submitter has broken the rules of R406: what its launches are is UNKNOWN. -/
  wild  : Bool := false
  wstep : Nat := 0
  wfrom : Nat := 0
  deriving DecidableEq, Repr

/-- A launch (R40, R306, R308, R309). -/
structure Launch where
  queue : Nat
  /-- The launches that the queue had started before it. -/
  order : Nat
  slot  : Nat
  graph : Nat
  job   : Nat
  phase : Nat
  codebase : Nat
  tcbbase : Nat
  tcblen : Nat
  /-- Initial tasks, and how many of them have been taken (R308). -/
  ninit : Nat := 0
  taken : Nat := 0
  tset  : Nat
  frec  : Nat
  ptbr  : Word
  sup   : Bool
  qtvec : Addr
  hslog : Nat
  qhstk : Addr
  count : Nat := 0
  nextSeq : Nat := 1
  badent : Bool := false
  /-- TCBs of the tasks created and not complete, where each lies, and those whose DV-1 fields a program has stored to (R43). -/
  tasks : List Addr := []
  homes : List (Addr × Place) := []
  wild  : List Addr := []
  /-- `NUF`, `NRED` and `NLOST` of the fault record (R309). -/
  nuf : Nat := 0
  nred : Nat := 0
  nlost : Nat := 0
  /-- Each tile's own status word, and what the tiles have sent in their done messages (R41). -/
  words : SMap Nat := []
  reported : SMap Nat := []
  complete : Bool := false
  deriving DecidableEq, Repr

/-- A unit written to its context image (R332, R334). -/
structure Parked where
  ctx   : Ctx
  threads : List Thread
  mem   : List Byte
  empties : List Nat
  bads  : List Nat
  tile  : Nat
  image : Nat
  ready : Bool := false
  /-- Software has written the image (R334). -/
  bad   : Bool := false
  deriving DecidableEq, Repr

/-- An error record (R398). -/
structure ERec where
  kind  : Nat
  tile  : Nat
  pid   : Nat
  cause : Nat
  count : Nat := 0
  plumb : Nat
  addr  : Nat
  deriving DecidableEq, Repr

/-- An event ring (R412): `q` are the records posted and not yet in memory, the first of them on its way there. -/
structure Ring where
  en    : Bool := false
  log2n : Nat := 0
  base  : Nat := 0
  head  : Nat := 0
  tail  : Nat := 0
  ndrop : Nat := 0
  q     : List ERec := []
  deriving DecidableEq, Repr

/-- A partition. -/
structure Partn where
  lpool : Word := 0
  lease : Nat := 0x0800
  bal   : Word := 0x0000000400002000
  wdog1 : Nat := 0x100000
  wdog2 : Nat := 0x1000
  wdog3 : Nat := 0x1000
  nodes : SMap Node := []
  /-- Node identifiers given out so far, and that number at the moment each freed identifier was freed (R142). -/
  given : Nat := 0
  freed : SMap Nat := []
  binds : List Bind := []
  launches : SMap Launch := []
  /-- The current phase of each job (R40). -/
  phases : SMap Nat := []
  queues : SMap LQ := []
  ring  : Ring := {}
  parked : List Parked := []
  /-- Software has written the skim pool (R146). -/
  poolBad : Bool := false
  deriving DecidableEq, Repr

/-- An applied or stored partition configuration (R346, R409). `tdef` owns the tiles that `town` does not list; 0xFF is
no owner. A range is (base, length, owner) in bytes. -/
structure PConfig where
  pseq   : Nat := 0
  pmask  : Nat := 0
  reden  : Nat := 0
  reduce : Nat := 0
  tdef   : Nat := 0xFF
  town   : SMap Nat := []
  lown   : List Nat := []
  hown   : List Nat := []
  pown   : List Nat := []
  save   : SMap (Nat × Nat) := []
  ranges : List (Nat × Nat × Nat) := []
  deriving DecidableEq, Repr

/-! ### The part -/

/-- A message on the task channel, or another message in flight (R253). -/
inductive Msg where
  /-- APPEND from a thread to a unit of its launch (R281). -/
  | append (src : Key) (pend : Nat) (pid launch vsrc dst tag : Nat) (data : List Word)
  /-- A CALLAT return (R319). -/
  | callRet (src : Nat) (pid : Nat) (tgt : Caller) (v : Word)
  /-- A successor's SIGNAL (R323), to the slice beside the tile `dst`, which takes effect at a reading from `after` on (R342). -/
  | signal (src pid launch : Nat) (tcb : Addr) (dst after : Nat)
  deriving DecidableEq, Repr

/-- Copy bytes or a lineage signal for a unit that is not resident (R336). -/
structure Away where
  pid    : Nat
  launch : Nat
  vtile  : Nat
  off    : Nat
  bytes  : List Byte
  sync   : Nat
  amt    : Nat
  signal : Bool
  src    : Nat := 0
  /-- The sender's XSP, when the traffic is narrow (R207). -/
  xsp    : Option Bool := none
  /-- `NLOST` counts it when it is dropped: one arrival for each part of a copy (R197, R309, R336). -/
  lone   : Bool := true
  /-- The copy it belongs to, the bytes that carry poison, and the doubles that it completes (R205, R206, R208). -/
  id     : Option Nat := none
  bad    : List Nat := []
  fills  : List Nat := []
  deriving DecidableEq, Repr

/-- A RED placed in a reservation buffer (R277). `fault` is a late failure: cause and address. -/
structure Red where
  pid    : Nat
  launch : Nat
  tile   : Nat
  at_    : Place
  fn     : Nat
  size   : Nat
  x      : Word
  fault  : Option (Nat × Addr) := none
  /-- The thread, and its place in program order; whether it is an acquire (R227), and whether it is strongly ordered (R226). -/
  who    : Key := ⟨0, 0, 0⟩
  id     : Nat := 0
  acq    : Bool := false
  so     : Bool := false
  /-- The reading at which it reaches its line's slice (R253, R273). -/
  time   : Nat := 0
  deriving DecidableEq, Repr

/-- A fence or readmit broadcast (R378, R384): the tile, the cause (0 readmit, 1 SILENT, 2 BABBLING, 3 firmware), and the
dies that have still to learn of it. -/
structure Cast where
  x     : Nat
  cause : Nat
  left  : List Nat
  deriving DecidableEq, Repr

/-- A heartbeat on its way over the one-hop link to a tile, from its neighbour in a direction, with its fields (R373). -/
structure Beat where
  dst    : Nat
  dir    : Nat
  tile   : Nat
  hseq   : Nat
  health : Nat
  deriving DecidableEq, Repr

/-- An accusation, or a readmit vote, on its way to a neighbour of its target (R377, R384). -/
structure Acc where
  dst    : Nat
  target : Nat
  who    : Nat
  judge  : Nat
  deriving DecidableEq, Repr

/-- The signed persistent store (R418, R409, R411, R395 to R397). SDC counts are by 64 × physical tile + unit: a lane 0–31, a
sub-array 32–63. -/
structure Persist where
  /-- The last record applied; none is the manufacture record (R409). -/
  record : Option PConfig := none
  opKey  : Nat × Nat := (0, 0)
  kseq   : Nat := 0
  /-- The scrim map: `SKIPCOL` of the rows whose spare is in use (R12), ports that run on their spare lane, and spare wires of
  die-to-die links in use (R397). -/
  skipcol : SMap Nat := []
  laneSpare : SMap Bool := []
  wires  : SMap Nat := []
  /-- Spare rows in use, by DRAM bank, and the banks whose place a spare bank takes from the next reset on (R395, R397). -/
  dramSpare : SMap Nat := []
  bankSpare : SMap Bool := []
  /-- Ways out of use, by L2 slice, and the dies whose spare LLC bank is in use from the next reset on (R397). -/
  l2Ways : SMap Nat := []
  llcSpare : SMap Bool := []
  /-- Tile clusters whose tiles run BIST at the next reset (R395). -/
  bist   : SMap Bool := []
  sdc    : SMap Nat := []
  /-- Tiles sheeted for good that no spare replaces (R13). -/
  perm   : SMap Bool := []
  /-- `LEAK` and `MARK` of DRAM banks, lanes and tile clusters (R395). -/
  leak   : List Nat := [0x40000000, 0x40000000, 0x40000000]
  mark   : List Nat := [64, 64, 64]
  dseq   : Nat := 0
  missed : Nat := 0
  boots  : Nat := 0
  /-- The least version that a firmware image may have (R418). -/
  minVer : Nat := 0
  /-- Start-record entries: SST, NFAIL, ALT and the reading at the step's end (R416). -/
  start  : SMap (Nat × Nat × Nat × Nat) := []
  deriving DecidableEq, Repr

/-- Who moves next (log 2): a step of another agent, the next turn of a tile, or cycles passing. -/
inductive Move where
  | event (i : Instr)
  | turn (tile : Nat)
  | tick (n : Nat)
  deriving DecidableEq, Repr

/-- The state of the part. -/
structure State where
  cur   : Key
  thr   : Thread
  ctx   : Ctx
  tile  : Tile
  threads : SMap Thread
  ctxs  : SMap Ctx
  tiles : SMap Tile
  dies  : SMap Die
  agents : SMap (SMap Held)
  /-- Write-back buffers of agents: the line and whether a probe has taken it (R242, R245). -/
  wbufs : SMap (SMap (Held × Bool))
  mem   : SMap Byte
  /-- Doubles of memory that are empty, and that are poisoned, by address ÷ 8 (R265, R388). -/
  empty : SMap Bool
  poison : SMap Bool
  /-- Poisoned doubles whose uncorrectable error no consumer has found yet (R388). -/
  ues   : List Place
  filter : SMap SfEnt
  txns  : SMap Txn
  homeq : SMap (List HomeReq)
  resvq : SMap (List ResvReq)
  /-- Host snoops of host lines that wait for a release (R426): 0 SnpData, 1 SnpInv, 2 SnpCur, plus 4 for each grant made since. -/
  hostWait : SMap Nat
  parts : SMap Partn
  cfg   : PConfig
  msgs  : List Msg
  narrows : List Narrow
  away  : List Away
  reds  : List Red
  net   : List Chunk
  plumb : Nat
  fresh : Nat
  agenda : List Move
  started : Bool
  /-- Dies whose DRAM and tiles are present, and tiles that are not, at start-up (R26, R417). -/
  dieMask : Nat
  absent : SMap Bool
  /-- `SKIPCOL` of each row as it was read at start-up, held until the next reset (R12); an unlisted row has 32. -/
  skipNow : SMap Nat
  stopped : Bool
  capGen : SMap Nat
  domPos : Nat
  members : Nat
  /-- Parts of the domain that have failed, by bit (R392). -/
  lostParts : Nat
  fabids : SMap Nat
  serial : Nat
  lanes : Nat
  portUp : SMap Bool
  portSpare : SMap Bool
  d2dUp : SMap Bool
  d2dWires : SMap Nat
  fence : SMap Nat
  casts : List Cast
  /-- Heartbeats and accusations on their way (R373, R377). -/
  beats : List Beat
  accs  : List Acc
  /-- Units that were resident on a tile when it was fenced: the tile, and their partition, launch and virtual tile (R381). -/
  sunk  : List (Nat × Nat × Nat × Nat)
  mbArg0 : Word
  mbArg1 : Word
  mbCmd : Nat
  mbSt  : Nat
  mbErr : Nat
  elcount : Nat
  lastErr : Option ERec
  buckets : SMap Nat
  /-- How often each bucket has leaked (R395). -/
  leaks : SMap Nat
  throttle : Nat
  acted : Nat
  monActed : Bool
  /-- The running counts of R396, and the reading at which they were last saved. -/
  sdc : SMap Nat
  sdcAt : Nat
  /-- The die of the newest fatal dump. -/
  newest : Option Nat
  /-- The signed persistent store, as the copy with the higher version holds it; the older copy and whether its signature holds; and the version
  (R418). -/
  store : Persist
  older : Persist
  olderOk : Bool
  version : Nat
  /-- Lines that a thread's load has missed and that come only by a step of their own: the die's agent, the line and the load's identifier
  (R347). -/
  wants : List (Nat × Nat × Nat)
  deriving DecidableEq, Repr

/-- The manufacture record (R409): partition 0 owns everything; its ranges are the DRAM of each die below the firmware
area, its save pool the top 16 GiB of die 0's range, on a part at a position of its domain. -/
def PConfig.manufacture (pos : Nat) : PConfig :=
  { pmask := 1, tdef := 0, lown := List.replicate 16 0, hown := List.replicate 8 0, pown := List.replicate 24 0,
    save := [(0, (pos * 2 ^ 40 + 0x1BFC000000, 0x400000000))],
    ranges := (List.range 8).map fun d => (pos * 2 ^ 40 + d * 2 ^ 37, 0x1FFC000000, 0) }

/-- The part right after reset: every register at its reset value (R4), every map empty, the start-up steps not run. -/
def State.reset : State :=
  { cur := ⟨0, 0, 0⟩, thr := {}, ctx := {}, tile := {}, threads := [], ctxs := [], tiles := [], dies := [],
    agents := [], wbufs := [], mem := [], empty := [], poison := [], ues := [], filter := [], txns := [], homeq := [], resvq := [],
    hostWait := [], parts := [], cfg := {}, msgs := [], narrows := [], away := [], reds := [], net := [], plumb := 0,
    fresh := 0, agenda := [], started := false, dieMask := 0, absent := [], skipNow := [], stopped := false, capGen := [], domPos := 0, members := 0, lostParts := 0,
    fabids := [], serial := 0, lanes := 0, portUp := [], portSpare := [], d2dUp := [], d2dWires := [], fence := [], casts := [], beats := [], accs := [], sunk := [],
    mbArg0 := 0, mbArg1 := 0, mbCmd := 0, mbSt := 0, mbErr := 0, elcount := 0, lastErr := none, buckets := [], leaks := [],
    throttle := 0, acted := 0, monActed := false, sdc := [], sdcAt := 0, newest := none, store := {}, older := {}, olderOk := true,
    version := 1, wants := [] }

end Sys2Proof.Machine
end

