-- ==== Sys2Proof/Machine/Focus.lean ====
section
/-! DEFINITION. Reading and writing the parts of the state: threads, contexts, tiles, dies, partitions, and the registers
of the thread in focus (R29, R38). -/

namespace Sys2Proof.Machine

/-! ### The thread, context and tile of a key -/

/-- The place of a context, and of a thread, in the maps (R11, R337, R29). -/
def ctxNo (t c : Nat) : Nat := 4 * t + c
def Key.no (k : Key) : Nat := 8 * ctxNo k.t k.c + k.i

def State.getThread (s : State) (k : Key) : Thread := if k = s.cur then s.thr else SMap.get {} s.threads k.no

def State.setThread (s : State) (k : Key) (x : Thread) : State :=
  if k = s.cur then { s with thr := x } else { s with threads := SMap.set {} s.threads k.no x }

def State.modThread (s : State) (k : Key) (f : Thread → Thread) : State := s.setThread k (f (s.getThread k))

def State.getCtx (s : State) (t c : Nat) : Ctx :=
  if t = s.cur.t ∧ c = s.cur.c then s.ctx else SMap.get {} s.ctxs (ctxNo t c)

def State.setCtx (s : State) (t c : Nat) (x : Ctx) : State :=
  if t = s.cur.t ∧ c = s.cur.c then { s with ctx := x } else { s with ctxs := SMap.set {} s.ctxs (ctxNo t c) x }

def State.modCtx (s : State) (t c : Nat) (f : Ctx → Ctx) : State := s.setCtx t c (f (s.getCtx t c))

def State.getTile (s : State) (t : Nat) : Tile := if t = s.cur.t then s.tile else SMap.get {} s.tiles t

def State.setTile (s : State) (t : Nat) (x : Tile) : State :=
  if t = s.cur.t then { s with tile := x } else { s with tiles := SMap.set {} s.tiles t x }

def State.modTile (s : State) (t : Nat) (f : Tile → Tile) : State := s.setTile t (f (s.getTile t))

/-- Puts a thread, with its context and tile, into focus; nothing of the machine changes (log 2). -/
def State.focus (s : State) (k : Key) : State :=
  if k = s.cur then s else
  { s with
    cur := k, thr := s.getThread k, ctx := s.getCtx k.t k.c, tile := s.getTile k.t,
    threads := SMap.erase (SMap.set {} s.threads s.cur.no s.thr) k.no,
    ctxs := if k.t = s.cur.t ∧ k.c = s.cur.c then s.ctxs else
      SMap.erase (SMap.set {} s.ctxs (ctxNo s.cur.t s.cur.c) s.ctx) (ctxNo k.t k.c),
    tiles := if k.t = s.cur.t then s.tiles else SMap.erase (SMap.set {} s.tiles s.cur.t s.tile) k.t }

/-- The die of a tile (R11), and the agent number of a die of this part (R242). -/
def dieOf (t : Nat) : Nat := t / 512
def State.agentOf (s : State) (d : Nat) : Nat := 8 * s.domPos + d

def State.getDie (s : State) (d : Nat) : Die := SMap.get {} s.dies d
def State.setDie (s : State) (d : Nat) (x : Die) : State := { s with dies := SMap.set {} s.dies d x }
def State.modDie (s : State) (d : Nat) (f : Die → Die) : State := s.setDie d (f (s.getDie d))

def State.getPart (s : State) (p : Nat) : Partn := SMap.get {} s.parts p
def State.setPart (s : State) (p : Nat) (x : Partn) : State := { s with parts := SMap.set {} s.parts p x }
def State.modPart (s : State) (p : Nat) (f : Partn → Partn) : State := s.setPart p (f (s.getPart p))

/-- The partition that owns a tile (R346, R409). -/
def State.ownerOf (s : State) (t : Nat) : Nat := SMap.get s.cfg.tdef s.cfg.town t

/-- A new number for free values (log 6). -/
def State.tickFresh (s : State) : State := { s with fresh := s.fresh + 1 }

/-- The keys of the threads of a context. -/
def ctxKeys (t c : Nat) : List Key := (List.range 8).map fun i => ⟨t, c, i⟩

/-- Every context that is live, by tile and number. -/
def State.liveCtxs (s : State) : List (Nat × Nat) :=
  let here := if s.ctx.live then [(s.cur.t, s.cur.c)] else []
  here ++ (s.ctxs.filter fun e => e.2.live).map fun e => (e.1 / 4, e.1 % 4)

/-- The tile and context where the unit of a launch with a virtual tile number is resident (R259, R281). -/
def State.unitAt (s : State) (pid launch vt : Nat) : Option (Nat × Nat) :=
  s.liveCtxs.find? fun tc =>
    let x := s.getCtx tc.1 tc.2
    x.pid == pid && x.launch == launch && x.vtile == vt

/-! ### Registers -/

/-- A register that discards writes and reads as a constant (R29). -/
def Reg.fixed : Reg → Bool
  | .s n | .k n | .p n => n == 0
  | .a _ | .v _ => false

/-- The register file's own value (R29): s0 reads 0, k0 all ones, p0 true. -/
def Thread.reg (x : Thread) : Reg → Vec
  | .s n => if n = 0 then 0 else (SMap.get 0 x.sr n).setWidth 1024
  | .a n => (SMap.get 0 x.ar n).setWidth 1024
  | .v n => SMap.get 0 x.vr n
  | .k n => if n = 0 then 0xFFFFFFFF else (SMap.get 0 x.kr n).setWidth 1024
  | .p n => if n = 0 then 1 else BitVec.ofNat 1024 (b2n (SMap.get false x.pr n))

/-- Sets a register; a write to s0, k0 or p0 is discarded (R29). -/
def Thread.setReg (x : Thread) (r : Reg) (v : Vec) : Thread :=
  match r with
  | .s n => if n = 0 then x else { x with sr := SMap.set 0 x.sr n (v.setWidth 64) }
  | .a n => { x with ar := SMap.set 0 x.ar n (v.setWidth 72) }
  | .v n => { x with vr := SMap.set 0 x.vr n v }
  | .k n => if n = 0 then x else { x with kr := SMap.set 0 x.kr n (v.setWidth 32) }
  | .p n => if n = 0 then x else { x with pr := SMap.set false x.pr n (v.getLsbD 0) }

/-- Marks a register as written by a younger instruction in every class V result still to come (R38 item 5). -/
def Thread.clobber (x : Thread) (r : Reg) : Thread :=
  { x with pend := x.pend.map fun p =>
      { p with dests := p.dests.map fun d => if d.r = r then { d with clob := true } else d } }

/-- The value that a result still to come will bring is known; that of an atomic, a message or an MRDV comes with its answer. -/
def PendK.known : PendK → Bool
  | .atomic _ | .msg | .mrdv => false
  | _ => true

/-- The value that a result still to come will bring is known, and will be brought: no load still to be bound (R226), and no condition
that came with the response, which leaves the register as it is (R39, R388). -/
def Pend.known (p : Pend) : Bool := p.what.known && p.cond.isNone && p.load.isNone

/-- A register read at operand position `pos`: a pending register gives the old value or the new one (R38 item 3), the old one
while the new is not known yet. -/
def State.reg (s : State) (r : Reg) (pos : Nat := 0) : Vec :=
  s.thr.pend.foldl (fun v p => p.dests.foldl (fun v d =>
    if d.r = r && p.known && Config.readNew s.fresh (16 * p.id + pos) then d.v else v) v) (s.thr.reg r)

/-- A register written by an instruction at once (class F). -/
def State.wr (s : State) (r : Reg) (v : Vec) : State := { s with thr := (s.thr.clobber r).setReg r v }

def State.rs (s : State) (n : Nat) (pos : Nat := 0) : Word := (s.reg (.s n) pos).setWidth 64
def State.ra (s : State) (n : Nat) (pos : Nat := 1) : Addr := (s.reg (.a n) pos).setWidth 72
def State.rv (s : State) (n : Nat) (pos : Nat := 2) : Vec := s.reg (.v n) pos
def State.rk (s : State) (n : Nat) (pos : Nat := 8) : BitVec 32 := (s.reg (.k n) pos).setWidth 32
def State.rp (s : State) (n : Nat) (pos : Nat := 9) : Bool := (s.reg (.p n) pos).getLsbD 0

/-- Values in the carrier of a register. -/
def ofWord (w : Word) : Vec := w.setWidth 1024
def ofAddr (a : Addr) : Vec := a.setWidth 1024
def ofBool (b : Bool) : Vec := BitVec.ofNat 1024 (b2n b)

def State.ws (s : State) (n : Nat) (w : Word) : State := s.wr (.s n) (ofWord w)
def State.wa (s : State) (n : Nat) (a : Addr) : State := s.wr (.a n) (ofAddr a)
def State.wp (s : State) (n : Nat) (b : Bool) : State := s.wr (.p n) (ofBool b)

/-- An uncorrectable error has been found in data that a thread consumes: its issue slot is parked while its registers are rewritten
(R388). -/
def Thread.stalls (x : Thread) (now : Nat) (cond : Option (Nat × Addr)) : Thread :=
  if cond.any fun e => e.1 == 0x20 then { x with ueStall := some (now + 512) } else x

/-- Leaves a class V result to come with the values it will hold (R38 item 2). A register that discards writes is no
destination. -/
def State.leave (s : State) (what : PendK) (ds : List (Reg × Vec)) (cond : Option (Nat × Addr) := none)
    (load : Option Unbound := none) : State :=
  let x := (ds.foldl (fun x d => x.clobber d.1) s.thr).stalls s.plumb cond
  { s with thr := { x with pend := x.pend ++
      [{ id := s.fresh, pc := x.pc, what := what,
         dests := (ds.filter fun d => !d.1.fixed).map fun d => { r := d.1, v := d.2 }, cond := cond, load := load }] } }

/-- Changes a result still to come. -/
def Thread.modPend (x : Thread) (id : Nat) (f : Pend → Pend) : Thread :=
  { x with pend := x.pend.map fun p => if p.id = id then f p else p }

/-- A load's result, which may bind after the load has issued (R226, R229). -/
def State.leaveLoad (s : State) (ds : List (Reg × Vec)) (cond : Option (Nat × Addr)) (u : Option Unbound) : State :=
  s.leave .ready ds cond u

/-- A class V result that needs nothing more. -/
def State.late (s : State) (ds : List (Reg × Vec)) (cond : Option (Nat × Addr) := none) : State := s.leave .ready ds cond

/-- Puts a condition among those that wait, in the order of their instructions (R92 item 4). -/
def insertCond (c : Cond) : List Cond → List Cond
  | [] => [c]
  | d :: r => if c.id < d.id then c :: d :: r else d :: insertCond c r

/-- Returns the results of one class V instruction (R38): a destination that a younger instruction has written keeps one
of the two values. A condition that came with the response leaves the destinations and waits for an S (R39, R388). -/
def Thread.takeResult (x : Thread) (p : Pend) : Thread :=
  let y := { x with pend := x.pend.filter fun q => q.id != p.id }
  match p.cond with
  | none => p.dests.foldl (fun y d => if d.clob && !Config.clobberKeepsReturn p.id then y else y.setReg d.r d.v) y
  | some (c, a) => { y with defer := insertCond { id := p.id, pc := p.pc, cause := c, at_ := a } y.defer }

/-- The value a result still to come will bring to its register is now known. -/
def Pend.answer (p : Pend) (v : Word) : Pend :=
  { p with what := .ready, dests := p.dests.map fun d => { d with v := ofWord v } }

end Sys2Proof.Machine
end

