-- ==== Sys2Proof/Machine/Node.lean ====
section
/-! DEFINITION. Lineage nodes: block maps, payloads, what a read resolves to, what a write encodes, and the pool's bytes
(R142 to R156). -/

namespace Sys2Proof.Machine

/-- A 64-byte block as a number of 512 bits. -/
abbrev Block := BitVec 512

/-- Byte `j` of a bit vector read as memory (R2). -/
def byteOf {n : Nat} (x : BitVec n) (j : Nat) : Byte := x.extractLsb' (8 * j) 8

/-- The number whose byte `j` is the list's `j`-th byte. -/
def ofLE : List Byte → Nat
  | [] => 0
  | b :: r => b.toNat + 256 * ofLE r

/-- The low `n` bytes of a number, lowest first. -/
def toLE : Nat → Nat → List Byte
  | 0, _ => []
  | n + 1, x => BitVec.ofNat 8 x :: toLE n (x / 256)

/-- Replaces bytes of a bit vector from byte `off` on. -/
def putBytes {n : Nat} (x : BitVec n) (off : Nat) (bs : List Byte) : BitVec n :=
  let m : BitVec n := BitVec.ofNat n ((2 ^ (8 * bs.length) - 1) * 2 ^ (8 * off))
  (x &&& ~~~m) ||| (BitVec.ofNat n (ofLE bs * 2 ^ (8 * off)) &&& m)

/-- Bytes of a bit vector from byte `off` on. -/
def getBytes {n : Nat} (x : BitVec n) (off len : Nat) : List Byte := (List.range len).map fun j => byteOf x (off + j)

/-- The number of nonzero bytes of a block. -/
def nzBytes (v : Block) : Nat := ((List.range 64).filter fun j => byteOf v j != 0).length

/-- Length of a byte-mask payload (R145). -/
def maskLen (v : Block) : Nat := 8 + (nzBytes v + 7) / 8 * 8

/-- The mask of a list of bytes: bit j is 1 when byte j is not zero (R145). -/
def byteMask : List Byte → Nat
  | [] => 0
  | b :: r => b2n (b != 0) + 2 * byteMask r

/-- The byte-mask payload of a value (R145): its mask, its nonzero bytes, and zeros up to a multiple of 8 bytes. -/
def packBytes (v : Block) : List Byte :=
  let bs := getBytes v 0 64
  let nz := bs.filter (· != 0)
  toLE 8 (byteMask bs) ++ nz ++ List.replicate ((nz.length + 7) / 8 * 8 - nz.length) 0

/-- Places the listed bytes at the positions that a mask names, of so many (R145). -/
def spread : Nat → Nat → List Byte → List Byte
  | 0, _, _ => []
  | n + 1, m, bs => if m % 2 = 1 then bs.headD 0 :: spread n (m / 2) (bs.drop 1) else 0 :: spread n (m / 2) bs

/-- The value of a byte-mask payload (R145). -/
def unpack (bs : List Byte) : Block := BitVec.ofNat 512 (ofLE (spread 64 (ofLE (bs.take 8)) (bs.drop 8)))

/-- The payload of a kind whose value is `v`, as the pool holds it, and its length (R144 to R146). -/
def payload (kind : Nat) (v : Block) : List Byte := if kind = 0 then [] else if kind = 3 then getBytes v 0 64 else packBytes v
def payLen (kind : Nat) (v : Block) : Nat := if kind = 0 then 0 else if kind = 3 then 64 else maskLen v

/-- Encode of R151: the kind and payload of value `v`, against the parent's value, or as a root's block. -/
def encodeBlock (v : Block) (parent : Option Block) : Nat × Block :=
  match parent with
  | none => if v = 0 then (0, 0) else if maskLen v < 64 then (2, v) else (3, v)
  | some q =>
    let d := v ^^^ q
    if d = 0 then (0, 0)
    else if maskLen d ≤ 64 ∧ maskLen d ≤ maskLen v then (1, d)
    else if maskLen v < 64 then (2, v)
    else (3, v)

/-- A partition's node. -/
def Partn.node (p : Partn) (n : Nat) : Option Node := if n = 0 then none else SMap.find p.nodes n

/-- The parent a block resolves against, of a busy node the target below the cursor (R153). -/
def Node.parentAt (x : Node) (b : Nat) : Nat :=
  match x.busy with
  | none => x.parent
  | some e => if b < e.cursor then e.target else x.parent

/-- Resolve of R148, over at most `fuel` nodes of the chain (R143). -/
def Partn.resolve (p : Partn) : Nat → Nat → Nat → Block
  | 0, _, _ => 0
  | fuel + 1, n, b =>
    match p.node n with
    | none => 0
    | some x =>
      let k := SMap.get 0 x.kinds b
      let v := SMap.get 0 x.pays b
      if k = 2 ∨ k = 3 then v
      else
        let q := x.parentAt b
        let base := if q = 0 then 0 else p.resolve fuel q b
        if k = 1 then base ^^^ v else base

/-- The longest chain: 16 nodes (R143), and the target of an engine beside it. -/
def chainMax : Nat := 17

/-- The value of a block of a node, and of the null parent none. -/
def Partn.blockOf (p : Partn) (n b : Nat) : Block := p.resolve chainMax n b
def Partn.parentVal (p : Partn) (q b : Nat) : Option Block := if q = 0 then none else some (p.blockOf q b)

/-- The depth of a node, computed from its current parents (R143). -/
def Partn.depth (p : Partn) : Nat → Nat → Nat
  | 0, _ => 0
  | fuel + 1, n =>
    match p.node n with
    | none => 0
    | some x => if x.parent = 0 then 0 else 1 + p.depth fuel x.parent

/-- The nodes from `n` up to, and not including, `g` (R160); none when `g` is neither `n` nor above it. -/
def Partn.path (p : Partn) (g : Nat) : Nat → Nat → Option (List Nat)
  | 0, n => if n = g then some [] else none
  | fuel + 1, n =>
    if n = g then some []
    else match p.node n with
      | none => none
      | some x => (p.path g fuel x.parent).map (n :: ·)

/-- Pool bytes of a node's payloads, of both encodings while it is busy (R155). -/
def kindsBytes (ks : SMap Nat) (vs : SMap Block) : Nat :=
  ks.foldl (fun n e => n + payLen e.2 (SMap.get 0 vs e.1)) 0

/-- Pool bytes of a node (R146, R155, R161). -/
def Node.bytes (x : Node) : Nat :=
  64 + 64 * ((x.blocks + 255) / 256) + kindsBytes x.kinds x.pays +
  (match x.busy with | none => 0 | some e => kindsBytes e.kindsOld e.paysOld)

/-- Pool bytes in use, and the pool's size (R146, R147). -/
def Partn.poolUsed (p : Partn) : Nat := p.nodes.foldl (fun n e => n + e.2.bytes) 0
def Partn.poolSize (p : Partn) : Nat :=
  if p.lpool.getLsbD 0 then bits p.lpool.toNat 1 15 * 0x4000000 else 0

def Partn.setNode (p : Partn) (n : Nat) (x : Node) : Partn := { p with nodes := SMap.put p.nodes n x }

/-- Sets one block's kind and payload. -/
def Node.setBlock (x : Node) (b : Nat) (kv : Nat × Block) : Node :=
  { x with kinds := SMap.set 0 x.kinds b kv.1, pays := SMap.set 0 x.pays b (if kv.1 = 0 then 0 else kv.2) }

/-- Writes one block's new value (R151), of a busy node against the target and against the old parent below the cursor
(R154, R155). -/
def Partn.writeBlock (p : Partn) (n b : Nat) (v : Block) : Partn :=
  match p.node n with
  | none => p
  | some x =>
    let y := x.setBlock b (encodeBlock v (p.parentVal (x.parentAt b) b))
    match x.busy with
    | none => p.setNode n y
    | some e =>
      if b < e.cursor then
        let o := encodeBlock v (p.parentVal x.parent b)
        p.setNode n { y with busy := some { e with
          kindsOld := SMap.set 0 e.kindsOld b o.1, paysOld := SMap.set 0 e.paysOld b (if o.1 = 0 then 0 else o.2) } }
      else p.setNode n y

/-- Replaces bytes of a node from byte `off` on, block by block. -/
def Partn.writeBlocks (p : Partn) (n : Nat) : List Nat → Nat → List Byte → Partn
  | [], _, _ => p
  | b :: r, off, bs =>
    let at_ := off - 64 * b
    let k := 64 - at_
    ((p.writeBlock n b (putBytes (p.blockOf n b) at_ (bs.take k))).writeBlocks n r (off + k) (bs.drop k))

/-- The payloads that a node holds of a block: of its encoding and, while it is busy, of the one kept (R155). -/
def Node.encs (x : Node) (b : Nat) : List (Nat × Block) :=
  ([(SMap.get 0 x.kinds b, SMap.get 0 x.pays b)] ++
    (x.busy.map fun e => (SMap.get 0 e.kindsOld b, SMap.get 0 e.paysOld b)).toList).filter fun e => e.1 != 0

/-- A node's blocks have no payload that they did not have before; one that is kept aside is not new (R155). -/
def Node.noNew (x y : Node) : Bool :=
  (y.kinds.map (·.1) ++ ((y.busy.map fun e => e.kindsOld.map (·.1)).getD [])).all fun b => ((y.encs b).diff (x.encs b)).isEmpty

/-- The pool supplies what the partition's nodes hold in `q` beyond `p` (R146, R147): while it is not enabled, no new payload. -/
def Partn.supplies (p q : Partn) : Bool :=
  if q.lpool.getLsbD 0 then q.poolUsed ≤ q.poolSize || q.poolUsed ≤ p.poolUsed
  else q.nodes.all fun e => (SMap.find p.nodes e.1).any fun x => x.noNew e.2

/-! ### Poisoned doubles -/

/-- A double of a node is poisoned (R388): as it is known to be, or, where its block is its parent's or differs from it, as there. -/
def Partn.badAt (p : Partn) : Nat → Nat → Nat → Bool
  | 0, _, _ => false
  | fuel + 1, n, d =>
    match p.node n with
    | none => false
    | some x =>
      match SMap.get 0 x.bads d with
      | 1 => true
      | 2 => false
      | _ =>
        let k := SMap.get 0 x.kinds (d / 8)
        let q := x.parentAt (d / 8)
        if k = 2 ∨ k = 3 ∨ q = 0 then false else p.badAt fuel q d

/-- Some node of the partition has a poisoned double, and one of these of a node is one. -/
def Partn.hasBad (p : Partn) : Bool := p.nodes.any fun e => !e.2.bads.isEmpty
def Partn.anyBad (p : Partn) (n off len : Nat) : Bool :=
  p.hasBad && (List.range ((off + len + 7) / 8 - off / 8)).any fun j => p.badAt chainMax n (off / 8 + j)

/-- Makes a double of a node poisoned, or good. -/
def Partn.setBad (p : Partn) (n d : Nat) (bad : Bool) : Partn :=
  match p.node n with
  | none => p
  | some x => p.setNode n { x with bads := SMap.put x.bads d (if bad then 1 else 2) }

/-- The doubles of blocks stay as they were in `p` while a node's encodings, or its parent, become those of `q`; one that is written whole
is good (R388). -/
def Partn.keepBad (p q : Partn) (n : Nat) (blocks : List Nat) (whole : Nat → Bool) : Partn :=
  if !p.hasBad then q
  else (blocks.flatMap fun b => (List.range 8).map (8 * b + ·)).foldl (fun q d =>
    let bad := p.badAt chainMax n d && !whole d
    if q.badAt chainMax n d == bad then q else q.setBad n d bad) q

/-- A write of bytes to a node (R151): none when the pool cannot supply the new payloads, and no block changes. -/
def Partn.nodeWrite (p : Partn) (n off : Nat) (bs : List Byte) : Option Partn :=
  if bs = [] then some p else
  let b0 := off / 64
  let blocks := (List.range ((off + bs.length - 1) / 64 - b0 + 1)).map (· + b0)
  let q := p.writeBlocks n blocks off bs
  if p.supplies q then some (p.keepBad q n blocks fun d => off ≤ 8 * d && 8 * d + 8 ≤ off + bs.length) else none

/-- One byte of a node (R148). -/
def Partn.nodeByte (p : Partn) (n off : Nat) : Byte := byteOf (p.blockOf n (off / 64)) (off % 64)

/-- The binding that covers an address in an address space (R156). -/
def Partn.bindAt (p : Partn) (space va : Nat) : Option Bind :=
  p.binds.find? fun b =>
    match p.node b.node with
    | none => false
    | some x => b.space == space && b.base ≤ va && va < b.base + (64 * x.blocks + 0xFFFF) / 0x10000 * 0x10000

/-- A node is freed: its identifier rests until 2^32 - 2 others have been given out (R142). -/
def Partn.freeNode (p : Partn) (n : Nat) : Partn := { p with nodes := SMap.erase p.nodes n, freed := SMap.put p.freed n p.given }

/-- An identifier may not be given out: it names a node, or has not rested (R142). -/
def Partn.idTaken (p : Partn) (n : Nat) : Bool :=
  (SMap.find p.nodes n).isSome || (SMap.find p.freed n).any fun g => p.given < g + (2 ^ 32 - 2)

/-- A parent has lost a child (R152): a HIDDEN one without children is freed, and the rule climbs. -/
def Partn.loseChild (p : Partn) : Nat → Nat → Partn
  | 0, _ => p
  | fuel + 1, n =>
    match p.node n with
    | none => p
    | some x =>
      if x.kids ≤ 1 ∧ x.hidden then
        (p.freeNode n).loseChild fuel x.parent
      else p.setNode n { x with kids := x.kids - 1 }

end Sys2Proof.Machine
end

