-- ==== Sys2Proof/Machine/Line.lean ====
section
/-! DEFINITION. Memory line by line: the bytes of DRAM and of the host, the agents that hold lines, the stores on their
way, and what a die, a tile or the home sees of a line (R236 to R248). Also the error log and the event rings (R398, R412,
R425), which the DV-1 writes itself. -/

namespace Sys2Proof.Machine

/-- The canonical form of memory (log 5): addresses strictly rising, and no byte listed that is 0, which an unlisted
address reads as. -/
abbrev Memory.wf (m : SMap Byte) : Bool := SMap.wf 0 m

/-- One byte of DRAM or host memory. -/
def Memory.read (m : SMap Byte) (a : Nat) : Byte := SMap.get 0 m a

/-- Writes bytes from an address on. -/
def Memory.write : SMap Byte → Nat → List Byte → SMap Byte
  | m, _, [] => m
  | m, a, b :: r => Memory.write (SMap.set 0 m a b) (a + 1) r

/-- The line of an address (R3). -/
def lineOf (a : Nat) : Nat := a / 128

/-- A line's 128 bytes in memory. -/
def State.memLine (s : State) (l : Nat) : Vec :=
  let m := s.mem.filter fun e => lineOf e.1 == l
  BitVec.ofNat 1024 (ofLE ((List.range 128).map fun j => Memory.read m (128 * l + j)))

/-- An agent's copy of a line (R242). -/
def State.held (s : State) (ag l : Nat) : Option Held := SMap.find (SMap.get [] s.agents ag) l

def State.setHeld (s : State) (ag l : Nat) (h : Option Held) : State :=
  let m := SMap.get [] s.agents ag
  { s with agents := SMap.set [] s.agents ag (match h with | none => SMap.erase m l | some x => SMap.put m l x) }

/-- The states in which an agent owns the line (R242). -/
def LState.owns : LState → Bool
  | .m | .o | .e => true
  | .s => false

/-- The agent that owns a line, and its data. -/
def State.owner (s : State) (l : Nat) : Option (Nat × Held) :=
  s.agents.findSome? fun e => (SMap.find e.2 l).bind fun h => if h.st.owns then some (e.1, h) else none

/-- A dirty line in a write-back buffer that no probe has taken (R242, R245). -/
def State.wbuf (s : State) (l : Nat) : Option (Nat × Held) :=
  s.wbufs.findSome? fun e => (SMap.find e.2 l).bind fun h => if h.2 then none else some (e.1, h.1)

/-- The value the home gives for a line (R244): the owner's, a write-back buffer's, else memory's. -/
def State.homeLine (s : State) (l : Nat) : Vec :=
  match s.owner l with
  | some (_, h) => h.data
  | none =>
    match s.wbuf l with
    | some (_, h) => h.data
    | none => s.memLine l

/-- Lays a store's bytes over a line. -/
def Store.overs (x : Store) (l : Nat) (v : Vec) : Vec := if lineOf x.a = l then putBytes v (x.a % 128) x.bytes else v

/-- A line as a die's slice gives it to a tile: its pending bytes over the die's copy (R239). A store that is performed only when it is
merged shows to the tile whose store it is alone. -/
def State.dieLineFor (s : State) (t : Option Nat) (d l : Nat) : Vec :=
  let base := match s.held (s.agentOf d) l with | some h => h.data | none => s.homeLine l
  ((s.getDie d).pendB.filter fun x => !x.merge || t == some x.tile).foldl (fun v x => x.overs l v) base

/-- A line as its die's slice sees it. -/
def State.dieLine (s : State) (d l : Nat) : Vec := s.dieLineFor none d l

/-- A tile's leased copy that may still serve loads (R236). -/
def Tile.copyAt (x : Tile) (plumb l : Nat) : Option Copy :=
  (SMap.find x.copies l).bind fun c => if plumb + 2 < c.till then some c else none

/-- The plain and release stores of a FIFO. -/
def FifoEnt.store? : FifoEnt → Option Store
  | .store x => some x
  | .marker _ _ => none

/-- Stores of a tile that its line's slice has not performed (R237, R238). -/
def State.ownStores (s : State) (t : Nat) : List Store :=
  ((s.getDie (dieOf t)).waitSt.filter fun y => y.tile == t) ++ (s.getTile t).fifo.filterMap FifoEnt.store?

/-- The tiles of the quad or pair that a tile's group setting names (R261). -/
def groupTiles (t gs : Nat) : List Nat :=
  let c := t % 32 / 2 * 2
  match gs with
  | 1 => [t / 32 * 32 + c, t / 32 * 32 + c + 1]
  | 2 => let r := t / 64 * 64; [r + c, r + c + 1, r + 32 + c, r + 32 + c + 1]
  | _ => [t]

/-- The tiles of a formed group (R261): every member holds the same nonzero setting and belongs to one partition. -/
def State.cacheGroup (s : State) (t : Nat) : List Nat :=
  let gs := (s.getTile t).lgrp
  let ts := groupTiles t gs
  if ts.all fun u => (s.getTile u).lgrp == gs && s.ownerOf u == s.ownerOf t then ts else [t]

/-- The leased copy that serves a tile's loads: its own, or that of a member of its group which has no store to the line on its way (R236,
R261, log 83). -/
def State.copyIn (s : State) (t l : Nat) : Option Copy :=
  match (s.getTile t).copyAt s.plumb l with
  | some c => some c
  | none =>
    if (s.getTile t).lgrp = 0 then none
    else (s.cacheGroup t).findSome? fun u =>
      if (s.ownStores u).any fun y => lineOf y.a == l then none else (s.getTile u).copyAt s.plumb l

/-- A line as a tile's loads see it (R236, R238): its own stores on their way over its leased copy or the die's line. -/
def State.tileLine (s : State) (t l : Nat) : Vec :=
  let base := match s.copyIn t l with | some c => c.data | none => s.dieLineFor (some t) (dieOf t) l
  (s.ownStores t).foldl (fun v y => y.overs l v) base

/-- Bytes from an address on, by a function that gives lines. -/
def bytesBy (f : Nat → Vec) (a n : Nat) : List Byte :=
  (List.range (lineOf (a + n + 127) - lineOf a)).flatMap fun i =>
    let lo := Nat.max a (128 * (lineOf a + i))
    getBytes (f (lineOf a + i)) (lo % 128) (Nat.min (a + n) (128 * (lineOf a + i + 1)) - lo)

/-- What the home gives, and what a die's slice gives. -/
def State.homeBytes (s : State) (a n : Nat) : List Byte := bytesBy s.homeLine a n
def State.dieBytes (s : State) (d a n : Nat) : List Byte := bytesBy (s.dieLine d) a n
def State.home64 (s : State) (a : Nat) : Nat := ofLE (s.homeBytes a 8)
def State.home32 (s : State) (a : Nat) : Nat := ofLE (s.homeBytes a 4)

/-- Physical addresses of DRAM and of the host (R16). -/
def isDram (a : Nat) : Bool := a < 0x80000000000
def isHost (a : Nat) : Bool := 0x8000000000000 ≤ a && a < 0x10000000000000
def isDev (a : Nat) : Bool := 0x4000000000000 ≤ a && a < 0x4000100000000

/-- The agent at a line's home (R242, R17), and the die of this part whose slice queues its reservations: the home die
for DRAM, die PA[9:7] for host memory (R273). -/
def homeAgent (l : Nat) : Nat := bits (128 * l) 37 6
def State.queueAgent (s : State) (l : Nat) : Nat := if isHost (128 * l) then s.agentOf (bits (128 * l) 7 3) else homeAgent l

/-- The bank of its home die's LLC that holds a line (R17). -/
def llcBank (a : Nat) : Nat := bits a 7 4 ^^^ bits a 11 4

/-- The home of a DRAM address has failed: a die of this part (R391), or a part of its domain (R392, log 34). -/
def State.homeFailed (s : State) (a : Nat) : Bool :=
  isDram a && (bit s.lostParts (bits a 40 3) || (bits a 40 3 == s.domPos && (s.getDie (bits a 37 3)).failed))

/-- Where a logical tile lies: 33 × its row, dies in order, + its physical column, by the `SKIPCOL` in use (R12). -/
def physOf (skip : SMap Nat) (t : Nat) : Nat :=
  33 * (t / 32) + (if t % 32 < SMap.get 32 skip (t / 32) then t % 32 else t % 32 + 1)
def State.physTile (s : State) (t : Nat) : Nat := physOf s.skipNow t

/-- The L2 slice of its die beside a tile, which its neighbour in the row shares (R15). -/
def sliceBeside (t : Nat) : Nat := t % 512 / 32 * 16 + t % 32 / 2

/-- Changes every tile. -/
def State.allTiles (s : State) (f : Nat → Tile → Tile) : State :=
  { s with tile := f s.cur.t s.tile, tiles := (SMap.map f s.tiles).filter fun e => e.2 ≠ {} }

/-- Changes every die. -/
def State.allDies (s : State) (f : Nat → Die → Die) : State := { s with dies := (SMap.map f s.dies).filter fun e => e.2 ≠ {} }

/-- Some lease on the line has not lapsed (R236, R237). -/
def State.leased (s : State) (l : Nat) : Bool := s.dies.any fun e => decide (s.plumb < SMap.get 0 e.2.emax l)
def Die.leased (x : Die) (plumb l : Nat) : Bool := decide (plumb < SMap.get 0 x.emax l)

/-- A tile's cache has room for a line (R260): its portion is what LSPLIT leaves, 1,024 lines for each unit of 128 KiB. -/
def Tile.cacheRoom (x : Tile) (l : Nat) : Bool := (SMap.find x.copies l).isSome || x.copies.length < 1024 * (8 - x.lsplit)

/-- Drops the tiles' copies of a line, which they may do at any time (R236), but those of one die. -/
def State.dropCopies (s : State) (l : Nat) (keep : Option Nat := none) : State :=
  s.allTiles fun t x => if keep = some (dieOf t) then x else { x with copies := SMap.erase x.copies l }

/-- The doubles that bytes at an address cover whole. -/
def wholeDoubles (a n : Nat) : List Nat :=
  (List.range (n / 8 + 1)).filterMap fun j =>
    let d := (a + 7) / 8 + j
    if 8 * d + 8 ≤ a + n then some d else none

/-- A write that covers a whole double clears its poison (R388). -/
def clearPoison (m : SMap Bool) (a n : Nat) : SMap Bool := (wholeDoubles a n).foldl (fun m d => SMap.erase m d) m

/-! ### Threads that wait on memory -/

/-- An engine's write there is made double by double: to memory or a scratchpad. -/
def Place.cuts : Place → Bool
  | .pa _ | .sram _ _ => true
  | _ => false

/-- The key that a thread map's number stands for. -/
def keyOf (n : Nat) : Key := ⟨n / 32, n / 8 % 4, n % 8⟩

/-- Changes every thread. -/
def State.mapThreads (s : State) (f : Key → Thread → Thread) : State :=
  { s with thr := f s.cur s.thr, threads := (SMap.map (fun n x => f (keyOf n) x) s.threads).filter fun e => e.2 ≠ {} }

/-- The address by which a region or a reservation names a byte: a physical address, or, above every physical address, a byte of a lineage
node (log 16). -/
def Place.regionAddr : Place → Option Nat
  | .pa a => some a
  | .lin pid node off _ => some (2 ^ 52 * (1 + node + 2 ^ 32 * pid) + off)
  | _ => none

/-- The line of a place, and the tile of a scratchpad line. -/
def Place.line : Place → Option (Option Nat × Nat)
  | .sram t b => some (some t, lineOf b)
  | p => p.regionAddr.map fun a => (none, lineOf a)

/-- A parked WRS whose monitored line has been written, or removed by a probe (R282). -/
def Thread.monitor (x : Thread) (l : Option Nat × Nat) : Thread :=
  match x.wait with
  | .wrs p _ true => if p.line = some l then { x with wait := .wrsMet p } else x
  | _ => x

/-- The offset of a place in a parked unit's own scratchpad. -/
def Parked.own (x : Parked) : Place → Option Nat
  | .sram t b => if t = x.tile ∧ x.ctx.ubase ≤ b ∧ b < x.ctx.ubase + x.ctx.scratch then some (b - x.ctx.ubase) else none
  | _ => none

/-- The monitors that watch the WRS addresses of a parked unit (R333), but for those in its own scratchpad, which its image holds. -/
def Parked.watch (x : Parked) (die : Option Nat) (l : Option Nat × Nat) : Parked :=
  if die.all (· == dieOf x.tile) then
    { x with threads := x.threads.map fun y => match y.wait with
        | .wrs p _ _ => if (x.own p).isNone then y.monitor l else y
        | _ => y }
  else x

/-- Wakes the monitors of a line: those of a die's tiles for a memory line, those of any thread for a scratchpad line, and those kept for
parked units. -/
def State.wakeLine (s : State) (die : Option Nat) (l : Option Nat × Nat) : State :=
  let u := s.mapThreads fun k x => if die.all (· == dieOf k.t) then x.monitor l else x
  { u with parts := SMap.map (fun _ p => { p with parked := p.parked.map fun x => x.watch die l }) u.parts }

/-- A double has become full with a value: every sync load parked on it is met (R266, R267). -/
def State.wakeLds (s : State) (p : Place) (v : Word) : State :=
  s.mapThreads fun _ x => if x.wait = .lds p then { x with wait := .ldsMet v } else x

/-- A store performed at a line's home breaks every LR reservation on it but the storing thread's own SC (R276, R427). -/
def State.breakResv (s : State) (scratch : Option Nat) (l : Nat) : State :=
  s.mapThreads fun _ x =>
    match x.resv with
    | some r => if r.line = l ∧ r.scratch = scratch then { x with resv := some { r with broken := true } } else x
    | none => x

/-- An active region whose footprint holds a line, on a die (R294). -/
def Region.touches (r : Region) (l : Nat) : Bool := r.reads.contains l || r.writes.contains l

/-- Every slice of a footprint has accepted the region's seal: it is committed (R295). -/
def Region.committed (r : Region) : Bool :=
  match r.sealing with
  | some got => !r.refused && (r.reads ++ r.writes).all got.contains
  | none => false

/-- A store that is no region access, or a probe, reaches a footprint line at a die's slice: the region is to abort with
RSTRONG (R294). An irrevocable region, or a committed one, does not abort. -/
def State.strong (s : State) (die l : Nat) : State :=
  s.mapThreads fun k x =>
    match x.region with
    | some r =>
      if dieOf k.t = die ∧ r.irr = false ∧ r.committed = false ∧ r.doom = none ∧ r.touches l then
        { x with region := some { r with doom := some (5, 0) } }
      else x
    | none => x

/-! ### Taking ownership -/

/-- The copies of a line go from every agent, and its write-backs are marked taken, but at the agents that a transaction counts as holding
nothing (R244, R247). -/
def State.stripLine (s : State) (l : Nat) (spare : List Nat := []) : State :=
  { s with
    agents := ((SMap.map (fun n m => if spare.contains n then m else SMap.erase m l) s.agents).filter fun e => e.2 ≠ [])
    wbufs := SMap.map (fun n m => if spare.contains n then m
      else SMap.map (fun j (h : Held × Bool) => if j = l then (h.1, true) else h) m) s.wbufs }

/-- The value of a line at its home, when agents that count as holding nothing give none (R247). -/
def State.homeLineBut (s : State) (spare : List Nat) (l : Nat) : Vec :=
  if spare = [] then s.homeLine l
  else ({ s with agents := s.agents.filter (fun e => !spare.contains e.1), wbufs := s.wbufs.filter fun e => !spare.contains e.1 } : State).homeLine l

/-- Memory takes the home's value of a line, and every agent's copy goes. -/
def State.recall (s : State) (l : Nat) (spare : List Nat := []) : State :=
  ({ s with mem := Memory.write s.mem (128 * l) (getBytes (s.homeLineBut spare l) 0 128) } : State).stripLine l spare

/-- The firmware's working state, the last 32 MiB of a die's firmware area (R414). -/
def fwState (a : Nat) : Bool := isDram a && 0x1FFE000000 ≤ a % 2 ^ 37

/-- A write of `n` bytes breaks the rules by which entries are submitted to a queue (R406): it touches a slot whose launch is not complete, or
one that has been submitted and has not started, without its `VALID`, which is written last. `busy` says which slots' launches run. -/
def LQ.breaks (x : LQ) (busy : Nat → Bool) (a n : Nat) : Bool :=
  let size := 2 ^ x.log2n
  x.en && a < 64 * (x.base + size) && 64 * x.base < a + n && (List.range ((a + n - 1) / 64 + 1 - a / 64)).any fun j =>
    let k := a / 64 + j
    let i := k - x.base
    x.base ≤ k && k < x.base + size &&
      (busy i || (!(a ≤ 64 * k + 12 && 64 * k + 12 < a + n) && (i + size - x.head % size) % size < (x.tail + 2 ^ 32 - x.head) % 2 ^ 32))

/-- Software or the host has written memory where a launch queue's slots lie (R406, log 90). -/
def State.spoilSlots (s : State) (a n : Nat) : State :=
  let hit := fun (p : Partn) (q : Nat) (x : LQ) =>
    x.breaks (fun i => p.launches.any fun e => e.2.queue == q && e.2.slot == i && !e.2.complete) a n
  if s.parts.all fun p => p.2.queues.all fun q => !hit p.2 q.1 q.2 then s
  else { s with parts := SMap.map (fun _ (p : Partn) =>
    { p with queues := SMap.map (fun q (x : LQ) => { x with wild := x.wild || hit p q x }) p.queues }) s.parts }

/-- A host write performed at the home (R240, R251): its bytes are in memory, reservations on the line break (R276), and
doubles that it covers whole are no longer poisoned (R388). One to the firmware's working state is ignored (R414). -/
def State.hostPut (s : State) (a : Nat) (bs : List Byte) : State :=
  if fwState a then s else
  let r := ((({ s with mem := Memory.write s.mem a bs } : State).breakResv none (lineOf a)).wakeLine none (none, lineOf a)).spoilSlots a bs.length
  { r with poison := clearPoison r.poison a bs.length }

/-- The bank of its home die that keeps a line's entry, and the entries there (R17, R243). -/
def bankOf (l : Nat) : Nat := 16 * homeAgent l + llcBank (128 * l)
def State.bankUsed (s : State) (b : Nat) : Nat := (s.filter.filter fun e => bankOf e.1 == b).length

/-- The bank of a line of DRAM keeps an entry for it, or has a free one (R243). -/
def State.hasEntry (s : State) (l : Nat) : Bool :=
  isHost (128 * l) || s.filter.length < 65536 || (SMap.find s.filter l).isSome || s.bankUsed (bankOf l) < 65536

/-- The host may hold a copy of a line of DRAM (R243 `H`). -/
def State.hostHas (s : State) (l : Nat) : Bool := (SMap.find s.filter l).any (·.h)

/-- The line is requested for a read by a die that misses: while a store waits at its slice the request is held (R237), and the line that
the host may hold comes only when the host has been snooped (R251). -/
def State.dieWaits (s : State) (d l : Nat) : Bool :=
  ((s.getDie d).waitSt.any fun x => lineOf x.a == l) || (s.hostHas l && (s.held (s.agentOf d) l).isNone)
def State.lineWaits (s : State) (t l : Nat) : Bool := s.dieWaits (dieOf t) l

/-- The other agents that hold a line of DRAM, or have it in their write-back buffers, under another identifier than that of a request:
they answer its probes "not present" (R247). -/
def State.strangers (s : State) (ag l pid : Nat) : List Nat :=
  if isHost (128 * l) then []
  else ((s.agents.filter fun e => (SMap.find e.2 l).any (·.pid != pid)).map (·.1) ++
    (s.wbufs.filter fun e => (SMap.find e.2 l).any fun h => !h.2 && h.1.pid != pid).map (·.1)).filter (· != ag)

/-- A transaction in progress on a line is served before an ownership that the DV-1 takes for a record of its own (R244, log 17). -/
def State.settleTxn (s : State) (l : Nat) : State :=
  match SMap.find s.txns l with
  | none => s
  | some x =>
    let r : State := { s with txns := SMap.erase s.txns l }
    match x.wr with
    | none => r
    | some (a, bs) => (r.recall l).hostPut a bs

/-- An agent takes a line in M, with the value its owner had, and every other copy goes (R244 RdX), but at the agents that count as holding
nothing (R247). On the other dies of the part that held it the line's monitors wake (R282) and the regions on it abort (R294). -/
def State.takeM (s : State) (ag l pid : Nat) (spare : List Nat := []) : State :=
  let s := s.settleTxn l
  let v := s.homeLineBut (spare.filter (· != ag)) l
  let r := s.stripLine l (spare.filter (· != ag))
  let r : State := { r with filter := if isHost (128 * l) then s.filter else SMap.put s.filter l { dst := 3, own := ag, h := s.hostHas l } }
  let r := (r.setHeld ag l (some { st := .m, data := v, pid := pid })).dropCopies l
    (if ag / 8 = s.domPos then some (ag % 8) else none)
  (List.range 8).foldl (fun r d =>
    if s.agentOf d = ag ∨ spare.contains (s.agentOf d) ∨ (s.held (s.agentOf d) l).isNone then r
    else (r.wakeLine (some d) (none, l)).strong d l) r

/-- Changes the bytes of a line that an agent holds; an E line becomes M (R242). -/
def State.mergeHeld (s : State) (ag : Nat) (x : Store) : State :=
  match s.held ag (lineOf x.a) with
  | none => s
  | some h => s.setHeld ag (lineOf x.a) (some { h with st := .m, data := x.overs (lineOf x.a) h.data })

/-- Cuts bytes at an address into pieces that lie in one line each. -/
def cutLines : Nat → Nat → List Byte → List (Nat × List Byte)
  | 0, _, _ => []
  | _ + 1, _, [] => []
  | fuel + 1, a, b :: r =>
    let k := 128 - a % 128
    (a, (b :: r).take k) :: cutLines fuel (a + k) ((b :: r).drop k)

def linePieces (a : Nat) (bs : List Byte) : List (Nat × List Byte) := cutLines (bs.length / 128 + 2) a bs

/-- Some double that bytes at an address touch is poisoned. -/
def anyPoison (m : SMap Bool) (a n : Nat) : Bool :=
  if m = [] then false else (List.range ((a + n + 7) / 8 - a / 8)).any fun j => SMap.get false m (a / 8 + j)

/-- A write performed at a line's home: the home agent takes each line in M and the
bytes go into it. -/
def State.homeWrite (s : State) (pid a : Nat) (bs : List Byte) : State :=
  let r := (linePieces a bs).foldl (fun s p =>
    let ag := s.queueAgent (lineOf p.1)
    let s := if (s.held ag (lineOf p.1)).any fun h => h.st == .m then s else s.takeM ag (lineOf p.1) pid
    (s.dropCopies (lineOf p.1)).mergeHeld ag { a := p.1, bytes := p.2, pid := pid, tile := 0 }) s
  let u := (linePieces a bs).foldl (fun r p => (r.breakResv none (lineOf p.1)).wakeLine none (none, lineOf p.1)) r
  { u with poison := clearPoison u.poison a bs.length }

/-- Sets the full/empty bits of the doubles from one double on (R265). -/
def State.setFull (s : State) (d n : Nat) (full : Bool) : State :=
  { s with empty := (List.range n).foldl (fun m j => SMap.set false m (d + j) (!full)) s.empty }

/-! ### The error log and event rings -/

/-- The 32 bytes of a record (R398). -/
def ERec.bytes (r : ERec) : List Byte :=
  toLE 2 r.kind ++ toLE 2 r.tile ++ toLE 1 r.pid ++ toLE 1 r.cause ++ toLE 2 r.count ++ toLE 8 r.plumb ++ toLE 16 r.addr

/-- The lowest-numbered die present, and the place of record `k` of the error log on it (R414). -/
def State.logDie (s : State) : Option Nat := (List.range 8).find? fun d => bit s.dieMask d
def State.logAddr (s : State) (d k : Nat) : Nat :=
  s.domPos * 2 ^ 40 + d * 2 ^ 37 + 0x1FFC000000 + 0x800000 + 32 * (k % 262144)

/-- A write of a record that the DV-1 makes itself, within one line: a store of no tile, which waits at its line's slice for the leases and
for ownership as any store does (R237, R239, R251). -/
def State.record (s : State) (pid a : Nat) (bs : List Byte) (ring : Option Nat := none) : State :=
  let ag := s.queueAgent (lineOf a)
  s.modDie (if ag / 8 = s.domPos then ag % 8 else s.logDie.getD 0) fun y =>
    { y with waitSt := y.waitSt ++ [{ a := a, bytes := bs, pid := pid, tile := 4096, ring := ring }] }

/-- The first record of a ring's queue goes to the ring's next entry (R412). -/
def State.sendRec (s : State) (p : Nat) : State :=
  let g := (s.getPart p).ring
  match g.q with
  | [] => s
  | r :: _ => s.record p (64 * g.base + 32 * (g.tail % 2 ^ g.log2n)) r.bytes (some p)

/-- Posts a record to a partition's event ring, or counts it as dropped (R412). -/
def State.post (s : State) (r : ERec) : State :=
  let g := (s.getPart r.pid).ring
  if g.en ∧ (g.tail + 2 ^ 32 - g.head) % 2 ^ 32 + g.q.length < 2 ^ g.log2n ∧
      s.homeFailed (64 * g.base + 32 * (g.tail % 2 ^ g.log2n)) = false then
    let t := s.modPart r.pid fun p => { p with ring := { g with q := g.q ++ [r] } }
    if g.q = [] then t.sendRec r.pid else t
  else s.modPart r.pid fun p => { p with ring := { g with ndrop := Nat.min (g.ndrop + 1) 0xFFFFFFFF } }

/-- A ring's record is in memory: `TAIL` moves past it, and the next goes on its way (R412). -/
def State.recorded (s : State) (o : Option Nat) : State :=
  match o with
  | none => s
  | some p => (s.modPart p fun y => { y with ring := { y.ring with tail := (y.ring.tail + 1) % 2 ^ 32, q := y.ring.q.drop 1 } }).sendRec p

/-- A ring is disabled, or set up anew: records of it that are not in memory yet are dropped (R412, log 89). -/
def State.forgetRing (s : State) (p : Nat) : State :=
  let t := s.allDies fun _ d => { d with
    waitSt := d.waitSt.filter fun x => x.ring != some p
    pendB := d.pendB.map fun x => if x.ring = some p then { x with ring := none } else x }
  t.modPart p fun y => { y with ring := { y.ring with q := [], ndrop := Nat.min (y.ring.ndrop + y.ring.q.length) 0xFFFFFFFF } }

/-- Writes record `k` of the error log, once a die is present. -/
def State.writeLog (s : State) (k : Nat) (r : ERec) : State :=
  match s.logDie with
  | none => s
  | some d => s.record 0 (s.logAddr d k) r.bytes

/-- The same event again (R425). -/
def ERec.repeats (r q : ERec) : Bool :=
  r.kind == q.kind && r.tile == q.tile && r.pid == q.pid && r.cause == q.cause && r.addr == q.addr

/-- Logs an event (R425): a repeat raises the newest record's count, any other writes a record and posts it to the ring of
the configured partition that it names. -/
def State.logEvent (s : State) (kind tile pid cause addr : Nat) : State :=
  let r : ERec := { kind := kind, tile := tile, pid := pid, cause := cause, plumb := s.plumb, addr := addr }
  match s.lastErr.filter fun q => r.repeats q with
  | some q =>
    let q := { q with count := Nat.min (q.count + 1) 0xFFFF }
    ({ s with lastErr := some q } : State).writeLog (s.elcount - 1) q
  | none =>
    let t := ({ s with lastErr := some r, elcount := s.elcount + 1 } : State).writeLog s.elcount r
    if bit s.cfg.pmask pid then t.post r else t

end Sys2Proof.Machine
end

