-- ==== Sys2Proof/Machine/Window.lean ====
section
/-! DEFINITION. The device register window: the capability list, the fence map, the launch-queue and event-ring
descriptors, the mailbox and the start record, as each view reads and writes them (R20 to R26, R215, R216, R256, R257, R351,
R367, R380, R394, R403 to R408, R412 to R416). A view is a partition's number, or 16 and above for the package view. -/

namespace Sys2Proof.Machine

/-- A number from fields at bit positions. -/
def fields (l : List (Nat × Nat)) : Nat := l.foldl (fun n e => n + e.2 * 2 ^ e.1) 0

/-- A view that sees the whole part (R21). -/
def packageView (view : Nat) : Bool := 16 ≤ view

/-- The view that an access at a privilege and of a partition has (R21, R349). -/
def viewOf (priv pid : Nat) : Nat := if priv = 2 then 17 else pid

/-- Bits of a mask for which a test holds. -/
def maskOf (n : Nat) (f : Nat → Bool) : Nat := (List.range n).foldl (fun m i => if f i then m + 2 ^ i else m) 0

/-- The index owner list gives an owner, and the view sees it. -/
def ownedBy (l : List Nat) (view i : Nat) : Bool := packageView view || l.getD i 0xFF == view

/-- A tile present in a view (R26). -/
def State.tileSeen (s : State) (view t : Nat) : Bool :=
  bit s.dieMask (dieOf t) && !SMap.get false s.absent t && (packageView view || s.ownerOf t == view)

/-- Memory ranges of a view (R256): base and length in bytes. -/
def State.viewRanges (s : State) (view : Nat) : List (Nat × Nat) :=
  if packageView view then
    (List.range 8).filterMap fun d => if bit s.dieMask d then some (s.domPos * 2 ^ 40 + d * 2 ^ 37, 2 ^ 37) else none
  else s.cfg.ranges.filterMap fun r => if r.2.2 = view then some (r.1, r.2.1) else none

/-- The dies whose DRAM a view sees (R256). -/
def State.viewDies (s : State) (view : Nat) : Nat :=
  maskOf 8 fun d => bit s.dieMask d && (s.viewRanges view).any fun r => isDram r.1 && bits r.1 37 3 == d

/-- The entries of a view: identifier, version, length in doubles, and the entry's bits above its header (R24). Of a partition's ranges
the first 251 are listed, all that `NRANGE` and `CAPLEN` can count (R22, R256, log 72). After the identity entry they stand in ascending order
of `CAPID`, without gaps, and no firmware-private entry (0x8000 and up) is among them: the spec leaves these open (log 93). -/
def State.capEntries (s : State) (view : Nat) : List (Nat × Nat × Nat × Nat) :=
  let tiles := maskOf 4096 (s.tileSeen view)
  let ntiles := ((List.range 4096).filter (s.tileSeen view)).length
  let rs := (s.viewRanges view).take 251
  let ports := maskOf 24 fun p => SMap.get false s.portUp p && ownedBy s.cfg.pown view p
  let nparts := ((List.range 16).filter (bit s.cfg.pmask)).length
  let save := SMap.get (0, 0) s.cfg.save view
  let pkg := packageView view
  [(1, 1, 4, fields [(64, 0x0D01), (80, bits Config.stepping 0 8), (88, 8), (96, ntiles), (128, 1750), (144, 0x0100),
      (160, s.domPos), (176, SMap.get 0 s.capGen (Nat.min view 16) % 65536), (192, s.serial)]),
   (2, 1, 65, fields [(64, tiles)]),
   (3, 1, 4 + rs.length, fields ([(64, s.viewDies view), (72, 37), (80, 27), (88, 26), (96, 0x0800), (112, 16),
      (120, 16), (128, 0x10000), (160, rs.length)] ++
      (List.range rs.length).map fun i =>
        let r := rs.getD i (0, 0)
        (256 + 64 * i, r.1 / 65536 + r.2 / 65536 * 2 ^ 36))),
   (4, 1, 4, fields [(64, ports),
      (88, maskOf 24 fun p => SMap.get false s.portSpare p && ownedBy s.cfg.pown view p),
      (112, maskOf 10 fun j => SMap.get false s.d2dUp j), (128, SMap.get 0 s.fabids s.domPos), (144, 224), (152, 24)]),
   (5, 1, 4, fields [(64, s.lanes), (72, 0x40), (80, 16), (128, if pkg then 0 else save.1 / 65536),
      (192, if pkg then 0 else save.2 / 65536)])] ++
  (if 2 ≤ ((List.range 8).filter (bit s.members)).length then
    [(6, 1, 4, fields ([(64, s.domPos), (72, s.members), (80, Nat.min Config.skew 64)] ++
      (List.range 8).map fun q => (128 + 16 * q, if bit s.members q then SMap.get 0 s.fabids q else 0)))] else []) ++
  [(7, 1, 3, fields [(64, if pkg then 0 else view), (68, b2n pkg), (72, nparts), (80, s.cfg.pmask),
      (96, maskOf 16 (ownedBy s.cfg.lown view)), (112, maskOf 8 (ownedBy s.cfg.hown view)),
      (128, maskOf 24 (ownedBy s.cfg.pown view))]),
   (8, 1, 2, fields [(64, 8), (72, 256), (88, 256), (97, 4096), (110, 64), (117, maskOf 8 (ownedBy s.cfg.hown view))]),
   (9, 1, 2, fields [(64, 15), (72, 16), (80, 1024), (96, 36)])] ++
  (if (List.range 24).any fun p => ownedBy s.cfg.pown view p && bit s.cfg.reduce (s.cfg.pown.getD p 0xFF) then
    [(10, 1, 2, fields [(64, 0x00C0), (80, 24), (96, 65536)])] else []) ++
  (if (if pkg then s.cfg.reden != 0 else bit s.cfg.reden view) then
    [(11, 1, 2, fields [(64, 64), (72, 32), (80, 1)])] else []) ++
  [(12, 1, 2, if pkg then fields [(64, 0x1FFC000000), (104, 23)] else 0),
   (13, 1, 2, fields [(64, 11), (96, Nat.min s.store.boots 0xFFFFFFFF)])]

/-- The list as a number, each entry with its header, from an offset in doubles (R22, R23). -/
def packCaps : Nat → List (Nat × Nat × Nat × Nat) → Nat
  | _, [] => 0
  | off, (id, ver, len, v) :: r =>
    let nxt := match r with | [] => 0 | _ => 8 * (off + len)
    (fields [(0, id), (16, ver), (24, len), (32, nxt)] + v) + 2 ^ (64 * len) * packCaps (off + len) r

/-- The capability list of a view; zero until it is built (R20). -/
def State.capList (s : State) (view : Nat) : Nat := if s.started then packCaps 0 (s.capEntries view) else 0

/-- FENCEST of a tile (R379): what the tile keeps, and its die's `NSHEET` and `LASTID`. -/
def State.fencest (s : State) (t : Nat) : Nat :=
  let d := s.getDie (dieOf t)
  (s.getTile t).fencest.toNat + fields [(8, d.nsheet % 1024), (20, d.lastid % 4096)]

/-- The doubles of a launch-queue descriptor (R404). -/
def LQ.double (x : LQ) (i : Nat) : Nat :=
  match i with
  | 0 => fields [(0, b2n x.en), (1, x.log2n), (6, x.base), (52, b2n x.sup)]
  | 1 => fields [(0, x.tail), (32, x.head)]
  | 2 => x.qptbr.toNat
  | 3 => x.hslog
  | 4 => bits x.qtvec.toNat 0 64
  | 5 => bits x.qtvec.toNat 64 8
  | 6 => bits x.qhstk.toNat 0 64
  | _ => bits x.qhstk.toNat 64 8

/-- The doubles of an event-ring descriptor (R412). -/
def Ring.double (x : Ring) (i : Nat) : Nat :=
  match i with
  | 0 => fields [(0, b2n x.en), (1, x.log2n), (6, x.base)]
  | 1 => fields [(0, x.head), (32, x.tail)]
  | 2 => x.ndrop
  | _ => 0

/-- An entry of the start record (R416). -/
def State.startEntry (s : State) (i : Nat) : Nat :=
  if 11 ≤ i then 0 else
  let e := SMap.get (0, 0, 0, 0) s.store.start i
  fields [(0, i + 1), (8, e.1), (16, e.2.1), (24, e.2.2.1), (32, e.2.2.2 % 2 ^ 32)]

/-- The double at a window offset, outside the capability list, in a view (R403). -/
def State.devDouble (s : State) (view off : Nat) : Nat :=
  let own := fun p => packageView view || view == p
  if off = 0x10000 then s.plumb % 2 ^ 64
  else if 0x20000 ≤ off ∧ off < 0x20400 then
    fields ((List.range 32).map fun j =>
      let t := 4 * (off - 0x20000) + j
      (2 * j, if own (s.ownerOf t) then SMap.get 0 s.fence t % 4 else 0))
  else if 0x30000 ≤ off ∧ off < 0x34000 then
    let n := (off - 0x30000) / 64
    if own (n / 16) then (SMap.get {} (s.getPart (n / 16)).queues (n % 16)).double (off % 64 / 8) else 0
  else if 0x40000 ≤ off ∧ off < 0x40028 then
    if !packageView view then 0
    else match (off - 0x40000) / 8 with
      | 0 => s.mbCmd
      | 1 => s.mbSt + 256 * s.mbErr
      | 2 => s.mbArg0.toNat
      | 3 => s.mbArg1.toNat
      | _ => s.elcount
  else if 0x50000 ≤ off ∧ off < 0x50200 then s.startEntry ((off - 0x50000) / 8)
  else if 0x60000 ≤ off ∧ off < 0x60400 then
    let p := (off - 0x60000) / 64
    if own p then (s.getPart p).ring.double (off % 64 / 8) else 0
  else 0

/-- A read of `n` bytes at a window offset (R20, R234, R403). -/
def State.devRead (s : State) (view off n : Nat) : List Byte :=
  if off < 0x10000 then
    let v := s.capList view
    (List.range n).map fun j => BitVec.ofNat 8 (if off + j < 0x10000 then bits v (8 * (off + j)) 8 else 0)
  else if off / 8 = 0x10000 / 8 then
    if off % n = 0 ∧ (n = 8 ∨ n = 4) then toLE n (bits s.plumb (8 * (off % 8)) 64) else toLE n 0
  else (List.range n).map fun j => BitVec.ofNat 8 (bits (s.devDouble view ((off + j) / 8 * 8)) (8 * ((off + j) % 8)) 8)

/-- A range of bytes lies wholly in a partition's ranges (R346), ranges that touch counting as one. -/
def inRanges (rs : List (Nat × Nat × Nat)) (p : Nat) : Nat → Nat → Nat → Bool
  | 0, _, n => n == 0
  | fuel + 1, a, n =>
    if n = 0 then true
    else match rs.find? fun r => r.2.2 == p && r.1 ≤ a && a < r.1 + r.2.1 with
      | none => false
      | some r => inRanges rs p fuel (r.1 + r.2.1) (n - (r.1 + r.2.1 - a))

def State.ownsRange (s : State) (p a n : Nat) : Bool := inRanges s.cfg.ranges p (s.cfg.ranges.length + 1) a n

/-- Every launch of a queue is complete. -/
def Partn.queueIdle (p : Partn) (q : Nat) : Bool := p.launches.all fun e => e.2.queue != q || e.2.complete

/-- A write to the first double of a launch-queue descriptor (R405). -/
def State.queueWrite0 (s : State) (p q v : Nat) (fromS : Bool) : State :=
  let x := SMap.get {} (s.getPart p).queues q
  let en := bit v 0
  let log2n := bits v 1 5
  let base := bits v 6 46
  if 16 < log2n ∨ (x.en ∧ (base ≠ x.base ∨ log2n ≠ x.log2n)) ∨ isDram (64 * base) = false ∨
      s.ownsRange p (64 * base) (64 * 2 ^ log2n) = false then s
  else
    let en' := if x.en && !en then !(x.head == x.tail && (s.getPart p).queueIdle q) else en
    let fresh := !x.en && en
    let y := { x with en := en', log2n := log2n, base := base, sup := if fromS then x.sup else bit v 52,
                      head := if fresh then 0 else x.head, tail := if fresh then 0 else x.tail, wild := x.wild && !fresh }
    s.modPart p fun r => { r with queues := SMap.set {} r.queues q y }

/-- A doorbell write (R405). -/
def State.queueTail (s : State) (p q v : Nat) : State :=
  let x := SMap.get {} (s.getPart p).queues q
  if 2 ^ x.log2n < (v % 2 ^ 32 + 2 ^ 32 - x.head) % 2 ^ 32 then s
  else s.modPart p fun r => { r with queues := SMap.set {} r.queues q { x with tail := v % 2 ^ 32 } }

/-- A write to one double of a launch-queue descriptor (R404, R405). -/
def State.queueWrite (s : State) (p q i v : Nat) (fromS : Bool) : State :=
  let x := SMap.get {} (s.getPart p).queues q
  let put := fun y : LQ => s.modPart p fun r => { r with queues := SMap.set {} r.queues q y }
  match i with
  | 0 => s.queueWrite0 p q v fromS
  | 1 => s.queueTail p q v
  | 2 => put { x with qptbr := BitVec.ofNat 64 v }
  | 3 => let h := bits v 0 5
         if (1 ≤ h ∧ h ≤ 5) ∨ 20 < h then s else put { x with hslog := h }
  | 4 => put { x with qtvec := BitVec.ofNat 72 (bits x.qtvec.toNat 64 8 * 2 ^ 64 + v % 2 ^ 64) }
  | 5 => put { x with qtvec := BitVec.ofNat 72 (v % 256 * 2 ^ 64 + bits x.qtvec.toNat 0 64) }
  | 6 => put { x with qhstk := BitVec.ofNat 72 (bits x.qhstk.toNat 64 8 * 2 ^ 64 + v % 2 ^ 64) }
  | _ => put { x with qhstk := BitVec.ofNat 72 (v % 256 * 2 ^ 64 + bits x.qhstk.toNat 0 64) }

/-- A write to the first double of an event-ring descriptor (R412). -/
def State.ringWrite0 (s : State) (p v : Nat) : State :=
  let g := (s.getPart p).ring
  let en := bit v 0
  let log2n := bits v 1 5
  let base := bits v 6 46
  if 16 < log2n ∨ (g.en ∧ (base ≠ g.base ∨ log2n ≠ g.log2n)) ∨ isDram (64 * base) = false ∨
      s.ownsRange p (64 * base) (32 * 2 ^ log2n) = false then s
  else
    let fresh := !g.en && en
    let s := if (fresh || !en) && g.q != [] then s.forgetRing p else s
    let g := (s.getPart p).ring
    s.modPart p fun r => { r with ring :=
      { g with en := en, log2n := log2n, base := base, head := if fresh then 0 else g.head, tail := if fresh then 0 else g.tail } }

/-- A write to an event ring's HEAD (R412). -/
def State.ringHead (s : State) (p v : Nat) : State :=
  let g := (s.getPart p).ring
  if 2 ^ g.log2n < (g.tail + 2 ^ 32 - v % 2 ^ 32) % 2 ^ 32 then s
  else s.modPart p fun r => { r with ring := { g with head := v % 2 ^ 32 } }

/-- A write to the mailbox's CMD (R407, R408). A command that no row names ends at once with error 0xFF. -/
def State.mailbox (s : State) (v : Nat) : State :=
  let c := bits v 0 8
  if s.mbSt = 1 then s
  else if 1 ≤ c ∧ c ≤ 6 then { s with mbCmd := c, mbSt := 1, mbErr := 0 }
  else { s with mbCmd := c, mbSt := 3, mbErr := 0xFF }

/-- A write of a double to the window from a view (R403). Host and F write as the package view. -/
def State.devWriteDouble (s : State) (view off v : Nat) : State :=
  let own := fun p => packageView view || view == p
  if 0x30000 ≤ off ∧ off < 0x34000 then
    let n := (off - 0x30000) / 64
    if own (n / 16) then s.queueWrite (n / 16) (n % 16) (off % 64 / 8) v (!packageView view) else s
  else if 0x40000 ≤ off ∧ off < 0x40028 ∧ packageView view then
    match (off - 0x40000) / 8 with
    | 0 => s.mailbox v
    | 2 => { s with mbArg0 := BitVec.ofNat 64 v }
    | 3 => { s with mbArg1 := BitVec.ofNat 64 v }
    | _ => s
  else if 0x60000 ≤ off ∧ off < 0x60400 then
    let p := (off - 0x60000) / 64
    if own p then
      match off % 64 / 8 with
      | 0 => s.ringWrite0 p v
      | 1 => s.ringHead p v
      | _ => s
    else s
  else s

/-- A write of bytes to the window: each double it touches is written with the bytes laid over what it reads. Bytes of the mailbox's
first double that leave `CMD` out write nothing (R407, log 73). -/
def State.devWrite (s : State) (view off : Nat) (bs : List Byte) : State :=
  (List.range ((off + bs.length + 7) / 8 - off / 8)).foldl (fun s j =>
    let d := 8 * (off / 8 + j)
    if d = 0x40000 ∧ 0x40000 < off then s else
    let lo := d - off
    let cut := if d < off then bs.take (8 - (off - d)) else (bs.drop lo).take 8
    let old : BitVec 64 := BitVec.ofNat 64 (s.devDouble view d)
    s.devWriteDouble view d (putBytes old (off - d) cut).toNat) s

end Sys2Proof.Machine
end

