-- ==== Sys2Proof/Machine/Translate.lean ====
section
/-! DEFINITION. Where a virtual address leads: the scratchpad windows, the page walk, the translations cached in TLBs, and
the lineage windows (R16, R156, R258, R352 to R356). -/

namespace Sys2Proof.Machine

/-- Kinds of access (R354, R355). SETE needs both permissions but faults as a write. -/
inductive Kind where
  | r | w | x | rw | sete
  deriving DecidableEq, Repr

/-- Who makes an access: the thread whose context it belongs to, its privilege, whether the MU makes it (R356), and whether an engine does,
whose operands are measured from the unit base (R338). -/
structure Who where
  k    : Key
  priv : Nat
  mu   : Bool := false
  eng  : Bool := false
  deriving DecidableEq, Repr

/-- Trap causes (R93). -/
abbrev cILLOP : Nat := 0x01
abbrev cILLTGT : Nat := 0x02
abbrev cLINE : Nat := 0x03
abbrev cILLROLE : Nat := 0x04
abbrev cPRIV : Nat := 0x05
abbrev cMISALIGN : Nat := 0x06
abbrev cPERM : Nat := 0x13
abbrev cPARTITION : Nat := 0x14
abbrev cLFROZEN : Nat := 0x18
abbrev cLHIDDEN : Nat := 0x19
abbrev cLNODE : Nat := 0x1A
abbrev cLPOOL : Nat := 0x1B
abbrev cUE : Nat := 0x20
abbrev cPOISON : Nat := 0x21
abbrev cSDC : Nat := 0x22
abbrev cFMTX : Nat := 0x28
abbrev cTRWUNB : Nat := 0x30
abbrev cTRWLIM : Nat := 0x31
abbrev cTRWPRIV : Nat := 0x32
abbrev cRILL : Nat := 0x38
abbrev cMUFAULT : Nat := 0x40
abbrev cCUFAULT : Nat := 0x41
abbrev cTRAPI : Nat := 0x48
abbrev cWDOG : Nat := 0x50
abbrev cRESPF : Nat := 0x51
abbrev cHFAULT : Nat := 0x60

/-- The translation cause of a kind (R354). -/
def Kind.xlat : Kind → Nat
  | .r => 0x10
  | .w | .rw | .sete => 0x11
  | .x => 0x12

/-- The index bits of a level, low and count (R352's table). -/
def lvlLow (l : Nat) : Nat := if l = 0 then 16 else 9 * l + 12
def lvlBits (l : Nat) : Nat := if l = 0 then 5 else if l = 6 then 6 else 9

/-- A physical range touches no reserved range (R16). -/
def State.mapped (s : State) (a n : Nat) : Bool :=
  let e := a + n - 1
  (isDram a && isDram e && bit s.members (bits a 40 3) && bits a 40 3 == bits e 40 3) ||
  (isDev a && isDev e) || (isHost a && isHost e)

/-- `Malformed` of R354, of an entry met at a level. -/
def State.malformed (s : State) (pid priv e l : Nat) : Bool :=
  if bit e 1 then
    l == 0 || bits e 2 6 != 0 || bits e 52 12 != 0 || bits e 8 44 * 256 % (8 * 2 ^ lvlBits (l - 1)) != 0 ||
    (priv != 2 && !s.ownsRange pid (bits e 8 44 * 256) (8 * 2 ^ lvlBits (l - 1)))
  else
    let size := 2 ^ lvlLow l
    let lin := bit e 9
    4 ≤ l || bit e 11 || bits e 52 12 != 0 || bits e 16 36 * 65536 % size != 0 || (bit e 3 && !bit e 2) ||
    bits e 6 2 == 3 || (lin && (bit e 8 || bits e 16 36 != 0)) || (!lin && !s.mapped (bits e 16 36 * 65536) size)

/-- The copy of a table entry that a die's walkers hold of a partition (R356). -/
def State.walkerCopy (s : State) (die pid a : Nat) : Option Nat :=
  let look := fun (n : Nat) (x : Tile) =>
    if dieOf n = die then (x.tlb.find? fun t => t.at_ == some a && t.pid == pid).map (·.e.toNat) else none
  match look s.cur.t s.tile with
  | some e => some e
  | none => s.tiles.findSome? fun x => look x.1 x.2

/-- A page-table entry as a walk reads it: memory's, or, at the machine's choice, one that the walkers still hold (R356, log 85). -/
def State.pte (s : State) (die pid a : Nat) : Nat :=
  let now := ofLE (s.dieBytes die a 8)
  match s.walkerCopy die pid a with
  | none => now
  | some e => if e = now then now else if Config.freeChoice s.fresh (2 ^ 64 + a / 8) then e else now

/-- The walk of R354 from a table at a level down to a leaf: its level and entry. -/
def State.walkFrom (s : State) (die pid priv va : Nat) : Nat → Nat → Option (Nat × Nat)
  | l, t =>
    let e := s.pte die pid (t + 8 * bits va (lvlLow l) (lvlBits l))
    if !bit e 0 || s.malformed pid priv e l || s.homeFailed t then none
    else if !bit e 1 then some (l, e)
    else match l with
      | 0 => none
      | l + 1 => s.walkFrom die pid priv va l (bits e 8 44 * 256)

/-- The table entries that a walk passes, from a table at a level on: their addresses, levels and values. -/
def State.walkPath (s : State) (die pid va : Nat) : Nat → Nat → List (Nat × Nat × Nat)
  | l, t =>
    let a := t + 8 * bits va (lvlLow l) (lvlBits l)
    let e := s.pte die pid a
    if !bit e 0 || !bit e 1 then []
    else (a, l, e) :: match l with
      | 0 => []
      | l + 1 => s.walkPath die pid va l (bits e 8 44 * 256)

/-- The table entries that a walk reads, from a table at a level on: their addresses. -/
def State.walkAddrs (s : State) (die pid va : Nat) : Nat → Nat → List Nat
  | l, t =>
    let a := t + 8 * bits va (lvlLow l) (lvlBits l)
    let e := s.pte die pid a
    a :: if !bit e 0 || !bit e 1 then [] else match l with
      | 0 => []
      | l + 1 => s.walkAddrs die pid va l (bits e 8 44 * 256)

/-- The walk of an address in an address space (R354). -/
def State.walk (s : State) (die pid priv ptbr va : Nat) : Option (Nat × Nat) :=
  let l := bits ptbr 0 3
  let t := bits ptbr 8 44 * 256
  if l = 0 ∨ (l < 6 ∧ va / 2 ^ (lvlLow l + lvlBits l) ≠ 0) ∨
      (priv ≠ 2 ∧ s.ownsRange pid t (8 * 2 ^ lvlBits l) = false) then none
  else s.walkFrom die pid priv va l t

/-- `Denied` of R355. -/
def denied (e : Nat) (kind : Kind) (priv : Nat) : Bool :=
  (match kind with
   | .r => !bit e 2
   | .w => !bit e 3
   | .rw | .sete => !bit e 2 || !bit e 3
   | .x => !bit e 4 || (priv == 1 && bit e 5)) ||
  (priv == 0 && !bit e 5)

/-- The cached translation of an address (R356). -/
def Tile.tlbFind (x : Tile) (pid asid va : Nat) (mu : Bool) : Option TlbEnt :=
  x.tlb.find? fun t => t.at_.isNone && t.pid == pid && t.asid == asid && t.mu == mu && va / 2 ^ lvlLow t.lvl == t.va / 2 ^ lvlLow t.lvl

/-- The leaf that translates an address: the walk's, or, at the machine's choice, one still cached (R356). -/
def State.leaf (s : State) (w : Who) (va : Nat) : Option (Nat × Nat) :=
  let c := s.getCtx w.k.t w.k.c
  let walked := s.walk (dieOf w.k.t) c.pid w.priv c.ptbr.toNat va
  match (s.getTile w.k.t).tlbFind c.pid (bits c.ptbr.toNat 52 12) va w.mu with
  | none => walked
  | some t =>
    if walked = some (t.lvl, t.e.toNat) then walked
    else if Config.freeChoice s.fresh (va / 65536) then some (t.lvl, t.e.toNat) else walked

/-- The walk of an access cannot be made yet: a line of its tables waits for a store at its slice or for the host's copy (R237, R251). -/
def State.walkHeld (s : State) (w : Who) (a : Addr) : Bool :=
  let c := s.getCtx w.k.t w.k.c
  let d := dieOf w.k.t
  let va := a.toNat
  if ((s.getDie d).waitSt.isEmpty && s.filter.all fun e => !e.2.h) || 0xFE ≤ bits va 64 8 || bits c.ptbr.toNat 0 3 == 0 then false
  else if ((s.getTile w.k.t).tlbFind c.pid (bits c.ptbr.toNat 52 12) va w.mu).isSome then false
  else (s.walkAddrs d c.pid va (bits c.ptbr.toNat 0 3) (bits c.ptbr.toNat 8 44 * 256)).any fun x => s.dieWaits d (lineOf x)

/-- The scratchpad windows (R258). -/
def State.window (s : State) (w : Who) (kind : Kind) (va : Nat) : Except Nat Spot :=
  let c := s.getCtx w.k.t w.k.c
  if kind = .x then .error kind.xlat
  else if bits va 64 8 = 0xFF then
    let off := bits va 0 64
    let b := (if w.eng then c.ubase else (s.getThread w.k).lseg.toNat) + off
    if c.scratch ≤ off ∨ b < c.ubase ∨ c.ubase + c.scratch ≤ b then .error cPERM
    else .ok { place := .sram w.k.t b }
  else
    let vt := bits va 32 12
    let off := bits va 0 20
    if bits va 44 20 ≠ 0 ∨ bits va 20 12 ≠ 0 then .error kind.xlat
    else if s.ownerOf vt ≠ c.pid then .error cPARTITION
    else match s.unitAt c.pid c.launch vt with
      | none => .ok { place := .away vt off }
      | some (t, n) =>
        let d := s.getCtx t n
        if d.scratch ≤ off then .error cPERM else .ok { place := .sram t (d.ubase + off) }

/-- PERM of R263 step 2 at a page beyond what its entry denies: SETE elsewhere than in DRAM (R149, R267), and a write through a read-only
binding (R151). -/
def refused (kind : Kind) (lin : Bool) (pa : Nat) (rw : Bool) : Bool :=
  if lin then kind == .sete || (kind != .r && kind != .x && !rw) else kind == .sete && !isDram pa

/-- The place that one byte's address leads to, or the cause of the trap (R258, R263 steps 2 and 3, R354). -/
def State.translate (s : State) (w : Who) (kind : Kind) (a : Addr) : Except Nat Spot :=
  let va := a.toNat
  if 0xFE ≤ bits va 64 8 then s.window w kind va
  else
    let c := s.getCtx w.k.t w.k.c
    match s.leaf w va with
    | none => .error kind.xlat
    | some (l, e) =>
      let lin := bit e 9
      let p := s.getPart c.pid
      let bind := if lin then p.bindAt c.ptbr.toNat va else none
      let pa := bits e 16 36 * 65536 + va % 2 ^ lvlLow l
      let base := pa - pa % 2 ^ lvlLow l
      let ord := bits e 6 2
      if lin && bind.isNone then .error kind.xlat
      else if denied e kind w.priv || refused kind lin pa (bind.all (·.rw)) then .error cPERM
      else if w.priv ≠ 2 ∧ bits e 12 4 ≠ c.pid then .error cPARTITION
      else if w.priv ≠ 2 ∧ lin = false ∧ isDev base = false ∧ s.ownsRange c.pid base (2 ^ lvlLow l) = false then
        .error cPARTITION
      else match bind with
        | some b =>
          let off := va - b.base
          match p.node b.node with
          | none => .error kind.xlat
          | some x =>
            if kind = .r ∨ kind = .x then
              .ok { place := if off < 64 * x.blocks then .lin c.pid b.node off b.rw else .linPad, ord := ord }
            else if 64 * x.blocks ≤ off then .error cLNODE
            else if x.kids ≠ 0 then .error cLFROZEN
            else .ok { place := .lin c.pid b.node off b.rw, ord := ord }
        | none =>
          if isDev pa then .ok { place := .dev (pa - 0x4000000000000), ord := ord }
          else .ok { place := .pa pa, ord := ord, comp := bit e 8, repl := bit e 10 }

/-- One piece of an access: its first and its last byte are checked, for a window's end need not be a page's. The trap's
address is the access's. -/
def State.piece (s : State) (w : Who) (kind : Kind) (ea b : Addr) (n : Nat) : Except (Nat × Addr) Piece :=
  match s.translate w kind b with
  | .error c => .error (c, ea)
  | .ok x =>
    match s.translate w kind (b + BitVec.ofNat 72 (n - 1)) with
    | .error c => .error (c, ea)
    | .ok _ => .ok { spot := x, n := n }

/-- The pieces of an access (R229), each within 64 KiB; every piece is checked before any is performed. TADDR is
the first address of the piece that failed (log 45). -/
def State.pieces (s : State) (w : Who) (kind : Kind) (a : Addr) (n : Nat) : Except (Nat × Addr) (List Piece) :=
  let k := 65536 - a.toNat % 65536
  if n ≤ k then
    match s.piece w kind a a n with
    | .error e => .error e
    | .ok p => .ok [p]
  else match s.piece w kind a a k with
    | .error e => .error e
    | .ok p =>
      let b := a + BitVec.ofNat 72 k
      match s.piece w kind b b (n - k) with
      | .error e => .error e
      | .ok q => .ok [p, q]

/-- A TLB with one leaf more, of as many as the tile's TLB and its MU's hold, and the walkers' copies of table entries (R356). -/
def keepLeaf (ent : TlbEnt) (m : List TlbEnt) : List TlbEnt :=
  let n := ent :: m.filter fun t => t.at_.isNone &&
    !(t.pid == ent.pid && t.asid == ent.asid && t.mu == ent.mu && ent.va / 2 ^ lvlLow t.lvl == t.va / 2 ^ lvlLow t.lvl)
  (n.filter (!·.mu)).take 512 ++ (n.filter (·.mu)).take 64 ++ m.filter (·.at_.isSome)
def keepTable (pid va : Nat) (m : List TlbEnt) (e : Nat × Nat × Nat) : List TlbEnt :=
  m.filter (fun t => !(t.at_ == some e.1 && t.pid == pid)) ++
    [{ pid := pid, asid := 0, va := va, lvl := e.2.1, e := BitVec.ofNat 64 e.2.2, at_ := some e.1 }]

/-- Keeps the leaf that an access used in the tile's TLB or its MU's, and the table entries of its walk (R356). -/
def State.noteTlb (s : State) (w : Who) (a : Addr) : State :=
  let c := s.getCtx w.k.t w.k.c
  let va := a.toNat
  if 0xFE ≤ bits va 64 8 then s
  else match s.leaf w va with
    | none => s
    | some (l, e) =>
      let asid := bits c.ptbr.toNat 52 12
      let ent : TlbEnt := { pid := c.pid, asid := asid, va := va - va % 65536, lvl := l, e := BitVec.ofNat 64 e, mu := w.mu }
      let tabs := if s.walk (dieOf w.k.t) c.pid w.priv c.ptbr.toNat va = some (l, e)
        then s.walkPath (dieOf w.k.t) c.pid va (bits c.ptbr.toNat 0 3) (bits c.ptbr.toNat 8 44 * 256) else []
      s.modTile w.k.t fun x => { x with tlb := tabs.foldl (keepTable c.pid va) (keepLeaf ent x.tlb) }

end Sys2Proof.Machine
end

