-- ==== Sys2Proof/WellFormed.lean ====
section
/-! DEFINITION. Which terms of the syntax are instructions of the spec: every check of step 3 of R61 that the encoding
alone decides (R56, R57, R58, R59, R60, R67 and the field lists given with each instruction), and for the steps of
other agents the ranges of their operands. -/

namespace Sys2Proof

/-- `PG` is a predicate register, and `PG` = 0 with `PN` = 1 is not legal (R56). -/
def Ctl.ok (k : Ctl) : Bool := k.pg < 8 && !(k.pg == 0 && k.pn)

/-- Field bounds: 64 for an `s` register, 32 for an `a` or `v` register, 8 for a `k` or `p` register, and 1 for a
field that must be zero (R57). -/
def FRR.ok (f : FRR) (d a b c : Nat) (fns : List Nat) : Bool :=
  f.d < d && f.a < a && f.b < b && f.c < c && fns.contains f.fn

def FRI.ok (f : FRI) (d a : Nat) (fns : List Nat) : Bool := f.d < d && f.a < a && fns.contains f.fn && f.imm < 2 ^ 64

/-- A bit field lies within 64 bits and every other immediate bit is zero (R75). -/
def FRI.fieldOk (f : FRI) : Bool :=
  f.imm < 2 ^ 14 && bits f.imm 6 2 == 0 && bits f.imm 0 6 + bits f.imm 8 6 + 1 ≤ 64

/-- Legal `ORDQ` values (R58): scope 0 to 5, and scope 0 when the access is not ordered. -/
def ordqOk (o : Nat) : Bool := o < 12 && (o % 2 == 1 || o == 0)

def FM.ok (f : FM) (d : Nat) (szs : List Nat) (ord : Bool) : Bool :=
  f.d < d && f.base < 32 && f.idx < 64 && f.sc < 4 && szs.contains f.sz &&
  (if ord then ordqOk f.ordq else f.ordq == 0) && f.disp < 2 ^ 48

def FB.ok (f : FB) (a b : Nat) (cnds fns : List Nat) : Bool :=
  f.a < a && f.b < b && cnds.contains f.cnd && fns.contains f.fn && f.dl < 2 ^ 29 && f.sl < 5

/-- The element types that are integers, that are floating, and both (R60, R164). -/
def intTys : List Nat := [0, 1, 2, 3, 4, 5]
def floatTys : List Nat := [6, 7]
def allTys : List Nat := [0, 1, 2, 3, 4, 5, 6, 7]

/-- Bytes of an element of type `ty` (R164). -/
def tyBytes (ty : Nat) : Nat := if ty ≤ 1 then 1 else if ty ≤ 3 || ty == 6 then 2 else 4

/-- Elements of type `ty` in a `v` register (R164). -/
def tyCount (ty : Nat) : Nat := 128 / tyBytes ty

/-- Field bounds of a vector instruction, in field order, and its legal types and function codes. -/
def FV.ok (f : FV) (vd va vb vc km ss : Nat) (tys fns : List Nat) (imm : Nat) : Bool :=
  f.vd < vd && f.va < va && f.vb < vb && f.vc < vc && f.km < km && f.ss < ss && tys.contains f.ty &&
  fns.contains f.fn && f.rm < 4 && f.imm < imm

/-- `RM` is zero unless the condition holds (R60, R166). -/
def FV.rmIf (f : FV) (c : Bool) : Bool := c || f.rm == 0

/-- Elements of the wider count over the narrower one in a conversion (R171). -/
def cvtRatio (td ts : Nat) : Nat :=
  Nat.max (tyCount td) (tyCount ts) / Nat.min (tyCount td) (tyCount ts)

/-- The types of MMA and MMAS that go together (R179). -/
def mmaTys (fa fb : Nat) : Bool :=
  let named := fun t => 8 ≤ t && t ≤ 10
  6 ≤ fa && fa ≤ 11 && 6 ≤ fb && fb ≤ 11 && !(named fa && named fb && fa != fb) &&
  !(fa == 11 && named fb) && !(fb == 11 && named fa)

/-- Operand bounds of an engine command; `full` when it has B, K operands. -/
def FE.ok (f : FE) (full : Bool) (mode ext : Nat) : Bool :=
  let b := if full then 64 else 1
  f.acc < 4 && f.abase < 32 && f.astr < 64 && f.bbase < (if full then 32 else 1) && f.bstr < b && f.kreg < b &&
  f.fa < 16 && f.fb < 16 && f.mode < mode && f.ext < ext

def FMu.ok (f : FMu) (d vr acc row : Nat) (fns : List Nat) : Bool :=
  f.d < d && f.vr < vr && f.acc < acc && f.row < row && fns.contains f.fn

/-- Field bounds of a copy instruction, in field order without the types, `RM`, `SC`, `FN` and `IMM16`. -/
def FCu.ok (f : FCu) (ad as n t ay ar ai : Nat) : Bool :=
  f.ad < ad && f.asrc < as && f.n < n && f.t < t && f.ay < ay && f.ar < ar && f.ai < ai && f.fn < 256

/-- The fields no copy but CPYC uses are zero, and the type fields are as given. -/
def FCu.plain (f : FCu) (td imm : Nat) : Bool :=
  f.td < td && f.ts == 0 && f.tr == 0 && f.rm == 0 && f.sc == 0 && f.imm < imm

/-- Variant bit `i` of a copy (R199). -/
def FCu.v (f : FCu) (i : Nat) : Bool := bit f.fn i

/-- Only variant bits of the mask are set, .DT needs .DL, `T` is used by .DT alone, .NS has no sync object and is not
narrow (R199). -/
def FCu.variantOk (f : FCu) (mask : Nat) (narrow : Bool) : Bool :=
  f.fn &&& mask == f.fn && (!f.v 2 || f.v 1) && (f.v 2 || f.t == 0) && (!f.v 3 || (f.ay == 0 && !narrow))

def FColl.ok (f : FColl) (d ad as n k : Nat) (tys : List Nat) (fn : Nat) : Bool :=
  f.d < d && f.ad < ad && f.asrc < as && f.n < n && f.g < 16 && f.k < k && tys.contains f.ty && f.fn &&& fn == f.fn

def FLin.ok (f : FLin) (d a b c ar pd : Nat) (fns : List Nat) : Bool :=
  f.d < d && f.a < a && f.b < b && f.c < c && f.ar < ar && f.pd < pd && fns.contains f.fn

def FAtom.ok (f : FAtom) (d b : Nat) (fns : List Nat) : Bool :=
  f.d < d && f.base < 32 && f.a < 64 && f.b < b && ordqOk f.ordq && [2, 3].contains f.sz && fns.contains f.fn &&
  f.disp < 2 ^ 16

def FAppend.ok (f : FAppend) (a t ar fn : Nat) : Bool := f.d < 64 && f.a < a && f.t < t && f.ar < ar && f.fn == fn

def FRegion.ok (f : FRegion) (d e pd ar : Nat) (fns : List Nat) (imm : Nat) : Bool :=
  f.d < d && f.e < e && f.pd < pd && f.ar < ar && fns.contains f.fn && f.imm < imm

def FHawk.ok (f : FHawk) (d a b ar opx bk st : Nat) : Bool :=
  f.d < d && f.a < a && f.b < b && f.ar < ar && f.opx < opx && f.bk < bk && f.st < st

/-- The CSR numbers of R88. -/
def csrNumbers : List Nat :=
  [0x000, 0x001, 0x002, 0x003, 0x004, 0x005, 0x006, 0x007, 0x008, 0x009, 0x00A, 0x00B, 0x00C,
   0x010, 0x011, 0x012, 0x013, 0x014, 0x018, 0x019, 0x01C, 0x020, 0x021, 0x030, 0x031, 0x032, 0x033,
   0x034, 0x035, 0x036, 0x037, 0x0E0, 0x0E1, 0x0E2, 0x100, 0x101, 0x102] ++ (List.range 64).map (· + 0x140) ++
  [0x180, 0x181, 0x182, 0x183, 0x184, 0x185, 0x200, 0x201, 0x202, 0x208, 0x209, 0x20A, 0x20B, 0x20C, 0x20D]

/-- The number is a CSR of R88. -/
def csrOk (n : Nat) : Bool := csrNumbers.contains n

/-- Tile, context and thread numbers in range (R11, R337, R29). -/
def tileOk (t : Nat) : Bool := t < 4096
def ctxOk (t c : Nat) : Bool := t < 4096 && c < 4
def thrOk (t c i : Nat) : Bool := t < 4096 && c < 4 && i < 8
/-- Partition and queue numbers in range (R346, R403). -/
def queueOk (p q : Nat) : Bool := p < 16 && q < 16
/-- A line number: a physical address below 2^52 divided by 128 (R16, R3). -/
def lineOk (l : Nat) : Bool := l < 2 ^ 45

/-- The term is an instruction or step of the spec. -/
def Instr.wf : Instr → Bool
  | .nop k f => k.ok && f.ok 1 1 1 1 [0]
  | .add k f | .sub k f => k.ok && f.ok 64 64 64 1 [0, 1, 2]
  | .addi k f => k.ok && f.ok 64 64 [0, 1, 2]
  | .mul k f | .mulh k f | .mulhu k f | .div k f | .divu k f | .rem k f | .remu k f
  | .and k f | .or k f | .xor k f | .andn k f | .shl k f | .shr k f | .sra k f | .rotr k f
  | .min k f | .max k f | .minu k f | .maxu k f => k.ok && f.ok 64 64 64 1 [0]
  | .andi k f | .ori k f | .xori k f => k.ok && f.ok 64 64 [0]
  | .shli k f | .shri k f | .srai k f => k.ok && f.ok 64 64 [0] && f.imm < 64
  | .clz k f | .ctz k f | .pcnt k f | .bswap k f | .mov k f => k.ok && f.ok 64 64 1 1 [0]
  | .cmp k f => k.ok && f.ok 8 64 64 1 [0, 1, 2, 3, 4, 5]
  | .cmpi k f => k.ok && f.ok 8 64 [0, 1, 2, 3, 4, 5]
  | .sel k f => k.ok && f.ok 64 64 64 8 [0]
  | .pset k f => k.ok && f.ok 8 8 8 1 [0, 1, 2, 3, 4, 5, 6, 7] && (f.fn < 4 || f.b == 0) && (f.fn < 6 || f.a == 0)
  | .movAl k f => k.ok && f.ok 64 32 1 1 [1]
  | .movAh k f => k.ok && f.ok 64 32 1 1 [2]
  | .movi k f => k.ok && f.ok 64 1 [0]
  | .ext k f => k.ok && f.ok 64 64 1 1 [0, 1, 2, 4, 5, 6]
  | .bfx k f => k.ok && f.ok 64 64 [0, 1] && f.fieldOk
  | .bfi k f => k.ok && f.ok 64 64 [0] && f.fieldOk
  | .lea k f => k.ok && f.ok 32 [0] false
  | .adda k f | .suba k f => k.ok && f.ok 32 32 64 1 [0]
  | .subaD k f => k.ok && f.ok 64 32 32 1 [1]
  | .mova k f => k.ok && f.ok 32 32 1 1 [0]
  | .movaS k f => k.ok && f.ok 32 64 1 1 [1]
  | .movaSh k f => k.ok && f.ok 32 64 64 1 [2]
  | .cmpa k f => k.ok && f.ok 8 32 32 1 [0, 1, 4, 5]
  | .movai k f => k.ok && f.d < 32 && f.fn == 0 && f.imm < 2 ^ 72
  | .br k f => k.ok && f.ok 1 1 [0] [0]
  | .bc k f => k.ok && f.ok 64 1 [0, 1, 2, 3] [0]
  | .bcmp k f => k.ok && f.ok 64 64 [0, 1, 2, 3, 4, 5] [0]
  | .bi k f | .ret k f => k.ok && f.ok 1 32 1 1 [0]
  | .call k f => k.ok && f.ok 32 1 [0] [0]
  | .calli k f => k.ok && f.ok 32 32 1 1 [0]
  | .jtab k f => k.ok && f.ok 1 64 64 32 [0]
  | .loop k f => k.ok && f.ok 64 1 [0] [0]
  | .loopi k f => k.ok && f.cnt < 2 ^ 32 && f.dl < 2 ^ 29 && f.sl < 5
  | .breakl k f | .yield k f => k.ok && f.ok 1 1 1 1 [0]
  | .forkb k f => k.ok && f.ok 32 32 [0] [0, 1] && (f.fn == 1 || f.b == 0)
  | .join k f | .spawn k f => k.ok && f.ok 64 32 1 1 [0]
  | .callat k f => k.ok && f.t < 64 && f.a ≤ 60 && f.c < 32
  | .tdep k f | .signal k f => k.ok && f.ok 64 32 64 1 [0]
  | .texit k f => k.ok && f.ok 1 64 1 1 [0]
  | .tqry k f => k.ok && f.ok 64 32 1 1 [0, 1, 2, 3, 4] && (f.fn != 3 || f.a == 0)
  | .cancelTask k f => k.ok && f.ok 64 32 1 1 [0]
  | .cancelLevel k f => k.ok && f.ok 64 64 1 1 [1, 2, 3, 4]
  | .lcnt k f => k.ok && f.ok 64 64 1 1 [0, 1, 2, 3]
  | .semp k f => k.ok && f.ok 64 1 2 8 (List.range 16) && (f.b == 1 || f.c == 0)
  | .semv k f => k.ok && f.ok 64 64 1 1 (List.range 16)
  | .qpush k f => k.ok && f.ok 1 64 2 8 [0, 1, 2, 3] && (f.b == 1 || f.c == 0)
  | .qpop k f => k.ok && f.ok 64 1 2 8 [0, 1, 2, 3] && (f.b == 1 || f.c == 0)
  | .qstat k f => k.ok && f.ok 64 1 2 1 (List.range 16) && (f.b == 1 || f.fn < 4)
  | .ld k f => k.ok && f.ok 64 [0, 1, 2, 3, 8, 9, 10] true
  | .st k f | .stq k f => k.ok && f.ok 64 [0, 1, 2, 3] true
  | .lda k f | .sta k f => k.ok && f.ok 32 [4] true
  | .ldq k f => k.ok && f.ok 64 [0, 1, 2, 3, 8, 9, 10] false
  | .lds k f | .stf k f => k.ok && f.ok 64 [3] true
  | .sete k f => k.ok && f.ok 1 [3, 5] true
  | .feq k f => k.ok && f.ok 64 [3, 5] false
  | .pref k f => k.ok && f.ok 3 [0] false
  | .vld k f | .vst k f => k.ok && f.ok 32 [5] true
  | .vlds k f | .vsts k f => k.ok && f.ok 32 [0, 1, 2, 3] true
  | .vgath k f => k.ok && f.ok 32 32 1 1 8 1 [4, 5, 7] [0] 128 && f.rm == 0
  | .vscat k f => k.ok && f.ok 1 32 32 1 8 1 [4, 5, 7] [0] 128 && f.rm == 0
  | .clean k f | .disc k f | .icinv k f => k.ok && f.ok 1 [0] false
  | .zero k f => k.ok && f.ok 1 [0] true
  | .lr k f => k.ok && f.ok 64 [2, 3] true
  | .sc k f => k.ok && f.ok 64 1 [0]
  | .amo k f => k.ok && f.ok 64 1 [0, 1, 2, 3, 4, 5, 6, 7, 8, 9] && (f.fn != 9 || f.sz == 2)
  | .cas k f => k.ok && f.ok 64 64 [0]
  | .red k f => k.ok && f.ok 1 1 [1, 2, 3, 4, 5, 6, 7, 8, 9] && (f.fn != 9 || f.sz == 2)
  | .append k f => k.ok && f.ok 64 64 1 0 && 1 ≤ f.n && f.n ≤ 8 && f.a + f.n ≤ 64
  | .appendCfg k f => k.ok && f.ok 64 1 32 1 && f.n == 0
  | .appendPop k f => k.ok && f.ok 1 1 1 2 && f.n == 0
  | .appendStat k f => k.ok && f.ok 1 1 1 3 && f.n == 0
  | .wrs k f => k.ok && f.ok 64 [3] false
  | .fence k f => k.ok && f.d == 0 && f.scope < 6 && f.kind < 3
  | .fencee k f => k.ok && f.d < 64 && f.scope < 6 && f.kind == 0
  | .rbegin k f => k.ok && f.ok 1 1 1 1 [0, 1] (2 ^ 32) && bits f.imm 0 3 < 5
  | .rcommit k f => k.ok && f.ok 1 1 1 1 [0] 1
  | .rabort k f => k.ok && f.ok 1 1 1 1 [0] 256
  | .rstat k f => k.ok && f.ok 64 1 8 1 [0] 1
  | .rposB k f => k.ok && f.ok 64 64 1 1 [0] 1
  | .rposL k f => k.ok && f.ok 64 64 1 32 [1] 1
  | .vadd k f | .vsub k f | .vmul k f => k.ok && f.ok 32 32 32 1 8 1 allTys [0, 1] 1 && f.rmIf (6 ≤ f.ty)
  | .vfma k f | .vfms k f => k.ok && f.ok 32 32 32 32 8 1 floatTys [0, 1] 1
  | .vmin k f | .vmax k f | .vand k f | .vor k f | .vxor k f | .vperm k f =>
    k.ok && f.ok 32 32 32 1 8 1 allTys [0] 1 && f.rm == 0
  | .vabs k f | .vneg k f => k.ok && f.ok 32 32 1 1 8 1 allTys [0, 1] 1 && f.rm == 0 && (f.fn == 0 || f.ty < 6)
  | .vrcp k f | .vrsq k f | .vexp2 k f | .vlog2 k f | .vsqrt k f => k.ok && f.ok 32 32 1 1 8 1 floatTys [0] 1
  | .vdiv k f => k.ok && f.ok 32 32 32 1 8 1 floatTys [0] 1
  | .vshl k f | .vshr k f | .vsra k f =>
    k.ok && f.ok 32 32 32 1 8 64 intTys [0, 1] 1 && f.rm == 0 && (if f.fn == 0 then f.ss == 0 else f.vb == 0)
  | .vcmp k f => k.ok && f.ok 32 32 32 1 8 1 allTys [0, 1, 2, 3, 4, 5, 6] 1 && f.rm == 0 && (f.fn < 6 || 6 ≤ f.ty)
  | .vsel k f => k.ok && f.ok 32 32 32 32 8 1 allTys [0] 1 && f.rm == 0
  | .vcvt k f =>
    k.ok && f.ok 32 32 1 1 8 1 allTys [0, 1, 2, 3] 512 && bits f.imm 0 4 < 8 && bits f.imm 4 4 == 0 &&
    bits f.imm 0 4 != f.ty && (!bit f.imm 8 || 6 ≤ f.ty) && f.fn < cvtRatio f.ty (bits f.imm 0 4) &&
    f.rmIf (!(f.ty < 6 && bits f.imm 0 4 < 6) && !(f.ty == 7 && bits f.imm 0 4 == 6))
  | .vred k f =>
    k.ok && f.ok 32 32 1 1 8 1 allTys [0, 1, 2, 3] 1 && (f.fn != 3 || f.ty == 6) &&
    f.rmIf (6 ≤ f.ty && (f.fn == 0 || f.fn == 3))
  | .vscan k f => k.ok && f.ok 32 32 1 1 8 1 allTys [0, 1, 2] 1 && f.rmIf (6 ≤ f.ty && f.fn == 0)
  | .vbcast k f => k.ok && f.ok 32 1 1 1 8 64 allTys [0] 1 && f.rm == 0
  | .vins k f => k.ok && f.ok 32 1 1 1 1 64 allTys [0] (tyCount f.ty) && f.rm == 0
  | .vext k f => k.ok && f.ok 1 32 1 1 1 64 allTys [0] (tyCount f.ty) && f.rm == 0
  | .vmov k f => k.ok && f.ok 32 32 1 1 8 1 allTys [0] 1 && f.rm == 0
  | .vmovi k f => k.ok && f.ok 32 1 1 1 8 1 allTys [0] (2 ^ (8 * tyBytes f.ty)) && f.rm == 0
  | .kop k f => k.ok && f.ok 8 8 8 1 1 1 [0] [0, 1, 2, 3, 4, 5] 1 && f.rm == 0 && (f.fn < 4 || f.vb == 0)
  | .kmov k f =>
    k.ok && f.ok 8 32 1 1 1 64 [0] [0, 1, 2] 1 && f.rm == 0 &&
    (if f.fn == 0 then f.va == 0 else if f.fn == 1 then f.vd == 0 && f.va < 8 else f.ss == 0)
  | .vhist k f => k.ok && f.ok 1 32 1 1 8 1 floatTys [0] 1 && f.rm == 0
  | .mma k f => k.ok && f.ok true 1 1 && mmaTys f.fa f.fb
  | .mmat k f => k.ok && f.ok true 1 32 && f.fa == 6 && f.fb == 0
  | .mmas k f => k.ok && f.ok true 1 32 && mmaTys f.fa f.fb
  | .mzero k f => k.ok && f.ok false 1 1 && f.abase == 0 && f.astr == 0 && f.fa == 0 && f.fb == 0
  | .mst k f => k.ok && f.ok false 16 1 && floatTys.contains f.fa && f.fb == 0 && (f.fa == 6 || f.mode % 4 == 0)
  | .mlda k f => k.ok && f.ok false 1 1 && floatTys.contains f.fa && f.fb == 0
  | .mrdv k f | .mwrv k f => k.ok && f.ok 1 32 4 32 [0, 1]
  | .mprogGo k f | .msync k f => k.ok && f.ok 1 1 1 1 [0]
  | .mprogDrop k f => k.ok && f.ok 1 1 1 1 [1]
  | .mstat k f => k.ok && f.ok 64 1 1 1 [0, 1]
  | .cpy k f => k.ok && f.ok 32 32 64 64 32 1 1 && f.plain 1 1 && f.variantOk 0x4F (f.v 6)
  | .cpyg k f => k.ok && f.ok 32 32 64 64 32 32 1 && f.plain 8 1 && f.variantOk 0x8F false
  | .cpyc k f =>
    k.ok && f.ok 32 32 64 64 32 32 32 && 6 ≤ f.td && f.td ≤ 10 && 6 ≤ f.ts && f.ts ≤ 11 &&
    (if f.v 4 || f.v 5 then 6 ≤ f.tr && f.tr ≤ 10 else f.tr == 0) && f.rm < 4 && f.sc < 64 && f.imm == 0 &&
    f.variantOk 0x3F (8 ≤ f.td || 8 ≤ f.tr) && (f.v 5 || f.ar == 0) && (f.v 4 || f.ai == 0)
  | .cbatch k f => k.ok && f.ok 1 1 1 1 1 1 1 && f.plain 1 1 && f.fn == 0
  | .cwaitb k f => k.ok && f.ok 1 1 1 1 1 1 1 && f.plain 1 64 && f.fn == 0
  | .syncw k f => k.ok && f.ok 1 1 64 64 32 1 1 && f.plain 1 1 && f.fn == 0
  | .syncwt k f => k.ok && f.ok 1 1 1 64 32 1 1 && f.plain 1 1 && f.fn == 0
  | .syncwtInit k f => k.ok && f.ok 1 1 1 64 32 1 1 && f.plain 1 1 && f.fn == 1
  | .csyncWait k f => k.ok && f.ok 1 1 1 1 1 1 1 && f.plain 1 1 && f.fn == 0
  | .csyncStat k f => k.ok && f.ok 1 1 64 1 1 1 1 && f.plain 1 1 && f.fn == 1
  | .csyncGo k f => k.ok && f.ok 1 1 1 1 1 1 1 && f.plain 1 1 && f.fn == 2
  | .csyncDrop k f => k.ok && f.ok 1 1 1 1 1 1 1 && f.plain 1 1 && f.fn == 3
  | .cgrp k f => k.ok && f.ok 1 1 32 64 64 [0] 0
  | .cring k f => k.ok && f.ok 1 32 32 64 1 [0] 15
  | .credu k f => k.ok && f.ok 1 32 32 64 1 floatTys 7
  | .cgath k f => k.ok && f.ok 1 32 32 64 1 [0] 11
  | .cbar k f => k.ok && f.ok 1 1 1 1 1 [0] 0
  | .cwait k f => k.ok && f.ok 64 1 1 1 1 [0] 0
  | .lnew k f => k.ok && f.ok 64 64 1 1 1 8 [0]
  | .lmap k f => k.ok && f.ok 1 64 1 1 32 8 [0, 1]
  | .lunmap k f => k.ok && f.ok 1 1 1 1 32 8 [0]
  | .fork k f => k.ok && f.ok 64 64 1 1 1 8 [0]
  | .rebase k f => k.ok && f.ok 1 64 64 1 32 8 [0, 1] && (f.fn == 0 || f.ar == 0)
  | .flatten k f => k.ok && f.ok 1 64 1 1 32 8 [0, 1] && (f.fn == 0 || f.ar == 0)
  | .drop k f => k.ok && f.ok 1 64 1 1 1 8 [0]
  | .lnq k f => k.ok && f.ok 64 64 64 1 1 1 [0, 1, 2, 3, 4, 5, 6, 7] && (f.fn == 6 || f.b == 0)
  | .ldiff k f => k.ok && f.ok 64 64 64 64 1 8 [0]
  | .trap k f => k.ok && f.imm < 2 ^ 32
  | .eret k _ => k.ok
  | .csrr k f => k.ok && f.ok (if f.fn == 0 then 64 else 32) 1 [0, 1] && csrOk f.imm
  | .csrw k f => k.ok && f.ok 1 (if f.fn == 0 then 64 else 32) [0, 1] && csrOk f.imm
  | .csrx k f => k.ok && f.ok 64 64 [0, 1, 2] && csrOk f.imm
  | .tlbi k f =>
    k.ok && f.ar < 32 && f.sa < 64 && 1 ≤ f.scope && f.scope ≤ 4 && f.fn < 4 &&
    ([0, 3].contains f.fn || f.ar == 0) && ([0, 1].contains f.fn || f.sa == 0)
  | .park k f => k.ok && f.d < 64 && f.a < 64
  | .trwb k f => k.ok && f.ok 64 64 1 1 64 1 1
  | .trwl k f => k.ok && f.ok 1 1 64 32 1 8 256
  | .trwu k f | .trwq k f => k.ok && f.ok 64 1 1 1 64 1 1
  | .trowel k f =>
    k.ok && f.op < 64 && f.d < 64 && f.a < 64 && f.b < 64 && f.c < 64 && f.vp < 32 && f.imm < 2 ^ 32
  | .muCommandRun t c | .cuCopyRun t c | .collectiveRun t c | .heldReturnDelivery t c | .unitComplete t c
  | .preemptRequest t c | .eviction t c => ctxOk t c
  | .rlimitWrite t c v | .mprWrite t c v | .ptbrWrite t c v => ctxOk t c && v < 2 ^ 64
  | .syncArrival t c off amt => ctxOk t c && off < 2 ^ 20 && off % 16 == 0 && amt < 2 ^ 40
  | .chunkAck t c rank _ _ | .chunkResend t c rank _ _ => ctxOk t c && rank < 65536
  | .noPathLimit t c g => ctxOk t c && g < 16
  | .chunkArrival _ | .inboxDelivery _ | .callatReturnDelivery _ | .narrowingMessage _ | .successorSignal _
  | .redAck _ | .nonresidentTraffic _ | .orphanDiscard _ => true
  | .lineageBlockRecompose p n | .lineageOpEnd p n | .lineageUndo p n => p < 16 && n < 2 ^ 32
  | .classVResult t c i _ => thrOk t c i
  | .lineRefetch t c i | .lrTimeout t c i | .ldsWake t c i | .wrsWake t c i | .wrsTimeout t c i | .joinRecheck t c i
  | .parkTimeout t c i | .syncwWake t c i | .remoteLoadWake t c i | .tokenGrant t c i | .registerUe t c i
  | .spuriousWake t c i | .yieldHoldExpiry t c i => thrOk t c i
  | .trapEntry t c i cause a => thrOk t c i && cause < 256 && a < 2 ^ 72
  | .leaseGrant t l | .leaseExpiry t l => tileOk t && lineOk l
  | .fifoSend t | .releaseMarkerAck t | .dispatch t | .overflowMove t | .stealRequest t | .balance t | .resume t
  | .probationEnd t | .appealTimeout t => tileOk t
  | .foldedResume t _ => tileOk t
  | .storePerformAtSlice d l | .ownershipArrival d l => d < 8 && lineOk l
  | .rds a l | .rdx a l | .upg a l | .wb a l | .prs a l | .pri a l | .prx a l => a < 65 && lineOk l
  | .snoopFilterVictim l | .reservationGrant l | .reservationRelease l | .hostLineSnoopAnswer l | .dramScrub l => lineOk l
  | .notPresentAnswer a l p => a < 65 && lineOk l && p < 16
  | .hostRead pa mv => pa < 2 ^ 52 && mv < 2
  | .hostMemWr pa d => pa < 2 ^ 52 && pa % 64 == 0 && d < 2 ^ 512
  | .bisnpAnswer pa rsp => pa < 2 ^ 52 && rsp < 3
  | .hostSnoop pa kind => pa < 2 ^ 52 && kind < 3
  | .regionAccessAtSlice t c i l w => thrOk t c i && lineOk l && w < 2
  | .sealAtSlice t c i l | .finalPositionBroadcast t c i l => thrOk t c i && lineOk l
  | .regionAbort t c i cause tc => thrOk t c i && cause < 11 && tc < 256
  | .launchSlotPoll p q | .launchStart p q | .watchdogStep1 p q | .watchdogStep2 p q | .watchdogStep3 p q => queueOk p q
  | .launchComplete p l => p < 16 && l < 2 ^ 32
  | .doneMessage p l t => p < 16 && l < 2 ^ 32 && tileOk t
  | .becomeResumable p _ => p < 16
  | .heartbeatSend t d | .periodJudgement t d | .voteExpiry t d | .appeal t d => tileOk t && d < 4
  | .heartbeatReceive t d tid h hl => tileOk t && d < 4 && tid < 4096 && h < 65536 && hl < 2 ^ 32
  | .accusation t x a j => tileOk t && tileOk x && tileOk a && j < 4
  | .fenceLearn d x c => d < 8 && tileOk x && c < 4
  | .firmwareReferral x f => tileOk x && f < 2
  | .bistResult t p => tileOk t && p < 2
  | .correctableError kind _ | .bucketLeak kind _ => kind < 3
  | .ueDetected t c i va => thrOk t c i && va < 2 ^ 72
  | .sdc t c i a _ => thrOk t c i && a < 2 ^ 72
  | .sdcCountSave | .firmwareWatchdog | .attest | .partcfg | .dump | .clearsr | .dumpack | .opkey => true
  | .dieFail d => d < 8
  | .partFail q => q < 8
  | .laneFailure p => p < 24
  | .portDown l => l < 34
  | .d2dWireSpare j => j < 10
  | .currentMonitorSample d _ => d < 8
  | .powerSample _ _ _ => true
  | .coldReset _ => true
  | .fatalDump c => 1 ≤ c && c ≤ 6
  | .launchQueueTailWrite p q v => queueOk p q && v < 2 ^ 32
  | .launchQueueEnable p q v s => queueOk p q && v < 2 && s < 2
  | .launchQueueDescWrite p q off v s => queueOk p q && off < 64 && off % 8 == 0 && v < 2 ^ 64 && s < 2
  | .eventRingHeadWrite p v => p < 16 && v < 2 ^ 32
  | .eventRingDescWrite p v => p < 16 && v < 2 ^ 64
  | .lpoolWrite p v | .leaseWrite p v | .balWrite p v => p < 16 && v < 2 ^ 64
  | .lsplitWrite t v | .lgrpWrite t v | .hbperWrite t v => tileOk t && v < 2 ^ 64
  | .histWrite t n v => tileOk t && n < 64 && v < 2 ^ 64
  | .lsegWrite t c i v => thrOk t c i && v < 2 ^ 72
  | .tsrWrite t c i v => thrOk t c i && v < 2 ^ 64
  | .registerWrite off v view => off < 2 ^ 32 && v < 2 ^ 64 && view < 18
  | .lineEviction kind a l => kind < 6 && a < 4096 && lineOk l

end Sys2Proof
end

