-- ==== Sys2Proof/Machine/Access.lean ====
section
/-! DEFINITION. Reading and writing the places that addresses lead to, with everything that a performed store brings about:
monitors, reservations, sync-load waiters, full/empty and poison bits (R238 to R240, R259, R265, R266, R276, R282, R388, R427). -/

namespace Sys2Proof.Machine

/-! ### Local SRAM -/

/-- Bytes of a tile's SRAM. -/
def State.sramBytes (s : State) (t b n : Nat) : List Byte :=
  let m := (s.getTile t).sram
  (List.range n).map fun j => SMap.get 0 m (b + j)

/-- Writes bytes of a tile's SRAM: the monitors of the lines wake and their reservations break (R282, R427). -/
def State.sramWrite (s : State) (t b : Nat) (bs : List Byte) : State :=
  let r := s.modTile t fun x =>
    { x with sram := Memory.write x.sram b bs, poison := clearPoison x.poison b bs.length }
  (linePieces b bs).foldl (fun s p => (s.breakResv (some t) (lineOf p.1)).wakeLine none (some t, lineOf p.1)) r

/-- Sync objects that an outstanding copy, of a resident or of a parked unit, or a lineage operation names: the tile and the byte of its SRAM (R198). -/
def State.syncObjects (s : State) : List (Nat × Nat) :=
  (s.liveCtxs.flatMap fun y =>
    let x := s.getCtx y.1 y.2
    x.cu.q.filterMap fun q =>
      if 0x293 ≤ q.op || bit q.fn 3 then none
      else if bit q.fn 1 && bit q.fn 2 then
        (s.unitAt x.pid x.launch q.tile).map fun u => (u.1, (s.getCtx u.1 u.2).ubase + q.sync)
      else some (y.1, x.ubase + q.sync)) ++
  s.parts.flatMap fun p =>
    let at_ := fun (launch vt off : Nat) => (s.unitAt p.1 launch vt).map fun u => (u.1, (s.getCtx u.1 u.2).ubase + off)
    (p.2.nodes.filterMap fun e => (e.2.busy.bind (·.sync)).bind fun v => at_ ((e.2.busy.map (·.launch)).getD 0) v.1 v.2) ++
    p.2.parked.flatMap fun x => x.ctx.cu.q.filterMap fun q =>
      if q.op < 0x293 && !bit q.fn 3 && bit q.fn 1 && bit q.fn 2 then at_ x.ctx.launch q.tile q.sync else none

/-- A program has stored to `n` bytes of a tile's SRAM: TARGET, COUNT and GEN of the outstanding objects that they touch are
UNKNOWN (R198, log 6). -/
def State.spoil (s : State) (t b n : Nat) : State :=
  (s.syncObjects.filter fun o => o.1 == t && b < o.2 + 16 && o.2 < b + n).foldl (fun s o =>
    let word := fun (i : Nat) => (Config.freeWord s.fresh i).toNat
    s.modTile t fun x => { x with sram := Memory.write (Memory.write x.sram o.2 (toLE 5 (word o.2))) (o.2 + 8) (toLE 8 (word (o.2 + 8))) }) s
def State.spoilAt (s : State) (p : Place) (n : Nat) : State := match p with | .sram t b => s.spoil t b n | _ => s

/-- Sets full/empty bits of SRAM doubles (R265). -/
def State.sramFull (s : State) (t d n : Nat) (full : Bool) : State :=
  s.modTile t fun x => { x with empty := (List.range n).foldl (fun m j => SMap.set false m (d + j) (!full)) x.empty }

/-! ### Stores on their way to memory -/

/-- The line of the entry a FIFO's entries would merge with, entry by entry: how many entries the FIFO holds when stores to
one line in a row are one entry (R238). -/
def fifoCount : Option Nat → List FifoEnt → Nat
  | _, [] => 0
  | _, .marker _ _ :: r => 1 + fifoCount none r
  | l, .store x :: r => (if l = some (lineOf x.a) then 0 else 1) + fifoCount (some (lineOf x.a)) r

/-- The entries that stores to lines in this order add to a FIFO whose youngest entry is of line `l` (R238). -/
def runsOf : Option Nat → List Nat → Nat
  | _, [] => 0
  | l, x :: r => (if l = some x then 0 else 1) + runsOf (some x) r

/-- The line of the youngest entry of a FIFO, which a store to it merges into; none for a marker. -/
def youngest (q : List FifoEnt) : Option Nat := q.getLast?.bind fun e => e.store?.map fun x => lineOf x.a

/-- The oldest entry of a tile's FIFO, with every store merged into it, goes to its line's slice (R238). -/
def State.sendRun (s : State) (t : Nat) : State :=
  match (s.getTile t).fifo with
  | .store x :: r =>
    let run := (r.takeWhile fun e => (e.store?).any fun y => lineOf y.a == lineOf x.a).filterMap FifoEnt.store?
    (s.modTile t fun y => { y with fifo := r.drop run.length }).modDie (dieOf t) fun d => { d with waitSt := d.waitSt ++ x :: run }
  | _ => s

/-- An instruction's stores that are more than the FIFO holds go on to their slices, the oldest first, until 64 entries are left. -/
def State.sendExcess (s : State) (t : Nat) : State :=
  (List.range 128).foldl (fun s _ => if fifoCount none (s.getTile t).fifo ≤ 64 then s else s.sendRun t) s

/-- Every observer sees a store of `n` bytes at an address as a whole (R229). -/
def seenWhole (a n : Nat) : Bool := (n == 1 || n == 2 || n == 4 || n == 8 || n == 16) && a % n == 0

/-- How a store goes: as STQ, the scope at which it returns (R228, R264), whether it is performed only when merged, the pending entry that
waits for it, and the scope of an ordered one (R227). -/
structure StoreWay where
  drop  : Bool := false
  scope : Nat := 1
  merge : Bool := false
  owner : Option (Key × Nat) := none
  rel   : Nat := 0

/-- A store enters a tile's FIFO line by line; the tile's own copy is updated, or dropped by STQ (R238, R264). -/
def State.enterFifo (s : State) (k : Key) (pid a : Nat) (bs : List Byte) (way : StoreWay) : State :=
  s.modTile k.t fun x =>
    (linePieces a bs).foldl (fun x p =>
      let l := lineOf p.1
      let st : Store := { a := p.1, bytes := p.2, pid := pid, tile := k.t, scope := way.scope, owner := way.owner, merge := way.merge,
                          whole := seenWhole a bs.length, src := some (k, s.fresh), rel := way.rel }
      { x with
        fifo := x.fifo ++ [.store st]
        copies := match SMap.find x.copies l with
          | none => x.copies
          | some c => if way.drop then SMap.erase x.copies l else SMap.put x.copies l { c with data := st.overs l c.data } }) x

/-- Some store that a pending entry waits for is still on its way. -/
def State.awaits (s : State) (k : Key) (id : Nat) : Bool :=
  let d := s.getDie (dieOf k.t)
  let mine := fun x : Store => x.owner == some (k, id)
  ((s.getTile k.t).fifo.filterMap FifoEnt.store?).any mine || d.waitSt.any mine || d.pendB.any mine

/-- A store's instruction has its result: the pending entry it waits for needs nothing more (R228). -/
def State.finish (s : State) (o : Option (Key × Nat)) : State :=
  match o with
  | none => s
  | some (k, id) => if s.awaits k id then s else s.modThread k fun x => x.modPend id fun p => { p with what := .ready }

/-- A store has been merged at the agent that owns its line: it is performed at every scope (R239, R240), a reservation on
the line breaks (R276), and poison of doubles it covers whole is cleared (R388). One that is performed only then wakes the die's monitors of
the line (R282). -/
def State.merged (s : State) (ag : Nat) (x : Store) : State :=
  let r := (s.mergeHeld ag x).breakResv none (lineOf x.a)
  let r := if x.merge then r.wakeLine (some (ag % 8)) (none, lineOf x.a) else r
  (({ r with poison := clearPoison r.poison x.a x.bytes.length } : State).finish x.owner).recorded x.ring

/-- Ownership of a line has come to a die: its pending bytes are merged in order (R239). -/
def State.mergePending (s : State) (d l : Nat) : State :=
  let mine := (s.getDie d).pendB.filter fun x => lineOf x.a == l
  let r := s.modDie d fun y => { y with pendB := y.pendB.filter (fun x => lineOf x.a != l), owned := y.owned.filter (· != l) }
  mine.foldl (fun r x => r.merged (r.agentOf d) x) r

/-- The agent holds the line in M, taking it if it does not; pending bytes of its die are merged (R239). -/
def State.inM (s : State) (ag l pid : Nat) : State :=
  if 2 ^ 45 ≤ l then s
  else
    let t := if (s.held ag l).any fun h => h.st == .m then s else s.takeM ag l pid (s.strangers ag l pid)
    if ag / 8 = s.domPos then t.mergePending (ag % 8) l else t

/-- A die's slice performs a store (R237, R239): merged at once when the die owns the line in M or E, else kept as pending
bytes. The die's monitors of the line wake, unless the store is performed only when it is merged (R282), and its regions on the line abort
(R294). -/
def State.performStore (s : State) (d : Nat) (x : Store) : State :=
  let l := lineOf x.a
  let r := (if x.merge then s else s.wakeLine (some d) (none, l)).strong d l
  match r.held (r.agentOf d) l with
  | some h =>
    if h.st = .m ∨ h.st = .e then (r.mergePending d l).merged (r.agentOf d) x
    else (if x.merge then r else r.finish x.owner).modDie d fun y =>
      { y with pendB := y.pendB ++ [if x.merge then x else { x with owner := none }], owned := if y.owned.contains l then y.owned else y.owned ++ [l] }
  | none =>
    (if x.merge then r else r.finish x.owner).modDie d fun y =>
      { y with pendB := y.pendB ++ [if x.merge then x else { x with owner := none }], owned := if y.owned.contains l then y.owned else y.owned ++ [l] }

/-! ### The home of a line -/

/-- No store of the tile or its die to the line is still on its way. -/
def State.drained (s : State) (t l : Nat) : Bool :=
  let d := s.getDie (dieOf t)
  ((s.getTile t).fifo.filterMap FifoEnt.store?).all (fun x => lineOf x.a != l) &&
  d.waitSt.all (fun x => lineOf x.a != l) && d.pendB.all fun x => lineOf x.a != l

/-- The line is under the hold of an AMO, CAS or SC, which delays the accesses that reach its home (R273). -/
def State.underHold (s : State) (l : Nat) : Bool := ((SMap.get [] s.resvq l)[0]?).any fun q => q.granted && q.op != 3

/-- The home of a line has no request in hand or waiting, the host no copy, and the line's bank an entry for it: ownership can pass at
once (R243, R244, R246, R251). -/
def State.homeIdle (s : State) (l : Nat) : Bool :=
  (SMap.find s.txns l).isNone && (SMap.get [] s.homeq l).isEmpty && !s.hostHas l && s.hasEntry l

/-- An agent holds a line in M, or can take it at once. -/
def State.ownable (s : State) (ag l : Nat) : Bool := s.homeIdle l || (s.held ag l).any fun h => h.st == .m

/-- An access performed at the line's home slice may be made (R266): the line's leases have lapsed, the tile's own
stores to it have arrived, no atomic holds it, and its ownership can pass. -/
def State.homeReady (s : State) (t l : Nat) : Bool := !s.leased l && s.drained t l && !s.underHold l && s.ownable (s.queueAgent l) l

/-- A write of `n` bytes that the DV-1 makes itself may be performed at its lines' homes: no lease on them runs, no atomic holds them, and
their ownership can pass (R237, R244, R251, R273). -/
def State.sysReady (s : State) (a n : Nat) : Bool :=
  let within := fun (l : Nat) => lineOf a ≤ l && l ≤ lineOf (a + n - 1)
  let free := fun (l : Nat) => !within l || s.ownable (s.queueAgent l) l
  (s.filter.length < 65536 || (List.range (lineOf (a + n - 1) + 1 - lineOf a)).all fun j => s.hasEntry (lineOf a + j)) &&
  (s.dies.all fun e => e.2.emax.all fun x => !within x.1 || decide (x.2 ≤ s.plumb)) &&
  (s.resvq.all fun e => !within e.1 || !s.underHold e.1) &&
  (s.txns.all fun e => free e.1) && (s.homeq.all fun e => free e.1) && s.filter.all fun e => !e.2.h || free e.1

/-- A store performed at the line's home slice, which has taken the line in M (R266, R273): monitors on every die wake,
regions there abort. -/
def State.homeStore (s : State) (pid a : Nat) (bs : List Byte) : State :=
  let r := ((linePieces a bs).foldl (fun s p => s.inM (s.queueAgent (lineOf p.1)) (lineOf p.1) pid) s).homeWrite pid a bs
  (linePieces a bs).foldl (fun r p =>
    let l := lineOf p.1
    ((r.breakResv none l).wakeLine none (none, l)).mapThreads fun _ x =>
      match x.region with
      | some g =>
        if g.irr = false ∧ g.committed = false ∧ g.doom = none ∧ g.touches l then
          { x with region := some { g with doom := some (5, 0) } }
        else x
      | none => x) r

/-! ### Reading and writing a place -/

/-- The node and offset that such an address names. -/
def linOf (a : Nat) : Option (Nat × Nat × Nat) :=
  if a < 2 ^ 52 then none else some ((a / 2 ^ 52 - 1) / 2 ^ 32, (a / 2 ^ 52 - 1) % 2 ^ 32, a % 2 ^ 52)

/-- How a load reads memory: from the tile's copy, or from the line's slice (R285), or from a replica (R241). -/
inductive Via where
  | tile | slice | replica
  deriving DecidableEq, Repr

/-- Bytes of a lineage node; UNKNOWN once software has written the partition's pool (R146, log 6). -/
def State.linBytes (s : State) (pid node off n : Nat) : List Byte :=
  if (s.getPart pid).poolBad then (List.range n).map fun j => Config.freeByte s.fresh (2 ^ 52 * node + off + j)
  else (List.range n).map fun j => (s.getPart pid).nodeByte node (off + j)

/-- `m` bytes at one place and `n` at another share one. -/
def Place.meets (y : Place) (m : Nat) (p : Place) (n : Nat) : Bool :=
  match y, p with
  | .pa a, .pa b => a < b + n && b < a + m
  | .sram t a, .sram u b => t == u && a < b + n && b < a + m
  | .lin q j a _, .lin r k b _ => q == r && j == k && a < b + n && b < a + m
  | _, _ => false

/-- A place `off` bytes on. -/
def Place.plus (p : Place) (off : Nat) : Place :=
  match p with
  | .pa a => .pa (a + off)
  | .dev a => .dev (a + off)
  | .lin q n a rw => .lin q n (a + off) rw
  | .sram t b => .sram t (b + off)
  | .away v a => .away v (a + off)
  | p => p

/-- Changes every entry. -/
def State.mapEntries (s : State) (f : Entry → Entry) : State :=
  (s.allTiles fun _ x => { x with deque := x.deque.map f }).allDies fun _ d => { d with overflow := d.overflow.map f }

/-- A program has written `n` bytes at a place: a task whose `STATUS`, `DEPC` or `SEQ` lies there is scheduled in an UNKNOWN way from
then on (R43, log 68). -/
def State.spoilTcb (s : State) (p : Place) (n : Nat) : State :=
  let hit := fun (at_ : Place) => (at_.plus 6).meets 1 p n || (at_.plus 40).meets 4 p n || (at_.plus 48).meets 8 p n
  let wild := fun (l : Launch) => (l.homes.filter fun e => hit e.2).map (·.1)
  if s.parts.all fun q => q.2.launches.all fun l => (wild l.2).isEmpty then s
  else
    let r := s.mapEntries fun e =>
      if ((SMap.find (s.getPart e.pid).launches e.launch).map wild).any (·.contains e.tcb) then
        { e with seq := (Config.freeWord s.fresh (e.seq + 64)).toNat }
      else e
    { r with parts := SMap.map (fun _ (q : Partn) =>
        { q with launches := SMap.map (fun _ (l : Launch) => { l with wild := l.wild ++ wild l }) q.launches }) r.parts }

/-- Changes every context; a number names its tile and its place there. -/
def State.mapCtxs (s : State) (f : Nat → Ctx → Ctx) : State :=
  { s with ctx := f (ctxNo s.cur.t s.cur.c) s.ctx, ctxs := SMap.map f s.ctxs }

/-- A lineage node has been written: an MMAS that reads it as its child leaves its accumulator UNKNOWN (R184). -/
def State.spoilMmas (s : State) (pid node : Nat) : State :=
  s.mapCtxs fun _ x => { x with mu := { x.mu with q := x.mu.q.map fun q =>
    let w := if 8 ≤ q.fa then 64 * ((q.k + 47) / 48) else if q.fa = 7 then 4 * q.k else 2 * q.k
    let there := fun (a : Nat) => ((s.getPart pid).bindAt x.ptbr.toNat a).any fun b => b.node == node
    let reads := (List.range 32).any fun i =>
      let a := ((q.a.toNat : Int) + i * q.astr).toNat
      there a || there (a + w - 1)
    { q with spoilt := q.spoilt || (q.run && q.op == 0x282 && x.pid == pid && reads) } } }

/-- Operands of a collective that is not complete hold a byte of `n` bytes at a place: its source, or its destination of `len` bytes. -/
def State.collMeets (s : State) (no : Nat) (x : Ctx) (q : CuCmd) (dest : Bool) (len : Nat) (p : Place) (n : Nat) : Bool :=
  let a := if dest then q.dst else q.src
  if q.op < 0x2A1 ∨ 0x2A3 < q.op ∨ len = 0 then false
  else if bit q.fn (b2n dest) then (Place.sram (no / 4) (x.ubase + a.toNat)).meets len p n
  else match s.pieces { k := ⟨no / 4, no % 4, q.thr⟩, priv := q.priv, eng := true } (if dest then .w else .r) a len with
    | .ok ps => ps.any fun y => y.spot.place.meets y.n p n
    | .error _ => false
def State.sourceMeets (s : State) (no : Nat) (x : Ctx) (q : CuCmd) (p : Place) (n : Nat) : Bool :=
  s.collMeets no x q false (if q.op = 0x2A2 then q.n * tyBytes q.ty else q.n) p n

/-- The bytes that a rank's destination covers (R212). -/
def CuCmd.collRange (x : CuCmd) (g : Group) : Nat :=
  match x.op with
  | 0x2A1 => x.n
  | 0x2A2 => if bit x.fn 2 && g.rank != 0 then 0 else x.n * tyBytes x.ty
  | 0x2A3 => g.members.length * x.n
  | _ => 0

/-- Some unit has a collective that is not complete. -/
def Ctx.hasColl (x : Ctx) : Bool := x.cu.q.any fun q => 0x2A1 ≤ q.op && q.op ≤ 0x2A3
def State.hasColl (s : State) : Bool := s.ctx.hasColl || s.ctxs.any fun e => e.2.hasColl

/-- The double of a place lies among those that a piece touches. -/
def Place.inPiece (p : Place) (q : Piece) : Bool :=
  let at_ := fun (a b : Nat) => b / 8 ≤ a / 8 && a / 8 ≤ (b + q.n - 1) / 8
  match p, q.spot.place with
  | .pa a, .pa b => at_ a b
  | .sram t a, .sram u b => t == u && at_ a b
  | .lin i n a _, .lin j m b _ => i == j && n == m && at_ a b
  | _, _ => false

/-- The cause that a consumer of poisoned doubles takes: UE when it is the first to find an error in one of them, else POISON (R388). -/
def State.badCause (s : State) (ps : List Piece) : Nat := if s.ues.any fun p => ps.any p.inPiece then cUE else cPOISON

/-- The errors in the doubles of pieces have been found. -/
def State.ueFind (s : State) (ps : List Piece) : State :=
  if s.ues = [] then s else { s with ues := s.ues.filter fun p => !ps.any p.inPiece }

/-- Pieces have been read: errors in them are found (R388), and what a collective that is not complete leaves of a destination there is
UNKNOWN (R424). -/
def State.spoilDests (s : State) (ps : List Piece) : State :=
  let s := s.ueFind ps
  if !s.hasColl then s
  else s.mapCtxs fun no x => { x with cu := { x.cu with q := x.cu.q.map fun q =>
    let len := ((SMap.find x.groups q.g).map q.collRange).getD 0
    { q with early := q.early || ps.any fun p => s.collMeets no x q true len p.spot.place p.n } } }

/-- Doubles that a write of `n` bytes at a place covers whole hold no error any more (R388). -/
def State.ueOver (s : State) (p : Place) (n : Nat) : State :=
  if s.ues = [] then s
  else { s with ues := s.ues.filter fun q => !(q.inPiece { spot := { place := p }, n := n } && q.inPiece { spot := { place := p.plus 7 }, n := n - 7 }) }

/-- A program has written `n` bytes at a place: what a rank has sent, or will send, of a source there is UNKNOWN (R214). -/
def State.spoilSources (s : State) (p : Place) (n : Nat) : State :=
  let s := s.ueOver p n
  let u := s.mapCtxs fun no x => { x with cu := { x.cu with q := x.cu.q.map fun q =>
    { q with spoilt := q.spoilt || s.sourceMeets no x q p n } } }
  let late := fun (x : Ctx) (d : Chunk) => x.cu.q.any fun q => q.spoilt && q.seq == d.seq && x.pid == d.pid &&
    x.groups.any fun e => e.1 == q.g && e.2.key == d.key && e.2.rank == d.rank
  let mark := fun (d : Chunk) => { d with spoilt := d.spoilt || late u.ctx d || u.ctxs.any fun e => late e.2 d }
  let v := u.mapCtxs fun _ x => { x with groups := SMap.map (fun _ (g : Group) => { g with got := g.got.map mark, kept := g.kept.map mark }) x.groups }
  { v with net := v.net.map mark }

/-- Software has written memory: a skim pool there, the image of a parked unit, or a TCB is no longer as the DV-1 left it, nor what a
collective sends of a source there (R146, R334, R43, R424). -/
def State.spoilMem (s : State) (a n : Nat) : State :=
  let s := (s.spoilTcb (.pa a) n).spoilSlots a n
  let hits := fun (b len : Nat) => a < b + len && b < a + n
  ({ s with parts := SMap.map (fun _ (p : Partn) =>
      let w := p.lpool.toNat
      { p with
        poolBad := p.poolBad || ((bit w 0 || !p.nodes.isEmpty) && hits (bits w 16 36 * 65536) (bits w 1 15 * 0x4000000))
        parked := p.parked.map fun x => { x with bad := x.bad || hits x.image (0x10800 + x.ctx.scratch) } }) s.parts } : State).spoilSources (.pa a) n

/-- Bytes written to a lineage node, of a thread or engine outside regions (R151): reservations on its lines break (R276), monitors of
them wake (R282), and regions there abort (R294). None when the skim pool is exhausted. -/
def State.linPut (s : State) (pid node off : Nat) (bs : List Byte) : Option State :=
  let p := Place.lin pid node off true
  ((s.getPart pid).nodeWrite node off bs).map fun q =>
    ((linePieces ((p.regionAddr).getD 0) bs).foldl (fun s x =>
        ((s.breakResv none (lineOf x.1)).wakeLine none (none, lineOf x.1)).strong (node % 8) (lineOf x.1))
      ((s.setPart pid q).spoilMmas pid node)).spoilSources p bs.length

/-- The replica of a line for a thread's launch in the slice beside its tile (R241). -/
def State.replicaOf (s : State) (k : Key) (l : Nat) : Option Replica :=
  let c := s.getCtx k.t k.c
  (s.getDie (dieOf k.t)).repl.find? fun x => x.slice == sliceBeside k.t && x.pid == c.pid && x.launch == c.launch && x.line == l

/-- Bytes at a place as a thread's load sees them. -/
def State.readPlace (s : State) (w : Who) (via : Via) (p : Place) (n : Nat) : List Byte :=
  match p with
  | .pa a =>
    let f := fun l =>
      match via with
      | .slice => s.dieLineFor (some w.k.t) (dieOf w.k.t) l
      | .tile => s.tileLine w.k.t l
      | .replica =>
        match s.replicaOf w.k l with
        | some c => if c.live && Config.freeChoice s.fresh l then c.data else s.tileLine w.k.t l
        | none => s.tileLine w.k.t l
    bytesBy f a n
  | .dev off => s.devRead (viewOf w.priv (s.getCtx w.k.t w.k.c).pid) off n
  | .lin pid node off _ => s.linBytes pid node off n
  | .sram t b => s.sramBytes t b n
  | .linPad | .linNone | .away _ _ => List.replicate n 0

/-- The pieces' bytes in order. -/
def State.readPieces (s : State) (w : Who) (via : Via) : List Piece → List Byte
  | [] => []
  | p :: r => s.readPlace w via p.spot.place p.n ++ s.readPieces w via r

/-- The home die of a lineage node's lines (R148). -/
def nodeDie (n : Nat) : Nat := n % 8

/-- The home of a place's line has failed (R391): a line of memory, or of a lineage node. -/
def State.placeFailed (s : State) (p : Place) : Bool :=
  match p with
  | .pa a => s.homeFailed a
  | .lin _ n _ _ => (s.getDie (nodeDie n)).failed
  | _ => false

/-- Some double that the pieces touch is poisoned (R388), or its home has failed (R391). -/
def State.poisoned (s : State) (ps : List Piece) : Bool :=
  ps.any fun p => s.placeFailed p.spot.place ||
    match p.spot.place with
    | .pa a => anyPoison s.poison a p.n
    | .sram t b => anyPoison (s.getTile t).poison b p.n
    | .lin pid n off _ => (s.getPart pid).anyBad n off p.n
    | _ => false

/-- Poisons the double that a byte of a place lies in (R388). -/
def State.poisonAt (s : State) (p : Place) : State :=
  match p with
  | .pa a => { s with poison := SMap.put s.poison (a / 8) true }
  | .sram t b => s.modTile t fun x => { x with poison := SMap.put x.poison (b / 8) true }
  | .lin pid n off _ => s.modPart pid fun p => p.setBad n (off / 8) true
  | _ => s

/-- The unit whose residence an access waits for (R259). -/
def awayOf (ps : List Piece) : Option Nat :=
  ps.findSome? fun p => match p.spot.place with | .away vt _ => some vt | _ => none

/-- Writes bytes to one place; none when the skim pool cannot supply a payload (R151). -/
def State.writePlace (s : State) (w : Who) (way : StoreWay) (p : Place) (bs : List Byte) : Option State :=
  let c := s.getCtx w.k.t w.k.c
  match p with
  | .pa a => some ((s.enterFifo w.k c.pid a bs way).spoilMem a bs.length)
  | .dev off => some (s.devWrite (viewOf w.priv c.pid) off bs)
  | .lin pid node off _ => (s.linPut pid node off bs).map fun t => t.spoilTcb p bs.length
  | .sram t b => some ((s.sramWrite t b bs).spoilSources p bs.length)
  | .linPad | .linNone | .away _ _ => some s

/-- Writes bytes to the pieces of an access in order. -/
def State.writePieces (s : State) (w : Who) (way : StoreWay) : List Piece → List Byte → Option State
  | [], _ => some s
  | p :: r, bs =>
    match s.writePlace w way p.spot.place (bs.take p.n) with
    | none => none
    | some t => t.writePieces w way r (bs.drop p.n)

/-- Lines of memory that pieces touch. -/
def pieceLines (ps : List Piece) : List Nat :=
  ps.flatMap fun p =>
    match p.spot.place with
    | .pa a => (List.range (lineOf (a + p.n - 1) - lineOf a + 1)).map (· + lineOf a)
    | _ => []

/-- The lines by which regions name what pieces touch. -/
def regionLines (ps : List Piece) : List Nat :=
  ps.flatMap fun p =>
    match p.spot.place.regionAddr with
    | some a => (List.range (lineOf (a + p.n - 1) - lineOf a + 1)).map (· + lineOf a)
    | none => []

/-- A slice holds every load of a line that a sealed region is to write, until it has merged the region's stores (R295 step 3). -/
def State.sealedLine (s : State) (l : Nat) : Bool :=
  s.dies.any fun e => e.2.parties.any fun p => p.line == l && p.st && p.sealed_.isSome && !p.irr
def State.sealedIn (s : State) (ps : List Piece) : Bool := (regionLines ps).any s.sealedLine

/-- A slice handles one seal of a line at a time, and no access of a region, until it has answered the seal (R295, R302). -/
def State.sealBusy (s : State) (l : Nat) : Bool := s.narrows.any fun n => n.line == some l

end Sys2Proof.Machine
end

