-- ==== Sys2Proof/Machine/Region.lean ====
section
/-! DEFINITION. Atomic regions at the slices: positions, parties, precedences, narrowing, aborts, seals and commits (R284 to
R298, R302). -/

namespace Sys2Proof.Machine

/-- The slice of a line on a die (R239), and its die-wide region table. -/
def sliceOf (l : Nat) : Nat := bits (128 * l) 7 8 ^^^ bits (128 * l) 15 8

/-- The largest position (R292). -/
abbrev posMax : Nat := 2 ^ 63 - 1

/-- The positions of a line: with no record, the slice's floor (R292). -/
def Die.wposOf (x : Die) (l : Nat) : Nat := SMap.get (SMap.get 0 x.flr (sliceOf l)) x.wpos l
def Die.rposOf (x : Die) (l : Nat) : Nat := SMap.get (SMap.get 0 x.flr (sliceOf l)) x.rpos l

/-- The outcome word's fields (R289). -/
def rstatWord (cause act cls irr tc : Nat) : Word :=
  BitVec.ofNat 64 (fields [(0, cause), (4, act), (5, cls), (6, irr), (8, tc % 256)])
def rstatCls (w : Word) : Nat := bits w.toNat 5 1
def rstatIrr (w : Word) : Nat := bits w.toNat 6 1

/-- The identity of a thread's region (R284, R296). -/
def State.regId (s : State) (k : Key) : RegId := { k := k, seq := (s.getThread k).rseq.toNat, vt := (s.getCtx k.t k.c).vtile }

/-- Marks a region to abort before its thread's next turn (R298). -/
def Region.mark (r : Region) (cause : Nat) : Region :=
  if r.irr ∨ r.committed ∨ r.doom ≠ none then r else { r with doom := some (cause, 0) }

def Thread.markRegion (x : Thread) (cause : Nat) : Thread := { x with region := x.region.map fun r => r.mark cause }

/-- Marks the region of an identity, if the thread is still in it. -/
def State.markId (s : State) (z : RegId) (cause : Nat) : State :=
  s.modThread z.k fun x => if x.rseq.toNat = z.seq then x.markRegion cause else x

/-- A narrowing message applied at a region's tile (R292): it never moves a bound the other way; a region whose bounds
cross is to abort with EMPTY. -/
def Thread.narrow (x : Thread) (lo hi : Nat) : Thread :=
  match x.region with
  | none => x
  | some r =>
    if r.sealing ≠ none ∨ r.irr then x
    else
      let l := Nat.max x.rlo.toNat lo
      let h := Nat.min x.rhi.toNat hi
      let y := { x with rlo := BitVec.ofNat 64 l, rhi := BitVec.ofNat 64 h }
      if h < l then y.markRegion 2 else y

/-- The bounds of a party: its position once sealed (R292). -/
def Party.loOf (p : Party) : Nat := p.sealed_.getD p.lo
def Party.hiOf (p : Party) : Nat := p.sealed_.getD p.hi

/-- The bounds that a slice keeps of a party follow the table as its own messages do (R292, log 46). -/
def Party.narrow (p : Party) (lo hi : Nat) : Party := { p with lo := Nat.max p.lo lo, hi := Nat.min p.hi hi }

/-- A slice narrows a region: its own record of the party, and the message to the party's tile. -/
def State.sendNarrow (s : State) (d l : Nat) (who cause : RegId) (lo hi : Nat) : State :=
  { s.modDie d (fun y =>
      { y with parties := y.parties.map fun p => if p.who == who && p.line == l then p.narrow lo hi else p }) with
    narrows := s.narrows ++ [{ who := who, cause := cause, lo := lo, hi := hi, pid := (s.getCtx cause.k.t cause.k.c).pid }] }

/-- One precedence at a slice, `k` the region that accesses and `w` the party it meets; `first` when k precedes. A plain
party aborts with CONFLICT and no edge is recorded (R293); else the edge is recorded and both are narrowed (R292). -/
def State.precede (s : State) (d l : Nat) (k w : RegId) (first : Bool) : State :=
  let find := fun (a : RegId) => (s.getDie d).parties.find? fun p => p.who == a && p.line == l
  match find k, find w with
  | some x, some p =>
    if x.elastic = false ∨ (p.elastic = false ∧ p.sealed_ = none) then
      let s := if x.elastic = false then s.markId k 1 else s
      if p.elastic = false ∧ p.sealed_ = none then s.markId w 1 else s
    else
      let e : Edge := if first then { line := l, x := k, y := w } else { line := l, x := w, y := k }
      let s := s.modDie d fun y => { y with edges := y.edges ++ [e] }
      let s := if first then s.sendNarrow d l k k 0 (p.hiOf - 1) else s.sendNarrow d l k k (p.loOf + 1) posMax
      if p.sealed_ ≠ none then s
      else if first then s.sendNarrow d l w k (x.lo + 1) posMax
      else s.sendNarrow d l w k 0 (x.hi - 1)
  | _, _ => s

/-- A region access at the line's slice (R285, R286, R292, R293): the party is recorded, its own bound is raised past the
line's committed positions, and every precedence with another party is handled. The slice holds the line in M (R294). -/
def State.sliceAccess (s : State) (k : Key) (l : Nat) (wr : Bool) : State :=
  let x := s.getThread k
  match x.region with
  | none => s
  | some r =>
    let d := dieOf k.t
    let die := s.getDie d
    let id := s.regId k
    let old := die.parties.find? fun p => p.who == id && p.line == l
    let me : Party :=
      { line := l, who := id, ld := !wr || old.any (·.ld), st := wr || old.any (·.st), elastic := r.elastic
        lo := x.rlo.toNat, hi := x.rhi.toNat, sealed_ := if r.irr then some x.rlo.toNat else none, irr := r.irr }
    if old = none ∧ r.irr = false ∧ 1024 ≤ (die.parties.filter fun p => sliceOf p.line == sliceOf l).length then
      s.modThread k fun y => y.markRegion 3
    else
      let r' := { r with
        reads := if wr ∨ r.reads.contains l then r.reads else r.reads ++ [l]
        writes := if wr ∧ r.writes.contains l = false then r.writes ++ [l] else r.writes }
      let s := (s.modThread k fun y => { y with region := some r' }).modDie d fun y =>
        { y with parties := y.parties.filter (fun p => !(p.who == id && p.line == l)) ++ [me] }
      if r.irr then s
      else if 512 < r'.reads.length ∨ 128 < r'.writes.length then s.modThread k fun y => y.markRegion 3
      else
        let s := s.inM (s.agentOf d) l (s.getCtx k.t k.c).pid
        let own := if wr then Nat.max (die.wposOf l) (die.rposOf l) else die.wposOf l
        let s := s.sendNarrow d l id id (own + 1) posMax
        (die.parties.filter fun p => p.line == l && p.who != id).foldl (fun s p =>
          if wr then (if p.ld || p.st then s.precede d l id p.who false else s)
          else if p.st then s.precede d l id p.who true else s) s

/-- A region's records and edges leave the die's slices (R298). The edges of the thread's other regions stay (R295). -/
def Die.forget (x : Die) (z : RegId) : Die :=
  { x with parties := x.parties.filter (fun p => p.who != z), edges := x.edges.filter fun e => e.x != z && e.y != z }

/-- The checkpoint of a thread (R284) and its restoration. -/
def Thread.check (x : Thread) : Check :=
  { sr := x.sr, ar := x.ar, vr := x.vr, kr := x.kr, pr := x.pr, tsr := x.tsr, loops := x.loops }
def Thread.restore (x : Thread) (c : Check) : Thread :=
  { x with sr := c.sr, ar := c.ar, vr := c.vr, kr := c.kr, pr := c.pr, tsr := c.tsr, loops := c.loops }

/-- One more abort (R289, R298). -/
def rcntUp (w : Word) : Word :=
  BitVec.ofNat 64 (Nat.min (bits w.toNat 0 8 + 1) 255 + 256 * Nat.min (bits w.toNat 8 32 + 1) 0xFFFFFFFF)
def rcntClear (w : Word) : Word := BitVec.ofNat 64 (256 * bits w.toNat 8 32)

/-- A region's abort (R298): its outstanding results are discarded, and narrowing messages to it come to nothing. -/
def State.abortRegion (s : State) (k : Key) (cause tc : Nat) : State :=
  let x := s.getThread k
  match x.region with
  | none => s
  | some r =>
    let y := { x.restore r.check with
      pend := [], defer := [], wait := .none, retry := none, region := none, pc := r.target, young := false,
      mcont := false, mrun := none,
      rill := cause == 8, rcnt := rcntUp x.rcnt,
      rstat := rstatWord cause 0 (rstatCls x.rstat) (rstatIrr x.rstat) tc }
    let id := s.regId k
    { (s.setThread k y).modDie (dieOf k.t) (fun d => d.forget id) with
      narrows := s.narrows.filter fun n => n.who != id }

/-- The positions of a footprint take the committed position (R295 step 5); a line's record holds both (R292). -/
def Die.settle (x : Die) (p : Nat) (reads writes : List Nat) : Die :=
  let x := writes.foldl (fun x l => { x with wpos := SMap.put x.wpos l p, rpos := SMap.put x.rpos l (x.rposOf l) }) x
  reads.foldl (fun x l =>
    { x with wpos := SMap.put x.wpos l (x.wposOf l), rpos := SMap.put x.rpos l (Nat.max (x.rposOf l) p) }) x

/-- The stores of a tile have all been performed at die scope (R298 step 5). -/
def State.dieDrained (s : State) (t : Nat) : Bool :=
  ((s.getTile t).fifo.filterMap FifoEnt.store?).isEmpty && (s.getDie (dieOf t)).waitSt.all fun x => x.tile != t

/-- An irrevocable region ends, committed or at an instruction that a region may not hold (R298). -/
def State.endIrr (s : State) (k : Key) (cause tc : Nat) : State :=
  let x := s.getThread k
  match x.region with
  | none => s
  | some r =>
    let p := x.rlo.toNat
    let id := s.regId k
    let y := { x with region := none, rcnt := rcntClear x.rcnt, rstat := rstatWord cause 0 (rstatCls x.rstat) 1 tc }
    (s.setThread k y).modDie (dieOf k.t) fun d =>
      { (d.settle p r.reads r.writes).forget id with pmax := p, token := none }

/-- Whether the order of two committed or sealed regions by position, `TILE` and thread is an edge's direction (R295, R296). -/
def edgeHolds (p : Nat) (k : RegId) (q : Nat) (z : RegId) (zFirst : Bool) : Bool :=
  let lt := fun (a : Nat) (i : RegId) (b : Nat) (j : RegId) =>
    a < b || (a == b && (i.vt < j.vt || (i.vt == j.vt && i.k.i < j.k.i)))
  if zFirst then lt q z p k else lt p k q z

/-- The position of the other end of an edge of a line, where its slice knows one: it has committed, or its seal has been taken there. -/
def State.sealOf (s : State) (d l : Nat) (z : RegId) (ended : Option Nat) : Option Nat :=
  match ended with
  | some q => some q
  | none => ((s.getDie d).parties.find? fun p => p.who == z && p.line == l).bind (·.sealed_)

/-- The new values of the lineage blocks that a region has stored to; none when the skim pool cannot supply them (R151). -/
def State.linCommit (s : State) (pid : Nat) (r : Region) : Option State :=
  let p := s.getPart pid
  let es := r.buf.filter fun e => 2 ^ 52 ≤ e.1
  let bs := (es.map fun e => e.1 / 64).eraseDups
  let q := bs.foldl (fun p b =>
    match linOf (64 * b) with
    | none => p
    | some (_, n, off) =>
      let q := p.writeBlock n (off / 64) ((es.filter fun e => e.1 / 64 == b).foldl (fun v e => putBytes v (e.1 % 64) [e.2]) (p.blockOf n (off / 64)))
      p.keepBad q n [off / 64] fun d => (List.range 8).all fun j => (SMap.find r.buf (64 * b - off + 8 * d + j)).isSome) p
  if es.isEmpty then some s
  else if p.supplies q then
    some (bs.foldl (fun s b =>
      match linOf (64 * b) with
      | none => s
      | some (_, n, off) =>
        let at_ : Place := .lin pid n off true
        ((((s.breakResv none (lineOf (64 * b))).wakeLine none (none, lineOf (64 * b))).spoilMmas pid n).spoilSources at_ 64).spoilTcb at_ 64) (s.setPart pid q))
  else none

/-- A slice answers a region's SEAL. The last acceptance commits the region, and the blocks of lineage that it has stored to take their
values; when the pool cannot supply them the region aborts with FAULT (R151, R288, log 79). -/
def State.sealAnswer (s : State) (k : Key) (r : Region) (got : List Nat) (l : Nat) (ok : Bool) : State :=
  let r' := { r with sealing := some (got ++ [l]), asked := r.asked.filter (· != l), refused := r.refused || !ok }
  let t := s.modThread k fun y => { y with region := some r' }
  if r'.committed then
    match t.linCommit (s.getCtx k.t k.c).pid r' with
    | some u => u
    | none => s.modThread k fun y => { y with region := some { r with doom := some (7, 0x1B) } }
  else t

/-- SEAL at one slice (R295 step 3). It is taken when the slice is not busy with another, and, for a line to be written, once its `Emax`
has passed: edges to parties without a position narrow them, the others are compared. It is answered once every party that it narrowed
has acknowledged (R302). -/
def State.sealLine (s : State) (k : Key) (l : Nat) : State :=
  let x := s.getThread k
  match x.region with
  | none => s
  | some r =>
    match r.sealing with
    | none => s
    | some got =>
      let d := dieOf k.t
      let die := s.getDie d
      let p := x.rlo.toNat
      let id := s.regId k
      if got.contains l ∨ s.sealBusy l then s
      else if r.asked.contains l then s.sealAnswer k r got l true
      else if r.writes.contains l ∧ die.leased s.plumb l then s
      else
        let es := die.edges.filter fun e => e.line == l && (e.x == id || e.y == id)
        let ends := es.map fun e =>
          let zFirst := e.y == id
          let z := if zFirst then e.x else e.y
          (z, zFirst, s.sealOf d l z (if zFirst then e.px else e.py))
        let ok := ends.all fun e => e.2.2.all fun q => edgeHolds p id q e.1 e.2.1
        let ns := (ends.filter fun e => e.2.2.isNone).map fun e =>
          ({ who := e.1, cause := id, lo := if e.2.1 then 0 else p + 1, hi := if e.2.1 then p - 1 else posMax,
             line := some l, pid := (s.getCtx k.t k.c).pid } : Narrow)
        let u := ({ s with narrows := s.narrows ++ ns } : State).modDie d fun y =>
          { y with parties := y.parties.map fun q =>
              if q.who = id ∧ q.line = l then { q with sealed_ := some p }
              else (ns.filter fun n => n.who == q.who && q.line == l).foldl (fun q n => q.narrow n.lo n.hi) q }
        if ns = [] then u.sealAnswer k r got l ok
        else u.modThread k fun y => { y with region := some { r with asked := r.asked ++ [l], refused := r.refused || !ok } }

/-- The bytes a region has stored to a line, as stores. -/
def Region.storesTo (r : Region) (l : Nat) : List (Nat × Byte) := r.buf.filter fun e => lineOf e.1 == l

/-- The region's stores to a line of memory are merged (R295 step 5). -/
def State.mergeRegion (s : State) (k : Key) (r : Region) (l : Nat) : State :=
  let d := dieOf k.t
  let pid := (s.getCtx k.t k.c).pid
  let ag := s.agentOf d
  if 2 ^ 45 ≤ l then s
  else
    let s := (r.storesTo l).foldl (fun s e =>
      (s.mergeHeld ag { a := e.1, bytes := [e.2], pid := pid, tile := k.t }).spoilMem e.1 1) (s.inM ag l pid)
    let whole := (List.range 16).filter fun j => (List.range 8).all fun b => (SMap.find r.buf (128 * l + 8 * j + b)).isSome
    let s := { s with poison := whole.foldl (fun m j => SMap.erase m (16 * l + j)) s.poison }
    ((s.breakResv none l).wakeLine (some d) (none, l)).dropCopies l

/-- The final-position broadcast at one slice (R295 step 5). -/
def State.finalLine (s : State) (k : Key) (l : Nat) : State :=
  let x := s.getThread k
  match x.region with
  | none => s
  | some r =>
    if r.told.contains l then s
    else
      let p := x.rlo.toNat
      let id := s.regId k
      let u := (if r.writes.contains l then s.mergeRegion k r l else s).modThread k fun y =>
        { y with region := some { r with told := r.told ++ [l] } }
      u.modDie (dieOf k.t) fun y =>
        let y := y.settle p (if r.reads.contains l then [l] else []) (if r.writes.contains l then [l] else [])
        { y with
          parties := y.parties.filter (fun q => !(q.who == id && q.line == l))
          pmax := Nat.max y.pmax p
          edges := (y.edges.map fun e =>
              if e.line = l ∧ e.x = id then { e with px := some p } else if e.line = l ∧ e.y = id then { e with py := some p } else e).filter
            fun e => e.px = none ∨ e.py = none }

/-- A committed region's final-position broadcast reaches every slice, whatever becomes of its thread (R295 step 4). -/
def State.endCommit (s : State) (k : Key) : State :=
  match (s.getThread k).region with
  | some r => if r.committed && !r.irr then (r.reads ++ r.writes).foldl (fun s l => s.finalLine k l) s else s
  | none => s

/-- A slice drops its record of a line: the positions go, and its floor rises to them (R292). -/
def Die.dropRecord (x : Die) (l : Nat) : Die :=
  let f := Nat.max (SMap.get 0 x.flr (sliceOf l)) (Nat.max (x.wposOf l) (x.rposOf l))
  { x with wpos := SMap.erase x.wpos l, rpos := SMap.erase x.rpos l, flr := SMap.set 0 x.flr (sliceOf l) f }

end Sys2Proof.Machine
end

