-- ==== Sys2Proof/Machine/Ops.lean ====
section
/-! DEFINITION. What every instruction shares: fetching a line, checking a transfer, closing loops, taking a trap and
returning from one, ending a region, and the checks an instruction makes before its own effect (R30, R33, R38, R39, R47 to
R56, R61, R85, R87, R92 to R98, R287, R288, R298). -/

namespace Sys2Proof.Machine

/-- What an instruction's own effect comes to. -/
inductive Res where
  /-- It has taken effect; execution goes on at the next slot, or around a loop. -/
  | done (s : State)
  /-- It has taken effect and transfers (R49); the target is checked. -/
  | go (s : State) (t : Addr)
  /-- It traps precisely, without effect: cause and address. -/
  | trap (cause : Nat) (a : Addr)
  /-- It waits: the thread stays at the instruction, which is executed again when it is ready. -/
  | hold (s : State)
  /-- It has placed the thread itself. -/
  | end_ (s : State)

/-! ### Correctable errors (R395) -/

/-- The bucket of a unit: kind 0 a DRAM bank, 1 a Stavuo lane's port, 2 a tile cluster. -/
def bucketNo (kind id : Nat) : Nat := 3 * id + kind

/-- The cluster of a tile (R395, R261): its quad, named by its first tile. -/
def clusterOf (t : Nat) : Nat := t / 64 * 64 + t % 32 / 2 * 2

/-- An update of the persistent store is written to the older copy, which then has the higher version (R418). -/
def State.putStore (s : State) (x : Persist) : State := { s with store := x, older := s.store, olderOk := true, version := s.version + 1 }

/-- A port's spare lane comes into use, and the scrim map records it (R18, R397). -/
def State.useSpareLane (s : State) (port : Nat) : State :=
  ({ s with portSpare := SMap.set false s.portSpare port true } : State).putStore
    { s.store with laneSpare := SMap.set false s.store.laneSpare port true }

/-- A bucket loses 1 for each `LEAK` cycles that have passed since it last leaked, and stops at 0 (R395). -/
def State.leak (s : State) (kind id : Nat) : State :=
  let b := bucketNo kind id
  let per := s.store.leak.getD kind 0x40000000
  if per = 0 then s
  else { s with
    buckets := SMap.set 0 s.buckets b (SMap.get 0 s.buckets b - (s.plumb / per - SMap.get 0 s.leaks b))
    leaks := SMap.set 0 s.leaks b (s.plumb / per) }

/-- One correctable error: it is logged and the bucket rises; rising past its mark it records PRED. Then a lane's
spare comes into use; a spare row at once, or a spare bank at the next reset; or the cluster's tiles are to run BIST (R397). -/
def State.correctable (s : State) (kind id : Nat) : State :=
  let s := s.leak kind id
  let n := SMap.get 0 s.buckets (bucketNo kind id) + 1
  let at_ := if kind = 2 then id else 0
  let t := ({ s with buckets := SMap.set 0 s.buckets (bucketNo kind id) n } : State).logEvent 1 at_ (if kind = 2 then s.ownerOf id else 0) 0 0
  if n = s.store.mark.getD kind 64 + 1 then
    let u := t.logEvent 9 at_ (if kind = 2 then s.ownerOf id else 0) 0 0
    if kind = 1 then u.useSpareLane id
    else if kind = 0 then
      u.putStore (if Config.freeChoice s.fresh id then { u.store with bankSpare := SMap.put u.store.bankSpare id true }
        else { u.store with dramSpare := SMap.set 0 u.store.dramSpare id (SMap.get 0 u.store.dramSpare id + 1) })
    else u.putStore { u.store with bist := SMap.put u.store.bist id true }
  else t

/-! ### Fetch -/

/-- Who the thread in focus is for its accesses. -/
def State.me (s : State) : Who := { k := s.cur, priv := s.thr.priv }

/-- The line's address and the slot number of a PC (R48); the slot is none when the PC names no instruction. -/
def lineAddr (pc : Addr) : Addr := pc &&& ~~~(63 : Addr)
def slotOf (pc : Addr) : Option Nat :=
  let o := pc.toNat % 64
  if o % 12 = 0 ∧ o < 60 then some (o / 12) else none

/-- The PC after a slot by fall-through (R79). -/
def nextPC (pc : Addr) : Addr := if pc.toNat % 64 = 48 then lineAddr pc + 64 else pc + 12

/-- The older slots of a line's pairs (R47). -/
def pairOlder (template : Nat) : List Nat :=
  match template with
  | 0 => [] | 1 => [0] | 2 => [1] | 3 => [2] | 4 => [3] | 5 => [0, 2] | 6 => [1, 3] | _ => [0, 3]

/-- A fetch line: its 60 bytes of slots and its line word (R47). -/
structure Line where
  bytes : List Byte
  word  : Nat
  deriving DecidableEq, Repr

def Line.tgt (x : Line) (slot : Nat) : Bool := bit x.word slot
def Line.older (x : Line) : List Nat := pairOlder (bits x.word 5 3)
def Line.slot (x : Line) (i : Nat) : Nat := ofLE ((x.bytes.drop (12 * i)).take 12)

/-- The number of ones in the low `n` bits. -/
def ones : Nat → Nat → Nat
  | 0, _ => 0
  | n + 1, x => x % 2 + ones n (x / 2)

/-- The line word's parity holds, and a slot's parity holds (R47, R50). -/
def Line.lparOk (x : Line) : Bool := ones 32 x.word % 2 == 0
def Line.sparOk (x : Line) (i : Nat) : Bool := (ones 96 (x.slot i) + bits x.word (8 + i) 1) % 2 == 0

def Line.ofBytes (bs : List Byte) : Line := { bytes := bs.take 60, word := ofLE (bs.drop 60) }

/-- The bytes of the fetch line at an address, with execute permission (R51): the memory's, or at the machine's choice the
copy that the tile holds. -/
def State.fetch (s : State) (pc : Addr) : Except (Nat × Addr) Line :=
  let a := lineAddr pc
  match s.translate s.me .x a with
  | .error c => .error (c, pc)
  | .ok x =>
    let now := s.readPlace s.me .tile x.place 64
    .ok (Line.ofBytes (match x.place with
      | .pa p =>
        match SMap.find s.tile.fetched (p / 64) with
        | some old => if old = now then now else if Config.freeChoice s.fresh (p / 64) then old else now
        | none => now
      | _ => now))

/-- Keeps a copy of the line fetched (R51), and the translation that the fetch used (R356). -/
def State.noteFetch (s : State) (pc : Addr) : State :=
  match s.translate s.me .x (lineAddr pc), s.fetch pc with
  | .ok { place := .pa p, .. }, .ok l =>
    let t := s.noteTlb s.me (lineAddr pc)
    { t with tile := { t.tile with fetched := SMap.put t.tile.fetched (p / 64) (l.bytes ++ toLE 4 l.word) } }
  | _, _ => s

/-- The tile discards every copy of the line that it holds (R50). -/
def State.dropLine (s : State) (pc : Addr) : State :=
  match s.translate s.me .x (lineAddr pc) with
  | .ok { place := .pa p, .. } =>
    { s with tile := { s.tile with
        fetched := SMap.erase s.tile.fetched (p / 64), copies := SMap.erase s.tile.copies (lineOf p) } }
  | _ => s

/-- A line whose line word is used but none of whose slots issues yet: fetched a second time when `LPAR` fails; with the parity wrong
again, or right and bits [31:14] not zero, LINE is trapped (R50; log 76). -/
def State.fetchWord (s : State) (pc : Addr) : Except (Nat × Addr) Line :=
  let whole := fun (l : Line) =>
    if !l.lparOk || bits l.word 14 18 != 0 then Except.error (cLINE, lineAddr pc) else Except.ok l
  match s.fetch pc with
  | .error e => .error e
  | .ok l =>
    if l.lparOk then whole l
    else match (s.dropLine pc).fetch pc with
      | .error e => .error e
      | .ok m => whole m

/-- The line word's parity at an address is right, or the line cannot be fetched. -/
def State.wordOk (s : State) (pc : Addr) : Bool := match s.fetch pc with | .ok l => l.lparOk | .error _ => true

/-- What `fetchWord` leaves: where the parity failed, every copy of the line is discarded, and a new one that passes is kept and counts
as one correctable error (R50). -/
def State.wordSeen (s : State) (pc : Addr) : State :=
  if s.wordOk pc then s
  else
    let t := s.dropLine pc
    match t.fetch pc with
    | .ok l => if l.lparOk then (t.correctable 2 (clusterOf s.cur.t)).noteFetch pc else t
    | .error _ => t

/-- The check of a taken transfer (R49): none when it may be made. -/
def State.target (s : State) (t : Addr) : Option (Nat × Addr) :=
  match slotOf t with
  | none => some (cILLTGT, t)
  | some i =>
    match s.fetchWord t with
    | .error e => some e
    | .ok l => if l.tgt i && !(i ≠ 0 && l.older.contains (i - 1)) then none else some (cILLTGT, t)

/-! ### Loops -/

/-- PC[35:0], and the PC of the same 64 GiB region with these low bits. -/
def low36 (a : Addr) : Nat := a.toNat % 2 ^ 36
def withLow36 (pc : Addr) (x : Nat) : Addr := BitVec.ofNat 72 (pc.toNat / 2 ^ 36 * 2 ^ 36 + x % 2 ^ 36)

/-- The starts and ends kept for level `j` (R83). -/
def Loops.start (l : Loops) (j : Nat) : Nat := bits l.ls.toNat (36 * j) 36
def Loops.end_ (l : Loops) (j : Nat) : Nat := bits l.le.toNat (36 * j) 36
/-- Puts a 36-bit value in half `j` of LS or LE. -/
def setHalf (x : Addr) (j v : Nat) : Addr :=
  if j = 0 then BitVec.ofNat 72 (x.toNat / 2 ^ 36 * 2 ^ 36 + v % 2 ^ 36)
  else BitVec.ofNat 72 (v % 2 ^ 36 * 2 ^ 36 + x.toNat % 2 ^ 36)

/-- Closing loops after the instruction at `pc` (R85): the loop registers, and the back-edge's target if one is taken. -/
def Loops.close (l : Loops) (pc : Addr) : Loops × Option Addr :=
  let inner := l.lc1 ≠ 0 ∧ low36 pc = l.end_ 1
  let m := if inner then { l with lc1 := l.lc1 - 1 } else l
  if inner ∧ m.lc1 ≠ 0 then (m, some (withLow36 pc (l.start 1)))
  else if m.lc0 ≠ 0 ∧ low36 pc = m.end_ 0 then
    let n := { m with lc0 := m.lc0 - 1 }
    if n.lc0 ≠ 0 then (n, some (withLow36 pc (l.start 0))) else (n, none)
  else (m, none)

/-! ### Traps -/

/-- Fields of TSTAT (R94). -/
def tstatWord (mseq deferred : Bool) (ppriv : Nat) (hbusy : Bool) (vsl vdl : Nat) : Word :=
  BitVec.ofNat 64 (fields [(0, b2n mseq), (1, b2n deferred), (2, ppriv % 4), (4, b2n hbusy), (13, vsl % 8), (16, vdl % 2 ^ 48)])
def tMseq (w : Word) : Bool := w.getLsbD 0
def tPpriv (w : Word) : Nat := bits w.toNat 2 2
def tHbusy (w : Word) : Bool := w.getLsbD 4

/-- Where a deferred condition's instruction lies from TPC's line: slot and line displacement (R94). -/
def deferPlace (x v : Addr) : Nat × Nat :=
  let d := sgn 72 (lineAddr v - lineAddr x).toNat / 64
  if -(2 ^ 47) ≤ d ∧ d < 2 ^ 47 then (v.toNat % 64 / 12, (d % 2 ^ 48).toNat) else (7, 0)

/-- A thread waits at no queue or semaphore of its unit any more (R37). -/
def Ctx.leaveQueues (c : Ctx) (i : Nat) : Ctx :=
  { c with
    qs := SMap.map (fun _ (q : TQueue) => { q with pops := q.pops.filter (· != i), pushes := q.pushes.filter fun e => e.1 != i }) c.qs
    sems := SMap.map (fun _ (m : Sem) => { m with waits := m.waits.filter (· != i) }) c.sems }
def State.leaveQueues (s : State) : State :=
  match s.thr.wait with
  | .qpush _ | .qpop _ | .semp _ => { s with ctx := s.ctx.leaveQueues s.cur.i }
  | _ => s

/-- The handler-fault path (R96): the thread is parked, and a record goes to the error log and the partition's ring. -/
def State.handlerFault (s : State) (c : Nat) (x a : Addr) : State :=
  let s := { s with thr := { s.thr with
    life := .hfault, hfpc := x, hfcause := BitVec.ofNat 64 c, hfaddr := a, wait := .none, retry := none } }
  s.logEvent 13 s.ctx.vtile s.ctx.pid c x.toNat

/-- An LR reservation's first four ends (R276): the thread's entry at the head of the line's queue goes. -/
def State.dropResv (s : State) (k : Key) : State :=
  match (s.getThread k).resv with
  | none => s
  | some r =>
    let s := s.modThread k fun x => { x with resv := none }
    if r.scratch = none then
      { s with resvq := SMap.set [] s.resvq r.line ((SMap.get [] s.resvq r.line).filter fun q => !(q.who == k && q.op == 3)) }
    else s

/-- MPC of a sequence in its middle (R364). -/
def HawkRun.mpc (q : HawkRun) : Word :=
  BitVec.ofNat 64 (fields [(0, q.upc % 256), (8, q.idx), (14, q.nuop % 8192), (27, q.nmem % 128), (34, 1)])

/-- A trap in the middle of a sequence sets MPC (R363). -/
def Thread.midway (x : Thread) : Thread := match x.mrun with | some q => { x with mpc := q.mpc } | none => x

/-- What a trap gives up: an LR reservation of the thread (R276), its place in a queue (R37), and, where it is taken for an uncorrectable
error, that the error is still to be found (R388). A trowel sequence under way is trapped in its middle (R363). -/
def State.trapLeaves (s : State) (c : Nat) (a : Addr) : State :=
  let r := (s.dropResv s.cur).leaveQueues
  let r := if c = cUE then (match r.pieces r.me .r a 8 with | .ok ps => r.ueFind ps | .error _ => r) else r
  { r with thr := r.thr.midway }

/-- Trap entry at X with cause c (R95), once no class V result is outstanding. `v` is the PC of a deferred condition's
instruction, `back` the PC that TPC takes, which is X but for a TRAP (R97). -/
def State.trapEntry (s : State) (c : Nat) (x a : Addr) (v : Option Addr := none) (back : Addr := x) : State :=
  let s := s.trapLeaves c a
  let t := s.thr
  if tHbusy t.tstat then s.handlerFault c x a
  else
    let d := match v with | none => (0, 0) | some v => deferPlace x v
    let y := { t with
      tpc := back, tcause := BitVec.ofNat 64 c, taddr := a,
      tstat := tstatWord (t.mcont || t.mrun.isSome) v.isSome t.priv true d.1 d.2,
      ar := if t.priv = 0 then SMap.set 0 t.ar 31 t.tsp else t.ar,
      tsp := if t.priv = 0 then SMap.get 0 t.ar 31 else t.tsp,
      tloops := t.loops, loops := { t.loops with lc0 := 0, lc1 := 0 },
      priv := Nat.max t.priv 1, pc := t.tvec, young := false, wait := .none, retry := none, mcont := false, mrun := none }
    let r := { s with thr := y }
    match r.target t.tvec with
    | none => r.wordSeen t.tvec
    | some (c', a') => (r.wordSeen t.tvec).handlerFault c' x a'

/-- A stop of the MU that is to be delivered to the MU thread in focus: trap cause and address (R191). -/
def State.muStop (s : State) : Option (Nat × Addr) :=
  if s.thr.role = 2 ∧ s.ctx.mu.pend then some (if s.ctx.mu.cause = 0x20 then cUE else cMUFAULT, s.ctx.mu.addr) else none

/-- Delivers an MU stop precisely at the instruction in focus (R191). -/
def State.muTrap (s : State) : Option Res := s.muStop.map fun e => .trap e.1 e.2

/-- The MU's work has ended; its writes are performed as they are made (R178, R193). -/
def Mu.idle (m : Mu) : Bool := m.q.isEmpty && !m.stop

/-- The stop is delivered (R191). -/
def State.muDelivered (s : State) : State := { s with ctx := { s.ctx with mu := { s.ctx.mu with pend := false } } }

/-- Class V results that trap entry waits for: every one outstanding but an MRDV queued behind an MU stop (R39, R191). -/
def State.owesResults (s : State) : Bool := s.thr.pend.any fun p => !(s.muStop.isSome && p.what == .mrdv)

/-- What a trap delivers: the oldest condition that came with a response, if one waits, then an MU stop, in place of the
trap (R92, R191): the state without it, cause, address, and the PC of the instruction whose condition it was, none for a stop delivered
precisely at the instruction it names. -/
def State.due (s : State) (c : Nat) (a : Addr) : State × Nat × Addr × Option Addr :=
  match s.thr.defer with
  | d :: r => ({ s with thr := { s.thr with defer := r } }, d.cause, d.at_, some d.pc)
  | [] =>
    match s.muStop with
    | some (c', a') =>
      let v := match s.thr.pend.find? fun p => p.what == .mrdv with | some p => p.pc | none => s.ctx.mu.spc
      (s.muDelivered, c', a', if (c, a) = (c', a') then none else some v)
    | none => (s, c, a, none)

/-- Enters the handler for the thread's instruction, with what is due. -/
def State.deliver (s : State) (c : Nat) (a : Addr) : State :=
  match s.due c a with
  | (t, c', a', v) => t.trapEntry c' t.thr.pc a' v

/-- The thread waits to take a trap; it waits at no queue (R37). -/
def State.trapWaits (s : State) (c : Nat) (a : Addr) : State :=
  let t := s.leaveQueues
  { t with thr := { t.thr with wait := .trap c a } }

/-- A trap condition at the thread's instruction: in a region it aborts the region with FAULT and the code of what is due (R288), or ends an irrevocable
one and is taken (R298); outside it is taken once no class V result is outstanding (R39, R95). A region that is committed ends first
(R295). -/
def State.take (s : State) (c : Nat) (a : Addr) : State :=
  match s.thr.region with
  | none =>
    if !s.owesResults then s.deliver c a else s.trapWaits c a
  | some r =>
    if r.irr then
      if !s.owesResults && s.dieDrained s.cur.t then (s.endIrr s.cur 7 (s.due c a).2.1).deliver c a
      else s.trapWaits c a
    else if r.committed then s
    else if s.thr.pend.isEmpty then s.abortRegion s.cur 7 (s.due c a).2.1
    else { s with thr := { s.thr with region := some { r with doom := some (7, (s.due c a).2.1) } } }

/-- A trap that clears the record it comes from (R7): it is taken only once nothing is outstanding, and a condition that is delivered
in its place leaves the record (R92). -/
def State.trapOnce (s : State) (clear : State → State) (c : Nat) (a : Addr) : Res :=
  if s.owesResults then .hold { s with thr := { s.thr with wait := .hold } }
  else if s.thr.defer ≠ [] ∨ s.muStop.isSome then .trap c a
  else .end_ ((clear s).take c a)

/-- The instruction at PC has taken effect without a transfer of its own: loops close and execution goes on (R48, R85).
`s0` is the state before it. -/
def State.advance (s0 s : State) : State :=
  let pc := s.thr.pc
  match s.thr.loops.close pc with
  | (l, none) => { s with thr := { s.thr with loops := l, pc := nextPC pc, young := false } }
  | (l, some t) =>
    match s.target t with
    | none => let u := s.wordSeen t; { u with thr := { u.thr with loops := l, pc := t, young := false } }
    | some (c, a) => (s0.wordSeen t).take c a

/-- What an instruction's effect makes of the state before it. -/
def Res.into (s0 : State) : Res → State
  | .done s => s0.advance s
  | .go s t =>
    match s0.target t with
    | none => let u := s.wordSeen t; { u with thr := { u.thr with pc := t, young := false } }
    | some (c, a) => (s0.wordSeen t).take c a
  | .trap c a => s0.take c a
  | .hold s => s
  | .end_ s => s

/-! ### The checks before an instruction's effect -/

/-- The engine of an opcode: its role code (R33). -/
def roleOf (op : Nat) : Option Nat :=
  if 0x200 ≤ op ∧ op ≤ 0x22A then some 3
  else if 0x280 ≤ op ∧ op ≤ 0x28A then some 2
  else if (0x290 ≤ op ∧ op ≤ 0x297) ∨ (0x2A0 ≤ op ∧ op ≤ 0x2A5) then some 4
  else none

/-- The role a thread acts in: a TRAIL thread acts in that of the thread it trails (R33, R45). -/
def Ctx.actsAs (c : Ctx) (i role : Nat) : Nat := if role = 7 then c.roles.getD (i - 1) 0 else role
def State.actsAs (s : State) : Nat := s.ctx.actsAs s.cur.i s.thr.role

/-- Instructions that a region may not hold, but for a second RBEGIN (R287). -/
def regionIllegal (op : Nat) : Bool :=
  (0x090 ≤ op && op ≤ 0x0A4) || [0x108, 0x109, 0x10A, 0x120, 0x121, 0x184, 0x185, 0x186, 0x189, 0x190].contains op ||
  (0x280 ≤ op && op ≤ 0x2FF) || (0x300 ≤ op && op ≤ 0x347 && op != 0x342) || (0x348 ≤ op && op ≤ 0x34B)

/-- A register is within the kernel header's counts (R30). -/
def Ctx.has (c : Ctx) : Reg → Bool
  | .s n => n == 0 || n < c.sregs
  | .v n => n < c.vregs
  | _ => true

/-- Before its next instruction a thread may owe a trap or an abort: the state after it, when it does (R287, R298, R339). The watchdog's
trap lets an instruction complete whose wait is over (R37), and a committed region end (R295). -/
def State.owed (s : State) : Option State :=
  if s.thr.region.any (·.committed) then none else
  match s.thr.wait with
  | .trap c a => if !s.owesResults then some (({ s with thr := { s.thr with wait := .none } } : State).take c a) else some s
  | _ =>
    match s.thr.region.bind (·.doom) with
    | some (c, tc) => if s.thr.pend = [] then some (s.abortRegion s.cur c tc) else some s
    | none =>
      if s.thr.rill then
        if s.thr.pend = [] then some (({ s with thr := { s.thr with rill := false } } : State).take cRILL 0) else some s
      else match s.thr.wdog with
        | some l =>
          if s.thr.retry.isSome then none
          else if s.thr.pend = [] then some (({ s with thr := { s.thr with wdog := none } } : State).take cWDOG (BitVec.ofNat 72 l))
          else some s
        | none => none

/-- Opcodes that a trailed thread issues while stores of its wait in the comparator (R393): those that act on the thread alone, loads,
stores and vector instructions (log 14). -/
def passesHeld (op : Nat) : Bool :=
  op < 0x090 || (0x100 ≤ op && op ≤ 0x105) || (0x110 ≤ op && op ≤ 0x115) || (0x200 ≤ op && op ≤ 0x22A)

/-- A thread that is trailed does not issue an instruction yet (R393): the value of an atomic, a message or an MRDV is outstanding, so that its
values reach the queue in program order, or stores that wait in the comparator come before what the instruction does to others. -/
def State.valueOwed (s : State) (op : Nat) : Bool :=
  s.ctx.roles.getD (s.cur.i + 1) 0 == 7 && s.muStop.isNone &&
  s.thr.pend.any fun p => match p.what with | .atomic _ | .msg | .mrdv => true | .held _ => !passesHeld op | _ => false

/-- The thread waits without having done anything. -/
def State.held_ (s : State) : State := { s with thr := { s.thr with wait := .hold } }

/-- What a switch marker makes of a thread (R38, R39): it waits for the results outstanding, and a condition that came with
one is delivered; an MRDV queued behind an MU stop has the stop delivered in place of its result (R191). -/
def State.waitS (s : State) : Option State :=
  if s.owesResults then some s.held_
  else if !s.thr.pend.isEmpty || !s.thr.defer.isEmpty then some (s.take 0 0).tickFresh
  else none

/-- An instruction of the thread in focus. `op` is its opcode, `regs` the registers it names (R30), `pre` its privilege
check at step 5 of R61, `body` its own effect. -/
def State.issue (s : State) (op : Nat) (k : Ctl) (regs : List Reg) (pre : State → Option (Nat × Addr))
    (body : State → Res) : State :=
  if s.thr.life ≠ .live then s
  else match s.owed with
  | some t => t
  | none =>
    let fin := fun t : State => t.tickFresh
    if s.valueOwed op then s.held_ else
    if s.thr.region.isSome && regionIllegal op then
      match s.thr.region with
      | some { irr := true, .. } =>
        if s.thr.pend = [] ∧ s.dieDrained s.cur.t then fin ((s.endIrr s.cur 8 0).take cRILL 0) else s.held_
      | _ => if s.thr.pend = [] then fin (s.abortRegion s.cur 8 0) else s.held_
    else if regs.any (fun r => !s.ctx.has r) then fin (s.take cILLOP 0)
    else if (roleOf op).any (· != s.actsAs) then fin (s.take cILLROLE 0)
    else match pre s with
    | some (c, a) => fin (s.take c a)
    | none =>
      match if k.s then s.waitS else none with
      | some t => t
      | none =>
      if s.thr.retry = none && (s.rp k.pg == k.pn) then fin (s.advance s)
      else fin ((body { s with thr := { s.thr with wait := .none } }).into s)

/-- No privilege check. -/
def anyPriv (_ : State) : Option (Nat × Addr) := none

/-- A privilege level is needed (R65). -/
def needS (s : State) : Option (Nat × Addr) := if s.thr.priv = 0 then some (cPRIV, 0) else none

/-- The outcome of an instruction that the model gives an effect. -/
abbrev Out := Host.Outcome State Fault Refusal

/-- An instruction without a privilege check, and its outcome. -/
def run (op : Nat) (k : Ctl) (regs : List Reg) (body : State → Res) (s : State) : Out :=
  .next (s.issue op k regs anyPriv body)

/-- ERET's effect (R98). A saved privilege above the present one traps PRIV, a TPC that names no slot ILLTGT. A trowel
sequence trapped in the middle is marked to resume at MPC. -/
def State.eret (s : State) : Res :=
  let t := s.thr
  let p := tPpriv t.tstat
  if p = 3 ∨ t.priv < p then .trap cPRIV 0
  else if (slotOf t.tpc).isNone then .trap cILLTGT t.tpc
  else .end_ { s with thr := { t with
    ar := if p = 0 then SMap.set 0 t.ar 31 t.tsp else t.ar,
    tsp := if p = 0 then SMap.get 0 t.ar 31 else t.tsp,
    loops := t.tloops, priv := p, pc := t.tpc, young := false,
    tstat := tstatWord false (t.tstat.getLsbD 1) p false (bits t.tstat.toNat 13 3) (bits t.tstat.toNat 16 48),
    mcont := tMseq t.tstat } }

end Sys2Proof.Machine
end

