-- ==== Sys2Proof/Machine/Operands.lean ====
section
/-! DEFINITION. Operand forms: effective addresses, branch targets, lane masks and elements of vectors (R58, R59, R164,
R165, R268, R269). -/

namespace Sys2Proof.Machine

/-- The factor of a scale code (R58). -/
def scaleOf (sc : Nat) : Nat := match sc with | 0 => 1 | 1 => 8 | 2 => 64 | _ => 128

/-- The effective address of format M (R58). -/
def State.ea (s : State) (f : FM) : Addr :=
  s.ra f.base + BitVec.ofNat 72 ((s.rs f.idx 2).toNat * scaleOf f.sc) + addr (sgn 48 f.disp)

/-- The address of element `e` of VLDS and VSTS (R268): the index is a signed stride. -/
def State.eaStride (s : State) (f : FM) (e : Nat) : Addr :=
  s.ra f.base + addr (sgn 48 f.disp) + addr ((e : Int) * (s.rs f.idx 2).toInt * (scaleOf f.sc : Int))

/-- The effective address of the atomic layout (R272). -/
def State.eaAtom (s : State) (f : FAtom) : Addr := s.ra f.base + addr (sgn 16 f.disp)

/-- A format B target from the branch's PC (R59). -/
def targetB (pc : Addr) (dl sl : Nat) : Addr := lineAddr pc + addr (64 * sgn 29 dl) + BitVec.ofNat 72 (12 * sl)

/-- Bytes of a size code (R58). -/
def szBytes (sz : Nat) : Nat :=
  match sz with | 0 => 1 | 1 => 2 | 2 => 4 | 3 => 8 | 4 => 16 | 5 => 128 | 8 => 1 | 9 => 2 | _ => 4

/-- A loaded value extended as its size code says (R58, R264). -/
def extend (sz v : Nat) : Word :=
  if 8 ≤ sz then BitVec.ofInt 64 (sgn (8 * szBytes sz) v) else BitVec.ofNat 64 v

/-- The scope and the ordered bit of `ORDQ` (R58). -/
def ordScope (o : Nat) : Nat := o / 2
def ordered (o : Nat) : Bool := o % 2 == 1

/-- Element `i` of a vector of elements of `n` bytes, as a number (R164). -/
def elemOf (v : Vec) (n i : Nat) : Nat := bits v.toNat (8 * n * i) (8 * n)

/-- A vector from its elements of `n` bytes. -/
def ofElems (n : Nat) (l : List Nat) : Vec :=
  BitVec.ofNat 1024 ((List.range l.length).foldl (fun x i => x + l.getD i 0 % 2 ^ (8 * n) * 2 ^ (8 * n * i)) 0)

/-- The scratchpad object an operand names by a bare offset from the unit base: aligned, and inside the unit's scratchpad
(R160, R196). -/
def Ctx.objectBad (c : Ctx) (a : Addr) : Option Nat :=
  if a.toNat % 16 ≠ 0 then some cMISALIGN else if c.scratch < a.toNat + 16 then some cPERM else none

end Sys2Proof.Machine
end

