-- ==== Sys2Proof/Machine/Flags.lean ====
section
/-! DEFINITION. Conditions, and the clamping and sticky bits of results (R59, R72, R76, R78, R124, R134). -/

namespace Sys2Proof.Machine

/-- A condition code of R59 on two words. -/
def cond (c : Nat) (x y : Word) : Bool :=
  match c with
  | 0 => x == y
  | 1 => x != y
  | 2 => x.slt y
  | 3 => !x.slt y
  | 4 => x.ult y
  | _ => !x.ult y

/-- A condition of CMPA on two addresses (R78). -/
def condA (c : Nat) (x y : Addr) : Bool :=
  match c with
  | 0 => x == y
  | 1 => x != y
  | 4 => x.ult y
  | _ => !x.ult y

/-- Clamp to a range. -/
def clamp (x lo hi : Int) : Int := if x < lo then lo else if hi < x then hi else x

/-- `Fit` of R72: the exact result on unsigned operands, and on signed ones. -/
def fit (fn : Nat) (un sg : Int) : Word :=
  match fn with
  | 0 => BitVec.ofInt 64 un
  | 1 => BitVec.ofInt 64 (clamp sg (-(2 ^ 63)) (2 ^ 63 - 1))
  | _ => BitVec.ofInt 64 (clamp un 0 (2 ^ 64 - 1))

/-- Clamp of SUBA.D (R78). -/
def fit64 (x : Int) : Word := BitVec.ofInt 64 (clamp x (-(2 ^ 63)) (2 ^ 63 - 1))

/-- Fields of TSR (R134). -/
def tsrXsp (w : Word) : Bool := w.getLsbD 0
def tsrHoff (w : Word) : Nat := bits w.toNat 8 8

/-- Sets the sticky bits FMTBAD and SAT (R134). -/
def Thread.stick (x : Thread) (fmtbad sat : Bool) : Thread :=
  { x with tsr := x.tsr ||| BitVec.ofNat 64 (2 * b2n fmtbad + 4 * b2n sat) }

/-- A write to TSR (R134, R5): XSP and HOFF take the value, a written 1 clears a sticky bit, reserved bits stay zero. -/
def tsrWrite (old v : Word) : Word :=
  (v &&& 0xFF01) ||| (old &&& 0x6 &&& ~~~v)

end Sys2Proof.Machine
end

