-- ==== Sys2Proof/Machine/Float.lean ====
section
/-! DEFINITION. Exact arithmetic on the number formats, and the one rounding that each operation makes (R121 to R126, R137,
R138, R167, R168). A finite value is held exactly as a sign, a natural number and a power of two. -/

namespace Sys2Proof.Machine

/-- A value of the arithmetic: a NaN with its 22-bit payload, an infinity, or (−1)^neg · m · 2^e. -/
inductive Num where
  | nan (payload : Nat)
  | inf (neg : Bool)
  | fin (neg : Bool) (m : Nat) (e : Int)
  deriving DecidableEq, Repr

/-- A float format by its fraction bits: 23 for FP32, 7 for BF16 (R122). -/
abbrev fp32 : Nat := 23
abbrev bf16 : Nat := 7

/-- The float format of a type code (R60). -/
def floatOf (ty : Nat) : Nat := if ty = 6 then bf16 else fp32

/-- The value of FP32 bits (R122); a signalling NaN is the quiet one with its payload (R126). -/
def readF32 (x : Nat) : Num :=
  let s := bit x 31
  let e := bits x 23 8
  let f := bits x 0 23
  if e = 255 then (if f = 0 then .inf s else .nan (f % 2 ^ 22))
  else if e = 0 then .fin s f (-149)
  else .fin s (f + 2 ^ 23) ((e : Int) - 150)

/-- The value of bits of a format; BF16 is the upper half of FP32, its payload widened (R122, R126). -/
def readFloat (p x : Nat) : Num := if p = fp32 then readF32 x else readF32 (x % 65536 * 65536)

/-- The payload that a unit generates (R125). -/
def payloadOf (tile index : Nat) : Nat := tile % 4096 * 1024 + index % 1024

/-- ±Inf, the largest finite value, and a NaN as bits of a format. -/
def infBits (p : Nat) (neg : Bool) : Nat := b2n neg * 2 ^ (p + 8) + 255 * 2 ^ p
def maxBits (p : Nat) (neg : Bool) : Nat := b2n neg * 2 ^ (p + 8) + 255 * 2 ^ p - 1
def nanBits (p payload : Nat) : Nat := 255 * 2 ^ p + 2 ^ (p - 1) + payload % 2 ^ 22 / 2 ^ (23 - p)

/-- Whether a magnitude between `n` and `n + 1` is rounded up: `r` of `2^k` parts lie above `n`, and `sticky` a part more
(R123). -/
def roundsUp (mode : Nat) (neg : Bool) (n r k : Nat) (sticky : Bool) : Bool :=
  match mode with
  | 0 => 2 ^ k < 2 * r || (2 * r == 2 ^ k && (sticky || n % 2 == 1))
  | 1 => false
  | 2 => !neg && (r != 0 || sticky)
  | _ => neg && (r != 0 || sticky)

/-- What a finite overflow gives (R123). -/
def overflow (p mode : Nat) (sat neg : Bool) : Nat :=
  if sat then maxBits p neg
  else match mode with
    | 0 => infBits p neg
    | 1 => maxBits p neg
    | 2 => if neg then maxBits p neg else infBits p neg
    | _ => if neg then infBits p neg else maxBits p neg

/-- Rounds ±m · 2^e, or a value less than one unit of 2^e above it when `sticky`, to a format (R123). -/
def roundTo (p mode : Nat) (sat neg : Bool) (m : Nat) (e : Int) (sticky : Bool := false) : Nat :=
  if m = 0 ∧ sticky = false then b2n neg * 2 ^ (p + 8)
  else
    let top : Int := e + Nat.log2 m
    let q : Int := max (top - p) (-126 - p)
    let n0 := if q ≤ e then m * 2 ^ (e - q).toNat else m / 2 ^ (q - e).toNat
    let k := (q - e).toNat
    let r := if q ≤ e then 0 else m % 2 ^ k
    let n := n0 + b2n (roundsUp mode neg n0 r k sticky)
    let b := (q + p + 126).toNat * 2 ^ p + n
    if 255 * 2 ^ p ≤ b then overflow p mode sat neg else b2n neg * 2 ^ (p + 8) + b

/-- A value as bits of a format. -/
def Num.pack (x : Num) (p : Nat) (mode : Nat := 0) (sat : Bool := false) : Nat :=
  match x with
  | .nan pl => nanBits p pl
  | .inf s => infBits p s
  | .fin s m e => roundTo p mode sat s m e

/-- The lowest payload among the NaNs of a list (R126). -/
def nanOf : List Num → Option Nat
  | [] => none
  | .nan p :: r => some (match nanOf r with | none => p | some q => Nat.min p q)
  | _ :: r => nanOf r

def Num.neg : Num → Num
  | .nan p => .nan p
  | .inf s => .inf (!s)
  | .fin s m e => .fin (!s) m e

def Num.abs : Num → Num
  | .nan p => .nan p
  | .inf _ => .inf false
  | .fin _ m e => .fin false m e

/-- Is a zero, and its sign. -/
def Num.isZero : Num → Bool
  | .fin _ m _ => m == 0
  | _ => false
def Num.sign : Num → Bool
  | .nan _ => false
  | .inf s => s
  | .fin s _ _ => s

/-- A signed integer times a power of two, as a finite value; zero with the given sign. -/
def Num.ofInt (z : Int) (e : Int) (zero : Bool := false) : Num :=
  if z = 0 then .fin zero 0 0 else .fin (z < 0) z.natAbs e

/-- The signed integer of a magnitude. -/
def signed (s : Bool) (m : Nat) : Int := if s then -(m : Int) else m

/-- The exact sum of two finite values; an exact zero is −0 under RD, or when both are −0, and +0 otherwise (R123). -/
def addFin (rd : Bool) (s : Bool) (m : Nat) (e : Int) (t : Bool) (n : Nat) (f : Int) : Num :=
  let g := min e f
  let z := signed s m * 2 ^ (e - g).toNat + signed t n * 2 ^ (f - g).toNat
  Num.ofInt z g (rd || (m == 0 && n == 0 && s && t))

/-- The exact sum (R123, R125, R126); `gen` is the payload of a generated NaN. -/
def Num.add (x y : Num) (gen : Nat) (rd : Bool := false) : Num :=
  match nanOf [x, y] with
  | some p => .nan p
  | none =>
    match x, y with
    | .inf s, .inf t => if s = t then .inf s else .nan gen
    | .inf s, _ => .inf s
    | _, .inf t => .inf t
    | .fin s m e, .fin t n f => addFin rd s m e t n f
    | _, _ => .nan gen

/-- The exact product. -/
def Num.mul (x y : Num) (gen : Nat) : Num :=
  match nanOf [x, y] with
  | some p => .nan p
  | none =>
    match x, y with
    | .fin s m e, .fin t n f => .fin (s != t) (m * n) (e + f)
    | x, y => if x.isZero || y.isZero then .nan gen else .inf (x.sign != y.sign)

/-- x · y + z, exact. -/
def Num.fma (x y z : Num) (gen : Nat) (rd : Bool := false) : Num :=
  match nanOf [x, y, z] with
  | some p => .nan p
  | none => (x.mul y gen).add z gen rd

/-! ### Division, roots, powers and logarithms, rounded once -/

/-- Integer square root of a number below 4^n, bit by bit. -/
def isqrtFrom (x : Nat) : Nat → Nat → Nat
  | 0, r => r
  | n + 1, r => let t := r + 2 ^ n; isqrtFrom x n (if t * t ≤ x then t else r)
def isqrt (x : Nat) : Nat := isqrtFrom x (Nat.log2 x / 2 + 1) 0

/-- x / y rounded once (R167, R168). -/
def divFloat (p mode gen : Nat) (x y : Num) : Nat :=
  match nanOf [x, y] with
  | some q => nanBits p q
  | none =>
    let s := x.sign != y.sign
    match x, y with
    | .inf _, .inf _ => nanBits p gen
    | .inf _, _ => infBits p s
    | _, .inf _ => b2n s * 2 ^ (p + 8)
    | .fin _ m e, .fin _ n f =>
      if n = 0 then (if m = 0 then nanBits p gen else infBits p s)
      else roundTo p mode false s (m * 2 ^ 64 / n) (e - f - 64) (m * 2 ^ 64 % n != 0)
    | _, _ => nanBits p gen

/-- √x rounded once. -/
def sqrtFloat (p mode gen : Nat) (x : Num) : Nat :=
  match x with
  | .nan q => nanBits p q
  | .inf s => if s then nanBits p gen else infBits p false
  | .fin s m e =>
    if m = 0 then b2n s * 2 ^ (p + 8)
    else if s then nanBits p gen
    else
      let n := if e % 2 = 0 then m * 2 ^ 64 else m * 2 ^ 65
      let r := isqrt n
      roundTo p mode false false r ((if e % 2 = 0 then e else e - 1) / 2 - 32) (r * r != n)

/-- 1/√x rounded once. -/
def rsqrtFloat (p mode gen : Nat) (x : Num) : Nat :=
  match x with
  | .nan q => nanBits p q
  | .inf s => if s then nanBits p gen else 0
  | .fin s m e =>
    if m = 0 then infBits p s
    else if s then nanBits p gen
    else
      let n := if e % 2 = 0 then m else 2 * m
      let r := isqrt (2 ^ 160 / n)
      roundTo p mode false false r (-((if e % 2 = 0 then e else e - 1) / 2) - 80) (r * r * n != 2 ^ 160)

/-- The fixed point in which powers and logarithms are computed: 320 bits after the point (log 10). -/
abbrev fix : Nat := 320

/-- 2 · atanh(a / b) = ln((b + a) / (b − a)) in fixed point, summed over `fuel` terms from the term `t` on. -/
def atanhSum (a b : Nat) : Nat → Nat → Nat → Nat
  | 0, _, _ => 0
  | fuel + 1, k, t => 2 * t / (2 * k + 1) + atanhSum a b fuel (k + 1) (t * a * a / (b * b))
def lnRatio (a b : Nat) : Nat := atanhSum a b 110 0 (2 ^ fix * a / b)

/-- ln 2 in fixed point. -/
def ln2 : Nat := lnRatio 1 3

/-- e^y in fixed point, for y below 1, summed over `fuel` terms. -/
def expSum (y : Nat) : Nat → Nat → Nat → Nat
  | 0, _, _ => 0
  | fuel + 1, k, t => t + expSum y fuel (k + 1) (t * y / (2 ^ fix * (k + 1)))

/-- 2^x rounded once; beyond ±2^10 the result overflows, or lies below half the least subnormal. -/
def exp2Float (p mode : Nat) (x : Num) : Nat :=
  match x with
  | .nan q => nanBits p q
  | .inf s => if s then 0 else infBits p false
  | .fin s m e =>
    if m = 0 then roundTo p mode false false 1 0
    else if 10 ≤ e + Nat.log2 m then
      if s then roundTo p mode false false 1 (-1024) true else roundTo p mode false false 1 1024 true
    else
      let z : Int := if 0 ≤ e then signed s m * 2 ^ (fix + e.toNat) else signed s (m * 2 ^ fix / 2 ^ (-e).toNat)
      let i := Int.ediv z (2 ^ fix)
      let f := (Int.emod z (2 ^ fix)).toNat
      if f = 0 then roundTo p mode false false 1 i
      else roundTo p mode false false (expSum (f * ln2 / 2 ^ fix) 90 0 (2 ^ fix)) (i - fix) true

/-- log2 x rounded once. -/
def log2Float (p mode gen : Nat) (x : Num) : Nat :=
  match x with
  | .nan q => nanBits p q
  | .inf s => if s then nanBits p gen else infBits p false
  | .fin s m e =>
    if m = 0 then infBits p true
    else if s then nanBits p gen
    else
      let l := Nat.log2 m
      let whole : Int := e + l
      let a := m - 2 ^ l
      if a = 0 then (Num.ofInt whole 0).pack p mode
      else
        let z : Int := whole * 2 ^ fix + (lnRatio a (m + 2 ^ l) * 2 ^ fix / ln2 : Nat)
        roundTo p mode false (z < 0) z.natAbs (-fix) true

/-! ### Integers -/

/-- Rounds a finite value to an integer (R123, R124). -/
def roundInt (mode : Nat) (s : Bool) (m : Nat) (e : Int) : Int :=
  if 0 ≤ e then signed s (m * 2 ^ e.toNat)
  else
    let k := (-e).toNat
    let n := m / 2 ^ k
    signed s (n + b2n (roundsUp mode s n (m % 2 ^ k) k false))

/-- Whether an integer type is signed, and its range (R60, R124). -/
def tySigned (ty : Nat) : Bool := ty % 2 == 1
def tyLo (ty : Nat) : Int := if tySigned ty then -(2 ^ (8 * tyBytes ty - 1)) else 0
def tyHi (ty : Nat) : Int := if tySigned ty then 2 ^ (8 * tyBytes ty - 1) - 1 else 2 ^ (8 * tyBytes ty) - 1

/-- An integer element's value, and an integer as element bits. -/
def readInt (ty x : Nat) : Int := if tySigned ty then sgn (8 * tyBytes ty) x else (x % 2 ^ (8 * tyBytes ty) : Nat)
def intBits (ty : Nat) (z : Int) : Nat := (z % (2 ^ (8 * tyBytes ty) : Nat)).toNat

/-- Clamps to a type's range, and says whether that changed the value (R124). -/
def clampTo (ty : Nat) (z : Int) : Nat × Bool :=
  let c := clamp z (tyLo ty) (tyHi ty)
  (intBits ty c, c != z)

/-- A value converted to an integer type; a NaN gives 0 and saturates (R124). -/
def Num.toInt (x : Num) (ty mode : Nat) : Nat × Bool :=
  match x with
  | .nan _ => (0, true)
  | .inf s => (intBits ty (if s then tyLo ty else tyHi ty), true)
  | .fin s m e => clampTo ty (roundInt mode s m e)

/-! ### Comparisons -/

/-- Places float bits on a line: −Inf lowest, −0 just below +0 when `signedZero`. -/
def orderKey (p x : Nat) (signedZero : Bool) : Int :=
  let m := x % 2 ^ (p + 8)
  if bit x (p + 8) then -(m : Int) - b2n signedZero else m

def isNanBits (p x : Nat) : Bool := 255 * 2 ^ p < x % 2 ^ (p + 8)

/-! ### Sums of products (R137, R138) -/

/-- The sum of the finite values of a list, exact, as an integer times a power of two. -/
def sumFin : List Num → Int × Int
  | [] => (0, 0)
  | .fin s m e :: r =>
    let q := sumFin r
    if m = 0 then q else if q.1 = 0 then (signed s m, e)
    else let g := min e q.2; (signed s m * 2 ^ (e - g).toNat + q.1 * 2 ^ (q.2 - g).toNat, g)
  | _ :: r => sumFin r

/-- The exact sum of products by the rules of R138; `gen` is the payload of a generated NaN. -/
def sumProducts (ops : List (Num × Num)) (gen : Nat) : Num :=
  match nanOf (ops.flatMap fun p => [p.1, p.2]) with
  | some q => .nan q
  | none =>
    let ps := ops.map fun p => p.1.mul p.2 gen
    let isNan := ps.any fun x => match x with | .nan _ => true | _ => false
    let pos := ps.contains (.inf false)
    let neg := ps.contains (.inf true)
    if isNan || (pos && neg) then .nan gen
    else if pos then .inf false
    else if neg then .inf true
    else
      let z := sumFin ps
      Num.ofInt z.1 z.2 (!ps.isEmpty && ps.all fun x => x.isZero && x.sign)

end Sys2Proof.Machine
end

