-- ==== Sys2Proof/Machine/Coherence.lean ====
section
/-! DEFINITION. Leases, fills of lines and groups of tile caches: the operations that hints and the agents' own steps share
(R236, R237, R241, R242, R244, R261, R271). -/

namespace Sys2Proof.Machine

/-- The lease length of a partition (R235). -/
def State.leaseLen (s : State) (pid : Nat) : Nat := (s.getPart pid).lease

/-- A slice may grant a lease on a line: no store waits for it there, none that is performed only when it is merged is pending there, which
no copy may outlive (R226, R239), and no sealed region is to write it (R237, R295). -/
def State.mayLease (s : State) (d l : Nat) : Bool :=
  ((s.getDie d).waitSt.all fun x => lineOf x.a != l) && ((s.getDie d).pendB.all fun x => !x.merge || lineOf x.a != l) &&
  !s.sealedLine l

/-- A slice grants a tile a copy of a line (R236): the expiry is one lease from now, and the slice's Emax rises to it. A formed group holds
one copy (R261). -/
def State.grantLease (s : State) (t l : Nat) : State :=
  let d := dieOf t
  let pid := s.ownerOf t
  let e := s.plumb + s.leaseLen pid
  let v := s.tileLine t l
  let s := if (s.getTile t).lgrp = 0 then s
    else (s.cacheGroup t).foldl (fun s u => s.modTile u fun x => { x with copies := SMap.erase x.copies l }) s
  (s.modTile t fun x => { x with copies := SMap.put x.copies l { data := v, till := e, pid := pid } }).modDie d fun y =>
    { y with emax := SMap.set 0 y.emax l (Nat.max (SMap.get 0 y.emax l) e) }

/-- The agents that hold a line in S, and the host's bit (R243). -/
def State.entry (s : State) (l : Nat) : SfEnt := (SMap.find s.filter l).getD { dst := 0 }

/-- The bit of `SHV` for an agent, at a line's home (R243). -/
def shvBit (l ag : Nat) : Nat := if ag / 8 = bits (128 * l) 40 3 then ag % 8 else 8 + ag / 8
def shvSet (v b : Nat) : Nat := if bit v b then v else v + 2 ^ b

/-- The partition whose memory a line is (R346); 0 for the firmware's and for host memory. -/
def State.linePid (s : State) (l : Nat) : Nat :=
  match s.cfg.ranges.find? fun r => r.1 ≤ 128 * l && 128 * l < r.1 + r.2.1 with
  | some r => r.2.2
  | none => 0

/-- A tile may hold the line at all (R346). -/
def State.mayHold (s : State) (t l : Nat) : Bool :=
  if isHost (128 * l) then bit s.cfg.pmask (s.ownerOf t) else isDram (128 * l) && s.ownsRange (s.ownerOf t) (128 * l) 128

/-- The die holds the line compressed when it shares it: some tile there knows its page as `COMP`, and the machine chooses so (R248). -/
def State.compIn (s : State) (ag l : Nat) : Bool :=
  let knows := fun (n : Nat) (x : Tile) => ag / 8 == s.domPos && dieOf n == ag % 8 && x.tlb.any fun t =>
    let e := t.e.toNat
    t.at_.isNone && bit e 8 && !bit e 9 && bits e 16 36 * 65536 / 2 ^ lvlLow t.lvl == 128 * l / 2 ^ lvlLow t.lvl
  (knows s.cur.t s.tile || s.tiles.any fun e => knows e.1 e.2) && Config.freeChoice s.fresh l

/-- An agent that does not hold a line takes it when no agent owns it (R244 RdS, `DST` I or S): E if nothing was recorded, else S; a line of
host memory in S, as RdShared brings it. One that the host may hold comes by a transaction (R251). -/
def State.fillShared (s : State) (ag l pid : Nat) : State :=
  let e := s.entry l
  if (s.held ag l).isSome ∨ (s.owner l).isSome ∨ s.homeIdle l = false then s
  else
    let lone := e.dst = 0 ∧ isHost (128 * l) = false
    let s := s.setHeld ag l (some { st := if lone then .e else .s, data := s.homeLine l, pid := pid, comp := !lone && s.compIn ag l })
    if isHost (128 * l) then s
    else
      let e' : SfEnt := if lone then { e with dst := 3, own := ag } else { e with dst := 1, shv := shvSet e.shv (shvBit l ag) }
      { s with filter := SMap.put s.filter l e' }

/-- A tile takes a line under a lease (R236, R237), when its cache has room (R260): its slice fetches the line when its die has no copy. -/
def State.leaseTo (s : State) (t l : Nat) : State :=
  let d := dieOf t
  if s.mayHold t l && s.mayLease d l && (s.getTile t).cacheRoom l then
    let r := s.fillShared (s.agentOf d) l (s.ownerOf t)
    if (r.held (s.agentOf d) l).isSome then r.grantLease t l else s
  else s

/-- The replicas of a line in the slice beside a tile go (R241). -/
def State.dropReplicas (s : State) (t l : Nat) : State :=
  s.modDie (dieOf t) fun d => { d with repl := d.repl.filter fun x => !(x.slice == sliceBeside t && x.line == l) }

/-- DISC (R271): the copies of the tile and of its group go, and the replicas of the line in its slice. -/
def State.discard (s : State) (t l : Nat) : State :=
  ((s.cacheGroup t).foldl (fun s u => s.modTile u fun x => { x with copies := SMap.erase x.copies l }) s).dropReplicas t l

/-- A footprint or a reservation queue holds a line in M (R273, R294). -/
def State.keptM (s : State) (l : Nat) : Bool := !(SMap.get [] s.resvq l).isEmpty || s.dies.any fun e => e.2.parties.any fun p => p.line == l

/-- CLEAN (R271): the owner writes the line back; M becomes E, unless the line is held in M, and O becomes S. A write-back on its way is in
memory too. -/
def State.clean (s : State) (l : Nat) : State :=
  match s.owner l with
  | none => if (s.wbuf l).isSome then { s with mem := Memory.write s.mem (128 * l) (getBytes (s.homeLine l) 0 128) } else s
  | some (ag, h) =>
    let s := { s with mem := Memory.write s.mem (128 * l) (getBytes h.data 0 128) }
    match h.st with
    | .m => if s.keptM l then s else s.setHeld ag l (some { h with st := .e })
    | .o =>
      let s := s.setHeld ag l (some { h with st := .s })
      if isHost (128 * l) then s
      else
        let e := s.entry l
        { s with filter := SMap.put s.filter l { e with dst := 1, shv := shvSet e.shv (shvBit l ag) } }
    | _ => s

/-! ### The home of a line and the agents that hold it -/

/-- An agent loses a line (R245): dirty data goes to the home, and on a die of this part the monitors of the line wake, the
regions on it abort, and the stores that wait at the slice become pending bytes. -/
def State.giveUp (s : State) (ag l : Nat) : State :=
  match s.held ag l with
  | none =>
    { s with
      mem := (match SMap.find (SMap.get [] s.wbufs ag) l with
        | some (h, false) => Memory.write s.mem (128 * l) (getBytes h.data 0 128)
        | _ => s.mem)
      wbufs := SMap.set [] s.wbufs ag (SMap.map (fun j (h : Held × Bool) => if j = l then (h.1, true) else h) (SMap.get [] s.wbufs ag)) }
  | some h =>
    let dirty := h.st = .m ∨ h.st = .o
    let r : State := { s with mem := if dirty then Memory.write s.mem (128 * l) (getBytes h.data 0 128) else s.mem }
    let r := r.setHeld ag l none
    if ag / 8 ≠ s.domPos then r
    else
      let d := ag % 8
      let r := (r.wakeLine (some d) (none, l)).strong d l
      let mine := (r.getDie d).waitSt.filter fun x => lineOf x.a == l
      let r := r.modDie d fun y => { y with waitSt := y.waitSt.filter fun x => lineOf x.a != l }
      mine.foldl (fun r x => r.performStore d x) r

/-- An owner goes on as a sharer (R245 PrS): M becomes O and E becomes S, which the line's monitors and regions see as a
downgrade. -/
def State.lower (s : State) (ag l : Nat) : State :=
  match s.held ag l with
  | none => s.giveUp ag l
  | some h =>
    let st : LState := match h.st with | .m | .o => .o | .e | .s => .s
    let r := s.setHeld ag l (some { h with st := st })
    if ag / 8 = s.domPos ∧ st ≠ h.st then (r.wakeLine (some (ag % 8)) (none, l)).strong (ag % 8) l else r

/-- The agent holds the line, or has it in its write-back buffer, under a probe's partition identifier (R245, R247). -/
def State.present (s : State) (ag l pid : Nat) : Bool :=
  match s.held ag l with
  | some h => h.pid == pid
  | none => (SMap.find (SMap.get [] s.wbufs ag) l).any fun e => !e.2 && e.1.pid == pid

/-- The part at whose home a line lies, and the agents that `SHV` names (R243). -/
def homePart (l : Nat) : Nat := bits (128 * l) 40 3
def shvAgents (l v : Nat) : List Nat :=
  (List.range 16).flatMap fun b =>
    if bit v b then (if b < 8 then [8 * homePart l + b] else (List.range 8).map (8 * (b - 8) + ·)) else []

/-- The entry records an agent (R244). -/
def SfEnt.records (e : SfEnt) (l ag : Nat) : Bool := (2 ≤ e.dst && e.own == ag) || bit e.shv (shvBit l ag)

/-- The agents that a transaction probes (R244, R246, R251). -/
def SfEnt.probed (e : SfEnt) (l kind ag : Nat) : List Nat :=
  let own := if 2 ≤ e.dst then [e.own] else []
  if kind = 0 ∨ kind = 4 then own
  else ((shvAgents l e.shv).filter (fun a => !own.contains a) ++ own).filter fun a => !(kind == 2 && a == ag)

/-- Sets a line's entry; one that records nothing is free (R243). -/
def State.setEntry (s : State) (l : Nat) (e : SfEnt) : State :=
  { s with filter := if e.dst = 0 ∧ e.h = false then SMap.erase s.filter l else SMap.put s.filter l e }

/-- A transaction whose answers have all come ends (R244, R246, R251). -/
def State.endTxn (s : State) (l : Nat) (x : Txn) : State :=
  let s : State := { s with txns := SMap.erase s.txns l }
  let e := s.entry l
  /- After PrS: the owner's present state, with the sharers. -/
  let shared : SfEnt :=
    match if x.absent.contains e.own then none else s.held e.own l with
    | some h => if 2 ≤ e.dst then (if h.st = .s then { e with dst := 1, shv := shvSet e.shv (shvBit l e.own) } else { e with dst := 2 }) else e
    | none => if 2 ≤ e.dst then { e with dst := if e.shv = 0 then 0 else 1 } else e
  match x.kind with
  | 0 =>
    let r := s.setHeld x.ag l (some { st := if x.lone then .e else .s, data := s.homeLineBut x.absent l, pid := x.pid,
                                      comp := !x.lone && s.compIn x.ag l })
    r.setEntry l (if x.lone then { dst := 3, own := x.ag, h := e.h }
      else { shared with dst := Nat.max 1 shared.dst, shv := shvSet shared.shv (shvBit l x.ag) })
  | 1 | 2 =>
    let r := s.takeM x.ag l x.pid x.absent
    let r := r.setEntry l { dst := 3, own := x.ag, h := e.h }
    if x.ag / 8 = s.domPos then r.mergePending (x.ag % 8) l else r
  | 3 => { s with filter := SMap.erase s.filter l }
  | 4 => s.setEntry l { shared with h := true }
  | 5 => (s.recall l x.absent).setEntry l { dst := 0, h := true }
  | _ =>
    match x.wr with
    | some (a, bs) => ((s.recall l x.absent).hostPut a bs).setEntry l { dst := 0, h := e.h }
    | none => s

/-- A transaction ends as soon as nothing is awaited. -/
def State.checkTxn (s : State) (l : Nat) (x : Txn) : State :=
  if x.await = [] ∧ x.host = [] then s.endTxn l x else { s with txns := SMap.put s.txns l x }

/-- The home takes up a request for a line of DRAM, when it has none in hand (R244): its probes go out, and a snoop of both
halves to the host when the entry records it (R250, R251). -/
def State.beginTxn (s : State) (l kind ag pid : Nat) (wr : Option (Nat × List Byte) := none) : State :=
  if (SMap.find s.txns l).isSome then s
  else
    let e := s.entry l
    s.checkTxn l
      { kind := kind, ag := ag, pid := pid, since := s.plumb, lone := e.dst = 0 ∧ e.h = false, await := e.probed l kind ag,
        host := if e.h ∧ kind ≤ 3 then [0, 1] else [], wr := wr }

/-! ### Requests at a home -/

/-- A request that needs an entry at a bank where none is free (R243, R246). -/
def HomeReq.needs (q : HomeReq) (s : State) (l : Nat) : Bool := q.kind ≤ 5 && (SMap.find s.filter l).isNone

/-- A request takes its place at a home (R244): by arrival, and of one cycle by agent, the host last. -/
def insertHome (q : HomeReq) : List HomeReq → List HomeReq
  | [] => [q]
  | r :: w => if r.at_ == q.at_ && q.ag < r.ag then q :: r :: w else r :: insertHome q w

/-- An agent has one request for a line outstanding; the host one of each kind and of each write. -/
def HomeReq.same (q r : HomeReq) : Bool := q.ag == r.ag && (q.ag < 64 || (q.kind == r.kind && q.wr == r.wr))
def Txn.serves (x : Txn) (q : HomeReq) : Bool :=
  x.kind != 3 && q.same { kind := x.kind, ag := x.ag, pid := x.pid, at_ := 0, wr := x.wr }

/-- A request reaches the home of its line (R244). -/
def State.arrive (s : State) (l : Nat) (q : HomeReq) : State :=
  let w := SMap.get [] s.homeq l
  if w.any q.same || (SMap.find s.txns l).any (·.serves q) then s
  else { s with homeq := SMap.set [] s.homeq l (insertHome q w) }

/-- What a request is served as (R244, R248): nothing when its agent has the line by now; an upgrade of an agent that the entry no longer
records, or that holds the line compressed, is a RdX. -/
def State.servedAs (s : State) (l : Nat) (q : HomeReq) : Option Nat :=
  let h := s.held q.ag l
  match q.kind with
  | 0 => if h.isSome then none else some 0
  | 1 | 2 =>
    if h.any fun h => h.st == .m || h.st == .e then none
    else some (if q.kind = 2 && h.any (fun h => !h.comp) && (s.entry l).records l q.ag then 2 else 1)
  | k => some k

/-- The home takes the request that came first in an earlier cycle, when it has none in hand and an entry for it (R244, R246). -/
def State.takeUp (s : State) (l : Nat) : State :=
  match SMap.get [] s.homeq l with
  | [] => s
  | q :: w =>
    if (SMap.find s.txns l).isSome || s.plumb ≤ q.at_ || (q.needs s l && 65536 ≤ s.bankUsed (bankOf l)) then s
    else
      let r : State := { s with homeq := SMap.set [] s.homeq l w }
      match s.servedAs l q with
      | none => r
      | some k => r.beginTxn l k q.ag q.pid q.wr

def State.ask (s : State) (l : Nat) (q : HomeReq) : State := (s.arrive l q).takeUp l

/-- The identifier that a die's request carries (R247, R347): that of the store that waits for the line there, or of the load that missed it,
else of the line's range (log 17). -/
def State.askPid (s : State) (ag l : Nat) (wr : Bool) : Nat :=
  let d := s.getDie (ag % 8)
  let st := if ag / 8 = s.domPos ∧ wr then (d.pendB ++ d.waitSt).find? fun x => lineOf x.a == l else none
  match st with
  | some x => x.pid
  | none => ((s.wants.find? fun w => w.1 == ag && w.2.1 == l).map (·.2.2)).getD (s.linePid l)

/-- A load of a tile has missed lines that come only by a step of their own: they are asked for under its identifier (R347). -/
def State.want (s : State) (t pid : Nat) (ps : List Piece) : State :=
  let ag := s.agentOf (dieOf t)
  let new := ((pieceLines ps).filter fun l => (s.held ag l).isNone && !s.wants.any fun w => w.1 == ag && w.2.1 == l).map fun l => (ag, l, pid)
  { s with wants := s.wants.filter (fun w => (s.held w.1 w.2.1).isNone) ++ new }

/-- A line comes to a die in S, as a RdS that nothing delays brings it (R244): a probe lowers the owner, unless it holds the line under
another identifier (R247). -/
def State.shareIn (s : State) (ag l pid : Nat) : State :=
  if (s.held ag l).isSome || !s.homeIdle l then s
  else
    let e := s.entry l
    let own := if isHost (128 * l) then (s.owner l).map (·.1) else if 2 ≤ e.dst then some e.own else none
    if own.any fun o => o == s.queueAgent l && SMap.get [] s.resvq l != [] then s
    else
      let here := own.any fun o => s.present o l pid
      let r := match own with | some o => if here then s.lower o l else s | none => s
      if isHost (128 * l) then r.setHeld ag l (some { st := .s, data := r.homeLine l, pid := pid })
      else r.endTxn l { kind := 0, ag := ag, pid := pid, lone := e.dst = 0, absent := if here then [] else own.toList }

/-- A byte of memory comes to a tile's load neither from its own stores on their way nor from a leased copy (R236, R238). -/
def State.byteMisses (s : State) (t a : Nat) : Bool :=
  (s.copyIn t (lineOf a)).isNone && (s.ownStores t).all fun x => a < x.a || x.a + x.bytes.length ≤ a

/-- The lines that a tile's load takes from its die, and that the die does not hold. -/
def State.missLines (s : State) (t : Nat) (ps : List Piece) : List Nat :=
  (pieceLines ps).filter fun l => (s.held (s.agentOf (dieOf t)) l).isNone && ps.any fun p =>
    match p.spot.place with
    | .pa a => (List.range p.n).any fun j => lineOf (a + j) == l && s.byteMisses t (a + j)
    | _ => false

/-- Some byte of a tile's load misses, and its line is not with its die or cannot be had now: a store waits at its slice (R237), the host may
hold it (R251), or its home has other requests in hand (R244). -/
def State.missHeld (s : State) (t : Nat) (ps : List Piece) : Bool :=
  let bad := fun (l : Nat) => s.lineWaits t l || (s.held (s.agentOf (dieOf t)) l).isNone
  (pieceLines ps).any bad && ps.any fun p =>
    match p.spot.place with
    | .pa a => (List.range p.n).any fun j => bad (lineOf (a + j)) && s.byteMisses t (a + j)
    | _ => false

/-- The lines that a load misses come to its die in S or E, where nothing delays them (R244 RdS, R247). -/
def State.fillLoads (s : State) (t pid : Nat) (ps : List Piece) : State :=
  (s.missLines t ps).foldl (fun s l => s.shareIn (s.agentOf (dieOf t)) l pid) s

end Sys2Proof.Machine
end

