-- ==== Sys2Proof/Machine/MemOps.lean ====
section
/-! DEFINITION. Loads and stores of the thread in focus: the operand checks in their order, what ordering makes wait, regions,
redundant execution, and release and strongly ordered stores (R220 to R232, R238, R241, R263, R285, R286, R393). -/

namespace Sys2Proof.Machine

/-- A step of an instruction that either goes on with a value or ends the instruction. -/
abbrev Try (α : Type) := Except Res α

/-! ### Redundant execution (R393) -/

/-- The thread takes its values from a load-value queue; the thread is trailed. -/
def State.trails (s : State) : Bool := s.thr.role == 7
def State.trailed (s : State) : Bool := s.ctx.roles.getD (s.cur.i + 1) 0 == 7

/-- Neither trailed nor trailing. -/
abbrev State.solo (s : State) : Bool := !s.trails && !s.trailed

/-- Gives a value to the thread that trails the thread of a key, when one does. -/
def State.copyTo (s : State) (k : Key) (v : Vec) : State :=
  if (s.getCtx k.t k.c).roles.getD (k.i + 1) 0 == 7 then
    s.modThread ⟨k.t, k.c, k.i + 1⟩ fun x => { x with lvq := x.lvq ++ [v] }
  else s

/-- The next value of the load-value queue. -/
def State.takeCopy (s : State) : Try (State × Vec) :=
  match s.thr.lvq with
  | [] => .error (.hold s.held_)
  | v :: r => .ok ({ s with thr := { s.thr with lvq := r } }, v)

/-- A trailed thread waits while the queue of 64 is full (R393). -/
def State.lvqFull (s : State) : Bool :=
  s.trailed && 64 ≤ (s.getThread ⟨s.cur.t, s.cur.c, s.cur.i + 1⟩).lvq.length

/-- Counts a difference on a lane or sub-array of the physical tile where a tile lies (R12, R396). -/
def State.countSdc (s : State) (t unit : Nat) : State :=
  let k := 64 * s.physTile t + unit % 64
  { s with sdc := SMap.set 0 s.sdc k (SMap.get 0 s.sdc k + 1) }

/-- The store that a result still to come stands for (R393). -/
def Pend.store (p : Pend) : Option HeldStore := match p.what with | .held h => some h | _ => none

/-- A store as the comparator holds it: its address, and as its item its address, size and data. -/
def HeldStore.item (h : HeldStore) : List Nat := [h.a.toNat, h.a.toNat, h.bs.length, ofLE h.bs]

/-- The stores of a thread that wait in the comparator, with their entries among its results to come, oldest first. -/
def Thread.heldStores (x : Thread) : List (Pend × HeldStore) := x.pend.filterMap fun p => p.store.map fun h => (p, h)

/-- The oldest entry of a thread's comparator that the trailing thread has still to produce: its address and item, and its PC. -/
def Thread.oldest (x : Thread) : Option (List Nat × Addr) :=
  match x.heldStores, x.cmpq with
  | (p, h) :: _, _ => some (h.item, p.pc)
  | [], some (it, false) => some (it, x.pc)
  | [], _ => none

/-- The trailing thread of the thread of a key differs from it (R393): the leading one traps SDC at its oldest compared instruction, with that
one's address, the entries behind it go, the trailing one parks, and the difference is counted and logged (R396, R398). -/
def State.differs (s : State) (k : Key) (unit : Nat) : State :=
  let x := s.getThread k
  match x.oldest with
  | none => s
  | some (it, pc) =>
    let own := BitVec.ofNat 72 (it.headD 0)
    let r := s.setThread k { x with
      cmpq := none, wait := .trap cSDC own, pc := pc, young := x.young && pc == x.pc, pend := x.pend.filter fun p => p.store.isNone }
    let r := r.modThread ⟨k.t, k.c, k.i + 1⟩ fun y => { y with wait := .differs }
    (r.countSdc k.t unit).logEvent 4 k.t (s.getCtx k.t k.c).pid cSDC own.toNat

/-- A store, message or engine command of a thread that is trailed waits until the trailing thread produces the same; the
trailing thread's own has no effect. A difference traps SDC in the leading thread. `a` is the store's address, 0 for a command. -/
def State.compare (s : State) (a : Addr) (item : List Nat) : Try State :=
  if s.trails then
    let k : Key := ⟨s.cur.t, s.cur.c, s.cur.i - 1⟩
    let x := s.getThread k
    match x.oldest with
    | none => .error (.hold s.held_)
    | some (it, _) =>
      if it = a.toNat :: item ∧ x.heldStores = [] then .error (.done (s.setThread k { x with cmpq := some (it, true) }))
      else .error (.hold (s.differs k (Config.freeWord s.fresh 0).toNat))
  else if s.trailed then
    match s.thr.cmpq with
    | some (_, true) => .ok { s with thr := { s.thr with cmpq := none } }
    | some (_, false) => .error (.hold s.held_)
    | none =>
      if 32 ≤ s.thr.heldStores.length then .error (.hold s.held_)
      else .error (.hold { s with thr := { s.thr with cmpq := some (a.toNat :: item, false), wait := .hold } })
  else .ok s

/-- A load of a trailed thread is not made yet: the queue of 64 is full, or a store that waits in the comparator comes first, of a byte that
the load reads, or of any when the load is ordered (R225 to R227). -/
def State.leadWaits (s : State) (ps : List Piece) (ordq : Nat) : Bool :=
  s.trailed && (s.lvqFull || s.thr.heldStores.any fun h =>
    ordered ordq || ps.any fun p => p.spot.ord == 1 || (match p.spot.place with | .pa _ | .sram _ _ => false | _ => true) ||
      h.2.l.any fun e => e.2.any fun q => p.spot.place.meets p.n q.spot.place q.n)

/-! ### What ordering makes wait -/

/-- An older instruction whose completion every later access waits for: an acquiring atomic, FENCE.ACQ or FENCE.FULL (R227). -/
def PendK.gates : PendK → Bool
  | .atomic acq => acq
  | .fence kind _ => kind != 1
  | _ => false

/-- An older read-modify-write whose store part is not performed (R227, R228), which what follows an older load that is not bound waits for
as well (`Thread.owesRmw`). -/
def PendK.isRmw : PendK → Bool
  | .atomic _ => true
  | _ => false

/-- A strongly ordered store not yet performed at system scope (R226). -/
def PendK.isSo : PendK → Bool
  | .store 5 => true
  | _ => false

def Thread.gated (x : Thread) : Bool := x.pend.any fun p => p.what.gates
def Thread.owesRmw (x : Thread) : Bool := x.pend.any fun p => p.what.isRmw || p.load.any fun u => !u.uo

/-- A load of the thread is not bound: one of any page, or one that touches one of these lines (R225, R226, R227). -/
def Thread.unbound (x : Thread) : Bool := x.pend.any fun p => p.load.isSome
def Thread.unboundOn (x : Thread) (ls : List Nat) : Bool :=
  x.pend.any fun p => p.load.any fun u => u.parts.any fun q => ls.contains (lineOf q.1) || ls.contains (lineOf (q.1 + q.2.1 - 1))
def Thread.owesSo (x : Thread) : Bool := x.pend.any fun p => p.what.isSo

/-- The widest scope of the thread's ordered stores that are not performed; 0 when there is none (R227). -/
def PendK.storeScope : PendK → Nat
  | .store scope => scope
  | _ => 0
def Thread.owesStore (x : Thread) : Nat := x.pend.foldl (fun n p => Nat.max n p.what.storeScope) 0

/-- A store that is performed only when it is merged, to one of these lines, is on its way from the tile: no strongly ordered access of the
tile may see it yet (R226, R239). -/
def State.mergeAhead (s : State) (t : Nat) (ls : List Nat) : Bool :=
  (s.ownStores t ++ (s.getDie (dieOf t)).pendB.filter fun x => x.tile == t).any fun x => x.merge && ls.contains (lineOf x.a)

/-- A RED of the thread is not performed (R277): one that later accesses wait for, or any. -/
def State.owesRed (s : State) (k : Key) (so : Bool) : Bool := s.reds.any fun r => r.who == k && (r.acq || (so && r.so))
def State.hasRed (s : State) (k : Key) : Bool := s.reds.any fun r => r.who == k

/-- The thread has an atomic under way on one of the lines (R225). -/
def State.atomicOn (s : State) (k : Key) (ls : List Nat) : Bool :=
  ls.any fun l => (SMap.get [] s.resvq l).any (fun q => q.who == k && (q.op != 3 || !q.granted)) ||
    s.reds.any fun r => r.tile == k.t && r.at_.line == some (none, l)

def allPieces (l : List (Addr × List Piece)) : List Piece := l.flatMap fun e => e.2

/-- The tile that an access needs and that cannot answer: another tile whose fence the die has learnt of (R381). -/
def State.deadTile (s : State) (ps : List Piece) : Bool :=
  ps.any fun p =>
    match p.spot.place with
    | .away t _ | .sram t _ => t != s.cur.t && (s.getDie (dieOf s.cur.t)).knows.contains t
    | _ => false

/-- The thread is in a region that can abort. -/
def State.inRegion (s : State) : Bool := s.thr.region.any fun r => !r.irr

/-- A region's access brings its line to its die in M, which a transaction or the host's copy delays (R244, R251, R285). -/
def State.ownWaits (s : State) (l : Nat) : Bool :=
  !s.ownable (s.agentOf (dieOf s.cur.t)) l

/-- What an access waits for before it is made (R226, R227, R259, R295). One that needs a tile whose fence the die has learnt of
completes with RESPF (R381). -/
def State.waits (s : State) (l : List (Addr × List Piece)) : Option Res :=
  match l.find? (fun e => s.deadTile e.2), awayOf (allPieces l) with
  | some (a, _), _ => some (.done (s.late [] (some (cRESPF, a))))
  | none, some vt => some (.hold { s with thr := { s.thr with wait := .remote vt } })
  | none, none =>
    let ps := allPieces l
    let so := ps.any fun p => p.spot.ord == 1
    if s.thr.gated || s.thr.unboundOn (pieceLines ps) || (s.inRegion && (regionLines ps).any s.sealBusy) || s.atomicOn s.cur (pieceLines ps) || s.owesRed s.cur so ||
        (so && (s.thr.owesSo || s.mergeAhead s.cur.t (pieceLines ps))) || (s.thr.region.isSome && (pieceLines ps).any s.ownWaits) then
      some (.hold s.held_)
    else none

/-! ### Regions -/

/-- A region whose abort has been decided ends its instruction. -/
def State.settle (s : State) : Res :=
  match s.thr.region.bind (·.doom) with
  | some (c, tc) => if s.thr.pend.isEmpty then .end_ (s.abortRegion s.cur c tc) else .hold s.held_
  | none => .hold s.held_

/-- A region may reach this place: its own die's memory, a frozen or own-die lineage node, a scratchpad or the window (R286). -/
def State.near (s : State) (p : Place) : Bool :=
  match p with
  | .pa a => isDram a && bits a 37 6 == s.agentOf (dieOf s.cur.t)
  | .lin pid node _ _ => node % 8 == dieOf s.cur.t || ((s.getPart pid).node node).any fun x => x.kids != 0
  | _ => true

/-- A load of a frozen lineage line joins no set (R286). -/
def State.joins (s : State) (p : Place) : Option Nat :=
  match p with
  | .lin pid node _ _ => if ((s.getPart pid).node node).any (fun x => x.kids != 0) then none else p.regionAddr
  | _ => p.regionAddr

/-- The region accesses that an access makes at its slices (R285, R286): one for each line it touches. -/
def State.regionTouch (s : State) (ps : List Piece) (wr : Bool) : State :=
  if s.thr.region.isNone then s
  else if s.inRegion && ps.any fun p => !s.near p.spot.place then s.modThread s.cur fun x => x.markRegion 4
  else ps.foldl (fun s p =>
    match s.joins p.spot.place with
    | none => s
    | some a => (List.range (lineOf (a + p.n - 1) - lineOf a + 1)).foldl (fun s j =>
        if (s.thr.region.bind (·.doom)).isSome then s else s.sliceAccess s.cur (lineOf a + j) wr) s) s

/-- What a region's load sees at a place (R285): its own stores over the slice's value. -/
def State.regionRead (s : State) (p : Place) (n : Nat) : List Byte :=
  let below := s.readPlace s.me .slice p n
  match p.regionAddr, s.thr.region with
  | some a, some r => (List.range n).map fun j => (SMap.find r.buf (a + j)).getD (below.getD j 0)
  | _, _ => below

/-- A region's store is kept in its buffer (R285). -/
def State.regionWrite (s : State) (a : Nat) (bs : List Byte) : State :=
  { s with thr := { s.thr with region := s.thr.region.map fun r =>
      { r with buf := (List.range bs.length).foldl (fun m j => SMap.put m (a + j) (bs.getD j 0)) r.buf } } }

/-! ### Loads -/

/-- A replica of a line is made, for the launch of the thread in focus, in the slice beside its tile: by PREF, or by a load with the hint,
which keeps one that such a load has made already (R241). What was made before the first such load of the launch does not serve it. -/
def State.replicate (s : State) (l : Nat) (load : Bool := false) : State :=
  let c := s.ctx
  let mine := fun (x : Replica) => x.pid == c.pid && x.launch == c.launch && x.line == l
  let begun := s.dies.any fun e => e.2.repl.any fun x => x.live && mine x
  let s := if load && !begun then s.allDies fun _ d => { d with repl := d.repl.filter fun x => !mine x } else s
  if load && (s.replicaOf s.cur l).any (·.live) then s
  else
    let v := s.dieLine (dieOf s.cur.t) l
    s.modDie (dieOf s.cur.t) fun d => { d with
      repl := { slice := sliceBeside s.cur.t, pid := c.pid, launch := c.launch, line := l, data := v, live := load || begun } ::
        d.repl.filter fun x => !(x.slice == sliceBeside s.cur.t && mine x) }

/-- The replicas that a load with the hint, or from pages with the attribute, makes (R241). -/
def State.makeReplicas (s : State) (ps : List Piece) (repl : Bool) : State :=
  (pieceLines (ps.filter fun p => repl || p.spot.repl)).foldl (fun s l => s.replicate l true) s

/-- The bytes of a checked load, with its region's effects (R225, R264, R285). -/
def State.loadPieces (s : State) (ps : List Piece) (repl : Bool) : Try (State × List Byte) :=
  let s := s.regionTouch ps false
  if (s.thr.region.bind (·.doom)).isSome then .error s.settle
  else if s.inRegion then .ok (s, ps.flatMap fun p => s.regionRead p.spot.place p.n)
  else .ok (s.makeReplicas ps repl, ps.flatMap fun p =>
    s.readPlace s.me (if repl || p.spot.repl then .replica else .tile) p.spot.place p.n)

/-- What a load brings: the state, its bytes, the address of an access that met a poisoned double, and what of it may bind later, each
place counted along the bytes. -/
structure Got where
  s   : State
  bs  : List Byte
  bad : Option Addr
  /-- What `bad` comes to: UE or POISON (R388). -/
  why : Nat := cPOISON
  may : Option Unbound := none

/-- The parts of accesses from a place on, each seen as a whole (R229): an aligned access of a power of two up to 16 bytes, else a byte. -/
def loadParts : Nat → List (Addr × List Piece) → List (Nat × Nat × Nat)
  | _, [] => []
  | pos, (_, ps) :: r =>
    let n := ps.foldl (fun n p => n + p.n) 0
    (ps.foldl (fun (x : Nat × List (Nat × Nat × Nat)) p =>
      let a := (p.spot.place.regionAddr).getD 0
      (x.1 + p.n, x.2 ++ if seenWhole a n then [(a, n, x.1)] else (List.range p.n).map fun j => (a + j, 1, x.1 + j))) (pos, [])).2 ++
    loadParts (pos + n) r

/-- A plain load of memory may bind later than it issues, at the machine's choice (R226, R229, log 7). -/
def State.bindsLate (s : State) (l : List (Addr × List Piece)) (repl : Bool) (ordq : Nat) : Option Unbound :=
  let ps := allPieces l
  if repl || ordered ordq || s.thr.region.isSome || !s.solo || s.poisoned ps ||
      (ps.any fun p => p.spot.ord == 1 || p.spot.repl || match p.spot.place with | .pa _ => false | _ => true) ||
      !Config.freeChoice s.fresh (2 ^ 70) then none
  else some { parts := loadParts 0 l, uo := ps.all fun p => p.spot.ord == 2 }

/-- The checks of R263 on accesses of the given sizes; every one is checked before any is made. -/
def State.checkAll (s : State) (kind : Kind) (align : Nat) : List (Addr × Nat) → Try (List (Addr × List Piece))
  | [] => .ok []
  | (a, n) :: r =>
    if a.toNat % align ≠ 0 then .error (.trap cMISALIGN a)
    else if s.walkHeld s.me a || s.walkHeld s.me (a + BitVec.ofNat 72 (n - 1)) then .error (.hold s.held_)
    else match s.pieces s.me kind a n with
      | .error (c, x) => .error (.trap c x)
      | .ok ps =>
        match s.checkAll kind align r with
        | .error e => .error e
        | .ok qs => .ok ((a, ps) :: qs)

/-- The place of an access that lies in one piece. -/
def placeOf (l : List (Addr × List Piece)) : Place :=
  match allPieces l with
  | p :: _ => p.spot.place
  | [] => .linNone

def State.noteAll (s : State) (l : List (Addr × List Piece)) : State := l.foldl (fun s e => s.noteTlb s.me e.1) s

/-- An ordered store of the thread is not performed at the wider of its scope and another (R227, R239). -/
def State.relBefore (s : State) (k : Key) (scope : Nat) : Bool :=
  let d := s.getDie (dieOf k.t)
  let mine := fun (x : Store) => x.rel != 0 && x.src.any fun e => e.1 == k
  ((((s.getTile k.t).fifo.filterMap FifoEnt.store?) ++ d.waitSt).any fun x => mine x && 2 ≤ Nat.max scope x.rel) ||
    d.pendB.any fun x => mine x && (x.merge || 3 ≤ Nat.max scope x.rel)

/-- What an ordered load waits for: the thread's older ordered stores, each performed at the wider of the two scopes (R227). -/
def State.ordHeld (s : State) (ordq : Nat) : Bool :=
  ordered ordq && (s.thr.owesStore != 0 || s.relBefore s.cur (ordScope ordq))

/-- A checked load of the thread outside regions cannot be bound yet: a sealed region is to write its line (R295), its line cannot be had
(R237, R244, R251), or, when it is ordered, an older ordered store of the thread is not performed (R227). -/
def State.loadHeld (s : State) (ps : List Piece) (ordq : Nat) : Bool :=
  s.sealedIn ps || s.missHeld s.cur.t ps || s.ordHeld ordq

/-- Loads by the thread in focus, their bytes in order (R263, R264). -/
def State.loadMany (s : State) (as : List (Addr × Nat)) (align : Nat := 1) (repl : Bool := false) (ordq : Nat := 0) : Try Got :=
  match s.checkAll .r align as with
  | .error r => .error r
  | .ok l =>
    let ps := allPieces l
    let n := ps.foldl (fun n p => n + p.n) 0
    if s.trails then
      match s.takeCopy with
      | .error r => .error r
      | .ok (t, v) => .ok { s := t, bs := getBytes v 0 n, bad := none }
    else if s.leadWaits ps ordq then .error (.hold s.held_)
    else match s.waits l with
      | some r => .error r
      | none =>
        let u := if s.thr.region.isNone then s.fillLoads s.cur.t s.ctx.pid ps else s
        if s.thr.region.isNone && u.loadHeld ps ordq then .error (.hold (s.want s.cur.t s.ctx.pid ps).held_)
        else match u.loadPieces ps repl with
          | .error r => .error r
          | .ok (t, bs) =>
            .ok { s := ((t.noteAll l).spoilDests ps).copyTo s.cur (BitVec.ofNat 1024 (ofLE bs)), bs := bs,
                  bad := (l.find? fun e => s.poisoned e.2).map (·.1),
                  why := ((l.find? fun e => s.poisoned e.2).map fun e => s.badCause e.2).getD cPOISON, may := s.bindsLate l repl ordq }

/-- A load of `n` bytes. -/
def State.load (s : State) (a : Addr) (n : Nat) (align : Nat := 1) (repl : Bool := false) (ordq : Nat := 0) : Try Got :=
  s.loadMany [(a, n)] align repl ordq

/-- A load whose every fault is the instruction's own: a fenced tile's RESPF is not deferred (R82, R362, R366). -/
def State.loadNow (s : State) (as : List (Addr × Nat)) (align : Nat := 1) : Try Got :=
  match ((s.checkAll .r align as).toOption.getD []).find? fun e => s.deadTile e.2 with
  | some e => if s.trails then s.loadMany as align else .error (.trap cRESPF e.1)
  | none => s.loadMany as align

/-- The parts of a load that bind as its result returns rather than when it issued, at the machine's choice (R226, R229). -/
def Unbound.now (u : Unbound) (s : State) : List (Nat × Nat × Nat) :=
  ((List.range u.parts.length).filter fun i => Config.freeChoice s.fresh (2 ^ 70 + 1 + i)).filterMap fun i =>
    (u.parts[i]?).filter fun q => !anyPoison s.poison q.1 q.2.1

/-- The accesses of parts of a load. -/
def partPieces (qs : List (Nat × Nat × Nat)) : List Piece := qs.map fun q => { spot := { place := .pa q.1 }, n := q.2.1 }

/-- The value of a load's destination with parts of it as the tile sees them now. -/
def State.rebind (s : State) (t : Nat) (u : Unbound) (qs : List (Nat × Nat × Nat)) (v : Vec) : Vec :=
  let v := qs.foldl (fun v q => putBytes v q.2.2 (bytesBy (s.tileLine t) q.1 q.2.1)) v
  match u.ext with
  | some sz => ofWord (extend sz (v.toNat % 2 ^ (8 * szBytes sz)))
  | none => v

/-- A load that is not bound yet binds (R225, R226, R229): none while the line of a part that binds now cannot be had. -/
def State.bindLoad (s : State) (k : Key) (p : Pend) : Option State :=
  match p.load with
  | none => some s
  | some u =>
    let qs := u.now s
    let ps := partPieces qs
    let t := s.fillLoads k.t (s.getCtx k.t k.c).pid ps
    if t.sealedIn ps || t.missHeld k.t ps then none
    else some (({ t with fresh := t.fresh + 1 } : State).modThread k fun x => x.modPend p.id fun p =>
      { p with load := none, dests := p.dests.map fun d => { d with v := t.rebind k.t u qs d.v } })

/-! ### Stores -/

/-- No pending bytes of the tile's die are still to be performed at a scope, of its own stores, nor, at device scope and beyond, of those
that its threads may have read there (R223, R239). -/
def State.pendPerformed (s : State) (t scope : Nat) : Bool :=
  (s.getDie (dieOf t)).pendB.all fun x => if x.merge then x.tile != t else scope < 3

/-- Every store and RED of the tile is performed at a scope (R238). -/
def State.performedAt (s : State) (t scope : Nat) : Bool :=
  s.dieDrained t && s.pendPerformed t scope && s.reds.all fun r => r.tile != t

/-- How the thread's store to a piece goes (R226 to R228): SO and release stores at die scope or wider wait for their
performance; those at device scope or wider, and SO ones, are performed when merged. -/
def storeWay (drop : Bool) (ordq : Nat) (k : Key) (id : Nat) (p : Piece) : StoreWay :=
  let so := p.spot.ord == 1
  let rel := ordered ordq && 2 ≤ ordScope ordq
  { drop := drop, scope := if so then 5 else if rel then ordScope ordq else 1,
    merge := so || (rel && 3 ≤ ordScope ordq), owner := if so || rel then some (k, id) else none
    rel := if ordered ordq then ordScope ordq else 0 }

/-- Writes the pieces of a store; none when the skim pool is exhausted (R151). -/
def State.storePieces (s : State) (drop : Bool) (ordq : Nat) : List Piece → List Byte → Option State
  | [], _ => some s
  | p :: r, bs =>
    match s.writePlace s.me (storeWay drop ordq s.cur s.fresh p) p.spot.place (bs.take p.n) with
    | none => none
    | some t => t.storePieces drop ordq r (bs.drop p.n)

/-- Writes the pieces of a region's store: memory and lineage into its buffer, other places at once (R285, R286). -/
def State.regionStore (s : State) : List Piece → List Byte → Option State
  | [], _ => some s
  | p :: r, bs =>
    let cut := bs.take p.n
    match p.spot.place with
    | .pa a => (s.regionWrite a cut).regionStore r (bs.drop p.n)
    | .lin pid node off _ =>
      match (s.getPart pid).nodeWrite node off cut, p.spot.place.regionAddr with
      | some _, some a => (s.regionWrite a cut).regionStore r (bs.drop p.n)
      | _, _ => none
    | q => (s.writePlace s.me {} q cut).bind fun t => t.regionStore r (bs.drop p.n)

/-- The scope at which everything older must be performed before an ordered access: its own when it is a release at die scope or wider, and
that of the thread's ordered stores that are not performed (R227, R238); below 2 it needs no marker. -/
def State.relScope (s : State) (ordq : Nat) : Nat :=
  if ordered ordq then Nat.max (if 2 ≤ ordScope ordq then ordScope ordq else 0) s.thr.owesStore else 0

/-- Stores to the pieces are more than the FIFO holds, with their marker: they enter it when it is empty, and go on from there (R238). -/
def tooMany (ps : List Piece) : Bool := 63 < runsOf none (pieceLines ps)

/-- The FIFO has room for a store to the pieces, with a marker before it (R35, R238). -/
def State.fifoRoom (s : State) (t : Nat) (ps : List Piece) (scope : Nat) : Bool :=
  let q := (s.getTile t).fifo
  let mark := 2 ≤ scope && !(pieceLines ps).isEmpty
  if tooMany ps then q.isEmpty && (!mark || s.performedAt t scope)
  else fifoCount none q + (if mark then 1 else 0) + runsOf (if mark then none else youngest q) (pieceLines ps) ≤ 64

/-- A release at die scope or wider puts a marker before its store (R238). -/
def State.marker (s : State) (scope : Nat) (owner : Option (Key × Nat)) : State :=
  { s with tile := { s.tile with fifo := s.tile.fifo ++ [.marker scope owner] } }

/-- The store waits for its performance: it has a pending entry (R228). -/
def storePend (ordq : Nat) (ps : List Piece) : Option Nat :=
  let mem := ps.filter fun p => match p.spot.place with | .pa _ => true | _ => false
  if mem.any fun p => p.spot.ord == 1 then some 5
  else if ordered ordq && 2 ≤ ordScope ordq && !mem.isEmpty then some (ordScope ordq)
  else none

/-- A release or full fence of the thread is not complete: a store performed at once waits for it (R227). -/
def Thread.owesFence (x : Thread) : Bool := x.pend.any fun p => match p.what with | .fence _ _ => true | _ => false

/-- A place that a store reaches through the tile's FIFO. -/
def Piece.isMem (p : Piece) : Bool := match p.spot.place with | .pa _ => true | _ => false

/-- A store performed at once may be made: everything it must follow is performed (R227, R238). -/
def State.mayPerform (s : State) (ordq : Nat) : Bool :=
  !s.thr.owesFence && !(ordered ordq && s.thr.owesRmw) &&
  (!(2 ≤ s.relScope ordq) || s.performedAt s.cur.t (s.relScope ordq))

/-- A piece whose home die has failed (R391). -/
def State.onFailedDie (s : State) (p : Piece) : Bool := s.placeFailed p.spot.place

/-- What a program's store does to sync objects that are outstanding (R198). -/
def State.spoilPieces (s : State) (ps : List Piece) : State := ps.foldl (fun s p => s.spoilAt p.spot.place p.n) s

/-- The address of the first access whose write the skim pool cannot supply (R151). -/
def State.lpoolAt (s : State) (drop : Bool) (ordq : Nat) : List (Addr × List Piece) → List Byte → Addr
  | [], _ => 0
  | (a, ps) :: r, bs =>
    let n := ps.foldl (fun n p => n + p.n) 0
    match (if s.inRegion then s.regionStore ps (bs.take n) else s.storePieces drop ordq ps (bs.take n)) with
    | none => a
    | some t => t.lpoolAt drop ordq r (bs.drop n)

/-- A store of the thread cannot be made yet: what it must follow is not performed, or the FIFO has no room (R35, R227, R238). -/
def State.storeBlocked (s : State) (ps : List Piece) (ordq : Nat) : Bool :=
  !s.inRegion && ((ps.any (fun p => !p.isMem) && !s.mayPerform ordq) || !s.fifoRoom s.cur.t ps (s.relScope ordq))

/-- Stores to the pieces are put on their way, behind the marker that an ordered one needs (R238). -/
def State.sendStores (s : State) (drop : Bool) (ordq : Nat) (ps : List Piece) (bs : List Byte) : Option State :=
  let m := if 2 ≤ s.relScope ordq && !(pieceLines ps).isEmpty && !tooMany ps then s.marker (s.relScope ordq) none else s
  (m.storePieces drop ordq ps bs).map fun t => if tooMany ps then t.sendExcess t.cur.t else t

/-- Performs a checked store (R227, R228, R238, R264); one homed on a failed die completes with RESPF (R391). -/
def State.storeOut (s : State) (a : Addr) (l : List (Addr × List Piece)) (bs : List Byte) (ordq : Nat) (drop : Bool) : Res :=
  let ps := allPieces l
  if ps.any s.onFailedDie then .done ((s.noteAll l).late [] (some (cRESPF, a)))
  else
  let s := (s.noteAll l).regionTouch ps true
  if (s.thr.region.bind (·.doom)).isSome then s.settle
  else if s.inRegion then
    match s.regionStore ps bs with
    | some t => .done (t.spoilPieces ps)
    | none => .trap cLPOOL (s.lpoolAt drop ordq l bs)
  else
    if s.storeBlocked ps ordq then .hold s.held_
    else
      match (s.sendStores drop ordq ps bs).map (·.spoilPieces ps) with
      | none => .trap cLPOOL (s.lpoolAt drop ordq l bs)
      | some t =>
        match storePend ordq ps with
        | some scope => .done (t.leave (.store scope) [])
        | none => .done t

/-- A store of a trailed thread may wait in the comparator while the thread goes on (R228, R393): a plain one, outside regions, of memory or of
the unit's own scratchpad (log 14). -/
def State.runsAhead (s : State) (l : List (Addr × List Piece)) (ordq : Nat) : Bool :=
  let ps := allPieces l
  s.thr.region.isNone && !ordered ordq && (storePend ordq ps).isNone && ps.all fun p =>
    match p.spot.place with | .pa _ => true | .sram t _ => t == s.cur.t | _ => false

/-- A store that waited in the comparator of a thread is performed (R393); none while it has to wait. A condition that it meets comes with its
response (R39). -/
def State.releaseStore (s : State) (k : Key) (p : Pend) (h : HeldStore) : Option State :=
  let u := s.focus k
  let x := u.thr
  let fail := fun (c : Nat) (a : Addr) =>
    ({ u with thr := x.modPend p.id fun q => { q with what := .ready, cond := some (c, a) } } : State).focus s.cur
  if (allPieces h.l).any u.onFailedDie then some (fail cRESPF h.a)
  else match ({ u with thr := { x with region := none, pc := p.pc } } : State).storeOut h.a h.l h.bs 0 h.drop with
    | .done t => some (({ t with thr := { x with pend := x.pend.filter (·.id != p.id) } } : State).focus s.cur)
    | .trap c a => some (fail c a)
    | _ => none

/-- What the comparator makes of a store (R393). A trailing thread's performs the leading one's oldest, when they are the same. -/
def State.compareStore (s : State) (a : Addr) (l : List (Addr × List Piece)) (bs : List Byte) (ordq : Nat) (drop : Bool) : Try State :=
  let item := [a.toNat, bs.length, ofLE bs]
  if s.trails then
    let k : Key := ⟨s.cur.t, s.cur.c, s.cur.i - 1⟩
    match (s.getThread k).heldStores with
    | (p, h) :: _ =>
      if h.item = a.toNat :: item then
        match s.releaseStore k p h with
        | some t => .error (.done t)
        | none => .error (.hold s.held_)
      else s.compare a item
    | [] => s.compare a item
  else if s.trailed && s.runsAhead l ordq && s.thr.cmpq.isNone then
    if 32 ≤ s.thr.heldStores.length then .error (.hold s.held_)
    else .error (.done (s.leave (.held { a := a, l := l, bs := bs, drop := drop }) []))
  else s.compare a item

/-- Stores by the thread in focus, in order (R263, R264). -/
def State.storeMany (s : State) (as : List (Addr × List Byte)) (ordq : Nat) (align : Nat := 1) (drop : Bool := false) : Res :=
  match s.checkAll .w align (as.map fun e => (e.1, e.2.length)) with
  | .error r => r
  | .ok l =>
    match s.waits l with
    | some r => r
    | none =>
      let bs := as.flatMap (·.2)
      let a := (as.map (·.1)).headD 0
      if ordered ordq && s.thr.owesRmw || s.storeBlocked (allPieces l) ordq then .hold s.held_
      else match s.compareStore a l bs ordq drop with
        | .error r => r
        | .ok t => t.storeOut a l bs ordq drop

/-- A store of bytes at an address. -/
def State.storeAt (s : State) (a : Addr) (bs : List Byte) (ordq : Nat) (align : Nat := 1) (drop : Bool := false) : Res :=
  s.storeMany [(a, bs)] ordq align drop

/-- A load's result: its value after the response, or the condition that came with it (R38, R39, R388). `fix` says where in the register
the parts lie that may bind later. -/
def Got.late (g : Got) (ds : List (Reg × Vec)) (fix : Unbound → Unbound := id) : Res :=
  .done (g.s.leaveLoad ds (g.bad.map fun a => (g.why, a)) (g.may.map fix))

/-- The end of a step that may have ended the instruction. -/
def Try.into {α : Type} (x : Try α) (f : α → Res) : Res :=
  match x with
  | .error r => r
  | .ok a => f a

end Sys2Proof.Machine
end

