-- ==== Sys2Proof/Machine/Atomics.lean ====
section
/-! DEFINITION. Atomics, reservations, RED, APPEND, WRS and the fences, opcodes 0x180 to 0x189, and the grants and releases of
reservations (R227, R272 to R283, R426, R427). -/

namespace Sys2Proof.Machine

/-! ### Operations -/

/-- The new value of AMO and RED (R274); `tile` is the requesting tile. -/
def amoNew (fn n tile : Nat) (old x : Nat) : Nat :=
  let w := 8 * n
  let so := sgn w old
  let sx := sgn w x
  (match fn with
   | 0 => x
   | 1 => old + x
   | 2 => Nat.land old x
   | 3 => Nat.lor old x
   | 4 => Nat.xor old x
   | 5 => if so < sx then old else x
   | 6 => if so < sx then x else old
   | 7 => Nat.min old x
   | 8 => Nat.max old x
   | _ => ((readF32 old).add (readF32 x) (payloadOf tile 0)).pack fp32) % 2 ^ w

/-- The value that an atomic writes, if it writes one: 0 AMO, 1 CAS, 4 SC (R273 to R276). -/
def atomicNew (op fn n tile : Nat) (old x y : Word) : Option Word :=
  match op with
  | 0 => some (BitVec.ofNat 64 (amoNew fn n tile old.toNat (x.toNat % 2 ^ (8 * n))))
  | 1 => if old.toNat = x.toNat % 2 ^ (8 * n) then some (BitVec.ofNat 64 (y.toNat % 2 ^ (8 * n))) else none
  | 4 => some (BitVec.ofNat 64 (x.toNat % 2 ^ (8 * n)))
  | _ => none

/-- The line that an LR reservation names, and the tile that keeps it for a scratchpad (R276, R427). -/
def Place.resvLine : Place → Option Nat × Nat
  | .sram t b => (some t, lineOf b)
  | .dev off => (none, lineOf (0x4000000000000 + off))
  | p => (none, lineOf (p.regionAddr.getD 0))

/-- A trailing thread's atomic or message (R393): it is compared, then its value comes from the load-value queue. -/
def State.trailValue (s : State) (a : Addr) (item : List Nat) (r : Reg) : Res :=
  match s.thr.lvq with
  | _ :: _ => s.takeCopy.into fun x => .done (x.1.late [(r, x.2)])
  | [] =>
    match s.compare a item with
    | .error (.done t) => .hold t.held_
    | .error e => e
    | .ok t => .hold t.held_

/-- Requests of a tile that occupy reservation buffers (R273, R277). -/
def State.buffersUsed (s : State) (t : Nat) : Nat :=
  (s.resvq.map fun e => (e.2.filter fun q => q.who.t == t).length).sum + (s.reds.filter fun r => r.tile == t).length

/-- A read-modify-write in one step at a place that keeps no queue (R273): the old value goes to `d`. -/
def State.atomicHere (s : State) (p : Place) (ea : Addr) (bad : Bool) (op fn n : Nat) (x y : Word) (d : Nat) : Res :=
  let old := BitVec.ofNat 64 (ofLE (s.readPlace s.me .tile p n))
  let give := fun (t : State) =>
    let t := if op = 4 then t else t.spoilDests [{ spot := { place := p }, n := n }]
    let v := if op = 4 then 0 else ofWord old
    let cond := if bad then some (s.badCause [{ spot := { place := p }, n := n }], ea) else none
    Res.done ((t.copyTo t.cur v).late [(.s d, v)] cond)
  match if bad then none else atomicNew op fn n s.cur.t old x y with
  | none => give s
  | some v =>
    match s.writePlace s.me {} p (toLE n v.toNat) with
    | none => .trap cLPOOL ea
    | some t => give (t.spoilAt p n)

/-- The reading at which a request of the thread in focus reaches a line's home slice: not before those of its tile on the way to that slice
(R253), and otherwise as the fabric has it (log 83). -/
def State.arrivalAt (s : State) (l : Nat) : Nat :=
  let there := fun (m : Nat) => s.queueAgent m == s.queueAgent l && sliceOf m == sliceOf l
  let queued := s.resvq.flatMap fun e => if there e.1 then (e.2.filter fun q => q.who.t == s.cur.t).map (·.at_) else []
  let reds := (s.reds.filter fun r => r.tile == s.cur.t && (r.at_.line).any fun m => m.1.isNone && there m.2).map (·.time)
  (queued ++ reds).foldl Nat.max (s.plumb + Config.delay s.fresh)

/-- The number of a thread on the part, by which requests of one cycle are ordered (R273). -/
def Key.order (k : Key) : Nat := 32 * k.t + 8 * k.c + k.i

/-- A request that arrives at one reading comes before another's (R273). -/
def comesFirst (a : Nat) (k : Key) (b : Nat) (m : Key) : Bool := a < b || (a == b && k.order < m.order)

/-- A RED on a line of memory. -/
def Red.on (r : Red) (l : Nat) : Bool := match r.at_ with | .pa a => lineOf a == l | _ => false

/-- A request takes its place in a line's queue (R273): by arrival, and of one cycle by tile and thread; a granted one keeps the head. -/
def insertReq (q : ResvReq) : List ResvReq → List ResvReq
  | [] => [q]
  | r :: w =>
    if !r.granted && comesFirst q.at_ q.who r.at_ r.who then q :: r :: w else r :: insertReq q w

/-- The thread's LR waits for its grant: another LR or an SC waits for it (R276). -/
def State.lrPending (s : State) (k : Key) : Bool := s.resvq.any fun e => e.2.any fun q => q.who == k && q.op == 3 && !q.granted

/-- An atomic of the thread in focus on memory joins the queue of the line (R273). -/
def State.joinQueue (s : State) (va : Addr) (a op fn n : Nat) (x y : Word) (acq : Bool) (d : Nat) : State :=
  let l := lineOf a
  let w := SMap.get [] s.resvq l
  let q : ResvReq :=
    { who := s.cur, pend := s.fresh, op := op, fn := fn, size := n, a := a, va := va, x := x, y := y,
      pid := s.ctx.pid, launch := s.ctx.launch, at_ := s.arrivalAt l }
  ({ s with resvq := SMap.put s.resvq l (insertReq q w) } : State).leave (.atomic acq) [(.s d, 0)]

/-- An atomic of a region: a region load and a region store of its line (R287); in an irrevocable region an ordinary load and an ordinary
store (R298). -/
def State.regionAtomic (s : State) (l : List (Addr × List Piece)) (ea : Addr) (op fn n : Nat) (x y : Word) (d : Nat) : Res :=
  let ps := allPieces l
  if s.storeBlocked ps 0 then .hold s.held_
  else (s.compare ea [0x181 + op, ea.toNat, n, fn, x.toNat, y.toNat]).into fun s =>
    (s.loadPieces ps false).into fun g =>
      let g := (g.1.spoilDests ps, g.2)
      let old := BitVec.ofNat 64 (ofLE g.2)
      let v := if op = 4 then 0 else ofWord old
      let cond := if s.poisoned ps && op != 4 then some (s.badCause ps, ea) else none
      match if cond.isSome then none else atomicNew op fn n s.cur.t old x y with
      | none => .done ((g.1.copyTo s.cur v).late [(.s d, v)] cond)
      | some z =>
        match g.1.storeOut ea l (toLE n z.toNat) 0 false with
        | .done t => .done ((t.copyTo t.cur v).late [(.s d, v)] cond)
        | r => r

/-- AMO and CAS of the thread in focus (R263, R272 to R275). -/
def atomic (s : State) (f : FAtom) (op : Nat) : Res :=
  let ea := s.eaAtom f
  let n := szBytes f.sz
  let x := s.rs f.a 2
  let y := s.rs f.b 3
  (s.checkAll .rw n [(ea, n)]).into fun l =>
    let ps := allPieces l
    let item := [0x181 + op, ea.toNat, n, f.fn, x.toNat, y.toNat]
    if s.trails then s.trailValue ea item (.s f.d)
    else match s.waits l with
    | some r => r
    | none =>
      if s.thr.region.isSome then s.regionAtomic l ea op f.fn n x y f.d
      else if !s.mayPerform f.ordq || s.sealedIn ps then .hold s.held_
      else if s.placeFailed (placeOf l) then .done ((s.noteAll l).late [(.s f.d, 0)] (some (cRESPF, ea)))
      else match placeOf l with
      | .pa a =>
        if !s.drained s.cur.t (lineOf a) || 16 ≤ s.buffersUsed s.cur.t then .hold s.held_
        else (s.compare ea item).into fun t =>
          let acq := ordered f.ordq || ps.any fun p => p.spot.ord == 1
          .done ((t.noteAll l).joinQueue ea a op f.fn n x y acq f.d)
      | p => (s.compare ea item).into fun t => (t.noteAll l).atomicHere p ea (s.poisoned ps) op f.fn n x y f.d

def execAmo (k : Ctl) (f : FAtom) (s : State) : Out := run 0x182 k [.s f.d, .s f.a] (fun s => atomic s f 0) s
def execCas (k : Ctl) (f : FAtom) (s : State) : Out := run 0x183 k [.s f.d, .s f.a, .s f.b] (fun s => atomic s f 1) s

/-- LR (R276, R427): the thread's earlier reservation ends. -/
def loadReserve (s : State) (f : FM) : Res :=
  let ea := s.ea f
  let n := szBytes f.sz
  (s.checkAll .rw n [(ea, n)]).into fun l =>
    let ps := allPieces l
    if s.trails then s.takeCopy.into fun x => .done (x.1.late [(.s f.d, x.2)])
    else match s.waits l with
    | some r => r
    | none =>
      if s.lvqFull || s.lrPending s.cur then .hold s.held_
      else if s.thr.region.isSome then
        (s.loadPieces ps false).into fun x =>
          let v := BitVec.ofNat 1024 (ofLE x.2)
          .done (((x.1.spoilDests ps).copyTo s.cur v).late [(.s f.d, v)] (if s.poisoned ps then some (s.badCause ps, ea) else none))
      else if !s.mayPerform f.ordq || s.sealedIn ps then .hold s.held_
      else
        let p := placeOf l
        let t := (s.dropResv s.cur).noteAll l
        if s.placeFailed p then .done (t.late [(.s f.d, 0)] (some (cPOISON, ea)))
        else match p with
        | .pa a =>
          if !s.drained s.cur.t (lineOf a) || 16 ≤ s.buffersUsed s.cur.t then .hold s.held_
          else .done (t.joinQueue ea a 3 0 n 0 0 (ordered f.ordq || ps.any fun p => p.spot.ord == 1) f.d)
        | _ =>
          let v := BitVec.ofNat 1024 (ofLE (s.readPlace s.me .tile p n))
          let r := p.resvLine
          let u : State := { t with thr := { t.thr with
            resv := some { line := r.2, size := n, since := t.plumb, scratch := r.1 } } }
          .done (((u.spoilDests ps).copyTo u.cur v).late [(.s f.d, v)] (if s.poisoned ps then some (s.badCause ps, ea) else none))

def execLr (k : Ctl) (f : FM) (s : State) : Out := run 0x180 k [.s f.d, .s f.idx] (fun s => loadReserve s f) s

/-- The thread holds an unbroken reservation on the line of a place, of the size, granted less than 1,024 cycles ago (R276). -/
def Thread.reserves (x : Thread) (plumb : Nat) (p : Place) (n : Nat) : Bool :=
  x.resv.any fun r => !r.broken && r.size == n && (r.scratch, r.line) == p.resvLine && plumb < r.since + 1024

/-- A granted LR of the thread on the line becomes its SC (R276). -/
def State.turnIntoSC (s : State) (l n a : Nat) (x : Word) : State :=
  let q := (SMap.get [] s.resvq l).map fun q =>
    if q.who = s.cur ∧ q.op = 3 then
      { q with op := 4, pend := s.fresh, size := n, a := a, x := x, new := some (BitVec.ofNat 64 (x.toNat % 2 ^ (8 * n))), old := 0 }
    else q
  { s with resvq := SMap.set [] s.resvq l q, thr := { s.thr with resv := none } }

/-- SC (R276, R287, R427). -/
def storeCond (s : State) (f : FAtom) : Res :=
  let ea := s.eaAtom f
  let n := szBytes f.sz
  let x := s.rs f.a 2
  (s.checkAll .rw n [(ea, n)]).into fun l =>
    let ps := allPieces l
    let p := placeOf l
    let item := [0x181, ea.toNat, n, x.toNat]
    if s.trails then s.trailValue ea item (.s f.d)
    else match s.waits l with
    | some r => r
    | none =>
      if s.thr.region.isSome then s.regionAtomic l ea 4 0 n x 0 f.d
      else if s.placeFailed p then .done ((s.dropResv s.cur).late [(.s f.d, 1)] (some (cRESPF, ea)))
      else if !s.mayPerform f.ordq || s.lrPending s.cur || (match p with | .pa a => !s.drained s.cur.t (lineOf a) | _ => false) then .hold s.held_
      else (s.compare ea item).into fun t =>
        if t.thr.reserves t.plumb p n then
          match p with
          | .pa a =>
            .done ((t.turnIntoSC (lineOf a) n a x).leave (.atomic (ordered f.ordq || ps.any fun p => p.spot.ord == 1)) [(.s f.d, 0)])
          | _ => ({ t with thr := { t.thr with resv := none } } : State).atomicHere p ea false 4 0 n x 0 f.d
        else .done (((t.dropResv t.cur).copyTo t.cur 1).late [(.s f.d, 1)])

def execSc (k : Ctl) (f : FAtom) (s : State) : Out := run 0x181 k [.s f.d, .s f.a] (fun s => storeCond s f) s

/-! ### RED -/

/-- Changes a launch. -/
def State.modLaunch (s : State) (p l : Nat) (f : Launch → Launch) : State :=
  match SMap.find (s.getPart p).launches l with
  | none => s
  | some x => s.modPart p fun y => { y with launches := SMap.put y.launches l (f x) }

/-- Places a RED in a reservation buffer; the launch counter holds it (R277, R40). -/
def State.placeRed (s : State) (at_ : Place) (f : FAtom) (x : Word) (fault : Option (Nat × Addr)) (so : Bool := false) : State :=
  let r : Red :=
    { pid := s.ctx.pid, launch := s.ctx.launch, tile := s.cur.t, at_ := at_, fn := f.fn, size := szBytes f.sz, x := x, fault := fault,
      who := s.cur, id := s.fresh, acq := ordered f.ordq && fault.isNone, so := so
      time := match at_ with | .pa a => s.arrivalAt (lineOf a) | _ => s.plumb }
  ({ s with reds := s.reds ++ [r] } : State).modLaunch s.ctx.pid s.ctx.launch fun y => { y with count := y.count + 1 }

/-- RED (R274, R277): a failed walk that no cached translation could show is found after it has returned. -/
def redIssue (s : State) (f : FAtom) : Res :=
  let ea := s.eaAtom f
  let n := szBytes f.sz
  let x := s.rs f.a 2
  let item := [0x184, ea.toNat, n, f.fn, x.toNat]
  let late := bits ea.toNat 64 8 < 0xFE && ((s.getTile s.cur.t).tlbFind s.ctx.pid (bits s.ctx.ptbr.toNat 52 12) ea.toNat false).isNone
  if ea.toNat % n ≠ 0 then .trap cMISALIGN ea
  else if !s.mayPerform f.ordq || 16 ≤ s.buffersUsed s.cur.t then .hold s.held_
  else match s.checkAll .rw n [(ea, n)] with
  | .error (.trap c a) =>
    if late then (s.compare ea item).into fun t => .done (t.placeRed .linNone f x (some (c, ea))) else .trap c a
  | .error r => r
  | .ok l =>
    match s.waits l with
    | some r => r
    | none =>
      if s.placeFailed (placeOf l) then (s.compare ea item).into fun t => .done (t.placeRed .linNone f x (some (cRESPF, ea)))
      else match placeOf l with
      | .pa a =>
        if !s.drained s.cur.t (lineOf a) then .hold s.held_
        else (s.compare ea item).into fun t => .done ((t.noteAll l).placeRed (.pa a) f x none ((allPieces l).any fun p => p.spot.ord == 1))
      | p => (s.compare ea item).into fun t =>
        let old := ofLE (s.readPlace s.me .tile p n)
        let v := amoNew f.fn n s.cur.t old (x.toNat % 2 ^ (8 * n))
        match t.writePlace t.me {} p (toLE n v) with
        | some u => .done ((u.spoilAt p n).noteAll l)
        | none => if late then .done (t.placeRed .linNone f x (some (cLPOOL, ea))) else .trap cLPOOL ea

def execRed (k : Ctl) (f : FAtom) (s : State) : Out := run 0x184 k [.s f.a] (fun s => redIssue s f) s

/-! ### APPEND and the inbox -/

/-- The scope at which a task message is a release: die, or device beyond it (R255). -/
def msgScope (src dst : Nat) : Nat := if dieOf src = dieOf dst then 2 else 3

/-- APPEND, send (R280, R281). -/
def appendSend (s : State) (f : FAppend) : Res :=
  let t := s.rs f.t
  let dst := t.toNat % 4096
  let data := (List.range f.n).map fun j => s.rs (f.a + j) (2 + j)
  let item := [0x185, t.toNat] ++ data.map (·.toNat)
  if bits t.toNat 12 20 ≠ 0 then .trap cILLOP 0
  else if s.ownerOf dst ≠ s.ctx.pid then .trap cPARTITION (BitVec.ofNat 72 t.toNat)
  else if s.trails then s.trailValue 0 item (.s f.d)
  else if s.thr.owesFence || s.thr.owesRmw || !s.performedAt s.cur.t (msgScope s.cur.t dst) then .hold s.held_
  else (s.compare 0 item).into fun u =>
    let m : Msg := .append u.cur u.fresh u.ctx.pid u.ctx.launch u.ctx.vtile dst (bits t.toNat 32 32) data
    .done (({ u with msgs := u.msgs ++ [m] } : State).leave .msg [(.s f.d, 0)])

/-- A result of the inbox instructions, which a trailing thread takes from the leading one (R393). -/
def inboxResult (s : State) (d v : Nat) : Res := .done ((s.copyTo s.cur (BitVec.ofNat 1024 v)).late [(.s d, BitVec.ofNat 1024 v)])
def trailTake (s : State) (d : Nat) (r : Unit → Res) : Res :=
  if s.trails then s.takeCopy.into fun x => .done (x.1.late [(.s d, x.2)]) else r ()

/-- Entries in an inbox. -/
def Inbox.count (x : Inbox) : Nat := (x.tail + 2 ^ 32 - x.head) % 2 ^ 32

/-- APPEND.CFG (R281). -/
def appendCfg (s : State) (f : FAppend) : Res :=
  let n := (s.rs f.a 2).toNat
  let b := (s.ra f.ar 3).toNat
  if 1024 < n then .trap cILLOP 0
  else if b % 128 ≠ 0 then .trap cMISALIGN (BitVec.ofNat 72 b)
  else if s.ctx.scratch < b + 128 * n then .trap cPERM (BitVec.ofNat 72 b)
  else trailTake s f.d fun _ =>
    if s.ctx.inbox.count ≠ 0 then inboxResult s f.d 1
    else
      let t : State := { s with ctx := { s.ctx with inbox := { en := n != 0, base := b, nent := n, head := 0, tail := 0 } } }
      inboxResult (t.sramFull t.cur.t ((t.ctx.ubase + b) / 8) (16 * n) false) f.d 0

/-- The first byte of SRAM of entry `i` of a context's inbox (R279). -/
def Ctx.inboxByte (c : Ctx) (i : Nat) : Nat := c.ubase + c.inbox.base + 128 * (i % c.inbox.nent)

/-- APPEND.POP (R281). -/
def appendPop (s : State) (f : FAppend) : Res :=
  if s.thr.pend.any fun p => match p.what with | .ready | .atomic _ => true | _ => false then .hold s.held_
  else trailTake s f.d fun _ =>
    let x := s.ctx.inbox
    if x.count = 0 then inboxResult s f.d 1
    else
      let b := s.ctx.inboxByte x.head
      let t : State := { s with ctx := { s.ctx with inbox := { x with head := (x.head + 1) % 2 ^ 32 } } }
      inboxResult (t.sramFull t.cur.t (b / 8) 16 false) f.d 0

/-- APPEND.STAT (R281). -/
def appendStat (s : State) (f : FAppend) : Res :=
  trailTake s f.d fun _ =>
    let x := s.ctx.inbox
    inboxResult s f.d (fields [(0, x.count % 2048), (16, x.nent % 2048), (27, b2n x.en), (32, if x.nent = 0 then 0 else x.head % x.nent)])

def execAppend (k : Ctl) (f : FAppend) (s : State) : Out :=
  run 0x185 k (.s f.d :: .s f.t :: (List.range f.n).map fun j => .s (f.a + j)) (fun s => appendSend s f) s
def execAppendCfg (k : Ctl) (f : FAppend) (s : State) : Out := run 0x185 k [.s f.d, .s f.a] (fun s => appendCfg s f) s
def execAppendPop (k : Ctl) (f : FAppend) (s : State) : Out := run 0x185 k [.s f.d] (fun s => appendPop s f) s
def execAppendStat (k : Ctl) (f : FAppend) (s : State) : Out := run 0x185 k [.s f.d] (fun s => appendStat s f) s

/-! ### WRS -/

/-- Monitor entries in use where the line of a place is monitored: at its slice on a die, or at a tile (R282). -/
def State.monitors (s : State) (d : Nat) (p : Place) : Nat :=
  let same := fun (k : Key) (x : Thread) =>
    match x.wait with
    | .wrs q _ true =>
      match p.line, q.line with
      | some (none, l), some (none, m) => dieOf k.t == d && sliceOf l == sliceOf m
      | some (some t, _), some (some u, _) => t == u
      | _, _ => false
    | _ => false
  (s.threads.filter fun e => same (keyOf e.1) e.2).length + b2n (same s.cur s.thr)

/-- The double at a place as WRS reads it: at the line's slice (R282). -/
def State.wrsRead (s : State) (w : Who) (p : Place) : Word := BitVec.ofNat 64 (ofLE (s.readPlace w .slice p 8))

/-- The thread's tile has no store to the line before the slice. -/
def State.sent (s : State) (t : Nat) (p : Place) : Bool :=
  match p with
  | .pa a =>
    ((s.getTile t).fifo.filterMap FifoEnt.store?).all (fun x => lineOf x.a != lineOf a) &&
    (s.getDie (dieOf t)).waitSt.all fun x => x.tile != t || lineOf x.a != lineOf a
  | _ => true

/-- The die of the thread's tile holds the line of a place, so that every store to it elsewhere reaches the die as a probe (R245, R282). -/
def State.lineHere (s : State) (p : Place) : Bool :=
  match p with
  | .pa a => (s.held (s.agentOf (dieOf s.cur.t)) (lineOf a)).isSome
  | _ => true

/-- WRS (R282). -/
def waitStore (s : State) (f : FM) : Res :=
  match s.thr.retry with
  | some v => takeRetry' s f.d v
  | none =>
    let ea := s.ea f
    (s.checkAll .r 8 [(ea, 8)]).into fun l =>
      let p := placeOf l
      if s.trails then s.takeCopy.into fun x => .done (x.1.late [(.s f.d, x.2)])
      else if s.lvqFull then .hold s.held_
      else match s.waits l with
      | some r => r
      | none =>
        let s := match p with | .pa a => s.shareIn (s.agentOf (dieOf s.cur.t)) (lineOf a) s.ctx.pid | _ => s
        if !s.sent s.cur.t p || s.sealedIn (allPieces l) || s.ordHeld f.ordq || !s.lineHere p then .hold s.held_
        else
          let v := s.wrsRead s.me p
          let bad := s.poisoned (allPieces l)
          if bad || v != s.rs f.d 3 then
            .done ((((s.noteAll l).spoilDests (allPieces l)).copyTo s.cur (ofWord v)).late [(.s f.d, ofWord v)] (if bad then some (s.badCause (allPieces l), ea) else none))
          else if s.monitors (dieOf s.cur.t) p < (match p with | .sram _ _ => 16 | _ => 64) then
            .hold { s with thr := { s.thr with wait := .wrs p 0 true } }
          else .hold { s with thr := { s.thr with wait := .wrs p (s.plumb + 256) false } }
where
  /-- Puts the value read at the wake into the register. -/
  takeRetry' (s : State) (d : Nat) (v : Word) : Res :=
    .done ((({ s with thr := { s.thr with retry := none } } : State).copyTo s.cur (ofWord v)).late [(.s d, ofWord v)])

def execWrs (k : Ctl) (f : FM) (s : State) : Out := run 0x186 k [.s f.d, .s f.idx] (fun s => waitStore s f) s

/-! ### Fences -/

/-- FENCE (R227, R238, R283): it waits for the older atomics, and for the older loads to be bound; a release
or full fence leaves a marker in the FIFO unless everything older is performed. -/
def fence (s : State) (f : FFence) : Res :=
  if s.thr.region.isSome || s.trails || f.scope = 0 then .done s
  else if s.thr.owesRmw || s.thr.unbound || s.hasRed s.cur then .hold s.held_
  else if f.kind = 0 then .done s
  else if f.scope = 1 then (if s.reds.any fun r => r.tile == s.cur.t then .hold s.held_ else .done s)
  else if s.performedAt s.cur.t f.scope && !s.thr.owesSo && !s.thr.owesFence then .done s
  else if 64 ≤ fifoCount none s.tile.fifo then .hold s.held_
  else .done ((s.marker f.scope (some (s.cur, s.fresh))).leave (.fence f.kind f.scope) [])

def execFence (k : Ctl) (f : FFence) (s : State) : Out := run 0x188 k [] (fun s => fence s f) s

/-- FENCEE (R283): `w` is the wait that the thread was in, with the counts that its engines are to reach. An MU that an error in its data
stopped has retired the command (R188), which may be the last one covered. One that covers nothing returns 0. -/
def fenceEngines (s : State) (f : FFence) (w : Wait) : Res :=
  if s.trails then s.takeCopy.into fun x => .done (x.1.late [(.s f.d, x.2)])
  else
    let m := s.ctx.mu
    let c := s.ctx.cu
    let goal := match w with | .fencee x y => (x, y) | _ => (m.ended + m.q.length, c.ended + c.q.length)
    let none_ := match w with | .fencee _ _ => false | _ => m.q.isEmpty && c.q.isEmpty
    let mBad := m.stop && (m.ended < goal.1 || (m.pois && m.ended == goal.1)) && !none_
    let cBad := c.stop && c.ended < goal.2
    if (m.ended < goal.1 && !mBad) || (c.ended < goal.2 && !cBad) then
      .hold { s with thr := { s.thr with wait := .fencee goal.1 goal.2 } }
    else
      let v := BitVec.ofNat 1024 (b2n mBad + 2 * b2n cBad)
      .done ((s.copyTo s.cur v).late [(.s f.d, v)])

def execFencee (k : Ctl) (f : FFence) (s : State) : Out :=
  run 0x189 k [.s f.d] (fun u => fenceEngines u f s.thr.wait) s

/-! ### Grants and releases -/

/-- Answers a thread's pending atomic; a condition comes with the response (R39). -/
def State.answer (s : State) (k : Key) (id : Nat) (v : Word) (cond : Option (Nat × Addr) := none) : State :=
  (s.modThread k fun x => x.modPend id fun p => { p.answer v with cond := cond }).copyTo k (ofWord v)

/-- RESERVATION_GRANT (R273, R276, R426): the request at the head of a line's queue is granted, once it has arrived, the REDs that arrived
before it are performed and leases have lapsed; the
home slice holds the line in M. While a host snoop waits, at most 16 are granted. -/
def State.grantResv (s : State) (l : Nat) : State :=
  match SMap.get [] s.resvq l with
  | [] => s
  | q :: r =>
    let snp := SMap.find s.hostWait l
    if q.granted ∨ s.plumb < q.at_ ∨ (s.reds.any fun x => x.on l && comesFirst x.time x.who q.at_ q.who) ∨ s.leased l ∨ s.sealedLine l ∨ s.ownable (s.queueAgent l) l = false ∨ snp.any (64 ≤ ·) then s
    else
      let s : State := { s with hostWait := match snp with | some n => SMap.put s.hostWait l (n + 4) | none => s.hostWait }
      let t := s.inM (s.queueAgent l) l q.pid
      let old := BitVec.ofNat 64 (ofLE (t.homeBytes q.a q.size))
      let bad := anyPoison t.poison q.a q.size
      let new := if bad then none else atomicNew q.op q.fn q.size q.who.t old q.x q.y
      let q' := { q with granted := true, since := t.plumb, old := old, new := new }
      let t := if q.op = 4 then t else t.spoilDests [{ spot := { place := .pa q.a }, n := q.size }]
      let u : State := { t with resvq := SMap.put t.resvq l (q' :: r) }
      let cond := if bad then some (s.badCause [{ spot := { place := .pa q.a }, n := q.size }], q.va) else none
      let u := if bad then u.modThread q.who fun x => x.stalls s.plumb cond else u
      if q.op = 3 then
        ((u.modThread q.who fun x => { x with resv := some { line := l, size := q.size, since := u.plumb } }).answer
          q.who q.pend old cond)
      else if bad then u.modThread q.who fun x => x.modPend q.pend fun p => { p with cond := cond }
      else u

def execReservationGrant (line : Nat) (s : State) : Out := .next (s.grantResv line)

/-- RESERVATION_RELEASE (R273): the holder's value is merged at the home slice, and its result returns. -/
def State.releaseResv (s : State) (l : Nat) : State :=
  match SMap.get [] s.resvq l with
  | [] => s
  | q :: r =>
    if q.granted = false ∨ q.op = 3 ∨ s.leased l ∨ s.ownable (s.queueAgent l) l = false then s
    else
      let t : State := { s with resvq := SMap.set [] s.resvq l r }
      let u := match q.new with
        | none => t
        | some v => (t.homeStore q.pid q.a (toLE q.size v.toNat)).spoilMem q.a q.size
      let cond := ((u.getThread q.who).pend.find? fun p => p.id == q.pend).bind (·.cond)
      u.answer q.who q.pend (if q.op = 4 then 0 else q.old) cond

def execReservationRelease (line : Nat) (s : State) : Out := .next (s.releaseResv line)

/-- LR_TIMEOUT (R276): 1,024 cycles after the grant the reservation ends. -/
def execLrTimeout (t c i : Nat) (s : State) : Out :=
  .next (match (s.getThread ⟨t, c, i⟩).resv with
    | none => s
    | some r => if r.since + 1024 ≤ s.plumb then s.dropResv ⟨t, c, i⟩ else s)

end Sys2Proof.Machine
end

