-- ==== Sys2Proof/Machine/Engine.lean ====
section
/-! DEFINITION. What the MU and the CU share: HX blocks read and encoded (R127 to R133), reads and writes of memory by an
engine, and full/empty bits and poison of what they write (R178, R188, R206, R208). -/

namespace Sys2Proof.Machine

/-! ### HX blocks -/

/-- Magnitude bits of a format code, and elements of a block (R127). -/
def hxBits (fmt : Nat) : Option Nat :=
  match fmt with | 0xA2 => some 2 | 0xA4 => some 4 | 0xA7 => some 7 | _ => none
def hxCount (m : Nat) : Nat := match m with | 2 => 112 | 4 => 80 | _ => 48
/-- The format code of magnitude bits, and the magnitude bits of a type code; HXA names none (R60, R127). -/
def hxFmt (m : Nat) : Nat := match m with | 2 => 0xA2 | 4 => 0xA4 | _ => 0xA7
def hxOfTy (ty : Nat) : Option Nat := match ty with | 8 => some 2 | 9 => some 4 | 10 => some 7 | _ => none
/-- A type code of an HX operand. -/
def isHx (ty : Nat) : Bool := 8 ≤ ty

/-- `SB` as a mantissa and an exponent of two (R129). -/
def sbVal (sb : Nat) : Nat × Int := if sb / 8 = 0 then (sb % 8, -17) else (8 + sb % 8, ((sb / 8 : Nat) : Int) - 18)

/-- Element `j` of a block of `m` magnitude bits (R128 to R130). -/
def hxElem (b : Block) (m : Nat) (xsp : Bool) (tile j : Nat) : Num :=
  let x := b.toNat
  let g := 8 * (2 + j / 16 * (2 + 2 * (1 + m)))
  let ge := bits x g 8
  let i := j % 16
  let raw := bits x (g + 16 + (1 + m) * i) (1 + m)
  let s := bit raw m
  let mag := bits raw 0 m
  let mu := b2n (bit x (g + 8 + i / 2))
  if xsp && ge = 255 then (if mag = 0 then .inf s else .nan (payloadOf tile j))
  else
    let sb := sbVal (bits x 8 8)
    .fin s (mag * sb.1) ((ge : Int) - 127 - mu - (m - 1) + sb.2)

/-- The magnitude bits by which a block is read under a type: none when it reads as unknown (R131). -/
def hxRead (b : Block) (ty : Nat) : Option Nat :=
  match hxBits (bits b.toNat 0 8) with
  | none => none
  | some m => if (hxOfTy ty).all (· == m) then some m else none

/-- A positive finite row scale (R132). -/
def scaleOk (rs : Num) : Bool := match rs with | .fin false (_ + 1) _ => true | _ => false

/-! ### Encoding a block (R133) -/

/-- A magnitude n / d · 2^e. -/
structure Ratio where
  n : Nat
  d : Nat
  e : Int
  deriving DecidableEq, Repr

/-- Compares two magnitudes. -/
def Ratio.lt (x y : Ratio) : Bool :=
  let g := min x.e y.e
  x.n * y.d * 2 ^ (x.e - g).toNat < y.n * x.d * 2 ^ (y.e - g).toNat

def Ratio.max (x y : Ratio) : Ratio := if x.lt y then y else x

/-- ⌊log2⌋ of a positive magnitude. -/
def Ratio.log2 (x : Ratio) : Int :=
  let l : Int := (Nat.log2 x.n : Int) - Nat.log2 x.d
  (if ({ n := x.d, d := 1, e := l } : Ratio).lt { n := x.n, d := 1, e := 0 } || x.n * 2 ^ (-l).toNat == x.d * 2 ^ l.toNat
    then l else l - 1) + x.e

/-- A value with its magnitude as a ratio: NaN, infinity, or finite. -/
inductive Scaled where
  | nan | inf (neg : Bool) | fin (neg : Bool) (x : Ratio)
  deriving DecidableEq, Repr

def Scaled.mag : Scaled → Option Ratio
  | .fin _ x => some x
  | _ => none

/-- Divides by a positive finite value. -/
def Num.overs (x : Num) (n : Nat) (e : Int) : Scaled :=
  match x with
  | .nan _ => .nan
  | .inf s => .inf s
  | .fin s m f => .fin s { n := m, d := n, e := f - e }

/-- The greatest finite magnitude of a list. -/
def maxMag (l : List Scaled) : Ratio := (l.filterMap Scaled.mag).foldl Ratio.max { n := 0, d := 1, e := 0 }

/-- The block scale for a greatest magnitude: the smallest E5M3 value not below A · 2^(−⌊log2 A⌋). -/
def sbFor (a : Ratio) : Nat :=
  if a.n = 0 then 0x78
  else
    let k := a.e - a.log2
    let num := 8 * a.n * 2 ^ k.toNat
    let den := a.d * 2 ^ (-k).toNat
    0x78 + ((num + den - 1) / den - 8)

/-- Rounds a magnitude to an integer by the mode of the signed value (R123). -/
def Ratio.round (x : Ratio) (mode : Nat) (s : Bool) : Nat :=
  let num := x.n * 2 ^ x.e.toNat
  let den := x.d * 2 ^ (-x.e).toNat
  let q := num / den
  let r := num % den
  q + b2n (match mode with
    | 0 => den < 2 * r || (2 * r == den && q % 2 == 1)
    | 1 => false
    | 2 => !s && r != 0
    | _ => s && r != 0)

/-- One element of a group: its 1 + m bits, and whether it saturates. -/
def hxCode (m mode ge mu : Nat) (z : Scaled) : Nat × Bool :=
  match z with
  | .nan => (0, true)
  | .inf s => (b2n s * 2 ^ m + (2 ^ m - 1), true)
  | .fin s x =>
    let q := ({ x with e := x.e + (127 - (ge : Int) + mu + m - 1) } : Ratio).round mode s
    (b2n s * 2 ^ m + Nat.min q (2 ^ m - 1), 2 ^ m - 1 < q)

/-- One group of 16 values divided by the block scale: GE, PX, the elements' field, and whether one saturates. Of a pair that holds a NaN under
`XSP` = 0, R133 does not say what `max |z| of pair` is: in this model the NaN is left out, and a pair of two NaNs has mu = 1 (log 95). -/
def hxGroup (m mode : Nat) (xsp : Bool) (zs : List Scaled) : Nat × Nat × Nat × Bool :=
  let g := maxMag zs
  let overs := fun (x : Ratio) => x.n != 0 && 254 < x.log2 + 127
  if xsp && (zs.any (fun z => z.mag.isNone) || overs g) then
    (255, 0, fields ((List.range 16).map fun i =>
      ((1 + m) * i, match zs.getD i .nan with
        | .inf s => b2n s * 2 ^ m
        | .fin s x => if overs x then b2n s * 2 ^ m else 1
        | .nan => 1)), false)
  else
    let ge := if g.n = 0 then 0 else (clamp (g.log2 + 127) 0 (if xsp then 0xFE else 0xFF)).toNat
    let small := fun (z : Scaled) =>
      match z with
      | .nan => true
      | .inf _ => false
      | .fin _ x => x.lt { n := 1, d := 1, e := (ge : Int) - 128 }
    let mu := fun i => b2n (small (zs.getD (2 * i) .nan) && small (zs.getD (2 * i + 1) .nan))
    let cs := (List.range 16).map fun i => hxCode m mode ge (mu (i / 2)) (zs.getD i .nan)
    (ge, maskOf 8 (fun i => mu i == 1), fields ((List.range 16).map fun i => ((1 + m) * i, (cs.getD i (0, false)).1)),
      cs.any (·.2))

/-- A block of `m` magnitude bits from source values and a row scale: the block, and whether it saturates. Missing trailing
elements are +0. -/
def hxEncode (m mode : Nat) (xsp : Bool) (rs : Num) (xs : List Num) : Block × Bool :=
  let r : Nat × Int := match rs with | .fin _ n e => (n, e) | _ => (1, 0)
  let ys := (List.range (hxCount m)).map fun j => (xs.getD j (.fin false 0 0)).overs r.1 r.2
  let sb := sbFor (maxMag ys)
  let v := sbVal sb
  let zs := ys.map fun y =>
    match y with
    | .fin s x => .fin s { n := x.n, d := x.d * v.1, e := x.e - v.2 }
    | y => y
  let gs := (List.range (hxCount m / 16)).map fun g => hxGroup m mode xsp ((zs.drop (16 * g)).take 16)
  let size := 8 * (2 + 2 * (1 + m))
  (BitVec.ofNat 512 (hxFmt m + sb * 256 + fields ((List.range gs.length).map fun g =>
      let x := gs.getD g (0, 0, 0, false)
      (16 + size * g, x.1 + x.2.1 * 256 + x.2.2.1 * 65536))),
    gs.any (·.2.2.2))

/-! ### Reads and writes by an engine -/

/-- A read by an engine: its bytes and whether a double of them is poisoned, or the cause and the address that failed. A
piece whose unit is not resident makes the engine wait. -/
inductive EngRead where
  | ok (bs : List Byte) (bad : Bool)
  | fail (cause : Nat) (a : Addr)
  | wait

def State.engRead (s : State) (w : Who) (a : Addr) (n : Nat) : EngRead :=
  if n = 0 then .ok [] false else
  if s.walkHeld w a then .wait else
  match s.pieces w .r a n with
  | .error (c, x) => .fail c x
  | .ok ps =>
    let u := s.fillLoads w.k.t (s.getCtx w.k.t w.k.c).pid ps
    if (awayOf ps).isSome || u.sealedIn ps || u.missHeld w.k.t ps then .wait else .ok (u.readPieces w .tile ps) (s.poisoned ps)

/-- An engine has read what lies at addresses: lines that it missed have come to its die (R244), the translations are in its TLB (R356), and
a destination of a collective has been read (R424). -/
def State.engLooked (s : State) (w : Who) (l : List (Addr × Nat)) : State :=
  l.foldl (fun s e =>
    match s.pieces w .r e.1 e.2 with
    | .ok ps => ((s.fillLoads w.k.t (s.getCtx w.k.t w.k.c).pid ps).spoilDests ps).noteTlb w e.1
    | .error _ => s) s

/-- A double of local SRAM, or of memory, becomes full, and a sync load parked on it is met (R265 to R267). -/
def State.sramFills (s : State) (t d : Nat) : State :=
  (s.sramFull t d 1 true).wakeLds (.sram t (8 * d)) (BitVec.ofNat 64 (ofLE (s.sramBytes t (8 * d) 8)))
def State.memFills (s : State) (d : Nat) : State :=
  (s.setFull d 1 true).wakeLds (.pa (8 * d)) (BitVec.ofNat 64 (s.home64 (8 * d)))

/-- An engine's bytes reach local SRAM: every double they cover whole becomes full (R208, R254). -/
def State.sramLand (s : State) (t b : Nat) (bs : List Byte) : State :=
  (wholeDoubles b bs.length).foldl (fun s d => s.sramFills t d) (s.sramWrite t b bs)

/-- A write by an engine at one place, performed there: every double it covers whole becomes full, and a sync load parked on
it is met (R178, R208); what a collective sends of a source there is UNKNOWN (R424). None when the skim pool is exhausted (R151). -/
def State.engPlace (s : State) (w : Who) (p : Place) (bs : List Byte) : Option State :=
  let pid := (s.getCtx w.k.t w.k.c).pid
  match p with
  | .pa a =>
    let t := (s.homeStore pid a bs).spoilMem a bs.length
    some (if isHost a then t else (wholeDoubles a bs.length).foldl (fun s d => s.memFills d) t)
  | .sram t b => some ((s.sramLand t b bs).spoilSources p bs.length)
  | q => s.writePlace w {} q bs

def State.engPieces (s : State) (w : Who) : List Piece → List Byte → Option State
  | [], _ => some s
  | p :: r, bs => (s.engPlace w p.spot.place (bs.take p.n)).bind fun t => t.engPieces w r (bs.drop p.n)

/-- A write by an engine at an address: done, failed, or to be made later, once the home of every line can take it. -/
inductive EngWrite where
  | ok (s : State)
  | fail (cause : Nat) (a : Addr)
  | wait

def State.engWrite (s : State) (w : Who) (a : Addr) (bs : List Byte) : EngWrite :=
  if bs = [] then .ok s else
  if s.walkHeld w a then .wait else
  match s.pieces w .w a bs.length with
  | .error (c, x) => .fail c x
  | .ok ps =>
    if ps.any fun p => s.placeFailed p.spot.place then .fail cRESPF a
    else if (awayOf ps).isSome || !(pieceLines ps).all (s.homeReady w.k.t) then .wait
    else match s.engPieces w ps bs with
      | none => .fail cLPOOL a
      | some t => .ok (t.noteTlb w a)

/-- A write by an engine within a double of memory, whose address its part's check has found (R187, R206): it cannot fail any more. What
goes to a home that has failed since is lost with it (R391). -/
def State.engPut (s : State) (w : Who) (a : Nat) (bs : List Byte) : EngWrite :=
  if s.homeFailed a then .ok s
  else if !s.homeReady w.k.t (lineOf a) then .wait
  else match s.engPlace w (.pa a) bs with
    | none => .fail cLPOOL 0
    | some t => .ok t

/-- Where bytes within a double lie in memory, if they do. -/
def State.engAt (s : State) (w : Who) (a : Addr) : Option Nat :=
  match s.translate w .w a with
  | .ok { place := .pa p, .. } => some p
  | _ => none

/-- Marks the doubles that pieces touch as poisoned (R206). -/
def State.engPoison (s : State) (ps : List Piece) : State :=
  ps.foldl (fun s p =>
    let ds := fun b => (List.range ((b + p.n + 7) / 8 - b / 8)).map (· + b / 8)
    match p.spot.place with
    | .pa a => { s with poison := (ds a).foldl (fun m d => SMap.set false m d true) s.poison }
    | .sram t b => s.modTile t fun x => { x with poison := (ds b).foldl (fun m d => SMap.set false m d true) x.poison }
    | .lin pid n off _ => s.modPart pid fun x => (ds off).foldl (fun x d => x.setBad n d true) x
    | _ => s) s

/-- Cuts a write at doubles: every piece lies in one double. -/
def cutDoubles (a : Addr) (bs : List Byte) : List (Addr × List Byte) :=
  (List.range ((a.toNat % 8 + bs.length + 7) / 8)).map fun j =>
    let lo := 8 * j - a.toNat % 8
    (a + BitVec.ofNat 72 lo, (bs.drop lo).take (8 * (j + 1) - a.toNat % 8 - lo))

/-- A store that is an access of a thread older than a place in its program order. -/
def Store.before (x : Store) (k : Key) (id : Nat) : Bool := x.src.any fun y => y.1 == k && y.2 < id

/-- The thread's accesses that an engine's own must follow are made: no store, RED, atomic or fence older than the command is under
way (R178, R208). -/
def State.engAfter (s : State) (k : Key) (id : Nat) : Bool :=
  let d := s.getDie (dieOf k.t)
  ((s.getThread k).pend.all fun p => id ≤ p.id || !(p.what.isRmw || p.what.gates || p.what.isSo || p.load.isSome)) &&
  (s.reds.all fun r => !(r.who == k && r.id < id)) &&
  (((s.getTile k.t).fifo.filterMap FifoEnt.store?).all fun x => !x.before k id) &&
  (d.waitSt.all fun x => !x.before k id) && d.pendB.all fun x => !x.before k id

/-- A context's engines act: the unit is there and the part is not stopped (R420). In a unit that is being killed or evicted they
only come to their next boundary, with what they have in hand (R195, R206, R326). -/
def State.engGoes (s : State) (t c : Nat) (midway : Bool) : Bool :=
  let x := s.getCtx t c
  x.live && !s.stopped && ((x.killed.isNone && !x.leaving) || midway)

/-- Sets the sticky bits of the thread that issued a command (R135). -/
def State.stickAt (s : State) (k : Key) (bad sat : Bool) : State := s.modThread k fun x => x.stick bad sat

end Sys2Proof.Machine
end

