-- ==== Sys2Proof/Machine/Copy.lean ====
section
/-! DEFINITION. The copy unit: sync objects, the copy instructions, opcodes 0x290 to 0x297, and the step in which the CU runs
the copy at the head of its queue (R196 to R208). -/

namespace Sys2Proof.Machine

/-! ### Sync objects (R196, R197, R207) -/

/-- The doubles of a sync object at a byte of a tile's SRAM. -/
def State.syncD (s : State) (t b i : Nat) : Nat := ofLE (s.sramBytes t (b + 8 * i) 8)
def syncTarget (d0 : Nat) : Nat := bits d0 0 40
def syncXsp (d0 : Nat) : Bool := bit d0 62
def syncCount (d1 : Nat) : Nat := bits d1 0 40
def syncGen (d1 : Nat) : Nat := bits d1 40 24

def State.syncPut (s : State) (t b i v : Nat) : State := s.sramWrite t (b + 8 * i) (toLE 8 v)

/-- Match() with a count that may have grown past its field (R197). -/
def State.syncMatch (s : State) (t b count : Nat) : State :=
  let d0 := s.syncD t b 0
  let d1 := s.syncD t b 1
  if syncTarget d0 ≤ count then
    let s := if syncTarget d0 < count && !bit d0 63 then s.syncPut t b 0 (d0 + 2 ^ 63) else s
    let v := (syncGen d1 + 1) % 2 ^ 24 * 2 ^ 40
    ((s.syncPut t b 1 v).sramFull t (b / 8 + 1) 1 true).wakeLds (.sram t (b + 8)) (BitVec.ofNat 64 v)
  else s.syncPut t b 1 (count + syncGen d1 * 2 ^ 40)

/-- An arrival adds its amount and evaluates the match (R197). -/
def State.syncAdd (s : State) (t b amt : Nat) : State := s.syncMatch t b (syncCount (s.syncD t b 1) + amt)

/-- A narrow arrival with a different XSP is recorded once at the object and at its unit (R207). -/
def State.syncMismatch (s : State) (t c b sender : Nat) : State :=
  let d0 := s.syncD t b 0
  if bit d0 61 then s
  else
    let off := b - (s.getCtx t c).ubase
    (s.syncPut t b 0 (d0 - bits d0 40 12 * 2 ^ 40 + sender % 4096 * 2 ^ 40 + 2 ^ 61)).modCtx t c fun x =>
      { x with fmx := x.fmx ++ [off] }

/-- Clears the recorded mismatch of an object (R7, R207). -/
def State.syncClear (s : State) (t c b : Nat) : State :=
  let d0 := s.syncD t b 0
  (if bit d0 61 then s.syncPut t b 0 (d0 - 2 ^ 61) else s).modCtx t c fun x =>
    { x with fmx := x.fmx.filter (· != b - x.ubase) }

/-- FMTX for an object's recorded mismatch, which the trap clears (R7, R207). -/
def State.fmtx (s : State) (b : Nat) : Res :=
  s.trapOnce (fun u => u.syncClear u.cur.t u.cur.c b) cFMTX (BitVec.ofNat 72 (bits (s.syncD s.cur.t b 0) 40 12))

/-- The byte of SRAM of a scratchpad offset of the unit in focus. -/
def State.ownByte (s : State) (off : Nat) : Nat := s.ctx.ubase + off

/-! ### Issuing -/

/-- A CU stop that is to be delivered to the CU thread in focus (R206). -/
def State.cuStop (s : State) : Option Res :=
  if s.thr.role = 4 ∧ s.ctx.cu.pend then
    some (s.trapOnce (fun s => { s with ctx := { s.ctx with cu := { s.ctx.cu with pend := false } } }) cCUFAULT s.ctx.cu.addr)
  else none

/-- The CU queue may take a command (R34). -/
def Cu.room (c : Cu) : Bool := c.q.length < 2

/-- What the trailing thread must produce the same of a command (R393). -/
def CuCmd.item (x : CuCmd) : List Nat :=
  [x.op, x.dst.toNat, x.src.toNat, x.n, x.tile, x.sync, x.res.toNat, x.rin.toNat, x.fn, x.td, x.ts, x.tr, x.rm, x.scales.toNat, x.g, x.ty]

/-- A command enters the CU's queue with what it takes at issue (R34, R135, R200). `stops` when it delivers a stop even
where the queue has room. -/
def State.cuEnter (s : State) (x : CuCmd) (stops : Bool) (after : State → State := id) : Res :=
  match if stops || !s.ctx.cu.room then s.cuStop else none with
  | some r => r
  | none =>
    if s.trails then (s.compare 0 x.item).into fun t => .done t
    else if !s.ctx.cu.room then .hold s.held_
    else (s.compare 0 x.item).into fun t =>
      let y := { x with
        thr := t.cur.i, priv := t.thr.priv, xsp := tsrXsp t.thr.tsr, batch := t.ctx.cu.batch, id := t.fresh }
      .done (after { t with ctx := { t.ctx with cu := { t.ctx.cu with q := t.ctx.cu.q ++ [y] } } })

/-- The variant bits (R199). -/
def CuCmd.v (x : CuCmd) (i : Nat) : Bool := bit x.fn i

/-- The width of a copy's elements, and the bytes of `n` elements of a type, in whole blocks for an HX type. -/
def copyWidth (ty : Nat) : Nat := tyBytes ty
def copyBytes (ty n : Nat) : Nat :=
  match hxOfTy ty with
  | some m => (n + hxCount m - 1) / hxCount m * 64
  | none => n * tyBytes ty

/-- Bytes that a copy's destination covers. -/
def CuCmd.dstBytes (x : CuCmd) : Nat :=
  match x.op with
  | 0x290 => x.n
  | 0x291 => copyBytes x.td x.n
  | _ => x.n * copyWidth x.td

/-- A range of offsets lies inside the unit's scratchpad bytes. -/
def Ctx.inside (c : Ctx) (off n : Nat) : Bool := off + n ≤ c.scratch

/-- The bytes that an operand in the issuer's scratchpad holds at least: of a gather's source and a scatter's destination one
element, of an HXA source as many blocks as the largest elements count gives (R200). -/
def CuCmd.srcLeast (x : CuCmd) : Nat :=
  match x.op with
  | 0x290 => x.n
  | 0x291 => if x.ts = 11 then (x.n + 111) / 112 * 64 else copyBytes x.ts x.n
  | _ => if x.v 7 then x.dstBytes else min x.n 1 * copyWidth x.td
def CuCmd.dstLeast (x : CuCmd) : Nat := if x.op = 0x292 ∧ x.v 7 then min x.n 1 * copyWidth x.td else x.dstBytes

/-- The checks of R200 in their order, then the alignment of the operands (R202, R203). -/
def State.copyChecks (s : State) (x : CuCmd) (tw : Word) : Option Res :=
  let c := s.ctx
  let sl := x.v 0
  let dl := x.v 1
  let dt := x.v 2
  let ns := x.v 3
  let off := fun (a : Addr) => a.toNat
  let al := fun ty => if isHx ty then 64 else tyBytes ty
  if 2 ^ 40 - 1 < x.n then some (.trap cILLOP 0)
  else if !ns && x.sync % 16 ≠ 0 then some (.trap cMISALIGN (BitVec.ofNat 72 x.sync))
  else if sl && !c.inside (off x.src) x.srcLeast then some (.trap cPERM x.src)
  else if dl && !dt && !c.inside (off x.dst) x.dstLeast then some (.trap cPERM x.dst)
  else if !ns && !dt && !c.inside x.sync 16 then some (.trap cPERM (BitVec.ofNat 72 x.sync))
  else if x.op = 0x291 && x.v 5 && dl && !dt && !c.inside (off x.res) (copyBytes x.tr x.n) then some (.trap cPERM x.res)
  else if x.op = 0x291 && x.v 4 && sl && !c.inside (off x.rin) (copyBytes x.tr x.n) then some (.trap cPERM x.rin)
  else if dt && (4096 ≤ tw.toNat || s.ownerOf tw.toNat ≠ c.pid) then some (.trap cPARTITION (BitVec.ofNat 72 tw.toNat))
  else if x.op = 0x292 && x.res.toNat % 4 ≠ 0 then some (.trap cMISALIGN x.res)
  else if x.op = 0x291 then
    (([(x.dst, al x.td), (x.src, al x.ts)] ++ (if x.v 5 then [(x.res, al x.tr)] else []) ++
      (if x.v 4 then [(x.rin, al x.tr)] else [])).find? fun e => e.1.toNat % e.2 != 0).map fun e => .trap cMISALIGN e.1
  else none

/-- A copy of the instruction's fields and operands. -/
def copyCmd (s : State) (op : Nat) (f : FCu) : CuCmd :=
  { op := op, dst := s.ra f.ad 0, src := s.ra f.asrc 1, n := (s.rs f.n 2).toNat, tile := (s.rs f.t 3).toNat,
    sync := (s.ra f.ay 4).toNat, res := s.ra f.ar 5, rin := s.ra f.ai 6, fn := f.fn, td := f.td, ts := f.ts, tr := f.tr,
    rm := f.rm, scales := s.rs f.sc 7 }

def issueCopy (s : State) (op : Nat) (f : FCu) : Res :=
  match (if s.ctx.cu.pend then s.cuStop else none) with
  | some r => r
  | none =>
    let x := copyCmd s op f
    (s.copyChecks x (s.rs f.t 3)).getD (s.cuEnter x true)

def execCpy (k : Ctl) (f : FCu) (s : State) : Out := run 0x290 k [.s f.n, .s f.t] (fun s => issueCopy s 0x290 f) s
def execCpyc (k : Ctl) (f : FCu) (s : State) : Out := run 0x291 k [.s f.n, .s f.t, .s f.sc] (fun s => issueCopy s 0x291 f) s
def execCpyg (k : Ctl) (f : FCu) (s : State) : Out := run 0x292 k [.s f.n, .s f.t] (fun s => issueCopy s 0x292 f) s

/-- A copy, as against a collective. -/
def CuCmd.isCopy (x : CuCmd) : Bool := x.op < 0x293

/-- Batches that are closed and not complete: those with a copy still in the queue (R205). -/
def Cu.outstanding (c : Cu) : Nat := ((c.q.filter fun x => x.isCopy && x.batch < c.batch).map (·.batch)).eraseDups.length

def State.closeBatch (s : State) : State :=
  { s with ctx := { s.ctx with cu := { s.ctx.cu with batch := s.ctx.cu.batch + 1 } } }

/-- CBATCH (R205). -/
def execCbatch (k : Ctl) (_ : FCu) (s : State) : Out :=
  run 0x293 k [] (fun s =>
    match s.cuStop with
    | some r => r
    | none =>
      if s.trails then .done s
      else if 64 ≤ s.ctx.cu.outstanding then .hold s.held_
      else .done s.closeBatch) s

/-- CWAITB (R205): the batch it closes is counted when it waits; the wait itself is the tests it makes again. -/
def execCwaitb (k : Ctl) (f : FCu) (s : State) : Out :=
  run 0x294 k [] (fun s =>
    match s.cuStop with
    | some r => r
    | none =>
      if s.trails then .done s
      else if s.thr.retry = none then
        if 64 ≤ s.ctx.cu.outstanding then .hold s.held_
        else
          let t := s.closeBatch
          if t.ctx.cu.outstanding ≤ f.imm then .done t
          else .hold { t with thr := { t.thr with wait := .hold, retry := some 0 } }
      else if s.ctx.cu.outstanding ≤ f.imm then .done { s with thr := { s.thr with retry := none } }
      else .hold s.held_) s

/-- CSYNC.WAIT (R206, R207). -/
def execCsyncWait (k : Ctl) (_ : FCu) (s : State) : Out :=
  run 0x297 k [] (fun s =>
    match s.cuStop with
    | some r => r
    | none =>
      match if s.trails then none else s.ctx.fmx.head? with
      | some off =>
        let b := s.ownByte off
        let d0 := s.syncD s.cur.t b 0
        if bit d0 61 then s.fmtx b
        else .hold ({ s with ctx := { s.ctx with fmx := s.ctx.fmx.drop 1 } } : State).held_
      | none => if s.ctx.cu.q.any (·.isCopy) then .hold s.held_ else .done s) s

/-- The CU's status word (R206). -/
def Cu.status (c : Cu) : Word :=
  BitVec.ofNat 64 (fields [(0, (if c.stop then c.done else 0) % 2 ^ 40), (40, b2n c.stop), (41, b2n c.pend), (48, c.cause),
    (56, c.q.length)])

def execCsyncStat (k : Ctl) (f : FCu) (s : State) : Out :=
  run 0x297 k [.s f.n] (fun s =>
    if s.trails then s.takeCopy.into fun x => .done (x.1.late [(.s f.n, x.2)])
    else .done ((s.copyTo s.cur (ofWord s.ctx.cu.status)).late [(.s f.n, ofWord s.ctx.cu.status)])) s

def execCsyncGo (k : Ctl) (_ : FCu) (s : State) : Out :=
  run 0x297 k [] (fun s =>
    .done (if s.trails then s else { s with ctx := { s.ctx with cu := { s.ctx.cu with stop := false, pend := false } } })) s

/-- Discarded copies make no further arrival: of their traffic on its way the bytes land alone (R205). -/
def State.dropArrivals (s : State) (ids : List Nat) : State :=
  { s with away := (s.away.filter fun m => !(m.signal && m.id.any ids.contains)).map fun m =>
      if m.id.any ids.contains then { m with id := none, amt := 0, xsp := none } else m }

/-- Every queued command is discarded; a discarded collective leaves its group (R206). -/
def State.cuDrop (s : State) (t c : Nat) : State :=
  let q := (s.getCtx t c).cu.q
  (s.dropArrivals ((q.filter (·.isCopy)).map (·.id))).modCtx t c fun x => { x with
    cu := { x.cu with q := [], done := 0, burst := none, stop := false, pend := false, ended := x.cu.ended + q.length }
    groups := SMap.map (fun g (y : Group) =>
      { y with left := y.left - (q.filter fun z => !z.isCopy && z.g == g).length, sent := false, got := [] }) x.groups }
def execCsyncDrop (k : Ctl) (_ : FCu) (s : State) : Out :=
  run 0x297 k [] (fun s => .done (if !s.trails && s.ctx.cu.stop then s.cuDrop s.cur.t s.cur.c else s)) s

/-- SYNCW (R207). -/
def syncWait (s : State) (f : FCu) : Res :=
  let off := s.ra f.ay 4
  match s.ctx.objectBad off with
  | some c => .trap c off
  | none =>
    if s.trails then s.takeCopy.into fun x => .done (x.1.late [(.s f.n, x.2)])
    else
      let b := s.ownByte off.toNat
      let d0 := s.syncD s.cur.t b 0
      let d1 := s.syncD s.cur.t b 1
      let g := bits (s.rs f.t 3).toNat 0 24
      if bit d0 61 then s.fmtx b
      else if syncGen d1 ≠ g then
        .done ((s.copyTo s.cur (BitVec.ofNat 1024 d1)).late [(.s f.n, BitVec.ofNat 1024 d1)])
      else .hold { s with thr := { s.thr with wait := .syncw off.toNat g } }

def execSyncw (k : Ctl) (f : FCu) (s : State) : Out := run 0x295 k [.s f.n, .s f.t] (fun s => syncWait s f) s

/-- SYNCWT and SYNCWT.INIT (R196, R207): both deliver a recorded mismatch (log 47). -/
def syncSet (s : State) (f : FCu) (init : Bool) : Res :=
  let off := s.ra f.ay 4
  let v := (s.rs f.t 3).toNat
  match s.ctx.objectBad off with
  | some c => .trap c off
  | none =>
    if 2 ^ 40 ≤ v then .trap cILLOP 0
    else
      let b := s.ownByte off.toNat
      let d0 := s.syncD s.cur.t b 0
      let d1 := s.syncD s.cur.t b 1
      if bit d0 61 && !s.trails then s.fmtx b
      else (s.compare 0 [0x296, b2n init, off.toNat, v]).into fun t =>
        if init then
          let u := (t.syncPut t.cur.t b 0 (v + b2n (tsrXsp t.thr.tsr) * 2 ^ 62)).syncPut t.cur.t b 1 (syncGen d1 * 2 ^ 40)
          .done ((u.sramFull u.cur.t (b / 8 + 1) 1 false).syncClear u.cur.t u.cur.c b)
        else
          let w := fields [(0, v), (40, bits d0 40 12), (61, bits d0 61 3)]
          .done ((t.syncPut t.cur.t b 0 w).syncMatch t.cur.t b (syncCount d1))

def execSyncwt (k : Ctl) (f : FCu) (s : State) : Out := run 0x296 k [.s f.t] (fun s => syncSet s f false) s
def execSyncwtInit (k : Ctl) (f : FCu) (s : State) : Out := run 0x296 k [.s f.t] (fun s => syncSet s f true) s

/-! ### Running a copy -/

/-- Who the CU is for a command's accesses. -/
def CuCmd.who (x : CuCmd) (t c : Nat) : Who := { k := ⟨t, c, x.thr⟩, priv := x.priv, eng := true }

/-- A read of a copy's or collective's source: at an offset of the issuer's scratchpad, or at a virtual address. -/
def State.cuRead (s : State) (w : Who) (sl : Bool) (a : Addr) (n : Nat) : EngRead :=
  if sl then
    let c := s.getCtx w.k.t w.k.c
    if c.inside a.toNat n then
      .ok (s.sramBytes w.k.t (c.ubase + a.toNat) n) (anyPoison (s.getTile w.k.t).poison (c.ubase + a.toNat) n)
    else .fail cPERM a
  else s.engRead w a n

/-- The bytes of such a range that lie in a poisoned double. -/
def State.cuBad (s : State) (w : Who) (sl : Bool) (a : Addr) (n : Nat) : List Nat :=
  match s.cuRead w sl a n with
  | .ok _ true => (List.range n).filter fun j =>
      match s.cuRead w sl (a + BitVec.ofNat 72 j) 1 with | .ok _ b => b | _ => false
  | _ => []

/-- Where a copy's destination lies. -/
inductive Dest2 where
  | va (a : Addr)
  /-- The scratchpad of a resident unit, at an offset. -/
  | unit (t c off : Nat)
  /-- The scratchpad of a unit that is not resident. -/
  | gone (vt off : Nat)

/-- The destination of a command, `off` bytes on. -/
def State.cuDest (s : State) (x : CuCmd) (t c : Nat) (base : Addr) (off : Nat) : Dest2 :=
  if !x.v 1 then .va (base + BitVec.ofNat 72 off)
  else if !x.v 2 then .unit t c (base.toNat + off)
  else
    let u := s.getCtx t c
    match s.unitAt u.pid u.launch x.tile with
    | some (t', c') => .unit t' c' (base.toNat + off)
    | none => .gone x.tile (base.toNat + off)

/-- Bytes of the scratchpad of a unit that is parked lie outside it: its tile checks them against the unit's own (R200, R336). -/
def State.goneOut (s : State) (u : Ctx) (vt off n : Nat) : Bool :=
  (s.getPart u.pid).parked.any fun x => x.ctx.launch == u.launch && x.ctx.vtile == vt && !x.ctx.inside off n

/-- A write of a copy's bytes; `bad` are those that carry poison (R206). -/
def State.cuWrite (s : State) (w : Who) (d : Dest2) (bs : List Byte) (bad : List Nat) : EngWrite :=
  let spoil := fun (ps : List Piece) (u : State) =>
    if bad.isEmpty then u
    else u.engPoison ((bad.map fun j =>
      let f := fun (acc : Nat × Option Piece) (p : Piece) =>
        if acc.2.isNone && acc.1 ≤ j && j < acc.1 + p.n then
          (acc.1 + p.n, some { p with spot := { p.spot with place := p.spot.place.plus (j - acc.1) }, n := 1 })
        else (acc.1 + p.n, acc.2)
      (ps.foldl f (0, none)).2).filterMap id)
  match d with
  | .va a =>
    match s.engWrite w a bs with
    | .ok u => .ok (match s.pieces w .w a bs.length with | .ok ps => spoil ps u | .error _ => u)
    | r => r
  | .unit t c off =>
    let u := s.getCtx t c
    if !u.inside off bs.length then .fail cPERM (BitVec.ofNat 72 off)
    else match s.engPlace w (.sram t (u.ubase + off)) bs with
      | none => .fail cLPOOL 0
      | some v => .ok (spoil [{ spot := { place := .sram t (u.ubase + off) }, n := bs.length }] v)
  | .gone vt off =>
    let u := s.getCtx w.k.t w.k.c
    if s.goneOut u vt off bs.length then .fail cPERM (BitVec.ofNat 72 off) else
    let m : Away :=
      { pid := u.pid, launch := u.launch, vtile := vt, off := off, bytes := bs, sync := 0, amt := 0, signal := false, src := u.vtile, bad := bad }
    .ok { s with away := s.away ++ [m] }

/-- The sync object of a command: in the scratchpad its destination lies in, else in the issuer's (R200). -/
def State.cuSync (s : State) (x : CuCmd) (t c : Nat) : Dest2 :=
  if x.v 1 && x.v 2 then s.cuDest x t c 0 x.sync else .unit t c x.sync

/-- Whether the object's XSP refuses a narrow arrival (R207). -/
def State.syncRefuses (s : State) (x : CuCmd) (t c : Nat) (narrow : Bool) : Bool :=
  narrow && (match s.cuSync x t c with
    | .unit t' c' off => syncXsp (s.syncD t' ((s.getCtx t' c').ubase + off) 0) != x.xsp
    | _ => false)

/-- An arrival of a command at its sync object (R197). -/
def State.cuArrive (s : State) (x : CuCmd) (t c amt : Nat) : EngWrite :=
  if x.v 3 then .ok s
  else match s.cuSync x t c with
    | .unit t' c' off =>
      if (s.getCtx t' c').inside off 16 then .ok (s.syncAdd t' ((s.getCtx t' c').ubase + off) amt)
      else .fail cPERM (BitVec.ofNat 72 off)
    | .gone vt off =>
      let u := s.getCtx t c
      if s.goneOut u vt off 16 then .fail cPERM (BitVec.ofNat 72 off) else
      let m : Away :=
        { pid := u.pid, launch := u.launch, vtile := vt, off := off, bytes := [], sync := off, amt := amt, signal := true, src := u.vtile }
      .ok { s with away := s.away ++ [m] }
    | .va _ => .ok s

/-- Bytes of a CPY's next part: to the next 64-byte boundary of the destination (R206). -/
def cpyPart (x : CuCmd) (done : Nat) : Nat := min (x.n - done) (64 - (x.dst.toNat + done) % 64)

/-- Where a CPY's source or destination lies, page by page: the offset of each run, its place and its bytes (R201). -/
def State.spans (s : State) (x : CuCmd) (t c : Nat) (dst : Bool) : List (Nat × Place × Nat) :=
  let u := s.getCtx t c
  let va := fun (kind : Kind) (a : Addr) =>
    let lead := 65536 - a.toNat % 65536
    (List.range ((x.n - lead + 65535) / 65536 + 1)).filterMap fun j =>
      let off := if j = 0 then 0 else lead + 65536 * (j - 1)
      let n := Nat.min (x.n - off) (if j = 0 then lead else 65536)
      match s.translate (x.who t c) kind (a + BitVec.ofNat 72 off) with
      | .ok y => if n = 0 then none else some (off, y.place, n)
      | .error _ => none
  if dst then match s.cuDest x t c x.dst 0 with
    | .unit t' c' off => [(0, .sram t' ((s.getCtx t' c').ubase + off), x.n)]
    | .gone vt off => [(0, .away vt off, x.n)]
    | .va a => va .w a
  else if x.v 0 then [(0, .sram t (u.ubase + x.src.toNat), x.n)] else va .r x.src

/-- A CPY's destination and its source share bytes (R201; log 57). -/
def State.cpyOverlaps (s : State) (x : CuCmd) (t c : Nat) : Bool :=
  (s.spans x t c true).any fun d => (s.spans x t c false).any fun e => d.2.1.meets d.2.2 e.2.1 e.2.2

/-- Byte `j` of a CPY's destination lies in its source. -/
def State.cpyShares (s : State) (x : CuCmd) (t c j : Nat) : Bool :=
  (s.spans x t c true).any fun d =>
    d.1 ≤ j && j < d.1 + d.2.2 && (s.spans x t c false).any fun e => (d.2.1.plus (j - d.1)).meets 1 e.2.1 e.2.2

/-- Bytes of a CPY's source from an offset on, as far as they can be read. -/
def State.cuReadRun (s : State) (w : Who) (x : CuCmd) : Nat → Nat → List Byte
  | 0, _ => []
  | fuel + 1, off =>
    let k := min 64 (x.n - off)
    if k = 0 then []
    else match s.cuRead w (x.v 0) (x.src + BitVec.ofNat 72 off) k with
      | .ok bs _ => bs ++ s.cuReadRun w x fuel (off + k)
      | _ => []

/-- The bytes of one part of a CPY. Where its destination overlaps its source, which was then read ahead, a byte in the overlap is some byte
of the source, and any other the source's own (R201; log 57). -/
def cpyBytes (s : State) (t c : Nat) (x : CuCmd) (done n : Nat) : EngRead :=
  match s.cuRead (x.who t c) (x.v 0) (x.src + BitVec.ofNat 72 done) n with
  | .ok bs bad =>
    match x.ahead with
    | none => .ok bs bad
    | some l =>
      .ok ((List.range n).map fun i =>
        let j := done + i
        if s.cpyShares x t c j then l.getD ((Config.freeWord s.fresh i).toNat % l.length) (bs.getD i 0) else l.getD j (bs.getD i 0)) bad
  | r => r

/-- What one part of a copy comes to: the state, with the writes that it makes and what they bring about. -/
inductive CuStep where
  | ok (s : State) (b : Burst)
  | fail (cause : Nat) (a : Addr)
  | wait

/-- A write may be made double by double: it reaches memory or a scratchpad, and no lineage node. -/
def State.cuCuts (s : State) (w : Who) (d : Dest2) (n : Nat) : Bool :=
  match d with
  | .unit _ _ _ => true
  | .gone _ _ => false
  | .va a => (s.pieces w .w a n).toOption.any fun ps => ps.all fun p => p.spot.place.cuts

/-- The base of a copy's destination, or of its residue out. -/
def CuCmd.base (x : CuCmd) (res : Bool) : Addr := if res then x.res else x.dst

/-- A write as the entries of a burst. -/
def State.cuEntries (s : State) (x : CuCmd) (t c : Nat) (res : Bool) (off : Nat) (bs : List Byte) (bad : List Nat) : List CuPut :=
  let k := (x.base res).toNat + off
  let at_ := fun (o : Nat) => if x.v 1 then none else s.engAt (x.who t c) (x.base res + BitVec.ofNat 72 o)
  if bs = [] then []
  else if s.cuCuts (x.who t c) (s.cuDest x t c (x.base res) off) bs.length then
    (List.range ((k % 8 + bs.length + 7) / 8)).map fun j =>
      let lo := 8 * j - k % 8
      let n := 8 * (j + 1) - k % 8 - lo
      { res := res, off := off + lo, bs := (bs.drop lo).take n, bad := (bad.filter fun b => lo ≤ b && b < lo + n).map (· - lo),
        at_ := at_ (off + lo) }
  else [{ res := res, off := off, bs := bs, bad := bad }]

/-- Makes one write of a burst. -/
def State.cuPut (s : State) (x : CuCmd) (t c : Nat) (e : CuPut) : EngWrite :=
  match e.at_ with
  | none => s.cuWrite (x.who t c) (s.cuDest x t c (x.base e.res) e.off) e.bs e.bad
  | some a =>
    match s.engPut (x.who t c) a e.bs with
    | .ok u => .ok (if e.bad.isEmpty then u else u.poisonAt (.pa a))
    | r => r

/-- Whether a part's writes could all be made now: the first that cannot decides (R206). -/
def State.cuTry (s : State) (x : CuCmd) (t c : Nat) : List CuPut → EngWrite
  | [] => .ok s
  | e :: r => match s.cuPut x t c { e with at_ := none } with | .ok u => u.cuTry x t c r | z => z

/-- Makes the arrivals of parts of a copy one after another (R197). -/
def State.cuArriveAll (s : State) (x : CuCmd) (t c : Nat) : List Nat → EngWrite
  | [] => .ok s
  | n :: r => match s.cuArrive x t c n with | .ok u => u.cuArriveAll x t c r | z => z

/-- A part whose writes are ready, checked as a whole, with its arrival, before any is made (R206). -/
def State.cuPartOf (s : State) (x : CuCmd) (t c : Nat) (b : Burst) : CuStep :=
  match s.cuTry x t c b.writes with
  | .ok u => match u.cuArriveAll x t c b.amts with | .fail z a => .fail z a | _ => .ok s b
  | .fail z a => .fail z a
  | .wait => .wait

def cpyStep (s : State) (t c : Nat) (x : CuCmd) (done : Nat) : CuStep :=
  let w := x.who t c
  let n := cpyPart x done
  match cpyBytes s t c x done n with
  | .fail e a => .fail e a
  | .wait => .wait
  | .ok bs _ =>
    let bad := s.cuBad w (x.v 0) (x.src + BitVec.ofNat 72 done) n
    s.cuPartOf x t c { writes := s.cuEntries x t c false done bs bad, step := n, amts := [n], next := x }

/-- The doubles that bytes at an address complete, with the bytes of each that have been written before (R208 item 3): the masks
after them, and the doubles completed that the bytes do not cover whole, by address. -/
def fillMasks (m : SMap Nat) (a n : Nat) : SMap Nat × List Nat :=
  (List.range ((a + n + 7) / 8 - a / 8)).foldl (fun r j =>
    let d := a / 8 + j
    let lo := Nat.max a (8 * d) - 8 * d
    let hi := Nat.min (a + n) (8 * d + 8) - 8 * d
    let v := SMap.get 0 r.1 d ||| ((2 ^ (hi - lo) - 1) * 2 ^ lo)
    if v = 0xFF then (SMap.set 0 r.1 d 0, if hi - lo = 8 then r.2 else r.2 ++ [8 * d]) else (SMap.set 0 r.1 d v, r.2)) (m, [])

/-- One element of CPYG (R202). An index from a poisoned double poisons what is written by it (R206). -/
def cpygStep (s : State) (t c : Nat) (x : CuCmd) (e : Nat) : CuStep :=
  let w := x.who t c
  let k := copyWidth x.td
  match s.engRead w (x.res + BitVec.ofNat 72 (4 * e)) 4 with
  | .fail z a => .fail z a
  | .wait => .wait
  | .ok ib odd =>
    let i := ofLE ib
    let from_ := if x.v 7 then e else i
    let tgt := if x.v 7 then i else e
    match s.cuRead w (x.v 0) (x.src + BitVec.ofNat 72 (from_ * k)) k with
    | .fail z a => .fail z a
    | .wait => .wait
    | .ok bs _ =>
      let bad := if odd then List.range k else s.cuBad w (x.v 0) (x.src + BitVec.ofNat 72 (from_ * k)) k
      let f := fillMasks x.masks (x.dst.toNat + tgt * k) k
      s.cuPartOf x t c
        { writes := [{ res := false, off := tgt * k, bs := bs, bad := bad }], step := 1, amts := [k]
          fills := f.2.map fun d => (false, d - x.dst.toNat), next := { x with masks := f.1 } }

/-! ### CPYC (R203, R204) -/

/-- A row scale of `SC`. -/
def scaleOf16 (w : Word) (i : Nat) : Num := readFloat bf16 (bits w.toNat (16 * i) 16)

/-- The block and the place in it of element `e` of an HX operand: under HXA each block holds as many elements as its own
format says, an unknown one as many as the first (R131). -/
def hxaFind (s : State) (w : Who) (sl : Bool) (base : Addr) (first : Nat) : Nat → Nat → Nat → Nat × Nat
  | 0, b, e => (b, e)
  | fuel + 1, b, e =>
    let n := match s.cuRead w sl (base + BitVec.ofNat 72 (64 * b)) 1 with
      | .ok [f] _ => ((hxBits f.toNat).map hxCount).getD first
      | _ => first
    if e < n then (b, e) else hxaFind s w sl base first fuel (b + 1) (e - n)

/-- A decoded source element: its exact value with its row scale, its index within its block or source run (R125), and whether
FMTBAD is set and poison was met. -/
structure Elem where
  v   : Num
  idx : Nat
  bad : Bool := false
  poi : Bool := false

/-- Decode of R204. -/
def decodeElem (s : State) (w : Who) (sl : Bool) (base : Addr) (ty : Nat) (rs : Num) (xsp : Bool) (e : Nat) : Except CuStep Elem :=
  let t := w.k.t
  let get : Addr → Nat → Except CuStep (List Byte × Bool) := fun a n => match s.cuRead w sl a n with
    | .ok bs b => Except.ok (bs, b)
    | .fail c z => .error (CuStep.fail c z)
    | .wait => .error CuStep.wait
  if isHx ty then
    let first := match s.cuRead w sl base 1 with | .ok [f] _ => ((hxBits f.toNat).map hxCount).getD 112 | _ => 112
    let at_ := match hxOfTy ty with
      | some m => (e / hxCount m, e % hxCount m)
      | none => hxaFind s w sl base first (e + 1) 0 e
    match get (base + BitVec.ofNat 72 (64 * at_.1)) 64 with
    | .error r => .error r
    | .ok (bs, p) =>
      let b : Block := BitVec.ofNat 512 (ofLE bs)
      if !scaleOk rs then .ok { v := .nan (payloadOf t at_.2), idx := at_.2, bad := true, poi := p }
      else match hxRead b ty with
        | none => .ok { v := .nan (payloadOf t at_.2), idx := at_.2, bad := true, poi := p }
        | some m => .ok { v := (hxElem b m xsp t at_.2).mul rs (payloadOf t at_.2), idx := at_.2, poi := p }
  else
    match get (base + BitVec.ofNat 72 (e * tyBytes ty)) (tyBytes ty) with
    | .error r => .error r
    | .ok (bs, p) => .ok { v := readFloat (floatOf ty) (ofLE bs), idx := e, poi := p }

/-- x[e] of R204: the source with the incoming residue, rounded once to FP32. -/
def cpycIn (s : State) (t c : Nat) (x : CuCmd) (e : Nat) : Except CuStep Elem :=
  let w := x.who t c
  match decodeElem s w (x.v 0) x.src x.ts (scaleOf16 x.scales 2) x.xsp e with
  | .error r => .error r
  | .ok y =>
    let one := fun (v : Num) => readF32 (v.pack fp32)
    if x.v 4 then
      match decodeElem s w (x.v 0) x.rin x.tr (scaleOf16 x.scales 3) x.xsp e with
      | .error r => .error r
      | .ok r => .ok { v := one (y.v.add r.v (payloadOf t y.idx)), idx := y.idx, bad := y.bad || r.bad, poi := y.poi || r.poi }
    else .ok { y with v := one y.v }

def cpycIns (s : State) (t c : Nat) (x : CuCmd) : List Nat → Except CuStep (List Elem)
  | [] => .ok []
  | e :: r =>
    match cpycIn s t c x e with
    | .error z => .error z
    | .ok y => match cpycIns s t c x r with | .error z => .error z | .ok l => .ok (y :: l)

/-- Elements of the next part: one destination block, or up to a 64-byte boundary of a float destination. -/
def cpycPart (x : CuCmd) (done : Nat) : Nat :=
  match hxOfTy x.td with
  | some m => min (x.n - done) (hxCount m)
  | none =>
    let w := tyBytes x.td
    min (x.n - done) ((64 - (x.dst.toNat + done * w) % 64) / w)

/-- A block of values under a row scale, with the bytes, the values as encoded, and the sticky bits. What a CPYC writes under a scale that is
not finite and positive the spec does not say (R132 says only how such a row reads): in this model every element is encoded as a NaN, so
that SAT is set under `XSP` = 0 too, and FMTBAD is set (log 95). -/
def encodeRun (m rm : Nat) (xsp : Bool) (tile : Nat) (rs : Num) (xs : List Num) : List Byte × List Num × Bool × Bool :=
  let ok := scaleOk rs
  let b := hxEncode m rm xsp rs (if ok then xs else (List.range (hxCount m)).map fun j => .nan (payloadOf tile j))
  (getBytes b.1 0 64, (List.range xs.length).map fun j =>
    if ok then (hxElem b.1 m xsp tile j).mul rs 0 else .nan (payloadOf tile j), !ok, b.2)

/-- r[e] of R204. -/
def residue (x q : Num) : Num :=
  match x, q with
  | .fin .., .fin .. => x.add q.neg 0
  | _, _ => .fin false 0 0

def Num.triple (x : Num) : Bool × Nat × Int := match x with | .fin s m e => (s, m, e) | _ => (false, 0, 0)
def ofTriple (x : Bool × Nat × Int) : Num := .fin x.1 x.2.1 x.2.2

/-- The residue blocks that are complete, cut from the residues in hand: their bytes, whether SAT and FMTBAD are set, which bytes come
from poison, and what stays in hand. -/
def residueBlocks (x : CuCmd) (m tile : Nat) (last : Bool) :
    Nat → List (Num × Bool) → List Byte × Bool × Bool × List Nat × List (Num × Bool)
  | 0, l => ([], false, false, [], l)
  | fuel + 1, l =>
    if hxCount m ≤ l.length ∨ (last ∧ l ≠ []) then
      let own := l.take (hxCount m)
      let b := encodeRun m 0 x.xsp tile (scaleOf16 x.scales 1) (own.map (·.1))
      let r := residueBlocks x m tile last fuel (l.drop (hxCount m))
      (b.1 ++ r.1, b.2.2.2 || r.2.1, b.2.2.1 || r.2.2.1,
        (if own.any (·.2) then List.range 64 else []) ++ r.2.2.2.1.map (· + 64), r.2.2.2.2)
    else ([], false, false, [], l)

/-- Bytes of a run of float elements that come from poison. -/
def badRun (w : Nat) (l : List Bool) : List Nat :=
  (List.range (w * l.length)).filter fun j => l.getD (j / w) false

/-- One part of a CPYC. What a poisoned source element reaches is poisoned: its own element of a float run, every byte of an HX block
that it helps to scale (R206). -/
def cpycStep (s : State) (t c : Nat) (x : CuCmd) (done : Nat) : CuStep :=
  let n := cpycPart x done
  match cpycIns s t c x ((List.range n).map (· + done)) with
  | .error r => r
  | .ok es =>
    let xs := es.map (·.v)
    let out : List Byte × List Num × Bool × Bool :=
      match hxOfTy x.td with
      | some m => encodeRun m x.rm x.xsp t (scaleOf16 x.scales 0) xs
      | none =>
        let p := floatOf x.td
        let q := xs.map fun v => v.pack p x.rm
        (q.flatMap (toLE (tyBytes x.td)), q.map (readFloat p), false, false)
    let off := match hxOfTy x.td with | some m => done / hxCount m * 64 | none => done * tyBytes x.td
    let poi := match hxOfTy x.td with | some _ => es.map fun _ => es.any (·.poi) | none => es.map (·.poi)
    let bad := match hxOfTy x.td with
      | some _ => if es.any (·.poi) then List.range out.1.length else []
      | none => badRun (tyBytes x.td) poi
    let rs := (x.carry.map fun e => (ofTriple e.1, e.2)) ++
      ((xs.zip out.2.1).map fun e => residue e.1 e.2).zip poi
    let start := done - x.carry.length
    let res : List Byte × Bool × Bool × List Nat × List (Num × Bool) × Nat :=
      if !x.v 5 then ([], false, false, [], [], 0)
      else match hxOfTy x.tr with
        | some m =>
          let b := residueBlocks x m t (x.n ≤ done + n) (rs.length + 1) rs
          (b.1, b.2.1, b.2.2.1, b.2.2.2.1, b.2.2.2.2, start / hxCount m * 64)
        | none => (rs.flatMap fun v => toLE (tyBytes x.tr) (v.1.pack (floatOf x.tr)), false, false,
            badRun (tyBytes x.tr) (rs.map (·.2)), [], start * tyBytes x.tr)
    let f := if res.1 = [] then (x.masks, []) else fillMasks x.masks (x.res.toNat + res.2.2.2.2.2) res.1.length
    (s.stickAt ⟨t, c, x.thr⟩ (es.any (·.bad) || out.2.2.1 || res.2.2.1) (out.2.2.2 || res.2.1)).cuPartOf x t c
      { writes := s.cuEntries x t c false off out.1 bad ++ s.cuEntries x t c true res.2.2.2.2.2 res.1 res.2.2.2.1
        step := n, amts := [out.1.length + res.1.length], fills := f.2.map fun d => (true, d - x.res.toNat)
        next := { x with carry := res.2.2.2.2.1.map (fun e => (e.1.triple, e.2)), masks := f.1 } }

/-! ### The step -/

/-- The CU stops (R206). -/
def Cu.halt (m : Cu) (cause : Nat) (a : Addr) : Cu := { m with stop := true, pend := true, cause := cause, addr := a, burst := none }
def Cu.retire (m : Cu) : Cu := { m with q := m.q.drop 1, done := 0, burst := none, ended := m.ended + 1 }

/-- A narrow copy (R136, R203). -/
def CuCmd.narrow (x : CuCmd) : Bool := x.v 6 || (x.op == 0x291 && (isHx x.td || isHx x.tr))

/-- The next part of a copy. -/
def cuPart (s : State) (t c : Nat) (x : CuCmd) (done : Nat) : CuStep :=
  match x.op with
  | 0x290 => cpyStep s t c x done
  | 0x291 => cpycStep s t c x done
  | _ => cpygStep s t c x done

/-- Traffic that a part of a copy sends to a unit that is not resident: with the sender's XSP when the copy is narrow (R207), and
one arrival with its bytes when the copy has a sync object there (R197, R336). -/
def State.tagAway (s : State) (n : Nat) (x : CuCmd) : State :=
  let tag := fun (a : Away) =>
    let b := { a with lone := a.signal || x.v 3, id := some x.id }
    if x.narrow then { b with sync := x.sync, xsp := some x.xsp } else b
  { s with away := s.away.take n ++ (s.away.drop n).map tag }

/-- A double of a copy's destination, or of its residue out, is complete (R208 item 3). Of a unit that is not resident, the traffic that completes it says so. -/
def State.cuFills (s : State) (x : CuCmd) (t c : Nat) (o : Bool × Nat) : State :=
  match s.cuDest x t c (x.base o.1) o.2 with
  | .unit t' c' o => s.sramFills t' (((s.getCtx t' c').ubase + o) / 8)
  | .gone _ o =>
    match s.away.reverse with
    | m :: r => { s with away := r.reverse ++ [{ m with fills := m.fills ++ [o / 8] }] }
    | [] => s
  | .va a =>
    match s.translate (x.who t c) .w a with
    | .ok { place := .pa p, .. } => if isHost p then s else s.memFills (p / 8)
    | .ok { place := .sram t' b, .. } => s.sramFills t' (b / 8)
    | _ => s

/-- Every byte that a copy sent to a unit that is not resident has been performed there and counted (R205). -/
def State.cuLanded (s : State) (x : CuCmd) : Bool := s.away.all fun m => m.id != some x.id

def State.cuHalt (s : State) (t c cause : Nat) (a : Addr) : State := s.modCtx t c fun y => { y with cu := y.cu.halt cause a }

/-- The copy at the head of the queue is complete, once all of it has landed (R205). -/
def State.cuRetire (s : State) (t c : Nat) (x : CuCmd) : State :=
  if s.cuLanded x then s.modCtx t c fun y => { y with cu := y.cu.retire } else s

/-- The writes of the parts in hand are made: their bytes are counted, and the copy goes on or is complete (R206, R208 item 4). -/
def State.cuPartDone (s : State) (t c : Nat) (x : CuCmd) (b : Burst) : State :=
  match (b.fills.foldl (fun s o => s.cuFills x t c o) s).cuArriveAll x t c b.amts with
  | .wait => s
  | .fail z a => s.cuHalt t c z a
  | .ok v =>
    let u := (v.tagAway s.away.length x).modCtx t c fun y => { y with cu :=
      { y.cu with q := b.next :: y.cu.q.drop 1, done := y.cu.done + b.step, burst := none } }
    if x.n ≤ (u.getCtx t c).cu.done then u.cuRetire t c x else u

/-- The writes of a burst that a step makes: those to lineage nodes, which alone can still fail, all at once before the others (R206), else
one, whichever (R254); and the writes left. -/
def Burst.pick (b : Burst) (n : Nat) (lin : CuPut → Bool) : List CuPut × List CuPut :=
  if b.writes.any lin then (b.writes.filter lin, b.writes.filter fun e => !lin e)
  else
    let i := (Config.freeWord n 0x290).toNat % b.writes.length
    ((b.writes[i]?).toList, b.writes.eraseIdx i)

/-- A write goes to a lineage node. -/
def State.cuLin (s : State) (x : CuCmd) (t c : Nat) (e : CuPut) : Bool :=
  match e.at_, s.cuDest x t c (x.base e.res) e.off with
  | none, .va a => (s.pieces (x.who t c) .w a e.bs.length).toOption.any fun ps => ps.any fun p =>
      match p.spot.place with | .lin .. => true | _ => false
  | _, _ => false

/-- Writes of the parts in hand are made (R254). -/
def State.cuBurst (s : State) (t c : Nat) (x : CuCmd) (b : Burst) : State :=
  let p := b.pick s.fresh (s.cuLin x t c)
  match p.1.foldl (fun (r : EngWrite) e => match r with | .ok u => u.cuPut x t c e | r => r) (.ok s) with
  | .wait => s
  | .fail z a => s.cuHalt t c z a
  | .ok u =>
    let d := { b with writes := p.2 }
    let v := (u.tagAway s.away.length x).modCtx t c fun y => { y with cu := { y.cu with burst := some d } }
    if d.writes = [] then v.cuPartDone t c x d else v

/-- What a part of a copy reads at known addresses: its run of the source, of a residue in, and of the indexes. -/
def CuCmd.partReads (x : CuCmd) (done n : Nat) : List (Addr × Nat) :=
  let run := fun (base : Addr) (ty : Nat) => match hxOfTy ty with
    | some m => (base + BitVec.ofNat 72 (done / hxCount m * 64), ((done + n + hxCount m - 1) / hxCount m - done / hxCount m) * 64)
    | none => (base + BitVec.ofNat 72 (done * tyBytes ty), n * tyBytes ty)
  let own := fun (l : List (Addr × Nat)) => if x.v 0 then [] else l
  match x.op with
  | 0x290 => own [(x.src + BitVec.ofNat 72 done, n)]
  | 0x291 => own ((if x.ts = 11 then [(x.src, x.srcLeast)] else [run x.src x.ts]) ++ if x.v 4 then [run x.rin x.tr] else [])
  | _ => (x.res + BitVec.ofNat 72 (4 * done), 4 * n) :: own [(x.src, x.srcLeast)]

/-- A part of a copy begins: its writes are made one after another from then on (R254). -/
def State.cuBegin (s : State) (t c : Nat) (x : CuCmd) (done : Nat) : State :=
  match cuPart s t c x done with
  | .wait => s
  | .fail z a => s.cuHalt t c z a
  | .ok u b => (u.engLooked (x.who t c) (x.partReads done b.step)).modCtx t c fun y => { y with cu := { y.cu with burst := some b } }

/-- The part after those in hand begins beside them, when nothing delays or refuses it and none of them writes lineage: nothing orders their
doubles (R254). -/
def State.cuMore (s : State) (t c : Nat) (x : CuCmd) (b : Burst) : Option State :=
  let done := (s.getCtx t c).cu.done + b.step
  if x.n ≤ done ∨ b.writes.any (s.cuLin x t c) ∨ s.engGoes t c false = false then none
  else match cuPart s t c b.next done with
    | .ok u d =>
      if d.writes.any (s.cuLin x t c) then none
      else some ((u.engLooked (x.who t c) (x.partReads done d.step)).modCtx t c fun y => { y with cu := { y.cu with
        burst := some { writes := b.writes ++ d.writes, step := b.step + d.step, amts := b.amts ++ d.amts, fills := b.fills ++ d.fills,
                        next := d.next } } })
    | _ => none

/-- The parts in hand go on: the next part joins them, at the machine's choice, or writes of them are made (R254). -/
def State.cuGo (s : State) (t c : Nat) (x : CuCmd) (b : Burst) : State :=
  match if Config.freeChoice s.fresh 0x290 then s.cuMore t c x b else none with
  | some u => u
  | none => s.cuBurst t c x b

/-- The CU of a context goes on with the copy at the head of its queue. A CPY whose
destination overlaps its source first reads that ahead (R201). -/
def State.cuRun (s : State) (t c : Nat) : State :=
  let m := (s.getCtx t c).cu
  match m.q with
  | [] => s
  | x :: _ =>
    if s.engGoes t c m.burst.isSome = false ∨ m.stop ∨ x.isCopy = false ∨ s.engAfter ⟨t, c, x.thr⟩ x.id = false then s
    else match m.burst with
    | some b => s.cuGo t c x b
    | none =>
      match if s.syncRefuses x t c x.narrow then s.cuArrive x t c 0 else .wait with
      | .fail z a => s.cuHalt t c z a
      | _ =>
      if s.syncRefuses x t c x.narrow then
        let u := match s.cuSync x t c with
          | .unit t' c' off => s.syncMismatch t' c' ((s.getCtx t' c').ubase + off) (s.getCtx t c).vtile
          | _ => s
        u.modCtx t c fun y => { y with cu := y.cu.retire }
      else if x.n = 0 ∧ x.arrived = false then
        s.cuPartDone t c x { writes := [], step := 0, amts := [0], next := { x with arrived := true } }
      else if x.n ≤ m.done then s.cuRetire t c x
      else if x.op = 0x290 ∧ x.ahead.isNone ∧ s.cpyOverlaps x t c then
        let y := { x with ahead := some (s.cuReadRun (x.who t c) x (x.n / 64 + 1) 0) }
        s.modCtx t c fun u => { u with cu := { u.cu with q := y :: u.cu.q.drop 1 } }
      else s.cuBegin t c x m.done

/-- CU_COPY_RUN: nothing happens while the CU is idle, stopped or has to wait (log 9). -/
def execCuCopyRun (t c : Nat) (s : State) : Out := .next (s.cuRun t c).tickFresh

/-- SYNC_ARRIVAL: an arrival at an object of a unit's scratchpad (R197). -/
def execSyncArrival (t c off amt : Nat) (s : State) : Out :=
  let u := s.getCtx t c
  .next (if u.live && u.inside off 16 && off % 16 == 0 then s.syncAdd t (u.ubase + off) amt else s)

end Sys2Proof.Machine
end

