-- ==== Sys2Proof/Machine/Collective.lean ====
section
/-! DEFINITION. The collectives, opcodes 0x2A0 to 0x2A5, and the steps by which the CU and the fabric run them (R209 to R214,
R424). Every rank sends a set of chunks to every rank, so that each learns whether the matching collectives agree. -/

namespace Sys2Proof.Machine

/-! ### Instructions -/

/-- This part's fabric node identifier (R209, R210). -/
def State.ownFab (s : State) : Nat := SMap.get 0 s.fabids s.domPos

/-- A group of a context, and its change. -/
def Ctx.group (c : Ctx) (g : Nat) : Option Group := SMap.find c.groups g
def Ctx.modGroup (c : Ctx) (g : Nat) (f : Group → Group) : Ctx :=
  match c.group g with
  | none => c
  | some x => { c with groups := SMap.put c.groups g (f x) }

/-- The member list of CGRP, read entry by entry, the first failing entry deciding (R210). -/
def readMembers (s : State) (a : Addr) : Nat → Nat → List (Nat × Nat) → Try (State × List (Nat × Nat))
  | 0, _, l => .ok (s, l)
  | fuel + 1, i, l =>
    let ea := a + BitVec.ofNat 72 (8 * i)
    match s.load ea 8 8 with
    | .error r => .error r
    | .ok g =>
      let v := ofLE g.bs
      if g.bad.isSome then .error (.trap g.why ea)
      else if bits v 12 4 ≠ 0 ∨ bits v 32 32 ≠ 0 then .error (.trap cILLOP 0)
      else readMembers g.s a fuel (i + 1) (l ++ [(bits v 0 12, bits v 16 16)])

/-- CGRP (R210). -/
def defineGroup (s : State) (f : FColl) : Res :=
  let n := (s.rs f.n 2).toNat
  let a := s.ra f.asrc 1
  let key := (s.rs f.k 3).toNat
  if s.trails then (s.compare 0 [0x2A0, f.g, key, n]).into fun t => .done t
  else if (s.ctx.group f.g).any fun x => x.left != 0 then .hold { s with thr := { s.thr with wait := .cwait f.g } }
  else if n = 0 ∨ 65536 < n then .trap cILLOP 0
  else if a.toNat % 8 ≠ 0 then .trap cMISALIGN a
  else (readMembers s a n 0 []).into fun x =>
    let me := (s.ctx.vtile, s.ownFab)
    match x.2.findIdx? (· == me) with
    | none => .trap cILLOP 0
    | some r =>
      match x.2.find? fun m => m.2 == s.ownFab && s.ownerOf m.1 != s.ctx.pid with
      | some m => .trap cPARTITION (BitVec.ofNat 72 m.1)
      | none => (x.1.compare 0 [0x2A0, f.g, key, n]).into fun t =>
        let old := s.ctx.group f.g
        let g : Group :=
          { key := key, members := x.2, rank := r, status := (old.map (·.status)).getD 0, fmx := old.bind (·.fmx) }
        .done { t with ctx := { t.ctx with groups := SMap.put t.ctx.groups f.g g } }

def execCgrp (k : Ctl) (f : FColl) (s : State) : Out :=
  run 0x2A0 k [.s f.n, .s f.k] (fun s => defineGroup s f) s

/-- A data collective or CBAR: an undefined group traps ILLOP (R424); else the collective enters the queue as the next of its
group (R211). -/
def issueColl (s : State) (op : Nat) (f : FColl) : Res :=
  match s.ctx.group f.g with
  | none => .trap cILLOP 0
  | some g =>
    let x : CuCmd := { op := op, dst := s.ra f.ad 0, src := s.ra f.asrc 1, n := (s.rs f.n 2).toNat, sync := 0, fn := f.fn,
                       g := f.g, seq := g.seq, ty := f.ty }
    s.cuEnter (if op = 0x2A4 then { x with n := 0, dst := 0, src := 0 } else x) false fun t =>
      { t with ctx := t.ctx.modGroup f.g fun y => { y with seq := y.seq + 1, left := y.left + 1 } }

def execCring (k : Ctl) (f : FColl) (s : State) : Out := run 0x2A1 k [.s f.n] (fun s => issueColl s 0x2A1 f) s
def execCredu (k : Ctl) (f : FColl) (s : State) : Out := run 0x2A2 k [.s f.n] (fun s => issueColl s 0x2A2 f) s
def execCgath (k : Ctl) (f : FColl) (s : State) : Out := run 0x2A3 k [.s f.n] (fun s => issueColl s 0x2A3 f) s
def execCbar (k : Ctl) (f : FColl) (s : State) : Out := run 0x2A4 k [] (fun s => issueColl s 0x2A4 f) s

/-- CWAIT (R213, R399): a recorded mismatch traps first. -/
def waitGroup (s : State) (f : FColl) : Res :=
  if s.trails then s.takeCopy.into fun x => .done (x.1.late [(.s f.d, x.2)])
  else match s.ctx.group f.g with
  | none => .done ((s.copyTo s.cur 0).late [(.s f.d, 0)])
  | some g =>
    if g.left ≠ 0 then .hold { s with thr := { s.thr with wait := .cwait f.g } }
    else match g.fmx with
    | some t =>
      s.trapOnce (fun s => { s with ctx := s.ctx.modGroup f.g fun y => { y with fmx := none } }) cFMTX (BitVec.ofNat 72 t)
    | none =>
      let t : State := { s with ctx := s.ctx.modGroup f.g fun y => { y with status := 0 } }
      let v := BitVec.ofNat 1024 g.status
      .done ((t.copyTo t.cur v).late [(.s f.d, v)])

def execCwait (k : Ctl) (f : FColl) (s : State) : Out := run 0x2A5 k [.s f.d] (fun s => waitGroup s f) s

/-! ### Running a collective -/

/-- Bytes of an element of CREDU, and the bytes that a rank contributes. -/
def CuCmd.collWidth (x : CuCmd) : Nat := if x.op = 0x2A2 then tyBytes x.ty else 1
def CuCmd.collBytes (x : CuCmd) : Nat := if x.op = 0x2A4 then 0 else x.n * x.collWidth

/-- Rank `q` contributes data to rank `r` of `p` (R212). -/
def CuCmd.feeds (x : CuCmd) (p q r : Nat) : Bool :=
  match x.op with
  | 0x2A1 => if bit x.fn 2 then (q + p - 1) % p == r else (q + 1) % p == r
  | 0x2A2 => !bit x.fn 2 || r == 0
  | 0x2A3 => true
  | _ => false

/-- The chunks of a rank's source, each of at most 4 KiB (R214), a failure mark where one cannot be read (R424); none while
an access has to wait. -/
def sourceChunks (s : State) (t c : Nat) (x : CuCmd) : Nat → Nat → Option (List (List Byte × List Nat × Bool))
  | 0, _ => some []
  | fuel + 1, off =>
    let w := x.who t c
    let n := min (x.collBytes - off) 4096
    let a := x.src + BitVec.ofNat 72 off
    match s.cuRead w (bit x.fn 0) a n, sourceChunks s t c x fuel (off + n) with
    | .wait, _ => none
    | _, none => none
    | .fail _ _, some l => some (([], [], true) :: l)
    | .ok bs _, some l => some ((bs, s.cuBad w (bit x.fn 0) a n, false) :: l)

/-- The chunks that a rank sends to every rank of its group. A rank that takes no data from this one gets one empty chunk;
this rank's own says whether its source failed. -/
def chunksFor (s : State) (t c : Nat) (x : CuCmd) (g : Group) : Option (List Chunk) :=
  let p := g.members.length
  match sourceChunks s t c x ((x.collBytes + 4095) / 4096) 0 with
  | none => none
  | some parts =>
    some ((List.range p).flatMap fun r =>
      let tgt := g.members.getD r (0, 0)
      let mine := if x.feeds p g.rank r && !parts.isEmpty then parts
        else [([], [], r == g.rank && parts.any fun b => b.2.2)]
      (List.range mine.length).map fun i =>
        let b := mine.getD i ([], [], false)
        { pid := (s.getCtx t c).pid, dstTile := tgt.1, dstFab := tgt.2, key := g.key, seq := x.seq, rank := g.rank, idx := i,
          total := mine.length, op := x.op, fn := x.fn, ty := x.ty, n := x.n, xsp := x.xsp, srcTile := (s.getCtx t c).vtile,
          srcFab := s.ownFab, phys := t
          bytes := b.1, bad := b.2.1, fail := b.2.2, spoilt := x.spoilt })

/-- What rank `q` has sent for the collective: its chunks in order, once they are all here. -/
def Group.from_ (g : Group) (seq q : Nat) : Option (List Chunk) :=
  let l := g.got.filter fun c => c.rank == q && c.seq == seq
  match l with
  | [] => none
  | c :: _ =>
    let all := (List.range c.total).filterMap fun i => l.find? fun d => d.idx == i
    if all.length = c.total then some all else none

/-- The bytes a list of chunks carries, and which of them come from poison. -/
def chunkBytes (l : List Chunk) : List Byte := l.flatMap (·.bytes)
def chunkBad : Nat → List Chunk → List Nat
  | _, [] => []
  | off, c :: r => c.bad.map (· + off) ++ chunkBad (off + c.bytes.length) r

/-- CREDU's fold over the ranks' elements in rank order (R212, R214): from rank `q` on. -/
def reduceFrom (tile q : Nat) (acc : Num) : List Num → Num
  | [] => acc
  | x :: r => reduceFrom tile (q + 1) (readF32 ((acc.add x (payloadOf tile q)).pack fp32)) r

/-- Element `e` of CREDU's result. -/
def reduceElem (tile ty : Nat) (ranks : List (List Byte)) (e : Nat) : List Byte :=
  let w := tyBytes ty
  let xs := ranks.map fun bs => readFloat (floatOf ty) (ofLE ((bs.drop (w * e)).take w))
  let v : Num := match xs with | [] => .fin false 0 0 | x :: r => reduceFrom tile 1 x r
  toLE w (v.pack (floatOf ty))

/-- What a rank writes: pieces at offsets of its destination with their poisoned bytes. `sets` are the ranks' chunks in rank
order. -/
def collPieces (t : Nat) (x : CuCmd) (g : Group) (sets : List (List Chunk)) : List (Nat × List Byte × List Nat) :=
  let p := g.members.length
  let ok := fun (l : List Chunk) => !bit x.fn 3 || l.all fun c => c.xsp == x.xsp
  match x.op with
  | 0x2A1 =>
    let q := if bit x.fn 2 then (g.rank + 1) % p else (g.rank + p - 1) % p
    let l := sets.getD q []
    if ok l then [(0, chunkBytes l, chunkBad 0 l)] else []
  | 0x2A2 =>
    if bit x.fn 2 && g.rank != 0 then []
    else
      let w := tyBytes x.ty
      let bs := sets.map chunkBytes
      let bad := (sets.flatMap (chunkBad 0)).eraseDups
      let spoilt := (List.range (x.n * w)).filter fun j => bad.any fun b => b / w == j / w
      [(0, (List.range x.n).flatMap (reduceElem t x.ty bs), spoilt)]
  | 0x2A3 =>
    (List.range p).filterMap fun q =>
      let l := sets.getD q []
      if ok l then some (q * x.n, chunkBytes l, chunkBad 0 l) else none
  | _ => []

/-- A collective's destination, `off` bytes on (R209). -/
def CuCmd.collDest (x : CuCmd) (t c off : Nat) : Dest2 :=
  if bit x.fn 1 then .unit t c (x.dst.toNat + off) else .va (x.dst + BitVec.ofNat 72 off)

/-- Pieces that follow one another are one, so that a double across two of them is written whole (R424). -/
def joinPieces : List (Nat × List Byte × List Nat) → List (Nat × List Byte × List Nat)
  | [] => []
  | (off, bs, bad) :: r =>
    match joinPieces r with
    | (o, cs, worse) :: q =>
      if off + bs.length = o then (off, bs ++ cs, bad ++ worse.map (· + bs.length)) :: q else (off, bs, bad) :: (o, cs, worse) :: q
    | [] => [(off, bs, bad)]

/-- Writes pieces in order: the first failure ends the writing, with the state before it. -/
def State.collWrite (s : State) (t c : Nat) (x : CuCmd) : List (Nat × List Byte × List Nat) → Option (State × Bool)
  | [] => some (s, true)
  | (off, bs, bad) :: r =>
    match s.cuWrite (x.who t c) (x.collDest t c off) bs bad with
    | .wait => none
    | .fail _ _ => some (s, false)
    | .ok u => u.collWrite t c x r

/-- A rank that ends with FAILED holds UNKNOWN destination bytes (R214, R424; log 6): pieces of free bytes. -/
def State.freePieces (s : State) (n : Nat) : List (Nat × List Byte × List Nat) :=
  (List.range n).map fun j => (j, [Config.freeByte s.fresh j], [])

/-- Writes free bytes wherever the destination can be written. -/
def State.spill (s : State) (t c : Nat) (x : CuCmd) (g : Group) : State :=
  (s.freePieces (x.collRange g)).foldl (fun s p => match s.collWrite t c x [p] with | some (u, _) => u | none => s) s

/-- The status word of a collective that ends (R213). -/
def Group.word (g : Group) : Nat :=
  fields [(0, b2n g.rerouted), (1, b2n (g.failed || g.mismatch)), (2, b2n g.mismatch), (16, Nat.min g.retx 0xFFFF)]

/-- The sender of narrow data that a rank has received of a collective that took a different `XSP` (R136, R213). -/
def CuCmd.oddSender (x : CuCmd) (g : Group) : Option Nat :=
  if bit x.fn 3 then
    (g.got.find? fun d => d.seq == x.seq && x.feeds g.members.length d.rank g.rank && d.xsp != x.xsp).map (·.srcTile)
  else none

/-- The collective at the head of a context's queue ends: its status joins its group's with what it records, it leaves the queue, and
threads that waited for the group's last one go on. -/
def State.collEnd (s : State) (t c : Nat) (x : CuCmd) (failed mismatch : Bool) : State :=
  let u := s.modCtx t c fun y => { (y.modGroup x.g fun g =>
      let fmx := x.oddSender g
      let h := { g with
        failed := g.failed || failed || fmx.isSome, mismatch := g.mismatch || mismatch
        rerouted := g.rerouted || g.got.any fun d => d.seq == x.seq && d.rerouted }
      { h with
        status := h.status ||| h.word, retx := 0, left := h.left - 1, sent := false, failed := false, mismatch := false,
        rerouted := false, got := h.got.filter (fun d => d.seq != x.seq), kept := h.kept.filter (fun d => d.seq != x.seq),
        fmx := if h.fmx.isSome then h.fmx else fmx }) with cu := y.cu.retire }
  let gone := ((u.getCtx t c).group x.g).all fun g => g.left == 0
  (ctxKeys t c).foldl (fun s k => s.modThread k fun z =>
    if gone && z.wait == .cwait x.g then { z with wait := .none } else z) u

/-- Whether a rank's chunks name the same collective as this rank's (R211). -/
def CuCmd.agrees (x : CuCmd) (l : List Chunk) : Bool :=
  l.all fun c => c.op == x.op && c.fn == x.fn && c.ty == x.ty && c.n == x.n

/-- The collective ends with every rank's chunks here. -/
def State.collFinish (s : State) (t c : Nat) (x : CuCmd) (g : Group) (sets : List (List Chunk)) : State :=
  let p := g.members.length
  if !sets.all x.agrees then s.collEnd t c x true true
  else
    let mine := (List.range p).filter fun q => x.feeds p q g.rank
    let failed := mine.any (fun q => (sets.getD q []).any (·.fail)) || (sets.getD g.rank []).any (·.fail)
    if failed then (s.spill t c x g).collEnd t c x true false
    else
    let spoilt := x.early || mine.any fun q => (sets.getD q []).any (·.spoilt)
    match s.collWrite t c x (joinPieces (if spoilt then s.freePieces (x.collRange g) else collPieces t x g sets)) with
      | none => s
      | some (u, true) => u.collEnd t c x false false
      | some (u, false) => (u.spill t c x g).collEnd t c x true false

/-- The CU of a context runs the collective at the head of its queue: it sends its source, then ends once every rank's chunks
are here and its own are acknowledged. -/
def State.collRun (s : State) (t c : Nat) : State :=
  match (s.getCtx t c).cu.q with
  | [] => s
  | x :: _ =>
    if s.engGoes t c false = false ∨ (s.getCtx t c).cu.stop ∨ x.isCopy ∨ s.engAfter ⟨t, c, x.thr⟩ x.id = false then s
    else match (s.getCtx t c).group x.g with
    | none => s
    | some g =>
      if g.lost then (s.spill t c x g).collEnd t c x true false
      else if !g.sent then
        match chunksFor s t c x g with
        | none => s
        | some l =>
          let u := if x.op = 0x2A4 ∨ bit x.fn 0 then s else s.engLooked (x.who t c) [(x.src, x.collBytes)]
          { (u.modCtx t c fun y => y.modGroup x.g fun g => { g with sent := true, kept := g.kept ++ l, since := s.plumb }) with
            net := s.net ++ l }
      else if g.kept.any (fun d => d.seq == x.seq) then s
      else
        let sets := (List.range g.members.length).filterMap (g.from_ x.seq)
        if sets.length = g.members.length then s.collFinish t c x g sets else s

def execCollectiveRun (t c : Nat) (s : State) : Out := .next (s.collRun t c).tickFresh

/-! ### The fabric -/

/-- The pair of dies that each die-to-die link joins, in a grid of two rows of four (R18). -/
def d2dPairs : List (Nat × Nat) := [(0, 1), (1, 2), (2, 3), (4, 5), (5, 6), (6, 7), (0, 4), (1, 5), (2, 6), (3, 7)]

/-- The dies that links in service join to some, by at most `n` of them. -/
def State.reach (s : State) : Nat → List Nat → List Nat
  | 0, l => l
  | n + 1, l => s.reach n ((List.range 8).filter fun d => l.contains d || (List.range 10).any fun j =>
      let p := d2dPairs.getD j (0, 0)
      SMap.get false s.d2dUp j && ((p.1 == d && l.contains p.2) || (p.2 == d && l.contains p.1)))

/-- Chunks can go from one die of the part to another. -/
def State.linked (s : State) (d e : Nat) : Bool := d == e || (s.reach 7 [d]).contains e

/-- A partition owns a Stavuo port that is up: its chunks can leave the part and come to it (R346). -/
def State.route (s : State) (pid : Nat) : Bool :=
  (List.range 24).any fun p => SMap.get false s.portUp p && s.cfg.pown.getD p 0xFF == pid

/-- Where a partition's unit of a virtual tile is, by its resident context, else by its number. -/
def State.seat (s : State) (pid vt : Nat) : Nat :=
  ((s.liveCtxs.find? fun tc => (s.getCtx tc.1 tc.2).pid == pid && (s.getCtx tc.1 tc.2).vtile == vt).map (·.1)).getD vt

/-- A path leads from a chunk's sender to its receiver, as far as this part can tell (R214, R346). -/
def State.carried (s : State) (x : Chunk) : Bool :=
  if x.srcFab = s.ownFab ∧ x.dstFab = s.ownFab then s.linked (dieOf x.phys) (dieOf (s.seat x.pid x.dstTile)) else s.route x.pid

/-- A parked unit's CWAIT on a group need not wait longer (R305, R333): the group has no collective left or was lost, or the CU would go on with
what it has at its head (log 60). -/
def State.groupMoves (s : State) (u : Ctx) (g : Nat) : Bool :=
  match u.group g with
  | none => true
  | some h => h.left == 0 || h.lost || (!u.cu.stop && match u.cu.q with
    | [] => true
    | x :: _ => x.isCopy || match u.group x.g with
      | none => true
      | some y => y.lost || !y.sent || decide (y.since + 2 ^ 24 ≤ s.plumb) ||
          (!y.kept.any (fun d => d.seq == x.seq) && (List.range y.members.length).all fun q => (y.from_ x.seq q).isSome))

/-- The group of a unit that takes a chunk: the unit has issued the matching collective, which has not ended (R211, R424). -/
def Ctx.takes (u : Ctx) (x : Chunk) : Option Nat :=
  if u.pid == x.pid && u.vtile == x.dstTile then
    u.groups.findSome? fun e =>
      if e.2.key == x.key && u.cu.q.any (fun y => !y.isCopy && y.g == e.1 && y.seq == x.seq) then some e.1 else none
  else none

/-- The matching collective of a unit has ended: the chunk is a repeat, or comes too late (R214). -/
def Ctx.past (u : Ctx) (x : Chunk) : Bool :=
  u.pid == x.pid && u.vtile == x.dstTile && (u.takes x).isNone && u.groups.any fun e => e.2.key == x.key && x.seq < e.2.seq

/-- A unit accepts a chunk once (R214). -/
def Ctx.accept (u : Ctx) (g now : Nat) (x : Chunk) : Ctx :=
  u.modGroup g fun h =>
    if h.got.any fun d => d.seq == x.seq && d.rank == x.rank && d.idx == x.idx then { h with since := now }
    else { h with got := h.got ++ [x], since := now }

/-- The resident unit that takes a chunk, or else the place of the parked one among its partition's (R336). -/
def State.chunkFor (s : State) (x : Chunk) : Option (Nat × Nat × Nat) :=
  s.liveCtxs.findSome? fun tc => ((s.getCtx tc.1 tc.2).takes x).map fun g => (tc.1, tc.2, g)
def State.chunkParked (s : State) (x : Chunk) : Option (Nat × Nat) :=
  let l := (s.getPart x.pid).parked
  (List.range l.length).findSome? fun i => (l[i]?.bind fun y => y.ctx.takes x).map fun g => (i, g)

/-- A unit of the part for which the chunk is a repeat. -/
def State.chunkPast (s : State) (x : Chunk) : Bool :=
  (s.liveCtxs.any fun tc => (s.getCtx tc.1 tc.2).past x) || (s.getPart x.pid).parked.any fun y => y.ctx.past x

/-- The chunk's receiver has learnt that its sender is fenced (R382). -/
def State.chunkOrphan (s : State) (x : Chunk) : Bool :=
  x.srcFab == s.ownFab && (s.getDie (dieOf (s.seat x.pid x.dstTile))).knows.contains x.phys

/-- What becomes of a chunk on its arrival is settled. -/
def State.chunkDue (s : State) (x : Chunk) : Bool :=
  s.carried x && (s.ownerOf x.dstTile != x.pid || s.chunkOrphan x || (s.chunkFor x).isSome || (s.chunkParked x).isSome || s.chunkPast x)

/-- An earlier chunk from the same tile to the same tile waits to be delivered (R253). -/
def State.chunkBehind (s : State) (n : Nat) (x : Chunk) : Bool :=
  (s.net.take n).any fun y =>
    y.srcTile == x.srcTile && y.srcFab == x.srcFab && y.dstTile == x.dstTile && y.dstFab == x.dstFab && s.chunkDue y

/-- The same chunk, whichever way it went and however its sender's copy stands. -/
def Chunk.same (x y : Chunk) : Bool :=
  let plain := fun (x : Chunk) => { x with rerouted := false, due := false, took := false }
  plain x == plain y

/-- Changes a group's chunks, whoever holds the group. -/
def State.mapGroups (s : State) (f : Group → Group) : State :=
  let on := fun (u : Ctx) => { u with groups := SMap.map (fun _ h => f h) u.groups }
  let t := s.liveCtxs.foldl (fun s tc => s.modCtx tc.1 tc.2 on) s
  { t with parts := SMap.map (fun _ p => { p with parked := p.parked.map fun y => { y with ctx := on y.ctx } }) t.parts }

/-- The receiver answers a chunk: its sender's copy can be acknowledged (R214). -/
def State.answered (s : State) (x : Chunk) : State :=
  s.mapGroups fun h => { h with kept := h.kept.map fun d => if d.same x then { d with took := true } else d }

/-- A message from a fenced tile is discarded at a tile that has learnt of the fence: `NORPHAN` and the error log count it (R382). -/
def State.orphaned (s : State) (t : Nat) : State :=
  (s.modTile t fun x =>
    { x with fencest := BitVec.ofNat 64 (x.fencest.toNat - bits x.fencest.toNat 32 16 * 2 ^ 32 +
        Nat.min (bits x.fencest.toNat 32 16 + 1) 0xFFFF * 2 ^ 32) }).logEvent 8 t (s.ownerOf t) 0 0

/-- A chunk in flight reaches its receiver, which accepts it once and drops a repeat, a chunk of another partition or of a fenced tile
(R211, R214, R336, R382). -/
def State.chunkDeliver (s : State) (n : Nat) (x : Chunk) : State :=
  let u : State := { s with net := s.net.eraseIdx n }
  if x.dstFab ≠ s.ownFab ∨ !s.chunkDue x ∨ s.chunkBehind n x then s
  else if s.ownerOf x.dstTile ≠ x.pid then u.logEvent 14 x.dstTile x.pid 0 x.key
  else if s.chunkOrphan x then u.orphaned (s.seat x.pid x.dstTile)
  else match s.chunkFor x with
  | some (t, c, g) => (u.answered x).modCtx t c fun y => y.accept g s.plumb x
  | none =>
    match s.chunkParked x with
    | none => u.answered x
    | some (i, g) => (u.answered x).modPart x.pid fun p =>
        { p with parked := p.parked.mapIdx fun j y => if j = i then { y with ctx := y.ctx.accept g s.plumb x } else y }

/-! ### Ranks on other parts -/

/-- The collectives of this part that wait for a rank on another part whose chunks have not come: the context, the command, its group
and that rank (log 78). -/
def State.awaited (s : State) : List (Nat × Nat × CuCmd × Group × Nat) :=
  s.liveCtxs.flatMap fun tc =>
    let u := s.getCtx tc.1 tc.2
    u.groups.flatMap fun e =>
      match u.cu.q.find? fun y => !y.isCopy && y.g == e.1 with
      | none => []
      | some x => (List.range e.2.members.length).filterMap fun q =>
          let m := e.2.members.getD q (0, 0)
          let far := m.2 != s.ownFab && s.route u.pid &&
            !((List.range 8).any fun p => bit s.lostParts p && SMap.get 0 s.fabids p == m.2)
          let here := fun (d : Chunk) => d.key == e.2.key && d.seq == x.seq && d.rank == q && d.pid == u.pid && d.dstTile == u.vtile
          if far && !(e.2.got.any here || s.net.any here) then some (tc.1, tc.2, x, e.2, q) else none

/-- What a rank on another part sends to the ranks on this one: its data, whether its collective agrees with theirs, its `XSP`, and
whether it could read its source, are free values (log 78). -/
def State.farChunks (s : State) (t c : Nat) (x : CuCmd) (g : Group) (q : Nat) : List Chunk :=
  let p := g.members.length
  let free := fun i => Config.freeChoice s.fresh i
  let from_ := g.members.getD q (0, 0)
  let total := (x.collBytes + 4095) / 4096
  (List.range p).flatMap fun r =>
    let tgt := g.members.getD r (0, 0)
    if tgt.2 ≠ s.ownFab then []
    else
      let data := free 0 && x.feeds p q r && total != 0
      (List.range (if data then total else 1)).map fun i =>
        let n := min (x.collBytes - 4096 * i) 4096
        let fail := data && free (8 + i)
        { pid := (s.getCtx t c).pid, dstTile := tgt.1, dstFab := tgt.2, key := g.key, seq := x.seq, rank := q, idx := i,
          total := if data then total else 1, op := x.op, fn := x.fn, ty := x.ty, n := if free 0 then x.n else x.n + 1
          xsp := free 1, srcTile := from_.1, srcFab := from_.2
          bytes := if data && !fail then (List.range n).map fun j => Config.freeByte s.fresh (4096 * i + j) else []
          bad := if data && !fail && free 2 then (List.range n).filter fun j => Config.freeChoice s.fresh (2 ^ 32 + 4096 * i + j) else []
          fail := fail, rerouted := free 3, spoilt := free 4 }

/-- CHUNK_ARRIVAL: the `n`-th chunk in flight reaches its receiver; beyond those, the chunks of the next rank on another part set out,
and last a chunk of another partition comes from another part, which is dropped and counted (R211, log 78). -/
def State.chunkArrive (s : State) (n : Nat) : State :=
  match s.net[n]? with
  | some x => s.chunkDeliver n x
  | none =>
    match s.awaited[n - s.net.length]? with
    | some (t, c, x, g, q) => ({ s with net := s.net ++ s.farChunks t c x g q } : State).tickFresh
    | none =>
      let tile := (Config.freeWord s.fresh 0).toNat % 4096
      let pid := (Config.freeWord s.fresh 1).toNat % 16
      if s.members = 2 ^ s.domPos ∨ s.ownerOf tile = pid then s
      else (s.logEvent 14 tile pid 0 (Config.freeWord s.fresh 2).toNat).tickFresh

def execChunkArrival (n : Nat) (s : State) : Out := .next (s.chunkArrive n)

/-- The group of a context that keeps chunk `idx` for rank `rank` of a sequence number, and the chunk. -/
def Ctx.keeps (u : Ctx) (rank seq idx : Nat) : Option (Nat × Chunk) :=
  u.groups.findSome? fun e =>
    (e.2.kept.find? fun d => d.seq == seq && d.idx == idx && (d.dstTile, d.dstFab) == e.2.members.getD rank (4096, 0)).map
      fun d => (e.1, d)

/-- CHUNK_ACK: the acknowledgement of chunk `idx` by rank `rank` reaches the sender, which drops the chunk it kept (R214). A chunk for
this part has been answered; one for another part leaves the fabric with it. -/
def State.chunkAck (s : State) (t c rank seq idx : Nat) : State :=
  match (s.getCtx t c).keeps rank seq idx with
  | none => s
  | some (g, x) =>
    if (if x.dstFab = s.ownFab then x.took else s.route x.pid) = false then s
    else
      let u : State := if x.dstFab = s.ownFab then s else { s with net := s.net.filter fun y => !y.same x }
      u.modCtx t c fun y => y.modGroup g fun h => { h with kept := h.kept.filter (fun d => !d.same x), since := s.plumb }

def execChunkAck (t c rank seq idx : Nat) (s : State) : Out := .next (s.chunkAck t c rank seq idx)

/-- A Stavuo port or a die-to-die link has gone down: every chunk not yet acknowledged is to be sent again (R214). -/
def State.pathDown (s : State) : State := s.mapGroups fun h => { h with kept := h.kept.map fun d => { d with due := true } }

/-- CHUNK_RESEND: a link has gone down since the chunk was sent, and the fabric sends it again by another path (R214): REROUTED at every
rank of the collective, and RETX counts. -/
def State.chunkResend (s : State) (t c rank seq idx : Nat) : State :=
  match (s.getCtx t c).keeps rank seq idx with
  | none => s
  | some (g, x) =>
    if !x.due || !s.carried x then s
    else
      let of_ := fun (d : Chunk) => d.key == x.key && d.pid == x.pid && d.seq == seq
      let mark := fun (d : Chunk) => { d with rerouted := d.rerouted || of_ d }
      let u := s.modCtx t c fun y => y.modGroup g fun h =>
        { h with retx := h.retx + 1, kept := h.kept.map fun d => if d.same x then { d with due := false } else d }
      ({ u with net := (u.net ++ [{ x with due := false, took := false }]).map mark } : State).mapGroups fun h =>
        { h with got := h.got.map mark, kept := h.kept.map mark }

def execChunkResend (t c rank seq idx : Nat) (s : State) : Out := .next (s.chunkResend t c rank seq idx)

/-- No path lets a chunk of a collective through (R214): one that is kept has been dropped, or none leads to its receiver or from a rank whose
chunks have not come. What lies between this part and another is a free value (log 78). -/
def State.noWay (s : State) (t : Nat) (x : CuCmd) (h : Group) : Bool :=
  let far := fun (i pid : Nat) => !s.route pid || Config.freeChoice s.fresh i
  (h.kept.any fun d => d.seq == x.seq &&
    (if d.dstFab = s.ownFab then !s.carried d || (!d.took && !s.net.any (·.same d)) else far d.rank d.pid)) ||
  (List.range h.members.length).any fun q =>
    let m := h.members.getD q (0, 0)
    let pid := s.ownerOf t
    (h.from_ x.seq q).isNone &&
      (if m.2 = s.ownFab then s.ownerOf m.1 != pid || !s.linked (dieOf (s.seat pid m.1)) (dieOf t) else far q pid)

/-- NO_PATH_LIMIT: no path has let a chunk through for 2^24 cycles, and the collective at the head of the queue ends with
FAILED and UNKNOWN destination bytes (R214). -/
def State.noPath (s : State) (t c g : Nat) : State :=
  match (s.getCtx t c).cu.q, (s.getCtx t c).group g with
  | x :: _, some h =>
    if !x.isCopy && x.g == g && h.sent && h.since + 2 ^ 24 ≤ s.plumb && s.noWay t x h then (s.spill t c x h).collEnd t c x true false else s
  | _, _ => s

def execNoPathLimit (t c g : Nat) (s : State) : Out := .next (s.noPath t c g).tickFresh

end Sys2Proof.Machine
end

