-- ==== Sys2Proof/Machine/Control.lean ====
section
/-! DEFINITION. Branches, calls, jump tables and loops, opcodes 0x080 to 0x08A (R79 to R86). -/

namespace Sys2Proof.Machine

/-- A transfer, or falling through. -/
def branch (s : State) (taken : Bool) (t : Addr) : Res := if taken then .go s t else .done s

def execBr (k : Ctl) (f : FB) (s : State) : Out :=
  run 0x080 k [] (fun s => .go s (targetB s.thr.pc f.dl f.sl)) s
def execBc (k : Ctl) (f : FB) (s : State) : Out :=
  run 0x081 k [.s f.a] (fun s => branch s (cond f.cnd (s.rs f.a) 0) (targetB s.thr.pc f.dl f.sl)) s
def execBcmp (k : Ctl) (f : FB) (s : State) : Out :=
  run 0x082 k [.s f.a, .s f.b]
    (fun s => branch s (cond f.cnd (s.rs f.a) (s.rs f.b 1)) (targetB s.thr.pc f.dl f.sl)) s
def execBi (k : Ctl) (f : FRR) (s : State) : Out :=
  run 0x083 k [] (fun s => .go s (s.ra f.a)) s
def execCall (k : Ctl) (f : FB) (s : State) : Out :=
  run 0x084 k [] (fun s => .go (s.wa f.a (nextPC s.thr.pc)) (targetB s.thr.pc f.dl f.sl)) s
def execCalli (k : Ctl) (f : FRR) (s : State) : Out :=
  run 0x085 k [] (fun s => .go (s.wa f.d (nextPC s.thr.pc)) (s.ra f.a)) s
def execRet (k : Ctl) (f : FRR) (s : State) : Out :=
  run 0x086 k [] (fun s => .go s (s.ra f.a)) s

/-- JTAB (R82): an index out of range falls through without access. A fault while the entry is read is precise, that of a fenced tile
(R381) included. -/
def jtab (s : State) (f : FRR) : Res :=
  let i := (s.rs f.a).toNat
  if (s.rs f.b 1).toNat ≤ i then .done s
  else
    let ea := s.ra f.c 2 + BitVec.ofNat 72 (4 * i)
    (s.loadNow [(ea, 4)] 4).into fun g =>
      if g.bad.isSome then .trap g.why ea
      else
        let e := ofLE g.bs
        if 4 < e % 8 then .trap cILLTGT ea
        else .go g.s (lineAddr s.thr.pc + addr (64 * sgn 29 (e / 8)) + BitVec.ofNat 72 (12 * (e % 8)))

def execJtab (k : Ctl) (f : FRR) (s : State) : Out := run 0x087 k [.s f.a, .s f.b] (fun s => jtab s f) s

/-- The end slot is the older member of a pair in its line (R54). -/
def State.olderMember (s : State) (e : Addr) : Except (Nat × Addr) Bool :=
  match s.fetchWord e with
  | .error c => .error c
  | .ok l => .ok ((slotOf e).any fun i => l.older.contains i)

/-- The end slot of LOOP and LOOPI, a check of step 3 and so made whatever the predicate (R54, R56, R61, R84 item 1). When its line
cannot be fetched, the instruction traps as a transfer there would (log 76). -/
def loopEnd (e : Addr) (s : State) : Option (Nat × Addr) :=
  let b := nextPC s.thr.pc
  if e < b ∨ e.toNat / 2 ^ 36 ≠ b.toNat / 2 ^ 36 then some (cILLOP, 0)
  else match s.olderMember e with
    | .error x => some x
    | .ok true => some (cILLOP, 0)
    | .ok false => none

/-- LOOP and LOOPI with a legal end (R84): the other checks in their order, then the level. -/
def armLoop (s : State) (count : Word) (e : Addr) : Res :=
  let b := nextPC s.thr.pc
  let l := s.thr.loops
  match s.fetchWord b with
  | .error (c, a) => .trap c a
  | .ok x =>
    if (slotOf b).all fun i => !x.tgt i then .trap cILLTGT b
    else if l.lc1 ≠ 0 then .trap cILLOP 0
    else if l.lc0 ≠ 0 ∧ l.end_ 0 < low36 e then .trap cILLOP 0
    else
      let s := (s.wordSeen e).wordSeen b
      if count = 0 then .go s (nextPC e)
      else if l.lc0 = 0 then
      .done { s with thr := { s.thr with loops :=
        { l with lc0 := count, ls := setHalf l.ls 0 (low36 b), le := setHalf l.le 0 (low36 e) } } }
      else
      .done { s with thr := { s.thr with loops :=
        { l with lc1 := count, ls := setHalf l.ls 1 (low36 b), le := setHalf l.le 1 (low36 e) } } }

def execLoop (k : Ctl) (f : FB) (s : State) : Out :=
  .next (s.issue 0x088 k [.s f.a] (loopEnd (targetB s.thr.pc f.dl f.sl)) fun s => armLoop s (s.rs f.a) (targetB s.thr.pc f.dl f.sl))
def execLoopi (k : Ctl) (f : FLoopi) (s : State) : Out :=
  .next (s.issue 0x089 k [] (loopEnd (targetB s.thr.pc f.dl f.sl)) fun s =>
    armLoop s (BitVec.ofNat 64 f.cnt) (targetB s.thr.pc f.dl f.sl))

/-- BREAKL (R86). -/
def breakLoop (s : State) : Res :=
  let l := s.thr.loops
  if l.lc1 ≠ 0 then
    .go { s with thr := { s.thr with loops := { l with lc1 := 0 } } } (nextPC (withLow36 s.thr.pc (l.end_ 1)))
  else if l.lc0 ≠ 0 then
    .go { s with thr := { s.thr with loops := { l with lc0 := 0 } } } (nextPC (withLow36 s.thr.pc (l.end_ 0)))
  else .trap cILLOP 0

def execBreakl (k : Ctl) (_ : FRR) (s : State) : Out := run 0x08A k [] breakLoop s

end Sys2Proof.Machine
end

