-- ==== Sys2Proof/Machine/Vector.lean ====
section
/-! DEFINITION. The vector group, opcodes 0x200 to 0x22A, and the exponent histogram (R140, R141, R164 to R176). -/

namespace Sys2Proof.Machine

/-! ### Lanes and elements -/

/-- Element `e` of width `w` is active under a mask: its lane's bit is 1 (R164, R165). -/
def activeElem (m : BitVec 32) (w e : Nat) : Bool := m.getLsbD (e * w / 4)

/-- A vector whose active elements are given and whose others keep their value (R165 item 3). -/
def mapElems (w : Nat) (m : BitVec 32) (old : Vec) (g : Nat → Nat) : Vec :=
  ofElems w ((List.range (128 / w)).map fun e => if activeElem m w e then g e else elemOf old w e)

/-- Some active element sets a flag. -/
def anyElem (w : Nat) (m : BitVec 32) (g : Nat → Bool) : Bool :=
  (List.range (128 / w)).any fun e => activeElem m w e && g e

/-- The vector results still to come of the threads of the unit in focus. -/
def State.vuOut (s : State) : Nat :=
  (ctxKeys s.cur.t s.cur.c).foldl (fun n k => n + ((s.getThread k).pend.filter fun p => p.what == .vec).length) 0

/-- The VU's queue has room (R34): it holds two instructions, each with its result still to come. Which of those the VU has taken
already is free (log 59). -/
def State.vuRoom (s : State) : Bool := decide (s.vuOut < 2) || Config.freeChoice s.fresh 0x200

/-- A vector instruction enters the VU's queue, or waits while it is full (R34). -/
def vuEnter (s t : State) (ds : List (Reg × Vec)) : Res := if s.vuRoom then .done (t.leave .vec ds) else .hold s.held_

/-- A vector instruction that writes a v register: its result returns in the order of the VU's queue (R165 item 2). -/
def vecInto (s : State) (r : Reg) (v : Vec) (sat : Bool := false) : Res :=
  vuEnter s { s with thr := s.thr.stick false sat } [(r, v)]

/-- A vector instruction that computes each active element of VD. -/
def vecMap (op : Nat) (k : Ctl) (f : FV) (regs : List Reg) (g : State → Nat → Nat) (s : State) : Out :=
  run op k (.v f.vd :: regs)
    (fun s => vecInto s (.v f.vd) (mapElems (tyBytes f.ty) (s.rk f.km) (s.rv f.vd 3) (g s))) s

/-- The elements of the sources. -/
def State.va (s : State) (f : FV) (e : Nat) : Nat := elemOf (s.rv f.va 0) (tyBytes f.ty) e
def State.vb (s : State) (f : FV) (e : Nat) : Nat := elemOf (s.rv f.vb 1) (tyBytes f.ty) e
def State.vc (s : State) (f : FV) (e : Nat) : Nat := elemOf (s.rv f.vc 2) (tyBytes f.ty) e

/-! ### Arithmetic -/

/-- An integer result: wrapped, or clamped under .SAT (R167). -/
def intResult (ty : Nat) (sat : Bool) (z : Int) : Nat := if sat then (clampTo ty z).1 else intBits ty z

/-- Addition, subtraction and multiplication of two elements (R166, R167). -/
inductive Arith where
  | add | sub | mul
  deriving DecidableEq, Repr

def arithElem (o : Arith) (ty mode : Nat) (sat : Bool) (gen x y : Nat) : Nat :=
  if ty < 6 then
    let a := readInt ty x
    let b := readInt ty y
    intResult ty sat (match o with | .add => a + b | .sub => a - b | .mul => a * b)
  else
    let p := floatOf ty
    let a := readFloat p x
    let b := readFloat p y
    (match o with
     | .add => a.add b gen (mode == 3)
     | .sub => a.add b.neg gen (mode == 3)
     | .mul => a.mul b gen).pack p mode sat

def vecArith (o : Arith) (op : Nat) (k : Ctl) (f : FV) (s : State) : Out :=
  vecMap op k f [.v f.va, .v f.vb]
    (fun s e => arithElem o f.ty f.rm (f.fn == 1) (payloadOf s.cur.t e) (s.va f e) (s.vb f e)) s

def execVadd (k : Ctl) (f : FV) (s : State) : Out := vecArith .add 0x200 k f s
def execVsub (k : Ctl) (f : FV) (s : State) : Out := vecArith .sub 0x201 k f s
def execVmul (k : Ctl) (f : FV) (s : State) : Out := vecArith .mul 0x202 k f s

/-- VFMA and VFMS: one rounding (R166). -/
def fmaElem (sub : Bool) (ty mode : Nat) (sat : Bool) (gen x y z : Nat) : Nat :=
  let p := floatOf ty
  let c := readFloat p z
  ((readFloat p x).fma (readFloat p y) (if sub then c.neg else c) gen (mode == 3)).pack p mode sat

def vecFma (sub : Bool) (op : Nat) (k : Ctl) (f : FV) (s : State) : Out :=
  vecMap op k f [.v f.va, .v f.vb, .v f.vc]
    (fun s e => fmaElem sub f.ty f.rm (f.fn == 1) (payloadOf s.cur.t e) (s.va f e) (s.vb f e) (s.vc f e)) s

def execVfma (k : Ctl) (f : FV) (s : State) : Out := vecFma false 0x203 k f s
def execVfms (k : Ctl) (f : FV) (s : State) : Out := vecFma true 0x204 k f s

/-- The lesser or the greater of two elements (R167): −0 lies below +0, and a NaN gives the NaN of R126. -/
def pickElem (greater : Bool) (ty x y : Nat) : Nat :=
  if ty < 6 then
    let less := readInt ty x < readInt ty y
    if less != greater then x else y
  else
    let p := floatOf ty
    match nanOf [readFloat p x, readFloat p y] with
    | some q => nanBits p q
    | none =>
      let less := orderKey p x true < orderKey p y true
      if less != greater then x else y

def vecPick (greater : Bool) (op : Nat) (k : Ctl) (f : FV) (s : State) : Out :=
  vecMap op k f [.v f.va, .v f.vb] (fun s e => pickElem greater f.ty (s.va f e) (s.vb f e)) s

def execVmin (k : Ctl) (f : FV) (s : State) : Out := vecPick false 0x205 k f s
def execVmax (k : Ctl) (f : FV) (s : State) : Out := vecPick true 0x206 k f s

/-- VABS and VNEG of an element (R167). -/
def absElem (ty : Nat) (sat : Bool) (x : Nat) : Nat :=
  if ty < 6 then intResult ty sat (readInt ty x).natAbs else (readFloat (floatOf ty) x).abs.pack (floatOf ty)
def negElem (ty : Nat) (sat : Bool) (x : Nat) : Nat :=
  if ty < 6 then intResult ty sat (-readInt ty x) else (readFloat (floatOf ty) x).neg.pack (floatOf ty)

def execVabs (k : Ctl) (f : FV) (s : State) : Out :=
  vecMap 0x207 k f [.v f.va] (fun s e => absElem f.ty (f.fn == 1) (s.va f e)) s
def execVneg (k : Ctl) (f : FV) (s : State) : Out :=
  vecMap 0x208 k f [.v f.va] (fun s e => negElem f.ty (f.fn == 1) (s.va f e)) s

/-- A float function of one element, correctly rounded (R167, R168). -/
def vecFn (g : Nat → Nat → Nat → Num → Nat) (op : Nat) (k : Ctl) (f : FV) (s : State) : Out :=
  vecMap op k f [.v f.va]
    (fun s e => g (floatOf f.ty) f.rm (payloadOf s.cur.t e) (readFloat (floatOf f.ty) (s.va f e))) s

def execVrcp (k : Ctl) (f : FV) (s : State) : Out := vecFn (fun p m g x => divFloat p m g (.fin false 1 0) x) 0x209 k f s
def execVrsq (k : Ctl) (f : FV) (s : State) : Out := vecFn rsqrtFloat 0x20A k f s
def execVexp2 (k : Ctl) (f : FV) (s : State) : Out := vecFn (fun p m _ x => exp2Float p m x) 0x20B k f s
def execVlog2 (k : Ctl) (f : FV) (s : State) : Out := vecFn log2Float 0x20C k f s
def execVdiv (k : Ctl) (f : FV) (s : State) : Out :=
  vecMap 0x20D k f [.v f.va, .v f.vb]
    (fun s e => divFloat (floatOf f.ty) f.rm (payloadOf s.cur.t e) (readFloat (floatOf f.ty) (s.va f e))
      (readFloat (floatOf f.ty) (s.vb f e))) s
def execVsqrt (k : Ctl) (f : FV) (s : State) : Out := vecFn sqrtFloat 0x20E k f s

/-! ### Logic, shifts, comparison and selection -/

def vecBits (g : Nat → Nat → Nat) (op : Nat) (k : Ctl) (f : FV) (s : State) : Out :=
  vecMap op k f [.v f.va, .v f.vb] (fun s e => g (s.va f e) (s.vb f e)) s

def execVand (k : Ctl) (f : FV) (s : State) : Out := vecBits (· &&& ·) 0x210 k f s
def execVor (k : Ctl) (f : FV) (s : State) : Out := vecBits (· ||| ·) 0x211 k f s
def execVxor (k : Ctl) (f : FV) (s : State) : Out := vecBits (· ^^^ ·) 0x212 k f s

/-- Shifts by n modulo the element's width (R169). -/
def vecShift (g : Nat → Nat → Nat → Nat) (op : Nat) (k : Ctl) (f : FV) (s : State) : Out :=
  let w := 8 * tyBytes f.ty
  vecMap op k f (if f.fn = 1 then [.v f.va, .s f.ss] else [.v f.va, .v f.vb])
    (fun s e => g w (s.va f e) ((if f.fn = 1 then (s.rs f.ss 1).toNat else s.vb f e) % w)) s

def execVshl (k : Ctl) (f : FV) (s : State) : Out := vecShift (fun w x n => x * 2 ^ n % 2 ^ w) 0x213 k f s
def execVshr (k : Ctl) (f : FV) (s : State) : Out := vecShift (fun _ x n => x / 2 ^ n) 0x214 k f s
def execVsra (k : Ctl) (f : FV) (s : State) : Out :=
  vecShift (fun w x n => (Int.ediv (sgn w x) (2 ^ n) % (2 ^ w : Nat)).toNat) 0x215 k f s

/-- The condition of VCMP (R170). -/
def cmpElem (fn ty x y : Nat) : Bool :=
  let cmpOn := fun (a b : Int) =>
    match fn with
    | 0 => a == b
    | 1 => a != b
    | 2 => a < b
    | 3 => b ≤ a
    | 4 => a ≤ b
    | 5 => b < a
    | _ => false
  if ty < 6 then cmpOn (readInt ty x) (readInt ty y)
  else
    let p := floatOf ty
    if isNanBits p x || isNanBits p y then fn == 1 || fn == 6
    else cmpOn (orderKey p x false) (orderKey p y false)

def execVcmp (k : Ctl) (f : FV) (s : State) : Out :=
  vecMap 0x218 k f [.v f.va, .v f.vb]
    (fun s e => if cmpElem f.fn f.ty (s.va f e) (s.vb f e) then 2 ^ (8 * tyBytes f.ty) - 1 else 0) s

def execVsel (k : Ctl) (f : FV) (s : State) : Out :=
  vecMap 0x219 k f [.v f.va, .v f.vb, .v f.vc] (fun s e => if s.vc f e != 0 then s.va f e else s.vb f e) s

/-! ### Conversion -/

/-- Cvt of R171: an element of type `ts` as one of type `td`, and whether TSR.SAT is set. -/
def cvtElem (ts td mode : Nat) (sat : Bool) (x : Nat) : Nat × Bool :=
  if ts < 6 then
    let z := readInt ts x
    if td < 6 then clampTo td z else ((Num.ofInt z 0).pack (floatOf td) mode sat, false)
  else
    let v := readFloat (floatOf ts) x
    if td < 6 then v.toInt td mode else (v.pack (floatOf td) mode sat, false)

/-- The element of VA that element `e` of VD takes in part `p`, if it takes one. -/
def cvtSource (ns nd p e : Nat) : Option Nat :=
  if nd ≤ ns then some (p * nd + e) else if p * ns ≤ e ∧ e < p * ns + ns then some (e - p * ns) else none

def convert (s : State) (f : FV) : Res :=
  let ts := bits f.imm 0 4
  let w := tyBytes f.ty
  let src := fun e => cvtSource (tyCount ts) (tyCount f.ty) (if tyCount ts = tyCount f.ty then 0 else f.fn) e
  let one := fun x => cvtElem ts f.ty f.rm (bit f.imm 8) (elemOf (s.rv f.va 0) (tyBytes ts) x)
  let m := s.rk f.km
  vecInto s (.v f.vd)
    (mapElems w m (s.rv f.vd 3) fun e => match src e with | some x => (one x).1 | none => elemOf (s.rv f.vd 3) w e)
    (anyElem w m fun e => match src e with | some x => (one x).2 | none => false)

def execVcvt (k : Ctl) (f : FV) (s : State) : Out := run 0x21A k [.v f.vd, .v f.va] (fun s => convert s f) s

/-! ### Reductions and scans -/

/-- Op of R172 on element bits of a type; `gen` is the payload of a NaN it generates. -/
def redOp (fn ty mode gen x y : Nat) : Nat :=
  match fn with
  | 1 => pickElem false ty x y
  | 2 => pickElem true ty x y
  | _ => arithElem .add ty mode false gen x y

/-- Id of R172. -/
def redId (fn ty : Nat) : Nat :=
  match fn with
  | 1 => if ty < 6 then intBits ty (tyHi ty) else infBits (floatOf ty) false
  | 2 => if ty < 6 then intBits ty (tyLo ty) else infBits (floatOf ty) true
  | _ => if ty < 6 then 0 else 2 ^ (floatOf ty + 8)

/-- One level of the pairwise tree; the node that begins at element `i` spans `2 · span` elements. -/
def redPairs (g : Nat → Nat → Nat → Nat) (span : Nat) : Nat → List Nat → List Nat
  | i, x :: y :: r => g i x y :: redPairs g span (i + 2 * span) r
  | _, r => r

/-- The pairwise tree (R172). -/
def redTree (g : Nat → Nat → Nat → Nat) : Nat → Nat → List Nat → Nat
  | 0, _, l => l.headD 0
  | fuel + 1, span, l => redTree g fuel (2 * span) (redPairs g span 0 l)

/-- The type in which VRED works: FP32 for .ADDW. -/
def redTy (f : FV) : Nat := if f.fn = 3 then 7 else f.ty

/-- The operands of a reduction or scan: inactive elements are Id. -/
def redElems (s : State) (f : FV) : List Nat :=
  (List.range (tyCount f.ty)).map fun e =>
    if activeElem (s.rk f.km) (tyBytes f.ty) e then (if f.fn = 3 then s.va f e * 65536 else s.va f e)
    else redId f.fn (redTy f)

def reduce (s : State) (f : FV) : Res :=
  let g := fun i x y => redOp f.fn (redTy f) f.rm (payloadOf s.cur.t i) x y
  vecInto s (.v f.vd) (BitVec.ofNat 1024 (redTree g 7 1 (redElems s f) % 2 ^ (8 * tyBytes (redTy f))))

def execVred (k : Ctl) (f : FV) (s : State) : Out := run 0x21B k [.v f.vd, .v f.va] (fun s => reduce s f) s

/-- The scan of R173. -/
def scanSteps (g : Nat → Nat → Nat → Nat) : Nat → Nat → List Nat → List Nat
  | 0, _, l => l
  | fuel + 1, d, l =>
    scanSteps g fuel (2 * d) ((List.range l.length).map fun e => if d ≤ e then g e (l.getD (e - d) 0) (l.getD e 0) else l.getD e 0)

def scan (s : State) (f : FV) : Res :=
  let g := fun i x y => redOp f.fn f.ty f.rm (payloadOf s.cur.t i) x y
  let l := scanSteps g 7 1 (redElems s f)
  vecInto s (.v f.vd) (mapElems (tyBytes f.ty) (s.rk f.km) (s.rv f.vd 3) fun e => l.getD e 0)

def execVscan (k : Ctl) (f : FV) (s : State) : Out := run 0x21C k [.v f.vd, .v f.va] (fun s => scan s f) s

/-! ### Moves -/

def execVperm (k : Ctl) (f : FV) (s : State) : Out :=
  vecMap 0x220 k f [.v f.va, .v f.vb] (fun s e => if s.vb f e < tyCount f.ty then s.va f (s.vb f e) else 0) s
def execVbcast (k : Ctl) (f : FV) (s : State) : Out :=
  vecMap 0x221 k f [.s f.ss] (fun s _ => (s.rs f.ss 1).toNat % 2 ^ (8 * tyBytes f.ty)) s
def execVins (k : Ctl) (f : FV) (s : State) : Out :=
  run 0x222 k [.v f.vd, .s f.ss] (fun s => vecInto s (.v f.vd)
    (putBytes (s.rv f.vd 3) (tyBytes f.ty * f.imm) (toLE (tyBytes f.ty) (s.rs f.ss 1).toNat))) s
def execVext (k : Ctl) (f : FV) (s : State) : Out :=
  run 0x223 k [.s f.ss, .v f.va] (fun s =>
    let x := elemOf (s.rv f.va 0) (tyBytes f.ty) f.imm
    vecInto s (.s f.ss) (ofWord (if f.ty < 6 then BitVec.ofInt 64 (readInt f.ty x) else BitVec.ofNat 64 x))) s
def execVmov (k : Ctl) (f : FV) (s : State) : Out := vecMap 0x224 k f [.v f.va] (fun s e => s.va f e) s
def execVmovi (k : Ctl) (f : FV) (s : State) : Out := vecMap 0x225 k f [] (fun _ _ => f.imm) s

/-- KOP (R175). -/
def kopBits (fn : Nat) (x y : BitVec 32) : BitVec 32 :=
  match fn with
  | 0 => x &&& y
  | 1 => x ||| y
  | 2 => x ^^^ y
  | 3 => x &&& ~~~y
  | 4 => ~~~x
  | _ => x

def execKop (k : Ctl) (f : FV) (s : State) : Out :=
  run 0x228 k [] (fun s => vecInto s (.k f.vd) ((kopBits f.fn (s.rk f.va) (s.rk f.vb 10)).setWidth 1024)) s

/-- KMOV (R175). -/
def kmov (s : State) (f : FV) : Res :=
  match f.fn with
  | 0 => vecInto s (.k f.vd) (ofWord ((s.rs f.ss 1) &&& 0xFFFFFFFF))
  | 1 => vecInto s (.s f.ss) ((s.rk f.va).setWidth 1024)
  | _ => vecInto s (.k f.vd) (BitVec.ofNat 1024 (maskOf 32 fun i => elemOf (s.rv f.va 0) 4 i != 0))

def execKmov (k : Ctl) (f : FV) (s : State) : Out :=
  run 0x229 k (match f.fn with | 0 => [.s f.ss] | 1 => [.s f.ss] | _ => [.v f.va]) (fun s => kmov s f) s

/-! ### The histogram -/

/-- The bin of a biased exponent (R140). -/
def histBin (hoff e : Nat) : Nat :=
  if e = 0 then 0 else if e = 255 then 63 else if e < hoff then 1 else if hoff + 60 ≤ e then 62 else e - hoff + 2

/-- Tags results by their biased exponents: each adds 1 to its bin, saturating (R141). -/
def Tile.tag (x : Tile) (hoff : Nat) (es : List Nat) : Tile :=
  { x with hist := es.foldl (fun h e =>
      let b := histBin hoff e
      let c := SMap.get 0 h b
      SMap.set 0 h b (if c = 0xFFFFFFFF then c else c + 1)) x.hist }

/-- VHIST: the active elements' exponents. A trailing thread's counts were made by the thread it trails (R393). -/
def tagElems (s : State) (f : FV) : Res :=
  let w := tyBytes f.ty
  let es := ((List.range (tyCount f.ty)).filter fun e => activeElem (s.rk f.km) w e).map fun e =>
    bits (s.va f e) (floatOf f.ty) 8
  let t := if s.trails then s else { s with tile := s.tile.tag (tsrHoff s.thr.tsr) es }
  vuEnter s t []

def execVhist (k : Ctl) (f : FV) (s : State) : Out := run 0x22A k [.v f.va] (fun s => tagElems s f) s

end Sys2Proof.Machine
end

