-- ==== Sys2Proof/Machine/Matrix.lean ====
section
/-! DEFINITION. The matrix unit: its commands, opcodes 0x280 to 0x28A, and the step in which it runs the command at the head
of its queue (R137 to R139, R177 to R195). -/

namespace Sys2Proof.Machine

/-! ### Issuing commands -/

/-- The checks of R180: `al` lists bases and strides with the multiple each must be. -/
def muChecks (kmax : Option Nat) (al : List (Addr × Int × Nat)) : Option Res :=
  if kmax.any (2 ^ 24 < ·) then some (.trap cILLOP 0)
  else (al.find? fun x => x.1.toNat % x.2.2 != 0 || x.2.1 % (x.2.2 : Int) != 0).map fun x => .trap cMISALIGN x.1

/-- A command enters the MU's queue: a stop is delivered at it, a full queue holds it, and a trailed command waits for the
trailing thread's (R34, R191, R393). `vr` is the destination of an MRDV. -/
def State.muEnter (s : State) (x : MuCmd) (vr : Option Nat) : Res :=
  match s.muTrap with
  | some r => r
  | none =>
    if s.trails then
      match s.compare 0 [x.op, x.acc, x.a.toNat, (x.astr % 2 ^ 64).toNat, x.b.toNat, (x.bstr % 2 ^ 64).toNat, x.k, x.fa, x.fb,
          x.mode, x.x.toNat, x.row, x.fn, x.data.toNat] with
      | .error (.done t) => .done (match vr with | some v => t.leave .mrdv [(.v v, 0)] | none => t)
      | .error r => r
      | .ok t => .done t
    else if 2 ≤ s.ctx.mu.q.length then .hold s.held_
    else match s.compare 0 [x.op, x.acc, x.a.toNat, (x.astr % 2 ^ 64).toNat, x.b.toNat, (x.bstr % 2 ^ 64).toNat, x.k, x.fa, x.fb,
        x.mode, x.x.toNat, x.row, x.fn, x.data.toNat] with
    | .error r => r
    | .ok t =>
      let y := { x with
        thr := t.cur.i, pc := t.thr.pc, priv := t.thr.priv, xsp := tsrXsp t.thr.tsr, hoff := tsrHoff t.thr.tsr,
        pend := t.fresh }
      let u := { t with ctx := { t.ctx with mu := { t.ctx.mu with q := t.ctx.mu.q ++ [y] } } }
      .done (match vr with | some v => u.leave .mrdv [(.v v, 0)] | none => u)

/-- The multiple that an operand's base and stride must be (R180). -/
def muAlign (ty : Nat) : Nat := if isHx ty then 64 else if ty = 6 then 2 else 4

/-- The command of format E, its operands read. -/
def muCmdOf (s : State) (op : Nat) (f : FE) : MuCmd :=
  { op := op, acc := f.acc, a := s.ra f.abase 0, astr := (s.rs f.astr 1).toInt, b := s.ra f.bbase 2,
    bstr := (s.rs f.bstr 3).toInt, k := (s.rs f.kreg 4).toNat, fa := f.fa, fb := f.fb, mode := f.mode, x := s.ra f.ext 5 }

/-- MMA, MMAT and MMAS (R179, R180). -/
def execMma (k : Ctl) (f : FE) (s : State) : Out :=
  run 0x280 k [.s f.astr, .s f.bstr, .s f.kreg] (fun s =>
    let x := muCmdOf s 0x280 f
    (muChecks (some x.k) [(x.a, x.astr, muAlign f.fa), (x.b, x.bstr, muAlign f.fb)]).getD (s.muEnter x none)) s
def execMmat (k : Ctl) (f : FE) (s : State) : Out :=
  run 0x281 k [.s f.astr, .s f.bstr, .s f.kreg] (fun s =>
    let x := muCmdOf s 0x281 f
    (muChecks (some x.k) [(x.a, x.astr, 2), (x.x, 0, 64)]).getD (s.muEnter x none)) s
def execMmas (k : Ctl) (f : FE) (s : State) : Out :=
  run 0x282 k [.s f.astr, .s f.bstr, .s f.kreg] (fun s =>
    let x := muCmdOf s 0x282 f
    (muChecks (some x.k) [(x.a, x.astr, 64), (x.b, x.bstr, muAlign f.fb), (x.x, 0, 64)]).getD (s.muEnter x none)) s
def execMzero (k : Ctl) (f : FE) (s : State) : Out :=
  run 0x283 k [] (fun s => s.muEnter { op := 0x283, acc := f.acc } none) s
def execMst (k : Ctl) (f : FE) (s : State) : Out :=
  run 0x286 k [.s f.astr] (fun s =>
    let x := { muCmdOf s 0x286 f with b := 0, bstr := 0, k := 0, x := 0 }
    (muChecks none [(x.a, x.astr, muAlign f.fa)]).getD (s.muEnter x none)) s
def execMlda (k : Ctl) (f : FE) (s : State) : Out :=
  run 0x287 k [.s f.astr] (fun s =>
    let x := { muCmdOf s 0x287 f with b := 0, bstr := 0, k := 0, x := 0 }
    (muChecks none [(x.a, x.astr, muAlign f.fa)]).getD (s.muEnter x none)) s
/-- MRDV and MWRV (R186). -/
def execMrdv (k : Ctl) (f : FMu) (s : State) : Out :=
  run 0x284 k [.v f.vr] (fun s => s.muEnter { op := 0x284, acc := f.acc, row := f.row, fn := f.fn, vr := f.vr } (some f.vr)) s
def execMwrv (k : Ctl) (f : FMu) (s : State) : Out :=
  run 0x285 k [.v f.vr]
    (fun s => s.muEnter { op := 0x285, acc := f.acc, row := f.row, fn := f.fn, data := s.rv f.vr 0 } none) s

/-- MPROG (R192): on a stopped MU only. After a fault the head command goes on from `GDONE`; after a UE the next command begins. -/
def Mu.go (m : Mu) : Mu :=
  if m.stop then { m with stop := false, pend := false, done := if m.pois then 0 else m.gdone } else m
def execMprogGo (k : Ctl) (_ : FMu) (s : State) : Out :=
  run 0x288 k [] (fun s => .done (if s.trails then s else { s with ctx := { s.ctx with mu := s.ctx.mu.go } })) s

/-- Every queued command is discarded; an MRDV's register keeps its old value. -/
def State.muDrop (s : State) (t c : Nat) : State :=
  let m := (s.getCtx t c).mu
  let s := m.q.foldl (fun s x => if x.op = 0x284 then
      s.modThread ⟨t, c, x.thr⟩ fun y => { y with pend := y.pend.filter fun p => !(p.what == .mrdv && p.id == x.pend) }
    else s) s
  s.modCtx t c fun y => { y with mu := { y.mu with
    q := [], stop := false, pend := false, valid := false, done := 0, burst := [], rows := 1, ended := y.mu.ended + m.q.length } }
def execMprogDrop (k : Ctl) (_ : FMu) (s : State) : Out :=
  run 0x288 k [] (fun s => .done (if !s.trails && s.ctx.mu.stop then s.muDrop s.cur.t s.cur.c else s)) s

/-- MSYNC (R193). -/
def execMsync (k : Ctl) (_ : FMu) (s : State) : Out :=
  run 0x289 k [] (fun s =>
    match s.muTrap with
    | some r => r
    | none => if s.ctx.mu.idle then .done s else .hold s.held_) s

/-- MSTATUS (R190), MPR (R189) and the progress of MSTAT.PROG (R194). -/
def Mu.status (m : Mu) : Word :=
  BitVec.ofNat 64 (fields [(0, m.q.length), (2, b2n (m.q.any (·.run) && !m.stop)), (3, b2n m.stop), (4, b2n m.pend), (8, m.cause)])
def Mu.mpr (m : Mu) : Word :=
  BitVec.ofNat 64 (fields [(0, m.gdone % 2 ^ 24), (24, b2n m.valid), (25, b2n m.pois), (26, b2n m.pre), (27, m.macc), (32, m.opc)])
def Mu.progress (m : Mu) : Nat := if m.stop then m.gdone else if m.q.isEmpty then 0 else m.done

def execMstat (k : Ctl) (f : FMu) (s : State) : Out :=
  run 0x28A k [.s f.d] (fun s =>
    if s.trails then s.takeCopy.into fun x => .done (x.1.late [(.s f.d, x.2)])
    else
      let v := if f.fn = 0 then s.ctx.mu.status else BitVec.ofNat 64 s.ctx.mu.progress
      .done ((s.copyTo s.cur (ofWord v)).late [(.s f.d, ofWord v)])) s

/-! ### Accumulators -/

def accNo (a i j : Nat) : Nat := a * 1024 + i * 32 + j
def Ctx.accAt (c : Ctx) (a i j : Nat) : Nat := (SMap.get 0 c.acc (accNo a i j)).toNat
def Ctx.accSet (c : Ctx) (a i j x : Nat) : Ctx := { c with acc := SMap.set 0 c.acc (accNo a i j) (BitVec.ofNat 32 x) }

/-- Sets every element of some rows of an accumulator. -/
def Ctx.accFill (c : Ctx) (a : Nat) (rows : List Nat) (g : Nat → Nat → Nat) : Ctx :=
  rows.foldl (fun c i => (List.range 32).foldl (fun c j => c.accSet a i j (g i j)) c) c

/-! ### Running a command -/

/-- What one part of a command comes to. -/
inductive MuStep where
  /-- The context's new accumulators, after this group or row. -/
  | ok (s : State)
  | fail (cause : Nat) (a : Addr)
  /-- An operand met poison at an address (R188). -/
  | poison (a : Addr)
  /-- The writes of a row that are to be performed before the row is done (R254). -/
  | burst (l : List (Addr × List Byte × Option Nat))
  | wait

/-- A list of reads, the first that fails deciding; `bad` is the first address that met poison. -/
def readAll (s : State) (w : Who) : List (Addr × Nat) → Except MuStep (List (List Byte) × Option Addr)
  | [] => .ok ([], none)
  | (a, n) :: r =>
    match s.engRead w a n with
    | .fail c x => .error (.fail c x)
    | .wait => .error .wait
    | .ok bs bad =>
      match readAll s w r with
      | .error e => .error e
      | .ok (l, b) => .ok (bs :: l, if bad then some a else b)

/-- Element `j` of bytes of BF16 or FP32. -/
def floatAt (ty : Nat) (bs : List Byte) (j : Nat) : Num :=
  let w := tyBytes ty
  readFloat (floatOf ty) (ofLE ((bs.drop (w * j)).take w))

/-- The elements per K-group (R137, R181): of the named HX format, of the first block under HXA, 8 or 32. -/
def groupSize (fa fb : Nat) (first : Block) : Nat :=
  match hxOfTy fa, hxOfTy fb with
  | some m, _ => hxCount m
  | none, some m => hxCount m
  | none, none =>
    if isHx fa || isHx fb then hxCount ((hxBits (bits first.toNat 0 8)).getD 2)
    else if fa = 7 ∨ fb = 7 then 8 else 32

/-- The address of an operand's row or column. -/
def rowAddr (base : Addr) (i : Nat) (stride : Int) : Addr := base + addr (i * stride)

/-- A block as an MU operand (R130, R131, R181): under HXA a block whose format differs from the first block's is unknown.
The elements, and whether the block read as unknown. -/
def muBlock (ty : Nat) (first : Block) (xsp : Bool) (tile n : Nat) (bs : List Byte) : List Num × Bool :=
  let b : Block := BitVec.ofNat 512 (ofLE bs)
  let m := if ty = 11 ∧ bits b.toNat 0 8 ≠ bits first.toNat 0 8 then none else hxRead b ty
  match m with
  | some m => ((List.range n).map fun j => hxElem b m xsp tile j, false)
  | none => ((List.range n).map fun j => .nan (payloadOf tile j), true)

/-- The reads of one group of an operand whose 32 rows lie contiguous in k: A, and an HX B. -/
def groupReads (ty : Nat) (base : Addr) (stride : Int) (e g k : Nat) : List (Addr × Nat) :=
  (List.range 32).map fun i =>
    if isHx ty then (rowAddr base i stride + BitVec.ofNat 72 (64 * g), 64)
    else (rowAddr base i stride + BitVec.ofNat 72 (g * e * tyBytes ty), (min k (g * e + e) - g * e) * tyBytes ty)

/-- The values of such a group: for each row its elements below K, and whether a block read as unknown. -/
def groupVals (ty : Nat) (first : Block) (xsp : Bool) (tile n : Nat) (rows : List (List Byte)) : List (List Num) × Bool :=
  if isHx ty then
    let l := rows.map (muBlock ty first xsp tile n)
    (l.map (·.1), l.any (·.2))
  else (rows.map fun bs => (List.range n).map (floatAt ty bs), false)

/-- The reads and columns of one group of B (R181). -/
def bReads (x : MuCmd) (e g : Nat) : List (Addr × Nat) :=
  if isHx x.fb then groupReads x.fb x.b x.bstr e g x.k
  else (List.range (min x.k (g * e + e) - g * e)).map fun r => (rowAddr x.b (g * e + r) x.bstr, 32 * tyBytes x.fb)
def bCols (x : MuCmd) (first : Block) (tile n : Nat) (rows : List (List Byte)) : List (List Num) × Bool :=
  if isHx x.fb then groupVals x.fb first x.xsp tile n rows
  else ((List.range 32).map fun j => rows.map fun bs => floatAt x.fb bs j, false)

/-- A product beyond K is +0 and takes part in the sum (R182). -/
def padded (short : Bool) (l : List (Num × Num)) : List (Num × Num) :=
  if short then l ++ [(.fin false 0 0, .fin false 0 0)] else l

/-- acc + S with its one rounding (R137, R138). -/
def accAdd (acc : Nat) (v : Num) (gen : Nat) : Nat := ((readF32 acc).add v gen).pack fp32

/-- The first block of the operand that sets the group size under HXA. -/
def muFirst (s : State) (w : Who) (x : MuCmd) : Except MuStep Block :=
  if x.fa ≠ 11 ∧ x.fb ≠ 11 then .ok 0
  else match s.engRead w (if x.fa = 11 then x.a else x.b) 64 with
    | .ok bs _ => .ok (BitVec.ofNat 512 (ofLE bs))
    | .fail c a => .error (.fail c a)
    | .wait => .error .wait

/-- The node and offset of an address in an LMAP window (R156, R184). -/
def State.linAt (s : State) (w : Who) (a : Addr) : Option (Nat × Nat) :=
  let c := s.getCtx w.k.t w.k.c
  match s.translate w .r a with
  | .ok { place := .lin _ n off _, .. } => some (n, off)
  | .ok { place := .linPad, .. } => ((s.getPart c.pid).bindAt c.ptbr.toNat a.toNat).map fun b => (b.node, a.toNat - b.base)
  | _ => none

/-- Diff of R184: some block of the range has a kind other than SAME on the path. -/
def Partn.diffBlocks (p : Partn) (path : List Nat) (off n : Nat) : Bool :=
  path.any fun x => (p.node x).any fun y =>
    (List.range ((off + n + 63) / 64 - off / 64)).any fun j => SMap.get 0 y.kinds (off / 64 + j) != 0

/-- The check of one 64-byte stretch of a row's addresses for MMAS (R184, R187): whether the row differs there. -/
def State.masPart (s : State) (w : Who) (ac aa : Addr) (n : Nat) : Except MuStep Bool :=
  let p := s.getPart (s.getCtx w.k.t w.k.c).pid
  match s.linAt w ac, s.linAt w aa with
  | some (nc, oc), some (na, oa) =>
    match p.path na 16 nc with
    | none => .error (.fail 0x81 ac)
    | some path =>
      if oc ≠ oa then .error (.fail 0x81 ac)
      else if (p.node nc).any (fun y => y.busy.isSome) then .error (.fail 0x82 ac)
      else if (p.node na).any (fun y => y.busy.isSome) then .error (.fail 0x82 aa)
      else .ok (p.diffBlocks path oc n)
  | none, _ => .error (match s.translate w .r ac with | .error c => .fail c ac | .ok _ => .fail 0x80 ac)
  | _, none => .error (match s.translate w .r aa with | .error c => .fail c aa | .ok _ => .fail 0x80 aa)

/-- The stretches of `n` bytes at an address that lie in one block each: offsets and lengths. -/
def stretches (a n : Nat) : List (Nat × Nat) :=
  (List.range ((a % 64 + n + 63) / 64)).map fun j =>
    let lo := 64 * j - a % 64
    (lo, Nat.min n (64 * (j + 1) - a % 64) - lo)

/-- The check of one row's addresses in a K-group, block by block (R184, R187): `n` bytes of it are read, and its `full` are tested. -/
def State.masRow (s : State) (w : Who) (ac aa : Addr) (n full : Nat) : Except MuStep Bool :=
  (stretches ac.toNat n).foldl (fun r e => match r with
    | .error z => .error z
    | .ok d =>
      let len := if e.1 + e.2 = n then full - e.1 else e.2
      match s.masPart w (ac + BitVec.ofNat 72 e.1) (aa + BitVec.ofNat 72 e.1) len with
      | .error z => .error z
      | .ok b => .ok (d || b)) (.ok false)

def masRows (s : State) (w : Who) (n full : Nat) : List (Addr × Addr) → Except MuStep (List Bool)
  | [] => .ok []
  | (ac, aa) :: r =>
    match s.masRow w ac aa n full with
    | .error e => .error e
    | .ok d => match masRows s w n full r with | .error e => .error e | .ok l => .ok (d :: l)

/-- One K-group of MMA or MMAS (R182, R184). MMAS reads only the rows that differ, and B only when some row does. -/
def muGroup (s : State) (w : Who) (x : MuCmd) (e g : Nat) (first : Block) : MuStep :=
  let t := w.k.t
  let c := w.k.c
  let n := min x.k (g * e + e) - g * e
  let gen := payloadOf t g
  let full := if isHx x.fa then 64 else e * tyBytes x.fa
  let at_ := fun (base : Addr) (i : Nat) =>
    rowAddr base i x.astr + BitVec.ofNat 72 (if isHx x.fa then 64 * g else g * e * tyBytes x.fa)
  let diffs : Except MuStep (List Bool) :=
    if x.op = 0x282 then masRows s w (if isHx x.fa then 64 else n * tyBytes x.fa) full ((List.range 32).map fun i => (at_ x.a i, at_ x.x i))
    else .ok (List.replicate 32 true)
  match diffs with
  | .error r => r
  | .ok ds =>
    let is := (List.range 32).filter fun i => ds.getD i false
    let some_ := fun (l : List (Addr × Nat)) => is.map fun i => l.getD i (0, 0)
    let reads := some_ (groupReads x.fa x.a x.astr e g x.k) ++
      (if x.op = 0x282 then some_ (groupReads x.fa x.x x.astr e g x.k) else []) ++ bReads x e g
    if is.isEmpty then .ok s
    else match readAll s w reads with
    | .error r => r
    | .ok (rows, bad) =>
      match bad with
      | some a => .poison a
      | none =>
        let k := is.length
        let av := groupVals x.fa first x.xsp t n (rows.take k)
        let nv := if x.op = 0x282 then groupVals x.fa first x.xsp t n ((rows.drop k).take k) else ([], false)
        let bv := bCols x first t n (rows.drop (if x.op = 0x282 then 2 * k else k))
        let sum := fun (l : List (List Num)) (i j : Nat) =>
          sumProducts (padded (n < e) ((l.getD (is.idxOf i) []).zip (bv.1.getD j []))) gen
        let u := (s.engLooked w reads).modCtx t c fun y => y.accFill x.acc is fun i j =>
          let v := if x.op = 0x282 then (sum av.1 i j).add (sum nv.1 i j).neg gen else sum av.1 i j
          accAdd (y.accAt x.acc i j) v gen
        .ok (u.stickAt ⟨t, c, x.thr⟩ (av.2 || nv.2 || bv.2) false)

/-- One K-group of MMAT: pairs of activations against the table (R183). Where one pair's partial sum is a NaN that the sum itself has made and
another pair holds an operand NaN, R138 does not say which of them compete: in this model the lowest payload of both is taken (log 95). -/
def muTable (s : State) (w : Who) (x : MuCmd) (g : Nat) : MuStep :=
  let t := w.k.t
  let n := min x.k (g * 32 + 32) - g * 32
  let gen := payloadOf t g
  let cols := (List.range 32).map fun j => (rowAddr x.b j x.bstr + BitVec.ofNat 72 (8 * g), (n + 3) / 4)
  let reads := groupReads 6 x.a x.astr 32 g x.k ++ cols ++ [(x.x, 256)]
  match readAll s w reads with
  | .error r => r
  | .ok (rows, bad) =>
    match bad with
    | some a => .poison a
    | none =>
      let tab := rows.getD 64 []
      let a := fun i k => floatAt 6 (rows.getD i []) k
      let code := fun j k => bits ((rows.getD (32 + j) []).getD (k / 4) 0).toNat (2 * (k % 4)) 2
      let zero : Num × Num := (.fin false 0 0, .fin false 0 0)
      let term := fun i j k => if k < n then (a i k, floatAt 6 tab (4 * j + code j k)) else zero
      let one : Num := .fin false 1 0
      let pair := fun i j p =>
        if 2 * p < n then readF32 ((sumProducts [term i j (2 * p), term i j (2 * p + 1)] gen).pack fp32) else .fin false 0 0
      .ok ((s.engLooked w reads).modCtx t w.k.c fun y => y.accFill x.acc (List.range 32) fun i j =>
        accAdd (y.accAt x.acc i j) (sumProducts ((List.range 16).map fun p => (pair i j p, one)) gen) gen)

/-- One row of MLDA (R185): each value as it is read, widened exactly. Whether that gives a BF16 NaN sign 0 and quiet bit 1 (R126) is not said:
in this model its bits are kept (log 95). -/
def muLoadRow (s : State) (w : Who) (x : MuCmd) (i : Nat) : MuStep :=
  let a := rowAddr x.a i x.astr
  let n := tyBytes x.fa
  match s.engRead w a (32 * n) with
  | .fail c z => .fail c z
  | .wait => .wait
  | .ok bs bad =>
    if bad then .poison a
    else .ok ((s.engLooked w [(a, 32 * n)]).modCtx w.k.t w.k.c fun y => y.accFill x.acc [i] fun _ j =>
      let v := ofLE ((bs.drop (n * j)).take n)
      if x.fa = 7 then v else v * 65536)

/-- The elements of a row as MST stores them (R185). -/
def Ctx.storeRow (c : Ctx) (x : MuCmd) (i : Nat) : List Nat :=
  (List.range 32).map fun j =>
    let v := c.accAt x.acc i j
    if x.fa = 7 then v else (readF32 v).pack (floatOf x.fa) (bits x.mode 0 2)

/-- One row of MST (R185): it is checked as a whole, and its doubles are then written one by one, in no order (R254). A row that
meets a lineage window is written at once. -/
def muStoreRow (s : State) (w : Who) (x : MuCmd) (i : Nat) : MuStep :=
  let a := rowAddr x.a i x.astr
  let bs := ((s.getCtx w.k.t w.k.c).storeRow x i).flatMap (toLE (tyBytes x.fa))
  match s.engWrite w a bs with
  | .fail c z => .fail c z
  | .wait => .wait
  | .ok u =>
    if (s.pieces w .w a bs.length).toOption.any fun ps => ps.all fun p => p.spot.place.cuts then
      .burst ((cutDoubles a bs).map fun e => (e.1, e.2, s.engAt w e.1))
    else .ok u

/-- The head command ends. -/
def Mu.retire (m : Mu) : Mu := { m with q := m.q.drop 1, done := 0, ended := m.ended + 1 }

/-- The value of a row for MRDV (R186). -/
def Ctx.accRow (c : Ctx) (a row fn : Nat) : Vec :=
  if fn = 0 then ofElems 4 ((List.range 32).map fun j => c.accAt a row j)
  else ofElems 2 ((List.range 32).map fun j => (readF32 (c.accAt a row j)).pack bf16)

/-- The result of an MRDV reaches its thread, and the thread that trails it. -/
def State.answerRow (s : State) (t c : Nat) (x : MuCmd) (v : Vec) : State :=
  let give := fun (p : Pend) => { p with what := .ready, dests := p.dests.map fun d => { d with v := v } }
  let u := s.modThread ⟨t, c, x.thr⟩ fun y =>
    { y with pend := y.pend.map fun p => if p.what = .mrdv ∧ p.id = x.pend then give p else p }
  if (s.getCtx t c).roles.getD (x.thr + 1) 0 = 7 then
    u.modThread ⟨t, c, x.thr + 1⟩ fun y =>
      match y.pend.findIdx? fun p => p.what == .mrdv with
      | some n => { y with pend := (List.range y.pend.length).filterMap fun j => (y.pend[j]?).map fun p => if j = n then give p else p }
      | none => y
  else u

/-- Who makes a command's accesses (R178). -/
def MuCmd.who (x : MuCmd) (t c : Nat) : Who := { k := ⟨t, c, x.thr⟩, priv := x.priv, mu := true, eng := true }

/-- One part of the head command, and the parts the command has in all: a K-group, a row, or the whole command. MWRV.BF16 widens as MLDA.BF16
does and keeps the bits of a NaN (R126, log 95). -/
def muPart (s : State) (t c : Nat) (x : MuCmd) : Nat × MuStep :=
  let w := x.who t c
  let g := (s.getCtx t c).mu.done
  match x.op with
  | 0x283 => (1, .ok (s.modCtx t c fun y => y.accFill x.acc (List.range 32) fun _ _ => 0))
  | 0x284 => (1, .ok (s.answerRow t c x ((s.getCtx t c).accRow x.acc x.row x.fn)))
  | 0x285 => (1, .ok (s.modCtx t c fun y => y.accFill x.acc [x.row] fun _ j =>
      if x.fn = 0 then elemOf x.data 4 j else elemOf x.data 2 j * 65536))
  | 0x286 => (32, muStoreRow s w x g)
  | 0x287 => (32, muLoadRow s w x g)
  | 0x281 => ((x.k + 31) / 32, if x.k = 0 then .ok s else muTable s w x g)
  | _ =>
    if x.k = 0 then (0, .ok s)
    else match muFirst s w x with
      | .error r => (2 ^ 25, r)
      | .ok first => let e := groupSize x.fa x.fb first; ((x.k + e - 1) / e, muGroup s w x e g first)

/-- The MU stops (R187, R188). -/
def Mu.halt (m : Mu) (x : MuCmd) (cause : Nat) (a : Addr) (pois : Bool) : Mu :=
  { m with
    stop := true, pend := true, cause := cause, addr := a, gdone := m.done, valid := true, pois := pois, pre := false,
    macc := x.acc, opc := x.op, spc := x.pc }

/-- The head command has done one more of its `n` parts: a row of MST is tagged, and an MST with CLR clears its accumulator at its
end (R185). -/
def State.muPartDone (s : State) (t c : Nat) (x : MuCmd) (n : Nat) : State :=
  let m := (s.getCtx t c).mu
  let p := floatOf x.fa
  let s := if x.op = 0x286 && bit x.mode 2 then
      s.modTile t fun y => y.tag x.hoff (((s.getCtx t c).storeRow x m.done).map fun v => bits v p 8)
    else s
  if n ≤ m.done + 1 then
    let w := if x.op = 0x286 ∧ bit x.mode 3 then s.modCtx t c fun y => y.accFill x.acc (List.range 32) fun _ _ => 0 else s
    w.modCtx t c fun y => { y with mu := y.mu.retire }
  else s.modCtx t c fun y => { y with mu := { y.mu with done := y.mu.done + 1 } }

/-- The rows in hand are done, one after another. -/
def State.muRowsDone (s : State) (t c : Nat) (x : MuCmd) : Nat → State
  | 0 => s
  | n + 1 => (s.muPartDone t c x 32).muRowsDone t c x n

/-- A write of a row: where it lies in memory, or at its address. -/
def State.muPut (s : State) (w : Who) (e : Addr × List Byte × Option Nat) : EngWrite :=
  match e.2.2 with
  | some a => s.engPut w a e.2.1
  | none => s.engWrite w e.1 e.2.1

/-- One write of the rows in hand is performed, whichever (R254). -/
def State.muBurst (s : State) (t c : Nat) (x : MuCmd) : State :=
  let m := (s.getCtx t c).mu
  let i := (Config.freeWord s.fresh 0x286).toNat % m.burst.length
  match m.burst[i]? with
  | none => s
  | some e =>
    match s.muPut (x.who t c) e with
    | .wait => s
    | .fail cause z => s.modCtx t c fun y => { y with mu := { y.mu.halt x cause z false with burst := [], rows := 1 } }
    | .ok u =>
      let v := u.modCtx t c fun y => { y with mu := { y.mu with burst := y.mu.burst.eraseIdx i } }
      if m.burst.length = 1 then (v.muRowsDone t c x m.rows).modCtx t c fun y => { y with mu := { y.mu with rows := 1 } } else v

/-- The row after those in hand is begun beside them, when nothing delays or refuses it (R254). -/
def State.muMore (s : State) (t c : Nat) (x : MuCmd) : Option State :=
  let m := (s.getCtx t c).mu
  if x.op ≠ 0x286 ∨ 32 ≤ m.done + m.rows ∨ s.engGoes t c false = false then none
  else match muStoreRow s (x.who t c) x (m.done + m.rows) with
    | .burst l => some (s.modCtx t c fun y => { y with mu := { y.mu with burst := y.mu.burst ++ l, rows := y.mu.rows + 1 } })
    | _ => none

/-- The rows in hand go on: the next row joins them, at the machine's choice, or one write of them is performed (R254). -/
def State.muGo (s : State) (t c : Nat) (x : MuCmd) : State :=
  match if Config.freeChoice s.fresh 0x286 then s.muMore t c x else none with
  | some u => u
  | none => s.muBurst t c x

/-- The MU of a context runs the next part of its head command. -/
def State.muRun (s : State) (t c : Nat) : State :=
  let m := (s.getCtx t c).mu
  match m.q with
  | [] => s
  | x :: _ =>
    if s.engGoes t c (m.burst ≠ []) = false ∨ m.stop ∨ s.engAfter ⟨t, c, x.thr⟩ x.pend = false then s
    else if m.burst ≠ [] then s.muGo t c x
    else
      let mark := fun (s : State) => s.modCtx t c fun y =>
        let y := if x.spoilt then y.accFill x.acc (List.range 32) fun i j => (Config.freeWord s.fresh (32 * i + j)).toNat % 2 ^ 32 else y
        { y with mu := { y.mu with q := y.mu.q.map fun z => if z.pend = x.pend then { z with run := true } else z } }
      let part := muPart s t c x
      if part.1 ≤ m.done then s.modCtx t c fun y => { y with mu := y.mu.retire }
      else match part with
      | (_, .wait) => mark s
      | (_, .burst l) => (mark s).modCtx t c fun y => { y with mu := { y.mu with burst := l } }
      | (_, .fail cause a) => (mark s).modCtx t c fun y => { y with mu := y.mu.halt x cause a false }
      | (_, .poison a) =>
        (s.modCtx t c fun y => y.accFill x.acc (List.range 32) fun _ _ => nanBits fp32 (payloadOf t (if x.op = 0x287 then 0 else m.done))).modCtx
          t c fun y =>
            let h := y.mu.halt x 0x20 a true
            { y with mu := { h.retire with gdone := if x.op = 0x287 then 0 else m.done } }
      | (n, .ok u) => (mark u).muPartDone t c x n

/-- MU_COMMAND_RUN: nothing happens while the MU is idle, stopped or has to wait (log 9). -/
def execMuCommandRun (t c : Nat) (s : State) : Out := .next (s.muRun t c).tickFresh

end Sys2Proof.Machine
end

