-- ==== Sys2Proof/Machine/Sched.lean ====
section
/-! DEFINITION. What the task instructions and the scheduler share: the DV-1's own accesses through a queue's address space, TCBs,
launches and their fault records, deques and the ready order (R40 to R45, R233, R306 to R315, R423). -/

namespace Sys2Proof.Machine

/-! ### Accesses through a queue's address space (R423) -/

/-- Where an address of an address space of a partition leads, at privilege S unless said otherwise, or the cause of the
failure. -/
def State.sysPlace (s : State) (pid ptbr : Nat) (kind : Kind) (a : Nat) (priv : Nat := 1) : Except Nat Place :=
  if 0xFE ≤ bits a 64 8 then .error kind.xlat
  else match s.walk 0 pid 1 ptbr a with
  | none => .error kind.xlat
  | some (l, e) =>
    let pa := bits e 16 36 * 65536 + a % 2 ^ lvlLow l
    let base := pa - pa % 2 ^ lvlLow l
    if bit e 9 && ((s.getPart pid).bindAt ptbr a).isNone then .error kind.xlat
    else if denied e kind priv then .error cPERM
    else if bits e 12 4 ≠ pid then .error cPARTITION
    else if bit e 9 then
      let p := s.getPart pid
      match p.bindAt ptbr a with
      | none => .error kind.xlat
      | some b =>
        match p.node b.node with
        | none => .error kind.xlat
        | some x =>
          let off := a - b.base
          if kind = .r ∨ kind = .x then .ok (if off < 64 * x.blocks then .lin pid b.node off b.rw else .linPad)
          else if b.rw = false then .error cPERM
          else if 64 * x.blocks ≤ off then .error cLNODE
          else if x.kids ≠ 0 then .error cLFROZEN
          else .ok (.lin pid b.node off b.rw)
    else if isDev pa then .ok (.dev (pa - 0x4000000000000))
    else if s.ownsRange pid base (2 ^ lvlLow l) = false then .error cPARTITION
    else .ok (.pa pa)

/-- Bytes of a place as its home has them. -/
def State.homePlace (s : State) (pid : Nat) (p : Place) (n : Nat) : List Byte :=
  match p with
  | .pa a => s.homeBytes a n
  | .dev off => s.devRead pid off n
  | .lin q node off _ => s.linBytes q node off n
  | .sram t b => s.sramBytes t b n
  | _ => List.replicate n 0

/-- Reads bytes through an address space: the bytes, or the cause and the address that failed. -/
def State.sysRead (s : State) (pid ptbr : Nat) (kind : Kind) (a : Nat) : Nat → Except (Nat × Nat) (List Byte)
  | 0 => .ok []
  | n + 1 =>
    match s.sysRead pid ptbr kind a n with
    | .error e => .error e
    | .ok bs =>
      match s.sysPlace pid ptbr kind (a + n) with
      | .error c => .error (c, a + n)
      | .ok p => .ok (bs ++ s.homePlace pid p 1)

/-- A read of `n` bytes, at most a line, through an address space has to wait: a line of its tables, or one that it reads, waits for a store
at its slice or for the host's copy (R237, R251). -/
def State.sysHeld (s : State) (pid ptbr a n : Nat) : Bool :=
  if (s.getDie 0).waitSt.isEmpty && s.filter.all fun e => !e.2.h then false
  else [a, a + n - 1].any fun v =>
    (s.walkAddrs 0 pid v (bits ptbr 0 3) (bits ptbr 8 44 * 256)).any (fun x => s.dieWaits 0 (lineOf x)) ||
    (match s.sysPlace pid ptbr .r v with | .ok (.pa x) => s.dieWaits 0 (lineOf x) | _ => false)

/-- Writes bytes at one place, performed at its home; none when the skim pool is exhausted. -/
def State.homePut (s : State) (pid : Nat) (p : Place) (bs : List Byte) : Option State :=
  match p with
  | .pa a => some (s.homeStore pid a bs)
  | .lin q node off _ => s.linPut q node off bs
  | .dev off => some (s.devWrite pid off bs)
  | .sram t b => some (s.sramWrite t b bs)
  | _ => some s

/-- Writes bytes that lie in one page through an address space. -/
def State.sysWrite (s : State) (pid ptbr a : Nat) (bs : List Byte) : Except Nat State :=
  match s.sysPlace pid ptbr .w a with
  | .error c => .error c
  | .ok p =>
    match s.homePut pid p bs with
    | none => .error cLPOOL
    | some t => .ok t

/-! ### TCBs (R42, R43) -/

/-- A field of a TCB's 64 bytes. -/
def tcbField (bs : List Byte) (off n : Nat) : Nat := ofLE ((bs.drop off).take n)
abbrev tcbEntry (bs : List Byte) : Nat := tcbField bs 0 4
abbrev tcbPrio (bs : List Byte) : Nat := tcbField bs 4 1
abbrev tcbFlags (bs : List Byte) : Nat := tcbField bs 5 1
abbrev tcbStatus (bs : List Byte) : Nat := tcbField bs 6 1
abbrev tcbNsucc (bs : List Byte) : Nat := tcbField bs 7 1
abbrev tcbDepc (bs : List Byte) : Nat := tcbField bs 40 4
abbrev tcbSuccOff (bs : List Byte) : Nat := tcbField bs 44 4
abbrev tcbSeq (bs : List Byte) : Nat := tcbField bs 48 8
abbrev tcbOrigin (bs : List Byte) : Nat := tcbField bs 60 2 % 4096

/-- Status codes. -/
abbrev stWAITING : Nat := 1
abbrev stREADY : Nat := 2
abbrev stRUNNING : Nat := 3
abbrev stPARKED : Nat := 4
abbrev stDONE : Nat := 5
abbrev stFAULTED : Nat := 6
abbrev stCANCELLED : Nat := 7

/-! ### Launches -/

/-- A launch of a partition. -/
def State.launch (s : State) (p l : Nat) : Option Launch := SMap.find (s.getPart p).launches l

/-- Lays written fields over a TCB's bytes. -/
def overBytes (bs : List Byte) (off : Nat) (w : List Byte) : List Byte := bs.take off ++ w ++ bs.drop (off + w.length)

/-- A TCB's bytes as the DV-1 takes them: of a task that a program has interfered with, what schedules it is free (R43, log 68). -/
def State.tcbSeen (s : State) (l : Launch) (a : Addr) (bs : List Byte) : List Byte :=
  if l.wild.contains a then
    let free := fun (n i : Nat) => (List.range n).map fun j => Config.freeByte s.fresh (a.toNat + i + j)
    overBytes (overBytes (overBytes bs 6 (free 1 6)) 40 (free 4 40)) 48 (free 8 48)
  else bs

/-- A TCB of a launch, and a write to one. -/
def State.tcb (s : State) (p : Nat) (l : Launch) (a : Addr) : Except (Nat × Nat) (List Byte) :=
  (s.sysRead p l.ptbr.toNat .r a.toNat 64).map (s.tcbSeen l a)
def State.tcbPut (s : State) (p : Nat) (l : Launch) (a : Addr) (off : Nat) (bs : List Byte) : State :=
  match s.sysWrite p l.ptbr.toNat (a.toNat + off) bs with | .ok t => t | .error _ => s

/-- Die, row and column of a tile (R11), and a tile from them. -/
def rowOf (t : Nat) : Nat := t % 512 / 32
def colOf (t : Nat) : Nat := t % 32
def tileAt (d r c : Nat) : Nat := 512 * d + 32 * r + c

/-- A tile set holds a tile (R307). -/
def inSet (tset t : Nat) : Bool :=
  bit tset (dieOf t) && bits tset 8 4 ≤ rowOf t && rowOf t ≤ bits tset 8 4 + bits tset 12 4 &&
  bits tset 16 5 ≤ colOf t && colOf t ≤ bits tset 16 5 + bits tset 21 5

/-- The tiles of a set, lowest first, and the root of its tree (R41). -/
def setTiles (tset : Nat) : List Nat :=
  let within := fun (b n x : Nat) => b ≤ x && x ≤ b + n
  ((List.range 8).filter fun d => bit tset d).flatMap fun d =>
    ((List.range 16).filter (within (bits tset 8 4) (bits tset 12 4))).flatMap fun r =>
      ((List.range 32).filter (within (bits tset 16 5) (bits tset 21 5))).map fun c => tileAt d r c
def rootTile (tset : Nat) : Nat := (setTiles tset).headD 0

/-- A tile set is valid (R307): inside the grid and inside the partition. -/
def State.setOk (s : State) (p tset : Nat) : Bool :=
  bits tset 0 8 != 0 && bits tset 8 4 + bits tset 12 4 ≤ 15 && bits tset 16 5 + bits tset 21 5 ≤ 31 && bits tset 26 38 == 0 &&
  (setTiles tset).all fun t => s.ownerOf t == p

/-- The next hop of the dimension-ordered route (R233). -/
def nextHop (a b : Nat) : Nat :=
  let d := dieOf a
  let e := dieOf b
  if d % 4 < e % 4 then (if colOf a = 31 then tileAt (d + 1) (rowOf a) 0 else a + 1)
  else if e % 4 < d % 4 then (if colOf a = 0 then tileAt (d - 1) (rowOf a) 31 else a - 1)
  else if d / 4 < e / 4 then (if rowOf a = 15 then tileAt (d + 4) 0 (colOf a) else a + 32)
  else if e / 4 < d / 4 then (if rowOf a = 0 then tileAt (d - 4) 15 (colOf a) else a - 32)
  else if colOf a < colOf b then a + 1
  else if colOf b < colOf a then a - 1
  else if rowOf a < rowOf b then a + 32
  else if rowOf b < rowOf a then a - 32
  else a

/-- The first tile of a set on the route from a tile to the root (R41). -/
def hopIn (tset root : Nat) : Nat → Nat → Nat
  | 0, t => t
  | fuel + 1, t => let u := nextHop t root; if u = root || inSet tset u then u else hopIn tset root fuel u
def treeParent (tset t : Nat) : Nat := hopIn tset (rootTile tset) 160 t

/-- Combines two status words (R41). -/
def joinWords (x y : Nat) : Nat :=
  fields [(0, Nat.max (bits x 0 4) (bits y 0 4)), (4, Nat.max (bits x 4 1) (bits y 4 1)),
    (16, Nat.min (bits x 16 16 + bits y 16 16) 0xFFFF)]

/-- A tile and those above it in the tree have still to report, or report again (R41, log 82). -/
def Launch.unreport (l : Launch) : Nat → Nat → Launch
  | 0, _ => l
  | fuel + 1, t =>
    let m := { l with reported := SMap.erase l.reported t }
    if t = rootTile l.tset then m else m.unreport fuel (treeParent l.tset t)

/-- A tile's own status takes an outcome, and one more unit that ended FAULTED (R41). -/
def Launch.note (l : Launch) (t outcome : Nat) (faulted : Bool) : Launch :=
  { (if l.reported = [] then l else l.unreport 160 t) with
    words := SMap.set 0 l.words t (joinWords (SMap.get 0 l.words t) (fields [(0, outcome), (16, b2n faulted)])) }

/-! ### Writes that wait for their lines (R237) -/

/-- `n` bytes that the DV-1 writes through an address space can be performed now. -/
def State.putReady (s : State) (pid ptbr a n : Nat) : Bool :=
  match s.sysPlace pid ptbr .w a with
  | .ok (.pa x) => s.sysReady x n
  | _ => true

/-- A TCB of a launch, and its fault record, can be written now. -/
def State.tcbReady (s : State) (p : Nat) (l : Launch) (a : Addr) : Bool :=
  s.putReady p l.ptbr.toNat a.toNat 64 && !s.sysHeld p l.ptbr.toNat a.toNat 64
def State.frecReady (s : State) (p l : Nat) : Bool :=
  match s.launch p l with
  | none => true
  | some x => x.complete || s.putReady p x.ptbr.toNat x.frec 64

/-- Every task of a launch can end now. -/
def State.tasksReady (s : State) (p l : Nat) : Bool :=
  match s.launch p l with
  | none => true
  | some x => s.frecReady p l && (x.tasks.all fun a => s.tcbReady p x a) &&
      (List.range (x.ninit - x.taken)).all fun i => s.tcbReady p x (BitVec.ofNat 72 (x.tcbbase + 64 * (x.taken + i)))

/-- The source and the destination tile of a task message; a unit's signals to its successors keep their order whatever their
destinations (R342). -/
def Msg.ends : Msg → Nat × Nat
  | .append src _ _ _ _ dst _ _ => (src.t, dst)
  | .callRet src _ tgt _ => (src, tgt.tile)
  | .signal src _ _ _ _ _ => (src, 4096)

/-- The tile at which a message arrives. -/
def Msg.to : Msg → Nat
  | .signal _ _ _ _ dst _ => dst
  | m => m.ends.2

/-- The first of the two tiles beside the slice of a line (R15, R239), on the die of its home. -/
def State.sliceTile (s : State) (l : Nat) : Nat :=
  512 * (s.queueAgent l % 8) + 32 * (sliceOf l / 16) + 2 * (sliceOf l % 16)

/-- No message from one tile to another is on its way: another may be sent that acts at once (R253). -/
def State.chanFree (s : State) (src dst : Nat) : Bool := s.msgs.all fun m => m.ends != (src, dst)

/-! ### The launch fault record (R309) -/

/-- A pointer in its 16-byte form. -/
def ptrBytes (a : Nat) : List Byte := toLE 16 (a % 2 ^ 72)

/-- Writes bytes of the fault record of a launch that is not complete. -/
def State.frecPut (s : State) (p l off : Nat) (bs : List Byte) : State :=
  match s.launch p l with
  | none => s
  | some x =>
    if x.complete then s
    else match s.sysWrite p x.ptbr.toNat (x.frec + off) bs with | .ok t => t | .error _ => s

/-- A unit ended FAULTED: the count, and, for the first, its cause, address and TCB. -/
def State.noteFault (s : State) (p l cause uaddr : Nat) (tcb : Addr) : State :=
  match s.launch p l with
  | none => s
  | some x =>
    let n := Nat.min (x.nuf + 1) 0xFFFFFFFF
    let t := (s.frecPut p l 8 (toLE 4 n)).modLaunch p l fun y => { y with nuf := n }
    if x.nuf = 0 then
      ((t.frecPut p l 13 (toLE 1 cause)).frecPut p l 32 (ptrBytes uaddr)).frecPut p l 48 (toLE 4 (tcb.toNat - x.tcbbase))
    else t

/-- A RED was dropped (R277). -/
def State.noteRed (s : State) (p l cause : Nat) (va : Addr) : State :=
  match s.launch p l with
  | none => s
  | some x =>
    let n := Nat.min (x.nred + 1) 0xFFFFFFFF
    let t := (s.frecPut p l 0 (toLE 4 n)).modLaunch p l fun y => { y with nred := n }
    if x.nred = 0 then (t.frecPut p l 12 (toLE 1 cause)).frecPut p l 16 (ptrBytes va.toNat) else t

/-- An arrival for a missing unit was dropped (R336). -/
def State.noteLost (s : State) (p l : Nat) : State :=
  match s.launch p l with
  | none => s
  | some x =>
    let n := Nat.min (x.nlost + 1) 0xFFFFFFFF
    (s.frecPut p l 4 (toLE 4 n)).modLaunch p l fun y => { y with nlost := n }

/-! ### Deques and the ready order (R310, R311) -/

/-- Effective priority. -/
def Entry.ep (e : Entry) (plumb : Nat) : Nat := Nat.min 7 (e.prio + (plumb - e.tready) / 65536)

/-- One entry comes before another. -/
def Entry.before (plumb : Nat) (x y : Entry) : Bool :=
  let p := x.ep plumb
  let q := y.ep plumb
  q < p || (p == q && (x.seq < y.seq || (x.seq == y.seq && (x.origin < y.origin || (x.origin == y.origin && x.launch < y.launch)))))

/-- The first entry in the ready order. -/
def firstReady (plumb : Nat) : List Entry → Option Entry
  | [] => none
  | e :: r => some (r.foldl (fun x y => if y.before plumb x then y else x) e)

/-- Entries that wait on a tile: in its deque, and in its die's overflow store under its tag. -/
def State.overflowOf (s : State) (t : Nat) : List Entry := (s.getDie (dieOf t)).overflow.filter fun e => e.tile == t
def State.readyCount (s : State) (t : Nat) : Nat := (s.getTile t).deque.length + (s.overflowOf t).length

/-- There is room for one more entry of a tile. -/
def State.readyRoom (s : State) (t : Nat) : Bool :=
  (s.getTile t).deque.length < 32 || (s.getDie (dieOf t)).overflow.length < 8192

/-- Pushes an entry on a tile: into the deque, or into the overflow store. -/
def State.pushEntry (s : State) (t : Nat) (e : Entry) : State :=
  let e := { e with tile := t }
  if (s.getTile t).deque.length < 32 then s.modTile t fun x => { x with deque := x.deque ++ [e] }
  else s.modDie (dieOf t) fun d => { d with overflow := d.overflow ++ [e] }

/-- Removes an entry of a tile from its deque. -/
def State.takeEntry (s : State) (t : Nat) (e : Entry) : State :=
  s.modTile t fun x => { x with deque := x.deque.erase e }

/-- An entry is a task's, not a resumption. -/
def Entry.is (e : Entry) (p l : Nat) (a : Addr) : Bool := e.pid == p && e.launch == l && e.tcb == a

/-- Every entry of the part. -/
def State.allEntries (s : State) : List Entry :=
  s.tile.deque ++ s.tiles.flatMap (·.2.deque) ++ s.dies.flatMap (·.2.overflow)

/-- Drops every entry of a task. -/
def State.dropEntries (s : State) (p l : Nat) (a : Addr) : State :=
  (s.allTiles fun _ x => { x with deque := x.deque.filter fun e => !e.is p l a }).allDies fun _ d =>
    { d with overflow := d.overflow.filter fun e => !e.is p l a }

/-- The entry of a task that becomes READY now (R311): its fields come from its TCB. -/
def readyEntry (s : State) (p l : Nat) (a : Addr) (bs : List Byte) (extra : Extra := {}) : Entry :=
  { pid := p, launch := l, tcb := a, seq := tcbSeq bs, prio := tcbPrio bs % 8, origin := tcbOrigin bs, tready := s.plumb,
    nosteal := bit (tcbFlags bs) 1, tile := 0, extra := extra }

/-- A task leaves the launch's tasks, and the counter falls (R40). -/
def State.leaveTask (s : State) (p l : Nat) (a : Addr) (t outcome : Nat) (faulted : Bool) : State :=
  s.modLaunch p l fun y =>
    { (y.note t outcome faulted) with
      count := y.count - 1, tasks := y.tasks.erase a, homes := y.homes.filter (fun e => e.1 != a), wild := y.wild.filter (· != a) }

/-- A task ends: its status is written, and it leaves its launch. -/
def State.endTask (s : State) (p l : Nat) (a : Addr) (t status outcome : Nat) : State :=
  match s.launch p l with
  | none => s
  | some x => (s.tcbPut p x a 6 (toLE 1 status)).leaveTask p l a t outcome (status == stFAULTED)

/-- The header's priority raises the task's (R45). -/
def State.headerPrio (s : State) (p : Nat) (l : Launch) (entry prio : Nat) : Nat :=
  match s.sysRead p l.ptbr.toNat .r (l.codebase + entry) 64 with
  | .ok bs => Nat.max prio (ofLE ((bs.drop 59).take 1) % 8)
  | .error _ => prio

/-- A task is created at a TCB whose place and bytes are known (R308, R316): its fields are written, the launch counter rises,
and it is READY on a tile, or WAITING. -/
def State.createTask (s : State) (p l : Nat) (x : Launch) (at_ : Place) (bs : List Byte) (a : Addr) (origin t : Nat)
    (extra : Extra) : State :=
  let ready := tcbDepc bs == 0
  let prio := s.headerPrio p x (tcbEntry bs) (tcbPrio bs)
  let b := overBytes (overBytes (overBytes (overBytes (overBytes bs 4 (toLE 1 prio)) 6 (toLE 1 (if ready then stREADY else stWAITING)))
    48 (toLE 8 x.nextSeq)) 56 (toLE 4 l)) 60 (toLE 2 origin)
  let u := ((s.homePut p at_ b).getD s).modLaunch p l fun y =>
    { y with count := y.count + 1, nextSeq := y.nextSeq + 1, tasks := y.tasks ++ [a], homes := y.homes ++ [(a, at_)] }
  if ready then u.pushEntry t (readyEntry u p l a b extra) else u

/-- A WAITING task's counter falls by n (R322): at 0 it is READY on a tile. -/
def State.signalTask (s : State) (p l : Nat) (at_ : Place) (bs : List Byte) (a : Addr) (n t : Nat) : State :=
  let d := tcbDepc bs - n
  let b := overBytes bs 40 (toLE 4 d)
  let b := if d = 0 then overBytes b 6 (toLE 1 stREADY) else b
  let u := (s.homePut p at_ b).getD s
  if d = 0 then u.pushEntry t (readyEntry u p l a b) else u

/-! ### Kills and cancels (R326, R327) -/

/-- UADDR that goes with a kill's cause: the launch for WDOG and 0 for UE (R309, R93, R389); HFAULT is never delivered with a
TADDR, and the value is free (log 6). -/
def State.killAddr (s : State) (cause launch : Nat) : Nat :=
  if cause = cWDOG then launch
  else if cause = cHFAULT then (Config.freeWord s.fresh 0).toNat + 2 ^ 64 * (Config.freeByte s.fresh 0).toNat
  else 0

/-- Marks a unit as killed, to end with a status and a cause; a unit with a thread in HFAULT that a cancel or a watchdog kills ends FAULTED
for that (R96). -/
def State.killUnit (s : State) (t c status cause : Nat) : State :=
  let hf := cause != cUE && (ctxKeys t c).any fun k => (s.getThread k).life == .hfault
  s.modCtx t c fun x => { x with killed := some (if hf then (stFAULTED, cHFAULT) else (status, cause)) }

/-- The resident unit of a task. -/
def State.unitOf (s : State) (p l : Nat) (a : Addr) : Option (Nat × Nat) :=
  s.liveCtxs.find? fun tc => let x := s.getCtx tc.1 tc.2; x.pid == p && x.launch == l && x.tcb == a

/-- A parked unit of a task is killed: it counts as complete. -/
def State.killParked (s : State) (p l : Nat) (a : Addr) (status cause : Nat) : State :=
  let mine := fun (x : Parked) => x.ctx.launch == l && x.ctx.tcb == a
  match (s.getPart p).parked.find? mine with
  | none => s
  | some x =>
    let hf := x.threads.any fun y => y.life == .hfault
    let st := if hf then stFAULTED else status
    let t := (s.modPart p fun q => { q with parked := q.parked.filter fun y => !mine y }).dropEntries p l a
    let u := t.endTask p l a x.ctx.vtile st (if st = stFAULTED then 3 else 2)
    let why := if hf then cHFAULT else cause
    if st = stFAULTED then u.noteFault p l why (s.killAddr why l) a else u

/-- One task of a level is cancelled or killed: WAITING and READY tasks become CANCELLED, a resident unit is marked, a parked one
ends. `skip` is the issuing unit. DESIGN CHOICE (log 91): the outcome of a task that has not run counts at the root tile. -/
def State.endOne (s : State) (p l : Nat) (a : Addr) (status cause : Nat) (skip : Option (Nat × Nat)) : State :=
  match s.launch p l with
  | none => s
  | some x =>
    match s.unitOf p l a with
    | some tc => if skip = some tc then s else s.killUnit tc.1 tc.2 status cause
    | none =>
      if (s.getPart p).parked.any fun y => y.ctx.launch == l && y.ctx.tcb == a then s.killParked p l a status cause
      else (s.dropEntries p l a).endTask p l a (rootTile x.tset) stCANCELLED 2

/-- Initial tasks that have not been taken are cancelled (R308, R327). -/
def State.dropInitial (s : State) (p l : Nat) (x : Launch) : State :=
  if x.ninit ≤ x.taken then s
  else
    let u := (List.range (x.ninit - x.taken)).foldl (fun s i =>
      s.tcbPut p x (BitVec.ofNat 72 (x.tcbbase + 64 * (x.taken + i))) 6 (toLE 1 stCANCELLED)) s
    u.modLaunch p l fun y => { y.note (rootTile x.tset) 2 false with taken := y.ninit }

/-- Every task of a launch ends so. -/
def State.endLaunch (s : State) (p l status cause : Nat) (skip : Option (Nat × Nat) := none) : State :=
  match s.launch p l with
  | none => s
  | some x => x.tasks.foldl (fun s a => s.endOne p l a status cause skip) (s.dropInitial p l x)

end Sys2Proof.Machine
end

