-- ==== Sys2Proof/Machine/Task.lean ====
section
/-! DEFINITION. The task, queue and semaphore instructions, opcodes 0x090 to 0x0A4 (R231, R316 to R330). -/

namespace Sys2Proof.Machine

/-! ### TCB operands -/

/-- The issuing unit's launch. -/
def State.myLaunch (s : State) : Option Launch := s.launch s.ctx.pid s.ctx.launch

/-- Results that a trailing thread takes from the leading one (R393): a word and a flag. -/
def pairVec (v : Nat) (b : Bool) : Vec := BitVec.ofNat 1024 (v + b2n b * 2 ^ 64)

/-- A task instruction's result, copied to a trailing thread. -/
def taskGive (s : State) (d : Option Nat) (v : Nat) : Res :=
  .done ((s.copyTo s.cur (pairVec v false)).late (match d with | some n => [(.s n, BitVec.ofNat 1024 (v % 2 ^ 64))] | none => []))

/-- A redundant thread makes a task instruction once (R393): the trailing one is compared and takes the result. -/
def taskTrail (s : State) (item : List Nat) (d : Option Nat) (r : Unit → Res) : Res :=
  if s.trails then
    match s.thr.lvq with
    | _ :: _ => s.takeCopy.into fun x =>
        .done (x.1.late (match d with | some n => [(.s n, BitVec.ofNat 1024 (x.2.toNat % 2 ^ 64))] | none => []))
    | [] =>
      match s.compare 0 item with
      | .error (.done t) => .hold t.held_
      | .error e => e
      | .ok t => .hold t.held_
  else if s.lvqFull then .hold s.held_
  else r ()

/-- The checks of a TCB operand (R316), the wait until its line's home can act, and what is done with its place and bytes. -/
def withTcb (s : State) (a : Addr) (g : Launch → Place → List Byte → Res) : Res :=
  if a.toNat % 64 ≠ 0 then .trap cMISALIGN a
  else match s.myLaunch with
  | none => .trap cPERM a
  | some l =>
    if a.toNat < l.tcbbase ∨ l.tcbbase + 64 * l.tcblen ≤ a.toNat then .trap cPERM a
    else (s.checkAll .w 64 [(a, 64)]).into fun ps =>
      match s.waits ps with
      | some r => r
      | none =>
        let p := placeOf ps
        if (match p with | .pa x => !s.homeReady s.cur.t (lineOf x) | _ => false) then .hold s.held_
        else g l p (s.tcbSeen l a (s.homePlace s.ctx.pid p 64))

/-- Everything older is performed at device scope: a task message may be sent (R255, R316). -/
def State.released (s : State) (scope : Nat) : Bool :=
  !s.thr.owesFence && !s.thr.owesRmw && !s.thr.owesSo && s.performedAt s.cur.t scope

/-- The further checks of SPAWN, CALLAT and FORKB (R316). -/
def tcbBad (bs : List Byte) : Bool :=
  (stWAITING ≤ tcbStatus bs && tcbStatus bs ≤ stPARKED) || tcbEntry bs % 64 != 0 || 8 ≤ tcbPrio bs || 4 ≤ tcbFlags bs

/-- The create step (R316), once older accesses are released and there is room for the entry. -/
def create (s : State) (item : List Nat) (l : Launch) (p : Place) (bs : List Byte) (a : Addr) (t : Nat) (extra : Extra)
    (d : Option Nat) (before : State → State := id) : Res :=
  if !s.released 3 || !s.chanFree s.cur.t t || (tcbDepc bs == 0 && !s.readyRoom t) ||
      s.sysHeld s.ctx.pid l.ptbr.toNat (l.codebase + tcbEntry bs) 64 then .hold s.held_
  else (s.compare 0 item).into fun u =>
    let v := (before u).createTask u.ctx.pid u.ctx.launch l p bs a u.ctx.vtile t extra
    taskGive v d (l.nextSeq)

/-! ### SPAWN, CALLAT, FORKB and JOIN -/

/-- SPAWN (R318). -/
def spawn (s : State) (f : FRR) : Res :=
  let a := s.ra f.a
  let item := [0x093, a.toNat]
  taskTrail s item (some f.d) fun _ => withTcb s a fun l p bs =>
    if tcbBad bs then .trap cILLOP 0 else create s item l p bs a s.cur.t {} (some f.d)

def execSpawn (k : Ctl) (f : FRR) (s : State) : Out := run 0x093 k [.s f.d] (fun s => spawn s f) s

/-- Writes the four arguments into a TCB's bytes. -/
def withArgs (bs : List Byte) (args : List Word) : List Byte := overBytes bs 8 (args.flatMap fun w => toLE 8 w.toNat)

/-- CALLAT (R319). -/
def callat (s : State) (f : FCallat) : Res :=
  let a := s.ra f.c 7
  let w := s.rs f.t
  let args := (List.range 4).map fun j => s.rs (f.a + j) (1 + j)
  let item := [0x092, a.toNat, w.toNat] ++ args.map (·.toNat)
  taskTrail s item none fun _ => withTcb s a fun l p bs =>
    if tcbBad bs then .trap cILLOP 0
    else if bits w.toNat 12 20 ≠ 0 then .trap cILLOP 0
    else if !inSet l.tset (w.toNat % 4096) then .trap cPARTITION (BitVec.ofNat 72 w.toNat)
    else
      let caller : Caller := { tile := s.ctx.vtile, launch := s.ctx.launch, seq := s.ctx.seq, tag := bits w.toNat 32 32 }
      create s item l p (overBytes (withArgs bs args) 40 (toLE 4 0)) a (w.toNat % 4096) { caller := some caller } none

def execCallat (k : Ctl) (f : FCallat) (s : State) : Out :=
  run 0x092 k (.s f.t :: (List.range 4).map fun j => .s (f.a + j)) (fun s => callat s f) s

/-- Adds to the double at a place, at its home (R320, R323). -/
def State.addAt (s : State) (pid : Nat) (p : Place) (x : Nat) : Option State :=
  s.homePut pid p (toLE 8 ((ofLE (s.homePlace pid p 8) + x) % 2 ^ 64))

/-- The join counter's place of FORKB.J: its checks, and the wait until its home can act. -/
def joinCounter (s : State) (f : FB) (g : Option (Addr × Place) → Res) : Res :=
  if f.fn = 0 then g none
  else
    let j := s.ra f.b 6
    (s.checkAll .rw 8 [(j, 8)]).into fun ps =>
      match s.waits ps with
      | some r => r
      | none =>
        let p := placeOf ps
        if s.sealedIn (allPieces ps) || (match p with | .pa x => !s.homeReady s.cur.t (lineOf x) | _ => false) then .hold s.held_
        else g (some (j, p))

/-- FORKB (R320). -/
def forkb (s : State) (f : FB) : Res :=
  let a := s.ra f.a
  let args := (List.range 4).map fun j => s.rs (1 + j) (2 + j)
  let t := targetB s.thr.pc f.dl f.sl
  let item := [0x090, a.toNat, t.toNat] ++ args.map (·.toNat)
  if s.actsAs ≠ 1 then .trap cILLOP 0
  else taskTrail s item none fun _ => withTcb s a fun l p bs =>
    if tcbBad bs then .trap cILLOP 0
    else match s.target t with
    | some (c, x) => .trap c x
    | none => joinCounter s f fun j =>
      let s := s.wordSeen t
      let b := overBytes (overBytes (withArgs bs args) 0 (toLE 4 s.ctx.entry)) 40 (toLE 4 0)
      let up := fun (u : State) => match j with | some (_, q) => (u.addAt u.ctx.pid q 1).getD u | none => u
      create s item l p b a s.cur.t { join := j.map (·.1), start := some t } none up

/-- FORKB names s1 to s4 (R30, log 75). -/
def execForkb (k : Ctl) (f : FB) (s : State) : Out :=
  run 0x090 k [.s 1, .s 2, .s 3, .s 4] (fun s => forkb s f) s

/-- JOIN (R321): it returns when the double reads 0 at its home slice, and else parks. -/
def join (s : State) (f : FRR) : Res :=
  let a := s.ra f.a
  (s.checkAll .r 8 [(a, 8)]).into fun ps =>
    if s.trails then s.takeCopy.into fun x => .done (x.1.late [(.s f.d, x.2)])
    else if s.lvqFull then .hold s.held_
    else match s.waits ps with
    | some r => r
    | none =>
      let p := placeOf ps
      if s.sealedIn (allPieces ps) || (match p with | .pa x => !s.homeReady s.cur.t (lineOf x) | _ => false) then .hold s.held_
      else if s.poisoned (allPieces ps) then .done ((s.ueFind (allPieces ps)).late [(.s f.d, 0)] (some (s.badCause (allPieces ps), a)))
      else if ofLE (s.homePlace s.ctx.pid p 8) = 0 then .done ((s.copyTo s.cur 0).late [(.s f.d, 0)])
      else .hold { s with thr := { s.thr with wait := .join p (s.plumb + 256) } }

def execJoin (k : Ctl) (f : FRR) (s : State) : Out := run 0x091 k [.s f.d] (fun s => join s f) s

/-! ### TDEP, SIGNAL, TQRY -/

/-- Task messages that act on a TCB at its home may be sent (R253, R255). -/
def State.taskReady (s : State) : Bool := s.released 3 && s.chanFree s.cur.t 4096 && s.chanFree s.cur.t s.cur.t

/-- TDEP (R322, R255). -/
def tdep (s : State) (f : FRR) : Res :=
  let a := s.ra f.a
  let n := (s.rs f.b 1).toNat
  let item := [0x094, a.toNat, n]
  taskTrail s item (some f.d) fun _ => withTcb s a fun _ p bs =>
    if !s.taskReady then .hold s.held_
    else (s.compare 0 item).into fun u =>
      if tcbStatus bs ≠ stWAITING then taskGive u (some f.d) 1
      else if n = 0 ∨ 2 ^ 32 ≤ tcbDepc bs + n then taskGive u (some f.d) 2
      else taskGive ((u.homePut u.ctx.pid p (overBytes bs 40 (toLE 4 (tcbDepc bs + n)))).getD u) (some f.d) 0

def execTdep (k : Ctl) (f : FRR) (s : State) : Out := run 0x094 k [.s f.d, .s f.b] (fun s => tdep s f) s

/-- SIGNAL (R322, R255). -/
def signal (s : State) (f : FRR) : Res :=
  let a := s.ra f.a
  let n := (s.rs f.b 1).toNat
  let item := [0x095, a.toNat, n]
  taskTrail s item (some f.d) fun _ => withTcb s a fun _ p bs =>
    if !s.taskReady then .hold s.held_
    else if tcbStatus bs = stWAITING && n == tcbDepc bs && n != 0 && !s.readyRoom s.cur.t then .hold s.held_
    else (s.compare 0 item).into fun u =>
      if tcbStatus bs ≠ stWAITING then taskGive u (some f.d) 1
      else if n = 0 ∨ tcbDepc bs < n then taskGive u (some f.d) 2
      else taskGive (u.signalTask u.ctx.pid u.ctx.launch p bs a n u.cur.t) (some f.d) 0

def execSignal (k : Ctl) (f : FRR) (s : State) : Out := run 0x095 k [.s f.d, .s f.b] (fun s => signal s f) s

/-- TQRY (R325). -/
def tqry (s : State) (f : FRR) : Res :=
  let a := s.ra f.a
  let item := [0x098, a.toNat]
  taskTrail s item (some f.d) fun _ =>
    let give := fun (v : Nat) => (s.compare 0 item).into fun u => taskGive u (some f.d) v
    if f.fn = 3 then give (s.readyCount s.cur.t)
    else withTcb s a fun _ _ bs =>
      match f.fn with
      | 0 => give (tcbStatus bs)
      | 1 => give (tcbDepc bs)
      | 2 => give (if tcbStatus bs ≠ stREADY then 0xFF else
          match s.allEntries.find? fun e => e.is s.ctx.pid s.ctx.launch a with
          | some e => e.ep s.plumb
          | none => 0xFF)
      | _ => give (tcbSeq bs)

def execTqry (k : Ctl) (f : FRR) (s : State) : Out := run 0x098 k [.s f.d] (fun s => tqry s f) s

/-! ### TEXIT and YIELD -/

/-- Every thread of a context has exited or never ran. -/
def State.allExited (s : State) (t c : Nat) : Bool :=
  (ctxKeys t c).all fun k => (s.getThread k).life == .exited || (s.getThread k).life == .idle

/-- The thread ends (R323). -/
def State.exitThread (s : State) (v : Word) : State :=
  let t := s.dropResv s.cur
  let u : State := { t with
    thr := { t.thr with life := .exited, wait := .none, retry := none }
    ctx := if t.thr.role = 1 then { t.ctx with exitVal := v } else t.ctx }
  if u.allExited u.cur.t u.cur.c then { u with ctx := { u.ctx with ended := true } } else u

/-- TEXIT (R39, R191, R206, R323): it waits for the thread's results and for its engine's work, and delivers an engine's
stop. -/
def texit (s : State) (f : FRR) : Res :=
  let v := s.rs f.a
  if f.a ≠ 0 ∧ s.actsAs ≠ 1 then .trap cILLOP 0
  else match s.muTrap with
  | some r => r
  | none =>
    match s.waitS with
    | some t => if t.thr.wait = .hold then .hold t else .end_ t
    | none =>
      match s.cuStop with
      | some r => r
      | none =>
        if s.thr.role = 2 && !s.ctx.mu.idle then .hold s.held_
        else if s.thr.role = 4 && !s.ctx.cu.q.isEmpty then .hold s.held_
        else .end_ (s.exitThread v)

def execTexit (k : Ctl) (f : FRR) (s : State) : Out := run 0x096 k [.s f.a] (fun s => texit s f) s

/-- YIELD (R324). -/
def yieldTurn (s : State) : Res :=
  match s.thr.retry with
  | some _ => .done { s with thr := { s.thr with retry := none } }
  | none => .hold { s with thr := { s.thr with wait := .yield (s.plumb + 64) } }

def execYield (k : Ctl) (_ : FRR) (s : State) : Out := run 0x097 k [] yieldTurn s

/-! ### CANCEL and LCNT -/

/-- The launches of a level that a CANCEL or LCNT names (R327, R328): 0 launch, 1 graph, 2 phase, 3 job; none when the identifier
is unknown. -/
def State.levelOf (s : State) (lvl id : Nat) : Option (List (Nat × Launch)) :=
  match s.myLaunch with
  | none => none
  | some me =>
    let all := (s.getPart s.ctx.pid).launches
    let l := match lvl with
      | 0 => all.filter fun e => e.1 == (if id = 0 then s.ctx.launch else id)
      | 1 => all.filter fun e => e.2.graph == (if id = 0 then me.graph else id)
      | 2 => all.filter fun e => e.2.job == me.job && e.2.phase == (if id = 0 then me.phase else id)
      | _ => all.filter fun e => e.2.job == (if id = 0 then me.job else id)
    if l.isEmpty then none else some l

/-- The completion counter of a level (R40). -/
def levelCount (lvl : Nat) (l : List (Nat × Launch)) : Nat :=
  let open_ := l.filter fun e => !e.2.complete
  match lvl with
  | 0 => (l.map fun e => e.2.count).sum
  | 1 => open_.length
  | 2 => (open_.map fun e => e.2.graph).eraseDups.length
  | _ => (open_.map fun e => e.2.phase).eraseDups.length

/-- The successors of a task, as virtual addresses; none from the first that cannot be read. -/
def State.successors (s : State) (p : Nat) (l : Launch) (bs : List Byte) : List Addr :=
  let base := l.tcbbase + tcbSuccOff bs
  ((List.range (tcbNsucc bs)).map fun i => s.sysRead p l.ptbr.toNat .r (base + 4 * i) 4).takeWhile
    (fun r => match r with | .ok _ => true | .error _ => false) |>.filterMap fun r =>
      match r with
      | .ok b => some (BitVec.ofNat 72 (l.tcbbase + ofLE b))
      | .error _ => none

/-- The successor closure of some tasks (R327), over at most `fuel` successors. -/
def State.closure (s : State) (p : Nat) (l : Launch) : Nat → List Addr → List Addr → List Addr
  | 0, _, done => done
  | _ + 1, [], done => done
  | fuel + 1, a :: r, done =>
    if done.contains a then s.closure p l fuel r done
    else match s.tcb p l a with
    | .error _ => s.closure p l fuel r done
    | .ok bs => s.closure p l fuel (r ++ s.successors p l bs) (done ++ [a])

/-- A task of the launch is WAITING. -/
def State.waitingTask (s : State) (p : Nat) (l : Launch) (a : Addr) : Bool :=
  l.tasks.contains a && (match s.tcb p l a with | .ok bs => tcbStatus bs == stWAITING | .error _ => false)

/-- CANCEL.TASK (R327). -/
def cancelOne (s : State) (f : FRR) : Res :=
  let a := s.ra f.a
  let item := [0x099, a.toNat]
  taskTrail s item (some f.d) fun _ => withTcb s a fun l _ bs =>
    if !s.tasksReady s.ctx.pid s.ctx.launch then .hold s.held_
    else (s.compare 0 item).into fun u =>
      let p := u.ctx.pid
      if tcbStatus bs ≠ stWAITING ∧ tcbStatus bs ≠ stREADY then taskGive u (some f.d) 1
      else
        let more := u.closure p l (256 * (l.tcblen + 1)) (u.successors p l bs) []
        let all := a :: more.filter fun x => x != a && u.waitingTask p l x
        taskGive (all.foldl (fun s x => (s.dropEntries p s.ctx.launch x).endTask p s.ctx.launch x (rootTile l.tset) stCANCELLED 2) u)
          (some f.d) 0

def execCancelTask (k : Ctl) (f : FRR) (s : State) : Out := run 0x099 k [.s f.d] (fun s => cancelOne s f) s

/-- A unit of one of the launches, other than the issuing one, has still to end. -/
def State.levelEnding (s : State) (l : List (Nat × Launch)) : Bool :=
  s.liveCtxs.any fun tc =>
    let x := s.getCtx tc.1 tc.2
    x.pid == s.ctx.pid && l.any (fun e => e.1 == x.launch) && tc != (s.cur.t, s.cur.c)

/-- CANCEL of a level (R327): its tasks are cancelled and its units marked as killed; the thread then waits until they have
ended, and the issuing unit, if the level holds it, is killed last. -/
def cancelMany (s : State) (f : FRR) : Res :=
  let lvl := f.fn - 1
  let id := (s.rs f.a).toNat
  let item := [0x099, f.fn, id]
  if lvl ≠ 0 ∧ s.thr.priv = 0 then .trap cPRIV 0
  else taskTrail s item (some f.d) fun _ =>
    match s.thr.retry with
    | none =>
      if (s.levelOf lvl id).any fun l => l.any fun e => !s.tasksReady s.ctx.pid e.1 then .hold s.held_
      else (s.compare 0 item).into fun u =>
      match u.levelOf lvl id with
      | none => taskGive u (some f.d) 1
      | some l =>
        let v := l.foldl (fun s e => s.endLaunch s.ctx.pid e.1 stCANCELLED 0 (some (s.cur.t, s.cur.c))) u
        .hold { v with thr := { v.thr with wait := .hold, retry := some 0 } }
    | some _ =>
      match s.levelOf lvl id with
      | none => taskGive { s with thr := { s.thr with retry := none } } (some f.d) 0
      | some l =>
        if s.levelEnding l then .hold s.held_
        else if l.any fun e => e.1 == s.ctx.launch then .hold (s.killUnit s.cur.t s.cur.c stCANCELLED 0).held_
        else taskGive { s with thr := { s.thr with retry := none } } (some f.d) 0

def execCancelLevel (k : Ctl) (f : FRR) (s : State) : Out := run 0x099 k [.s f.d, .s f.a] (fun s => cancelMany s f) s

/-- LCNT (R328). -/
def levelCounter (s : State) (f : FRR) : Res :=
  let id := (s.rs f.a).toNat
  let item := [0x09A, f.fn, id]
  taskTrail s item (some f.d) fun _ => (s.compare 0 item).into fun u =>
    taskGive u (some f.d) (match u.levelOf f.fn id with
      | none => 2 ^ 64 - 1
      | some l => levelCount f.fn l)

def execLcnt (k : Ctl) (f : FRR) (s : State) : Out := run 0x09A k [.s f.d, .s f.a] (fun s => levelCounter s f) s

/-! ### Queues and semaphores (R329, R330) -/

def Ctx.queueOf (c : Ctx) (q : Nat) : TQueue := SMap.get {} c.qs q
def Ctx.setQueue (c : Ctx) (q : Nat) (x : TQueue) : Ctx := { c with qs := SMap.set {} c.qs q x }
def Ctx.semOf (c : Ctx) (n : Nat) : Sem := SMap.get {} c.sems n
def Ctx.setSem (c : Ctx) (n : Nat) (x : Sem) : Ctx := { c with sems := SMap.set {} c.sems n x }

/-- A thread of the context in focus goes on with a result. -/
def State.wakeWith (s : State) (i : Nat) (v : Word) : State :=
  s.modThread ⟨s.cur.t, s.cur.c, i⟩ fun x => { x with wait := .none, retry := some v }

/-- A result of a queue or semaphore instruction: the register, and p[C] with .NB. -/
def queueGive (s : State) (d : Option Nat) (f : FRR) (v : Word) (ok : Bool) : Res :=
  let t : State := { s with thr := { s.thr with retry := none } }
  .done ((t.copyTo t.cur (pairVec v.toNat ok)).late
    ((match d with | some n => [(Reg.s n, ofWord v)] | none => []) ++ (if f.b = 1 then [(Reg.p f.c, ofBool ok)] else [])))

/-- A trailing thread's queue or semaphore instruction (R393). -/
def queueTrail (s : State) (f : FRR) (d : Option Nat) : Res :=
  s.takeCopy.into fun x =>
    .done (x.1.late ((match d with | some n => [(Reg.s n, BitVec.ofNat 1024 (x.2.toNat % 2 ^ 64))] | none => []) ++
      (if f.b = 1 then [(Reg.p f.c, ofBool (x.2.getLsbD 64))] else [])))

/-- A release at tile scope waits for the older atomics (R231). -/
def queueWaits (s : State) : Bool := s.thr.owesRmw || s.thr.owesFence || s.lvqFull

/-- SEMP (R330). -/
def semp (s : State) (f : FRR) : Res :=
  if s.trails then queueTrail s f (some f.d)
  else match s.thr.retry with
  | some v => queueGive s (some f.d) f v true
  | none =>
    if queueWaits s then .hold s.held_
    else
      let m := s.ctx.semOf f.fn
      if m.cnt ≠ 0 then
        queueGive { s with ctx := s.ctx.setSem f.fn { m with cnt := m.cnt - 1 } } (some f.d) f (BitVec.ofNat 64 (m.cnt - 1)) true
      else if f.b = 1 then queueGive s (some f.d) f 0 false
      else .hold { s with
        thr := { s.thr with wait := .semp f.fn }, ctx := s.ctx.setSem f.fn { m with waits := m.waits ++ [s.cur.i] } }

def execSemp (k : Ctl) (f : FRR) (s : State) : Out := run 0x0A0 k [.s f.d] (fun s => semp s f) s

/-- Serves waiting SEMPs, each of which takes 1 and receives the count it leaves: `a` at most. -/
def State.serve (s : State) (n : Nat) : Nat → State
  | 0 => s
  | a + 1 =>
    let m := s.ctx.semOf n
    match m.waits with
    | [] => s
    | i :: r =>
      if m.cnt = 0 then s
      else (({ s with ctx := s.ctx.setSem n { cnt := m.cnt - 1, waits := r } } : State).wakeWith i
        (BitVec.ofNat 64 (m.cnt - 1))).serve n a

/-- SEMV (R329, R330). -/
def semv (s : State) (f : FRR) : Res :=
  let a := if f.a = 0 then 1 else (s.rs f.a).toNat
  let item := [0x0A1, f.fn, a]
  taskTrail s item (some f.d) fun _ =>
    if queueWaits s then .hold s.held_
    else (s.compare 0 item).into fun u =>
      let m := u.ctx.semOf f.fn
      let v := ({ u with ctx := u.ctx.setSem f.fn { m with cnt := Nat.min (m.cnt + a) 0xFFFF } } : State).serve f.fn (Nat.min a 64)
      taskGive v (some f.d) (v.ctx.semOf f.fn).cnt

def execSemv (k : Ctl) (f : FRR) (s : State) : Out := run 0x0A1 k [.s f.d, .s f.a] (fun s => semv s f) s

/-- QPUSH (R330). -/
def qpush (s : State) (f : FRR) : Res :=
  let v := s.rs f.a
  let item := [0x0A2, f.fn, v.toNat]
  if s.trails then
    match s.thr.lvq with
    | _ :: _ => queueTrail s f none
    | [] => taskTrail s item none fun _ => .hold s.held_
  else match s.thr.retry with
  | some _ => queueGive s none f 0 true
  | none =>
    if queueWaits s then .hold s.held_
    else (s.compare 0 item).into fun u =>
      let q := u.ctx.queueOf f.fn
      match q.pops with
      | i :: r => queueGive (({ u with ctx := u.ctx.setQueue f.fn { q with pops := r } } : State).wakeWith i v) none f 0 true
      | [] =>
        if q.ents.length < 16 then queueGive { u with ctx := u.ctx.setQueue f.fn { q with ents := q.ents ++ [v] } } none f 0 true
        else if f.b = 1 then queueGive u none f 0 false
        else .hold { u with
          thr := { u.thr with wait := .qpush f.fn }
          ctx := u.ctx.setQueue f.fn { q with pushes := q.pushes ++ [(u.cur.i, v)] } }

def execQpush (k : Ctl) (f : FRR) (s : State) : Out := run 0x0A2 k [.s f.a] (fun s => qpush s f) s

/-- QPOP (R330). -/
def qpop (s : State) (f : FRR) : Res :=
  if s.trails then queueTrail s f (some f.d)
  else match s.thr.retry with
  | some v => queueGive s (some f.d) f v true
  | none =>
    if queueWaits s then .hold s.held_
    else
      let q := s.ctx.queueOf f.fn
      match q.ents with
      | v :: r =>
        let t := match q.pushes with
          | [] => ({ s with ctx := s.ctx.setQueue f.fn { q with ents := r } } : State)
          | (i, w) :: z => ({ s with ctx := s.ctx.setQueue f.fn { q with ents := r ++ [w], pushes := z } } : State).wakeWith i 0
        queueGive t (some f.d) f v true
      | [] =>
        if f.b = 1 then
          let t : State := { s with thr := { s.thr with retry := none } }
          .done ((t.copyTo t.cur (pairVec (s.thr.reg (.s f.d)).toNat false)).late [(.p f.c, ofBool false)])
        else .hold { s with
          thr := { s.thr with wait := .qpop f.fn }, ctx := s.ctx.setQueue f.fn { q with pops := q.pops ++ [s.cur.i] } }

def execQpop (k : Ctl) (f : FRR) (s : State) : Out := run 0x0A3 k [.s f.d] (fun s => qpop s f) s

/-- QSTAT (R330). -/
def qstat (s : State) (f : FRR) : Res :=
  let g : FRR := { f with b := 0 }
  if s.trails then queueTrail s g (some f.d)
  else if s.lvqFull then .hold s.held_
  else
    let v := if f.b = 0 then
        let q := s.ctx.queueOf f.fn
        fields [(0, q.ents.length), (8, q.pops.length + q.pushes.length)]
      else
        let m := s.ctx.semOf f.fn
        fields [(0, m.cnt), (16, m.waits.length)]
    queueGive s (some f.d) g (BitVec.ofNat 64 v) true

def execQstat (k : Ctl) (f : FRR) (s : State) : Out := run 0x0A4 k [.s f.d] (fun s => qstat s f) s

end Sys2Proof.Machine
end

