-- ==== Sys2Proof/Machine/System.lean ====
section
/-! DEFINITION. The control and status registers, and the system group 0x340 to 0x347 but ICINV (R83, R87 to R99, R134, R141, R147,
R189, R190, R235, R260, R261, R289, R291, R315, R338, R340, R347, R352, R357, R360, R364, R374, R376, R379). -/

namespace Sys2Proof.Machine

/-! ### Privilege levels (R88) -/

/-- The privilege that reads a CSR. -/
def csrReadLvl (n : Nat) : Nat :=
  if n < 0x00A ∨ n = 0x021 ∨ (0x034 ≤ n ∧ n ≤ 0x037) ∨ (0x0E0 ≤ n ∧ n ≤ 0x0E2) ∨ (0x180 ≤ n ∧ n ≤ 0x20D ∧ n ≠ 0x20B) then 1 else 0

/-- The privilege whose absence traps a write; 0 where a write is open to U or is discarded below its level. -/
def csrWriteLvl (n : Nat) : Nat :=
  if n < 0x00A ∨ n = 0x00B ∨ n = 0x018 ∨ n = 0x019 ∨ n = 0x020 ∨ n = 0x021 ∨ (0x034 ≤ n ∧ n ≤ 0x037) ∨ n = 0x101 ∨ n = 0x102 ∨
     n = 0x200 ∨ n = 0x202 ∨ (0x208 ≤ n ∧ n ≤ 0x20B) ∨ n = 0x20D then 1 else 0

/-- A register that only privilege F writes (R4 FW). -/
def csrFw (n : Nat) : Bool :=
  (0x0E0 ≤ n && n ≤ 0x0E2) || (0x180 ≤ n && n ≤ 0x185) || n == 0x201 || n == 0x20C

/-! ### Reads -/

/-- A CSR's value in the thread in focus. -/
def State.csr (s : State) (n : Nat) : Nat :=
  let x := s.thr
  let p := s.getPart s.ctx.pid
  if 0x140 ≤ n ∧ n < 0x180 then (SMap.get 0 s.tile.hist (n - 0x140)).toNat
  else if 0x180 ≤ n ∧ n < 0x184 then (SMap.get 0 s.tile.vote (n - 0x180)).toNat
  else match n with
  | 0x000 => x.tpc.toNat | 0x001 => x.tcause.toNat | 0x002 => x.taddr.toNat | 0x003 => x.tstat.toNat
  | 0x004 => x.tvec.toNat | 0x005 => x.tsp.toNat
  | 0x006 => (SMap.get 0 x.tscr 0).toNat | 0x007 => (SMap.get 0 x.tscr 1).toNat
  | 0x008 => (SMap.get 0 x.tscr 2).toNat | 0x009 => (SMap.get 0 x.tscr 3).toNat
  | 0x00A => fields [(0, s.ctx.vtile), (12, s.cur.i)]
  | 0x00B => x.lseg.toNat
  | 0x00C => x.role
  | 0x010 => x.rlo.toNat | 0x011 => x.rhi.toNat
  | 0x012 => fields [(0, s.ctx.vtile), (12, s.cur.i), (16, x.rseq.toNat)]
  | 0x013 => x.rstat.toNat | 0x014 => x.rcnt.toNat
  | 0x018 => s.ctx.mu.mpr.toNat | 0x019 => s.ctx.mu.status.toNat
  | 0x01C => x.lstat.toNat
  | 0x020 => x.trwt.toNat | 0x021 => x.mpc.toNat
  | 0x030 => x.loops.lc0.toNat | 0x031 => x.loops.lc1.toNat | 0x032 => x.loops.ls.toNat | 0x033 => x.loops.le.toNat
  | 0x034 => x.tloops.lc0.toNat | 0x035 => x.tloops.lc1.toNat | 0x036 => x.tloops.ls.toNat | 0x037 => x.tloops.le.toNat
  | 0x0E0 => x.hfpc.toNat | 0x0E1 => x.hfcause.toNat | 0x0E2 => x.hfaddr.toNat
  | 0x100 => x.tsr.toNat
  | 0x101 => s.tile.lsplit | 0x102 => s.tile.lgrp
  | 0x184 => s.fencest s.cur.t | 0x185 => s.tile.hbper.toNat
  | 0x200 => s.ctx.ptbr.toNat | 0x201 => s.ctx.pid
  | 0x202 => p.lpool.toNat
  | 0x208 => p.wdog1 | 0x209 => p.wdog2 | 0x20A => p.wdog3
  | 0x20B => s.ctx.rlimit
  | 0x20C => p.lease
  | 0x20D => p.bal.toNat
  | _ => 0

/-! ### Writes, as the register maps give them -/

/-- LPOOL (R147): ignored as a whole when it moves a pool in use, cuts storage in use off, or names memory of others. -/
def State.lpoolWrite (s : State) (p v : Nat) : State :=
  let q := s.getPart p
  let len := bits v 1 15
  let base := bits v 16 36
  let used := q.poolUsed
  let extent := if used = 0 then 0 else Nat.min (used + Config.poolSlack s.fresh) (bits q.lpool.toNat 1 15 * 0x4000000)
  if (base ≠ bits q.lpool.toNat 16 36 ∧ q.nodes ≠ []) ∨ len * 0x4000000 < extent ∨
      s.ownsRange p (base * 65536) (len * 0x4000000) = false then s
  else s.setPart p { q with lpool := BitVec.ofNat 64 (bits v 0 52) }

/-- Scratchpad bytes that contexts of a tile need. -/
def State.scratchNeed (s : State) (t : Nat) : Nat :=
  ((s.liveCtxs.filter fun x => x.1 == t).map fun x => (s.getCtx x.1 x.2).scratch).foldl Nat.max 0

/-- LSPLIT (R260). -/
def State.lsplitWrite (s : State) (t v : Nat) : State :=
  let n := bits v 0 4
  if 8 < n ∨ n * 0x20000 < s.scratchNeed t then s
  else s.modTile t fun x => { x with lsplit := n, copies := [] }

/-- LGRP (R261): a change drops the group's copies. -/
def State.lgrpWrite (s : State) (t v : Nat) : State :=
  let g := bits v 0 2
  if g = 3 ∨ g = (s.getTile t).lgrp then s
  else ((s.cacheGroup t).foldl (fun s u => s.modTile u fun x => { x with copies := [] }) s).modTile t fun x => { x with lgrp := g }

/-- LEASE, BAL, WDOG1 to WDOG3, RLIMIT and HBPER (R235, R315, R340, R291, R374). -/
def State.leaseWrite (s : State) (p v : Nat) : State := s.modPart p fun q => { q with lease := Nat.max (bits v 0 16) 256 }
def balOf (v : Nat) : Nat :=
  let per := bits v 0 32
  fields [(0, if per = 0 then 0 else Nat.max per 1024), (32, Nat.min (Nat.max (bits v 32 8) 1) 32)]
def State.balWrite (s : State) (p v : Nat) : State := s.modPart p fun q => { q with bal := BitVec.ofNat 64 (balOf v) }
def State.wdogWrite (s : State) (p i v : Nat) : State :=
  s.modPart p fun q =>
    match i with
    | 1 => { q with wdog1 := bits v 0 48 }
    | 2 => { q with wdog2 := bits v 0 48 }
    | _ => { q with wdog3 := bits v 0 48 }
def State.rlimitWrite (s : State) (t c v : Nat) : State :=
  s.modCtx t c fun x => { x with rlimit := Nat.max (bits v 0 8) 1 }
def hbperOf (v : Nat) : Nat := fields [(0, Nat.min (Nat.max (bits v 0 5) 10) 16), (16, bits v 16 16)]
def State.hbperWrite (s : State) (t v : Nat) : State :=
  s.modTile t fun x =>
    let per := 2 ^ bits x.hbper.toNat 0 5
    { x with lath := { x.lath with hbNext := some (BitVec.ofNat 64 (hbperOf v), (s.plumb / per + 1) * per) } }

/-- A counter of the histogram, MPR's GDONE, PTBR, LSEG and TSR (R141, R189, R352, R338, R134). -/
def State.histWrite (s : State) (t n v : Nat) : State :=
  s.modTile t fun x => { x with hist := SMap.set 0 x.hist n (BitVec.ofNat 32 v) }
def State.mprWrite (s : State) (t c v : Nat) : State :=
  s.modCtx t c fun x => if x.mu.stop then { x with mu := { x.mu with gdone := bits v 0 24 } } else x
def ptbrOf (v : Nat) : Nat :=
  fields [(0, if bits v 0 3 = 7 then 0 else bits v 0 3), (8, bits v 8 44), (52, bits v 52 12)]
def State.ptbrWrite (s : State) (t c v : Nat) : State :=
  s.modCtx t c fun x => { x with ptbr := BitVec.ofNat 64 (ptbrOf v) }
def lsegOf (v : Nat) : Nat := bits v 6 14 * 64
def State.lsegWrite (s : State) (k : Key) (v : Nat) : State := s.modThread k fun x => { x with lseg := BitVec.ofNat 72 (lsegOf v) }
def State.tsrWrite (s : State) (k : Key) (v : Nat) : State :=
  s.modThread k fun x => { x with tsr := Sys2Proof.Machine.tsrWrite x.tsr (BitVec.ofNat 64 v) }

/-- A write of FENCEST (R379): `NSHEET` and `LASTID` are one per die, and the fence map holds the new `ST` (R380). -/
def State.fencestWrite (s : State) (t v : Nat) : State :=
  let r := (s.modTile t fun x => { x with fencest := BitVec.ofNat 64 (fields [(0, bits v 0 6), (32, bits v 32 16)]) }).modDie (dieOf t) fun d =>
    { d with nsheet := bits v 8 10, lastid := bits v 20 12 }
  { r with fence := SMap.set 0 r.fence t (bits v 0 2) }

/-- A write of a CSR by the thread in focus; `v` has up to 72 bits. A write below F to an FW register is discarded. -/
def State.csrWrite (s : State) (n v : Nat) : State :=
  let x := s.thr
  let put := fun y : Thread => { s with thr := y }
  let w := BitVec.ofNat 64 v
  let a := BitVec.ofNat 72 v
  let p := s.ctx.pid
  let t := s.cur.t
  if csrFw n && s.thr.priv != 2 then s
  else if 0x140 ≤ n ∧ n < 0x180 then s.histWrite t (n - 0x140) v
  else if 0x180 ≤ n ∧ n < 0x184 then { s with tile := { s.tile with vote := SMap.set 0 s.tile.vote (n - 0x180) w } }
  else match n with
  | 0x000 => put { x with tpc := a } | 0x001 => put { x with tcause := BitVec.ofNat 64 (bits v 0 8) }
  | 0x002 => put { x with taddr := a }
  | 0x003 => put { x with tstat := BitVec.ofNat 64 (fields [(0, bits v 0 5), (13, bits v 13 51)]) }
  | 0x004 => put { x with tvec := a } | 0x005 => put { x with tsp := a }
  | 0x006 => put { x with tscr := SMap.set 0 x.tscr 0 w } | 0x007 => put { x with tscr := SMap.set 0 x.tscr 1 w }
  | 0x008 => put { x with tscr := SMap.set 0 x.tscr 2 w } | 0x009 => put { x with tscr := SMap.set 0 x.tscr 3 w }
  | 0x00B => s.lsegWrite s.cur v
  | 0x018 => s.mprWrite t s.cur.c v
  | 0x020 => put { x with trwt := BitVec.ofNat 64 (fields [(0, bits v 0 2), (8, bits v 8 8)]) }
  | 0x021 => put { x with mpc := BitVec.ofNat 64 (x.mpc.toNat / 256 * 256 + v % 256) }
  | 0x030 => put { x with loops := { x.loops with lc0 := w } } | 0x031 => put { x with loops := { x.loops with lc1 := w } }
  | 0x032 => put { x with loops := { x.loops with ls := a } } | 0x033 => put { x with loops := { x.loops with le := a } }
  | 0x034 => put { x with tloops := { x.tloops with lc0 := w } } | 0x035 => put { x with tloops := { x.tloops with lc1 := w } }
  | 0x036 => put { x with tloops := { x.tloops with ls := a } } | 0x037 => put { x with tloops := { x.tloops with le := a } }
  | 0x0E0 => put { x with hfpc := a } | 0x0E1 => put { x with hfcause := BitVec.ofNat 64 (bits v 0 8) }
  | 0x0E2 => put { x with hfaddr := a }
  | 0x100 => s.tsrWrite s.cur v
  | 0x101 => s.lsplitWrite t v | 0x102 => s.lgrpWrite t v
  | 0x184 => s.fencestWrite t v
  | 0x185 => s.hbperWrite t v
  | 0x200 => s.ptbrWrite t s.cur.c v
  | 0x201 => { s with ctx := { s.ctx with pid := bits v 0 4 } }
  | 0x202 => s.lpoolWrite p v
  | 0x208 => s.wdogWrite p 1 v | 0x209 => s.wdogWrite p 2 v | 0x20A => s.wdogWrite p 3 v
  | 0x20B => s.rlimitWrite t s.cur.c v
  | 0x20C => s.leaseWrite p v
  | 0x20D => s.balWrite p v
  | _ => s

/-- A read of TCAUSE clears TSTAT.HBUSY (R89). -/
def State.ackTrap (s : State) (n : Nat) : State :=
  if n = 0x001 then { s with thr := { s.thr with tstat := s.thr.tstat &&& ~~~(0x10 : Word) } } else s

/-! ### CSRR, CSRW and CSRX (R89) -/

/-- The privilege check at step 5. -/
def csrPriv (n lvl : Nat) (s : State) : Option (Nat × Addr) :=
  if s.thr.priv < lvl then some (cPRIV, BitVec.ofNat 72 n) else none

/-- CSRR, whose value a trailing thread takes from the leading one (R393). -/
def csrRead (s : State) (f : FRI) : Res :=
  let put := fun (t : State) (v : Nat) => (if f.fn = 0 then t.ws f.d (BitVec.ofNat 64 v) else t.wa f.d (BitVec.ofNat 72 v)).ackTrap f.imm
  if s.trails then s.takeCopy.into fun x => .done (put x.1 (bits x.2.toNat 0 72))
  else if s.lvqFull then .hold s.held_
  else .done (put (s.copyTo s.cur (BitVec.ofNat 1024 (s.csr f.imm))) (s.csr f.imm))

def execCsrr (k : Ctl) (f : FRI) (s : State) : Out :=
  .next (s.issue 0x342 k (if f.fn = 0 then [.s f.d] else []) (csrPriv f.imm (csrReadLvl f.imm)) fun s => csrRead s f)

/-- CSRW. -/
def csrStore (s : State) (f : FRI) : Res :=
  .done (s.csrWrite f.imm (if f.fn = 0 then (s.rs f.a).toNat else (s.ra f.a).toNat))

def execCsrw (k : Ctl) (f : FRI) (s : State) : Out :=
  .next (s.issue 0x343 k (if f.fn = 0 then [.s f.a] else []) (csrPriv f.imm (csrWriteLvl f.imm)) fun s => csrStore s f)

/-- CSRX: bits [71:64] of the CSR stay. -/
def csrSwap (s : State) (f : FRI) : Res :=
  let old := s.csr f.imm
  let x := (s.rs f.a).toNat
  let lo := old % 2 ^ 64
  let new := match f.fn with | 0 => x | 1 => lo ||| x | _ => lo &&& (~~~(BitVec.ofNat 64 x)).toNat
  .done (((s.csrWrite f.imm (old / 2 ^ 64 * 2 ^ 64 + new)).ackTrap f.imm).ws f.d (BitVec.ofNat 64 lo))

def execCsrx (k : Ctl) (f : FRI) (s : State) : Out :=
  .next (s.issue 0x344 k [.s f.d, .s f.a] (csrPriv f.imm (Nat.max (csrReadLvl f.imm) (csrWriteLvl f.imm))) fun s => csrSwap s f)

/-! ### TRAP and ERET -/

/-- TRAP (R97): a loop that ends at it closes first, and TPC holds the PC that follows. What is due is delivered at the TRAP
itself, which runs again. -/
def trapNow (s : State) (imm : Nat) : Res :=
  if s.owesResults then .hold s.held_
  else if s.thr.defer ≠ [] ∨ s.muStop.isSome then .trap cTRAPI 0
  else
    let c := s.thr.loops.close s.thr.pc
    let u : State := { s with thr := { s.thr with loops := c.1, pc := c.2.getD (nextPC s.thr.pc) } }
    let seen := fun (r : State) => match c.2 with | some b => r.wordSeen b | none => r
    match c.2.bind s.target with
    | some (e, x) => .end_ ((seen s).take e x)
    | none => .end_ ((seen u).trapEntry cTRAPI s.thr.pc (BitVec.ofNat 72 imm) none u.thr.pc)

def execTrap (k : Ctl) (f : FTrap) (s : State) : Out := run 0x340 k [] (fun s => trapNow s f.imm) s
def execEret (k : Ctl) (_ : FNul) (s : State) : Out := .next (s.issue 0x341 k [] needS fun s => s.eret)

/-! ### TLBI and PARK -/

/-- An entry that TLBI drops (R357): every cached table entry of the partition, and of the leaves those that match. -/
def TlbEnt.hit (e : TlbEnt) (fn pid asid va : Nat) : Bool :=
  let here := va / 2 ^ lvlLow e.lvl == e.va / 2 ^ lvlLow e.lvl
  e.pid == pid && (e.at_.isSome || match fn with
    | 0 => e.asid == asid && here
    | 1 => e.asid == asid
    | 2 => true
    | _ => here)

/-- The tiles of a scope around a tile. -/
def inScope (scope t u : Nat) : Bool := match scope with | 1 => u == t | 2 => dieOf u == dieOf t | _ => true

/-- The scope at which an entry is dropped: a table entry's holders, the walkers, serve a whole die. -/
def TlbEnt.scope (e : TlbEnt) (scope : Nat) : Nat := if e.at_.isSome then Nat.max scope 2 else scope

/-- An access of a partition's from a tile of a scope is on its way, whose address was translated before (R357 step 3). -/
def State.onTheWay (s : State) (scope t pid : Nat) : Bool :=
  let mine := fun (x : Store) => x.pid == pid && inScope scope t x.tile
  let queued := fun (x : Tile) => x.fifo.any fun e => e.store?.any mine
  queued s.tile || s.tiles.any (fun e => queued e.2) ||
  (s.dies.any fun e => e.2.waitSt.any mine || (3 ≤ scope && e.2.pendB.any mine)) ||
  (s.reds.any fun r => r.pid == pid && inScope scope t r.tile) ||
  s.resvq.any fun e => e.2.any fun q => q.pid == pid && inScope scope t q.who.t && !(q.granted && q.op == 3)

/-- A place lies in the page that a cached leaf maps. -/
def TlbEnt.covers (e : TlbEnt) : Place → Bool
  | .pa a => e.at_.isNone && !e.e.getLsbD 9 && a / 2 ^ lvlLow e.lvl == bits e.e.toNat 16 36 * 65536 / 2 ^ lvlLow e.lvl
  | .lin _ _ _ _ => e.at_.isNone && e.e.getLsbD 9
  | _ => false

/-- The places of a thread's accesses that are not performed: of a parked sync load or WRS, of loads that are not bound, and of the stores that
wait in the comparator or in its region's buffer. -/
def Thread.placesDue (x : Thread) : List Place :=
  (match x.wait with | .lds p | .wrs p _ _ | .wrsMet p => [p] | _ => []) ++
  x.pend.flatMap (fun q => match q.load with | some l => l.parts.map fun r => .pa r.1 | none => []) ++
  x.heldStores.flatMap (fun h => (allPieces h.2.l).map (·.spot.place)) ++
  (match x.region with | some r => r.buf.map fun b => .pa b.1 | none => [])

/-- Some access that used an entry to be dropped waits in a thread, or among the writes that an engine has in hand (R357 step 3). -/
def State.usesDropped (s : State) (scope t pid : Nat) (drop : TlbEnt → Bool) : Bool :=
  s.liveCtxs.any fun tc =>
    let x := s.getCtx tc.1 tc.2
    let gone := (s.getTile tc.1).tlb.filter drop
    x.pid == pid && inScope scope t tc.1 &&
    (((ctxKeys tc.1 tc.2).any fun k => k != s.cur && (s.getThread k).placesDue.any fun p => gone.any (·.covers p)) ||
     (x.cu.burst.any fun b => b.writes.any fun w => w.at_.any fun a => gone.any (·.covers (.pa a))) ||
     x.mu.burst.any fun w => w.2.2.any fun a => gone.any (·.covers (.pa a)))

/-- TLBI (R357). -/
def tlbDrop (s : State) (f : FTlbi) : Res :=
  let asid := (s.rs f.sa).toNat
  let va := (s.ra f.ar).toNat
  let pid := s.ctx.pid
  if 4096 ≤ asid then .trap cILLOP 0
  else if s.thr.owesRmw || s.thr.owesSo || (2 ≤ f.scope && !s.performedAt s.cur.t f.scope) || s.onTheWay f.scope s.cur.t pid ||
      s.usesDropped f.scope s.cur.t pid (fun e => e.hit f.fn pid asid va) then
    .hold s.held_
  else .done (s.allTiles fun u x =>
    if s.ownerOf u == pid then
      { x with tlb := x.tlb.filter fun e => !(e.hit f.fn pid asid va && inScope (e.scope f.scope) s.cur.t u) }
    else x)

def execTlbi (k : Ctl) (f : FTlbi) (s : State) : Out := .next (s.issue 0x345 k [.s f.sa] needS fun s => tlbDrop s f)

/-- PARK (R99). -/
def park (s : State) (f : FPark) : Res :=
  match s.thr.retry with
  | some v => .done (({ s with thr := { s.thr with retry := none } } : State).late [(.s f.d, ofWord v)])
  | none =>
    let n := (s.rs f.a).toNat
    .hold { s with thr := { s.thr with wait := .park (if n = 0 then none else some (s.plumb + n)) } }

def execPark (k : Ctl) (f : FPark) (s : State) : Out := run 0x347 k [.s f.d, .s f.a] (fun s => park s f) s

end Sys2Proof.Machine
end

