-- ==== Sys2Proof/Decode.lean ====
section
/-! DEFINITION. The decoder and the encoder of Hexarn instructions (R47, R55 to R62, R64, R68, R69 and the X layouts
given with each instruction). Both are written over one list of fields for each body format, from bit 0 up. -/

namespace Sys2Proof

/-- A word from its fields, each with its width, from bit 0 up. -/
def pack : List (Nat × Nat) → Nat
  | [] => 0
  | (n, v) :: r => v + 2 ^ n * pack r

/-- The fields of a word, of the given widths, from bit 0 up. -/
def unpack : List Nat → Nat → List Nat
  | [], _ => []
  | n :: r, w => w % 2 ^ n :: unpack r (w / 2 ^ n)

/-- Why a word is no instruction (R61 step 3). -/
inductive Reject where
  /-- The opcode is reserved (R68). -/
  | reservedOpcode
  /-- A bit that a format shows as zero is set (R57). -/
  | zeroField
  /-- A field holds a code, register or value that its instruction does not accept (R57 to R60, R67). -/
  | notAccepted
  deriving DecidableEq, Repr

/-! The layouts of the bodies, bits [80:0]. A constant 0 is a field that must be zero. -/

def FRR.layout (f : FRR) : List (Nat × Nat) :=
  [(53, 0), (4, f.fn), (6, f.c), (6, f.b), (6, f.a), (6, f.d)]

def FRR.read (w : Nat) : Except Reject FRR :=
  match unpack [53, 4, 6, 6, 6, 6] w with
  | [z0, fn, c, b, a, d] => if z0 = 0 then .ok { fn := fn, c := c, b := b, a := a, d := d } else .error .zeroField
  | _ => .error .zeroField

def FRI.layout (f : FRI) : List (Nat × Nat) :=
  [(64, f.imm), (1, 0), (4, f.fn), (6, f.a), (6, f.d)]

def FRI.read (w : Nat) : Except Reject FRI :=
  match unpack [64, 1, 4, 6, 6] w with
  | [imm, z0, fn, a, d] => if z0 = 0 then .ok { imm := imm, fn := fn, a := a, d := d } else .error .zeroField
  | _ => .error .zeroField

def FAI.layout (f : FAI) : List (Nat × Nat) :=
  [(72, f.imm), (4, f.fn), (5, f.d)]

def FAI.read (w : Nat) : Except Reject FAI :=
  match unpack [72, 4, 5] w with
  | [imm, fn, d] => .ok { imm := imm, fn := fn, d := d }
  | _ => .error .zeroField

def FM.layout (f : FM) : List (Nat × Nat) :=
  [(48, f.disp), (6, 0), (4, f.ordq), (4, f.sz), (2, f.sc), (6, f.idx), (5, f.base), (6, f.d)]

def FM.read (w : Nat) : Except Reject FM :=
  match unpack [48, 6, 4, 4, 2, 6, 5, 6] w with
  | [disp, z0, ordq, sz, sc, idx, base, d] => if z0 = 0 then .ok { disp := disp, ordq := ordq, sz := sz, sc := sc, idx := idx, base := base, d := d } else .error .zeroField
  | _ => .error .zeroField

def FB.layout (f : FB) : List (Nat × Nat) :=
  [(3, f.sl), (29, f.dl), (29, 0), (4, f.fn), (4, f.cnd), (6, f.b), (6, f.a)]

def FB.read (w : Nat) : Except Reject FB :=
  match unpack [3, 29, 29, 4, 4, 6, 6] w with
  | [sl, dl, z0, fn, cnd, b, a] => if z0 = 0 then .ok { sl := sl, dl := dl, fn := fn, cnd := cnd, b := b, a := a } else .error .zeroField
  | _ => .error .zeroField

def FV.layout (f : FV) : List (Nat × Nat) :=
  [(32, f.imm), (10, 0), (2, f.rm), (6, f.ss), (4, f.fn), (4, f.ty), (3, f.km), (5, f.vc), (5, f.vb), (5, f.va), (5, f.vd)]

def FV.read (w : Nat) : Except Reject FV :=
  match unpack [32, 10, 2, 6, 4, 4, 3, 5, 5, 5, 5] w with
  | [imm, z0, rm, ss, fn, ty, km, vc, vb, va, vd] => if z0 = 0 then .ok { imm := imm, rm := rm, ss := ss, fn := fn, ty := ty, km := km, vc := vc, vb := vb, va := va, vd := vd } else .error .zeroField
  | _ => .error .zeroField

def FE.layout (f : FE) : List (Nat × Nat) :=
  [(34, 0), (5, f.ext), (4, f.mode), (4, f.fb), (4, f.fa), (6, f.kreg), (6, f.bstr), (5, f.bbase), (6, f.astr), (5, f.abase), (2, f.acc)]

def FE.read (w : Nat) : Except Reject FE :=
  match unpack [34, 5, 4, 4, 4, 6, 6, 5, 6, 5, 2] w with
  | [z0, ext, mode, fb, fa, kreg, bstr, bbase, astr, abase, acc] => if z0 = 0 then .ok { ext := ext, mode := mode, fb := fb, fa := fa, kreg := kreg, bstr := bstr, bbase := bbase, astr := astr, abase := abase, acc := acc } else .error .zeroField
  | _ => .error .zeroField

def FLoopi.layout (f : FLoopi) : List (Nat × Nat) :=
  [(3, f.sl), (29, f.dl), (32, f.cnt), (17, 0)]

def FLoopi.read (w : Nat) : Except Reject FLoopi :=
  match unpack [3, 29, 32, 17] w with
  | [sl, dl, cnt, z0] => if z0 = 0 then .ok { sl := sl, dl := dl, cnt := cnt } else .error .zeroField
  | _ => .error .zeroField

def FCallat.layout (f : FCallat) : List (Nat × Nat) :=
  [(64, 0), (5, f.c), (6, f.a), (6, f.t)]

def FCallat.read (w : Nat) : Except Reject FCallat :=
  match unpack [64, 5, 6, 6] w with
  | [z0, c, a, t] => if z0 = 0 then .ok { c := c, a := a, t := t } else .error .zeroField
  | _ => .error .zeroField

def FAtom.layout (f : FAtom) : List (Nat × Nat) :=
  [(16, f.disp), (29, 0), (5, f.fn), (4, f.sz), (4, f.ordq), (6, f.b), (6, f.a), (5, f.base), (6, f.d)]

def FAtom.read (w : Nat) : Except Reject FAtom :=
  match unpack [16, 29, 5, 4, 4, 6, 6, 5, 6] w with
  | [disp, z0, fn, sz, ordq, b, a, base, d] => if z0 = 0 then .ok { disp := disp, fn := fn, sz := sz, ordq := ordq, b := b, a := a, base := base, d := d } else .error .zeroField
  | _ => .error .zeroField

def FAppend.layout (f : FAppend) : List (Nat × Nat) :=
  [(51, 0), (5, f.ar), (3, f.fn), (4, f.n), (6, f.t), (6, f.a), (6, f.d)]

def FAppend.read (w : Nat) : Except Reject FAppend :=
  match unpack [51, 5, 3, 4, 6, 6, 6] w with
  | [z0, ar, fn, n, t, a, d] => if z0 = 0 then .ok { ar := ar, fn := fn, n := n, t := t, a := a, d := d } else .error .zeroField
  | _ => .error .zeroField

def FFence.layout (f : FFence) : List (Nat × Nat) :=
  [(52, 0), (2, f.kind), (1, 0), (3, f.scope), (17, 0), (6, f.d)]

def FFence.read (w : Nat) : Except Reject FFence :=
  match unpack [52, 2, 1, 3, 17, 6] w with
  | [z0, kind, z1, scope, z2, d] => if z0 = 0 ∧ z1 = 0 ∧ z2 = 0 then .ok { kind := kind, scope := scope, d := d } else .error .zeroField
  | _ => .error .zeroField

def FRegion.layout (f : FRegion) : List (Nat × Nat) :=
  [(32, f.imm), (24, 0), (5, f.ar), (4, f.fn), (1, 0), (3, f.pd), (6, f.e), (6, f.d)]

def FRegion.read (w : Nat) : Except Reject FRegion :=
  match unpack [32, 24, 5, 4, 1, 3, 6, 6] w with
  | [imm, z0, ar, fn, z1, pd, e, d] => if z0 = 0 ∧ z1 = 0 then .ok { imm := imm, ar := ar, fn := fn, pd := pd, e := e, d := d } else .error .zeroField
  | _ => .error .zeroField

def FMu.layout (f : FMu) : List (Nat × Nat) :=
  [(59, 0), (4, f.fn), (5, f.row), (2, f.acc), (5, f.vr), (6, f.d)]

def FMu.read (w : Nat) : Except Reject FMu :=
  match unpack [59, 4, 5, 2, 5, 6] w with
  | [z0, fn, row, acc, vr, d] => if z0 = 0 then .ok { fn := fn, row := row, acc := acc, vr := vr, d := d } else .error .zeroField
  | _ => .error .zeroField

def FCu.layout (f : FCu) : List (Nat × Nat) :=
  [(16, f.imm), (8, f.fn), (6, f.sc), (2, f.rm), (4, f.tr), (4, f.ts), (4, f.td), (5, f.ai), (5, f.ar), (5, f.ay), (6, f.t), (6, f.n), (5, f.asrc), (5, f.ad)]

def FCu.read (w : Nat) : Except Reject FCu :=
  match unpack [16, 8, 6, 2, 4, 4, 4, 5, 5, 5, 6, 6, 5, 5] w with
  | [imm, fn, sc, rm, tr, ts, td, ai, ar, ay, t, n, asrc, ad] => .ok { imm := imm, fn := fn, sc := sc, rm := rm, tr := tr, ts := ts, td := td, ai := ai, ar := ar, ay := ay, t := t, n := n, asrc := asrc, ad := ad }
  | _ => .error .zeroField

def FColl.layout (f : FColl) : List (Nat × Nat) :=
  [(37, 0), (8, f.fn), (4, f.ty), (6, f.k), (4, f.g), (6, f.n), (5, f.asrc), (5, f.ad), (6, f.d)]

def FColl.read (w : Nat) : Except Reject FColl :=
  match unpack [37, 8, 4, 6, 4, 6, 5, 5, 6] w with
  | [z0, fn, ty, k, g, n, asrc, ad, d] => if z0 = 0 then .ok { fn := fn, ty := ty, k := k, g := g, n := n, asrc := asrc, ad := ad, d := d } else .error .zeroField
  | _ => .error .zeroField

def FLin.layout (f : FLin) : List (Nat × Nat) :=
  [(45, 0), (4, f.fn), (3, f.pd), (5, f.ar), (6, f.c), (6, f.b), (6, f.a), (6, f.d)]

def FLin.read (w : Nat) : Except Reject FLin :=
  match unpack [45, 4, 3, 5, 6, 6, 6, 6] w with
  | [z0, fn, pd, ar, c, b, a, d] => if z0 = 0 then .ok { fn := fn, pd := pd, ar := ar, c := c, b := b, a := a, d := d } else .error .zeroField
  | _ => .error .zeroField

def FTrap.layout (f : FTrap) : List (Nat × Nat) :=
  [(32, f.imm), (49, 0)]

def FTrap.read (w : Nat) : Except Reject FTrap :=
  match unpack [32, 49] w with
  | [imm, z0] => if z0 = 0 then .ok { imm := imm } else .error .zeroField
  | _ => .error .zeroField

def FNul.layout (_ : FNul) : List (Nat × Nat) :=
  [(81, 0)]

def FNul.read (w : Nat) : Except Reject FNul :=
  match unpack [81] w with
  | [z0] => if z0 = 0 then .ok {} else .error .zeroField
  | _ => .error .zeroField

def FTlbi.layout (f : FTlbi) : List (Nat × Nat) :=
  [(64, 0), (3, f.fn), (3, f.scope), (6, f.sa), (5, f.ar)]

def FTlbi.read (w : Nat) : Except Reject FTlbi :=
  match unpack [64, 3, 3, 6, 5] w with
  | [z0, fn, scope, sa, ar] => if z0 = 0 then .ok { fn := fn, scope := scope, sa := sa, ar := ar } else .error .zeroField
  | _ => .error .zeroField

def FPark.layout (f : FPark) : List (Nat × Nat) :=
  [(69, 0), (6, f.a), (6, f.d)]

def FPark.read (w : Nat) : Except Reject FPark :=
  match unpack [69, 6, 6] w with
  | [z0, a, d] => if z0 = 0 then .ok { a := a, d := d } else .error .zeroField
  | _ => .error .zeroField

def FHawk.layout (f : FHawk) : List (Nat × Nat) :=
  [(41, 0), (8, f.st), (3, f.bk), (6, f.opx), (5, f.ar), (6, f.b), (6, f.a), (6, f.d)]

def FHawk.read (w : Nat) : Except Reject FHawk :=
  match unpack [41, 8, 3, 6, 5, 6, 6, 6] w with
  | [z0, st, bk, opx, ar, b, a, d] => if z0 = 0 then .ok { st := st, bk := bk, opx := opx, ar := ar, b := b, a := a, d := d } else .error .zeroField
  | _ => .error .zeroField

def FTrowel.layout (f : FTrowel) : List (Nat × Nat) :=
  [(32, f.imm), (20, 0), (5, f.vp), (6, f.c), (6, f.b), (6, f.a), (6, f.d)]

def FTrowel.read (op : Nat) (w : Nat) : Except Reject FTrowel :=
  match unpack [32, 20, 5, 6, 6, 6, 6] w with
  | [imm, z0, vp, c, b, a, d] => if z0 = 0 then .ok { op := op, imm := imm, vp := vp, c := c, b := b, a := a, d := d } else .error .zeroField
  | _ => .error .zeroField

/-- The instruction an opcode and a body name, before the checks of `Instr.wf` (R64 to R69). -/
def decodeOp (op : Nat) (k : Ctl) (w : Nat) : Except Reject Instr :=
  match op with
  | 0x000 => (FRR.read w).map (.nop k)
  | 0x001 => (FRR.read w).map (.add k)
  | 0x002 => (FRR.read w).map (.sub k)
  | 0x003 => (FRI.read w).map (.addi k)
  | 0x004 => (FRR.read w).map (.mul k)
  | 0x005 => (FRR.read w).map (.mulh k)
  | 0x006 => (FRR.read w).map (.mulhu k)
  | 0x007 => (FRR.read w).map (.div k)
  | 0x008 => (FRR.read w).map (.divu k)
  | 0x009 => (FRR.read w).map (.rem k)
  | 0x00A => (FRR.read w).map (.remu k)
  | 0x010 => (FRR.read w).map (.and k)
  | 0x011 => (FRR.read w).map (.or k)
  | 0x012 => (FRR.read w).map (.xor k)
  | 0x013 => (FRR.read w).map (.andn k)
  | 0x014 => (FRI.read w).map (.andi k)
  | 0x015 => (FRI.read w).map (.ori k)
  | 0x016 => (FRI.read w).map (.xori k)
  | 0x018 => (FRR.read w).map (.shl k)
  | 0x019 => (FRR.read w).map (.shr k)
  | 0x01A => (FRR.read w).map (.sra k)
  | 0x01B => (FRR.read w).map (.rotr k)
  | 0x01C => (FRI.read w).map (.shli k)
  | 0x01D => (FRI.read w).map (.shri k)
  | 0x01E => (FRI.read w).map (.srai k)
  | 0x020 => (FRR.read w).map (.clz k)
  | 0x021 => (FRR.read w).map (.ctz k)
  | 0x022 => (FRR.read w).map (.pcnt k)
  | 0x023 => (FRR.read w).map (.bswap k)
  | 0x024 => (FRR.read w).map (.min k)
  | 0x025 => (FRR.read w).map (.max k)
  | 0x026 => (FRR.read w).map (.minu k)
  | 0x027 => (FRR.read w).map (.maxu k)
  | 0x028 => (FRR.read w).map (.cmp k)
  | 0x029 => (FRI.read w).map (.cmpi k)
  | 0x02A => (FRR.read w).map (.sel k)
  | 0x02B => (FRR.read w).map (.pset k)
  | 0x030 => (FRR.read w).bind fun f => match f.fn with
    | 0 => .ok (.mov k f)
    | 1 => .ok (.movAl k f)
    | 2 => .ok (.movAh k f)
    | _ => .error .notAccepted
  | 0x031 => (FRI.read w).map (.movi k)
  | 0x032 => (FRR.read w).map (.ext k)
  | 0x033 => (FRI.read w).map (.bfx k)
  | 0x034 => (FRI.read w).map (.bfi k)
  | 0x038 => (FM.read w).map (.lea k)
  | 0x039 => (FRR.read w).map (.adda k)
  | 0x03A => (FRR.read w).bind fun f => match f.fn with
    | 0 => .ok (.suba k f)
    | 1 => .ok (.subaD k f)
    | _ => .error .notAccepted
  | 0x03B => (FRR.read w).bind fun f => match f.fn with
    | 0 => .ok (.mova k f)
    | 1 => .ok (.movaS k f)
    | 2 => .ok (.movaSh k f)
    | _ => .error .notAccepted
  | 0x03C => (FRR.read w).map (.cmpa k)
  | 0x03D => (FAI.read w).map (.movai k)
  | 0x080 => (FB.read w).map (.br k)
  | 0x081 => (FB.read w).map (.bc k)
  | 0x082 => (FB.read w).map (.bcmp k)
  | 0x083 => (FRR.read w).map (.bi k)
  | 0x084 => (FB.read w).map (.call k)
  | 0x085 => (FRR.read w).map (.calli k)
  | 0x086 => (FRR.read w).map (.ret k)
  | 0x087 => (FRR.read w).map (.jtab k)
  | 0x088 => (FB.read w).map (.loop k)
  | 0x089 => (FLoopi.read w).map (.loopi k)
  | 0x08A => (FRR.read w).map (.breakl k)
  | 0x090 => (FB.read w).map (.forkb k)
  | 0x091 => (FRR.read w).map (.join k)
  | 0x092 => (FCallat.read w).map (.callat k)
  | 0x093 => (FRR.read w).map (.spawn k)
  | 0x094 => (FRR.read w).map (.tdep k)
  | 0x095 => (FRR.read w).map (.signal k)
  | 0x096 => (FRR.read w).map (.texit k)
  | 0x097 => (FRR.read w).map (.yield k)
  | 0x098 => (FRR.read w).map (.tqry k)
  | 0x099 => (FRR.read w).bind fun f => match f.fn with
    | 0 => .ok (.cancelTask k f)
    | 1 | 2 | 3 | 4 => .ok (.cancelLevel k f)
    | _ => .error .notAccepted
  | 0x09A => (FRR.read w).map (.lcnt k)
  | 0x0A0 => (FRR.read w).map (.semp k)
  | 0x0A1 => (FRR.read w).map (.semv k)
  | 0x0A2 => (FRR.read w).map (.qpush k)
  | 0x0A3 => (FRR.read w).map (.qpop k)
  | 0x0A4 => (FRR.read w).map (.qstat k)
  | 0x100 => (FM.read w).map (.ld k)
  | 0x101 => (FM.read w).map (.st k)
  | 0x102 => (FM.read w).map (.lda k)
  | 0x103 => (FM.read w).map (.sta k)
  | 0x104 => (FM.read w).map (.ldq k)
  | 0x105 => (FM.read w).map (.stq k)
  | 0x108 => (FM.read w).map (.lds k)
  | 0x109 => (FM.read w).map (.stf k)
  | 0x10A => (FM.read w).map (.sete k)
  | 0x10B => (FM.read w).map (.feq k)
  | 0x10C => (FM.read w).map (.pref k)
  | 0x110 => (FM.read w).map (.vld k)
  | 0x111 => (FM.read w).map (.vst k)
  | 0x112 => (FM.read w).map (.vlds k)
  | 0x113 => (FM.read w).map (.vsts k)
  | 0x114 => (FV.read w).map (.vgath k)
  | 0x115 => (FV.read w).map (.vscat k)
  | 0x120 => (FM.read w).map (.clean k)
  | 0x121 => (FM.read w).map (.disc k)
  | 0x122 => (FM.read w).map (.zero k)
  | 0x180 => (FM.read w).map (.lr k)
  | 0x181 => (FAtom.read w).map (.sc k)
  | 0x182 => (FAtom.read w).map (.amo k)
  | 0x183 => (FAtom.read w).map (.cas k)
  | 0x184 => (FAtom.read w).map (.red k)
  | 0x185 => (FAppend.read w).bind fun f => match f.fn with
    | 0 => .ok (.append k f)
    | 1 => .ok (.appendCfg k f)
    | 2 => .ok (.appendPop k f)
    | 3 => .ok (.appendStat k f)
    | _ => .error .notAccepted
  | 0x186 => (FM.read w).map (.wrs k)
  | 0x188 => (FFence.read w).map (.fence k)
  | 0x189 => (FFence.read w).map (.fencee k)
  | 0x190 => (FRegion.read w).map (.rbegin k)
  | 0x191 => (FRegion.read w).map (.rcommit k)
  | 0x192 => (FRegion.read w).map (.rabort k)
  | 0x193 => (FRegion.read w).map (.rstat k)
  | 0x194 => (FRegion.read w).bind fun f => match f.fn with
    | 0 => .ok (.rposB k f)
    | 1 => .ok (.rposL k f)
    | _ => .error .notAccepted
  | 0x200 => (FV.read w).map (.vadd k)
  | 0x201 => (FV.read w).map (.vsub k)
  | 0x202 => (FV.read w).map (.vmul k)
  | 0x203 => (FV.read w).map (.vfma k)
  | 0x204 => (FV.read w).map (.vfms k)
  | 0x205 => (FV.read w).map (.vmin k)
  | 0x206 => (FV.read w).map (.vmax k)
  | 0x207 => (FV.read w).map (.vabs k)
  | 0x208 => (FV.read w).map (.vneg k)
  | 0x209 => (FV.read w).map (.vrcp k)
  | 0x20A => (FV.read w).map (.vrsq k)
  | 0x20B => (FV.read w).map (.vexp2 k)
  | 0x20C => (FV.read w).map (.vlog2 k)
  | 0x20D => (FV.read w).map (.vdiv k)
  | 0x20E => (FV.read w).map (.vsqrt k)
  | 0x210 => (FV.read w).map (.vand k)
  | 0x211 => (FV.read w).map (.vor k)
  | 0x212 => (FV.read w).map (.vxor k)
  | 0x213 => (FV.read w).map (.vshl k)
  | 0x214 => (FV.read w).map (.vshr k)
  | 0x215 => (FV.read w).map (.vsra k)
  | 0x218 => (FV.read w).map (.vcmp k)
  | 0x219 => (FV.read w).map (.vsel k)
  | 0x21A => (FV.read w).map (.vcvt k)
  | 0x21B => (FV.read w).map (.vred k)
  | 0x21C => (FV.read w).map (.vscan k)
  | 0x220 => (FV.read w).map (.vperm k)
  | 0x221 => (FV.read w).map (.vbcast k)
  | 0x222 => (FV.read w).map (.vins k)
  | 0x223 => (FV.read w).map (.vext k)
  | 0x224 => (FV.read w).map (.vmov k)
  | 0x225 => (FV.read w).map (.vmovi k)
  | 0x228 => (FV.read w).map (.kop k)
  | 0x229 => (FV.read w).map (.kmov k)
  | 0x22A => (FV.read w).map (.vhist k)
  | 0x280 => (FE.read w).map (.mma k)
  | 0x281 => (FE.read w).map (.mmat k)
  | 0x282 => (FE.read w).map (.mmas k)
  | 0x283 => (FE.read w).map (.mzero k)
  | 0x284 => (FMu.read w).map (.mrdv k)
  | 0x285 => (FMu.read w).map (.mwrv k)
  | 0x286 => (FE.read w).map (.mst k)
  | 0x287 => (FE.read w).map (.mlda k)
  | 0x288 => (FMu.read w).bind fun f => match f.fn with
    | 0 => .ok (.mprogGo k f)
    | 1 => .ok (.mprogDrop k f)
    | _ => .error .notAccepted
  | 0x289 => (FMu.read w).map (.msync k)
  | 0x28A => (FMu.read w).map (.mstat k)
  | 0x290 => (FCu.read w).map (.cpy k)
  | 0x291 => (FCu.read w).map (.cpyc k)
  | 0x292 => (FCu.read w).map (.cpyg k)
  | 0x293 => (FCu.read w).map (.cbatch k)
  | 0x294 => (FCu.read w).map (.cwaitb k)
  | 0x295 => (FCu.read w).map (.syncw k)
  | 0x296 => (FCu.read w).bind fun f => match f.fn with
    | 0 => .ok (.syncwt k f)
    | 1 => .ok (.syncwtInit k f)
    | _ => .error .notAccepted
  | 0x297 => (FCu.read w).bind fun f => match f.fn with
    | 0 => .ok (.csyncWait k f)
    | 1 => .ok (.csyncStat k f)
    | 2 => .ok (.csyncGo k f)
    | 3 => .ok (.csyncDrop k f)
    | _ => .error .notAccepted
  | 0x2A0 => (FColl.read w).map (.cgrp k)
  | 0x2A1 => (FColl.read w).map (.cring k)
  | 0x2A2 => (FColl.read w).map (.credu k)
  | 0x2A3 => (FColl.read w).map (.cgath k)
  | 0x2A4 => (FColl.read w).map (.cbar k)
  | 0x2A5 => (FColl.read w).map (.cwait k)
  | 0x300 => (FLin.read w).map (.lnew k)
  | 0x301 => (FLin.read w).map (.lmap k)
  | 0x302 => (FLin.read w).map (.lunmap k)
  | 0x303 => (FLin.read w).map (.fork k)
  | 0x304 => (FLin.read w).map (.rebase k)
  | 0x305 => (FLin.read w).map (.flatten k)
  | 0x306 => (FLin.read w).map (.drop k)
  | 0x307 => (FLin.read w).map (.lnq k)
  | 0x308 => (FLin.read w).map (.ldiff k)
  | 0x340 => (FTrap.read w).map (.trap k)
  | 0x341 => (FNul.read w).map (.eret k)
  | 0x342 => (FRI.read w).map (.csrr k)
  | 0x343 => (FRI.read w).map (.csrw k)
  | 0x344 => (FRI.read w).map (.csrx k)
  | 0x345 => (FTlbi.read w).map (.tlbi k)
  | 0x346 => (FM.read w).map (.icinv k)
  | 0x347 => (FPark.read w).map (.park k)
  | 0x348 => (FHawk.read w).map (.trwb k)
  | 0x349 => (FHawk.read w).map (.trwl k)
  | 0x34A => (FHawk.read w).map (.trwu k)
  | 0x34B => (FHawk.read w).map (.trwq k)
  | _ => if 0x3C0 ≤ op then (FTrowel.read (op - 0x3C0) w).map (.trowel k) else .error .reservedOpcode

/-- Decodes the 96 bits of a slot (R55, R61 step 3, R68). -/
def decode (w : Nat) : Except Reject Instr :=
  (decodeOp (bits w 85 10) { s := bit w 95, pn := bit w 84, pg := bits w 81 3 } w).bind fun i =>
    if i.wf then .ok i else .error .notAccepted

/-- A number from bytes, the first least significant (R2). -/
def ofBytes : List Byte → Nat
  | [] => 0
  | b :: r => b.toNat + 256 * ofBytes r

/-- The low `n` bytes of a number, the least significant first (R2). -/
def toBytes : Nat → Nat → List Byte
  | 0, _ => []
  | n + 1, x => BitVec.ofNat 8 x :: toBytes n (x / 256)

/-- Decodes the twelve bytes of a slot (R47). -/
def decodeBytes (bs : List Byte) : Except Reject Instr := decode (ofBytes (bs.take 12))

/-- The word of an instruction: its body, then `PG`, `PN`, `OP` and `S` (R55). -/
def word (op : Nat) (k : Ctl) (body : List (Nat × Nat)) : Nat :=
  pack (body ++ [(3, k.pg), (1, b2n k.pn), (10, op), (1, b2n k.s)])

/-- The word of an instruction; a step of another agent has none. -/
def encode : Instr → Option Nat
  | .nop k f => some (word 0x000 k f.layout)
  | .add k f => some (word 0x001 k f.layout)
  | .sub k f => some (word 0x002 k f.layout)
  | .addi k f => some (word 0x003 k f.layout)
  | .mul k f => some (word 0x004 k f.layout)
  | .mulh k f => some (word 0x005 k f.layout)
  | .mulhu k f => some (word 0x006 k f.layout)
  | .div k f => some (word 0x007 k f.layout)
  | .divu k f => some (word 0x008 k f.layout)
  | .rem k f => some (word 0x009 k f.layout)
  | .remu k f => some (word 0x00A k f.layout)
  | .and k f => some (word 0x010 k f.layout)
  | .or k f => some (word 0x011 k f.layout)
  | .xor k f => some (word 0x012 k f.layout)
  | .andn k f => some (word 0x013 k f.layout)
  | .andi k f => some (word 0x014 k f.layout)
  | .ori k f => some (word 0x015 k f.layout)
  | .xori k f => some (word 0x016 k f.layout)
  | .shl k f => some (word 0x018 k f.layout)
  | .shr k f => some (word 0x019 k f.layout)
  | .sra k f => some (word 0x01A k f.layout)
  | .rotr k f => some (word 0x01B k f.layout)
  | .shli k f => some (word 0x01C k f.layout)
  | .shri k f => some (word 0x01D k f.layout)
  | .srai k f => some (word 0x01E k f.layout)
  | .clz k f => some (word 0x020 k f.layout)
  | .ctz k f => some (word 0x021 k f.layout)
  | .pcnt k f => some (word 0x022 k f.layout)
  | .bswap k f => some (word 0x023 k f.layout)
  | .min k f => some (word 0x024 k f.layout)
  | .max k f => some (word 0x025 k f.layout)
  | .minu k f => some (word 0x026 k f.layout)
  | .maxu k f => some (word 0x027 k f.layout)
  | .cmp k f => some (word 0x028 k f.layout)
  | .cmpi k f => some (word 0x029 k f.layout)
  | .sel k f => some (word 0x02A k f.layout)
  | .pset k f => some (word 0x02B k f.layout)
  | .mov k f => some (word 0x030 k f.layout)
  | .movAl k f => some (word 0x030 k f.layout)
  | .movAh k f => some (word 0x030 k f.layout)
  | .movi k f => some (word 0x031 k f.layout)
  | .ext k f => some (word 0x032 k f.layout)
  | .bfx k f => some (word 0x033 k f.layout)
  | .bfi k f => some (word 0x034 k f.layout)
  | .lea k f => some (word 0x038 k f.layout)
  | .adda k f => some (word 0x039 k f.layout)
  | .suba k f => some (word 0x03A k f.layout)
  | .subaD k f => some (word 0x03A k f.layout)
  | .mova k f => some (word 0x03B k f.layout)
  | .movaS k f => some (word 0x03B k f.layout)
  | .movaSh k f => some (word 0x03B k f.layout)
  | .cmpa k f => some (word 0x03C k f.layout)
  | .movai k f => some (word 0x03D k f.layout)
  | .br k f => some (word 0x080 k f.layout)
  | .bc k f => some (word 0x081 k f.layout)
  | .bcmp k f => some (word 0x082 k f.layout)
  | .bi k f => some (word 0x083 k f.layout)
  | .call k f => some (word 0x084 k f.layout)
  | .calli k f => some (word 0x085 k f.layout)
  | .ret k f => some (word 0x086 k f.layout)
  | .jtab k f => some (word 0x087 k f.layout)
  | .loop k f => some (word 0x088 k f.layout)
  | .loopi k f => some (word 0x089 k f.layout)
  | .breakl k f => some (word 0x08A k f.layout)
  | .forkb k f => some (word 0x090 k f.layout)
  | .join k f => some (word 0x091 k f.layout)
  | .callat k f => some (word 0x092 k f.layout)
  | .spawn k f => some (word 0x093 k f.layout)
  | .tdep k f => some (word 0x094 k f.layout)
  | .signal k f => some (word 0x095 k f.layout)
  | .texit k f => some (word 0x096 k f.layout)
  | .yield k f => some (word 0x097 k f.layout)
  | .tqry k f => some (word 0x098 k f.layout)
  | .cancelTask k f => some (word 0x099 k f.layout)
  | .cancelLevel k f => some (word 0x099 k f.layout)
  | .lcnt k f => some (word 0x09A k f.layout)
  | .semp k f => some (word 0x0A0 k f.layout)
  | .semv k f => some (word 0x0A1 k f.layout)
  | .qpush k f => some (word 0x0A2 k f.layout)
  | .qpop k f => some (word 0x0A3 k f.layout)
  | .qstat k f => some (word 0x0A4 k f.layout)
  | .ld k f => some (word 0x100 k f.layout)
  | .st k f => some (word 0x101 k f.layout)
  | .lda k f => some (word 0x102 k f.layout)
  | .sta k f => some (word 0x103 k f.layout)
  | .ldq k f => some (word 0x104 k f.layout)
  | .stq k f => some (word 0x105 k f.layout)
  | .lds k f => some (word 0x108 k f.layout)
  | .stf k f => some (word 0x109 k f.layout)
  | .sete k f => some (word 0x10A k f.layout)
  | .feq k f => some (word 0x10B k f.layout)
  | .pref k f => some (word 0x10C k f.layout)
  | .vld k f => some (word 0x110 k f.layout)
  | .vst k f => some (word 0x111 k f.layout)
  | .vlds k f => some (word 0x112 k f.layout)
  | .vsts k f => some (word 0x113 k f.layout)
  | .vgath k f => some (word 0x114 k f.layout)
  | .vscat k f => some (word 0x115 k f.layout)
  | .clean k f => some (word 0x120 k f.layout)
  | .disc k f => some (word 0x121 k f.layout)
  | .zero k f => some (word 0x122 k f.layout)
  | .lr k f => some (word 0x180 k f.layout)
  | .sc k f => some (word 0x181 k f.layout)
  | .amo k f => some (word 0x182 k f.layout)
  | .cas k f => some (word 0x183 k f.layout)
  | .red k f => some (word 0x184 k f.layout)
  | .append k f => some (word 0x185 k f.layout)
  | .appendCfg k f => some (word 0x185 k f.layout)
  | .appendPop k f => some (word 0x185 k f.layout)
  | .appendStat k f => some (word 0x185 k f.layout)
  | .wrs k f => some (word 0x186 k f.layout)
  | .fence k f => some (word 0x188 k f.layout)
  | .fencee k f => some (word 0x189 k f.layout)
  | .rbegin k f => some (word 0x190 k f.layout)
  | .rcommit k f => some (word 0x191 k f.layout)
  | .rabort k f => some (word 0x192 k f.layout)
  | .rstat k f => some (word 0x193 k f.layout)
  | .rposB k f => some (word 0x194 k f.layout)
  | .rposL k f => some (word 0x194 k f.layout)
  | .vadd k f => some (word 0x200 k f.layout)
  | .vsub k f => some (word 0x201 k f.layout)
  | .vmul k f => some (word 0x202 k f.layout)
  | .vfma k f => some (word 0x203 k f.layout)
  | .vfms k f => some (word 0x204 k f.layout)
  | .vmin k f => some (word 0x205 k f.layout)
  | .vmax k f => some (word 0x206 k f.layout)
  | .vabs k f => some (word 0x207 k f.layout)
  | .vneg k f => some (word 0x208 k f.layout)
  | .vrcp k f => some (word 0x209 k f.layout)
  | .vrsq k f => some (word 0x20A k f.layout)
  | .vexp2 k f => some (word 0x20B k f.layout)
  | .vlog2 k f => some (word 0x20C k f.layout)
  | .vdiv k f => some (word 0x20D k f.layout)
  | .vsqrt k f => some (word 0x20E k f.layout)
  | .vand k f => some (word 0x210 k f.layout)
  | .vor k f => some (word 0x211 k f.layout)
  | .vxor k f => some (word 0x212 k f.layout)
  | .vshl k f => some (word 0x213 k f.layout)
  | .vshr k f => some (word 0x214 k f.layout)
  | .vsra k f => some (word 0x215 k f.layout)
  | .vcmp k f => some (word 0x218 k f.layout)
  | .vsel k f => some (word 0x219 k f.layout)
  | .vcvt k f => some (word 0x21A k f.layout)
  | .vred k f => some (word 0x21B k f.layout)
  | .vscan k f => some (word 0x21C k f.layout)
  | .vperm k f => some (word 0x220 k f.layout)
  | .vbcast k f => some (word 0x221 k f.layout)
  | .vins k f => some (word 0x222 k f.layout)
  | .vext k f => some (word 0x223 k f.layout)
  | .vmov k f => some (word 0x224 k f.layout)
  | .vmovi k f => some (word 0x225 k f.layout)
  | .kop k f => some (word 0x228 k f.layout)
  | .kmov k f => some (word 0x229 k f.layout)
  | .vhist k f => some (word 0x22A k f.layout)
  | .mma k f => some (word 0x280 k f.layout)
  | .mmat k f => some (word 0x281 k f.layout)
  | .mmas k f => some (word 0x282 k f.layout)
  | .mzero k f => some (word 0x283 k f.layout)
  | .mrdv k f => some (word 0x284 k f.layout)
  | .mwrv k f => some (word 0x285 k f.layout)
  | .mst k f => some (word 0x286 k f.layout)
  | .mlda k f => some (word 0x287 k f.layout)
  | .mprogGo k f => some (word 0x288 k f.layout)
  | .mprogDrop k f => some (word 0x288 k f.layout)
  | .msync k f => some (word 0x289 k f.layout)
  | .mstat k f => some (word 0x28A k f.layout)
  | .cpy k f => some (word 0x290 k f.layout)
  | .cpyc k f => some (word 0x291 k f.layout)
  | .cpyg k f => some (word 0x292 k f.layout)
  | .cbatch k f => some (word 0x293 k f.layout)
  | .cwaitb k f => some (word 0x294 k f.layout)
  | .syncw k f => some (word 0x295 k f.layout)
  | .syncwt k f => some (word 0x296 k f.layout)
  | .syncwtInit k f => some (word 0x296 k f.layout)
  | .csyncWait k f => some (word 0x297 k f.layout)
  | .csyncStat k f => some (word 0x297 k f.layout)
  | .csyncGo k f => some (word 0x297 k f.layout)
  | .csyncDrop k f => some (word 0x297 k f.layout)
  | .cgrp k f => some (word 0x2A0 k f.layout)
  | .cring k f => some (word 0x2A1 k f.layout)
  | .credu k f => some (word 0x2A2 k f.layout)
  | .cgath k f => some (word 0x2A3 k f.layout)
  | .cbar k f => some (word 0x2A4 k f.layout)
  | .cwait k f => some (word 0x2A5 k f.layout)
  | .lnew k f => some (word 0x300 k f.layout)
  | .lmap k f => some (word 0x301 k f.layout)
  | .lunmap k f => some (word 0x302 k f.layout)
  | .fork k f => some (word 0x303 k f.layout)
  | .rebase k f => some (word 0x304 k f.layout)
  | .flatten k f => some (word 0x305 k f.layout)
  | .drop k f => some (word 0x306 k f.layout)
  | .lnq k f => some (word 0x307 k f.layout)
  | .ldiff k f => some (word 0x308 k f.layout)
  | .trap k f => some (word 0x340 k f.layout)
  | .eret k f => some (word 0x341 k f.layout)
  | .csrr k f => some (word 0x342 k f.layout)
  | .csrw k f => some (word 0x343 k f.layout)
  | .csrx k f => some (word 0x344 k f.layout)
  | .tlbi k f => some (word 0x345 k f.layout)
  | .icinv k f => some (word 0x346 k f.layout)
  | .park k f => some (word 0x347 k f.layout)
  | .trwb k f => some (word 0x348 k f.layout)
  | .trwl k f => some (word 0x349 k f.layout)
  | .trwu k f => some (word 0x34A k f.layout)
  | .trwq k f => some (word 0x34B k f.layout)
  | .trowel k f => some (word (0x3C0 + f.op) k f.layout)
  | _ => none

/-- The instruction the decoder reads from a slot whose low `nbits` bits are `w` and whose other bits are zero, the
bytes laid out as the part stores them (R2, R47). -/
def decodeTableWord (nbits w : Nat) : Option Instr :=
  (decodeBytes (toBytes 12 (w % 2 ^ nbits))).toOption

end Sys2Proof
end

