-- ==== Sys2Proof/Machine/Pairing.lean ====
section
/-! DEFINITION. The registers that an instruction writes and reads, and when two slots may issue as a pair (R52, R63). Only
instructions of the scalar and the vector-or-engine class can stand in a pair, so only theirs are listed. -/

namespace Sys2Proof.Machine

/-- Pairing class of an opcode (R63). -/
inductive PairClass where
  | scalar | vector | solo | none
  deriving DecidableEq, Repr

/-- The opcodes that R64 defines in groups 0 to 5. -/
def definedOp (op : Nat) : Bool :=
  let within := fun (r : Nat × Nat) => r.1 ≤ op && op ≤ r.2
  [(0x000, 0x00A), (0x010, 0x016), (0x018, 0x01E), (0x020, 0x02B), (0x030, 0x034), (0x038, 0x03D), (0x080, 0x08A),
   (0x090, 0x09A), (0x0A0, 0x0A4), (0x100, 0x105), (0x108, 0x10C), (0x110, 0x115), (0x120, 0x122), (0x180, 0x186),
   (0x188, 0x189), (0x190, 0x194), (0x200, 0x20E), (0x210, 0x215), (0x218, 0x21C), (0x220, 0x225), (0x228, 0x22A),
   (0x280, 0x28A), (0x290, 0x297), (0x2A0, 0x2A5)].any within

def pairClass (op : Nat) : PairClass :=
  if 0x3C0 ≤ op then .solo
  else if 0x300 ≤ op then (if op < 0x380 then .solo else .none)
  else if !definedOp op then .none
  else if op < 0x200 then .scalar else .vector

/-- Opcodes that may stand only as the younger member (R52 rule 5). -/
def youngerOnly (op : Nat) : Bool :=
  (0x080 ≤ op && op ≤ 0x08A) || op == 0x090 || op == 0x096 || op == 0x097 || (0x190 ≤ op && op ≤ 0x192)

/-- The registers an instruction names as destinations. -/
def writesOf : Instr → List Reg
  | .add _ f | .sub _ f | .mul _ f | .mulh _ f | .mulhu _ f | .div _ f | .divu _ f | .rem _ f | .remu _ f
  | .and _ f | .or _ f | .xor _ f | .andn _ f | .shl _ f | .shr _ f | .sra _ f | .rotr _ f
  | .clz _ f | .ctz _ f | .pcnt _ f | .bswap _ f | .min _ f | .max _ f | .minu _ f | .maxu _ f
  | .sel _ f | .mov _ f | .movAl _ f | .movAh _ f | .ext _ f | .subaD _ f
  | .join _ f | .spawn _ f | .tdep _ f | .signal _ f | .tqry _ f | .cancelTask _ f | .cancelLevel _ f | .lcnt _ f
  | .semv _ f | .qstat _ f => [.s f.d]
  | .addi _ f | .andi _ f | .ori _ f | .xori _ f | .shli _ f | .shri _ f | .srai _ f | .movi _ f | .bfx _ f | .bfi _ f => [.s f.d]
  | .cmp _ f | .pset _ f | .cmpa _ f => [.p f.d]
  | .cmpi _ f => [.p f.d]
  | .adda _ f | .suba _ f | .mova _ f | .movaS _ f | .movaSh _ f | .calli _ f => [.a f.d]
  | .lea _ f | .lda _ f => [.a f.d]
  | .movai _ f => [.a f.d]
  | .call _ f => [.a f.a]
  | .semp _ f | .qpop _ f => if f.b = 1 then [.s f.d, .p f.c] else [.s f.d]
  | .qpush _ f => if f.b = 1 then [.p f.c] else []
  | .ld _ f | .ldq _ f | .lds _ f | .feq _ f | .lr _ f | .wrs _ f => [.s f.d]
  | .vld _ f | .vlds _ f => [.v f.d]
  | .vgath _ f => [.v f.vd]
  | .sc _ f | .amo _ f | .cas _ f => [.s f.d]
  | .append _ f | .appendCfg _ f | .appendPop _ f | .appendStat _ f => [.s f.d]
  | .fencee _ f => [.s f.d]
  | .rstat _ f => [.s f.d, .p f.pd]
  | .rposB _ f | .rposL _ f => [.s f.d, .s f.e]
  | .vadd _ f | .vsub _ f | .vmul _ f | .vfma _ f | .vfms _ f | .vmin _ f | .vmax _ f | .vabs _ f | .vneg _ f
  | .vrcp _ f | .vrsq _ f | .vexp2 _ f | .vlog2 _ f | .vdiv _ f | .vsqrt _ f | .vand _ f | .vor _ f | .vxor _ f
  | .vshl _ f | .vshr _ f | .vsra _ f | .vsel _ f | .vcvt _ f | .vred _ f | .vscan _ f | .vperm _ f | .vbcast _ f
  | .vins _ f | .vmov _ f | .vmovi _ f => [.v f.vd]
  | .vcmp _ f => [.v f.vd]
  | .kop _ f => [.k f.vd]
  | .vext _ f => [.s f.ss]
  | .kmov _ f => if f.fn = 1 then [.s f.ss] else [.k f.vd]
  | .mrdv _ f => [.v f.vr]
  | .mstat _ f => [.s f.d]
  | .syncw _ f => [.s f.n]
  | .csyncStat _ f => [.s f.n]
  | .cwait _ f => [.s f.d]
  | _ => []

/-- What CPY, CPYC and CPYG read alike: a field that a form does not use names no register (R199). -/
def cuReads (f : FCu) : List Reg :=
  [.a f.ad, .a f.asrc, .s f.n, .s f.t] ++ (if bit f.fn 3 then [] else [.a f.ay])

/-- The registers an instruction's body reads; a destination that keeps bytes is read too. -/
def bodyReads : Instr → List Reg
  | .add _ f | .sub _ f | .mul _ f | .mulh _ f | .mulhu _ f | .div _ f | .divu _ f | .rem _ f | .remu _ f
  | .and _ f | .or _ f | .xor _ f | .andn _ f | .shl _ f | .shr _ f | .sra _ f | .rotr _ f
  | .min _ f | .max _ f | .minu _ f | .maxu _ f | .cmp _ f | .movaSh _ f => [.s f.a, .s f.b]
  | .clz _ f | .ctz _ f | .pcnt _ f | .bswap _ f | .mov _ f | .ext _ f | .movaS _ f | .texit _ f | .semv _ f | .qpush _ f
  | .cancelLevel _ f | .lcnt _ f => [.s f.a]
  | .sel _ f => [.s f.a, .s f.b, .p f.c]
  | .pset _ f => [.p f.a, .p f.b]
  | .movAl _ f | .movAh _ f | .mova _ f | .bi _ f | .calli _ f | .ret _ f | .join _ f | .spawn _ f | .tqry _ f
  | .cancelTask _ f => [.a f.a]
  | .adda _ f | .suba _ f => [.a f.a, .s f.b]
  | .subaD _ f | .cmpa _ f => [.a f.a, .a f.b]
  | .jtab _ f => [.s f.a, .s f.b, .a f.c]
  | .tdep _ f | .signal _ f => [.a f.a, .s f.b]
  | .addi _ f | .andi _ f | .ori _ f | .xori _ f | .shli _ f | .shri _ f | .srai _ f | .cmpi _ f | .bfx _ f => [.s f.a]
  | .bfi _ f => [.s f.a, .s f.d]
  | .bc _ f | .loop _ f => [.s f.a]
  | .bcmp _ f => [.s f.a, .s f.b]
  | .forkb _ f => [.a f.a, .s 1, .s 2, .s 3, .s 4] ++ (if f.fn = 1 then [.a f.b] else [])
  | .callat _ f => [.s f.t, .s f.a, .s (f.a + 1), .s (f.a + 2), .s (f.a + 3), .a f.c]
  | .lea _ f | .ld _ f | .lda _ f | .ldq _ f | .lds _ f | .sete _ f | .feq _ f | .pref _ f | .vld _ f | .vlds _ f
  | .clean _ f | .disc _ f | .zero _ f | .lr _ f => [.a f.base, .s f.idx]
  | .st _ f | .stq _ f | .stf _ f | .wrs _ f => [.a f.base, .s f.idx, .s f.d]
  | .sta _ f => [.a f.base, .s f.idx, .a f.d]
  | .vst _ f | .vsts _ f => [.a f.base, .s f.idx, .v f.d]
  | .vgath _ f => [.a (bits f.imm 0 5), .v f.va, .v f.vd, .k f.km]
  | .vscat _ f => [.a (bits f.imm 0 5), .v f.va, .v f.vb, .k f.km]
  | .sc _ f | .amo _ f | .cas _ f | .red _ f => [.a f.base, .s f.a, .s f.b]
  | .append _ f => .s f.t :: (List.range f.n).map fun j => .s (f.a + j)
  | .appendCfg _ f => [.s f.a, .a f.ar]
  | .rposL _ f => [.a f.ar]
  | .vadd _ f | .vsub _ f | .vmul _ f | .vmin _ f | .vmax _ f | .vdiv _ f | .vand _ f | .vor _ f | .vxor _ f
  | .vperm _ f | .vcmp _ f => [.v f.va, .v f.vb, .v f.vd, .k f.km]
  | .vfma _ f | .vfms _ f | .vsel _ f => [.v f.va, .v f.vb, .v f.vc, .v f.vd, .k f.km]
  | .vabs _ f | .vneg _ f | .vrcp _ f | .vrsq _ f | .vexp2 _ f | .vlog2 _ f | .vsqrt _ f | .vcvt _ f
  | .vscan _ f | .vmov _ f => [.v f.va, .v f.vd, .k f.km]
  | .vred _ f | .vhist _ f => [.v f.va, .k f.km]
  | .vshl _ f | .vshr _ f | .vsra _ f => [.v f.va, if f.fn = 1 then .s f.ss else .v f.vb, .v f.vd, .k f.km]
  | .vbcast _ f => [.s f.ss, .v f.vd, .k f.km]
  | .vins _ f => [.s f.ss, .v f.vd]
  | .vext _ f => [.v f.va]
  | .vmovi _ f => [.v f.vd, .k f.km]
  | .kop _ f => [.k f.va, .k f.vb]
  | .kmov _ f => if f.fn = 0 then [.s f.ss] else if f.fn = 1 then [.k f.va] else [.v f.va]
  | .mma _ f => [.a f.abase, .s f.astr, .a f.bbase, .s f.bstr, .s f.kreg]
  | .mmat _ f | .mmas _ f => [.a f.abase, .s f.astr, .a f.bbase, .s f.bstr, .s f.kreg, .a f.ext]
  | .mst _ f | .mlda _ f => [.a f.abase, .s f.astr]
  | .mwrv _ f => [.v f.vr]
  | .cpy _ f => cuReads f
  | .cpyc _ f =>
    cuReads f ++ (if bit f.fn 5 then [.a f.ar] else []) ++ (if bit f.fn 4 then [.a f.ai] else []) ++ [.s f.sc]
  | .cpyg _ f => cuReads f ++ [.a f.ar]
  | .syncw _ f | .syncwt _ f | .syncwtInit _ f => [.s f.t, .a f.ay]
  | .cgrp _ f => [.a f.asrc, .s f.n, .s f.k]
  | .cring _ f | .credu _ f | .cgath _ f => [.a f.ad, .a f.asrc, .s f.n]
  | _ => []

/-- The common fields of an instruction of the table. -/
def ctlOf (i : Instr) : Option Ctl := (encode i).map fun w => { s := bit w 95, pn := bit w 84, pg := bits w 81 3 }

/-- What an instruction reads, its predicate included. -/
def readsOf (i : Instr) : List Reg := bodyReads i ++ (match ctlOf i with | some k => [.p k.pg] | none => [])

/-- Registers that the rules of R52 do not ignore. -/
def Reg.counts : Reg → Bool
  | .s n | .k n | .p n => n != 0
  | _ => true

/-- Two lists share a register that counts. -/
def meets (x y : List Reg) : Bool := x.any fun r => r.counts && y.contains r

/-- A pair is legal by the classes of its opcodes (R52 rules 1, 4 and 5), and by its members' registers (rules 2 and 3). -/
def pairClassOk (older younger : Nat) : Bool :=
  match pairClass older, pairClass younger with
  | .scalar, .vector | .vector, .scalar => !youngerOnly older
  | _, _ => false
def pairRegsOk (older younger : Instr) : Bool := 
  !meets (writesOf older) (writesOf younger) && !meets (writesOf older) (readsOf younger)

end Sys2Proof.Machine
end

