-- ==== Sys2Proof/Machine/Turn.lean ====
section
/-! DEFINITION. A turn: drawing the line at the PC with its parity checks, single instructions and pairs, the choice of the
thread that issues, and what moves next (R34 to R37, R47 to R53, R395; log 2). -/

namespace Sys2Proof.Machine

/-! ### Drawing a line -/

/-- A parity check of the line, or of the slots about to issue, fails (R50). A line word with `LPAR` right whose bits [31:14] are not
zero traps at once, before its slots are looked at. -/
def lineBad (l : Line) (slots : List Nat) : Bool :=
  !l.lparOk || (bits l.word 14 18 == 0 && slots.any fun i => !l.sparOk i)

/-- The slots that are about to issue from a line: the slot, and the younger member of its pair. -/
def Line.turnSlots (l : Line) (i : Nat) : List Nat := if l.older.contains i then [i, i + 1] else [i]

/-- The line at the thread's PC for the slots about to issue, fetched a second time when a check fails (R50, R51): the state
and the line, or the trap. A new copy that passes its parity counts as a correctable error also where its bits [31:14] then trap LINE
(log 76). An instruction whose wait is over, and an RCOMMIT whose region is committed, complete from the line they issued from. -/
def State.draw (s : State) : State × Except (Nat × Addr) (Line × Nat) :=
  let pc := s.thr.pc
  match slotOf pc, if s.thr.retry.isSome || s.thr.region.any (·.committed) then s.thr.drawn else none with
  | none, _ => (s, .error (cILLTGT, pc))
  | some i, some l => (s, .ok (⟨l.1, l.2⟩, i))
  | some i, none =>
    match s.fetch pc with
    | .error e => (s, .error e)
    | .ok l =>
      let ok := fun (s : State) (l : Line) =>
        if bits l.word 14 18 ≠ 0 then (s, Except.error (cLINE, lineAddr pc))
        else ({ s with thr := { s.thr with drawn := some (l.bytes, l.word) } }, Except.ok (l, i))
      if lineBad l (l.turnSlots i) then
        let t := s.dropLine pc
        match t.fetch pc with
        | .error e => (t, .error e)
        | .ok m =>
          if lineBad m (m.turnSlots i) then (t, .error (cLINE, lineAddr pc))
          else ok ((t.correctable 2 (clusterOf s.cur.t)).noteFetch pc) m
      else ok (s.noteFetch pc) l

/-! ### Turns -/

/-- The opcode of a slot. -/
def opOf (w : Nat) : Nat := bits w 85 10

/-- The instruction of a slot, executed; a word that names none traps ILLOP (R61 step 3). -/
def State.slot (ex : Instr → State → Out) (s : State) (w : Nat) : Out :=
  match decode w with
  | .ok i => ex i s
  | .error _ => .next (s.take cILLOP 0).tickFresh

/-- The thread waits at its instruction. -/
def Thread.waits (x : Thread) : Bool := x.wait != .none

/-- The younger member waits: neither member has issued, and the thread waits as the younger one would (R36). A place in a
queue is not taken. When the older member has waited, its result is kept for it and the younger's condition is tested again at each turn. -/
def State.notYet (s u : State) : State :=
  let w : Wait := match u.thr.wait with
    | .qpush _ | .qpop _ | .semp _ => .hold
    | w => if s.thr.retry.isSome && !s.thr.young then .hold else w
  { s with thr := { s.thr with wait := w, young := s.thr.young || s.thr.retry.isNone } }

/-- A legal pair (R36, R53): the older member takes effect, then the younger; when either would wait, neither does. The result of
a wait that the younger has made is kept for it; a wait of the older's is its own. The switch marker has been obeyed for both. A
back-edge that the loop registers put at the older member is taken after it, and the younger does not issue (log 50). Of redundant threads,
what the older member has compared or copied is final (R393): it has issued, and the younger waits alone (log 53). -/
def State.pair (ex : Instr → State → Out) (s : State) (w0 w1 : Nat) : Out :=
  let mine := if s.thr.young then { s with thr := { s.thr with retry := none } } else s
  match mine.slot ex w0 with
  | .next t =>
    if t.thr.waits && t.thr.pc == s.thr.pc then
      .next (if s.thr.young && s.thr.retry.isSome then s.held_ else { t with thr := { t.thr with young := false } })
    else if t.thr.pc ≠ nextPC s.thr.pc ∨ t.thr.life ≠ .live then .next t
    else
      let y := if s.thr.young then { t with thr := { t.thr with retry := s.thr.retry, wait := s.thr.wait } } else t
      match y.slot ex w1 with
      | .next u =>
        match u.thr.wait with
        | .none => .next { u with thr := { u.thr with young := false } }
        | .trap _ _ => .next u
        | _ =>
          if u.thr.pc ≠ y.thr.pc then .next u
          else if s.solo then .next (s.notYet u)
          else .next { u with thr := { u.thr with young := false } }
      | o => o
  | o => o

/-- The members of a pair are legal together (R52); a member that decodes to nothing traps on its own. -/
def pairOk (w0 w1 : Nat) : Bool :=
  pairClassOk (opOf w0) (opOf w1) &&
  (match decode w0, decode w1 with
   | .ok x, .ok y => pairRegsOk x y
   | _, _ => true)

/-- Clears the switch marker of a slot. -/
def noS (w : Nat) : Nat := w % 2 ^ 95

/-- One turn of the thread in focus. -/
def State.turn (ex : Instr → State → Out) (s : State) : Out :=
  if s.thr.life ≠ .live then .next s
  else match s.owed with
  | some t => .next t
  | none =>
    match s.draw with
    | (t, .error (c, a)) => .next (t.take c a).tickFresh
    | (u, .ok (l, i)) =>
      let t : State := if opOf (l.slot i) < 0x3C0 then { u with thr := { u.thr with mcont := false } } else u
      if l.older.contains i then
        let w0 := l.slot i
        let w1 := l.slot (i + 1)
        if !pairOk w0 w1 then .next (t.take cILLOP 0).tickFresh
        else match if bit w0 95 || bit w1 95 then t.waitS else none with
          | some u => .next u
          | none => t.pair ex (noS w0) (noS w1)
      else t.slot ex (l.slot i)

/-! ### Which thread issues -/

/-- Issue turns that the die's current monitor and the firmware withhold from threads that act in the MU or VU role (R19, R33, R419):
of every second turn those at odd readings, of k in 8 the first k (log 70). -/
def State.withheld (s : State) (d role : Nat) : Bool :=
  (role == 2 || role == 3) &&
  (decide (s.plumb % 8 < s.throttle) ||
   (match (s.getDie d).withhold with | 0 => false | 1 => s.plumb % 2 == 1 | _ => true))

/-- A thread that may issue: it lives and does not wait for an event (R35). -/
def State.mayIssue (s : State) (k : Key) : Bool :=
  let x := s.getThread k
  (s.getCtx k.t k.c).live && (s.getCtx k.t k.c).killed.isNone && !(s.getCtx k.t k.c).leaving && x.life == .live &&
  !s.withheld (dieOf k.t) ((s.getCtx k.t k.c).actsAs k.i x.role) && x.ueStall.all (· ≤ s.plumb) &&
  (match x.wait with
   | .none | .hold | .trap _ _ | .token | .fencee _ _ => true
   | _ => false)

/-- The hardware thread that a thread has taken (R337). -/
def State.hwOf (s : State) (k : Key) : Nat := (s.getCtx k.t k.c).hw.getD k.i k.i

/-- The threads of a tile in rotation order, by their hardware threads, the first after the one that issued last (R35). -/
def State.rotation (s : State) (t : Nat) : List Key :=
  (List.range 8).flatMap fun j => (List.range 4).flatMap fun c =>
    ((List.range 8).filter fun i => s.hwOf ⟨t, c, i⟩ == ((s.getTile t).rot + 1 + j) % 8).map fun i => ⟨t, c, i⟩

/-- Tries threads until one issues: a thread that turns out not to be ready leaves the turn to the next. -/
def tryThreads (ex : Instr → State → Out) : List Key → State → Out × Bool
  | [], s => (.next s, false)
  | k :: r, s =>
    if s.mayIssue k then
      match (s.focus k).turn ex with
      | .next t =>
        match t.thr.wait with
        | .hold | .trap _ _ | .token | .fencee _ _ => tryThreads ex r t
        | _ => (.next { t with tile := { t.tile with rot := s.hwOf k } }, true)
      | o => (o, true)
    else tryThreads ex r s

/-- A tile that issues: present, and neither sheeted nor withdrawn (R379, R381, R419). -/
def State.tileIssues (s : State) (t : Nat) : Bool :=
  !s.stopped && bits (s.getTile t).fencest.toNat 0 2 != 1 && bits (s.getTile t).fencest.toNat 0 2 != 3

/-- The turn of a tile; a cycle passes (R35, log 3). -/
def State.tileTurn (ex : Instr → State → Out) (s : State) (t : Nat) : Out × Bool :=
  if s.tileIssues t then
    match tryThreads ex (s.rotation t) s with
    | (.next u, b) => (.next { u with plumb := u.plumb + 1 }, b)
    | o => o
  else (.next { s with plumb := s.plumb + 1 }, false)

/-! ### What moves next -/

/-- A row that is a step of another agent, not an instruction. -/
def isEvent (i : Instr) : Bool := (encode i).isNone

/-- One move of the machine. With an empty agenda, the tile in focus takes its next turn; when no thread of it can issue,
one of the steps of other agents that may be due is made instead (log 2). -/
def State.move (ex : Instr → State → Out) (due : State → List (State → Out)) (s : State) : Out :=
  match s.agenda with
  | .event i :: r => let t := { s with agenda := r }; if isEvent i then ex i t else .next t
  | .turn k :: r => (({ s with agenda := r } : State).tileTurn ex k).1
  | .tick n :: r => .next { s with agenda := r, plumb := s.plumb + n }
  | [] =>
    match s.tileTurn ex s.cur.t with
    | (.next t, false) =>
      let es := due t
      match es[t.plumb % es.length]? with
      | some f => f t
      | none => .next t
    | (o, _) => o

/-! ### Placing one instruction -/

/-- The line word for a line whose slot 0 holds `w` and whose other slots are zero: no pairs, no targets, right parities. -/
def lineWordFor (w : Nat) : Nat :=
  let x := (ones 96 w % 2) * 2 ^ 8
  x + (ones 32 x % 2) * 2 ^ 13

/-- Puts an instruction where the next turn of the thread in focus fetches: at privilege F, in the role it needs, at PC
0x2000, translated by one leaf at level 3 that maps the first 512 GiB to themselves (R352 to R354; log 13). -/
def State.placeWord (s : State) (w : Nat) : State :=
  { s with
    agenda := .turn s.cur.t :: s.agenda, members := if bit s.members 0 then s.members else s.members + 1, lostParts := 0
    mem := Memory.write (Memory.write s.mem 0x1000 (toLE 8 0x3D)) 0x2000
      (toLE 12 w ++ List.replicate 48 0 ++ toLE 4 (lineWordFor w))
    tile := { s.tile with rot := (s.hwOf s.cur + 7) % 8, fetched := SMap.erase s.tile.fetched (0x2000 / 64) }
    ctx := { s.ctx with live := true, ptbr := 0x1003 }
    thr := { s.thr with
      life := .live, role := (roleOf (opOf w)).getD 1, priv := 2, pc := 0x2000, wait := .none, retry := none, drawn := none } }

end Sys2Proof.Machine
end

