-- ==== Sys2Proof/Machine/Threads.lean ====
section
/-! DEFINITION. Steps that move a thread on: results that return, traps that are taken, and the wakes of parked threads
(R38, R39, R50, R95, R99, R207, R259, R266, R279, R281, R282, R319, R321). -/

namespace Sys2Proof.Machine

/-! ### Results and traps -/

/-- The n-th result still to come of a thread may return: its value is known, and vector results return in order (R165). -/
def Thread.mayReturn (x : Thread) (n : Nat) (p : Pend) : Bool :=
  p.what == .ready || (p.what == .vec && (x.pend.take n).all fun q => q.what != .vec)

/-- The n-th result still to come returns, if it may. -/
def State.returnNth (s : State) (k : Key) (n : Nat) : State :=
  let x := s.getThread k
  match x.pend[n]? with
  | none => s
  | some p =>
    if x.mayReturn n p then
      let y := x.takeResult p
      match p.cond, y.region with
      | some (c, _), some r =>
        if r.irr || r.committed || r.doom.isSome then s.setThread k y
        else s.setThread k { y with defer := x.defer, region := some { r with doom := some (7, c) } }
      | _, _ => s.setThread k y
    else s

/-- CLASS_V_RESULT (R38, R39): in a region that can abort, a condition that comes with the result aborts it (R288). A load that is not bound
yet binds (R226, R229). -/
def State.classV (s : State) (k : Key) (n : Nat) : State :=
  match ((s.getThread k).pend[n]?).map (s.bindLoad k) with
  | none | some none => s
  | some (some t) => t.returnNth k n

def execClassVResult (t c i n : Nat) (s : State) : Out := .next (s.classV ⟨t, c, i⟩ n)

/-- The line that a thread is about to issue from fails a parity check (R50). -/
def State.drawsBad (s : State) : Bool :=
  match slotOf s.thr.pc, s.fetch s.thr.pc with
  | some i, .ok l => lineBad l (l.turnSlots i)
  | _, _ => false

/-- LINE_REFETCH (R50): the line is discarded and fetched again; failing again it traps LINE. -/
def execLineRefetch (t c i : Nat) (s : State) : Out :=
  .next (if (s.getThread ⟨t, c, i⟩).life = .live then
    let u := s.focus ⟨t, c, i⟩
    if u.drawsBad then
      match u.draw with
      | (v, .error (c, a)) => (v.take c a).tickFresh
      | (v, .ok _) => v.tickFresh
    else s
  else s)

/-- The causes that are delivered (R93). -/
def trapCauses : List Nat :=
  [cILLOP, cILLTGT, cLINE, cILLROLE, cPRIV, cMISALIGN, 0x10, 0x11, 0x12, cPERM, cPARTITION, cLFROZEN, cLHIDDEN, cLNODE, cLPOOL,
   cUE, cPOISON, cSDC, cFMTX, cTRWUNB, cTRWLIM, cTRWPRIV, cRILL, cMUFAULT, cCUFAULT, cTRAPI, cWDOG, cRESPF]

/-- TRAP_ENTRY (R95): a live thread enters its handler for a condition at its instruction, once its results have returned. One whose
wait is over completes first (R37). -/
def execTrapEntry (t c i cause addr : Nat) (s : State) : Out :=
  .next (if (s.getThread ⟨t, c, i⟩).life = .live ∧ (s.getThread ⟨t, c, i⟩).retry = none ∧ trapCauses.contains cause then
    ((s.focus ⟨t, c, i⟩).take cause (BitVec.ofNat 72 addr)).tickFresh
  else s)

/-! ### Wakes -/

/-- The thread goes on: with a result, or by executing its instruction again. -/
def State.wake (s : State) (k : Key) (v : Option Word) : State :=
  s.modThread k fun x => { x with wait := .none, retry := v }

/-- LDS_WAKE (R266). -/
def execLdsWake (t c i : Nat) (s : State) : Out :=
  .next (match (s.getThread ⟨t, c, i⟩).wait with
    | .ldsMet v => s.wake ⟨t, c, i⟩ (some v)
    | _ => s)

/-- A WRS returns with the double's value (R282), which it reads (R424). A poisoned double is read by the instruction itself. -/
def State.wrsReturn (s : State) (k : Key) (p : Place) : State :=
  let w : Who := { k := k, priv := (s.getThread k).priv }
  let ps : List Piece := [{ spot := { place := p }, n := 8 }]
  if s.poisoned ps then s.wake k none else (s.spoilDests ps).wake k (some (s.wrsRead w p))

/-- WRS_WAKE and WRS_TIMEOUT (R282). -/
def execWrsWake (t c i : Nat) (s : State) : Out :=
  .next (match (s.getThread ⟨t, c, i⟩).wait with
    | .wrsMet p => s.wrsReturn ⟨t, c, i⟩ p
    | _ => s)
def execWrsTimeout (t c i : Nat) (s : State) : Out :=
  .next (match (s.getThread ⟨t, c, i⟩).wait with
    | .wrs p till false => if till ≤ s.plumb then s.wrsReturn ⟨t, c, i⟩ p else s
    | _ => s)

/-- JOIN_RECHECK (R321): after a write that leaves 0, or 256 cycles, the JOIN reads its double again. -/
def execJoinRecheck (t c i : Nat) (s : State) : Out :=
  .next (match (s.getThread ⟨t, c, i⟩).wait with
    | .join p till => if till ≤ s.plumb ∨ ofLE (s.homePlace (s.getCtx t c).pid p 8) = 0 then s.wake ⟨t, c, i⟩ none else s
    | _ => s)

/-- PARK_TIMEOUT (R99). -/
def execParkTimeout (t c i : Nat) (s : State) : Out :=
  .next (match (s.getThread ⟨t, c, i⟩).wait with
    | .park (some n) => if n ≤ s.plumb then s.wake ⟨t, c, i⟩ (some 2) else s
    | _ => s)

/-- SYNCW_WAKE (R207): the generation differs, or a mismatch is to be delivered. -/
def execSyncwWake (t c i : Nat) (s : State) : Out :=
  .next (match (s.getThread ⟨t, c, i⟩).wait with
    | .syncw off g =>
      let b := (s.getCtx t c).ubase + off
      if syncGen (s.syncD t b 1) ≠ g ∨ bit (s.syncD t b 0) 61 then s.wake ⟨t, c, i⟩ none else s
    | _ => s)

/-- REMOTE_LOAD_WAKE (R259). -/
def execRemoteLoadWake (t c i : Nat) (s : State) : Out :=
  .next (match (s.getThread ⟨t, c, i⟩).wait with
    | .remote vt =>
      let x := s.getCtx t c
      if (s.unitAt x.pid x.launch vt).isSome then s.wake ⟨t, c, i⟩ none else s
    | _ => s)

/-- SPURIOUS_WAKE (R99, R282). -/
def execSpuriousWake (t c i : Nat) (s : State) : Out :=
  .next (match (s.getThread ⟨t, c, i⟩).wait with
    | .park _ => s.wake ⟨t, c, i⟩ (some 0)
    | .wrs p _ _ => s.wrsReturn ⟨t, c, i⟩ p
    | _ => s)

/-! ### The inbox -/

/-- The bytes of an inbox entry (R279). -/
def entryBytes (tile kind tag : Nat) (data : List Word) : List Byte :=
  (List.range 8).flatMap (fun j => toLE 8 (data.getD j 0).toNat) ++
  toLE 8 (fields [(0, tile % 4096), (12, data.length % 16), (16, kind), (32, tag % 2 ^ 32)]) ++ List.replicate 56 0

/-- An inbox has room for an entry. -/
def Inbox.room (x : Inbox) : Bool := x.en && x.count < x.nent

/-- The threads of a unit that PARK has parked wake with a code (R99). -/
def State.wakeParks (s : State) (t c : Nat) (code : Word) : State :=
  (ctxKeys t c).foldl (fun s k => match (s.getThread k).wait with | .park _ => s.wake k (some code) | _ => s) s

/-- An entry is written and its doubles are set full together (R281). -/
def State.deliverEntry (s : State) (t c tile kind tag : Nat) (data : List Word) : State :=
  let x := s.getCtx t c
  let b := x.inboxByte x.inbox.tail
  let bs := entryBytes tile kind tag data
  let u := ((s.sramWrite t b bs).sramFull t (b / 8) 16 true).modCtx t c fun y =>
    { y with inbox := { y.inbox with tail := (y.inbox.tail + 1) % 2 ^ 32 } }
  let v := (List.range 16).foldl (fun s j => s.wakeLds (.sram t (b + 8 * j)) (BitVec.ofNat 64 (ofLE ((bs.drop (8 * j)).take 8)))) u
  v.wakeParks t c 1

/-- Held returns are delivered in order while there is room (R281). -/
def State.deliverHeld (s : State) (t c : Nat) : Nat → State
  | 0 => s
  | n + 1 =>
    let x := s.getCtx t c
    match x.held with
    | [] => s
    | (tag, tile, v) :: r =>
      if x.inbox.room then
        ((s.modCtx t c fun y => { y with held := r }).deliverEntry t c tile 1 tag [v]).deliverHeld t c n
      else s

/-- HELD_RETURN_DELIVERY (R281). -/
def execHeldReturnDelivery (t c : Nat) (s : State) : Out := .next (s.deliverHeld t c (s.getCtx t c).held.length)

/-- A message from a tile whose fence its destination has learnt of (R382). -/
def State.orphan (s : State) (m : Msg) : Bool := (s.getDie (dieOf m.to)).knows.contains m.ends.1

/-- Messages from one tile to another on one channel are delivered in the order they were sent (R253). -/
def State.msgFirst (s : State) (n : Nat) : Option Msg :=
  match s.msgs[n]? with
  | none => none
  | some m => if (s.msgs.take n).any (fun x => x.ends == m.ends) || s.orphan m then none else some m

def State.dropMsg (s : State) (n : Nat) : State := { s with msgs := s.msgs.eraseIdx n }

/-- INBOX_DELIVERY (R281): held returns go first. A message for a tile that has been fenced completes with RESPF once its
sender's die has learnt of it (R381), with address 0 (log 77). -/
def State.inboxDeliver (s : State) (n : Nat) : State :=
  match s.msgFirst n with
  | some (.append src pend pid launch vsrc dst tag data) =>
    match s.unitAt pid launch dst with
    | none =>
      if (s.getDie (dieOf src.t)).knows.contains dst then (s.dropMsg n).answer src pend 0 (some (cRESPF, 0))
      else if bit (SMap.get 0 s.fence dst) 0 then s
      else (s.dropMsg n).answer src pend 3
    | some (t, c) =>
      let u := (s.dropMsg n).deliverHeld t c (s.getCtx t c).held.length
      let x := (u.getCtx t c).inbox
      if !x.en then u.answer src pend 2
      else if x.room then (u.deliverEntry t c vsrc 0 tag data).answer src pend 0
      else u.answer src pend 1
  | _ => s

def execInboxDelivery (n : Nat) (s : State) : Out := .next (s.inboxDeliver n)

/-- Where an image keeps the scratchpad, the bytes of an image, and the space that the DV-1 gives each unit, two images long. -/
abbrev imageMem : Nat := 0x10800
abbrev imageSpace : Nat := 0x240000

/-- The inbox state in an image (R279, R334). -/
def Inbox.image (b : Inbox) : List Byte := toLE 8 (b2n b.en) ++ toLE 8 b.base ++ toLE 8 b.nent ++ toLE 8 b.head ++ toLE 8 b.tail

/-- Where a unit's image and, under DUALSAVE, its second copy lie (R332). -/
def Parked.copies (x : Parked) : List Nat := if bit x.ctx.hflags 3 then [x.image, x.image + imageSpace / 2] else [x.image]

/-- A parked unit has changed: the memory that holds its image follows (R319, R336). -/
def State.saveParked (s : State) (pid : Nat) (x : Parked) : State :=
  let u := s.modPart pid fun p => { p with parked := p.parked.map fun z => if z.image = x.image then x else z }
  x.copies.foldl (fun s a => (s.homeStore pid (a + 0x280) x.ctx.inbox.image).homeStore pid (a + imageMem) x.mem) u

/-- A parked unit takes a CALLAT return into its image (R319): the entry is written, its doubles become full, and a parked PARK
is met with code 1; else the return is held. -/
def Parked.takeReturn (x : Parked) (tag tile : Nat) (v : Word) : Parked :=
  let b := x.ctx.inbox
  if b.room && x.ctx.held.isEmpty then
    let off := b.base + 128 * (b.tail % b.nent)
    { x with
      ctx := { x.ctx with inbox := { b with tail := (b.tail + 1) % 2 ^ 32 } }
      mem := x.mem.take off ++ entryBytes tile 1 tag [v] ++ x.mem.drop (off + 128)
      empties := x.empties.filter fun d => !(off / 8 ≤ d && d < off / 8 + 16)
      threads := x.threads.map fun y => match y.wait with | .park _ => { y with wait := .none, retry := some 1 } | _ => y }
  else { x with ctx := { x.ctx with held := x.ctx.held ++ [(tag, tile, v)] } }

/-- The caller of a CALLAT: a unit of that launch at that virtual tile, with that SEQ. -/
def Ctx.isCaller (x : Ctx) (pid : Nat) (tgt : Caller) : Bool :=
  x.pid == pid && x.launch == tgt.launch && x.vtile == tgt.tile && x.seq == tgt.seq

/-- CALLAT_RETURN_DELIVERY (R319): a return whose caller has completed is dropped; it is counted where the tile is another partition's by
then (R348). One to a fenced tile whose fence the sender's die has learnt of is dropped: no instruction waits for it (R381). -/
def State.callReturn (s : State) (n : Nat) : State :=
  match s.msgFirst n with
  | some (.callRet src pid tgt v) =>
    let u := s.dropMsg n
    match s.liveCtxs.find? fun tc => (s.getCtx tc.1 tc.2).isCaller pid tgt with
    | some (t, c) =>
      let w := u.modCtx t c fun y => { y with held := y.held ++ [(tgt.tag, src, v)] }
      w.deliverHeld t c (w.getCtx t c).held.length
    | none =>
      match (s.getPart pid).parked.find? fun x => x.ctx.isCaller pid tgt with
      | some x => if (x.copies.all fun a => s.sysReady a (imageSpace / 2)) then u.saveParked pid (x.takeReturn tgt.tag src v) else s
      | none => if s.ownerOf tgt.tile ≠ pid then u.logEvent 14 tgt.tile pid 0 0 else u
  | _ => s

def execCallatReturnDelivery (n : Nat) (s : State) : Out := .next (s.callReturn n)

end Sys2Proof.Machine
end

