-- ==== Sys2Proof/Machine/Launch.lean ====
section
/-! DEFINITION. The scheduler's own steps: launches start and complete, tiles dispatch, steal and balance, units complete and
signal their successors, REDs are acknowledged (R26 to R29, R40 to R45, R277, R306 to R314, R323, R326, R404 to R406, R423). -/

namespace Sys2Proof.Machine

/-! ### Launch queues (R406, R306 to R308, R423) -/

def Partn.queue (p : Partn) (q : Nat) : LQ := SMap.get {} p.queues q
def State.modQueue (s : State) (p q : Nat) (f : LQ → LQ) : State :=
  s.modPart p fun x => { x with queues := SMap.set {} x.queues q (f (x.queue q)) }

/-- The physical address of the slot at a queue's head. -/
def LQ.slot (x : LQ) : Nat := x.head % 2 ^ x.log2n
def LQ.slotAddr (x : LQ) : Nat := 64 * x.base + 64 * x.slot

/-- LAUNCH_SLOT_POLL (R406). -/
def State.pollSlot (s : State) (p q : Nat) : State :=
  let x := (s.getPart p).queue q
  if !s.stopped && x.en && x.head != x.tail && !x.ready && x.poll ≤ s.plumb && !s.dieWaits 0 (lineOf x.slotAddr) then
    if bit (ofLE (s.homeBytes (x.slotAddr + 12) 1)) 1 then s.modQueue p q fun y => { y with ready := true }
    else s.modQueue p q fun y => { y with poll := s.plumb + 4096 }
  else s

def execLaunchSlotPoll (p q : Nat) (s : State) : Out := .next (s.pollSlot p q)

/-- A launch-queue entry is malformed (R423). -/
def State.badEntry (s : State) (p : Nat) (x : LQ) (e : List Byte) : Bool :=
  let root := bits x.qptbr.toNat 8 44 * 256
  let lvl := bits x.qptbr.toNat 0 3
  bits (tcbField e 12 1) 2 6 != 0 || tcbField e 13 3 != 0 || tcbField e 24 8 % 64 != 0 || tcbField e 48 8 % 64 != 0 ||
  tcbField e 36 4 == 0 || 2 ^ 24 < tcbField e 36 4 || tcbField e 36 4 < tcbField e 32 4 || !s.setOk p (tcbField e 40 8) ||
  lvl == 0 || !s.ownsRange p root (8 * 2 ^ lvlBits lvl)

/-- A malformed entry completes at once (R423). -/
def State.refuseEntry (s : State) (p : Nat) (x : LQ) (e : List Byte) : State :=
  let frec := tcbField e 48 8
  let put := fun (s : State) (off : Nat) (bs : List Byte) =>
    match s.sysWrite p x.qptbr.toNat (frec + off) bs with | .ok t => t | .error _ => s
  let t := if frec % 64 = 0 then
      put (put (put s 0 (List.replicate 64 0)) 13 (toLE 1 cILLOP)) 32 (ptrBytes x.slotAddr)
    else s
  (t.homeStore p (x.slotAddr + 56) (toLE 4 (fields [(0, 3), (4, 1)]))).homeStore p (x.slotAddr + 60) (toLE 4 1)

/-- A launch's completion counter of graphs: every earlier graph of its job is complete (R40, R306). -/
def Partn.jobIdle (p : Partn) (job : Nat) : Bool := p.launches.all fun e => e.2.job != job || e.2.complete

/-- Takes the initial tasks in order while there is room for them (R308). -/
def State.takeSlots (s : State) (p l : Nat) : Nat → State
  | 0 => s
  | n + 1 =>
    match s.launch p l with
    | none => s
    | some x =>
      if x.ninit ≤ x.taken then s
      else
        let a := BitVec.ofNat 72 (x.tcbbase + 64 * x.taken)
        if !s.tcbReady p x a || !s.frecReady p l ||
            (match s.tcb p x a with | .ok bs => s.sysHeld p x.ptbr.toNat (x.codebase + tcbEntry bs) 64 | .error _ => false) then s else
        let root := rootTile x.tset
        let up := fun (u : State) => u.modLaunch p l fun y => { y with taken := y.taken + 1, nextSeq := x.nextSeq }
        let fail := fun (u : State) (c : Nat) (v : Nat) =>
          up ((u.noteFault p l c v a).modLaunch p l fun y => y.note root 3 true)
        match s.sysPlace p x.ptbr.toNat .w a.toNat, s.tcb p x a with
        | .error c, _ => (fail s c a.toNat).takeSlots p l n
        | _, .error (c, v) => (fail s c v).takeSlots p l n
        | .ok at_, .ok bs =>
          let o := tcbOrigin bs
          let y := { x with nextSeq := x.taken + 1 }
          if inSet x.tset o then
            if tcbDepc bs = 0 ∧ s.readyRoom o = false then s
            else (up (s.createTask p l y at_ bs a (tcbField bs 60 2) o {})).takeSlots p l n
          else
            let b := overBytes (overBytes (overBytes bs 6 (toLE 1 stFAULTED)) 48 (toLE 8 y.nextSeq)) 56 (toLE 4 l)
            (fail ((s.homePut p at_ b).getD s) cPARTITION o).takeSlots p l n

/-- The launch of an entry, with the values that its queue holds now (R306, R405). -/
def launchOf (q : Nat) (x : LQ) (e : List Byte) (phase : Nat) : Launch :=
  { queue := q, order := x.head, slot := x.slot, graph := tcbField e 4 4, job := tcbField e 8 4, phase := phase, codebase := tcbField e 16 8,
    tcbbase := tcbField e 24 8, tcblen := tcbField e 36 4, ninit := tcbField e 32 4, tset := tcbField e 40 8, frec := tcbField e 48 8,
    ptbr := x.qptbr, sup := x.sup, qtvec := x.qtvec, hslog := x.hslog, qhstk := x.qhstk, nextSeq := tcbField e 32 4 + 1 }

/-- The entry at a queue's head: where its submitter has broken the rules, what it runs is UNKNOWN (R406, log 90). -/
def State.slotEntry (s : State) (x : LQ) : List Byte :=
  let e := s.homeBytes x.slotAddr 64
  if x.wild then overBytes e 16 ((List.range 40).map fun j => Config.freeByte s.fresh (x.slotAddr + 16 + j)) else e

/-- LAUNCH_START (R306 to R309, R406, R423): a launch whose initial tasks are not all taken goes on with them; else the entry
at the head starts. -/
def State.startLaunch (s : State) (p q : Nat) : State :=
  let part := s.getPart p
  let x := part.queue q
  if s.stopped then s
  else match part.launches.find? fun e => e.2.queue == q && e.2.taken < e.2.ninit && !e.2.complete with
  | some (l, y) => s.takeSlots p l (y.ninit - y.taken)
  | none =>
    if !(x.en && x.head != x.tail && x.ready) then s
    else
      let e := s.slotEntry x
      let up := fun (s : State) => s.modQueue p q fun y =>
        { y with head := (y.head + 1) % 2 ^ 32, ready := false, poll := s.plumb }
      if !s.sysReady x.slotAddr 64 || s.dieWaits 0 (lineOf x.slotAddr) || !s.putReady p x.qptbr.toNat (tcbField e 48 8) 64 then s
      else if s.badEntry p x e then up (s.refuseEntry p x e)
      else
        let l := tcbField e 0 4
        let job := tcbField e 8 4
        let cur := SMap.get 0 part.phases job
        let mark := bit (tcbField e 12 1) 0
        if (mark && cur != 0 && !part.jobIdle job) || (SMap.find part.launches l).any fun y => !y.complete then s
        else
          let ph := if cur = 0 then 1 else if mark then cur + 1 else cur
          let y := launchOf q x e ph
          let fresh := (part.launches.all fun e => e.2.queue != q || e.2.complete)
          let t := (up s).modPart p fun z =>
            { z with launches := SMap.put z.launches l y, phases := SMap.set 0 z.phases job ph }
          let t := if fresh then t.modQueue p q fun z => { z with wstep := 0, wfrom := s.plumb } else t
          (t.frecPut p l 0 (List.replicate 64 0)).takeSlots p l y.ninit

def execLaunchStart (p q : Nat) (s : State) : Out := .next (s.startLaunch p q).tickFresh

/-! ### Kernel headers (R44, R45) -/

/-- CRC-32 of IEEE 802.3. -/
def crcBits : Nat → Nat → Nat
  | 0, c => c
  | n + 1, c => crcBits n (if c % 2 = 1 then c / 2 ^^^ 0xEDB88320 else c / 2)
def crc32 (bs : List Byte) : Nat := (bs.foldl (fun c b => crcBits 8 (c ^^^ b.toNat)) 0xFFFFFFFF) ^^^ 0xFFFFFFFF

/-- Roles and entries of a header. -/
def hdrRoles (h : List Byte) : List Nat := (List.range 8).map fun i => tcbField h (12 + i) 1
def hdrEntry (h : List Byte) (i : Nat) : Nat := tcbField h (24 + 4 * i) 4
def hdrPC (a : Nat) (e : Nat) : Addr := BitVec.ofNat 72 a + addr (64 * sgn 29 (e / 8)) + BitVec.ofNat 72 (12 * (e % 8))

/-- Every field is legal and the roles meet the conditions (R44, R45). -/
def State.headerOk (s : State) (pid portion : Nat) (h : List Byte) : Bool :=
  let rs := hdrRoles h
  let cnt := fun r => (rs.filter (· == r)).length
  tcbField h 0 4 == 0x314B5848 && tcbField h 4 2 == 1 && 1 ≤ tcbField h 6 1 && tcbField h 6 1 ≤ 64 && tcbField h 7 1 ≤ 32 &&
  tcbField h 8 4 % 64 == 0 && tcbField h 8 4 ≤ portion && rs.all (· ≤ 7) && tcbField h 20 4 == 0 &&
  ((List.range 8).all fun i =>
    if rs.getD i 0 = 0 then hdrEntry h i == 0 else hdrEntry h i % 8 ≤ 4 && decide (1 ≤ sgn 29 (hdrEntry h i / 8))) &&
  tcbField h 56 2 < 16 && tcbField h 58 1 ≤ 1 && tcbField h 59 1 ≤ 7 && tcbField h 60 4 == crc32 (h.take 60) &&
  cnt 1 == 1 && cnt 2 ≤ 1 && cnt 3 ≤ 1 && cnt 4 ≤ 1 &&
  ((List.range 8).all fun i => rs.getD i 0 != 7 || (i != 0 && rs.getD (i - 1) 0 != 0 && rs.getD (i - 1) 0 != 7)) &&
  bit (tcbField h 56 2) 0 == rs.contains 7 && (!bit (tcbField h 56 2) 0 || bit s.cfg.reden pid)

/-- The line of an entry, fetched for the unit from its home, or the fetch's cause: its line word is checked (R45, R50, R51). -/
def State.entryLine (s : State) (pid ptbr priv : Nat) (pc : Addr) : Except Nat Line :=
  match s.sysPlace pid ptbr .x (lineAddr pc).toNat priv with
  | .error c => .error c
  | .ok p =>
    let l := Line.ofBytes (s.homePlace pid p 64)
    if !l.lparOk || bits l.word 14 18 != 0 then .error cLINE else .ok l

/-- The first entry that is not a transfer's target (R44, R49): its thread's cause and address, ILLOP and the header's when
the target slot is not marked. -/
def State.entryBad (s : State) (pid ptbr priv a : Nat) (h : List Byte) : Option (Nat × Nat) :=
  (List.range 8).findSome? fun i =>
    if (hdrRoles h).getD i 0 = 0 then none
    else
      let pc := hdrPC a (hdrEntry h i)
      match s.entryLine pid ptbr priv pc with
      | .error c => some (c, if c = cLINE then (lineAddr pc).toNat else pc.toNat)
      | .ok l =>
        let j := hdrEntry h i % 8
        if l.tgt j && !(j ≠ 0 && l.older.contains (j - 1)) then none else some (cILLOP, a)

/-! ### Dispatch (R28, R29, R312) -/

/-- Tiles that hold a unit. -/
def State.occupied (s : State) (t : Nat) : Bool := s.liveCtxs.any fun x => x.1 == t

/-- A unit base for an allocation in a tile's scratchpad portion, at the scheduler's choice (R338). -/
def pickBase (n portion scratch : Nat) : Nat := 64 * (Config.unitBase n % ((portion - scratch) / 64 + 1))

/-- A thread at unit start (R29). -/
def startThread (x : Launch) (t i base : Nat) (h : List Byte) (bs : List Byte) (tcb pc : Addr) : Thread :=
  let scratch := tcbField h 8 4
  { life := .live, role := (hdrRoles h).getD i 0, priv := if x.sup then 1 else 0, pc := pc, tpc := pc,
    sr := (List.range 4).foldl (fun m j => SMap.set 0 m (1 + j) (BitVec.ofNat 64 (tcbField bs (8 + 8 * j) 8))) []
    ar := SMap.set 0 (SMap.set 0 [] 0 tcb) 31 (BitVec.ofNat 72 (0xFF * 2 ^ 64 + scratch))
    lseg := BitVec.ofNat 72 base, tsr := BitVec.ofNat 64 (fields [(0, tcbField h 58 1), (8, 0x61)]), tvec := x.qtvec
    tsp := if x.hslog = 0 then x.qhstk else x.qhstk + BitVec.ofNat 72 (2 ^ x.hslog * (8 * t + i + 1)) }

/-- Bytes and doubles of a scratchpad allocation start afresh (R28). -/
def Tile.clearRange (x : Tile) (b n : Nat) : Tile :=
  let out := fun (lo hi k : Nat) => k < lo || hi ≤ k
  { x with
    sram := x.sram.filter fun e => out b (b + n) e.1
    empty := x.empty.filter fun e => out (b / 8) ((b + n) / 8) e.1
    poison := x.poison.filter fun e => out (b / 8) ((b + n) / 8) e.1 }

/-- A unit starts in context 0 of a tile: its context, its scratchpad and its threads. The GEN thread of a FORKB unit has the target in
`PC` and `TPC` (R29, R320, log 74). -/
def State.startUnit (s : State) (t : Nat) (e : Entry) (x : Launch) (bs h : List Byte) (a : Nat) : State :=
  let scratch := tcbField h 8 4
  let base := pickBase s.fresh ((s.getTile t).lsplit * 0x20000) scratch
  let c : Ctx :=
    { live := true, tcb := e.tcb, launch := e.launch, queue := x.queue, seq := e.seq, prio := tcbPrio bs % 8, origin := e.origin,
      idem := bit (tcbFlags bs) 0, nosteal := bit (tcbFlags bs) 1, vtile := t, entry := tcbEntry bs, sregs := tcbField h 6 1, vregs := tcbField h 7 1,
      scratch := scratch, roles := hdrRoles h, hflags := tcbField h 56 2, ubase := base, ptbr := x.ptbr, pid := e.pid,
      extra := e.extra }
  let s := s.modLaunch e.pid e.launch fun y => if (SMap.find y.reported t).isSome then y.unreport 160 t else y
  let u := (s.setCtx t 0 c).modTile t fun y => { y.clearRange base scratch with hist := [] }
  (List.range 8).foldl (fun s i =>
    let r := (hdrRoles h).getD i 0
    let pc := match (if r = 1 then e.extra.start else none) with | some p => p | none => hdrPC a (hdrEntry h i)
    s.setThread ⟨t, 0, i⟩ (if r = 0 then {} else startThread x t i base h bs e.tcb pc)) u

/-- Reading a kernel header and the lines of its entries has to wait (R237, R251). -/
def State.unitHeld (s : State) (p : Nat) (x : Launch) (a : Nat) (h : List Byte) : Bool :=
  s.sysHeld p x.ptbr.toNat a 64 ||
    (List.range 8).any fun i => (hdrRoles h).getD i 0 != 0 && s.sysHeld p x.ptbr.toNat (lineAddr (hdrPC a (hdrEntry h i))).toNat 64

/-- A task ends FAULTED before any of its threads has run (R45, R312). -/
def State.faultTask (s : State) (e : Entry) (t cause addr : Nat) : State :=
  (s.noteFault e.pid e.launch cause addr e.tcb).endTask e.pid e.launch e.tcb t stFAULTED 3

/-- DISPATCH (R312): the first entry of the tile's ready order, when it is a task. -/
def State.dispatchTile (s : State) (t : Nat) : State :=
  if s.tileIssues t = false ∨ s.occupied t then s
  else match firstReady s.plumb (s.getTile t).deque with
  | none => s
  | some e =>
    if e.resume then s
    else match s.launch e.pid e.launch with
    | none => s.takeEntry t e
    | some x =>
      if !s.tcbReady e.pid x e.tcb || !s.frecReady e.pid e.launch then s else
      let u := s.takeEntry t e
      match u.sysPlace e.pid x.ptbr.toNat .w e.tcb.toNat, u.tcb e.pid x e.tcb with
      | .error c, _ => u.faultTask e t c e.tcb.toNat
      | _, .error (c, v) => u.faultTask e t c v
      | .ok _, .ok bs =>
        let v := u.tcbPut e.pid x e.tcb 6 (toLE 1 stRUNNING)
        let a := x.codebase + tcbEntry bs
        match v.sysRead e.pid x.ptbr.toNat .r a 64 with
        | .error _ => v.faultTask e t cILLOP a
        | .ok h =>
          if v.unitHeld e.pid x a h then s
          else if a % 64 ≠ 0 ∨ v.headerOk e.pid ((v.getTile t).lsplit * 0x20000) h = false then v.faultTask e t cILLOP a
          else match v.entryBad e.pid x.ptbr.toNat (if x.sup then 1 else 0) a h with
            | some (c, w) => v.faultTask e t c w
            | none => v.startUnit t e x bs h a

def execDispatch (t : Nat) (s : State) : Out := .next (s.dispatchTile t).tickFresh

/-! ### Overflow, steals and balancing (R310, R313, R314) -/

/-- OVERFLOW_MOVE (R310). -/
def State.overflowIn (s : State) (t : Nat) : State :=
  match firstReady s.plumb (s.overflowOf t) with
  | none => s
  | some e =>
    if 32 ≤ (s.getTile t).deque.length then s
    else (s.modDie (dieOf t) fun d => { d with overflow := d.overflow.erase e }).modTile t fun x => { x with deque := x.deque ++ [e] }

def execOverflowMove (t : Nat) (s : State) : Out := .next (s.overflowIn t)

/-- The mesh neighbour in a direction, 0 N, 1 E, 2 S, 3 W (R14). -/
def neighbour (t dir : Nat) : Option Nat :=
  match dir with
  | 0 => if rowOf t = 0 then none else some (t - 32)
  | 1 => if colOf t = 31 then none else some (t + 1)
  | 2 => if rowOf t = 15 then none else some (t + 32)
  | _ => if colOf t = 0 then none else some (t - 1)

/-- A tile is present, and LIVE or on probation, when it takes work (R26, R379, R384). -/
def State.tileLive (s : State) (t : Nat) : Bool := s.tileSeen 17 t && !(s.getDie (dieOf t)).failed && bits (s.getTile t).fencest.toNat 0 1 == 0

/-- The live mesh neighbours of a tile's partition, in order N, E, S, W. -/
def State.mates (s : State) (t : Nat) : List Nat :=
  (List.range 4).filterMap fun d => (neighbour t d).filter fun u => s.tileLive u && s.ownerOf u == s.ownerOf t

/-- A tile's entries, oldest first. -/
def State.entriesOf (s : State) (t : Nat) : List Entry := (s.getTile t).deque ++ s.overflowOf t

/-- An entry may go to another tile (R313). -/
def State.eligible (s : State) (u : Nat) (e : Entry) : Bool :=
  !e.nosteal && (s.launch e.pid e.launch).any fun x => inSet x.tset u

/-- The oldest entry that a tile gives up to another. -/
def State.givesUp (s : State) (t u : Nat) : Option Entry :=
  if !s.occupied t && s.readyCount t ≤ 1 then none else (s.entriesOf t).find? (s.eligible u)

/-- An entry leaves a tile for another; its tready stays. -/
def State.ship (s : State) (t u : Nat) (e : Entry) : State :=
  let v := if (s.getTile t).deque.contains e then s.takeEntry t e
    else s.modDie (dieOf t) fun d => { d with overflow := d.overflow.erase e }
  v.pushEntry u e

/-- STEAL_REQUEST (R313): an idle empty tile asks its neighbours one by one until one gives up an entry. -/
def State.stealFor (s : State) (t : Nat) : State :=
  if s.tileLive t && !s.occupied t && s.readyCount t == 0 && (s.getTile t).steal ≤ s.plumb then
    let u := s.modTile t fun x => { x with steal := s.plumb + 512 }
    match (u.mates t).findSome? fun v => if u.chanFree v t then (u.givesUp v t).map fun e => (v, e) else none with
    | some (v, e) => u.ship v t e
    | none => u
  else s

def execStealRequest (t : Nat) (s : State) : Out := .next (s.stealFor t)

/-- Ships up to n of the oldest eligible entries. -/
def State.shipMany (s : State) (t u : Nat) : Nat → State
  | 0 => s
  | n + 1 =>
    match s.givesUp t u with
    | some e => if s.readyRoom u then (s.ship t u e).shipMany t u n else s
    | none => s

/-- The first of a list of tiles with the least ready count. -/
def State.leastOf (s : State) : List Nat → Option Nat
  | [] => none
  | a :: r => some (r.foldl (fun m u => if s.readyCount u < s.readyCount m then u else m) a)

/-- BALANCE (R314, R315). -/
def State.balanceTile (s : State) (t : Nat) : State :=
  let b := (s.getPart (s.ownerOf t)).bal.toNat
  let per := bits b 0 32
  if s.tileLive t = false ∨ per = 0 ∨ s.plumb % per ≠ 0 then s
  else match s.leastOf (s.mates t) with
  | none => s
  | some u =>
    let gap := s.readyCount t - s.readyCount u
    if bits b 32 8 ≤ gap ∧ s.chanFree t u then s.shipMany t u (gap / 2) else s

def execBalance (t : Nat) (s : State) : Out := .next (s.balanceTile t)

/-! ### Units complete (R323, R326) -/

/-- Successors of a task up to the first that cannot be read, and that failure. -/
def State.readSuccs (s : State) (p : Nat) (l : Launch) (base : Nat) : Nat → List Addr × Option (Nat × Nat)
  | 0 => ([], none)
  | n + 1 =>
    match s.readSuccs p l base n with
    | (as, some e) => (as, some e)
    | (as, none) =>
      match s.sysRead p l.ptbr.toNat .r (base + 4 * n) 4 with
      | .ok b => (as ++ [BitVec.ofNat 72 (l.tcbbase + ofLE b)], none)
      | .error e => (as, some e)

/-- Reading the successor list of a task has to wait (R237, R251). -/
def State.succsHeld (s : State) (p : Nat) (l : Launch) (a : Addr) : Bool :=
  match s.tcb p l a with
  | .ok bs => (List.range (tcbNsucc bs)).any fun i => s.sysHeld p l.ptbr.toNat (l.tcbbase + tcbSuccOff bs + 4 * i) 4
  | .error _ => false

/-- Where a signal to a successor goes: to the slice of its TCB, or, where that cannot be reached, no further than the tile it comes
from. -/
def State.succTile (s : State) (p : Nat) (l : Launch) (t : Nat) (a : Addr) : Nat :=
  match s.sysPlace p l.ptbr.toNat .w a.toNat with | .ok (.pa x) => s.sliceTile (lineOf x) | _ => t

/-- The join counter's place, or the failure of its translation: a RED that goes on with the launch (R320, R323), made by the unit, which
`who` names by a thread index that no thread has. -/
def State.joinRed (s : State) (c : Ctx) (t n : Nat) (j : Addr) : State :=
  let base : Red := { pid := c.pid, launch := c.launch, tile := t, at_ := .linNone, fn := 1, size := 8, x := -1, who := ⟨t, n, 8⟩ }
  let r := match s.sysPlace c.pid c.ptbr.toNat .rw j.toNat (if (s.launch c.pid c.launch).any (·.sup) then 1 else 0) with
    | .error e => { base with fault := some (e, j) }
    | .ok p => { base with at_ := p }
  ({ s with reds := s.reds ++ [r] } : State).modLaunch c.pid c.launch fun y => { y with count := y.count + 1 }

/-- A thread of a unit that has left its context: it runs no more, and its registers keep their values until another unit starts there
(R303). -/
def Thread.retired (x : Thread) : Thread :=
  { x with life := .idle, role := 0, wait := .none, retry := none, pend := [], defer := [], region := none, resv := none, rill := false
           wdog := none, young := false, mcont := false, mrun := none, ueStall := none, lvq := [], cmpq := none }

/-- The context and its threads are free. -/
def State.freeCtx (s : State) (t c : Nat) : State := (ctxKeys t c).foldl (fun s k => s.modThread k Thread.retired) (s.setCtx t c {})

/-- Chunks for the collectives that a unit has issued are left without a receiver when it is killed: they are dropped, and `NLOST` counts
them (R336). -/
def State.loseChunks (s : State) (x : Ctx) : State :=
  let mine := fun (d : Chunk) => d.dstFab == s.ownFab && (x.takes d).isSome
  (s.net.filter mine).foldl (fun s _ => s.noteLost x.pid x.launch) { s with net := s.net.filter fun d => !mine d }

/-- A killed unit's regions, reservations, monitors and queued commands go (R326); a region that has committed is done first (R295). -/
def State.strip (s : State) (t c : Nat) : State :=
  let u := ((s.loseChunks (s.getCtx t c)).muDrop t c).cuDrop t c
  (ctxKeys t c).foldl (fun s k =>
    let s := s.endCommit k
    let id := s.regId k
    let v := (s.dropResv k).modDie (dieOf t) fun d => { d.forget id with token := if d.token = some k then none else d.token }
    { v.modThread k (fun x => { x with region := none, wait := .none, mrun := none, lvq := [], cmpq := none, pend := x.pend.filter fun p => p.store.isNone }) with
      narrows := v.narrows.filter fun n => n.who != id }) u

/-- No class V result of a context is outstanding. -/
def State.ctxSettled (s : State) (t c : Nat) : Bool := (ctxKeys t c).all fun k => (s.getThread k).pend.isEmpty

/-- A signal of a unit's tile and launch that has not been received. -/
def Msg.signalOf (m : Msg) (t p l : Nat) : Bool := match m with | .signal src pid launch _ _ _ => src == t && pid == p && launch == l | _ => false

/-- UNIT_COMPLETE goes on in order (R323): once every successor has received its signal the join counter changes; once that is acknowledged the
CALLAT return is sent and the launch counter falls. -/
def State.exitOn (s : State) (t c : Nat) : State :=
  let x := s.getCtx t c
  let red := s.reds.any fun r => r.who == ⟨t, c, 8⟩
  if s.msgs.any (fun m => m.signalOf t x.pid x.launch) || red then s
  else match (if x.exiting = 1 then x.extra.join else none) with
  | some j => (s.joinRed x t c j).modCtx t c fun y => { y with exiting := 2 }
  | none =>
    let u := match x.extra.caller with
      | some k => { s with msgs := s.msgs ++ [Msg.callRet x.vtile x.pid k x.exitVal] }
      | none => s
    (u.freeCtx t c).leaveTask x.pid x.launch x.tcb x.vtile (if x.exitBad then 3 else 0) x.exitBad

/-- A killed unit's regions, monitors and outstanding results are gone, its engines have come to a boundary and its stores are performed
(R326, R406), and it ends with its status. -/
def State.killed (s : State) (t c st cause : Nat) : State :=
  let x := s.getCtx t c
  if x.mu.burst ≠ [] ∨ x.cu.burst.isSome then s else
  let u := s.strip t c
  let ready := match u.launch x.pid x.launch with | some l => u.tcbReady x.pid l x.tcb && u.frecReady x.pid x.launch | none => true
  if u.ctxSettled t c && u.performedAt t 3 && ready then
    let v := (u.freeCtx t c).endTask x.pid x.launch x.tcb x.vtile st (if st = stFAULTED then 3 else 2)
    if st = stFAULTED then v.noteFault x.pid x.launch cause (s.killAddr cause x.launch) x.tcb else v
  else u

/-- A unit ends, its threads having ended: its status is written, and its successors are signalled (R323); or it is killed (R326). -/
def State.finishUnit (s : State) (t c : Nat) : State :=
  let x := s.getCtx t c
  if s.stopped then s
  else if x.exiting ≠ 0 then s.exitOn t c
  else match x.killed with
  | some (st, cause) => s.killed t c st cause
  | none =>
    if x.ended = false ∨ s.ctxSettled t c = false ∨ s.performedAt t 3 = false then s
    else match s.launch x.pid x.launch with
    | none => s.freeCtx t c
    | some l =>
      if !s.tcbReady x.pid l x.tcb || !s.frecReady x.pid x.launch || s.succsHeld x.pid l x.tcb then s else
      let bs := match s.tcb x.pid l x.tcb with | .ok b => b | .error _ => []
      let sc := s.readSuccs x.pid l (l.tcbbase + tcbSuccOff bs) (tcbNsucc bs)
      let u := s.tcbPut x.pid l x.tcb 6 (toLE 1 (if sc.2.isSome then stFAULTED else stDONE))
      let u := match sc.2 with | some (cause, a) => u.noteFault x.pid x.launch cause a x.tcb | none => u
      ({ u with msgs := u.msgs ++ sc.1.map fun a => Msg.signal t x.pid x.launch a (s.succTile x.pid l t a) 0 } : State).modCtx t c fun y =>
        { y with exiting := 1, exitBad := sc.2.isSome }

def execUnitComplete (t c : Nat) (s : State) : Out :=
  .next (if (s.getCtx t c).live then (s.finishUnit t c).tickFresh else s)

/-- A unit's next signal takes effect at a later reading (R342). -/
def State.nextSignal (s : State) (src pid launch : Nat) : State :=
  { s with msgs := s.msgs.map fun m => match m with
      | .signal t p l a dst after => if t = src ∧ p = pid ∧ l = launch then .signal t p l a dst (s.plumb + 1) else .signal t p l a dst after
      | m => m }

/-- SUCCESSOR_SIGNAL (R322, R323, R342): it acts on the TCB at its home, on the exiting tile's behalf. -/
def State.succSignal (s : State) (n : Nat) : State :=
  match s.msgFirst n with
  | some (.signal src pid launch a _ after) =>
    let u := (s.dropMsg n).nextSignal src pid launch
    if s.stopped ∨ s.plumb < after then s
    else match s.launch pid launch with
    | none => u
    | some l =>
      if s.sysHeld pid l.ptbr.toNat a.toNat 64 then s
      else match s.sysPlace pid l.ptbr.toNat .w a.toNat, s.tcb pid l a with
      | .ok at_, .ok bs =>
        if (match at_ with | .pa x => !s.homeReady src (lineOf x) | _ => false) then s
        else if tcbStatus bs ≠ stWAITING ∨ tcbDepc bs = 0 then u
        else if tcbDepc bs = 1 ∧ s.readyRoom src = false then s
        else u.signalTask pid launch at_ bs a 1 src
      | _, _ => u
  | _ => s

def execSuccessorSignal (n : Nat) (s : State) : Out := .next (s.succSignal n)

/-! ### REDs and launches complete (R41, R277, R406) -/

/-- RED_ACK (R273, R277): once it has arrived and what came before it at the slice is done, the merge at the home slice is acknowledged, or a late failure drops the RED. A poisoned double stays so. -/
def State.redDone (s : State) (n : Nat) : State :=
  match s.reds[n]? with
  | none => s
  | some r =>
    let u := { s with reds := s.reds.eraseIdx n }
    let done := fun (v : State) => v.modLaunch r.pid r.launch fun y => { y with count := y.count - 1 }
    let late := r.fault.isSome || (match r.at_ with | .pa _ => false | _ => true)
    if late && !s.frecReady r.pid r.launch then s else
    match r.fault with
    | some (c, a) => done (u.noteRed r.pid r.launch c a)
    | none =>
      match r.at_ with
      | .pa a =>
        if s.plumb < r.time ∨ (SMap.get [] s.resvq (lineOf a)).any (fun q => q.granted || comesFirst q.at_ q.who r.time r.who) ∨
            (s.reds.any fun x => x.on (lineOf a) && (comesFirst x.time x.who r.time r.who ||
              (x.time == r.time && x.who == r.who && x.id < r.id))) ∨ s.homeReady r.tile (lineOf a) = false then s
        else if anyPoison s.poison a r.size then done u
        else
          let v := amoNew r.fn r.size r.tile (ofLE (s.homeBytes a r.size)) (r.x.toNat % 2 ^ (8 * r.size))
          done ((u.homeStore r.pid a (toLE r.size v)).spoilMem a r.size)
      | p =>
        let v := amoNew r.fn r.size r.tile (ofLE (s.homePlace r.pid p r.size)) (r.x.toNat % 2 ^ (8 * r.size))
        match u.homePut r.pid p (toLE r.size v) with
        | some w => done w
        | none => done (u.noteRed r.pid r.launch cLPOOL 0)

def execRedAck (n : Nat) (s : State) : Out := .next (s.redDone n)

/-- The tiles of a set whose parent in the spanning tree is a tile. -/
def treeKids (tset t : Nat) : List Nat := (setTiles tset).filter fun u => u != rootTile tset && treeParent tset u == t

/-- Every unit of a launch is complete, its REDs are acknowledged and its initial tasks have been taken. -/
def Launch.overs (x : Launch) : Bool := x.count == 0 && x.ninit ≤ x.taken

/-- Units of a launch that have run on a tile are not complete: one is there, or waits in an image (R41). -/
def State.unitsThere (s : State) (p l t : Nat) : Bool :=
  (s.liveCtxs.any fun tc => tc.1 == t && (s.getCtx tc.1 tc.2).pid == p && (s.getCtx tc.1 tc.2).launch == l) ||
  (s.getPart p).parked.any fun x => x.tile == t && x.ctx.launch == l

/-- DONE_MESSAGE (R41): a tile whose units are complete and whose children have reported sends its combined status word. -/
def State.doneMsg (s : State) (p l t : Nat) : State :=
  match s.launch p l with
  | none => s
  | some x =>
    let kids := treeKids x.tset t
    if s.stopped || x.complete || s.unitsThere p l t || !inSet x.tset t || (SMap.find x.reported t).isSome || !s.chanFree t (treeParent x.tset t) ||
        kids.any fun u => (SMap.find x.reported u).isNone then s
    else
      let w := kids.foldl (fun w u => joinWords w (SMap.get 0 x.reported u)) (SMap.get 0 x.words t)
      s.modLaunch p l fun y => { y with reported := SMap.put y.reported t w }

def execDoneMessage (p l t : Nat) (s : State) : Out := .next (s.doneMsg p l t)

/-- The word that LSTATUS takes (R41, R309). -/
def Launch.status (x : Launch) (w : Nat) : Nat :=
  if (x.nred ≠ 0 ∨ x.nlost ≠ 0) ∧ bits w 0 4 = 0 then w + 1 else w

/-- The oldest incomplete launch of a queue: the one whose slot lies farthest behind `HEAD` (R339, R404). -/
def Partn.oldest (p : Partn) (q : Nat) : Option Nat :=
  let age := fun (y : Launch) => ((p.queue q).head + 2 ^ 32 - y.order % 2 ^ 32) % 2 ^ 32
  match p.launches.filter fun e => e.2.queue == q && !e.2.complete with
  | [] => none
  | e :: r => some (r.foldl (fun a b => if age a.2 < age b.2 then b else a) e).1

/-- LAUNCH_COMPLETE (R40, R406): the queue's watchdog begins anew when its oldest launch completes (R339). -/
def State.completeLaunch (s : State) (p l : Nat) : State :=
  match s.launch p l with
  | none => s
  | some x =>
    match SMap.find x.reported (rootTile x.tset) with
    | none => s
    | some w =>
      if s.stopped || x.complete || !x.overs then s
      else
        let a := 64 * ((s.getPart p).queue x.queue).base + 64 * x.slot
        if !s.sysReady (a + 56) 8 then s else
        let s := s.allDies fun _ d => { d with repl := d.repl.filter fun y => !(y.pid == p && y.launch == l) }
        let u := (s.homeStore p (a + 56) (toLE 4 (x.status w))).homeStore p (a + 60) (toLE 4 1)
        let v := u.modLaunch p l fun y => { y with complete := true }
        if (s.getPart p).oldest x.queue = some l then v.modQueue p x.queue fun y => { y with wstep := 0, wfrom := s.plumb } else v

def execLaunchComplete (p l : Nat) (s : State) : Out := .next (s.completeLaunch p l)

end Sys2Proof.Machine
end

