-- ==== Sys2Proof/Machine/Scalar.lean ====
section
/-! DEFINITION. The scalar group, opcodes 0x000 to 0x03D (R66, R71 to R78). -/

namespace Sys2Proof.Machine

/-- A class F instruction that writes one s register from one or two s registers (R71). -/
def scalarRR (op : Nat) (k : Ctl) (f : FRR) (g : Word → Word → Word) (s : State) : Out :=
  run op k [.s f.d, .s f.a, .s f.b] (fun s => .done (s.ws f.d (g (s.rs f.a) (s.rs f.b 1)))) s

/-- A class F instruction that writes one s register from an s register and an immediate (R71). -/
def scalarRI (op : Nat) (k : Ctl) (f : FRI) (g : Word → Word → Word) (s : State) : Out :=
  run op k [.s f.d, .s f.a] (fun s => .done (s.ws f.d (g (s.rs f.a) (BitVec.ofNat 64 f.imm)))) s

/-- Quotients and remainders with their borderline cases (R72, R73). -/
def divS (x y : Word) : Word := if y = 0 then -1 else x.sdiv y
def divU (x y : Word) : Word := if y = 0 then -1 else x / y
def remS (x y : Word) : Word := if y = 0 then x else x.srem y
def remU (x y : Word) : Word := if y = 0 then x else x % y

/-- The count of a shift: bits [5:0] (R74). -/
def shN (y : Word) : Nat := y.toNat % 64
def rotr64 (x : Word) (n : Nat) : Word := (x >>> n) ||| (x <<< (64 - n))

/-- Leading zeros, trailing zeros and ones (R74). -/
def clz64 (x : Word) : Nat := ((List.range 64).find? fun i => x.getLsbD (63 - i)).getD 64
def ctz64 (x : Word) : Nat := ((List.range 64).find? fun i => x.getLsbD i).getD 64
def pcnt64 (x : Word) : Nat := ones 64 x.toNat

/-- The eight bytes in reverse order (R74). -/
def bswap64 (x : Word) : Word := BitVec.ofNat 64 (ofLE (toLE 8 x.toNat).reverse)

/-- Position and width of a bit field (R75). -/
def fieldPos (imm : Nat) : Nat := bits imm 0 6
def fieldLen (imm : Nat) : Nat := bits imm 8 6 + 1

/-- BFX (R75). -/
def bfx (fn imm : Nat) (x : Word) : Word :=
  let v := bits x.toNat (fieldPos imm) (fieldLen imm)
  if fn = 1 then BitVec.ofInt 64 (sgn (fieldLen imm) v) else BitVec.ofNat 64 v

/-- BFI (R75). -/
def bfi (imm : Nat) (old x : Word) : Word :=
  let m : Word := BitVec.ofNat 64 ((2 ^ fieldLen imm - 1) * 2 ^ fieldPos imm)
  (old &&& ~~~m) ||| ((x <<< fieldPos imm) &&& m)

/-- EXT (R77). -/
def extWord (fn : Nat) (x : Word) : Word :=
  match fn with
  | 0 => (x.setWidth 8).signExtend 64
  | 1 => (x.setWidth 16).signExtend 64
  | 2 => (x.setWidth 32).signExtend 64
  | 4 => (x.setWidth 8).setWidth 64
  | 5 => (x.setWidth 16).setWidth 64
  | _ => (x.setWidth 32).setWidth 64

/-- PSET (R76). -/
def psetVal (fn : Nat) (x y : Bool) : Bool :=
  match fn with
  | 0 => x && y
  | 1 => x || y
  | 2 => x != y
  | 3 => x && !y
  | 4 => x
  | 5 => !x
  | 6 => true
  | _ => false

/-- NOP (R66) has no effect of its own. -/
def execNop (k : Ctl) (_ : FRR) (s : State) : Out := run 0x000 k [] (fun s => .done s) s

def execAdd (k : Ctl) (f : FRR) (s : State) : Out :=
  scalarRR 0x001 k f (fun x y => fit f.fn ((x.toNat : Int) + y.toNat) (x.toInt + y.toInt)) s
def execSub (k : Ctl) (f : FRR) (s : State) : Out :=
  scalarRR 0x002 k f (fun x y => fit f.fn ((x.toNat : Int) - y.toNat) (x.toInt - y.toInt)) s
def execAddi (k : Ctl) (f : FRI) (s : State) : Out :=
  scalarRI 0x003 k f (fun x y => fit f.fn ((x.toNat : Int) + y.toNat) (x.toInt + y.toInt)) s
def execMul (k : Ctl) (f : FRR) (s : State) : Out := scalarRR 0x004 k f (fun x y => x * y) s
def execMulh (k : Ctl) (f : FRR) (s : State) : Out :=
  scalarRR 0x005 k f (fun x y => BitVec.ofInt 64 (x.toInt * y.toInt / 2 ^ 64)) s
def execMulhu (k : Ctl) (f : FRR) (s : State) : Out :=
  scalarRR 0x006 k f (fun x y => BitVec.ofNat 64 (x.toNat * y.toNat / 2 ^ 64)) s
def execDiv (k : Ctl) (f : FRR) (s : State) : Out := scalarRR 0x007 k f divS s
def execDivu (k : Ctl) (f : FRR) (s : State) : Out := scalarRR 0x008 k f divU s
def execRem (k : Ctl) (f : FRR) (s : State) : Out := scalarRR 0x009 k f remS s
def execRemu (k : Ctl) (f : FRR) (s : State) : Out := scalarRR 0x00A k f remU s

def execAnd (k : Ctl) (f : FRR) (s : State) : Out := scalarRR 0x010 k f (fun x y => x &&& y) s
def execOr (k : Ctl) (f : FRR) (s : State) : Out := scalarRR 0x011 k f (fun x y => x ||| y) s
def execXor (k : Ctl) (f : FRR) (s : State) : Out := scalarRR 0x012 k f (fun x y => x ^^^ y) s
def execAndn (k : Ctl) (f : FRR) (s : State) : Out := scalarRR 0x013 k f (fun x y => x &&& ~~~y) s
def execAndi (k : Ctl) (f : FRI) (s : State) : Out := scalarRI 0x014 k f (fun x y => x &&& y) s
def execOri (k : Ctl) (f : FRI) (s : State) : Out := scalarRI 0x015 k f (fun x y => x ||| y) s
def execXori (k : Ctl) (f : FRI) (s : State) : Out := scalarRI 0x016 k f (fun x y => x ^^^ y) s
def execShl (k : Ctl) (f : FRR) (s : State) : Out := scalarRR 0x018 k f (fun x y => x <<< shN y) s
def execShr (k : Ctl) (f : FRR) (s : State) : Out := scalarRR 0x019 k f (fun x y => x >>> shN y) s
def execSra (k : Ctl) (f : FRR) (s : State) : Out := scalarRR 0x01A k f (fun x y => x.sshiftRight (shN y)) s
def execRotr (k : Ctl) (f : FRR) (s : State) : Out := scalarRR 0x01B k f (fun x y => rotr64 x (shN y)) s
def execShli (k : Ctl) (f : FRI) (s : State) : Out := scalarRI 0x01C k f (fun x y => x <<< shN y) s
def execShri (k : Ctl) (f : FRI) (s : State) : Out := scalarRI 0x01D k f (fun x y => x >>> shN y) s
def execSrai (k : Ctl) (f : FRI) (s : State) : Out := scalarRI 0x01E k f (fun x y => x.sshiftRight (shN y)) s
def execClz (k : Ctl) (f : FRR) (s : State) : Out := scalarRR 0x020 k f (fun x _ => BitVec.ofNat 64 (clz64 x)) s
def execCtz (k : Ctl) (f : FRR) (s : State) : Out := scalarRR 0x021 k f (fun x _ => BitVec.ofNat 64 (ctz64 x)) s
def execPcnt (k : Ctl) (f : FRR) (s : State) : Out := scalarRR 0x022 k f (fun x _ => BitVec.ofNat 64 (pcnt64 x)) s
def execBswap (k : Ctl) (f : FRR) (s : State) : Out := scalarRR 0x023 k f (fun x _ => bswap64 x) s
def execMin (k : Ctl) (f : FRR) (s : State) : Out := scalarRR 0x024 k f (fun x y => if x.slt y then x else y) s
def execMax (k : Ctl) (f : FRR) (s : State) : Out := scalarRR 0x025 k f (fun x y => if x.slt y then y else x) s
def execMinu (k : Ctl) (f : FRR) (s : State) : Out := scalarRR 0x026 k f (fun x y => if x.ult y then x else y) s
def execMaxu (k : Ctl) (f : FRR) (s : State) : Out := scalarRR 0x027 k f (fun x y => if x.ult y then y else x) s

def execCmp (k : Ctl) (f : FRR) (s : State) : Out :=
  run 0x028 k [.s f.a, .s f.b] (fun s => .done (s.wp f.d (cond f.fn (s.rs f.a) (s.rs f.b 1)))) s
def execCmpi (k : Ctl) (f : FRI) (s : State) : Out :=
  run 0x029 k [.s f.a] (fun s => .done (s.wp f.d (cond f.fn (s.rs f.a) (BitVec.ofNat 64 f.imm)))) s
def execSel (k : Ctl) (f : FRR) (s : State) : Out :=
  run 0x02A k [.s f.d, .s f.a, .s f.b]
    (fun s => .done (s.ws f.d (if s.rp f.c 2 then s.rs f.a else s.rs f.b 1))) s
def execPset (k : Ctl) (f : FRR) (s : State) : Out :=
  run 0x02B k [] (fun s => .done (s.wp f.d (psetVal f.fn (s.rp f.a 0) (s.rp f.b 1)))) s
def execMov (k : Ctl) (f : FRR) (s : State) : Out :=
  run 0x030 k [.s f.d, .s f.a] (fun s => .done (s.ws f.d (s.rs f.a))) s
def execMovAl (k : Ctl) (f : FRR) (s : State) : Out :=
  run 0x030 k [.s f.d] (fun s => .done (s.ws f.d ((s.ra f.a).setWidth 64))) s
def execMovAh (k : Ctl) (f : FRR) (s : State) : Out :=
  run 0x030 k [.s f.d] (fun s => .done (s.ws f.d (((s.ra f.a) >>> 64).setWidth 64))) s
def execMovi (k : Ctl) (f : FRI) (s : State) : Out :=
  run 0x031 k [.s f.d] (fun s => .done (s.ws f.d (BitVec.ofNat 64 f.imm))) s
def execExt (k : Ctl) (f : FRR) (s : State) : Out :=
  run 0x032 k [.s f.d, .s f.a] (fun s => .done (s.ws f.d (extWord f.fn (s.rs f.a)))) s
def execBfx (k : Ctl) (f : FRI) (s : State) : Out :=
  run 0x033 k [.s f.d, .s f.a] (fun s => .done (s.ws f.d (bfx f.fn f.imm (s.rs f.a)))) s
def execBfi (k : Ctl) (f : FRI) (s : State) : Out :=
  run 0x034 k [.s f.d, .s f.a] (fun s => .done (s.ws f.d (bfi f.imm (s.rs f.d 2) (s.rs f.a)))) s

def execLea (k : Ctl) (f : FM) (s : State) : Out :=
  run 0x038 k [.s f.idx] (fun s => .done (s.wa f.d (s.ea f))) s
def execAdda (k : Ctl) (f : FRR) (s : State) : Out :=
  run 0x039 k [.s f.b] (fun s => .done (s.wa f.d (s.ra f.a + (s.rs f.b).signExtend 72))) s
def execSuba (k : Ctl) (f : FRR) (s : State) : Out :=
  run 0x03A k [.s f.b] (fun s => .done (s.wa f.d (s.ra f.a - (s.rs f.b).signExtend 72))) s
def execSubaD (k : Ctl) (f : FRR) (s : State) : Out :=
  run 0x03A k [.s f.d] (fun s => .done (s.ws f.d (fit64 (s.ra f.a - s.ra f.b 2).toInt))) s
def execMova (k : Ctl) (f : FRR) (s : State) : Out :=
  run 0x03B k [] (fun s => .done (s.wa f.d (s.ra f.a))) s
def execMovaS (k : Ctl) (f : FRR) (s : State) : Out :=
  run 0x03B k [.s f.a] (fun s => .done (s.wa f.d ((s.rs f.a).setWidth 72))) s
def execMovaSh (k : Ctl) (f : FRR) (s : State) : Out :=
  run 0x03B k [.s f.a, .s f.b]
    (fun s => .done (s.wa f.d (((s.rs f.b 1).setWidth 8 ++ s.rs f.a : BitVec 72)))) s
def execCmpa (k : Ctl) (f : FRR) (s : State) : Out :=
  run 0x03C k [] (fun s => .done (s.wp f.d (condA f.fn (s.ra f.a) (s.ra f.b 2)))) s
def execMovai (k : Ctl) (f : FAI) (s : State) : Out :=
  run 0x03D k [] (fun s => .done (s.wa f.d (BitVec.ofNat 72 f.imm))) s

end Sys2Proof.Machine
end

