-- ==== Sys2Proof/Machine/Trowel.lean ====
section
/-! DEFINITION. Hawk banks, bindings and trowel opcodes, 0x348 to 0x34B and 0x3C0 to 0x3FF (R358 to R366). -/

namespace Sys2Proof.Machine

/-! ### Bindings and banks -/

/-- Fields of a binding (R359). -/
abbrev bindBank (b : Word) : Nat := bits b.toNat 0 3
abbrev bindStart (b : Word) : Nat := bits b.toNat 3 8
abbrev bindLen (b : Word) : Nat := bits b.toNat 11 9
abbrev bindMem (b : Word) : Bool := b.getLsbD 20
abbrev bindVec (b : Word) : Bool := b.getLsbD 21
abbrev bindPriv (b : Word) : Bool := b.getLsbD 22

/-- The thread's partition owns a bank (R358). -/
def State.ownsBank (s : State) (b : Nat) : Bool := s.cfg.hown.getD b 0xFF == s.ctx.pid

/-- A binding of the context in focus. -/
def State.binding (s : State) (i : Nat) : Word := SMap.get 0 s.ctx.binds i
def State.bindPut (s : State) (i : Nat) (v : Word) : State := { s with ctx := { s.ctx with binds := SMap.set 0 s.ctx.binds i v } }

/-- A binding operation's old value and effect, which is complete before the thread issues anything else (R365); a trailing thread takes the
value the leading one had (R393). -/
def bindGive (s : State) (f : FHawk) (put : Option Word) : Res :=
  if s.trails then s.takeCopy.into fun x => .done (x.1.ws f.d (x.2.setWidth 64))
  else if s.lvqFull then .hold s.held_
  else
    let old := ofWord (s.binding f.opx)
    let t := match put with | some v => s.bindPut f.opx v | none => s
    .done ((t.copyTo t.cur old).ws f.d (s.binding f.opx))

/-- TRWB (R366): the checks in their order. -/
def trwb (s : State) (f : FHawk) : Res :=
  let v := s.rs f.a
  let bank := bindBank v
  if bindLen v = 0 ∨ 256 < bindStart v + bindLen v ∨ bits v.toNat 23 41 ≠ 0 then .trap cILLOP 0
  else if s.ownsBank bank = false then .trap cPARTITION (BitVec.ofNat 72 bank)
  else if s.thr.priv = 0 ∧ (bit (bits s.thr.trwt.toNat 8 8) bank = false ∨ (bindMem v ∧ s.thr.trwt.getLsbD 0 = false) ∨
      (bindVec v ∧ s.thr.trwt.getLsbD 1 = false) ∨ bindPriv v) then .trap cPRIV 0
  else bindGive s f (some v)

/-- TRWL (R366): every source double is read before any word is written, and no condition is deferred. -/
def trwl (s : State) (f : FHawk) : Res :=
  let n := (s.rs f.b).toNat
  let a := s.ra f.ar
  if n = 0 ∨ 256 < f.st + n then .trap cILLOP 0
  else if a.toNat % 8 ≠ 0 then .trap cMISALIGN a
  else if s.ownsBank f.bk = false then .trap cPARTITION (BitVec.ofNat 72 f.bk)
  else if s.thr.priv = 0 ∧ bit (bits s.thr.trwt.toNat 8 8) f.bk = false then .trap cPRIV 0
  else if s.trails then s.takeCopy.into fun x => .done x.1
  else (s.loadNow ((List.range n).map fun j => (a + BitVec.ofNat 72 (8 * j), 8))).into fun g =>
    match g.bad with
    | some x => .trap g.why x
    | none =>
      let h := (List.range n).foldl
        (fun m j => SMap.set 0 m (256 * f.bk + f.st + j) (BitVec.ofNat 64 (ofLE ((g.bs.drop (8 * j)).take 8)))) g.s.tile.hawk
      .done { g.s with tile := { g.s.tile with hawk := h } }

def execTrwb (k : Ctl) (f : FHawk) (s : State) : Out := run 0x348 k [.s f.d, .s f.a] (fun s => trwb s f) s
def execTrwl (k : Ctl) (f : FHawk) (s : State) : Out := run 0x349 k [.s f.b] (fun s => trwl s f) s
def execTrwu (k : Ctl) (f : FHawk) (s : State) : Out := run 0x34A k [.s f.d] (fun s => bindGive s f (some 0)) s
def execTrwq (k : Ctl) (f : FHawk) (s : State) : Out := run 0x34B k [.s f.d] (fun s => bindGive s f none) s

/-! ### Micro-words (R361, R362) -/

/-- A micro-word's fields. -/
structure Micro where
  uop : Nat
  dst : Nat
  sa  : Nat
  sb  : Nat
  imm : Nat
  deriving DecidableEq, Repr

def Micro.of (w : Word) : Micro :=
  { uop := bits w.toNat 58 6, dst := bits w.toNat 53 5, sa := bits w.toNat 48 5, sb := bits w.toNat 43 5, imm := bits w.toNat 0 43 }

/-- Classes of micro-operations. -/
inductive MicroClass where
  | nop | alu | branch | mem | vec | priv
  deriving DecidableEq, Repr

def Micro.cls (m : Micro) : MicroClass :=
  if m.uop = 0 then .nop else if m.uop < 0x20 then .alu else if m.uop < 0x28 then .branch else if m.uop < 0x30 then .mem
  else if m.uop < 0x38 then .vec else .priv

/-- A field as an ordinary destination, an ordinary source, or unused. -/
def Micro.d (m : Micro) : Bool := m.dst ≤ 13 && m.dst != 12
def Micro.a (m : Micro) : Bool := m.sa ≤ 13
def Micro.b (m : Micro) : Bool := m.sb ≤ 13
def Micro.d0 (m : Micro) : Bool := m.dst == 0
def Micro.a0 (m : Micro) : Bool := m.sa == 0
def Micro.b0 (m : Micro) : Bool := m.sb == 0

/-- The width code of a lane micro-operation and the size code of a memory one, and the bits above a field. -/
def Micro.size (m : Micro) : Nat := bits m.imm 40 3
def Micro.above (m : Micro) (n : Nat) : Nat := bits m.imm n (43 - n)

/-- A micro-word is legal at a word number. -/
def Micro.legal (m : Micro) (upc : Nat) : Bool :=
  let back := 1 ≤ bits m.imm 0 8 && bits m.imm 0 8 ≤ upc && m.above 8 == 0
  let csr := m.above 12 == 0 && csrOk (bits m.imm 0 12) && !(bits m.imm 0 12 < 0x00A || bits m.imm 0 12 == 0x020 || bits m.imm 0 12 == 0x021)
  let lane := m.size ≤ 3
  match m.uop with
  | 0x00 => m.d0 && m.a0 && m.b0 && m.imm == 0
  | 0x01 | 0x02 | 0x03 | 0x04 | 0x05 | 0x06 | 0x07 | 0x08 | 0x09 | 0x0A | 0x0B | 0x0C =>
    m.d && m.a && (if bit m.imm 42 then m.b0 && bits m.imm 32 10 == 0 else m.b && m.imm == 0)
  | 0x10 | 0x11 => m.d && m.a && m.b0 && m.imm == 0
  | 0x14 | 0x15 => m.d && m.a && m.b0 && m.above 14 == 0 && bits m.imm 6 2 == 0 && fieldPos m.imm + fieldLen m.imm ≤ 64
  | 0x16 => m.d && m.a0 && m.b0
  | 0x17 | 0x18 | 0x19 | 0x1A | 0x1B => m.d && m.a && m.b && m.imm == 0
  | 0x20 | 0x21 => m.d0 && m.a && m.b0 && back
  | 0x22 => m.d && m.a0 && m.b0 && back
  | 0x23 => m.d0 && m.a0 && m.b0 && m.imm == 0
  | 0x24 | 0x25 => m.d0 && m.a && m.b0 && m.imm == 0
  | 0x26 | 0x27 => m.d0 && m.a && m.b0 && m.above 8 == 0
  | 0x28 => m.d && m.a && m.b0 && m.size ≤ 3
  | 0x29 => m.d && m.a && m.b0 && m.size ≤ 2
  | 0x2A => m.d0 && m.a && m.b && m.size ≤ 3
  | 0x2B => m.d0 && m.a0 && m.b0 && m.above 5 == 0 && bits m.imm 0 3 ≤ 5 && bits m.imm 3 2 != 3
  | 0x30 => m.d && m.sa == 14 && m.b && lane && bits m.imm 16 24 == 0
  | 0x31 => m.dst == 14 && m.a && m.b && lane && bits m.imm 16 24 == 0
  | 0x32 | 0x33 => m.dst == 14 && m.a && m.b0 && lane && bits m.imm 0 40 == 0
  | 0x34 => m.d && m.sa == 14 && m.b0 && lane && bits m.imm 0 40 == 0
  | 0x38 => m.d && m.a0 && m.b0 && csr
  | 0x39 => m.d0 && m.a && m.b0 && csr
  | _ => false

/-- The s register of a port. -/
def portOf (f : FTrowel) (n : Nat) : Nat := match n with | 8 => f.d | 9 => f.a | 10 => f.b | _ => f.c

/-- Reads an operand (R361). -/
def State.opnd (s : State) (f : FTrowel) (n pos : Nat) : Word :=
  if n < 8 then SMap.get 0 s.thr.hreg n
  else if n < 12 then s.rs (portOf f n) pos
  else if n = 12 then BitVec.ofInt 64 (sgn 32 f.imm)
  else 0

/-- Writes an operand. -/
def State.opndPut (s : State) (f : FTrowel) (n : Nat) (v : Word) : State :=
  if n < 8 then { s with thr := { s.thr with hreg := SMap.set 0 s.thr.hreg n v } }
  else if n < 12 then s.ws (portOf f n) v
  else s

/-- The result of an ALU micro-operation, from its first and second source and its destination's old value. -/
def Micro.alu (m : Micro) (x y old : Word) : Word :=
  match m.uop with
  | 0x01 => x + y | 0x02 => x - y | 0x03 => x * y
  | 0x04 => x &&& y | 0x05 => x ||| y | 0x06 => x ^^^ y | 0x07 => x &&& ~~~y
  | 0x08 => x <<< shN y | 0x09 => x >>> shN y | 0x0A => x.sshiftRight (shN y)
  | 0x0B => if x.slt y then x else y
  | 0x0C => if x.slt y then y else x
  | 0x10 => BitVec.ofNat 64 (clz64 x) | 0x11 => BitVec.ofNat 64 (pcnt64 x)
  | 0x14 => bfx 0 m.imm x | 0x15 => bfi m.imm old x
  | 0x16 => BitVec.ofInt 64 (sgn 43 m.imm)
  | 0x17 => if y ≠ 0 then x else old
  | 0x18 => BitVec.ofNat 64 (b2n (x == y)) | 0x19 => BitVec.ofNat 64 (b2n (x != y))
  | 0x1A => BitVec.ofNat 64 (b2n (x.slt y)) | _ => BitVec.ofNat 64 (b2n (x.ult y))

/-- The next word number after a branch micro-operation, given its source, or its destination less one. -/
def Micro.branch (m : Micro) (upc len : Nat) (x : Word) : Nat :=
  let j := bits m.imm 0 8
  match m.uop with
  | 0x20 | 0x22 => if x ≠ 0 then upc - j else upc + 1
  | 0x21 => if x = 0 then upc - j else upc + 1
  | 0x23 => len
  | 0x24 => if x = 0 then len else upc + 1
  | 0x25 => if x ≠ 0 then len else upc + 1
  | 0x26 => if x = 0 then upc + 1 + j else upc + 1
  | _ => if x ≠ 0 then upc + 1 + j else upc + 1

/-- The address of a memory micro-operation (R362). -/
def Micro.addr (m : Micro) (x : Word) : Addr :=
  BitVec.ofNat 72 (bits m.imm 32 8 * 2 ^ 64 + (x + BitVec.ofInt 64 (sgn 32 (bits m.imm 0 32))).toNat)

/-- A memory micro-operation. It waits for its own result, so a fenced tile's RESPF is its own trap (R362, R363). -/
def microMem (s : State) (f : FTrowel) (m : Micro) : Res :=
  let n := 2 ^ m.size
  let a := m.addr (s.opnd f m.sa 0)
  match m.uop with
  | 0x2A =>
    if !s.trails && (s.checkAll .w 1 [(a, n)]).toOption.any fun l => l.any fun e => s.deadTile e.2 then .trap cRESPF a
    else s.storeAt a (toLE n (s.opnd f m.sb 1).toNat) 0
  | 0x2B => fence s { d := 0, scope := bits m.imm 0 3, kind := bits m.imm 3 2 }
  | _ => (s.loadNow [(a, n)]).into fun g =>
    match g.bad with
    | some x => .trap g.why x
    | none =>
      let v := ofLE g.bs
      .done (g.s.opndPut f m.dst (if m.uop = 0x29 then BitVec.ofInt 64 (sgn (8 * n) v) else BitVec.ofNat 64 v))

/-- A lane micro-operation. -/
def microVec (s : State) (f : FTrowel) (m : Micro) : State :=
  let w := 2 ^ m.size
  let n := 128 / w
  let v := s.rv f.vp 4
  let x := s.opnd f m.sa 0
  let o := bits m.imm 0 16
  let els := (List.range n).map fun e => elemOf v w e
  match m.uop with
  | 0x30 => s.opndPut f m.dst (BitVec.ofNat 64 (elemOf v w (((s.opnd f m.sb 1).toNat + o) % n)))
  | 0x31 =>
    let e := (x.toNat + o) % n
    s.wr (.v f.vp) (ofElems w ((List.range n).map fun j => if j = e then (s.opnd f m.sb 1).toNat else elemOf v w j))
  | 0x32 => s.wr (.v f.vp) (ofElems w (List.replicate n x.toNat))
  | 0x33 => s.wr (.v f.vp) (ofElems w (els.map fun e => e + x.toNat))
  | _ => s.opndPut f m.dst (BitVec.ofNat 64 els.sum)

/-- A CSR micro-operation: CSRR and CSRW with their checks. -/
def microPriv (s : State) (f : FTrowel) (m : Micro) : Res :=
  let n := bits m.imm 0 12
  if m.uop = 0x38 then
    match csrPriv n (csrReadLvl n) s with
    | some (c, a) => .trap c a
    | none =>
      if s.trails then s.takeCopy.into fun x => .done (x.1.opndPut f m.dst (x.2.setWidth 64))
      else if s.lvqFull then .hold s.held_
      else .done ((s.copyTo s.cur (BitVec.ofNat 1024 (s.csr n))).opndPut f m.dst (BitVec.ofNat 64 (s.csr n)))
  else match csrPriv n (csrWriteLvl n) s with
    | some (c, a) => .trap c a
    | none => .done (s.csrWrite n (s.opnd f m.sa 0).toNat)

/-! ### Sequences (R363, R364) -/

/-- Keeps a sequence for the thread's next turn. -/
def State.hawkKeep (s : State) (q : HawkRun) : State := { s with thr := { s.thr with mrun := some q } }

/-- A trap in the middle of a sequence (R363): trap entry sets MPC. -/
def trapMid (s : State) (q : HawkRun) (c : Nat) (a : Addr) : Res := .end_ ((s.hawkKeep q).take c a)

/-- `MPC.V` cleared. -/
def Thread.mpcDone (x : Thread) : Thread := { x with mpc := BitVec.ofNat 64 (bits x.mpc.toNat 0 34), mrun := none, mcont := false }

/-- The sequence ends: the thread has issued nothing since it began, and the ports' registers hold what it wrote (R363). -/
def hawkEnd (s : State) : Res := .done { s with thr := s.thr.mpcDone }

/-- The thread's own memory micro-operation is not complete. -/
def Thread.hawkOwes (x : Thread) : Bool :=
  x.pend.any fun p => p.pc == x.pc && (match p.what with | .store _ | .fence _ _ => true | _ => false)

/-- The allowance that a class needs. -/
def allowed (b : Word) (c : MicroClass) : Bool :=
  match c with | .mem => bindMem b | .vec => bindVec b | .priv => bindPriv b | _ => true

/-- Runs micro-operations until the sequence ends, traps, waits, or has made a memory access, whose result the next turn
waits for. -/
def hawkLoop (f : FTrowel) : Nat → HawkRun → State → Res
  | 0, q, s => .hold (s.hawkKeep q).held_
  | fuel + 1, q, s =>
    let len := bindLen q.bind
    let opc : Addr := BitVec.ofNat 72 (0x3C0 + f.op)
    if len ≤ q.upc then (if s.thr.hawkOwes then .hold (s.hawkKeep q).held_ else hawkEnd s)
    else
      let no := 256 * bindBank q.bind + bindStart q.bind + q.upc
      let now := SMap.get 0 s.tile.hawk no
      let old := q.words.getD q.upc 0
      let m := Micro.of (if old = now then now else if Config.freeChoice s.fresh no then old else now)
      let next := { q with upc := q.upc + 1, nuop := q.nuop + 1 }
      if !m.legal q.upc then trapMid s q cILLOP 0
      else if !allowed q.bind m.cls then trapMid s q cTRWPRIV opc
      else if q.nuop = 4096 ∨ (m.cls = .mem ∧ q.nmem = 64) then trapMid s q cTRWLIM opc
      else match m.cls with
      | .nop => hawkLoop f fuel next s.tickFresh
      | .alu =>
        let y := if bit m.imm 42 && m.uop ≤ 0x0C then BitVec.ofInt 64 (sgn 32 (bits m.imm 0 32)) else s.opnd f m.sb 1
        hawkLoop f fuel next (s.opndPut f m.dst (m.alu (s.opnd f m.sa 0) y (s.opnd f m.dst 2))).tickFresh
      | .branch =>
        let x := if m.uop = 0x22 then s.opnd f m.dst 2 - 1 else s.opnd f m.sa 0
        let t := if m.uop = 0x22 then s.opndPut f m.dst x else s
        hawkLoop f fuel { next with upc := m.branch q.upc len x } t.tickFresh
      | .vec => hawkLoop f fuel next (microVec s f m).tickFresh
      | .priv =>
        match microPriv s f m with
        | .trap c a => trapMid s q c a
        | .done t => hawkLoop f fuel next t.tickFresh
        | .hold t => .hold (t.hawkKeep q)
        | r => r
      | .mem =>
        match microMem s f m with
        | .trap c a => trapMid s q c a
        | .done t => .hold (t.hawkKeep { next with nmem := q.nmem + 1 }).held_
        | .hold t => .hold (t.hawkKeep q)
        | r => r

/-- A sequence from its binding (R363): the words as they are now. -/
def State.hawkStart (s : State) (f : FTrowel) (b : Word) : HawkRun :=
  { idx := f.op, bind := b
    words := (List.range (bindLen b)).map fun j => SMap.get 0 s.tile.hawk (256 * bindBank b + bindStart b + j) }

/-- The most micro-operations of a sequence, and one turn more. -/
abbrev hawkFuel : Nat := 4098

/-- A trowel instruction (R363): it goes on with a sequence under way; it continues one after ERET, which reads the binding
again (R364); or it starts one. -/
def trowel (s : State) (f : FTrowel) : Res :=
  let t : State := { s with thr := { s.thr with retry := none } }
  match t.thr.mrun with
  | some q => if t.thr.hawkOwes then .hold t.held_ else hawkLoop f hawkFuel q t
  | none =>
    let b := t.binding f.op
    let opc : Addr := BitVec.ofNat 72 (0x3C0 + f.op)
    let unbound := bindLen b = 0 ∨ t.ownsBank (bindBank b) = false
    let novec := bindVec b ∧ t.ctx.has (.v f.vp) = false
    if t.thr.mcont then
      let upc := bits t.thr.mpc.toNat 0 8
      if unbound ∨ bindLen b ≤ upc then .end_ (({ t with thr := t.thr.mpcDone } : State).take cTRWUNB opc)
      else if novec then .end_ (({ t with thr := t.thr.mpcDone } : State).take cILLOP 0)
      else
        let q := { t.hawkStart f b with upc := upc, nuop := bits t.thr.mpc.toNat 14 13, nmem := bits t.thr.mpc.toNat 27 7 }
        hawkLoop f hawkFuel q { t with thr := { t.thr with mcont := false } }
    else if unbound then .trap cTRWUNB opc
    else if novec then .trap cILLOP 0
    else if tMseq t.thr.tstat then .trap cILLOP 0
    else hawkLoop f hawkFuel (t.hawkStart f b) { t with thr := { t.thr.mpcDone with hreg := [] } }

/-- A sequence under way is not asked for its predicate again. -/
def State.hawkGoes (s : State) : State :=
  if s.thr.mrun.isSome || s.thr.mcont then { s with thr := { s.thr with retry := some 0 } } else s

def execTrowel (k : Ctl) (f : FTrowel) (s : State) : Out :=
  run (0x3C0 + f.op) k [.s f.d, .s f.a, .s f.b, .s f.c] (fun s => trowel s f) s.hawkGoes

end Sys2Proof.Machine
end

