-- ==== Sys2Proof/Machine/Preempt.lean ====
section
/-! DEFINITION. Pre-emption: context images, eviction, resumption and folding, traffic for units that are not resident, and the
launch queues' watchdogs (R195, R206, R305, R324, R331 to R339). -/

namespace Sys2Proof.Machine

/-! ### Blocking points and requests (R305, R331) -/

/-- The thread is at a blocking point. -/
def Thread.blocked (x : Thread) : Bool :=
  x.region.isNone && (match x.wait with
    | .lds _ | .ldsMet _ | .wrs _ _ _ | .wrsMet _ | .join _ _ | .syncw _ _ | .park _ | .yield _ | .qpush _ | .qpop _ | .semp _
    | .remote _ | .cwait _ => true
    | _ => false)

/-- A READY entry of higher EP waits on a tile. -/
def State.outranked (s : State) (t c : Nat) : Bool :=
  (s.entriesOf t).any fun e => (s.getCtx t c).prio < e.ep s.plumb

/-- The first free place in a partition's save pool. -/
def State.imagePlace (s : State) (p : Nat) : Option Nat :=
  let pool := SMap.get (0, 0) s.cfg.save p
  let used := (s.getPart p).parked.map (·.image)
  (List.range (used.length + 1)).findSome? fun n =>
    let a := pool.1 + imageSpace * n
    if imageSpace * (n + 1) ≤ pool.2 ∧ used.contains a = false then some a else none

/-- The moment of a unit's eviction has come: a request is pending or a higher entry waits (R324, R331), every live thread is at a blocking
point, no region is active, nothing else ends the unit, and an image has room. A thread in HFAULT does not count as live, and at least one
thread does (log 60). -/
def State.evictable (s : State) (t c : Nat) : Bool :=
  let x := s.getCtx t c
  x.live && (x.preempt || s.outranked t c) && !x.ended && x.killed.isNone && (s.imagePlace x.pid).isSome &&
  ((ctxKeys t c).any fun k => (s.getThread k).life == .live) &&
  ((ctxKeys t c).all fun k => let y := s.getThread k; y.region.isNone && (y.life != .live || y.blocked))

/-- PREEMPT_REQUEST (R331): for a waiting entry, or asked for by the firmware. -/
def execPreemptRequest (t c : Nat) (s : State) : Out :=
  .next (if (s.getCtx t c).live then s.modCtx t c fun x => { x with preempt := true } else s)

/-- YIELD_HOLD_EXPIRY (R324): the 64 cycles have passed and the unit is not being evicted. -/
def execYieldHoldExpiry (t c i : Nat) (s : State) : Out :=
  .next (match (s.getThread ⟨t, c, i⟩).wait with
    | .yield till => if till ≤ s.plumb ∧ s.evictable t c = false ∧ (s.getCtx t c).leaving = false then s.wake ⟨t, c, i⟩ (some 0) else s
    | _ => s)

/-! ### Context images (R334, R335) -/

/-- The wake kind and operand of a thread. -/
def Place.no : Place → Nat
  | .pa a => a
  | .sram t b => (0xFE * 2 ^ 64) + t * 2 ^ 32 + b
  | .dev off => 0x4000000000000 + off
  | _ => 0
def Wait.image : Wait → Nat × Nat
  | .cwait g => (1, g)
  | .join p _ => (1, p.no)
  | .qpop q => (2, q) | .qpush q => (2, q) | .semp n => (2, n)
  | .park till => (2, till.getD 0)
  | .yield _ => (2, 0)
  | .lds p => (3, p.no) | .wrs p _ _ => (3, p.no) | .wrsMet p => (3, p.no)
  | .ldsMet v => (3, v.toNat)
  | .syncw off _ => (3, off)
  | .remote vt => (4, vt)
  | _ => (0, 0)

/-- What an image keeps of a thread's LSEG: its distance from the unit base, and the LSEG at another base (R335, R338). -/
def lsegSaved (lseg : Addr) (base : Nat) : Nat := (lseg.toNat + 2 ^ 72 - base) % 2 ^ 72
def lsegBack (base x : Nat) : Addr := BitVec.ofNat 72 ((base + x) % 2 ^ 20)

/-- A thread block, as pieces at offsets. -/
def threadBlock (c : Ctx) (i : Nat) (x : Thread) : List (Nat × List Byte) :=
  let w := if x.life = .live then x.wait.image else (0, 0)
  let slots : List Nat :=
    [x.tpc.toNat, x.tcause.toNat, x.taddr.toNat, x.tstat.toNat, x.tvec.toNat, x.tsp.toNat, (SMap.get 0 x.tscr 0).toNat,
     (SMap.get 0 x.tscr 1).toNat, (SMap.get 0 x.tscr 2).toNat, (SMap.get 0 x.tscr 3).toNat, lsegSaved x.lseg c.ubase, x.tsr.toNat,
     x.lstat.toNat, x.loops.lc0.toNat, x.loops.lc1.toNat, x.loops.ls.toNat, x.loops.le.toNat, x.rlo.toNat, x.rhi.toNat,
     fields [(0, c.vtile), (12, i), (16, x.rseq.toNat)], x.rstat.toNat, x.rcnt.toNat, x.trwt.toNat, x.hfpc.toNat,
     x.hfcause.toNat, x.hfaddr.toNat, x.tloops.lc0.toNat, x.tloops.lc1.toNat, x.tloops.ls.toNat, x.tloops.le.toNat, x.priv]
  [(0x000, (List.range 64).flatMap fun n => toLE 8 (if n < c.sregs then (x.reg (.s n)).toNat else 0)),
   (0x200, (List.range 32).flatMap fun n => ptrBytes (x.reg (.a n)).toNat),
   (0x400, (List.range 8).flatMap fun n => toLE 8 (x.reg (.k n)).toNat),
   (0x440, toLE 8 (maskOf 8 fun n => (x.reg (.p n)).getLsbD 0)),
   (0x448, toLE 8 w.1), (0x450, toLE 16 w.2), (0x480, slots.flatMap ptrBytes),
   (0x680, toLE 8 (match x.mrun with | some q => q.mpc.toNat | none => x.mpc.toNat)),
   (0x688, (List.range 8).flatMap fun n => toLE 8 (SMap.get 0 x.hreg n).toNat),
   (0x800, (List.range 32).flatMap fun n => toLE 128 (if n < c.vregs then (x.reg (.v n)).toNat else 0))]

/-- The rest of an image. The form of the engine queues' entries is the DV-1's own: their area holds free bytes (R334, log 6). -/
def unitBlock (n : Nat) (c : Ctx) : List (Nat × List Byte) :=
  [(0x0000, toLE 4 0x31435848), (0x0004, toLE 4 1), (0x0010, ptrBytes c.tcb.toNat), (0x0020, toLE 1 c.sregs ++ toLE 1 c.vregs),
   (0x0024, toLE 4 c.scratch), (0x0028, toLE 8 c.ptbr.toNat), (0x0030, toLE 8 c.rlimit), (0x0038, toLE 8 c.pid),
   (0x0040, (List.range 4).flatMap fun q => (List.range 16).flatMap fun j => toLE 8 (((SMap.get {} c.qs q).ents).getD j 0).toNat),
   (0x0240, (List.range 16).flatMap fun n => toLE 2 (SMap.get {} c.sems n).cnt),
   (0x0260, (List.range 4).flatMap fun q => toLE 1 (SMap.get {} c.qs q).ents.length),
   (0x0280, c.inbox.image),
   (0x02C0, toLE 8 c.mu.mpr.toNat ++ toLE 8 c.mu.status.toNat ++ toLE 8 c.cu.status.toNat ++ toLE 8 c.cu.outstanding),
   (0x0300, (List.range 64).flatMap fun i => toLE 8 (SMap.get 0 c.binds i).toNat),
   (0x0500, if c.mu.q.isEmpty && c.cu.q.isEmpty then List.replicate 768 0 else (List.range 768).map fun j => Config.freeByte n j),
   (0x0800, (List.range 4).flatMap fun a => (List.range 32).flatMap fun i => (List.range 32).flatMap fun j => toLE 4 (c.accAt a i j))]

/-- Writes an image. -/
def State.writeImage (s : State) (a : Nat) (c : Ctx) (xs : List Thread) (mem : List Byte) : State :=
  let put := fun (s : State) (off : Nat) (p : Nat × List Byte) => s.homeStore c.pid (a + off + p.1) p.2
  let s := s.homeStore c.pid a (List.replicate imageMem 0)
  let s := (unitBlock s.fresh c).foldl (fun s p => put s 0 p) s
  let s := (List.range 8).foldl (fun s i => (threadBlock c i (xs.getD i {})).foldl (fun s p => put s (0x4800 + 0x1800 * i) p) s) s
  put s 0 (imageMem, mem)

/-! ### Eviction (R195, R206, R332) -/

/-- The MU stops at its boundary, with `PRE` set and no trap. -/
def Mu.preempt (m : Mu) : Mu :=
  match m.q with
  | x :: _ =>
    if x.run && !m.stop then { m with valid := true, pre := true, pois := false, gdone := m.done, macc := x.acc, opc := x.op } else m
  | [] => m

/-- A unit's own state as its image keeps it: its threads wait on no queue. -/
def Ctx.saved (c : Ctx) : Ctx :=
  { c with
    preempt := false, leaving := false, mu := c.mu.preempt
    qs := SMap.map (fun _ (q : TQueue) => { q with pops := [], pushes := [] }) c.qs
    sems := SMap.map (fun _ (m : Sem) => { m with waits := [] }) c.sems }

/-- The unit's context, threads and scratchpad go to an image, and the tile is free. -/
def State.park_ (s : State) (t c a : Nat) : State :=
  let u := (ctxKeys t c).foldl (fun s k => s.dropResv k) s
  let x := (u.getCtx t c).saved
  let ths := (ctxKeys t c).map fun k =>
    let y := u.getThread k
    if y.life = .live then { y with tpc := y.pc, wait := match y.wait with | .wrs p n _ => .wrs p n true | w => w } else y
  let mem := u.sramBytes t x.ubase x.scratch
  let tile := u.getTile t
  let pick := fun (m : SMap Bool) =>
    (m.filter fun e => x.ubase / 8 ≤ e.1 && e.1 < (x.ubase + x.scratch) / 8).map fun e => e.1 - x.ubase / 8
  let im : Parked :=
    { ctx := x, threads := ths, mem := mem, empties := pick tile.empty, bads := pick tile.poison, tile := t, image := a }
  let v := u.writeImage a x ths mem
  let v := if bit x.hflags 3 then v.writeImage (a + imageSpace / 2) x ths mem else v
  let v := (v.modPart x.pid fun p => { p with parked := p.parked ++ [im] }).freeCtx t c
  match v.launch x.pid x.launch with
  | some l => v.tcbPut x.pid l x.tcb 6 (toLE 1 stPARKED)
  | none => v

/-- What an eviction awaits is done (R332): the unit's results have returned, its stores are performed (R406), and its engines are at a
boundary (R195, R206). -/
def State.atRest (s : State) (t c : Nat) : Bool :=
  let x := s.getCtx t c
  s.ctxSettled t c && s.performedAt t 3 && x.mu.burst.isEmpty && x.cu.burst.isNone

/-- EVICTION (R332): from the moment it is due, nothing of the unit issues; a condition that came with a result is delivered first, and the
unit then stays (R39). -/
def State.evict (s : State) (t c : Nat) : State :=
  let x := s.getCtx t c
  if s.stopped ∨ x.live = false ∨ x.killed.isSome ∨ (x.leaving = false ∧ s.evictable t c = false) then s
  else
    let u := s.modCtx t c fun y => { y with leaving := true }
    let stay := s.modCtx t c fun y => { y with leaving := false }
    if s.atRest t c = false then u
    else match (ctxKeys t c).find? fun k => !(s.getThread k).defer.isEmpty && (s.getThread k).life == .live with
    | some k => (stay.focus k).take 0 0
    | none =>
      match s.imagePlace x.pid with
      | some a =>
        if s.sysReady a imageSpace && (match s.launch x.pid x.launch with | some l => s.tcbReady x.pid l x.tcb | none => true) then s.park_ t c a
        else u
      | none => stay

def execEviction (t c : Nat) (s : State) : Out := .next (s.evict t c).tickFresh

/-! ### Resumption (R332, R333, R337) -/

/-- The double at a scratchpad offset of an image. -/
def Parked.double (x : Parked) (off : Nat) : Nat := ofLE ((x.mem.drop off).take 8)

/-- A double that a parked thread waits for is full. -/
def State.fullFor (s : State) (x : Parked) : Place → Bool
  | .pa a => !SMap.get false s.empty (a / 8)
  | .sram t b => match x.own (.sram t b) with
    | some off => !x.empties.contains (off / 8)
    | none => !SMap.get false (s.getTile t).empty (b / 8)
  | _ => true

/-- A saved wake condition holds. -/
def State.wakes (s : State) (x : Parked) (y : Thread) : Bool :=
  y.life == .live && (y.retry.isSome || (match y.wait with
    | .lds p => s.fullFor x p
    | .join p _ => ofLE (s.homePlace x.ctx.pid p 8) == 0
    | .syncw off g => syncGen (x.double (off + 8)) != g || bit (x.double off) 61
    | .park (some n) => decide (n ≤ s.plumb)
    | .remote vt => (s.unitAt x.ctx.pid x.ctx.launch vt).isSome
    | .cwait g => s.groupMoves x.ctx g
    | .park none | .qpush _ | .qpop _ | .semp _ | .wrs _ _ _ => false
    | _ => true))

/-- BECOME_RESUMABLE (R332, R333): the unit's entry is pushed on its last tile. -/
def State.resumable (s : State) (p n : Nat) : State :=
  match (s.getPart p).parked[n]? with
  | none => s
  | some x =>
    if s.stopped || x.ready || !(x.threads.any (s.wakes x)) || !s.readyRoom x.tile then s
    else
      let e : Entry :=
        { pid := p, launch := x.ctx.launch, tcb := x.ctx.tcb, seq := x.ctx.seq, prio := x.ctx.prio, origin := x.ctx.origin,
          tready := s.plumb, nosteal := x.ctx.nosteal, tile := x.tile, resume := true }
      (s.modPart p fun q => { q with parked := q.parked.set n { x with ready := true } }).pushEntry x.tile e

def execBecomeResumable (p n : Nat) (s : State) : Out := .next (s.resumable p n)

/-- `k` free values side by side, for a register of 64 · k bits. -/
def freeWide (n i k : Nat) : Nat := (List.range k).foldl (fun v j => v * 2 ^ 64 + (Config.freeWord n (i + j)).toNat) 0

/-- A thread whose image software has written: its registers are UNKNOWN; its privilege, the one that it returns to and its role stay (R334,
R6, log 6). -/
def Thread.unknown (x : Thread) (n i : Nat) : Thread :=
  let at_ := fun (r : Nat) => 65536 * (i + 1) + 64 * r
  let regs := fun {w : Nat} (m r k : Nat) => (List.range m).foldl (fun (y : SMap (BitVec w)) j =>
    if j = 0 && r ≠ 64 then y else SMap.set 0 y j (BitVec.ofNat w (freeWide n (at_ (r + j)) k))) []
  let one := fun (w r : Nat) => BitVec.ofNat w (freeWide n (at_ r) 2)
  { x with
    sr := regs 64 0 1, ar := (regs 32 64 2), vr := SMap.set 0 (regs 32 128 16) 0 (BitVec.ofNat 1024 (freeWide n (at_ 128) 16))
    kr := regs 8 160 1, pr := (List.range 8).foldl (fun y j => if j = 0 then y else SMap.set false y j (Config.freeChoice n (at_ (168 + j)))) []
    tpc := one 72 180, tcause := BitVec.ofNat 64 (freeWide n (at_ 181) 1 % 256), taddr := one 72 182, tsp := one 72 183, tvec := one 72 184
    tscr := (List.range 4).foldl (fun y j => SMap.set 0 y j (one 64 (186 + j))) []
    loops := { lc0 := one 64 190, lc1 := one 64 191, ls := one 72 192, le := one 72 193 }
    tloops := { lc0 := one 64 194, lc1 := one 64 195, ls := one 72 196, le := one 72 197 }
    hreg := (List.range 8).foldl (fun y j => SMap.set 0 y j (one 64 (200 + j))) []
    tstat := BitVec.ofNat 64 (let v := freeWide n (at_ 210) 1; fields [(0, bits v 0 2), (2, bits x.tstat.toNat 2 2), (4, bits v 4 1), (13, bits v 13 51)])
    tsr := one 64 211 &&& 0xFF07
    lseg := BitVec.ofNat 72 (freeWide n (at_ 212) 1 % 2 ^ 20 / 64 * 64), lstat := one 64 213, rlo := one 64 214, rhi := one 64 215
    rseq := BitVec.ofNat 32 (freeWide n (at_ 216) 1), rstat := one 64 217, rcnt := one 64 218
    trwt := BitVec.ofNat 64 (let v := freeWide n (at_ 219) 1; fields [(0, bits v 0 2), (8, bits v 8 8)])
    hfpc := one 72 220, hfcause := BitVec.ofNat 64 (freeWide n (at_ 221) 1 % 256), hfaddr := one 72 222
    mpc := BitVec.ofNat 64 (freeWide n (at_ 223) 1 % 2 ^ 35) }

/-- A unit whose image software has written: its state is UNKNOWN (R334, log 6). -/
def Parked.unknown (x : Parked) (n : Nat) : Parked :=
  { x with
    ctx := { x.ctx with
      qs := SMap.map (fun k (q : TQueue) => { q with ents := (List.range q.ents.length).map fun j => Config.freeWord n (16 * k + j) }) x.ctx.qs
      sems := (List.range 16).foldl (fun y j => SMap.set {} y j { cnt := (Config.freeWord n (64 + j)).toNat % 65536 }) []
      inbox := if x.ctx.scratch < 128 then x.ctx.inbox else
        let w := fun j => (Config.freeWord n (80 + j)).toNat
        let base := w 0 % (x.ctx.scratch / 128) * 128
        { en := Config.freeChoice n 81, base := base, nent := w 1 % min 1024 ((x.ctx.scratch - base) / 128) + 1, head := w 2 % 2 ^ 32, tail := w 3 % 2 ^ 32 }
      binds := (List.range 64).foldl (fun y j => SMap.set 0 y j (Config.freeWord n (5000 + j))) []
      ptbr := Config.freeWord n 84, rlimit := Nat.max 1 ((Config.freeWord n 85).toNat % 256)
      acc := ((List.range 4).foldl (fun (c : Ctx) a =>
        c.accFill a (List.range 32) fun i j => (Config.freeWord n (100 + 1024 * a + 32 * i + j)).toNat % 2 ^ 32) x.ctx).acc }
    threads := (List.range x.threads.length).map fun i => (x.threads.getD i {}).unknown n i
    mem := (List.range x.mem.length).map fun j => Config.freeByte n j }

/-- A withdrawn instruction issues again; a PARK returns code 3 and a YIELD completes. -/
def Thread.resumed (x : Thread) (lseg : Addr) : Thread :=
  { x with
    lseg := lseg, pc := if x.life = .live then x.tpc else x.pc, wait := .none
    retry := match x.wait with | .park _ => some 3 | .yield _ => some 0 | _ => x.retry }

/-- A parked unit is restored in a context of a tile at a unit base. -/
def State.restore (s : State) (t c base : Nat) (y : Parked) : State :=
  let x := if y.bad then y.unknown s.fresh else y
  let pid := x.ctx.pid
  let u := s.modPart pid fun q => { q with parked := q.parked.filter fun y => y.image != x.image }
  let set := fun (m : SMap Bool) (l : List Nat) => l.foldl (fun m d => SMap.put m (base / 8 + d) true) m
  let mu := if x.ctx.mu.pre then { x.ctx.mu with pre := false } else x.ctx.mu
  let u := (u.setCtx t c { x.ctx with ubase := base, mu := mu }).modTile t fun y =>
    let y := y.clearRange base x.ctx.scratch
    { y with sram := Memory.write y.sram base x.mem, empty := set y.empty x.empties, poison := set y.poison x.bads }
  let u := (List.range 8).foldl (fun s i =>
    let y := x.threads.getD i {}
    s.setThread ⟨t, c, i⟩ (if y.life = .idle then y else y.resumed (lsegBack base (lsegSaved y.lseg x.ctx.ubase)))) u
  match u.launch pid x.ctx.launch with
  | some l => u.tcbPut pid l x.ctx.tcb 6 (toLE 1 stRUNNING)
  | none => u

/-- The parked unit of an entry. -/
def State.parkedOf (s : State) (e : Entry) : Option Parked :=
  (s.getPart e.pid).parked.find? fun x => x.ctx.launch == e.launch && x.ctx.tcb == e.tcb

/-- The copy of a unit's image that reads back without an uncorrectable error, the first before the second (R390). -/
def State.goodImage (s : State) (x : Parked) : Bool :=
  x.copies.any fun a => !anyPoison s.poison a (imageMem + x.ctx.scratch) && !s.homeFailed a

/-- No copy of the image can be read back: the context is lost, and the unit ends FAULTED; the record's address is the job (R390, log 81). -/
def State.loseContext (s : State) (x : Parked) : State :=
  let p := x.ctx.pid
  let l := x.ctx.launch
  let job := ((s.launch p l).map (·.job)).getD 0
  let u := (s.modPart p fun q => { q with parked := q.parked.filter fun y => y.image != x.image }).dropEntries p l x.ctx.tcb
  ((u.noteFault p l cUE x.image x.ctx.tcb).endTask p l x.ctx.tcb x.ctx.vtile stFAULTED 3).logEvent 10 x.tile p cUE job

/-- What ends a parked unit's stay, its TCB and its launch's record, can be written now (R237). -/
def State.unparkReady (s : State) (x : Parked) : Bool :=
  s.frecReady x.ctx.pid x.ctx.launch && (s.launch x.ctx.pid x.ctx.launch).all fun l => s.tcbReady x.ctx.pid l x.ctx.tcb

/-- RESUME (R332): a tile with no resident unit whose first entry is a resumption. -/
def State.resumeOn (s : State) (t : Nat) : State :=
  if s.tileIssues t = false ∨ s.occupied t then s
  else match firstReady s.plumb (s.getTile t).deque with
  | none => s
  | some e =>
    if e.resume = false then s
    else
      let u := s.takeEntry t e
      match s.parkedOf e with
      | none => u
      | some x =>
        let portion := (s.getTile t).lsplit * 0x20000
        if portion < x.ctx.scratch ∨ s.unparkReady x = false then s
        else if !s.goodImage x then u.loseContext x
        else (u.restore t 0 (pickBase s.fresh portion x.ctx.scratch) { x with ctx := { x.ctx with hw := List.range 8 } }).modTile t fun y => { y with hist := [] }

def execResume (t : Nat) (s : State) : Out := .next (s.resumeOn t).tickFresh

/-- The allocations of a tile's contexts, and the first base at which another fits beside them. -/
def State.allocs (s : State) (t : Nat) : List (Nat × Nat) :=
  (s.liveCtxs.filter fun x => x.1 == t).map fun x => let c := s.getCtx x.1 x.2; (c.ubase, c.scratch)
def fitBase (portion scratch : Nat) (as : List (Nat × Nat)) : Option Nat :=
  (0 :: as.map fun a => a.1 + a.2).find? fun b =>
    b + scratch ≤ portion && as.all fun a => b + scratch ≤ a.1 || a.1 + a.2 ≤ b || scratch == 0

/-- The contexts of a tile may hold one more unit (R337). -/
def State.folds (s : State) (t : Nat) (x : Ctx) : Bool :=
  let cs := (s.liveCtxs.filter fun y => y.1 == t).map fun y => s.getCtx y.1 y.2
  let rs := fun (c : Ctx) => c.roles.filter (· != 0)
  bit x.hflags 2 && cs.length < 4 && (cs.any fun c => c.pid == x.pid && c.launch == x.launch) &&
  ((cs.map fun c => (rs c).length).sum + (rs x).length ≤ 8) &&
  cs.all fun c => [2, 3, 4].all fun r => !(c.roles.contains r && x.roles.contains r)

/-- The hardware threads that a folded unit's threads take. Which of the free ones they are is the scheduler's choice (R337): in this
model the lowest first, in the order of the header's threads (log 60). -/
def State.foldHw (s : State) (t : Nat) (x : Ctx) : List Nat :=
  let used := (s.liveCtxs.filter fun y => y.1 == t).flatMap fun y =>
    let c := s.getCtx y.1 y.2
    ((List.range 8).filter fun i => c.roles.getD i 0 != 0).map fun i => c.hw.getD i i
  let free := (List.range 8).filter fun h => !used.contains h
  (List.range 8).map fun i => free.getD ((x.roles.take i).filter (· != 0)).length i

/-- FOLDED_RESUME (R337). -/
def State.foldOn (s : State) (t n : Nat) : State :=
  match (s.getPart (s.ownerOf t)).parked[n]? with
  | none => s
  | some x =>
    if !x.ready || !s.tileIssues t || !s.folds t x.ctx || !s.unparkReady x then s
    else
      match (List.range 4).find? fun c => !(s.getCtx t c).live, fitBase ((s.getTile t).lsplit * 0x20000) x.ctx.scratch (s.allocs t) with
      | some c, some b => if !s.goodImage x then s.loseContext x else (s.dropEntries x.ctx.pid x.ctx.launch x.ctx.tcb).restore t c b { x with ctx := { x.ctx with hw := s.foldHw t x.ctx } }
      | _, _ => s

def execFoldedResume (t n : Nat) (s : State) : Out := .next (s.foldOn t n).tickFresh

/-! ### Traffic for a unit that is not resident (R336) -/

/-- Bytes written to an image's scratchpad; a WRS that watches one of their lines is met (R333). -/
def Parked.put (x : Parked) (off : Nat) (bs : List Byte) : Parked :=
  let seen := fun (p : Place) => (x.own p).any fun o => (linePieces (x.ctx.ubase + off) bs).any fun q => lineOf q.1 == lineOf (x.ctx.ubase + o)
  { x with threads := x.threads.map (fun y => match y.wait with | .wrs p _ _ => if seen p then { y with wait := .wrsMet p } else y | _ => y), mem := x.mem.take off ++ bs ++ x.mem.drop (off + bs.length), bads := x.bads.filter fun d => !(wholeDoubles off bs.length).contains d }

/-- Copy bytes land in an image (R208): the doubles that they cover whole, or complete, become full, and those that poisoned bytes
touch are poisoned (R206). -/
def Parked.land (x : Parked) (m : Away) : Parked :=
  let full := wholeDoubles m.off m.bytes.length ++ m.fills
  let y := x.put m.off m.bytes
  { y with
    empties := y.empties.filter fun d => !full.contains d
    bads := (y.bads ++ m.bad.map fun j => (m.off + j) / 8).eraseDups }

/-- An arrival at a sync object of an image (R197). -/
def Parked.arrive (x : Parked) (off amt : Nat) : Parked :=
  let d0 := x.double off
  let d1 := x.double (off + 8)
  let n := syncCount d1 + amt
  if syncTarget d0 ≤ n then
    let y := if syncTarget d0 < n && !bit d0 63 then x.put off (toLE 8 (d0 + 2 ^ 63)) else x
    { y.put (off + 8) (toLE 8 ((syncGen d1 + 1) % 2 ^ 24 * 2 ^ 40)) with empties := x.empties.filter (· != off / 8 + 1) }
  else x.put (off + 8) (toLE 8 (n + syncGen d1 * 2 ^ 40))

/-- A narrow arrival with a different XSP is recorded at the object (R207). -/
def Parked.mismatch (x : Parked) (off sender : Nat) : Parked :=
  let d0 := x.double off
  if bit d0 61 then x
  else
    let y := x.put off (toLE 8 (d0 - bits d0 40 12 * 2 ^ 40 + sender % 4096 * 2 ^ 40 + 2 ^ 61))
    { y with ctx := { y.ctx with fmx := y.ctx.fmx ++ [off] } }

/-- Traffic that the destination's tile refuses: it lies outside the unit's scratchpad (R200). -/
def Ctx.refuses (x : Ctx) (m : Away) : Bool := !x.inside m.off m.bytes.length || (m.signal && !x.inside m.sync 16)

/-- Refused traffic of a copy stops the CU that sent it (R200). -/
def State.refused (s : State) (m : Away) : State :=
  match s.liveCtxs.find? fun tc =>
      let x := s.getCtx tc.1 tc.2
      x.pid == m.pid && x.launch == m.launch && x.vtile == m.src && m.id.isSome && (x.cu.q.head?.map (·.id)) == m.id with
  | some tc => s.cuHalt tc.1 tc.2 cPERM (BitVec.ofNat 72 (if m.signal then m.sync else m.off))
  | none => s

/-- The traffic applied to an image, and to the memory that holds it. -/
def Parked.apply (x : Parked) (m : Away) : Parked :=
  if m.xsp.any fun b => b != syncXsp (x.double m.sync) then x.mismatch m.sync m.src
  else if m.signal then x.arrive m.sync m.amt
  else x.land m

/-- The parked unit of a launch at a virtual tile: that of lowest SEQ. -/
def Partn.parkedAt (p : Partn) (launch vt : Nat) : Option Parked :=
  match p.parked.filter fun x => x.ctx.launch == launch && x.ctx.vtile == vt with
  | [] => none
  | x :: r => some (r.foldl (fun a b => if b.ctx.seq < a.ctx.seq then b else a) x)

/-- Copy bytes land in the scratchpad of a unit that has become resident (R206, R208). -/
def State.awayLand (s : State) (t b : Nat) (m : Away) : State :=
  let u := (s.sramLand t (b + m.off) m.bytes).spoilSources (.sram t (b + m.off)) m.bytes.length
  let v := m.fills.foldl (fun s d => s.sramFills t (b / 8 + d)) u
  v.engPoison (m.bad.map fun j => { spot := { place := .sram t (b + m.off + j) }, n := 1 })

/-- NONRESIDENT_TRAFFIC (R336): applied to the image, or to the scratchpad of a unit that has become resident, or refused, or dropped. What one
tile sends to another arrives in the order it was sent (R253). -/
def State.traffic (s : State) (n : Nat) : State :=
  match s.away[n]? with
  | none => s
  | some m =>
    let u := { s with away := s.away.eraseIdx n }
    if (s.away.take n).any fun y => y.pid == m.pid && y.launch == m.launch && y.vtile == m.vtile && y.src == m.src then s
    else match s.unitAt m.pid m.launch m.vtile with
    | some (t, c) =>
      let x := s.getCtx t c
      if x.refuses m then u.refused m
      else if m.xsp.any fun b => b != syncXsp (s.syncD t (x.ubase + m.sync) 0) then u.syncMismatch t c (x.ubase + m.sync) m.src
      else if m.signal then u.syncAdd t (x.ubase + m.sync) m.amt
      else u.awayLand t x.ubase m
    | none =>
      match (s.getPart m.pid).parkedAt m.launch m.vtile with
      | none => if !s.frecReady m.pid m.launch then s else if m.lone then u.noteLost m.pid m.launch else u
      | some x =>
        if x.ctx.refuses m then u.refused m
        else if (x.copies.all fun a => s.sysReady a (imageSpace / 2)) then u.saveParked m.pid (x.apply m) else s

def execNonresidentTraffic (n : Nat) (s : State) : Out := .next (s.traffic n)

/-! ### Watchdogs (R339) -/

/-- A step of a queue's watchdog is due: the step, and its limit in cycles. -/
def State.wdogDue (s : State) (p q step : Nat) : Bool :=
  let x := s.getPart p
  let y := x.queue q
  let lims := [x.wdog1, x.wdog2, x.wdog3]
  y.wstep == step && (lims.take (step + 1)).all (· != 0) && y.wfrom + 1024 * lims.getD step 0 ≤ s.plumb

def State.wdogNext (s : State) (p q step : Nat) : State := s.modQueue p q fun y => { y with wstep := step + 1, wfrom := s.plumb }

/-- The resident units of a launch. -/
def State.unitsOf (s : State) (p l : Nat) : List (Nat × Nat) :=
  s.liveCtxs.filter fun x => let c := s.getCtx x.1 x.2; c.pid == p && c.launch == l

/-- WATCHDOG_STEP1: a request to every resident unit, and WDOG to its GEN thread. -/
def State.wdog1 (s : State) (p q : Nat) : State :=
  match (s.getPart p).oldest q with
  | none => s
  | some l =>
    if !s.stopped && s.wdogDue p q 0 then
      let u := (s.unitsOf p l).foldl (fun s x =>
        (ctxKeys x.1 x.2).foldl (fun s k =>
          let y := s.getThread k
          if y.life = .live ∧ y.role = 1 then s.setThread k { y with wdog := some l } else s)
          (s.modCtx x.1 x.2 fun c => { c with preempt := true })) s
      u.wdogNext p q 0
    else s

def execWatchdogStep1 (p q : Nat) (s : State) : Out := .next (s.wdog1 p q)

/-- WATCHDOG_STEP2: every unit is killed, the other tasks are cancelled, and the outcome is FAULTED. -/
def State.wdog2 (s : State) (p q : Nat) : State :=
  match (s.getPart p).oldest q with
  | none => s
  | some l =>
    if !s.stopped && s.wdogDue p q 1 && s.tasksReady p l then
      ((s.endLaunch p l stFAULTED cWDOG).modLaunch p l fun y =>
        { y.note (rootTile y.tset) 3 false with taken := y.ninit }).wdogNext p q 1
    else s

def execWatchdogStep2 (p q : Nat) (s : State) : Out := .next (s.wdog2 p q)

end Sys2Proof.Machine
end

