-- ==== Sys2Proof/Machine/Lath.lean ====
section
/-! DEFINITION. The lath: heartbeats, judgements, votes, fences and readmission of tiles, what a fence does to the work of a
tile, and the last step of a watchdog (R278, R339, R373 to R386). -/

namespace Sys2Proof.Machine

/-! ### Registers of the lath -/

/-- VOTE0 to VOTE3 (R376). -/
structure Vote where
  nst     : Nat := 0
  judge   : Nat := 0
  votes   : Nat := 0
  livemap : Nat := 0
  miss    : Nat := 0
  napp    : Nat := 0
  lastseq : Nat := 0
  health  : Nat := 0
  deriving DecidableEq, Repr

def Vote.ofWord (w : Word) : Vote :=
  let v := w.toNat
  { nst := bits v 0 2, judge := bits v 2 2, votes := bits v 4 4, livemap := bits v 8 4, miss := bits v 12 2, napp := bits v 14 2,
    lastseq := bits v 16 16, health := bits v 32 32 }
def Vote.word (x : Vote) : Word :=
  BitVec.ofNat 64 (fields [(0, x.nst % 4), (2, x.judge % 4), (4, x.votes % 16), (8, x.livemap % 16), (12, x.miss % 4),
    (14, x.napp % 4), (16, x.lastseq % 2 ^ 16), (32, x.health % 2 ^ 32)])

def State.vote (s : State) (t d : Nat) : Vote := Vote.ofWord (SMap.get 0 (s.getTile t).vote d)
def State.modVote (s : State) (t d : Nat) (f : Vote → Vote) : State :=
  s.modTile t fun x => { x with vote := SMap.set 0 x.vote d (f (Vote.ofWord (SMap.get 0 x.vote d))).word }
def State.neigh (s : State) (t d : Nat) : Neigh := SMap.get {} (s.getTile t).lath.neigh d
def State.modNeigh (s : State) (t d : Nat) (f : Neigh → Neigh) : State :=
  s.modTile t fun x => { x with lath := { x.lath with neigh := SMap.set {} x.lath.neigh d (f (SMap.get {} x.lath.neigh d)) } }
def State.modLath (s : State) (t : Nat) (f : Lath → Lath) : State := s.modTile t fun x => { x with lath := f x.lath }

/-- FENCEST.ST (R379), in the register and in the fence map (R380). -/
def State.stOf (s : State) (t : Nat) : Nat := bits (s.getTile t).fencest.toNat 0 2
def State.setSt (s : State) (t st : Nat) : State :=
  let r := s.modTile t fun x => { x with fencest := BitVec.ofNat 64 (x.fencest.toNat / 4 * 4 + st % 4) }
  { r with fence := SMap.set 0 r.fence t st }

/-- The length of a heartbeat period of a tile, and the number of the present one (R373, R374). -/
def Tile.period (x : Tile) : Nat := 2 ^ bits x.hbper.toNat 0 5
def State.periodNo (s : State) (t : Nat) : Nat := s.plumb / (s.getTile t).period

/-- The direction in which a tile is its neighbour's neighbour. -/
def back (d : Nat) : Nat := (d + 2) % 4
/-- The direction from one tile to a mesh neighbour. -/
def dirTo (t x : Nat) : Option Nat := (List.range 4).find? fun d => neighbour t d == some x

/-! ### Heartbeats -/

/-- A new HBPER takes effect at the end of the period in which it was written (R374): every MISS count of the die is cleared. -/
def State.newPeriod (s : State) (t : Nat) : State :=
  match (s.getTile t).lath.hbNext with
  | none => s
  | some (w, at_) =>
    if s.plumb < at_ then s
    else
      let r := s.modTile t fun x => { x with hbper := w, lath := { x.lath with hbNext := none } }
      (List.range 512).foldl (fun r j => (List.range 4).foldl (fun r d =>
        r.modVote (512 * dieOf t + j) d fun v => { v with miss := 0 }) r) r

/-- The `HEALTH` field of a tile's heartbeats (R373, R395). Nothing in the spec gives the thermal band of a tile: it is a free value
(log 23). -/
def State.healthOf (s : State) (t : Nat) : Nat :=
  let hurt := fun (h : Nat) => s.liveCtxs.any fun tc => tc.1 == t && (List.range 8).any fun i =>
    s.hwOf ⟨t, tc.2, i⟩ == h && (s.getThread ⟨t, tc.2, i⟩).life == .hfault
  fields [(0, b2n (!(s.getTile t).lath.bistBad)), (1, (Config.freeWord s.fresh 0x373).toNat % 8),
    (4, b2n (s.store.mark.getD 2 64 < SMap.get 0 s.buckets (bucketNo 2 (clusterOf t)))), (8, maskOf 8 fun h => !hurt h)]

/-- HEARTBEAT_SEND (R373): once a period in each direction, while the tile lives or listens for readmission. A period that begins brings
the value of HBPER that waited for it, in whatever state the tile is (R374). -/
def State.sendBeat (s : State) (t dir : Nat) : State :=
  let s := s.newPeriod t
  let l := (s.getTile t).lath
  match neighbour t dir with
  | none => s
  | some n =>
    if !s.tileSeen 17 t || (s.getDie (dieOf t)).failed || s.stOf t == 3 || (s.stOf t == 1 && !l.bist) ||
      SMap.get 0 l.sent dir == s.periodNo t + 1 then s
    else
      let seq := SMap.get 0 l.hseq dir
      (({ s with beats := s.beats ++ [{ dst := n, dir := back dir, tile := t, hseq := seq, health := s.healthOf t }] } : State).modLath t fun x =>
        { x with sent := SMap.set 0 x.sent dir (s.periodNo t + 1), hseq := SMap.set 0 x.hseq dir ((seq + 1) % 2 ^ 16) }).tickFresh
def execHeartbeatSend (t dir : Nat) (s : State) : Out := .next (s.sendBeat t dir)

/-- A heartbeat is heard (R375, R376, R384). What a sheeted neighbour sends counts only after its APPEAL. -/
def State.hearBeat (s : State) (t dir tid hseq health : Nat) : State :=
  let v := s.vote t dir
  let n := s.neigh t dir
  match neighbour t dir with
  | none => s
  | some x =>
    if v.nst = 0 ∨ (v.nst = 2 ∧ n.listen.isNone) then s
    else
      let odd := tid != x || (n.last && hseq % 2 ^ 16 != (v.lastseq + 1) % 2 ^ 16)
      (s.modVote t dir fun v => { v with lastseq := hseq, health := health }).modNeigh t dir fun n =>
        { n with heard := n.heard + 1, odd := n.odd || odd, last := true }

/-- HEARTBEAT_RECEIVE (R373): the first heartbeat on its way over the link, with its fields `tid`, `hseq` and `health`. One that no step of
the neighbour has sent comes from a neighbour that errs; whether it errs so is a free value (log 23). -/
def execHeartbeatReceive (t dir tid hseq health : Nat) (s : State) : Out :=
  let b : Beat := { dst := t, dir := dir, tile := tid, hseq := hseq, health := health }
  .next (if s.beats.find? (fun x => x.dst == t && x.dir == dir) == some b then
      ({ s with beats := s.beats.erase b } : State).hearBeat t dir tid hseq health
    else if Config.freeChoice s.fresh 0x373 then (s.hearBeat t dir tid hseq health).tickFresh
    else s.tickFresh)

/-! ### Votes -/

/-- A strict majority of a target's live and probation neighbours (R377). -/
def Vote.voters (v : Vote) : Nat := ones 4 v.livemap
def Vote.cast (v : Vote) : Nat := ones 4 (Nat.land v.votes v.livemap)
def Vote.quorum (v : Vote) : Nat := if v.nst = 3 then 1 else v.voters / 2 + 1

/-- A readmit broadcast for a tile is on its way: a quorum has formed (R384, R385). -/
def State.readmits (s : State) (x : Nat) : Bool := s.casts.any fun c => c.x == x && c.cause == 0

/-- A fence broadcast for a tile, or a readmit one, unless the same is on its way (R378, R384). Of several fences of one target the first
to arrive decides. -/
def State.broadcast (s : State) (x cause : Nat) : State :=
  if (s.casts.any fun c => c.x == x && c.cause == cause) || (cause == 0) != (s.stOf x == 1) || s.stOf x == 3 then s
  else { s with casts := s.casts ++ [{ x := x, cause := cause, left := (List.range 8).filter (bit s.dieMask) }] }

/-- Takes the quorum of a tile's target (R377, R378, R384): with one live neighbour only, it is the firmware's to decide. The fence names the
tile's own judgement, or else the last one it was told. -/
def State.takeQuorum (s : State) (t dir : Nat) : State :=
  let v := s.vote t dir
  match neighbour t dir with
  | none => s
  | some x =>
    if (v.voters ≤ 1 ∧ v.nst ≠ 3) ∨ v.cast < v.quorum then s
    else if v.nst = 2 then s.broadcast x 0
    else if v.nst = 1 ∨ v.nst = 3 then s.broadcast x (if v.judge = 1 ∨ v.judge = 2 then v.judge else Nat.max 1 (s.neigh t dir).why)
    else s

/-- A tile's bit is set in its own, or another's, votes. -/
def orBit (x i : Nat) : Nat := if bit x i then x else x + 2 ^ i
def andNot (x i : Nat) : Nat := if bit x i then x - 2 ^ i else x

/-- The scrim map takes the tile at a physical place out of use from the next reset on (R13): the row's spare takes its place, or, when
another place of the row has taken the spare, the tile there stays sheeted and absent, by whatever identifier the row's `SKIPCOL` then gives
it (log 71). -/
def Persist.scrim (st : Persist) (ph : Nat) : Persist :=
  match SMap.find st.skipcol (ph / 33) with
  | none => { st with skipcol := SMap.put st.skipcol (ph / 33) (ph % 33) }
  | some c => if c = ph % 33 then st else { st with perm := SMap.put st.perm ph true }

/-- A fence becomes PERMANENT, or a BIST has failed (R13, R385). -/
def State.scrim (s : State) (x : Nat) : State := s.putStore (s.store.scrim (s.physTile x))
def State.permanent (s : State) (x : Nat) : State := ((s.setSt x 3).scrim x).logEvent 7 x (s.ownerOf x) 0 0

/-- Each neighbour of a tile changes what it keeps of the tile. -/
def State.aroundTile (s : State) (x : Nat) (f : State → Nat → Nat → State) : State :=
  (List.range 4).foldl (fun s k => match neighbour x k with | some n => f s n (back k) | none => s) s

/-- An appeal fails (R385): the neighbours no longer listen, BIST runs again, and the third failure is PERMANENT. -/
def State.appealFails (s : State) (x : Nat) : State :=
  let r := (s.modLath x fun l => { l with bist := false, appeal := none, told := [], fails := l.fails + 1 }).aroundTile x
    fun s n d => (s.modNeigh n d fun y => { y with listen := none, age := none }).modVote n d fun v =>
      if v.nst = 2 then { v with judge := 0, votes := 0 } else v
  if 3 ≤ (r.getTile x).lath.fails then r.permanent x else r

/-- The judgement on a neighbour for a period: 0 clean, 1 SILENT, 2 BABBLING (R375), with the new MISS and mark counts. -/
def Neigh.judge (n : Neigh) (v : Vote) (cap flits : Nat) : Nat × Nat × Nat :=
  let miss := if n.heard = 0 then Nat.min 3 (v.miss + 1) else 0
  let overs := if cap ≠ 0 ∧ cap < flits then n.overs + 1 else 0
  (if miss = 3 then 1 else if 2 < n.heard ∨ n.odd ∨ 3 ≤ overs then 2 else 0, miss, overs)

/-- A tile tells the other live neighbours of a target what it has judged (R377, R384). -/
def State.accuse (s : State) (t dir x j : Nat) : State :=
  let v := s.vote t dir
  let others := ((List.range 4).filter fun k => k != back dir && bit v.livemap k).filterMap (neighbour x)
  { s with accs := s.accs ++ others.map fun n => { dst := n, target := x, who := t, judge := j } }

/-- The judgement takes effect (R377, R384, R385). An appeal fails by a judgement in its eight listening periods, while no quorum has
formed. -/
def State.judged (s : State) (t dir x j : Nat) : State :=
  let v := s.vote t dir
  let me := back dir
  if v.nst = 2 then
    match (s.neigh t dir).listen with
    | none => s
    | some n =>
      if j ≠ 0 then (if n < 8 ∧ s.readmits x = false then s.appealFails x else s)
      else if n + 1 < 8 then s.modNeigh t dir fun y => { y with listen := some (n + 1) }
      else (((s.modNeigh t dir fun y => { y with listen := some (n + 1) }).modVote t dir fun v =>
        { v with judge := 3, votes := orBit v.votes me }).accuse t dir x 3).takeQuorum t dir
  else if j = 0 then
    (s.modNeigh t dir fun y => { y with age := none }).modVote t dir fun v =>
      { v with judge := 0, votes := if v.judge = 0 then v.votes else 0 }
  else
    (((s.modNeigh t dir fun y => { y with age := some (match y.age with | some a => a + 1 | none => 0) }).modVote t dir fun v =>
      { v with judge := j, votes := orBit v.votes me }).accuse t dir x j).takeQuorum t dir

/-- PERIOD_JUDGEMENT (R374, R375, R377, R384): at the end of a period, on a neighbour recorded as live, on probation, or heard to
appeal. The spec gives no count of the flits that a tile's traffic makes: the count taken at the neighbour's router is a free value
(log 23). -/
def execPeriodJudgement (t dir : Nat) (s : State) : Out :=
  let n := s.neigh t dir
  let v := s.vote t dir
  .next (match neighbour t dir with
    | none => s.newPeriod t
    | some x =>
      if s.periodNo t = n.judged ∨ v.nst = 0 ∨ (v.nst = 2 ∧ n.listen.isNone) ∨ s.stOf t = 1 ∨ s.stOf t = 3 then s.newPeriod t
      else
        let y := n.judge v (bits (s.getTile t).hbper.toNat 16 16) (Config.flits x n.judged)
        let r := (s.modVote t dir fun v => { v with miss := y.2.1 }).newPeriod t
        let r := r.modNeigh t dir fun n =>
          { n with heard := 0, odd := false, overs := y.2.2, judged := r.periodNo t }
        r.judged t dir x y.1)

/-- What a vote of one of a target's neighbours does at another (R377, R384 to R386). A vote of a tile that is not live counts for nothing; an
accusation of a tile that appeals makes its appeal fail, unless a quorum has formed. -/
def State.hearVote (s : State) (t dir target k judge : Nat) : State :=
  let v := s.vote t dir
  let set := fun (s : State) => (s.modVote t dir fun v => { v with votes := orBit v.votes k }).takeQuorum t dir
  if judge = 0 ∨ bit v.livemap k = false ∨ s.stOf t = 1 ∨ s.stOf t = 3 then s
  else if v.nst = 2 then
    (if (s.neigh t dir).listen.isNone then s else if judge = 3 then set s else if s.readmits target then s else s.appealFails target)
  else if judge ≠ 3 ∧ (v.nst = 1 ∨ v.nst = 3) then set (s.modNeigh t dir fun y => { y with why := judge })
  else s

/-- ACCUSATION (R377): one on its way arrives. -/
def execAccusation (t target accuser judge : Nat) (s : State) : Out :=
  let a : Acc := { dst := t, target := target, who := accuser, judge := judge }
  .next (if !s.accs.contains a then s
    else match dirTo t target, dirTo target accuser with
    | some dir, some k => ({ s with accs := s.accs.erase a } : State).hearVote t dir target k judge
    | _, _ => { s with accs := s.accs.erase a })

/-- VOTE_EXPIRY (R377): four periods after the tile's own judgement without a quorum. -/
def execVoteExpiry (t dir : Nat) (s : State) : Out :=
  .next (if (s.neigh t dir).age.any (4 ≤ ·) then
      (s.modNeigh t dir fun y => { y with age := none }).modVote t dir fun v => { v with votes := 0 }
    else s)

/-- Live and probation neighbours of a tile. -/
def State.liveAround (s : State) (x : Nat) : List Nat :=
  (List.range 4).filterMap fun k => (neighbour x k).filter fun n => s.tileLive n

/-- The vote that a target's one live neighbour holds; with no live neighbour the firmware decides alone (R378). -/
def State.loneVote (s : State) (x : Nat) : Option Nat :=
  match s.liveAround x with
  | [] => some 1
  | [n] => (dirTo n x).map fun d => (s.vote n d).judge
  | _ => none

/-- FIRMWARE_REFERRAL (R378): the firmware has tested a tile with at most one live neighbour, and fences it or clears the vote; a readmit vote
of the one neighbour of a sheeted tile is decided likewise, by a readmit broadcast or by clearing the vote (R384, log 23). `fence` is 1 when
the test failed. -/
def execFirmwareReferral (x fence : Nat) (s : State) : Out :=
  let clear := fun (s : State) (of_ : Nat → Bool) => s.aroundTile x fun s n d => (s.modNeigh n d fun y => { y with age := none }).modVote n d fun v =>
    if of_ v.nst then { v with judge := 0, votes := 0 } else v
  let r := s.logEvent 15 x (s.ownerOf x) 0 0
  .next (match s.loneVote x with
    | some j =>
      if s.tileLive x ∧ (j = 1 ∨ j = 2) then (if fence = 1 then r.broadcast x 3 else clear r (· != 2))
      else if s.stOf x = 1 ∧ j = 3 then (if fence = 1 then clear r (· == 2) else r.broadcast x 0)
      else s
    | none => s)

/-! ### What a fence does (R278, R381 to R383) -/

/-- The first live tile of a launch's tile set after a tile, in increasing identifier, wrapping (R383). -/
def State.heir (s : State) (p l x : Nat) : Option Nat :=
  match s.launch p l with
  | none => none
  | some y =>
    let ts := setTiles y.tset
    ((ts.filter (x < ·)) ++ ts.filter (· < x)).find? s.tileLive

/-- A task of a fenced tile ends FAULTED (R383). -/
def State.loseTask (s : State) (p l : Nat) (a : Addr) (vt x : Nat) : State :=
  (s.noteFault p l cRESPF x a).endTask p l a vt stFAULTED 3

/-- A unit of a fenced tile becomes READY on the tile's heir when it is idempotent, and else ends FAULTED. -/
def State.relocate (s : State) (c : Ctx) (x : Nat) : State :=
  match (if c.idem then s.heir c.pid c.launch x else none), s.launch c.pid c.launch with
  | some u, some l =>
    let flag := match s.tcb c.pid l c.tcb with | .ok bs => bit (tcbFlags bs) 1 | .error _ => false
    (s.tcbPut c.pid l c.tcb 6 (toLE 1 stREADY)).pushEntry u
      { pid := c.pid, launch := c.launch, tcb := c.tcb, seq := c.seq, prio := c.prio, origin := c.origin, tready := s.plumb,
        nosteal := flag, tile := u, extra := c.extra }
  | _, _ => s.loseTask c.pid c.launch c.tcb c.vtile x

/-- The units resident or parked on a tile, and the entries that wait there, leave it (R383). Narrowing messages to its regions stay until
their senders' dies learn (R381). -/
def State.evacuate (s : State) (x : Nat) : State :=
  let here := (s.liveCtxs.filter fun tc => tc.1 == x).map (·.2)
  let owed := s.narrows.filter fun n => n.who.k.t == x && n.cause.k.t != x
  let s : State := { s with sunk := s.sunk.filter (fun e => e.1 != x) ++ here.map fun c => let y := s.getCtx x c; (x, y.pid, y.launch, y.vtile) }
  let r := here.foldl (fun s c =>
    let y := s.getCtx x c
    if y.exiting = 0 then ((s.strip x c).freeCtx x c).relocate y x
    else (s.freeCtx x c).leaveTask y.pid y.launch y.tcb y.vtile (if y.exitBad then 3 else 0) y.exitBad) s
  let r : State := { r with narrows := r.narrows ++ owed.filter fun n => !r.narrows.contains n }
  let r := (List.range 16).foldl (fun r p =>
    let mine := (r.getPart p).parked.filter fun y => y.tile == x
    mine.foldl (fun r y => (r.dropEntries p y.ctx.launch y.ctx.tcb).relocate y.ctx x)
      (r.modPart p fun q => { q with parked := q.parked.filter fun y => y.tile != x })) r
  let es := r.entriesOf x
  let r := (r.modTile x fun y => { y with deque := [] }).modDie (dieOf x) fun d =>
    { d with overflow := d.overflow.filter fun e => e.tile != x }
  es.foldl (fun r e =>
    match r.heir e.pid e.launch x with
    | some u => r.pushEntry u e
    | none => r.loseTask e.pid e.launch e.tcb x x) r

/-- The slices of a die take back grants of a tile and drop its waiting requests (R278); its REDs there are dropped (R277). -/
def State.revoke (s : State) (d x : Nat) : State :=
  let home := fun l => s.queueAgent l == s.agentOf d
  let r := { s with resvq := (SMap.map (fun l (q : List ResvReq) =>
    if home l then q.filter (fun (y : ResvReq) => y.who.t != x) else q) s.resvq).filter fun e => e.2 ≠ [] }
  let gone := fun (y : Red) => y.tile == x && (match y.at_ with | .pa a => home (lineOf a) | _ => d == dieOf x)
  (s.reds.filter gone).foldl (fun r y =>
    (r.noteRed y.pid y.launch cRESPF 0).modLaunch y.pid y.launch fun z => { z with count := z.count - 1 })
    { r with reds := s.reds.filter fun y => !gone y }

/-- Messages of a die's threads to a unit of a fenced tile, and collectives with a member there, come to an end (R381); no instruction waits for
the answer of a CALLAT return. -/
def State.respf (s : State) (d x : Nat) : State :=
  let mine := fun (m : Msg) => match m with
    | .append src _ pid launch _ dst _ _ => dieOf src.t == d && (s.sunk.contains (x, pid, launch, dst) ||
        match s.unitAt pid launch dst with | some u => u.1 == x | none => dst == x)
    | .callRet src _ tgt _ => dieOf src == d && tgt.tile == x
    | _ => false
  let r := (s.msgs.filter mine).foldl (fun r m => match m with
    | .append src pend _ _ _ _ _ _ => r.answer src pend 0 (some (cRESPF, 0))
    | _ => r) { s with msgs := s.msgs.filter fun m => !mine m }
  r.liveCtxs.foldl (fun r tc =>
    if dieOf tc.1 ≠ d then r
    else
      let hit := fun (g : Group) => g.members.contains (x, r.ownFab)
      let r := r.modCtx tc.1 tc.2 fun y =>
        { y with groups := SMap.map (fun _ g => if hit g then { g with lost := true } else g) y.groups }
      match (r.getCtx tc.1 tc.2).cu.q with
      | q :: _ =>
        (match (r.getCtx tc.1 tc.2).group q.g with
          | some g => if !q.isCopy && hit g then (r.spill tc.1 tc.2 q g).collEnd tc.1 tc.2 q true false else r
          | none => r)
      | [] => r) r

/-- A thread's access waits on a tile: for its unit, or at its scratchpad. -/
def Wait.onTile (w : Wait) (x : Nat) : Bool :=
  match w with
  | .remote vt => vt == x
  | .lds (.sram t _) | .wrs (.sram t _) _ _ | .join (.sram t _) _ => t == x
  | _ => false

/-- Threads of a die whose access waits on a fenced tile issue it again, and it completes with RESPF (R381). -/
def State.respfRemote (s : State) (d x : Nat) : State :=
  s.mapThreads fun k y => if dieOf k.t = d ∧ k.t ≠ x ∧ y.wait.onTile x then { y with wait := .none } else y

/-- Narrowing messages of a die's regions to those of a fenced tile complete with RESPF as the die learns, and the senders' regions abort with
LOST (R290, R381). -/
def State.lostParties (s : State) (d x : Nat) : State :=
  let hit := fun (n : Narrow) => n.who.k.t == x && n.cause.k.t != x && dieOf n.cause.k.t == d
  (s.narrows.filter hit).foldl (fun s n => s.markId n.cause 9) { s with narrows := s.narrows.filter fun n => !hit n }

/-- The neighbours of a fenced tile, and those of their other neighbours who count its vote (R377, R386). -/
def State.unvote (s : State) (x : Nat) : State :=
  let r := s.aroundTile x fun s n d => (s.modNeigh n d fun y => { judged := y.judged }).modVote n d fun v =>
    if v.nst = 0 then v else { v with nst := 2, judge := 0, votes := 0, miss := 0 }
  (List.range 4).foldl (fun s k =>
    match neighbour x k with
    | none => s
    | some y => s.aroundTile y fun s z d =>
      (s.modVote z d fun v => { v with livemap := andNot v.livemap (back k), votes := andNot v.votes (back k) }).takeQuorum z d) r

/-- The die of a fenced tile learns of the fence (R379 to R383): X is sheeted, for good if it was on probation (R384). -/
def State.fenceHome (s : State) (x cause : Nat) : State :=
  if s.stOf x = 1 ∨ s.stOf x = 3 then s
  else
    let was := s.stOf x
    let r := s.setSt x (if was = 2 then 3 else 1)
    let r := r.modTile x fun y =>
      { y with
        fencest := BitVec.ofNat 64 (y.fencest.toNat / 16 * 16 + cause % 4 * 4 + y.fencest.toNat % 4)
        fifo := [], lath := { y.lath with bist := false, appeal := none, told := [] } }
    let r := (r.evacuate x).unvote x
    let r := (r.modDie (dieOf x) fun d => { d with nsheet := d.nsheet + 1, lastid := x }).logEvent 5 x (r.ownerOf x) 0 0
    if was = 2 then r.permanent x else r

/-- A readmitted tile is on probation (R384). -/
def State.readmitHome (s : State) (x : Nat) : State :=
  if s.stOf x ≠ 1 then s
  else
    let r := (s.setSt x 2).modLath x fun l => { l with bist := false, appeal := none, told := [], prob := s.plumb, hseq := [], sent := [] }
    let r := r.aroundTile x fun s n d => (s.modNeigh n d fun y => { judged := y.judged }).modVote n d fun v =>
      if v.nst = 0 then v else { v with nst := 3, judge := 0, votes := 0, miss := 0 }
    let r := (List.range 4).foldl (fun s k =>
      match neighbour x k with
      | none => s
      | some y => s.aroundTile y fun s z d => s.modVote z d fun v => { v with livemap := orBit v.livemap (back k) }) r
    let r : State := { r with sunk := r.sunk.filter fun e => e.1 != x }
    (r.modDie (dieOf x) fun d => { d with nsheet := d.nsheet - 1 }).logEvent 6 x (r.ownerOf x) 0 0

/-- FENCE_LEARN (R278, R378 to R384): a broadcast reaches a die. Broadcasts for one target merge; `cause` 0 is a readmission. -/
def execFenceLearn (die x cause : Nat) (s : State) : Out :=
  .next (if !(s.casts.any fun c => c.x == x && c.cause == cause && c.left.contains die) ||
      (cause == 0 && s.casts.any fun c => c.x == x && c.cause != 0 && c.left.contains die) then s
    else
      let r := { s with casts := (s.casts.map fun c =>
          if c.x = x ∧ c.cause = cause then { c with left := c.left.filter (· != die) } else c).filter fun c => !c.left.isEmpty }
      if cause = 0 then
        (r.modDie die fun d => { d with knows := d.knows.filter (· != x) }).tickFresh |> fun r => if die = dieOf x then r.readmitHome x else r
      else if (r.getDie die).knows.contains x then r
      else
        let r := (((r.modDie die fun d => { d with knows := d.knows ++ [x] }).respf die x).lostParties die x).revoke die x
        ((if die = dieOf x then r.fenceHome x cause else r).respfRemote die x).tickFresh)

/-- ORPHAN_DISCARD (R382): a message in flight from a tile whose fence its destination has learnt of, by its place among the
messages. -/
def execOrphanDiscard (n : Nat) (s : State) : Out :=
  .next (match s.msgs[n]? with
    | none => s
    | some m =>
      if !s.orphan m then s
      else (s.dropMsg n).orphaned m.to)

/-! ### BIST and appeals (R384, R385) -/

/-- BIST_RESULT (R385): a sheeted tile's self-test ends; a failure is recorded in the scrim map. -/
def execBistResult (t pass : Nat) (s : State) : Out :=
  .next (if s.stOf t ≠ 1 ∨ (s.getTile t).lath.bist ∨ (s.getTile t).lath.appeal.isSome then s
    else if pass = 1 then s.modLath t fun x => { x with bist := true, bistBad := false }
    else (s.modLath t fun x => { x with bistBad := true }).scrim t)

/-- APPEAL (R379, R384): to a neighbour that the fence left live, which begins to listen. -/
def execAppeal (t dir : Nat) (s : State) : Out :=
  let l := (s.getTile t).lath
  .next (match neighbour t dir with
    | none => s
    | some n =>
      if s.stOf t ≠ 1 ∨ l.bist = false ∨ SMap.get false l.told dir ∨ s.tileLive n = false then s
      else
        let first := l.appeal.isNone
        let r := s.modTile t fun x =>
          { x with
            lath := { x.lath with appeal := some (x.lath.appeal.getD s.plumb), told := SMap.put x.lath.told dir true }
            fencest := if first then BitVec.ofNat 64 (x.fencest.toNat - bits x.fencest.toNat 4 2 * 16 +
              Nat.min (bits x.fencest.toNat 4 2 + 1) 3 * 16) else x.fencest }
        let d := back dir
        if (s.vote n d).nst = 2 then
          (r.modNeigh n d fun _ => { listen := some 0, judged := r.periodNo n }).modVote n d fun v =>
            { v with napp := Nat.min 3 (v.napp + 1), miss := 0 }
        else r)

/-- PROBATION_END (R384): after 1,024 periods the tile is LIVE, and its neighbours record it so. -/
def execProbationEnd (t : Nat) (s : State) : Out :=
  .next (if s.stOf t = 2 ∧ (s.getTile t).lath.prob + 1024 * (s.getTile t).period ≤ s.plumb then
      (s.setSt t 0).aroundTile t fun s n d => s.modVote n d fun v => if v.nst = 3 then { v with nst := 1 } else v
    else s)

/-- APPEAL_TIMEOUT (R385): no quorum has formed within 64 periods of the APPEAL. -/
def execAppealTimeout (t : Nat) (s : State) : Out :=
  .next (match (s.getTile t).lath.appeal with
    | some p => if s.stOf t = 1 ∧ s.readmits t = false ∧ p + 64 * (s.getTile t).period ≤ s.plumb then s.appealFails t else s
    | none => s)

/-! ### The last step of a watchdog (R339) -/

/-- WATCHDOG_STEP3: each tile whose kill has not ended is sheeted by a broadcast of cause firmware, and its unit counts as
complete. -/
def State.wdog3 (s : State) (p q : Nat) : State :=
  match (s.getPart p).oldest q with
  | none => s
  | some l =>
    if !s.stopped && s.wdogDue p q 2 then
      ((s.unitsOf p l).foldl (fun s x =>
        let c := s.getCtx x.1 x.2
        match c.killed with
        | none => s
        | some (st, cause) =>
          let v := (((s.strip x.1 x.2).freeCtx x.1 x.2).endTask c.pid c.launch c.tcb c.vtile st (if st = stFAULTED then 3 else 2))
          (if st = stFAULTED then v.noteFault c.pid c.launch cause (v.killAddr cause c.launch) c.tcb else v).broadcast x.1 3) s).wdogNext p q 2
    else s

def execWatchdogStep3 (p q : Nat) (s : State) : Out := .next (s.wdog3 p q)

end Sys2Proof.Machine
end

