-- ==== Sys2Proof/Machine/Lineage.lean ====
section
/-! DEFINITION. The lineage instructions, opcodes 0x300 to 0x308, and the engines of REBASE and FLATTEN (R142 to R162). -/

namespace Sys2Proof.Machine

/-- Codes of LSTAT (R162). -/
abbrev lDEPTH : Nat := 1
abbrev lBUSY : Nat := 2
abbrev lSIZE : Nat := 3
abbrev lNOWIN : Nat := 4
abbrev lOVERLAP : Nat := 5
abbrev lMAPFULL : Nat := 6
abbrev lNOMAP : Nat := 7
abbrev lNOTANC : Nat := 8
abbrev lNONE : Nat := 9
abbrev lROOT : Nat := 10
abbrev lRANGE : Nat := 11

/-- What a lineage instruction comes to: a precise trap, or a state with its result, its success and its code. -/
inductive LinOut where
  | trap (c : Nat) (a : Addr)
  | ans (s : State) (d : Word) (ok : Bool) (code : Nat)

/-- `Fail` of R160. -/
def linFail (s : State) (code : Nat) : LinOut := .ans s 0 false code
def linOk (s : State) (d : Word := 0) : LinOut := .ans s d true 0

/-- The results of a lineage instruction reach `D`, `PD` and LSTAT (R158, R160). -/
def linGive (s : State) (op : Nat) (ds : List Reg) (d : Word) (ok : Bool) (code : Nat) : Res :=
  .done (({ s with thr := { s.thr with lstat := BitVec.ofNat 64 (code + 256 * op) } } : State).late
    (ds.map fun r => (r, match r with | .p _ => ofBool ok | _ => ofWord d)))

/-- A lineage instruction whose effect is `g`, with destinations `ds`. Redundant threads make it once, as a message (R393). -/
def lineage (s : State) (op : Nat) (f : FLin) (ds : List Reg) (g : State → LinOut) : Res :=
  let item := [op, f.fn, (s.rs f.a).toNat, (s.rs f.b 1).toNat, (s.rs f.c 2).toNat, (s.ra f.ar 3).toNat]
  if s.trails then
    match s.thr.lvq with
    | _ :: _ => s.takeCopy.into fun x =>
        linGive x.1 op ds (x.2.setWidth 64) (x.2.getLsbD 64) (bits x.2.toNat 72 8)
    | [] =>
      match s.compare 0 item with
      | .error (.done t) => .hold t.held_
      | .error e => e
      | .ok t => .hold t.held_
  else match g s with
  | .trap c a => .trap c a
  | .ans .. => (s.compare 0 item).into fun t =>
    match g t with
    | .trap c a => .trap c a
    | .ans u d ok code =>
      linGive (u.copyTo u.cur (BitVec.ofNat 1024 (fields [(0, d.toNat), (64, b2n ok), (72, code)]))) op ds d ok code

/-- A node operand (R160): its node, or the trap. -/
def State.nodeArg (s : State) (n : Nat) : Except (Nat × Addr) Node :=
  match (s.getPart s.ctx.pid).node n with
  | none => .error (cLNODE, BitVec.ofNat 72 n)
  | some x => if x.hidden then .error (cLHIDDEN, BitVec.ofNat 72 n) else .ok x

/-- A node operand, and what is done with it. -/
def withNode (s : State) (n : Nat) (g : Node → LinOut) : LinOut :=
  match s.nodeArg n with
  | .error (c, a) => .trap c a
  | .ok x => g x

/-- The first identifier from `n` on, in a round of 2^32 − 1, that may be given out; none when `fuel` of them may not. -/
def Partn.findId (p : Partn) : Nat → Nat → Option Nat
  | 0, _ => none
  | fuel + 1, n => if p.idTaken n then p.findId fuel (n % (2 ^ 32 - 1) + 1) else some n

/-- A new node of a partition under an identifier that the DV-1 chooses (R142); none when the pool has no room (R146). -/
def Partn.addNode (p : Partn) (seed : Nat) (x : Node) : Option (Partn × Nat) :=
  match p.findId (Nat.min (p.nodes.length + p.freed.length + 1) (2 ^ 32 - 1)) (seed % (2 ^ 32 - 1) + 1) with
  | none => none
  | some n =>
    let q : Partn := { (p.setNode n x) with given := p.given + 1, freed := SMap.erase p.freed n }
    if q.poolUsed ≤ q.poolSize then some (q, n) else none

/-- LNEW. -/
def linNew (s : State) (size : Nat) : LinOut :=
  if size % 64 ≠ 0 ∨ size < 64 ∨ 2 ^ 36 < size then linFail s lSIZE
  else match (s.getPart s.ctx.pid).addNode (Config.nodeSeed s.fresh) { blocks := size / 64, parent := 0 } with
  | none => .trap cLPOOL 0
  | some (q, n) => linOk (s.setPart s.ctx.pid q) (BitVec.ofNat 64 n)

def execLnew (k : Ctl) (f : FLin) (s : State) : Out :=
  run 0x300 k [.s f.d, .s f.a]
    (fun s => lineage s 0x300 f [.s f.d, .p f.pd] fun s => linNew s (s.rs f.a).toNat) s

/-- A window in pages of 64 KiB. -/
def windowSize (x : Node) : Nat := (64 * x.blocks + 0xFFFF) / 0x10000 * 0x10000

/-- A page of a window carries the LIN attribute of the issuer's partition (R156, R160). -/
def State.linPage (s : State) (va : Nat) : Bool :=
  match s.walk (dieOf s.cur.t) s.ctx.pid s.thr.priv s.ctx.ptbr.toNat va with
  | some (_, e) => bit e 9 && bits e 12 4 == s.ctx.pid
  | none => false

/-- LMAP. -/
def linMap (s : State) (va n : Nat) (rw : Bool) : LinOut :=
  if va % 0x10000 ≠ 0 then .trap cMISALIGN (BitVec.ofNat 72 va)
  else withNode s n fun x =>
    let p := s.getPart s.ctx.pid
    let w := windowSize x
    let space := s.ctx.ptbr.toNat
    let mine := p.binds.filter fun b => b.space == space
    if !(List.range (w / 0x10000)).all fun j => s.linPage (va + 0x10000 * j) then linFail s lNOWIN
    else if mine.any fun b => match p.node b.node with
        | some y => va < b.base + windowSize y && b.base < va + w
        | none => false
      then linFail s lOVERLAP
    else if 1024 ≤ mine.length then linFail s lMAPFULL
    else linOk (s.setPart s.ctx.pid { p with binds := p.binds ++ [{ space := space, base := va, node := n, rw := rw }] })

def execLmap (k : Ctl) (f : FLin) (s : State) : Out :=
  run 0x301 k [.s f.a]
    (fun s => lineage s 0x301 f [.p f.pd] fun s => linMap s (s.ra f.ar 3).toNat (s.rs f.a).toNat (f.fn == 0)) s

/-- Regions that have stored to a node and are not committed are to abort with RSTRONG: what they hold was accepted through a state of
the node that is no longer so (R150, R157, R294, log 79). -/
def State.strongNode (s : State) (pid n : Nat) (on_ : Key → Bool := fun _ => true) : State :=
  let hit := fun (r : Region) => r.buf.any fun e => (linOf e.1).any fun x => x.1 == pid && x.2.1 == n
  s.mapThreads fun k x => if on_ k && x.region.any hit then x.markRegion 5 else x

/-- LUNMAP. -/
def linUnmap (s : State) (va : Nat) : LinOut :=
  let p := s.getPart s.ctx.pid
  let hit := fun (b : Bind) => b.space == s.ctx.ptbr.toNat && b.base == va
  let same := fun (k : Key) => (s.getCtx k.t k.c).ptbr == s.ctx.ptbr
  match p.binds.find? hit with
  | some b =>
    linOk ((s.setPart s.ctx.pid { p with binds := p.binds.filter fun b => !hit b }).strongNode s.ctx.pid b.node same)
  | none => linFail s lNOMAP

def execLunmap (k : Ctl) (f : FLin) (s : State) : Out :=
  run 0x302 k [] (fun s => lineage s 0x302 f [.p f.pd] fun s => linUnmap s (s.ra f.ar 3).toNat) s

/-- FORK. -/
def linFork (s : State) (n : Nat) : LinOut :=
  withNode s n fun x =>
    let p := s.getPart s.ctx.pid
    if x.busy.isSome then linFail s lBUSY
    else if 15 ≤ p.depth chainMax n then linFail s lDEPTH
    else match (p.setNode n { x with kids := x.kids + 1 }).addNode (Config.nodeSeed s.fresh) { blocks := x.blocks, parent := n } with
    | none => .trap cLPOOL (BitVec.ofNat 72 n)
    | some (q, c) => linOk ((s.setPart s.ctx.pid q).strongNode s.ctx.pid n) (BitVec.ofNat 64 c)

def execFork (k : Ctl) (f : FLin) (s : State) : Out :=
  run 0x303 k [.s f.d, .s f.a]
    (fun s => lineage s 0x303 f [.s f.d, .p f.pd] fun s => linFork s (s.rs f.a).toNat) s

/-- The sync object of REBASE and FLATTEN: the trap of a bad offset, else the offset, none for .NS (R160). -/
def State.linSync (s : State) (f : FLin) : Except (Nat × Addr) (Option Nat) :=
  if f.fn = 1 then .ok none
  else
    let a := s.ra f.ar 3
    match s.ctx.objectBad a with
    | some c => .error (c, a)
    | none => .ok (some a.toNat)

/-- A signal to the issuer's own object (R153, R197). -/
def State.signalOwn (s : State) (o : Option Nat) : State :=
  match o with
  | none => s
  | some off => s.syncAdd s.cur.t (s.ctx.ubase + off) 1

/-- A node becomes busy: its engine runs towards a target, which gains a child, and its launch's counter rises (R153, R155). -/
def State.startEngine (s : State) (n : Nat) (x : Node) (target : Nat) (o : Option Nat) : State :=
  let p := s.getPart s.ctx.pid
  let e : Engine := { target := target, sync := o.map fun off => (s.ctx.vtile, off), launch := s.ctx.launch }
  let q := p.setNode n { x with busy := some e }
  let q := match q.node target with
    | some y => q.setNode target { y with kids := y.kids + 1 }
    | none => q
  let q := match SMap.find q.launches s.ctx.launch with
    | some l => { q with launches := SMap.put q.launches s.ctx.launch { l with count := l.count + 1 } }
    | none => q
  s.setPart s.ctx.pid q

/-- A proper ancestor of a node. -/
def Partn.above (p : Partn) (g n : Nat) : Bool := g != n && g != 0 && (p.path g chainMax n).isSome

/-- REBASE. -/
def linRebase (s : State) (f : FLin) (n g : Nat) : LinOut :=
  match s.linSync f with
  | .error (c, a) => .trap c a
  | .ok o => withNode s n fun x => withNode s g fun _ =>
    let p := s.getPart s.ctx.pid
    if x.busy.isSome then linFail s lBUSY
    else if x.parent = 0 then linFail s lROOT
    else if !p.above g n then linFail s lNOTANC
    else if x.parent = g then linOk (s.signalOwn o)
    else linOk (s.startEngine n x g o)

def execRebase (k : Ctl) (f : FLin) (s : State) : Out :=
  run 0x304 k [.s f.a, .s f.b]
    (fun s => lineage s 0x304 f [.p f.pd] fun s => linRebase s f (s.rs f.a).toNat (s.rs f.b 1).toNat) s

/-- FLATTEN. -/
def linFlatten (s : State) (f : FLin) (n : Nat) : LinOut :=
  match s.linSync f with
  | .error (c, a) => .trap c a
  | .ok o => withNode s n fun x =>
    if x.busy.isSome then linFail s lBUSY
    else if x.parent = 0 then linOk (s.signalOwn o)
    else linOk (s.startEngine n x 0 o)

def execFlatten (k : Ctl) (f : FLin) (s : State) : Out :=
  run 0x305 k [.s f.a]
    (fun s => lineage s 0x305 f [.p f.pd] fun s => linFlatten s f (s.rs f.a).toNat) s

/-- DROP. -/
def linDrop (s : State) (n : Nat) : LinOut :=
  withNode s n fun x =>
    if x.busy.isSome then linFail s lBUSY
    else
      let p := s.getPart s.ctx.pid
      let q := { p with binds := p.binds.filter fun b => b.node != n }
      linOk ((s.setPart s.ctx.pid (if x.kids ≠ 0 then q.setNode n { x with hidden := true }
        else (q.freeNode n).loseChild chainMax x.parent)).strongNode s.ctx.pid n)

def execDrop (k : Ctl) (f : FLin) (s : State) : Out :=
  run 0x306 k [.s f.a]
    (fun s => lineage s 0x306 f [.p f.pd] fun s => linDrop s (s.rs f.a).toNat) s

/-- The state word of LNQ.STATE (R161). -/
def Partn.stateWord (p : Partn) (n : Nat) (x : Node) : Nat :=
  fields [(0, if x.hidden then 2 else 1), (2, b2n (x.kids != 0)), (3, b2n x.busy.isSome), (4, x.last),
    (6, b2n (p.binds.any fun b => b.node == n)), (8, p.depth chainMax n)]

/-- LNQ: the answer and the code (R161). -/
def linQuery (s : State) (q n b : Nat) : LinOut :=
  let p := s.getPart s.ctx.pid
  let give := fun v => linOk s (BitVec.ofNat 64 v)
  match p.node n with
  | none => give (if q = 5 ∧ n = 0 then p.poolSize - p.poolUsed else 0)
  | some x =>
    match q with
    | 0 => give x.parent
    | 1 => give (p.depth chainMax n)
    | 2 => give (64 * x.blocks)
    | 3 => give (p.stateWord n x)
    | 4 => give x.kids
    | 5 => give x.bytes
    | 6 => if b < x.blocks then give (SMap.get 0 x.kinds b) else .ans s 0 true lRANGE
    | _ => give (match x.busy with | some e => e.cursor | none => 0)

def execLnq (k : Ctl) (f : FLin) (s : State) : Out :=
  run 0x307 k [.s f.d, .s f.a, .s f.b]
    (fun s => lineage s 0x307 f [.s f.d] fun s => linQuery s f.fn (s.rs f.a).toNat (s.rs f.b 1).toNat) s

/-- The smallest block index from `i` on at which a node of a path has a kind other than SAME. -/
def Partn.firstDiff (p : Partn) (path : List Nat) (i : Nat) : Option Nat :=
  (path.flatMap fun n => match p.node n with
    | some x => (x.kinds.filter fun e => i ≤ e.1 && e.1 < x.blocks).map (·.1)
    | none => []).min?

/-- LDIFF. -/
def linDiff (s : State) (n g c : Nat) : LinOut :=
  withNode s n fun x =>
    let go := fun (_ : Node) =>
      let p := s.getPart s.ctx.pid
      if x.busy.isSome then linFail s lBUSY
      else match p.path g chainMax n with
        | none => linFail s lNOTANC
        | some path =>
          match p.firstDiff path c with
          | some i => linOk s (BitVec.ofNat 64 i)
          | none => .ans s (BitVec.ofNat 64 x.blocks) false lNONE
    if g = 0 then go x else withNode s g go

def execLdiff (k : Ctl) (f : FLin) (s : State) : Out :=
  run 0x308 k [.s f.d, .s f.a, .s f.b, .s f.c]
    (fun s => lineage s 0x308 f [.s f.d, .p f.pd]
      fun s => linDiff s (s.rs f.a).toNat (s.rs f.b 1).toNat (s.rs f.c 2).toNat) s

/-! ### The engines (R153 to R155) -/

/-- One block of a busy node is recomposed against the target; when the pool cannot supply it, the undo begins. -/
def Partn.recompose (p : Partn) (n : Nat) : Partn :=
  match p.node n with
  | none => p
  | some x =>
    match x.busy with
    | none => p
    | some e =>
      let b := e.cursor
      if e.undo ∨ x.blocks ≤ b then p
      else
        let v := p.blockOf n b
        let kOld := SMap.get 0 x.kinds b
        let vOld := SMap.get 0 x.pays b
        let e' := { e with cursor := b + 1, kindsOld := SMap.set 0 e.kindsOld b kOld, paysOld := SMap.set 0 e.paysOld b vOld }
        let y := { (x.setBlock b (encodeBlock v (p.parentVal e.target b))) with busy := some e' }
        let q := p.setNode n y
        if p.supplies q then p.keepBad q n [b] fun _ => false
        else p.setNode n { x with busy := some { e with undo := true } }

/-- LINEAGE_BLOCK_RECOMPOSE. -/
def execLineageBlockRecompose (p node : Nat) (s : State) : Out := .next (s.setPart p ((s.getPart p).recompose node))

/-- LINEAGE_UNDO: one block goes back to its encoding against the old parent (R155). -/
def Partn.undoBlock (p : Partn) (n : Nat) : Partn :=
  match p.node n with
  | none => p
  | some x =>
    match x.busy with
    | none => p
    | some e =>
      if e.undo = false ∨ e.cursor = 0 then p
      else
        let b := e.cursor - 1
        let y := x.setBlock b (SMap.get 0 e.kindsOld b, SMap.get 0 e.paysOld b)
        let e' := { e with cursor := b, kindsOld := SMap.erase e.kindsOld b, paysOld := SMap.erase e.paysOld b }
        p.keepBad (p.setNode n { y with busy := some e' }) n [b] fun _ => false

def execLineageUndo (p node : Nat) (s : State) : Out := .next (s.setPart p ((s.getPart p).undoBlock node))

/-- A lineage engine's signal (R153): to a resident unit's object, else it goes as traffic to a non-resident unit (R155, R336). -/
def State.engineSignal (s : State) (pid launch vt off : Nat) : State :=
  match s.unitAt pid launch vt with
  | some (t, c) => s.syncAdd t ((s.getCtx t c).ubase + off) 1
  | none =>
    let m : Away :=
      { pid := pid, launch := launch, vtile := vt, off := off, bytes := [], sync := off, amt := 1, signal := true, src := 4096 }
    { s with away := s.away ++ [m] }

/-- LINEAGE_OP_END: the operation has reached its last block, or its undo the first (R153, R155). -/
def State.engineEnd (s : State) (p n : Nat) : State :=
  let q := s.getPart p
  match q.node n with
  | none => s
  | some x =>
    match x.busy with
    | none => s
    | some e =>
      let undone := e.undo && e.cursor == 0
      if !undone && (e.undo || e.cursor != x.blocks) then s
      else
        let y := if undone then { x with busy := none, last := 1 } else { x with busy := none, last := 0, parent := e.target }
        let r := (q.setNode n y).loseChild chainMax (if undone then e.target else x.parent)
        let r := match SMap.find r.launches e.launch with
          | some l => { r with launches := SMap.put r.launches e.launch { l with count := l.count - 1 } }
          | none => r
        let t := s.setPart p r
        match e.sync with
        | none => t
        | some (vt, off) => t.engineSignal p e.launch vt off

def execLineageOpEnd (p node : Nat) (s : State) : Out := .next (s.engineEnd p node)

end Sys2Proof.Machine
end

