-- ==== Sys2Proof/Machine/Lines.lean ====
section
/-! DEFINITION. The steps by which lines move: leases, stores on their way, the home's transactions and the host's, evictions,
and host snoops of host lines (R236 to R251, R426). -/

namespace Sys2Proof.Machine

/-! ### Leases -/

/-- LEASE_GRANT (R236, R237): the slice fetches the line when its die has no copy, and grants a lease. -/
def execLeaseGrant (t line : Nat) (s : State) : Out :=
  .next (s.leaseTo t line)

/-- LEASE_EXPIRY (R236): a copy that can serve no load is gone. -/
def execLeaseExpiry (t line : Nat) (s : State) : Out :=
  .next (match SMap.find (s.getTile t).copies line with
    | some c => if c.till ≤ s.plumb + 2 then s.modTile t fun x => { x with copies := SMap.erase x.copies line } else s
    | none => s)

/-! ### Stores on their way -/

/-- FIFO_SEND (R238): the oldest entry, with what has merged into it, goes to its line's slice; a marker lets nothing pass. -/
def execFifoSend (t : Nat) (s : State) : Out := .next (s.sendRun t)

/-- Everything of the tile that has left the FIFO is performed at a scope (R238, R239). -/
def State.sentPerformed (s : State) (t scope : Nat) : Bool :=
  let d := s.getDie (dieOf t)
  (d.waitSt.all fun x => x.tile != t) && s.pendPerformed t scope &&
  s.reds.all fun r => r.tile != t

/-- RELEASE_MARKER_ACK (R238, R283): every entry older than the marker is performed at its scope; a fence that waits for it
completes. -/
def execReleaseMarkerAck (t : Nat) (s : State) : Out :=
  .next (match (s.getTile t).fifo with
    | .marker scope o :: r =>
      if s.sentPerformed t scope then (s.modTile t fun y => { y with fifo := r }).finish o else s
    | _ => s)

/-- The bytes of a store from one on. -/
def Store.cut (x : Store) (i n : Nat) : Store := { x with a := x.a + i, bytes := (x.bytes.drop i).take n }

/-- What is performed of a store in one step, and what is left of it: all, or, of a store that is not seen as a whole, any bytes in a row
(R229). -/
def Store.part (x : Store) (n : Nat) : Store × List Store :=
  let k := x.bytes.length
  if x.whole ∨ k ≤ 1 then (x, [])
  else
    let i := (Config.freeWord n 0).toNat % k
    let m := 1 + (Config.freeWord n 1).toNat % (k - i)
    (x.cut i m, ([x.cut 0 i, x.cut (i + m) (k - i - m)]).filter fun y => y.bytes ≠ [])

/-- What is performed next of the first store of a list on a line, and the list without it. -/
def takeOn (l n : Nat) : List Store → Option (Store × List Store)
  | [] => none
  | x :: r => if lineOf x.a = l then some ((x.part n).1, (x.part n).2 ++ r) else (takeOn l n r).map fun e => (e.1, x :: e.2)

/-- STORE_PERFORM_AT_SLICE (R229, R237, R239, R273): once every lease has lapsed and no atomic holds the line. -/
def execStorePerformAtSlice (d line : Nat) (s : State) : Out :=
  .next (match takeOn line s.fresh (s.getDie d).waitSt with
    | some (x, r) =>
      if (s.getDie d).leased s.plumb line || s.underHold line then s
      else ({ (s.modDie d fun y => { y with waitSt := r }) with fresh := s.fresh + 1 } : State).performStore d x
    | none => s)

/-- A lease on the line runs on a die of this part other than `d`. -/
def State.leasedBeside (s : State) (d l : Nat) : Bool := (List.range 8).any fun e => e != d && (s.getDie e).leased s.plumb l

/-- OWNERSHIP_ARRIVAL (R239, R244, R245): the die that has pending bytes holds the line in M, taken from the other agents once
their leases have lapsed, and the bytes are merged in order. While the home has other requests in hand, or the host a copy, the die's request
waits its turn there. -/
def execOwnershipArrival (d line : Nat) (s : State) : Out :=
  .next (match (s.getDie d).pendB.find? fun x => lineOf x.a == line with
    | none => s
    | some x =>
      if (s.held (s.agentOf d) line).any fun h => h.st == .m || h.st == .e then s.mergePending d line
      else if !s.homeIdle line then
        s.ask line { kind := if (s.held (s.agentOf d) line).isSome then 2 else 1, ag := s.agentOf d, pid := x.pid, at_ := s.plumb }
      else if s.leasedBeside d line || s.underHold line then s
      else s.inM (s.agentOf d) line x.pid)

/-! ### Transactions at a home -/

/-- The agent is a die of the domain (R242). -/
def State.dieAgent (s : State) (ag : Nat) : Bool := ag < 64 && (ag / 8 == s.domPos || (bit s.members (ag / 8) && !bit s.lostParts (ag / 8)))

/-- A die of this part asks the host for ownership of a host line (R250): once no other die of the part has a lease on it. -/
def State.ownHost (s : State) (ag l : Nat) : State :=
  if ag / 8 ≠ s.domPos ∨ s.leasedBeside (ag % 8) l ∨ s.underHold l then s else s.inM ag l (s.askPid ag l true)

/-- A request of a die for a line of DRAM: it reaches the home, if it is not there yet, and the home takes the first that it can (R244). -/
def State.askDram (s : State) (ag line kind : Nat) : State :=
  s.ask line { kind := kind, ag := ag, pid := s.askPid ag line (kind != 0), at_ := s.plumb }

/-- RDS (R244): an agent that does not hold the line asks to share it. -/
def execRds (ag line : Nat) (s : State) : Out :=
  .next (if !s.dieAgent ag || (s.held ag line).isSome then s.takeUp line
    else if isDram (128 * line) then s.askDram ag line 0
    else if isHost (128 * line) then s.fillShared ag line (s.askPid ag line false)
    else s)

/-- RDX (R244): an agent that does not hold the line asks to own it. -/
def execRdx (ag line : Nat) (s : State) : Out :=
  .next (if !s.dieAgent ag || (s.held ag line).isSome then s.takeUp line
    else if isDram (128 * line) then s.askDram ag line 1
    else if isHost (128 * line) then s.ownHost ag line
    else s)

/-- UPG (R244, R248): an agent in S or O asks to own the line. When the entry no longer records it, or it holds the line
compressed, the request is served as RdX. -/
def execUpg (ag line : Nat) (s : State) : Out :=
  .next (if !s.dieAgent ag || !(s.held ag line).any (fun h => h.st == .s || h.st == .o) then s.takeUp line
    else if isDram (128 * line) then s.askDram ag line 2
    else if isHost (128 * line) then s.ownHost ag line
    else s)

/-- WB (R242, R244): a write-back of an agent reaches the home. The recorded owner's is written; another is stale. -/
def execWb (ag line : Nat) (s : State) : Out :=
  .next (match SMap.find (SMap.get [] s.wbufs ag) line with
    | none => s
    | some (h, taken) =>
      if (SMap.find s.txns line).isSome then s
      else
        let r : State := { s with wbufs := SMap.set [] s.wbufs ag (SMap.erase (SMap.get [] s.wbufs ag) line) }
        let e := s.entry line
        if taken then r
        else if isHost (128 * line) then { r with mem := Memory.write r.mem (128 * line) (getBytes h.data 0 128) }
        else if 2 ≤ e.dst ∧ e.own = ag then
          ({ r with mem := Memory.write r.mem (128 * line) (getBytes h.data 0 128) } : State).setEntry line
            { e with dst := if e.shv = 0 then 0 else 1, own := 0 }
        else r)

/-! ### Probes -/

/-- The probe that a transaction sends an agent: 0 PrS, 1 PrI or BI, 2 PrX (R244, R246). -/
def State.probeOf (s : State) (l : Nat) (x : Txn) (ag : Nat) : Nat :=
  let e := s.entry l
  if x.kind = 0 ∨ x.kind = 4 then 0 else if (x.kind = 1 ∨ 5 ≤ x.kind) ∧ 2 ≤ e.dst ∧ e.own = ag then 2 else 1

/-- An agent answers a probe (R245): of a kind that removes the line only once its die's leases have lapsed, and at the home
slice not while the line has a reservation queue, for which it holds the line in M (R273). -/
def State.answerProbe (s : State) (kind ag l : Nat) : State :=
  match SMap.find s.txns l with
  | none => s
  | some x =>
    if !x.await.contains ag || s.probeOf l x ag != kind || !s.present ag l x.pid then s
    else if kind ≠ 0 ∧ ag / 8 = s.domPos ∧ (s.getDie (ag % 8)).leased s.plumb l then s
    else if ag = s.queueAgent l ∧ SMap.get [] s.resvq l ≠ [] then s
    else (if kind = 0 then s.lower ag l else s.giveUp ag l).checkTxn l { x with await := x.await.filter (· != ag) }

/-- PRS, PRI and PRX (R245). -/
def execPrs (ag line : Nat) (s : State) : Out := .next (s.answerProbe 0 ag line)
def execPri (ag line : Nat) (s : State) : Out := .next (s.answerProbe 1 ag line)
def execPrx (ag line : Nat) (s : State) : Out := .next (s.answerProbe 2 ag line)

/-- NOT_PRESENT_ANSWER (R245, R247, R348): 40 cycles after the probe, an agent that holds nothing under its identifier. -/
def execNotPresentAnswer (ag line pid : Nat) (s : State) : Out :=
  .next (match SMap.find s.txns line with
    | none => s
    | some x =>
      if x.await.contains ag ∧ x.pid = pid ∧ s.present ag line pid = false ∧ x.since + 40 ≤ s.plumb then
        s.checkTxn line { x with await := x.await.filter (· != ag), absent := x.absent ++ [ag] }
      else s)

/-- A request at a bank needs an entry that the bank's set may not have: which set keeps a line is not given (log 84). -/
def State.wantsEntry (s : State) (b : Nat) : Bool :=
  16 ≤ s.bankUsed b && s.homeq.any fun e => bankOf e.1 == b && (e.2.head?).any fun q => q.needs s e.1

/-- SNOOP_FILTER_VICTIM (R246): an entry is to be freed for a request that needs one at its bank. -/
def execSnoopFilterVictim (line : Nat) (s : State) : Out :=
  .next (if (SMap.find s.filter line).isSome && s.wantsEntry (bankOf line) then s.beginTxn line 3 64 (s.linePid line) else s)

/-! ### The host -/

/-- HOST_READ (R251): meta value S as RdS, A as RdX. -/
def execHostRead (pa mv : Nat) (s : State) : Out :=
  .next (if isDram pa then s.ask (lineOf pa) { kind := 4 + mv, ag := 64, pid := s.linePid (lineOf pa), at_ := s.plumb } else s)

/-- HOST_MEMWR (R240, R251): taken at once as the data of a snoop of its half, else performed at the home after its probes. -/
def execHostMemWr (pa data : Nat) (s : State) : Out :=
  let l := lineOf pa
  .next (if !isDram pa then s
    else if (SMap.find s.txns l).any fun x => x.host.contains (bits pa 6 1) then
      (List.range 8).foldl (fun r d => r.strong d l) (s.hostPut pa (toLE 64 data))
    else s.ask l { kind := 6, ag := 64, pid := s.linePid l, at_ := s.plumb, wr := some (pa, toLE 64 data) })

/-- BISNP_ANSWER (R250, R251): `rsp` 0 BIRspI, 1 BIRspS, 2 BIRspE. `H` is cleared when both halves answered BIRspI; a snoop
of the Inv kind leaves the host nothing to keep. -/
def execBisnpAnswer (pa rsp : Nat) (s : State) : Out :=
  let l := lineOf pa
  .next (match SMap.find s.txns l with
    | none => s
    | some x =>
      if !x.host.contains (bits pa 6 1) || (x.kind != 0 && rsp != 0) then s
      else
        let y := { x with host := x.host.filter (· != bits pa 6 1), hkeep := x.hkeep || rsp != 0 }
        let e := s.entry l
        (if y.host = [] then ({ s with filter := SMap.put s.filter l { e with h := y.hkeep } } : State) else s).checkTxn l y)

/-- A host snoop of a host line acts on the agents of this part (R249, R250): SnpData leaves S, SnpInv leaves nothing, SnpCur
changes nothing. -/
def State.snoopHost (s : State) (l kind : Nat) : State :=
  if kind = 2 then s
  else if kind = 1 ∧ ((List.range 8).any fun d => (s.getDie d).leased s.plumb l) then s
  else
    let r := (List.range 8).foldl (fun s d =>
      let ag := s.agentOf d
      if kind = 1 then s.giveUp ag l
      else match s.held ag l with
        | none => s.giveUp ag l
        | some h =>
          let r : State := { s with mem := if h.st = .m ∨ h.st = .o then Memory.write s.mem (128 * l) (getBytes h.data 0 128) else s.mem }
          let r := r.setHeld ag l (some { h with st := .s })
          if h.st = .s then r else (r.wakeLine (some d) (none, l)).strong d l) s
    { r with hostWait := SMap.erase r.hostWait l }

/-- HOST_SNOOP (R249, R250, R426): while the line has a reservation queue, a snoop that removes or downgrades it waits. -/
def execHostSnoop (pa kind : Nat) (s : State) : Out :=
  let l := lineOf pa
  .next (if !isHost pa then s
    else if kind ≠ 2 ∧ SMap.get [] s.resvq l ≠ [] then
      (if (SMap.find s.hostWait l).isSome then s else { s with hostWait := SMap.put s.hostWait l kind })
    else s.snoopHost l kind)

/-- HOST_LINE_SNOOP_ANSWER (R426): between a release and the next grant. -/
def execHostLineSnoopAnswer (line : Nat) (s : State) : Out :=
  .next (match SMap.find s.hostWait line with
    | none => s
    | some n => if ((SMap.get [] s.resvq line)[0]?).any fun q => q.granted then s else s.snoopHost line (n % 4))

/-! ### Evictions -/

/-- A line that an active region's footprint or a reservation keeps at a die (R273, R294). -/
def State.pinned (s : State) (d l : Nat) : Bool :=
  !(SMap.get [] s.resvq l).isEmpty || ((s.getDie d).parties.any fun p => p.line == l)

/-- A tile's copy of a line goes to another member's portion of its formed group's cache (R261, log 83). -/
def State.moveCopy (s : State) (t l : Nat) : State :=
  match SMap.find (s.getTile t).copies l, (s.cacheGroup t).find? (· != t) with
  | some c, some u =>
    if (s.ownStores t).any fun y => lineOf y.a == l then s
    else (s.modTile t fun x => { x with copies := SMap.erase x.copies l }).modTile u fun x => { x with copies := SMap.put x.copies l c }
  | _, _ => s

/-- LINE_EVICTION (R236, R237, R241, R242): 0 a tile drops a copy, 1 an agent drops a line in S or E, 2 one in M or O goes to
its write-back buffer, 3 the replicas in the slice beside a tile go, 4 a slice drops its record of a line that no active region holds (R292,
log 80), 5 a tile's copy goes to its group's cache elsewhere. The monitors of a line that a die drops wake (R282). -/
def execLineEviction (kind ag line : Nat) (s : State) : Out :=
  .next (match kind with
    | 0 => s.modTile ag fun x => { x with copies := SMap.erase x.copies line }
    | 3 => s.dropReplicas ag line
    | 5 => s.moveCopy ag line
    | 4 => s.modDie (ag % 8) fun x => if x.parties.any fun p => p.line == line then x else x.dropRecord line
    | _ =>
      match s.held ag line with
      | none => s
      | some h =>
        let dirty := h.st = .m ∨ h.st = .o
        let woken := if ag / 8 = s.domPos then s.wakeLine (some (ag % 8)) (none, line) else s
        if ag / 8 = s.domPos ∧ ((s.getDie (ag % 8)).leased s.plumb line ∨ s.pinned (ag % 8) line) then s
        else if dirty ∧ kind = 2 then
          ({ woken with wbufs := SMap.set [] s.wbufs ag (SMap.put (SMap.get [] s.wbufs ag) line (h, false)) } : State).setHeld ag line none
        else if !dirty ∧ kind = 1 then woken.setHeld ag line none
        else s)

end Sys2Proof.Machine
end

