-- ==== Sys2Proof/Machine/Memory.lean ====
section
/-! DEFINITION. The memory group, opcodes 0x100 to 0x122, and ICINV (R100, R262 to R271). -/

namespace Sys2Proof.Machine

/-- LD and LDQ (R264). -/
def loadWord (s : State) (f : FM) (repl : Bool) : Res :=
  (s.load (s.ea f) (szBytes f.sz) 1 repl f.ordq).into fun g =>
    g.late [(.s f.d, ofWord (extend f.sz (ofLE g.bs)))] fun u => { u with ext := some f.sz }

def execLd (k : Ctl) (f : FM) (s : State) : Out := run 0x100 k [.s f.d, .s f.idx] (fun s => loadWord s f false) s
def execLdq (k : Ctl) (f : FM) (s : State) : Out := run 0x104 k [.s f.d, .s f.idx] (fun s => loadWord s f true) s

/-- ST and STQ (R264). -/
def storeWord (s : State) (f : FM) (drop : Bool) : Res :=
  s.storeAt (s.ea f) (toLE (szBytes f.sz) (s.rs f.d).toNat) f.ordq 1 drop

def execSt (k : Ctl) (f : FM) (s : State) : Out := run 0x101 k [.s f.d, .s f.idx] (fun s => storeWord s f false) s
def execStq (k : Ctl) (f : FM) (s : State) : Out := run 0x105 k [.s f.d, .s f.idx] (fun s => storeWord s f true) s

/-- LDA.Q (R264): bits [71:0] of the pointer. -/
def loadPtr (s : State) (f : FM) : Res :=
  (s.load (s.ea f) 16 16 false f.ordq).into fun g => g.late [(.a f.d, ofAddr (BitVec.ofNat 72 (ofLE g.bs)))]

def execLda (k : Ctl) (f : FM) (s : State) : Out := run 0x102 k [.s f.idx] (fun s => loadPtr s f) s
def execSta (k : Ctl) (f : FM) (s : State) : Out :=
  run 0x103 k [.s f.idx] (fun s => s.storeAt (s.ea f) (toLE 16 (s.ra f.d 3).toNat) f.ordq 16) s

/-- Puts the result of a met wait into an s register. -/
def takeRetry (s : State) (d : Nat) (v : Word) : Res :=
  .done (({ s with thr := { s.thr with retry := none } } : State).late [(.s d, ofWord v)])

/-- LDS (R266, R267): waits until the double is full; host memory, lineage pages and the register window are always full. -/
def loadSync (s : State) (f : FM) : Res :=
  match s.thr.retry with
  | some v => takeRetry (s.copyTo s.cur (ofWord v)) f.d v
  | none =>
    let ea := s.ea f
    (s.checkAll .r 8 [(ea, 8)]).into fun l =>
      let plain := (s.load ea 8 8 false f.ordq).into fun g => g.late [(.s f.d, ofWord (BitVec.ofNat 64 (ofLE g.bs)))]
      if s.trails then plain
      else match s.waits l, placeOf l with
      | some r, _ => r
      | none, .sram t b =>
        if SMap.get false (s.getTile t).empty (b / 8) then .hold { s with thr := { s.thr with wait := .lds (.sram t b) } } else plain
      | none, .pa a =>
        if isHost a then plain
        else if !s.homeReady s.cur.t (lineOf a) || s.sealedIn (allPieces l) || s.ordHeld f.ordq then .hold s.held_
        else if SMap.get false s.empty (a / 8) && !s.homeFailed a then .hold { s with thr := { s.thr with wait := .lds (.pa a) } }
        else
          let t := s.inM (homeAgent (lineOf a)) (lineOf a) s.ctx.pid
          let bs := t.homeBytes a 8
          ({ s := ((t.noteTlb s.me ea).spoilDests (allPieces l)).copyTo s.cur (BitVec.ofNat 1024 (ofLE bs)), bs := bs,
             bad := if s.poisoned (allPieces l) then some ea else none, why := s.badCause (allPieces l) : Got }).late
            [(.s f.d, ofWord (BitVec.ofNat 64 (ofLE bs)))]
      | none, _ => plain

def execLds (k : Ctl) (f : FM) (s : State) : Out := run 0x108 k [.s f.d, .s f.idx] (fun s => loadSync s f) s

/-- STF (R267): the data and the full bit in one step; elsewhere than in DRAM and scratchpads it is ST. -/
def storeFull (s : State) (f : FM) : Res :=
  let ea := s.ea f
  let v := s.rs f.d
  (s.checkAll .w 8 [(ea, 8)]).into fun l =>
    let plain := s.storeAt ea (toLE 8 v.toNat) f.ordq 8
    match s.waits l, placeOf l with
    | some r, _ => r
    | none, .sram t b =>
      if !s.mayPerform f.ordq then .hold s.held_
      else (s.compare ea [ea.toNat, 8, v.toNat]).into fun u =>
        .done (((((u.sramWrite t b (toLE 8 v.toNat)).spoilSources (.sram t b) 8).spoil t b 8).sramFull t (b / 8) 1 true).wakeLds (.sram t b) v)
    | none, .pa a =>
      if isHost a || s.homeFailed a then plain
      else if !s.homeReady s.cur.t (lineOf a) || !s.mayPerform f.ordq then .hold s.held_
      else (s.compare ea [ea.toNat, 8, v.toNat]).into fun u =>
        .done (((((u.homeStore s.ctx.pid a (toLE 8 v.toNat)).spoilMem a 8).setFull (a / 8) 1 true).wakeLds (.pa a) v).noteTlb s.me ea)
    | none, _ => plain

def execStf (k : Ctl) (f : FM) (s : State) : Out := run 0x109 k [.s f.d, .s f.idx] (fun s => storeFull s f) s

/-- SETE (R267): the bits of one double or of a line's 16 are set empty. -/
def setEmpty (s : State) (f : FM) : Res :=
  let n := szBytes f.sz
  let ea := s.ea f
  (s.checkAll .sete n [(ea, n)]).into fun l =>
    match s.waits l, placeOf l with
    | some r, _ => r
    | none, .sram t b =>
      if !s.mayPerform f.ordq then .hold s.held_
      else (s.compare ea [ea.toNat, n, 0x10A]).into fun u => .done (u.sramFull t (b / 8) (n / 8) false)
    | none, .pa a =>
      if s.homeFailed a then .done (s.late [] (some (cRESPF, ea)))
      else if !s.homeReady s.cur.t (lineOf a) || !s.mayPerform f.ordq then .hold s.held_
      else (s.compare ea [ea.toNat, n, 0x10A]).into fun u =>
        .done (((u.inM (homeAgent (lineOf a)) (lineOf a) s.ctx.pid).setFull (a / 8) (n / 8) false).noteTlb s.me ea)
    | none, _ => .done s

def execSete (k : Ctl) (f : FM) (s : State) : Out := run 0x10A k [.s f.idx] (fun s => setEmpty s f) s

/-- The full bits of `n` doubles from one on, as a number. -/
def fullBits (m : SMap Bool) (d n : Nat) : Nat := maskOf n fun j => !SMap.get false m (d + j)

/-- FEQ (R267). -/
def testFull (s : State) (f : FM) : Res :=
  let n := szBytes f.sz
  let ea := s.ea f
  let out := fun (t : State) (v : Nat) => Res.done ((t.copyTo s.cur (BitVec.ofNat 1024 v)).late [(.s f.d, BitVec.ofNat 1024 v)])
  (s.checkAll .r n [(ea, n)]).into fun l =>
    if s.trails then s.takeCopy.into fun x => .done (x.1.late [(.s f.d, x.2)])
    else if s.lvqFull then .hold s.held_
    else match s.waits l, placeOf l with
    | some r, _ => r
    | none, .sram t b => out s (fullBits (s.getTile t).empty (b / 8) (n / 8))
    | none, .pa a =>
      if isHost a then out s (2 ^ (n / 8) - 1)
      else if s.homeFailed a then .done ((s.copyTo s.cur 0).late [(.s f.d, 0)] (some (cPOISON, ea)))
      else if !s.homeReady s.cur.t (lineOf a) then .hold s.held_
      else out ((s.inM (homeAgent (lineOf a)) (lineOf a) s.ctx.pid).noteTlb s.me ea) (fullBits s.empty (a / 8) (n / 8))
    | none, _ => out s (2 ^ (n / 8) - 1)

def execFeq (k : Ctl) (f : FM) (s : State) : Out := run 0x10B k [.s f.d, .s f.idx] (fun s => testFull s f) s

/-- PREF (R270): a hint; a failing translation makes it do nothing, and it changes no value. -/
def prefetch (s : State) (f : FM) : Res :=
  match s.translate s.me .r (s.ea f) with
  | .ok { place := .pa a, .. } =>
    let l := lineOf a
    .done (match f.d with
      | 0 => s.leaseTo s.cur.t l
      | 1 => s.fillShared (s.agentOf (dieOf s.cur.t)) l s.ctx.pid
      | _ => s.replicate l)
  | _ => .done s

def execPref (k : Ctl) (f : FM) (s : State) : Out := run 0x10C k [.s f.idx] (fun s => prefetch s f) s

/-- VLD and VST (R268). -/
def execVld (k : Ctl) (f : FM) (s : State) : Out :=
  run 0x110 k [.v f.d, .s f.idx]
    (fun s => (s.load (s.ea f) 128 1 false f.ordq).into fun g => g.late [(.v f.d, BitVec.ofNat 1024 (ofLE g.bs))]) s
def execVst (k : Ctl) (f : FM) (s : State) : Out :=
  run 0x111 k [.v f.d, .s f.idx] (fun s => s.storeAt (s.ea f) (getBytes (s.rv f.d) 0 128) f.ordq) s

/-- VLDS and VSTS (R268): elements at a stride, every one checked first. -/
def loadStride (s : State) (f : FM) : Res :=
  let w := szBytes f.sz
  (s.loadMany ((List.range (128 / w)).map fun e => (s.eaStride f e, w)) 1 false f.ordq).into fun g =>
    g.late [(.v f.d, BitVec.ofNat 1024 (ofLE g.bs))]
def storeStride (s : State) (f : FM) : Res :=
  let w := szBytes f.sz
  s.storeMany ((List.range (128 / w)).map fun e => (s.eaStride f e, getBytes (s.rv f.d) (w * e) w)) f.ordq

def execVlds (k : Ctl) (f : FM) (s : State) : Out := run 0x112 k [.v f.d, .s f.idx] (fun s => loadStride s f) s
def execVsts (k : Ctl) (f : FM) (s : State) : Out := run 0x113 k [.v f.d, .s f.idx] (fun s => storeStride s f) s

/-- The active lanes of VGATH and VSCAT, and a lane's address (R269). -/
def gatherLanes (m : BitVec 32) : List Nat := (List.range 32).filter fun i => m.getLsbD i
def State.eaLane (s : State) (f : FV) (i : Nat) : Addr :=
  let sc := match bits f.imm 5 2 with | 0 => 1 | 1 => 4 | 2 => 8 | _ => 64
  s.ra (bits f.imm 0 5) + BitVec.ofNat 72 (elemOf (s.rv f.va) 4 i * sc)

def gather (s : State) (f : FV) : Res :=
  let ls := gatherLanes (s.rk f.km)
  if ls.isEmpty then .done (s.late [(.v f.vd, s.rv f.vd 3)])
  else (s.loadMany (ls.map fun i => (s.eaLane f i, 4))).into fun g =>
    let v := (List.range ls.length).foldl (fun v j => putBytes v (4 * ls.getD j 0) ((g.bs.drop (4 * j)).take 4)) (s.rv f.vd 3)
    g.late [(.v f.vd, v)] fun u =>
      { u with parts := u.parts.map fun q => (q.1, q.2.1, 4 * ls.getD (q.2.2 / 4) 0 + q.2.2 % 4) }
def scatter (s : State) (f : FV) : Res :=
  let ls := gatherLanes (s.rk f.km)
  if ls.isEmpty then .done s
  else s.storeMany (ls.map fun i => (s.eaLane f i, getBytes (s.rv f.vb 3) (4 * i) 4)) 0

def execVgath (k : Ctl) (f : FV) (s : State) : Out := run 0x114 k [.v f.vd, .v f.va] (fun s => gather s f) s
def execVscat (k : Ctl) (f : FV) (s : State) : Out := run 0x115 k [.v f.va, .v f.vb] (fun s => scatter s f) s

/-- CLEAN and DISC (R271): on a place without lines of memory they do nothing. -/
def lineOp (s : State) (f : FM) (g : State → Nat → State) : Res :=
  (s.checkAll .r 1 [(s.ea f, 1)]).into fun l =>
    match placeOf l, s.waits l with
    | .pa _, some r => r
    | .pa a, none => .done ((g s (lineOf a)).noteAll l)
    | _, _ => .done s

def execClean (k : Ctl) (f : FM) (s : State) : Out := run 0x120 k [.s f.idx] (fun s => lineOp s f fun s l => s.clean l) s
def execDisc (k : Ctl) (f : FM) (s : State) : Out :=
  run 0x121 k [.s f.idx] (fun s => lineOp s f fun s l => s.discard s.cur.t l) s

/-- ZERO (R271): 16 stores of zero doubles, each of which is seen as a whole. -/
def zeroLine (s : State) (f : FM) : Res :=
  let ea := s.ea f
  if ea.toNat % 128 ≠ 0 then .trap cMISALIGN ea
  else s.storeMany ((List.range 16).map fun j => (ea + BitVec.ofNat 72 (8 * j), List.replicate 8 0)) f.ordq 8

def execZero (k : Ctl) (f : FM) (s : State) : Out := run 0x122 k [.s f.idx] (fun s => zeroLine s f) s

/-- ICINV (R100): the tile's fetch copies of the line go. Its result returns once older stores are visible to fetch, which
they are when they are performed at tile scope. -/
def dropFetch (s : State) (f : FM) : Res :=
  let ea := s.ea f
  match s.translate s.me .x ea with
  | .error c => .trap c ea
  | .ok x =>
    match x.place with
    | .pa a => .done { s with tile := { s.tile with fetched := SMap.erase s.tile.fetched (a / 64) } }
    | _ => .done s

def execIcinv (k : Ctl) (f : FM) (s : State) : Out := run 0x346 k [.s f.idx] (fun s => dropFetch s f) s

end Sys2Proof.Machine
end

