-- ==== Sys2Proof/Machine/Recovery.lean ====
section
/-! DEFINITION. Errors and failures: correctable and uncorrectable errors, differences of redundant threads, dies, parts, lanes,
ports and wires that fail, and fatal dumps (R18, R387 to R397, R420 to R422). -/

namespace Sys2Proof.Machine

/-! ### Fatal dumps (R420 to R422) -/

/-- The context that a dump shows of a tile: its first resident unit, else context 0. -/
def State.shown (s : State) (t : Nat) : Nat := ((s.liveCtxs.find? fun x => x.1 == t).map (·.2)).getD 0

/-- The state code of a thread in a dump (R422). -/
def State.dumpCode (s : State) (x : Thread) : Nat :=
  match x.life with
  | .idle | .exited => 0
  | .hfault => 6
  | .live =>
    if x.ueStall.any (s.plumb < ·) then 7
    else match x.wait with
      | .none | .ldsMet _ | .wrsMet _ => 1
      | .join _ _ | .cwait _ => 2
      | .qpush _ | .qpop _ | .semp _ | .park _ | .yield _ => 3
      | .lds _ | .wrs _ _ _ | .syncw _ _ => 4
      | .remote _ => 5
      | .token | .fencee _ _ | .differs | .trap _ _ | .hold => 8

/-- The sections of a dump, by offset. -/
def State.dumpTile (s : State) (t : Nat) : List Byte :=
  let c := s.getCtx t (s.shown t)
  toLE 8 (s.fencest t) ++ toLE 4 (if c.live then c.launch else 0) ++ toLE 1 (if c.live then c.pid else 0) ++
  toLE 1 ((s.liveCtxs.filter fun x => x.1 == t).length) ++ toLE 2 0 ++ toLE 4 (s.readyCount t) ++ List.replicate 12 0
def State.dumpVotes (s : State) (t : Nat) : List Byte :=
  (List.range 4).flatMap fun d => toLE 8 (SMap.get 0 (s.getTile t).vote d).toNat
def State.dumpQueue (s : State) (n : Nat) : List Byte :=
  (List.range 8).flatMap fun i => toLE 8 ((SMap.get {} (s.getPart (n / 16)).queues (n % 16)).double i)
def State.dumpTq (s : State) (t : Nat) : List Byte :=
  let c := s.getCtx t (s.shown t)
  ((List.range 4).flatMap fun q => toLE 1 (SMap.get {} c.qs q).ents.length) ++
  toLE 2 ((c.inbox.tail + 2 ^ 32 - c.inbox.head) % 2 ^ 32) ++ toLE 1 (s.getTile t).deque.length ++ toLE 1 0
/-- Of HFPC, HFCAUSE and HFADDR, which R96 puts into a fatal dump, the record of R422 has a place for HFPC alone: this model writes no other
(log 92). -/
def State.dumpThread (s : State) (n : Nat) : List Byte :=
  let t := n / 8
  let x := s.getThread ⟨t, s.shown t, n % 8⟩
  ptrBytes x.tpc.toNat ++ ptrBytes x.taddr.toNat ++ toLE 8 x.tstat.toNat ++ toLE 1 x.tcause.toNat ++ toLE 1 x.role ++
  toLE 1 (s.dumpCode x) ++ toLE 5 0 ++ ptrBytes x.hfpc.toNat

/-- Records of the error log that a dump holds, the newest last. -/
def State.dumpErr (s : State) : Nat := Nat.min (Nat.min s.elcount 262144) 163840
def State.dumpRecord (s : State) (j : Nat) : List Byte :=
  match s.logDie with
  | none => List.replicate 32 0xFF
  | some d => if (s.getDie d).failed then List.replicate 32 0xFF else s.homeBytes (s.logAddr d (s.elcount - s.dumpErr + j)) 32

/-- The header of a dump (R421). -/
def State.dumpHeader (s : State) (cause d : Nat) : List Byte :=
  let h := [0x48, 0x58, 0x44, 0x31] ++ toLE 2 1 ++ toLE 1 cause ++ toLE 1 d ++ toLE 8 s.plumb ++ toLE 8 s.store.dseq ++
    toLE 8 s.serial ++ toLE 4 s.dumpErr ++ List.replicate 24 0
  h ++ toLE 4 (crc32 h)

/-- The address of the firmware area of a die (R414). -/
def State.fwArea (s : State) (d : Nat) : Nat := s.domPos * 2 ^ 40 + d * 2 ^ 37 + 0x1FFC000000

/-- A record of a tile that the firmware cannot read, one of a failed die or of a die left out, is all ones (R422). -/
def State.dumpOr (s : State) (t : Nat) (bs : List Byte) : List Byte :=
  if (s.getDie (dieOf t)).failed || !bit s.dieMask (dieOf t) then bs.map fun _ => 0xFF else bs

/-- Writes a dump into the region of a die, the header last. -/
def State.writeDump (s : State) (cause d : Nat) : State :=
  let a := s.fwArea d
  let put := fun (r : State) (off n : Nat) (f : Nat → List Byte) =>
    r.homeWrite 0 (a + off) ((List.range n).flatMap f)
  let r := put s 0x1000 4096 fun t => s.dumpOr t (s.dumpTile t)
  let r := put r 0x21000 4096 fun t => s.dumpOr t (s.dumpVotes t)
  let r := put r 0x41000 256 s.dumpQueue
  let r := put r 0x45000 4096 fun t => s.dumpOr t (s.dumpTq t)
  let r := put r 0x100000 32768 fun n => s.dumpOr (n / 8) (s.dumpThread n)
  let r := put r 0x300000 s.dumpErr s.dumpRecord
  r.homeWrite 0 a (s.dumpHeader cause d)

/-- A fatal dump (R420): every tile stops, and the dump goes to the lowest-numbered live die whose region is free. -/
def State.fatalDump (s : State) (cause : Nat) : State :=
  let r := ({ s with stopped := true, sdcAt := s.plumb } : State).putStore { s.store with sdc := s.sdc }
  match (List.range 8).find? fun d => bit s.dieMask d && !(s.getDie d).failed && (s.getDie d).dumpFree with
  | none => r.putStore { r.store with missed := r.store.missed + 1 }
  | some d =>
    let r := ({ r with newest := some d } : State).putStore { r.store with dseq := r.store.dseq + 1 }
    (r.modDie d fun y => { y with dumpFree := false }).writeDump cause d

/-- FATAL_DUMP: a firmware assertion, or another of the triggers, by its `DCAUSE`. -/
def execFatalDump (cause : Nat) (s : State) : Out := .next (s.fatalDump cause)
/-- FIRMWARE_WATCHDOG (R420). -/
def execFirmwareWatchdog (s : State) : Out := .next (s.fatalDump 6)

/-! ### Errors (R387 to R390, R393, R395, R396) -/

/-- A way of an L2 slice (slice `id % 256` of die `id / 256`) is taken out of use at once: its lines are dropped or written back, and the scrim
map records it (R397). Which lines lie in the way is a free value (log 87). -/
def State.wayOut (s : State) (id : Nat) : State :=
  let ag := s.agentOf (id / 256)
  let lines := ((SMap.get [] s.agents ag).map (·.1)).filter fun l => sliceOf l == id % 256 && Config.freeChoice s.fresh l
  let r := (lines.flatMap fun l => [(1, l), (2, l)]).foldl (fun r e => match execLineEviction e.1 ag e.2 r with | .next t => t | _ => r) s
  (r.putStore { r.store with l2Ways := SMap.set 0 r.store.l2Ways id 1 }).tickFresh

/-- CORRECTABLE_ERROR (R387, R395, R397): kind 0 a DRAM bank, 1 a Stavuo lane, 2 a tile cluster, 3 an L2 slice, whose errors its cluster's
bucket counts, 4 the LLC of a die, for which R395 names no bucket. When the firmware takes an L2 way, or an LLC bank, out of use the spec
does not say: whether it does so now is a free value (log 87). -/
def execCorrectableError (kind id : Nat) (s : State) : Out :=
  .next (match kind with
    | 3 =>
      let r := s.correctable 2 (clusterOf (512 * (id / 256) + 32 * (id % 256 / 16) + 2 * (id % 16)))
      if SMap.get 0 r.store.l2Ways id = 0 ∧ Config.freeChoice s.fresh 0x397 then r.wayOut id else r.tickFresh
    | 4 =>
      let r := s.logEvent 1 (512 * id) 0 0 0
      (if Config.freeChoice s.fresh 0x397 then r.putStore { r.store with llcSpare := SMap.put r.store.llcSpare id true } else r).tickFresh
    | _ => s.correctable kind id)

/-- BUCKET_LEAK (R395): what a bucket has lost since it last leaked, 1 for each `LEAK` cycles. -/
def execBucketLeak (kind id : Nat) (s : State) : Out :=
  .next (s.leak kind id)

/-- The doubles that an error found at a place affects: of a half-line of DRAM others as well, at the machine's choice, for its code spans the
half-line; elsewhere the double alone (R387, R388). -/
def State.ueSpan (s : State) (p : Place) : List Place :=
  match p with
  | .pa a => ((List.range 8).filter fun j => j == a / 8 % 8 || (isDram a && Config.freeChoice s.fresh (0x388 + j))).map fun j => .pa (a / 64 * 64 + 8 * j)
  | p => [p]

/-- UE_DETECTED (R388): data that the thread can read at `va` has an uncorrectable error. The doubles it affects are poisoned at their home,
and the first consumer to find the error takes UE, a thread deferred as R39 gives, an engine as R188 and R206 give; later ones take
POISON. -/
def State.ueFound (s : State) (k : Key) (va : Nat) : State :=
  let w : Who := { k := k, priv := (s.getThread k).priv }
  match s.pieces w .r (BitVec.ofNat 72 (va / 8 * 8)) 8 with
  | .ok (q :: _) =>
    let l := (s.ueSpan q.spot.place).filter fun p => !s.poisoned [{ spot := { place := p }, n := 8 }]
    let r := l.foldl State.poisonAt s
    (({ r with ues := r.ues ++ l } : State).logEvent 2 k.t (s.getCtx k.t k.c).pid cUE va).tickFresh
  | _ => s
def execUeDetected (t c i va : Nat) (s : State) : Out :=
  .next (if (s.getCtx t c).live then s.ueFound ⟨t, c, i⟩ va else s)

/-- REGISTER_UE (R389). -/
def execRegisterUe (t c i : Nat) (s : State) : Out :=
  .next (if (s.getThread ⟨t, c, i⟩).life = .idle ∨ (s.getCtx t c).live = false then s
    else (s.killUnit t c stFAULTED cUE).logEvent 2 t (s.getCtx t c).pid cUE 0)

/-- DRAM_SCRUB (R387, R388): a line is read, corrected and written back, and no value that anyone reads changes; or a double of it is found to
have an uncorrectable error, which poisons it at its home. -/
def execDramScrub (line : Nat) (s : State) : Out :=
  let a := 128 * line + 8 * ((Config.freeWord s.fresh 0x387).toNat % 16)
  .next (if isDram a && Config.freeChoice s.fresh 0x387 then
    ((s.poisonAt (.pa a)).logEvent 2 (512 * (bits a 37 3)) (s.linePid line) cUE a) else s).tickFresh

/-- SDC (R393, R396): a trailing thread differs from the thread it trails, which traps SDC at its compared instruction, with that
instruction's address; the trailing one parks. -/
def execSdc (t c i _addr unit : Nat) (s : State) : Out := .next (s.differs ⟨t, c, i⟩ unit)

/-- SDC_COUNT_SAVE (R396): every 2^36 cycles. -/
def execSdcCountSave (s : State) : Out :=
  .next (if s.sdcAt + 2 ^ 36 ≤ s.plumb then ({ s with sdcAt := s.plumb } : State).putStore { s.store with sdc := s.sdc } else s)

/-! ### Dies, parts and links (R18, R214, R391, R392, R397) -/

/-- The dirty lines of a die agent that are homed on a failed die go into the salvage region on its own die: 32 bytes of header,
then the line. -/
def State.salvageDie (s : State) (d e : Nat) : State :=
  let mine := (SMap.get [] s.agents (s.agentOf e)).filter fun h =>
    homeAgent h.1 == s.agentOf d && isDram (128 * h.1) && (h.2.st == .m || h.2.st == .o)
  let r := mine.foldl (fun (r : State) h =>
    let n := (r.getDie e).salvage.length
    let bs := ptrBytes (128 * h.1) ++ toLE 8 h.2.pid ++ toLE 8 r.plumb ++ getBytes h.2.data 0 128
    let r := if n < 104857 then r.homeWrite 0 (r.fwArea e + 0x1000000 + 160 * n) bs else r
    (r.modDie e fun y => { y with salvage := y.salvage ++ [(128 * h.1, h.2.pid, r.plumb, h.2.data)] }).setHeld (r.agentOf e) h.1 none) s
  r

/-- DIEFAIL (R391, R383): every tile of the die is sheeted by the firmware, its units go to tiles of other dies, and each surviving die
salvages what it holds of the failed home. -/
def State.dieFails (s : State) (d : Nat) : State :=
  if (s.getDie d).failed then s
  else
    let r := (s.modDie d fun y => { y with failed := true }).logEvent 11 (512 * d) 0 0 0
    let xs := ((List.range 512).map (512 * d + ·)).filter fun x => r.stOf x != 1 && r.stOf x != 3
    let r := xs.foldl (fun r x =>
      (r.setSt x 1).modTile x fun y => { y with fencest := BitVec.ofNat 64 (y.fencest.toNat / 16 * 16 + 12 + y.fencest.toNat % 4), fifo := [] }) r
    let r := xs.foldl (fun r x =>
      let r := (List.range 8).foldl (fun r e =>
        (((r.modDie e fun y => { y with knows := if y.knows.contains x then y.knows else y.knows ++ [x] }).respf e x).lostParties e x).revoke e x) r
      (r.evacuate x).unvote x) r
    let r := r.modDie d fun y => { y with nsheet := 512, lastid := xs.getLast?.getD y.lastid }
    (List.range 8).foldl (fun r e => if e = d then r else r.salvageDie d e) r
def execDieFail (d : Nat) (s : State) : Out := .next (s.dieFails d).tickFresh

/-- PARTFAIL (R392): the lines homed here of which the failed part held the only modified copy, in a die's cache or in a write-back buffer of
one, are poisoned; its other copies
leave the snoop filter. Its memory is from then on as that of a failed die (log 34). -/
def State.partFails (s : State) (q : Nat) : State :=
  if q = s.domPos then s
  else
    let r := { s with lostParts := orBit s.lostParts q }
    let r := ((List.range 8).flatMap fun d => (SMap.get [] s.agents (8 * q + d)).map fun h => (8 * q + d, h)).foldl (fun (r : State) e =>
      let l := e.2.1
      if homePart l ≠ s.domPos ∨ isDram (128 * l) = false then r
      else
        let x := r.entry l
        let lost := e.2.2.st = .m ∨ e.2.2.st = .o
        let r : State := if lost then { r with poison := (List.range 16).foldl (fun m j => SMap.put m (16 * l + j) true) r.poison } else r
        r.setEntry l { x with
          dst := if 2 ≤ x.dst ∧ x.own = e.1 then (if andNot x.shv (8 + q) = 0 then 0 else 1)
            else if x.dst = 1 ∧ andNot x.shv (8 + q) = 0 then 0 else x.dst
          own := if 2 ≤ x.dst ∧ x.own = e.1 then 0 else x.own
          shv := andNot x.shv (8 + q) }) r
    let back := (List.range 8).flatMap fun d => (SMap.get [] s.wbufs (8 * q + d)).filter fun h =>
      !h.2.2 && (h.2.1.st == .m || h.2.1.st == .o) && homePart h.1 == s.domPos && isDram (128 * h.1)
    let r : State := { r with poison := back.foldl (fun m h => (List.range 16).foldl (fun m j => SMap.put m (16 * h.1 + j) true) m) r.poison }
    let gone := fun (a : Nat) => a / 8 == q
    ({ r with
      agents := r.agents.filter fun e => !gone e.1
      wbufs := r.wbufs.filter fun e => !gone e.1
      txns := SMap.map (fun _ (x : Txn) => { x with await := x.await.filter fun a => !gone a }) r.txns } : State).logEvent 12 0 0 0 q
def execPartFail (q : Nat) (s : State) : Out :=
  .next (let r := s.partFails q
    (r.txns.filter fun e => e.2.await.isEmpty && e.2.host.isEmpty).foldl (fun r e => r.checkTxn e.1 e.2) r)

/-- A Stavuo port, or, from 24 on, a die-to-die link, goes down: what was on its way over it is to be sent again (R214); the loss of the last
link of a die is fatal (R420). -/
def State.linkDown (s : State) (n : Nat) : State :=
  if n < 24 then (if SMap.get false s.portUp n then ({ s with portUp := SMap.set false s.portUp n false } : State).pathDown else s)
  else if SMap.get false s.d2dUp (n - 24) = false then s
  else
    let r := ({ s with d2dUp := SMap.set false s.d2dUp (n - 24) false } : State).pathDown
    let ends := d2dPairs.getD (n - 24) (0, 0)
    let cut := fun (d : Nat) => bit r.dieMask d && (List.range 10).all fun j =>
      let p := d2dPairs.getD j (0, 0)
      (p.1 != d && p.2 != d) || !SMap.get false r.d2dUp j
    if cut ends.1 || cut ends.2 then r.fatalDump 5 else r
def execPortDown (link : Nat) (s : State) : Out := .next (s.linkDown link)

/-- LANE_FAILURE (R18, R397): the port's spare takes the lane's place. A port that has lost a lane before goes down, unless a lane
has been repaired since, which then takes the place; no step of the spec repairs a lane, so that is a free value (log 88). -/
def execLaneFailure (port : Nat) (s : State) : Out :=
  .next (if SMap.get false s.portUp port = false then s
    else if SMap.get false s.portSpare port = false then s.useSpareLane port
    else (if Config.freeChoice s.fresh port then s else s.linkDown port).tickFresh)

/-- A spare wire of a link comes into use, and the scrim map records it (R397). -/
def State.useSpareWire (s : State) (j : Nat) : State :=
  ({ s with d2dWires := SMap.set 0 s.d2dWires j (SMap.get 0 s.d2dWires j + 1) } : State).putStore
    { s.store with wires := SMap.set 0 s.store.wires j (SMap.get 0 s.store.wires j + 1) }

/-- D2D_WIRE_SPARE (R397): one of a link's 16 spare wires comes into use; a link that has none left goes down. -/
def execD2dWireSpare (j : Nat) (s : State) : Out :=
  .next (if SMap.get false s.d2dUp j = false then s
    else if 16 ≤ SMap.get 0 s.d2dWires j then s.linkDown (24 + j)
    else s.useSpareWire j)

end Sys2Proof.Machine
end

