-- ==== Sys2Proof/Machine/Platform.lean ====
section
/-! DEFINITION. The platform: monitors and samples of power, start-up after a cold reset, and the host's mailbox commands
(R12, R13, R19, R20, R350, R407 to R411, R415 to R420). -/

namespace Sys2Proof.Machine

/-! ### Power (R19, R419) -/

/-- CURRENT_MONITOR_SAMPLE (R19): every 64 cycles. -/
def execCurrentMonitorSample (d amps : Nat) (s : State) : Out :=
  .next (if s.plumb % 64 ≠ 0 then s
    else
      let w := if 980 < amps then 2 else if 900 < amps then 1 else 0
      { s.modDie d (fun y => { y with withhold := w }) with monActed := s.monActed || w != 0 })

/-- POWER_SAMPLE (R419): every 2^14 cycles. -/
def execPowerSample (amps watts temp : Nat) (s : State) : Out :=
  .next (if s.plumb % 2 ^ 14 ≠ 0 then s
    else
      let overs := 7200 < amps || 3450 < watts || 100 < temp
      let below := amps < 7200 && watts < 3450 && temp < 100
      let n := if s.monActed then s.acted + 1 else 0
      let r := { s with throttle := if overs then Nat.min 8 (s.throttle + 1) else if below then s.throttle - 1 else s.throttle,
                        acted := n, monActed := false }
      if 110 ≤ temp then r.fatalDump 2 else if 4 ≤ n then r.fatalDump 3 else r)

/-! ### Partition configuration (R346, R409) -/

/-- Two ranges overlap. -/
def overlaps (x y : Nat × Nat × Nat) : Bool := x.1 < y.1 + y.2.1 && y.1 < x.1 + x.2.1

/-- Pairs of a list, each earlier member with each later one. -/
def pairsOk {α : Type} (f : α → α → Bool) : List α → Bool
  | [] => true
  | a :: r => r.all (f a) && pairsOk f r

/-- The positions of the domain that hold parts, this part's own among them, and this part's position; a part alone is at 0 (R16, R25,
R257). -/
def domainMembers : Nat :=
  let m := orBit (Config.members % 256) (Config.domPos % 8)
  if 2 ≤ ((List.range 8).filter (bit m)).length then m else 1
def domainPos : Nat := if domainMembers = 1 then 0 else Config.domPos % 8

/-- A range lies in DRAM of the part, or of another part of its domain, below a die's firmware area, or in host memory (R409, R414, R16). -/
def rangePlaceOk (pos : Nat) (r : Nat × Nat × Nat) : Bool :=
  if isHost r.1 then r.1 + r.2.1 ≤ 2 ^ 52
  else isDram r.1 && (r.1 / 2 ^ 40 == pos || bit domainMembers (r.1 / 2 ^ 40)) && r.1 % 2 ^ 37 + r.2.1 ≤ 0x1FFC000000

/-- A configuration is well formed on a part (R409). -/
def PConfig.ok (x : PConfig) (pos : Nat) : Bool :=
  let conf := fun (o : Nat) => o < 16 && bit x.pmask o
  let owner := fun (o : Nat) => o == 0xFF || conf o
  (x.town.all fun e => owner e.2) && owner x.tdef && (x.lown.all conf) && (x.hown.all owner) && (x.pown.all owner) &&
  (x.ranges.all fun r => conf r.2.2 && rangePlaceOk pos r) && pairsOk (fun a b => !overlaps a b) x.ranges &&
  ((List.range 16).all fun p => !bit x.pmask p ||
    ((List.range 4096).any fun t => SMap.get x.tdef x.town t == p)) &&
  (x.save.all fun e => e.2.2 == 0 || inRanges x.ranges e.1 (x.ranges.length + 1) e.2.1 e.2.2)

/-- The configuration on the dies that are present: what lies on others is absent and owned by none (R409). -/
def PConfig.limit (x : PConfig) (mask : Nat) : PConfig :=
  { x with
    town := (List.range 4096).foldl (fun m t => if bit mask (dieOf t) then m else SMap.set x.tdef m t 0xFF) x.town
    pown := (List.range 24).map fun p => if bit mask (p / 3) then x.pown.getD p 0xFF else 0xFF
    save := x.save.filter fun e => bit mask (bits e.2.1 37 3) || isHost e.2.1 || e.2.1 / 2 ^ 40 != domainPos
    ranges := x.ranges.filter fun r => isHost r.1 || bit mask (bits r.1 37 3) || r.1 / 2 ^ 40 != domainPos }

/-- A configured partition has no present tile. -/
def PConfig.starved (x : PConfig) (present : Nat → Bool) : Bool :=
  (List.range 16).any fun p => bit x.pmask p && (List.range 4096).all fun t => !(present t && SMap.get x.tdef x.town t == p)

/-! ### Start-up (R12, R13, R20, R396, R416 to R418) -/

/-- What happens in the start-up steps, as bits of one number: [15:0] step i + 1 fails, [31:16] its alternative fails too,
[39:32] dies whose DRAM training or memory initialisation fails for good, [40] the host link fails at 4 lanes also, [44:41] the step that a
reset or power loss cuts off, or 0 (R417),
[4159:64] tiles that fail BIST, [4169:4160] die-to-die links and [4193:4170] Stavuo ports that do not train. -/
abbrev Fails := Nat

/-- The alternative of a step (R416). -/
def hasAlt (i : Nat) : Bool := [1, 2, 4, 6, 7, 8, 9, 10].contains i

/-- A step that stops the part when it cannot be passed. -/
def stopsPart (i : Nat) : Bool := [1, 2, 3, 10, 11].contains i

/-- One step's result from its record and what happens (R416, R417): `SST`, `NFAIL`, `ALT`; a step that failed before is done by
its alternative. -/
def stepResult (i : Nat) (old : Nat × Nat × Nat × Nat) (bad badAlt : Bool) : Nat × Nat × Nat :=
  let nf := Nat.min 255 (old.2.1 + b2n (old.1 == 1))
  let byAlt := nf != 0 && hasAlt i
  let nf' := if byAlt then (if badAlt then Nat.min 255 (nf + 1) else nf) else if bad then Nat.min 255 (nf + 1) else nf
  if !byAlt && !bad then (2, nf', 0)
  else if hasAlt i then (if badAlt then (3, nf', 1) else (4, nf', 1))
  else (3, nf', 0)

/-- A step fails at the start, and its alternative (R416, R418): by what happens; a firmware image also by a version below the minimum, the
older copy of the store by its signature, the host link's alternative only when 4 lanes fail after 8, and the stored record when it is
malformed or leaves a partition without a tile. -/
def State.stepFails (s : State) (f : Fails) (badRecord : Bool) (i : Nat) : Bool × Bool :=
  let low := fun (v : Nat) => !(s.store.minVer == 0 || decide (s.store.minVer ≤ v))
  (bit f (i - 1) || (i == 1 && low Config.fwVersion) || (i == 10 && badRecord),
   match i with
   | 1 => bit f 16 || low Config.backupVersion
   | 2 => bit f 17 || !s.olderOk
   | 9 => bit f 24 && bit f 40
   | _ => bit f (15 + i))

/-- The steps in order until one stops the part or is cut off: the entries, each with the plumb reading that it is given (log 86), and whether
the part stops. A step that is cut off reads running, and steps that are not run keep their entries (R417). -/
def runSteps (fails : Nat → Bool × Bool) (cut plumb : Nat) : List Nat → SMap (Nat × Nat × Nat × Nat) → SMap (Nat × Nat × Nat × Nat) × Bool
  | [], old => (old, false)
  | i :: r, old =>
    let was := SMap.get (0, 0, 0, 0) old (i - 1)
    if i = cut then (SMap.set (0, 0, 0, 0) old (i - 1) (1, was.2), true)
    else
      let e := stepResult i was (fails i).1 (fails i).2
      let new := SMap.set (0, 0, 0, 0) old (i - 1) (e.1, e.2.1, e.2.2, plumb)
      if e.1 = 3 ∧ stopsPart i then (new, true) else runSteps fails cut plumb r new

/-- The scrim map after the tests of start-up step 6 (R13, R396, R416): a tile that fails BIST, or whose physical place has counted more
than 16 differences of a lane or sub-array, gives way to its row's spare in this same start, which reads `SKIPCOL` afterwards; in a
row without a spare it is sheeted for good (log 71). -/
def startTiles (st : Persist) (f : Fails) : Persist :=
  (List.range 4096).foldl (fun r t =>
    let ph := physOf st.skipcol t
    if bit f (64 + t) || (List.range 64).any fun u => 16 < SMap.get 0 st.sdc (64 * ph + u) then r.scrim ph else r) st

/-- VOTE registers as the firmware sets them (R376). -/
def startVote (present : Nat → Bool) (t d : Nat) : Word :=
  match neighbour t d with
  | none => 0
  | some x => if !present x then 0 else
    ({ nst := 1, livemap := maskOf 4 fun k => match neighbour x k with | some y => present y | none => false } : Vote).word

/-- The logical tile lies at a place that is sheeted for good, by the scrim map as start-up reads it (R13, log 71). -/
def Persist.gone (st : Persist) (t : Nat) : Bool := SMap.get false st.perm (physOf st.skipcol t)

/-- The part once its steps have passed: dies, tiles, links and partitions are as the steps left them, and the list is built. -/
def State.startUp (s : State) (f : Fails) (ents : SMap (Nat × Nat × Nat × Nat)) : State :=
  let sst := fun (i : Nat) => (SMap.get (0, 0, 0, 0) ents (i - 1)).1
  let mask := maskOf 8 fun d => !((sst 4 == 3 || sst 5 == 3) && bit f (32 + d))
  let present := fun (t : Nat) => bit mask (dieOf t) && !s.store.gone t
  let pos := domainPos
  /- A port or link that did not train is down when the step failed, or when its spares were in use already; else a spare passes it. -/
  let lost := fun (i b : Nat) (used : Bool) => bit f b && (sst i == 3 || (sst i == 4 && used))
  let lanes := (List.range 24).foldl (fun m p => if sst 8 = 4 ∧ bit f (4170 + p) then SMap.set false m p true else m) s.store.laneSpare
  let wires := (List.range 10).foldl (fun m j =>
    if sst 7 = 4 ∧ bit f (4160 + j) then SMap.set 0 m j (Nat.min 16 (SMap.get 0 m j + 1)) else m) s.store.wires
  let rec_ := if sst 10 = 4 then PConfig.manufacture pos else s.store.record.getD (PConfig.manufacture pos)
  let r : State := { s with
    started := true, dieMask := mask, cfg := rec_.limit mask
    absent := (List.range 4096).foldl (fun m t => SMap.set false m t (!present t)) []
    domPos := pos, members := domainMembers, serial := Config.serial % 2 ^ 64, skipNow := s.store.skipcol
    fabids := (List.range 8).foldl (fun m q => SMap.set 0 m q (Config.fabid q)) []
    sdc := s.store.sdc
    lanes := if sst 9 = 2 then 16 else if sst 9 = 4 then (if bit f 24 then 4 else 8) else 0
    portUp := (List.range 24).foldl (fun m p => SMap.set false m p (bit mask (p / 3) && !lost 8 (4170 + p) (SMap.get false s.store.laneSpare p))) []
    portSpare := lanes
    d2dUp := (List.range 10).foldl (fun m j => SMap.set false m j (!lost 7 (4160 + j) (16 ≤ SMap.get 0 s.store.wires j))) []
    d2dWires := wires
    store := { s.store with laneSpare := lanes, wires := wires, bist := [] }
    fence := (List.range 4096).foldl (fun m t => SMap.set 0 m t (if s.store.gone t then 3 else 0)) [] }
  let r := r.allDies fun d x => { x with nsheet := ((List.range 512).filter fun j => s.store.gone (512 * d + j)).length }
  (List.range 4096).foldl (fun r t =>
    r.modTile t fun x =>
      { x with
        fencest := if s.store.gone t then 3 else 0
        vote := if present t then (List.range 4).foldl (fun m d => SMap.set 0 m d (startVote present t d)) [] else [] }) r

/-- COLD_RESET (R4, R416 to R418): the reset state with the persistent store, from its newer copy or, when step 2 passes by its alternative,
from its older one, and what host memory holds; then the start-up steps. -/
def State.coldReset (s : State) (f : Fails) : State :=
  let pos := domainPos
  let base := if (stepResult 2 (SMap.get (0, 0, 0, 0) s.store.start 1) (s.stepFails f false 2).1 (s.stepFails f false 2).2).1 = 4 then s.older
    else s.store
  let st := startTiles { base with boots := s.store.boots + 1 } f
  let rec_ := st.record.getD (PConfig.manufacture pos)
  let mask := maskOf 8 fun d => !bit f (32 + d)
  let bad := !rec_.ok pos || (rec_.limit mask).starved fun t => bit mask (dieOf t) && !st.gone t
  let y := runSteps (s.stepFails f bad) (bits f 41 4) 0 ((List.range 11).map (· + 1)) s.store.start
  let r : State := { State.reset with
    mem := s.mem.filter fun e => isHost e.1, agenda := s.agenda, store := { st with start := y.1 }, older := base, version := s.version + 1 }
  if y.2 then { r with stopped := true } else r.startUp f y.1
def execColdReset (fails : Nat) (s : State) : Out := .next (s.coldReset fails)

/-! ### Mailbox commands (R407 to R411) -/

/-- A command ends, well or with an error code. -/
def State.mbDone (s : State) : State := { s with mbSt := 2, mbErr := 0 }
def State.mbFail (s : State) (e : Nat) : State := { s with mbSt := 3, mbErr := e }

/-- A command is in hand: what its event does. -/
def State.command (s : State) (c : Nat) (f : State → State) : State := if s.mbSt = 1 ∧ s.mbCmd = c then f s else s

/-- Host memory at a host physical address (R16). -/
def hostAt (a : Nat) : Nat := 0x8000000000000 + a
def hostOk (a n : Nat) : Bool := a + n ≤ 0x8000000000000
def State.hostRead (s : State) (a n : Nat) : List Byte := s.homeBytes (hostAt a) n

/-- `n` bytes, the highest first, and the number that such bytes are. -/
def toBE (n x : Nat) : List Byte := (toLE n x).reverse
def ofBE (bs : List Byte) : Nat := ofLE bs.reverse
def cutAt (bs : List Byte) (off n : Nat) : List Byte := (bs.drop off).take n
def leAt (bs : List Byte) (off n : Nat) : Nat := ofLE (cutAt bs off n)
def beAt (bs : List Byte) (off n : Nat) : Nat := ofBE (cutAt bs off n)

/-- The ATTEST report (R410). -/
def State.report (s : State) (nonce : List Byte) : List Byte :=
  let ents := (List.range 64).flatMap fun i => toLE 8 (s.startEntry i)
  let m := [0x48, 0x58, 0x41, 0x31] ++ toLE 2 1 ++ toLE 2 0 ++ nonce ++ toBE 64 (if (SMap.get (0, 0, 0, 0) s.store.start 0).1 = 4 then Config.backupHash else Config.fwHash) ++ toLE 8 s.serial ++
    toLE 4 (Nat.min s.store.boots 0xFFFFFFFF) ++ toLE 4 0 ++ toBE 64 (Config.sha512 ents) ++
    toBE 66 Config.idKey.1 ++ toBE 66 Config.idKey.2 ++ List.replicate 32 0
  let g := Config.idSign m
  m ++ toBE 66 g.1 ++ toBE 66 g.2

/-- ATTEST (R408, R410): the command goes on until the report can be written (R237). -/
def execAttest (s : State) : Out :=
  .next (s.command 1 fun s =>
    let a := s.mbArg0.toNat
    let b := s.mbArg1.toNat
    if !hostOk a 64 || !hostOk b 512 then s.mbFail 1
    else if !s.sysReady (hostAt b) 512 then s
    else (s.homeStore 0 (hostAt b) (s.report (s.hostRead a 64))).mbDone)

/-- A configuration record's length without its signature (R409), and the configuration that it holds. -/
def recordLen (bs : List Byte) : Nat := 4464 + 16 * leAt bs 6 2
def recordOf (bs : List Byte) : PConfig :=
  let flag := fun (i : Nat) => maskOf 16 fun p => bit (leAt bs (18 + p) 1) i
  { pseq := leAt bs 8 8, pmask := leAt bs 16 2, reden := flag 0, reduce := flag 1, tdef := 0xFF
    town := (List.range 4096).foldl (fun m t => SMap.set 0xFF m t (leAt bs (64 + t) 1)) []
    lown := (List.range 16).map fun w => leAt bs (4160 + w) 1
    hown := (List.range 8).map fun b => leAt bs (4176 + b) 1
    pown := (List.range 24).map fun p => leAt bs (4184 + p) 1
    save := (List.range 16).foldl (fun m p =>
      let d := leAt bs (4208 + 16 * p) 8
      SMap.set (0, 0) m p (bits d 0 36 * 65536, bits d 36 28 * 65536)) []
    ranges := (List.range (leAt bs 6 2)).map fun i =>
      let d := leAt bs (4464 + 16 * i) 8
      (bits d 0 36 * 65536, bits d 36 28 * 65536, leAt bs (4464 + 16 * i + 8) 1) }

/-- A record's own form (R409): magic, version, counts and zero fields. -/
def recordFormOk (bs : List Byte) (pad : List Byte) : Bool :=
  let zero := fun (off n : Nat) => leAt bs off n == 0
  cutAt bs 0 4 == [0x48, 0x58, 0x50, 0x31] && leAt bs 4 2 == 1 && leAt bs 6 2 ≤ 4096 && zero 34 30 &&
  ((List.range 16).all fun p => leAt bs (18 + p) 1 < 4 && zero (4208 + 16 * p + 8) 8) &&
  ((List.range (leAt bs 6 2)).all fun i => zero (4464 + 16 * i + 9) 7) && pad.all (· == 0)

/-- What a partition owns, for comparison. -/
def PConfig.shareOf (x : PConfig) (p : Nat) : List Nat :=
  [b2n (bit x.pmask p), b2n (bit x.reden p), b2n (bit x.reduce p), (SMap.get (0, 0) x.save p).1, (SMap.get (0, 0) x.save p).2] ++
  ((List.range 4096).filter fun t => SMap.get x.tdef x.town t == p) ++
  ((List.range 16).filter fun w => x.lown.getD w 0xFF == p).map (5000 + ·) ++
  ((List.range 8).filter fun b => x.hown.getD b 0xFF == p).map (5100 + ·) ++
  ((List.range 24).filter fun b => x.pown.getD b 0xFF == p).map (5200 + ·) ++
  (x.ranges.filter fun r => r.2.2 == p).flatMap fun r => [6000 + r.1, r.2.1]

/-- The partition of a byte of memory. -/
def PConfig.ownerAt (x : PConfig) (a : Nat) : Nat :=
  match x.ranges.find? fun r => r.1 ≤ a && a < r.1 + r.2.1 with | some r => r.2.2 | none => 0xFF

/-- Memory at an address moves to another partition, or LLC ways do; and the lines that caches and write-back buffers hold, or that the snoop
filter lists, of which that is so (R350). -/
def State.memMoves (s : State) (new : PConfig) (a : Nat) : Bool := s.cfg.ownerAt a != new.ownerAt a
def State.moveLines (s : State) (new : PConfig) : List Nat :=
  let way := (List.range 16).any fun w => s.cfg.lown.getD w 0xFF != new.lown.getD w 0xFF
  let held := (s.agents.flatMap fun e => e.2.map (·.1)) ++ (s.wbufs.flatMap fun e => e.2.map (·.1))
  (held.filter fun l => way || s.memMoves new (128 * l)) ++ (s.filter.map (·.1)).filter fun l => s.memMoves new (128 * l)

/-- The lines that move can be written back and dropped: the leases on them have lapsed (R237), the host has given up its copies (R251), and
no request or atomic has one in hand. -/
def State.moveReady (s : State) (new : PConfig) : Bool :=
  let ok := fun (l : Nat) => !s.leased l && !s.hostHas l && !s.underHold l && (SMap.find s.txns l).isNone && (SMap.find s.homeq l).isNone
  ((s.moveLines new).all ok) &&
  s.dies.all fun e => e.2.emax.all fun x => !s.memMoves new (128 * x.1) || decide (x.2 ≤ s.plumb)

/-- Resources move between partitions (R350). Of a partition that gives up memory every translation is dropped, as TLBI.ALL drops them. -/
def State.moveAll (s : State) (new : PConfig) : State :=
  let old := s.cfg
  let tileMoves := fun (t : Nat) => SMap.get old.tdef old.town t != SMap.get new.tdef new.town t
  let bankMoves := fun (b : Nat) => old.hown.getD b 0xFF != new.hown.getD b 0xFF
  let memMoves := s.memMoves new
  let lineMoves := fun (l : Nat) => memMoves (128 * l)
  let shrinks := fun (p : Nat) => (old.ranges.filter fun r => r.2.2 == p) != new.ranges.filter fun r => r.2.2 == p
  let lines := s.moveLines new
  let r := s.allTiles fun t x =>
    let y := { x with hawk := x.hawk.filter fun e => !bankMoves (e.1 / 256) }
    if tileMoves t then { y with sram := [], empty := [], poison := [], tlb := [], lsplit := 4, lgrp := 0, copies := [], fetched := [] }
    else { y with
      tlb := y.tlb.filter fun e => !shrinks e.pid
      copies := y.copies.filter (fun e => !lineMoves e.1), fetched := y.fetched.filter fun e => !memMoves (64 * e.1) }
  let r := r.allDies fun _ d => { d with repl := d.repl.filter fun y => !lineMoves y.line }
  let r := lines.foldl (fun r l => { r.recall l with filter := SMap.erase r.filter l }) r
  { r with
    wbufs := SMap.map (fun _ m => m.filter fun e => !lines.contains e.1) r.wbufs
    mem := r.mem.filter fun e => !(memMoves e.1)
    empty := r.empty.filter fun e => !(memMoves (8 * e.1))
    poison := r.poison.filter fun e => !(memMoves (8 * e.1))
    ues := r.ues.filter fun p => match p with | .pa a => !memMoves a | _ => true
    cfg := new }

/-- PARTCFG (R20, R350, R408, R409): the signature, the contents, the sequence number, then the launches of every partition that
would change; then the command goes on until the lines that move can be dropped. Every view that the record changes is rebuilt (R20). Which
partitions are `affected` R20 does not say: in this model those whose own share changes, not those of which the view alone is rebuilt
(log 94). -/
def execPartcfg (s : State) : Out :=
  .next (s.command 2 fun s =>
    let a := s.mbArg0.toNat
    let n := recordLen (s.hostRead a 8)
    let bs := s.hostRead a n
    let sig := s.hostRead (a + n) 132
    let pad := s.hostRead (a + n + 132) ((64 - (n + 132) % 64) % 64)
    let new := recordOf bs
    let stored := (s.store.record.getD (PConfig.manufacture s.domPos)).pseq
    let live := new.limit s.dieMask
    let changed := (List.range 16).filter fun p => s.cfg.shareOf p != live.shareOf p
    if a % 64 ≠ 0 ∨ hostOk a (n + 196) = false ∨ 4096 < leAt bs 6 2 then s.mbFail 3
    else if !Config.ecdsaOk s.store.opKey.1 s.store.opKey.2 bs (beAt sig 0 66) (beAt sig 66 66) then s.mbFail 1
    else if !recordFormOk bs pad || !new.ok s.domPos then s.mbFail 3
    else if new.pseq ≤ stored then s.mbFail 4
    else if changed.any fun p => (s.getPart p).launches.any fun e => !e.2.complete then s.mbFail 2
    else if !s.moveReady live then s
    else
      let r := s.moveAll live
      let views := (List.range 17).filter fun v => s.capList v != r.capList v
      (({ r with capGen := views.foldl (fun m v => SMap.set 0 m v ((SMap.get 0 m v + 1) % 65536)) r.capGen } : State).putStore
        { r.store with record := some new }).mbDone)

/-- DUMP (R408, R420). -/
def execDump (s : State) : Out := .next (s.command 3 fun s => (s.fatalDump 4).mbDone)

/-- CLEARSR (R408). -/
def execClearsr (s : State) : Out :=
  .next (s.command 4 fun s =>
    let m := SMap.map (fun _ (e : Nat × Nat × Nat × Nat) => (e.1, 0, 0, e.2.2.2)) s.store.start
    (s.putStore { s.store with start := m.filter fun e => e.2 ≠ (0, 0, 0, 0) }).mbDone)

/-- DUMPACK (R408, R420): the newest dump's region is free again. -/
def execDumpack (s : State) : Out :=
  .next (s.command 5 fun s =>
    match s.newest with
    | none => s.mbFail 1
    | some d => (({ s with newest := none } : State).modDie d fun y => { y with dumpFree := true }).mbDone)

/-- OPKEY (R408, R411). -/
def execOpkey (s : State) : Out :=
  .next (s.command 6 fun s =>
    let a := s.mbArg0.toNat
    let bs := s.hostRead a 320
    let x := beAt bs 16 66
    let y := beAt bs 82 66
    if hostOk a 320 = false then s.mbFail 3
    else if !Config.ecdsaOk s.store.opKey.1 s.store.opKey.2 (bs.take 180) (beAt bs 180 66) (beAt bs 246 66) then s.mbFail 1
    else if cutAt bs 0 4 != [0x48, 0x58, 0x4F, 0x31] || leAt bs 4 2 != 1 || leAt bs 6 2 != 0 || leAt bs 148 32 != 0 ||
      leAt bs 312 8 != 0 || !Config.onP521 x y then s.mbFail 3
    else if leAt bs 8 8 ≤ s.store.kseq then s.mbFail 4
    else (s.putStore { s.store with opKey := (x, y), kseq := leAt bs 8 8 }).mbDone)

end Sys2Proof.Machine
end

