-- ==== Sys2Proof/Machine/Regions.lean ====
section
/-! DEFINITION. The region instructions, opcodes 0x190 to 0x194, and the steps of slices and tiles for regions (R284 to R302). -/

namespace Sys2Proof.Machine

/-! ### Instructions -/

/-- Everything the thread has issued is performed at die scope, and its results are back but for those of vectors and of the
MU: FENCE.FULL.DIE is complete (R297, R228). -/
def State.fenced (s : State) : Bool :=
  s.performedAt s.cur.t 2 && s.thr.pend.all fun p => match p.what with | .vec | .mrdv => true | _ => false

/-- A region of the thread begins (R300). -/
def State.beginRegion (s : State) (elastic : Bool) (target : Addr) (irr : Option Nat) : State :=
  let x := s.thr
  let lo := irr.getD 1
  let hi := irr.getD posMax
  { s with thr := { x with
    region := some { elastic := elastic, irr := irr.isSome, check := x.check, target := target }
    rlo := BitVec.ofNat 64 lo, rhi := BitVec.ofNat 64 hi, rseq := x.rseq + 1
    rstat := rstatWord 0 1 (b2n elastic) (b2n irr.isSome) 0 } }

/-- RBEGIN (R298, R300). -/
def beginR (s : State) (f : FRegion) : Res :=
  let t := targetB s.thr.pc (bits f.imm 3 29) (bits f.imm 0 3)
  match s.target t with
  | some (c, a) => .trap c a
  | none =>
    let s := s.wordSeen t
    if s.trails then .done s
    else if !s.fenced then .hold s.held_
    else
      let die := s.getDie (dieOf s.cur.t)
      if die.token = some s.cur then .done (s.beginRegion (f.fn == 1) t (some (die.pmax + 1)))
      else if s.ctx.rlimit ≤ bits s.thr.rcnt.toNat 0 8 then .hold { s with thr := { s.thr with wait := .token } }
      else if die.token.isSome then .hold s.held_
      else .done (s.beginRegion (f.fn == 1) t none)

def execRbegin (k : Ctl) (f : FRegion) (s : State) : Out := run 0x190 k [] (fun s => beginR s f) s

/-- Every access of the thread's region has returned, and every narrowing message it caused is acknowledged (R295 step 1). -/
def State.quiet (s : State) : Bool := s.thr.pend.isEmpty && s.narrows.all fun n => n.cause != s.regId s.cur

/-- A region has committed at its position (R295 step 6); `PMAX` is the largest on the die (R298). -/
def State.committedAt (s : State) (p : Nat) : State :=
  { s.modDie (dieOf s.cur.t) (fun y => { y with pmax := Nat.max y.pmax p }) with thr := { s.thr with
    region := none, rlo := BitVec.ofNat 64 p, rhi := BitVec.ofNat 64 p, rcnt := rcntClear s.thr.rcnt
    rstat := rstatWord 0 0 (rstatCls s.thr.rstat) (rstatIrr s.thr.rstat) 0 } }

/-- RCOMMIT (R295, R298): it waits while the seals and the final-position broadcasts go round. -/
def commitR (s : State) : Res :=
  match s.thr.region with
  | none => if s.trails then .done s else .trap cILLOP 0
  | some r =>
    if r.irr then
      if s.thr.pend.isEmpty && s.dieDrained s.cur.t then .done (s.endIrr s.cur 0 0) else .hold s.held_
    else match r.sealing with
    | none =>
      if !s.quiet then .hold s.held_
      else if s.thr.rhi.toNat < s.thr.rlo.toNat then .end_ (s.abortRegion s.cur 2 0)
      else if r.reads.isEmpty && r.writes.isEmpty then .done (s.committedAt s.thr.rlo.toNat)
      else .hold ({ s with thr := { s.thr with region := some { r with sealing := some [] } } } : State).held_
    | some got =>
      let lines := r.reads ++ r.writes
      if !lines.all got.contains then .hold s.held_
      else if r.refused then .end_ (s.abortRegion s.cur 2 0)
      else if lines.all r.told.contains then .done (s.committedAt s.thr.rlo.toNat)
      else .hold s.held_

def execRcommit (k : Ctl) (_ : FRegion) (s : State) : Out := run 0x191 k [] commitR s

/-- RABORT (R298, R300). -/
def abortR (s : State) (f : FRegion) : Res :=
  match s.thr.region with
  | none => .done s
  | some r =>
    if r.irr then
      if s.thr.pend.isEmpty && s.dieDrained s.cur.t then .end_ ((s.endIrr s.cur 8 0).take cRILL 0) else .hold s.held_
    else if s.thr.pend.isEmpty then .end_ (s.abortRegion s.cur 6 (bits f.imm 0 8))
    else .hold s.held_

def execRabort (k : Ctl) (f : FRegion) (s : State) : Out := run 0x192 k [] (fun s => abortR s f) s

/-- RSTAT (R300); a trailing thread takes the leading one's (R393). -/
def readRstat (s : State) (f : FRegion) : Res :=
  let give := fun (t : State) (v : Vec) => Res.done ((t.ws f.d (v.setWidth 64)).wp f.pd (v.getLsbD 4))
  if s.trails then s.takeCopy.into fun x => give x.1 x.2
  else if s.lvqFull then .hold s.held_
  else give (s.copyTo s.cur (ofWord s.thr.rstat)) (ofWord s.thr.rstat)

def execRstat (k : Ctl) (f : FRegion) (s : State) : Out := run 0x193 k [.s f.d] (fun s => readRstat s f) s

/-- Two results of RPOS. -/
def twoWords (s : State) (f : FRegion) (x y : Word) : Res :=
  .done ((s.copyTo s.cur (ofWord x ||| (ofWord y <<< 64))).late [(.s f.d, ofWord x), (.s f.e, ofWord y)])

def trailTwo (s : State) (f : FRegion) : Res :=
  s.takeCopy.into fun x => .done (x.1.late [(.s f.d, ofWord (x.2.setWidth 64)), (.s f.e, ofWord ((x.2 >>> 64).setWidth 64))])

/-- RPOS.B (R300). -/
def readBounds (s : State) (f : FRegion) : Res :=
  if s.trails then trailTwo s f
  else if (s.thr.region.isSome && !s.quiet) || s.lvqFull then .hold s.held_
  else twoWords s f s.thr.rlo s.thr.rhi

/-- RPOS.L (R300). A place without a line of memory or lineage has no positions: free values (log 6). -/
def readPositions (s : State) (f : FRegion) : Res :=
  let a := s.ra f.ar 2
  (s.checkAll .r 1 [(a, 1)]).into fun l =>
    if s.trails then trailTwo s f
    else match s.waits l with
    | some r => r
    | none =>
      if s.lvqFull then .hold s.held_
      else
        let d := s.getDie (dieOf s.cur.t)
        match (placeOf l).regionAddr with
        | some x => twoWords s f (BitVec.ofNat 64 (d.wposOf (lineOf x))) (BitVec.ofNat 64 (d.rposOf (lineOf x)))
        | none => twoWords s f (Config.freeWord s.fresh 0) (Config.freeWord s.fresh 1)

def execRposB (k : Ctl) (f : FRegion) (s : State) : Out := run 0x194 k [.s f.d, .s f.e] (fun s => readBounds s f) s
def execRposL (k : Ctl) (f : FRegion) (s : State) : Out := run 0x194 k [.s f.d, .s f.e] (fun s => readPositions s f) s

/-! ### Slices and tiles -/

/-- A tile that is sheeted or retired answers nothing (R380, R381). -/
def State.silent (s : State) (t : Nat) : Bool := SMap.get 0 s.fence t % 2 == 1 || (s.getTile t).fencest.getLsbD 0

/-- NARROWING_MESSAGE: the `n`-th narrowing message reaches its tile, which applies and acknowledges it (R292). One to a silent
tile completes with RESPF once the sender's die has learnt of the fence, and the region that caused it is to abort with LOST (R290, R381);
one of another partition is dropped and counted
(R348). -/
def State.applyNarrow (s : State) (n : Nat) : State :=
  match s.narrows[n]? with
  | none => s
  | some m =>
    let t : State := { s with narrows := s.narrows.eraseIdx n }
    if s.silent m.who.k.t && m.who != m.cause then
      (if (s.getDie (dieOf m.cause.k.t)).knows.contains m.who.k.t then t.markId m.cause 9 else s)
    else if s.ownerOf m.who.k.t ≠ m.pid then t.logEvent 14 m.who.k.t m.pid 0 0
    else t.modThread m.who.k fun x => if x.rseq.toNat = m.who.seq then x.narrow m.lo m.hi else x

def execNarrowingMessage (n : Nat) (s : State) : Out := .next (s.applyNarrow n)

/-- REGION_ACCESS_AT_SLICE: an access of an active region reaches the slice of a line of its footprint with the region's
present bounds (R285, R292), unless the slice has recorded it: an access reaches its slice in the turn that issues it (log 46). -/
def execRegionAccessAtSlice (t c i line wr : Nat) (s : State) : Out :=
  let k : Key := ⟨t, c, i⟩
  let has := (s.getDie (dieOf t)).parties.any fun p => p.who == s.regId k && p.line == line && (if wr = 0 then p.ld else p.st)
  .next (match (s.getThread k).region with
    | some r =>
      if (if wr = 0 then r.reads else r.writes).contains line ∧ r.sealing = none ∧ r.doom = none ∧ has = false then
        s.sliceAccess k line (wr != 0)
      else s
    | none => s)

/-- SEAL_AT_SLICE (R295 step 3). -/
def execSealAtSlice (t c i line : Nat) (s : State) : Out :=
  let k : Key := ⟨t, c, i⟩
  .next (match (s.getThread k).region with
    | some r => if r.touches line ∧ r.doom = none then s.sealLine k line else s
    | none => s)

/-- FINAL_POSITION_BROADCAST (R295 step 5), once the region is committed. -/
def execFinalPositionBroadcast (t c i line : Nat) (s : State) : Out :=
  let k : Key := ⟨t, c, i⟩
  .next (match (s.getThread k).region with
    | some r =>
      if r.touches line && r.committed && !r.irr then s.finalLine k line else s
    | none => s)

/-- REGION_ABORT (R298): an abort that has been decided takes effect once the thread's results are back. -/
def execRegionAbort (t c i cause tc : Nat) (s : State) : Out :=
  let k : Key := ⟨t, c, i⟩
  let x := s.getThread k
  .next (if x.region.bind (·.doom) = some (cause, tc) ∧ x.pend = [] then s.abortRegion k cause tc else s)

/-- The keys of the threads that have an active region on a die. -/
def State.regionsOn (s : State) (d : Nat) : List Key :=
  ((s.threads.filter fun e => e.2.region.isSome).map (fun e => keyOf e.1) ++ (if s.thr.region.isSome then [s.cur] else [])).filter
    fun k => dieOf k.t == d

/-- TOKEN_GRANT (R298): the die's token goes to a thread that waits for it, and every other active region of the die is to
abort with YIELD. A region that has committed ends first. -/
def execTokenGrant (t c i : Nat) (s : State) : Out :=
  let k : Key := ⟨t, c, i⟩
  let d := dieOf t
  let ks := s.regionsOn d
  .next (if (s.getThread k).wait = .token ∧ (s.getDie d).token = none ∧
        ks.all (fun j => !((s.getThread j).region.any (·.committed))) then
      ks.foldl (fun s j => s.modThread j fun x => x.markRegion 10) (s.modDie d fun y => { y with token := some k })
    else s)

end Sys2Proof.Machine
end

