-- ==== Sys2Proof/Machine/Registers.lean ====
section
/-! DEFINITION. Writes of registers as steps of their own: the host's and the supervisor's to the device register window, and
writes that arrive at a register in another way than by an instruction of the thread in focus (R4, R29, R88, R134, R235, R315,
R338, R352, R374, R403 to R405, R412). -/

namespace Sys2Proof.Machine

/-! ### The device register window -/

/-- LAUNCH_QUEUE_TAIL_WRITE (R404, R405): a doorbell. -/
def execLaunchQueueTailWrite (p q v : Nat) (s : State) : Out := .next (s.queueTail p q v)

/-- LAUNCH_QUEUE_ENABLE (R405): a write that changes `EN` alone. -/
def execLaunchQueueEnable (p q v fromS : Nat) (s : State) : Out :=
  let x := SMap.get {} (s.getPart p).queues q
  .next (s.queueWrite0 p q (x.double 0 / 2 * 2 + v % 2) (fromS == 1))

/-- LAUNCH_QUEUE_DESC_WRITE (R404, R405): a double of a descriptor, by its byte offset. -/
def execLaunchQueueDescWrite (p q off v fromS : Nat) (s : State) : Out := .next (s.queueWrite p q (off / 8) v (fromS == 1))

/-- EVENT_RING_HEAD_WRITE (R412). -/
def execEventRingHeadWrite (p v : Nat) (s : State) : Out := .next (s.ringHead p v)

/-- EVENT_RING_DESC_WRITE (R412): the first double. -/
def execEventRingDescWrite (p v : Nat) (s : State) : Out := .next (s.ringWrite0 p v)

/-- REGISTER_WRITE (R4, R403): a write of a double at any window offset, from a view, by the host; what the access codes give, else nothing.
No host reaches the window of a part whose link is not up (R417). -/
def execRegisterWrite (off v view : Nat) (s : State) : Out := .next (if s.lanes = 0 then s else s.devWriteDouble view (off / 8 * 8) v)

/-! ### Other registers -/

def execLpoolWrite (p v : Nat) (s : State) : Out := .next (s.lpoolWrite p v)
def execLsplitWrite (t v : Nat) (s : State) : Out := .next (s.lsplitWrite t v)
def execLgrpWrite (t v : Nat) (s : State) : Out := .next (s.lgrpWrite t v)
def execLeaseWrite (p v : Nat) (s : State) : Out := .next (s.leaseWrite p v)
def execBalWrite (p v : Nat) (s : State) : Out := .next (s.balWrite p v)
def execRlimitWrite (t c v : Nat) (s : State) : Out := .next (s.rlimitWrite t c v)
def execHbperWrite (t v : Nat) (s : State) : Out := .next (s.hbperWrite t v)
def execHistWrite (t n v : Nat) (s : State) : Out := .next (s.histWrite t n v)
def execMprWrite (t c v : Nat) (s : State) : Out := .next (s.mprWrite t c v)
def execPtbrWrite (t c v : Nat) (s : State) : Out := .next (s.ptbrWrite t c v)
def execLsegWrite (t c i v : Nat) (s : State) : Out := .next (s.lsegWrite ⟨t, c, i⟩ v)
def execTsrWrite (t c i v : Nat) (s : State) : Out := .next (s.tsrWrite ⟨t, c, i⟩ v)

end Sys2Proof.Machine
end

