-- ==== Sys2Proof/Machine/Dispatch.lean ====
section
/-! DEFINITION. One arm for each row of spec/opcode_table.json. -/

namespace Sys2Proof.Machine

def exec (i : Instr) (s : State) : Host.Outcome State Fault Refusal :=
  match i with
  | .nop k f => Sys2Proof.Machine.execNop k f s
  | .add k f => Sys2Proof.Machine.execAdd k f s
  | .sub k f => Sys2Proof.Machine.execSub k f s
  | .addi k f => Sys2Proof.Machine.execAddi k f s
  | .mul k f => Sys2Proof.Machine.execMul k f s
  | .mulh k f => Sys2Proof.Machine.execMulh k f s
  | .mulhu k f => Sys2Proof.Machine.execMulhu k f s
  | .div k f => Sys2Proof.Machine.execDiv k f s
  | .divu k f => Sys2Proof.Machine.execDivu k f s
  | .rem k f => Sys2Proof.Machine.execRem k f s
  | .remu k f => Sys2Proof.Machine.execRemu k f s
  | .and k f => Sys2Proof.Machine.execAnd k f s
  | .or k f => Sys2Proof.Machine.execOr k f s
  | .xor k f => Sys2Proof.Machine.execXor k f s
  | .andn k f => Sys2Proof.Machine.execAndn k f s
  | .andi k f => Sys2Proof.Machine.execAndi k f s
  | .ori k f => Sys2Proof.Machine.execOri k f s
  | .xori k f => Sys2Proof.Machine.execXori k f s
  | .shl k f => Sys2Proof.Machine.execShl k f s
  | .shr k f => Sys2Proof.Machine.execShr k f s
  | .sra k f => Sys2Proof.Machine.execSra k f s
  | .rotr k f => Sys2Proof.Machine.execRotr k f s
  | .shli k f => Sys2Proof.Machine.execShli k f s
  | .shri k f => Sys2Proof.Machine.execShri k f s
  | .srai k f => Sys2Proof.Machine.execSrai k f s
  | .clz k f => Sys2Proof.Machine.execClz k f s
  | .ctz k f => Sys2Proof.Machine.execCtz k f s
  | .pcnt k f => Sys2Proof.Machine.execPcnt k f s
  | .bswap k f => Sys2Proof.Machine.execBswap k f s
  | .min k f => Sys2Proof.Machine.execMin k f s
  | .max k f => Sys2Proof.Machine.execMax k f s
  | .minu k f => Sys2Proof.Machine.execMinu k f s
  | .maxu k f => Sys2Proof.Machine.execMaxu k f s
  | .cmp k f => Sys2Proof.Machine.execCmp k f s
  | .cmpi k f => Sys2Proof.Machine.execCmpi k f s
  | .sel k f => Sys2Proof.Machine.execSel k f s
  | .pset k f => Sys2Proof.Machine.execPset k f s
  | .mov k f => Sys2Proof.Machine.execMov k f s
  | .movAl k f => Sys2Proof.Machine.execMovAl k f s
  | .movAh k f => Sys2Proof.Machine.execMovAh k f s
  | .movi k f => Sys2Proof.Machine.execMovi k f s
  | .ext k f => Sys2Proof.Machine.execExt k f s
  | .bfx k f => Sys2Proof.Machine.execBfx k f s
  | .bfi k f => Sys2Proof.Machine.execBfi k f s
  | .lea k f => Sys2Proof.Machine.execLea k f s
  | .adda k f => Sys2Proof.Machine.execAdda k f s
  | .suba k f => Sys2Proof.Machine.execSuba k f s
  | .subaD k f => Sys2Proof.Machine.execSubaD k f s
  | .mova k f => Sys2Proof.Machine.execMova k f s
  | .movaS k f => Sys2Proof.Machine.execMovaS k f s
  | .movaSh k f => Sys2Proof.Machine.execMovaSh k f s
  | .cmpa k f => Sys2Proof.Machine.execCmpa k f s
  | .movai k f => Sys2Proof.Machine.execMovai k f s
  | .br k f => Sys2Proof.Machine.execBr k f s
  | .bc k f => Sys2Proof.Machine.execBc k f s
  | .bcmp k f => Sys2Proof.Machine.execBcmp k f s
  | .bi k f => Sys2Proof.Machine.execBi k f s
  | .call k f => Sys2Proof.Machine.execCall k f s
  | .calli k f => Sys2Proof.Machine.execCalli k f s
  | .ret k f => Sys2Proof.Machine.execRet k f s
  | .jtab k f => Sys2Proof.Machine.execJtab k f s
  | .loop k f => Sys2Proof.Machine.execLoop k f s
  | .loopi k f => Sys2Proof.Machine.execLoopi k f s
  | .breakl k f => Sys2Proof.Machine.execBreakl k f s
  | .forkb k f => Sys2Proof.Machine.execForkb k f s
  | .join k f => Sys2Proof.Machine.execJoin k f s
  | .callat k f => Sys2Proof.Machine.execCallat k f s
  | .spawn k f => Sys2Proof.Machine.execSpawn k f s
  | .tdep k f => Sys2Proof.Machine.execTdep k f s
  | .signal k f => Sys2Proof.Machine.execSignal k f s
  | .texit k f => Sys2Proof.Machine.execTexit k f s
  | .yield k f => Sys2Proof.Machine.execYield k f s
  | .tqry k f => Sys2Proof.Machine.execTqry k f s
  | .cancelTask k f => Sys2Proof.Machine.execCancelTask k f s
  | .cancelLevel k f => Sys2Proof.Machine.execCancelLevel k f s
  | .lcnt k f => Sys2Proof.Machine.execLcnt k f s
  | .semp k f => Sys2Proof.Machine.execSemp k f s
  | .semv k f => Sys2Proof.Machine.execSemv k f s
  | .qpush k f => Sys2Proof.Machine.execQpush k f s
  | .qpop k f => Sys2Proof.Machine.execQpop k f s
  | .qstat k f => Sys2Proof.Machine.execQstat k f s
  | .ld k f => Sys2Proof.Machine.execLd k f s
  | .st k f => Sys2Proof.Machine.execSt k f s
  | .lda k f => Sys2Proof.Machine.execLda k f s
  | .sta k f => Sys2Proof.Machine.execSta k f s
  | .ldq k f => Sys2Proof.Machine.execLdq k f s
  | .stq k f => Sys2Proof.Machine.execStq k f s
  | .lds k f => Sys2Proof.Machine.execLds k f s
  | .stf k f => Sys2Proof.Machine.execStf k f s
  | .sete k f => Sys2Proof.Machine.execSete k f s
  | .feq k f => Sys2Proof.Machine.execFeq k f s
  | .pref k f => Sys2Proof.Machine.execPref k f s
  | .vld k f => Sys2Proof.Machine.execVld k f s
  | .vst k f => Sys2Proof.Machine.execVst k f s
  | .vlds k f => Sys2Proof.Machine.execVlds k f s
  | .vsts k f => Sys2Proof.Machine.execVsts k f s
  | .vgath k f => Sys2Proof.Machine.execVgath k f s
  | .vscat k f => Sys2Proof.Machine.execVscat k f s
  | .clean k f => Sys2Proof.Machine.execClean k f s
  | .disc k f => Sys2Proof.Machine.execDisc k f s
  | .zero k f => Sys2Proof.Machine.execZero k f s
  | .lr k f => Sys2Proof.Machine.execLr k f s
  | .sc k f => Sys2Proof.Machine.execSc k f s
  | .amo k f => Sys2Proof.Machine.execAmo k f s
  | .cas k f => Sys2Proof.Machine.execCas k f s
  | .red k f => Sys2Proof.Machine.execRed k f s
  | .append k f => Sys2Proof.Machine.execAppend k f s
  | .appendCfg k f => Sys2Proof.Machine.execAppendCfg k f s
  | .appendPop k f => Sys2Proof.Machine.execAppendPop k f s
  | .appendStat k f => Sys2Proof.Machine.execAppendStat k f s
  | .wrs k f => Sys2Proof.Machine.execWrs k f s
  | .fence k f => Sys2Proof.Machine.execFence k f s
  | .fencee k f => Sys2Proof.Machine.execFencee k f s
  | .rbegin k f => Sys2Proof.Machine.execRbegin k f s
  | .rcommit k f => Sys2Proof.Machine.execRcommit k f s
  | .rabort k f => Sys2Proof.Machine.execRabort k f s
  | .rstat k f => Sys2Proof.Machine.execRstat k f s
  | .rposB k f => Sys2Proof.Machine.execRposB k f s
  | .rposL k f => Sys2Proof.Machine.execRposL k f s
  | .vadd k f => Sys2Proof.Machine.execVadd k f s
  | .vsub k f => Sys2Proof.Machine.execVsub k f s
  | .vmul k f => Sys2Proof.Machine.execVmul k f s
  | .vfma k f => Sys2Proof.Machine.execVfma k f s
  | .vfms k f => Sys2Proof.Machine.execVfms k f s
  | .vmin k f => Sys2Proof.Machine.execVmin k f s
  | .vmax k f => Sys2Proof.Machine.execVmax k f s
  | .vabs k f => Sys2Proof.Machine.execVabs k f s
  | .vneg k f => Sys2Proof.Machine.execVneg k f s
  | .vrcp k f => Sys2Proof.Machine.execVrcp k f s
  | .vrsq k f => Sys2Proof.Machine.execVrsq k f s
  | .vexp2 k f => Sys2Proof.Machine.execVexp2 k f s
  | .vlog2 k f => Sys2Proof.Machine.execVlog2 k f s
  | .vdiv k f => Sys2Proof.Machine.execVdiv k f s
  | .vsqrt k f => Sys2Proof.Machine.execVsqrt k f s
  | .vand k f => Sys2Proof.Machine.execVand k f s
  | .vor k f => Sys2Proof.Machine.execVor k f s
  | .vxor k f => Sys2Proof.Machine.execVxor k f s
  | .vshl k f => Sys2Proof.Machine.execVshl k f s
  | .vshr k f => Sys2Proof.Machine.execVshr k f s
  | .vsra k f => Sys2Proof.Machine.execVsra k f s
  | .vcmp k f => Sys2Proof.Machine.execVcmp k f s
  | .vsel k f => Sys2Proof.Machine.execVsel k f s
  | .vcvt k f => Sys2Proof.Machine.execVcvt k f s
  | .vred k f => Sys2Proof.Machine.execVred k f s
  | .vscan k f => Sys2Proof.Machine.execVscan k f s
  | .vperm k f => Sys2Proof.Machine.execVperm k f s
  | .vbcast k f => Sys2Proof.Machine.execVbcast k f s
  | .vins k f => Sys2Proof.Machine.execVins k f s
  | .vext k f => Sys2Proof.Machine.execVext k f s
  | .vmov k f => Sys2Proof.Machine.execVmov k f s
  | .vmovi k f => Sys2Proof.Machine.execVmovi k f s
  | .kop k f => Sys2Proof.Machine.execKop k f s
  | .kmov k f => Sys2Proof.Machine.execKmov k f s
  | .vhist k f => Sys2Proof.Machine.execVhist k f s
  | .mma k f => Sys2Proof.Machine.execMma k f s
  | .mmat k f => Sys2Proof.Machine.execMmat k f s
  | .mmas k f => Sys2Proof.Machine.execMmas k f s
  | .mzero k f => Sys2Proof.Machine.execMzero k f s
  | .mrdv k f => Sys2Proof.Machine.execMrdv k f s
  | .mwrv k f => Sys2Proof.Machine.execMwrv k f s
  | .mst k f => Sys2Proof.Machine.execMst k f s
  | .mlda k f => Sys2Proof.Machine.execMlda k f s
  | .mprogGo k f => Sys2Proof.Machine.execMprogGo k f s
  | .mprogDrop k f => Sys2Proof.Machine.execMprogDrop k f s
  | .msync k f => Sys2Proof.Machine.execMsync k f s
  | .mstat k f => Sys2Proof.Machine.execMstat k f s
  | .cpy k f => Sys2Proof.Machine.execCpy k f s
  | .cpyc k f => Sys2Proof.Machine.execCpyc k f s
  | .cpyg k f => Sys2Proof.Machine.execCpyg k f s
  | .cbatch k f => Sys2Proof.Machine.execCbatch k f s
  | .cwaitb k f => Sys2Proof.Machine.execCwaitb k f s
  | .syncw k f => Sys2Proof.Machine.execSyncw k f s
  | .syncwt k f => Sys2Proof.Machine.execSyncwt k f s
  | .syncwtInit k f => Sys2Proof.Machine.execSyncwtInit k f s
  | .csyncWait k f => Sys2Proof.Machine.execCsyncWait k f s
  | .csyncStat k f => Sys2Proof.Machine.execCsyncStat k f s
  | .csyncGo k f => Sys2Proof.Machine.execCsyncGo k f s
  | .csyncDrop k f => Sys2Proof.Machine.execCsyncDrop k f s
  | .cgrp k f => Sys2Proof.Machine.execCgrp k f s
  | .cring k f => Sys2Proof.Machine.execCring k f s
  | .credu k f => Sys2Proof.Machine.execCredu k f s
  | .cgath k f => Sys2Proof.Machine.execCgath k f s
  | .cbar k f => Sys2Proof.Machine.execCbar k f s
  | .cwait k f => Sys2Proof.Machine.execCwait k f s
  | .lnew k f => Sys2Proof.Machine.execLnew k f s
  | .lmap k f => Sys2Proof.Machine.execLmap k f s
  | .lunmap k f => Sys2Proof.Machine.execLunmap k f s
  | .fork k f => Sys2Proof.Machine.execFork k f s
  | .rebase k f => Sys2Proof.Machine.execRebase k f s
  | .flatten k f => Sys2Proof.Machine.execFlatten k f s
  | .drop k f => Sys2Proof.Machine.execDrop k f s
  | .lnq k f => Sys2Proof.Machine.execLnq k f s
  | .ldiff k f => Sys2Proof.Machine.execLdiff k f s
  | .trap k f => Sys2Proof.Machine.execTrap k f s
  | .eret k f => Sys2Proof.Machine.execEret k f s
  | .csrr k f => Sys2Proof.Machine.execCsrr k f s
  | .csrw k f => Sys2Proof.Machine.execCsrw k f s
  | .csrx k f => Sys2Proof.Machine.execCsrx k f s
  | .tlbi k f => Sys2Proof.Machine.execTlbi k f s
  | .icinv k f => Sys2Proof.Machine.execIcinv k f s
  | .park k f => Sys2Proof.Machine.execPark k f s
  | .trwb k f => Sys2Proof.Machine.execTrwb k f s
  | .trwl k f => Sys2Proof.Machine.execTrwl k f s
  | .trwu k f => Sys2Proof.Machine.execTrwu k f s
  | .trwq k f => Sys2Proof.Machine.execTrwq k f s
  | .trowel k f => Sys2Proof.Machine.execTrowel k f s
  | .muCommandRun t c => Sys2Proof.Machine.execMuCommandRun t c s
  | .cuCopyRun t c => Sys2Proof.Machine.execCuCopyRun t c s
  | .syncArrival t c off amt => Sys2Proof.Machine.execSyncArrival t c off amt s
  | .collectiveRun t c => Sys2Proof.Machine.execCollectiveRun t c s
  | .chunkArrival n => Sys2Proof.Machine.execChunkArrival n s
  | .chunkAck t c rank seq idx => Sys2Proof.Machine.execChunkAck t c rank seq idx s
  | .chunkResend t c rank seq idx => Sys2Proof.Machine.execChunkResend t c rank seq idx s
  | .noPathLimit t c g => Sys2Proof.Machine.execNoPathLimit t c g s
  | .lineageBlockRecompose p node => Sys2Proof.Machine.execLineageBlockRecompose p node s
  | .lineageOpEnd p node => Sys2Proof.Machine.execLineageOpEnd p node s
  | .lineageUndo p node => Sys2Proof.Machine.execLineageUndo p node s
  | .classVResult t c th n => Sys2Proof.Machine.execClassVResult t c th n s
  | .lineRefetch t c th => Sys2Proof.Machine.execLineRefetch t c th s
  | .trapEntry t c th cause addr => Sys2Proof.Machine.execTrapEntry t c th cause addr s
  | .leaseGrant t line => Sys2Proof.Machine.execLeaseGrant t line s
  | .leaseExpiry t line => Sys2Proof.Machine.execLeaseExpiry t line s
  | .fifoSend t => Sys2Proof.Machine.execFifoSend t s
  | .storePerformAtSlice d line => Sys2Proof.Machine.execStorePerformAtSlice d line s
  | .releaseMarkerAck t => Sys2Proof.Machine.execReleaseMarkerAck t s
  | .ownershipArrival d line => Sys2Proof.Machine.execOwnershipArrival d line s
  | .rds ag line => Sys2Proof.Machine.execRds ag line s
  | .rdx ag line => Sys2Proof.Machine.execRdx ag line s
  | .upg ag line => Sys2Proof.Machine.execUpg ag line s
  | .wb ag line => Sys2Proof.Machine.execWb ag line s
  | .prs ag line => Sys2Proof.Machine.execPrs ag line s
  | .pri ag line => Sys2Proof.Machine.execPri ag line s
  | .prx ag line => Sys2Proof.Machine.execPrx ag line s
  | .snoopFilterVictim line => Sys2Proof.Machine.execSnoopFilterVictim line s
  | .notPresentAnswer ag line pid => Sys2Proof.Machine.execNotPresentAnswer ag line pid s
  | .hostRead pa mv => Sys2Proof.Machine.execHostRead pa mv s
  | .hostMemWr pa data => Sys2Proof.Machine.execHostMemWr pa data s
  | .bisnpAnswer pa rsp => Sys2Proof.Machine.execBisnpAnswer pa rsp s
  | .hostSnoop pa kind => Sys2Proof.Machine.execHostSnoop pa kind s
  | .reservationGrant line => Sys2Proof.Machine.execReservationGrant line s
  | .reservationRelease line => Sys2Proof.Machine.execReservationRelease line s
  | .lrTimeout t c th => Sys2Proof.Machine.execLrTimeout t c th s
  | .hostLineSnoopAnswer line => Sys2Proof.Machine.execHostLineSnoopAnswer line s
  | .inboxDelivery n => Sys2Proof.Machine.execInboxDelivery n s
  | .callatReturnDelivery n => Sys2Proof.Machine.execCallatReturnDelivery n s
  | .heldReturnDelivery t c => Sys2Proof.Machine.execHeldReturnDelivery t c s
  | .ldsWake t c th => Sys2Proof.Machine.execLdsWake t c th s
  | .wrsWake t c th => Sys2Proof.Machine.execWrsWake t c th s
  | .wrsTimeout t c th => Sys2Proof.Machine.execWrsTimeout t c th s
  | .joinRecheck t c th => Sys2Proof.Machine.execJoinRecheck t c th s
  | .parkTimeout t c th => Sys2Proof.Machine.execParkTimeout t c th s
  | .syncwWake t c th => Sys2Proof.Machine.execSyncwWake t c th s
  | .remoteLoadWake t c th => Sys2Proof.Machine.execRemoteLoadWake t c th s
  | .narrowingMessage n => Sys2Proof.Machine.execNarrowingMessage n s
  | .regionAccessAtSlice t c th line wr => Sys2Proof.Machine.execRegionAccessAtSlice t c th line wr s
  | .sealAtSlice t c th line => Sys2Proof.Machine.execSealAtSlice t c th line s
  | .finalPositionBroadcast t c th line => Sys2Proof.Machine.execFinalPositionBroadcast t c th line s
  | .regionAbort t c th cause tc => Sys2Proof.Machine.execRegionAbort t c th cause tc s
  | .tokenGrant t c th => Sys2Proof.Machine.execTokenGrant t c th s
  | .launchSlotPoll p q => Sys2Proof.Machine.execLaunchSlotPoll p q s
  | .launchStart p q => Sys2Proof.Machine.execLaunchStart p q s
  | .dispatch t => Sys2Proof.Machine.execDispatch t s
  | .overflowMove t => Sys2Proof.Machine.execOverflowMove t s
  | .stealRequest t => Sys2Proof.Machine.execStealRequest t s
  | .balance t => Sys2Proof.Machine.execBalance t s
  | .successorSignal n => Sys2Proof.Machine.execSuccessorSignal n s
  | .unitComplete t c => Sys2Proof.Machine.execUnitComplete t c s
  | .doneMessage p l t => Sys2Proof.Machine.execDoneMessage p l t s
  | .redAck n => Sys2Proof.Machine.execRedAck n s
  | .launchComplete p l => Sys2Proof.Machine.execLaunchComplete p l s
  | .preemptRequest t c => Sys2Proof.Machine.execPreemptRequest t c s
  | .eviction t c => Sys2Proof.Machine.execEviction t c s
  | .becomeResumable p n => Sys2Proof.Machine.execBecomeResumable p n s
  | .resume t => Sys2Proof.Machine.execResume t s
  | .foldedResume t n => Sys2Proof.Machine.execFoldedResume t n s
  | .nonresidentTraffic n => Sys2Proof.Machine.execNonresidentTraffic n s
  | .watchdogStep1 p q => Sys2Proof.Machine.execWatchdogStep1 p q s
  | .watchdogStep2 p q => Sys2Proof.Machine.execWatchdogStep2 p q s
  | .watchdogStep3 p q => Sys2Proof.Machine.execWatchdogStep3 p q s
  | .heartbeatSend t dir => Sys2Proof.Machine.execHeartbeatSend t dir s
  | .heartbeatReceive t dir tid hseq health => Sys2Proof.Machine.execHeartbeatReceive t dir tid hseq health s
  | .periodJudgement t dir => Sys2Proof.Machine.execPeriodJudgement t dir s
  | .accusation t target accuser judge => Sys2Proof.Machine.execAccusation t target accuser judge s
  | .voteExpiry t dir => Sys2Proof.Machine.execVoteExpiry t dir s
  | .fenceLearn die x cause => Sys2Proof.Machine.execFenceLearn die x cause s
  | .orphanDiscard n => Sys2Proof.Machine.execOrphanDiscard n s
  | .firmwareReferral x fence => Sys2Proof.Machine.execFirmwareReferral x fence s
  | .bistResult t pass => Sys2Proof.Machine.execBistResult t pass s
  | .appeal t dir => Sys2Proof.Machine.execAppeal t dir s
  | .probationEnd t => Sys2Proof.Machine.execProbationEnd t s
  | .appealTimeout t => Sys2Proof.Machine.execAppealTimeout t s
  | .correctableError kind id => Sys2Proof.Machine.execCorrectableError kind id s
  | .bucketLeak kind id => Sys2Proof.Machine.execBucketLeak kind id s
  | .ueDetected t c th va => Sys2Proof.Machine.execUeDetected t c th va s
  | .registerUe t c th => Sys2Proof.Machine.execRegisterUe t c th s
  | .dramScrub line => Sys2Proof.Machine.execDramScrub line s
  | .sdc t c th addr unit => Sys2Proof.Machine.execSdc t c th addr unit s
  | .sdcCountSave => Sys2Proof.Machine.execSdcCountSave s
  | .dieFail d => Sys2Proof.Machine.execDieFail d s
  | .partFail q => Sys2Proof.Machine.execPartFail q s
  | .laneFailure port => Sys2Proof.Machine.execLaneFailure port s
  | .portDown link => Sys2Proof.Machine.execPortDown link s
  | .d2dWireSpare j => Sys2Proof.Machine.execD2dWireSpare j s
  | .currentMonitorSample d amps => Sys2Proof.Machine.execCurrentMonitorSample d amps s
  | .powerSample amps watts temp => Sys2Proof.Machine.execPowerSample amps watts temp s
  | .coldReset fails => Sys2Proof.Machine.execColdReset fails s
  | .fatalDump cause => Sys2Proof.Machine.execFatalDump cause s
  | .firmwareWatchdog => Sys2Proof.Machine.execFirmwareWatchdog s
  | .attest => Sys2Proof.Machine.execAttest s
  | .partcfg => Sys2Proof.Machine.execPartcfg s
  | .dump => Sys2Proof.Machine.execDump s
  | .clearsr => Sys2Proof.Machine.execClearsr s
  | .dumpack => Sys2Proof.Machine.execDumpack s
  | .opkey => Sys2Proof.Machine.execOpkey s
  | .launchQueueTailWrite p q v => Sys2Proof.Machine.execLaunchQueueTailWrite p q v s
  | .launchQueueEnable p q v fromS => Sys2Proof.Machine.execLaunchQueueEnable p q v fromS s
  | .launchQueueDescWrite p q off v fromS => Sys2Proof.Machine.execLaunchQueueDescWrite p q off v fromS s
  | .eventRingHeadWrite p v => Sys2Proof.Machine.execEventRingHeadWrite p v s
  | .eventRingDescWrite p v => Sys2Proof.Machine.execEventRingDescWrite p v s
  | .lpoolWrite p v => Sys2Proof.Machine.execLpoolWrite p v s
  | .lsplitWrite t v => Sys2Proof.Machine.execLsplitWrite t v s
  | .lgrpWrite t v => Sys2Proof.Machine.execLgrpWrite t v s
  | .leaseWrite p v => Sys2Proof.Machine.execLeaseWrite p v s
  | .balWrite p v => Sys2Proof.Machine.execBalWrite p v s
  | .rlimitWrite t c v => Sys2Proof.Machine.execRlimitWrite t c v s
  | .hbperWrite t v => Sys2Proof.Machine.execHbperWrite t v s
  | .histWrite t n v => Sys2Proof.Machine.execHistWrite t n v s
  | .mprWrite t c v => Sys2Proof.Machine.execMprWrite t c v s
  | .ptbrWrite t c v => Sys2Proof.Machine.execPtbrWrite t c v s
  | .lsegWrite t c th v => Sys2Proof.Machine.execLsegWrite t c th v s
  | .tsrWrite t c th v => Sys2Proof.Machine.execTsrWrite t c th v s
  | .registerWrite off v view => Sys2Proof.Machine.execRegisterWrite off v view s
  | .spuriousWake t c th => Sys2Proof.Machine.execSpuriousWake t c th s
  | .yieldHoldExpiry t c th => Sys2Proof.Machine.execYieldHoldExpiry t c th s
  | .lineEviction kind ag line => Sys2Proof.Machine.execLineEviction kind ag line s

end Sys2Proof.Machine
end

