-- ==== Sys2Proof/Machine/Due.lean ====
section
/-! DEFINITION. The steps of other agents that move the machine when its agenda is empty and no thread of the tile in focus
can issue (log 2). -/

namespace Sys2Proof.Machine

/-- Steps that may be due for a thread. -/
def dueThread (s : State) (k : Key) : List (State → Out) :=
  let x := s.getThread k
  let results := ((List.range x.pend.length).filter fun n => (x.pend[n]?).any (x.mayReturn n)).map fun n =>
    execClassVResult k.t k.c k.i n
  let wake : List (State → Out) :=
    match x.wait with
    | .lds _ | .ldsMet _ => [execLdsWake k.t k.c k.i]
    | .wrs _ _ false => [execWrsTimeout k.t k.c k.i]
    | .wrsMet _ => [execWrsWake k.t k.c k.i]
    | .join _ _ => [execJoinRecheck k.t k.c k.i]
    | .syncw _ _ => [execSyncwWake k.t k.c k.i]
    | .park (some _) => [execParkTimeout k.t k.c k.i]
    | .yield _ => [execYieldHoldExpiry k.t k.c k.i]
    | .remote _ => [execRemoteLoadWake k.t k.c k.i]
    | .token => [execTokenGrant k.t k.c k.i]
    | _ => []
  let region : List (State → Out) :=
    match x.region with
    | none => []
    | some r =>
      if r.committed then ((r.reads ++ r.writes).filter fun l => !r.told.contains l).map fun l => execFinalPositionBroadcast k.t k.c k.i l
      else match r.sealing with
        | some got => ((r.reads ++ r.writes).filter fun l => !got.contains l).map fun l => execSealAtSlice k.t k.c k.i l
        | none => []
  results ++ wake ++ region ++ (if x.resv.isSome then [execLrTimeout k.t k.c k.i] else [])

/-- Steps that may be due for a context of a tile. -/
def dueCtx (s : State) (t c : Nat) : List (State → Out) :=
  let x := s.getCtx t c
  if !x.live then []
  else
    (ctxKeys t c).flatMap (dueThread s) ++
    (if x.mu.q.isEmpty || x.mu.stop then [] else [execMuCommandRun t c]) ++
    (match x.cu.q with | [] => [] | q :: _ => if q.isCopy then [execCuCopyRun t c] else [execCollectiveRun t c]) ++
    (if x.ended || x.killed.isSome then [execUnitComplete t c] else []) ++
    (if x.held.isEmpty then [] else [execHeldReturnDelivery t c]) ++
    (if s.outranked t c && !x.preempt then [execPreemptRequest t c] else []) ++
    (if x.preempt || x.leaving then [execEviction t c] else []) ++
    x.groups.flatMap fun g => g.2.kept.map fun d =>
      execChunkAck t c ((g.2.members.findIdx? fun m => m == (d.dstTile, d.dstFab)).getD 0) d.seq d.idx

/-- Steps that may be due at a tile and at its die. -/
def dueTile (s : State) (t : Nat) : List (State → Out) :=
  let x := s.getTile t
  let d := dieOf t
  let y := s.getDie d
  (match x.fifo with | [] => [] | .store _ :: _ => [execFifoSend t] | .marker _ _ :: _ => [execReleaseMarkerAck t]) ++
  (if x.deque.isEmpty then [] else [execDispatch t, execResume t]) ++
  (if y.overflow.isEmpty then [] else [execOverflowMove t]) ++
  ((y.waitSt.map fun z => lineOf z.a).eraseDups.map fun l => execStorePerformAtSlice d l) ++
  y.owned.map fun l => execOwnershipArrival d l

/-- Steps that may be due at the homes of lines: requests taken up, probes answered, and requests for lines that the host may hold (R244 to
R251). -/
def dueHome (s : State) : List (State → Out) :=
  (s.homeq.flatMap fun e => e.2.map fun q => execRds q.ag e.1) ++
  (s.txns.flatMap fun e => e.2.await.flatMap fun ag =>
    [execPrs ag e.1, execPri ag e.1, execPrx ag e.1, execNotPresentAnswer ag e.1 e.2.pid]) ++
  (s.filter.filter fun e => e.2.h).flatMap fun e =>
    [execRds (s.agentOf (dieOf s.cur.t)) e.1, execRdx (s.queueAgent e.1) e.1, execUpg (s.queueAgent e.1) e.1]

/-- The step that delivers a message. -/
def dueMsg (n : Nat) : Msg → State → Out
  | .append _ _ _ _ _ _ _ _ => execInboxDelivery n
  | .callRet _ _ _ _ => execCallatReturnDelivery n
  | .signal _ _ _ _ _ _ => execSuccessorSignal n

/-- Steps that may be due in the part. -/
def duePart (s : State) : List (State → Out) :=
  (s.resvq.flatMap fun e => [execReservationGrant e.1, execReservationRelease e.1]) ++
  (s.msgs.zipIdx.flatMap fun m => if s.orphan m.1 then [execOrphanDiscard m.2] else [dueMsg m.2 m.1]) ++
  (s.beats.map fun b => execHeartbeatReceive b.dst b.dir b.tile b.hseq b.health) ++
  (s.accs.map fun a => execAccusation a.dst a.target a.who a.judge) ++
  (s.casts.flatMap fun c => c.left.map fun d => execFenceLearn d c.x c.cause) ++
  (if s.narrows.isEmpty then [] else [execNarrowingMessage 0]) ++
  ((List.range s.reds.length).map execRedAck) ++
  ((List.range s.away.length).map execNonresidentTraffic) ++
  ((List.range s.net.length).map execChunkArrival) ++
  s.parts.flatMap fun p =>
    (p.2.queues.flatMap fun q =>
      if !q.2.en || q.2.head == q.2.tail then [] else if q.2.ready then [execLaunchStart p.1 q.1] else [execLaunchSlotPoll p.1 q.1]) ++
    (p.2.queues.flatMap fun q => [execWatchdogStep1 p.1 q.1, execWatchdogStep2 p.1 q.1, execWatchdogStep3 p.1 q.1]) ++
    (p.2.launches.flatMap fun l => if l.2.complete then [] else 
      (((setTiles l.2.tset).filter fun t => (SMap.find l.2.reported t).isNone).map (execDoneMessage p.1 l.1)) ++ [execLaunchComplete p.1 l.1]) ++
    ((List.range p.2.parked.length).map (execBecomeResumable p.1)) ++
    p.2.nodes.flatMap fun n =>
      match n.2.busy with
      | none => []
      | some e => if e.undo then [execLineageUndo p.1 n.1, execLineageOpEnd p.1 n.1] else [execLineageBlockRecompose p.1 n.1, execLineageOpEnd p.1 n.1]

/-- Steps of other agents near the tile in focus that may be due. -/
def dueSteps (s : State) : List (State → Out) :=
  ((List.range 4).flatMap (dueCtx s s.cur.t)) ++ dueTile s s.cur.t ++ dueHome s ++ duePart s

end Sys2Proof.Machine
end

