-- ==== Sys2Proof/Machine/Step.lean ====
section
/-! DEFINITION. One step of the machine, and placing an instruction where the next step fetches it. -/

namespace Sys2Proof.Machine

/-- One step: what the agenda says, or the next turn of the tile in focus. -/
def step (s : State) : Host.Outcome State Fault Refusal := s.move exec dueSteps

/-- `s` with the instruction whose low `nbits` bits are `w` where the next step fetches (log 13). -/
def State.withFetchWord (s : State) (nbits w : Nat) : State := s.placeWord (w % 2 ^ nbits)

end Sys2Proof.Machine
end

