-- ==== Sys2Proof/Safety.lean ====
section
/-! DEFINITION. What counts as a safe run, and the terms in which claims about instructions are made: when an instruction
reaches its own effect, where execution goes on after it, and what it left as it was. -/

namespace Sys2Proof

open Sys2Proof.Machine

/-- The next `n` steps from a state each answer a next state. -/
def safeFor : Nat → State → Bool
  | 0, _ => true
  | n + 1, s =>
    match step s with
    | .next t => safeFor n t
    | .fault _ => false
    | .refused _ => false

end Sys2Proof

namespace Sys2Proof.Machine

/-- The thread in focus reaches the own effect of an instruction with this opcode and control field that names these counted
registers: the thread lives and owes no trap or abort (R39, R95, R287, R298, R339); no value it must hand to the thread that
trails it is outstanding, and no store of its waits in the comparator before what the instruction does to others (R393); its region may hold the instruction (R287); the registers are within the kernel header's
counts (R30); the thread acts in the role the instruction needs (R33); a switch marker finds no result to wait for (R38); and
the predicate holds (R60), unless the thread takes up an instruction that waited. -/
def State.ready (s : State) (op : Nat) (k : Ctl) (regs : List Reg) : Bool :=
  s.thr.life == .live && s.owed.isNone && !s.valueOwed op && !(s.thr.region.isSome && regionIllegal op) &&
  regs.all s.ctx.has && (roleOf op).all (· == s.actsAs) && (!k.s || s.waitS.isNone) &&
  (s.thr.retry.isSome || s.rp k.pg != k.pn)

/-- The state in which the effect begins: a wait is over. -/
def State.begun (s : State) : State := { s with thr := { s.thr with wait := .none } }

/-- The loop registers and the PC after the thread's instruction, when it has no transfer of its own (R48, R85); none when it
ends a loop's turn and the transfer to the loop's start would trap (R49), or has its line fetched a second time (R50). -/
def State.flow (s : State) : Option (Loops × Addr) :=
  match s.thr.loops.close s.thr.pc with
  | (l, none) => some (l, nextPC s.thr.pc)
  | (l, some t) => if (s.target t).isNone && s.wordOk t then some (l, t) else none

/-- A state with the thread in focus moved on to these loop registers and this PC, one instruction later. -/
def State.moved (s : State) (f : Loops × Addr) : State :=
  { s with thr := { s.thr with loops := f.1, pc := f.2, young := false }, fresh := s.fresh + 1 }

/-! ### What an instruction leaves as it was -/

/-- Every byte of memory reads as before: of DRAM and the host, of any tile's scratchpads, and as any tile's loads see it. -/
structure SameMemory (s t : State) : Prop where
  mem  : ∀ a, Memory.read t.mem a = Memory.read s.mem a
  sram : ∀ k b n, t.sramBytes k b n = s.sramBytes k b n
  seen : ∀ k l, t.tileLine k l = s.tileLine k l

/-- Every special register, and all else of the thread, but its register file, its outstanding results, its loop registers and
its PC, is as before. -/
def SameSpecial (x y : Thread) : Prop :=
  y = { x with sr := y.sr, ar := y.ar, vr := y.vr, kr := y.kr, pr := y.pr, pend := y.pend, loops := y.loops, pc := y.pc,
               young := false, wait := .none }

/-- Outside the thread in focus nothing has changed: no other thread, context, tile, die, partition, line or message. (`fresh`
is the model's counter for free values, log 6.) -/
def SameMachine (s t : State) : Prop := t = { s with thr := t.thr, fresh := s.fresh + 1 }

/-- `t` is `s` after an instruction whose one effect is that register `r` holds `v`: every other register, every special
register, memory and the rest of the machine are as before, and execution goes on. A register that discards writes keeps its
constant (R29). -/
structure Wrote (s t : State) (r : Reg) (v : Vec) : Prop where
  value   : r.fixed = false → t.thr.reg r = v
  others  : ∀ q, q ≠ r ∨ r.fixed = true → t.thr.reg q = s.thr.reg q
  results : t.thr.pend = (s.thr.clobber r).pend
  special : SameSpecial s.thr t.thr
  machine : SameMachine s t
  memory  : SameMemory s t
  onward  : s.flow = some (t.thr.loops, t.thr.pc)

/-- `t` is `s` after an instruction of class V whose results are still to come (R38): it has left the values `ds`, which need
`what` before they return, with the condition `cond` if one came with its response, and nothing else has changed but that
execution goes on, TSR reads `tsr`, and an uncorrectable error first found there parks the issue slot (R388). -/
structure Left (s t : State) (what : PendK) (ds : List (Reg × Vec)) (cond : Option (Nat × Addr) := none)
    (tsr : Word := s.thr.tsr) : Prop where
  results : t.thr.pend = (ds.foldl (fun x d => x.clobber d.1) s.thr).pend ++
    [{ id := s.fresh, pc := s.thr.pc, what := what,
       dests := (ds.filter fun d => !d.1.fixed).map fun d => { r := d.1, v := d.2 }, cond := cond }]
  regs    : ∀ q, t.thr.reg q = s.thr.reg q
  special : SameSpecial (({ s.thr with tsr := tsr } : Thread).stalls s.plumb cond) t.thr
  machine : SameMachine s t
  memory  : SameMemory s t
  onward  : s.flow = some (t.thr.loops, t.thr.pc)

/-- `t` is `s` after an instruction that changes no register: every register, special register, result still to come, byte of
memory and all else are as before, and execution goes on. -/
structure Kept (s t : State) : Prop where
  regs    : ∀ q, t.thr.reg q = s.thr.reg q
  results : t.thr.pend = s.thr.pend
  special : SameSpecial s.thr t.thr
  machine : SameMachine s t
  memory  : SameMemory s t
  onward  : s.flow = some (t.thr.loops, t.thr.pc)

/-! ### Claims about one instruction -/

/-- Wherever it reaches its own effect and execution can go on, the instruction completes, and writes `v` to `r` and nothing else. -/
def Writes (i : Instr) (s : State) (op : Nat) (k : Ctl) (regs : List Reg) (r : Reg) (v : Vec) : Prop :=
  s.ready op k regs = true → s.flow.isSome = true → ∃ t, exec i s = .next t ∧ Wrote s t r v

/-- Wherever it reaches its own effect and execution can go on, the instruction completes, and leaves results to come. -/
def Leaves (i : Instr) (s : State) (op : Nat) (k : Ctl) (regs : List Reg) (what : PendK) (ds : List (Reg × Vec))
    (cond : Option (Nat × Addr) := none) (tsr : Word := s.thr.tsr) : Prop :=
  s.ready op k regs = true → s.flow.isSome = true → ∃ t, exec i s = .next t ∧ Left s t what ds cond tsr

/-- Wherever it reaches its own effect and execution can go on, the instruction completes and changes nothing. -/
def Keeps (i : Instr) (s : State) (op : Nat) (k : Ctl) (regs : List Reg) : Prop :=
  s.ready op k regs = true → s.flow.isSome = true → ∃ t, exec i s = .next t ∧ Kept s t

/-- Wherever it reaches its own effect and execution can go on from `u`, the instruction completes, and its next state is `u`
moved on by one instruction: all that it changes is what `u` changes of `s`. -/
def Becomes (i : Instr) (s : State) (op : Nat) (k : Ctl) (regs : List Reg) (u : State) : Prop :=
  s.ready op k regs = true → ∀ p, u.flow = some p → exec i s = .next (u.moved p)

/-- A state with the thread in focus at a transfer's target, one instruction later (R49); a target's line whose parity failed has
been fetched a second time (R50). -/
def State.jumped (s : State) (p : Addr) : State :=
  let u := s.wordSeen p
  { u with thr := { u.thr with pc := p, young := false }, fresh := u.fresh + 1 }

/-- Wherever it reaches its own effect, the instruction transfers from the state `u` to `p`, where R49 lets it; where not, it traps
with the cause that R49 gives. All that it changes is what `u` changes of `s`. -/
def Jumps (i : Instr) (s : State) (op : Nat) (k : Ctl) (regs : List Reg) (u : State) (p : Addr) : Prop :=
  s.ready op k regs = true →
    (s.target p = none → exec i s = .next (u.jumped p)) ∧
    ∀ c a, s.target p = some (c, a) → exec i s = .next ((s.wordSeen p).take c a).tickFresh

/-! ### Accesses that are made now -/

/-- R244, R247. The state in which checked loads are bound: the lines that they miss, and that nothing delays, have come to the tile's die. -/
def State.filled (s : State) (l : List (Addr × List Piece)) : State := s.fillLoads s.cur.t s.ctx.pid (allPieces l)

/-- R226, R227, R237, R238, R244, R251, R259, R295, R381, R393. Checked loads of the thread are made now: nothing older holds them back, no
unit or tile must answer first, no sealed region is to write their lines, and no line that they miss waits for a store, for the host or for
another request at its home; the thread is in no region and has no redundant partner. -/
def LoadsNow (s : State) (l : List (Addr × List Piece)) (ordq : Nat := 0) : Prop :=
  s.waits l = none ∧ s.thr.region = none ∧ s.solo = true ∧ (s.filled l).loadHeld (allPieces l) ordq = false

/-- The bytes of loads, piece by piece, as the thread's tile sees them. -/
def loadedBytes (s : State) (repl : Bool) (l : List (Addr × List Piece)) : List Byte :=
  (allPieces l).flatMap fun p =>
    (s.filled l).readPlace s.me (if repl || p.spot.repl then .replica else .tile) p.spot.place p.n

/-- What loads leave beside their result: the lines that they missed are with the die (R244), the replicas that they make lie in the slice
beside the tile (R241), the translations they used are in the tile's TLB (R356), and destinations of collectives that are not complete have
been read (R424). -/
def State.looked (s : State) (repl : Bool) (l : List (Addr × List Piece)) : State :=
  (((s.filled l).makeReplicas (allPieces l) repl).noteAll l).spoilDests (allPieces l)

/-- `t` is `s` with lines moved between the agents that hold them and their homes: no register, special register, tile, die, scratchpad or
message is changed; a thread that monitors a line may wake, and a region on it abort. -/
structure LinesMoved (s t : State) : Prop where
  all     : t = { s with
    thr := { s.thr with wait := t.thr.wait, region := t.thr.region }, threads := t.threads, parts := t.parts, agents := t.agents
    wbufs := t.wbufs, mem := t.mem, filter := t.filter, txns := t.txns }
  regions : s.thr.region = none → t.thr.region = none
  waits   : s.thr.wait = .none → t.thr.wait = .none

/-- The state after loads have been made: a result is to come with the values `ds`, or with the condition of the first access that met a
poisoned double, UE when it finds its error and else POISON (R388). A plain load of memory may bind later, at the machine's choice (R226, R229,
log 7); `fix` says what then becomes of its bytes. -/
def afterLoads (s : State) (repl : Bool) (l : List (Addr × List Piece)) (ds : List (Reg × Vec)) (ordq : Nat := 0)
    (fix : Unbound → Unbound := id) : State :=
  (s.looked repl l).leaveLoad ds ((l.find? fun e => s.poisoned e.2).map fun e => (s.badCause e.2, e.1))
    ((s.bindsLate l repl ordq).map fix)

/-- R226 to R228, R238, R259, R381, R391, R393. Checked stores of the thread are made now, and the state they leave is `u`: nothing
older holds them back; no unit, tile or failed die must answer; a release waits for the older read-modify-writes; a place performed
at once waits for what it must follow; the FIFO has room. A release at die scope or wider puts a marker before its store, and a
store that returns when it is performed leaves a result to come. -/
def StoresNow (s : State) (as : List (Addr × List Byte)) (ordq align : Nat) (drop : Bool) (u : State) : Prop :=
  ∃ l t, s.checkAll .w align (as.map fun e => (e.1, e.2.length)) = .ok l ∧ s.waits l = none ∧ s.thr.region = none ∧
    s.solo = true ∧ (ordered ordq = true → s.thr.owesRmw = false) ∧ (∀ p ∈ allPieces l, s.onFailedDie p = false) ∧
    s.storeBlocked (allPieces l) ordq = false ∧
    (s.noteAll l).sendStores drop ordq (allPieces l) (as.flatMap (·.2)) = some t ∧
    let v := t.spoilPieces (allPieces l)
    u = match storePend ordq (allPieces l) with | some scope => v.leave (.store scope) [] | none => v

end Sys2Proof.Machine
end

