-- ==== Sys2Proof/Certificates/Slice0/Obligations.lean ====
section
/-! DEFINITION. The statements for the provers. -/

open Sys2Proof Sys2Proof.Machine

/-! ### The scalar group (R66, R71 to R78) -/

/-- R72. Each integer arithmetic instruction completes with its result in s[D] (read back as the constant when D is s0) and
changes nothing else: the sum or difference as `FN` says (0 wraps, 1 clamps the signed result, 2 the unsigned one), the low half
of the product, and the high half of the signed and of the unsigned product. -/
def Obligations.ScalarArithmeticResults : Prop := ∀ (s : State) (k : Ctl) (f : FRR) (g : FRI),
  let x := s.rs f.a
  let y := s.rs f.b 1
  let z : Word := BitVec.ofNat 64 g.imm
  let sat := fun (n : Int) => BitVec.ofInt 64 (max (-(2 ^ 63)) (min (2 ^ 63 - 1) n))
  let usat := fun (n : Int) => BitVec.ofNat 64 (min (2 ^ 64 - 1) n.toNat)
  Writes (.add k f) s 0x001 k [.s f.d, .s f.a, .s f.b] (.s f.d)
    (ofWord (if f.fn = 0 then x + y else if f.fn = 1 then sat (x.toInt + y.toInt) else usat (x.toNat + y.toNat))) ∧
  Writes (.sub k f) s 0x002 k [.s f.d, .s f.a, .s f.b] (.s f.d)
    (ofWord (if f.fn = 0 then x - y else if f.fn = 1 then sat (x.toInt - y.toInt) else usat ((x.toNat : Int) - y.toNat))) ∧
  Writes (.addi k g) s 0x003 k [.s g.d, .s g.a] (.s g.d)
    (ofWord (if g.fn = 0 then s.rs g.a + z else if g.fn = 1 then sat ((s.rs g.a).toInt + z.toInt)
      else usat ((s.rs g.a).toNat + z.toNat))) ∧
  Writes (.mul k f) s 0x004 k [.s f.d, .s f.a, .s f.b] (.s f.d) (ofWord (BitVec.ofNat 64 (x.toNat * y.toNat))) ∧
  Writes (.mulh k f) s 0x005 k [.s f.d, .s f.a, .s f.b] (.s f.d)
    (ofWord ((BitVec.ofInt 128 (x.toInt * y.toInt)).extractLsb' 64 64)) ∧
  Writes (.mulhu k f) s 0x006 k [.s f.d, .s f.a, .s f.b] (.s f.d)
    (ofWord ((BitVec.ofNat 128 (x.toNat * y.toNat)).extractLsb' 64 64))

/-- R72 and R73. Division has no trap: DIV rounds the signed quotient toward zero and DIVU gives the unsigned one, all ones for a
divisor of 0; REM has the sign of the dividend, and REM and REMU give the dividend for a divisor of 0. DIV of −2^63 by −1 is
−2^63, which the signed quotient 2^63 wraps to. -/
def Obligations.DivisionResults : Prop := ∀ (s : State) (k : Ctl) (f : FRR),
  let x := s.rs f.a
  let y := s.rs f.b 1
  let regs : List Reg := [.s f.d, .s f.a, .s f.b]
  Writes (.div k f) s 0x007 k regs (.s f.d)
    (ofWord (if y = 0 then BitVec.allOnes 64 else BitVec.ofInt 64 (x.toInt.tdiv y.toInt))) ∧
  Writes (.divu k f) s 0x008 k regs (.s f.d)
    (ofWord (if y = 0 then BitVec.allOnes 64 else BitVec.ofNat 64 (x.toNat / y.toNat))) ∧
  Writes (.rem k f) s 0x009 k regs (.s f.d)
    (ofWord (if y = 0 then x else BitVec.ofInt 64 (x.toInt.tmod y.toInt))) ∧
  Writes (.remu k f) s 0x00A k regs (.s f.d)
    (ofWord (if y = 0 then x else BitVec.ofNat 64 (x.toNat % y.toNat)))

/-- R74. Logic, shifts and rotation, with a shift count of bits [5:0]: each completes with its result in s[D] and changes nothing
else. Bit i of a left shift by n is bit i − n of the operand, of a right shift bit i + n, zeros or copies of bit 63 entering, and
of a rotation bit (i + n) mod 64. -/
def Obligations.LogicAndShiftResults : Prop := ∀ (s : State) (k : Ctl) (f : FRR) (g : FRI),
  let x := s.rs f.a
  let y := s.rs f.b 1
  let w := s.rs g.a
  let z : Word := BitVec.ofNat 64 g.imm
  let n := y.toNat % 64
  let m := g.imm % 64
  let r3 : List Reg := [.s f.d, .s f.a, .s f.b]
  let r2 : List Reg := [.s g.d, .s g.a]
  let word := fun (b : Nat → Bool) => ofWord (BitVec.ofFnLE fun i : Fin 64 => b i)
  Writes (.and k f) s 0x010 k r3 (.s f.d) (ofWord (x &&& y)) ∧
  Writes (.or k f) s 0x011 k r3 (.s f.d) (ofWord (x ||| y)) ∧
  Writes (.xor k f) s 0x012 k r3 (.s f.d) (ofWord (x ^^^ y)) ∧
  Writes (.andn k f) s 0x013 k r3 (.s f.d) (word fun i => x.getLsbD i && !y.getLsbD i) ∧
  Writes (.andi k g) s 0x014 k r2 (.s g.d) (ofWord (w &&& z)) ∧
  Writes (.ori k g) s 0x015 k r2 (.s g.d) (ofWord (w ||| z)) ∧
  Writes (.xori k g) s 0x016 k r2 (.s g.d) (ofWord (w ^^^ z)) ∧
  Writes (.shl k f) s 0x018 k r3 (.s f.d) (word fun i => decide (n ≤ i) && x.getLsbD (i - n)) ∧
  Writes (.shr k f) s 0x019 k r3 (.s f.d) (word fun i => x.getLsbD (i + n)) ∧
  Writes (.sra k f) s 0x01A k r3 (.s f.d) (word fun i => if i + n < 64 then x.getLsbD (i + n) else x.getLsbD 63) ∧
  Writes (.rotr k f) s 0x01B k r3 (.s f.d) (word fun i => x.getLsbD ((i + n) % 64)) ∧
  Writes (.shli k g) s 0x01C k r2 (.s g.d) (word fun i => decide (m ≤ i) && w.getLsbD (i - m)) ∧
  Writes (.shri k g) s 0x01D k r2 (.s g.d) (word fun i => w.getLsbD (i + m)) ∧
  Writes (.srai k g) s 0x01E k r2 (.s g.d) (word fun i => if i + m < 64 then w.getLsbD (i + m) else w.getLsbD 63)

/-- R74. Counts and byte reversal: CLZ and CTZ give the number of zeros above the highest and below the lowest one, 64 for 0;
PCNT the number of ones; BSWAP byte 7 − i at byte i; MIN, MAX, MINU and MAXU one of the operands that no other is below or above. -/
def Obligations.CountAndMinimumResults : Prop := ∀ (s : State) (k : Ctl) (f : FRR),
  let x := s.rs f.a
  let y := s.rs f.b 1
  let r3 : List Reg := [.s f.d, .s f.a, .s f.b]
  (∃ n ≤ 64, (n < 64 → x.getLsbD (63 - n) = true) ∧ (∀ i < n, x.getLsbD (63 - i) = false) ∧
    Writes (.clz k f) s 0x020 k r3 (.s f.d) (ofWord (BitVec.ofNat 64 n))) ∧
  (∃ n ≤ 64, (n < 64 → x.getLsbD n = true) ∧ (∀ i < n, x.getLsbD i = false) ∧
    Writes (.ctz k f) s 0x021 k r3 (.s f.d) (ofWord (BitVec.ofNat 64 n))) ∧
  Writes (.pcnt k f) s 0x022 k r3 (.s f.d)
    (ofWord (BitVec.ofNat 64 ((List.range 64).countP fun i => x.getLsbD i))) ∧
  Writes (.bswap k f) s 0x023 k r3 (.s f.d)
    (ofWord (BitVec.ofFnLE fun i : Fin 64 => x.getLsbD (56 - 8 * (i / 8) + i % 8))) ∧
  Writes (.min k f) s 0x024 k r3 (.s f.d) (ofWord (BitVec.ofInt 64 (min x.toInt y.toInt))) ∧
  Writes (.max k f) s 0x025 k r3 (.s f.d) (ofWord (BitVec.ofInt 64 (max x.toInt y.toInt))) ∧
  Writes (.minu k f) s 0x026 k r3 (.s f.d) (ofWord (BitVec.ofNat 64 (min x.toNat y.toNat))) ∧
  Writes (.maxu k f) s 0x027 k r3 (.s f.d) (ofWord (BitVec.ofNat 64 (max x.toNat y.toNat)))

/-- The condition codes of R59: 0 EQ, 1 NE, 2 LT, 3 GE, 4 LTU, 5 GEU. -/
def condHolds (c : Nat) (x y : Word) : Bool :=
  if c = 0 then decide (x = y) else if c = 1 then decide (x ≠ y) else if c = 2 then decide (x.toInt < y.toInt)
  else if c = 3 then decide (y.toInt ≤ x.toInt) else if c = 4 then decide (x.toNat < y.toNat) else decide (y.toNat ≤ x.toNat)

/-- R76. Comparisons write p[D] and nothing else: CMP by the condition codes of R59, CMPI against the immediate, CMPA (R78) on
72-bit unsigned values; PSET's eight functions; SEL picks by p[C]. -/
def Obligations.CompareSelectResults : Prop := ∀ (s : State) (k : Ctl) (f : FRR) (g : FRI),
  let ca := fun (c : Nat) (x y : Addr) =>
    if c = 0 then decide (x = y) else if c = 1 then decide (x ≠ y) else if c = 4 then decide (x.toNat < y.toNat)
    else decide (y.toNat ≤ x.toNat)
  let p := s.rp f.a 0
  let q := s.rp f.b 1
  Writes (.cmp k f) s 0x028 k [.s f.a, .s f.b] (.p f.d) (ofBool (condHolds f.fn (s.rs f.a) (s.rs f.b 1))) ∧
  Writes (.cmpi k g) s 0x029 k [.s g.a] (.p g.d) (ofBool (condHolds g.fn (s.rs g.a) (BitVec.ofNat 64 g.imm))) ∧
  Writes (.sel k f) s 0x02A k [.s f.d, .s f.a, .s f.b] (.s f.d) (ofWord (if s.rp f.c 2 then s.rs f.a else s.rs f.b 1)) ∧
  Writes (.pset k f) s 0x02B k [] (.p f.d)
    (ofBool (if f.fn = 0 then p && q else if f.fn = 1 then p || q else if f.fn = 2 then p != q else if f.fn = 3 then p && !q
      else if f.fn = 4 then p else if f.fn = 5 then !p else if f.fn = 6 then true else false)) ∧
  Writes (.cmpa k f) s 0x03C k [] (.p f.d) (ofBool (ca f.fn (s.ra f.a) (s.ra f.b 2)))

/-- R75 and R77. Moves, extensions and bit fields: each completes with its result in s[D] and changes nothing else; an all-zero
instruction is NOP (R66) and changes nothing. -/
def Obligations.MoveAndFieldResults : Prop := ∀ (s : State) (k : Ctl) (f : FRR) (g : FRI),
  let x := s.rs f.a
  let pos := g.imm % 64
  let len := g.imm / 256 % 64 + 1
  let word := fun (b : Nat → Bool) => ofWord (BitVec.ofFnLE fun i : Fin 64 => b i)
  Keeps (.nop k f) s 0x000 k [] ∧
  Writes (.mov k f) s 0x030 k [.s f.d, .s f.a] (.s f.d) (ofWord x) ∧
  Writes (.movAl k f) s 0x030 k [.s f.d] (.s f.d) (word fun i => (s.ra f.a).getLsbD i) ∧
  Writes (.movAh k f) s 0x030 k [.s f.d] (.s f.d) (word fun i => (s.ra f.a).getLsbD (64 + i)) ∧
  Writes (.movi k g) s 0x031 k [.s g.d] (.s g.d) (ofWord (BitVec.ofNat 64 g.imm)) ∧
  Writes (.ext k f) s 0x032 k [.s f.d, .s f.a] (.s f.d)
    (ofWord (if f.fn = 0 then (x.setWidth 8).signExtend 64 else if f.fn = 1 then (x.setWidth 16).signExtend 64
      else if f.fn = 2 then (x.setWidth 32).signExtend 64 else if f.fn = 4 then x &&& 0xFF
      else if f.fn = 5 then x &&& 0xFFFF else x &&& 0xFFFFFFFF)) ∧
  Writes (.bfx k g) s 0x033 k [.s g.d, .s g.a] (.s g.d)
    (word fun i => if i < len then (s.rs g.a).getLsbD (pos + i) else g.fn == 1 && (s.rs g.a).getLsbD (pos + len - 1)) ∧
  Writes (.bfi k g) s 0x034 k [.s g.d, .s g.a] (.s g.d)
    (word fun i => if pos ≤ i ∧ i < pos + len then (s.rs g.a).getLsbD (i - pos) else (s.rs g.d 2).getLsbD i)

/-- R58 and R78. Address arithmetic modulo 2^72, into a[D] (or s[D] for SUBA.D, clamped), and nothing else changes; LEA makes no
access. -/
def Obligations.AddressArithmeticResults : Prop := ∀ (s : State) (k : Ctl) (f : FRR) (m : FM) (h : FAI),
  let x := s.ra f.a
  let z := (s.rs f.b).toInt
  let scale : Nat := if m.sc = 0 then 1 else if m.sc = 1 then 8 else if m.sc = 2 then 64 else 128
  Writes (.lea k m) s 0x038 k [.s m.idx] (.a m.d)
    (ofAddr (addr ((s.ra m.base).toNat + (s.rs m.idx 2).toNat * scale + sgn 48 m.disp))) ∧
  Writes (.adda k f) s 0x039 k [.s f.b] (.a f.d) (ofAddr (addr (x.toNat + z))) ∧
  Writes (.suba k f) s 0x03A k [.s f.b] (.a f.d) (ofAddr (addr (x.toNat - z))) ∧
  Writes (.subaD k f) s 0x03A k [.s f.d] (.s f.d)
    (ofWord (BitVec.ofInt 64 (max (-(2 ^ 63)) (min (2 ^ 63 - 1) (x - s.ra f.b 2).toInt)))) ∧
  Writes (.mova k f) s 0x03B k [] (.a f.d) (ofAddr x) ∧
  Writes (.movaS k f) s 0x03B k [.s f.a] (.a f.d) (ofAddr (BitVec.ofNat 72 (s.rs f.a).toNat)) ∧
  Writes (.movaSh k f) s 0x03B k [.s f.a, .s f.b] (.a f.d)
    (ofAddr (BitVec.ofNat 72 ((s.rs f.b 1).toNat % 256 * 2 ^ 64 + (s.rs f.a).toNat))) ∧
  Writes (.movai k h) s 0x03D k [] (.a h.d) (ofAddr (BitVec.ofNat 72 h.imm))
/-! ### The vector group (R164 to R176) -/

/-- R34, R164. A vector instruction that finds room in the VU's queue, of two entries, completes and leaves its results to come. -/
def LeavesVec (i : Instr) (s : State) (op : Nat) (k : Ctl) (regs : List Reg) (ds : List (Reg × Vec)) (tsr : Word := s.thr.tsr) : Prop :=
  s.vuRoom = true → Leaves i s op k regs .vec ds none tsr

/-- A vector instruction leaves to come a value of VD whose active elements are given by `g`, cut to the element's width, and
whose inactive elements are those of VD before it (R164, R165). -/
def LeavesElements (i : Instr) (s : State) (op : Nat) (k : Ctl) (f : FV) (regs : List Reg) (g : Nat → Nat) : Prop :=
  let w := tyBytes f.ty
  ∃ v : Vec, LeavesVec i s op k (.v f.vd :: regs) [(.v f.vd, v)] ∧
    ∀ e < 128 / w, elemOf v w e =
      if (s.rk f.km).getLsbD (e * w / 4) then g e % 2 ^ (8 * w) else elemOf (s.rv f.vd 3) w e

/-- R166 and R167, integer types. Each active element is the exact result reduced modulo 2^(8w), or clamped to the type's range
under .SAT; inactive elements and everything else are unchanged, and the result is still to come. It holds where the VU's
queue has room (R34). The model's choices it rests on: log 59. -/
def Obligations.VectorIntegerArithmetic : Prop := ∀ (s : State) (k : Ctl) (f : FV), f.ty < 6 →
  let x := fun e => readInt f.ty (elemOf (s.rv f.va 0) (tyBytes f.ty) e)
  let y := fun e => readInt f.ty (elemOf (s.rv f.vb 1) (tyBytes f.ty) e)
  let cut := fun (n : Int) =>
    ((if f.fn = 1 then max (tyLo f.ty) (min (tyHi f.ty) n) else n) % (2 ^ (8 * tyBytes f.ty) : Nat)).toNat
  let raw := fun (n : Int) => (n % (2 ^ (8 * tyBytes f.ty) : Nat)).toNat
  LeavesElements (.vadd k f) s 0x200 k f [.v f.va, .v f.vb] (fun e => cut (x e + y e)) ∧
  LeavesElements (.vsub k f) s 0x201 k f [.v f.va, .v f.vb] (fun e => cut (x e - y e)) ∧
  LeavesElements (.vmul k f) s 0x202 k f [.v f.va, .v f.vb] (fun e => cut (x e * y e)) ∧
  LeavesElements (.vmin k f) s 0x205 k f [.v f.va, .v f.vb] (fun e => raw (min (x e) (y e))) ∧
  LeavesElements (.vmax k f) s 0x206 k f [.v f.va, .v f.vb] (fun e => raw (max (x e) (y e))) ∧
  LeavesElements (.vabs k f) s 0x207 k f [.v f.va] (fun e => cut |x e|) ∧
  LeavesElements (.vneg k f) s 0x208 k f [.v f.va] (fun e => cut (-x e))

/-- R166 to R168, float types. Each active element is the model's one rounding of the exact operation (`Num.add`, `Num.mul`,
`Num.fma` and the rounded functions of Float.lean) of the elements, with the payload of the VU's tile and the element;
inactive elements and everything else are unchanged, and the result is still to come. It holds where the VU's queue has room
(R34). The model's choices it rests on: logs 10, 59. -/
def Obligations.VectorFloatArithmetic : Prop := ∀ (s : State) (k : Ctl) (f : FV), 6 ≤ f.ty →
  let p := floatOf f.ty
  let x := fun e => readFloat p (elemOf (s.rv f.va 0) (tyBytes f.ty) e)
  let y := fun e => readFloat p (elemOf (s.rv f.vb 1) (tyBytes f.ty) e)
  let z := fun e => readFloat p (elemOf (s.rv f.vc 2) (tyBytes f.ty) e)
  let gen := fun (e : Nat) => payloadOf s.cur.t e
  let down := f.rm == 3
  let round := fun (n : Machine.Num) => n.pack p f.rm (f.fn == 1)
  let ab : List Reg := [.v f.va, .v f.vb]
  let abc : List Reg := [.v f.va, .v f.vb, .v f.vc]
  LeavesElements (.vadd k f) s 0x200 k f ab (fun e => round ((x e).add (y e) (gen e) down)) ∧
  LeavesElements (.vsub k f) s 0x201 k f ab (fun e => round ((x e).add (y e).neg (gen e) down)) ∧
  LeavesElements (.vmul k f) s 0x202 k f ab (fun e => round ((x e).mul (y e) (gen e))) ∧
  LeavesElements (.vfma k f) s 0x203 k f abc (fun e => round ((x e).fma (y e) (z e) (gen e) down)) ∧
  LeavesElements (.vfms k f) s 0x204 k f abc (fun e => round ((x e).fma (y e) (z e).neg (gen e) down)) ∧
  LeavesElements (.vmin k f) s 0x205 k f ab (fun e =>
    pickElem false f.ty (elemOf (s.rv f.va 0) (tyBytes f.ty) e) (elemOf (s.rv f.vb 1) (tyBytes f.ty) e)) ∧
  LeavesElements (.vmax k f) s 0x206 k f ab (fun e =>
    pickElem true f.ty (elemOf (s.rv f.va 0) (tyBytes f.ty) e) (elemOf (s.rv f.vb 1) (tyBytes f.ty) e)) ∧
  LeavesElements (.vabs k f) s 0x207 k f [.v f.va] (fun e => (x e).abs.pack p) ∧
  LeavesElements (.vneg k f) s 0x208 k f [.v f.va] (fun e => (x e).neg.pack p) ∧
  LeavesElements (.vrcp k f) s 0x209 k f [.v f.va] (fun e => divFloat p f.rm (gen e) (.fin false 1 0) (x e)) ∧
  LeavesElements (.vrsq k f) s 0x20A k f [.v f.va] (fun e => rsqrtFloat p f.rm (gen e) (x e)) ∧
  LeavesElements (.vexp2 k f) s 0x20B k f [.v f.va] (fun e => exp2Float p f.rm (x e)) ∧
  LeavesElements (.vlog2 k f) s 0x20C k f [.v f.va] (fun e => log2Float p f.rm (gen e) (x e)) ∧
  LeavesElements (.vdiv k f) s 0x20D k f ab (fun e => divFloat p f.rm (gen e) (x e) (y e)) ∧
  LeavesElements (.vsqrt k f) s 0x20E k f [.v f.va] (fun e => sqrtFloat p f.rm (gen e) (x e))

/-- R167, R168. What VADD and VDIV make of special BF16 and FP32 operands, whatever the rounding mode and payload: a NaN operand
gives the quiet NaN with sign 0; Inf − Inf, 0 / 0 and Inf / Inf generate a NaN; a finite nonzero value over ±0 is an infinity whose
sign is the XOR of the signs; a finite value over ±Inf is ±0; and a finite nonzero value over
one of the same magnitude is 1.0 with the XOR of the signs. -/
def Obligations.FloatSpecialOperands : Prop := ∀ (p mode gen pay : Nat) (neg neg' : Bool) (m : Nat) (e : Int),
  p = fp32 ∨ p = bf16 → 0 < m →
  ((Machine.Num.nan pay).add (.fin neg m e) gen (mode == 3)).pack p mode = nanBits p pay ∧
  ((Machine.Num.inf false).add (.inf true) gen (mode == 3)).pack p mode = nanBits p gen ∧
  divFloat p mode gen (.fin neg 0 0) (.fin neg' 0 0) = nanBits p gen ∧
  divFloat p mode gen (.inf neg) (.inf neg') = nanBits p gen ∧
  divFloat p mode gen (.fin neg m e) (.fin neg' 0 0) = infBits p (neg != neg') ∧
  divFloat p mode gen (.fin neg m e) (.inf neg') = b2n (neg != neg') * 2 ^ (p + 8) ∧
  divFloat p mode gen (.fin neg m e) (.fin neg' m e) = b2n (neg != neg') * 2 ^ (p + 8) + 127 * 2 ^ p

/-- R169, R170 and R174. Logic, shifts, comparison, selection and moves of elements: each active element of VD as the table
gives it; inactive elements and everything else are unchanged, and the result is still to come. It holds where the VU's
queue has room (R34). The model's choices it rests on: log 59. -/
def Obligations.VectorElementMoves : Prop := ∀ (s : State) (k : Ctl) (f : FV),
  let w := 8 * tyBytes f.ty
  let x := fun e => elemOf (s.rv f.va 0) (tyBytes f.ty) e
  let y := fun e => elemOf (s.rv f.vb 1) (tyBytes f.ty) e
  let z := fun e => elemOf (s.rv f.vc 2) (tyBytes f.ty) e
  let ab : List Reg := [.v f.va, .v f.vb]
  let sh : List Reg := if f.fn = 1 then [.v f.va, .s f.ss] else ab
  let n := fun e => (if f.fn = 1 then (s.rs f.ss 1).toNat else y e) % w
  LeavesElements (.vand k f) s 0x210 k f ab (fun e => x e &&& y e) ∧
  LeavesElements (.vor k f) s 0x211 k f ab (fun e => x e ||| y e) ∧
  LeavesElements (.vxor k f) s 0x212 k f ab (fun e => x e ^^^ y e) ∧
  LeavesElements (.vshl k f) s 0x213 k f sh (fun e => x e <<< n e) ∧
  LeavesElements (.vshr k f) s 0x214 k f sh (fun e => x e >>> n e) ∧
  LeavesElements (.vsra k f) s 0x215 k f sh (fun e => ((BitVec.ofNat w (x e)).sshiftRight (n e)).toNat) ∧
  LeavesElements (.vcmp k f) s 0x218 k f ab (fun e => if cmpElem f.fn f.ty (x e) (y e) then 2 ^ w - 1 else 0) ∧
  LeavesElements (.vsel k f) s 0x219 k f [.v f.va, .v f.vb, .v f.vc] (fun e => if z e ≠ 0 then x e else y e) ∧
  LeavesElements (.vperm k f) s 0x220 k f ab
    (fun e => if y e < tyCount f.ty then elemOf (s.rv f.va 0) (tyBytes f.ty) (y e) else 0) ∧
  LeavesElements (.vbcast k f) s 0x221 k f [.s f.ss] (fun _ => (s.rs f.ss 1).toNat) ∧
  LeavesElements (.vmov k f) s 0x224 k f [.v f.va] x ∧
  LeavesElements (.vmovi k f) s 0x225 k f [] (fun _ => f.imm)

/-- R174 and R175. VINS replaces one element of VD and keeps the others; VEXT gives an element, sign-extended for the signed
integer types; KOP and KMOV compute mask registers. Each result is still to come, where the VU's queue has room (R34), and
nothing else changes. The model's choices it rests on: log 59. -/
def Obligations.VectorInsertExtractMasks : Prop := ∀ (s : State) (k : Ctl) (f : FV),
  let w := tyBytes f.ty
  let a := s.rk f.va
  let b := s.rk f.vb 10
  let x := elemOf (s.rv f.va 0) w f.imm
  (f.imm < 128 / w → ∃ v : Vec, LeavesVec (.vins k f) s 0x222 k [.v f.vd, .s f.ss] [(.v f.vd, v)] ∧
    ∀ e < 128 / w, elemOf v w e = if e = f.imm then (s.rs f.ss 1).toNat % 2 ^ (8 * w) else elemOf (s.rv f.vd 3) w e) ∧
  LeavesVec (.vext k f) s 0x223 k [.s f.ss, .v f.va]
    [(.s f.ss, ofWord (if f.ty < 6 then BitVec.ofInt 64 (readInt f.ty x) else BitVec.ofNat 64 x))] ∧
  LeavesVec (.kop k f) s 0x228 k [] [(.k f.vd, (if f.fn = 0 then a &&& b else if f.fn = 1 then a ||| b
    else if f.fn = 2 then a ^^^ b else if f.fn = 3 then a &&& ~~~b else if f.fn = 4 then ~~~a else a).setWidth 1024)] ∧
  (f.fn = 0 → LeavesVec (.kmov k f) s 0x229 k [.s f.ss] [(.k f.vd, ofWord (s.rs f.ss 1 &&& 0xFFFFFFFF))]) ∧
  (f.fn = 1 → LeavesVec (.kmov k f) s 0x229 k [.s f.ss] [(.s f.ss, a.setWidth 1024)]) ∧
  (f.fn = 2 → LeavesVec (.kmov k f) s 0x229 k [.v f.va]
    [(.k f.vd, BitVec.ofNat 1024 (maskOf 32 fun i => elemOf (s.rv f.va 0) 4 i != 0))])

/-- R171 to R173. VCVT converts element by element, narrowing into or widening from the part that `FN` names, and sets TSR.SAT
where an active conversion to an integer type clamps; VRED's pairwise tree leaves its result in element 0 and zeros above;
VSCAN leaves the scan's value in each active element. Each result is still to come, where the VU's queue has room (R34), and
nothing else changes. The model's choices it rests on: log 59. -/
def Obligations.VectorConvertReduceScan : Prop := ∀ (s : State) (k : Ctl) (f : FV),
  let ts := f.imm % 16
  let ns := tyCount ts
  let nd := tyCount f.ty
  let w := tyBytes f.ty
  let part := if ns = nd then 0 else f.fn
  let src := fun e => if nd ≤ ns then some (part * nd + e) else if part * ns ≤ e ∧ e < part * ns + ns then some (e - part * ns) else none
  let one := fun j => cvtElem ts f.ty f.rm (f.imm / 256 % 2 == 1) (elemOf (s.rv f.va 0) (tyBytes ts) j)
  let act := fun e => (s.rk f.km).getLsbD (e * w / 4)
  let clamped := (List.range (128 / w)).any fun e => act e && (match src e with | some j => (one j).2 | none => false)
  let op := fun i x y => redOp f.fn (redTy f) f.rm (payloadOf s.cur.t i) x y
  let op' := fun i x y => redOp f.fn f.ty f.rm (payloadOf s.cur.t i) x y
  (∃ v : Vec, LeavesVec (.vcvt k f) s 0x21A k [.v f.vd, .v f.va] [(.v f.vd, v)]
      (if clamped then s.thr.tsr ||| 4 else s.thr.tsr) ∧
    ∀ e < 128 / w, elemOf v w e = match (if act e then src e else none) with
      | some j => (one j).1 % 2 ^ (8 * w)
      | none => elemOf (s.rv f.vd 3) w e) ∧
  LeavesVec (.vred k f) s 0x21B k [.v f.vd, .v f.va]
    [(.v f.vd, BitVec.ofNat 1024 (redTree op 7 1 (redElems s f) % 2 ^ (8 * tyBytes (redTy f))))] ∧
  (∃ v : Vec, LeavesVec (.vscan k f) s 0x21C k [.v f.vd, .v f.va] [(.v f.vd, v)] ∧
    ∀ e < 128 / w, elemOf v w e =
      if act e then (scanSteps op' 7 1 (redElems s f)).getD e 0 % 2 ^ (8 * w) else elemOf (s.rv f.vd 3) w e)

/-- R140, R141 and R176. VHIST of a thread that trails none adds 1, saturating, to the tile's histogram bin of each active
element's exponent field, in element order, and changes nothing else but that its (empty) result is still to come; it holds
where the VU's queue has room (R34). -/
def Obligations.HistogramTags : Prop := ∀ (s : State) (k : Ctl) (f : FV),
  s.ready 0x22A k [.v f.va] = true → s.flow.isSome = true → s.trails = false → s.vuRoom = true →
  let w := tyBytes f.ty
  let es := ((List.range (tyCount f.ty)).filter fun e => (s.rk f.km).getLsbD (e * w / 4)).map fun e =>
    elemOf (s.rv f.va 0) w e / 2 ^ floatOf f.ty % 256
  let hoff := s.thr.tsr.toNat / 256 % 256
  let bin := fun e => if e = 0 then 0 else if e = 255 then 63 else if e < hoff then 1 else if hoff + 60 ≤ e then 62 else e - hoff + 2
  ∃ t, exec (.vhist k f) s = .next t ∧
    (∀ b, (SMap.get 0 t.tile.hist b).toNat = min 0xFFFFFFFF ((SMap.get 0 s.tile.hist b).toNat + es.countP fun e => bin e == b)) ∧
    t = { s with thr := t.thr, fresh := s.fresh + 1, tile := { s.tile with hist := t.tile.hist } } ∧
    SameSpecial s.thr t.thr ∧ (∀ q, t.thr.reg q = s.thr.reg q) ∧ SameMemory s t ∧
    t.thr.pend = s.thr.pend ++ [{ id := s.fresh, pc := s.thr.pc, what := .vec, dests := [] }] ∧
    s.flow = some (t.thr.loops, t.thr.pc)
/-! ### Branches, calls, jump tables and loops (R59, R79 to R86) -/

/-- R59, R79 to R81. A taken branch, call or return goes to its target, a call with the return address, the next instruction's,
in its link register, and changes nothing else; one that is not taken only goes on. A target that R49 forbids traps with R49's cause
and without effect. -/
def Obligations.BranchesAndCalls : Prop := ∀ (s : State) (k : Ctl) (f : FB) (r : FRR),
  let p := lineAddr s.thr.pc + addr (64 * sgn 29 f.dl) + BitVec.ofNat 72 (12 * f.sl)
  let x := s.rs f.a
  let y := s.rs f.b 1
  Jumps (.br k f) s 0x080 k [] s.begun p ∧
  (condHolds f.cnd x 0 = true → Jumps (.bc k f) s 0x081 k [.s f.a] s.begun p) ∧
  (condHolds f.cnd x 0 = false → Keeps (.bc k f) s 0x081 k [.s f.a]) ∧
  (condHolds f.cnd x y = true → Jumps (.bcmp k f) s 0x082 k [.s f.a, .s f.b] s.begun p) ∧
  (condHolds f.cnd x y = false → Keeps (.bcmp k f) s 0x082 k [.s f.a, .s f.b]) ∧
  Jumps (.bi k r) s 0x083 k [] s.begun (s.ra r.a) ∧
  Jumps (.call k f) s 0x084 k [] (s.begun.wa f.a (nextPC s.thr.pc)) p ∧
  Jumps (.calli k r) s 0x085 k [] (s.begun.wa r.d (nextPC s.thr.pc)) (s.ra r.a) ∧
  Jumps (.ret k r) s 0x086 k [] s.begun (s.ra r.a)

/-- R82. JTAB with an index at or above the bound only goes on, without access. Below it, it loads the entry at base + 4 · index
and goes to the slot and line that the entry names; a slot code above 4 traps ILLTGT with the entry's address, a poisoned entry
POISON or, where its error is first found, UE (R388), and one in a tile that cannot answer RESPF (a trailing thread takes its copy of
the entry). -/
def Obligations.JumpTableGoes : Prop := ∀ (s : State) (k : Ctl) (f : FRR),
  let i := (s.rs f.a).toNat
  let regs : List Reg := [.s f.a, .s f.b]
  let ea := s.ra f.c 2 + BitVec.ofNat 72 (4 * i)
  ((s.rs f.b 1).toNat ≤ i → Keeps (.jtab k f) s 0x087 k regs) ∧
  let dead := !s.begun.trails && (s.begun.checkAll .r 4 [(ea, 4)]).toOption.any fun l => l.any fun e => s.begun.deadTile e.2
  (i < (s.rs f.b 1).toNat → dead = true → s.ready 0x087 k regs = true →
    exec (.jtab k f) s = .next (s.take cRESPF ea).tickFresh) ∧
  (i < (s.rs f.b 1).toNat → dead = false → ∀ g, s.begun.load ea 4 4 = .ok g → g.bad.isSome = true → s.ready 0x087 k regs = true →
    exec (.jtab k f) s = .next (s.take g.why ea).tickFresh) ∧
  (i < (s.rs f.b 1).toNat → dead = false → ∀ g, s.begun.load ea 4 4 = .ok g → g.bad = none →
    let e := ofLE g.bs
    (e % 8 ≤ 4 → Jumps (.jtab k f) s 0x087 k regs g.s
      (lineAddr s.thr.pc + addr (64 * sgn 29 (e / 8)) + BitVec.ofNat 72 (12 * (e % 8)))) ∧
    (4 < e % 8 → s.ready 0x087 k regs = true → exec (.jtab k f) s = .next (s.take cILLTGT ea).tickFresh))

/-- What R84 checks of a loop from the next instruction to the one at `e`, in a thread with no loop at level 1: the end lies at or
after the start in the same 64 GiB, is no older member of a pair, the start is a target, and an outer loop does not end first. -/
def LoopLegal (s : State) (e : Addr) : Prop :=
  let b := nextPC s.thr.pc
  b.toNat ≤ e.toNat ∧ e.toNat / 2 ^ 36 = b.toNat / 2 ^ 36 ∧ s.olderMember e = .ok false ∧
  (∃ x i, s.begun.fetchWord b = .ok x ∧ slotOf b = some i ∧ x.tgt i = true) ∧
  s.thr.loops.lc1 = 0 ∧ (s.thr.loops.lc0 ≠ 0 → low36 e ≤ s.thr.loops.end_ 0)

/-- R83 and R84. LOOP and LOOPI with a legal end and a count that is not 0 set the count, start and end of the outermost free
level, 0 then 1, and change nothing else; with count 0 they skip to the instruction after the end. The lines of the end and of the start whose parity fails are fetched a second
time (R50). An end before the start traps ILLOP. -/
def Obligations.LoopsArm : Prop := ∀ (s : State) (k : Ctl) (f : FB) (g : FLoopi),
  let b := low36 (nextPC s.thr.pc)
  let l := s.thr.loops
  let armed := fun (n : Word) (e : Addr) =>
    if l.lc0 = 0 then { l with lc0 := n, ls := setHalf l.ls 0 b, le := setHalf l.le 0 (low36 e) }
    else { l with lc1 := n, ls := setHalf l.ls 1 b, le := setHalf l.le 1 (low36 e) }
  let looked := fun (e : Addr) => (s.begun.wordSeen e).wordSeen (nextPC s.thr.pc)
  let u := fun (n : Word) (e : Addr) => ({ looked e with thr := { (looked e).thr with loops := armed n e } } : State)
  let e := targetB s.thr.pc f.dl f.sl
  let e' := targetB s.thr.pc g.dl g.sl
  let n := s.rs f.a
  let n' : Word := BitVec.ofNat 64 g.cnt
  (LoopLegal s e → n ≠ 0 → Becomes (.loop k f) s 0x088 k [.s f.a] (u n e)) ∧
  (LoopLegal s e → n = 0 → Jumps (.loop k f) s 0x088 k [.s f.a] (looked e) (nextPC e)) ∧
  (LoopLegal s e' → n' ≠ 0 → Becomes (.loopi k g) s 0x089 k [] (u n' e')) ∧
  (LoopLegal s e' → n' = 0 → Jumps (.loopi k g) s 0x089 k [] (looked e') (nextPC e')) ∧
  (e.toNat < (nextPC s.thr.pc).toNat → s.ready 0x088 k [.s f.a] = true → exec (.loop k f) s = .next (s.take cILLOP 0).tickFresh) ∧
  (e'.toNat < (nextPC s.thr.pc).toNat → s.ready 0x089 k [] = true → exec (.loopi k g) s = .next (s.take cILLOP 0).tickFresh)

/-- R86. BREAKL ends the innermost active loop, level 1 before level 0, and goes to the instruction after its end; with no loop
active it traps ILLOP. Its opcode is 0x08A and its body all zero. -/
def Obligations.BreakLeavesLoop : Prop := ∀ (s : State) (k : Ctl) (f : FRR),
  let l := s.thr.loops
  let u := fun (m : Loops) => ({ s.begun with thr := { s.begun.thr with loops := m } } : State)
  (l.lc1 ≠ 0 → Jumps (.breakl k f) s 0x08A k [] (u { l with lc1 := 0 }) (nextPC (withLow36 s.thr.pc (l.end_ 1)))) ∧
  (l.lc1 = 0 → l.lc0 ≠ 0 →
    Jumps (.breakl k f) s 0x08A k [] (u { l with lc0 := 0 }) (nextPC (withLow36 s.thr.pc (l.end_ 0)))) ∧
  (l.lc1 = 0 → l.lc0 = 0 → s.ready 0x08A k [] = true → exec (.breakl k f) s = .next (s.take cILLOP 0).tickFresh) ∧
  ((Instr.breakl k f).wf = true → ∀ w, encode (.breakl k f) = some w → bits w 85 10 = 0x08A ∧ bits w 0 81 = 0)

/-- R85. After the instruction at a loop's end the innermost active level whose end it is counts down: with turns left execution
goes to the level's start; at its last turn the loop ends, and an outer loop with the same end counts down in its place. The
model's choices it rests on: log 50. -/
def Obligations.LoopsCloseInnermostFirst : Prop := ∀ (l : Loops) (pc : Addr),
  let at1 := l.lc1 ≠ 0 ∧ low36 pc = l.end_ 1
  let at0 := l.lc0 ≠ 0 ∧ low36 pc = l.end_ 0
  (at1 → l.lc1 ≠ 1 → l.close pc = ({ l with lc1 := l.lc1 - 1 }, some (withLow36 pc (l.start 1)))) ∧
  (at1 → l.lc1 = 1 → at0 → l.lc0 ≠ 1 →
    l.close pc = ({ l with lc1 := 0, lc0 := l.lc0 - 1 }, some (withLow36 pc (l.start 0)))) ∧
  (at1 → l.lc1 = 1 → at0 → l.lc0 = 1 → l.close pc = ({ l with lc1 := 0, lc0 := 0 }, none)) ∧
  (at1 → l.lc1 = 1 → ¬at0 → l.close pc = ({ l with lc1 := 0 }, none)) ∧
  (¬at1 → at0 → l.lc0 ≠ 1 → l.close pc = ({ l with lc0 := l.lc0 - 1 }, some (withLow36 pc (l.start 0)))) ∧
  (¬at1 → at0 → l.lc0 = 1 → l.close pc = ({ l with lc0 := 0 }, none)) ∧
  (¬at1 → ¬at0 → l.close pc = (l, none))
/-! ### The machine: encoding, stepping, memory, traps and checks -/

/-- R47, R55. Of every well-formed instruction of the opcode table, decoding the word that encodes it gives it back, with every
operand at every value that the encoding admits; no bit of an encoding is dropped. -/
def Obligations.DecodeOfEncode : Prop := ∀ i : Instr, i.wf = true → isEvent i = false →
  ∃ w, encode i = some w ∧ decode w = .ok i

/-- R55, R61 step 3, R68. Every word that the decoder accepts is the word of the instruction it gives: no two words stand for one
instruction, and every zero field has been checked. -/
def Obligations.EncodeOfDecode : Prop := ∀ (w : Nat) (i : Instr), w < 2 ^ 96 → decode w = .ok i → encode i = some w

/-- R47, R55, R57 to R60. Words written out from the encoding tables decode to the instructions they stand for: the all-zero word is
NOP; two ADDs, an LD, a BR, a VADD, a FENCE, a TLBI and a QPOP with their fields at the places the formats give; and a word whose
opcode is reserved is refused. -/
def Obligations.WrittenWordsDecode : Prop :=
  decode 0 = .ok (.nop { } { d := 0, a := 0, b := 0, c := 0, fn := 0 }) ∧
  decode (0x001 * 2 ^ 85 + 3 * 2 ^ 75 + 4 * 2 ^ 69 + 5 * 2 ^ 63 + 1 * 2 ^ 53) =
    .ok (.add { } { d := 3, a := 4, b := 5, c := 0, fn := 1 }) ∧
  decode (0x001 * 2 ^ 85 + 2 ^ 84 + 2 * 2 ^ 81 + 3 * 2 ^ 75 + 4 * 2 ^ 69 + 5 * 2 ^ 63) =
    .ok (.add { pn := true, pg := 2 } { d := 3, a := 4, b := 5, c := 0, fn := 0 }) ∧
  decode (0x100 * 2 ^ 85 + 4 * 2 ^ 75 + 5 * 2 ^ 70 + 6 * 2 ^ 64 + 2 * 2 ^ 62 + 3 * 2 ^ 58 + 5 * 2 ^ 54 + 0xFFFFFFFFFFF8) =
    .ok (.ld { } { d := 4, base := 5, idx := 6, sc := 2, sz := 3, ordq := 5, disp := 0xFFFFFFFFFFF8 }) ∧
  decode (0x080 * 2 ^ 85 + 0x1FFFFFFF * 2 ^ 3 + 4) =
    .ok (.br { } { a := 0, b := 0, cnd := 0, fn := 0, dl := 0x1FFFFFFF, sl := 4 }) ∧
  decode (0x200 * 2 ^ 85 + 1 * 2 ^ 76 + 2 * 2 ^ 71 + 3 * 2 ^ 66 + 5 * 2 ^ 58 + 7 * 2 ^ 54) =
    .ok (.vadd { } { vd := 1, va := 2, vb := 3, vc := 0, km := 5, ty := 7, fn := 0, ss := 0, rm := 0, imm := 0 }) ∧
  decode (0x68A05198 * 2 ^ 64) = .ok (.tlbi { } { ar := 5, sa := 6, scope := 3, fn := 0 }) ∧
  decode (0x31000000 * 2 ^ 64 + 0x01100000 * 2 ^ 32) = .ok (.fence { } { d := 0, scope := 2, kind := 1 }) ∧
  decode (0x94600800 * 2 ^ 64 + 0x00400000 * 2 ^ 32) = .ok (.qpop { s := true } { d := 1, a := 0, b := 0, c := 0, fn := 2 }) ∧
  decode (0x380 * 2 ^ 85) = .error .reservedOpcode

/-- R34, R35, R47, R61. A step runs the instruction it decodes. When a tile's turn is next, the thread in focus is the first in its
rotation and may issue, owes nothing, and the slot at its PC is drawn from a line whose checks pass, is no older member of a
pair and decodes to `i`, the step is `exec i`, after which the rotation moves past the thread and a cycle has passed. (Under the
hypothesis that the instruction does not leave the thread waiting with its turn handed on. `draw` also keeps the tile's copy of
the line and its translation; a trowel word keeps the mark that its sequence goes on, R364.) The model's choices it rests on: logs 2, 3. -/
def Obligations.StepRunsDecodedInstruction : Prop := ∀ (s u v : State) (r : List Move) (l : Line) (j : Nat) (i : Instr) (t : State),
  s.agenda = .turn s.cur.t :: r →
  s.tileIssues s.cur.t = true → (s.rotation s.cur.t).head? = some s.cur →
  s.mayIssue s.cur = true → s.owed = none →
  ({ s with agenda := r } : State).draw = (u, .ok (l, j)) →
  l.older.contains j = false → decode (l.slot j) = .ok i →
  v = (if opOf (l.slot j) < 0x3C0 then { u with thr := { u.thr with mcont := false } } else u) →
  exec i v = .next t →
  (t.thr.wait ≠ .hold ∧ (∀ c a, t.thr.wait ≠ .trap c a) ∧ t.thr.wait ≠ .token ∧ ∀ m c, t.thr.wait ≠ .fencee m c) →
  step s = .next { t with tile := { t.tile with rot := s.hwOf s.cur }, plumb := t.plumb + 1 }

/-- Spec 95 (log 2). A step whose agenda names a step of another agent makes exactly that step; one whose agenda lets time pass only
counts cycles. The model's choices it rests on: logs 2, 3. -/
def Obligations.StepRunsNamedEvent : Prop := ∀ (s : State) (r : List Move) (i : Instr) (n : Nat),
  (s.agenda = .event i :: r → isEvent i = true → step s = exec i { s with agenda := r }) ∧
  (s.agenda = .tick n :: r → step s = .next { s with agenda := r, plumb := s.plumb + n })

/-- Whatever a step does, memory keeps its canonical form: addresses strictly rising, no byte listed that is 0 (log 5). The model's
choices it rests on: log 5. -/
def Obligations.StepKeepsMemoryCanonical : Prop := ∀ s t : State,
  Memory.wf s.mem = true → step s = .next t → Memory.wf t.mem = true

/-- Memory lists nothing at reset, so that it is canonical, and every byte reads as the model says an unlisted one does (log 5). The
model's choices it rests on: log 5. -/
def Obligations.ResetMemoryCanonical : Prop := Memory.wf State.reset.mem = true ∧ ∀ a, Memory.read State.reset.mem a = 0

/-- R83, R87, R94, R134, R141, R147, R162, R189, R190, R234, R235, R260, R261, R289, R291, R315, R338, R340, R347, R352, R360, R364,
R374, R376, R379. Every control and status register to which the spec gives a reset value reads it at reset, in a thread, unit, tile and
partition that nothing has set up: 0, but for those listed with another value. -/
def Obligations.ResetRegisterValues : Prop :=
  (∀ n ∈ [0x000, 0x001, 0x002, 0x003, 0x004, 0x005, 0x006, 0x007, 0x008, 0x009, 0x00B, 0x010, 0x011, 0x013, 0x014, 0x018, 0x019, 0x01C,
      0x021, 0x030, 0x031, 0x032, 0x033, 0x034, 0x035, 0x036, 0x037, 0x0E0, 0x0E1, 0x0E2, 0x102, 0x184, 0x200, 0x201, 0x202],
    State.reset.csr n = 0) ∧
  State.reset.thr.rseq = 0 ∧ State.reset.plumb = 0 ∧
  (∀ j < 64, State.reset.csr (0x140 + j) = 0) ∧ (∀ j < 4, State.reset.csr (0x180 + j) = 0) ∧
  State.reset.csr 0x020 = 0xFF03 ∧ State.reset.csr 0x100 = 0x6100 ∧ State.reset.csr 0x101 = 4 ∧ State.reset.csr 0x185 = 0x0C00000C ∧
  State.reset.csr 0x208 = 0x100000 ∧ State.reset.csr 0x209 = 0x1000 ∧ State.reset.csr 0x20A = 0x1000 ∧ State.reset.csr 0x20B = 8 ∧
  State.reset.csr 0x20C = 0x0800 ∧ State.reset.csr 0x20D = 0x0000000400002000

/-- R29. A register reads the value last written to it, cut to its width, whatever the registers held; s0, k0 and p0 discard
writes and read as 0, all ones and true; and no other register changes. -/
def Obligations.RegisterFileReadsWrites : Prop := ∀ (x : Thread) (r q : Reg) (v : Vec) (n : Nat) (w : Word) (a : Addr) (b : Bool),
  (n ≠ 0 → (x.setReg (.s n) (ofWord w)).reg (.s n) = ofWord w) ∧ (x.setReg (.a n) (ofAddr a)).reg (.a n) = ofAddr a ∧
  (x.setReg (.v n) v).reg (.v n) = v ∧ (n ≠ 0 → (x.setReg (.k n) v).reg (.k n) = (v.setWidth 32).setWidth 1024) ∧
  (n ≠ 0 → (x.setReg (.p n) (ofBool b)).reg (.p n) = ofBool b) ∧
  (x.setReg (.s 0) v).reg (.s 0) = 0 ∧ (x.setReg (.k 0) v).reg (.k 0) = 0xFFFFFFFF ∧ (x.setReg (.p 0) v).reg (.p 0) = 1 ∧
  (q ≠ r → (x.setReg r v).reg q = x.reg q)

/-- R30, R33, R56, R61. The checks of an instruction in their order, in a thread that is live, owes nothing and is in no region: a
register outside the kernel header's counts traps ILLOP; then a wrong role traps ILLROLE; then a privilege check that fails
traps its cause; then, a switch marker finding no result to wait for, a false predicate makes the instruction only go on. The
model's choices it rests on: log 52. -/
def Obligations.ChecksComeInOrder : Prop := ∀ (s : State) (op : Nat) (k : Ctl) (regs : List Reg)
    (pre : State → Option (Nat × Addr)) (body : State → Res),
  s.thr.life = .live → s.owed = none → s.valueOwed op = false → s.thr.region = none →
  (regs.any (fun r => !s.ctx.has r) = true → s.issue op k regs pre body = (s.take cILLOP 0).tickFresh) ∧
  (regs.any (fun r => !s.ctx.has r) = false →
    (∀ e, roleOf op = some e → e ≠ s.actsAs → s.issue op k regs pre body = (s.take cILLROLE 0).tickFresh) ∧
    ((roleOf op).all (· == s.actsAs) = true →
      (∀ c a, pre s = some (c, a) → s.issue op k regs pre body = (s.take c a).tickFresh) ∧
      (pre s = none → (k.s = true → s.waitS = none) → s.thr.retry = none → s.rp k.pg = k.pn →
        s.issue op k regs pre body = (s.advance s).tickFresh)))

/-- R65, R89. TLBI and ERET at privilege U, and CSRR, CSRW and CSRX below the privilege their CSR asks, trap PRIV (the CSR forms
with the CSR's number as the address) and have no effect. -/
def Obligations.PrivilegedTrapsBelowLevel : Prop := ∀ (s : State) (k : Ctl) (t : FTlbi) (n : FNul) (c : FRI),
  s.thr.life = .live → s.owed = none → (∀ op ∈ [0x341, 0x342, 0x343, 0x344, 0x345], s.valueOwed op = false) → s.thr.region = none →
  s.ctx.has (.s t.sa) = true → s.ctx.has (.s c.d) = true → s.ctx.has (.s c.a) = true →
  (s.thr.priv = 0 → exec (.tlbi k t) s = .next (s.take cPRIV 0).tickFresh) ∧
  (s.thr.priv = 0 → exec (.eret k n) s = .next (s.take cPRIV 0).tickFresh) ∧
  (s.thr.priv < csrReadLvl c.imm → exec (.csrr k c) s = .next (s.take cPRIV (BitVec.ofNat 72 c.imm)).tickFresh) ∧
  (s.thr.priv < csrWriteLvl c.imm → exec (.csrw k c) s = .next (s.take cPRIV (BitVec.ofNat 72 c.imm)).tickFresh) ∧
  (s.thr.priv < max (csrReadLvl c.imm) (csrWriteLvl c.imm) →
    exec (.csrx k c) s = .next (s.take cPRIV (BitVec.ofNat 72 c.imm)).tickFresh)

/-- R95. Trap entry at X with cause c, when no trap is being handled and TVEC may be entered: TPC, TCAUSE and TADDR take X, c
and the address; TSTAT keeps the privilege and sets HBUSY, and MSEQ in the middle of a trowel sequence, whose counts go to MPC (R363);
from U, a31 and TSP are exchanged; the loop registers move aside and no level is live; the privilege is the greater of S and
the old one; and the PC is TVEC. No other register and nothing of the machine changes, but that an LR reservation of the
thread ends (R276), its place in a queue is given up (R37), an error that cause UE reports is found (R388), and the line of
TVEC is fetched a second time where its parity fails (R50). -/
def Obligations.TrapEntrySavesAndEnters : Prop := ∀ (s : State) (c : Nat) (x a : Addr),
  let r := s.trapLeaves c a
  let u : State := { r with thr := { r.thr with priv := max s.thr.priv 1 } }
  let t := s.trapEntry c x a
  tHbusy s.thr.tstat = false → s.thr.priv < 3 → u.target s.thr.tvec = none →
  t.thr.tpc = x ∧ t.thr.tcause = BitVec.ofNat 64 c ∧ t.thr.taddr = a ∧
  t.thr.tstat.getLsbD 4 = true ∧ t.thr.tstat.toNat / 4 % 4 = s.thr.priv ∧ t.thr.tstat.getLsbD 1 = false ∧
  t.thr.tstat.getLsbD 0 = (s.thr.mcont || s.thr.mrun.isSome) ∧
  t.thr.mpc = (match s.thr.mrun with | some q => q.mpc | none => s.thr.mpc) ∧
  (s.thr.priv = 0 → t.thr.reg (.a 31) = ofAddr s.thr.tsp ∧ ofAddr t.thr.tsp = s.thr.reg (.a 31)) ∧
  (s.thr.priv ≠ 0 → t.thr.reg (.a 31) = s.thr.reg (.a 31) ∧ t.thr.tsp = s.thr.tsp) ∧
  t.thr.tloops = s.thr.loops ∧ t.thr.loops = { s.thr.loops with lc0 := 0, lc1 := 0 } ∧
  t.thr.priv = max s.thr.priv 1 ∧ t.thr.pc = s.thr.tvec ∧
  (∀ q, q ≠ .a 31 → t.thr.reg q = s.thr.reg q) ∧
  (c ≠ cUE → r = { (s.dropResv s.cur).leaveQueues with thr := r.thr }) ∧
  (u.wordOk s.thr.tvec = true → t = { r with thr := t.thr }) ∧
  t.mem = r.mem ∧ t.threads = r.threads ∧ t.ctx = r.ctx ∧ t.ctxs = r.ctxs ∧
  t.thr = { s.thr with
    tpc := t.thr.tpc, tcause := t.thr.tcause, taddr := t.thr.taddr, tstat := t.thr.tstat, ar := t.thr.ar,
    tsp := t.thr.tsp, tloops := t.thr.tloops, loops := t.thr.loops, priv := t.thr.priv, pc := t.thr.pc, young := false,
    wait := .none, retry := none, mcont := false, mrun := none, mpc := t.thr.mpc, resv := none }

/-- R96. A trap while a handler has not read TCAUSE parks the thread in HFAULT: the shadow registers take X, the cause and the
address, TPC, TCAUSE, TADDR and TSTAT keep the first trap, and an HFAULT record of kind 13 with the unit's tile, the cause
and X is logged. Nothing else changes, but what every trap gives up: an LR reservation of the thread ends (R276), its place in
a queue is given up (R37), an error that cause UE reports is found (R388), and a trowel sequence in its middle leaves its
counts in MPC (R363). -/
def Obligations.NestedTrapParksInHfault : Prop := ∀ (s : State) (c : Nat) (x a : Addr),
  tHbusy s.thr.tstat = true →
  let r := s.trapLeaves c a
  s.trapEntry c x a = ({ r with thr := { r.thr with
    life := .hfault, hfpc := x, hfcause := BitVec.ofNat 64 c, hfaddr := a, wait := .none, retry := none } } : State).logEvent
      13 s.ctx.vtile s.ctx.pid c x.toNat

/-- R97. TRAP with no result outstanding and nothing due takes the entry of TRAPI with its immediate as the address, and TPC
names the instruction that follows, which the loop that ends at the TRAP decides; a start of the loop that R49 forbids traps
in its place. Its opcode is 0x340, its immediate bits [31:0], and bits [80:32] are zero. -/
def Obligations.TrapTakesTrapi : Prop := ∀ (s : State) (k : Ctl) (f : FTrap),
  (s.ready 0x340 k [] = true → s.begun.owesResults = false → s.thr.defer = [] → s.begun.muStop = none →
    let c := s.thr.loops.close s.thr.pc
    let p := c.2.getD (nextPC s.thr.pc)
    let u : State := { s.begun with thr := { s.begun.thr with loops := c.1, pc := p } }
    (c.2 = none → exec (.trap k f) s = .next (u.trapEntry cTRAPI s.thr.pc (BitVec.ofNat 72 f.imm) none p).tickFresh) ∧
    (∀ b, c.2 = some b → s.begun.target b = none →
      exec (.trap k f) s = .next ((u.wordSeen b).trapEntry cTRAPI s.thr.pc (BitVec.ofNat 72 f.imm) none p).tickFresh) ∧
    (∀ b e x, c.2 = some b → s.begun.target b = some (e, x) →
      exec (.trap k f) s = .next ((s.begun.wordSeen b).take e x).tickFresh)) ∧
  ((Instr.trap k f).wf = true → ∀ w, encode (.trap k f) = some w →
    bits w 85 10 = 0x340 ∧ bits w 32 49 = 0 ∧ bits w 0 32 = f.imm)

/-- R98. ERET at S or F, with a saved privilege not above the present one and a TPC that names a slot, goes to TPC without a
check, restores the privilege and the loop registers, exchanges a31 and TSP on the way back to U, ends HBUSY and MSEQ, and
marks a trowel sequence that was trapped in its middle to go on. Nothing else changes. With a saved privilege above the
present one it traps PRIV; with a TPC that names no slot it traps ILLTGT with TPC as the address. -/
def Obligations.EretRestores : Prop := ∀ (s : State) (k : Ctl) (f : FNul),
  s.ready 0x341 k [] = true → s.thr.priv ≠ 0 →
  let x := s.thr
  let p := x.tstat.toNat / 4 % 4
  (p = 3 ∨ x.priv < p → exec (.eret k f) s = .next (s.take cPRIV 0).tickFresh) ∧
  (p ≠ 3 → p ≤ x.priv → slotOf x.tpc = none → exec (.eret k f) s = .next (s.take cILLTGT x.tpc).tickFresh) ∧
  (p ≠ 3 → p ≤ x.priv → slotOf x.tpc ≠ none → ∃ t, exec (.eret k f) s = .next t ∧
    t.thr.pc = x.tpc ∧ t.thr.priv = p ∧ t.thr.loops = x.tloops ∧ t.thr.tstat.getLsbD 4 = false ∧ t.thr.tstat.getLsbD 0 = false ∧
    t.thr.mcont = x.tstat.getLsbD 0 ∧
    (p = 0 → t.thr.reg (.a 31) = ofAddr x.tsp ∧ ofAddr t.thr.tsp = x.reg (.a 31)) ∧
    (p ≠ 0 → t.thr.reg (.a 31) = x.reg (.a 31) ∧ t.thr.tsp = x.tsp) ∧
    (∀ q, q ≠ .a 31 → t.thr.reg q = x.reg q) ∧ SameMachine s t ∧
    t.thr = { x with
      ar := t.thr.ar, tsp := t.thr.tsp, loops := x.tloops, priv := p, pc := x.tpc, young := false, wait := .none,
      tstat := t.thr.tstat, mcont := t.thr.mcont })
/-! ### The system group and the control and status registers (R87 to R100, R357) -/

/-- R4, R83, R87 to R94, R134, R360, R364. What CSRR reads: each register of the thread, its context, its tile and its partition under
its number of R88. A thread that neither trails nor is trailed gets the value in s[D] (its low 64 bits) or a[D], reading TCAUSE also
clears TSTAT.HBUSY, and nothing else changes. -/
def Obligations.CsrReads : Prop := ∀ (s : State) (k : Ctl) (f : FRI),
  s.thr.priv ≥ csrReadLvl f.imm → s.trails = false → s.trailed = false →
  let v := s.csr f.imm
  let u := if f.fn = 0 then s.begun.ws f.d (BitVec.ofNat 64 v) else s.begun.wa f.d (BitVec.ofNat 72 v)
  let u' := if f.imm = 0x001 then ({ u with thr := { u.thr with tstat := u.thr.tstat &&& ~~~(0x10 : Word) } } : State) else u
  Becomes (.csrr k f) s 0x342 k (if f.fn = 0 then [.s f.d] else []) u' ∧
  s.csr 0x000 = s.thr.tpc.toNat ∧ s.csr 0x001 = s.thr.tcause.toNat ∧ s.csr 0x002 = s.thr.taddr.toNat ∧
  s.csr 0x003 = s.thr.tstat.toNat ∧ s.csr 0x004 = s.thr.tvec.toNat ∧ s.csr 0x005 = s.thr.tsp.toNat ∧
  (∀ j < 4, s.csr (0x006 + j) = (SMap.get 0 s.thr.tscr j).toNat) ∧
  s.csr 0x00A = s.ctx.vtile + s.cur.i * 2 ^ 12 ∧ s.csr 0x00C = s.thr.role ∧
  s.csr 0x030 = s.thr.loops.lc0.toNat ∧ s.csr 0x031 = s.thr.loops.lc1.toNat ∧ s.csr 0x032 = s.thr.loops.ls.toNat ∧
  s.csr 0x033 = s.thr.loops.le.toNat ∧ s.csr 0x034 = s.thr.tloops.lc0.toNat ∧ s.csr 0x035 = s.thr.tloops.lc1.toNat ∧
  s.csr 0x036 = s.thr.tloops.ls.toNat ∧ s.csr 0x037 = s.thr.tloops.le.toNat ∧ s.csr 0x100 = s.thr.tsr.toNat ∧
  (∀ j < 64, s.csr (0x140 + j) = (SMap.get 0 s.tile.hist j).toNat) ∧ s.csr 0x200 = s.ctx.ptbr.toNat ∧ s.csr 0x201 = s.ctx.pid ∧
  s.csr 0x202 = (s.getPart s.ctx.pid).lpool.toNat ∧ s.csr 0x20D = (s.getPart s.ctx.pid).bal.toNat ∧
  s.csr 0x00B = s.thr.lseg.toNat ∧ s.csr 0x010 = s.thr.rlo.toNat ∧ s.csr 0x011 = s.thr.rhi.toNat ∧
  s.csr 0x012 = s.ctx.vtile + s.cur.i * 2 ^ 12 + s.thr.rseq.toNat * 2 ^ 16 ∧ s.csr 0x013 = s.thr.rstat.toNat ∧
  s.csr 0x014 = s.thr.rcnt.toNat ∧ s.csr 0x018 = s.ctx.mu.mpr.toNat ∧ s.csr 0x019 = s.ctx.mu.status.toNat ∧
  s.csr 0x01C = s.thr.lstat.toNat ∧ s.csr 0x020 = s.thr.trwt.toNat ∧ s.csr 0x021 = s.thr.mpc.toNat ∧
  s.csr 0x0E0 = s.thr.hfpc.toNat ∧ s.csr 0x0E1 = s.thr.hfcause.toNat ∧ s.csr 0x0E2 = s.thr.hfaddr.toNat ∧
  s.csr 0x101 = s.tile.lsplit ∧ s.csr 0x102 = s.tile.lgrp ∧
  (∀ j < 4, s.csr (0x180 + j) = (SMap.get 0 s.tile.vote j).toNat) ∧ s.csr 0x184 = s.fencest s.cur.t ∧
  s.csr 0x185 = s.tile.hbper.toNat ∧ s.csr 0x208 = (s.getPart s.ctx.pid).wdog1 ∧ s.csr 0x209 = (s.getPart s.ctx.pid).wdog2 ∧
  s.csr 0x20A = (s.getPart s.ctx.pid).wdog3 ∧ s.csr 0x20B = s.ctx.rlimit ∧ s.csr 0x20C = (s.getPart s.ctx.pid).lease

/-- R4, R5, R89. CSRW completes with the write that the register's map gives, of s[A] or a[A], and CSRX with the write of its
combination of s[A] and the old low 64 bits (bits [71:64] kept) and the old value in s[D]; a CSRX of TCAUSE clears HBUSY.
What a write makes of representative registers: the trap registers and scratch take the value; TCAUSE its low byte; TSR by
its fields, a written 1 clearing a sticky bit; LSEG a multiple of 64 below 1 MiB; RLIMIT at least 1; a register that only F
writes stays below F. -/
def Obligations.CsrWrites : Prop := ∀ (s : State) (k : Ctl) (f : FRI) (v : Nat),
  let old := s.csr f.imm
  let x := s.rs f.a
  let lo : Word := BitVec.ofNat 64 old
  let new := if f.fn = 0 then x else if f.fn = 1 then lo ||| x else lo &&& ~~~x
  let w := s.begun.csrWrite f.imm (old / 2 ^ 64 * 2 ^ 64 + new.toNat)
  let w' := if f.imm = 0x001 then ({ w with thr := { w.thr with tstat := w.thr.tstat &&& ~~~(0x10 : Word) } } : State) else w
  (s.thr.priv ≥ csrWriteLvl f.imm → Becomes (.csrw k f) s 0x343 k (if f.fn = 0 then [.s f.a] else [])
    (s.begun.csrWrite f.imm (if f.fn = 0 then x.toNat else (s.ra f.a).toNat))) ∧
  (s.thr.priv ≥ csrReadLvl f.imm → s.thr.priv ≥ csrWriteLvl f.imm →
    Becomes (.csrx k f) s 0x344 k [.s f.d, .s f.a] (w'.ws f.d lo)) ∧
  s.csrWrite 0x000 v = { s with thr := { s.thr with tpc := BitVec.ofNat 72 v } } ∧
  s.csrWrite 0x001 v = { s with thr := { s.thr with tcause := BitVec.ofNat 64 (v % 256) } } ∧
  s.csrWrite 0x004 v = { s with thr := { s.thr with tvec := BitVec.ofNat 72 v } } ∧
  s.csrWrite 0x006 v = { s with thr := { s.thr with tscr := SMap.set 0 s.thr.tscr 0 (BitVec.ofNat 64 v) } } ∧
  s.csrWrite 0x00B v = { s with thr := { s.thr with lseg := BitVec.ofNat 72 (v / 64 % 2 ^ 14 * 64) } } ∧
  s.csrWrite 0x030 v = { s with thr := { s.thr with loops := { s.thr.loops with lc0 := BitVec.ofNat 64 v } } } ∧
  s.csrWrite 0x100 v = { s with thr := { s.thr with
    tsr := (BitVec.ofNat 64 v &&& 0xFF01) ||| (s.thr.tsr &&& 0x6 &&& ~~~(BitVec.ofNat 64 v)) } } ∧
  s.csrWrite 0x20B v = { s with ctx := { s.ctx with rlimit := max (v % 256) 1 } } ∧
  (s.thr.priv ≠ 2 → s.csrWrite 0x201 v = s ∧ s.csrWrite 0x20C v = s ∧ s.csrWrite 0x0E0 v = s) ∧
  (s.thr.priv = 2 → s.csrWrite 0x201 v = { s with ctx := { s.ctx with pid := v % 16 } })

/-- R357, R100, R99. TLBI at S or F, with an ASID below 4096 and nothing to wait for, drops from every tile of its scope that
belongs to the thread's partition the translations that its form names, and every table entry of the partition that its
walkers hold, and an ASID of 4096 or more traps ILLOP; ICINV of an executable address of memory drops the tile's fetch copy
of the line; PARK waits, for s[A] cycles or, for 0, until it is woken, and its result, taken up, goes to s[D]. Nothing else
changes. The model's choices it rests on: log 85. -/
def Obligations.InvalidationsAndPark : Prop := ∀ (s : State) (k : Ctl) (f : FTlbi) (m : FM) (p : FPark) (v : Word),
  let asid := (s.rs f.sa).toNat
  let va := (s.ra f.ar).toNat
  (s.thr.priv ≠ 0 → asid < 4096 → s.thr.owesRmw = false → s.thr.owesSo = false →
    (2 ≤ f.scope → s.begun.performedAt s.cur.t f.scope = true) → s.begun.onTheWay f.scope s.cur.t s.ctx.pid = false →
    s.begun.usesDropped f.scope s.cur.t s.ctx.pid (fun e => e.hit f.fn s.ctx.pid asid va) = false →
    Becomes (.tlbi k f) s 0x345 k [.s f.sa] (s.begun.allTiles fun u x =>
      if s.ownerOf u == s.ctx.pid then
        { x with tlb := x.tlb.filter fun e => !(e.hit f.fn s.ctx.pid asid va && inScope (e.scope f.scope) s.cur.t u) } else x)) ∧
  (s.thr.priv ≠ 0 → 4096 ≤ asid → s.ready 0x345 k [.s f.sa] = true → exec (.tlbi k f) s = .next (s.take cILLOP 0).tickFresh) ∧
  (∀ x a, s.begun.translate s.begun.me .x (s.ea m) = .ok x → x.place = .pa a →
    Becomes (.icinv k m) s 0x346 k [.s m.idx]
      { s.begun with tile := { s.tile with fetched := SMap.erase s.tile.fetched (a / 64) } }) ∧
  (s.thr.retry = none → s.ready 0x347 k [.s p.d, .s p.a] = true →
    exec (.park k p) s = .next { s with thr := { s.thr with
      wait := .park (if s.rs p.a = 0 then none else some (s.plumb + (s.rs p.a).toNat)) }, fresh := s.fresh + 1 }) ∧
  (s.thr.retry = some v → Becomes (.park k p) s 0x347 k [.s p.d, .s p.a]
    (({ s.begun with thr := { s.begun.thr with retry := none } } : State).late [(.s p.d, ofWord v)]))
/-! ### The memory group (R220 to R232, R258 to R271) -/

/-- R222, R263, R264, R268, R269. What loads bring. When its accesses pass the checks and are made now, LD and LDQ bring the bytes
at their effective address, extended as the size code says; LDA.Q bits [71:0] of the 16 bytes at a multiple of 16; VLD 128
bytes; VLDS an element from each address of the stride; and VGATH an element from the address of each lane that is active in
k[km], the other lanes keeping v[vd]. What binds later than it issues (R226) is laid where its bytes belong in the register. An access that
fails a check traps, and nothing else happens. The model's choices it rests on: logs 7, 45. -/
def Obligations.LoadsBringValues : Prop := ∀ (s : State) (k : Ctl) (f : FM) (g : FV) (l : List (Addr × List Piece)),
  let u := s.begun
  let w := szBytes f.sz
  let lanes := gatherLanes (s.rk g.km)
  let bytes := fun (repl : Bool) => loadedBytes u repl l
  let o := f.ordq
  let ext := fun (x : Unbound) => { x with ext := some f.sz }
  (LoadsNow u l o → u.checkAll .r 1 [(s.ea f, w)] = .ok l →
    Becomes (.ld k f) s 0x100 k [.s f.d, .s f.idx] (afterLoads u false l [(.s f.d, ofWord (extend f.sz (ofLE (bytes false))))] o ext) ∧
    Becomes (.ldq k f) s 0x104 k [.s f.d, .s f.idx] (afterLoads u true l [(.s f.d, ofWord (extend f.sz (ofLE (bytes true))))] o ext)) ∧
  (LoadsNow u l o → u.checkAll .r 16 [(s.ea f, 16)] = .ok l →
    Becomes (.lda k f) s 0x102 k [.s f.idx] (afterLoads u false l [(.a f.d, ofAddr (BitVec.ofNat 72 (ofLE (bytes false))))] o)) ∧
  (LoadsNow u l o → u.checkAll .r 1 [(s.ea f, 128)] = .ok l →
    Becomes (.vld k f) s 0x110 k [.v f.d, .s f.idx] (afterLoads u false l [(.v f.d, BitVec.ofNat 1024 (ofLE (bytes false)))] o)) ∧
  (LoadsNow u l o → u.checkAll .r 1 ((List.range (128 / w)).map fun e => (s.eaStride f e, w)) = .ok l →
    Becomes (.vlds k f) s 0x112 k [.v f.d, .s f.idx] (afterLoads u false l [(.v f.d, BitVec.ofNat 1024 (ofLE (bytes false)))] o)) ∧
  (lanes ≠ [] → LoadsNow u l → u.checkAll .r 1 (lanes.map fun i => (s.eaLane g i, 4)) = .ok l →
    Becomes (.vgath k g) s 0x114 k [.v g.vd, .v g.va] (afterLoads u false l [(.v g.vd, (List.range lanes.length).foldl
      (fun v j => putBytes v (4 * lanes.getD j 0) (((bytes false).drop (4 * j)).take 4)) (s.rv g.vd 3))] 0 fun x =>
        { x with parts := x.parts.map fun q => (q.1, q.2.1, 4 * lanes.getD (q.2.2 / 4) 0 + q.2.2 % 4) })) ∧
  (lanes = [] → Becomes (.vgath k g) s 0x114 k [.v g.vd, .v g.va] (u.late [(.v g.vd, s.rv g.vd 3)])) ∧
  (∀ c a, u.checkAll .r 1 [(s.ea f, w)] = .error (.trap c a) → s.ready 0x100 k [.s f.d, .s f.idx] = true →
    exec (.ld k f) s = .next (s.take c a).tickFresh)

/-- R220, R222, R263, R264, R268, R269. What stores write, and where: ST and STQ the low bytes of s[D] at the effective address;
STA.Q a[D] zero-extended to 16 bytes at a multiple of 16; VST the 128 bytes of v[D]; VSTS each element of v[D] at its
address of the stride; VSCAT the element of v[vb] of each active lane at the lane's address, in ascending lane order; ZERO
16 zero doubles at a multiple of 128, and elsewhere it traps MISALIGN. When the stores are made now, the instruction leaves
exactly the state that they leave. The model's choices it rests on: logs 45, 66. -/
def Obligations.StoresWriteValues : Prop := ∀ (s : State) (k : Ctl) (f : FM) (g : FV) (u : State),
  let w := szBytes f.sz
  let lanes := gatherLanes (s.rk g.km)
  (StoresNow s.begun [(s.ea f, toLE w (s.rs f.d).toNat)] f.ordq 1 false u → Becomes (.st k f) s 0x101 k [.s f.d, .s f.idx] u) ∧
  (StoresNow s.begun [(s.ea f, toLE w (s.rs f.d).toNat)] f.ordq 1 true u → Becomes (.stq k f) s 0x105 k [.s f.d, .s f.idx] u) ∧
  (StoresNow s.begun [(s.ea f, toLE 16 (s.ra f.d 3).toNat)] f.ordq 16 false u → Becomes (.sta k f) s 0x103 k [.s f.idx] u) ∧
  (StoresNow s.begun [(s.ea f, getBytes (s.rv f.d) 0 128)] f.ordq 1 false u → Becomes (.vst k f) s 0x111 k [.v f.d, .s f.idx] u) ∧
  (StoresNow s.begun ((List.range (128 / w)).map fun e => (s.eaStride f e, getBytes (s.rv f.d) (w * e) w)) f.ordq 1 false u →
    Becomes (.vsts k f) s 0x113 k [.v f.d, .s f.idx] u) ∧
  (lanes ≠ [] → StoresNow s.begun (lanes.map fun i => (s.eaLane g i, getBytes (s.rv g.vb 3) (4 * i) 4)) 0 1 false u →
    Becomes (.vscat k g) s 0x115 k [.v g.va, .v g.vb] u) ∧
  (lanes = [] → Keeps (.vscat k g) s 0x115 k [.v g.va, .v g.vb]) ∧
  ((s.ea f).toNat % 128 = 0 →
    StoresNow s.begun ((List.range 16).map fun j => (s.ea f + BitVec.ofNat 72 (8 * j), List.replicate 8 0)) f.ordq 8 false u →
    Becomes (.zero k f) s 0x122 k [.s f.idx] u) ∧
  ((s.ea f).toNat % 128 ≠ 0 → s.ready 0x122 k [.s f.idx] = true → exec (.zero k f) s = .next (s.take cMISALIGN (s.ea f)).tickFresh)

/-- R198, R225, R236, R238, R241, R261, R264, R356, R424. What accesses leave as it was. Loads bring the lines they miss to their die, which changes no copy that an agent
holds and no memory of another line. From there they change no register, no special register and no byte of memory, of any
scratchpad or of any tile's view of memory: only the result to come, an issue slot parked for an error found (R388), the
tile's TLB, the replicas of the dies, and what the collectives of the CUs keep of the destinations that have been read
(R424). Stores
that do not reach the register window change no register and no memory at a home; every byte of a scratchpad outside the
pieces' bytes reads as before, and so, but for STQ's dropped copy, does every byte of every tile's view of memory, but that
of other tiles of a group that shares the storing tile's copy. What a store makes UNKNOWN of a sync object that is
outstanding touches no byte of any scratchpad outside that object. The model's choices it rests on: logs 6, 7, 8. -/
def Obligations.AccessFrames : Prop := ∀ (s t : State) (l : List (Addr × List Piece)) (ds : List (Reg × Vec)) (drop : Bool)
    (repl : Bool) (ordq : Nat) (fix : Unbound → Unbound) (ps : List Piece) (bs : List Byte),
  (let w := s.filled l
   let missed := s.missLines s.cur.t (allPieces l)
   LinesMoved s w ∧ (missed = [] → w = s) ∧ (∀ a, lineOf a ∉ missed → Memory.read w.mem a = Memory.read s.mem a) ∧
   (∀ ag j h, s.held ag j = some h → ∃ x, w.held ag j = some x ∧ x.data = h.data) ∧
   (∀ ag j, j ∉ missed → w.held ag j = s.held ag j)) ∧
  (let w := s.filled l
   let u := afterLoads s repl l ds ordq fix
   SameMemory w u ∧ (∀ q, u.thr.reg q = s.thr.reg q) ∧
   (∀ d, u.getDie d = { s.getDie d with repl := (u.getDie d).repl }) ∧
   (∀ t c, u.getCtx t c = { s.getCtx t c with cu := (u.getCtx t c).cu }) ∧
   u = { w with thr := { w.thr with pend := u.thr.pend, ueStall := u.thr.ueStall }, tile := { s.tile with tlb := u.tile.tlb }, dies := u.dies,
                ctx := u.ctx, ctxs := u.ctxs, ues := u.ues }) ∧
  (let u := s.spoilPieces ps
   u.mem = s.mem ∧ u.thr = s.thr ∧
   (∀ k b, (∀ o ∈ s.syncObjects, o.1 = k → b < o.2 ∨ o.2 + 16 ≤ b) → u.sramBytes k b 1 = s.sramBytes k b 1)) ∧
  (s.storePieces drop ordq ps bs = some t → (∀ p ∈ ps, ∀ off, p.spot.place ≠ .dev off) →
    t.mem = s.mem ∧ (∀ l, t.homeLine l = s.homeLine l) ∧ (∀ d l, t.dieLine d l = s.dieLine d l) ∧
    (∀ q, t.thr.reg q = s.thr.reg q) ∧
    (∀ k b, (∀ p ∈ ps, ∀ c, p.spot.place = .sram k c → b < c ∨ c + p.n ≤ b) → t.sramBytes k b 1 = s.sramBytes k b 1) ∧
    (drop = false → ∀ k l j, j < 128 → k = s.cur.t ∨ s.cur.t ∉ s.cacheGroup k → (∀ p ∈ ps, ∀ a, p.spot.place = .pa a → 128 * l + j < a ∨ a + p.n ≤ 128 * l + j) →
      getBytes (t.tileLine k l) j 1 = getBytes (s.tileLine k l) j 1))

/-- R100, R265 to R267, R270, R271. The full/empty instructions, made now at a checked place of DRAM or of a scratchpad. LDS of a
double that is full, or whose home has failed (with the condition of R388 or R391 then), brings its value, and of an empty one
parks the thread; taken up, it brings the value that the wake gave. STF stores the low 8 bytes of s[D], sets the double full and meets every LDS parked on it, in one step; SETE sets its doubles
empty; FEQ brings their full bits, all ones of host memory, and POISON where the home has failed (R391). PREF of an address that does not translate does nothing, and
PREF.SLICE fetches the line for the slice of its die; a CLEAN or DISC of a place without a line of memory changes nothing, and
else acts on the line. The model's choices it rests on: log 45. -/
def Obligations.FullEmptyAndHints : Prop := ∀ (s : State) (k : Ctl) (f : FM) (l : List (Addr × List Piece)),
  let u := s.begun
  let ea := s.ea f
  let w := szBytes f.sz
  let x := s.rs f.d
  let op := [Reg.s f.d, .s f.idx]
  (∀ v, s.thr.retry = some v → s.solo = true →
    Becomes (.lds k f) s 0x108 k op (({ u with thr := { u.thr with retry := none } } : State).late [(.s f.d, ofWord v)])) ∧
  (s.thr.retry = none → u.checkAll .r 8 [(ea, 8)] = .ok l → LoadsNow u l f.ordq → ∀ t b, placeOf l = .sram t b →
    (SMap.get false (s.getTile t).empty (b / 8) = false →
      Becomes (.lds k f) s 0x108 k op (afterLoads u false l [(.s f.d, ofWord (BitVec.ofNat 64 (ofLE (loadedBytes u false l))))] f.ordq)) ∧
    (SMap.get false (s.getTile t).empty (b / 8) = true → s.ready 0x108 k op = true →
      exec (.lds k f) s = .next ({ u with thr := { u.thr with wait := .lds (.sram t b) } } : State).tickFresh)) ∧
  (s.thr.retry = none → u.checkAll .r 8 [(ea, 8)] = .ok l → u.waits l = none → s.solo = true → u.sealedIn (allPieces l) = false →
    u.ordHeld f.ordq = false → ∀ a, placeOf l = .pa a → isHost a = false → u.homeReady s.cur.t (lineOf a) = true → u.homeFailed a = false →
    (SMap.get false s.empty (a / 8) = true → s.ready 0x108 k op = true →
      exec (.lds k f) s = .next ({ u with thr := { u.thr with wait := .lds (.pa a) } } : State).tickFresh)) ∧
  (s.thr.retry = none → u.checkAll .r 8 [(ea, 8)] = .ok l → u.waits l = none → s.solo = true → u.sealedIn (allPieces l) = false →
    u.ordHeld f.ordq = false → ∀ a, placeOf l = .pa a → isHost a = false → u.homeReady s.cur.t (lineOf a) = true →
    SMap.get false s.empty (a / 8) = false ∨ u.homeFailed a = true →
    Becomes (.lds k f) s 0x108 k op
      ((((u.inM (homeAgent (lineOf a)) (lineOf a) s.ctx.pid).noteTlb u.me ea).spoilDests (allPieces l)).late
        [(.s f.d, ofWord (BitVec.ofNat 64 (ofLE ((u.inM (homeAgent (lineOf a)) (lineOf a) s.ctx.pid).homeBytes a 8))))]
        (if u.poisoned (allPieces l) then some (u.badCause (allPieces l), ea) else none))) ∧
  (u.checkAll .w 8 [(ea, 8)] = .ok l → u.waits l = none → s.solo = true → u.mayPerform f.ordq = true →
    (∀ t b, placeOf l = .sram t b → Becomes (.stf k f) s 0x109 k op
      (((((u.sramWrite t b (toLE 8 x.toNat)).spoilSources (.sram t b) 8).spoil t b 8).sramFull t (b / 8) 1 true).wakeLds (.sram t b) x)) ∧
    (∀ a, placeOf l = .pa a → isHost a = false → u.homeFailed a = false → u.homeReady s.cur.t (lineOf a) = true → Becomes (.stf k f) s 0x109 k op
      (((((u.homeStore s.ctx.pid a (toLE 8 x.toNat)).spoilMem a 8).setFull (a / 8) 1 true).wakeLds (.pa a) x).noteTlb u.me ea))) ∧
  (u.checkAll .sete w [(ea, w)] = .ok l → u.waits l = none → s.solo = true → u.mayPerform f.ordq = true →
    (∀ t b, placeOf l = .sram t b → Becomes (.sete k f) s 0x10A k [.s f.idx] (u.sramFull t (b / 8) (w / 8) false)) ∧
    (∀ a, placeOf l = .pa a → u.homeFailed a = false → u.homeReady s.cur.t (lineOf a) = true → Becomes (.sete k f) s 0x10A k [.s f.idx]
      (((u.inM (homeAgent (lineOf a)) (lineOf a) s.ctx.pid).setFull (a / 8) (w / 8) false).noteTlb u.me ea))) ∧
  (u.checkAll .r w [(ea, w)] = .ok l → u.waits l = none → s.solo = true →
    (∀ t b, placeOf l = .sram t b → Becomes (.feq k f) s 0x10B k op
      (u.late [(.s f.d, BitVec.ofNat 1024 (fullBits (s.getTile t).empty (b / 8) (w / 8)))])) ∧
    (∀ a, placeOf l = .pa a → isHost a = true → Becomes (.feq k f) s 0x10B k op (u.late [(.s f.d, BitVec.ofNat 1024 (2 ^ (w / 8) - 1))])) ∧
    (∀ a, placeOf l = .pa a → isHost a = false → u.homeFailed a = false → u.homeReady s.cur.t (lineOf a) = true →
      Becomes (.feq k f) s 0x10B k op (((u.inM (homeAgent (lineOf a)) (lineOf a) s.ctx.pid).noteTlb u.me ea).late
        [(.s f.d, BitVec.ofNat 1024 (fullBits s.empty (a / 8) (w / 8)))])) ∧
    (∀ a, placeOf l = .pa a → isHost a = false → u.homeFailed a = true →
      Becomes (.feq k f) s 0x10B k op (u.late [(.s f.d, 0)] (some (cPOISON, ea))))) ∧
  (∀ c, u.translate u.me .r ea = .error c → Keeps (.pref k f) s 0x10C k [.s f.idx]) ∧
  (∀ y a, u.translate u.me .r ea = .ok y → y.place = .pa a → f.d = 1 →
    Becomes (.pref k f) s 0x10C k [.s f.idx] (u.fillShared (u.agentOf (dieOf s.cur.t)) (lineOf a) s.ctx.pid)) ∧
  (u.checkAll .r 1 [(ea, 1)] = .ok l →
    (∀ a, placeOf l = .pa a → u.waits l = none → Becomes (.clean k f) s 0x120 k [.s f.idx] ((u.clean (lineOf a)).noteAll l) ∧
      Becomes (.disc k f) s 0x121 k [.s f.idx] ((u.discard s.cur.t (lineOf a)).noteAll l)) ∧
    ((∀ a, placeOf l ≠ .pa a) → Keeps (.clean k f) s 0x120 k [.s f.idx] ∧ Keeps (.disc k f) s 0x121 k [.s f.idx]))
/-! ### Atomics, messages, monitors and fences (R272 to R283) -/

/-- R224, R225, R263, R273, R276, R295. An atomic of the thread on these checked pieces is made now: nothing holds it back, it follows what
its ordering makes it follow, no sealed region is to write its line, and the thread is in no region and has no redundant partner. -/
def AtomicNow (s : State) (ea : Addr) (n ordq : Nat) (l : List (Addr × List Piece)) : Prop :=
  s.checkAll .rw n [(ea, n)] = .ok l ∧ s.waits l = none ∧ s.thr.region = none ∧ s.solo = true ∧ s.mayPerform ordq = true ∧
  s.sealedIn (allPieces l) = false

/-- R272 to R277, R426, R427. Atomics. AMO, CAS and LR of memory join the queue of their line, from which their value returns;
an AMO or CAS of a scratchpad reads and writes in one step, giving the old value; an LR of a scratchpad gives the value and
reserves the line. SC without an
unbroken reservation of its place and size fails with 1 and ends whatever the thread held; with one on
a scratchpad it stores and gives 0; with one on memory its LR's place in the queue becomes the SC's. RED of memory takes a
reservation buffer. At the line's home a request that has arrived at the head of its queue is granted once leases have
lapsed, the REDs that arrived before it are performed and the line's ownership can pass, reads the old value and keeps what it will write; its release stores that and
returns the result. An LR's reservation ends 1,024 cycles after its grant. The model's choices it rests on: logs 16, 65. -/
def Obligations.AtomicsAndReservations : Prop := ∀ (s : State) (k : Ctl) (f : FAtom) (m : FM) (l : List (Addr × List Piece)),
  let u := s.begun
  let v := u.noteAll l
  let ea := s.eaAtom f
  let n := szBytes f.sz
  let x := s.rs f.a 2
  let y := s.rs f.b 3
  let mn := szBytes m.sz
  let acq := fun (o : Nat) => ordered o || (allPieces l).any fun p => p.spot.ord == 1
  (AtomicNow u ea n f.ordq l → ∀ a, placeOf l = .pa a → u.homeFailed a = false → u.drained s.cur.t (lineOf a) = true →
    u.buffersUsed s.cur.t < 16 →
    Becomes (.amo k f) s 0x182 k [.s f.d, .s f.a] (v.joinQueue ea a 0 f.fn n x y (acq f.ordq) f.d) ∧
    Becomes (.cas k f) s 0x183 k [.s f.d, .s f.a, .s f.b] (v.joinQueue ea a 1 f.fn n x y (acq f.ordq) f.d) ∧
    Becomes (.red k f) s 0x184 k [.s f.a] (v.placeRed (.pa a) f x none ((allPieces l).any fun p => p.spot.ord == 1))) ∧
  (AtomicNow u (s.ea m) mn m.ordq l → ∀ a, placeOf l = .pa a → u.homeFailed a = false → u.drained s.cur.t (lineOf a) = true →
    u.buffersUsed s.cur.t < 16 → s.thr.resv = none → s.lrPending s.cur = false →
    Becomes (.lr k m) s 0x180 k [.s m.d, .s m.idx] (v.joinQueue (s.ea m) a 3 0 mn 0 0 (acq m.ordq) m.d)) ∧
  (AtomicNow u ea n f.ordq l → u.poisoned (allPieces l) = false → ∀ t b, placeOf l = .sram t b →
    let old : Word := BitVec.ofNat 64 (ofLE (v.sramBytes t b n))
    let looked := fun (z : State) => z.spoilDests [{ spot := { place := .sram t b }, n := n }]
    (∀ z, atomicNew 0 f.fn n s.cur.t old x y = some z → Becomes (.amo k f) s 0x182 k [.s f.d, .s f.a]
      ((looked (((v.sramWrite t b (toLE n z.toNat)).spoilSources (.sram t b) n).spoil t b n)).late [(.s f.d, ofWord old)])) ∧
    (∀ z, atomicNew 1 f.fn n s.cur.t old x y = some z → Becomes (.cas k f) s 0x183 k [.s f.d, .s f.a, .s f.b]
      ((looked (((v.sramWrite t b (toLE n z.toNat)).spoilSources (.sram t b) n).spoil t b n)).late [(.s f.d, ofWord old)])) ∧
    (atomicNew 1 f.fn n s.cur.t old x y = none → Becomes (.cas k f) s 0x183 k [.s f.d, .s f.a, .s f.b]
      ((looked v).late [(.s f.d, ofWord old)]))) ∧
  (AtomicNow u (s.ea m) mn m.ordq l → u.poisoned (allPieces l) = false → s.thr.resv = none → s.lrPending s.cur = false →
    ∀ t b, placeOf l = .sram t b →
    Becomes (.lr k m) s 0x180 k [.s m.d, .s m.idx] ((({ v with thr := { v.thr with
      resv := some { line := lineOf b, size := mn, since := s.plumb, scratch := some t } } } : State).spoilDests (allPieces l)).late
        [(.s m.d, BitVec.ofNat 1024 (ofLE (u.sramBytes t b mn)))])) ∧
  (AtomicNow u ea n f.ordq l → (∀ a, placeOf l = .pa a → u.drained s.cur.t (lineOf a) = true) → s.lrPending s.cur = false →
    u.placeFailed (placeOf l) = false →
    (s.thr.reserves s.plumb (placeOf l) n = false →
      Becomes (.sc k f) s 0x181 k [.s f.d, .s f.a] ((u.dropResv s.cur).late [(.s f.d, 1)])) ∧
    (s.thr.reserves s.plumb (placeOf l) n = true → ∀ a, placeOf l = .pa a → Becomes (.sc k f) s 0x181 k [.s f.d, .s f.a]
      ((u.turnIntoSC (lineOf a) n a x).leave (.atomic (acq f.ordq)) [(.s f.d, 0)])) ∧
    (s.thr.reserves s.plumb (placeOf l) n = true → ∀ t b, placeOf l = .sram t b → Becomes (.sc k f) s 0x181 k [.s f.d, .s f.a]
      ((((({ u with thr := { u.thr with resv := none } } : State).sramWrite t b (toLE n (BitVec.ofNat 64 (x.toNat % 2 ^ (8 * n)) : Word).toNat)).spoilSources
        (.sram t b) n).spoil t b n).late [(.s f.d, 0)]))) ∧
  (∀ (ln : Nat) (q : ResvReq) (r : List ResvReq), SMap.get [] s.resvq ln = q :: r →
    (q.granted = false → q.at_ ≤ s.plumb → s.leased ln = false → s.sealedLine ln = false → s.ownable (s.queueAgent ln) ln = true →
      SMap.find s.hostWait ln = none → q.op ≠ 3 → s.reds.any (fun x => x.on ln && comesFirst x.time x.who q.at_ q.who) = false →
      let t := s.inM (s.queueAgent ln) ln q.pid
      let w := if q.op = 4 then t else t.spoilDests [{ spot := { place := .pa q.a }, n := q.size }]
      let old : Word := BitVec.ofNat 64 (ofLE (t.homeBytes q.a q.size))
      let q' : ResvReq :=
        { q with granted := true, since := t.plumb, old := old, new := atomicNew q.op q.fn q.size q.who.t old q.x q.y }
      anyPoison t.poison q.a q.size = false →
        exec (.reservationGrant ln) s = .next { w with resvq := SMap.put w.resvq ln (q' :: r) }) ∧
    (q.granted = true → q.op ≠ 3 → s.leased ln = false → s.ownable (s.queueAgent ln) ln = true → ∀ z, q.new = some z →
      let t := (({ s with resvq := SMap.set [] s.resvq ln r } : State).homeStore q.pid q.a (toLE q.size z.toNat)).spoilMem q.a q.size
      exec (.reservationRelease ln) s = .next (t.answer q.who q.pend (if q.op = 4 then 0 else q.old)
        (((t.getThread q.who).pend.find? fun p => p.id == q.pend).bind (·.cond))))) ∧
  (∀ (t c i : Nat) (r : Resv), (s.getThread ⟨t, c, i⟩).resv = some r → r.since + 1024 ≤ s.plumb →
    exec (.lrTimeout t c i) s = .next (s.dropResv ⟨t, c, i⟩)) ∧
  (∀ (tile : Nat) (a b : Word), amoNew 0 8 tile a.toNat b.toNat = b.toNat ∧ amoNew 1 8 tile a.toNat b.toNat = (a + b).toNat ∧
    amoNew 2 8 tile a.toNat b.toNat = (a &&& b).toNat ∧ amoNew 3 8 tile a.toNat b.toNat = (a ||| b).toNat ∧
    amoNew 4 8 tile a.toNat b.toNat = (a ^^^ b).toNat ∧ amoNew 5 8 tile a.toNat b.toNat = (if a.slt b then a else b).toNat ∧
    amoNew 6 8 tile a.toNat b.toNat = (if a.slt b then b else a).toNat ∧ amoNew 7 8 tile a.toNat b.toNat = (if a.ult b then a else b).toNat ∧
    amoNew 8 8 tile a.toNat b.toNat = (if a.ult b then b else a).toNat)

/-- R227, R255, R278 to R283. Messages, monitors and fences, by a thread in no region and without a redundant partner. APPEND to
a tile of the issuer's partition, when everything older is performed at its scope, sends the N registers and leaves its
answer to come; APPEND.CFG of an empty inbox sets it up and makes its doubles empty; APPEND.POP of an inbox that holds an
entry moves its head and makes the entry's doubles empty, and of an empty one gives 1; APPEND.STAT gives the counts. WRS
brings the line to its die, gives the double when it differs from s[D], and else parks with a monitor while one is free;
taken up, it gives the value of its wake. A FENCE of tile scope, an acquire, and one whose conditions hold already complete;
another leaves a marker in the FIFO, for which it waits. FENCEE gives the units that stopped, an MU also on its last covered command (R188), once each has ended the
commands that stood in its queue. The model's choices it rests on: logs 62, 65. -/
def Obligations.MessagesMonitorsAndFences : Prop := ∀ (s : State) (k : Ctl) (f : FAppend) (m : FM) (e : FFence) (l : List (Addr × List Piece)),
  let u := s.begun
  let t := s.rs f.t
  let x := s.ctx.inbox
  let n := (s.rs f.a 2).toNat
  let b := (s.ra f.ar 3).toNat
  let mu := s.ctx.mu
  let cu := s.ctx.cu
  s.solo = true → s.thr.region = none →
  (bits t.toNat 12 20 = 0 → s.ownerOf (t.toNat % 4096) = s.ctx.pid → s.thr.owesFence = false → s.thr.owesRmw = false →
    u.performedAt s.cur.t (msgScope s.cur.t (t.toNat % 4096)) = true →
    Becomes (.append k f) s 0x185 k (.s f.d :: .s f.t :: (List.range f.n).map fun j => .s (f.a + j))
      (({ u with msgs := u.msgs ++ [.append s.cur s.fresh s.ctx.pid s.ctx.launch s.ctx.vtile (t.toNat % 4096) (bits t.toNat 32 32)
          ((List.range f.n).map fun j => s.rs (f.a + j) (2 + j))] } : State).leave .msg [(.s f.d, 0)])) ∧
  (bits t.toNat 12 20 = 0 → s.ownerOf (t.toNat % 4096) ≠ s.ctx.pid →
    s.ready 0x185 k (.s f.d :: .s f.t :: (List.range f.n).map fun j => .s (f.a + j)) = true →
    exec (.append k f) s = .next (s.take cPARTITION (BitVec.ofNat 72 t.toNat)).tickFresh) ∧
  (n ≤ 1024 → b % 128 = 0 → b + 128 * n ≤ s.ctx.scratch → x.count = 0 →
    Becomes (.appendCfg k f) s 0x185 k [.s f.d, .s f.a]
      ((({ u with ctx := { u.ctx with inbox := { en := n != 0, base := b, nent := n, head := 0, tail := 0 } } } : State).sramFull
        s.cur.t ((s.ctx.ubase + b) / 8) (16 * n) false).late [(.s f.d, 0)])) ∧
  ((∀ p ∈ s.thr.pend, p.what ≠ .ready ∧ ∀ q, p.what ≠ .atomic q) →
    (x.count = 0 → Becomes (.appendPop k f) s 0x185 k [.s f.d] (u.late [(.s f.d, 1)])) ∧
    (x.count ≠ 0 → Becomes (.appendPop k f) s 0x185 k [.s f.d]
      ((({ u with ctx := { u.ctx with inbox := { x with head := (x.head + 1) % 2 ^ 32 } } } : State).sramFull
        s.cur.t (s.ctx.inboxByte x.head / 8) 16 false).late [(.s f.d, 0)]))) ∧
  (x.nent ≠ 0 → Becomes (.appendStat k f) s 0x185 k [.s f.d] (u.late [(.s f.d, BitVec.ofNat 1024
    (x.count % 2048 + x.nent % 2048 * 2 ^ 16 + b2n x.en * 2 ^ 27 + x.head % x.nent * 2 ^ 32))])) ∧
  (s.thr.retry = none → u.checkAll .r 8 [(s.ea m, 8)] = .ok l → u.waits l = none →
    let z := match placeOf l with | .pa a => u.shareIn (u.agentOf (dieOf s.cur.t)) (lineOf a) s.ctx.pid | _ => u
    z.ordHeld m.ordq = false →
    z.sent s.cur.t (placeOf l) = true → z.sealedIn (allPieces l) = false → z.lineHere (placeOf l) = true →
    z.poisoned (allPieces l) = false →
    (z.wrsRead s.me (placeOf l) ≠ z.rs m.d 3 → Becomes (.wrs k m) s 0x186 k [.s m.d, .s m.idx]
      (((z.noteAll l).spoilDests (allPieces l)).late [(.s m.d, ofWord (z.wrsRead s.me (placeOf l)))])) ∧
    (z.wrsRead s.me (placeOf l) = z.rs m.d 3 → (∀ a, placeOf l = .pa a → z.monitors (dieOf s.cur.t) (placeOf l) < 64 →
      s.ready 0x186 k [.s m.d, .s m.idx] = true →
      exec (.wrs k m) s = .next ({ z with thr := { z.thr with wait := .wrs (placeOf l) 0 true } } : State).tickFresh))) ∧
  (∀ w, s.thr.retry = some w → Becomes (.wrs k m) s 0x186 k [.s m.d, .s m.idx]
    (({ u with thr := { u.thr with retry := none } } : State).late [(.s m.d, ofWord w)])) ∧
  (s.thr.owesRmw = false → s.thr.unbound = false → u.hasRed s.cur = false → e.scope ≠ 0 →
    (e.kind = 0 → Keeps (.fence k e) s 0x188 k []) ∧
    (e.kind ≠ 0 → e.scope = 1 → s.reds.any (fun r => r.tile == s.cur.t) = false → Keeps (.fence k e) s 0x188 k []) ∧
    (e.kind ≠ 0 → e.scope ≠ 1 → u.performedAt s.cur.t e.scope = true → s.thr.owesSo = false → s.thr.owesFence = false →
      Keeps (.fence k e) s 0x188 k []) ∧
    (e.kind ≠ 0 → e.scope ≠ 1 → u.performedAt s.cur.t e.scope = false → fifoCount none s.tile.fifo < 64 →
      Becomes (.fence k e) s 0x188 k [] ((u.marker e.scope (some (s.cur, s.fresh))).leave (.fence e.kind e.scope) []))) ∧
  (e.scope = 0 → Keeps (.fence k e) s 0x188 k []) ∧
  (∀ p q, s.thr.wait = .fencee p q → (mu.ended < p → mu.stop = true) → (cu.ended < q → cu.stop = true) →
    Becomes (.fencee k e) s 0x189 k [.s e.d] (u.late [(.s e.d,
      BitVec.ofNat 1024 (b2n (mu.stop && (mu.ended < p || (mu.pois && mu.ended == p))) + 2 * b2n (cu.stop && cu.ended < q)))]))
/-! ### Regions (R284 to R302) -/

/-- R284, R287 to R289, R295, R297, R298, R300. The region instructions of a thread without a redundant partner. RBEGIN with a legal
abort target, everything older performed at die scope, begins a region at the bounds 1 to the largest position while aborts in a
row are below RLIMIT and no thread holds the die's token, and an irrevocable one at PMAX + 1 when the thread holds it; with
RLIMIT aborts in a row it waits for the token. RCOMMIT of a region with no footprint, and of one that every slice has accepted
and been told of, ends it at its position with RSTAT.CAUSE 0; outside a region it traps ILLOP. RABORT outside one changes
nothing; within, it restores the registers of the checkpoint, goes to the abort target, and reports RABORT and its code. RSTAT
and RPOS give the outcome, the bounds and a line's positions. The model's choices it rests on: log 62. -/
def Obligations.RegionInstructions : Prop := ∀ (s : State) (k : Ctl) (f : FRegion) (r : Region),
  let u := s.begun
  let die := s.getDie (dieOf s.cur.t)
  let tgt := targetB s.thr.pc (bits f.imm 3 29) (bits f.imm 0 3)
  let v := u.wordSeen tgt
  let dv := v.getDie (dieOf s.cur.t)
  s.solo = true →
  (u.target tgt = none → v.fenced = true →
    (dv.token = none → bits s.thr.rcnt.toNat 0 8 < s.ctx.rlimit →
      Becomes (.rbegin k f) s 0x190 k [] (v.beginRegion (f.fn == 1) tgt none)) ∧
    (dv.token = some s.cur → Becomes (.rbegin k f) s 0x190 k [] (v.beginRegion (f.fn == 1) tgt (some (dv.pmax + 1)))) ∧
    (dv.token ≠ some s.cur → s.ctx.rlimit ≤ bits s.thr.rcnt.toNat 0 8 → s.ready 0x190 k [] = true →
      exec (.rbegin k f) s = .next ({ v with thr := { v.thr with wait := .token } } : State).tickFresh)) ∧
  (∀ e i, let t := s.beginRegion e tgt i
    t.thr.region = some { elastic := e, irr := i.isSome, check := s.thr.check, target := tgt } ∧ t.thr.rlo = BitVec.ofNat 64 (i.getD 1) ∧
    t.thr.rhi = BitVec.ofNat 64 (i.getD (2 ^ 63 - 1)) ∧ t.thr.rseq = s.thr.rseq + 1 ∧
    t.thr.rstat = BitVec.ofNat 64 (2 ^ 4 + b2n e * 2 ^ 5 + b2n i.isSome * 2 ^ 6)) ∧
  (s.thr.region = some r → r.irr = false → r.sealing = none → u.quiet = true → s.thr.rlo.toNat ≤ s.thr.rhi.toNat → r.reads = [] →
    r.writes = [] → Becomes (.rcommit k f) s 0x191 k [] (u.committedAt s.thr.rlo.toNat)) ∧
  (∀ got, s.thr.region = some r → r.irr = false → r.sealing = some got → r.refused = false →
    (∀ l ∈ r.reads ++ r.writes, l ∈ got ∧ l ∈ r.told) →
    Becomes (.rcommit k f) s 0x191 k [] (u.committedAt s.thr.rlo.toNat)) ∧
  (s.thr.region = some r → r.irr = true → s.thr.pend = [] → u.dieDrained s.cur.t = true →
    Becomes (.rcommit k f) s 0x191 k [] (u.endIrr s.cur 0 0)) ∧
  (s.thr.region = none → s.ready 0x191 k [] = true → exec (.rcommit k f) s = .next (s.take cILLOP 0).tickFresh) ∧
  (s.thr.region = none → Keeps (.rabort k f) s 0x192 k []) ∧
  (s.thr.region = some r → r.irr = false → s.thr.pend = [] → s.ready 0x192 k [] = true →
    ∃ t, exec (.rabort k f) s = .next t ∧ t.thr.pc = r.target ∧ t.thr.sr = r.check.sr ∧ t.thr.ar = r.check.ar ∧ t.thr.vr = r.check.vr ∧
      t.thr.kr = r.check.kr ∧ t.thr.pr = r.check.pr ∧ t.thr.tsr = r.check.tsr ∧ t.thr.loops = r.check.loops ∧ t.thr.region = none ∧
      t.mem = s.mem ∧ bits t.thr.rstat.toNat 0 4 = 6 ∧ bits t.thr.rstat.toNat 8 8 = bits f.imm 0 8) ∧
  Becomes (.rstat k f) s 0x193 k [.s f.d] ((u.ws f.d s.thr.rstat).wp f.pd (s.thr.rstat.getLsbD 4)) ∧
  (s.thr.region = none ∨ u.quiet = true →
    Becomes (.rposB k f) s 0x194 k [.s f.d, .s f.e] (u.late [(.s f.d, ofWord s.thr.rlo), (.s f.e, ofWord s.thr.rhi)])) ∧
  (∀ l a, u.checkAll .r 1 [(s.ra f.ar 2, 1)] = .ok l → u.waits l = none → (placeOf l).regionAddr = some a →
    Becomes (.rposL k f) s 0x194 k [.s f.d, .s f.e] (u.late
      [(.s f.d, ofWord (BitVec.ofNat 64 (die.wposOf (lineOf a)))), (.s f.e, ofWord (BitVec.ofNat 64 (die.rposOf (lineOf a))))]))
/-! ### The matrix unit (R177 to R195) -/

/-- A command in the queue of the MU of the context in focus, with what it takes of its thread when it issues. -/
def muQueued (s : State) (x : MuCmd) : State :=
  { s with ctx := { s.ctx with mu := { s.ctx.mu with q := s.ctx.mu.q ++ [{ x with
      thr := s.cur.i, pc := s.thr.pc, priv := s.thr.priv, xsp := tsrXsp s.thr.tsr, hoff := tsrHoff s.thr.tsr, pend := s.fresh }] } } }

/-- R34, R179, R180, R185, R186, R189 to R194. The matrix instructions complete, and what the machine is in after them. Of an MU
thread without a redundant partner, to which no stop of the unit is to be delivered, and where execution can go on: with K
at most 2^24, aligned bases and strides, and room in the queue, MMA, MMAT, MMAS, MZERO, MST, MLDA, MRDV and MWRV complete
with their command in the queue; MRDV also leaves its row to come; a K above 2^24 traps ILLOP. MSYNC completes when the unit
is idle, and changes nothing; MSTAT completes with the unit's status or its progress to come. On a stopped unit MPROG.GO
completes and lets it go on, from GDONE after a fault and from 0 after a UE, and MPROG.DROP completes and discards every
command; on one that has not stopped they change nothing. MZERO at the head of a running unit's queue makes its accumulator
zero and ends; a row of MWRV takes its 32 elements. The model's choices it rests on: log 55. -/
def Obligations.MatrixCommands : Prop := ∀ (s : State) (k : Ctl) (f : FE) (g : FMu) (p : Loops × Addr),
  let u := s.begun
  let q := [Reg.s f.astr, .s f.bstr, .s f.kreg]
  let al := muAlign f.fa
  let a := (s.ra f.abase 0).toNat
  let as := (s.rs f.astr 1).toInt
  let b := (s.ra f.bbase 2).toNat
  let bst := (s.rs f.bstr 3).toInt
  let x := (s.ra f.ext 5).toNat
  let kk := (s.rs f.kreg 4).toNat
  let mu := s.ctx.mu
  let withMu := fun (m : Mu) => ({ u with ctx := { u.ctx with mu := m } } : State)
  s.solo = true → s.muStop = none → s.flow = some p →
  (mu.q.length < 2 →
    (kk ≤ 2 ^ 24 → a % al = 0 → as % (al : Int) = 0 → b % muAlign f.fb = 0 → bst % (muAlign f.fb : Int) = 0 →
      s.ready 0x280 k q = true → exec (.mma k f) s = .next ((muQueued u (muCmdOf s 0x280 f)).moved p)) ∧
    (kk ≤ 2 ^ 24 → a % 2 = 0 → as % 2 = 0 → x % 64 = 0 →
      s.ready 0x281 k q = true → exec (.mmat k f) s = .next ((muQueued u (muCmdOf s 0x281 f)).moved p)) ∧
    (kk ≤ 2 ^ 24 → a % 64 = 0 → as % 64 = 0 → b % muAlign f.fb = 0 → bst % (muAlign f.fb : Int) = 0 → x % 64 = 0 →
      s.ready 0x282 k q = true → exec (.mmas k f) s = .next ((muQueued u (muCmdOf s 0x282 f)).moved p)) ∧
    (s.ready 0x283 k [] = true → exec (.mzero k f) s = .next ((muQueued u { op := 0x283, acc := f.acc }).moved p)) ∧
    (a % al = 0 → as % (al : Int) = 0 → s.ready 0x286 k [.s f.astr] = true →
      exec (.mst k f) s = .next ((muQueued u { muCmdOf s 0x286 f with b := 0, bstr := 0, k := 0, x := 0 }).moved p)) ∧
    (a % al = 0 → as % (al : Int) = 0 → s.ready 0x287 k [.s f.astr] = true →
      exec (.mlda k f) s = .next ((muQueued u { muCmdOf s 0x287 f with b := 0, bstr := 0, k := 0, x := 0 }).moved p)) ∧
    (s.ready 0x284 k [.v g.vr] = true → exec (.mrdv k g) s = .next
      (((muQueued u { op := 0x284, acc := g.acc, row := g.row, fn := g.fn, vr := g.vr }).leave .mrdv [(.v g.vr, 0)]).moved p)) ∧
    (s.ready 0x285 k [.v g.vr] = true → exec (.mwrv k g) s = .next
      ((muQueued u { op := 0x285, acc := g.acc, row := g.row, fn := g.fn, data := s.rv g.vr 0 }).moved p))) ∧
  (2 ^ 24 < kk → s.ready 0x280 k q = true → exec (.mma k f) s = .next (s.take cILLOP 0).tickFresh) ∧
  (mu.q = [] → mu.stop = false → s.ready 0x289 k [] = true → exec (.msync k g) s = .next (u.moved p)) ∧
  (g.fn = 0 → s.ready 0x28A k [.s g.d] = true →
    exec (.mstat k g) s = .next ((u.late [(.s g.d, ofWord mu.status)]).moved p)) ∧
  (g.fn ≠ 0 → s.ready 0x28A k [.s g.d] = true →
    exec (.mstat k g) s = .next ((u.late [(.s g.d, ofWord (BitVec.ofNat 64 mu.progress))]).moved p)) ∧
  (mu.stop = true → s.ready 0x288 k [] = true →
    exec (.mprogGo k g) s = .next
      ((withMu { mu with stop := false, pend := false, done := if mu.pois then 0 else mu.gdone }).moved p) ∧
    exec (.mprogDrop k g) s = .next ((u.muDrop s.cur.t s.cur.c).moved p)) ∧
  (mu.stop = false → s.ready 0x288 k [] = true →
    exec (.mprogGo k g) s = .next (u.moved p) ∧ exec (.mprogDrop k g) s = .next (u.moved p)) ∧
  (∀ (c : MuCmd) (r : List MuCmd) (e : Nat), mu.q = c :: r → s.engGoes s.cur.t s.cur.c false = true → mu.stop = false → mu.done = 0 → mu.burst = [] → c.spoilt = false →
    s.engAfter ⟨s.cur.t, s.cur.c, c.thr⟩ c.pend = true → e < 1024 →
    (c.op = 0x283 → ∃ t, exec (.muCommandRun s.cur.t s.cur.c) s = .next t ∧ SMap.get 0 t.ctx.acc (c.acc * 1024 + e) = 0 ∧
      t.ctx.mu.q.length = r.length ∧ t.mem = s.mem ∧ t.thr = s.thr) ∧
    (c.op = 0x285 → c.fn = 0 → ∃ t, exec (.muCommandRun s.cur.t s.cur.c) s = .next t ∧
      (e / 32 = c.row → SMap.get 0 t.ctx.acc (c.acc * 1024 + e) = BitVec.ofNat 32 (elemOf c.data 4 (e % 32))) ∧
      (e / 32 ≠ c.row → SMap.get 0 t.ctx.acc (c.acc * 1024 + e) = SMap.get 0 s.ctx.acc (c.acc * 1024 + e)) ∧
      t.ctx.mu.q.length = r.length ∧ t.mem = s.mem ∧ t.thr = s.thr))
/-! ### The copy unit and collectives (R196 to R214) -/

/-- A command in the queue of the CU of the context in focus, with what it takes of its thread when it issues. -/
def cuQueued (s : State) (x : CuCmd) : State :=
  { s with ctx := { s.ctx with cu := { s.ctx.cu with q := s.ctx.cu.q ++ [{ x with
      thr := s.cur.i, priv := s.thr.priv, xsp := tsrXsp s.thr.tsr, batch := s.ctx.cu.batch, id := s.fresh }] } } }

/-- R34, R196, R197, R199 to R214. Instructions of a CU thread without a redundant partner to which no stop is to be delivered. With
room in the queue a copy whose operands pass their checks, and a collective of a defined group, enter it; an undefined group
traps ILLOP. CBATCH and CWAITB close the batch, and CWAITB completes with at most its number of batches outstanding; CSYNC.WAIT
completes once no copy is queued and no mismatch is recorded; CSYNC.STAT gives the status, GO clears a stop, DROP discards every
command of a stopped unit. SYNCW of an object of another generation gives its second double; SYNCWT sets a target and matches
it; SYNCWT.INIT makes the object anew. CWAIT of a group with nothing outstanding gives its status and clears it, and of no group
0; it waits for one that is outstanding; CGRP of a group with a collective outstanding waits. The model's choices it rests on:
logs 47, 55. -/
def Obligations.CopyAndCollectiveInstructions : Prop := ∀ (s : State) (k : Ctl) (f : FCu) (c : FColl),
  let u := s.begun
  let cu := s.ctx.cu
  let off := s.ra f.ay 4
  let b := s.ctx.ubase + off.toNat
  let d0 := s.syncD s.cur.t b 0
  let d1 := s.syncD s.cur.t b 1
  let v := (s.rs f.t 3).toNat
  let coll := fun (op : Nat) (g : Group) =>
    ({ op := op, dst := s.ra c.ad 0, src := s.ra c.asrc 1, n := (s.rs c.n 2).toNat, sync := 0, fn := c.fn, g := c.g, seq := g.seq,
       ty := c.ty } : CuCmd)
  let more := fun (t : State) => ({ t with ctx := t.ctx.modGroup c.g fun y => { y with seq := y.seq + 1, left := y.left + 1 } } : State)
  s.solo = true → cu.pend = false →
  (cu.q.length < 2 →
    ((u.copyChecks (copyCmd s 0x290 f) (s.rs f.t 3)).isNone = true →
      Becomes (.cpy k f) s 0x290 k [.s f.n, .s f.t] (cuQueued u (copyCmd s 0x290 f))) ∧
    ((u.copyChecks (copyCmd s 0x291 f) (s.rs f.t 3)).isNone = true →
      Becomes (.cpyc k f) s 0x291 k [.s f.n, .s f.t, .s f.sc] (cuQueued u (copyCmd s 0x291 f))) ∧
    ((u.copyChecks (copyCmd s 0x292 f) (s.rs f.t 3)).isNone = true →
      Becomes (.cpyg k f) s 0x292 k [.s f.n, .s f.t] (cuQueued u (copyCmd s 0x292 f))) ∧
    (∀ g, s.ctx.group c.g = some g →
      Becomes (.cring k c) s 0x2A1 k [.s c.n] (more (cuQueued u (coll 0x2A1 g))) ∧
      Becomes (.credu k c) s 0x2A2 k [.s c.n] (more (cuQueued u (coll 0x2A2 g))) ∧
      Becomes (.cgath k c) s 0x2A3 k [.s c.n] (more (cuQueued u (coll 0x2A3 g))) ∧
      Becomes (.cbar k c) s 0x2A4 k [] (more (cuQueued u { coll 0x2A4 g with n := 0, dst := 0, src := 0 })))) ∧
  (s.ctx.group c.g = none → s.ready 0x2A1 k [.s c.n] = true → exec (.cring k c) s = .next (s.take cILLOP 0).tickFresh) ∧
  (cu.outstanding < 64 → Becomes (.cbatch k f) s 0x293 k [] u.closeBatch) ∧
  (s.thr.retry = none → cu.outstanding < 64 → u.closeBatch.ctx.cu.outstanding ≤ f.imm → Becomes (.cwaitb k f) s 0x294 k [] u.closeBatch) ∧
  (s.ctx.fmx = [] → cu.q.any (·.isCopy) = false → Keeps (.csyncWait k f) s 0x297 k []) ∧
  Leaves (.csyncStat k f) s 0x297 k [.s f.n] .ready [(.s f.n, ofWord cu.status)] ∧
  Becomes (.csyncGo k f) s 0x297 k [] { u with ctx := { u.ctx with cu := { u.ctx.cu with stop := false, pend := false } } } ∧
  (cu.stop = true → Becomes (.csyncDrop k f) s 0x297 k [] (u.cuDrop s.cur.t s.cur.c)) ∧
  (s.ctx.objectBad off = none → bit d0 61 = false →
    (syncGen d1 ≠ v % 2 ^ 24 → Leaves (.syncw k f) s 0x295 k [.s f.n, .s f.t] .ready [(.s f.n, BitVec.ofNat 1024 d1)]) ∧
    (v < 2 ^ 40 → Becomes (.syncwt k f) s 0x296 k [.s f.t]
      ((u.syncPut s.cur.t b 0 (v + bits d0 40 12 * 2 ^ 40 + bits d0 61 3 * 2 ^ 61)).syncMatch s.cur.t b (syncCount d1))) ∧
    (v < 2 ^ 40 → Becomes (.syncwtInit k f) s 0x296 k [.s f.t]
      (((((u.syncPut s.cur.t b 0 (v + b2n (tsrXsp s.thr.tsr) * 2 ^ 62)).syncPut s.cur.t b 1 (syncGen d1 * 2 ^ 40)).sramFull
        s.cur.t (b / 8 + 1) 1 false).syncClear s.cur.t s.cur.c b)))) ∧
  (s.ctx.group c.g = none → Leaves (.cwait k c) s 0x2A5 k [.s c.d] .ready [(.s c.d, 0)]) ∧
  (∀ g, s.ctx.group c.g = some g →
    (g.left = 0 → g.fmx = none → Becomes (.cwait k c) s 0x2A5 k [.s c.d]
      (({ u with ctx := u.ctx.modGroup c.g fun y => { y with status := 0 } } : State).late [(.s c.d, BitVec.ofNat 1024 g.status)])) ∧
    (g.left ≠ 0 → s.ready 0x2A5 k [.s c.d] = true →
      exec (.cwait k c) s = .next ({ u with thr := { u.thr with wait := .cwait c.g } } : State).tickFresh) ∧
    (g.left ≠ 0 → s.ready 0x2A0 k [.s c.n, .s c.k] = true →
      exec (.cgrp k c) s = .next ({ u with thr := { u.thr with wait := .cwait c.g } } : State).tickFresh)) ∧
  (∀ (t : State) (l : List (Nat × Nat)) (r : Nat), (s.ctx.group c.g).all (fun g => g.left == 0) = true → 1 ≤ (s.rs c.n 2).toNat →
    (s.rs c.n 2).toNat ≤ 65536 → (s.ra c.asrc 1).toNat % 8 = 0 → readMembers u (s.ra c.asrc 1) (s.rs c.n 2).toNat 0 [] = .ok (t, l) →
    t.solo = true → l.findIdx? (· == (s.ctx.vtile, s.ownFab)) = some r → (∀ m ∈ l, m.2 = s.ownFab → s.ownerOf m.1 = s.ctx.pid) →
    let g : Group :=
      { key := (s.rs c.k 3).toNat, members := l, rank := r, status := ((s.ctx.group c.g).map (·.status)).getD 0,
        fmx := (s.ctx.group c.g).bind (·.fmx) }
    Becomes (.cgrp k c) s 0x2A0 k [.s c.n, .s c.k] { t with ctx := { t.ctx with groups := SMap.put t.ctx.groups c.g g } })
/-! ### Lineage (R142 to R162) -/

/-- R158, R160, R162. What a lineage instruction leaves: LSTAT holds its code and opcode, D its value, and PD its success. -/
def linLeaves (s : State) (op : Nat) (ds : List Reg) (d : Word) (ok : Bool) (code : Nat) : State :=
  ({ s with thr := { s.thr with lstat := BitVec.ofNat 64 (code + 256 * op) } } : State).late
    (ds.map fun r => (r, match r with | .p _ => ofBool ok | _ => ofWord d))

/-- R142 to R162. The lineage instructions of a thread without a redundant partner. A node operand that names no node traps
LNODE, one that is hidden LHIDDEN. LNEW of a legal size makes a root of zero blocks; LMAP binds a window whose pages all
have the LIN attribute and overlap no other; LUNMAP takes the binding away; FORK makes a child at the next depth, below 16;
REBASE to a proper ancestor and FLATTEN start the node's engine, or signal at once when there is nothing to do; DROP hides a
node with children and removes one without; LNQ answers; LDIFF finds the first block that differs. What fails does nothing
else, and reports its code. A region that has stored to a node that is forked, dropped or unmapped is to abort (R150, R157).
The model's choices it rests on: logs 43, 62, 79. -/
def Obligations.LineageInstructions : Prop := ∀ (s : State) (k : Ctl) (f : FLin),
  let u := s.begun
  let pid := s.ctx.pid
  let p := s.getPart pid
  let n := (s.rs f.a).toNat
  let g := (s.rs f.b 1).toNat
  let va := (s.ra f.ar 3).toNat
  let sd := Reg.s f.d
  let sa := Reg.s f.a
  let sb := Reg.s f.b
  let pd := Reg.p f.pd
  s.solo = true →
  (p.node n = none → s.ready 0x303 k [sd, sa] = true → exec (.fork k f) s = .next (s.take cLNODE (BitVec.ofNat 72 n)).tickFresh) ∧
  (∀ x, p.node n = some x → x.hidden = true → s.ready 0x303 k [sd, sa] = true →
    exec (.fork k f) s = .next (s.take cLHIDDEN (BitVec.ofNat 72 n)).tickFresh) ∧
  (∀ q c, n % 64 = 0 → 64 ≤ n → n ≤ 2 ^ 36 → p.addNode (Config.nodeSeed s.fresh) { blocks := n / 64, parent := 0 } = some (q, c) →
    Becomes (.lnew k f) s 0x300 k [sd, sa] (linLeaves (u.setPart pid q) 0x300 [sd, pd] (BitVec.ofNat 64 c) true 0)) ∧
  (n % 64 ≠ 0 ∨ n < 64 ∨ 2 ^ 36 < n → Becomes (.lnew k f) s 0x300 k [sd, sa] (linLeaves u 0x300 [sd, pd] 0 false lSIZE)) ∧
  (∀ x, va % 0x10000 = 0 → p.node n = some x → x.hidden = false →
    (∀ j < windowSize x / 0x10000, u.linPage (va + 0x10000 * j) = true) →
    (∀ b ∈ p.binds, b.space = s.ctx.ptbr.toNat → ∀ y, p.node b.node = some y → b.base + windowSize y ≤ va ∨ va + windowSize x ≤ b.base) →
    (p.binds.filter fun b => b.space == s.ctx.ptbr.toNat).length < 1024 →
    Becomes (.lmap k f) s 0x301 k [sa] (linLeaves (u.setPart pid { p with
      binds := p.binds ++ [{ space := s.ctx.ptbr.toNat, base := va, node := n, rw := f.fn == 0 }] }) 0x301 [pd] 0 true 0)) ∧
  (∀ b, p.binds.find? (fun b => b.space == s.ctx.ptbr.toNat && b.base == va) = some b →
    Becomes (.lunmap k f) s 0x302 k [] (linLeaves ((u.setPart pid { p with
      binds := p.binds.filter fun b => !(b.space == s.ctx.ptbr.toNat && b.base == va) }).strongNode pid b.node
        fun j => (u.getCtx j.t j.c).ptbr == s.ctx.ptbr) 0x302 [pd] 0 true 0)) ∧
  ((∀ b ∈ p.binds, b.space ≠ s.ctx.ptbr.toNat ∨ b.base ≠ va) →
    Becomes (.lunmap k f) s 0x302 k [] (linLeaves u 0x302 [pd] 0 false lNOMAP)) ∧
  (∀ x, p.node n = some x → x.hidden = false →
    (x.busy.isSome = true → Becomes (.fork k f) s 0x303 k [sd, sa] (linLeaves u 0x303 [sd, pd] 0 false lBUSY) ∧
      Becomes (.drop k f) s 0x306 k [sa] (linLeaves u 0x306 [pd] 0 false lBUSY)) ∧
    (x.busy = none →
      (15 ≤ p.depth chainMax n → Becomes (.fork k f) s 0x303 k [sd, sa] (linLeaves u 0x303 [sd, pd] 0 false lDEPTH)) ∧
      (∀ q c, p.depth chainMax n < 15 →
        (p.setNode n { x with kids := x.kids + 1 }).addNode (Config.nodeSeed s.fresh) { blocks := x.blocks, parent := n } = some (q, c) →
        Becomes (.fork k f) s 0x303 k [sd, sa] (linLeaves ((u.setPart pid q).strongNode pid n) 0x303 [sd, pd] (BitVec.ofNat 64 c) true 0)) ∧
      (∀ o, u.linSync f = .ok o →
        (x.parent = 0 → Becomes (.flatten k f) s 0x305 k [sa] (linLeaves (u.signalOwn o) 0x305 [pd] 0 true 0)) ∧
        (x.parent ≠ 0 → Becomes (.flatten k f) s 0x305 k [sa] (linLeaves (u.startEngine n x 0 o) 0x305 [pd] 0 true 0)) ∧
        (∀ y, p.node g = some y → y.hidden = false → x.parent ≠ 0 → p.above g n = true →
          (x.parent = g → Becomes (.rebase k f) s 0x304 k [sa, sb] (linLeaves (u.signalOwn o) 0x304 [pd] 0 true 0)) ∧
          (x.parent ≠ g → Becomes (.rebase k f) s 0x304 k [sa, sb] (linLeaves (u.startEngine n x g o) 0x304 [pd] 0 true 0)))) ∧
      (x.kids ≠ 0 → Becomes (.drop k f) s 0x306 k [sa] (linLeaves ((u.setPart pid
        ((({ p with binds := p.binds.filter fun b => b.node != n }) : Partn).setNode n { x with hidden := true })).strongNode pid n)
          0x306 [pd] 0 true 0)) ∧
      (x.kids = 0 → Becomes (.drop k f) s 0x306 k [sa] (linLeaves ((u.setPart pid
        (({ p with binds := p.binds.filter fun b => b.node != n } : Partn).freeNode n |>.loseChild chainMax x.parent)).strongNode pid n)
          0x306 [pd] 0 true 0)) ∧
      (∀ path, g = 0 → p.path 0 chainMax n = some path →
        (∀ i, p.firstDiff path (s.rs f.c 2).toNat = some i →
          Becomes (.ldiff k f) s 0x308 k [sd, sa, sb, .s f.c] (linLeaves u 0x308 [sd, pd] (BitVec.ofNat 64 i) true 0)) ∧
        (p.firstDiff path (s.rs f.c 2).toNat = none →
          Becomes (.ldiff k f) s 0x308 k [sd, sa, sb, .s f.c] (linLeaves u 0x308 [sd, pd] (BitVec.ofNat 64 x.blocks) false lNONE))))) ∧
  (∀ x, p.node n = some x →
    let q := fun (v : Nat) => Becomes (.lnq k f) s 0x307 k [sd, sa, sb] (linLeaves u 0x307 [sd] (BitVec.ofNat 64 v) true 0)
    (f.fn = 0 → q x.parent) ∧ (f.fn = 1 → q (p.depth chainMax n)) ∧ (f.fn = 2 → q (64 * x.blocks)) ∧
    (f.fn = 3 → q (p.stateWord n x)) ∧ (f.fn = 4 → q x.kids) ∧ (f.fn = 5 → q x.bytes) ∧
    (f.fn = 6 → g < x.blocks → q (SMap.get 0 x.kinds g)) ∧ (f.fn = 7 → x.busy = none → q 0)) ∧
  (p.node n = none → n ≠ 0 ∨ f.fn ≠ 5 → Becomes (.lnq k f) s 0x307 k [sd, sa, sb] (linLeaves u 0x307 [sd] 0 true 0))
/-! ### Tasks, queues and semaphores (R231, R316 to R330) -/

/-- R316, R43. A TCB operand of the thread passes its checks, and the home of its line can act: `l` is the launch, `p` the place and
`bs` the 64 bytes, as scheduling sees them. -/
def TcbNow (s : State) (a : Addr) (l : Launch) (p : Place) (bs : List Byte) : Prop :=
  a.toNat % 64 = 0 ∧ s.myLaunch = some l ∧ l.tcbbase ≤ a.toNat ∧ a.toNat < l.tcbbase + 64 * l.tcblen ∧
  ∃ ps, s.checkAll .w 64 [(a, 64)] = .ok ps ∧ s.waits ps = none ∧ placeOf ps = p ∧
    (∀ x, p = .pa x → s.homeReady s.cur.t (lineOf x) = true) ∧ bs = s.tcbSeen l a (s.homePlace s.ctx.pid p 64)

/-- R316 to R328. The task instructions of a thread without a redundant partner. A TCB operand that is no multiple of 64 traps
MISALIGN, and one outside the launch's block PERM. SPAWN, CALLAT and FORKB of a TCB that may start, with everything older
performed, no message on its way before theirs, and room in the deque, create the task, whose number SPAWN gives; CALLAT
writes its arguments, and its caller, and FORKB the target as start. JOIN gives 0 when its double is 0 and else parks for up
to 256 cycles. TDEP raises the count of a WAITING task and SIGNAL lowers it; of another task they give 1. CANCEL of a
WAITING or READY task ends it and its WAITING closure CANCELLED, and gives 0. TQRY gives what its form names. TEXIT of a
thread that owes nothing ends it. YIELD parks for 64 cycles, and goes on when it is taken up. CANCEL of a level ends its
launches' tasks and kills its units, and gives 0 once they have ended. CANCEL and LCNT of an unknown level give 1 and all
ones; CANCEL of a graph, phase or job traps PRIV at U. The model's choices it rests on: logs 62, 68. -/
def Obligations.TaskInstructions : Prop := ∀ (s : State) (k : Ctl) (f : FRR) (c : FCallat) (b : FB) (l : Launch) (p : Place) (bs : List Byte),
  let u := s.begun
  let pid := s.ctx.pid
  let a := s.ra f.a
  let n := (s.rs f.b 1).toNat
  let d := fun (t : State) (v : Nat) => t.late [(.s f.d, BitVec.ofNat 1024 (v % 2 ^ 64))]
  let room := fun (x : State) (t : Nat) (e : List Byte) => x.released 3 = true ∧ x.chanFree s.cur.t t = true ∧
    (tcbDepc e ≠ 0 ∨ x.readyRoom t = true) ∧ x.sysHeld pid l.ptbr.toNat (l.codebase + tcbEntry e) 64 = false
  let sd := Reg.s f.d
  let sb := Reg.s f.b
  s.solo = true →
  (a.toNat % 64 ≠ 0 → s.ready 0x093 k [sd] = true → exec (.spawn k f) s = .next (s.take cMISALIGN a).tickFresh) ∧
  (a.toNat % 64 = 0 → s.myLaunch = some l → a.toNat < l.tcbbase ∨ l.tcbbase + 64 * l.tcblen ≤ a.toNat →
    s.ready 0x093 k [sd] = true → exec (.spawn k f) s = .next (s.take cPERM a).tickFresh) ∧
  (TcbNow u a l p bs →
    (tcbBad bs = true → s.ready 0x093 k [sd] = true → exec (.spawn k f) s = .next (s.take cILLOP 0).tickFresh) ∧
    (tcbBad bs = false → room u s.cur.t bs →
      Becomes (.spawn k f) s 0x093 k [sd] (d (u.createTask pid s.ctx.launch l p bs a s.ctx.vtile s.cur.t {}) l.nextSeq)) ∧
    (tcbStatus bs ≠ stWAITING → u.taskReady = true → Becomes (.tdep k f) s 0x094 k [sd, sb] (d u 1)) ∧
    (tcbStatus bs = stWAITING → u.taskReady = true → n ≠ 0 → tcbDepc bs + n < 2 ^ 32 → Becomes (.tdep k f) s 0x094 k [sd, sb]
      (d ((u.homePut pid p (overBytes bs 40 (toLE 4 (tcbDepc bs + n)))).getD u) 0)) ∧
    (tcbStatus bs ≠ stWAITING → u.taskReady = true → Becomes (.signal k f) s 0x095 k [sd, sb] (d u 1)) ∧
    (tcbStatus bs = stWAITING → u.taskReady = true → n ≠ 0 → n < tcbDepc bs ∨ (n = tcbDepc bs ∧ u.readyRoom s.cur.t = true) →
      Becomes (.signal k f) s 0x095 k [sd, sb] (d (u.signalTask pid s.ctx.launch p bs a n s.cur.t) 0)) ∧
    (f.fn = 0 → Becomes (.tqry k f) s 0x098 k [sd] (d u (tcbStatus bs))) ∧
    (f.fn = 1 → Becomes (.tqry k f) s 0x098 k [sd] (d u (tcbDepc bs))) ∧
    (f.fn = 2 → tcbStatus bs ≠ stREADY → Becomes (.tqry k f) s 0x098 k [sd] (d u 0xFF)) ∧
    (4 ≤ f.fn → Becomes (.tqry k f) s 0x098 k [sd] (d u (tcbSeq bs))) ∧
    (tcbStatus bs ≠ stWAITING → tcbStatus bs ≠ stREADY → u.tasksReady pid s.ctx.launch = true → Becomes (.cancelTask k f) s 0x099 k [sd] (d u 1)) ∧
    (tcbStatus bs = stWAITING ∨ tcbStatus bs = stREADY → u.tasksReady pid s.ctx.launch = true →
      let all := a :: (u.closure pid l (256 * (l.tcblen + 1)) (u.successors pid l bs) []).filter fun x => x != a && u.waitingTask pid l x
      Becomes (.cancelTask k f) s 0x099 k [sd] (d (all.foldl (fun v x =>
        (v.dropEntries pid v.ctx.launch x).endTask pid v.ctx.launch x (rootTile l.tset) stCANCELLED 2) u) 0))) ∧
  (f.fn = 3 → Becomes (.tqry k f) s 0x098 k [sd] (d u (u.readyCount s.cur.t))) ∧
  (let w := s.rs c.t
   let e := overBytes (withArgs bs ((List.range 4).map fun j => s.rs (c.a + j) (1 + j))) 40 (toLE 4 0)
   let by_ : Caller := { tile := s.ctx.vtile, launch := s.ctx.launch, seq := s.ctx.seq, tag := bits w.toNat 32 32 }
   TcbNow u (s.ra c.c 7) l p bs → tcbBad bs = false → bits w.toNat 12 20 = 0 → inSet l.tset (w.toNat % 4096) = true →
    room u (w.toNat % 4096) e →
    Becomes (.callat k c) s 0x092 k (.s c.t :: (List.range 4).map fun j => .s (c.a + j))
      ((u.createTask pid s.ctx.launch l p e (s.ra c.c 7) s.ctx.vtile (w.toNat % 4096) { caller := some by_ }).late [])) ∧
  (let t := targetB s.thr.pc b.dl b.sl
   let e := overBytes (overBytes (withArgs bs ((List.range 4).map fun j => s.rs (1 + j) (2 + j))) 0 (toLE 4 s.ctx.entry)) 40 (toLE 4 0)
   (s.actsAs ≠ 1 → s.ready 0x090 k [.s 1, .s 2, .s 3, .s 4] = true → exec (.forkb k b) s = .next (s.take cILLOP 0).tickFresh) ∧
   (s.actsAs = 1 → TcbNow u (s.ra b.a) l p bs → tcbBad bs = false → u.target t = none → b.fn = 0 →
    room (u.wordSeen t) s.cur.t e →
    Becomes (.forkb k b) s 0x090 k [.s 1, .s 2, .s 3, .s 4]
      (((u.wordSeen t).createTask pid s.ctx.launch l p e (s.ra b.a) s.ctx.vtile s.cur.t { start := some t }).late []))) ∧
  (∀ ps, u.checkAll .r 8 [(a, 8)] = .ok ps → u.waits ps = none → (∀ x, placeOf ps = .pa x → u.homeReady s.cur.t (lineOf x) = true) →
    u.sealedIn (allPieces ps) = false → u.poisoned (allPieces ps) = false →
    (ofLE (u.homePlace pid (placeOf ps) 8) = 0 → Becomes (.join k f) s 0x091 k [sd] (u.late [(sd, 0)])) ∧
    (ofLE (u.homePlace pid (placeOf ps) 8) ≠ 0 → s.ready 0x091 k [sd] = true →
      exec (.join k f) s = .next ({ u with thr := { u.thr with wait := .join (placeOf ps) (s.plumb + 256) } } : State).tickFresh)) ∧
  (s.actsAs = 1 → s.thr.role = 1 → s.thr.pend = [] → s.thr.defer = [] → s.ready 0x096 k [.s f.a] = true →
    exec (.texit k f) s = .next (u.exitThread (s.rs f.a)).tickFresh) ∧
  (s.thr.retry = none → s.ready 0x097 k [] = true →
    exec (.yield k f) s = .next ({ u with thr := { u.thr with wait := .yield (s.plumb + 64) } } : State).tickFresh) ∧
  (∀ v, s.thr.retry = some v → Becomes (.yield k f) s 0x097 k [] { u with thr := { u.thr with retry := none } }) ∧
  (f.fn ≠ 1 → s.thr.priv = 0 → s.ready 0x099 k [sd, .s f.a] = true → f.fn ≠ 0 →
    exec (.cancelLevel k f) s = .next (s.take cPRIV 0).tickFresh) ∧
  (f.fn = 1 ∨ s.thr.priv ≠ 0 → s.thr.retry = none → s.levelOf (f.fn - 1) (s.rs f.a).toNat = none →
    Becomes (.cancelLevel k f) s 0x099 k [sd, .s f.a] (d u 1)) ∧
  (∀ ls, f.fn = 1 ∨ s.thr.priv ≠ 0 → s.thr.retry = none → s.levelOf (f.fn - 1) (s.rs f.a).toNat = some ls →
    (∀ e ∈ ls, u.tasksReady pid e.1 = true) → s.ready 0x099 k [sd, .s f.a] = true →
    let v := ls.foldl (fun s e => s.endLaunch s.ctx.pid e.1 stCANCELLED 0 (some (s.cur.t, s.cur.c))) u
    exec (.cancelLevel k f) s = .next ({ v with thr := { v.thr with wait := .hold, retry := some 0 } } : State).tickFresh) ∧
  (∀ v ls, f.fn = 1 ∨ s.thr.priv ≠ 0 → s.thr.retry = some v → s.levelOf (f.fn - 1) (s.rs f.a).toNat = some ls → u.levelEnding ls = false →
    (∀ e ∈ ls, e.1 ≠ s.ctx.launch) →
    Becomes (.cancelLevel k f) s 0x099 k [sd, .s f.a] (d { u with thr := { u.thr with retry := none } } 0)) ∧
  (s.levelOf f.fn (s.rs f.a).toNat = none → Becomes (.lcnt k f) s 0x09A k [sd, .s f.a] (d u (2 ^ 64 - 1))) ∧
  (∀ ls, s.levelOf f.fn (s.rs f.a).toNat = some ls → Becomes (.lcnt k f) s 0x09A k [sd, .s f.a] (d u (levelCount f.fn ls)))

/-- R231, R329, R330. Queues and semaphores, by a thread without a redundant partner to which no earlier wait has brought a result,
and whose older atomics are performed. SEMP takes one and gives the count left; SEMV adds; QPUSH appends to a queue of fewer
than 16 or hands its value to the thread that has waited longest; QPOP takes the oldest. One that cannot go on gives false with
.NB and else joins the waiters. QSTAT gives a queue's or a semaphore's counts. The model's choices it rests on: log 62. -/
def Obligations.QueueInstructions : Prop := ∀ (s : State) (k : Ctl) (f : FRR),
  let u := s.begun
  let q := s.ctx.queueOf f.fn
  let m := s.ctx.semOf f.fn
  let sd := Reg.s f.d
  let sa := Reg.s f.a
  let x := s.rs f.a
  let flag := fun (ok : Bool) => if f.b = 1 then [(Reg.p f.c, ofBool ok)] else []
  let putQ := fun (y : TQueue) => ({ u with ctx := u.ctx.setQueue f.fn y } : State)
  let putS := fun (y : Sem) => ({ u with ctx := u.ctx.setSem f.fn y } : State)
  s.solo = true → s.thr.retry = none → queueWaits u = false →
  (m.cnt ≠ 0 → Becomes (.semp k f) s 0x0A0 k [sd]
    ((putS { m with cnt := m.cnt - 1 }).late ((sd, ofWord (BitVec.ofNat 64 (m.cnt - 1))) :: flag true))) ∧
  (m.cnt = 0 → f.b = 1 → Becomes (.semp k f) s 0x0A0 k [sd] (u.late ((sd, ofWord 0) :: flag false))) ∧
  (m.cnt = 0 → f.b ≠ 1 → s.ready 0x0A0 k [sd] = true → exec (.semp k f) s = .next
    ({ putS { m with waits := m.waits ++ [s.cur.i] } with thr := { u.thr with wait := .semp f.fn } } : State).tickFresh) ∧
  (m.waits = [] → let a := if f.a = 0 then 1 else x.toNat
    Becomes (.semv k f) s 0x0A1 k [sd, sa]
      ((putS { m with cnt := min (m.cnt + a) 0xFFFF }).late [(sd, BitVec.ofNat 1024 (min (m.cnt + a) 0xFFFF % 2 ^ 64))])) ∧
  (q.pops = [] → q.ents.length < 16 → Becomes (.qpush k f) s 0x0A2 k [sa] ((putQ { q with ents := q.ents ++ [x] }).late (flag true))) ∧
  (q.pops = [] → 16 ≤ q.ents.length → f.b = 1 → Becomes (.qpush k f) s 0x0A2 k [sa] (u.late (flag false))) ∧
  (∀ j r, q.pops = j :: r → j ≠ s.cur.i → Becomes (.qpush k f) s 0x0A2 k [sa] (((putQ { q with pops := r }).wakeWith j x).late (flag true))) ∧
  (∀ v r, q.ents = v :: r → q.pushes = [] → Becomes (.qpop k f) s 0x0A3 k [sd] ((putQ { q with ents := r }).late ((sd, ofWord v) :: flag true))) ∧
  (∀ v r j w z, q.ents = v :: r → q.pushes = (j, w) :: z → j ≠ s.cur.i → Becomes (.qpop k f) s 0x0A3 k [sd]
    (((putQ { q with ents := r ++ [w], pushes := z }).wakeWith j 0).late ((sd, ofWord v) :: flag true))) ∧
  (q.ents = [] → f.b = 1 → Becomes (.qpop k f) s 0x0A3 k [sd] (u.late (flag false))) ∧
  (q.ents = [] → f.b ≠ 1 → s.ready 0x0A3 k [sd] = true → exec (.qpop k f) s = .next
    ({ putQ { q with pops := q.pops ++ [s.cur.i] } with thr := { u.thr with wait := .qpop f.fn } } : State).tickFresh) ∧
  (f.b = 0 → Becomes (.qstat k f) s 0x0A4 k [sd]
    (u.late [(sd, ofWord (BitVec.ofNat 64 (q.ents.length + (q.pops.length + q.pushes.length) * 2 ^ 8)))])) ∧
  (f.b ≠ 0 → Becomes (.qstat k f) s 0x0A4 k [sd] (u.late [(sd, ofWord (BitVec.ofNat 64 (m.cnt + m.waits.length * 2 ^ 16)))]))
/-! ### Hawk banks and trowel sequences (R358 to R366) -/

/-- R358 to R364, R366. TRWB of a binding that its checks allow puts it and gives the old one; TRWU clears it; TRWQ reads it; a
bank of another partition traps PARTITION. TRWL, when its loads are made now and meet no poison, writes the doubles to the
words of the bank, in order; of a source double in a tile that cannot answer it traps RESPF. A trowel instruction of an
unbound opcode traps TRWUNB. One bound to the single word EXIT or NOP starts and ends its sequence, outside loops: its ports
are given as results to come, with the values they had, and MPC.V is clear. The micro-operations ADD, SUB, ANDN, CMOV and
SLTU give what R362 says. The model's choices it rests on: log 63. -/
def Obligations.HawkAndTrowel : Prop := ∀ (s : State) (k : Ctl) (f : FHawk) (g : FTrowel) (l : List (Addr × List Piece)),
  let u := s.begun
  let v := s.rs f.a
  let old := s.binding f.opx
  let n := (s.rs f.b).toNat
  let a := s.ra f.ar
  let b := s.binding g.op
  let ports := [Reg.s g.d, .s g.a, .s g.b, .s g.c]
  let word := SMap.get 0 s.tile.hawk (256 * bindBank b + bindStart b)
  s.solo = true →
  (1 ≤ bindLen v → bindStart v + bindLen v ≤ 256 → bits v.toNat 23 41 = 0 → s.ownsBank (bindBank v) = true → s.thr.priv ≠ 0 →
    Becomes (.trwb k f) s 0x348 k [.s f.d, .s f.a] ((u.bindPut f.opx v).ws f.d old)) ∧
  (1 ≤ bindLen v → bindStart v + bindLen v ≤ 256 → bits v.toNat 23 41 = 0 → s.ownsBank (bindBank v) = false →
    s.ready 0x348 k [.s f.d, .s f.a] = true →
    exec (.trwb k f) s = .next (s.take cPARTITION (BitVec.ofNat 72 (bindBank v))).tickFresh) ∧
  Becomes (.trwu k f) s 0x34A k [.s f.d] ((u.bindPut f.opx 0).ws f.d old) ∧
  Becomes (.trwq k f) s 0x34B k [.s f.d] (u.ws f.d old) ∧
  (1 ≤ n → f.st + n ≤ 256 → a.toNat % 8 = 0 → s.ownsBank f.bk = true → s.thr.priv ≠ 0 →
    u.checkAll .r 1 ((List.range n).map fun j => (a + BitVec.ofNat 72 (8 * j), 8)) = .ok l → LoadsNow u l →
    (∀ e ∈ l, u.poisoned e.2 = false) →
    let t := ((u.makeReplicas (allPieces l) false).noteAll l).spoilDests (allPieces l)
    Becomes (.trwl k f) s 0x349 k [.s f.b] { t with tile := { t.tile with hawk := (List.range n).foldl (fun m j =>
      SMap.set 0 m (256 * f.bk + f.st + j) (BitVec.ofNat 64 (ofLE (((loadedBytes u false l).drop (8 * j)).take 8)))) t.tile.hawk } }) ∧
  (1 ≤ n → f.st + n ≤ 256 → a.toNat % 8 = 0 → s.ownsBank f.bk = true → s.thr.priv ≠ 0 →
    u.checkAll .r 1 ((List.range n).map fun j => (a + BitVec.ofNat 72 (8 * j), 8)) = .ok l →
    ∀ e, l.find? (fun e => u.deadTile e.2) = some e → s.ready 0x349 k [.s f.b] = true →
    exec (.trwl k f) s = .next (s.take cRESPF e.1).tickFresh) ∧
  (bindLen b = 0 → s.thr.mrun = none → s.thr.mcont = false → s.ready (0x3C0 + g.op) k ports = true →
    exec (.trowel k g) s = .next (s.take cTRWUNB (BitVec.ofNat 72 (0x3C0 + g.op))).tickFresh) ∧
  (bindLen b = 1 → s.ownsBank (bindBank b) = true → bindVec b = false → s.thr.mrun = none → s.thr.mcont = false →
    tMseq s.thr.tstat = false → s.thr.pend = [] → s.thr.retry = none → word = 0 ∨ word = BitVec.ofNat 64 (0x23 * 2 ^ 58) →
    s.ready (0x3C0 + g.op) k ports = true → s.thr.loops.lc0 = 0 → s.thr.loops.lc1 = 0 →
    ∃ t, exec (.trowel k g) s = .next t ∧ t.thr.pend = [] ∧
      (∀ r, t.thr.reg r = s.thr.reg r) ∧ t.thr.mpc.getLsbD 34 = false ∧ t.mem = s.mem ∧ t.thr.loops = s.thr.loops ∧ t.thr.pc = nextPC s.thr.pc) ∧
  (∀ (x y o : Word) (im : Nat), let m : Micro := { uop := 1, dst := 8, sa := 9, sb := 10, imm := im }
    m.alu x y o = x + y ∧ ({ m with uop := 2 } : Micro).alu x y o = x - y ∧ ({ m with uop := 7 } : Micro).alu x y o = x &&& ~~~y ∧
    ({ m with uop := 0x17 } : Micro).alu x y o = (if y ≠ 0 then x else o) ∧
    ({ m with uop := 0x1B } : Micro).alu x y o = (if x.ult y then 1 else 0))
/-! ### Threads go on (steps of other agents) -/

/-- R38, R39, R50, R95, R99, R207, R259, R266, R279, R281, R282, R288, R319, R321,
R348, R424. The steps that move a thread on, each from any
state that enables it. A vector or other result returns to its register, a load not bound yet binding first, or, met by a condition, waits for the switch marker or
is to abort the region. A line with a bad parity is discarded and fetched again, and traps LINE when it is bad again. A trap's
entry is made. A thread waiting on a sync load, a monitor, a JOIN, PARK, SYNCW or a unit away goes on, with the value when the
wait gives one. An inbox takes an append when it has room, and else answers 1 full, 2 disabled, 3 no such unit; held returns are
delivered, to a parked caller in its image as well, and dropped when the caller has completed, counted where the tile is another partition's. The model's choices it rests on: logs
7, 9, 42, 51. -/
def Obligations.ThreadsGoOn : Prop := ∀ (s : State) (t c i n : Nat),
  let k : Key := ⟨t, c, i⟩
  let x := s.getThread k
  let met := fun (v : Option Word) => s.setThread k { x with wait := .none, retry := v }
  let dbl := fun (p : Place) => [({ spot := { place := p }, n := 8 } : Piece)]
  let seen := fun (p : Place) => s.wrsRead { k := k, priv := x.priv } p
  let u := s.focus k
  -- results
  (∀ p d, x.pend[n]? = some p → x.mayReturn n p = true → p.load = none → p.cond = none → p.dests = [d] → d.clob = false →
    exec (.classVResult t c i n) s =
      .next (s.setThread k (({ x with pend := x.pend.filter fun q => q.id != p.id } : Thread).setReg d.r d.v))) ∧
  (∀ p e a, x.pend[n]? = some p → x.mayReturn n p = true → p.load = none → p.cond = some (e, a) → x.region = none →
    exec (.classVResult t c i n) s =
      .next (s.setThread k { x with
        pend := x.pend.filter fun q => q.id != p.id
        defer := insertCond { id := p.id, pc := p.pc, cause := e, at_ := a } x.defer })) ∧
  (∀ p e a r, x.pend[n]? = some p → x.mayReturn n p = true → p.load = none → p.cond = some (e, a) → x.region = some r → r.irr = false →
    r.committed = false → r.doom = none →
    exec (.classVResult t c i n) s = .next (s.setThread k
      { x with pend := x.pend.filter fun q => q.id != p.id, region := some { r with doom := some (7, e) } })) ∧
  (∀ p v, x.pend[n]? = some p → p.load = some v →
    let qs := v.now s
    let w := s.fillLoads t (s.getCtx t c).pid (partPieces qs)
    (w.sealedIn (partPieces qs) = false → w.missHeld t (partPieces qs) = false → exec (.classVResult t c i n) s =
      .next ((({ w with fresh := w.fresh + 1 } : State).modThread k fun y => y.modPend p.id fun q =>
        { q with load := none, dests := q.dests.map fun d => { d with v := w.rebind t v qs d.v } }).returnNth k n)) ∧
    (w.sealedIn (partPieces qs) = true ∨ w.missHeld t (partPieces qs) = true → exec (.classVResult t c i n) s = .next s)) ∧
  -- a line's parity, and traps
  (∀ j l m, x.life = .live → slotOf u.thr.pc = some j → u.fetch u.thr.pc = .ok l → lineBad l (l.turnSlots j) = true →
    let w := u.dropLine u.thr.pc
    w.fetch u.thr.pc = .ok m →
    (lineBad m (m.turnSlots j) = true →
      exec (.lineRefetch t c i) s = .next (w.take cLINE (lineAddr u.thr.pc)).tickFresh) ∧
    (lineBad m (m.turnSlots j) = false → bits m.word 14 18 = 0 →
      exec (.lineRefetch t c i) s = .next ((w.correctable 2 (clusterOf u.cur.t)).noteFetch u.thr.pc).tickFresh)) ∧
  (∀ cause a, x.life = .live → x.retry = none → cause ∈ trapCauses → u.thr.region = none → u.owesResults = false → u.thr.defer = [] → u.muStop = none →
    exec (.trapEntry t c i cause a) s = .next (u.trapEntry cause u.thr.pc (BitVec.ofNat 72 a)).tickFresh) ∧
  -- wakes
  (∀ v, x.wait = .ldsMet v → exec (.ldsWake t c i) s = .next (met (some v))) ∧
  (∀ p, x.wait = .wrsMet p → s.poisoned (dbl p) = false → exec (.wrsWake t c i) s = .next ((s.spoilDests (dbl p)).wake k (some (seen p)))) ∧
  (∀ p till, x.wait = .wrs p till false → till ≤ s.plumb → s.poisoned (dbl p) = false →
    exec (.wrsTimeout t c i) s = .next ((s.spoilDests (dbl p)).wake k (some (seen p)))) ∧
  (∀ p till, x.wait = .join p till → (till ≤ s.plumb ∨ ofLE (s.homePlace (s.getCtx t c).pid p 8) = 0) →
    exec (.joinRecheck t c i) s = .next (met none)) ∧
  (∀ till, x.wait = .park (some till) → till ≤ s.plumb → exec (.parkTimeout t c i) s = .next (met (some 2))) ∧
  (∀ off g, x.wait = .syncw off g →
    (syncGen (s.syncD t ((s.getCtx t c).ubase + off) 1) ≠ g ∨ bit (s.syncD t ((s.getCtx t c).ubase + off) 0) 61 = true) →
    exec (.syncwWake t c i) s = .next (met none)) ∧
  (∀ vt, x.wait = .remote vt → (s.unitAt (s.getCtx t c).pid (s.getCtx t c).launch vt).isSome = true →
    exec (.remoteLoadWake t c i) s = .next (met none)) ∧
  (∀ till, x.wait = .park till → exec (.spuriousWake t c i) s = .next (met (some 0))) ∧
  (∀ p till e, x.wait = .wrs p till e → s.poisoned (dbl p) = false → exec (.spuriousWake t c i) s = .next ((s.spoilDests (dbl p)).wake k (some (seen p)))) ∧
  -- the inbox
  (∀ src pend pid launch vsrc dst tag data t' c', s.msgFirst n = some (.append src pend pid launch vsrc dst tag data) →
    let b := (s.getCtx t' c').inbox
    (s.unitAt pid launch dst = some (t', c') → (s.getCtx t' c').held = [] →
      (b.en = false → exec (.inboxDelivery n) s = .next ((s.dropMsg n).answer src pend 2)) ∧
      (b.en = true → b.count < b.nent →
        exec (.inboxDelivery n) s = .next (((s.dropMsg n).deliverEntry t' c' vsrc 0 tag data).answer src pend 0)) ∧
      (b.en = true → b.nent ≤ b.count → exec (.inboxDelivery n) s = .next ((s.dropMsg n).answer src pend 1))) ∧
    (s.unitAt pid launch dst = none →
      ((s.getDie (dieOf src.t)).knows.contains dst = true →
        exec (.inboxDelivery n) s = .next ((s.dropMsg n).answer src pend 0 (some (cRESPF, 0)))) ∧
      (bit (SMap.get 0 s.fence dst) 0 = false → (s.getDie (dieOf src.t)).knows.contains dst = false →
        exec (.inboxDelivery n) s = .next ((s.dropMsg n).answer src pend 3)))) ∧
  (∀ src pid tgt v, s.msgFirst n = some (.callRet src pid tgt v) →
    (s.liveCtxs.find? (fun e => (s.getCtx e.1 e.2).isCaller pid tgt) = some (t, c) →
      let w := (s.dropMsg n).modCtx t c fun y => { y with held := y.held ++ [(tgt.tag, src, v)] }
      exec (.callatReturnDelivery n) s = .next (w.deliverHeld t c (w.getCtx t c).held.length)) ∧
    (s.liveCtxs.find? (fun e => (s.getCtx e.1 e.2).isCaller pid tgt) = none →
      ((s.getPart pid).parked.find? (fun y => y.ctx.isCaller pid tgt) = none →
        exec (.callatReturnDelivery n) s =
          .next (if s.ownerOf tgt.tile ≠ pid then (s.dropMsg n).logEvent 14 tgt.tile pid 0 0 else s.dropMsg n)) ∧
      (∀ y, (s.getPart pid).parked.find? (fun y => y.ctx.isCaller pid tgt) = some y →
        (∀ a ∈ y.copies, s.sysReady a (imageSpace / 2) = true) →
        exec (.callatReturnDelivery n) s = .next ((s.dropMsg n).saveParked pid (y.takeReturn tgt.tag src v))))) ∧
  (∀ tag src v, (s.getCtx t c).held = [(tag, src, v)] → (s.getCtx t c).inbox.room = true →
    exec (.heldReturnDelivery t c) s = .next ((s.modCtx t c fun y => { y with held := [] }).deliverEntry t c src 1 tag [v]))
/-! ### Lines move (steps of other agents) -/

/-- R236 to R239, R242 to R246, R249 to R251, R426. The steps by which lines and stores move, each from any state that enables
it. A lease is granted on a line that may be leased to a tile whose cache has room; a copy past its lease goes. The oldest entry of a tile's FIFO, with the
stores that have merged into it, goes to the slice of its line; a marker leaves the FIFO when all before it is performed; a
store at a slice is performed once no lease runs and no hold stands, whole when every observer is to see it so; pending
bytes merge into a line held in M or E, else the die takes the line, or asks at a home that is not idle. A request for a
line of DRAM takes its place at the home and is taken up in a later cycle: of a line of which nothing is recorded RDS gives
E with the home's data and RDX M; with sharers or an owner recorded a transaction opens with its probes. A probe is answered
by an agent that holds the line, which keeps or loses it; one that holds nothing answers 40 cycles on. A write-back of the
recorded owner is written to memory; a stale one is not. The host reads, writes, answers snoops and snoops; lines are
evicted. The model's choices it rests on: logs 8, 9, 15, 17, 18, 19, 20, 21, 83, 84. -/
def Obligations.LinesMove : Prop := ∀ (s : State) (t d ag l : Nat),
  let e := s.entry l
  let pid := s.linePid l
  let open_ := fun (x : Txn) => ({ s with txns := SMap.put s.txns l x } : State)
  let idle : State := { s with txns := SMap.erase s.txns l }
  -- leases
  (s.mayHold t l = true → s.mayLease (dieOf t) l = true → (s.getTile t).cacheRoom l = true →
    let r := s.fillShared (s.agentOf (dieOf t)) l (s.ownerOf t)
    (r.held (s.agentOf (dieOf t)) l).isSome = true → exec (.leaseGrant t l) s = .next (r.grantLease t l)) ∧
  (∀ c, SMap.find (s.getTile t).copies l = some c → c.till ≤ s.plumb + 2 →
    exec (.leaseExpiry t l) s = .next (s.modTile t fun x => { x with copies := SMap.erase x.copies l })) ∧
  -- stores on their way
  (∀ x r, (s.getTile t).fifo = .store x :: r →
    let run := (r.takeWhile fun e => (e.store?).any fun y => lineOf y.a == lineOf x.a).filterMap FifoEnt.store?
    exec (.fifoSend t) s = .next ((s.modTile t fun y => { y with fifo := r.drop run.length }).modDie (dieOf t) fun y =>
      { y with waitSt := y.waitSt ++ x :: run })) ∧
  (∀ scope o r, (s.getTile t).fifo = .marker scope o :: r → s.sentPerformed t scope = true →
    exec (.releaseMarkerAck t) s = .next ((s.modTile t fun y => { y with fifo := r }).finish o)) ∧
  (∀ x r, (s.getDie d).waitSt = x :: r → (s.getDie d).leased s.plumb (lineOf x.a) = false → s.underHold (lineOf x.a) = false →
    let p := x.part s.fresh
    exec (.storePerformAtSlice d (lineOf x.a)) s =
      .next (({ (s.modDie d fun y => { y with waitSt := p.2 ++ r }) with fresh := s.fresh + 1 } : State).performStore d p.1) ∧
    (x.whole = true → p = (x, []))) ∧
  (∀ x r, (s.getDie d).pendB = x :: r →
    (∀ h, s.held (s.agentOf d) (lineOf x.a) = some h → h.st = .m ∨ h.st = .e →
      exec (.ownershipArrival d (lineOf x.a)) s = .next (s.mergePending d (lineOf x.a))) ∧
    (s.held (s.agentOf d) (lineOf x.a) = none → s.homeIdle (lineOf x.a) = true → s.leasedBeside d (lineOf x.a) = false →
      s.underHold (lineOf x.a) = false →
      exec (.ownershipArrival d (lineOf x.a)) s = .next (s.inM (s.agentOf d) (lineOf x.a) x.pid)) ∧
    (s.held (s.agentOf d) (lineOf x.a) = none → s.homeIdle (lineOf x.a) = false → exec (.ownershipArrival d (lineOf x.a)) s =
      .next (s.ask (lineOf x.a) { kind := 1, ag := s.agentOf d, pid := x.pid, at_ := s.plumb }))) ∧
  -- requests at the home of a line of DRAM: they wait for their turn, and are taken up in a later cycle
  (s.dieAgent ag = true → isDram (128 * l) = true → SMap.find s.txns l = none →
    (SMap.get [] s.homeq l = [] → s.held ag l = none →
      exec (.rds ag l) s = .next { s with
        homeq := SMap.set [] s.homeq l [{ kind := 0, ag := ag, pid := s.askPid ag l false, at_ := s.plumb }] } ∧
      exec (.rdx ag l) s = .next { s with
        homeq := SMap.set [] s.homeq l [{ kind := 1, ag := ag, pid := s.askPid ag l true, at_ := s.plumb }] }) ∧
    (∀ q w, SMap.get [] s.homeq l = q :: w → q.ag = ag → q.at_ < s.plumb → s.bankUsed (bankOf l) < 65536 →
      let r : State := { s with homeq := SMap.set [] s.homeq l w }
      (q.kind = 0 → s.held ag l = none → exec (.rds ag l) s = .next (r.beginTxn l 0 ag q.pid q.wr)) ∧
      (q.kind = 1 → s.held ag l = none → exec (.rdx ag l) s = .next (r.beginTxn l 1 ag q.pid q.wr)) ∧
      (∀ h, q.kind = 2 → s.held ag l = some h → h.st = .s ∨ h.st = .o → e.records l ag = true → h.comp = false →
        exec (.upg ag l) s = .next (r.beginTxn l 2 ag q.pid q.wr)))) ∧
  -- what a home that takes up a request does
  (SMap.find s.txns l = none → e.h = false →
    (e.dst = 0 → s.beginTxn l 0 ag pid =
      (idle.setHeld ag l (some { st := .e, data := s.homeLine l, pid := pid })).setEntry l { dst := 3, own := ag, h := false }) ∧
    (e.dst = 0 → e.shv = 0 → ag / 8 ≠ s.domPos →
      s.beginTxn l 1 ag pid = (idle.takeM ag l pid).setEntry l { dst := 3, own := ag, h := false }) ∧
    (2 ≤ e.dst → s.beginTxn l 0 ag pid = open_ { kind := 0, ag := ag, pid := pid, since := s.plumb, await := [e.own] } ∧
      s.beginTxn l 1 ag pid = open_ { kind := 1, ag := ag, pid := pid, since := s.plumb, await := e.probed l 1 ag }) ∧
    (e.dst ≠ 0 → e.probed l 2 ag ≠ [] →
      s.beginTxn l 2 ag pid = open_ { kind := 2, ag := ag, pid := pid, since := s.plumb, await := e.probed l 2 ag })) ∧
  (∀ h, SMap.find (SMap.get [] s.wbufs ag) l = some (h, false) → SMap.find s.txns l = none → isHost (128 * l) = false →
    let r : State := { s with wbufs := SMap.set [] s.wbufs ag (SMap.erase (SMap.get [] s.wbufs ag) l) }
    (2 ≤ e.dst → e.own = ag → exec (.wb ag l) s =
      .next (({ r with mem := Memory.write s.mem (128 * l) (getBytes h.data 0 128) } : State).setEntry l
        { e with dst := if e.shv = 0 then 0 else 1, own := 0 })) ∧
    (e.own ≠ ag → exec (.wb ag l) s = .next r)) ∧
  -- probes
  (∀ x h, SMap.find s.txns l = some x → ag ∈ x.await → s.held ag l = some h → h.pid = x.pid → SMap.get [] s.resvq l = [] →
    let y := { x with await := x.await.filter (· != ag) }
    (s.probeOf l x ag = 0 → exec (.prs ag l) s = .next ((s.lower ag l).checkTxn l y)) ∧
    ((ag / 8 = s.domPos → (s.getDie (ag % 8)).leased s.plumb l = false) →
      (s.probeOf l x ag = 1 → exec (.pri ag l) s = .next ((s.giveUp ag l).checkTxn l y)) ∧
      (s.probeOf l x ag = 2 → exec (.prx ag l) s = .next ((s.giveUp ag l).checkTxn l y)))) ∧
  (∀ h, s.held ag l = some h → ag / 8 ≠ s.domPos →
    s.lower ag l = s.setHeld ag l (some { h with st := match h.st with | .m | .o => .o | .e | .s => .s }) ∧
    s.giveUp ag l = ({ s with mem := if h.st = .m ∨ h.st = .o then Memory.write s.mem (128 * l) (getBytes h.data 0 128) else s.mem } :
      State).setHeld ag l none) ∧
  (∀ x, SMap.find s.txns l = some x → ag ∈ x.await → s.present ag l x.pid = false → x.since + 40 ≤ s.plumb →
    exec (.notPresentAnswer ag l x.pid) s = .next (s.checkTxn l { x with await := x.await.filter (· != ag), absent := x.absent ++ [ag] })) ∧
  (∀ x : SfEnt, SMap.find s.filter l = some x → SMap.find s.txns l = none → s.wantsEntry (bankOf l) = true → 2 ≤ x.dst → x.h = false →
    exec (.snoopFilterVictim l) s = .next (open_ { kind := 3, ag := 64, pid := pid, since := s.plumb, await := x.probed l 3 64 })) ∧
  -- the host
  (∀ q w, isDram (128 * l) = true → SMap.find s.txns l = none → SMap.get [] s.homeq l = q :: w → q.ag = 64 → q.at_ < s.plumb →
    s.bankUsed (bankOf l) < 65536 →
    let r : State := { s with homeq := SMap.set [] s.homeq l w }
    (q.kind = 4 → q.wr = none → exec (.hostRead (128 * l) 0) s = .next (r.beginTxn l 4 64 q.pid)) ∧
    (∀ v, q.kind = 6 → q.wr = some (128 * l, toLE 64 v) →
      exec (.hostMemWr (128 * l) v) s = .next (r.beginTxn l 6 64 q.pid q.wr))) ∧
  (SMap.find s.txns l = none →
    (2 ≤ e.dst → s.beginTxn l 4 64 pid = open_ { kind := 4, ag := 64, pid := pid, since := s.plumb, await := [e.own] }) ∧
    (∀ v, e.dst = 0 → e.shv = 0 → s.beginTxn l 6 64 pid (some (128 * l, toLE 64 v)) =
      ((idle.recall l).hostPut (128 * l) (toLE 64 v)).setEntry l { dst := 0, h := e.h })) ∧
  (∀ x, SMap.find s.txns l = some x → isDram (128 * l) = true → 0 ∈ x.host →
    (∀ v, exec (.hostMemWr (128 * l) v) s = .next ((List.range 8).foldl (fun r d => r.strong d l) (s.hostPut (128 * l) (toLE 64 v)))) ∧
    (1 ∈ x.host → exec (.bisnpAnswer (128 * l) 0) s = .next (s.checkTxn l { x with host := x.host.filter (· != 0) }))) ∧
  (isHost (128 * l) = true →
    exec (.hostSnoop (128 * l) 2) s = .next s ∧
    (SMap.get [] s.resvq l ≠ [] → SMap.find s.hostWait l = none →
      exec (.hostSnoop (128 * l) 1) s = .next { s with hostWait := SMap.put s.hostWait l 1 }) ∧
    (∀ m, SMap.get [] s.resvq l = [] → m < 2 → exec (.hostSnoop (128 * l) m) s = .next (s.snoopHost l m))) ∧
  (∀ m, SMap.find s.hostWait l = some m → SMap.get [] s.resvq l = [] →
    exec (.hostLineSnoopAnswer l) s = .next (s.snoopHost l (m % 4))) ∧
  -- evictions
  exec (.lineEviction 0 t l) s = .next (s.modTile t fun x => { x with copies := SMap.erase x.copies l }) ∧
  exec (.lineEviction 3 t l) s = .next (s.dropReplicas t l) ∧
  (∀ h, s.held ag l = some h → (ag / 8 = s.domPos → (s.getDie (ag % 8)).leased s.plumb l = false ∧ s.pinned (ag % 8) l = false) →
    let woken := if ag / 8 = s.domPos then s.wakeLine (some (ag % 8)) (none, l) else s
    (h.st = .s ∨ h.st = .e → exec (.lineEviction 1 ag l) s = .next (woken.setHeld ag l none)) ∧
    (h.st = .m ∨ h.st = .o → exec (.lineEviction 2 ag l) s =
      .next (({ woken with wbufs := SMap.set [] s.wbufs ag (SMap.put (SMap.get [] s.wbufs ag) l (h, false)) } : State).setHeld ag l none)))
/-! ### Regions, lineage engines, copies and collectives (steps of other agents) -/

/-- R290, R292, R295, R298. A narrowing message narrows the region of its tile's thread that it names, or, sent to a tile that the
sender's die knows to be fenced, has the region that caused it abort with LOST. Accesses that the slice has not recorded, seals and final positions of
an active region reach the slice of a line of its footprint. A decided abort takes effect once the thread's results are
back. The die's token goes to a thread that waits for it, and every other active region of the die is to abort with YIELD.
The model's choices it rests on: logs 9, 46. -/
def Obligations.RegionStepsHappen : Prop := ∀ (s : State) (t c i line n : Nat),
  let k : Key := ⟨t, c, i⟩
  let x := s.getThread k
  (∀ m, s.narrows[n]? = some m →
    let u : State := { s with narrows := s.narrows.eraseIdx n }
    (s.silent m.who.k.t = false → s.ownerOf m.who.k.t = m.pid → exec (.narrowingMessage n) s =
      .next (u.modThread m.who.k fun y => if y.rseq.toNat = m.who.seq then y.narrow m.lo m.hi else y)) ∧
    (s.silent m.who.k.t = true → m.who ≠ m.cause → (s.getDie (dieOf m.cause.k.t)).knows.contains m.who.k.t = true →
      exec (.narrowingMessage n) s = .next (u.modThread m.cause.k fun y => if y.rseq.toNat = m.cause.seq then y.markRegion 9 else y))) ∧
  (∀ r, x.region = some r →
    (r.doom = none → r.sealing = none →
      (line ∈ r.reads → ((s.getDie (dieOf t)).parties.any fun p => p.who == s.regId k && p.line == line && p.ld) = false →
        exec (.regionAccessAtSlice t c i line 0) s = .next (s.sliceAccess k line false)) ∧
      (line ∈ r.writes → ((s.getDie (dieOf t)).parties.any fun p => p.who == s.regId k && p.line == line && p.st) = false →
        exec (.regionAccessAtSlice t c i line 1) s = .next (s.sliceAccess k line true))) ∧
    (r.doom = none → line ∈ r.reads ∨ line ∈ r.writes → exec (.sealAtSlice t c i line) s = .next (s.sealLine k line)) ∧
    (line ∈ r.reads ∨ line ∈ r.writes → r.committed = true → r.irr = false →
      exec (.finalPositionBroadcast t c i line) s = .next (s.finalLine k line)) ∧
    (∀ cause tc, r.doom = some (cause, tc) → x.pend = [] → exec (.regionAbort t c i cause tc) s = .next (s.abortRegion k cause tc))) ∧
  (x.wait = .token → (s.getDie (dieOf t)).token = none → s.regionsOn (dieOf t) = [] →
    exec (.tokenGrant t c i) s = .next (s.modDie (dieOf t) fun y => { y with token := some k })) ∧
  (∀ j r, x.wait = .token → (s.getDie (dieOf t)).token = none → s.regionsOn (dieOf t) = [j] → (s.getThread j).region = some r →
    r.committed = false → exec (.tokenGrant t c i) s =
      .next ((s.modDie (dieOf t) fun y => { y with token := some k }).modThread j fun y => y.markRegion 10))

/-- R153, R155, R197, R201, R206, R211 to R214. A lineage engine recomposes the next block of a busy node so that it holds its
value against the target, or starts to undo when the pool cannot supply it; an undo puts the old encoding back; an operation
that has reached its last block makes the target the parent, one undone keeps the parent, and both give their count back and
signal. A copy makes the writes of its next part one after another and signals; a failing one stops the unit; a copy of no
length signals and ends, and every copy only when its bytes have landed; an arrival is counted. A collective sends its
chunks, then ends with every rank's; chunks of one pair are accepted in order and once, acknowledged once answered, sent again
where a path went down, and dropped from a tile known to be fenced or after their collective; a collective without a path for 2^24
cycles ends with FAILED. The model's choices it rests on:
logs 9, 36, 56, 57, 58, 78. -/
def Obligations.EnginesRun : Prop := ∀ (s : State) (p node t c g n rank seq idx : Nat),
  let q := s.getPart p
  let cu := (s.getCtx t c).cu
  let keep := fun (f : Group → Group) (u : State) => u.modCtx t c fun y => y.modGroup g f
  -- lineage engines
  (∀ x e, q.node node = some x → x.busy = some e →
    let b := e.cursor
    let y : Node := { (x.setBlock b (encodeBlock (q.blockOf node b) (q.parentVal e.target b))) with busy := some { e with
      cursor := b + 1, kindsOld := SMap.set 0 e.kindsOld b (SMap.get 0 x.kinds b), paysOld := SMap.set 0 e.paysOld b (SMap.get 0 x.pays b) } }
    (e.undo = false → b < x.blocks →
      (q.supplies (q.setNode node y) = true →
        exec (.lineageBlockRecompose p node) s = .next (s.setPart p (q.keepBad (q.setNode node y) node [b] fun _ => false))) ∧
      (q.supplies (q.setNode node y) = false →
        exec (.lineageBlockRecompose p node) s = .next (s.setPart p (q.setNode node { x with busy := some { e with undo := true } })))) ∧
    (e.undo = true → b ≠ 0 → exec (.lineageUndo p node) s = .next (s.setPart p (q.keepBad (q.setNode node
      { (x.setBlock (b - 1) (SMap.get 0 e.kindsOld (b - 1), SMap.get 0 e.paysOld (b - 1))) with busy := some { e with
        cursor := b - 1, kindsOld := SMap.erase e.kindsOld (b - 1), paysOld := SMap.erase e.paysOld (b - 1) } })
      node [b - 1] fun _ => false))) ∧
    (∀ l, SMap.find q.launches e.launch = some l → e.sync = none →
      let done := fun (y : Node) (lost : Nat) =>
        let r := (q.setNode node y).loseChild chainMax lost
        s.setPart p { r with launches := SMap.put r.launches e.launch { l with count := l.count - 1 } }
      (e.undo = false → b = x.blocks →
        exec (.lineageOpEnd p node) s = .next (done { x with busy := none, last := 0, parent := e.target } x.parent)) ∧
      (e.undo = true → b = 0 → exec (.lineageOpEnd p node) s = .next (done { x with busy := none, last := 1 } e.target)))) ∧
  -- copies
  (∀ x r, cu.q = x :: r → s.engGoes t c cu.burst.isSome = true → cu.stop = false → x.isCopy = true → s.engAfter ⟨t, c, x.thr⟩ x.id = true →
    -- a CPY whose ranges share bytes first reads its source; a part begins, or the unit stops at it
    (cu.burst = none → s.syncRefuses x t c x.narrow = false → cu.done < x.n → x.op = 0x290 → x.ahead = none → s.cpyOverlaps x t c = true →
      let y := { x with ahead := some (s.cuReadRun (x.who t c) x (x.n / 64 + 1) 0) }
      exec (.cuCopyRun t c) s = .next (s.modCtx t c fun u => { u with cu := { u.cu with q := y :: u.cu.q.drop 1 } }).tickFresh) ∧
    (cu.burst = none → s.syncRefuses x t c x.narrow = false → cu.done < x.n →
      (x.op = 0x290 → x.ahead = none → s.cpyOverlaps x t c = false) →
      (∀ u b, cuPart s t c x cu.done = .ok u b → exec (.cuCopyRun t c) s =
        .next ((u.engLooked (x.who t c) (x.partReads cu.done b.step)).modCtx t c fun y => { y with cu := { y.cu with burst := some b } }).tickFresh) ∧
      (∀ cause a, cuPart s t c x cu.done = .fail cause a → exec (.cuCopyRun t c) s = .next (s.cuHalt t c cause a).tickFresh)) ∧
    -- the next part joins it, or one of its writes is made; the last one ends what is in hand
    (∀ b u, cu.burst = some b → s.cuMore t c x b = some u →
      exec (.cuCopyRun t c) s = .next (if Config.freeChoice s.fresh 0x290 then u else s.cuBurst t c x b).tickFresh) ∧
    (∀ b e u, cu.burst = some b → Config.freeChoice s.fresh 0x290 = false ∨ s.cuMore t c x b = none → b.writes.any (s.cuLin x t c) = false →
      b.writes[(Config.freeWord s.fresh 0x290).toNat % b.writes.length]? = some e →
      s.cuPut x t c e = .ok u →
      let d := { b with writes := b.writes.eraseIdx ((Config.freeWord s.fresh 0x290).toNat % b.writes.length) }
      let v := (u.tagAway s.away.length x).modCtx t c fun y => { y with cu := { y.cu with burst := some d } }
      exec (.cuCopyRun t c) s = .next (if d.writes = [] then v.cuPartDone t c x d else v).tickFresh) ∧
    (∀ b v, b.fills = [] → s.cuArriveAll x t c b.amts = .ok v →
      let u := (v.tagAway s.away.length x).modCtx t c fun y => { y with cu :=
        { y.cu with q := b.next :: y.cu.q.drop 1, done := y.cu.done + b.step, burst := none } }
      s.cuPartDone t c x b = if x.n ≤ (u.getCtx t c).cu.done then u.cuRetire t c x else u) ∧
    -- a copy of no length, and one all of whose bytes have landed
    (cu.burst = none → s.syncRefuses x t c x.narrow = false → x.n = 0 → x.arrived = false → exec (.cuCopyRun t c) s =
      .next (s.cuPartDone t c x { writes := [], step := 0, amts := [0], next := { x with arrived := true } }).tickFresh) ∧
    (cu.burst = none → s.syncRefuses x t c x.narrow = false → x.n ≤ cu.done → x.n ≠ 0 ∨ x.arrived = true → s.cuLanded x = true →
      exec (.cuCopyRun t c) s = .next (s.modCtx t c fun y => { y with cu := y.cu.retire }).tickFresh) ∧
    -- the part of a CPY whose ranges do not overlap
    (∀ bs bad u, x.op = 0x290 → x.ahead = none →
      let w := x.who t c
      let a := x.src + BitVec.ofNat 72 cu.done
      let len := min (x.n - cu.done) (64 - (x.dst.toNat + cu.done) % 64)
      let es := s.cuEntries x t c false cu.done bs (s.cuBad w (x.v 0) a len)
      s.cuRead w (x.v 0) a len = .ok bs bad → s.cuTry x t c es = .ok u →
      (∀ z v, u.cuArriveAll x t c [len] ≠ .fail z v) →
      cuPart s t c x cu.done = .ok s { writes := es, step := len, amts := [len], next := x })) ∧
  ((s.getCtx t c).live = true → (s.getCtx t c).inside n 16 = true → n % 16 = 0 →
    ∀ amt, exec (.syncArrival t c n amt) s = .next (s.syncAdd t ((s.getCtx t c).ubase + n) amt)) ∧
  -- collectives
  (∀ x r h, cu.q = x :: r → s.engGoes t c false = true → cu.stop = false → x.isCopy = false → s.engAfter ⟨t, c, x.thr⟩ x.id = true →
    (s.getCtx t c).group x.g = some h → h.lost = false →
    (∀ l, h.sent = false → chunksFor s t c x h = some l → ∃ u, (u = s ∨ ∃ r, u = s.engLooked (x.who t c) r) ∧
      exec (.collectiveRun t c) s = .next ({ (u.modCtx t c fun y => y.modGroup x.g fun z =>
        { z with sent := true, kept := z.kept ++ l, since := s.plumb }) with net := s.net ++ l } : State).tickFresh) ∧
    (∀ sets, h.sent = true → (∀ d ∈ h.kept, d.seq ≠ x.seq) → sets = (List.range h.members.length).filterMap (h.from_ x.seq) →
      sets.length = h.members.length → exec (.collectiveRun t c) s = .next (s.collFinish t c x h sets).tickFresh) ∧
    (x.g = g → h.sent = true → h.since + 2 ^ 24 ≤ s.plumb → s.noWay t x h = true →
      exec (.noPathLimit t c g) s = .next ((s.spill t c x h).collEnd t c x true false).tickFresh)) ∧
  (∀ x, s.net[n]? = some x → x.dstFab = s.ownFab → s.chunkBehind n x = false → s.carried x = true →
    (s.ownerOf x.dstTile = x.pid → s.chunkOrphan x = false → s.chunkFor x = some (t, c, g) → exec (.chunkArrival n) s = .next (keep (fun h =>
      if h.got.any fun d => d.seq == x.seq && d.rank == x.rank && d.idx == x.idx then { h with since := s.plumb }
      else { h with got := h.got ++ [x], since := s.plumb }) (({ s with net := s.net.eraseIdx n } : State).answered x))) ∧
    (s.ownerOf x.dstTile = x.pid → s.chunkOrphan x = true → exec (.chunkArrival n) s =
      .next (({ s with net := s.net.eraseIdx n } : State).orphaned (s.seat x.pid x.dstTile))) ∧
    (s.ownerOf x.dstTile = x.pid → s.chunkOrphan x = false → s.chunkFor x = none → s.chunkParked x = none → s.chunkPast x = true →
      exec (.chunkArrival n) s = .next (({ s with net := s.net.eraseIdx n } : State).answered x)) ∧
    (s.ownerOf x.dstTile ≠ x.pid → exec (.chunkArrival n) s =
      .next (({ s with net := s.net.eraseIdx n } : State).logEvent 14 x.dstTile x.pid 0 x.key))) ∧
  (∀ x, (s.getCtx t c).keeps rank seq idx = some (g, x) →
    (x.dstFab ≠ s.ownFab → s.route x.pid = true → exec (.chunkAck t c rank seq idx) s =
      .next (keep (fun h => { h with kept := h.kept.filter (fun d => !d.same x), since := s.plumb })
        { s with net := s.net.filter fun y => !y.same x })) ∧
    (x.dstFab = s.ownFab → x.took = true → exec (.chunkAck t c rank seq idx) s =
      .next (keep (fun h => { h with kept := h.kept.filter (fun d => !d.same x), since := s.plumb }) s)) ∧
    (x.due = true → s.carried x = true → ∃ u y, exec (.chunkResend t c rank seq idx) s = .next u ∧ u.net.length = s.net.length + 1 ∧
      u.net.getLast? = some y ∧ y.same x = true ∧ u.mem = s.mem))
/-! ### Launches and units (steps of the schedulers) -/

/-- R40, R41, R45, R277, R306, R310, R312 to R314, R322, R323, R326, R342, R406, R420, R423. The schedulers' steps of a part that has
not stopped, each from any state that enables it. A slot at a queue's head is ready when its flag is, and else is looked at again 4096 cycles on. A malformed entry is
refused; another starts a launch, or one under way takes more initial tasks. A tile dispatches its first ready entry: the TCB is
RUNNING and a unit starts from a legal header whose entries are targets, and a bad header faults the task with ILLOP. An
overflow entry moves in; an idle tile steals; a loaded one ships half the gap. A unit whose threads have ended, its stores
performed, is DONE and signals its successors; when they have been received the join counter changes, and once that is
acknowledged the return is sent and the context is free. A killed one ends with its status. A task signalled for the last
time is readied. Words of status rise to the root, and the launch completes, its replicas dropped. A RED's merge lands, or is
dropped and counted. A part that has stopped starts and completes nothing. The model's choices it rests on: logs 9, 37, 39, 40, 43. -/
def Obligations.LaunchesRun : Prop := ∀ (s : State) (p q t c l n : Nat),
  let part := s.getPart p
  let x := part.queue q
  let z := s.getCtx t c
  let up := fun (u : State) => u.modQueue p q fun y => { y with head := (y.head + 1) % 2 ^ 32, ready := false, poll := u.plumb }
  (s.stopped = true → exec (.launchSlotPoll p q) s = .next s ∧ exec (.launchStart p q) s = .next s.tickFresh ∧
    exec (.doneMessage p l t) s = .next s ∧ exec (.launchComplete p l) s = .next s ∧
    (z.live = true → exec (.unitComplete t c) s = .next s.tickFresh)) ∧
  (s.stopped = false →
  -- launch queues
  (x.en = true → x.head ≠ x.tail → x.ready = false → x.poll ≤ s.plumb → s.dieWaits 0 (lineOf x.slotAddr) = false →
    (bit (ofLE (s.homeBytes (x.slotAddr + 12) 1)) 1 = true →
      exec (.launchSlotPoll p q) s = .next (s.modQueue p q fun y => { y with ready := true })) ∧
    (bit (ofLE (s.homeBytes (x.slotAddr + 12) 1)) 1 = false →
      exec (.launchSlotPoll p q) s = .next (s.modQueue p q fun y => { y with poll := s.plumb + 4096 }))) ∧
  (x.en = true → x.head ≠ x.tail → x.ready = true → (∀ e ∈ part.launches, e.2.queue = q → e.2.ninit ≤ e.2.taken ∨ e.2.complete = true) →
    let e := s.slotEntry x
    let id := tcbField e 0 4
    let job := tcbField e 8 4
    (x.wild = false → e = s.homeBytes x.slotAddr 64) ∧ (
    s.sysReady x.slotAddr 64 = true → s.dieWaits 0 (lineOf x.slotAddr) = false → s.putReady p x.qptbr.toNat (tcbField e 48 8) 64 = true →
    (s.badEntry p x e = true →
      exec (.launchStart p q) s = .next (up (s.refuseEntry p x e)).tickFresh) ∧
    (s.badEntry p x e = false → SMap.get 0 part.phases job = 0 → SMap.find part.launches id = none →
      let y := launchOf q x e 1
      let v := (up s).modPart p fun z => { z with launches := SMap.put z.launches id y, phases := SMap.set 0 z.phases job 1 }
      let w := if part.launches.all (fun e => e.2.queue != q || e.2.complete) then
        v.modQueue p q fun z => { z with wstep := 0, wfrom := s.plumb } else v
      exec (.launchStart p q) s = .next ((w.frecPut p id 0 (List.replicate 64 0)).takeSlots p id y.ninit).tickFresh))) ∧
  (∀ y, part.launches.find? (fun e => e.2.queue == q && e.2.taken < e.2.ninit && !e.2.complete) = some (l, y) →
    exec (.launchStart p q) s = .next (s.takeSlots p l (y.ninit - y.taken)).tickFresh) ∧
  -- dispatch
  (∀ e y pl bs h, s.tileIssues t = true → s.occupied t = false → firstReady s.plumb (s.getTile t).deque = some e → e.resume = false →
    s.launch e.pid e.launch = some y → s.tcbReady e.pid y e.tcb = true → s.frecReady e.pid e.launch = true →
    let u := s.takeEntry t e
    u.sysPlace e.pid y.ptbr.toNat .w e.tcb.toNat = .ok pl → u.tcb e.pid y e.tcb = .ok bs →
    let v := u.tcbPut e.pid y e.tcb 6 (toLE 1 stRUNNING)
    let a := y.codebase + tcbEntry bs
    v.sysRead e.pid y.ptbr.toNat .r a 64 = .ok h → v.unitHeld e.pid y a h = false →
    ((a % 64 ≠ 0 ∨ v.headerOk e.pid ((v.getTile t).lsplit * 0x20000) h = false) →
      exec (.dispatch t) s = .next (v.faultTask e t cILLOP a).tickFresh) ∧
    (a % 64 = 0 → v.headerOk e.pid ((v.getTile t).lsplit * 0x20000) h = true →
      v.entryBad e.pid y.ptbr.toNat (if y.sup then 1 else 0) a h = none →
      exec (.dispatch t) s = .next (v.startUnit t e y bs h a).tickFresh)) ∧
  -- overflow, steals, balancing
  (∀ e, firstReady s.plumb (s.overflowOf t) = some e → (s.getTile t).deque.length < 32 → exec (.overflowMove t) s =
    .next ((s.modDie (dieOf t) fun d => { d with overflow := d.overflow.erase e }).modTile t fun y => { y with deque := y.deque ++ [e] })) ∧
  (s.tileLive t = true → s.occupied t = false → s.readyCount t = 0 → (s.getTile t).steal ≤ s.plumb →
    let u := s.modTile t fun y => { y with steal := s.plumb + 512 }
    (∀ v r e, u.mates t = v :: r → u.chanFree v t = true → u.givesUp v t = some e →
      exec (.stealRequest t) s = .next (u.ship v t e)) ∧
    ((∀ v ∈ u.mates t, u.chanFree v t = true → u.givesUp v t = none) → exec (.stealRequest t) s = .next u)) ∧
  (∀ u, s.tileLive t = true → s.leastOf (s.mates t) = some u →
    let b := (s.getPart (s.ownerOf t)).bal.toNat
    bits b 0 32 ≠ 0 → s.plumb % bits b 0 32 = 0 → bits b 32 8 ≤ s.readyCount t - s.readyCount u →
    s.chanFree t u = true →
    exec (.balance t) s = .next (s.shipMany t u ((s.readyCount t - s.readyCount u) / 2))) ∧
  -- units complete
  (∀ y as bs,
    z.live = true → z.exiting = 0 → z.killed = none → z.ended = true → s.ctxSettled t c = true → s.performedAt t 3 = true →
    s.launch z.pid z.launch = some y → s.tcbReady z.pid y z.tcb = true → s.frecReady z.pid z.launch = true →
    s.succsHeld z.pid y z.tcb = false → s.tcb z.pid y z.tcb = .ok bs → s.readSuccs z.pid y (y.tcbbase + tcbSuccOff bs) (tcbNsucc bs) = (as, none) →
    let u := s.tcbPut z.pid y z.tcb 6 (toLE 1 stDONE)
    exec (.unitComplete t c) s = .next ((({ u with msgs := u.msgs ++ as.map fun a => Msg.signal t z.pid z.launch a (s.succTile z.pid y t a) 0 } : State).modCtx
      t c fun x => { x with exiting := 1, exitBad := false }).tickFresh)) ∧
  (z.live = true → z.exiting ≠ 0 → (s.msgs.any fun m => m.signalOf t z.pid z.launch) = false →
      (s.reds.any fun r => r.who == ⟨t, c, 8⟩) = false →
    (∀ j, z.exiting = 1 → z.extra.join = some j → exec (.unitComplete t c) s =
      .next ((s.joinRed z t c j).modCtx t c fun x => { x with exiting := 2 }).tickFresh) ∧
    (∀ k, z.exiting ≠ 1 ∨ z.extra.join = none → z.extra.caller = some k → exec (.unitComplete t c) s =
      .next ((({ s with msgs := s.msgs ++ [Msg.callRet z.vtile z.pid k z.exitVal] } : State).freeCtx t c).leaveTask
        z.pid z.launch z.tcb z.vtile (if z.exitBad then 3 else 0) z.exitBad).tickFresh) ∧
    (z.exiting ≠ 1 ∨ z.extra.join = none → z.extra.caller = none → exec (.unitComplete t c) s =
      .next ((s.freeCtx t c).leaveTask z.pid z.launch z.tcb z.vtile (if z.exitBad then 3 else 0) z.exitBad).tickFresh)) ∧
  (∀ st cause y,
    z.live = true → z.exiting = 0 → z.killed = some (st, cause) → z.mu.burst = [] → z.cu.burst = none →
    (s.strip t c).ctxSettled t c = true → (s.strip t c).performedAt t 3 = true →
    (s.strip t c).launch z.pid z.launch = some y → (s.strip t c).tcbReady z.pid y z.tcb = true →
    (s.strip t c).frecReady z.pid z.launch = true → st ≠ stFAULTED →
    exec (.unitComplete t c) s = .next (((s.strip t c).freeCtx t c).endTask z.pid z.launch z.tcb z.vtile st 2).tickFresh) ∧
  (∀ src pid y a at_ bs dst after, s.msgFirst n = some (.signal src pid l a dst after) → s.launch pid l = some y → after ≤ s.plumb →
    let u := (s.dropMsg n).nextSignal src pid l
    s.sysHeld pid y.ptbr.toNat a.toNat 64 = false →
    s.sysPlace pid y.ptbr.toNat .w a.toNat = .ok at_ → s.tcb pid y a = .ok bs → (∀ z, at_ = .pa z → s.homeReady src (lineOf z) = true) →
    (tcbStatus bs ≠ stWAITING ∨ tcbDepc bs = 0 → exec (.successorSignal n) s = .next u) ∧
    (tcbStatus bs = stWAITING → 2 ≤ tcbDepc bs ∨ tcbDepc bs = 1 ∧ s.readyRoom src = true →
      exec (.successorSignal n) s = .next (u.signalTask pid l at_ bs a 1 src))) ∧
  -- completion
  (∀ y, s.launch p l = some y → y.complete = false →
    (s.unitsThere p l t = false → s.chanFree t (treeParent y.tset t) = true → inSet y.tset t = true → SMap.find y.reported t = none →
      (∀ u ∈ treeKids y.tset t, (SMap.find y.reported u).isSome = true) →
      let w := (treeKids y.tset t).foldl (fun w u => joinWords w (SMap.get 0 y.reported u)) (SMap.get 0 y.words t)
      exec (.doneMessage p l t) s = .next (s.modLaunch p l fun z => { z with reported := SMap.put z.reported t w })) ∧
    (∀ w, SMap.find y.reported (rootTile y.tset) = some w → y.overs = true →
      let a := 64 * (part.queue y.queue).base + 64 * y.slot
      let u := s.allDies fun _ d => { d with repl := d.repl.filter fun z => !(z.pid == p && z.launch == l) }
      let v := ((u.homeStore p (a + 56) (toLE 4 (y.status w))).homeStore p (a + 60) (toLE 4 1)).modLaunch p l fun z => { z with complete := true }
      s.sysReady (a + 56) 8 = true → exec (.launchComplete p l) s = .next
        (if part.oldest y.queue = some l then v.modQueue p y.queue fun z => { z with wstep := 0, wfrom := u.plumb } else v))) ∧
  (∀ r, s.reds[n]? = some r →
    let u : State := { s with reds := s.reds.eraseIdx n }
    let done := fun (v : State) => v.modLaunch r.pid r.launch fun y => { y with count := y.count - 1 }
    (∀ cause a, r.fault = some (cause, a) → s.frecReady r.pid r.launch = true → exec (.redAck n) s = .next (done (u.noteRed r.pid r.launch cause a))) ∧
    (∀ a, r.fault = none → r.at_ = .pa a → r.time ≤ s.plumb →
      (∀ q ∈ SMap.get [] s.resvq (lineOf a), q.granted = false ∧ comesFirst q.at_ q.who r.time r.who = false) →
      (∀ z ∈ s.reds, z.on (lineOf a) = true → comesFirst z.time z.who r.time r.who = false ∧ (z.time = r.time → z.who = r.who → r.id ≤ z.id)) →
      s.homeReady r.tile (lineOf a) = true →
      (anyPoison s.poison a r.size = true → exec (.redAck n) s = .next (done u)) ∧
      (anyPoison s.poison a r.size = false → exec (.redAck n) s = .next (done ((u.homeStore r.pid a
        (toLE r.size (amoNew r.fn r.size r.tile (ofLE (s.homeBytes a r.size)) (r.x.toNat % 2 ^ (8 * r.size))))).spoilMem a r.size))))))
/-! ### Pre-emption and watchdogs -/

/-- R197, R207, R324, R331, R332, R333, R336, R337, R339, R390. A resident unit takes a pre-emption request. A unit whose
eviction is due leaves off; once it is at rest, no condition of its threads waiting, it is saved to a free image place. A YIELD whose 64 cycles have passed completes with
0. A parked unit whose wake condition holds enters its tile's queue; a tile restores it when its entry is first, or beside units
of its launch, from the copy of its image that reads back, and with none its context is lost. Traffic for a unit reaches its
image or its scratchpad, or is dropped, or refused where it lies outside. A watchdog step that is due asks and marks every resident unit, then kills the launch,
then sheets the tiles that do not end. The model's choices it rests on: logs 6, 9, 38, 41, 60, 81. -/
def Obligations.UnitsAreParkedAndResumed : Prop := ∀ (s : State) (t c i p q n l : Nat),
  let k : Key := ⟨t, c, i⟩
  let u := s.getCtx t c
  (u.live = true → exec (.preemptRequest t c) s = .next (s.modCtx t c fun x => { x with preempt := true })) ∧
  (s.stopped = false → u.live = true → u.killed = none → u.leaving = true ∨ s.evictable t c = true → s.atRest t c = false →
    exec (.eviction t c) s = .next (s.modCtx t c fun x => { x with leaving := true }).tickFresh) ∧
  (∀ a, s.stopped = false → u.live = true → u.killed = none → u.leaving = true ∨ s.evictable t c = true → s.atRest t c = true →
    (∀ j ∈ ctxKeys t c, (s.getThread j).defer = []) → s.imagePlace u.pid = some a →
    s.sysReady a imageSpace = true → (∀ x, s.launch u.pid u.launch = some x → s.tcbReady u.pid x u.tcb = true) →
    exec (.eviction t c) s = .next (s.park_ t c a).tickFresh) ∧
  (∀ till, (s.getThread k).wait = .yield till → till ≤ s.plumb → s.evictable t c = false → u.leaving = false →
    exec (.yieldHoldExpiry t c i) s = .next (s.setThread k { s.getThread k with wait := .none, retry := some 0 })) ∧
  (∀ x, s.stopped = false → (s.getPart p).parked[n]? = some x → x.ready = false → x.threads.any (s.wakes x) = true → s.readyRoom x.tile = true →
    let e : Entry := {
      pid := p, launch := x.ctx.launch, tcb := x.ctx.tcb, seq := x.ctx.seq, prio := x.ctx.prio, origin := x.ctx.origin,
      tready := s.plumb, nosteal := x.ctx.nosteal, tile := x.tile, resume := true }
    exec (.becomeResumable p n) s =
      .next ((s.modPart p fun z => { z with parked := z.parked.set n { x with ready := true } }).pushEntry x.tile e)) ∧
  (∀ e x, s.tileIssues t = true → s.occupied t = false → firstReady s.plumb (s.getTile t).deque = some e → e.resume = true →
    s.parkedOf e = some x → x.ctx.scratch ≤ (s.getTile t).lsplit * 0x20000 → s.unparkReady x = true →
    (s.goodImage x = true →
      exec (.resume t) s = .next (((s.takeEntry t e).restore t 0 (pickBase s.fresh ((s.getTile t).lsplit * 0x20000) x.ctx.scratch)
        { x with ctx := { x.ctx with hw := List.range 8 } }).modTile t fun y => { y with hist := [] }).tickFresh) ∧
    (s.goodImage x = false → exec (.resume t) s = .next ((s.takeEntry t e).loseContext x).tickFresh)) ∧
  (∀ x j b, (s.getPart (s.ownerOf t)).parked[n]? = some x → x.ready = true → s.tileIssues t = true → s.folds t x.ctx = true →
    (List.range 4).find? (fun j => !(s.getCtx t j).live) = some j →
    fitBase ((s.getTile t).lsplit * 0x20000) x.ctx.scratch (s.allocs t) = some b →
    s.unparkReady x = true →
    (s.goodImage x = true →
      exec (.foldedResume t n) s = .next ((s.dropEntries x.ctx.pid x.ctx.launch x.ctx.tcb).restore t j b
        { x with ctx := { x.ctx with hw := s.foldHw t x.ctx } }).tickFresh) ∧
    (s.goodImage x = false → exec (.foldedResume t n) s = .next (s.loseContext x).tickFresh)) ∧
  (∀ m, s.away[n]? = some m → let v : State := { s with away := s.away.eraseIdx n }
    ((s.away.take n).any fun y => y.pid == m.pid && y.launch == m.launch && y.vtile == m.vtile && y.src == m.src) = false →
    (s.unitAt m.pid m.launch m.vtile = some (t, c) → m.xsp = none → u.inside m.off m.bytes.length = true →
      (m.signal = true → u.inside m.sync 16 = true → exec (.nonresidentTraffic n) s = .next (v.syncAdd t (u.ubase + m.sync) m.amt)) ∧
      (m.signal = false → exec (.nonresidentTraffic n) s = .next (v.awayLand t u.ubase m))) ∧
    (s.unitAt m.pid m.launch m.vtile = some (t, c) → u.refuses m = true → exec (.nonresidentTraffic n) s = .next (v.refused m)) ∧
    (∀ x, s.unitAt m.pid m.launch m.vtile = none → (s.getPart m.pid).parkedAt m.launch m.vtile = some x → x.ctx.refuses m = false →
      (∀ a ∈ x.copies, s.sysReady a (imageSpace / 2) = true) →
      exec (.nonresidentTraffic n) s = .next (v.saveParked m.pid (x.apply m))) ∧
    (s.unitAt m.pid m.launch m.vtile = none → (s.getPart m.pid).parkedAt m.launch m.vtile = none → s.frecReady m.pid m.launch = true →
      exec (.nonresidentTraffic n) s = .next (if m.lone then v.noteLost m.pid m.launch else v))) ∧
  (s.stopped = false → (s.getPart p).oldest q = some l →
    let next := fun (w : State) (step : Nat) => w.modQueue p q fun y => { y with wstep := step + 1, wfrom := w.plumb }
    (s.wdogDue p q 0 = true → s.unitsOf p l = [] → exec (.watchdogStep1 p q) s = .next (next s 0)) ∧
    (s.wdogDue p q 0 = true → s.unitsOf p l = [(t, c)] → exec (.watchdogStep1 p q) s = .next (next ((ctxKeys t c).foldl (fun w j =>
      let y := w.getThread j
      if y.life = .live ∧ y.role = 1 then w.setThread j { y with wdog := some l } else w)
      (s.modCtx t c fun x => { x with preempt := true })) 0)) ∧
    (s.wdogDue p q 1 = true → s.tasksReady p l = true → exec (.watchdogStep2 p q) s = .next (next ((s.endLaunch p l stFAULTED cWDOG).modLaunch p l fun y =>
      { y.note (rootTile y.tset) 3 false with taken := y.ninit }) 1)) ∧
    (s.wdogDue p q 2 = true → s.unitsOf p l = [] → exec (.watchdogStep3 p q) s = .next (next s 2)) ∧
    (∀ st cause, s.wdogDue p q 2 = true → s.unitsOf p l = [(t, c)] → u.killed = some (st, cause) → st ≠ stFAULTED →
      exec (.watchdogStep3 p q) s =
        .next (next ((((s.strip t c).freeCtx t c).endTask u.pid u.launch u.tcb u.vtile st 2).broadcast t 3) 2)))
/-! ### The lath -/

/-- R373 to R379, R381, R382, R384, R385. A tile sends its heartbeat once a period, its number one on, and takes a new period
length when it begins; a tile counts what it hears from a neighbour and keeps its fields. At a period's end no heartbeat makes
MISS one more, the third SILENT; one clean heartbeat clears it; more than two, a wrong identifier or number BABBLING. A
judgement sets the tile's vote and goes to the others around; a vote is counted when its tile is live, a majority broadcasts
the fence, and it lapses after four periods. The firmware decides for a tile with no live neighbour. A die learns of a fence, or of a readmission, once.
A message from a fenced tile is discarded and counted. A sheeted tile's self-test passes or scrims it; it appeals to a live
neighbour, which listens; an appeal that takes 64 periods fails; probation ends after 1,024. The model's choices it rests on:
logs 9, 12, 22, 23, 24, 32. -/
def Obligations.LathSteps : Prop := ∀ (s : State) (t dir x d n a j : Nat),
  let v := s.vote t dir
  let ne := s.neigh t dir
  let lath := (s.getTile t).lath
  -- heartbeats
  (s.tileSeen 17 t = true → (s.getDie (dieOf t)).failed = false → neighbour t dir = some x →
    s.stOf t = 0 ∨ s.stOf t = 2 ∨ s.stOf t = 1 ∧ lath.bist = true → lath.hbNext = none → SMap.get 0 lath.sent dir ≠ s.periodNo t + 1 →
    let b : Beat := { dst := x, dir := back dir, tile := t, hseq := SMap.get 0 lath.hseq dir, health := s.healthOf t }
    exec (.heartbeatSend t dir) s = .next ((({ s with beats := s.beats ++ [b] } : State).modLath t fun y => { y with
      sent := SMap.set 0 y.sent dir (s.periodNo t + 1), hseq := SMap.set 0 y.hseq dir ((SMap.get 0 lath.hseq dir + 1) % 2 ^ 16) }).tickFresh)) ∧
  (∀ w at_, neighbour t dir = none → lath.hbNext = some (w, at_) →
    (s.plumb < at_ → exec (.heartbeatSend t dir) s = .next s) ∧
    (at_ ≤ s.plumb → exec (.heartbeatSend t dir) s =
      .next (let r := s.modTile t fun y => { y with hbper := w, lath := { y.lath with hbNext := none } }
        (List.range 512).foldl (fun r k => (List.range 4).foldl (fun r e =>
          r.modVote (512 * dieOf t + k) e fun y => { y with miss := 0 }) r) r))) ∧
  (∀ tid hseq health, let b : Beat := { dst := t, dir := dir, tile := tid, hseq := hseq, health := health }
    let r : State := { s with beats := s.beats.erase b }
    s.beats.find? (fun y => y.dst == t && y.dir == dir) = some b → neighbour t dir = some x → v.nst = 1 ∨ v.nst = 3 →
    exec (.heartbeatReceive t dir tid hseq health) s =
      .next ((r.modVote t dir fun y => { y with lastseq := hseq, health := health }).modNeigh t dir fun y => { y with
        heard := y.heard + 1, last := true
        odd := y.odd || (tid != x || (ne.last && hseq % 2 ^ 16 != (v.lastseq + 1) % 2 ^ 16)) })) ∧
  -- judgements (R375)
  (∀ (m : Neigh) (w : Vote) (f : Nat), m.overs = 0 →
    (m.heard = 0 → m.odd = false → w.miss < 2 → m.judge w 0 f = (0, w.miss + 1, 0)) ∧
    (m.heard = 0 → 2 ≤ w.miss → m.judge w 0 f = (1, 3, 0)) ∧
    ((m.heard = 1 ∨ m.heard = 2) → m.odd = false → m.judge w 0 f = (0, 0, 0)) ∧
    ((2 < m.heard ∨ 0 < m.heard ∧ m.odd = true) → m.judge w 0 f = (2, 0, 0))) ∧
  (neighbour t dir = some x → s.periodNo t ≠ ne.judged → v.nst = 1 ∨ v.nst = 3 → s.stOf t = 0 ∨ s.stOf t = 2 →
    lath.hbNext = none →
    let y := ne.judge v (bits (s.getTile t).hbper.toNat 16 16) (Config.flits x ne.judged)
    let r := s.modVote t dir fun w => { w with miss := y.2.1 }
    exec (.periodJudgement t dir) s = .next ((r.modNeigh t dir fun m => { m with
      heard := 0, odd := false, overs := y.2.2, judged := r.periodNo t }).judged t dir x y.1)) ∧
  -- votes
  (j = 1 ∨ j = 2 → v.nst = 1 ∨ v.nst = 3 → neighbour t dir = some x →
    let r := (s.modNeigh t dir fun y => { y with age := some (match y.age with | some e => e + 1 | none => 0) }).modVote t dir fun w =>
      { w with judge := j, votes := orBit w.votes (back dir) }
    let others := ((List.range 4).filter fun k => k != back dir && bit v.livemap k).filterMap (neighbour x)
    s.judged t dir x j = (({ r with accs := r.accs ++ others.map fun m => { dst := m, target := x, who := t, judge := j } } : State).takeQuorum t dir)) ∧
  (let m : Acc := { dst := t, target := x, who := a, judge := j }
   let r : State := { s with accs := s.accs.erase m }
   m ∈ s.accs → dirTo t x = some dir → dirTo x a = some d → bit v.livemap d = true → v.nst = 1 ∨ v.nst = 3 → j = 1 ∨ j = 2 →
    s.stOf t = 0 ∨ s.stOf t = 2 →
    exec (.accusation t x a j) s = .next (((r.modNeigh t dir fun y => { y with why := j }).modVote t dir fun w =>
      { w with votes := orBit w.votes d }).takeQuorum t dir)) ∧
  (neighbour t dir = some x → v.nst = 1 → 1 < v.voters → v.voters / 2 + 1 ≤ v.cast → v.judge = 1 ∨ v.judge = 2 → s.casts = [] →
    s.stOf x = 0 ∨ s.stOf x = 2 → s.takeQuorum t dir = ({ s with casts :=
      [{ x := x, cause := v.judge, left := (List.range 8).filter (bit s.dieMask) }] } : State)) ∧
  (∀ m, ne.age = some m → 4 ≤ m → exec (.voteExpiry t dir) s =
    .next ((s.modNeigh t dir fun y => { y with age := none }).modVote t dir fun w => { w with votes := 0 })) ∧
  (s.liveAround x = [] → s.tileLive x = true →
    exec (.firmwareReferral x 1) s = .next ((s.logEvent 15 x (s.ownerOf x) 0 0).broadcast x 3)) ∧
  -- fences
  (∀ cause, let c : Cast := { x := x, cause := cause, left := [d] }
    s.casts = [c] → d ≠ dieOf x →
    let r : State := { s with casts := [] }
    (cause = 0 → exec (.fenceLearn d x 0) s = .next (r.modDie d fun y => { y with knows := y.knows.filter (· != x) }).tickFresh) ∧
    (cause ≠ 0 → (s.getDie d).knows.contains x = false → exec (.fenceLearn d x cause) s =
      .next (((((r.modDie d fun y => { y with knows := y.knows ++ [x] }).respf d x).lostParties d x).revoke d x).respfRemote d x).tickFresh)) ∧
  (∀ m, s.msgs[n]? = some m → s.orphan m = true → let tgt := m.to
    exec (.orphanDiscard n) s = .next (let r := (s.dropMsg n).modTile tgt fun y => { y with
        fencest := BitVec.ofNat 64 (y.fencest.toNat - bits y.fencest.toNat 32 16 * 2 ^ 32 +
          Nat.min (bits y.fencest.toNat 32 16 + 1) 0xFFFF * 2 ^ 32) }
      r.logEvent 8 tgt (r.ownerOf tgt) 0 0)) ∧
  -- readmission
  (s.stOf t = 1 → lath.bist = false → lath.appeal = none →
    exec (.bistResult t 1) s = .next (s.modLath t fun y => { y with bist := true, bistBad := false }) ∧
    exec (.bistResult t 0) s = .next ((s.modLath t fun y => { y with bistBad := true }).scrim t)) ∧
  (neighbour t dir = some n → s.stOf t = 1 → lath.bist = true → SMap.get false lath.told dir = false → s.tileLive n = true →
    (s.vote n (back dir)).nst = 2 → lath.appeal.isSome = true →
    let r := s.modLath t fun y => { y with appeal := some (y.appeal.getD s.plumb), told := SMap.put y.told dir true }
    exec (.appeal t dir) s = .next ((r.modNeigh n (back dir) fun _ => { listen := some 0, judged := r.periodNo n }).modVote n (back dir) fun w =>
      { w with napp := Nat.min 3 (w.napp + 1), miss := 0 })) ∧
  (∀ m, lath.appeal = some m → s.stOf t = 1 → s.readmits t = false → m + 64 * (s.getTile t).period ≤ s.plumb →
    exec (.appealTimeout t) s = .next (s.appealFails t)) ∧
  (s.stOf t = 2 → lath.prob + 1024 * (s.getTile t).period ≤ s.plumb →
    exec (.probationEnd t) s = .next ((s.setSt t 0).aroundTile t fun r m e => r.modVote m e fun w => if w.nst = 3 then { w with nst := 1 } else w))
/-! ### Errors and failures -/

/-- R18, R214, R387 to R393, R395 to R397, R418, R420. A correctable error raises its bucket and is logged, the one that passes the
mark as PRED too, and a spare row, bank or lane comes into use, or a cluster is to be tested; a bucket leaks. An uncorrectable
error of data poisons the doubles it affects, and the first consumer takes UE, with its issue slot parked for 512 cycles, later
ones POISON; one of a register kills the unit; a scrub changes no value, or finds such an error. A plain
store of a trailed thread waits in its comparator of 32 while the thread goes on, and is held when that is full; a difference of
redundant threads traps SDC in the leading thread at the oldest entry, parks the trailing one and is counted; the counts are
saved every 2^36 cycles. A
failed die loses its tiles, and the others salvage what they hold of it; the copies of a failed part are gone, and the lines
only it had, in a cache or on their way back, are poisoned. A lane's or a wire's spare comes into use, and with none left the
port or link is down, unless a lane has been repaired (a free value). A fatal dump stops every tile and goes to a free
region, else it is counted as missed. An update of the persistent store goes to the older copy. The model's choices it rests
on: logs 9, 12, 14, 26, 27, 30, 31, 34, 87, 88. -/
def Obligations.FailuresAreHandled : Prop := ∀ (s : State) (kind id d q l n t c i a : Nat),
  let low := s.leak kind id
  let fill := SMap.get 0 low.buckets (3 * id + kind)
  let k : Key := ⟨t, c, i⟩
  let r := ({ s with stopped := true, sdcAt := s.plumb } : State).putStore { s.store with sdc := s.sdc }
  -- correctable errors
  (kind ≤ 2 → fill ≠ s.store.mark.getD kind 64 → let e := if kind = 2 then id else 0
    exec (.correctableError kind id) s =
      .next (({ low with buckets := SMap.set 0 low.buckets (3 * id + kind) (fill + 1) } : State).logEvent 1 e
        (if kind = 2 then low.ownerOf id else 0) 0 0)) ∧
  (kind ≤ 2 → fill = s.store.mark.getD kind 64 → let e := if kind = 2 then id else 0
    let pid := if kind = 2 then low.ownerOf id else 0
    let v := (({ low with buckets := SMap.set 0 low.buckets (3 * id + kind) (fill + 1) } : State).logEvent 1 e pid 0 0).logEvent 9 e pid 0 0
    (kind = 0 → exec (.correctableError kind id) s = .next (v.putStore (if Config.freeChoice low.fresh id
      then { v.store with bankSpare := SMap.put v.store.bankSpare id true }
      else { v.store with dramSpare := SMap.set 0 v.store.dramSpare id (SMap.get 0 v.store.dramSpare id + 1) }))) ∧
    (kind = 1 → exec (.correctableError kind id) s = .next (v.useSpareLane id)) ∧
    (kind = 2 → exec (.correctableError kind id) s = .next (v.putStore { v.store with bist := SMap.put v.store.bist id true }))) ∧
  (let per := s.store.leak.getD kind 0x40000000
   per ≠ 0 → exec (.bucketLeak kind id) s = .next { s with
    buckets := SMap.set 0 s.buckets (3 * id + kind) (SMap.get 0 s.buckets (3 * id + kind) - (s.plumb / per - SMap.get 0 s.leaks (3 * id + kind)))
    leaks := SMap.set 0 s.leaks (3 * id + kind) (s.plumb / per) }) ∧
  exec (.dramScrub l) s = .next (
    let b := 128 * l + 8 * ((Config.freeWord s.fresh 0x387).toNat % 16)
    if isDram b && Config.freeChoice s.fresh 0x387 then (s.poisonAt (.pa b)).logEvent 2 (512 * (bits b 37 3)) (s.linePid l) cUE b
    else s).tickFresh ∧
  -- uncorrectable errors and differences
  (∀ x r, (s.getCtx t c).live = true → s.pieces { k := k, priv := (s.getThread k).priv } .r (BitVec.ofNat 72 (a / 8 * 8)) 8 = .ok (x :: r) →
    let l := (s.ueSpan x.spot.place).filter fun p => !s.poisoned [{ spot := { place := p }, n := 8 }]
    let v := l.foldl State.poisonAt s
    exec (.ueDetected t c i a) s = .next (({ v with ues := v.ues ++ l } : State).logEvent 2 t (s.getCtx t c).pid cUE a).tickFresh) ∧
  (∀ b, s.ueSpan (.sram t b) = [.sram t b] ∧ (∀ p ∈ s.ueSpan (.pa b), ∃ j < 8, p = .pa (b / 64 * 64 + 8 * j)) ∧
    .pa (b / 8 * 8) ∈ s.ueSpan (.pa b)) ∧
  (∀ b, let ps : List Piece := [{ spot := { place := .sram t b }, n := 8 }]
    s.badCause ps = (if s.ues.any fun p => ps.any p.inPiece then cUE else cPOISON) ∧ (s.ueFind ps).badCause ps = cPOISON) ∧
  (∀ y : Thread, (y.stalls s.plumb (some (cUE, 0))).ueStall = some (s.plumb + 512) ∧ y.stalls s.plumb (some (cPOISON, 0)) = y) ∧
  ((s.getThread k).life ≠ .idle → (s.getCtx t c).live = true → exec (.registerUe t c i) s =
    .next ((s.killUnit t c stFAULTED cUE).logEvent 2 t (s.getCtx t c).pid cUE 0)) ∧
  (∀ it pc unit, (s.getThread k).oldest = some (it, pc) →
    let x := s.getThread k
    let own := BitVec.ofNat 72 (it.headD 0)
    let r := (s.setThread k { x with cmpq := none, wait := .trap cSDC own, pc := pc, young := x.young && pc == x.pc, pend := x.pend.filter fun p => p.store.isNone }).modThread
      ⟨t, c, i + 1⟩ fun y => { y with wait := .differs }
    exec (.sdc t c i a unit) s = .next ((r.countSdc t unit).logEvent 4 t (s.getCtx t c).pid cSDC own.toNat)) ∧
  (∀ (x : Thread) p h r e, (x.heldStores = (p, h) :: r → x.oldest = some (h.item, p.pc)) ∧
    (x.heldStores = [] → x.cmpq = some (e, false) → x.oldest = some (e, x.pc))) ∧
  (∀ (b : Addr) bs l, s.checkAll .w 1 [(b, bs.length)] = .ok l → s.waits l = none → s.storeBlocked (allPieces l) 0 = false → s.trails = false →
    s.trailed = true → s.runsAhead l 0 = true → s.thr.cmpq = none →
    (s.thr.heldStores.length < 32 → s.storeAt b bs 0 = .done (s.leave (.held { a := b, l := l, bs := bs, drop := false }) [])) ∧
    (32 ≤ s.thr.heldStores.length → s.storeAt b bs 0 = .hold s.held_)) ∧
  (s.sdcAt + 2 ^ 36 ≤ s.plumb → exec .sdcCountSave s = .next (({ s with sdcAt := s.plumb } : State).putStore { s.store with sdc := s.sdc })) ∧
  -- dies and parts
  ((s.getDie d).failed = true → exec (.dieFail d) s = .next s.tickFresh) ∧
  ((s.getDie d).failed = false →
    let r := (s.modDie d fun y => { y with failed := true }).logEvent 11 (512 * d) 0 0 0
    let xs := ((List.range 512).map (512 * d + ·)).filter fun x => r.stOf x != 1 && r.stOf x != 3
    let sheeted := xs.foldl (fun r x => (r.setSt x 1).modTile x fun y => { y with
      fencest := BitVec.ofNat 64 (y.fencest.toNat / 16 * 16 + 12 + y.fencest.toNat % 4), fifo := [] }) r
    let learnt := fun (r : State) (x : Nat) => (List.range 8).foldl (fun r e => (((r.modDie e fun y =>
      { y with knows := if y.knows.contains x then y.knows else y.knows ++ [x] }).respf e x).lostParties e x).revoke e x) r
    let v := xs.foldl (fun r x => ((learnt r x).evacuate x).unvote x) sheeted
    let w := v.modDie d fun y => { y with nsheet := 512, lastid := xs.getLast?.getD y.lastid }
    exec (.dieFail d) s = .next ((List.range 8).foldl (fun r e => if e = d then r else r.salvageDie d e) w).tickFresh) ∧
  (q = s.domPos → s.txns = [] → exec (.partFail q) s = .next s) ∧
  (q ≠ s.domPos → (∀ e < 8, SMap.get [] s.agents (8 * q + e) = [] ∧ SMap.get [] s.wbufs (8 * q + e) = []) →
    let r := ({ s with
      lostParts := orBit s.lostParts q
      agents := s.agents.filter fun e => !(e.1 / 8 == q)
      wbufs := s.wbufs.filter fun e => !(e.1 / 8 == q)
      txns := SMap.map (fun _ (x : Txn) => { x with await := x.await.filter fun b => !(b / 8 == q) }) s.txns } : State).logEvent 12 0 0 0 q
    exec (.partFail q) s = .next ((r.txns.filter fun e => e.2.await.isEmpty && e.2.host.isEmpty).foldl (fun r e => r.checkTxn e.1 e.2) r)) ∧
  (∀ e m h, q ≠ s.domPos → e < 8 → homePart m = s.domPos → isDram (128 * m) = true → h.st = .m ∨ h.st = .o →
    (m, h) ∈ SMap.get [] s.agents (8 * q + e) ∨ (m, h, false) ∈ SMap.get [] s.wbufs (8 * q + e) →
    ∃ v : State, s.partFails q = v.logEvent 12 0 0 0 q ∧ ∀ j < 16, SMap.get false v.poison (16 * m + j) = true) ∧
  -- lanes, links and dumps
  (SMap.get false s.portUp n = true → n < 24 →
    (SMap.get false s.portSpare n = false → exec (.laneFailure n) s = .next
      (({ s with portSpare := SMap.set false s.portSpare n true } : State).putStore
        { s.store with laneSpare := SMap.set false s.store.laneSpare n true })) ∧
    (SMap.get false s.portSpare n = true → exec (.laneFailure n) s =
      .next (if Config.freeChoice s.fresh n then s else ({ s with portUp := SMap.set false s.portUp n false } : State).pathDown).tickFresh) ∧
    exec (.portDown n) s = .next ({ s with portUp := SMap.set false s.portUp n false } : State).pathDown) ∧
  (SMap.get false s.portUp n = false → n < 24 → exec (.portDown n) s = .next s ∧ exec (.laneFailure n) s = .next s) ∧
  (SMap.get false s.d2dUp n = false → exec (.portDown (24 + n)) s = .next s) ∧
  (SMap.get false s.d2dUp n = true →
    (SMap.get 0 s.d2dWires n < 16 →
      exec (.d2dWireSpare n) s = .next (({ s with d2dWires := SMap.set 0 s.d2dWires n (SMap.get 0 s.d2dWires n + 1) } : State).putStore
        { s.store with wires := SMap.set 0 s.store.wires n (SMap.get 0 s.store.wires n + 1) })) ∧
    (16 ≤ SMap.get 0 s.d2dWires n → exec (.d2dWireSpare n) s = exec (.portDown (24 + n)) s)) ∧
  ((∀ e < 8, bit s.dieMask e = false ∨ (s.getDie e).failed = true ∨ (s.getDie e).dumpFree = false) →
    exec (.fatalDump kind) s = .next (r.putStore { r.store with missed := r.store.missed + 1 })) ∧
  (bit s.dieMask 0 = true → (s.getDie 0).failed = false → (s.getDie 0).dumpFree = true →
    exec (.fatalDump kind) s = .next (((({ r with newest := some 0 } : State).putStore { r.store with dseq := r.store.dseq + 1 }).modDie
      0 fun y => { y with dumpFree := false }).writeDump kind 0)) ∧
  -- updates of the persistent store
  (∀ x : Persist, let v := s.putStore x
    v.store = x ∧ v.older = s.store ∧ v.olderOk = true ∧ v.version = s.version + 1) ∧
  exec .firmwareWatchdog s = .next (s.fatalDump 6)
/-! ### The platform -/

/-- R4, R19, R408 to R411, R416 to R420. The current monitor withholds turns above 900 and 980; a power sample raises the
throttle above a limit and lowers it below all, and is fatal at 110 degrees. A cold reset keeps host memory, counts a boot and
goes through the start-up steps, whose entries are passed, failed, or passed by the alternative, up to one that stops the part
or is cut off and reads running. Each mailbox command in hand
ends with its effect, or with the code of the first check that fails. The model's choices it rests on: logs 9, 11, 12, 28, 29, 94. -/
def Obligations.PlatformSteps : Prop := ∀ (s : State) (d amps watts temp f : Nat),
  -- power
  (s.plumb % 64 = 0 →
    (amps ≤ 900 → exec (.currentMonitorSample d amps) s = .next (s.modDie d fun y => { y with withhold := 0 })) ∧
    (900 < amps → amps ≤ 980 → exec (.currentMonitorSample d amps) s =
      .next { s.modDie d (fun y => { y with withhold := 1 }) with monActed := true }) ∧
    (980 < amps → exec (.currentMonitorSample d amps) s =
      .next { s.modDie d (fun y => { y with withhold := 2 }) with monActed := true })) ∧
  (s.plumb % 2 ^ 14 = 0 → s.monActed = false →
    (temp < 110 → (7200 < amps ∨ 3450 < watts ∨ 100 < temp) → exec (.powerSample amps watts temp) s =
      .next { s with throttle := min 8 (s.throttle + 1), acted := 0, monActed := false }) ∧
    (amps < 7200 → watts < 3450 → temp < 100 → exec (.powerSample amps watts temp) s =
      .next { s with throttle := s.throttle - 1, acted := 0, monActed := false }) ∧
    (110 ≤ temp → exec (.powerSample amps watts temp) s = .next (({ s with
      throttle := min 8 (s.throttle + 1), acted := 0, monActed := false } : State).fatalDump 2))) ∧
  -- start-up
  (∃ u, exec (.coldReset f) s = .next u ∧ u.mem = s.mem.filter (fun e => isHost e.1) ∧ u.agenda = s.agenda ∧
    u.thr = State.reset.thr ∧ u.ctx = State.reset.ctx ∧ u.parts = State.reset.parts ∧ u.plumb = State.reset.plumb ∧
    u.store.boots = s.store.boots + 1 ∧ u.version = s.version + 1 ∧ (u.started = true ∨ u.stopped = true)) ∧
  (∀ i b plumb, stepResult i (0, 0, b, plumb) false true = (2, 0, 0) ∧
    (hasAlt i = false → stepResult i (0, 0, b, plumb) true false = (3, 1, 0)) ∧
    (hasAlt i = true → stepResult i (0, 0, b, plumb) true false = (4, 1, 1) ∧ stepResult i (0, 0, b, plumb) true true = (3, 1, 1))) ∧
  (∀ fails i plumb r old, let e := stepResult i (SMap.get (0, 0, 0, 0) old (i - 1)) (fails i).1 (fails i).2
    let new := SMap.set (0, 0, 0, 0) old (i - 1) (e.1, e.2.1, e.2.2, plumb)
    runSteps fails i plumb (i :: r) old =
      (SMap.set (0, 0, 0, 0) old (i - 1) (1, (SMap.get (0, 0, 0, 0) old (i - 1)).2), true) ∧
    (∀ cut, cut ≠ i → e.1 ≠ 3 ∨ stopsPart i = false → runSteps fails cut plumb (i :: r) old = runSteps fails cut plumb r new) ∧
    (∀ cut, cut ≠ i → e.1 = 3 → stopsPart i = true → runSteps fails cut plumb (i :: r) old = (new, true))) ∧
  -- the mailbox
  (s.mbSt = 1 →
    let a := s.mbArg0.toNat
    let ok := fun (r : State) => ({ r with mbSt := 2, mbErr := 0 } : State)
    let err := fun (e : Nat) => ({ s with mbSt := 3, mbErr := e } : State)
    (s.mbCmd = 1 →
      (hostOk a 64 = true → hostOk s.mbArg1.toNat 512 = true → s.sysReady (hostAt s.mbArg1.toNat) 512 = true →
        exec .attest s = .next (ok (s.homeStore 0 (hostAt s.mbArg1.toNat) (s.report (s.hostRead a 64))))) ∧
      (hostOk a 64 = false → exec .attest s = .next (err 1))) ∧
    (s.mbCmd = 2 →
      let n := recordLen (s.hostRead a 8)
      let bs := s.hostRead a n
      let sig := s.hostRead (a + n) 132
      let pad := s.hostRead (a + n + 132) ((64 - (n + 132) % 64) % 64)
      let new := recordOf bs
      let live := new.limit s.dieMask
      let signed := Config.ecdsaOk s.store.opKey.1 s.store.opKey.2 bs (beAt sig 0 66) (beAt sig 66 66)
      let stored := (s.store.record.getD (PConfig.manufacture s.domPos)).pseq
      let idle := ∀ p < 16, s.cfg.shareOf p ≠ live.shareOf p → ∀ e ∈ (s.getPart p).launches, e.2.complete = true
      let up := fun (m : SMap Nat) (v : Nat) => SMap.set 0 m v ((SMap.get 0 m v + 1) % 65536)
      (a % 64 ≠ 0 → exec .partcfg s = .next (err 3)) ∧
      (a % 64 = 0 → hostOk a (n + 196) = true → leAt bs 6 2 ≤ 4096 →
        (signed = false → exec .partcfg s = .next (err 1)) ∧
        (signed = true → recordFormOk bs pad = true → new.ok s.domPos = true →
          (new.pseq ≤ stored → exec .partcfg s = .next (err 4)) ∧
          (stored < new.pseq → ¬idle → exec .partcfg s = .next (err 2)) ∧
          (stored < new.pseq → idle → s.moveReady live = false → exec .partcfg s = .next s) ∧
          (stored < new.pseq → idle → s.moveReady live = true →
            let r := s.moveAll live
            exec .partcfg s = .next (ok (({ r with
              capGen := ((List.range 17).filter fun v => s.capList v != r.capList v).foldl up r.capGen } : State).putStore
                { r.store with record := some new })))))) ∧
    (s.mbCmd = 3 → exec .dump s = .next (ok (s.fatalDump 4))) ∧
    (s.mbCmd = 4 → exec .clearsr s = .next (ok (s.putStore { s.store with
      start := (SMap.map (fun _ (e : Nat × Nat × Nat × Nat) => (e.1, 0, 0, e.2.2.2)) s.store.start).filter fun e => e.2 ≠ (0, 0, 0, 0) }))) ∧
    (s.mbCmd = 5 →
      (s.newest = none → exec .dumpack s = .next (err 1)) ∧
      (s.newest = some d → exec .dumpack s = .next (ok (({ s with newest := none } : State).modDie d fun y => { y with dumpFree := true })))) ∧
    (s.mbCmd = 6 →
      let bs := s.hostRead a 320
      let x := beAt bs 16 66
      let y := beAt bs 82 66
      let signed := Config.ecdsaOk s.store.opKey.1 s.store.opKey.2 (bs.take 180) (beAt bs 180 66) (beAt bs 246 66)
      (hostOk a 320 = false → exec .opkey s = .next (err 3)) ∧
      (hostOk a 320 = true → signed = false → exec .opkey s = .next (err 1)) ∧
      (hostOk a 320 = true → signed = true → cutAt bs 0 4 = [0x48, 0x58, 0x4F, 0x31] → leAt bs 4 2 = 1 → leAt bs 6 2 = 0 →
        leAt bs 148 32 = 0 → leAt bs 312 8 = 0 → Config.onP521 x y = true →
        (leAt bs 8 8 ≤ s.store.kseq → exec .opkey s = .next (err 4)) ∧
        (s.store.kseq < leAt bs 8 8 → exec .opkey s = .next (ok (s.putStore { s.store with opKey := (x, y), kseq := leAt bs 8 8 }))))))
/-! ### Register writes from outside the thread in focus -/

/-- R4, R134, R141, R147, R189, R235, R260, R261, R291, R315, R338, R352, R374, R403 to R405, R407, R412, R417. What a write makes of each
register: its fields, at least and at most what the register's rule allows; a doorbell or HEAD beyond the ring, LSPLIT above 8,
a pool outside the partition's memory and a descriptor that changes an enabled queue are ignored; enabling a queue sets its HEAD
and TAIL to 0; a BAL period is 0 or at least 1,024 and its threshold 1 to 32; an HBPER period is 2^10 to 2^16 cycles and taken at the next boundary; a
mailbox command starts, and no write of a host arrives before its link is up. The model's choices it rests on: logs 33, 49. -/
def Obligations.RegisterWritesAct : Prop := ∀ (s : State) (p q t c i n v off fromS view : Nat),
  let part := s.getPart p
  let x := SMap.get {} part.queues q
  let g := part.ring
  let put := fun (y : LQ) => s.modPart p fun r => { r with queues := SMap.set {} r.queues q y }
  let w := x.double 0 / 2 * 2 + 1
  -- launch queues
  ((v % 2 ^ 32 + 2 ^ 32 - x.head) % 2 ^ 32 ≤ 2 ^ x.log2n → exec (.launchQueueTailWrite p q v) s = .next (put { x with tail := v % 2 ^ 32 })) ∧
  (2 ^ x.log2n < (v % 2 ^ 32 + 2 ^ 32 - x.head) % 2 ^ 32 → exec (.launchQueueTailWrite p q v) s = .next s) ∧
  (x.en = false → bits w 1 5 ≤ 16 → isDram (64 * bits w 6 46) = true → s.ownsRange p (64 * bits w 6 46) (64 * 2 ^ bits w 1 5) = true →
    exec (.launchQueueEnable p q 1 fromS) s = .next (put { x with
      en := true, log2n := bits w 1 5, base := bits w 6 46, sup := if fromS = 1 then x.sup else bit w 52, head := 0, tail := 0 })) ∧
  exec (.launchQueueDescWrite p q 16 v fromS) s = .next (put { x with qptbr := BitVec.ofNat 64 v }) ∧
  (x.en = true → bits v 6 46 ≠ x.base → exec (.launchQueueDescWrite p q 0 v fromS) s = .next s) ∧
  -- event rings
  ((g.tail + 2 ^ 32 - v % 2 ^ 32) % 2 ^ 32 ≤ 2 ^ g.log2n → exec (.eventRingHeadWrite p v) s =
    .next (s.modPart p fun r => { r with ring := { g with head := v % 2 ^ 32 } })) ∧
  (g.en = false → v % 2 = 1 → bits v 1 5 ≤ 16 → isDram (64 * bits v 6 46) = true →
    s.ownsRange p (64 * bits v 6 46) (32 * 2 ^ bits v 1 5) = true → exec (.eventRingDescWrite p v) s =
    .next (s.modPart p fun r => { r with ring := { g with en := true, log2n := bits v 1 5, base := bits v 6 46, head := 0, tail := 0 } })) ∧
  -- other registers
  (part.nodes = [] → part.poolUsed = 0 → s.ownsRange p (bits v 16 36 * 65536) (bits v 1 15 * 0x4000000) = true →
    exec (.lpoolWrite p v) s = .next (s.setPart p { part with lpool := BitVec.ofNat 64 (bits v 0 52) })) ∧
  (v % 16 ≤ 8 → s.scratchNeed t ≤ v % 16 * 0x20000 →
    exec (.lsplitWrite t v) s = .next (s.modTile t fun y => { y with lsplit := v % 16, copies := [] })) ∧
  (8 < v % 16 → exec (.lsplitWrite t v) s = .next s) ∧
  (v % 4 ≠ 3 → v % 4 ≠ (s.getTile t).lgrp → exec (.lgrpWrite t v) s = .next (((s.cacheGroup t).foldl
    (fun r u => r.modTile u fun y => { y with copies := [] }) s).modTile t fun y => { y with lgrp := v % 4 })) ∧
  exec (.leaseWrite p v) s = .next (s.modPart p fun y => { y with lease := max (v % 2 ^ 16) 256 }) ∧
  (let per := if v % 2 ^ 32 = 0 then 0 else max 1024 (v % 2 ^ 32)
   exec (.balWrite p v) s = .next (s.modPart p fun y => { y with
    bal := BitVec.ofNat 64 (per + min 32 (max 1 (v / 2 ^ 32 % 2 ^ 8)) * 2 ^ 32) })) ∧
  exec (.rlimitWrite t c v) s = .next (s.modCtx t c fun y => { y with rlimit := max (v % 256) 1 }) ∧
  (let per := 2 ^ ((s.getTile t).hbper.toNat % 32)
   exec (.hbperWrite t v) s = .next (s.modTile t fun y => { y with lath := { y.lath with
    hbNext := some (BitVec.ofNat 64 (min 16 (max 10 (v % 32)) + v / 2 ^ 16 % 2 ^ 16 * 2 ^ 16), (s.plumb / per + 1) * per) } })) ∧
  exec (.histWrite t n v) s = .next (s.modTile t fun y => { y with hist := SMap.set 0 y.hist n (BitVec.ofNat 32 v) }) ∧
  ((s.getCtx t c).mu.stop = true → exec (.mprWrite t c v) s =
    .next (s.modCtx t c fun y => { y with mu := { y.mu with gdone := v % 2 ^ 24 } })) ∧
  (v % 8 ≠ 7 → v / 8 % 32 = 0 → v < 2 ^ 64 → exec (.ptbrWrite t c v) s = .next (s.modCtx t c fun y => { y with ptbr := BitVec.ofNat 64 v })) ∧
  exec (.lsegWrite t c i v) s = .next (s.modThread ⟨t, c, i⟩ fun y => { y with lseg := BitVec.ofNat 72 (v / 64 % 2 ^ 14 * 64) }) ∧
  exec (.tsrWrite t c i v) s = .next (s.modThread ⟨t, c, i⟩ fun y =>
    { y with tsr := (BitVec.ofNat 64 v &&& 0xFF01) ||| (y.tsr &&& 0x6 &&& ~~~(BitVec.ofNat 64 v)) }) ∧
  -- the window
  (s.lanes = 0 → exec (.registerWrite off v view) s = .next s) ∧
  (packageView view = true → s.lanes ≠ 0 →
    exec (.registerWrite 0x40010 v view) s = .next { s with mbArg0 := BitVec.ofNat 64 v } ∧
    (s.mbSt ≠ 1 → 1 ≤ v % 256 → v % 256 ≤ 6 → exec (.registerWrite 0x40000 v view) s = .next { s with mbCmd := v % 256, mbSt := 1, mbErr := 0 })) ∧
  (off < 0x30000 → exec (.registerWrite off v view) s = .next s)
end

