-- ==== Sys2Proof/Laws/SMap.lean ====
section
/-! SUPPORT. Sparse maps: reading after writing, the canonical form and its preservation, and the same of memory. -/

namespace Sys2Proof.Machine

section

variable {α : Type}

@[simp] theorem SMap.find_nil (j : Nat) : SMap.find ([] : SMap α) j = none := rfl

theorem SMap.find_put_self (m : SMap α) (j : Nat) (x : α) : SMap.find (SMap.put m j x) j = some x := by
  induction m with
  | nil => simp [SMap.put, SMap.find]
  | cons e m ih =>
    obtain ⟨k, v⟩ := e
    simp only [SMap.put]
    split
    · simp [SMap.find]
    · split
      · simp [SMap.find]
      · simp [SMap.find, *]

theorem SMap.find_put_other (m : SMap α) {i j : Nat} (x : α) (h : i ≠ j) : SMap.find (SMap.put m j x) i = SMap.find m i := by
  induction m with
  | nil => simp [SMap.put, SMap.find, h]
  | cons e m ih =>
    obtain ⟨k, v⟩ := e
    simp only [SMap.put]
    split
    · simp [SMap.find, h]
    · split
      · subst j; simp [SMap.find, h]
      · simp [SMap.find, ih]

theorem SMap.find_erase_self (m : SMap α) (j : Nat) : SMap.find (SMap.erase m j) j = none := by
  induction m with
  | nil => rfl
  | cons e m ih =>
    simp only [SMap.erase]
    split
    · exact ih
    · simp [SMap.find, *]

theorem SMap.find_erase_other (m : SMap α) {i j : Nat} (h : i ≠ j) : SMap.find (SMap.erase m j) i = SMap.find m i := by
  induction m with
  | nil => rfl
  | cons e m ih =>
    simp only [SMap.erase]
    split
    · subst j; simp [SMap.find, h, ih]
    · simp [SMap.find, ih]

variable [DecidableEq α]

@[simp] theorem SMap.get_set_self (d : α) (m : SMap α) (j : Nat) (x : α) : SMap.get d (SMap.set d m j x) j = x := by
  unfold SMap.get SMap.set
  split
  · simp [SMap.find_erase_self, *]
  · simp [SMap.find_put_self]

theorem SMap.get_set_other (d : α) (m : SMap α) {i j : Nat} (x : α) (h : i ≠ j) :
    SMap.get d (SMap.set d m j x) i = SMap.get d m i := by
  unfold SMap.get SMap.set
  split
  · rw [SMap.find_erase_other m h]
  · rw [SMap.find_put_other m x h]

/-- Reading after writing, as one equation. -/
theorem SMap.get_set (d : α) (m : SMap α) (i j : Nat) (x : α) :
    SMap.get d (SMap.set d m j x) i = if i = j then x else SMap.get d m i := by
  split
  · subst i; simp
  · exact SMap.get_set_other d m x ‹_›

omit [DecidableEq α] in
theorem SMap.rising_le {lo lo' : Nat} (m : SMap α) (h : SMap.rising lo m = true) (hl : lo' ≤ lo) : SMap.rising lo' m = true := by
  cases m with
  | nil => rfl
  | cons e m =>
    simp only [SMap.rising, Bool.and_eq_true, decide_eq_true_eq] at h ⊢
    exact ⟨hl.trans h.1, h.2⟩

omit [DecidableEq α] in
theorem SMap.rising_put {lo : Nat} (m : SMap α) (j : Nat) (x : α) (hl : lo ≤ j) (h : SMap.rising lo m = true) :
    SMap.rising lo (SMap.put m j x) = true := by
  induction m generalizing lo with
  | nil => simp [SMap.put, SMap.rising, hl]
  | cons e m ih =>
    obtain ⟨k, v⟩ := e
    simp only [SMap.rising, Bool.and_eq_true, decide_eq_true_eq] at h
    simp only [SMap.put]
    split
    · simp only [SMap.rising, Bool.and_eq_true, decide_eq_true_eq]
      exact ⟨hl, by omega, h.2⟩
    · split
      · subst j; simp [SMap.rising, hl, h.2]
      · simp only [SMap.rising, Bool.and_eq_true, decide_eq_true_eq]
        exact ⟨h.1, ih (by omega) h.2⟩

omit [DecidableEq α] in
theorem SMap.rising_erase {lo : Nat} (m : SMap α) (j : Nat) (h : SMap.rising lo m = true) : SMap.rising lo (SMap.erase m j) = true := by
  induction m generalizing lo with
  | nil => rfl
  | cons e m ih =>
    obtain ⟨k, v⟩ := e
    simp only [SMap.rising, Bool.and_eq_true, decide_eq_true_eq] at h
    simp only [SMap.erase]
    split
    · exact SMap.rising_le _ (ih h.2) (by omega)
    · simp only [SMap.rising, Bool.and_eq_true, decide_eq_true_eq]
      exact ⟨h.1, ih h.2⟩

omit [DecidableEq α] in
theorem SMap.mem_put {m : SMap α} {j : Nat} {x : α} {e : Nat × α} (h : e ∈ SMap.put m j x) : e = (j, x) ∨ e ∈ m := by
  induction m with
  | nil => simpa [SMap.put] using h
  | cons f m ih =>
    obtain ⟨k, v⟩ := f
    simp only [SMap.put] at h
    split at h
    · simpa using h
    · split at h
      · simp only [List.mem_cons] at h ⊢; tauto
      · simp only [List.mem_cons] at h ⊢
        rcases h with h | h
        · tauto
        · rcases ih h with h | h <;> tauto

omit [DecidableEq α] in
theorem SMap.mem_erase {m : SMap α} {j : Nat} {e : Nat × α} (h : e ∈ SMap.erase m j) : e ∈ m := by
  induction m with
  | nil => simp [SMap.erase] at h
  | cons f m ih =>
    simp only [SMap.erase] at h
    split at h
    · exact List.mem_cons_of_mem _ (ih h)
    · simp only [List.mem_cons] at h ⊢
      exact h.imp id ih

/-- Writing keeps the canonical form. -/
theorem SMap.wf_set (d : α) (m : SMap α) (j : Nat) (x : α) (h : SMap.wf d m = true) : SMap.wf d (SMap.set d m j x) = true := by
  simp only [SMap.wf, Bool.and_eq_true, List.all_eq_true] at h ⊢
  unfold SMap.set
  split
  · exact ⟨SMap.rising_erase m j h.1, fun e he => h.2 e (SMap.mem_erase he)⟩
  · refine ⟨SMap.rising_put m j x (Nat.zero_le j) h.1, fun e he => ?_⟩
    rcases SMap.mem_put he with rfl | he
    · simpa using ‹¬x = d›
    · exact h.2 e he

@[simp] theorem SMap.wf_nil (d : α) : SMap.wf d ([] : SMap α) = true := rfl

omit [DecidableEq α] in
theorem SMap.find_rising {lo : Nat} {m : SMap α} (h : SMap.rising lo m = true) {j : Nat} (hj : j < lo) : SMap.find m j = none := by
  induction m generalizing lo with
  | nil => rfl
  | cons e m ih =>
    obtain ⟨k, v⟩ := e
    simp only [SMap.rising, Bool.and_eq_true, decide_eq_true_eq] at h
    simp only [SMap.find]
    rw [if_neg (by omega)]
    exact ih h.2 (by omega)

/-- Canonical maps that read alike are equal. -/
theorem SMap.ext_of_get (d : α) {m n : SMap α} (hm : SMap.wf d m = true) (hn : SMap.wf d n = true)
    (h : ∀ j, SMap.get d m j = SMap.get d n j) : m = n := by
  simp only [SMap.wf, Bool.and_eq_true, List.all_eq_true, decide_eq_true_eq] at hm hn
  obtain ⟨hm, hmd⟩ := hm
  obtain ⟨hn, hnd⟩ := hn
  generalize (0 : Nat) = lo at hm hn
  induction m generalizing n lo with
  | nil =>
    cases n with
    | nil => rfl
    | cons e n => exact absurd (by simpa [SMap.get, SMap.find] using (h e.1).symm) (hnd e (by simp))
  | cons e m ih =>
    obtain ⟨k, v⟩ := e
    have hv : v ≠ d := hmd (k, v) (by simp)
    simp only [SMap.rising, Bool.and_eq_true, decide_eq_true_eq] at hm
    cases n with
    | nil => exact absurd (by simpa [SMap.get, SMap.find] using h k) hv
    | cons f n =>
      obtain ⟨l, w⟩ := f
      have hw : w ≠ d := hnd (l, w) (by simp)
      simp only [SMap.rising, Bool.and_eq_true, decide_eq_true_eq] at hn
      have hk : k = l := by
        rcases Nat.lt_trichotomy k l with hlt | heq | hgt
        · have := h k
          exact absurd (by simpa [SMap.get, SMap.find, Nat.ne_of_lt hlt, SMap.find_rising hn.2 (Nat.lt_succ_of_lt hlt)] using this) hv
        · exact heq
        · have := (h l).symm
          exact absurd (by simpa [SMap.get, SMap.find, Nat.ne_of_lt hgt, SMap.find_rising hm.2 (Nat.lt_succ_of_lt hgt)] using this) hw
      subst l
      have hvw : v = w := by simpa [SMap.get, SMap.find] using h k
      subst w
      have : m = n := by
        refine ih (n := n) (fun j => ?_) (fun e he => hmd e (List.mem_cons_of_mem _ he))
          (fun e he => hnd e (List.mem_cons_of_mem _ he)) (k + 1) hm.2 hn.2
        by_cases hj : j = k
        · subst j; simp [SMap.get, SMap.find_rising hm.2 (Nat.lt_succ_self k), SMap.find_rising hn.2 (Nat.lt_succ_self k)]
        · simpa [SMap.get, SMap.find, hj] using h j
      rw [this]

end

/-! ### Memory -/

/-- Every write of memory keeps its canonical form. -/
theorem memory_write_wf (m : SMap Byte) (a : Nat) (bs : List Byte) (h : Memory.wf m = true) :
    Memory.wf (Memory.write m a bs) = true := by
  induction bs generalizing m a with
  | nil => exact h
  | cons b r ih => exact ih _ _ (SMap.wf_set 0 m a b h)

/-- A byte outside the bytes written reads as before. -/
theorem memory_read_write_other (m : SMap Byte) (a j : Nat) (bs : List Byte) (h : j < a ∨ a + bs.length ≤ j) :
    Memory.read (Memory.write m a bs) j = Memory.read m j := by
  induction bs generalizing m a with
  | nil => rfl
  | cons b r ih =>
    simp only [List.length_cons] at h
    refine (ih _ _ (by omega)).trans ?_
    simp only [Memory.read]
    exact SMap.get_set_other 0 m b (by omega)

/-- A byte written reads as the value written. -/
theorem memory_read_write_self (m : SMap Byte) (a j : Nat) (bs : List Byte) (h : j < bs.length) :
    Memory.read (Memory.write m a bs) (a + j) = bs[j] := by
  induction bs generalizing m a j with
  | nil => simp at h
  | cons b r ih =>
    cases j with
    | zero =>
      refine (memory_read_write_other _ _ _ r (by omega)).trans ?_
      simp [Memory.read]
    | succ j =>
      have := ih (SMap.set 0 m a b) (a + 1) j (by simpa using h)
      rw [Nat.add_assoc, Nat.add_comm 1 j] at this
      simpa [Memory.write] using this

end Sys2Proof.Machine
end

