-- ==== Sys2Proof/Laws/State.lean ====
section
/-! SUPPORT. The register file: reading after writing; and what each small update of a thread or of the state leaves alone, one
equation a field. -/

namespace Sys2Proof.Machine

/-! ### Registers -/

/-- A value cut to the width of a register (R29). -/
def Reg.cut (r : Reg) (w : Vec) : Vec :=
  match r with
  | .s _ => (w.setWidth 64).setWidth 1024
  | .a _ => (w.setWidth 72).setWidth 1024
  | .v _ => w
  | .k _ => (w.setWidth 32).setWidth 1024
  | .p _ => BitVec.ofNat 1024 (b2n (w.getLsbD 0))

/-- A register reads the value written to it, cut to its width (R29). -/
theorem Thread.reg_setReg_self (x : Thread) (r : Reg) (v : Vec) (h : r.fixed = false) : (x.setReg r v).reg r = r.cut v := by
  cases r with
  | s n => have : n ≠ 0 := by simpa [Reg.fixed] using h
           simp [Thread.setReg, Thread.reg, Reg.cut, this]
  | a n => simp [Thread.setReg, Thread.reg, Reg.cut]
  | v n => simp [Thread.setReg, Thread.reg, Reg.cut]
  | k n => have : n ≠ 0 := by simpa [Reg.fixed] using h
           simp [Thread.setReg, Thread.reg, Reg.cut, this]
  | p n => have : n ≠ 0 := by simpa [Reg.fixed] using h
           simp [Thread.setReg, Thread.reg, Reg.cut, this]

/-- No other register changes. -/
theorem Thread.reg_setReg_other (x : Thread) {q r : Reg} (v : Vec) (h : q ≠ r) : (x.setReg r v).reg q = x.reg q := by
  cases r <;> cases q <;> simp only [Thread.setReg] <;> (try split) <;> simp only [Thread.reg] <;>
    rw [SMap.get_set_other] <;> intro e <;> exact h (by rw [e])

/-- A register that discards writes changes nothing. -/
theorem Thread.setReg_fixed (x : Thread) (r : Reg) (v : Vec) (h : r.fixed = true) : x.setReg r v = x := by
  cases r with
  | a n => cases h
  | v n => cases h
  | s n => have : n = 0 := by simpa [Reg.fixed] using h
           simp [Thread.setReg, this]
  | k n => have : n = 0 := by simpa [Reg.fixed] using h
           simp [Thread.setReg, this]
  | p n => have : n = 0 := by simpa [Reg.fixed] using h
           simp [Thread.setReg, this]

@[simp] theorem Thread.reg_clobber (x : Thread) (r q : Reg) : (x.clobber r).reg q = x.reg q := by cases q <;> rfl
@[simp] theorem Thread.reg_stick (x : Thread) (f s : Bool) (q : Reg) : (x.stick f s).reg q = x.reg q := by cases q <;> rfl

/-- Values fit the registers that hold them. -/
@[simp] theorem Reg.cut_s (n : Nat) (w : Word) : (Reg.s n).cut (ofWord w) = ofWord w := by simp [Reg.cut, ofWord]
@[simp] theorem Reg.cut_a (n : Nat) (a : Addr) : (Reg.a n).cut (ofAddr a) = ofAddr a := by simp [Reg.cut, ofAddr]
@[simp] theorem Reg.cut_p (n : Nat) (b : Bool) : (Reg.p n).cut (ofBool b) = ofBool b := by
  cases b
  · simp [Reg.cut, ofBool, b2n]
  · show BitVec.ofNat 1024 (b2n ((BitVec.ofNat 1024 1).getLsbD 0)) = BitVec.ofNat 1024 1
    simp [b2n]

/-! ### Updates of a thread, field by field -/

@[simp] theorem Thread.life_clobber (x : Thread) (r : Reg) : (x.clobber r).life = x.life := rfl
@[simp] theorem Thread.role_clobber (x : Thread) (r : Reg) : (x.clobber r).role = x.role := rfl
@[simp] theorem Thread.priv_clobber (x : Thread) (r : Reg) : (x.clobber r).priv = x.priv := rfl
@[simp] theorem Thread.pc_clobber (x : Thread) (r : Reg) : (x.clobber r).pc = x.pc := rfl
@[simp] theorem Thread.sr_clobber (x : Thread) (r : Reg) : (x.clobber r).sr = x.sr := rfl
@[simp] theorem Thread.ar_clobber (x : Thread) (r : Reg) : (x.clobber r).ar = x.ar := rfl
@[simp] theorem Thread.vr_clobber (x : Thread) (r : Reg) : (x.clobber r).vr = x.vr := rfl
@[simp] theorem Thread.kr_clobber (x : Thread) (r : Reg) : (x.clobber r).kr = x.kr := rfl
@[simp] theorem Thread.pr_clobber (x : Thread) (r : Reg) : (x.clobber r).pr = x.pr := rfl
@[simp] theorem Thread.loops_clobber (x : Thread) (r : Reg) : (x.clobber r).loops = x.loops := rfl
@[simp] theorem Thread.tloops_clobber (x : Thread) (r : Reg) : (x.clobber r).tloops = x.tloops := rfl
@[simp] theorem Thread.tpc_clobber (x : Thread) (r : Reg) : (x.clobber r).tpc = x.tpc := rfl
@[simp] theorem Thread.tcause_clobber (x : Thread) (r : Reg) : (x.clobber r).tcause = x.tcause := rfl
@[simp] theorem Thread.taddr_clobber (x : Thread) (r : Reg) : (x.clobber r).taddr = x.taddr := rfl
@[simp] theorem Thread.tstat_clobber (x : Thread) (r : Reg) : (x.clobber r).tstat = x.tstat := rfl
@[simp] theorem Thread.tvec_clobber (x : Thread) (r : Reg) : (x.clobber r).tvec = x.tvec := rfl
@[simp] theorem Thread.tsp_clobber (x : Thread) (r : Reg) : (x.clobber r).tsp = x.tsp := rfl
@[simp] theorem Thread.tscr_clobber (x : Thread) (r : Reg) : (x.clobber r).tscr = x.tscr := rfl
@[simp] theorem Thread.hfpc_clobber (x : Thread) (r : Reg) : (x.clobber r).hfpc = x.hfpc := rfl
@[simp] theorem Thread.hfcause_clobber (x : Thread) (r : Reg) : (x.clobber r).hfcause = x.hfcause := rfl
@[simp] theorem Thread.hfaddr_clobber (x : Thread) (r : Reg) : (x.clobber r).hfaddr = x.hfaddr := rfl
@[simp] theorem Thread.lseg_clobber (x : Thread) (r : Reg) : (x.clobber r).lseg = x.lseg := rfl
@[simp] theorem Thread.tsr_clobber (x : Thread) (r : Reg) : (x.clobber r).tsr = x.tsr := rfl
@[simp] theorem Thread.lstat_clobber (x : Thread) (r : Reg) : (x.clobber r).lstat = x.lstat := rfl
@[simp] theorem Thread.rlo_clobber (x : Thread) (r : Reg) : (x.clobber r).rlo = x.rlo := rfl
@[simp] theorem Thread.rhi_clobber (x : Thread) (r : Reg) : (x.clobber r).rhi = x.rhi := rfl
@[simp] theorem Thread.rseq_clobber (x : Thread) (r : Reg) : (x.clobber r).rseq = x.rseq := rfl
@[simp] theorem Thread.rstat_clobber (x : Thread) (r : Reg) : (x.clobber r).rstat = x.rstat := rfl
@[simp] theorem Thread.rcnt_clobber (x : Thread) (r : Reg) : (x.clobber r).rcnt = x.rcnt := rfl
@[simp] theorem Thread.trwt_clobber (x : Thread) (r : Reg) : (x.clobber r).trwt = x.trwt := rfl
@[simp] theorem Thread.mpc_clobber (x : Thread) (r : Reg) : (x.clobber r).mpc = x.mpc := rfl
@[simp] theorem Thread.mcont_clobber (x : Thread) (r : Reg) : (x.clobber r).mcont = x.mcont := rfl
@[simp] theorem Thread.mrun_clobber (x : Thread) (r : Reg) : (x.clobber r).mrun = x.mrun := rfl
@[simp] theorem Thread.drawn_clobber (x : Thread) (r : Reg) : (x.clobber r).drawn = x.drawn := rfl
@[simp] theorem Thread.hreg_clobber (x : Thread) (r : Reg) : (x.clobber r).hreg = x.hreg := rfl
@[simp] theorem Thread.wait_clobber (x : Thread) (r : Reg) : (x.clobber r).wait = x.wait := rfl
@[simp] theorem Thread.retry_clobber (x : Thread) (r : Reg) : (x.clobber r).retry = x.retry := rfl
@[simp] theorem Thread.defer_clobber (x : Thread) (r : Reg) : (x.clobber r).defer = x.defer := rfl
@[simp] theorem Thread.region_clobber (x : Thread) (r : Reg) : (x.clobber r).region = x.region := rfl
@[simp] theorem Thread.resv_clobber (x : Thread) (r : Reg) : (x.clobber r).resv = x.resv := rfl
@[simp] theorem Thread.rill_clobber (x : Thread) (r : Reg) : (x.clobber r).rill = x.rill := rfl
@[simp] theorem Thread.wdog_clobber (x : Thread) (r : Reg) : (x.clobber r).wdog = x.wdog := rfl
@[simp] theorem Thread.young_clobber (x : Thread) (r : Reg) : (x.clobber r).young = x.young := rfl
@[simp] theorem Thread.ueStall_clobber (x : Thread) (r : Reg) : (x.clobber r).ueStall = x.ueStall := rfl
@[simp] theorem Thread.lvq_clobber (x : Thread) (r : Reg) : (x.clobber r).lvq = x.lvq := rfl
@[simp] theorem Thread.cmpq_clobber (x : Thread) (r : Reg) : (x.clobber r).cmpq = x.cmpq := rfl

@[simp] theorem Thread.life_setReg (x : Thread) (r : Reg) (v : Vec) : (x.setReg r v).life = x.life := by cases r <;> simp only [Thread.setReg] <;> (try split) <;> rfl
@[simp] theorem Thread.role_setReg (x : Thread) (r : Reg) (v : Vec) : (x.setReg r v).role = x.role := by cases r <;> simp only [Thread.setReg] <;> (try split) <;> rfl
@[simp] theorem Thread.priv_setReg (x : Thread) (r : Reg) (v : Vec) : (x.setReg r v).priv = x.priv := by cases r <;> simp only [Thread.setReg] <;> (try split) <;> rfl
@[simp] theorem Thread.pc_setReg (x : Thread) (r : Reg) (v : Vec) : (x.setReg r v).pc = x.pc := by cases r <;> simp only [Thread.setReg] <;> (try split) <;> rfl
@[simp] theorem Thread.loops_setReg (x : Thread) (r : Reg) (v : Vec) : (x.setReg r v).loops = x.loops := by cases r <;> simp only [Thread.setReg] <;> (try split) <;> rfl
@[simp] theorem Thread.tloops_setReg (x : Thread) (r : Reg) (v : Vec) : (x.setReg r v).tloops = x.tloops := by cases r <;> simp only [Thread.setReg] <;> (try split) <;> rfl
@[simp] theorem Thread.tpc_setReg (x : Thread) (r : Reg) (v : Vec) : (x.setReg r v).tpc = x.tpc := by cases r <;> simp only [Thread.setReg] <;> (try split) <;> rfl
@[simp] theorem Thread.tcause_setReg (x : Thread) (r : Reg) (v : Vec) : (x.setReg r v).tcause = x.tcause := by cases r <;> simp only [Thread.setReg] <;> (try split) <;> rfl
@[simp] theorem Thread.taddr_setReg (x : Thread) (r : Reg) (v : Vec) : (x.setReg r v).taddr = x.taddr := by cases r <;> simp only [Thread.setReg] <;> (try split) <;> rfl
@[simp] theorem Thread.tstat_setReg (x : Thread) (r : Reg) (v : Vec) : (x.setReg r v).tstat = x.tstat := by cases r <;> simp only [Thread.setReg] <;> (try split) <;> rfl
@[simp] theorem Thread.tvec_setReg (x : Thread) (r : Reg) (v : Vec) : (x.setReg r v).tvec = x.tvec := by cases r <;> simp only [Thread.setReg] <;> (try split) <;> rfl
@[simp] theorem Thread.tsp_setReg (x : Thread) (r : Reg) (v : Vec) : (x.setReg r v).tsp = x.tsp := by cases r <;> simp only [Thread.setReg] <;> (try split) <;> rfl
@[simp] theorem Thread.tscr_setReg (x : Thread) (r : Reg) (v : Vec) : (x.setReg r v).tscr = x.tscr := by cases r <;> simp only [Thread.setReg] <;> (try split) <;> rfl
@[simp] theorem Thread.hfpc_setReg (x : Thread) (r : Reg) (v : Vec) : (x.setReg r v).hfpc = x.hfpc := by cases r <;> simp only [Thread.setReg] <;> (try split) <;> rfl
@[simp] theorem Thread.hfcause_setReg (x : Thread) (r : Reg) (v : Vec) : (x.setReg r v).hfcause = x.hfcause := by cases r <;> simp only [Thread.setReg] <;> (try split) <;> rfl
@[simp] theorem Thread.hfaddr_setReg (x : Thread) (r : Reg) (v : Vec) : (x.setReg r v).hfaddr = x.hfaddr := by cases r <;> simp only [Thread.setReg] <;> (try split) <;> rfl
@[simp] theorem Thread.lseg_setReg (x : Thread) (r : Reg) (v : Vec) : (x.setReg r v).lseg = x.lseg := by cases r <;> simp only [Thread.setReg] <;> (try split) <;> rfl
@[simp] theorem Thread.tsr_setReg (x : Thread) (r : Reg) (v : Vec) : (x.setReg r v).tsr = x.tsr := by cases r <;> simp only [Thread.setReg] <;> (try split) <;> rfl
@[simp] theorem Thread.lstat_setReg (x : Thread) (r : Reg) (v : Vec) : (x.setReg r v).lstat = x.lstat := by cases r <;> simp only [Thread.setReg] <;> (try split) <;> rfl
@[simp] theorem Thread.rlo_setReg (x : Thread) (r : Reg) (v : Vec) : (x.setReg r v).rlo = x.rlo := by cases r <;> simp only [Thread.setReg] <;> (try split) <;> rfl
@[simp] theorem Thread.rhi_setReg (x : Thread) (r : Reg) (v : Vec) : (x.setReg r v).rhi = x.rhi := by cases r <;> simp only [Thread.setReg] <;> (try split) <;> rfl
@[simp] theorem Thread.rseq_setReg (x : Thread) (r : Reg) (v : Vec) : (x.setReg r v).rseq = x.rseq := by cases r <;> simp only [Thread.setReg] <;> (try split) <;> rfl
@[simp] theorem Thread.rstat_setReg (x : Thread) (r : Reg) (v : Vec) : (x.setReg r v).rstat = x.rstat := by cases r <;> simp only [Thread.setReg] <;> (try split) <;> rfl
@[simp] theorem Thread.rcnt_setReg (x : Thread) (r : Reg) (v : Vec) : (x.setReg r v).rcnt = x.rcnt := by cases r <;> simp only [Thread.setReg] <;> (try split) <;> rfl
@[simp] theorem Thread.trwt_setReg (x : Thread) (r : Reg) (v : Vec) : (x.setReg r v).trwt = x.trwt := by cases r <;> simp only [Thread.setReg] <;> (try split) <;> rfl
@[simp] theorem Thread.mpc_setReg (x : Thread) (r : Reg) (v : Vec) : (x.setReg r v).mpc = x.mpc := by cases r <;> simp only [Thread.setReg] <;> (try split) <;> rfl
@[simp] theorem Thread.mcont_setReg (x : Thread) (r : Reg) (v : Vec) : (x.setReg r v).mcont = x.mcont := by cases r <;> simp only [Thread.setReg] <;> (try split) <;> rfl
@[simp] theorem Thread.mrun_setReg (x : Thread) (r : Reg) (v : Vec) : (x.setReg r v).mrun = x.mrun := by cases r <;> simp only [Thread.setReg] <;> (try split) <;> rfl
@[simp] theorem Thread.drawn_setReg (x : Thread) (r : Reg) (v : Vec) : (x.setReg r v).drawn = x.drawn := by cases r <;> simp only [Thread.setReg] <;> (try split) <;> rfl
@[simp] theorem Thread.hreg_setReg (x : Thread) (r : Reg) (v : Vec) : (x.setReg r v).hreg = x.hreg := by cases r <;> simp only [Thread.setReg] <;> (try split) <;> rfl
@[simp] theorem Thread.wait_setReg (x : Thread) (r : Reg) (v : Vec) : (x.setReg r v).wait = x.wait := by cases r <;> simp only [Thread.setReg] <;> (try split) <;> rfl
@[simp] theorem Thread.retry_setReg (x : Thread) (r : Reg) (v : Vec) : (x.setReg r v).retry = x.retry := by cases r <;> simp only [Thread.setReg] <;> (try split) <;> rfl
@[simp] theorem Thread.pend_setReg (x : Thread) (r : Reg) (v : Vec) : (x.setReg r v).pend = x.pend := by cases r <;> simp only [Thread.setReg] <;> (try split) <;> rfl
@[simp] theorem Thread.defer_setReg (x : Thread) (r : Reg) (v : Vec) : (x.setReg r v).defer = x.defer := by cases r <;> simp only [Thread.setReg] <;> (try split) <;> rfl
@[simp] theorem Thread.region_setReg (x : Thread) (r : Reg) (v : Vec) : (x.setReg r v).region = x.region := by cases r <;> simp only [Thread.setReg] <;> (try split) <;> rfl
@[simp] theorem Thread.resv_setReg (x : Thread) (r : Reg) (v : Vec) : (x.setReg r v).resv = x.resv := by cases r <;> simp only [Thread.setReg] <;> (try split) <;> rfl
@[simp] theorem Thread.rill_setReg (x : Thread) (r : Reg) (v : Vec) : (x.setReg r v).rill = x.rill := by cases r <;> simp only [Thread.setReg] <;> (try split) <;> rfl
@[simp] theorem Thread.wdog_setReg (x : Thread) (r : Reg) (v : Vec) : (x.setReg r v).wdog = x.wdog := by cases r <;> simp only [Thread.setReg] <;> (try split) <;> rfl
@[simp] theorem Thread.young_setReg (x : Thread) (r : Reg) (v : Vec) : (x.setReg r v).young = x.young := by cases r <;> simp only [Thread.setReg] <;> (try split) <;> rfl
@[simp] theorem Thread.ueStall_setReg (x : Thread) (r : Reg) (v : Vec) : (x.setReg r v).ueStall = x.ueStall := by cases r <;> simp only [Thread.setReg] <;> (try split) <;> rfl
@[simp] theorem Thread.lvq_setReg (x : Thread) (r : Reg) (v : Vec) : (x.setReg r v).lvq = x.lvq := by cases r <;> simp only [Thread.setReg] <;> (try split) <;> rfl
@[simp] theorem Thread.cmpq_setReg (x : Thread) (r : Reg) (v : Vec) : (x.setReg r v).cmpq = x.cmpq := by cases r <;> simp only [Thread.setReg] <;> (try split) <;> rfl

@[simp] theorem Thread.life_stick (x : Thread) (f s : Bool) : (x.stick f s).life = x.life := rfl
@[simp] theorem Thread.role_stick (x : Thread) (f s : Bool) : (x.stick f s).role = x.role := rfl
@[simp] theorem Thread.priv_stick (x : Thread) (f s : Bool) : (x.stick f s).priv = x.priv := rfl
@[simp] theorem Thread.pc_stick (x : Thread) (f s : Bool) : (x.stick f s).pc = x.pc := rfl
@[simp] theorem Thread.sr_stick (x : Thread) (f s : Bool) : (x.stick f s).sr = x.sr := rfl
@[simp] theorem Thread.ar_stick (x : Thread) (f s : Bool) : (x.stick f s).ar = x.ar := rfl
@[simp] theorem Thread.vr_stick (x : Thread) (f s : Bool) : (x.stick f s).vr = x.vr := rfl
@[simp] theorem Thread.kr_stick (x : Thread) (f s : Bool) : (x.stick f s).kr = x.kr := rfl
@[simp] theorem Thread.pr_stick (x : Thread) (f s : Bool) : (x.stick f s).pr = x.pr := rfl
@[simp] theorem Thread.loops_stick (x : Thread) (f s : Bool) : (x.stick f s).loops = x.loops := rfl
@[simp] theorem Thread.tloops_stick (x : Thread) (f s : Bool) : (x.stick f s).tloops = x.tloops := rfl
@[simp] theorem Thread.tpc_stick (x : Thread) (f s : Bool) : (x.stick f s).tpc = x.tpc := rfl
@[simp] theorem Thread.tcause_stick (x : Thread) (f s : Bool) : (x.stick f s).tcause = x.tcause := rfl
@[simp] theorem Thread.taddr_stick (x : Thread) (f s : Bool) : (x.stick f s).taddr = x.taddr := rfl
@[simp] theorem Thread.tstat_stick (x : Thread) (f s : Bool) : (x.stick f s).tstat = x.tstat := rfl
@[simp] theorem Thread.tvec_stick (x : Thread) (f s : Bool) : (x.stick f s).tvec = x.tvec := rfl
@[simp] theorem Thread.tsp_stick (x : Thread) (f s : Bool) : (x.stick f s).tsp = x.tsp := rfl
@[simp] theorem Thread.tscr_stick (x : Thread) (f s : Bool) : (x.stick f s).tscr = x.tscr := rfl
@[simp] theorem Thread.hfpc_stick (x : Thread) (f s : Bool) : (x.stick f s).hfpc = x.hfpc := rfl
@[simp] theorem Thread.hfcause_stick (x : Thread) (f s : Bool) : (x.stick f s).hfcause = x.hfcause := rfl
@[simp] theorem Thread.hfaddr_stick (x : Thread) (f s : Bool) : (x.stick f s).hfaddr = x.hfaddr := rfl
@[simp] theorem Thread.lseg_stick (x : Thread) (f s : Bool) : (x.stick f s).lseg = x.lseg := rfl
@[simp] theorem Thread.lstat_stick (x : Thread) (f s : Bool) : (x.stick f s).lstat = x.lstat := rfl
@[simp] theorem Thread.rlo_stick (x : Thread) (f s : Bool) : (x.stick f s).rlo = x.rlo := rfl
@[simp] theorem Thread.rhi_stick (x : Thread) (f s : Bool) : (x.stick f s).rhi = x.rhi := rfl
@[simp] theorem Thread.rseq_stick (x : Thread) (f s : Bool) : (x.stick f s).rseq = x.rseq := rfl
@[simp] theorem Thread.rstat_stick (x : Thread) (f s : Bool) : (x.stick f s).rstat = x.rstat := rfl
@[simp] theorem Thread.rcnt_stick (x : Thread) (f s : Bool) : (x.stick f s).rcnt = x.rcnt := rfl
@[simp] theorem Thread.trwt_stick (x : Thread) (f s : Bool) : (x.stick f s).trwt = x.trwt := rfl
@[simp] theorem Thread.mpc_stick (x : Thread) (f s : Bool) : (x.stick f s).mpc = x.mpc := rfl
@[simp] theorem Thread.mcont_stick (x : Thread) (f s : Bool) : (x.stick f s).mcont = x.mcont := rfl
@[simp] theorem Thread.mrun_stick (x : Thread) (f s : Bool) : (x.stick f s).mrun = x.mrun := rfl
@[simp] theorem Thread.drawn_stick (x : Thread) (f s : Bool) : (x.stick f s).drawn = x.drawn := rfl
@[simp] theorem Thread.hreg_stick (x : Thread) (f s : Bool) : (x.stick f s).hreg = x.hreg := rfl
@[simp] theorem Thread.wait_stick (x : Thread) (f s : Bool) : (x.stick f s).wait = x.wait := rfl
@[simp] theorem Thread.retry_stick (x : Thread) (f s : Bool) : (x.stick f s).retry = x.retry := rfl
@[simp] theorem Thread.pend_stick (x : Thread) (f s : Bool) : (x.stick f s).pend = x.pend := rfl
@[simp] theorem Thread.defer_stick (x : Thread) (f s : Bool) : (x.stick f s).defer = x.defer := rfl
@[simp] theorem Thread.region_stick (x : Thread) (f s : Bool) : (x.stick f s).region = x.region := rfl
@[simp] theorem Thread.resv_stick (x : Thread) (f s : Bool) : (x.stick f s).resv = x.resv := rfl
@[simp] theorem Thread.rill_stick (x : Thread) (f s : Bool) : (x.stick f s).rill = x.rill := rfl
@[simp] theorem Thread.wdog_stick (x : Thread) (f s : Bool) : (x.stick f s).wdog = x.wdog := rfl
@[simp] theorem Thread.young_stick (x : Thread) (f s : Bool) : (x.stick f s).young = x.young := rfl
@[simp] theorem Thread.ueStall_stick (x : Thread) (f s : Bool) : (x.stick f s).ueStall = x.ueStall := rfl
@[simp] theorem Thread.lvq_stick (x : Thread) (f s : Bool) : (x.stick f s).lvq = x.lvq := rfl
@[simp] theorem Thread.cmpq_stick (x : Thread) (f s : Bool) : (x.stick f s).cmpq = x.cmpq := rfl

@[simp] theorem Thread.life_stalls (x : Thread) (n : Nat) (c : Option (Nat × Addr)) : (x.stalls n c).life = x.life := by unfold Thread.stalls; split <;> rfl
@[simp] theorem Thread.role_stalls (x : Thread) (n : Nat) (c : Option (Nat × Addr)) : (x.stalls n c).role = x.role := by unfold Thread.stalls; split <;> rfl
@[simp] theorem Thread.priv_stalls (x : Thread) (n : Nat) (c : Option (Nat × Addr)) : (x.stalls n c).priv = x.priv := by unfold Thread.stalls; split <;> rfl
@[simp] theorem Thread.pc_stalls (x : Thread) (n : Nat) (c : Option (Nat × Addr)) : (x.stalls n c).pc = x.pc := by unfold Thread.stalls; split <;> rfl
@[simp] theorem Thread.sr_stalls (x : Thread) (n : Nat) (c : Option (Nat × Addr)) : (x.stalls n c).sr = x.sr := by unfold Thread.stalls; split <;> rfl
@[simp] theorem Thread.ar_stalls (x : Thread) (n : Nat) (c : Option (Nat × Addr)) : (x.stalls n c).ar = x.ar := by unfold Thread.stalls; split <;> rfl
@[simp] theorem Thread.vr_stalls (x : Thread) (n : Nat) (c : Option (Nat × Addr)) : (x.stalls n c).vr = x.vr := by unfold Thread.stalls; split <;> rfl
@[simp] theorem Thread.kr_stalls (x : Thread) (n : Nat) (c : Option (Nat × Addr)) : (x.stalls n c).kr = x.kr := by unfold Thread.stalls; split <;> rfl
@[simp] theorem Thread.pr_stalls (x : Thread) (n : Nat) (c : Option (Nat × Addr)) : (x.stalls n c).pr = x.pr := by unfold Thread.stalls; split <;> rfl
@[simp] theorem Thread.loops_stalls (x : Thread) (n : Nat) (c : Option (Nat × Addr)) : (x.stalls n c).loops = x.loops := by unfold Thread.stalls; split <;> rfl
@[simp] theorem Thread.tloops_stalls (x : Thread) (n : Nat) (c : Option (Nat × Addr)) : (x.stalls n c).tloops = x.tloops := by unfold Thread.stalls; split <;> rfl
@[simp] theorem Thread.tpc_stalls (x : Thread) (n : Nat) (c : Option (Nat × Addr)) : (x.stalls n c).tpc = x.tpc := by unfold Thread.stalls; split <;> rfl
@[simp] theorem Thread.tcause_stalls (x : Thread) (n : Nat) (c : Option (Nat × Addr)) : (x.stalls n c).tcause = x.tcause := by unfold Thread.stalls; split <;> rfl
@[simp] theorem Thread.taddr_stalls (x : Thread) (n : Nat) (c : Option (Nat × Addr)) : (x.stalls n c).taddr = x.taddr := by unfold Thread.stalls; split <;> rfl
@[simp] theorem Thread.tstat_stalls (x : Thread) (n : Nat) (c : Option (Nat × Addr)) : (x.stalls n c).tstat = x.tstat := by unfold Thread.stalls; split <;> rfl
@[simp] theorem Thread.tvec_stalls (x : Thread) (n : Nat) (c : Option (Nat × Addr)) : (x.stalls n c).tvec = x.tvec := by unfold Thread.stalls; split <;> rfl
@[simp] theorem Thread.tsp_stalls (x : Thread) (n : Nat) (c : Option (Nat × Addr)) : (x.stalls n c).tsp = x.tsp := by unfold Thread.stalls; split <;> rfl
@[simp] theorem Thread.tscr_stalls (x : Thread) (n : Nat) (c : Option (Nat × Addr)) : (x.stalls n c).tscr = x.tscr := by unfold Thread.stalls; split <;> rfl
@[simp] theorem Thread.hfpc_stalls (x : Thread) (n : Nat) (c : Option (Nat × Addr)) : (x.stalls n c).hfpc = x.hfpc := by unfold Thread.stalls; split <;> rfl
@[simp] theorem Thread.hfcause_stalls (x : Thread) (n : Nat) (c : Option (Nat × Addr)) : (x.stalls n c).hfcause = x.hfcause := by unfold Thread.stalls; split <;> rfl
@[simp] theorem Thread.hfaddr_stalls (x : Thread) (n : Nat) (c : Option (Nat × Addr)) : (x.stalls n c).hfaddr = x.hfaddr := by unfold Thread.stalls; split <;> rfl
@[simp] theorem Thread.lseg_stalls (x : Thread) (n : Nat) (c : Option (Nat × Addr)) : (x.stalls n c).lseg = x.lseg := by unfold Thread.stalls; split <;> rfl
@[simp] theorem Thread.tsr_stalls (x : Thread) (n : Nat) (c : Option (Nat × Addr)) : (x.stalls n c).tsr = x.tsr := by unfold Thread.stalls; split <;> rfl
@[simp] theorem Thread.lstat_stalls (x : Thread) (n : Nat) (c : Option (Nat × Addr)) : (x.stalls n c).lstat = x.lstat := by unfold Thread.stalls; split <;> rfl
@[simp] theorem Thread.rlo_stalls (x : Thread) (n : Nat) (c : Option (Nat × Addr)) : (x.stalls n c).rlo = x.rlo := by unfold Thread.stalls; split <;> rfl
@[simp] theorem Thread.rhi_stalls (x : Thread) (n : Nat) (c : Option (Nat × Addr)) : (x.stalls n c).rhi = x.rhi := by unfold Thread.stalls; split <;> rfl
@[simp] theorem Thread.rseq_stalls (x : Thread) (n : Nat) (c : Option (Nat × Addr)) : (x.stalls n c).rseq = x.rseq := by unfold Thread.stalls; split <;> rfl
@[simp] theorem Thread.rstat_stalls (x : Thread) (n : Nat) (c : Option (Nat × Addr)) : (x.stalls n c).rstat = x.rstat := by unfold Thread.stalls; split <;> rfl
@[simp] theorem Thread.rcnt_stalls (x : Thread) (n : Nat) (c : Option (Nat × Addr)) : (x.stalls n c).rcnt = x.rcnt := by unfold Thread.stalls; split <;> rfl
@[simp] theorem Thread.trwt_stalls (x : Thread) (n : Nat) (c : Option (Nat × Addr)) : (x.stalls n c).trwt = x.trwt := by unfold Thread.stalls; split <;> rfl
@[simp] theorem Thread.mpc_stalls (x : Thread) (n : Nat) (c : Option (Nat × Addr)) : (x.stalls n c).mpc = x.mpc := by unfold Thread.stalls; split <;> rfl
@[simp] theorem Thread.mcont_stalls (x : Thread) (n : Nat) (c : Option (Nat × Addr)) : (x.stalls n c).mcont = x.mcont := by unfold Thread.stalls; split <;> rfl
@[simp] theorem Thread.mrun_stalls (x : Thread) (n : Nat) (c : Option (Nat × Addr)) : (x.stalls n c).mrun = x.mrun := by unfold Thread.stalls; split <;> rfl
@[simp] theorem Thread.drawn_stalls (x : Thread) (n : Nat) (c : Option (Nat × Addr)) : (x.stalls n c).drawn = x.drawn := by unfold Thread.stalls; split <;> rfl
@[simp] theorem Thread.hreg_stalls (x : Thread) (n : Nat) (c : Option (Nat × Addr)) : (x.stalls n c).hreg = x.hreg := by unfold Thread.stalls; split <;> rfl
@[simp] theorem Thread.wait_stalls (x : Thread) (n : Nat) (c : Option (Nat × Addr)) : (x.stalls n c).wait = x.wait := by unfold Thread.stalls; split <;> rfl
@[simp] theorem Thread.retry_stalls (x : Thread) (n : Nat) (c : Option (Nat × Addr)) : (x.stalls n c).retry = x.retry := by unfold Thread.stalls; split <;> rfl
@[simp] theorem Thread.pend_stalls (x : Thread) (n : Nat) (c : Option (Nat × Addr)) : (x.stalls n c).pend = x.pend := by unfold Thread.stalls; split <;> rfl
@[simp] theorem Thread.defer_stalls (x : Thread) (n : Nat) (c : Option (Nat × Addr)) : (x.stalls n c).defer = x.defer := by unfold Thread.stalls; split <;> rfl
@[simp] theorem Thread.region_stalls (x : Thread) (n : Nat) (c : Option (Nat × Addr)) : (x.stalls n c).region = x.region := by unfold Thread.stalls; split <;> rfl
@[simp] theorem Thread.resv_stalls (x : Thread) (n : Nat) (c : Option (Nat × Addr)) : (x.stalls n c).resv = x.resv := by unfold Thread.stalls; split <;> rfl
@[simp] theorem Thread.rill_stalls (x : Thread) (n : Nat) (c : Option (Nat × Addr)) : (x.stalls n c).rill = x.rill := by unfold Thread.stalls; split <;> rfl
@[simp] theorem Thread.wdog_stalls (x : Thread) (n : Nat) (c : Option (Nat × Addr)) : (x.stalls n c).wdog = x.wdog := by unfold Thread.stalls; split <;> rfl
@[simp] theorem Thread.young_stalls (x : Thread) (n : Nat) (c : Option (Nat × Addr)) : (x.stalls n c).young = x.young := by unfold Thread.stalls; split <;> rfl
@[simp] theorem Thread.lvq_stalls (x : Thread) (n : Nat) (c : Option (Nat × Addr)) : (x.stalls n c).lvq = x.lvq := by unfold Thread.stalls; split <;> rfl
@[simp] theorem Thread.cmpq_stalls (x : Thread) (n : Nat) (c : Option (Nat × Addr)) : (x.stalls n c).cmpq = x.cmpq := by unfold Thread.stalls; split <;> rfl

/-! ### Updates of the state, field by field -/

@[simp] theorem State.cur_tickFresh (x : State) : (x.tickFresh).cur = x.cur := rfl
@[simp] theorem State.thr_tickFresh (x : State) : (x.tickFresh).thr = x.thr := rfl
@[simp] theorem State.ctx_tickFresh (x : State) : (x.tickFresh).ctx = x.ctx := rfl
@[simp] theorem State.tile_tickFresh (x : State) : (x.tickFresh).tile = x.tile := rfl
@[simp] theorem State.threads_tickFresh (x : State) : (x.tickFresh).threads = x.threads := rfl
@[simp] theorem State.ctxs_tickFresh (x : State) : (x.tickFresh).ctxs = x.ctxs := rfl
@[simp] theorem State.tiles_tickFresh (x : State) : (x.tickFresh).tiles = x.tiles := rfl
@[simp] theorem State.dies_tickFresh (x : State) : (x.tickFresh).dies = x.dies := rfl
@[simp] theorem State.agents_tickFresh (x : State) : (x.tickFresh).agents = x.agents := rfl
@[simp] theorem State.wbufs_tickFresh (x : State) : (x.tickFresh).wbufs = x.wbufs := rfl
@[simp] theorem State.mem_tickFresh (x : State) : (x.tickFresh).mem = x.mem := rfl
@[simp] theorem State.empty_tickFresh (x : State) : (x.tickFresh).empty = x.empty := rfl
@[simp] theorem State.poison_tickFresh (x : State) : (x.tickFresh).poison = x.poison := rfl
@[simp] theorem State.ues_tickFresh (x : State) : (x.tickFresh).ues = x.ues := rfl
@[simp] theorem State.filter_tickFresh (x : State) : (x.tickFresh).filter = x.filter := rfl
@[simp] theorem State.txns_tickFresh (x : State) : (x.tickFresh).txns = x.txns := rfl
@[simp] theorem State.homeq_tickFresh (x : State) : (x.tickFresh).homeq = x.homeq := rfl
@[simp] theorem State.resvq_tickFresh (x : State) : (x.tickFresh).resvq = x.resvq := rfl
@[simp] theorem State.hostWait_tickFresh (x : State) : (x.tickFresh).hostWait = x.hostWait := rfl
@[simp] theorem State.parts_tickFresh (x : State) : (x.tickFresh).parts = x.parts := rfl
@[simp] theorem State.cfg_tickFresh (x : State) : (x.tickFresh).cfg = x.cfg := rfl
@[simp] theorem State.msgs_tickFresh (x : State) : (x.tickFresh).msgs = x.msgs := rfl
@[simp] theorem State.narrows_tickFresh (x : State) : (x.tickFresh).narrows = x.narrows := rfl
@[simp] theorem State.away_tickFresh (x : State) : (x.tickFresh).away = x.away := rfl
@[simp] theorem State.reds_tickFresh (x : State) : (x.tickFresh).reds = x.reds := rfl
@[simp] theorem State.net_tickFresh (x : State) : (x.tickFresh).net = x.net := rfl
@[simp] theorem State.plumb_tickFresh (x : State) : (x.tickFresh).plumb = x.plumb := rfl
@[simp] theorem State.agenda_tickFresh (x : State) : (x.tickFresh).agenda = x.agenda := rfl
@[simp] theorem State.started_tickFresh (x : State) : (x.tickFresh).started = x.started := rfl
@[simp] theorem State.dieMask_tickFresh (x : State) : (x.tickFresh).dieMask = x.dieMask := rfl
@[simp] theorem State.absent_tickFresh (x : State) : (x.tickFresh).absent = x.absent := rfl
@[simp] theorem State.skipNow_tickFresh (x : State) : (x.tickFresh).skipNow = x.skipNow := rfl
@[simp] theorem State.stopped_tickFresh (x : State) : (x.tickFresh).stopped = x.stopped := rfl
@[simp] theorem State.capGen_tickFresh (x : State) : (x.tickFresh).capGen = x.capGen := rfl
@[simp] theorem State.domPos_tickFresh (x : State) : (x.tickFresh).domPos = x.domPos := rfl
@[simp] theorem State.members_tickFresh (x : State) : (x.tickFresh).members = x.members := rfl
@[simp] theorem State.lostParts_tickFresh (x : State) : (x.tickFresh).lostParts = x.lostParts := rfl
@[simp] theorem State.fabids_tickFresh (x : State) : (x.tickFresh).fabids = x.fabids := rfl
@[simp] theorem State.serial_tickFresh (x : State) : (x.tickFresh).serial = x.serial := rfl
@[simp] theorem State.lanes_tickFresh (x : State) : (x.tickFresh).lanes = x.lanes := rfl
@[simp] theorem State.portUp_tickFresh (x : State) : (x.tickFresh).portUp = x.portUp := rfl
@[simp] theorem State.portSpare_tickFresh (x : State) : (x.tickFresh).portSpare = x.portSpare := rfl
@[simp] theorem State.d2dUp_tickFresh (x : State) : (x.tickFresh).d2dUp = x.d2dUp := rfl
@[simp] theorem State.d2dWires_tickFresh (x : State) : (x.tickFresh).d2dWires = x.d2dWires := rfl
@[simp] theorem State.fence_tickFresh (x : State) : (x.tickFresh).fence = x.fence := rfl
@[simp] theorem State.casts_tickFresh (x : State) : (x.tickFresh).casts = x.casts := rfl
@[simp] theorem State.beats_tickFresh (x : State) : (x.tickFresh).beats = x.beats := rfl
@[simp] theorem State.accs_tickFresh (x : State) : (x.tickFresh).accs = x.accs := rfl
@[simp] theorem State.sunk_tickFresh (x : State) : (x.tickFresh).sunk = x.sunk := rfl
@[simp] theorem State.mbArg0_tickFresh (x : State) : (x.tickFresh).mbArg0 = x.mbArg0 := rfl
@[simp] theorem State.mbArg1_tickFresh (x : State) : (x.tickFresh).mbArg1 = x.mbArg1 := rfl
@[simp] theorem State.mbCmd_tickFresh (x : State) : (x.tickFresh).mbCmd = x.mbCmd := rfl
@[simp] theorem State.mbSt_tickFresh (x : State) : (x.tickFresh).mbSt = x.mbSt := rfl
@[simp] theorem State.mbErr_tickFresh (x : State) : (x.tickFresh).mbErr = x.mbErr := rfl
@[simp] theorem State.elcount_tickFresh (x : State) : (x.tickFresh).elcount = x.elcount := rfl
@[simp] theorem State.lastErr_tickFresh (x : State) : (x.tickFresh).lastErr = x.lastErr := rfl
@[simp] theorem State.buckets_tickFresh (x : State) : (x.tickFresh).buckets = x.buckets := rfl
@[simp] theorem State.leaks_tickFresh (x : State) : (x.tickFresh).leaks = x.leaks := rfl
@[simp] theorem State.throttle_tickFresh (x : State) : (x.tickFresh).throttle = x.throttle := rfl
@[simp] theorem State.acted_tickFresh (x : State) : (x.tickFresh).acted = x.acted := rfl
@[simp] theorem State.monActed_tickFresh (x : State) : (x.tickFresh).monActed = x.monActed := rfl
@[simp] theorem State.sdc_tickFresh (x : State) : (x.tickFresh).sdc = x.sdc := rfl
@[simp] theorem State.sdcAt_tickFresh (x : State) : (x.tickFresh).sdcAt = x.sdcAt := rfl
@[simp] theorem State.newest_tickFresh (x : State) : (x.tickFresh).newest = x.newest := rfl
@[simp] theorem State.store_tickFresh (x : State) : (x.tickFresh).store = x.store := rfl
@[simp] theorem State.older_tickFresh (x : State) : (x.tickFresh).older = x.older := rfl
@[simp] theorem State.olderOk_tickFresh (x : State) : (x.tickFresh).olderOk = x.olderOk := rfl
@[simp] theorem State.version_tickFresh (x : State) : (x.tickFresh).version = x.version := rfl
@[simp] theorem State.wants_tickFresh (x : State) : (x.tickFresh).wants = x.wants := rfl
@[simp] theorem State.fresh_tickFresh (x : State) : x.tickFresh.fresh = x.fresh + 1 := rfl

@[simp] theorem State.cur_begun (x : State) : (x.begun).cur = x.cur := rfl
@[simp] theorem State.ctx_begun (x : State) : (x.begun).ctx = x.ctx := rfl
@[simp] theorem State.tile_begun (x : State) : (x.begun).tile = x.tile := rfl
@[simp] theorem State.threads_begun (x : State) : (x.begun).threads = x.threads := rfl
@[simp] theorem State.ctxs_begun (x : State) : (x.begun).ctxs = x.ctxs := rfl
@[simp] theorem State.tiles_begun (x : State) : (x.begun).tiles = x.tiles := rfl
@[simp] theorem State.dies_begun (x : State) : (x.begun).dies = x.dies := rfl
@[simp] theorem State.agents_begun (x : State) : (x.begun).agents = x.agents := rfl
@[simp] theorem State.wbufs_begun (x : State) : (x.begun).wbufs = x.wbufs := rfl
@[simp] theorem State.mem_begun (x : State) : (x.begun).mem = x.mem := rfl
@[simp] theorem State.empty_begun (x : State) : (x.begun).empty = x.empty := rfl
@[simp] theorem State.poison_begun (x : State) : (x.begun).poison = x.poison := rfl
@[simp] theorem State.ues_begun (x : State) : (x.begun).ues = x.ues := rfl
@[simp] theorem State.filter_begun (x : State) : (x.begun).filter = x.filter := rfl
@[simp] theorem State.txns_begun (x : State) : (x.begun).txns = x.txns := rfl
@[simp] theorem State.homeq_begun (x : State) : (x.begun).homeq = x.homeq := rfl
@[simp] theorem State.resvq_begun (x : State) : (x.begun).resvq = x.resvq := rfl
@[simp] theorem State.hostWait_begun (x : State) : (x.begun).hostWait = x.hostWait := rfl
@[simp] theorem State.parts_begun (x : State) : (x.begun).parts = x.parts := rfl
@[simp] theorem State.cfg_begun (x : State) : (x.begun).cfg = x.cfg := rfl
@[simp] theorem State.msgs_begun (x : State) : (x.begun).msgs = x.msgs := rfl
@[simp] theorem State.narrows_begun (x : State) : (x.begun).narrows = x.narrows := rfl
@[simp] theorem State.away_begun (x : State) : (x.begun).away = x.away := rfl
@[simp] theorem State.reds_begun (x : State) : (x.begun).reds = x.reds := rfl
@[simp] theorem State.net_begun (x : State) : (x.begun).net = x.net := rfl
@[simp] theorem State.plumb_begun (x : State) : (x.begun).plumb = x.plumb := rfl
@[simp] theorem State.fresh_begun (x : State) : (x.begun).fresh = x.fresh := rfl
@[simp] theorem State.agenda_begun (x : State) : (x.begun).agenda = x.agenda := rfl
@[simp] theorem State.started_begun (x : State) : (x.begun).started = x.started := rfl
@[simp] theorem State.dieMask_begun (x : State) : (x.begun).dieMask = x.dieMask := rfl
@[simp] theorem State.absent_begun (x : State) : (x.begun).absent = x.absent := rfl
@[simp] theorem State.skipNow_begun (x : State) : (x.begun).skipNow = x.skipNow := rfl
@[simp] theorem State.stopped_begun (x : State) : (x.begun).stopped = x.stopped := rfl
@[simp] theorem State.capGen_begun (x : State) : (x.begun).capGen = x.capGen := rfl
@[simp] theorem State.domPos_begun (x : State) : (x.begun).domPos = x.domPos := rfl
@[simp] theorem State.members_begun (x : State) : (x.begun).members = x.members := rfl
@[simp] theorem State.lostParts_begun (x : State) : (x.begun).lostParts = x.lostParts := rfl
@[simp] theorem State.fabids_begun (x : State) : (x.begun).fabids = x.fabids := rfl
@[simp] theorem State.serial_begun (x : State) : (x.begun).serial = x.serial := rfl
@[simp] theorem State.lanes_begun (x : State) : (x.begun).lanes = x.lanes := rfl
@[simp] theorem State.portUp_begun (x : State) : (x.begun).portUp = x.portUp := rfl
@[simp] theorem State.portSpare_begun (x : State) : (x.begun).portSpare = x.portSpare := rfl
@[simp] theorem State.d2dUp_begun (x : State) : (x.begun).d2dUp = x.d2dUp := rfl
@[simp] theorem State.d2dWires_begun (x : State) : (x.begun).d2dWires = x.d2dWires := rfl
@[simp] theorem State.fence_begun (x : State) : (x.begun).fence = x.fence := rfl
@[simp] theorem State.casts_begun (x : State) : (x.begun).casts = x.casts := rfl
@[simp] theorem State.beats_begun (x : State) : (x.begun).beats = x.beats := rfl
@[simp] theorem State.accs_begun (x : State) : (x.begun).accs = x.accs := rfl
@[simp] theorem State.sunk_begun (x : State) : (x.begun).sunk = x.sunk := rfl
@[simp] theorem State.mbArg0_begun (x : State) : (x.begun).mbArg0 = x.mbArg0 := rfl
@[simp] theorem State.mbArg1_begun (x : State) : (x.begun).mbArg1 = x.mbArg1 := rfl
@[simp] theorem State.mbCmd_begun (x : State) : (x.begun).mbCmd = x.mbCmd := rfl
@[simp] theorem State.mbSt_begun (x : State) : (x.begun).mbSt = x.mbSt := rfl
@[simp] theorem State.mbErr_begun (x : State) : (x.begun).mbErr = x.mbErr := rfl
@[simp] theorem State.elcount_begun (x : State) : (x.begun).elcount = x.elcount := rfl
@[simp] theorem State.lastErr_begun (x : State) : (x.begun).lastErr = x.lastErr := rfl
@[simp] theorem State.buckets_begun (x : State) : (x.begun).buckets = x.buckets := rfl
@[simp] theorem State.leaks_begun (x : State) : (x.begun).leaks = x.leaks := rfl
@[simp] theorem State.throttle_begun (x : State) : (x.begun).throttle = x.throttle := rfl
@[simp] theorem State.acted_begun (x : State) : (x.begun).acted = x.acted := rfl
@[simp] theorem State.monActed_begun (x : State) : (x.begun).monActed = x.monActed := rfl
@[simp] theorem State.sdc_begun (x : State) : (x.begun).sdc = x.sdc := rfl
@[simp] theorem State.sdcAt_begun (x : State) : (x.begun).sdcAt = x.sdcAt := rfl
@[simp] theorem State.newest_begun (x : State) : (x.begun).newest = x.newest := rfl
@[simp] theorem State.store_begun (x : State) : (x.begun).store = x.store := rfl
@[simp] theorem State.older_begun (x : State) : (x.begun).older = x.older := rfl
@[simp] theorem State.olderOk_begun (x : State) : (x.begun).olderOk = x.olderOk := rfl
@[simp] theorem State.version_begun (x : State) : (x.begun).version = x.version := rfl
@[simp] theorem State.wants_begun (x : State) : (x.begun).wants = x.wants := rfl

@[simp] theorem State.cur_wr (x : State) (r : Reg) (v : Vec) : (x.wr r v).cur = x.cur := rfl
@[simp] theorem State.ctx_wr (x : State) (r : Reg) (v : Vec) : (x.wr r v).ctx = x.ctx := rfl
@[simp] theorem State.tile_wr (x : State) (r : Reg) (v : Vec) : (x.wr r v).tile = x.tile := rfl
@[simp] theorem State.threads_wr (x : State) (r : Reg) (v : Vec) : (x.wr r v).threads = x.threads := rfl
@[simp] theorem State.ctxs_wr (x : State) (r : Reg) (v : Vec) : (x.wr r v).ctxs = x.ctxs := rfl
@[simp] theorem State.tiles_wr (x : State) (r : Reg) (v : Vec) : (x.wr r v).tiles = x.tiles := rfl
@[simp] theorem State.dies_wr (x : State) (r : Reg) (v : Vec) : (x.wr r v).dies = x.dies := rfl
@[simp] theorem State.agents_wr (x : State) (r : Reg) (v : Vec) : (x.wr r v).agents = x.agents := rfl
@[simp] theorem State.wbufs_wr (x : State) (r : Reg) (v : Vec) : (x.wr r v).wbufs = x.wbufs := rfl
@[simp] theorem State.mem_wr (x : State) (r : Reg) (v : Vec) : (x.wr r v).mem = x.mem := rfl
@[simp] theorem State.empty_wr (x : State) (r : Reg) (v : Vec) : (x.wr r v).empty = x.empty := rfl
@[simp] theorem State.poison_wr (x : State) (r : Reg) (v : Vec) : (x.wr r v).poison = x.poison := rfl
@[simp] theorem State.ues_wr (x : State) (r : Reg) (v : Vec) : (x.wr r v).ues = x.ues := rfl
@[simp] theorem State.filter_wr (x : State) (r : Reg) (v : Vec) : (x.wr r v).filter = x.filter := rfl
@[simp] theorem State.txns_wr (x : State) (r : Reg) (v : Vec) : (x.wr r v).txns = x.txns := rfl
@[simp] theorem State.homeq_wr (x : State) (r : Reg) (v : Vec) : (x.wr r v).homeq = x.homeq := rfl
@[simp] theorem State.resvq_wr (x : State) (r : Reg) (v : Vec) : (x.wr r v).resvq = x.resvq := rfl
@[simp] theorem State.hostWait_wr (x : State) (r : Reg) (v : Vec) : (x.wr r v).hostWait = x.hostWait := rfl
@[simp] theorem State.parts_wr (x : State) (r : Reg) (v : Vec) : (x.wr r v).parts = x.parts := rfl
@[simp] theorem State.cfg_wr (x : State) (r : Reg) (v : Vec) : (x.wr r v).cfg = x.cfg := rfl
@[simp] theorem State.msgs_wr (x : State) (r : Reg) (v : Vec) : (x.wr r v).msgs = x.msgs := rfl
@[simp] theorem State.narrows_wr (x : State) (r : Reg) (v : Vec) : (x.wr r v).narrows = x.narrows := rfl
@[simp] theorem State.away_wr (x : State) (r : Reg) (v : Vec) : (x.wr r v).away = x.away := rfl
@[simp] theorem State.reds_wr (x : State) (r : Reg) (v : Vec) : (x.wr r v).reds = x.reds := rfl
@[simp] theorem State.net_wr (x : State) (r : Reg) (v : Vec) : (x.wr r v).net = x.net := rfl
@[simp] theorem State.plumb_wr (x : State) (r : Reg) (v : Vec) : (x.wr r v).plumb = x.plumb := rfl
@[simp] theorem State.fresh_wr (x : State) (r : Reg) (v : Vec) : (x.wr r v).fresh = x.fresh := rfl
@[simp] theorem State.agenda_wr (x : State) (r : Reg) (v : Vec) : (x.wr r v).agenda = x.agenda := rfl
@[simp] theorem State.started_wr (x : State) (r : Reg) (v : Vec) : (x.wr r v).started = x.started := rfl
@[simp] theorem State.dieMask_wr (x : State) (r : Reg) (v : Vec) : (x.wr r v).dieMask = x.dieMask := rfl
@[simp] theorem State.absent_wr (x : State) (r : Reg) (v : Vec) : (x.wr r v).absent = x.absent := rfl
@[simp] theorem State.skipNow_wr (x : State) (r : Reg) (v : Vec) : (x.wr r v).skipNow = x.skipNow := rfl
@[simp] theorem State.stopped_wr (x : State) (r : Reg) (v : Vec) : (x.wr r v).stopped = x.stopped := rfl
@[simp] theorem State.capGen_wr (x : State) (r : Reg) (v : Vec) : (x.wr r v).capGen = x.capGen := rfl
@[simp] theorem State.domPos_wr (x : State) (r : Reg) (v : Vec) : (x.wr r v).domPos = x.domPos := rfl
@[simp] theorem State.members_wr (x : State) (r : Reg) (v : Vec) : (x.wr r v).members = x.members := rfl
@[simp] theorem State.lostParts_wr (x : State) (r : Reg) (v : Vec) : (x.wr r v).lostParts = x.lostParts := rfl
@[simp] theorem State.fabids_wr (x : State) (r : Reg) (v : Vec) : (x.wr r v).fabids = x.fabids := rfl
@[simp] theorem State.serial_wr (x : State) (r : Reg) (v : Vec) : (x.wr r v).serial = x.serial := rfl
@[simp] theorem State.lanes_wr (x : State) (r : Reg) (v : Vec) : (x.wr r v).lanes = x.lanes := rfl
@[simp] theorem State.portUp_wr (x : State) (r : Reg) (v : Vec) : (x.wr r v).portUp = x.portUp := rfl
@[simp] theorem State.portSpare_wr (x : State) (r : Reg) (v : Vec) : (x.wr r v).portSpare = x.portSpare := rfl
@[simp] theorem State.d2dUp_wr (x : State) (r : Reg) (v : Vec) : (x.wr r v).d2dUp = x.d2dUp := rfl
@[simp] theorem State.d2dWires_wr (x : State) (r : Reg) (v : Vec) : (x.wr r v).d2dWires = x.d2dWires := rfl
@[simp] theorem State.fence_wr (x : State) (r : Reg) (v : Vec) : (x.wr r v).fence = x.fence := rfl
@[simp] theorem State.casts_wr (x : State) (r : Reg) (v : Vec) : (x.wr r v).casts = x.casts := rfl
@[simp] theorem State.beats_wr (x : State) (r : Reg) (v : Vec) : (x.wr r v).beats = x.beats := rfl
@[simp] theorem State.accs_wr (x : State) (r : Reg) (v : Vec) : (x.wr r v).accs = x.accs := rfl
@[simp] theorem State.sunk_wr (x : State) (r : Reg) (v : Vec) : (x.wr r v).sunk = x.sunk := rfl
@[simp] theorem State.mbArg0_wr (x : State) (r : Reg) (v : Vec) : (x.wr r v).mbArg0 = x.mbArg0 := rfl
@[simp] theorem State.mbArg1_wr (x : State) (r : Reg) (v : Vec) : (x.wr r v).mbArg1 = x.mbArg1 := rfl
@[simp] theorem State.mbCmd_wr (x : State) (r : Reg) (v : Vec) : (x.wr r v).mbCmd = x.mbCmd := rfl
@[simp] theorem State.mbSt_wr (x : State) (r : Reg) (v : Vec) : (x.wr r v).mbSt = x.mbSt := rfl
@[simp] theorem State.mbErr_wr (x : State) (r : Reg) (v : Vec) : (x.wr r v).mbErr = x.mbErr := rfl
@[simp] theorem State.elcount_wr (x : State) (r : Reg) (v : Vec) : (x.wr r v).elcount = x.elcount := rfl
@[simp] theorem State.lastErr_wr (x : State) (r : Reg) (v : Vec) : (x.wr r v).lastErr = x.lastErr := rfl
@[simp] theorem State.buckets_wr (x : State) (r : Reg) (v : Vec) : (x.wr r v).buckets = x.buckets := rfl
@[simp] theorem State.leaks_wr (x : State) (r : Reg) (v : Vec) : (x.wr r v).leaks = x.leaks := rfl
@[simp] theorem State.throttle_wr (x : State) (r : Reg) (v : Vec) : (x.wr r v).throttle = x.throttle := rfl
@[simp] theorem State.acted_wr (x : State) (r : Reg) (v : Vec) : (x.wr r v).acted = x.acted := rfl
@[simp] theorem State.monActed_wr (x : State) (r : Reg) (v : Vec) : (x.wr r v).monActed = x.monActed := rfl
@[simp] theorem State.sdc_wr (x : State) (r : Reg) (v : Vec) : (x.wr r v).sdc = x.sdc := rfl
@[simp] theorem State.sdcAt_wr (x : State) (r : Reg) (v : Vec) : (x.wr r v).sdcAt = x.sdcAt := rfl
@[simp] theorem State.newest_wr (x : State) (r : Reg) (v : Vec) : (x.wr r v).newest = x.newest := rfl
@[simp] theorem State.store_wr (x : State) (r : Reg) (v : Vec) : (x.wr r v).store = x.store := rfl
@[simp] theorem State.older_wr (x : State) (r : Reg) (v : Vec) : (x.wr r v).older = x.older := rfl
@[simp] theorem State.olderOk_wr (x : State) (r : Reg) (v : Vec) : (x.wr r v).olderOk = x.olderOk := rfl
@[simp] theorem State.version_wr (x : State) (r : Reg) (v : Vec) : (x.wr r v).version = x.version := rfl
@[simp] theorem State.wants_wr (x : State) (r : Reg) (v : Vec) : (x.wr r v).wants = x.wants := rfl
@[simp] theorem State.thr_wr (x : State) (r : Reg) (v : Vec) : (x.wr r v).thr = (x.thr.clobber r).setReg r v := rfl

@[simp] theorem State.cur_leave (x : State) (w : PendK) (ds : List (Reg × Vec)) (c : Option (Nat × Addr)) : (x.leave w ds c).cur = x.cur := rfl
@[simp] theorem State.ctx_leave (x : State) (w : PendK) (ds : List (Reg × Vec)) (c : Option (Nat × Addr)) : (x.leave w ds c).ctx = x.ctx := rfl
@[simp] theorem State.tile_leave (x : State) (w : PendK) (ds : List (Reg × Vec)) (c : Option (Nat × Addr)) : (x.leave w ds c).tile = x.tile := rfl
@[simp] theorem State.threads_leave (x : State) (w : PendK) (ds : List (Reg × Vec)) (c : Option (Nat × Addr)) : (x.leave w ds c).threads = x.threads := rfl
@[simp] theorem State.ctxs_leave (x : State) (w : PendK) (ds : List (Reg × Vec)) (c : Option (Nat × Addr)) : (x.leave w ds c).ctxs = x.ctxs := rfl
@[simp] theorem State.tiles_leave (x : State) (w : PendK) (ds : List (Reg × Vec)) (c : Option (Nat × Addr)) : (x.leave w ds c).tiles = x.tiles := rfl
@[simp] theorem State.dies_leave (x : State) (w : PendK) (ds : List (Reg × Vec)) (c : Option (Nat × Addr)) : (x.leave w ds c).dies = x.dies := rfl
@[simp] theorem State.agents_leave (x : State) (w : PendK) (ds : List (Reg × Vec)) (c : Option (Nat × Addr)) : (x.leave w ds c).agents = x.agents := rfl
@[simp] theorem State.wbufs_leave (x : State) (w : PendK) (ds : List (Reg × Vec)) (c : Option (Nat × Addr)) : (x.leave w ds c).wbufs = x.wbufs := rfl
@[simp] theorem State.mem_leave (x : State) (w : PendK) (ds : List (Reg × Vec)) (c : Option (Nat × Addr)) : (x.leave w ds c).mem = x.mem := rfl
@[simp] theorem State.empty_leave (x : State) (w : PendK) (ds : List (Reg × Vec)) (c : Option (Nat × Addr)) : (x.leave w ds c).empty = x.empty := rfl
@[simp] theorem State.poison_leave (x : State) (w : PendK) (ds : List (Reg × Vec)) (c : Option (Nat × Addr)) : (x.leave w ds c).poison = x.poison := rfl
@[simp] theorem State.ues_leave (x : State) (w : PendK) (ds : List (Reg × Vec)) (c : Option (Nat × Addr)) : (x.leave w ds c).ues = x.ues := rfl
@[simp] theorem State.filter_leave (x : State) (w : PendK) (ds : List (Reg × Vec)) (c : Option (Nat × Addr)) : (x.leave w ds c).filter = x.filter := rfl
@[simp] theorem State.txns_leave (x : State) (w : PendK) (ds : List (Reg × Vec)) (c : Option (Nat × Addr)) : (x.leave w ds c).txns = x.txns := rfl
@[simp] theorem State.homeq_leave (x : State) (w : PendK) (ds : List (Reg × Vec)) (c : Option (Nat × Addr)) : (x.leave w ds c).homeq = x.homeq := rfl
@[simp] theorem State.resvq_leave (x : State) (w : PendK) (ds : List (Reg × Vec)) (c : Option (Nat × Addr)) : (x.leave w ds c).resvq = x.resvq := rfl
@[simp] theorem State.hostWait_leave (x : State) (w : PendK) (ds : List (Reg × Vec)) (c : Option (Nat × Addr)) : (x.leave w ds c).hostWait = x.hostWait := rfl
@[simp] theorem State.parts_leave (x : State) (w : PendK) (ds : List (Reg × Vec)) (c : Option (Nat × Addr)) : (x.leave w ds c).parts = x.parts := rfl
@[simp] theorem State.cfg_leave (x : State) (w : PendK) (ds : List (Reg × Vec)) (c : Option (Nat × Addr)) : (x.leave w ds c).cfg = x.cfg := rfl
@[simp] theorem State.msgs_leave (x : State) (w : PendK) (ds : List (Reg × Vec)) (c : Option (Nat × Addr)) : (x.leave w ds c).msgs = x.msgs := rfl
@[simp] theorem State.narrows_leave (x : State) (w : PendK) (ds : List (Reg × Vec)) (c : Option (Nat × Addr)) : (x.leave w ds c).narrows = x.narrows := rfl
@[simp] theorem State.away_leave (x : State) (w : PendK) (ds : List (Reg × Vec)) (c : Option (Nat × Addr)) : (x.leave w ds c).away = x.away := rfl
@[simp] theorem State.reds_leave (x : State) (w : PendK) (ds : List (Reg × Vec)) (c : Option (Nat × Addr)) : (x.leave w ds c).reds = x.reds := rfl
@[simp] theorem State.net_leave (x : State) (w : PendK) (ds : List (Reg × Vec)) (c : Option (Nat × Addr)) : (x.leave w ds c).net = x.net := rfl
@[simp] theorem State.plumb_leave (x : State) (w : PendK) (ds : List (Reg × Vec)) (c : Option (Nat × Addr)) : (x.leave w ds c).plumb = x.plumb := rfl
@[simp] theorem State.fresh_leave (x : State) (w : PendK) (ds : List (Reg × Vec)) (c : Option (Nat × Addr)) : (x.leave w ds c).fresh = x.fresh := rfl
@[simp] theorem State.agenda_leave (x : State) (w : PendK) (ds : List (Reg × Vec)) (c : Option (Nat × Addr)) : (x.leave w ds c).agenda = x.agenda := rfl
@[simp] theorem State.started_leave (x : State) (w : PendK) (ds : List (Reg × Vec)) (c : Option (Nat × Addr)) : (x.leave w ds c).started = x.started := rfl
@[simp] theorem State.dieMask_leave (x : State) (w : PendK) (ds : List (Reg × Vec)) (c : Option (Nat × Addr)) : (x.leave w ds c).dieMask = x.dieMask := rfl
@[simp] theorem State.absent_leave (x : State) (w : PendK) (ds : List (Reg × Vec)) (c : Option (Nat × Addr)) : (x.leave w ds c).absent = x.absent := rfl
@[simp] theorem State.skipNow_leave (x : State) (w : PendK) (ds : List (Reg × Vec)) (c : Option (Nat × Addr)) : (x.leave w ds c).skipNow = x.skipNow := rfl
@[simp] theorem State.stopped_leave (x : State) (w : PendK) (ds : List (Reg × Vec)) (c : Option (Nat × Addr)) : (x.leave w ds c).stopped = x.stopped := rfl
@[simp] theorem State.capGen_leave (x : State) (w : PendK) (ds : List (Reg × Vec)) (c : Option (Nat × Addr)) : (x.leave w ds c).capGen = x.capGen := rfl
@[simp] theorem State.domPos_leave (x : State) (w : PendK) (ds : List (Reg × Vec)) (c : Option (Nat × Addr)) : (x.leave w ds c).domPos = x.domPos := rfl
@[simp] theorem State.members_leave (x : State) (w : PendK) (ds : List (Reg × Vec)) (c : Option (Nat × Addr)) : (x.leave w ds c).members = x.members := rfl
@[simp] theorem State.lostParts_leave (x : State) (w : PendK) (ds : List (Reg × Vec)) (c : Option (Nat × Addr)) : (x.leave w ds c).lostParts = x.lostParts := rfl
@[simp] theorem State.fabids_leave (x : State) (w : PendK) (ds : List (Reg × Vec)) (c : Option (Nat × Addr)) : (x.leave w ds c).fabids = x.fabids := rfl
@[simp] theorem State.serial_leave (x : State) (w : PendK) (ds : List (Reg × Vec)) (c : Option (Nat × Addr)) : (x.leave w ds c).serial = x.serial := rfl
@[simp] theorem State.lanes_leave (x : State) (w : PendK) (ds : List (Reg × Vec)) (c : Option (Nat × Addr)) : (x.leave w ds c).lanes = x.lanes := rfl
@[simp] theorem State.portUp_leave (x : State) (w : PendK) (ds : List (Reg × Vec)) (c : Option (Nat × Addr)) : (x.leave w ds c).portUp = x.portUp := rfl
@[simp] theorem State.portSpare_leave (x : State) (w : PendK) (ds : List (Reg × Vec)) (c : Option (Nat × Addr)) : (x.leave w ds c).portSpare = x.portSpare := rfl
@[simp] theorem State.d2dUp_leave (x : State) (w : PendK) (ds : List (Reg × Vec)) (c : Option (Nat × Addr)) : (x.leave w ds c).d2dUp = x.d2dUp := rfl
@[simp] theorem State.d2dWires_leave (x : State) (w : PendK) (ds : List (Reg × Vec)) (c : Option (Nat × Addr)) : (x.leave w ds c).d2dWires = x.d2dWires := rfl
@[simp] theorem State.fence_leave (x : State) (w : PendK) (ds : List (Reg × Vec)) (c : Option (Nat × Addr)) : (x.leave w ds c).fence = x.fence := rfl
@[simp] theorem State.casts_leave (x : State) (w : PendK) (ds : List (Reg × Vec)) (c : Option (Nat × Addr)) : (x.leave w ds c).casts = x.casts := rfl
@[simp] theorem State.beats_leave (x : State) (w : PendK) (ds : List (Reg × Vec)) (c : Option (Nat × Addr)) : (x.leave w ds c).beats = x.beats := rfl
@[simp] theorem State.accs_leave (x : State) (w : PendK) (ds : List (Reg × Vec)) (c : Option (Nat × Addr)) : (x.leave w ds c).accs = x.accs := rfl
@[simp] theorem State.sunk_leave (x : State) (w : PendK) (ds : List (Reg × Vec)) (c : Option (Nat × Addr)) : (x.leave w ds c).sunk = x.sunk := rfl
@[simp] theorem State.mbArg0_leave (x : State) (w : PendK) (ds : List (Reg × Vec)) (c : Option (Nat × Addr)) : (x.leave w ds c).mbArg0 = x.mbArg0 := rfl
@[simp] theorem State.mbArg1_leave (x : State) (w : PendK) (ds : List (Reg × Vec)) (c : Option (Nat × Addr)) : (x.leave w ds c).mbArg1 = x.mbArg1 := rfl
@[simp] theorem State.mbCmd_leave (x : State) (w : PendK) (ds : List (Reg × Vec)) (c : Option (Nat × Addr)) : (x.leave w ds c).mbCmd = x.mbCmd := rfl
@[simp] theorem State.mbSt_leave (x : State) (w : PendK) (ds : List (Reg × Vec)) (c : Option (Nat × Addr)) : (x.leave w ds c).mbSt = x.mbSt := rfl
@[simp] theorem State.mbErr_leave (x : State) (w : PendK) (ds : List (Reg × Vec)) (c : Option (Nat × Addr)) : (x.leave w ds c).mbErr = x.mbErr := rfl
@[simp] theorem State.elcount_leave (x : State) (w : PendK) (ds : List (Reg × Vec)) (c : Option (Nat × Addr)) : (x.leave w ds c).elcount = x.elcount := rfl
@[simp] theorem State.lastErr_leave (x : State) (w : PendK) (ds : List (Reg × Vec)) (c : Option (Nat × Addr)) : (x.leave w ds c).lastErr = x.lastErr := rfl
@[simp] theorem State.buckets_leave (x : State) (w : PendK) (ds : List (Reg × Vec)) (c : Option (Nat × Addr)) : (x.leave w ds c).buckets = x.buckets := rfl
@[simp] theorem State.leaks_leave (x : State) (w : PendK) (ds : List (Reg × Vec)) (c : Option (Nat × Addr)) : (x.leave w ds c).leaks = x.leaks := rfl
@[simp] theorem State.throttle_leave (x : State) (w : PendK) (ds : List (Reg × Vec)) (c : Option (Nat × Addr)) : (x.leave w ds c).throttle = x.throttle := rfl
@[simp] theorem State.acted_leave (x : State) (w : PendK) (ds : List (Reg × Vec)) (c : Option (Nat × Addr)) : (x.leave w ds c).acted = x.acted := rfl
@[simp] theorem State.monActed_leave (x : State) (w : PendK) (ds : List (Reg × Vec)) (c : Option (Nat × Addr)) : (x.leave w ds c).monActed = x.monActed := rfl
@[simp] theorem State.sdc_leave (x : State) (w : PendK) (ds : List (Reg × Vec)) (c : Option (Nat × Addr)) : (x.leave w ds c).sdc = x.sdc := rfl
@[simp] theorem State.sdcAt_leave (x : State) (w : PendK) (ds : List (Reg × Vec)) (c : Option (Nat × Addr)) : (x.leave w ds c).sdcAt = x.sdcAt := rfl
@[simp] theorem State.newest_leave (x : State) (w : PendK) (ds : List (Reg × Vec)) (c : Option (Nat × Addr)) : (x.leave w ds c).newest = x.newest := rfl
@[simp] theorem State.store_leave (x : State) (w : PendK) (ds : List (Reg × Vec)) (c : Option (Nat × Addr)) : (x.leave w ds c).store = x.store := rfl
@[simp] theorem State.older_leave (x : State) (w : PendK) (ds : List (Reg × Vec)) (c : Option (Nat × Addr)) : (x.leave w ds c).older = x.older := rfl
@[simp] theorem State.olderOk_leave (x : State) (w : PendK) (ds : List (Reg × Vec)) (c : Option (Nat × Addr)) : (x.leave w ds c).olderOk = x.olderOk := rfl
@[simp] theorem State.version_leave (x : State) (w : PendK) (ds : List (Reg × Vec)) (c : Option (Nat × Addr)) : (x.leave w ds c).version = x.version := rfl
@[simp] theorem State.wants_leave (x : State) (w : PendK) (ds : List (Reg × Vec)) (c : Option (Nat × Addr)) : (x.leave w ds c).wants = x.wants := rfl

@[simp] theorem State.cur_leaveLoad (x : State) (ds : List (Reg × Vec)) (c : Option (Nat × Addr)) (u : Option Unbound) : (x.leaveLoad ds c u).cur = x.cur := by cases u <;> rfl
@[simp] theorem State.ctx_leaveLoad (x : State) (ds : List (Reg × Vec)) (c : Option (Nat × Addr)) (u : Option Unbound) : (x.leaveLoad ds c u).ctx = x.ctx := by cases u <;> rfl
@[simp] theorem State.tile_leaveLoad (x : State) (ds : List (Reg × Vec)) (c : Option (Nat × Addr)) (u : Option Unbound) : (x.leaveLoad ds c u).tile = x.tile := by cases u <;> rfl
@[simp] theorem State.threads_leaveLoad (x : State) (ds : List (Reg × Vec)) (c : Option (Nat × Addr)) (u : Option Unbound) : (x.leaveLoad ds c u).threads = x.threads := by cases u <;> rfl
@[simp] theorem State.ctxs_leaveLoad (x : State) (ds : List (Reg × Vec)) (c : Option (Nat × Addr)) (u : Option Unbound) : (x.leaveLoad ds c u).ctxs = x.ctxs := by cases u <;> rfl
@[simp] theorem State.tiles_leaveLoad (x : State) (ds : List (Reg × Vec)) (c : Option (Nat × Addr)) (u : Option Unbound) : (x.leaveLoad ds c u).tiles = x.tiles := by cases u <;> rfl
@[simp] theorem State.dies_leaveLoad (x : State) (ds : List (Reg × Vec)) (c : Option (Nat × Addr)) (u : Option Unbound) : (x.leaveLoad ds c u).dies = x.dies := by cases u <;> rfl
@[simp] theorem State.agents_leaveLoad (x : State) (ds : List (Reg × Vec)) (c : Option (Nat × Addr)) (u : Option Unbound) : (x.leaveLoad ds c u).agents = x.agents := by cases u <;> rfl
@[simp] theorem State.wbufs_leaveLoad (x : State) (ds : List (Reg × Vec)) (c : Option (Nat × Addr)) (u : Option Unbound) : (x.leaveLoad ds c u).wbufs = x.wbufs := by cases u <;> rfl
@[simp] theorem State.mem_leaveLoad (x : State) (ds : List (Reg × Vec)) (c : Option (Nat × Addr)) (u : Option Unbound) : (x.leaveLoad ds c u).mem = x.mem := by cases u <;> rfl
@[simp] theorem State.empty_leaveLoad (x : State) (ds : List (Reg × Vec)) (c : Option (Nat × Addr)) (u : Option Unbound) : (x.leaveLoad ds c u).empty = x.empty := by cases u <;> rfl
@[simp] theorem State.poison_leaveLoad (x : State) (ds : List (Reg × Vec)) (c : Option (Nat × Addr)) (u : Option Unbound) : (x.leaveLoad ds c u).poison = x.poison := by cases u <;> rfl
@[simp] theorem State.ues_leaveLoad (x : State) (ds : List (Reg × Vec)) (c : Option (Nat × Addr)) (u : Option Unbound) : (x.leaveLoad ds c u).ues = x.ues := by cases u <;> rfl
@[simp] theorem State.filter_leaveLoad (x : State) (ds : List (Reg × Vec)) (c : Option (Nat × Addr)) (u : Option Unbound) : (x.leaveLoad ds c u).filter = x.filter := by cases u <;> rfl
@[simp] theorem State.txns_leaveLoad (x : State) (ds : List (Reg × Vec)) (c : Option (Nat × Addr)) (u : Option Unbound) : (x.leaveLoad ds c u).txns = x.txns := by cases u <;> rfl
@[simp] theorem State.homeq_leaveLoad (x : State) (ds : List (Reg × Vec)) (c : Option (Nat × Addr)) (u : Option Unbound) : (x.leaveLoad ds c u).homeq = x.homeq := by cases u <;> rfl
@[simp] theorem State.resvq_leaveLoad (x : State) (ds : List (Reg × Vec)) (c : Option (Nat × Addr)) (u : Option Unbound) : (x.leaveLoad ds c u).resvq = x.resvq := by cases u <;> rfl
@[simp] theorem State.hostWait_leaveLoad (x : State) (ds : List (Reg × Vec)) (c : Option (Nat × Addr)) (u : Option Unbound) : (x.leaveLoad ds c u).hostWait = x.hostWait := by cases u <;> rfl
@[simp] theorem State.parts_leaveLoad (x : State) (ds : List (Reg × Vec)) (c : Option (Nat × Addr)) (u : Option Unbound) : (x.leaveLoad ds c u).parts = x.parts := by cases u <;> rfl
@[simp] theorem State.cfg_leaveLoad (x : State) (ds : List (Reg × Vec)) (c : Option (Nat × Addr)) (u : Option Unbound) : (x.leaveLoad ds c u).cfg = x.cfg := by cases u <;> rfl
@[simp] theorem State.msgs_leaveLoad (x : State) (ds : List (Reg × Vec)) (c : Option (Nat × Addr)) (u : Option Unbound) : (x.leaveLoad ds c u).msgs = x.msgs := by cases u <;> rfl
@[simp] theorem State.narrows_leaveLoad (x : State) (ds : List (Reg × Vec)) (c : Option (Nat × Addr)) (u : Option Unbound) : (x.leaveLoad ds c u).narrows = x.narrows := by cases u <;> rfl
@[simp] theorem State.away_leaveLoad (x : State) (ds : List (Reg × Vec)) (c : Option (Nat × Addr)) (u : Option Unbound) : (x.leaveLoad ds c u).away = x.away := by cases u <;> rfl
@[simp] theorem State.reds_leaveLoad (x : State) (ds : List (Reg × Vec)) (c : Option (Nat × Addr)) (u : Option Unbound) : (x.leaveLoad ds c u).reds = x.reds := by cases u <;> rfl
@[simp] theorem State.net_leaveLoad (x : State) (ds : List (Reg × Vec)) (c : Option (Nat × Addr)) (u : Option Unbound) : (x.leaveLoad ds c u).net = x.net := by cases u <;> rfl
@[simp] theorem State.plumb_leaveLoad (x : State) (ds : List (Reg × Vec)) (c : Option (Nat × Addr)) (u : Option Unbound) : (x.leaveLoad ds c u).plumb = x.plumb := by cases u <;> rfl
@[simp] theorem State.fresh_leaveLoad (x : State) (ds : List (Reg × Vec)) (c : Option (Nat × Addr)) (u : Option Unbound) : (x.leaveLoad ds c u).fresh = x.fresh := by cases u <;> rfl
@[simp] theorem State.agenda_leaveLoad (x : State) (ds : List (Reg × Vec)) (c : Option (Nat × Addr)) (u : Option Unbound) : (x.leaveLoad ds c u).agenda = x.agenda := by cases u <;> rfl
@[simp] theorem State.started_leaveLoad (x : State) (ds : List (Reg × Vec)) (c : Option (Nat × Addr)) (u : Option Unbound) : (x.leaveLoad ds c u).started = x.started := by cases u <;> rfl
@[simp] theorem State.dieMask_leaveLoad (x : State) (ds : List (Reg × Vec)) (c : Option (Nat × Addr)) (u : Option Unbound) : (x.leaveLoad ds c u).dieMask = x.dieMask := by cases u <;> rfl
@[simp] theorem State.absent_leaveLoad (x : State) (ds : List (Reg × Vec)) (c : Option (Nat × Addr)) (u : Option Unbound) : (x.leaveLoad ds c u).absent = x.absent := by cases u <;> rfl
@[simp] theorem State.skipNow_leaveLoad (x : State) (ds : List (Reg × Vec)) (c : Option (Nat × Addr)) (u : Option Unbound) : (x.leaveLoad ds c u).skipNow = x.skipNow := by cases u <;> rfl
@[simp] theorem State.stopped_leaveLoad (x : State) (ds : List (Reg × Vec)) (c : Option (Nat × Addr)) (u : Option Unbound) : (x.leaveLoad ds c u).stopped = x.stopped := by cases u <;> rfl
@[simp] theorem State.capGen_leaveLoad (x : State) (ds : List (Reg × Vec)) (c : Option (Nat × Addr)) (u : Option Unbound) : (x.leaveLoad ds c u).capGen = x.capGen := by cases u <;> rfl
@[simp] theorem State.domPos_leaveLoad (x : State) (ds : List (Reg × Vec)) (c : Option (Nat × Addr)) (u : Option Unbound) : (x.leaveLoad ds c u).domPos = x.domPos := by cases u <;> rfl
@[simp] theorem State.members_leaveLoad (x : State) (ds : List (Reg × Vec)) (c : Option (Nat × Addr)) (u : Option Unbound) : (x.leaveLoad ds c u).members = x.members := by cases u <;> rfl
@[simp] theorem State.lostParts_leaveLoad (x : State) (ds : List (Reg × Vec)) (c : Option (Nat × Addr)) (u : Option Unbound) : (x.leaveLoad ds c u).lostParts = x.lostParts := by cases u <;> rfl
@[simp] theorem State.fabids_leaveLoad (x : State) (ds : List (Reg × Vec)) (c : Option (Nat × Addr)) (u : Option Unbound) : (x.leaveLoad ds c u).fabids = x.fabids := by cases u <;> rfl
@[simp] theorem State.serial_leaveLoad (x : State) (ds : List (Reg × Vec)) (c : Option (Nat × Addr)) (u : Option Unbound) : (x.leaveLoad ds c u).serial = x.serial := by cases u <;> rfl
@[simp] theorem State.lanes_leaveLoad (x : State) (ds : List (Reg × Vec)) (c : Option (Nat × Addr)) (u : Option Unbound) : (x.leaveLoad ds c u).lanes = x.lanes := by cases u <;> rfl
@[simp] theorem State.portUp_leaveLoad (x : State) (ds : List (Reg × Vec)) (c : Option (Nat × Addr)) (u : Option Unbound) : (x.leaveLoad ds c u).portUp = x.portUp := by cases u <;> rfl
@[simp] theorem State.portSpare_leaveLoad (x : State) (ds : List (Reg × Vec)) (c : Option (Nat × Addr)) (u : Option Unbound) : (x.leaveLoad ds c u).portSpare = x.portSpare := by cases u <;> rfl
@[simp] theorem State.d2dUp_leaveLoad (x : State) (ds : List (Reg × Vec)) (c : Option (Nat × Addr)) (u : Option Unbound) : (x.leaveLoad ds c u).d2dUp = x.d2dUp := by cases u <;> rfl
@[simp] theorem State.d2dWires_leaveLoad (x : State) (ds : List (Reg × Vec)) (c : Option (Nat × Addr)) (u : Option Unbound) : (x.leaveLoad ds c u).d2dWires = x.d2dWires := by cases u <;> rfl
@[simp] theorem State.fence_leaveLoad (x : State) (ds : List (Reg × Vec)) (c : Option (Nat × Addr)) (u : Option Unbound) : (x.leaveLoad ds c u).fence = x.fence := by cases u <;> rfl
@[simp] theorem State.casts_leaveLoad (x : State) (ds : List (Reg × Vec)) (c : Option (Nat × Addr)) (u : Option Unbound) : (x.leaveLoad ds c u).casts = x.casts := by cases u <;> rfl
@[simp] theorem State.beats_leaveLoad (x : State) (ds : List (Reg × Vec)) (c : Option (Nat × Addr)) (u : Option Unbound) : (x.leaveLoad ds c u).beats = x.beats := by cases u <;> rfl
@[simp] theorem State.accs_leaveLoad (x : State) (ds : List (Reg × Vec)) (c : Option (Nat × Addr)) (u : Option Unbound) : (x.leaveLoad ds c u).accs = x.accs := by cases u <;> rfl
@[simp] theorem State.sunk_leaveLoad (x : State) (ds : List (Reg × Vec)) (c : Option (Nat × Addr)) (u : Option Unbound) : (x.leaveLoad ds c u).sunk = x.sunk := by cases u <;> rfl
@[simp] theorem State.mbArg0_leaveLoad (x : State) (ds : List (Reg × Vec)) (c : Option (Nat × Addr)) (u : Option Unbound) : (x.leaveLoad ds c u).mbArg0 = x.mbArg0 := by cases u <;> rfl
@[simp] theorem State.mbArg1_leaveLoad (x : State) (ds : List (Reg × Vec)) (c : Option (Nat × Addr)) (u : Option Unbound) : (x.leaveLoad ds c u).mbArg1 = x.mbArg1 := by cases u <;> rfl
@[simp] theorem State.mbCmd_leaveLoad (x : State) (ds : List (Reg × Vec)) (c : Option (Nat × Addr)) (u : Option Unbound) : (x.leaveLoad ds c u).mbCmd = x.mbCmd := by cases u <;> rfl
@[simp] theorem State.mbSt_leaveLoad (x : State) (ds : List (Reg × Vec)) (c : Option (Nat × Addr)) (u : Option Unbound) : (x.leaveLoad ds c u).mbSt = x.mbSt := by cases u <;> rfl
@[simp] theorem State.mbErr_leaveLoad (x : State) (ds : List (Reg × Vec)) (c : Option (Nat × Addr)) (u : Option Unbound) : (x.leaveLoad ds c u).mbErr = x.mbErr := by cases u <;> rfl
@[simp] theorem State.elcount_leaveLoad (x : State) (ds : List (Reg × Vec)) (c : Option (Nat × Addr)) (u : Option Unbound) : (x.leaveLoad ds c u).elcount = x.elcount := by cases u <;> rfl
@[simp] theorem State.lastErr_leaveLoad (x : State) (ds : List (Reg × Vec)) (c : Option (Nat × Addr)) (u : Option Unbound) : (x.leaveLoad ds c u).lastErr = x.lastErr := by cases u <;> rfl
@[simp] theorem State.buckets_leaveLoad (x : State) (ds : List (Reg × Vec)) (c : Option (Nat × Addr)) (u : Option Unbound) : (x.leaveLoad ds c u).buckets = x.buckets := by cases u <;> rfl
@[simp] theorem State.leaks_leaveLoad (x : State) (ds : List (Reg × Vec)) (c : Option (Nat × Addr)) (u : Option Unbound) : (x.leaveLoad ds c u).leaks = x.leaks := by cases u <;> rfl
@[simp] theorem State.throttle_leaveLoad (x : State) (ds : List (Reg × Vec)) (c : Option (Nat × Addr)) (u : Option Unbound) : (x.leaveLoad ds c u).throttle = x.throttle := by cases u <;> rfl
@[simp] theorem State.acted_leaveLoad (x : State) (ds : List (Reg × Vec)) (c : Option (Nat × Addr)) (u : Option Unbound) : (x.leaveLoad ds c u).acted = x.acted := by cases u <;> rfl
@[simp] theorem State.monActed_leaveLoad (x : State) (ds : List (Reg × Vec)) (c : Option (Nat × Addr)) (u : Option Unbound) : (x.leaveLoad ds c u).monActed = x.monActed := by cases u <;> rfl
@[simp] theorem State.sdc_leaveLoad (x : State) (ds : List (Reg × Vec)) (c : Option (Nat × Addr)) (u : Option Unbound) : (x.leaveLoad ds c u).sdc = x.sdc := by cases u <;> rfl
@[simp] theorem State.sdcAt_leaveLoad (x : State) (ds : List (Reg × Vec)) (c : Option (Nat × Addr)) (u : Option Unbound) : (x.leaveLoad ds c u).sdcAt = x.sdcAt := by cases u <;> rfl
@[simp] theorem State.newest_leaveLoad (x : State) (ds : List (Reg × Vec)) (c : Option (Nat × Addr)) (u : Option Unbound) : (x.leaveLoad ds c u).newest = x.newest := by cases u <;> rfl
@[simp] theorem State.store_leaveLoad (x : State) (ds : List (Reg × Vec)) (c : Option (Nat × Addr)) (u : Option Unbound) : (x.leaveLoad ds c u).store = x.store := by cases u <;> rfl
@[simp] theorem State.older_leaveLoad (x : State) (ds : List (Reg × Vec)) (c : Option (Nat × Addr)) (u : Option Unbound) : (x.leaveLoad ds c u).older = x.older := by cases u <;> rfl
@[simp] theorem State.olderOk_leaveLoad (x : State) (ds : List (Reg × Vec)) (c : Option (Nat × Addr)) (u : Option Unbound) : (x.leaveLoad ds c u).olderOk = x.olderOk := by cases u <;> rfl
@[simp] theorem State.version_leaveLoad (x : State) (ds : List (Reg × Vec)) (c : Option (Nat × Addr)) (u : Option Unbound) : (x.leaveLoad ds c u).version = x.version := by cases u <;> rfl
@[simp] theorem State.wants_leaveLoad (x : State) (ds : List (Reg × Vec)) (c : Option (Nat × Addr)) (u : Option Unbound) : (x.leaveLoad ds c u).wants = x.wants := by cases u <;> rfl

@[simp] theorem State.cur_moved (x : State) (f : Loops × Addr) : (x.moved f).cur = x.cur := rfl
@[simp] theorem State.ctx_moved (x : State) (f : Loops × Addr) : (x.moved f).ctx = x.ctx := rfl
@[simp] theorem State.tile_moved (x : State) (f : Loops × Addr) : (x.moved f).tile = x.tile := rfl
@[simp] theorem State.threads_moved (x : State) (f : Loops × Addr) : (x.moved f).threads = x.threads := rfl
@[simp] theorem State.ctxs_moved (x : State) (f : Loops × Addr) : (x.moved f).ctxs = x.ctxs := rfl
@[simp] theorem State.tiles_moved (x : State) (f : Loops × Addr) : (x.moved f).tiles = x.tiles := rfl
@[simp] theorem State.dies_moved (x : State) (f : Loops × Addr) : (x.moved f).dies = x.dies := rfl
@[simp] theorem State.agents_moved (x : State) (f : Loops × Addr) : (x.moved f).agents = x.agents := rfl
@[simp] theorem State.wbufs_moved (x : State) (f : Loops × Addr) : (x.moved f).wbufs = x.wbufs := rfl
@[simp] theorem State.mem_moved (x : State) (f : Loops × Addr) : (x.moved f).mem = x.mem := rfl
@[simp] theorem State.empty_moved (x : State) (f : Loops × Addr) : (x.moved f).empty = x.empty := rfl
@[simp] theorem State.poison_moved (x : State) (f : Loops × Addr) : (x.moved f).poison = x.poison := rfl
@[simp] theorem State.ues_moved (x : State) (f : Loops × Addr) : (x.moved f).ues = x.ues := rfl
@[simp] theorem State.filter_moved (x : State) (f : Loops × Addr) : (x.moved f).filter = x.filter := rfl
@[simp] theorem State.txns_moved (x : State) (f : Loops × Addr) : (x.moved f).txns = x.txns := rfl
@[simp] theorem State.homeq_moved (x : State) (f : Loops × Addr) : (x.moved f).homeq = x.homeq := rfl
@[simp] theorem State.resvq_moved (x : State) (f : Loops × Addr) : (x.moved f).resvq = x.resvq := rfl
@[simp] theorem State.hostWait_moved (x : State) (f : Loops × Addr) : (x.moved f).hostWait = x.hostWait := rfl
@[simp] theorem State.parts_moved (x : State) (f : Loops × Addr) : (x.moved f).parts = x.parts := rfl
@[simp] theorem State.cfg_moved (x : State) (f : Loops × Addr) : (x.moved f).cfg = x.cfg := rfl
@[simp] theorem State.msgs_moved (x : State) (f : Loops × Addr) : (x.moved f).msgs = x.msgs := rfl
@[simp] theorem State.narrows_moved (x : State) (f : Loops × Addr) : (x.moved f).narrows = x.narrows := rfl
@[simp] theorem State.away_moved (x : State) (f : Loops × Addr) : (x.moved f).away = x.away := rfl
@[simp] theorem State.reds_moved (x : State) (f : Loops × Addr) : (x.moved f).reds = x.reds := rfl
@[simp] theorem State.net_moved (x : State) (f : Loops × Addr) : (x.moved f).net = x.net := rfl
@[simp] theorem State.plumb_moved (x : State) (f : Loops × Addr) : (x.moved f).plumb = x.plumb := rfl
@[simp] theorem State.agenda_moved (x : State) (f : Loops × Addr) : (x.moved f).agenda = x.agenda := rfl
@[simp] theorem State.started_moved (x : State) (f : Loops × Addr) : (x.moved f).started = x.started := rfl
@[simp] theorem State.dieMask_moved (x : State) (f : Loops × Addr) : (x.moved f).dieMask = x.dieMask := rfl
@[simp] theorem State.absent_moved (x : State) (f : Loops × Addr) : (x.moved f).absent = x.absent := rfl
@[simp] theorem State.skipNow_moved (x : State) (f : Loops × Addr) : (x.moved f).skipNow = x.skipNow := rfl
@[simp] theorem State.stopped_moved (x : State) (f : Loops × Addr) : (x.moved f).stopped = x.stopped := rfl
@[simp] theorem State.capGen_moved (x : State) (f : Loops × Addr) : (x.moved f).capGen = x.capGen := rfl
@[simp] theorem State.domPos_moved (x : State) (f : Loops × Addr) : (x.moved f).domPos = x.domPos := rfl
@[simp] theorem State.members_moved (x : State) (f : Loops × Addr) : (x.moved f).members = x.members := rfl
@[simp] theorem State.lostParts_moved (x : State) (f : Loops × Addr) : (x.moved f).lostParts = x.lostParts := rfl
@[simp] theorem State.fabids_moved (x : State) (f : Loops × Addr) : (x.moved f).fabids = x.fabids := rfl
@[simp] theorem State.serial_moved (x : State) (f : Loops × Addr) : (x.moved f).serial = x.serial := rfl
@[simp] theorem State.lanes_moved (x : State) (f : Loops × Addr) : (x.moved f).lanes = x.lanes := rfl
@[simp] theorem State.portUp_moved (x : State) (f : Loops × Addr) : (x.moved f).portUp = x.portUp := rfl
@[simp] theorem State.portSpare_moved (x : State) (f : Loops × Addr) : (x.moved f).portSpare = x.portSpare := rfl
@[simp] theorem State.d2dUp_moved (x : State) (f : Loops × Addr) : (x.moved f).d2dUp = x.d2dUp := rfl
@[simp] theorem State.d2dWires_moved (x : State) (f : Loops × Addr) : (x.moved f).d2dWires = x.d2dWires := rfl
@[simp] theorem State.fence_moved (x : State) (f : Loops × Addr) : (x.moved f).fence = x.fence := rfl
@[simp] theorem State.casts_moved (x : State) (f : Loops × Addr) : (x.moved f).casts = x.casts := rfl
@[simp] theorem State.beats_moved (x : State) (f : Loops × Addr) : (x.moved f).beats = x.beats := rfl
@[simp] theorem State.accs_moved (x : State) (f : Loops × Addr) : (x.moved f).accs = x.accs := rfl
@[simp] theorem State.sunk_moved (x : State) (f : Loops × Addr) : (x.moved f).sunk = x.sunk := rfl
@[simp] theorem State.mbArg0_moved (x : State) (f : Loops × Addr) : (x.moved f).mbArg0 = x.mbArg0 := rfl
@[simp] theorem State.mbArg1_moved (x : State) (f : Loops × Addr) : (x.moved f).mbArg1 = x.mbArg1 := rfl
@[simp] theorem State.mbCmd_moved (x : State) (f : Loops × Addr) : (x.moved f).mbCmd = x.mbCmd := rfl
@[simp] theorem State.mbSt_moved (x : State) (f : Loops × Addr) : (x.moved f).mbSt = x.mbSt := rfl
@[simp] theorem State.mbErr_moved (x : State) (f : Loops × Addr) : (x.moved f).mbErr = x.mbErr := rfl
@[simp] theorem State.elcount_moved (x : State) (f : Loops × Addr) : (x.moved f).elcount = x.elcount := rfl
@[simp] theorem State.lastErr_moved (x : State) (f : Loops × Addr) : (x.moved f).lastErr = x.lastErr := rfl
@[simp] theorem State.buckets_moved (x : State) (f : Loops × Addr) : (x.moved f).buckets = x.buckets := rfl
@[simp] theorem State.leaks_moved (x : State) (f : Loops × Addr) : (x.moved f).leaks = x.leaks := rfl
@[simp] theorem State.throttle_moved (x : State) (f : Loops × Addr) : (x.moved f).throttle = x.throttle := rfl
@[simp] theorem State.acted_moved (x : State) (f : Loops × Addr) : (x.moved f).acted = x.acted := rfl
@[simp] theorem State.monActed_moved (x : State) (f : Loops × Addr) : (x.moved f).monActed = x.monActed := rfl
@[simp] theorem State.sdc_moved (x : State) (f : Loops × Addr) : (x.moved f).sdc = x.sdc := rfl
@[simp] theorem State.sdcAt_moved (x : State) (f : Loops × Addr) : (x.moved f).sdcAt = x.sdcAt := rfl
@[simp] theorem State.newest_moved (x : State) (f : Loops × Addr) : (x.moved f).newest = x.newest := rfl
@[simp] theorem State.store_moved (x : State) (f : Loops × Addr) : (x.moved f).store = x.store := rfl
@[simp] theorem State.older_moved (x : State) (f : Loops × Addr) : (x.moved f).older = x.older := rfl
@[simp] theorem State.olderOk_moved (x : State) (f : Loops × Addr) : (x.moved f).olderOk = x.olderOk := rfl
@[simp] theorem State.version_moved (x : State) (f : Loops × Addr) : (x.moved f).version = x.version := rfl
@[simp] theorem State.wants_moved (x : State) (f : Loops × Addr) : (x.moved f).wants = x.wants := rfl
@[simp] theorem State.fresh_moved (x : State) (f : Loops × Addr) : (x.moved f).fresh = x.fresh + 1 := rfl

end Sys2Proof.Machine
end

