-- ==== Sys2Proof/Laws/Ops.lean ====
section
/-! SUPPORT. The shared operations, each by what it can do: the checks before an instruction's effect, going on after it,
taking a trap, and returning results. -/

namespace Sys2Proof.Machine

/-! ### The checks before an effect -/

theorem State.ready_iff (s : State) (op : Nat) (k : Ctl) (regs : List Reg) :
    s.ready op k regs = true ↔
      s.thr.life = .live ∧ s.owed = none ∧ s.valueOwed op = false ∧ ¬(s.thr.region.isSome = true ∧ regionIllegal op = true) ∧
      (∀ r ∈ regs, s.ctx.has r = true) ∧ (roleOf op).all (· == s.actsAs) = true ∧ (k.s = true → s.waitS = none) ∧
      (s.thr.retry = none → s.rp k.pg ≠ k.pn) := by
  unfold State.ready
  simp only [Bool.and_eq_true, Bool.not_eq_true', Bool.or_eq_true, beq_iff_eq, Option.isNone_iff_eq_none, List.all_eq_true,
    bne_iff_ne, ne_eq, Bool.and_eq_false_iff]
  constructor
  · rintro ⟨⟨⟨⟨⟨⟨⟨h1, h2⟩, h3⟩, h4⟩, h5⟩, h6⟩, h7⟩, h8⟩
    refine ⟨h1, h2, h3, ?_, h5, h6, ?_, ?_⟩
    · rintro ⟨a, b⟩; rcases h4 with h | h <;> simp_all
    · intro a; rcases h7 with h | h <;> simp_all
    · intro a; rcases h8 with h | h <;> simp_all
  · rintro ⟨h1, h2, h3, h4, h5, h6, h7, h8⟩
    refine ⟨⟨⟨⟨⟨⟨⟨h1, h2⟩, h3⟩, ?_⟩, h5⟩, h6⟩, ?_⟩, ?_⟩
    · by_contra h; simp only [not_or, Bool.not_eq_false] at h; exact h4 h
    · cases hs : k.s <;> simp_all
    · cases hr : s.thr.retry with
      | none => exact .inr (h8 hr)
      | some _ => exact .inl rfl

/-- An instruction that is ready and passes its privilege check comes to its own effect. -/
theorem State.issue_ready {s : State} {op : Nat} {k : Ctl} {regs : List Reg} {pre : State → Option (Nat × Addr)}
    {body : State → Res} (h : s.ready op k regs = true) (hp : pre s = none) :
    s.issue op k regs pre body = ((body s.begun).into s).tickFresh := by
  obtain ⟨h1, h2, h3, h4, h5, h6, h7, h8⟩ := (s.ready_iff op k regs).1 h
  have hreg : (s.thr.region.isSome && regionIllegal op) = false := by
    cases hx : (s.thr.region.isSome && regionIllegal op)
    · rfl
    · exact absurd (by simpa [Bool.and_eq_true] using hx) h4
  have hcnt : regs.any (fun r => !s.ctx.has r) = false := by
    simp only [List.any_eq_false, Bool.not_eq_true', Bool.not_eq_false]; exact h5
  have hrole : (roleOf op).any (fun x => x != s.actsAs) = false := by
    cases hr : roleOf op with
    | none => rfl
    | some e => simpa [hr] using h6
  have hs : (if k.s = true then s.waitS else none) = none := by
    split
    · exact h7 ‹_›
    · rfl
  have hpred : (s.thr.retry.isNone && s.rp k.pg == k.pn) = false := by
    cases hr : s.thr.retry with
    | none => simpa using h8 hr
    | some _ => rfl
  unfold State.issue
  rw [if_neg (not_not.2 h1), h2]
  simp only [h3, hreg, hcnt, hrole, hp, hs, Bool.false_eq_true, if_false]
  rw [if_neg]
  · rfl
  · cases hr : s.thr.retry <;> simp_all

theorem run_ready {s : State} {op : Nat} {k : Ctl} {regs : List Reg} {body : State → Res} (h : s.ready op k regs = true) :
    run op k regs body s = .next ((body s.begun).into s).tickFresh := by
  unfold run; rw [State.issue_ready h rfl]

/-! ### Going on -/

/-! Translating and fetching ask nothing of the thread but its privilege. -/

theorem State.tileSeen_thr (s : State) (y : Thread) (v : Nat) : ({ s with thr := y } : State).tileSeen v = s.tileSeen v := rfl

theorem State.viewRanges_thr (s : State) (y : Thread) (v : Nat) : ({ s with thr := y } : State).viewRanges v = s.viewRanges v := rfl

theorem State.viewDies_thr (s : State) (y : Thread) (v : Nat) : ({ s with thr := y } : State).viewDies v = s.viewDies v := rfl

theorem State.startEntry_thr (s : State) (y : Thread) (v : Nat) : ({ s with thr := y } : State).startEntry v = s.startEntry v := rfl

theorem State.capEntries_thr (s : State) (y : Thread) (v : Nat) : ({ s with thr := y } : State).capEntries v = s.capEntries v := by
  unfold State.capEntries
  simp only [State.tileSeen_thr, State.viewRanges_thr, State.viewDies_thr]

theorem State.devDouble_congr {s t : State} (h1 : t.plumb = s.plumb) (h2 : t.cfg = s.cfg) (h3 : t.fence = s.fence)
    (h4 : t.parts = s.parts) (h5 : t.mbCmd = s.mbCmd) (h6 : t.mbSt = s.mbSt) (h7 : t.mbErr = s.mbErr) (h8 : t.mbArg0 = s.mbArg0)
    (h9 : t.mbArg1 = s.mbArg1) (h10 : t.elcount = s.elcount) (h11 : t.store = s.store) (v o : Nat) :
    t.devDouble v o = s.devDouble v o := by
  unfold State.devDouble State.ownerOf State.getPart State.startEntry
  simp only [h1, h2, h3, h4, h5, h6, h7, h8, h9, h10, h11]

theorem State.devDouble_thr (s : State) (y : Thread) (v o : Nat) : ({ s with thr := y } : State).devDouble v o = s.devDouble v o :=
  State.devDouble_congr (s := s) (t := { s with thr := y }) rfl rfl rfl rfl rfl rfl rfl rfl rfl rfl rfl v o

theorem State.devRead_thr (s : State) (y : Thread) (v o n : Nat) : ({ s with thr := y } : State).devRead v o n = s.devRead v o n := by
  unfold State.devRead State.capList
  simp only [State.capEntries_thr, State.devDouble_thr]

theorem State.readPlace_thr (s : State) (y : Thread) (w : Who) (via : Via) (p : Place) (n : Nat) :
    ({ s with thr := y } : State).readPlace w via p n = s.readPlace w via p n := by
  cases p <;> unfold State.readPlace
  case dev off => exact s.devRead_thr y _ off n
  all_goals rfl

theorem State.walkFrom_thr (s : State) (y : Thread) (die pid priv va : Nat) :
    ∀ l t, ({ s with thr := y } : State).walkFrom die pid priv va l t = s.walkFrom die pid priv va l t
  | 0, _ => rfl
  | l + 1, t => by
    unfold State.walkFrom
    simp only [State.walkFrom_thr s y die pid priv va l]
    rfl

theorem State.walk_thr (s : State) (y : Thread) (die pid priv ptbr va : Nat) :
    ({ s with thr := y } : State).walk die pid priv ptbr va = s.walk die pid priv ptbr va := by
  unfold State.walk
  simp only [State.walkFrom_thr]
  rfl

theorem State.leaf_thr (s : State) (y : Thread) (w : Who) (va : Nat) :
    ({ s with thr := y } : State).leaf w va = s.leaf w va := by
  unfold State.leaf
  simp only [State.walk_thr]
  rfl

theorem State.translate_x_thr (s : State) (y : Thread) (w : Who) (a : Addr) :
    ({ s with thr := y } : State).translate w .x a = s.translate w .x a := by
  unfold State.translate
  simp only [State.leaf_thr]
  rfl

theorem State.fetch_thr (s : State) (y : Thread) (h : y.priv = s.thr.priv) (a : Addr) :
    ({ s with thr := y } : State).fetch a = s.fetch a := by
  unfold State.fetch State.me
  simp only [State.translate_x_thr, State.readPlace_thr, h]

theorem State.dropLine_thr (s : State) (y : Thread) (h : y.priv = s.thr.priv) (a : Addr) :
    ({ s with thr := y } : State).dropLine a = { s.dropLine a with thr := y } ∧ (s.dropLine a).thr.priv = s.thr.priv := by
  unfold State.dropLine State.me
  simp only [State.translate_x_thr, h]
  split <;> exact ⟨rfl, rfl⟩

theorem State.target_thr (s : State) (y : Thread) (h : y.priv = s.thr.priv) (a : Addr) :
    ({ s with thr := y } : State).target a = s.target a := by
  obtain ⟨h1, h2⟩ := s.dropLine_thr y h a
  unfold State.target State.fetchWord
  simp only [s.fetch_thr y h, h1, (s.dropLine a).fetch_thr y (h.trans h2.symm)]

theorem State.wordOk_thr (s : State) (y : Thread) (h : y.priv = s.thr.priv) (a : Addr) :
    ({ s with thr := y } : State).wordOk a = s.wordOk a := by
  unfold State.wordOk
  simp only [s.fetch_thr y h]

/-- A transfer whose target's line has the right parity leaves the tile's copies as they were (R50). -/
theorem State.wordSeen_ok {s : State} {a : Addr} (h : s.wordOk a = true) : s.wordSeen a = s := by
  unfold State.wordSeen
  rw [if_pos h]

theorem State.flow_begun (s : State) : s.begun.flow = s.flow := by
  unfold State.flow
  have ht : ∀ a, s.begun.target a = s.target a := fun a => s.target_thr { s.thr with wait := .none } rfl a
  have hw : ∀ a, s.begun.wordOk a = s.wordOk a := fun a => s.wordOk_thr { s.thr with wait := .none } rfl a
  simp only [ht, hw]
  rfl

/-- Where a back-edge lies on the thread's flow, its target may be taken and its line has the right parity. -/
theorem State.flow_edge {s : State} {f : Loops × Addr} {l : Loops} {t : Addr} (hf : s.flow = some f)
    (h : s.thr.loops.close s.thr.pc = (l, some t)) : f = (l, t) ∧ s.target t = none ∧ s.wordOk t = true := by
  unfold State.flow at hf
  simp only [h] at hf
  split at hf
  · rename_i hc
    simp only [Bool.and_eq_true, Option.isNone_iff_eq_none] at hc
    cases hf
    exact ⟨rfl, hc⟩
  · cases hf

/-- An effect on the thread alone that leaves PC, loops and privilege: execution goes on where the thread's flow says. -/
theorem State.advance_thr {s : State} {y : Thread} {f : Loops × Addr} (hf : s.flow = some f) (hl : y.loops = s.thr.loops)
    (hc : y.pc = s.thr.pc) (hp : y.priv = s.thr.priv) :
    (s.advance { s with thr := y }).tickFresh = ({ s with thr := y } : State).moved f := by
  rcases h : s.thr.loops.close s.thr.pc with ⟨l, _ | t⟩
  · unfold State.flow at hf
    unfold State.advance State.moved State.tickFresh
    simp only [h] at hf
    simp only [hl, hc, h]
    cases hf; rfl
  · obtain ⟨rfl, ht, hw⟩ := s.flow_edge hf h
    unfold State.advance State.moved State.tickFresh
    simp only [hl, hc, h]
    rw [s.target_thr y hp t, ht]
    simp only
    rw [State.wordSeen_ok ((s.wordOk_thr y hp t).trans hw)]

end Sys2Proof.Machine
end

