-- ==== Sys2Proof/Laws/Effects.lean ====
section
/-! SUPPORT. What an instruction leaves as it was, once for each way of writing results: at once (class F), later (class V), or
not at all. -/

namespace Sys2Proof.Machine

/-! ### Reads at the beginning of an effect are reads of the state before it -/

@[simp] theorem State.reg_begun (s : State) (r : Reg) (p : Nat) : s.begun.reg r p = s.reg r p := (rfl)
@[simp] theorem State.rs_begun (s : State) (n p : Nat) : s.begun.rs n p = s.rs n p := (rfl)
@[simp] theorem State.ra_begun (s : State) (n p : Nat) : s.begun.ra n p = s.ra n p := (rfl)
@[simp] theorem State.rv_begun (s : State) (n p : Nat) : s.begun.rv n p = s.rv n p := (rfl)
@[simp] theorem State.rk_begun (s : State) (n : Nat) : s.begun.rk n = s.rk n := (rfl)
@[simp] theorem State.rp_begun (s : State) (n p : Nat) : s.begun.rp n p = s.rp n p := (rfl)
@[simp] theorem State.pc_begun (s : State) : s.begun.thr.pc = s.thr.pc := (rfl)
@[simp] theorem State.loops_begun (s : State) : s.begun.thr.loops = s.thr.loops := (rfl)
@[simp] theorem State.priv_begun (s : State) : s.begun.thr.priv = s.thr.priv := (rfl)
@[simp] theorem State.pend_begun (s : State) : s.begun.thr.pend = s.thr.pend := (rfl)

/-! ### Frames -/

theorem SameMachine.memory {s t : State} (h : SameMachine s t) : SameMemory s t := by
  rw [h]; exact ⟨fun _ => rfl, fun _ _ _ => rfl, fun _ _ => rfl⟩

theorem sameMachine_moved (s : State) (y : Thread) (f : Loops × Addr) :
    SameMachine s (({ s with thr := y } : State).moved f) := rfl

/-- An effect on the thread in focus alone comes to its state moved on. -/
theorem run_thr {s : State} {op : Nat} {k : Ctl} {regs : List Reg} {body : State → Res} {y : Thread} {f : Loops × Addr}
    (h : s.ready op k regs = true) (hf : s.flow = some f) (hb : body s.begun = .done { s with thr := y })
    (hl : y.loops = s.thr.loops) (hc : y.pc = s.thr.pc) (hp : y.priv = s.thr.priv) :
    run op k regs body s = .next (({ s with thr := y } : State).moved f) := by
  rw [run_ready h, hb]
  show Host.Outcome.next (s.advance { s with thr := y }).tickFresh = _
  rw [State.advance_thr hf hl hc hp]

/-- A class F instruction that writes one register. -/
theorem run_wr {s : State} {op : Nat} {k : Ctl} {regs : List Reg} {body : State → Res} {f : Loops × Addr} (r : Reg) (v : Vec)
    (h : s.ready op k regs = true) (hf : s.flow = some f) (hb : body s.begun = .done (s.begun.wr r v)) :
    ∃ t, run op k regs body s = .next t ∧ Wrote s t r (r.cut v) := by
  refine ⟨_, run_thr (y := (s.begun.thr.clobber r).setReg r v) h hf hb (by simp) (by simp) (by simp), ?_⟩
  have hm := sameMachine_moved s ((s.begun.thr.clobber r).setReg r v) f
  refine ⟨fun hr => ?_, fun q hq => ?_, ?_, ?_, hm, hm.memory, hf⟩
  · exact Thread.reg_setReg_self _ r v hr
  · show ((s.begun.thr.clobber r).setReg r v).reg q = _
    by_cases hr : r.fixed = true
    · rw [Thread.setReg_fixed _ r v hr, Thread.reg_clobber]; rfl
    · rw [Thread.reg_setReg_other _ v (hq.resolve_right hr), Thread.reg_clobber]; rfl
  · show ((s.begun.thr.clobber r).setReg r v).pend = _
    simp only [Thread.pend_setReg]; rfl
  · unfold SameSpecial State.moved
    cases r <;> simp only [Thread.setReg] <;> (try split) <;> rfl

/-- Marking results as overwritten changes nothing but the marks. -/
theorem Thread.foldl_clobber (ds : List (Reg × Vec)) (x : Thread) :
    ds.foldl (fun x d => x.clobber d.1) x = { x with pend := (ds.foldl (fun x d => x.clobber d.1) x).pend } := by
  induction ds generalizing x with
  | nil => rfl
  | cons d r ih => simp only [List.foldl_cons]; rw [ih]; rfl

theorem Thread.pend_foldl_clobber (ds : List (Reg × Vec)) {x y : Thread} (h : x.pend = y.pend) :
    (ds.foldl (fun x d => x.clobber d.1) x).pend = (ds.foldl (fun x d => x.clobber d.1) y).pend := by
  induction ds generalizing x y with
  | nil => exact h
  | cons d r ih => exact ih (by simp only [Thread.clobber, h])

/-- An error found parks the issue slot, and nothing else. -/
theorem Thread.stalls_eq (x : Thread) (n : Nat) (c : Option (Nat × Addr)) :
    x.stalls n c = { x with ueStall := if c.any (fun e => e.1 == 0x20) then some (n + 512) else x.ueStall } := by
  unfold Thread.stalls
  split <;> simp_all

/-- What a result to come leaves of the thread. -/
theorem State.thr_leave (u : State) (w : PendK) (ds : List (Reg × Vec)) (c : Option (Nat × Addr)) :
    (u.leave w ds c).thr = { u.thr.stalls u.plumb c with
      pend := (ds.foldl (fun x d => x.clobber d.1) u.thr).pend ++
        [{ id := u.fresh, pc := u.thr.pc, what := w,
           dests := (ds.filter fun d => !d.1.fixed).map fun d => { r := d.1, v := d.2 }, cond := c }] } := by
  unfold State.leave
  simp only [Thread.stalls_eq]
  rw [Thread.foldl_clobber ds u.thr]

/-- A class V instruction that leaves its results to come, and sets sticky bits. -/
theorem run_stick {s : State} {op : Nat} {k : Ctl} {regs : List Reg} {body : State → Res} {f : Loops × Addr} (w : PendK)
    (ds : List (Reg × Vec)) (c : Option (Nat × Addr)) (z : Word) (h : s.ready op k regs = true) (hf : s.flow = some f)
    (hb : body s.begun = .done (({ s.begun with thr := { s.begun.thr with tsr := z } } : State).leave w ds c)) :
    ∃ t, run op k regs body s = .next t ∧ Left s t w ds c z := by
  generalize hu : ({ s.begun with thr := { s.begun.thr with tsr := z } } : State) = u at hb
  have e : u = { s with thr := { s.thr with wait := .none, tsr := z } } := by rw [← hu]; rfl
  have hp := Thread.pend_foldl_clobber ds (x := u.thr) (y := s.thr) (by rw [e])
  have ht := u.thr_leave w ds c
  rw [hp, Thread.stalls_eq, e] at ht
  rw [e] at hb
  have hy : (State.leave { s with thr := { s.thr with wait := .none, tsr := z } } w ds c) =
      { s with thr := (State.leave { s with thr := { s.thr with wait := .none, tsr := z } } w ds c).thr } := rfl
  rw [hy, ht] at hb
  refine ⟨_, run_thr h hf hb rfl rfl rfl, ?_⟩
  have hm := fun y => sameMachine_moved s y f
  refine ⟨rfl, fun q => by cases q <;> rfl, ?_, hm _, (hm _).memory, hf⟩
  unfold SameSpecial State.moved
  rw [Thread.stalls_eq]

/-- A class V instruction that leaves its results to come. -/
theorem run_leave {s : State} {op : Nat} {k : Ctl} {regs : List Reg} {body : State → Res} {f : Loops × Addr} (w : PendK)
    (ds : List (Reg × Vec)) (c : Option (Nat × Addr)) (h : s.ready op k regs = true) (hf : s.flow = some f)
    (hb : body s.begun = .done (s.begun.leave w ds c)) :
    ∃ t, run op k regs body s = .next t ∧ Left s t w ds c :=
  run_stick w ds c s.thr.tsr h hf hb

/-- An instruction that changes nothing. -/
theorem run_kept {s : State} {op : Nat} {k : Ctl} {regs : List Reg} {body : State → Res} {f : Loops × Addr}
    (h : s.ready op k regs = true) (hf : s.flow = some f) (hb : body s.begun = .done s.begun) :
    ∃ t, run op k regs body s = .next t ∧ Kept s t := by
  have hm := sameMachine_moved s s.begun.thr f
  exact ⟨_, run_thr (y := s.begun.thr) h hf hb rfl rfl rfl, fun q => by cases q <;> rfl, rfl, rfl, hm, hm.memory, hf⟩

/-- An effect that comes to `u`, from which execution goes on. -/
theorem State.advance_flow (s : State) {u : State} {f : Loops × Addr} (hf : u.flow = some f) :
    (s.advance u).tickFresh = u.moved f := by
  rcases h : u.thr.loops.close u.thr.pc with ⟨l, _ | t⟩
  · unfold State.flow at hf
    unfold State.advance State.moved State.tickFresh
    simp only [h] at hf ⊢
    cases hf; rfl
  · obtain ⟨rfl, ht, hw⟩ := u.flow_edge hf h
    unfold State.advance State.moved State.tickFresh
    simp only [h, ht, State.wordSeen_ok hw]

theorem run_becomes {s u : State} {op : Nat} {k : Ctl} {regs : List Reg} {body : State → Res} {f : Loops × Addr}
    (h : s.ready op k regs = true) (hb : body s.begun = .done u) (hf : u.flow = some f) :
    run op k regs body s = .next (u.moved f) := by
  rw [run_ready h, hb]
  exact congrArg Host.Outcome.next (s.advance_flow hf)

/-- The same of an instruction that checks its privilege, once the check is passed. -/
theorem issue_becomes {s u : State} {op : Nat} {k : Ctl} {regs : List Reg} {pre : State → Option (Nat × Addr)} {body : State → Res}
    {f : Loops × Addr} (h : s.ready op k regs = true) (hp : pre s = none) (hb : body s.begun = .done u) (hf : u.flow = some f) :
    s.issue op k regs pre body = u.moved f := by
  rw [State.issue_ready h hp, hb]
  exact s.advance_flow hf

/-- A transfer that R49 allows, and one that it does not. -/
theorem run_jumps {s u : State} {op : Nat} {k : Ctl} {regs : List Reg} {body : State → Res} {p : Addr}
    (h : s.ready op k regs = true) (hb : body s.begun = .go u p) :
    (s.target p = none → run op k regs body s = .next (u.jumped p)) ∧
    ∀ c a, s.target p = some (c, a) → run op k regs body s = .next ((s.wordSeen p).take c a).tickFresh := by
  rw [run_ready h, hb]
  constructor
  · intro hp; simp only [Res.into, hp]; rfl
  · intro c a hp; simp only [Res.into, hp]

/-- A trap raised by an effect. -/
theorem run_trap {s : State} {op : Nat} {k : Ctl} {regs : List Reg} {body : State → Res} {c : Nat} {a : Addr}
    (h : s.ready op k regs = true) (hb : body s.begun = .trap c a) :
    run op k regs body s = .next (s.take c a).tickFresh := by rw [run_ready h, hb]; rfl

end Sys2Proof.Machine
end

