-- ==== Sys2Proof/Laws/Access.lean ====
section
/-! SUPPORT. What loads and stores of the thread come to when they are made now. -/

namespace Sys2Proof.Machine

/-! ### Keeping translations changes the TLB alone -/

theorem State.noteTlb_eq (s : State) (a : Addr) :
    s.noteTlb s.me a = { s with tile := { s.tile with tlb := (s.noteTlb s.me a).tile.tlb } } := by
  unfold State.noteTlb
  simp only
  split
  · rfl
  · split
    · rfl
    · simp only [State.modTile, State.setTile, State.getTile, State.me, if_pos]

theorem State.noteAll_eq (s : State) (l : List (Addr × List Piece)) :
    s.noteAll l = { s with tile := { s.tile with tlb := (s.noteAll l).tile.tlb } } := by
  unfold State.noteAll
  induction l generalizing s with
  | nil => rfl
  | cons e r ih =>
    rw [List.foldl_cons, ih (s.noteTlb s.me e.1)]
    generalize (r.foldl (fun s e => s.noteTlb s.me e.1) (s.noteTlb s.me e.1)).tile.tlb = z
    rw [State.noteTlb_eq s e.1]

/-! ### No redundant partner -/

theorem State.solo_iff {s : State} (h : s.solo = true) : s.trails = false ∧ s.trailed = false := by
  simpa [State.solo] using h

theorem State.copyTo_solo {s : State} (h : s.solo = true) (v : Vec) : s.copyTo s.cur v = s := by
  have h2 : (s.ctx.roles.getD (s.cur.i + 1) 0 == 7) = false := (State.solo_iff h).2
  unfold State.copyTo
  rw [show s.getCtx s.cur.t s.cur.c = s.ctx from if_pos ⟨rfl, rfl⟩, h2]
  rfl

theorem State.compare_solo {s : State} (h : s.solo = true) (a : Addr) (it : List Nat) : s.compare a it = .ok s := by
  unfold State.compare
  simp [State.solo_iff h]

theorem State.compareStore_solo {s : State} (h : s.solo = true) (a : Addr) (l : List (Addr × List Piece)) (bs : List Byte) (ordq : Nat)
    (drop : Bool) : s.compareStore a l bs ordq drop = .ok s := by
  unfold State.compareStore
  simp [State.solo_iff h, State.compare_solo h]

/-- A trailed thread's plain store waits in the comparator while the thread goes on, or is held when the comparator is full (R393). -/
theorem State.compareStore_ahead {s : State} {l : List (Addr × List Piece)} {ordq : Nat} (ht : s.trails = false) (hd : s.trailed = true)
    (hr : s.runsAhead l ordq = true) (hc : s.thr.cmpq = none) (a : Addr) (bs : List Byte) (drop : Bool) :
    s.compareStore a l bs ordq drop =
      if 32 ≤ s.thr.heldStores.length then .error (.hold s.held_)
      else .error (.done (s.leave (.held { a := a, l := l, bs := bs, drop := drop }) [])) := by
  unfold State.compareStore
  simp [ht, hd, hr, hc]

/-- A thread without an entry in its comparator has nothing that a trailing thread could differ from (R393). -/
theorem State.differs_none {s : State} {k : Key} (h : (s.getThread k).oldest = none) (unit : Nat) : s.differs k unit = s := by
  unfold State.differs
  simp [h]

theorem State.leadWaits_solo {s : State} (h : s.solo = true) (ps : List Piece) (ordq : Nat) : s.leadWaits ps ordq = false := by
  simp [State.leadWaits, State.solo_iff h]

theorem State.solo_noteAll (s : State) (l : List (Addr × List Piece)) : (s.noteAll l).solo = s.solo := by
  rw [State.noteAll_eq]; rfl

/-! ### Outside regions -/

theorem State.regionTouch_none {s : State} (h : s.thr.region = none) (ps : List Piece) (wr : Bool) : s.regionTouch ps wr = s := by
  unfold State.regionTouch
  rw [if_pos (by simp [h])]

theorem State.inRegion_none {s : State} (h : s.thr.region = none) : s.inRegion = false := by simp [State.inRegion, h]

/-! ### Lines that loads miss come to the die -/

theorem LinesMoved.refl (s : State) : LinesMoved s s := ⟨rfl, id, id⟩

theorem LinesMoved.trans {s t u : State} (h : LinesMoved s t) (k : LinesMoved t u) : LinesMoved s u := by
  refine ⟨?_, fun x => k.regions (h.regions x), fun x => k.waits (h.waits x)⟩
  have hk := k.all
  rw [h.all] at hk
  exact hk

/-- A change of what agents, write-back buffers, memory, the filter and the homes hold moves lines. -/
theorem linesMoved_data (s : State) (a : SMap (SMap Held)) (w : SMap (SMap (Held × Bool))) (m : SMap Byte) (f : SMap SfEnt) (x : SMap Txn) :
    LinesMoved s { s with agents := a, wbufs := w, mem := m, filter := f, txns := x } := ⟨rfl, id, id⟩

theorem linesMoved_setHeld (s : State) (ag l : Nat) (h : Option Held) : LinesMoved s (s.setHeld ag l h) := ⟨rfl, id, id⟩

theorem linesMoved_setEntry (s : State) (l : Nat) (e : SfEnt) : LinesMoved s (s.setEntry l e) := ⟨rfl, id, id⟩

theorem linesMoved_wakeLine (s : State) (d : Option Nat) (l : Option Nat × Nat) : LinesMoved s (s.wakeLine d l) := by
  have hx : ∀ x : Thread, x.monitor l = { x with wait := (x.monitor l).wait, region := x.region } := by
    intro x; unfold Thread.monitor; split
    · split <;> rfl
    · rfl
  have hw : s.thr.wait = .none → (s.thr.monitor l).wait = .none := by
    intro h; unfold Thread.monitor; simp [h]
  have ht : (s.wakeLine d l).thr = if d.all (· == dieOf s.cur.t) then s.thr.monitor l else s.thr := rfl
  refine ⟨?_, fun h => ?_, fun h => ?_⟩
  · have : (s.wakeLine d l).thr = { s.thr with wait := (s.wakeLine d l).thr.wait, region := (s.wakeLine d l).thr.region } := by
      rw [ht]; split
      · conv_lhs => rw [hx]
        rw [hx]
      · rfl
    rw [← this]; rfl
  · rw [ht]; split
    · rw [hx]; exact h
    · exact h
  · rw [ht]; split
    · exact hw h
    · exact h

theorem linesMoved_strong (s : State) (d l : Nat) : LinesMoved s (s.strong d l) := by
  have hx : ∃ r, (s.strong d l).thr = { s.thr with region := r } ∧ (s.thr.region = none → r = none) := by
    cases h : s.thr.region with
    | none => exact ⟨none, by simp only [State.strong, State.mapThreads, h]; rw [← h], fun _ => rfl⟩
    | some r =>
      by_cases hc : dieOf s.cur.t = d ∧ r.irr = false ∧ r.committed = false ∧ r.doom = none ∧ r.touches l = true
      · exact ⟨_, by simp only [State.strong, State.mapThreads, h]; rw [if_pos hc], fun h => by cases h⟩
      · exact ⟨some r, by simp only [State.strong, State.mapThreads, h]; rw [if_neg hc, ← h], fun h => by cases h⟩
  obtain ⟨r, hr, hn⟩ := hx
  refine ⟨?_, fun h => ?_, fun h => ?_⟩
  · have : (s.strong d l).thr = { s.thr with wait := (s.strong d l).thr.wait, region := (s.strong d l).thr.region } := by rw [hr]
    rw [← this]; rfl
  · rw [hr]; exact hn h
  · rw [hr]; exact h

theorem linesMoved_giveUp_none {s : State} {ag l : Nat} (h : s.held ag l = none) : LinesMoved s (s.giveUp ag l) := by
  unfold State.giveUp
  simp only [h]
  exact linesMoved_data s _ _ _ _ _

theorem linesMoved_lower (s : State) (ag l : Nat) : LinesMoved s (s.lower ag l) := by
  cases h : s.held ag l with
  | none => simp only [State.lower, h]; exact linesMoved_giveUp_none h
  | some x =>
    simp only [State.lower, h]
    split
    all_goals
      split
      · exact (linesMoved_setHeld s ag l _).trans ((linesMoved_wakeLine _ _ _).trans (linesMoved_strong _ _ _))
      · exact linesMoved_setHeld s ag l _

theorem linesMoved_endTxn (s : State) (l : Nat) (x : Txn) (h : x.kind = 0) : LinesMoved s (s.endTxn l x) := by
  unfold State.endTxn
  simp only [h]
  exact (linesMoved_data s s.agents s.wbufs s.mem s.filter (SMap.erase s.txns l)).trans
    ((linesMoved_setHeld _ _ _ _).trans (linesMoved_setEntry _ _ _))

theorem linesMoved_shareIn (s : State) (ag l pid : Nat) : LinesMoved s (s.shareIn ag l pid) := by
  have fin : ∀ (r : State) (x : Txn), x.kind = 0 → LinesMoved s r →
      LinesMoved s (if isHost (128 * l) then r.setHeld ag l (some { st := .s, data := r.homeLine l, pid := pid }) else r.endTxn l x) := by
    intro r x hx hr
    split
    · exact hr.trans (linesMoved_setHeld _ _ _ _)
    · exact hr.trans (linesMoved_endTxn _ _ _ hx)
  unfold State.shareIn
  split
  · exact .refl s
  · simp only
    generalize (if isHost (128 * l) = true then Option.map (fun x => x.1) (s.owner l)
      else if 2 ≤ (s.entry l).dst then some (s.entry l).own else none) = own
    cases own with
    | none => simpa using fin s _ rfl (.refl s)
    | some o =>
      simp only [Option.any_some]
      by_cases hq : (o == s.queueAgent l && SMap.get [] s.resvq l != []) = true
      · rw [if_pos hq]; exact .refl s
      · rw [if_neg hq]
        apply fin _ _ rfl
        split
        · exact linesMoved_lower s o l
        · exact .refl s

theorem linesMoved_fillLoads (s : State) (t pid : Nat) (ps : List Piece) : LinesMoved s (s.fillLoads t pid ps) := by
  unfold State.fillLoads
  generalize s.missLines t ps = ls
  have h : ∀ (ag : Nat) (ls : List Nat) (s : State), LinesMoved s (ls.foldl (fun s l => s.shareIn ag l pid) s) := by
    intro ag ls
    induction ls with
    | nil => exact LinesMoved.refl
    | cons l r ih => exact fun s => (linesMoved_shareIn s ag l pid).trans (ih _)
  have e : (ls.foldl (fun s l => s.shareIn (s.agentOf (dieOf t)) l pid) s) =
      ls.foldl (fun s' l => s'.shareIn (s.agentOf (dieOf t)) l pid) s := by
    have g : ∀ (ls : List Nat) (u : State), u.domPos = s.domPos →
        (ls.foldl (fun s l => s.shareIn (s.agentOf (dieOf t)) l pid) u) = ls.foldl (fun s' l => s'.shareIn (s.agentOf (dieOf t)) l pid) u := by
      intro ls
      induction ls with
      | nil => intros; rfl
      | cons l r ih =>
        intro u hu
        have ha : u.agentOf (dieOf t) = s.agentOf (dieOf t) := by unfold State.agentOf; rw [hu]
        simp only [List.foldl_cons, ha]
        apply ih
        rw [(linesMoved_shareIn u _ l pid).all]
        exact hu
    exact g ls s rfl
  rw [e]
  exact h _ ls s

theorem linesMoved_filled (s : State) (l : List (Addr × List Piece)) : LinesMoved s (s.filled l) := linesMoved_fillLoads s _ _ _

/-! ### Loads and stores -/

/-- Making a replica changes the dies alone. -/
theorem State.replicate_eq (s : State) (l : Nat) (b : Bool) : ∃ d, s.replicate l b = { s with dies := d } := by
  unfold State.replicate
  simp only [State.allDies, State.modDie, State.setDie]
  split <;> split <;> exact ⟨_, rfl⟩

theorem State.makeReplicas_eq (s : State) (ps : List Piece) (b : Bool) : ∃ d, s.makeReplicas ps b = { s with dies := d } := by
  unfold State.makeReplicas
  generalize pieceLines _ = ls
  induction ls generalizing s with
  | nil => exact ⟨s.dies, rfl⟩
  | cons x r ih =>
    obtain ⟨d, h⟩ := s.replicate_eq x true
    obtain ⟨e, h'⟩ := ih (s.replicate x true)
    exact ⟨e, by rw [List.foldl_cons, h', h]⟩

/-- Reading changes the copy units and what errors are still to be found, alone. -/
theorem State.spoilDests_eq (s : State) (ps : List Piece) :
    ∃ e c cs, s.spoilDests ps = { s with ues := e, ctx := { s.ctx with cu := c }, ctxs := cs } := by
  have h : ∃ e, s.ueFind ps = { s with ues := e } := by
    unfold State.ueFind
    split
    · exact ⟨s.ues, rfl⟩
    · exact ⟨_, rfl⟩
  obtain ⟨e, h⟩ := h
  unfold State.spoilDests
  simp only [h]
  split
  · exact ⟨e, s.ctx.cu, s.ctxs, rfl⟩
  · exact ⟨e, _, _, rfl⟩

/-- What loads do beside giving their bytes leaves the focus, the redundant partners and the thread's privilege as they were. -/
theorem State.looked_solo {s : State} (h : s.solo = true) (repl : Bool) (l : List (Addr × List Piece)) (v : Vec) :
    (s.looked repl l).copyTo s.cur v = s.looked repl l := by
  have hf := (linesMoved_filled s l).all
  obtain ⟨d, hd⟩ := (s.filled l).makeReplicas_eq (allPieces l) repl
  obtain ⟨e, c, cs, hc⟩ := (((s.filled l).makeReplicas (allPieces l) repl).noteAll l).spoilDests_eq (allPieces l)
  have hcur : (s.looked repl l).cur = s.cur := by unfold State.looked; rw [hc, State.noteAll_eq, hd, hf]
  have hs : (s.looked repl l).solo = true := by unfold State.looked; rw [hc, State.noteAll_eq, hd, hf]; exact h
  have := State.copyTo_solo hs v
  rwa [hcur] at this

/-- Keeping translations does not change what delays a store. -/
theorem State.storeBlocked_noteAll (s : State) (l : List (Addr × List Piece)) (ps : List Piece) (ordq : Nat) :
    (s.noteAll l).storeBlocked ps ordq = s.storeBlocked ps ordq := by
  rw [State.noteAll_eq]
  simp only [State.storeBlocked, State.mayPerform, State.fifoRoom, State.performedAt, State.dieDrained, State.relScope, State.getTile, if_true]
  rfl

/-- A load with no deferred condition is a load when no tile it needs is fenced. -/
theorem State.loadNow_eq {s : State} {as : List (Addr × Nat)} {align : Nat} {l : List (Addr × List Piece)}
    (hc : s.checkAll .r align as = .ok l) (h : ∀ e ∈ l, s.deadTile e.2 = false) : s.loadNow as align = s.loadMany as align := by
  have : l.find? (fun e => s.deadTile e.2) = none := by simpa [List.find?_eq_none] using h
  simp [State.loadNow, hc, Except.toOption, this]

/-- It traps RESPF at the first access that needs a fenced tile. -/
theorem State.loadNow_dead {s : State} {as : List (Addr × Nat)} {align : Nat} {l : List (Addr × List Piece)} {e : Addr × List Piece}
    (hc : s.checkAll .r align as = .ok l) (h : l.find? (fun e => s.deadTile e.2) = some e) (ht : s.trails = false) :
    s.loadNow as align = .error (.trap cRESPF e.1) := by
  simp [State.loadNow, hc, Except.toOption, h, ht]

/-- Loads that are made now give their bytes, and leave what they looked at. -/
theorem State.loadMany_now {s : State} {as : List (Addr × Nat)} {align ordq : Nat} {repl : Bool} {l : List (Addr × List Piece)}
    (hc : s.checkAll .r align as = .ok l) (h : LoadsNow s l ordq) :
    s.loadMany as align repl ordq =
      .ok { s := s.looked repl l, bs := loadedBytes s repl l, bad := (l.find? fun e => s.poisoned e.2).map (·.1),
            why := ((l.find? fun e => s.poisoned e.2).map fun e => s.badCause e.2).getD cPOISON, may := s.bindsLate l repl ordq } := by
  obtain ⟨hw, hr, hs, hl⟩ := h
  have hf := linesMoved_filled s l
  have hr' : (s.filled l).thr.region = none := hf.regions hr
  have hm : (s.filled l).me = s.me := by rw [hf.all]; rfl
  have h6 := State.looked_solo hs repl l (BitVec.ofNat 1024 (ofLE (loadedBytes s repl l)))
  unfold State.loadMany
  rw [hc]
  simp only [(State.solo_iff hs).1, State.leadWaits_solo hs, hw, hr, Option.isNone_none, if_true, Bool.true_and]
  rw [show s.fillLoads s.cur.t s.ctx.pid (allPieces l) = s.filled l from rfl, hl]
  unfold State.loadPieces
  rw [State.regionTouch_none hr']
  simp only [hr', State.inRegion_none hr', Option.bind_none, Option.isSome_none, Bool.false_eq_true, if_false, hm]
  unfold State.looked loadedBytes at h6 ⊢
  rw [h6]

/-- Their result, as the instruction makes it of the bytes. -/
theorem State.loadMany_late {s : State} {as : List (Addr × Nat)} {align ordq : Nat} {repl : Bool} {l : List (Addr × List Piece)}
    (hc : s.checkAll .r align as = .ok l) (h : LoadsNow s l ordq) (ds : List Byte → List (Reg × Vec)) (fix : Unbound → Unbound := id) :
    (s.loadMany as align repl ordq).into (fun g => g.late (ds g.bs) fix) =
      .done (afterLoads s repl l (ds (loadedBytes s repl l)) ordq fix) := by
  rw [State.loadMany_now hc h]
  simp only [Try.into, Got.late, afterLoads]
  cases l.find? (fun e => s.poisoned e.2) <;> rfl

/-- Stores that are made now leave the state that `StoresNow` names. -/
theorem State.storeMany_now {s u : State} {as : List (Addr × List Byte)} {ordq align : Nat} {drop : Bool}
    (h : StoresNow s as ordq align drop u) : s.storeMany as ordq align drop = .done u := by
  obtain ⟨l, t, h1, h2, h3, h4, h5, h6, h7, h9, rfl⟩ := h
  have hr : (s.noteAll l).thr.region = none := by rw [State.noteAll_eq]; exact h3
  have hb := (s.storeBlocked_noteAll l (allPieces l) ordq).trans h7
  unfold State.storeMany
  simp only [h1, h2]
  rw [if_neg (by rw [h7, Bool.or_false]; simp only [Bool.and_eq_true, not_and]; intro h; simp [h5 h]), State.compareStore_solo h4]
  simp only
  unfold State.storeOut
  simp only
  rw [if_neg (by simpa using h6), State.regionTouch_none hr]
  rw [hr, State.inRegion_none hr]
  simp only [Option.bind_none, Option.isSome_none, Bool.false_eq_true, if_false, hb, h9, Option.map_some]
  cases storePend ordq (allPieces l) <;> rfl

end Sys2Proof.Machine
end

