-- ==== Sys2Proof/Laws/Dispatch.lean ====
section
/-! SUPPORT. Each arm of `exec`, as an equation. -/

namespace Sys2Proof.Machine

theorem exec_nop (k : Ctl) (f : FRR) (z : State) : exec (.nop k f) z = execNop k f z := rfl
theorem exec_add (k : Ctl) (f : FRR) (z : State) : exec (.add k f) z = execAdd k f z := rfl
theorem exec_sub (k : Ctl) (f : FRR) (z : State) : exec (.sub k f) z = execSub k f z := rfl
theorem exec_addi (k : Ctl) (f : FRI) (z : State) : exec (.addi k f) z = execAddi k f z := rfl
theorem exec_mul (k : Ctl) (f : FRR) (z : State) : exec (.mul k f) z = execMul k f z := rfl
theorem exec_mulh (k : Ctl) (f : FRR) (z : State) : exec (.mulh k f) z = execMulh k f z := rfl
theorem exec_mulhu (k : Ctl) (f : FRR) (z : State) : exec (.mulhu k f) z = execMulhu k f z := rfl
theorem exec_div (k : Ctl) (f : FRR) (z : State) : exec (.div k f) z = execDiv k f z := rfl
theorem exec_divu (k : Ctl) (f : FRR) (z : State) : exec (.divu k f) z = execDivu k f z := rfl
theorem exec_rem (k : Ctl) (f : FRR) (z : State) : exec (.rem k f) z = execRem k f z := rfl
theorem exec_remu (k : Ctl) (f : FRR) (z : State) : exec (.remu k f) z = execRemu k f z := rfl
theorem exec_and (k : Ctl) (f : FRR) (z : State) : exec (.and k f) z = execAnd k f z := rfl
theorem exec_or (k : Ctl) (f : FRR) (z : State) : exec (.or k f) z = execOr k f z := rfl
theorem exec_xor (k : Ctl) (f : FRR) (z : State) : exec (.xor k f) z = execXor k f z := rfl
theorem exec_andn (k : Ctl) (f : FRR) (z : State) : exec (.andn k f) z = execAndn k f z := rfl
theorem exec_andi (k : Ctl) (f : FRI) (z : State) : exec (.andi k f) z = execAndi k f z := rfl
theorem exec_ori (k : Ctl) (f : FRI) (z : State) : exec (.ori k f) z = execOri k f z := rfl
theorem exec_xori (k : Ctl) (f : FRI) (z : State) : exec (.xori k f) z = execXori k f z := rfl
theorem exec_shl (k : Ctl) (f : FRR) (z : State) : exec (.shl k f) z = execShl k f z := rfl
theorem exec_shr (k : Ctl) (f : FRR) (z : State) : exec (.shr k f) z = execShr k f z := rfl
theorem exec_sra (k : Ctl) (f : FRR) (z : State) : exec (.sra k f) z = execSra k f z := rfl
theorem exec_rotr (k : Ctl) (f : FRR) (z : State) : exec (.rotr k f) z = execRotr k f z := rfl
theorem exec_shli (k : Ctl) (f : FRI) (z : State) : exec (.shli k f) z = execShli k f z := rfl
theorem exec_shri (k : Ctl) (f : FRI) (z : State) : exec (.shri k f) z = execShri k f z := rfl
theorem exec_srai (k : Ctl) (f : FRI) (z : State) : exec (.srai k f) z = execSrai k f z := rfl
theorem exec_clz (k : Ctl) (f : FRR) (z : State) : exec (.clz k f) z = execClz k f z := rfl
theorem exec_ctz (k : Ctl) (f : FRR) (z : State) : exec (.ctz k f) z = execCtz k f z := rfl
theorem exec_pcnt (k : Ctl) (f : FRR) (z : State) : exec (.pcnt k f) z = execPcnt k f z := rfl
theorem exec_bswap (k : Ctl) (f : FRR) (z : State) : exec (.bswap k f) z = execBswap k f z := rfl
theorem exec_min (k : Ctl) (f : FRR) (z : State) : exec (.min k f) z = execMin k f z := rfl
theorem exec_max (k : Ctl) (f : FRR) (z : State) : exec (.max k f) z = execMax k f z := rfl
theorem exec_minu (k : Ctl) (f : FRR) (z : State) : exec (.minu k f) z = execMinu k f z := rfl
theorem exec_maxu (k : Ctl) (f : FRR) (z : State) : exec (.maxu k f) z = execMaxu k f z := rfl
theorem exec_cmp (k : Ctl) (f : FRR) (z : State) : exec (.cmp k f) z = execCmp k f z := rfl
theorem exec_cmpi (k : Ctl) (f : FRI) (z : State) : exec (.cmpi k f) z = execCmpi k f z := rfl
theorem exec_sel (k : Ctl) (f : FRR) (z : State) : exec (.sel k f) z = execSel k f z := rfl
theorem exec_pset (k : Ctl) (f : FRR) (z : State) : exec (.pset k f) z = execPset k f z := rfl
theorem exec_mov (k : Ctl) (f : FRR) (z : State) : exec (.mov k f) z = execMov k f z := rfl
theorem exec_movAl (k : Ctl) (f : FRR) (z : State) : exec (.movAl k f) z = execMovAl k f z := rfl
theorem exec_movAh (k : Ctl) (f : FRR) (z : State) : exec (.movAh k f) z = execMovAh k f z := rfl
theorem exec_movi (k : Ctl) (f : FRI) (z : State) : exec (.movi k f) z = execMovi k f z := rfl
theorem exec_ext (k : Ctl) (f : FRR) (z : State) : exec (.ext k f) z = execExt k f z := rfl
theorem exec_bfx (k : Ctl) (f : FRI) (z : State) : exec (.bfx k f) z = execBfx k f z := rfl
theorem exec_bfi (k : Ctl) (f : FRI) (z : State) : exec (.bfi k f) z = execBfi k f z := rfl
theorem exec_lea (k : Ctl) (f : FM) (z : State) : exec (.lea k f) z = execLea k f z := rfl
theorem exec_adda (k : Ctl) (f : FRR) (z : State) : exec (.adda k f) z = execAdda k f z := rfl
theorem exec_suba (k : Ctl) (f : FRR) (z : State) : exec (.suba k f) z = execSuba k f z := rfl
theorem exec_subaD (k : Ctl) (f : FRR) (z : State) : exec (.subaD k f) z = execSubaD k f z := rfl
theorem exec_mova (k : Ctl) (f : FRR) (z : State) : exec (.mova k f) z = execMova k f z := rfl
theorem exec_movaS (k : Ctl) (f : FRR) (z : State) : exec (.movaS k f) z = execMovaS k f z := rfl
theorem exec_movaSh (k : Ctl) (f : FRR) (z : State) : exec (.movaSh k f) z = execMovaSh k f z := rfl
theorem exec_cmpa (k : Ctl) (f : FRR) (z : State) : exec (.cmpa k f) z = execCmpa k f z := rfl
theorem exec_movai (k : Ctl) (f : FAI) (z : State) : exec (.movai k f) z = execMovai k f z := rfl
theorem exec_br (k : Ctl) (f : FB) (z : State) : exec (.br k f) z = execBr k f z := rfl
theorem exec_bc (k : Ctl) (f : FB) (z : State) : exec (.bc k f) z = execBc k f z := rfl
theorem exec_bcmp (k : Ctl) (f : FB) (z : State) : exec (.bcmp k f) z = execBcmp k f z := rfl
theorem exec_bi (k : Ctl) (f : FRR) (z : State) : exec (.bi k f) z = execBi k f z := rfl
theorem exec_call (k : Ctl) (f : FB) (z : State) : exec (.call k f) z = execCall k f z := rfl
theorem exec_calli (k : Ctl) (f : FRR) (z : State) : exec (.calli k f) z = execCalli k f z := rfl
theorem exec_ret (k : Ctl) (f : FRR) (z : State) : exec (.ret k f) z = execRet k f z := rfl
theorem exec_jtab (k : Ctl) (f : FRR) (z : State) : exec (.jtab k f) z = execJtab k f z := rfl
theorem exec_loop (k : Ctl) (f : FB) (z : State) : exec (.loop k f) z = execLoop k f z := rfl
theorem exec_loopi (k : Ctl) (f : FLoopi) (z : State) : exec (.loopi k f) z = execLoopi k f z := rfl
theorem exec_breakl (k : Ctl) (f : FRR) (z : State) : exec (.breakl k f) z = execBreakl k f z := rfl
theorem exec_forkb (k : Ctl) (f : FB) (z : State) : exec (.forkb k f) z = execForkb k f z := rfl
theorem exec_join (k : Ctl) (f : FRR) (z : State) : exec (.join k f) z = execJoin k f z := rfl
theorem exec_callat (k : Ctl) (f : FCallat) (z : State) : exec (.callat k f) z = execCallat k f z := rfl
theorem exec_spawn (k : Ctl) (f : FRR) (z : State) : exec (.spawn k f) z = execSpawn k f z := rfl
theorem exec_tdep (k : Ctl) (f : FRR) (z : State) : exec (.tdep k f) z = execTdep k f z := rfl
theorem exec_signal (k : Ctl) (f : FRR) (z : State) : exec (.signal k f) z = execSignal k f z := rfl
theorem exec_texit (k : Ctl) (f : FRR) (z : State) : exec (.texit k f) z = execTexit k f z := rfl
theorem exec_yield (k : Ctl) (f : FRR) (z : State) : exec (.yield k f) z = execYield k f z := rfl
theorem exec_tqry (k : Ctl) (f : FRR) (z : State) : exec (.tqry k f) z = execTqry k f z := rfl
theorem exec_cancelTask (k : Ctl) (f : FRR) (z : State) : exec (.cancelTask k f) z = execCancelTask k f z := rfl
theorem exec_cancelLevel (k : Ctl) (f : FRR) (z : State) : exec (.cancelLevel k f) z = execCancelLevel k f z := rfl
theorem exec_lcnt (k : Ctl) (f : FRR) (z : State) : exec (.lcnt k f) z = execLcnt k f z := rfl
theorem exec_semp (k : Ctl) (f : FRR) (z : State) : exec (.semp k f) z = execSemp k f z := rfl
theorem exec_semv (k : Ctl) (f : FRR) (z : State) : exec (.semv k f) z = execSemv k f z := rfl
theorem exec_qpush (k : Ctl) (f : FRR) (z : State) : exec (.qpush k f) z = execQpush k f z := rfl
theorem exec_qpop (k : Ctl) (f : FRR) (z : State) : exec (.qpop k f) z = execQpop k f z := rfl
theorem exec_qstat (k : Ctl) (f : FRR) (z : State) : exec (.qstat k f) z = execQstat k f z := rfl
theorem exec_ld (k : Ctl) (f : FM) (z : State) : exec (.ld k f) z = execLd k f z := rfl
theorem exec_st (k : Ctl) (f : FM) (z : State) : exec (.st k f) z = execSt k f z := rfl
theorem exec_lda (k : Ctl) (f : FM) (z : State) : exec (.lda k f) z = execLda k f z := rfl
theorem exec_sta (k : Ctl) (f : FM) (z : State) : exec (.sta k f) z = execSta k f z := rfl
theorem exec_ldq (k : Ctl) (f : FM) (z : State) : exec (.ldq k f) z = execLdq k f z := rfl
theorem exec_stq (k : Ctl) (f : FM) (z : State) : exec (.stq k f) z = execStq k f z := rfl
theorem exec_lds (k : Ctl) (f : FM) (z : State) : exec (.lds k f) z = execLds k f z := rfl
theorem exec_stf (k : Ctl) (f : FM) (z : State) : exec (.stf k f) z = execStf k f z := rfl
theorem exec_sete (k : Ctl) (f : FM) (z : State) : exec (.sete k f) z = execSete k f z := rfl
theorem exec_feq (k : Ctl) (f : FM) (z : State) : exec (.feq k f) z = execFeq k f z := rfl
theorem exec_pref (k : Ctl) (f : FM) (z : State) : exec (.pref k f) z = execPref k f z := rfl
theorem exec_vld (k : Ctl) (f : FM) (z : State) : exec (.vld k f) z = execVld k f z := rfl
theorem exec_vst (k : Ctl) (f : FM) (z : State) : exec (.vst k f) z = execVst k f z := rfl
theorem exec_vlds (k : Ctl) (f : FM) (z : State) : exec (.vlds k f) z = execVlds k f z := rfl
theorem exec_vsts (k : Ctl) (f : FM) (z : State) : exec (.vsts k f) z = execVsts k f z := rfl
theorem exec_vgath (k : Ctl) (f : FV) (z : State) : exec (.vgath k f) z = execVgath k f z := rfl
theorem exec_vscat (k : Ctl) (f : FV) (z : State) : exec (.vscat k f) z = execVscat k f z := rfl
theorem exec_clean (k : Ctl) (f : FM) (z : State) : exec (.clean k f) z = execClean k f z := rfl
theorem exec_disc (k : Ctl) (f : FM) (z : State) : exec (.disc k f) z = execDisc k f z := rfl
theorem exec_zero (k : Ctl) (f : FM) (z : State) : exec (.zero k f) z = execZero k f z := rfl
theorem exec_lr (k : Ctl) (f : FM) (z : State) : exec (.lr k f) z = execLr k f z := rfl
theorem exec_sc (k : Ctl) (f : FAtom) (z : State) : exec (.sc k f) z = execSc k f z := rfl
theorem exec_amo (k : Ctl) (f : FAtom) (z : State) : exec (.amo k f) z = execAmo k f z := rfl
theorem exec_cas (k : Ctl) (f : FAtom) (z : State) : exec (.cas k f) z = execCas k f z := rfl
theorem exec_red (k : Ctl) (f : FAtom) (z : State) : exec (.red k f) z = execRed k f z := rfl
theorem exec_append (k : Ctl) (f : FAppend) (z : State) : exec (.append k f) z = execAppend k f z := rfl
theorem exec_appendCfg (k : Ctl) (f : FAppend) (z : State) : exec (.appendCfg k f) z = execAppendCfg k f z := rfl
theorem exec_appendPop (k : Ctl) (f : FAppend) (z : State) : exec (.appendPop k f) z = execAppendPop k f z := rfl
theorem exec_appendStat (k : Ctl) (f : FAppend) (z : State) : exec (.appendStat k f) z = execAppendStat k f z := rfl
theorem exec_wrs (k : Ctl) (f : FM) (z : State) : exec (.wrs k f) z = execWrs k f z := rfl
theorem exec_fence (k : Ctl) (f : FFence) (z : State) : exec (.fence k f) z = execFence k f z := rfl
theorem exec_fencee (k : Ctl) (f : FFence) (z : State) : exec (.fencee k f) z = execFencee k f z := rfl
theorem exec_rbegin (k : Ctl) (f : FRegion) (z : State) : exec (.rbegin k f) z = execRbegin k f z := rfl
theorem exec_rcommit (k : Ctl) (f : FRegion) (z : State) : exec (.rcommit k f) z = execRcommit k f z := rfl
theorem exec_rabort (k : Ctl) (f : FRegion) (z : State) : exec (.rabort k f) z = execRabort k f z := rfl
theorem exec_rstat (k : Ctl) (f : FRegion) (z : State) : exec (.rstat k f) z = execRstat k f z := rfl
theorem exec_rposB (k : Ctl) (f : FRegion) (z : State) : exec (.rposB k f) z = execRposB k f z := rfl
theorem exec_rposL (k : Ctl) (f : FRegion) (z : State) : exec (.rposL k f) z = execRposL k f z := rfl
theorem exec_vadd (k : Ctl) (f : FV) (z : State) : exec (.vadd k f) z = execVadd k f z := rfl
theorem exec_vsub (k : Ctl) (f : FV) (z : State) : exec (.vsub k f) z = execVsub k f z := rfl
theorem exec_vmul (k : Ctl) (f : FV) (z : State) : exec (.vmul k f) z = execVmul k f z := rfl
theorem exec_vfma (k : Ctl) (f : FV) (z : State) : exec (.vfma k f) z = execVfma k f z := rfl
theorem exec_vfms (k : Ctl) (f : FV) (z : State) : exec (.vfms k f) z = execVfms k f z := rfl
theorem exec_vmin (k : Ctl) (f : FV) (z : State) : exec (.vmin k f) z = execVmin k f z := rfl
theorem exec_vmax (k : Ctl) (f : FV) (z : State) : exec (.vmax k f) z = execVmax k f z := rfl
theorem exec_vabs (k : Ctl) (f : FV) (z : State) : exec (.vabs k f) z = execVabs k f z := rfl
theorem exec_vneg (k : Ctl) (f : FV) (z : State) : exec (.vneg k f) z = execVneg k f z := rfl
theorem exec_vrcp (k : Ctl) (f : FV) (z : State) : exec (.vrcp k f) z = execVrcp k f z := rfl
theorem exec_vrsq (k : Ctl) (f : FV) (z : State) : exec (.vrsq k f) z = execVrsq k f z := rfl
theorem exec_vexp2 (k : Ctl) (f : FV) (z : State) : exec (.vexp2 k f) z = execVexp2 k f z := rfl
theorem exec_vlog2 (k : Ctl) (f : FV) (z : State) : exec (.vlog2 k f) z = execVlog2 k f z := rfl
theorem exec_vdiv (k : Ctl) (f : FV) (z : State) : exec (.vdiv k f) z = execVdiv k f z := rfl
theorem exec_vsqrt (k : Ctl) (f : FV) (z : State) : exec (.vsqrt k f) z = execVsqrt k f z := rfl
theorem exec_vand (k : Ctl) (f : FV) (z : State) : exec (.vand k f) z = execVand k f z := rfl
theorem exec_vor (k : Ctl) (f : FV) (z : State) : exec (.vor k f) z = execVor k f z := rfl
theorem exec_vxor (k : Ctl) (f : FV) (z : State) : exec (.vxor k f) z = execVxor k f z := rfl
theorem exec_vshl (k : Ctl) (f : FV) (z : State) : exec (.vshl k f) z = execVshl k f z := rfl
theorem exec_vshr (k : Ctl) (f : FV) (z : State) : exec (.vshr k f) z = execVshr k f z := rfl
theorem exec_vsra (k : Ctl) (f : FV) (z : State) : exec (.vsra k f) z = execVsra k f z := rfl
theorem exec_vcmp (k : Ctl) (f : FV) (z : State) : exec (.vcmp k f) z = execVcmp k f z := rfl
theorem exec_vsel (k : Ctl) (f : FV) (z : State) : exec (.vsel k f) z = execVsel k f z := rfl
theorem exec_vcvt (k : Ctl) (f : FV) (z : State) : exec (.vcvt k f) z = execVcvt k f z := rfl
theorem exec_vred (k : Ctl) (f : FV) (z : State) : exec (.vred k f) z = execVred k f z := rfl
theorem exec_vscan (k : Ctl) (f : FV) (z : State) : exec (.vscan k f) z = execVscan k f z := rfl
theorem exec_vperm (k : Ctl) (f : FV) (z : State) : exec (.vperm k f) z = execVperm k f z := rfl
theorem exec_vbcast (k : Ctl) (f : FV) (z : State) : exec (.vbcast k f) z = execVbcast k f z := rfl
theorem exec_vins (k : Ctl) (f : FV) (z : State) : exec (.vins k f) z = execVins k f z := rfl
theorem exec_vext (k : Ctl) (f : FV) (z : State) : exec (.vext k f) z = execVext k f z := rfl
theorem exec_vmov (k : Ctl) (f : FV) (z : State) : exec (.vmov k f) z = execVmov k f z := rfl
theorem exec_vmovi (k : Ctl) (f : FV) (z : State) : exec (.vmovi k f) z = execVmovi k f z := rfl
theorem exec_kop (k : Ctl) (f : FV) (z : State) : exec (.kop k f) z = execKop k f z := rfl
theorem exec_kmov (k : Ctl) (f : FV) (z : State) : exec (.kmov k f) z = execKmov k f z := rfl
theorem exec_vhist (k : Ctl) (f : FV) (z : State) : exec (.vhist k f) z = execVhist k f z := rfl
theorem exec_mma (k : Ctl) (f : FE) (z : State) : exec (.mma k f) z = execMma k f z := rfl
theorem exec_mmat (k : Ctl) (f : FE) (z : State) : exec (.mmat k f) z = execMmat k f z := rfl
theorem exec_mmas (k : Ctl) (f : FE) (z : State) : exec (.mmas k f) z = execMmas k f z := rfl
theorem exec_mzero (k : Ctl) (f : FE) (z : State) : exec (.mzero k f) z = execMzero k f z := rfl
theorem exec_mrdv (k : Ctl) (f : FMu) (z : State) : exec (.mrdv k f) z = execMrdv k f z := rfl
theorem exec_mwrv (k : Ctl) (f : FMu) (z : State) : exec (.mwrv k f) z = execMwrv k f z := rfl
theorem exec_mst (k : Ctl) (f : FE) (z : State) : exec (.mst k f) z = execMst k f z := rfl
theorem exec_mlda (k : Ctl) (f : FE) (z : State) : exec (.mlda k f) z = execMlda k f z := rfl
theorem exec_mprogGo (k : Ctl) (f : FMu) (z : State) : exec (.mprogGo k f) z = execMprogGo k f z := rfl
theorem exec_mprogDrop (k : Ctl) (f : FMu) (z : State) : exec (.mprogDrop k f) z = execMprogDrop k f z := rfl
theorem exec_msync (k : Ctl) (f : FMu) (z : State) : exec (.msync k f) z = execMsync k f z := rfl
theorem exec_mstat (k : Ctl) (f : FMu) (z : State) : exec (.mstat k f) z = execMstat k f z := rfl
theorem exec_cpy (k : Ctl) (f : FCu) (z : State) : exec (.cpy k f) z = execCpy k f z := rfl
theorem exec_cpyc (k : Ctl) (f : FCu) (z : State) : exec (.cpyc k f) z = execCpyc k f z := rfl
theorem exec_cpyg (k : Ctl) (f : FCu) (z : State) : exec (.cpyg k f) z = execCpyg k f z := rfl
theorem exec_cbatch (k : Ctl) (f : FCu) (z : State) : exec (.cbatch k f) z = execCbatch k f z := rfl
theorem exec_cwaitb (k : Ctl) (f : FCu) (z : State) : exec (.cwaitb k f) z = execCwaitb k f z := rfl
theorem exec_syncw (k : Ctl) (f : FCu) (z : State) : exec (.syncw k f) z = execSyncw k f z := rfl
theorem exec_syncwt (k : Ctl) (f : FCu) (z : State) : exec (.syncwt k f) z = execSyncwt k f z := rfl
theorem exec_syncwtInit (k : Ctl) (f : FCu) (z : State) : exec (.syncwtInit k f) z = execSyncwtInit k f z := rfl
theorem exec_csyncWait (k : Ctl) (f : FCu) (z : State) : exec (.csyncWait k f) z = execCsyncWait k f z := rfl
theorem exec_csyncStat (k : Ctl) (f : FCu) (z : State) : exec (.csyncStat k f) z = execCsyncStat k f z := rfl
theorem exec_csyncGo (k : Ctl) (f : FCu) (z : State) : exec (.csyncGo k f) z = execCsyncGo k f z := rfl
theorem exec_csyncDrop (k : Ctl) (f : FCu) (z : State) : exec (.csyncDrop k f) z = execCsyncDrop k f z := rfl
theorem exec_cgrp (k : Ctl) (f : FColl) (z : State) : exec (.cgrp k f) z = execCgrp k f z := rfl
theorem exec_cring (k : Ctl) (f : FColl) (z : State) : exec (.cring k f) z = execCring k f z := rfl
theorem exec_credu (k : Ctl) (f : FColl) (z : State) : exec (.credu k f) z = execCredu k f z := rfl
theorem exec_cgath (k : Ctl) (f : FColl) (z : State) : exec (.cgath k f) z = execCgath k f z := rfl
theorem exec_cbar (k : Ctl) (f : FColl) (z : State) : exec (.cbar k f) z = execCbar k f z := rfl
theorem exec_cwait (k : Ctl) (f : FColl) (z : State) : exec (.cwait k f) z = execCwait k f z := rfl
theorem exec_lnew (k : Ctl) (f : FLin) (z : State) : exec (.lnew k f) z = execLnew k f z := rfl
theorem exec_lmap (k : Ctl) (f : FLin) (z : State) : exec (.lmap k f) z = execLmap k f z := rfl
theorem exec_lunmap (k : Ctl) (f : FLin) (z : State) : exec (.lunmap k f) z = execLunmap k f z := rfl
theorem exec_fork (k : Ctl) (f : FLin) (z : State) : exec (.fork k f) z = execFork k f z := rfl
theorem exec_rebase (k : Ctl) (f : FLin) (z : State) : exec (.rebase k f) z = execRebase k f z := rfl
theorem exec_flatten (k : Ctl) (f : FLin) (z : State) : exec (.flatten k f) z = execFlatten k f z := rfl
theorem exec_drop (k : Ctl) (f : FLin) (z : State) : exec (.drop k f) z = execDrop k f z := rfl
theorem exec_lnq (k : Ctl) (f : FLin) (z : State) : exec (.lnq k f) z = execLnq k f z := rfl
theorem exec_ldiff (k : Ctl) (f : FLin) (z : State) : exec (.ldiff k f) z = execLdiff k f z := rfl
theorem exec_trap (k : Ctl) (f : FTrap) (z : State) : exec (.trap k f) z = execTrap k f z := rfl
theorem exec_eret (k : Ctl) (f : FNul) (z : State) : exec (.eret k f) z = execEret k f z := rfl
theorem exec_csrr (k : Ctl) (f : FRI) (z : State) : exec (.csrr k f) z = execCsrr k f z := rfl
theorem exec_csrw (k : Ctl) (f : FRI) (z : State) : exec (.csrw k f) z = execCsrw k f z := rfl
theorem exec_csrx (k : Ctl) (f : FRI) (z : State) : exec (.csrx k f) z = execCsrx k f z := rfl
theorem exec_tlbi (k : Ctl) (f : FTlbi) (z : State) : exec (.tlbi k f) z = execTlbi k f z := rfl
theorem exec_icinv (k : Ctl) (f : FM) (z : State) : exec (.icinv k f) z = execIcinv k f z := rfl
theorem exec_park (k : Ctl) (f : FPark) (z : State) : exec (.park k f) z = execPark k f z := rfl
theorem exec_trwb (k : Ctl) (f : FHawk) (z : State) : exec (.trwb k f) z = execTrwb k f z := rfl
theorem exec_trwl (k : Ctl) (f : FHawk) (z : State) : exec (.trwl k f) z = execTrwl k f z := rfl
theorem exec_trwu (k : Ctl) (f : FHawk) (z : State) : exec (.trwu k f) z = execTrwu k f z := rfl
theorem exec_trwq (k : Ctl) (f : FHawk) (z : State) : exec (.trwq k f) z = execTrwq k f z := rfl
theorem exec_trowel (k : Ctl) (f : FTrowel) (z : State) : exec (.trowel k f) z = execTrowel k f z := rfl
theorem exec_muCommandRun (t c : Nat) (z : State) : exec (.muCommandRun t c) z = execMuCommandRun t c z := rfl
theorem exec_cuCopyRun (t c : Nat) (z : State) : exec (.cuCopyRun t c) z = execCuCopyRun t c z := rfl
theorem exec_syncArrival (t c off amt : Nat) (z : State) : exec (.syncArrival t c off amt) z = execSyncArrival t c off amt z := rfl
theorem exec_collectiveRun (t c : Nat) (z : State) : exec (.collectiveRun t c) z = execCollectiveRun t c z := rfl
theorem exec_chunkArrival (n : Nat) (z : State) : exec (.chunkArrival n) z = execChunkArrival n z := rfl
theorem exec_chunkAck (t c rank seq idx : Nat) (z : State) : exec (.chunkAck t c rank seq idx) z = execChunkAck t c rank seq idx z := rfl
theorem exec_chunkResend (t c rank seq idx : Nat) (z : State) : exec (.chunkResend t c rank seq idx) z = execChunkResend t c rank seq idx z := rfl
theorem exec_noPathLimit (t c g : Nat) (z : State) : exec (.noPathLimit t c g) z = execNoPathLimit t c g z := rfl
theorem exec_lineageBlockRecompose (p node : Nat) (z : State) : exec (.lineageBlockRecompose p node) z = execLineageBlockRecompose p node z := rfl
theorem exec_lineageOpEnd (p node : Nat) (z : State) : exec (.lineageOpEnd p node) z = execLineageOpEnd p node z := rfl
theorem exec_lineageUndo (p node : Nat) (z : State) : exec (.lineageUndo p node) z = execLineageUndo p node z := rfl
theorem exec_classVResult (t c i n : Nat) (z : State) : exec (.classVResult t c i n) z = execClassVResult t c i n z := rfl
theorem exec_lineRefetch (t c i : Nat) (z : State) : exec (.lineRefetch t c i) z = execLineRefetch t c i z := rfl
theorem exec_trapEntry (t c i cause addr : Nat) (z : State) : exec (.trapEntry t c i cause addr) z = execTrapEntry t c i cause addr z := rfl
theorem exec_leaseGrant (t line : Nat) (z : State) : exec (.leaseGrant t line) z = execLeaseGrant t line z := rfl
theorem exec_leaseExpiry (t line : Nat) (z : State) : exec (.leaseExpiry t line) z = execLeaseExpiry t line z := rfl
theorem exec_fifoSend (t : Nat) (z : State) : exec (.fifoSend t) z = execFifoSend t z := rfl
theorem exec_storePerformAtSlice (d line : Nat) (z : State) : exec (.storePerformAtSlice d line) z = execStorePerformAtSlice d line z := rfl
theorem exec_releaseMarkerAck (t : Nat) (z : State) : exec (.releaseMarkerAck t) z = execReleaseMarkerAck t z := rfl
theorem exec_ownershipArrival (d line : Nat) (z : State) : exec (.ownershipArrival d line) z = execOwnershipArrival d line z := rfl
theorem exec_rds (ag line : Nat) (z : State) : exec (.rds ag line) z = execRds ag line z := rfl
theorem exec_rdx (ag line : Nat) (z : State) : exec (.rdx ag line) z = execRdx ag line z := rfl
theorem exec_upg (ag line : Nat) (z : State) : exec (.upg ag line) z = execUpg ag line z := rfl
theorem exec_wb (ag line : Nat) (z : State) : exec (.wb ag line) z = execWb ag line z := rfl
theorem exec_prs (ag line : Nat) (z : State) : exec (.prs ag line) z = execPrs ag line z := rfl
theorem exec_pri (ag line : Nat) (z : State) : exec (.pri ag line) z = execPri ag line z := rfl
theorem exec_prx (ag line : Nat) (z : State) : exec (.prx ag line) z = execPrx ag line z := rfl
theorem exec_snoopFilterVictim (line : Nat) (z : State) : exec (.snoopFilterVictim line) z = execSnoopFilterVictim line z := rfl
theorem exec_notPresentAnswer (ag line pid : Nat) (z : State) : exec (.notPresentAnswer ag line pid) z = execNotPresentAnswer ag line pid z := rfl
theorem exec_hostRead (pa mv : Nat) (z : State) : exec (.hostRead pa mv) z = execHostRead pa mv z := rfl
theorem exec_hostMemWr (pa data : Nat) (z : State) : exec (.hostMemWr pa data) z = execHostMemWr pa data z := rfl
theorem exec_bisnpAnswer (pa rsp : Nat) (z : State) : exec (.bisnpAnswer pa rsp) z = execBisnpAnswer pa rsp z := rfl
theorem exec_hostSnoop (pa kind : Nat) (z : State) : exec (.hostSnoop pa kind) z = execHostSnoop pa kind z := rfl
theorem exec_reservationGrant (line : Nat) (z : State) : exec (.reservationGrant line) z = execReservationGrant line z := rfl
theorem exec_reservationRelease (line : Nat) (z : State) : exec (.reservationRelease line) z = execReservationRelease line z := rfl
theorem exec_lrTimeout (t c i : Nat) (z : State) : exec (.lrTimeout t c i) z = execLrTimeout t c i z := rfl
theorem exec_hostLineSnoopAnswer (line : Nat) (z : State) : exec (.hostLineSnoopAnswer line) z = execHostLineSnoopAnswer line z := rfl
theorem exec_inboxDelivery (n : Nat) (z : State) : exec (.inboxDelivery n) z = execInboxDelivery n z := rfl
theorem exec_callatReturnDelivery (n : Nat) (z : State) : exec (.callatReturnDelivery n) z = execCallatReturnDelivery n z := rfl
theorem exec_heldReturnDelivery (t c : Nat) (z : State) : exec (.heldReturnDelivery t c) z = execHeldReturnDelivery t c z := rfl
theorem exec_ldsWake (t c i : Nat) (z : State) : exec (.ldsWake t c i) z = execLdsWake t c i z := rfl
theorem exec_wrsWake (t c i : Nat) (z : State) : exec (.wrsWake t c i) z = execWrsWake t c i z := rfl
theorem exec_wrsTimeout (t c i : Nat) (z : State) : exec (.wrsTimeout t c i) z = execWrsTimeout t c i z := rfl
theorem exec_joinRecheck (t c i : Nat) (z : State) : exec (.joinRecheck t c i) z = execJoinRecheck t c i z := rfl
theorem exec_parkTimeout (t c i : Nat) (z : State) : exec (.parkTimeout t c i) z = execParkTimeout t c i z := rfl
theorem exec_syncwWake (t c i : Nat) (z : State) : exec (.syncwWake t c i) z = execSyncwWake t c i z := rfl
theorem exec_remoteLoadWake (t c i : Nat) (z : State) : exec (.remoteLoadWake t c i) z = execRemoteLoadWake t c i z := rfl
theorem exec_narrowingMessage (n : Nat) (z : State) : exec (.narrowingMessage n) z = execNarrowingMessage n z := rfl
theorem exec_regionAccessAtSlice (t c i line wr : Nat) (z : State) : exec (.regionAccessAtSlice t c i line wr) z = execRegionAccessAtSlice t c i line wr z := rfl
theorem exec_sealAtSlice (t c i line : Nat) (z : State) : exec (.sealAtSlice t c i line) z = execSealAtSlice t c i line z := rfl
theorem exec_finalPositionBroadcast (t c i line : Nat) (z : State) : exec (.finalPositionBroadcast t c i line) z = execFinalPositionBroadcast t c i line z := rfl
theorem exec_regionAbort (t c i cause tc : Nat) (z : State) : exec (.regionAbort t c i cause tc) z = execRegionAbort t c i cause tc z := rfl
theorem exec_tokenGrant (t c i : Nat) (z : State) : exec (.tokenGrant t c i) z = execTokenGrant t c i z := rfl
theorem exec_launchSlotPoll (p q : Nat) (z : State) : exec (.launchSlotPoll p q) z = execLaunchSlotPoll p q z := rfl
theorem exec_launchStart (p q : Nat) (z : State) : exec (.launchStart p q) z = execLaunchStart p q z := rfl
theorem exec_dispatch (t : Nat) (z : State) : exec (.dispatch t) z = execDispatch t z := rfl
theorem exec_overflowMove (t : Nat) (z : State) : exec (.overflowMove t) z = execOverflowMove t z := rfl
theorem exec_stealRequest (t : Nat) (z : State) : exec (.stealRequest t) z = execStealRequest t z := rfl
theorem exec_balance (t : Nat) (z : State) : exec (.balance t) z = execBalance t z := rfl
theorem exec_successorSignal (n : Nat) (z : State) : exec (.successorSignal n) z = execSuccessorSignal n z := rfl
theorem exec_unitComplete (t c : Nat) (z : State) : exec (.unitComplete t c) z = execUnitComplete t c z := rfl
theorem exec_doneMessage (p l t : Nat) (z : State) : exec (.doneMessage p l t) z = execDoneMessage p l t z := rfl
theorem exec_redAck (n : Nat) (z : State) : exec (.redAck n) z = execRedAck n z := rfl
theorem exec_launchComplete (p l : Nat) (z : State) : exec (.launchComplete p l) z = execLaunchComplete p l z := rfl
theorem exec_preemptRequest (t c : Nat) (z : State) : exec (.preemptRequest t c) z = execPreemptRequest t c z := rfl
theorem exec_eviction (t c : Nat) (z : State) : exec (.eviction t c) z = execEviction t c z := rfl
theorem exec_becomeResumable (p n : Nat) (z : State) : exec (.becomeResumable p n) z = execBecomeResumable p n z := rfl
theorem exec_resume (t : Nat) (z : State) : exec (.resume t) z = execResume t z := rfl
theorem exec_foldedResume (t n : Nat) (z : State) : exec (.foldedResume t n) z = execFoldedResume t n z := rfl
theorem exec_nonresidentTraffic (n : Nat) (z : State) : exec (.nonresidentTraffic n) z = execNonresidentTraffic n z := rfl
theorem exec_watchdogStep1 (p q : Nat) (z : State) : exec (.watchdogStep1 p q) z = execWatchdogStep1 p q z := rfl
theorem exec_watchdogStep2 (p q : Nat) (z : State) : exec (.watchdogStep2 p q) z = execWatchdogStep2 p q z := rfl
theorem exec_watchdogStep3 (p q : Nat) (z : State) : exec (.watchdogStep3 p q) z = execWatchdogStep3 p q z := rfl
theorem exec_heartbeatSend (t dir : Nat) (z : State) : exec (.heartbeatSend t dir) z = execHeartbeatSend t dir z := rfl
theorem exec_heartbeatReceive (t dir tid hseq health : Nat) (z : State) : exec (.heartbeatReceive t dir tid hseq health) z = execHeartbeatReceive t dir tid hseq health z := rfl
theorem exec_periodJudgement (t dir : Nat) (z : State) : exec (.periodJudgement t dir) z = execPeriodJudgement t dir z := rfl
theorem exec_accusation (t target accuser judge : Nat) (z : State) : exec (.accusation t target accuser judge) z = execAccusation t target accuser judge z := rfl
theorem exec_voteExpiry (t dir : Nat) (z : State) : exec (.voteExpiry t dir) z = execVoteExpiry t dir z := rfl
theorem exec_fenceLearn (die x cause : Nat) (z : State) : exec (.fenceLearn die x cause) z = execFenceLearn die x cause z := rfl
theorem exec_orphanDiscard (n : Nat) (z : State) : exec (.orphanDiscard n) z = execOrphanDiscard n z := rfl
theorem exec_firmwareReferral (x fence : Nat) (z : State) : exec (.firmwareReferral x fence) z = execFirmwareReferral x fence z := rfl
theorem exec_bistResult (t pass : Nat) (z : State) : exec (.bistResult t pass) z = execBistResult t pass z := rfl
theorem exec_appeal (t dir : Nat) (z : State) : exec (.appeal t dir) z = execAppeal t dir z := rfl
theorem exec_probationEnd (t : Nat) (z : State) : exec (.probationEnd t) z = execProbationEnd t z := rfl
theorem exec_appealTimeout (t : Nat) (z : State) : exec (.appealTimeout t) z = execAppealTimeout t z := rfl
theorem exec_correctableError (kind id : Nat) (z : State) : exec (.correctableError kind id) z = execCorrectableError kind id z := rfl
theorem exec_bucketLeak (kind id : Nat) (z : State) : exec (.bucketLeak kind id) z = execBucketLeak kind id z := rfl
theorem exec_ueDetected (t c i va : Nat) (z : State) : exec (.ueDetected t c i va) z = execUeDetected t c i va z := rfl
theorem exec_registerUe (t c i : Nat) (z : State) : exec (.registerUe t c i) z = execRegisterUe t c i z := rfl
theorem exec_dramScrub (line : Nat) (z : State) : exec (.dramScrub line) z = execDramScrub line z := rfl
theorem exec_sdc (t c i addr unit : Nat) (z : State) : exec (.sdc t c i addr unit) z = execSdc t c i addr unit z := rfl
theorem exec_dieFail (d : Nat) (z : State) : exec (.dieFail d) z = execDieFail d z := rfl
theorem exec_partFail (q : Nat) (z : State) : exec (.partFail q) z = execPartFail q z := rfl
theorem exec_laneFailure (port : Nat) (z : State) : exec (.laneFailure port) z = execLaneFailure port z := rfl
theorem exec_portDown (link : Nat) (z : State) : exec (.portDown link) z = execPortDown link z := rfl
theorem exec_d2dWireSpare (j : Nat) (z : State) : exec (.d2dWireSpare j) z = execD2dWireSpare j z := rfl
theorem exec_currentMonitorSample (d amps : Nat) (z : State) : exec (.currentMonitorSample d amps) z = execCurrentMonitorSample d amps z := rfl
theorem exec_powerSample (amps watts temp : Nat) (z : State) : exec (.powerSample amps watts temp) z = execPowerSample amps watts temp z := rfl
theorem exec_coldReset (fails : Nat) (z : State) : exec (.coldReset fails) z = execColdReset fails z := rfl
theorem exec_fatalDump (cause : Nat) (z : State) : exec (.fatalDump cause) z = execFatalDump cause z := rfl
theorem exec_launchQueueTailWrite (p q v : Nat) (z : State) : exec (.launchQueueTailWrite p q v) z = execLaunchQueueTailWrite p q v z := rfl
theorem exec_launchQueueEnable (p q v fromS : Nat) (z : State) : exec (.launchQueueEnable p q v fromS) z = execLaunchQueueEnable p q v fromS z := rfl
theorem exec_launchQueueDescWrite (p q off v fromS : Nat) (z : State) : exec (.launchQueueDescWrite p q off v fromS) z = execLaunchQueueDescWrite p q off v fromS z := rfl
theorem exec_eventRingHeadWrite (p v : Nat) (z : State) : exec (.eventRingHeadWrite p v) z = execEventRingHeadWrite p v z := rfl
theorem exec_eventRingDescWrite (p v : Nat) (z : State) : exec (.eventRingDescWrite p v) z = execEventRingDescWrite p v z := rfl
theorem exec_lpoolWrite (p v : Nat) (z : State) : exec (.lpoolWrite p v) z = execLpoolWrite p v z := rfl
theorem exec_lsplitWrite (t v : Nat) (z : State) : exec (.lsplitWrite t v) z = execLsplitWrite t v z := rfl
theorem exec_lgrpWrite (t v : Nat) (z : State) : exec (.lgrpWrite t v) z = execLgrpWrite t v z := rfl
theorem exec_leaseWrite (p v : Nat) (z : State) : exec (.leaseWrite p v) z = execLeaseWrite p v z := rfl
theorem exec_balWrite (p v : Nat) (z : State) : exec (.balWrite p v) z = execBalWrite p v z := rfl
theorem exec_rlimitWrite (t c v : Nat) (z : State) : exec (.rlimitWrite t c v) z = execRlimitWrite t c v z := rfl
theorem exec_hbperWrite (t v : Nat) (z : State) : exec (.hbperWrite t v) z = execHbperWrite t v z := rfl
theorem exec_histWrite (t n v : Nat) (z : State) : exec (.histWrite t n v) z = execHistWrite t n v z := rfl
theorem exec_mprWrite (t c v : Nat) (z : State) : exec (.mprWrite t c v) z = execMprWrite t c v z := rfl
theorem exec_ptbrWrite (t c v : Nat) (z : State) : exec (.ptbrWrite t c v) z = execPtbrWrite t c v z := rfl
theorem exec_lsegWrite (t c i v : Nat) (z : State) : exec (.lsegWrite t c i v) z = execLsegWrite t c i v z := rfl
theorem exec_tsrWrite (t c i v : Nat) (z : State) : exec (.tsrWrite t c i v) z = execTsrWrite t c i v z := rfl
theorem exec_registerWrite (off v view : Nat) (z : State) : exec (.registerWrite off v view) z = execRegisterWrite off v view z := rfl
theorem exec_spuriousWake (t c i : Nat) (z : State) : exec (.spuriousWake t c i) z = execSpuriousWake t c i z := rfl
theorem exec_yieldHoldExpiry (t c i : Nat) (z : State) : exec (.yieldHoldExpiry t c i) z = execYieldHoldExpiry t c i z := rfl
theorem exec_lineEviction (kind ag line : Nat) (z : State) : exec (.lineEviction kind ag line) z = execLineEviction kind ag line z := rfl

end Sys2Proof.Machine
end

