-- ==== Sys2Proof/Laws/Encode.lean ====
section
/-! SUPPORT. Packing fields and taking them out again, the decoder on the words that the encoder makes, one equation for each
format, and the size of those words. -/

namespace Sys2Proof

/-- Every field of a layout fits its width. -/
def fits (l : List (Nat × Nat)) : Prop := ∀ e ∈ l, e.2 < 2 ^ e.1

theorem fits_nil : fits [] := fun _ h => absurd h (by simp)

theorem fits_cons {n v : Nat} {l : List (Nat × Nat)} : fits ((n, v) :: l) ↔ v < 2 ^ n ∧ fits l := by
  unfold fits; simp

theorem fits_append {l m : List (Nat × Nat)} : fits (l ++ m) ↔ fits l ∧ fits m := by
  unfold fits; simp only [List.mem_append]; constructor
  · exact fun h => ⟨fun e he => h e (.inl he), fun e he => h e (.inr he)⟩
  · rintro ⟨a, b⟩ e (he | he); exacts [a e he, b e he]

/-- Fields that fit come out of a word as they went in, whatever lies above them. -/
theorem unpack_pack {l : List (Nat × Nat)} (m : List (Nat × Nat)) (h : fits l) :
    unpack (l.map Prod.fst) (pack (l ++ m)) = l.map Prod.snd := by
  induction l with
  | nil => rfl
  | cons e l ih =>
    obtain ⟨n, v⟩ := e
    obtain ⟨hv, hl⟩ := fits_cons.1 h
    have hp : 0 < 2 ^ n := Nat.two_pow_pos n
    simp only [List.map_cons, List.cons_append, pack, unpack, List.cons.injEq]
    refine ⟨?_, ?_⟩
    · rw [Nat.add_mul_mod_self_left, Nat.mod_eq_of_lt hv]
    · rw [Nat.add_mul_div_left _ _ hp, Nat.div_eq_of_lt hv, Nat.zero_add]
      exact ih hl

/-- What lies above the fields of a word. -/
theorem pack_above {l : List (Nat × Nat)} (m : List (Nat × Nat)) (h : fits l) :
    pack (l ++ m) / 2 ^ (l.map Prod.fst).sum = pack m := by
  induction l with
  | nil => simp
  | cons e l ih =>
    obtain ⟨n, v⟩ := e
    obtain ⟨hv, hl⟩ := fits_cons.1 h
    have hp : 0 < 2 ^ n := Nat.two_pow_pos n
    simp only [List.map_cons, List.cons_append, pack, List.sum_cons, Nat.pow_add]
    rw [← Nat.div_div_eq_div_mul, Nat.add_mul_div_left _ _ hp, Nat.div_eq_of_lt hv, Nat.zero_add]
    exact ih hl

/-- A word is no longer than its fields. -/
theorem pack_lt {l : List (Nat × Nat)} (h : fits l) : pack l < 2 ^ (l.map Prod.fst).sum := by
  induction l with
  | nil => simp [pack]
  | cons e l ih =>
    obtain ⟨n, v⟩ := e
    obtain ⟨hv, hl⟩ := fits_cons.1 h
    have := ih hl
    simp only [List.map_cons, pack, List.sum_cons, Nat.pow_add]
    calc v + 2 ^ n * pack l < 2 ^ n + 2 ^ n * pack l := by omega
      _ = 2 ^ n * (pack l + 1) := by ring
      _ ≤ 2 ^ n * 2 ^ (l.map Prod.fst).sum := Nat.mul_le_mul_left _ this

/-- The common fields fit when the opcode does and the control field is legal (R55, R56). -/
theorem fits_common {op : Nat} {k : Ctl} (ho : op < 1024) (hk : k.ok = true) :
    fits [(3, k.pg), (1, b2n k.pn), (10, op), (1, b2n k.s)] := by
  have hg : k.pg < 8 := by
    unfold Ctl.ok at hk; simp only [Bool.and_eq_true, decide_eq_true_eq] at hk; exact hk.1
  refine fits_cons.2 ⟨hg, fits_cons.2 ⟨?_, fits_cons.2 ⟨ho, fits_cons.2 ⟨?_, fits_nil⟩⟩⟩⟩
  · cases k.pn <;> decide
  · cases k.s <;> decide

/-- A word has 96 bits. -/
theorem word_lt {op : Nat} {k : Ctl} {l : List (Nat × Nat)} (ho : op < 1024) (hk : k.ok = true) (h : fits l)
    (hs : (l.map Prod.fst).sum = 81) : word op k l < 2 ^ 96 := by
  have := pack_lt (fits_append.2 ⟨h, fits_common ho hk⟩)
  simpa [word, hs] using this

/-- The common fields of a word. -/
theorem word_common {op : Nat} {k : Ctl} {l : List (Nat × Nat)} (ho : op < 1024) (hk : k.ok = true) (h : fits l)
    (hs : (l.map Prod.fst).sum = 81) :
    bits (word op k l) 81 3 = k.pg ∧ bit (word op k l) 84 = k.pn ∧ bits (word op k l) 85 10 = op ∧ bit (word op k l) 95 = k.s := by
  have hc := fits_common ho hk
  have ha : word op k l / 2 ^ 81 = pack [(3, k.pg), (1, b2n k.pn), (10, op), (1, b2n k.s)] := by
    rw [← hs]; exact pack_above _ h
  have hu := unpack_pack (l := [(3, k.pg), (1, b2n k.pn), (10, op), (1, b2n k.s)]) [] hc
  simp only [List.map_cons, List.map_nil, List.append_nil, unpack, ← ha, List.cons.injEq, Nat.div_div_eq_div_mul] at hu
  obtain ⟨h1, h2, h3, h4, -⟩ := hu
  have e : ∀ a b : Nat, (2 : Nat) ^ a * 2 ^ b = 2 ^ (a + b) := fun a b => (Nat.pow_add 2 a b).symm
  refine ⟨h1, ?_, ?_, ?_⟩
  · unfold bit bits
    have : word op k l / 2 ^ 84 % 2 ^ 1 = b2n k.pn := by simpa [e] using h2
    rw [this]; cases k.pn <;> rfl
  · unfold bits; simpa [e] using h3
  · unfold bit bits
    have : word op k l / 2 ^ 95 % 2 ^ 1 = b2n k.s := by simpa [e] using h4
    rw [this]; cases k.s <;> rfl

/-- The decoder on a word of the encoder: its opcode's reader and the checks. -/
theorem decode_word {op : Nat} {k : Ctl} {l : List (Nat × Nat)} (ho : op < 1024) (hk : k.ok = true) (h : fits l)
    (hs : (l.map Prod.fst).sum = 81) :
    decode (word op k l) = (decodeOp op k (word op k l)).bind fun i => if i.wf then .ok i else .error .notAccepted := by
  obtain ⟨h1, h2, h3, h4⟩ := word_common ho hk h hs
  unfold decode
  rw [h1, h2, h3, h4]

/-! Each format's reader gives back the fields of a word that holds them. -/

theorem FRR.read_word {op : Nat} {k : Ctl} {f : FRR} (h : fits f.layout) : FRR.read (word op k f.layout) = .ok f := by
  unfold FRR.read word
  have := unpack_pack [(3, k.pg), (1, b2n k.pn), (10, op), (1, b2n k.s)] h
  simp only [FRR.layout, List.map_cons, List.map_nil] at this ⊢
  rw [this]
  rfl

theorem FRI.read_word {op : Nat} {k : Ctl} {f : FRI} (h : fits f.layout) : FRI.read (word op k f.layout) = .ok f := by
  unfold FRI.read word
  have := unpack_pack [(3, k.pg), (1, b2n k.pn), (10, op), (1, b2n k.s)] h
  simp only [FRI.layout, List.map_cons, List.map_nil] at this ⊢
  rw [this]
  rfl

theorem FAI.read_word {op : Nat} {k : Ctl} {f : FAI} (h : fits f.layout) : FAI.read (word op k f.layout) = .ok f := by
  unfold FAI.read word
  have := unpack_pack [(3, k.pg), (1, b2n k.pn), (10, op), (1, b2n k.s)] h
  simp only [FAI.layout, List.map_cons, List.map_nil] at this ⊢
  rw [this]

theorem FM.read_word {op : Nat} {k : Ctl} {f : FM} (h : fits f.layout) : FM.read (word op k f.layout) = .ok f := by
  unfold FM.read word
  have := unpack_pack [(3, k.pg), (1, b2n k.pn), (10, op), (1, b2n k.s)] h
  simp only [FM.layout, List.map_cons, List.map_nil] at this ⊢
  rw [this]
  rfl

theorem FB.read_word {op : Nat} {k : Ctl} {f : FB} (h : fits f.layout) : FB.read (word op k f.layout) = .ok f := by
  unfold FB.read word
  have := unpack_pack [(3, k.pg), (1, b2n k.pn), (10, op), (1, b2n k.s)] h
  simp only [FB.layout, List.map_cons, List.map_nil] at this ⊢
  rw [this]
  rfl

theorem FV.read_word {op : Nat} {k : Ctl} {f : FV} (h : fits f.layout) : FV.read (word op k f.layout) = .ok f := by
  unfold FV.read word
  have := unpack_pack [(3, k.pg), (1, b2n k.pn), (10, op), (1, b2n k.s)] h
  simp only [FV.layout, List.map_cons, List.map_nil] at this ⊢
  rw [this]
  rfl

theorem FE.read_word {op : Nat} {k : Ctl} {f : FE} (h : fits f.layout) : FE.read (word op k f.layout) = .ok f := by
  unfold FE.read word
  have := unpack_pack [(3, k.pg), (1, b2n k.pn), (10, op), (1, b2n k.s)] h
  simp only [FE.layout, List.map_cons, List.map_nil] at this ⊢
  rw [this]
  rfl

theorem FLoopi.read_word {op : Nat} {k : Ctl} {f : FLoopi} (h : fits f.layout) : FLoopi.read (word op k f.layout) = .ok f := by
  unfold FLoopi.read word
  have := unpack_pack [(3, k.pg), (1, b2n k.pn), (10, op), (1, b2n k.s)] h
  simp only [FLoopi.layout, List.map_cons, List.map_nil] at this ⊢
  rw [this]
  rfl

theorem FCallat.read_word {op : Nat} {k : Ctl} {f : FCallat} (h : fits f.layout) : FCallat.read (word op k f.layout) = .ok f := by
  unfold FCallat.read word
  have := unpack_pack [(3, k.pg), (1, b2n k.pn), (10, op), (1, b2n k.s)] h
  simp only [FCallat.layout, List.map_cons, List.map_nil] at this ⊢
  rw [this]
  rfl

theorem FAtom.read_word {op : Nat} {k : Ctl} {f : FAtom} (h : fits f.layout) : FAtom.read (word op k f.layout) = .ok f := by
  unfold FAtom.read word
  have := unpack_pack [(3, k.pg), (1, b2n k.pn), (10, op), (1, b2n k.s)] h
  simp only [FAtom.layout, List.map_cons, List.map_nil] at this ⊢
  rw [this]
  rfl

theorem FAppend.read_word {op : Nat} {k : Ctl} {f : FAppend} (h : fits f.layout) : FAppend.read (word op k f.layout) = .ok f := by
  unfold FAppend.read word
  have := unpack_pack [(3, k.pg), (1, b2n k.pn), (10, op), (1, b2n k.s)] h
  simp only [FAppend.layout, List.map_cons, List.map_nil] at this ⊢
  rw [this]
  rfl

theorem FFence.read_word {op : Nat} {k : Ctl} {f : FFence} (h : fits f.layout) : FFence.read (word op k f.layout) = .ok f := by
  unfold FFence.read word
  have := unpack_pack [(3, k.pg), (1, b2n k.pn), (10, op), (1, b2n k.s)] h
  simp only [FFence.layout, List.map_cons, List.map_nil] at this ⊢
  rw [this]
  rfl

theorem FRegion.read_word {op : Nat} {k : Ctl} {f : FRegion} (h : fits f.layout) : FRegion.read (word op k f.layout) = .ok f := by
  unfold FRegion.read word
  have := unpack_pack [(3, k.pg), (1, b2n k.pn), (10, op), (1, b2n k.s)] h
  simp only [FRegion.layout, List.map_cons, List.map_nil] at this ⊢
  rw [this]
  rfl

theorem FMu.read_word {op : Nat} {k : Ctl} {f : FMu} (h : fits f.layout) : FMu.read (word op k f.layout) = .ok f := by
  unfold FMu.read word
  have := unpack_pack [(3, k.pg), (1, b2n k.pn), (10, op), (1, b2n k.s)] h
  simp only [FMu.layout, List.map_cons, List.map_nil] at this ⊢
  rw [this]
  rfl

theorem FCu.read_word {op : Nat} {k : Ctl} {f : FCu} (h : fits f.layout) : FCu.read (word op k f.layout) = .ok f := by
  unfold FCu.read word
  have := unpack_pack [(3, k.pg), (1, b2n k.pn), (10, op), (1, b2n k.s)] h
  simp only [FCu.layout, List.map_cons, List.map_nil] at this ⊢
  rw [this]

theorem FColl.read_word {op : Nat} {k : Ctl} {f : FColl} (h : fits f.layout) : FColl.read (word op k f.layout) = .ok f := by
  unfold FColl.read word
  have := unpack_pack [(3, k.pg), (1, b2n k.pn), (10, op), (1, b2n k.s)] h
  simp only [FColl.layout, List.map_cons, List.map_nil] at this ⊢
  rw [this]
  rfl

theorem FLin.read_word {op : Nat} {k : Ctl} {f : FLin} (h : fits f.layout) : FLin.read (word op k f.layout) = .ok f := by
  unfold FLin.read word
  have := unpack_pack [(3, k.pg), (1, b2n k.pn), (10, op), (1, b2n k.s)] h
  simp only [FLin.layout, List.map_cons, List.map_nil] at this ⊢
  rw [this]
  rfl

theorem FTrap.read_word {op : Nat} {k : Ctl} {f : FTrap} (h : fits f.layout) : FTrap.read (word op k f.layout) = .ok f := by
  unfold FTrap.read word
  have := unpack_pack [(3, k.pg), (1, b2n k.pn), (10, op), (1, b2n k.s)] h
  simp only [FTrap.layout, List.map_cons, List.map_nil] at this ⊢
  rw [this]
  rfl

theorem FNul.read_word {op : Nat} {k : Ctl} {f : FNul} (h : fits f.layout) : FNul.read (word op k f.layout) = .ok f := by
  unfold FNul.read word
  have := unpack_pack [(3, k.pg), (1, b2n k.pn), (10, op), (1, b2n k.s)] h
  simp only [FNul.layout, List.map_cons, List.map_nil] at this ⊢
  rw [this]
  rfl

theorem FTlbi.read_word {op : Nat} {k : Ctl} {f : FTlbi} (h : fits f.layout) : FTlbi.read (word op k f.layout) = .ok f := by
  unfold FTlbi.read word
  have := unpack_pack [(3, k.pg), (1, b2n k.pn), (10, op), (1, b2n k.s)] h
  simp only [FTlbi.layout, List.map_cons, List.map_nil] at this ⊢
  rw [this]
  rfl

theorem FPark.read_word {op : Nat} {k : Ctl} {f : FPark} (h : fits f.layout) : FPark.read (word op k f.layout) = .ok f := by
  unfold FPark.read word
  have := unpack_pack [(3, k.pg), (1, b2n k.pn), (10, op), (1, b2n k.s)] h
  simp only [FPark.layout, List.map_cons, List.map_nil] at this ⊢
  rw [this]
  rfl

theorem FHawk.read_word {op : Nat} {k : Ctl} {f : FHawk} (h : fits f.layout) : FHawk.read (word op k f.layout) = .ok f := by
  unfold FHawk.read word
  have := unpack_pack [(3, k.pg), (1, b2n k.pn), (10, op), (1, b2n k.s)] h
  simp only [FHawk.layout, List.map_cons, List.map_nil] at this ⊢
  rw [this]
  rfl

theorem FTrowel.read_word {op : Nat} {k : Ctl} {f : FTrowel} (h : fits f.layout) : FTrowel.read f.op (word op k f.layout) = .ok f := by
  unfold FTrowel.read word
  have := unpack_pack [(3, k.pg), (1, b2n k.pn), (10, op), (1, b2n k.s)] h
  simp only [FTrowel.layout, List.map_cons, List.map_nil] at this ⊢
  rw [this]
  rfl

/-! Each layout has 81 bits. -/

theorem FRR.layout_sum (f : FRR) : (f.layout.map Prod.fst).sum = 81 := rfl
theorem FRI.layout_sum (f : FRI) : (f.layout.map Prod.fst).sum = 81 := rfl
theorem FAI.layout_sum (f : FAI) : (f.layout.map Prod.fst).sum = 81 := rfl
theorem FM.layout_sum (f : FM) : (f.layout.map Prod.fst).sum = 81 := rfl
theorem FB.layout_sum (f : FB) : (f.layout.map Prod.fst).sum = 81 := rfl
theorem FV.layout_sum (f : FV) : (f.layout.map Prod.fst).sum = 81 := rfl
theorem FE.layout_sum (f : FE) : (f.layout.map Prod.fst).sum = 81 := rfl
theorem FLoopi.layout_sum (f : FLoopi) : (f.layout.map Prod.fst).sum = 81 := rfl
theorem FCallat.layout_sum (f : FCallat) : (f.layout.map Prod.fst).sum = 81 := rfl
theorem FAtom.layout_sum (f : FAtom) : (f.layout.map Prod.fst).sum = 81 := rfl
theorem FAppend.layout_sum (f : FAppend) : (f.layout.map Prod.fst).sum = 81 := rfl
theorem FFence.layout_sum (f : FFence) : (f.layout.map Prod.fst).sum = 81 := rfl
theorem FRegion.layout_sum (f : FRegion) : (f.layout.map Prod.fst).sum = 81 := rfl
theorem FMu.layout_sum (f : FMu) : (f.layout.map Prod.fst).sum = 81 := rfl
theorem FCu.layout_sum (f : FCu) : (f.layout.map Prod.fst).sum = 81 := rfl
theorem FColl.layout_sum (f : FColl) : (f.layout.map Prod.fst).sum = 81 := rfl
theorem FLin.layout_sum (f : FLin) : (f.layout.map Prod.fst).sum = 81 := rfl
theorem FTrap.layout_sum (f : FTrap) : (f.layout.map Prod.fst).sum = 81 := rfl
theorem FNul.layout_sum (f : FNul) : (f.layout.map Prod.fst).sum = 81 := rfl
theorem FTlbi.layout_sum (f : FTlbi) : (f.layout.map Prod.fst).sum = 81 := rfl
theorem FPark.layout_sum (f : FPark) : (f.layout.map Prod.fst).sum = 81 := rfl
theorem FHawk.layout_sum (f : FHawk) : (f.layout.map Prod.fst).sum = 81 := rfl
theorem FTrowel.layout_sum (f : FTrowel) : (f.layout.map Prod.fst).sum = 81 := rfl

/-! The fields of a well-formed body fit their layout (R57 to R60). -/

/-- A code of a list is below a bound of every entry. -/
theorem lt_of_contains {l : List Nat} {x n : Nat} (h : l.contains x = true) (hl : ∀ y ∈ l, y < n) : x < n :=
  hl x (by simpa using h)

/-- Bits within a mask make no number above it. -/
theorem lt_of_mask {x m n : Nat} (h : (x &&& m == x) = true) (hm : m < n) : x < n := by
  have := Nat.and_le_right (n := x) (m := m)
  rw [beq_iff_eq.1 h] at this; omega

theorem ordq_lt {o : Nat} (h : ordqOk o = true) : o < 16 := by
  simp only [ordqOk, Bool.and_eq_true, decide_eq_true_eq] at h; omega

theorem FRR.fits_of_ok {f : FRR} {d a b c : Nat} {fns : List Nat} (h : f.ok d a b c fns = true) (hd : d ≤ 64) (ha : a ≤ 64)
    (hb : b ≤ 64) (hc : c ≤ 64) (hf : ∀ y ∈ fns, y < 16) : fits f.layout := by
  simp only [FRR.ok, Bool.and_eq_true, decide_eq_true_eq] at h
  obtain ⟨⟨⟨⟨h1, h2⟩, h3⟩, h4⟩, h5⟩ := h
  have := lt_of_contains h5 hf
  simp only [FRR.layout, fits_cons]
  refine ⟨by decide, ?_, ?_, ?_, ?_, ?_, fits_nil⟩ <;> omega

theorem FRI.fits_of_ok {f : FRI} {d a : Nat} {fns : List Nat} (h : f.ok d a fns = true) (hd : d ≤ 64) (ha : a ≤ 64)
    (hf : ∀ y ∈ fns, y < 16) : fits f.layout := by
  simp only [FRI.ok, Bool.and_eq_true, decide_eq_true_eq] at h
  obtain ⟨⟨⟨h1, h2⟩, h3⟩, h4⟩ := h
  have := lt_of_contains h3 hf
  simp only [FRI.layout, fits_cons]
  refine ⟨?_, by decide, ?_, ?_, ?_, fits_nil⟩ <;> omega

theorem FM.fits_of_ok {f : FM} {d : Nat} {szs : List Nat} {o : Bool} (h : f.ok d szs o = true) (hd : d ≤ 64)
    (hf : ∀ y ∈ szs, y < 16) : fits f.layout := by
  simp only [FM.ok, Bool.and_eq_true, decide_eq_true_eq] at h
  obtain ⟨⟨⟨⟨⟨⟨h1, h2⟩, h3⟩, h4⟩, h5⟩, h6⟩, h7⟩ := h
  have := lt_of_contains h5 hf
  have : f.ordq < 16 := by
    cases o with
    | true => exact ordq_lt h6
    | false => have : f.ordq = 0 := by simpa using h6
               omega
  simp only [FM.layout, fits_cons]
  refine ⟨?_, by decide, ?_, ?_, ?_, ?_, ?_, ?_, fits_nil⟩ <;> omega

theorem FB.fits_of_ok {f : FB} {a b : Nat} {cs fns : List Nat} (h : f.ok a b cs fns = true) (ha : a ≤ 64) (hb : b ≤ 64)
    (hc : ∀ y ∈ cs, y < 16) (hf : ∀ y ∈ fns, y < 16) : fits f.layout := by
  simp only [FB.ok, Bool.and_eq_true, decide_eq_true_eq] at h
  obtain ⟨⟨⟨⟨⟨h1, h2⟩, h3⟩, h4⟩, h5⟩, h6⟩ := h
  have := lt_of_contains h3 hc
  have := lt_of_contains h4 hf
  simp only [FB.layout, fits_cons]
  refine ⟨?_, ?_, by decide, ?_, ?_, ?_, ?_, fits_nil⟩ <;> omega

theorem FV.fits_of_ok {f : FV} {vd va vb vc km ss imm : Nat} {ts fns : List Nat} (h : f.ok vd va vb vc km ss ts fns imm = true)
    (h1 : vd ≤ 32) (h2 : va ≤ 32) (h3 : vb ≤ 32) (h4 : vc ≤ 32) (h5 : km ≤ 8) (h6 : ss ≤ 64) (h7 : imm ≤ 2 ^ 32)
    (ht : ∀ y ∈ ts, y < 16) (hf : ∀ y ∈ fns, y < 16) : fits f.layout := by
  simp only [FV.ok, Bool.and_eq_true, decide_eq_true_eq] at h
  obtain ⟨⟨⟨⟨⟨⟨⟨⟨⟨g1, g2⟩, g3⟩, g4⟩, g5⟩, g6⟩, g7⟩, g8⟩, g9⟩, g10⟩ := h
  have := lt_of_contains g7 ht
  have := lt_of_contains g8 hf
  simp only [FV.layout, fits_cons]
  refine ⟨?_, by decide, ?_, ?_, ?_, ?_, ?_, ?_, ?_, ?_, ?_, fits_nil⟩ <;> omega

theorem FE.fits_of_ok {f : FE} {full : Bool} {mode ext : Nat} (h : f.ok full mode ext = true) (hm : mode ≤ 16) (he : ext ≤ 32) :
    fits f.layout := by
  simp only [FE.ok, Bool.and_eq_true, decide_eq_true_eq] at h
  obtain ⟨⟨⟨⟨⟨⟨⟨⟨⟨g1, g2⟩, g3⟩, g4⟩, g5⟩, g6⟩, g7⟩, g8⟩, g9⟩, g10⟩ := h
  have : (if full = true then 32 else 1) ≤ 32 := by split <;> omega
  have : (if full = true then 64 else 1) ≤ 64 := by split <;> omega
  simp only [FE.layout, fits_cons]
  refine ⟨by decide, ?_, ?_, ?_, ?_, ?_, ?_, ?_, ?_, ?_, ?_, fits_nil⟩ <;> omega

theorem FAtom.fits_of_ok {f : FAtom} {d b : Nat} {fns : List Nat} (h : f.ok d b fns = true) (hd : d ≤ 64) (hb : b ≤ 64)
    (hf : ∀ y ∈ fns, y < 32) : fits f.layout := by
  simp only [FAtom.ok, Bool.and_eq_true, decide_eq_true_eq] at h
  obtain ⟨⟨⟨⟨⟨⟨⟨g1, g2⟩, g3⟩, g4⟩, g5⟩, g6⟩, g7⟩, g8⟩ := h
  have := ordq_lt g5
  have := lt_of_contains (n := 16) g6 (by decide)
  have := lt_of_contains g7 hf
  simp only [FAtom.layout, fits_cons]
  refine ⟨?_, by decide, ?_, ?_, ?_, ?_, ?_, ?_, ?_, fits_nil⟩ <;> omega

theorem FAppend.fits_of_ok {f : FAppend} {a t ar fn : Nat} (h : f.ok a t ar fn = true) (ha : a ≤ 64) (ht : t ≤ 64) (hr : ar ≤ 32)
    (hf : fn < 8) (hn : f.n < 16) : fits f.layout := by
  simp only [FAppend.ok, Bool.and_eq_true, decide_eq_true_eq, beq_iff_eq] at h
  obtain ⟨⟨⟨⟨g1, g2⟩, g3⟩, g4⟩, g5⟩ := h
  simp only [FAppend.layout, fits_cons]
  refine ⟨by decide, ?_, ?_, ?_, ?_, ?_, ?_, fits_nil⟩ <;> omega

theorem FRegion.fits_of_ok {f : FRegion} {d e pd ar imm : Nat} {fns : List Nat} (h : f.ok d e pd ar fns imm = true) (hd : d ≤ 64)
    (he : e ≤ 64) (hp : pd ≤ 8) (hr : ar ≤ 32) (hf : ∀ y ∈ fns, y < 16) (hi : imm ≤ 2 ^ 32) : fits f.layout := by
  simp only [FRegion.ok, Bool.and_eq_true, decide_eq_true_eq] at h
  obtain ⟨⟨⟨⟨⟨g1, g2⟩, g3⟩, g4⟩, g5⟩, g6⟩ := h
  have := lt_of_contains g5 hf
  simp only [FRegion.layout, fits_cons]
  refine ⟨?_, by decide, ?_, ?_, by decide, ?_, ?_, ?_, fits_nil⟩ <;> omega

theorem FMu.fits_of_ok {f : FMu} {d vr acc row : Nat} {fns : List Nat} (h : f.ok d vr acc row fns = true) (hd : d ≤ 64)
    (hv : vr ≤ 32) (ha : acc ≤ 4) (hr : row ≤ 32) (hf : ∀ y ∈ fns, y < 16) : fits f.layout := by
  simp only [FMu.ok, Bool.and_eq_true, decide_eq_true_eq] at h
  obtain ⟨⟨⟨⟨g1, g2⟩, g3⟩, g4⟩, g5⟩ := h
  have := lt_of_contains g5 hf
  simp only [FMu.layout, fits_cons]
  refine ⟨by decide, ?_, ?_, ?_, ?_, ?_, fits_nil⟩ <;> omega

theorem FCu.fits_of_ok {f : FCu} {ad as n t ay ar ai : Nat} (h : f.ok ad as n t ay ar ai = true) (h1 : ad ≤ 32) (h2 : as ≤ 32)
    (h3 : n ≤ 64) (h4 : t ≤ 64) (h5 : ay ≤ 32) (h6 : ar ≤ 32) (h7 : ai ≤ 32) (g1 : f.td < 16) (g2 : f.ts < 16) (g3 : f.tr < 16)
    (g4 : f.rm < 4) (g5 : f.sc < 64) (g6 : f.imm < 65536) : fits f.layout := by
  simp only [FCu.ok, Bool.and_eq_true, decide_eq_true_eq] at h
  obtain ⟨⟨⟨⟨⟨⟨⟨i1, i2⟩, i3⟩, i4⟩, i5⟩, i6⟩, i7⟩, i8⟩ := h
  simp only [FCu.layout, fits_cons]
  refine ⟨?_, ?_, ?_, ?_, ?_, ?_, ?_, ?_, ?_, ?_, ?_, ?_, ?_, ?_, fits_nil⟩ <;> omega

theorem FCu.fits_of_plain {f : FCu} {ad as n t ay ar ai td imm : Nat} (h : f.ok ad as n t ay ar ai = true)
    (hp : f.plain td imm = true) (h1 : ad ≤ 32) (h2 : as ≤ 32) (h3 : n ≤ 64) (h4 : t ≤ 64) (h5 : ay ≤ 32) (h6 : ar ≤ 32)
    (h7 : ai ≤ 32) (h8 : td ≤ 16) (h9 : imm ≤ 65536) : fits f.layout := by
  simp only [FCu.plain, Bool.and_eq_true, decide_eq_true_eq, beq_iff_eq] at hp
  obtain ⟨⟨⟨⟨⟨g1, g2⟩, g3⟩, g4⟩, g5⟩, g6⟩ := hp
  exact FCu.fits_of_ok h h1 h2 h3 h4 h5 h6 h7 (by omega) (by omega) (by omega) (by omega) (by omega) (by omega)

theorem FColl.fits_of_ok {f : FColl} {d ad as n k fn : Nat} {tys : List Nat} (h : f.ok d ad as n k tys fn = true) (hd : d ≤ 64)
    (h1 : ad ≤ 32) (h2 : as ≤ 32) (h3 : n ≤ 64) (h4 : k ≤ 64) (ht : ∀ y ∈ tys, y < 16) (hf : fn < 256) : fits f.layout := by
  simp only [FColl.ok, Bool.and_eq_true, decide_eq_true_eq] at h
  obtain ⟨⟨⟨⟨⟨⟨⟨g1, g2⟩, g3⟩, g4⟩, g5⟩, g6⟩, g7⟩, g8⟩ := h
  have := lt_of_contains g7 ht
  have := lt_of_mask g8 hf
  simp only [FColl.layout, fits_cons]
  refine ⟨by decide, ?_, ?_, ?_, ?_, ?_, ?_, ?_, ?_, fits_nil⟩ <;> omega

theorem FLin.fits_of_ok {f : FLin} {d a b c ar pd : Nat} {fns : List Nat} (h : f.ok d a b c ar pd fns = true) (hd : d ≤ 64)
    (ha : a ≤ 64) (hb : b ≤ 64) (hc : c ≤ 64) (hr : ar ≤ 32) (hp : pd ≤ 8) (hf : ∀ y ∈ fns, y < 16) : fits f.layout := by
  simp only [FLin.ok, Bool.and_eq_true, decide_eq_true_eq] at h
  obtain ⟨⟨⟨⟨⟨⟨g1, g2⟩, g3⟩, g4⟩, g5⟩, g6⟩, g7⟩ := h
  have := lt_of_contains g7 hf
  simp only [FLin.layout, fits_cons]
  refine ⟨by decide, ?_, ?_, ?_, ?_, ?_, ?_, ?_, fits_nil⟩ <;> omega

theorem FHawk.fits_of_ok {f : FHawk} {d a b ar opx bk st : Nat} (h : f.ok d a b ar opx bk st = true) (hd : d ≤ 64) (ha : a ≤ 64)
    (hb : b ≤ 64) (hr : ar ≤ 32) (ho : opx ≤ 64) (hk : bk ≤ 8) (hs : st ≤ 256) : fits f.layout := by
  simp only [FHawk.ok, Bool.and_eq_true, decide_eq_true_eq] at h
  obtain ⟨⟨⟨⟨⟨⟨g1, g2⟩, g3⟩, g4⟩, g5⟩, g6⟩, g7⟩ := h
  simp only [FHawk.layout, fits_cons]
  refine ⟨by decide, ?_, ?_, ?_, ?_, ?_, ?_, ?_, fits_nil⟩ <;> omega

end Sys2Proof
end

