-- ==== Sys2Proof/Laws/PerInstr.lean ====
section
/-! SUPPORT. Of every instruction: its word has 96 bits. A step of another agent has no word. -/

namespace Sys2Proof.Laws.F

/-- The word of a well-formed instruction has 96 bits (R47, R55). -/
def Statement (i : Instr) : Prop := i.wf = true → ∀ w, encode i = some w → w < 2 ^ 96

/-- An instruction that the encoder gives a word of a legal control field, a ten-bit opcode and a layout whose fields fit. -/
theorem of_layout {i : Instr} {op : Nat} {k : Ctl} {l : List (Nat × Nat)} (he : encode i = some (word op k l))
    (hs : (l.map Prod.fst).sum = 81) (ho : i.wf = true → op < 1024) (hk : i.wf = true → k.ok = true)
    (hf : i.wf = true → fits l) : Statement i := by
  intro h w hw
  obtain rfl : word op k l = w := Option.some.inj (he.symm.trans hw)
  exact word_lt (ho h) (hk h) (hf h) hs

/-- The two conjuncts of a check. -/
theorem both {x y : Bool} (h : (x && y) = true) : x = true ∧ y = true := by simpa using h

/-! Every instruction's control field is legal and its fields fit. -/

theorem fits_nop {k : Ctl} {f : FRR} (h : (Instr.nop k f).wf = true) : k.ok = true ∧ fits f.layout :=
  ⟨(both h).1, FRR.fits_of_ok (both h).2 (by decide) (by decide) (by decide) (by decide) (by decide)⟩
theorem fits_add {k : Ctl} {f : FRR} (h : (Instr.add k f).wf = true) : k.ok = true ∧ fits f.layout :=
  ⟨(both h).1, FRR.fits_of_ok (both h).2 (by decide) (by decide) (by decide) (by decide) (by decide)⟩
theorem fits_sub {k : Ctl} {f : FRR} (h : (Instr.sub k f).wf = true) : k.ok = true ∧ fits f.layout :=
  ⟨(both h).1, FRR.fits_of_ok (both h).2 (by decide) (by decide) (by decide) (by decide) (by decide)⟩
theorem fits_addi {k : Ctl} {f : FRI} (h : (Instr.addi k f).wf = true) : k.ok = true ∧ fits f.layout :=
  ⟨(both h).1, FRI.fits_of_ok (both h).2 (by decide) (by decide) (by decide)⟩
theorem fits_mul {k : Ctl} {f : FRR} (h : (Instr.mul k f).wf = true) : k.ok = true ∧ fits f.layout :=
  ⟨(both h).1, FRR.fits_of_ok (both h).2 (by decide) (by decide) (by decide) (by decide) (by decide)⟩
theorem fits_mulh {k : Ctl} {f : FRR} (h : (Instr.mulh k f).wf = true) : k.ok = true ∧ fits f.layout :=
  ⟨(both h).1, FRR.fits_of_ok (both h).2 (by decide) (by decide) (by decide) (by decide) (by decide)⟩
theorem fits_mulhu {k : Ctl} {f : FRR} (h : (Instr.mulhu k f).wf = true) : k.ok = true ∧ fits f.layout :=
  ⟨(both h).1, FRR.fits_of_ok (both h).2 (by decide) (by decide) (by decide) (by decide) (by decide)⟩
theorem fits_div {k : Ctl} {f : FRR} (h : (Instr.div k f).wf = true) : k.ok = true ∧ fits f.layout :=
  ⟨(both h).1, FRR.fits_of_ok (both h).2 (by decide) (by decide) (by decide) (by decide) (by decide)⟩
theorem fits_divu {k : Ctl} {f : FRR} (h : (Instr.divu k f).wf = true) : k.ok = true ∧ fits f.layout :=
  ⟨(both h).1, FRR.fits_of_ok (both h).2 (by decide) (by decide) (by decide) (by decide) (by decide)⟩
theorem fits_rem {k : Ctl} {f : FRR} (h : (Instr.rem k f).wf = true) : k.ok = true ∧ fits f.layout :=
  ⟨(both h).1, FRR.fits_of_ok (both h).2 (by decide) (by decide) (by decide) (by decide) (by decide)⟩
theorem fits_remu {k : Ctl} {f : FRR} (h : (Instr.remu k f).wf = true) : k.ok = true ∧ fits f.layout :=
  ⟨(both h).1, FRR.fits_of_ok (both h).2 (by decide) (by decide) (by decide) (by decide) (by decide)⟩
theorem fits_and {k : Ctl} {f : FRR} (h : (Instr.and k f).wf = true) : k.ok = true ∧ fits f.layout :=
  ⟨(both h).1, FRR.fits_of_ok (both h).2 (by decide) (by decide) (by decide) (by decide) (by decide)⟩
theorem fits_or {k : Ctl} {f : FRR} (h : (Instr.or k f).wf = true) : k.ok = true ∧ fits f.layout :=
  ⟨(both h).1, FRR.fits_of_ok (both h).2 (by decide) (by decide) (by decide) (by decide) (by decide)⟩
theorem fits_xor {k : Ctl} {f : FRR} (h : (Instr.xor k f).wf = true) : k.ok = true ∧ fits f.layout :=
  ⟨(both h).1, FRR.fits_of_ok (both h).2 (by decide) (by decide) (by decide) (by decide) (by decide)⟩
theorem fits_andn {k : Ctl} {f : FRR} (h : (Instr.andn k f).wf = true) : k.ok = true ∧ fits f.layout :=
  ⟨(both h).1, FRR.fits_of_ok (both h).2 (by decide) (by decide) (by decide) (by decide) (by decide)⟩
theorem fits_andi {k : Ctl} {f : FRI} (h : (Instr.andi k f).wf = true) : k.ok = true ∧ fits f.layout :=
  ⟨(both h).1, FRI.fits_of_ok (both h).2 (by decide) (by decide) (by decide)⟩
theorem fits_ori {k : Ctl} {f : FRI} (h : (Instr.ori k f).wf = true) : k.ok = true ∧ fits f.layout :=
  ⟨(both h).1, FRI.fits_of_ok (both h).2 (by decide) (by decide) (by decide)⟩
theorem fits_xori {k : Ctl} {f : FRI} (h : (Instr.xori k f).wf = true) : k.ok = true ∧ fits f.layout :=
  ⟨(both h).1, FRI.fits_of_ok (both h).2 (by decide) (by decide) (by decide)⟩
theorem fits_shl {k : Ctl} {f : FRR} (h : (Instr.shl k f).wf = true) : k.ok = true ∧ fits f.layout :=
  ⟨(both h).1, FRR.fits_of_ok (both h).2 (by decide) (by decide) (by decide) (by decide) (by decide)⟩
theorem fits_shr {k : Ctl} {f : FRR} (h : (Instr.shr k f).wf = true) : k.ok = true ∧ fits f.layout :=
  ⟨(both h).1, FRR.fits_of_ok (both h).2 (by decide) (by decide) (by decide) (by decide) (by decide)⟩
theorem fits_sra {k : Ctl} {f : FRR} (h : (Instr.sra k f).wf = true) : k.ok = true ∧ fits f.layout :=
  ⟨(both h).1, FRR.fits_of_ok (both h).2 (by decide) (by decide) (by decide) (by decide) (by decide)⟩
theorem fits_rotr {k : Ctl} {f : FRR} (h : (Instr.rotr k f).wf = true) : k.ok = true ∧ fits f.layout :=
  ⟨(both h).1, FRR.fits_of_ok (both h).2 (by decide) (by decide) (by decide) (by decide) (by decide)⟩
theorem fits_shli {k : Ctl} {f : FRI} (h : (Instr.shli k f).wf = true) : k.ok = true ∧ fits f.layout :=
  ⟨(both (both h).1).1, FRI.fits_of_ok (both (both h).1).2 (by decide) (by decide) (by decide)⟩
theorem fits_shri {k : Ctl} {f : FRI} (h : (Instr.shri k f).wf = true) : k.ok = true ∧ fits f.layout :=
  ⟨(both (both h).1).1, FRI.fits_of_ok (both (both h).1).2 (by decide) (by decide) (by decide)⟩
theorem fits_srai {k : Ctl} {f : FRI} (h : (Instr.srai k f).wf = true) : k.ok = true ∧ fits f.layout :=
  ⟨(both (both h).1).1, FRI.fits_of_ok (both (both h).1).2 (by decide) (by decide) (by decide)⟩
theorem fits_clz {k : Ctl} {f : FRR} (h : (Instr.clz k f).wf = true) : k.ok = true ∧ fits f.layout :=
  ⟨(both h).1, FRR.fits_of_ok (both h).2 (by decide) (by decide) (by decide) (by decide) (by decide)⟩
theorem fits_ctz {k : Ctl} {f : FRR} (h : (Instr.ctz k f).wf = true) : k.ok = true ∧ fits f.layout :=
  ⟨(both h).1, FRR.fits_of_ok (both h).2 (by decide) (by decide) (by decide) (by decide) (by decide)⟩
theorem fits_pcnt {k : Ctl} {f : FRR} (h : (Instr.pcnt k f).wf = true) : k.ok = true ∧ fits f.layout :=
  ⟨(both h).1, FRR.fits_of_ok (both h).2 (by decide) (by decide) (by decide) (by decide) (by decide)⟩
theorem fits_bswap {k : Ctl} {f : FRR} (h : (Instr.bswap k f).wf = true) : k.ok = true ∧ fits f.layout :=
  ⟨(both h).1, FRR.fits_of_ok (both h).2 (by decide) (by decide) (by decide) (by decide) (by decide)⟩
theorem fits_min {k : Ctl} {f : FRR} (h : (Instr.min k f).wf = true) : k.ok = true ∧ fits f.layout :=
  ⟨(both h).1, FRR.fits_of_ok (both h).2 (by decide) (by decide) (by decide) (by decide) (by decide)⟩
theorem fits_max {k : Ctl} {f : FRR} (h : (Instr.max k f).wf = true) : k.ok = true ∧ fits f.layout :=
  ⟨(both h).1, FRR.fits_of_ok (both h).2 (by decide) (by decide) (by decide) (by decide) (by decide)⟩
theorem fits_minu {k : Ctl} {f : FRR} (h : (Instr.minu k f).wf = true) : k.ok = true ∧ fits f.layout :=
  ⟨(both h).1, FRR.fits_of_ok (both h).2 (by decide) (by decide) (by decide) (by decide) (by decide)⟩
theorem fits_maxu {k : Ctl} {f : FRR} (h : (Instr.maxu k f).wf = true) : k.ok = true ∧ fits f.layout :=
  ⟨(both h).1, FRR.fits_of_ok (both h).2 (by decide) (by decide) (by decide) (by decide) (by decide)⟩
theorem fits_cmp {k : Ctl} {f : FRR} (h : (Instr.cmp k f).wf = true) : k.ok = true ∧ fits f.layout :=
  ⟨(both h).1, FRR.fits_of_ok (both h).2 (by decide) (by decide) (by decide) (by decide) (by decide)⟩
theorem fits_cmpi {k : Ctl} {f : FRI} (h : (Instr.cmpi k f).wf = true) : k.ok = true ∧ fits f.layout :=
  ⟨(both h).1, FRI.fits_of_ok (both h).2 (by decide) (by decide) (by decide)⟩
theorem fits_sel {k : Ctl} {f : FRR} (h : (Instr.sel k f).wf = true) : k.ok = true ∧ fits f.layout :=
  ⟨(both h).1, FRR.fits_of_ok (both h).2 (by decide) (by decide) (by decide) (by decide) (by decide)⟩
theorem fits_pset {k : Ctl} {f : FRR} (h : (Instr.pset k f).wf = true) : k.ok = true ∧ fits f.layout :=
  ⟨(both (both (both h).1).1).1, FRR.fits_of_ok (both (both (both h).1).1).2 (by decide) (by decide) (by decide) (by decide) (by decide)⟩
theorem fits_mov {k : Ctl} {f : FRR} (h : (Instr.mov k f).wf = true) : k.ok = true ∧ fits f.layout :=
  ⟨(both h).1, FRR.fits_of_ok (both h).2 (by decide) (by decide) (by decide) (by decide) (by decide)⟩
theorem fits_movAl {k : Ctl} {f : FRR} (h : (Instr.movAl k f).wf = true) : k.ok = true ∧ fits f.layout :=
  ⟨(both h).1, FRR.fits_of_ok (both h).2 (by decide) (by decide) (by decide) (by decide) (by decide)⟩
theorem fits_movAh {k : Ctl} {f : FRR} (h : (Instr.movAh k f).wf = true) : k.ok = true ∧ fits f.layout :=
  ⟨(both h).1, FRR.fits_of_ok (both h).2 (by decide) (by decide) (by decide) (by decide) (by decide)⟩
theorem fits_movi {k : Ctl} {f : FRI} (h : (Instr.movi k f).wf = true) : k.ok = true ∧ fits f.layout :=
  ⟨(both h).1, FRI.fits_of_ok (both h).2 (by decide) (by decide) (by decide)⟩
theorem fits_ext {k : Ctl} {f : FRR} (h : (Instr.ext k f).wf = true) : k.ok = true ∧ fits f.layout :=
  ⟨(both h).1, FRR.fits_of_ok (both h).2 (by decide) (by decide) (by decide) (by decide) (by decide)⟩
theorem fits_bfx {k : Ctl} {f : FRI} (h : (Instr.bfx k f).wf = true) : k.ok = true ∧ fits f.layout :=
  ⟨(both (both h).1).1, FRI.fits_of_ok (both (both h).1).2 (by decide) (by decide) (by decide)⟩
theorem fits_bfi {k : Ctl} {f : FRI} (h : (Instr.bfi k f).wf = true) : k.ok = true ∧ fits f.layout :=
  ⟨(both (both h).1).1, FRI.fits_of_ok (both (both h).1).2 (by decide) (by decide) (by decide)⟩
theorem fits_lea {k : Ctl} {f : FM} (h : (Instr.lea k f).wf = true) : k.ok = true ∧ fits f.layout :=
  ⟨(both h).1, FM.fits_of_ok (both h).2 (by decide) (by decide)⟩
theorem fits_adda {k : Ctl} {f : FRR} (h : (Instr.adda k f).wf = true) : k.ok = true ∧ fits f.layout :=
  ⟨(both h).1, FRR.fits_of_ok (both h).2 (by decide) (by decide) (by decide) (by decide) (by decide)⟩
theorem fits_suba {k : Ctl} {f : FRR} (h : (Instr.suba k f).wf = true) : k.ok = true ∧ fits f.layout :=
  ⟨(both h).1, FRR.fits_of_ok (both h).2 (by decide) (by decide) (by decide) (by decide) (by decide)⟩
theorem fits_subaD {k : Ctl} {f : FRR} (h : (Instr.subaD k f).wf = true) : k.ok = true ∧ fits f.layout :=
  ⟨(both h).1, FRR.fits_of_ok (both h).2 (by decide) (by decide) (by decide) (by decide) (by decide)⟩
theorem fits_mova {k : Ctl} {f : FRR} (h : (Instr.mova k f).wf = true) : k.ok = true ∧ fits f.layout :=
  ⟨(both h).1, FRR.fits_of_ok (both h).2 (by decide) (by decide) (by decide) (by decide) (by decide)⟩
theorem fits_movaS {k : Ctl} {f : FRR} (h : (Instr.movaS k f).wf = true) : k.ok = true ∧ fits f.layout :=
  ⟨(both h).1, FRR.fits_of_ok (both h).2 (by decide) (by decide) (by decide) (by decide) (by decide)⟩
theorem fits_movaSh {k : Ctl} {f : FRR} (h : (Instr.movaSh k f).wf = true) : k.ok = true ∧ fits f.layout :=
  ⟨(both h).1, FRR.fits_of_ok (both h).2 (by decide) (by decide) (by decide) (by decide) (by decide)⟩
theorem fits_cmpa {k : Ctl} {f : FRR} (h : (Instr.cmpa k f).wf = true) : k.ok = true ∧ fits f.layout :=
  ⟨(both h).1, FRR.fits_of_ok (both h).2 (by decide) (by decide) (by decide) (by decide) (by decide)⟩
theorem fits_movai {k : Ctl} {f : FAI} (h : (Instr.movai k f).wf = true) : k.ok = true ∧ fits f.layout :=
  ⟨(both (both (both h).1).1).1, by
    have h1 := (both (both (both h).1).1).2
    have h2 := (both (both h).1).2
    have h3 := (both h).2
    simp at h1 h2 h3
    simp only [FAI.layout, fits_cons]
    refine ⟨?_, ?_, ?_, fits_nil⟩ <;> omega⟩
theorem fits_br {k : Ctl} {f : FB} (h : (Instr.br k f).wf = true) : k.ok = true ∧ fits f.layout :=
  ⟨(both h).1, FB.fits_of_ok (both h).2 (by decide) (by decide) (by decide) (by decide)⟩
theorem fits_bc {k : Ctl} {f : FB} (h : (Instr.bc k f).wf = true) : k.ok = true ∧ fits f.layout :=
  ⟨(both h).1, FB.fits_of_ok (both h).2 (by decide) (by decide) (by decide) (by decide)⟩
theorem fits_bcmp {k : Ctl} {f : FB} (h : (Instr.bcmp k f).wf = true) : k.ok = true ∧ fits f.layout :=
  ⟨(both h).1, FB.fits_of_ok (both h).2 (by decide) (by decide) (by decide) (by decide)⟩
theorem fits_bi {k : Ctl} {f : FRR} (h : (Instr.bi k f).wf = true) : k.ok = true ∧ fits f.layout :=
  ⟨(both h).1, FRR.fits_of_ok (both h).2 (by decide) (by decide) (by decide) (by decide) (by decide)⟩
theorem fits_call {k : Ctl} {f : FB} (h : (Instr.call k f).wf = true) : k.ok = true ∧ fits f.layout :=
  ⟨(both h).1, FB.fits_of_ok (both h).2 (by decide) (by decide) (by decide) (by decide)⟩
theorem fits_calli {k : Ctl} {f : FRR} (h : (Instr.calli k f).wf = true) : k.ok = true ∧ fits f.layout :=
  ⟨(both h).1, FRR.fits_of_ok (both h).2 (by decide) (by decide) (by decide) (by decide) (by decide)⟩
theorem fits_ret {k : Ctl} {f : FRR} (h : (Instr.ret k f).wf = true) : k.ok = true ∧ fits f.layout :=
  ⟨(both h).1, FRR.fits_of_ok (both h).2 (by decide) (by decide) (by decide) (by decide) (by decide)⟩
theorem fits_jtab {k : Ctl} {f : FRR} (h : (Instr.jtab k f).wf = true) : k.ok = true ∧ fits f.layout :=
  ⟨(both h).1, FRR.fits_of_ok (both h).2 (by decide) (by decide) (by decide) (by decide) (by decide)⟩
theorem fits_loop {k : Ctl} {f : FB} (h : (Instr.loop k f).wf = true) : k.ok = true ∧ fits f.layout :=
  ⟨(both h).1, FB.fits_of_ok (both h).2 (by decide) (by decide) (by decide) (by decide)⟩
theorem fits_loopi {k : Ctl} {f : FLoopi} (h : (Instr.loopi k f).wf = true) : k.ok = true ∧ fits f.layout :=
  ⟨(both (both (both h).1).1).1, by
    have h1 := (both (both (both h).1).1).2
    have h2 := (both (both h).1).2
    have h3 := (both h).2
    simp at h1 h2 h3
    simp only [FLoopi.layout, fits_cons]
    refine ⟨?_, ?_, ?_, ?_, fits_nil⟩ <;> omega⟩
theorem fits_breakl {k : Ctl} {f : FRR} (h : (Instr.breakl k f).wf = true) : k.ok = true ∧ fits f.layout :=
  ⟨(both h).1, FRR.fits_of_ok (both h).2 (by decide) (by decide) (by decide) (by decide) (by decide)⟩
theorem fits_forkb {k : Ctl} {f : FB} (h : (Instr.forkb k f).wf = true) : k.ok = true ∧ fits f.layout :=
  ⟨(both (both h).1).1, FB.fits_of_ok (both (both h).1).2 (by decide) (by decide) (by decide) (by decide)⟩
theorem fits_join {k : Ctl} {f : FRR} (h : (Instr.join k f).wf = true) : k.ok = true ∧ fits f.layout :=
  ⟨(both h).1, FRR.fits_of_ok (both h).2 (by decide) (by decide) (by decide) (by decide) (by decide)⟩
theorem fits_callat {k : Ctl} {f : FCallat} (h : (Instr.callat k f).wf = true) : k.ok = true ∧ fits f.layout :=
  ⟨(both (both (both h).1).1).1, by
    have h1 := (both (both (both h).1).1).2
    have h2 := (both (both h).1).2
    have h3 := (both h).2
    simp at h1 h2 h3
    simp only [FCallat.layout, fits_cons]
    refine ⟨?_, ?_, ?_, ?_, fits_nil⟩ <;> omega⟩
theorem fits_spawn {k : Ctl} {f : FRR} (h : (Instr.spawn k f).wf = true) : k.ok = true ∧ fits f.layout :=
  ⟨(both h).1, FRR.fits_of_ok (both h).2 (by decide) (by decide) (by decide) (by decide) (by decide)⟩
theorem fits_tdep {k : Ctl} {f : FRR} (h : (Instr.tdep k f).wf = true) : k.ok = true ∧ fits f.layout :=
  ⟨(both h).1, FRR.fits_of_ok (both h).2 (by decide) (by decide) (by decide) (by decide) (by decide)⟩
theorem fits_signal {k : Ctl} {f : FRR} (h : (Instr.signal k f).wf = true) : k.ok = true ∧ fits f.layout :=
  ⟨(both h).1, FRR.fits_of_ok (both h).2 (by decide) (by decide) (by decide) (by decide) (by decide)⟩
theorem fits_texit {k : Ctl} {f : FRR} (h : (Instr.texit k f).wf = true) : k.ok = true ∧ fits f.layout :=
  ⟨(both h).1, FRR.fits_of_ok (both h).2 (by decide) (by decide) (by decide) (by decide) (by decide)⟩
theorem fits_yield {k : Ctl} {f : FRR} (h : (Instr.yield k f).wf = true) : k.ok = true ∧ fits f.layout :=
  ⟨(both h).1, FRR.fits_of_ok (both h).2 (by decide) (by decide) (by decide) (by decide) (by decide)⟩
theorem fits_tqry {k : Ctl} {f : FRR} (h : (Instr.tqry k f).wf = true) : k.ok = true ∧ fits f.layout :=
  ⟨(both (both h).1).1, FRR.fits_of_ok (both (both h).1).2 (by decide) (by decide) (by decide) (by decide) (by decide)⟩
theorem fits_cancelTask {k : Ctl} {f : FRR} (h : (Instr.cancelTask k f).wf = true) : k.ok = true ∧ fits f.layout :=
  ⟨(both h).1, FRR.fits_of_ok (both h).2 (by decide) (by decide) (by decide) (by decide) (by decide)⟩
theorem fits_cancelLevel {k : Ctl} {f : FRR} (h : (Instr.cancelLevel k f).wf = true) : k.ok = true ∧ fits f.layout :=
  ⟨(both h).1, FRR.fits_of_ok (both h).2 (by decide) (by decide) (by decide) (by decide) (by decide)⟩
theorem fits_lcnt {k : Ctl} {f : FRR} (h : (Instr.lcnt k f).wf = true) : k.ok = true ∧ fits f.layout :=
  ⟨(both h).1, FRR.fits_of_ok (both h).2 (by decide) (by decide) (by decide) (by decide) (by decide)⟩
theorem fits_semp {k : Ctl} {f : FRR} (h : (Instr.semp k f).wf = true) : k.ok = true ∧ fits f.layout :=
  ⟨(both (both h).1).1, FRR.fits_of_ok (both (both h).1).2 (by decide) (by decide) (by decide) (by decide) (by decide)⟩
theorem fits_semv {k : Ctl} {f : FRR} (h : (Instr.semv k f).wf = true) : k.ok = true ∧ fits f.layout :=
  ⟨(both h).1, FRR.fits_of_ok (both h).2 (by decide) (by decide) (by decide) (by decide) (by decide)⟩
theorem fits_qpush {k : Ctl} {f : FRR} (h : (Instr.qpush k f).wf = true) : k.ok = true ∧ fits f.layout :=
  ⟨(both (both h).1).1, FRR.fits_of_ok (both (both h).1).2 (by decide) (by decide) (by decide) (by decide) (by decide)⟩
theorem fits_qpop {k : Ctl} {f : FRR} (h : (Instr.qpop k f).wf = true) : k.ok = true ∧ fits f.layout :=
  ⟨(both (both h).1).1, FRR.fits_of_ok (both (both h).1).2 (by decide) (by decide) (by decide) (by decide) (by decide)⟩
theorem fits_qstat {k : Ctl} {f : FRR} (h : (Instr.qstat k f).wf = true) : k.ok = true ∧ fits f.layout :=
  ⟨(both (both h).1).1, FRR.fits_of_ok (both (both h).1).2 (by decide) (by decide) (by decide) (by decide) (by decide)⟩
theorem fits_ld {k : Ctl} {f : FM} (h : (Instr.ld k f).wf = true) : k.ok = true ∧ fits f.layout :=
  ⟨(both h).1, FM.fits_of_ok (both h).2 (by decide) (by decide)⟩
theorem fits_st {k : Ctl} {f : FM} (h : (Instr.st k f).wf = true) : k.ok = true ∧ fits f.layout :=
  ⟨(both h).1, FM.fits_of_ok (both h).2 (by decide) (by decide)⟩
theorem fits_lda {k : Ctl} {f : FM} (h : (Instr.lda k f).wf = true) : k.ok = true ∧ fits f.layout :=
  ⟨(both h).1, FM.fits_of_ok (both h).2 (by decide) (by decide)⟩
theorem fits_sta {k : Ctl} {f : FM} (h : (Instr.sta k f).wf = true) : k.ok = true ∧ fits f.layout :=
  ⟨(both h).1, FM.fits_of_ok (both h).2 (by decide) (by decide)⟩
theorem fits_ldq {k : Ctl} {f : FM} (h : (Instr.ldq k f).wf = true) : k.ok = true ∧ fits f.layout :=
  ⟨(both h).1, FM.fits_of_ok (both h).2 (by decide) (by decide)⟩
theorem fits_stq {k : Ctl} {f : FM} (h : (Instr.stq k f).wf = true) : k.ok = true ∧ fits f.layout :=
  ⟨(both h).1, FM.fits_of_ok (both h).2 (by decide) (by decide)⟩
theorem fits_lds {k : Ctl} {f : FM} (h : (Instr.lds k f).wf = true) : k.ok = true ∧ fits f.layout :=
  ⟨(both h).1, FM.fits_of_ok (both h).2 (by decide) (by decide)⟩
theorem fits_stf {k : Ctl} {f : FM} (h : (Instr.stf k f).wf = true) : k.ok = true ∧ fits f.layout :=
  ⟨(both h).1, FM.fits_of_ok (both h).2 (by decide) (by decide)⟩
theorem fits_sete {k : Ctl} {f : FM} (h : (Instr.sete k f).wf = true) : k.ok = true ∧ fits f.layout :=
  ⟨(both h).1, FM.fits_of_ok (both h).2 (by decide) (by decide)⟩
theorem fits_feq {k : Ctl} {f : FM} (h : (Instr.feq k f).wf = true) : k.ok = true ∧ fits f.layout :=
  ⟨(both h).1, FM.fits_of_ok (both h).2 (by decide) (by decide)⟩
theorem fits_pref {k : Ctl} {f : FM} (h : (Instr.pref k f).wf = true) : k.ok = true ∧ fits f.layout :=
  ⟨(both h).1, FM.fits_of_ok (both h).2 (by decide) (by decide)⟩
theorem fits_vld {k : Ctl} {f : FM} (h : (Instr.vld k f).wf = true) : k.ok = true ∧ fits f.layout :=
  ⟨(both h).1, FM.fits_of_ok (both h).2 (by decide) (by decide)⟩
theorem fits_vst {k : Ctl} {f : FM} (h : (Instr.vst k f).wf = true) : k.ok = true ∧ fits f.layout :=
  ⟨(both h).1, FM.fits_of_ok (both h).2 (by decide) (by decide)⟩
theorem fits_vlds {k : Ctl} {f : FM} (h : (Instr.vlds k f).wf = true) : k.ok = true ∧ fits f.layout :=
  ⟨(both h).1, FM.fits_of_ok (both h).2 (by decide) (by decide)⟩
theorem fits_vsts {k : Ctl} {f : FM} (h : (Instr.vsts k f).wf = true) : k.ok = true ∧ fits f.layout :=
  ⟨(both h).1, FM.fits_of_ok (both h).2 (by decide) (by decide)⟩
theorem fits_vgath {k : Ctl} {f : FV} (h : (Instr.vgath k f).wf = true) : k.ok = true ∧ fits f.layout :=
  ⟨(both (both h).1).1, FV.fits_of_ok (both (both h).1).2 (by decide) (by decide) (by decide) (by decide) (by decide) (by decide) (by decide) (by decide) (by decide)⟩
theorem fits_vscat {k : Ctl} {f : FV} (h : (Instr.vscat k f).wf = true) : k.ok = true ∧ fits f.layout :=
  ⟨(both (both h).1).1, FV.fits_of_ok (both (both h).1).2 (by decide) (by decide) (by decide) (by decide) (by decide) (by decide) (by decide) (by decide) (by decide)⟩
theorem fits_clean {k : Ctl} {f : FM} (h : (Instr.clean k f).wf = true) : k.ok = true ∧ fits f.layout :=
  ⟨(both h).1, FM.fits_of_ok (both h).2 (by decide) (by decide)⟩
theorem fits_disc {k : Ctl} {f : FM} (h : (Instr.disc k f).wf = true) : k.ok = true ∧ fits f.layout :=
  ⟨(both h).1, FM.fits_of_ok (both h).2 (by decide) (by decide)⟩
theorem fits_zero {k : Ctl} {f : FM} (h : (Instr.zero k f).wf = true) : k.ok = true ∧ fits f.layout :=
  ⟨(both h).1, FM.fits_of_ok (both h).2 (by decide) (by decide)⟩
theorem fits_lr {k : Ctl} {f : FM} (h : (Instr.lr k f).wf = true) : k.ok = true ∧ fits f.layout :=
  ⟨(both h).1, FM.fits_of_ok (both h).2 (by decide) (by decide)⟩
theorem fits_sc {k : Ctl} {f : FAtom} (h : (Instr.sc k f).wf = true) : k.ok = true ∧ fits f.layout :=
  ⟨(both h).1, FAtom.fits_of_ok (both h).2 (by decide) (by decide) (by decide)⟩
theorem fits_amo {k : Ctl} {f : FAtom} (h : (Instr.amo k f).wf = true) : k.ok = true ∧ fits f.layout :=
  ⟨(both (both h).1).1, FAtom.fits_of_ok (both (both h).1).2 (by decide) (by decide) (by decide)⟩
theorem fits_cas {k : Ctl} {f : FAtom} (h : (Instr.cas k f).wf = true) : k.ok = true ∧ fits f.layout :=
  ⟨(both h).1, FAtom.fits_of_ok (both h).2 (by decide) (by decide) (by decide)⟩
theorem fits_red {k : Ctl} {f : FAtom} (h : (Instr.red k f).wf = true) : k.ok = true ∧ fits f.layout :=
  ⟨(both (both h).1).1, FAtom.fits_of_ok (both (both h).1).2 (by decide) (by decide) (by decide)⟩
theorem fits_append {k : Ctl} {f : FAppend} (h : (Instr.append k f).wf = true) : k.ok = true ∧ fits f.layout :=
  ⟨(both (both (both (both h).1).1).1).1, FAppend.fits_of_ok (both (both (both (both h).1).1).1).2 (by decide) (by decide) (by decide) (by decide) (by have := (both (both h).1).2; simp at this; omega)⟩
theorem fits_appendCfg {k : Ctl} {f : FAppend} (h : (Instr.appendCfg k f).wf = true) : k.ok = true ∧ fits f.layout :=
  ⟨(both (both h).1).1, FAppend.fits_of_ok (both (both h).1).2 (by decide) (by decide) (by decide) (by decide) (by have := (both h).2; simp at this; omega)⟩
theorem fits_appendPop {k : Ctl} {f : FAppend} (h : (Instr.appendPop k f).wf = true) : k.ok = true ∧ fits f.layout :=
  ⟨(both (both h).1).1, FAppend.fits_of_ok (both (both h).1).2 (by decide) (by decide) (by decide) (by decide) (by have := (both h).2; simp at this; omega)⟩
theorem fits_appendStat {k : Ctl} {f : FAppend} (h : (Instr.appendStat k f).wf = true) : k.ok = true ∧ fits f.layout :=
  ⟨(both (both h).1).1, FAppend.fits_of_ok (both (both h).1).2 (by decide) (by decide) (by decide) (by decide) (by have := (both h).2; simp at this; omega)⟩
theorem fits_wrs {k : Ctl} {f : FM} (h : (Instr.wrs k f).wf = true) : k.ok = true ∧ fits f.layout :=
  ⟨(both h).1, FM.fits_of_ok (both h).2 (by decide) (by decide)⟩
theorem fits_fence {k : Ctl} {f : FFence} (h : (Instr.fence k f).wf = true) : k.ok = true ∧ fits f.layout :=
  ⟨(both (both (both h).1).1).1, by
    have h1 := (both (both (both h).1).1).2
    have h2 := (both (both h).1).2
    have h3 := (both h).2
    simp at h1 h2 h3
    simp only [FFence.layout, fits_cons]
    refine ⟨?_, ?_, ?_, ?_, ?_, ?_, fits_nil⟩ <;> omega⟩
theorem fits_fencee {k : Ctl} {f : FFence} (h : (Instr.fencee k f).wf = true) : k.ok = true ∧ fits f.layout :=
  ⟨(both (both (both h).1).1).1, by
    have h1 := (both (both (both h).1).1).2
    have h2 := (both (both h).1).2
    have h3 := (both h).2
    simp at h1 h2 h3
    simp only [FFence.layout, fits_cons]
    refine ⟨?_, ?_, ?_, ?_, ?_, ?_, fits_nil⟩ <;> omega⟩
theorem fits_rbegin {k : Ctl} {f : FRegion} (h : (Instr.rbegin k f).wf = true) : k.ok = true ∧ fits f.layout :=
  ⟨(both (both h).1).1, FRegion.fits_of_ok (both (both h).1).2 (by decide) (by decide) (by decide) (by decide) (by decide) (by decide)⟩
theorem fits_rcommit {k : Ctl} {f : FRegion} (h : (Instr.rcommit k f).wf = true) : k.ok = true ∧ fits f.layout :=
  ⟨(both h).1, FRegion.fits_of_ok (both h).2 (by decide) (by decide) (by decide) (by decide) (by decide) (by decide)⟩
theorem fits_rabort {k : Ctl} {f : FRegion} (h : (Instr.rabort k f).wf = true) : k.ok = true ∧ fits f.layout :=
  ⟨(both h).1, FRegion.fits_of_ok (both h).2 (by decide) (by decide) (by decide) (by decide) (by decide) (by decide)⟩
theorem fits_rstat {k : Ctl} {f : FRegion} (h : (Instr.rstat k f).wf = true) : k.ok = true ∧ fits f.layout :=
  ⟨(both h).1, FRegion.fits_of_ok (both h).2 (by decide) (by decide) (by decide) (by decide) (by decide) (by decide)⟩
theorem fits_rposB {k : Ctl} {f : FRegion} (h : (Instr.rposB k f).wf = true) : k.ok = true ∧ fits f.layout :=
  ⟨(both h).1, FRegion.fits_of_ok (both h).2 (by decide) (by decide) (by decide) (by decide) (by decide) (by decide)⟩
theorem fits_rposL {k : Ctl} {f : FRegion} (h : (Instr.rposL k f).wf = true) : k.ok = true ∧ fits f.layout :=
  ⟨(both h).1, FRegion.fits_of_ok (both h).2 (by decide) (by decide) (by decide) (by decide) (by decide) (by decide)⟩
theorem fits_vadd {k : Ctl} {f : FV} (h : (Instr.vadd k f).wf = true) : k.ok = true ∧ fits f.layout :=
  ⟨(both (both h).1).1, FV.fits_of_ok (both (both h).1).2 (by decide) (by decide) (by decide) (by decide) (by decide) (by decide) (by decide) (by decide) (by decide)⟩
theorem fits_vsub {k : Ctl} {f : FV} (h : (Instr.vsub k f).wf = true) : k.ok = true ∧ fits f.layout :=
  ⟨(both (both h).1).1, FV.fits_of_ok (both (both h).1).2 (by decide) (by decide) (by decide) (by decide) (by decide) (by decide) (by decide) (by decide) (by decide)⟩
theorem fits_vmul {k : Ctl} {f : FV} (h : (Instr.vmul k f).wf = true) : k.ok = true ∧ fits f.layout :=
  ⟨(both (both h).1).1, FV.fits_of_ok (both (both h).1).2 (by decide) (by decide) (by decide) (by decide) (by decide) (by decide) (by decide) (by decide) (by decide)⟩
theorem fits_vfma {k : Ctl} {f : FV} (h : (Instr.vfma k f).wf = true) : k.ok = true ∧ fits f.layout :=
  ⟨(both h).1, FV.fits_of_ok (both h).2 (by decide) (by decide) (by decide) (by decide) (by decide) (by decide) (by decide) (by decide) (by decide)⟩
theorem fits_vfms {k : Ctl} {f : FV} (h : (Instr.vfms k f).wf = true) : k.ok = true ∧ fits f.layout :=
  ⟨(both h).1, FV.fits_of_ok (both h).2 (by decide) (by decide) (by decide) (by decide) (by decide) (by decide) (by decide) (by decide) (by decide)⟩
theorem fits_vmin {k : Ctl} {f : FV} (h : (Instr.vmin k f).wf = true) : k.ok = true ∧ fits f.layout :=
  ⟨(both (both h).1).1, FV.fits_of_ok (both (both h).1).2 (by decide) (by decide) (by decide) (by decide) (by decide) (by decide) (by decide) (by decide) (by decide)⟩
theorem fits_vmax {k : Ctl} {f : FV} (h : (Instr.vmax k f).wf = true) : k.ok = true ∧ fits f.layout :=
  ⟨(both (both h).1).1, FV.fits_of_ok (both (both h).1).2 (by decide) (by decide) (by decide) (by decide) (by decide) (by decide) (by decide) (by decide) (by decide)⟩
theorem fits_vabs {k : Ctl} {f : FV} (h : (Instr.vabs k f).wf = true) : k.ok = true ∧ fits f.layout :=
  ⟨(both (both (both h).1).1).1, FV.fits_of_ok (both (both (both h).1).1).2 (by decide) (by decide) (by decide) (by decide) (by decide) (by decide) (by decide) (by decide) (by decide)⟩
theorem fits_vneg {k : Ctl} {f : FV} (h : (Instr.vneg k f).wf = true) : k.ok = true ∧ fits f.layout :=
  ⟨(both (both (both h).1).1).1, FV.fits_of_ok (both (both (both h).1).1).2 (by decide) (by decide) (by decide) (by decide) (by decide) (by decide) (by decide) (by decide) (by decide)⟩
theorem fits_vrcp {k : Ctl} {f : FV} (h : (Instr.vrcp k f).wf = true) : k.ok = true ∧ fits f.layout :=
  ⟨(both h).1, FV.fits_of_ok (both h).2 (by decide) (by decide) (by decide) (by decide) (by decide) (by decide) (by decide) (by decide) (by decide)⟩
theorem fits_vrsq {k : Ctl} {f : FV} (h : (Instr.vrsq k f).wf = true) : k.ok = true ∧ fits f.layout :=
  ⟨(both h).1, FV.fits_of_ok (both h).2 (by decide) (by decide) (by decide) (by decide) (by decide) (by decide) (by decide) (by decide) (by decide)⟩
theorem fits_vexp2 {k : Ctl} {f : FV} (h : (Instr.vexp2 k f).wf = true) : k.ok = true ∧ fits f.layout :=
  ⟨(both h).1, FV.fits_of_ok (both h).2 (by decide) (by decide) (by decide) (by decide) (by decide) (by decide) (by decide) (by decide) (by decide)⟩
theorem fits_vlog2 {k : Ctl} {f : FV} (h : (Instr.vlog2 k f).wf = true) : k.ok = true ∧ fits f.layout :=
  ⟨(both h).1, FV.fits_of_ok (both h).2 (by decide) (by decide) (by decide) (by decide) (by decide) (by decide) (by decide) (by decide) (by decide)⟩
theorem fits_vdiv {k : Ctl} {f : FV} (h : (Instr.vdiv k f).wf = true) : k.ok = true ∧ fits f.layout :=
  ⟨(both h).1, FV.fits_of_ok (both h).2 (by decide) (by decide) (by decide) (by decide) (by decide) (by decide) (by decide) (by decide) (by decide)⟩
theorem fits_vsqrt {k : Ctl} {f : FV} (h : (Instr.vsqrt k f).wf = true) : k.ok = true ∧ fits f.layout :=
  ⟨(both h).1, FV.fits_of_ok (both h).2 (by decide) (by decide) (by decide) (by decide) (by decide) (by decide) (by decide) (by decide) (by decide)⟩
theorem fits_vand {k : Ctl} {f : FV} (h : (Instr.vand k f).wf = true) : k.ok = true ∧ fits f.layout :=
  ⟨(both (both h).1).1, FV.fits_of_ok (both (both h).1).2 (by decide) (by decide) (by decide) (by decide) (by decide) (by decide) (by decide) (by decide) (by decide)⟩
theorem fits_vor {k : Ctl} {f : FV} (h : (Instr.vor k f).wf = true) : k.ok = true ∧ fits f.layout :=
  ⟨(both (both h).1).1, FV.fits_of_ok (both (both h).1).2 (by decide) (by decide) (by decide) (by decide) (by decide) (by decide) (by decide) (by decide) (by decide)⟩
theorem fits_vxor {k : Ctl} {f : FV} (h : (Instr.vxor k f).wf = true) : k.ok = true ∧ fits f.layout :=
  ⟨(both (both h).1).1, FV.fits_of_ok (both (both h).1).2 (by decide) (by decide) (by decide) (by decide) (by decide) (by decide) (by decide) (by decide) (by decide)⟩
theorem fits_vshl {k : Ctl} {f : FV} (h : (Instr.vshl k f).wf = true) : k.ok = true ∧ fits f.layout :=
  ⟨(both (both (both h).1).1).1, FV.fits_of_ok (both (both (both h).1).1).2 (by decide) (by decide) (by decide) (by decide) (by decide) (by decide) (by decide) (by decide) (by decide)⟩
theorem fits_vshr {k : Ctl} {f : FV} (h : (Instr.vshr k f).wf = true) : k.ok = true ∧ fits f.layout :=
  ⟨(both (both (both h).1).1).1, FV.fits_of_ok (both (both (both h).1).1).2 (by decide) (by decide) (by decide) (by decide) (by decide) (by decide) (by decide) (by decide) (by decide)⟩
theorem fits_vsra {k : Ctl} {f : FV} (h : (Instr.vsra k f).wf = true) : k.ok = true ∧ fits f.layout :=
  ⟨(both (both (both h).1).1).1, FV.fits_of_ok (both (both (both h).1).1).2 (by decide) (by decide) (by decide) (by decide) (by decide) (by decide) (by decide) (by decide) (by decide)⟩
theorem fits_vcmp {k : Ctl} {f : FV} (h : (Instr.vcmp k f).wf = true) : k.ok = true ∧ fits f.layout :=
  ⟨(both (both (both h).1).1).1, FV.fits_of_ok (both (both (both h).1).1).2 (by decide) (by decide) (by decide) (by decide) (by decide) (by decide) (by decide) (by decide) (by decide)⟩
theorem fits_vsel {k : Ctl} {f : FV} (h : (Instr.vsel k f).wf = true) : k.ok = true ∧ fits f.layout :=
  ⟨(both (both h).1).1, FV.fits_of_ok (both (both h).1).2 (by decide) (by decide) (by decide) (by decide) (by decide) (by decide) (by decide) (by decide) (by decide)⟩
theorem fits_vcvt {k : Ctl} {f : FV} (h : (Instr.vcvt k f).wf = true) : k.ok = true ∧ fits f.layout :=
  ⟨(both (both (both (both (both (both (both h).1).1).1).1).1).1).1, FV.fits_of_ok (both (both (both (both (both (both (both h).1).1).1).1).1).1).2 (by decide) (by decide) (by decide) (by decide) (by decide) (by decide) (by decide) (by decide) (by decide)⟩
theorem fits_vred {k : Ctl} {f : FV} (h : (Instr.vred k f).wf = true) : k.ok = true ∧ fits f.layout :=
  ⟨(both (both (both h).1).1).1, FV.fits_of_ok (both (both (both h).1).1).2 (by decide) (by decide) (by decide) (by decide) (by decide) (by decide) (by decide) (by decide) (by decide)⟩
theorem fits_vscan {k : Ctl} {f : FV} (h : (Instr.vscan k f).wf = true) : k.ok = true ∧ fits f.layout :=
  ⟨(both (both h).1).1, FV.fits_of_ok (both (both h).1).2 (by decide) (by decide) (by decide) (by decide) (by decide) (by decide) (by decide) (by decide) (by decide)⟩
theorem fits_vperm {k : Ctl} {f : FV} (h : (Instr.vperm k f).wf = true) : k.ok = true ∧ fits f.layout :=
  ⟨(both (both h).1).1, FV.fits_of_ok (both (both h).1).2 (by decide) (by decide) (by decide) (by decide) (by decide) (by decide) (by decide) (by decide) (by decide)⟩
theorem fits_vbcast {k : Ctl} {f : FV} (h : (Instr.vbcast k f).wf = true) : k.ok = true ∧ fits f.layout :=
  ⟨(both (both h).1).1, FV.fits_of_ok (both (both h).1).2 (by decide) (by decide) (by decide) (by decide) (by decide) (by decide) (by decide) (by decide) (by decide)⟩
theorem fits_vins {k : Ctl} {f : FV} (h : (Instr.vins k f).wf = true) : k.ok = true ∧ fits f.layout :=
  ⟨(both (both h).1).1, FV.fits_of_ok (both (both h).1).2 (by decide) (by decide) (by decide) (by decide) (by decide) (by decide) ((Nat.div_le_self 128 _).trans (by decide)) (by decide) (by decide)⟩
theorem fits_vext {k : Ctl} {f : FV} (h : (Instr.vext k f).wf = true) : k.ok = true ∧ fits f.layout :=
  ⟨(both (both h).1).1, FV.fits_of_ok (both (both h).1).2 (by decide) (by decide) (by decide) (by decide) (by decide) (by decide) ((Nat.div_le_self 128 _).trans (by decide)) (by decide) (by decide)⟩
theorem fits_vmov {k : Ctl} {f : FV} (h : (Instr.vmov k f).wf = true) : k.ok = true ∧ fits f.layout :=
  ⟨(both (both h).1).1, FV.fits_of_ok (both (both h).1).2 (by decide) (by decide) (by decide) (by decide) (by decide) (by decide) (by decide) (by decide) (by decide)⟩
theorem fits_vmovi {k : Ctl} {f : FV} (h : (Instr.vmovi k f).wf = true) : k.ok = true ∧ fits f.layout :=
  ⟨(both (both h).1).1, FV.fits_of_ok (both (both h).1).2 (by decide) (by decide) (by decide) (by decide) (by decide) (by decide) (by unfold tyBytes; split <;> [skip; split] <;> decide) (by decide) (by decide)⟩
theorem fits_kop {k : Ctl} {f : FV} (h : (Instr.kop k f).wf = true) : k.ok = true ∧ fits f.layout :=
  ⟨(both (both (both h).1).1).1, FV.fits_of_ok (both (both (both h).1).1).2 (by decide) (by decide) (by decide) (by decide) (by decide) (by decide) (by decide) (by decide) (by decide)⟩
theorem fits_kmov {k : Ctl} {f : FV} (h : (Instr.kmov k f).wf = true) : k.ok = true ∧ fits f.layout :=
  ⟨(both (both (both h).1).1).1, FV.fits_of_ok (both (both (both h).1).1).2 (by decide) (by decide) (by decide) (by decide) (by decide) (by decide) (by decide) (by decide) (by decide)⟩
theorem fits_vhist {k : Ctl} {f : FV} (h : (Instr.vhist k f).wf = true) : k.ok = true ∧ fits f.layout :=
  ⟨(both (both h).1).1, FV.fits_of_ok (both (both h).1).2 (by decide) (by decide) (by decide) (by decide) (by decide) (by decide) (by decide) (by decide) (by decide)⟩
theorem fits_mma {k : Ctl} {f : FE} (h : (Instr.mma k f).wf = true) : k.ok = true ∧ fits f.layout :=
  ⟨(both (both h).1).1, FE.fits_of_ok (both (both h).1).2 (by decide) (by decide)⟩
theorem fits_mmat {k : Ctl} {f : FE} (h : (Instr.mmat k f).wf = true) : k.ok = true ∧ fits f.layout :=
  ⟨(both (both (both h).1).1).1, FE.fits_of_ok (both (both (both h).1).1).2 (by decide) (by decide)⟩
theorem fits_mmas {k : Ctl} {f : FE} (h : (Instr.mmas k f).wf = true) : k.ok = true ∧ fits f.layout :=
  ⟨(both (both h).1).1, FE.fits_of_ok (both (both h).1).2 (by decide) (by decide)⟩
theorem fits_mzero {k : Ctl} {f : FE} (h : (Instr.mzero k f).wf = true) : k.ok = true ∧ fits f.layout :=
  ⟨(both (both (both (both (both h).1).1).1).1).1, FE.fits_of_ok (both (both (both (both (both h).1).1).1).1).2 (by decide) (by decide)⟩
theorem fits_mrdv {k : Ctl} {f : FMu} (h : (Instr.mrdv k f).wf = true) : k.ok = true ∧ fits f.layout :=
  ⟨(both h).1, FMu.fits_of_ok (both h).2 (by decide) (by decide) (by decide) (by decide) (by decide)⟩
theorem fits_mwrv {k : Ctl} {f : FMu} (h : (Instr.mwrv k f).wf = true) : k.ok = true ∧ fits f.layout :=
  ⟨(both h).1, FMu.fits_of_ok (both h).2 (by decide) (by decide) (by decide) (by decide) (by decide)⟩
theorem fits_mst {k : Ctl} {f : FE} (h : (Instr.mst k f).wf = true) : k.ok = true ∧ fits f.layout :=
  ⟨(both (both (both (both h).1).1).1).1, FE.fits_of_ok (both (both (both (both h).1).1).1).2 (by decide) (by decide)⟩
theorem fits_mlda {k : Ctl} {f : FE} (h : (Instr.mlda k f).wf = true) : k.ok = true ∧ fits f.layout :=
  ⟨(both (both (both h).1).1).1, FE.fits_of_ok (both (both (both h).1).1).2 (by decide) (by decide)⟩
theorem fits_mprogGo {k : Ctl} {f : FMu} (h : (Instr.mprogGo k f).wf = true) : k.ok = true ∧ fits f.layout :=
  ⟨(both h).1, FMu.fits_of_ok (both h).2 (by decide) (by decide) (by decide) (by decide) (by decide)⟩
theorem fits_mprogDrop {k : Ctl} {f : FMu} (h : (Instr.mprogDrop k f).wf = true) : k.ok = true ∧ fits f.layout :=
  ⟨(both h).1, FMu.fits_of_ok (both h).2 (by decide) (by decide) (by decide) (by decide) (by decide)⟩
theorem fits_msync {k : Ctl} {f : FMu} (h : (Instr.msync k f).wf = true) : k.ok = true ∧ fits f.layout :=
  ⟨(both h).1, FMu.fits_of_ok (both h).2 (by decide) (by decide) (by decide) (by decide) (by decide)⟩
theorem fits_mstat {k : Ctl} {f : FMu} (h : (Instr.mstat k f).wf = true) : k.ok = true ∧ fits f.layout :=
  ⟨(both h).1, FMu.fits_of_ok (both h).2 (by decide) (by decide) (by decide) (by decide) (by decide)⟩
theorem fits_cpy {k : Ctl} {f : FCu} (h : (Instr.cpy k f).wf = true) : k.ok = true ∧ fits f.layout :=
  ⟨(both (both (both h).1).1).1, FCu.fits_of_plain (both (both (both h).1).1).2 (both (both h).1).2 (by decide) (by decide) (by decide) (by decide) (by decide) (by decide) (by decide) (by decide) (by decide)⟩
theorem fits_cpyc {k : Ctl} {f : FCu} (h : (Instr.cpyc k f).wf = true) : k.ok = true ∧ fits f.layout :=
  ⟨(both (both (both (both (both (both (both (both (both (both (both (both h).1).1).1).1).1).1).1).1).1).1).1).1, by
    have hr : f.tr < 16 := by
      have := (both (both (both (both (both (both (both h).1).1).1).1).1).1).2
      split at this <;> simp at this <;> omega
    have h3 := (both (both (both (both (both (both (both (both (both (both h).1).1).1).1).1).1).1).1).1).2
    have h5 := (both (both (both (both (both (both (both (both h).1).1).1).1).1).1).1).2
    have h7 := (both (both (both (both (both (both h).1).1).1).1).1).2
    have h8 := (both (both (both (both (both h).1).1).1).1).2
    have h9 := (both (both (both (both h).1).1).1).2
    simp at h3 h5 h7 h8 h9
    exact FCu.fits_of_ok (both (both (both (both (both (both (both (both (both (both (both (both h).1).1).1).1).1).1).1).1).1).1).1).2 (by decide) (by decide) (by decide) (by decide) (by decide) (by decide) (by decide)
      (by omega) (by omega) hr (by omega) (by omega) (by omega)⟩
theorem fits_cpyg {k : Ctl} {f : FCu} (h : (Instr.cpyg k f).wf = true) : k.ok = true ∧ fits f.layout :=
  ⟨(both (both (both h).1).1).1, FCu.fits_of_plain (both (both (both h).1).1).2 (both (both h).1).2 (by decide) (by decide) (by decide) (by decide) (by decide) (by decide) (by decide) (by decide) (by decide)⟩
theorem fits_cbatch {k : Ctl} {f : FCu} (h : (Instr.cbatch k f).wf = true) : k.ok = true ∧ fits f.layout :=
  ⟨(both (both (both h).1).1).1, FCu.fits_of_plain (both (both (both h).1).1).2 (both (both h).1).2 (by decide) (by decide) (by decide) (by decide) (by decide) (by decide) (by decide) (by decide) (by decide)⟩
theorem fits_cwaitb {k : Ctl} {f : FCu} (h : (Instr.cwaitb k f).wf = true) : k.ok = true ∧ fits f.layout :=
  ⟨(both (both (both h).1).1).1, FCu.fits_of_plain (both (both (both h).1).1).2 (both (both h).1).2 (by decide) (by decide) (by decide) (by decide) (by decide) (by decide) (by decide) (by decide) (by decide)⟩
theorem fits_syncw {k : Ctl} {f : FCu} (h : (Instr.syncw k f).wf = true) : k.ok = true ∧ fits f.layout :=
  ⟨(both (both (both h).1).1).1, FCu.fits_of_plain (both (both (both h).1).1).2 (both (both h).1).2 (by decide) (by decide) (by decide) (by decide) (by decide) (by decide) (by decide) (by decide) (by decide)⟩
theorem fits_syncwt {k : Ctl} {f : FCu} (h : (Instr.syncwt k f).wf = true) : k.ok = true ∧ fits f.layout :=
  ⟨(both (both (both h).1).1).1, FCu.fits_of_plain (both (both (both h).1).1).2 (both (both h).1).2 (by decide) (by decide) (by decide) (by decide) (by decide) (by decide) (by decide) (by decide) (by decide)⟩
theorem fits_syncwtInit {k : Ctl} {f : FCu} (h : (Instr.syncwtInit k f).wf = true) : k.ok = true ∧ fits f.layout :=
  ⟨(both (both (both h).1).1).1, FCu.fits_of_plain (both (both (both h).1).1).2 (both (both h).1).2 (by decide) (by decide) (by decide) (by decide) (by decide) (by decide) (by decide) (by decide) (by decide)⟩
theorem fits_csyncWait {k : Ctl} {f : FCu} (h : (Instr.csyncWait k f).wf = true) : k.ok = true ∧ fits f.layout :=
  ⟨(both (both (both h).1).1).1, FCu.fits_of_plain (both (both (both h).1).1).2 (both (both h).1).2 (by decide) (by decide) (by decide) (by decide) (by decide) (by decide) (by decide) (by decide) (by decide)⟩
theorem fits_csyncStat {k : Ctl} {f : FCu} (h : (Instr.csyncStat k f).wf = true) : k.ok = true ∧ fits f.layout :=
  ⟨(both (both (both h).1).1).1, FCu.fits_of_plain (both (both (both h).1).1).2 (both (both h).1).2 (by decide) (by decide) (by decide) (by decide) (by decide) (by decide) (by decide) (by decide) (by decide)⟩
theorem fits_csyncGo {k : Ctl} {f : FCu} (h : (Instr.csyncGo k f).wf = true) : k.ok = true ∧ fits f.layout :=
  ⟨(both (both (both h).1).1).1, FCu.fits_of_plain (both (both (both h).1).1).2 (both (both h).1).2 (by decide) (by decide) (by decide) (by decide) (by decide) (by decide) (by decide) (by decide) (by decide)⟩
theorem fits_csyncDrop {k : Ctl} {f : FCu} (h : (Instr.csyncDrop k f).wf = true) : k.ok = true ∧ fits f.layout :=
  ⟨(both (both (both h).1).1).1, FCu.fits_of_plain (both (both (both h).1).1).2 (both (both h).1).2 (by decide) (by decide) (by decide) (by decide) (by decide) (by decide) (by decide) (by decide) (by decide)⟩
theorem fits_cgrp {k : Ctl} {f : FColl} (h : (Instr.cgrp k f).wf = true) : k.ok = true ∧ fits f.layout :=
  ⟨(both h).1, FColl.fits_of_ok (both h).2 (by decide) (by decide) (by decide) (by decide) (by decide) (by decide) (by decide)⟩
theorem fits_cring {k : Ctl} {f : FColl} (h : (Instr.cring k f).wf = true) : k.ok = true ∧ fits f.layout :=
  ⟨(both h).1, FColl.fits_of_ok (both h).2 (by decide) (by decide) (by decide) (by decide) (by decide) (by decide) (by decide)⟩
theorem fits_credu {k : Ctl} {f : FColl} (h : (Instr.credu k f).wf = true) : k.ok = true ∧ fits f.layout :=
  ⟨(both h).1, FColl.fits_of_ok (both h).2 (by decide) (by decide) (by decide) (by decide) (by decide) (by decide) (by decide)⟩
theorem fits_cgath {k : Ctl} {f : FColl} (h : (Instr.cgath k f).wf = true) : k.ok = true ∧ fits f.layout :=
  ⟨(both h).1, FColl.fits_of_ok (both h).2 (by decide) (by decide) (by decide) (by decide) (by decide) (by decide) (by decide)⟩
theorem fits_cbar {k : Ctl} {f : FColl} (h : (Instr.cbar k f).wf = true) : k.ok = true ∧ fits f.layout :=
  ⟨(both h).1, FColl.fits_of_ok (both h).2 (by decide) (by decide) (by decide) (by decide) (by decide) (by decide) (by decide)⟩
theorem fits_cwait {k : Ctl} {f : FColl} (h : (Instr.cwait k f).wf = true) : k.ok = true ∧ fits f.layout :=
  ⟨(both h).1, FColl.fits_of_ok (both h).2 (by decide) (by decide) (by decide) (by decide) (by decide) (by decide) (by decide)⟩
theorem fits_lnew {k : Ctl} {f : FLin} (h : (Instr.lnew k f).wf = true) : k.ok = true ∧ fits f.layout :=
  ⟨(both h).1, FLin.fits_of_ok (both h).2 (by decide) (by decide) (by decide) (by decide) (by decide) (by decide) (by decide)⟩
theorem fits_lmap {k : Ctl} {f : FLin} (h : (Instr.lmap k f).wf = true) : k.ok = true ∧ fits f.layout :=
  ⟨(both h).1, FLin.fits_of_ok (both h).2 (by decide) (by decide) (by decide) (by decide) (by decide) (by decide) (by decide)⟩
theorem fits_lunmap {k : Ctl} {f : FLin} (h : (Instr.lunmap k f).wf = true) : k.ok = true ∧ fits f.layout :=
  ⟨(both h).1, FLin.fits_of_ok (both h).2 (by decide) (by decide) (by decide) (by decide) (by decide) (by decide) (by decide)⟩
theorem fits_fork {k : Ctl} {f : FLin} (h : (Instr.fork k f).wf = true) : k.ok = true ∧ fits f.layout :=
  ⟨(both h).1, FLin.fits_of_ok (both h).2 (by decide) (by decide) (by decide) (by decide) (by decide) (by decide) (by decide)⟩
theorem fits_rebase {k : Ctl} {f : FLin} (h : (Instr.rebase k f).wf = true) : k.ok = true ∧ fits f.layout :=
  ⟨(both (both h).1).1, FLin.fits_of_ok (both (both h).1).2 (by decide) (by decide) (by decide) (by decide) (by decide) (by decide) (by decide)⟩
theorem fits_flatten {k : Ctl} {f : FLin} (h : (Instr.flatten k f).wf = true) : k.ok = true ∧ fits f.layout :=
  ⟨(both (both h).1).1, FLin.fits_of_ok (both (both h).1).2 (by decide) (by decide) (by decide) (by decide) (by decide) (by decide) (by decide)⟩
theorem fits_drop {k : Ctl} {f : FLin} (h : (Instr.drop k f).wf = true) : k.ok = true ∧ fits f.layout :=
  ⟨(both h).1, FLin.fits_of_ok (both h).2 (by decide) (by decide) (by decide) (by decide) (by decide) (by decide) (by decide)⟩
theorem fits_lnq {k : Ctl} {f : FLin} (h : (Instr.lnq k f).wf = true) : k.ok = true ∧ fits f.layout :=
  ⟨(both (both h).1).1, FLin.fits_of_ok (both (both h).1).2 (by decide) (by decide) (by decide) (by decide) (by decide) (by decide) (by decide)⟩
theorem fits_ldiff {k : Ctl} {f : FLin} (h : (Instr.ldiff k f).wf = true) : k.ok = true ∧ fits f.layout :=
  ⟨(both h).1, FLin.fits_of_ok (both h).2 (by decide) (by decide) (by decide) (by decide) (by decide) (by decide) (by decide)⟩
theorem fits_trap {k : Ctl} {f : FTrap} (h : (Instr.trap k f).wf = true) : k.ok = true ∧ fits f.layout :=
  ⟨(both h).1, by
    have h1 := (both h).2
    simp at h1
    simp only [FTrap.layout, fits_cons]
    refine ⟨?_, ?_, fits_nil⟩ <;> omega⟩
theorem fits_eret {k : Ctl} {f : FNul} (h : (Instr.eret k f).wf = true) : k.ok = true ∧ fits f.layout :=
  ⟨h, by simp only [FNul.layout, fits_cons]; exact ⟨by decide, fits_nil⟩⟩
theorem fits_csrr {k : Ctl} {f : FRI} (h : (Instr.csrr k f).wf = true) : k.ok = true ∧ fits f.layout :=
  ⟨(both (both h).1).1, FRI.fits_of_ok (both (both h).1).2 (by split <;> decide) (by decide) (by decide)⟩
theorem fits_csrw {k : Ctl} {f : FRI} (h : (Instr.csrw k f).wf = true) : k.ok = true ∧ fits f.layout :=
  ⟨(both (both h).1).1, FRI.fits_of_ok (both (both h).1).2 (by decide) (by split <;> decide) (by decide)⟩
theorem fits_csrx {k : Ctl} {f : FRI} (h : (Instr.csrx k f).wf = true) : k.ok = true ∧ fits f.layout :=
  ⟨(both (both h).1).1, FRI.fits_of_ok (both (both h).1).2 (by decide) (by decide) (by decide)⟩
theorem fits_tlbi {k : Ctl} {f : FTlbi} (h : (Instr.tlbi k f).wf = true) : k.ok = true ∧ fits f.layout :=
  ⟨(both (both (both (both (both (both (both h).1).1).1).1).1).1).1, by
    have h1 := (both (both (both (both (both (both (both h).1).1).1).1).1).1).2
    have h2 := (both (both (both (both (both (both h).1).1).1).1).1).2
    have h3 := (both (both (both (both (both h).1).1).1).1).2
    have h4 := (both (both (both (both h).1).1).1).2
    have h5 := (both (both (both h).1).1).2
    simp at h1 h2 h3 h4 h5
    simp only [FTlbi.layout, fits_cons]
    refine ⟨?_, ?_, ?_, ?_, ?_, fits_nil⟩ <;> omega⟩
theorem fits_icinv {k : Ctl} {f : FM} (h : (Instr.icinv k f).wf = true) : k.ok = true ∧ fits f.layout :=
  ⟨(both h).1, FM.fits_of_ok (both h).2 (by decide) (by decide)⟩
theorem fits_park {k : Ctl} {f : FPark} (h : (Instr.park k f).wf = true) : k.ok = true ∧ fits f.layout :=
  ⟨(both (both h).1).1, by
    have h1 := (both (both h).1).2
    have h2 := (both h).2
    simp at h1 h2
    simp only [FPark.layout, fits_cons]
    refine ⟨?_, ?_, ?_, fits_nil⟩ <;> omega⟩
theorem fits_trwb {k : Ctl} {f : FHawk} (h : (Instr.trwb k f).wf = true) : k.ok = true ∧ fits f.layout :=
  ⟨(both h).1, FHawk.fits_of_ok (both h).2 (by decide) (by decide) (by decide) (by decide) (by decide) (by decide) (by decide)⟩
theorem fits_trwl {k : Ctl} {f : FHawk} (h : (Instr.trwl k f).wf = true) : k.ok = true ∧ fits f.layout :=
  ⟨(both h).1, FHawk.fits_of_ok (both h).2 (by decide) (by decide) (by decide) (by decide) (by decide) (by decide) (by decide)⟩
theorem fits_trwu {k : Ctl} {f : FHawk} (h : (Instr.trwu k f).wf = true) : k.ok = true ∧ fits f.layout :=
  ⟨(both h).1, FHawk.fits_of_ok (both h).2 (by decide) (by decide) (by decide) (by decide) (by decide) (by decide) (by decide)⟩
theorem fits_trwq {k : Ctl} {f : FHawk} (h : (Instr.trwq k f).wf = true) : k.ok = true ∧ fits f.layout :=
  ⟨(both h).1, FHawk.fits_of_ok (both h).2 (by decide) (by decide) (by decide) (by decide) (by decide) (by decide) (by decide)⟩
theorem fits_trowel {k : Ctl} {f : FTrowel} (h : (Instr.trowel k f).wf = true) : k.ok = true ∧ fits f.layout :=
  ⟨(both (both (both (both (both (both (both h).1).1).1).1).1).1).1, by
    have h1 := (both (both (both (both (both (both (both h).1).1).1).1).1).1).2
    have h2 := (both (both (both (both (both (both h).1).1).1).1).1).2
    have h3 := (both (both (both (both (both h).1).1).1).1).2
    have h4 := (both (both (both (both h).1).1).1).2
    have h5 := (both (both (both h).1).1).2
    have h6 := (both (both h).1).2
    have h7 := (both h).2
    simp at h1 h2 h3 h4 h5 h6 h7
    simp only [FTrowel.layout, fits_cons]
    refine ⟨?_, ?_, ?_, ?_, ?_, ?_, ?_, fits_nil⟩ <;> omega⟩

/-! The statement, for each constructor. -/

theorem nop (k : Ctl) (f : FRR) : Statement (.nop k f) :=
  of_layout rfl rfl (fun _ => by decide) (fun h => (fits_nop h).1) fun h => (fits_nop h).2
theorem add (k : Ctl) (f : FRR) : Statement (.add k f) :=
  of_layout rfl rfl (fun _ => by decide) (fun h => (fits_add h).1) fun h => (fits_add h).2
theorem sub (k : Ctl) (f : FRR) : Statement (.sub k f) :=
  of_layout rfl rfl (fun _ => by decide) (fun h => (fits_sub h).1) fun h => (fits_sub h).2
theorem addi (k : Ctl) (f : FRI) : Statement (.addi k f) :=
  of_layout rfl rfl (fun _ => by decide) (fun h => (fits_addi h).1) fun h => (fits_addi h).2
theorem mul (k : Ctl) (f : FRR) : Statement (.mul k f) :=
  of_layout rfl rfl (fun _ => by decide) (fun h => (fits_mul h).1) fun h => (fits_mul h).2
theorem mulh (k : Ctl) (f : FRR) : Statement (.mulh k f) :=
  of_layout rfl rfl (fun _ => by decide) (fun h => (fits_mulh h).1) fun h => (fits_mulh h).2
theorem mulhu (k : Ctl) (f : FRR) : Statement (.mulhu k f) :=
  of_layout rfl rfl (fun _ => by decide) (fun h => (fits_mulhu h).1) fun h => (fits_mulhu h).2
theorem div (k : Ctl) (f : FRR) : Statement (.div k f) :=
  of_layout rfl rfl (fun _ => by decide) (fun h => (fits_div h).1) fun h => (fits_div h).2
theorem divu (k : Ctl) (f : FRR) : Statement (.divu k f) :=
  of_layout rfl rfl (fun _ => by decide) (fun h => (fits_divu h).1) fun h => (fits_divu h).2
theorem rem (k : Ctl) (f : FRR) : Statement (.rem k f) :=
  of_layout rfl rfl (fun _ => by decide) (fun h => (fits_rem h).1) fun h => (fits_rem h).2
theorem remu (k : Ctl) (f : FRR) : Statement (.remu k f) :=
  of_layout rfl rfl (fun _ => by decide) (fun h => (fits_remu h).1) fun h => (fits_remu h).2
theorem and (k : Ctl) (f : FRR) : Statement (.and k f) :=
  of_layout rfl rfl (fun _ => by decide) (fun h => (fits_and h).1) fun h => (fits_and h).2
theorem or (k : Ctl) (f : FRR) : Statement (.or k f) :=
  of_layout rfl rfl (fun _ => by decide) (fun h => (fits_or h).1) fun h => (fits_or h).2
theorem xor (k : Ctl) (f : FRR) : Statement (.xor k f) :=
  of_layout rfl rfl (fun _ => by decide) (fun h => (fits_xor h).1) fun h => (fits_xor h).2
theorem andn (k : Ctl) (f : FRR) : Statement (.andn k f) :=
  of_layout rfl rfl (fun _ => by decide) (fun h => (fits_andn h).1) fun h => (fits_andn h).2
theorem andi (k : Ctl) (f : FRI) : Statement (.andi k f) :=
  of_layout rfl rfl (fun _ => by decide) (fun h => (fits_andi h).1) fun h => (fits_andi h).2
theorem ori (k : Ctl) (f : FRI) : Statement (.ori k f) :=
  of_layout rfl rfl (fun _ => by decide) (fun h => (fits_ori h).1) fun h => (fits_ori h).2
theorem xori (k : Ctl) (f : FRI) : Statement (.xori k f) :=
  of_layout rfl rfl (fun _ => by decide) (fun h => (fits_xori h).1) fun h => (fits_xori h).2
theorem shl (k : Ctl) (f : FRR) : Statement (.shl k f) :=
  of_layout rfl rfl (fun _ => by decide) (fun h => (fits_shl h).1) fun h => (fits_shl h).2
theorem shr (k : Ctl) (f : FRR) : Statement (.shr k f) :=
  of_layout rfl rfl (fun _ => by decide) (fun h => (fits_shr h).1) fun h => (fits_shr h).2
theorem sra (k : Ctl) (f : FRR) : Statement (.sra k f) :=
  of_layout rfl rfl (fun _ => by decide) (fun h => (fits_sra h).1) fun h => (fits_sra h).2
theorem rotr (k : Ctl) (f : FRR) : Statement (.rotr k f) :=
  of_layout rfl rfl (fun _ => by decide) (fun h => (fits_rotr h).1) fun h => (fits_rotr h).2
theorem shli (k : Ctl) (f : FRI) : Statement (.shli k f) :=
  of_layout rfl rfl (fun _ => by decide) (fun h => (fits_shli h).1) fun h => (fits_shli h).2
theorem shri (k : Ctl) (f : FRI) : Statement (.shri k f) :=
  of_layout rfl rfl (fun _ => by decide) (fun h => (fits_shri h).1) fun h => (fits_shri h).2
theorem srai (k : Ctl) (f : FRI) : Statement (.srai k f) :=
  of_layout rfl rfl (fun _ => by decide) (fun h => (fits_srai h).1) fun h => (fits_srai h).2
theorem clz (k : Ctl) (f : FRR) : Statement (.clz k f) :=
  of_layout rfl rfl (fun _ => by decide) (fun h => (fits_clz h).1) fun h => (fits_clz h).2
theorem ctz (k : Ctl) (f : FRR) : Statement (.ctz k f) :=
  of_layout rfl rfl (fun _ => by decide) (fun h => (fits_ctz h).1) fun h => (fits_ctz h).2
theorem pcnt (k : Ctl) (f : FRR) : Statement (.pcnt k f) :=
  of_layout rfl rfl (fun _ => by decide) (fun h => (fits_pcnt h).1) fun h => (fits_pcnt h).2
theorem bswap (k : Ctl) (f : FRR) : Statement (.bswap k f) :=
  of_layout rfl rfl (fun _ => by decide) (fun h => (fits_bswap h).1) fun h => (fits_bswap h).2
theorem min (k : Ctl) (f : FRR) : Statement (.min k f) :=
  of_layout rfl rfl (fun _ => by decide) (fun h => (fits_min h).1) fun h => (fits_min h).2
theorem max (k : Ctl) (f : FRR) : Statement (.max k f) :=
  of_layout rfl rfl (fun _ => by decide) (fun h => (fits_max h).1) fun h => (fits_max h).2
theorem minu (k : Ctl) (f : FRR) : Statement (.minu k f) :=
  of_layout rfl rfl (fun _ => by decide) (fun h => (fits_minu h).1) fun h => (fits_minu h).2
theorem maxu (k : Ctl) (f : FRR) : Statement (.maxu k f) :=
  of_layout rfl rfl (fun _ => by decide) (fun h => (fits_maxu h).1) fun h => (fits_maxu h).2
theorem cmp (k : Ctl) (f : FRR) : Statement (.cmp k f) :=
  of_layout rfl rfl (fun _ => by decide) (fun h => (fits_cmp h).1) fun h => (fits_cmp h).2
theorem cmpi (k : Ctl) (f : FRI) : Statement (.cmpi k f) :=
  of_layout rfl rfl (fun _ => by decide) (fun h => (fits_cmpi h).1) fun h => (fits_cmpi h).2
theorem sel (k : Ctl) (f : FRR) : Statement (.sel k f) :=
  of_layout rfl rfl (fun _ => by decide) (fun h => (fits_sel h).1) fun h => (fits_sel h).2
theorem pset (k : Ctl) (f : FRR) : Statement (.pset k f) :=
  of_layout rfl rfl (fun _ => by decide) (fun h => (fits_pset h).1) fun h => (fits_pset h).2
theorem mov (k : Ctl) (f : FRR) : Statement (.mov k f) :=
  of_layout rfl rfl (fun _ => by decide) (fun h => (fits_mov h).1) fun h => (fits_mov h).2
theorem movAl (k : Ctl) (f : FRR) : Statement (.movAl k f) :=
  of_layout rfl rfl (fun _ => by decide) (fun h => (fits_movAl h).1) fun h => (fits_movAl h).2
theorem movAh (k : Ctl) (f : FRR) : Statement (.movAh k f) :=
  of_layout rfl rfl (fun _ => by decide) (fun h => (fits_movAh h).1) fun h => (fits_movAh h).2
theorem movi (k : Ctl) (f : FRI) : Statement (.movi k f) :=
  of_layout rfl rfl (fun _ => by decide) (fun h => (fits_movi h).1) fun h => (fits_movi h).2
theorem ext (k : Ctl) (f : FRR) : Statement (.ext k f) :=
  of_layout rfl rfl (fun _ => by decide) (fun h => (fits_ext h).1) fun h => (fits_ext h).2
theorem bfx (k : Ctl) (f : FRI) : Statement (.bfx k f) :=
  of_layout rfl rfl (fun _ => by decide) (fun h => (fits_bfx h).1) fun h => (fits_bfx h).2
theorem bfi (k : Ctl) (f : FRI) : Statement (.bfi k f) :=
  of_layout rfl rfl (fun _ => by decide) (fun h => (fits_bfi h).1) fun h => (fits_bfi h).2
theorem lea (k : Ctl) (f : FM) : Statement (.lea k f) :=
  of_layout rfl rfl (fun _ => by decide) (fun h => (fits_lea h).1) fun h => (fits_lea h).2
theorem adda (k : Ctl) (f : FRR) : Statement (.adda k f) :=
  of_layout rfl rfl (fun _ => by decide) (fun h => (fits_adda h).1) fun h => (fits_adda h).2
theorem suba (k : Ctl) (f : FRR) : Statement (.suba k f) :=
  of_layout rfl rfl (fun _ => by decide) (fun h => (fits_suba h).1) fun h => (fits_suba h).2
theorem subaD (k : Ctl) (f : FRR) : Statement (.subaD k f) :=
  of_layout rfl rfl (fun _ => by decide) (fun h => (fits_subaD h).1) fun h => (fits_subaD h).2
theorem mova (k : Ctl) (f : FRR) : Statement (.mova k f) :=
  of_layout rfl rfl (fun _ => by decide) (fun h => (fits_mova h).1) fun h => (fits_mova h).2
theorem movaS (k : Ctl) (f : FRR) : Statement (.movaS k f) :=
  of_layout rfl rfl (fun _ => by decide) (fun h => (fits_movaS h).1) fun h => (fits_movaS h).2
theorem movaSh (k : Ctl) (f : FRR) : Statement (.movaSh k f) :=
  of_layout rfl rfl (fun _ => by decide) (fun h => (fits_movaSh h).1) fun h => (fits_movaSh h).2
theorem cmpa (k : Ctl) (f : FRR) : Statement (.cmpa k f) :=
  of_layout rfl rfl (fun _ => by decide) (fun h => (fits_cmpa h).1) fun h => (fits_cmpa h).2
theorem movai (k : Ctl) (f : FAI) : Statement (.movai k f) :=
  of_layout rfl rfl (fun _ => by decide) (fun h => (fits_movai h).1) fun h => (fits_movai h).2
theorem br (k : Ctl) (f : FB) : Statement (.br k f) :=
  of_layout rfl rfl (fun _ => by decide) (fun h => (fits_br h).1) fun h => (fits_br h).2
theorem bc (k : Ctl) (f : FB) : Statement (.bc k f) :=
  of_layout rfl rfl (fun _ => by decide) (fun h => (fits_bc h).1) fun h => (fits_bc h).2
theorem bcmp (k : Ctl) (f : FB) : Statement (.bcmp k f) :=
  of_layout rfl rfl (fun _ => by decide) (fun h => (fits_bcmp h).1) fun h => (fits_bcmp h).2
theorem bi (k : Ctl) (f : FRR) : Statement (.bi k f) :=
  of_layout rfl rfl (fun _ => by decide) (fun h => (fits_bi h).1) fun h => (fits_bi h).2
theorem call (k : Ctl) (f : FB) : Statement (.call k f) :=
  of_layout rfl rfl (fun _ => by decide) (fun h => (fits_call h).1) fun h => (fits_call h).2
theorem calli (k : Ctl) (f : FRR) : Statement (.calli k f) :=
  of_layout rfl rfl (fun _ => by decide) (fun h => (fits_calli h).1) fun h => (fits_calli h).2
theorem ret (k : Ctl) (f : FRR) : Statement (.ret k f) :=
  of_layout rfl rfl (fun _ => by decide) (fun h => (fits_ret h).1) fun h => (fits_ret h).2
theorem jtab (k : Ctl) (f : FRR) : Statement (.jtab k f) :=
  of_layout rfl rfl (fun _ => by decide) (fun h => (fits_jtab h).1) fun h => (fits_jtab h).2
theorem loop (k : Ctl) (f : FB) : Statement (.loop k f) :=
  of_layout rfl rfl (fun _ => by decide) (fun h => (fits_loop h).1) fun h => (fits_loop h).2
theorem loopi (k : Ctl) (f : FLoopi) : Statement (.loopi k f) :=
  of_layout rfl rfl (fun _ => by decide) (fun h => (fits_loopi h).1) fun h => (fits_loopi h).2
theorem breakl (k : Ctl) (f : FRR) : Statement (.breakl k f) :=
  of_layout rfl rfl (fun _ => by decide) (fun h => (fits_breakl h).1) fun h => (fits_breakl h).2
theorem forkb (k : Ctl) (f : FB) : Statement (.forkb k f) :=
  of_layout rfl rfl (fun _ => by decide) (fun h => (fits_forkb h).1) fun h => (fits_forkb h).2
theorem join (k : Ctl) (f : FRR) : Statement (.join k f) :=
  of_layout rfl rfl (fun _ => by decide) (fun h => (fits_join h).1) fun h => (fits_join h).2
theorem callat (k : Ctl) (f : FCallat) : Statement (.callat k f) :=
  of_layout rfl rfl (fun _ => by decide) (fun h => (fits_callat h).1) fun h => (fits_callat h).2
theorem spawn (k : Ctl) (f : FRR) : Statement (.spawn k f) :=
  of_layout rfl rfl (fun _ => by decide) (fun h => (fits_spawn h).1) fun h => (fits_spawn h).2
theorem tdep (k : Ctl) (f : FRR) : Statement (.tdep k f) :=
  of_layout rfl rfl (fun _ => by decide) (fun h => (fits_tdep h).1) fun h => (fits_tdep h).2
theorem signal (k : Ctl) (f : FRR) : Statement (.signal k f) :=
  of_layout rfl rfl (fun _ => by decide) (fun h => (fits_signal h).1) fun h => (fits_signal h).2
theorem texit (k : Ctl) (f : FRR) : Statement (.texit k f) :=
  of_layout rfl rfl (fun _ => by decide) (fun h => (fits_texit h).1) fun h => (fits_texit h).2
theorem yield (k : Ctl) (f : FRR) : Statement (.yield k f) :=
  of_layout rfl rfl (fun _ => by decide) (fun h => (fits_yield h).1) fun h => (fits_yield h).2
theorem tqry (k : Ctl) (f : FRR) : Statement (.tqry k f) :=
  of_layout rfl rfl (fun _ => by decide) (fun h => (fits_tqry h).1) fun h => (fits_tqry h).2
theorem cancelTask (k : Ctl) (f : FRR) : Statement (.cancelTask k f) :=
  of_layout rfl rfl (fun _ => by decide) (fun h => (fits_cancelTask h).1) fun h => (fits_cancelTask h).2
theorem cancelLevel (k : Ctl) (f : FRR) : Statement (.cancelLevel k f) :=
  of_layout rfl rfl (fun _ => by decide) (fun h => (fits_cancelLevel h).1) fun h => (fits_cancelLevel h).2
theorem lcnt (k : Ctl) (f : FRR) : Statement (.lcnt k f) :=
  of_layout rfl rfl (fun _ => by decide) (fun h => (fits_lcnt h).1) fun h => (fits_lcnt h).2
theorem semp (k : Ctl) (f : FRR) : Statement (.semp k f) :=
  of_layout rfl rfl (fun _ => by decide) (fun h => (fits_semp h).1) fun h => (fits_semp h).2
theorem semv (k : Ctl) (f : FRR) : Statement (.semv k f) :=
  of_layout rfl rfl (fun _ => by decide) (fun h => (fits_semv h).1) fun h => (fits_semv h).2
theorem qpush (k : Ctl) (f : FRR) : Statement (.qpush k f) :=
  of_layout rfl rfl (fun _ => by decide) (fun h => (fits_qpush h).1) fun h => (fits_qpush h).2
theorem qpop (k : Ctl) (f : FRR) : Statement (.qpop k f) :=
  of_layout rfl rfl (fun _ => by decide) (fun h => (fits_qpop h).1) fun h => (fits_qpop h).2
theorem qstat (k : Ctl) (f : FRR) : Statement (.qstat k f) :=
  of_layout rfl rfl (fun _ => by decide) (fun h => (fits_qstat h).1) fun h => (fits_qstat h).2
theorem ld (k : Ctl) (f : FM) : Statement (.ld k f) :=
  of_layout rfl rfl (fun _ => by decide) (fun h => (fits_ld h).1) fun h => (fits_ld h).2
theorem st (k : Ctl) (f : FM) : Statement (.st k f) :=
  of_layout rfl rfl (fun _ => by decide) (fun h => (fits_st h).1) fun h => (fits_st h).2
theorem lda (k : Ctl) (f : FM) : Statement (.lda k f) :=
  of_layout rfl rfl (fun _ => by decide) (fun h => (fits_lda h).1) fun h => (fits_lda h).2
theorem sta (k : Ctl) (f : FM) : Statement (.sta k f) :=
  of_layout rfl rfl (fun _ => by decide) (fun h => (fits_sta h).1) fun h => (fits_sta h).2
theorem ldq (k : Ctl) (f : FM) : Statement (.ldq k f) :=
  of_layout rfl rfl (fun _ => by decide) (fun h => (fits_ldq h).1) fun h => (fits_ldq h).2
theorem stq (k : Ctl) (f : FM) : Statement (.stq k f) :=
  of_layout rfl rfl (fun _ => by decide) (fun h => (fits_stq h).1) fun h => (fits_stq h).2
theorem lds (k : Ctl) (f : FM) : Statement (.lds k f) :=
  of_layout rfl rfl (fun _ => by decide) (fun h => (fits_lds h).1) fun h => (fits_lds h).2
theorem stf (k : Ctl) (f : FM) : Statement (.stf k f) :=
  of_layout rfl rfl (fun _ => by decide) (fun h => (fits_stf h).1) fun h => (fits_stf h).2
theorem sete (k : Ctl) (f : FM) : Statement (.sete k f) :=
  of_layout rfl rfl (fun _ => by decide) (fun h => (fits_sete h).1) fun h => (fits_sete h).2
theorem feq (k : Ctl) (f : FM) : Statement (.feq k f) :=
  of_layout rfl rfl (fun _ => by decide) (fun h => (fits_feq h).1) fun h => (fits_feq h).2
theorem pref (k : Ctl) (f : FM) : Statement (.pref k f) :=
  of_layout rfl rfl (fun _ => by decide) (fun h => (fits_pref h).1) fun h => (fits_pref h).2
theorem vld (k : Ctl) (f : FM) : Statement (.vld k f) :=
  of_layout rfl rfl (fun _ => by decide) (fun h => (fits_vld h).1) fun h => (fits_vld h).2
theorem vst (k : Ctl) (f : FM) : Statement (.vst k f) :=
  of_layout rfl rfl (fun _ => by decide) (fun h => (fits_vst h).1) fun h => (fits_vst h).2
theorem vlds (k : Ctl) (f : FM) : Statement (.vlds k f) :=
  of_layout rfl rfl (fun _ => by decide) (fun h => (fits_vlds h).1) fun h => (fits_vlds h).2
theorem vsts (k : Ctl) (f : FM) : Statement (.vsts k f) :=
  of_layout rfl rfl (fun _ => by decide) (fun h => (fits_vsts h).1) fun h => (fits_vsts h).2
theorem vgath (k : Ctl) (f : FV) : Statement (.vgath k f) :=
  of_layout rfl rfl (fun _ => by decide) (fun h => (fits_vgath h).1) fun h => (fits_vgath h).2
theorem vscat (k : Ctl) (f : FV) : Statement (.vscat k f) :=
  of_layout rfl rfl (fun _ => by decide) (fun h => (fits_vscat h).1) fun h => (fits_vscat h).2
theorem clean (k : Ctl) (f : FM) : Statement (.clean k f) :=
  of_layout rfl rfl (fun _ => by decide) (fun h => (fits_clean h).1) fun h => (fits_clean h).2
theorem disc (k : Ctl) (f : FM) : Statement (.disc k f) :=
  of_layout rfl rfl (fun _ => by decide) (fun h => (fits_disc h).1) fun h => (fits_disc h).2
theorem zero (k : Ctl) (f : FM) : Statement (.zero k f) :=
  of_layout rfl rfl (fun _ => by decide) (fun h => (fits_zero h).1) fun h => (fits_zero h).2
theorem lr (k : Ctl) (f : FM) : Statement (.lr k f) :=
  of_layout rfl rfl (fun _ => by decide) (fun h => (fits_lr h).1) fun h => (fits_lr h).2
theorem sc (k : Ctl) (f : FAtom) : Statement (.sc k f) :=
  of_layout rfl rfl (fun _ => by decide) (fun h => (fits_sc h).1) fun h => (fits_sc h).2
theorem amo (k : Ctl) (f : FAtom) : Statement (.amo k f) :=
  of_layout rfl rfl (fun _ => by decide) (fun h => (fits_amo h).1) fun h => (fits_amo h).2
theorem cas (k : Ctl) (f : FAtom) : Statement (.cas k f) :=
  of_layout rfl rfl (fun _ => by decide) (fun h => (fits_cas h).1) fun h => (fits_cas h).2
theorem red (k : Ctl) (f : FAtom) : Statement (.red k f) :=
  of_layout rfl rfl (fun _ => by decide) (fun h => (fits_red h).1) fun h => (fits_red h).2
theorem append (k : Ctl) (f : FAppend) : Statement (.append k f) :=
  of_layout rfl rfl (fun _ => by decide) (fun h => (fits_append h).1) fun h => (fits_append h).2
theorem appendCfg (k : Ctl) (f : FAppend) : Statement (.appendCfg k f) :=
  of_layout rfl rfl (fun _ => by decide) (fun h => (fits_appendCfg h).1) fun h => (fits_appendCfg h).2
theorem appendPop (k : Ctl) (f : FAppend) : Statement (.appendPop k f) :=
  of_layout rfl rfl (fun _ => by decide) (fun h => (fits_appendPop h).1) fun h => (fits_appendPop h).2
theorem appendStat (k : Ctl) (f : FAppend) : Statement (.appendStat k f) :=
  of_layout rfl rfl (fun _ => by decide) (fun h => (fits_appendStat h).1) fun h => (fits_appendStat h).2
theorem wrs (k : Ctl) (f : FM) : Statement (.wrs k f) :=
  of_layout rfl rfl (fun _ => by decide) (fun h => (fits_wrs h).1) fun h => (fits_wrs h).2
theorem fence (k : Ctl) (f : FFence) : Statement (.fence k f) :=
  of_layout rfl rfl (fun _ => by decide) (fun h => (fits_fence h).1) fun h => (fits_fence h).2
theorem fencee (k : Ctl) (f : FFence) : Statement (.fencee k f) :=
  of_layout rfl rfl (fun _ => by decide) (fun h => (fits_fencee h).1) fun h => (fits_fencee h).2
theorem rbegin (k : Ctl) (f : FRegion) : Statement (.rbegin k f) :=
  of_layout rfl rfl (fun _ => by decide) (fun h => (fits_rbegin h).1) fun h => (fits_rbegin h).2
theorem rcommit (k : Ctl) (f : FRegion) : Statement (.rcommit k f) :=
  of_layout rfl rfl (fun _ => by decide) (fun h => (fits_rcommit h).1) fun h => (fits_rcommit h).2
theorem rabort (k : Ctl) (f : FRegion) : Statement (.rabort k f) :=
  of_layout rfl rfl (fun _ => by decide) (fun h => (fits_rabort h).1) fun h => (fits_rabort h).2
theorem rstat (k : Ctl) (f : FRegion) : Statement (.rstat k f) :=
  of_layout rfl rfl (fun _ => by decide) (fun h => (fits_rstat h).1) fun h => (fits_rstat h).2
theorem rposB (k : Ctl) (f : FRegion) : Statement (.rposB k f) :=
  of_layout rfl rfl (fun _ => by decide) (fun h => (fits_rposB h).1) fun h => (fits_rposB h).2
theorem rposL (k : Ctl) (f : FRegion) : Statement (.rposL k f) :=
  of_layout rfl rfl (fun _ => by decide) (fun h => (fits_rposL h).1) fun h => (fits_rposL h).2
theorem vadd (k : Ctl) (f : FV) : Statement (.vadd k f) :=
  of_layout rfl rfl (fun _ => by decide) (fun h => (fits_vadd h).1) fun h => (fits_vadd h).2
theorem vsub (k : Ctl) (f : FV) : Statement (.vsub k f) :=
  of_layout rfl rfl (fun _ => by decide) (fun h => (fits_vsub h).1) fun h => (fits_vsub h).2
theorem vmul (k : Ctl) (f : FV) : Statement (.vmul k f) :=
  of_layout rfl rfl (fun _ => by decide) (fun h => (fits_vmul h).1) fun h => (fits_vmul h).2
theorem vfma (k : Ctl) (f : FV) : Statement (.vfma k f) :=
  of_layout rfl rfl (fun _ => by decide) (fun h => (fits_vfma h).1) fun h => (fits_vfma h).2
theorem vfms (k : Ctl) (f : FV) : Statement (.vfms k f) :=
  of_layout rfl rfl (fun _ => by decide) (fun h => (fits_vfms h).1) fun h => (fits_vfms h).2
theorem vmin (k : Ctl) (f : FV) : Statement (.vmin k f) :=
  of_layout rfl rfl (fun _ => by decide) (fun h => (fits_vmin h).1) fun h => (fits_vmin h).2
theorem vmax (k : Ctl) (f : FV) : Statement (.vmax k f) :=
  of_layout rfl rfl (fun _ => by decide) (fun h => (fits_vmax h).1) fun h => (fits_vmax h).2
theorem vabs (k : Ctl) (f : FV) : Statement (.vabs k f) :=
  of_layout rfl rfl (fun _ => by decide) (fun h => (fits_vabs h).1) fun h => (fits_vabs h).2
theorem vneg (k : Ctl) (f : FV) : Statement (.vneg k f) :=
  of_layout rfl rfl (fun _ => by decide) (fun h => (fits_vneg h).1) fun h => (fits_vneg h).2
theorem vrcp (k : Ctl) (f : FV) : Statement (.vrcp k f) :=
  of_layout rfl rfl (fun _ => by decide) (fun h => (fits_vrcp h).1) fun h => (fits_vrcp h).2
theorem vrsq (k : Ctl) (f : FV) : Statement (.vrsq k f) :=
  of_layout rfl rfl (fun _ => by decide) (fun h => (fits_vrsq h).1) fun h => (fits_vrsq h).2
theorem vexp2 (k : Ctl) (f : FV) : Statement (.vexp2 k f) :=
  of_layout rfl rfl (fun _ => by decide) (fun h => (fits_vexp2 h).1) fun h => (fits_vexp2 h).2
theorem vlog2 (k : Ctl) (f : FV) : Statement (.vlog2 k f) :=
  of_layout rfl rfl (fun _ => by decide) (fun h => (fits_vlog2 h).1) fun h => (fits_vlog2 h).2
theorem vdiv (k : Ctl) (f : FV) : Statement (.vdiv k f) :=
  of_layout rfl rfl (fun _ => by decide) (fun h => (fits_vdiv h).1) fun h => (fits_vdiv h).2
theorem vsqrt (k : Ctl) (f : FV) : Statement (.vsqrt k f) :=
  of_layout rfl rfl (fun _ => by decide) (fun h => (fits_vsqrt h).1) fun h => (fits_vsqrt h).2
theorem vand (k : Ctl) (f : FV) : Statement (.vand k f) :=
  of_layout rfl rfl (fun _ => by decide) (fun h => (fits_vand h).1) fun h => (fits_vand h).2
theorem vor (k : Ctl) (f : FV) : Statement (.vor k f) :=
  of_layout rfl rfl (fun _ => by decide) (fun h => (fits_vor h).1) fun h => (fits_vor h).2
theorem vxor (k : Ctl) (f : FV) : Statement (.vxor k f) :=
  of_layout rfl rfl (fun _ => by decide) (fun h => (fits_vxor h).1) fun h => (fits_vxor h).2
theorem vshl (k : Ctl) (f : FV) : Statement (.vshl k f) :=
  of_layout rfl rfl (fun _ => by decide) (fun h => (fits_vshl h).1) fun h => (fits_vshl h).2
theorem vshr (k : Ctl) (f : FV) : Statement (.vshr k f) :=
  of_layout rfl rfl (fun _ => by decide) (fun h => (fits_vshr h).1) fun h => (fits_vshr h).2
theorem vsra (k : Ctl) (f : FV) : Statement (.vsra k f) :=
  of_layout rfl rfl (fun _ => by decide) (fun h => (fits_vsra h).1) fun h => (fits_vsra h).2
theorem vcmp (k : Ctl) (f : FV) : Statement (.vcmp k f) :=
  of_layout rfl rfl (fun _ => by decide) (fun h => (fits_vcmp h).1) fun h => (fits_vcmp h).2
theorem vsel (k : Ctl) (f : FV) : Statement (.vsel k f) :=
  of_layout rfl rfl (fun _ => by decide) (fun h => (fits_vsel h).1) fun h => (fits_vsel h).2
theorem vcvt (k : Ctl) (f : FV) : Statement (.vcvt k f) :=
  of_layout rfl rfl (fun _ => by decide) (fun h => (fits_vcvt h).1) fun h => (fits_vcvt h).2
theorem vred (k : Ctl) (f : FV) : Statement (.vred k f) :=
  of_layout rfl rfl (fun _ => by decide) (fun h => (fits_vred h).1) fun h => (fits_vred h).2
theorem vscan (k : Ctl) (f : FV) : Statement (.vscan k f) :=
  of_layout rfl rfl (fun _ => by decide) (fun h => (fits_vscan h).1) fun h => (fits_vscan h).2
theorem vperm (k : Ctl) (f : FV) : Statement (.vperm k f) :=
  of_layout rfl rfl (fun _ => by decide) (fun h => (fits_vperm h).1) fun h => (fits_vperm h).2
theorem vbcast (k : Ctl) (f : FV) : Statement (.vbcast k f) :=
  of_layout rfl rfl (fun _ => by decide) (fun h => (fits_vbcast h).1) fun h => (fits_vbcast h).2
theorem vins (k : Ctl) (f : FV) : Statement (.vins k f) :=
  of_layout rfl rfl (fun _ => by decide) (fun h => (fits_vins h).1) fun h => (fits_vins h).2
theorem vext (k : Ctl) (f : FV) : Statement (.vext k f) :=
  of_layout rfl rfl (fun _ => by decide) (fun h => (fits_vext h).1) fun h => (fits_vext h).2
theorem vmov (k : Ctl) (f : FV) : Statement (.vmov k f) :=
  of_layout rfl rfl (fun _ => by decide) (fun h => (fits_vmov h).1) fun h => (fits_vmov h).2
theorem vmovi (k : Ctl) (f : FV) : Statement (.vmovi k f) :=
  of_layout rfl rfl (fun _ => by decide) (fun h => (fits_vmovi h).1) fun h => (fits_vmovi h).2
theorem kop (k : Ctl) (f : FV) : Statement (.kop k f) :=
  of_layout rfl rfl (fun _ => by decide) (fun h => (fits_kop h).1) fun h => (fits_kop h).2
theorem kmov (k : Ctl) (f : FV) : Statement (.kmov k f) :=
  of_layout rfl rfl (fun _ => by decide) (fun h => (fits_kmov h).1) fun h => (fits_kmov h).2
theorem vhist (k : Ctl) (f : FV) : Statement (.vhist k f) :=
  of_layout rfl rfl (fun _ => by decide) (fun h => (fits_vhist h).1) fun h => (fits_vhist h).2
theorem mma (k : Ctl) (f : FE) : Statement (.mma k f) :=
  of_layout rfl rfl (fun _ => by decide) (fun h => (fits_mma h).1) fun h => (fits_mma h).2
theorem mmat (k : Ctl) (f : FE) : Statement (.mmat k f) :=
  of_layout rfl rfl (fun _ => by decide) (fun h => (fits_mmat h).1) fun h => (fits_mmat h).2
theorem mmas (k : Ctl) (f : FE) : Statement (.mmas k f) :=
  of_layout rfl rfl (fun _ => by decide) (fun h => (fits_mmas h).1) fun h => (fits_mmas h).2
theorem mzero (k : Ctl) (f : FE) : Statement (.mzero k f) :=
  of_layout rfl rfl (fun _ => by decide) (fun h => (fits_mzero h).1) fun h => (fits_mzero h).2
theorem mrdv (k : Ctl) (f : FMu) : Statement (.mrdv k f) :=
  of_layout rfl rfl (fun _ => by decide) (fun h => (fits_mrdv h).1) fun h => (fits_mrdv h).2
theorem mwrv (k : Ctl) (f : FMu) : Statement (.mwrv k f) :=
  of_layout rfl rfl (fun _ => by decide) (fun h => (fits_mwrv h).1) fun h => (fits_mwrv h).2
theorem mst (k : Ctl) (f : FE) : Statement (.mst k f) :=
  of_layout rfl rfl (fun _ => by decide) (fun h => (fits_mst h).1) fun h => (fits_mst h).2
theorem mlda (k : Ctl) (f : FE) : Statement (.mlda k f) :=
  of_layout rfl rfl (fun _ => by decide) (fun h => (fits_mlda h).1) fun h => (fits_mlda h).2
theorem mprogGo (k : Ctl) (f : FMu) : Statement (.mprogGo k f) :=
  of_layout rfl rfl (fun _ => by decide) (fun h => (fits_mprogGo h).1) fun h => (fits_mprogGo h).2
theorem mprogDrop (k : Ctl) (f : FMu) : Statement (.mprogDrop k f) :=
  of_layout rfl rfl (fun _ => by decide) (fun h => (fits_mprogDrop h).1) fun h => (fits_mprogDrop h).2
theorem msync (k : Ctl) (f : FMu) : Statement (.msync k f) :=
  of_layout rfl rfl (fun _ => by decide) (fun h => (fits_msync h).1) fun h => (fits_msync h).2
theorem mstat (k : Ctl) (f : FMu) : Statement (.mstat k f) :=
  of_layout rfl rfl (fun _ => by decide) (fun h => (fits_mstat h).1) fun h => (fits_mstat h).2
theorem cpy (k : Ctl) (f : FCu) : Statement (.cpy k f) :=
  of_layout rfl rfl (fun _ => by decide) (fun h => (fits_cpy h).1) fun h => (fits_cpy h).2
theorem cpyc (k : Ctl) (f : FCu) : Statement (.cpyc k f) :=
  of_layout rfl rfl (fun _ => by decide) (fun h => (fits_cpyc h).1) fun h => (fits_cpyc h).2
theorem cpyg (k : Ctl) (f : FCu) : Statement (.cpyg k f) :=
  of_layout rfl rfl (fun _ => by decide) (fun h => (fits_cpyg h).1) fun h => (fits_cpyg h).2
theorem cbatch (k : Ctl) (f : FCu) : Statement (.cbatch k f) :=
  of_layout rfl rfl (fun _ => by decide) (fun h => (fits_cbatch h).1) fun h => (fits_cbatch h).2
theorem cwaitb (k : Ctl) (f : FCu) : Statement (.cwaitb k f) :=
  of_layout rfl rfl (fun _ => by decide) (fun h => (fits_cwaitb h).1) fun h => (fits_cwaitb h).2
theorem syncw (k : Ctl) (f : FCu) : Statement (.syncw k f) :=
  of_layout rfl rfl (fun _ => by decide) (fun h => (fits_syncw h).1) fun h => (fits_syncw h).2
theorem syncwt (k : Ctl) (f : FCu) : Statement (.syncwt k f) :=
  of_layout rfl rfl (fun _ => by decide) (fun h => (fits_syncwt h).1) fun h => (fits_syncwt h).2
theorem syncwtInit (k : Ctl) (f : FCu) : Statement (.syncwtInit k f) :=
  of_layout rfl rfl (fun _ => by decide) (fun h => (fits_syncwtInit h).1) fun h => (fits_syncwtInit h).2
theorem csyncWait (k : Ctl) (f : FCu) : Statement (.csyncWait k f) :=
  of_layout rfl rfl (fun _ => by decide) (fun h => (fits_csyncWait h).1) fun h => (fits_csyncWait h).2
theorem csyncStat (k : Ctl) (f : FCu) : Statement (.csyncStat k f) :=
  of_layout rfl rfl (fun _ => by decide) (fun h => (fits_csyncStat h).1) fun h => (fits_csyncStat h).2
theorem csyncGo (k : Ctl) (f : FCu) : Statement (.csyncGo k f) :=
  of_layout rfl rfl (fun _ => by decide) (fun h => (fits_csyncGo h).1) fun h => (fits_csyncGo h).2
theorem csyncDrop (k : Ctl) (f : FCu) : Statement (.csyncDrop k f) :=
  of_layout rfl rfl (fun _ => by decide) (fun h => (fits_csyncDrop h).1) fun h => (fits_csyncDrop h).2
theorem cgrp (k : Ctl) (f : FColl) : Statement (.cgrp k f) :=
  of_layout rfl rfl (fun _ => by decide) (fun h => (fits_cgrp h).1) fun h => (fits_cgrp h).2
theorem cring (k : Ctl) (f : FColl) : Statement (.cring k f) :=
  of_layout rfl rfl (fun _ => by decide) (fun h => (fits_cring h).1) fun h => (fits_cring h).2
theorem credu (k : Ctl) (f : FColl) : Statement (.credu k f) :=
  of_layout rfl rfl (fun _ => by decide) (fun h => (fits_credu h).1) fun h => (fits_credu h).2
theorem cgath (k : Ctl) (f : FColl) : Statement (.cgath k f) :=
  of_layout rfl rfl (fun _ => by decide) (fun h => (fits_cgath h).1) fun h => (fits_cgath h).2
theorem cbar (k : Ctl) (f : FColl) : Statement (.cbar k f) :=
  of_layout rfl rfl (fun _ => by decide) (fun h => (fits_cbar h).1) fun h => (fits_cbar h).2
theorem cwait (k : Ctl) (f : FColl) : Statement (.cwait k f) :=
  of_layout rfl rfl (fun _ => by decide) (fun h => (fits_cwait h).1) fun h => (fits_cwait h).2
theorem lnew (k : Ctl) (f : FLin) : Statement (.lnew k f) :=
  of_layout rfl rfl (fun _ => by decide) (fun h => (fits_lnew h).1) fun h => (fits_lnew h).2
theorem lmap (k : Ctl) (f : FLin) : Statement (.lmap k f) :=
  of_layout rfl rfl (fun _ => by decide) (fun h => (fits_lmap h).1) fun h => (fits_lmap h).2
theorem lunmap (k : Ctl) (f : FLin) : Statement (.lunmap k f) :=
  of_layout rfl rfl (fun _ => by decide) (fun h => (fits_lunmap h).1) fun h => (fits_lunmap h).2
theorem fork (k : Ctl) (f : FLin) : Statement (.fork k f) :=
  of_layout rfl rfl (fun _ => by decide) (fun h => (fits_fork h).1) fun h => (fits_fork h).2
theorem rebase (k : Ctl) (f : FLin) : Statement (.rebase k f) :=
  of_layout rfl rfl (fun _ => by decide) (fun h => (fits_rebase h).1) fun h => (fits_rebase h).2
theorem flatten (k : Ctl) (f : FLin) : Statement (.flatten k f) :=
  of_layout rfl rfl (fun _ => by decide) (fun h => (fits_flatten h).1) fun h => (fits_flatten h).2
theorem drop (k : Ctl) (f : FLin) : Statement (.drop k f) :=
  of_layout rfl rfl (fun _ => by decide) (fun h => (fits_drop h).1) fun h => (fits_drop h).2
theorem lnq (k : Ctl) (f : FLin) : Statement (.lnq k f) :=
  of_layout rfl rfl (fun _ => by decide) (fun h => (fits_lnq h).1) fun h => (fits_lnq h).2
theorem ldiff (k : Ctl) (f : FLin) : Statement (.ldiff k f) :=
  of_layout rfl rfl (fun _ => by decide) (fun h => (fits_ldiff h).1) fun h => (fits_ldiff h).2
theorem trap (k : Ctl) (f : FTrap) : Statement (.trap k f) :=
  of_layout rfl rfl (fun _ => by decide) (fun h => (fits_trap h).1) fun h => (fits_trap h).2
theorem eret (k : Ctl) (f : FNul) : Statement (.eret k f) :=
  of_layout rfl rfl (fun _ => by decide) (fun h => (fits_eret h).1) fun h => (fits_eret h).2
theorem csrr (k : Ctl) (f : FRI) : Statement (.csrr k f) :=
  of_layout rfl rfl (fun _ => by decide) (fun h => (fits_csrr h).1) fun h => (fits_csrr h).2
theorem csrw (k : Ctl) (f : FRI) : Statement (.csrw k f) :=
  of_layout rfl rfl (fun _ => by decide) (fun h => (fits_csrw h).1) fun h => (fits_csrw h).2
theorem csrx (k : Ctl) (f : FRI) : Statement (.csrx k f) :=
  of_layout rfl rfl (fun _ => by decide) (fun h => (fits_csrx h).1) fun h => (fits_csrx h).2
theorem tlbi (k : Ctl) (f : FTlbi) : Statement (.tlbi k f) :=
  of_layout rfl rfl (fun _ => by decide) (fun h => (fits_tlbi h).1) fun h => (fits_tlbi h).2
theorem icinv (k : Ctl) (f : FM) : Statement (.icinv k f) :=
  of_layout rfl rfl (fun _ => by decide) (fun h => (fits_icinv h).1) fun h => (fits_icinv h).2
theorem park (k : Ctl) (f : FPark) : Statement (.park k f) :=
  of_layout rfl rfl (fun _ => by decide) (fun h => (fits_park h).1) fun h => (fits_park h).2
theorem trwb (k : Ctl) (f : FHawk) : Statement (.trwb k f) :=
  of_layout rfl rfl (fun _ => by decide) (fun h => (fits_trwb h).1) fun h => (fits_trwb h).2
theorem trwl (k : Ctl) (f : FHawk) : Statement (.trwl k f) :=
  of_layout rfl rfl (fun _ => by decide) (fun h => (fits_trwl h).1) fun h => (fits_trwl h).2
theorem trwu (k : Ctl) (f : FHawk) : Statement (.trwu k f) :=
  of_layout rfl rfl (fun _ => by decide) (fun h => (fits_trwu h).1) fun h => (fits_trwu h).2
theorem trwq (k : Ctl) (f : FHawk) : Statement (.trwq k f) :=
  of_layout rfl rfl (fun _ => by decide) (fun h => (fits_trwq h).1) fun h => (fits_trwq h).2
theorem trowel (k : Ctl) (f : FTrowel) : Statement (.trowel k f) :=
  of_layout rfl rfl (fun h => by
    have := (both (both (both (both (both (both (both h).1).1).1).1).1).1).2
    simp at this; omega) (fun h => (fits_trowel h).1) fun h => (fits_trowel h).2
theorem muCommandRun (t c : Nat) : Statement (.muCommandRun t c) := fun _ _ h => nomatch h
theorem cuCopyRun (t c : Nat) : Statement (.cuCopyRun t c) := fun _ _ h => nomatch h
theorem syncArrival (t c off amt : Nat) : Statement (.syncArrival t c off amt) := fun _ _ h => nomatch h
theorem collectiveRun (t c : Nat) : Statement (.collectiveRun t c) := fun _ _ h => nomatch h
theorem chunkArrival (n : Nat) : Statement (.chunkArrival n) := fun _ _ h => nomatch h
theorem chunkAck (t c rank seq idx : Nat) : Statement (.chunkAck t c rank seq idx) := fun _ _ h => nomatch h
theorem chunkResend (t c rank seq idx : Nat) : Statement (.chunkResend t c rank seq idx) := fun _ _ h => nomatch h
theorem noPathLimit (t c g : Nat) : Statement (.noPathLimit t c g) := fun _ _ h => nomatch h
theorem lineageBlockRecompose (p node : Nat) : Statement (.lineageBlockRecompose p node) := fun _ _ h => nomatch h
theorem lineageOpEnd (p node : Nat) : Statement (.lineageOpEnd p node) := fun _ _ h => nomatch h
theorem lineageUndo (p node : Nat) : Statement (.lineageUndo p node) := fun _ _ h => nomatch h
theorem classVResult (t c i n : Nat) : Statement (.classVResult t c i n) := fun _ _ h => nomatch h
theorem lineRefetch (t c i : Nat) : Statement (.lineRefetch t c i) := fun _ _ h => nomatch h
theorem trapEntry (t c i cause addr : Nat) : Statement (.trapEntry t c i cause addr) := fun _ _ h => nomatch h
theorem leaseGrant (t line : Nat) : Statement (.leaseGrant t line) := fun _ _ h => nomatch h
theorem leaseExpiry (t line : Nat) : Statement (.leaseExpiry t line) := fun _ _ h => nomatch h
theorem fifoSend (t : Nat) : Statement (.fifoSend t) := fun _ _ h => nomatch h
theorem storePerformAtSlice (d line : Nat) : Statement (.storePerformAtSlice d line) := fun _ _ h => nomatch h
theorem releaseMarkerAck (t : Nat) : Statement (.releaseMarkerAck t) := fun _ _ h => nomatch h
theorem ownershipArrival (d line : Nat) : Statement (.ownershipArrival d line) := fun _ _ h => nomatch h
theorem rds (ag line : Nat) : Statement (.rds ag line) := fun _ _ h => nomatch h
theorem rdx (ag line : Nat) : Statement (.rdx ag line) := fun _ _ h => nomatch h
theorem upg (ag line : Nat) : Statement (.upg ag line) := fun _ _ h => nomatch h
theorem wb (ag line : Nat) : Statement (.wb ag line) := fun _ _ h => nomatch h
theorem prs (ag line : Nat) : Statement (.prs ag line) := fun _ _ h => nomatch h
theorem pri (ag line : Nat) : Statement (.pri ag line) := fun _ _ h => nomatch h
theorem prx (ag line : Nat) : Statement (.prx ag line) := fun _ _ h => nomatch h
theorem snoopFilterVictim (line : Nat) : Statement (.snoopFilterVictim line) := fun _ _ h => nomatch h
theorem notPresentAnswer (ag line pid : Nat) : Statement (.notPresentAnswer ag line pid) := fun _ _ h => nomatch h
theorem hostRead (pa mv : Nat) : Statement (.hostRead pa mv) := fun _ _ h => nomatch h
theorem hostMemWr (pa data : Nat) : Statement (.hostMemWr pa data) := fun _ _ h => nomatch h
theorem bisnpAnswer (pa rsp : Nat) : Statement (.bisnpAnswer pa rsp) := fun _ _ h => nomatch h
theorem hostSnoop (pa kind : Nat) : Statement (.hostSnoop pa kind) := fun _ _ h => nomatch h
theorem reservationGrant (line : Nat) : Statement (.reservationGrant line) := fun _ _ h => nomatch h
theorem reservationRelease (line : Nat) : Statement (.reservationRelease line) := fun _ _ h => nomatch h
theorem lrTimeout (t c i : Nat) : Statement (.lrTimeout t c i) := fun _ _ h => nomatch h
theorem hostLineSnoopAnswer (line : Nat) : Statement (.hostLineSnoopAnswer line) := fun _ _ h => nomatch h
theorem inboxDelivery (n : Nat) : Statement (.inboxDelivery n) := fun _ _ h => nomatch h
theorem callatReturnDelivery (n : Nat) : Statement (.callatReturnDelivery n) := fun _ _ h => nomatch h
theorem heldReturnDelivery (t c : Nat) : Statement (.heldReturnDelivery t c) := fun _ _ h => nomatch h
theorem ldsWake (t c i : Nat) : Statement (.ldsWake t c i) := fun _ _ h => nomatch h
theorem wrsWake (t c i : Nat) : Statement (.wrsWake t c i) := fun _ _ h => nomatch h
theorem wrsTimeout (t c i : Nat) : Statement (.wrsTimeout t c i) := fun _ _ h => nomatch h
theorem joinRecheck (t c i : Nat) : Statement (.joinRecheck t c i) := fun _ _ h => nomatch h
theorem parkTimeout (t c i : Nat) : Statement (.parkTimeout t c i) := fun _ _ h => nomatch h
theorem syncwWake (t c i : Nat) : Statement (.syncwWake t c i) := fun _ _ h => nomatch h
theorem remoteLoadWake (t c i : Nat) : Statement (.remoteLoadWake t c i) := fun _ _ h => nomatch h
theorem narrowingMessage (n : Nat) : Statement (.narrowingMessage n) := fun _ _ h => nomatch h
theorem regionAccessAtSlice (t c i line wr : Nat) : Statement (.regionAccessAtSlice t c i line wr) := fun _ _ h => nomatch h
theorem sealAtSlice (t c i line : Nat) : Statement (.sealAtSlice t c i line) := fun _ _ h => nomatch h
theorem finalPositionBroadcast (t c i line : Nat) : Statement (.finalPositionBroadcast t c i line) := fun _ _ h => nomatch h
theorem regionAbort (t c i cause tc : Nat) : Statement (.regionAbort t c i cause tc) := fun _ _ h => nomatch h
theorem tokenGrant (t c i : Nat) : Statement (.tokenGrant t c i) := fun _ _ h => nomatch h
theorem launchSlotPoll (p q : Nat) : Statement (.launchSlotPoll p q) := fun _ _ h => nomatch h
theorem launchStart (p q : Nat) : Statement (.launchStart p q) := fun _ _ h => nomatch h
theorem dispatch (t : Nat) : Statement (.dispatch t) := fun _ _ h => nomatch h
theorem overflowMove (t : Nat) : Statement (.overflowMove t) := fun _ _ h => nomatch h
theorem stealRequest (t : Nat) : Statement (.stealRequest t) := fun _ _ h => nomatch h
theorem balance (t : Nat) : Statement (.balance t) := fun _ _ h => nomatch h
theorem successorSignal (n : Nat) : Statement (.successorSignal n) := fun _ _ h => nomatch h
theorem unitComplete (t c : Nat) : Statement (.unitComplete t c) := fun _ _ h => nomatch h
theorem doneMessage (p l t : Nat) : Statement (.doneMessage p l t) := fun _ _ h => nomatch h
theorem redAck (n : Nat) : Statement (.redAck n) := fun _ _ h => nomatch h
theorem launchComplete (p l : Nat) : Statement (.launchComplete p l) := fun _ _ h => nomatch h
theorem preemptRequest (t c : Nat) : Statement (.preemptRequest t c) := fun _ _ h => nomatch h
theorem eviction (t c : Nat) : Statement (.eviction t c) := fun _ _ h => nomatch h
theorem becomeResumable (p n : Nat) : Statement (.becomeResumable p n) := fun _ _ h => nomatch h
theorem resume (t : Nat) : Statement (.resume t) := fun _ _ h => nomatch h
theorem foldedResume (t n : Nat) : Statement (.foldedResume t n) := fun _ _ h => nomatch h
theorem nonresidentTraffic (n : Nat) : Statement (.nonresidentTraffic n) := fun _ _ h => nomatch h
theorem watchdogStep1 (p q : Nat) : Statement (.watchdogStep1 p q) := fun _ _ h => nomatch h
theorem watchdogStep2 (p q : Nat) : Statement (.watchdogStep2 p q) := fun _ _ h => nomatch h
theorem watchdogStep3 (p q : Nat) : Statement (.watchdogStep3 p q) := fun _ _ h => nomatch h
theorem heartbeatSend (t dir : Nat) : Statement (.heartbeatSend t dir) := fun _ _ h => nomatch h
theorem heartbeatReceive (t dir tid hseq health : Nat) : Statement (.heartbeatReceive t dir tid hseq health) := fun _ _ h => nomatch h
theorem periodJudgement (t dir : Nat) : Statement (.periodJudgement t dir) := fun _ _ h => nomatch h
theorem accusation (t target accuser judge : Nat) : Statement (.accusation t target accuser judge) := fun _ _ h => nomatch h
theorem voteExpiry (t dir : Nat) : Statement (.voteExpiry t dir) := fun _ _ h => nomatch h
theorem fenceLearn (die x cause : Nat) : Statement (.fenceLearn die x cause) := fun _ _ h => nomatch h
theorem orphanDiscard (n : Nat) : Statement (.orphanDiscard n) := fun _ _ h => nomatch h
theorem firmwareReferral (x fence : Nat) : Statement (.firmwareReferral x fence) := fun _ _ h => nomatch h
theorem bistResult (t pass : Nat) : Statement (.bistResult t pass) := fun _ _ h => nomatch h
theorem appeal (t dir : Nat) : Statement (.appeal t dir) := fun _ _ h => nomatch h
theorem probationEnd (t : Nat) : Statement (.probationEnd t) := fun _ _ h => nomatch h
theorem appealTimeout (t : Nat) : Statement (.appealTimeout t) := fun _ _ h => nomatch h
theorem correctableError (kind id : Nat) : Statement (.correctableError kind id) := fun _ _ h => nomatch h
theorem bucketLeak (kind id : Nat) : Statement (.bucketLeak kind id) := fun _ _ h => nomatch h
theorem ueDetected (t c i va : Nat) : Statement (.ueDetected t c i va) := fun _ _ h => nomatch h
theorem registerUe (t c i : Nat) : Statement (.registerUe t c i) := fun _ _ h => nomatch h
theorem dramScrub (line : Nat) : Statement (.dramScrub line) := fun _ _ h => nomatch h
theorem sdc (t c i addr unit : Nat) : Statement (.sdc t c i addr unit) := fun _ _ h => nomatch h
theorem dieFail (d : Nat) : Statement (.dieFail d) := fun _ _ h => nomatch h
theorem partFail (q : Nat) : Statement (.partFail q) := fun _ _ h => nomatch h
theorem laneFailure (port : Nat) : Statement (.laneFailure port) := fun _ _ h => nomatch h
theorem portDown (link : Nat) : Statement (.portDown link) := fun _ _ h => nomatch h
theorem d2dWireSpare (j : Nat) : Statement (.d2dWireSpare j) := fun _ _ h => nomatch h
theorem currentMonitorSample (d amps : Nat) : Statement (.currentMonitorSample d amps) := fun _ _ h => nomatch h
theorem powerSample (amps watts temp : Nat) : Statement (.powerSample amps watts temp) := fun _ _ h => nomatch h
theorem coldReset (fails : Nat) : Statement (.coldReset fails) := fun _ _ h => nomatch h
theorem fatalDump (cause : Nat) : Statement (.fatalDump cause) := fun _ _ h => nomatch h
theorem launchQueueTailWrite (p q v : Nat) : Statement (.launchQueueTailWrite p q v) := fun _ _ h => nomatch h
theorem launchQueueEnable (p q v fromS : Nat) : Statement (.launchQueueEnable p q v fromS) := fun _ _ h => nomatch h
theorem launchQueueDescWrite (p q off v fromS : Nat) : Statement (.launchQueueDescWrite p q off v fromS) := fun _ _ h => nomatch h
theorem eventRingHeadWrite (p v : Nat) : Statement (.eventRingHeadWrite p v) := fun _ _ h => nomatch h
theorem eventRingDescWrite (p v : Nat) : Statement (.eventRingDescWrite p v) := fun _ _ h => nomatch h
theorem lpoolWrite (p v : Nat) : Statement (.lpoolWrite p v) := fun _ _ h => nomatch h
theorem lsplitWrite (t v : Nat) : Statement (.lsplitWrite t v) := fun _ _ h => nomatch h
theorem lgrpWrite (t v : Nat) : Statement (.lgrpWrite t v) := fun _ _ h => nomatch h
theorem leaseWrite (p v : Nat) : Statement (.leaseWrite p v) := fun _ _ h => nomatch h
theorem balWrite (p v : Nat) : Statement (.balWrite p v) := fun _ _ h => nomatch h
theorem rlimitWrite (t c v : Nat) : Statement (.rlimitWrite t c v) := fun _ _ h => nomatch h
theorem hbperWrite (t v : Nat) : Statement (.hbperWrite t v) := fun _ _ h => nomatch h
theorem histWrite (t n v : Nat) : Statement (.histWrite t n v) := fun _ _ h => nomatch h
theorem mprWrite (t c v : Nat) : Statement (.mprWrite t c v) := fun _ _ h => nomatch h
theorem ptbrWrite (t c v : Nat) : Statement (.ptbrWrite t c v) := fun _ _ h => nomatch h
theorem lsegWrite (t c i v : Nat) : Statement (.lsegWrite t c i v) := fun _ _ h => nomatch h
theorem tsrWrite (t c i v : Nat) : Statement (.tsrWrite t c i v) := fun _ _ h => nomatch h
theorem registerWrite (off v view : Nat) : Statement (.registerWrite off v view) := fun _ _ h => nomatch h
theorem spuriousWake (t c i : Nat) : Statement (.spuriousWake t c i) := fun _ _ h => nomatch h
theorem yieldHoldExpiry (t c i : Nat) : Statement (.yieldHoldExpiry t c i) := fun _ _ h => nomatch h
theorem lineEviction (kind ag line : Nat) : Statement (.lineEviction kind ag line) := fun _ _ h => nomatch h

end Sys2Proof.Laws.F
end

