-- ==== Sys2Proof/Laws/Vector.lean ====
section
/-! SUPPORT. What a vector instruction can do with the VU's queue. -/

namespace Sys2Proof.Machine

/-- The results that the VU owes do not depend on a wait that is over. -/
@[simp] theorem vuOut_begun (s : State) : s.begun.vuOut = s.vuOut := by
  have h : ∀ k, (s.begun.getThread k).pend = (s.getThread k).pend := by
    intro k
    unfold State.getThread State.begun
    by_cases hk : k = s.cur <;> simp [hk]
  simp only [State.vuOut, h]
  rfl

@[simp] theorem vuRoom_begun (s : State) : s.begun.vuRoom = s.vuRoom := by
  simp only [State.vuRoom, vuOut_begun]
  rfl

/-- A vector instruction enters the queue where it finds room, and waits where not (R34). -/
theorem vuEnter_begun {s : State} (h : s.vuRoom = true) (t : State) (ds : List (Reg × Vec)) :
    vuEnter s.begun t ds = .done (t.leave .vec ds) := by
  simp [vuEnter, h]

theorem vecInto_begun {s : State} (h : s.vuRoom = true) (r : Reg) (v : Vec) (sat : Bool) :
    vecInto s.begun r v sat = .done (State.leave { s.begun with thr := s.begun.thr.stick false sat } .vec [(r, v)]) := by
  simp [vecInto, vuEnter_begun h]

end Sys2Proof.Machine
end

