-- ==== Sys2Proof/Tests/Slice0.lean ====
section
/-! SUPPORT. Tests: words decode to their instructions, ill-formed terms are refused, single steps give the results worked out by
hand from the rules, and the hypotheses of each statement can be met together. -/

namespace Sys2Proof.Tests

set_option Elab.async false

open Sys2Proof Sys2Proof.Machine

/-! ### Decoding: words written from the encoding tables of the spec -/

/-- A word: its opcode in bits [94:85] (R55) and its fields, each with the bit it starts at. -/
def wordOf (op : Nat) (fields : List (Nat × Nat)) : Nat := fields.foldl (fun w e => w + e.2 * 2 ^ e.1) (op * 2 ^ 85)

-- R72, format RR: D 80:75, A 74:69, B 68:63, FN 56:53; S 95, PN 84, PG 83:81
theorem test_decode_sub : decode (wordOf 0x002 [(95, 1), (84, 1), (81, 5), (75, 63), (69, 1), (63, 32), (53, 2)]) =
    .ok (.sub { s := true, pn := true, pg := 5 } { d := 63, a := 1, b := 32, c := 0, fn := 2 }) := by decide +kernel
-- R76, C 62:57
theorem test_decode_sel : decode (wordOf 0x02A [(75, 9), (69, 8), (63, 7), (57, 6)]) =
    .ok (.sel { } { d := 9, a := 8, b := 7, c := 6, fn := 0 }) := by decide +kernel
-- R72, format RI: FN 68:65, IMM64 63:0
theorem test_decode_addi : decode (wordOf 0x003 [(75, 2), (69, 3), (65, 1), (0, 0xFFFFFFFFFFFFFFFF)]) =
    .ok (.addi { } { d := 2, a := 3, fn := 1, imm := 0xFFFFFFFFFFFFFFFF }) := by decide +kernel
-- R75: POS in [5:0] and LEN in [13:8] of the immediate
theorem test_decode_bfx : decode (wordOf 0x033 [(75, 1), (69, 2), (65, 1), (8, 7), (0, 56)]) =
    .ok (.bfx { } { d := 1, a := 2, fn := 1, imm := 7 * 256 + 56 }) := by decide +kernel
-- R78, format AI: AD 80:76, IMM72 71:0
theorem test_decode_movai : decode (wordOf 0x03D [(76, 31), (0, 0x800000000000000001)]) =
    .ok (.movai { } { d := 31, fn := 0, imm := 0x800000000000000001 }) := by decide +kernel
-- R57, R58, format M: BASE 74:70, IDX 69:64, SC 63:62, SZ 61:58, ORDQ 57:54, DISP48 47:0
theorem test_decode_ld : decode (wordOf 0x100 [(75, 4), (70, 5), (64, 6), (62, 3), (58, 10), (54, 7), (0, 0xFFFFFFFFFFF8)]) =
    .ok (.ld { } { d := 4, base := 5, idx := 6, sc := 3, sz := 10, ordq := 7, disp := 0xFFFFFFFFFFF8 }) := by decide +kernel
-- R59, format B: A 80:75, B 74:69, CND 68:65, DL 31:3, SL 2:0
theorem test_decode_bcmp : decode (wordOf 0x082 [(75, 1), (69, 2), (65, 5), (3, 0x1FFFFFFF), (0, 4)]) =
    .ok (.bcmp { } { a := 1, b := 2, cnd := 5, fn := 0, dl := 0x1FFFFFFF, sl := 4 }) := by decide +kernel
-- R84: CNT32 63:32
theorem test_decode_loopi : decode (wordOf 0x089 [(32, 0xFFFFFFFF), (3, 1), (0, 2)]) =
    .ok (.loopi { } { cnt := 0xFFFFFFFF, dl := 1, sl := 2 }) := by decide +kernel
-- R59, format V: VD 80:76, VA 75:71, VB 70:66, VC 65:61, KM 60:58, TY 57:54, FN 53:50, RM 43:42
theorem test_decode_vfma : decode (wordOf 0x203 [(76, 1), (71, 2), (66, 3), (61, 4), (58, 5), (54, 7), (50, 1), (42, 3)]) =
    .ok (.vfma { } { vd := 1, va := 2, vb := 3, vc := 4, km := 5, ty := 7, fn := 1, ss := 0, rm := 3, imm := 0 }) := by
  decide +kernel
-- R174: SS 49:44, IMM32 31:0
theorem test_decode_vins : decode (wordOf 0x222 [(76, 1), (54, 4), (44, 9), (0, 31)]) =
    .ok (.vins { } { vd := 1, va := 0, vb := 0, vc := 0, km := 0, ty := 4, fn := 0, ss := 9, rm := 0, imm := 31 }) := by
  decide +kernel
-- R59, R179, format E
theorem test_decode_mma :
    decode (wordOf 0x280 [(79, 3), (74, 4), (68, 5), (63, 6), (57, 7), (51, 8), (47, 6), (43, 11)]) =
    .ok (.mma { } { acc := 3, abase := 4, astr := 5, bbase := 6, bstr := 7, kreg := 8, fa := 6, fb := 11, mode := 0, ext := 0 }) := by
  decide +kernel
-- R186
theorem test_decode_mwrv : decode (wordOf 0x285 [(70, 4), (68, 2), (63, 31), (59, 1)]) =
    .ok (.mwrv { } { d := 0, vr := 4, acc := 2, row := 31, fn := 1 }) := by decide +kernel
-- R199: TD 43:40, TS 39:36, FN 23:16
theorem test_decode_cpy : decode (wordOf 0x290 [(76, 1), (71, 2), (65, 3), (59, 4), (54, 5), (16, 6)]) =
    .ok (.cpy { } ⟨1, 2, 3, 4, 5, 0, 0, 0, 0, 0, 0, 0, 6, 0⟩) := by decide +kernel
-- R209
theorem test_decode_credu : decode (wordOf 0x2A2 [(70, 1), (65, 2), (59, 3), (55, 4), (45, 7), (37, 5)]) =
    .ok (.credu { } { d := 0, ad := 1, asrc := 2, n := 3, g := 4, k := 0, ty := 7, fn := 5 }) := by decide +kernel
-- R158
theorem test_decode_ldiff : decode (wordOf 0x308 [(75, 1), (69, 2), (63, 3), (57, 4), (49, 5)]) =
    .ok (.ldiff { } { d := 1, a := 2, b := 3, c := 4, ar := 0, pd := 5, fn := 0 }) := by decide +kernel
-- R272: DISP16 15:0
theorem test_decode_cas : decode (wordOf 0x183 [(75, 1), (70, 2), (64, 3), (58, 4), (54, 5), (50, 2), (0, 0xFFFC)]) =
    .ok (.cas { } { d := 1, base := 2, a := 3, b := 4, ordq := 5, sz := 2, fn := 0, disp := 0xFFFC }) := by decide +kernel
-- R280
theorem test_decode_append : decode (wordOf 0x185 [(75, 1), (69, 2), (63, 3), (59, 8)]) =
    .ok (.append { } { d := 1, a := 2, t := 3, n := 8, fn := 0, ar := 0 }) := by decide +kernel
-- R299
theorem test_decode_rbegin : decode (wordOf 0x190 [(61, 1), (3, 5), (0, 4)]) =
    .ok (.rbegin { } { d := 0, e := 0, pd := 0, fn := 1, ar := 0, imm := 44 }) := by decide +kernel
-- R319: T 80:75, A 74:69, C 68:64
theorem test_decode_callat : decode (wordOf 0x092 [(75, 1), (69, 60), (64, 31)]) = .ok (.callat { } { t := 1, a := 60, c := 31 }) := by
  decide +kernel
-- R97
theorem test_decode_trap : decode (wordOf 0x340 [(0, 0xFFFFFFFF)]) = .ok (.trap { } { imm := 0xFFFFFFFF }) := by decide +kernel
-- R99
theorem test_decode_park : decode (wordOf 0x347 [(75, 1), (69, 2)]) = .ok (.park { } { d := 1, a := 2 }) := by decide +kernel
-- R88: CSR 0x100 is TSR
theorem test_decode_csrx : decode (wordOf 0x344 [(75, 1), (69, 2), (65, 2), (0, 0x100)]) =
    .ok (.csrx { } { d := 1, a := 2, fn := 2, imm := 0x100 }) := by decide +kernel
-- R365
theorem test_decode_trwl : decode (wordOf 0x349 [(63, 3), (58, 4), (49, 5), (41, 255)]) =
    .ok (.trwl { } { d := 0, a := 0, b := 3, ar := 4, opx := 0, bk := 5, st := 255 }) := by decide +kernel
-- R59: a trowel opcode, VP 56:52
theorem test_decode_trowel : decode (wordOf 0x3FF [(75, 1), (69, 2), (63, 3), (57, 4), (52, 5), (0, 6)]) =
    .ok (.trowel { } { op := 63, d := 1, a := 2, b := 3, c := 4, vp := 5, imm := 6 }) := by decide +kernel
-- R330: QPUSH .NB, the p register in C
theorem test_decode_qpush : decode (wordOf 0x0A2 [(69, 2), (63, 1), (57, 3), (53, 3)]) =
    .ok (.qpush { } { d := 0, a := 2, b := 1, c := 3, fn := 3 }) := by decide +kernel

/-! ### Well-formedness: beside a term that is well formed, one ill-formed term for each check -/

/-- The first terms are well formed, and none of the second is. -/
def tells (good bad : List Instr) : Bool := good.all (·.wf) && bad.all fun i => !i.wf

-- R56: PG = 0 with PN = 1, and PG above 7
theorem test_wf_predicate : tells [.add { pn := true, pg := 7 } ⟨1, 2, 3, 0, 0⟩]
    [.add { pn := true } ⟨1, 2, 3, 0, 0⟩, .add { pg := 8 } ⟨1, 2, 3, 0, 0⟩] = true := by decide +kernel
-- R57, R72: each register of format RR, an unused field and the function codes
theorem test_wf_rr : tells [.add { } ⟨63, 63, 63, 0, 2⟩, .adda { } ⟨31, 31, 63, 0, 0⟩]
    [.add { } ⟨64, 0, 0, 0, 0⟩, .add { } ⟨0, 64, 0, 0, 0⟩, .add { } ⟨0, 0, 64, 0, 0⟩, .add { } ⟨0, 0, 0, 1, 0⟩,
     .add { } ⟨0, 0, 0, 0, 3⟩, .adda { } ⟨32, 0, 0, 0, 0⟩, .adda { } ⟨0, 32, 0, 0, 0⟩] = true := by decide +kernel
-- R74 to R76: shift counts, bit fields and PSET's operands
theorem test_wf_ri : tells [.shli { } ⟨1, 2, 0, 63⟩, .bfx { } ⟨1, 2, 1, 0x3F00⟩, .bfi { } ⟨1, 2, 0, 63⟩, .pset { } ⟨7, 7, 0, 0, 5⟩]
    [.shli { } ⟨1, 2, 0, 64⟩, .bfx { } ⟨1, 2, 1, 0x3F01⟩, .bfx { } ⟨1, 2, 2, 0⟩, .bfi { } ⟨1, 2, 0, 0x40⟩, .bfi { } ⟨1, 2, 0, 0x4000⟩,
     .addi { } ⟨1, 2, 0, 2 ^ 64⟩, .addi { } ⟨1, 2, 3, 0⟩, .pset { } ⟨8, 0, 0, 0, 0⟩, .pset { } ⟨1, 2, 3, 0, 4⟩,
     .pset { } ⟨1, 2, 0, 0, 6⟩] = true := by decide +kernel
-- R78: an a register, the function code and the immediate of format AI
theorem test_wf_ai : tells [.movai { } ⟨31, 0, 2 ^ 72 - 1⟩] [.movai { } ⟨32, 0, 0⟩, .movai { } ⟨0, 1, 0⟩, .movai { } ⟨0, 0, 2 ^ 72⟩] = true := by
  decide +kernel
-- R58: each field of format M: the size codes, and the legal ordering qualifiers
theorem test_wf_m : tells [.ld { } ⟨63, 31, 63, 3, 10, 11, 2 ^ 48 - 1⟩, .lda { } ⟨31, 0, 0, 0, 4, 0, 0⟩]
    [.ld { } ⟨64, 0, 0, 0, 3, 0, 0⟩, .ld { } ⟨0, 32, 0, 0, 3, 0, 0⟩, .ld { } ⟨0, 0, 64, 0, 3, 0, 0⟩, .ld { } ⟨0, 0, 0, 4, 3, 0, 0⟩,
     .ld { } ⟨0, 0, 0, 0, 4, 0, 0⟩, .ld { } ⟨0, 0, 0, 0, 3, 2, 0⟩, .ld { } ⟨0, 0, 0, 0, 3, 13, 0⟩, .ld { } ⟨0, 0, 0, 0, 3, 0, 2 ^ 48⟩,
     .ldq { } ⟨0, 0, 0, 0, 3, 1, 0⟩, .lda { } ⟨32, 0, 0, 0, 4, 0, 0⟩, .st { } ⟨0, 0, 0, 0, 8, 0, 0⟩] = true := by decide +kernel
-- R59: the target slot, an unused condition and a condition code of format B
theorem test_wf_b : tells [.bcmp { } ⟨63, 63, 5, 0, 2 ^ 29 - 1, 4⟩, .call { } ⟨31, 0, 0, 0, 0, 0⟩, .forkb { } ⟨1, 2, 0, 1, 0, 0⟩]
    [.bcmp { } ⟨0, 0, 6, 0, 0, 0⟩, .bcmp { } ⟨0, 0, 0, 1, 0, 0⟩, .bcmp { } ⟨0, 0, 0, 0, 0, 5⟩, .bcmp { } ⟨0, 0, 0, 0, 2 ^ 29, 0⟩,
     .bcmp { } ⟨64, 0, 0, 0, 0, 0⟩, .br { } ⟨0, 0, 1, 0, 0, 0⟩, .bc { } ⟨0, 1, 0, 0, 0, 0⟩, .bc { } ⟨0, 0, 4, 0, 0, 0⟩,
     .call { } ⟨32, 0, 0, 0, 0, 0⟩, .loopi { } ⟨2 ^ 32, 0, 0⟩, .loopi { } ⟨0, 0, 5⟩, .forkb { } ⟨1, 2, 0, 0, 0, 0⟩] = true := by
  decide +kernel
-- R59, R60, R166 to R175: the fields, types, function codes and rounding of format V
theorem test_wf_v : tells [.vadd { } ⟨31, 31, 31, 0, 7, 7, 1, 0, 3, 0⟩, .vins { } ⟨1, 0, 0, 0, 0, 4, 0, 63, 0, 31⟩,
      .vcvt { } ⟨1, 2, 0, 0, 0, 0, 3, 0, 0, 4⟩, .vred { } ⟨1, 2, 0, 0, 0, 6, 3, 0, 1, 0⟩]
    [.vadd { } ⟨32, 0, 0, 0, 0, 7, 0, 0, 0, 0⟩, .vadd { } ⟨0, 0, 0, 1, 0, 7, 0, 0, 0, 0⟩, .vadd { } ⟨0, 0, 0, 0, 8, 7, 0, 0, 0, 0⟩,
     .vadd { } ⟨0, 0, 0, 0, 0, 8, 0, 0, 0, 0⟩, .vadd { } ⟨0, 0, 0, 0, 0, 0, 0, 0, 1, 0⟩, .vadd { } ⟨0, 0, 0, 0, 0, 7, 2, 0, 0, 0⟩,
     .vadd { } ⟨0, 0, 0, 0, 0, 7, 0, 0, 4, 0⟩, .vadd { } ⟨0, 0, 0, 0, 0, 7, 0, 1, 0, 0⟩, .vadd { } ⟨0, 0, 0, 0, 0, 7, 0, 0, 0, 1⟩,
     .vfma { } ⟨0, 0, 0, 0, 0, 5, 0, 0, 0, 0⟩, .vabs { } ⟨0, 0, 0, 0, 0, 6, 1, 0, 0, 0⟩, .vshl { } ⟨0, 0, 1, 0, 0, 0, 1, 0, 0, 0⟩,
     .vshl { } ⟨0, 0, 1, 0, 0, 0, 0, 1, 0, 0⟩, .vcmp { } ⟨0, 0, 0, 0, 0, 5, 6, 0, 0, 0⟩, .vins { } ⟨1, 0, 0, 0, 0, 4, 0, 0, 0, 32⟩,
     .vcvt { } ⟨1, 2, 0, 0, 0, 4, 0, 0, 0, 4⟩, .vcvt { } ⟨1, 2, 0, 0, 0, 0, 4, 0, 0, 4⟩, .vcvt { } ⟨1, 2, 0, 0, 0, 0, 0, 0, 0, 0x104⟩,
     .vcvt { } ⟨1, 2, 0, 0, 0, 0, 0, 0, 0, 0x14⟩, .vred { } ⟨1, 2, 0, 0, 0, 7, 3, 0, 0, 0⟩, .vred { } ⟨1, 2, 0, 0, 0, 0, 0, 0, 1, 0⟩,
     .vmovi { } ⟨1, 0, 0, 0, 0, 0, 0, 0, 0, 256⟩, .kop { } ⟨1, 2, 3, 0, 0, 0, 4, 0, 0, 0⟩, .kop { } ⟨1, 8, 0, 0, 0, 0, 0, 0, 0, 0⟩,
     .kmov { } ⟨1, 2, 0, 0, 0, 0, 0, 3, 0, 0⟩, .kmov { } ⟨1, 8, 0, 0, 0, 0, 1, 3, 0, 0⟩, .kmov { } ⟨1, 2, 0, 0, 0, 0, 2, 3, 0, 0⟩] = true := by
  decide +kernel
-- R179, R180, R186: types that go together, unused operands, rows
theorem test_wf_e : tells [.mma { } ⟨3, 31, 63, 31, 63, 63, 9, 9, 0, 0⟩, .mma { } ⟨0, 0, 0, 0, 0, 0, 11, 6, 0, 0⟩, .mst { } ⟨0, 0, 0, 0, 0, 0, 6, 0, 15, 0⟩,
      .mwrv { } ⟨0, 31, 3, 31, 1⟩]
    [.mma { } ⟨4, 0, 0, 0, 0, 0, 6, 6, 0, 0⟩, .mma { } ⟨0, 0, 0, 0, 0, 0, 5, 6, 0, 0⟩, .mma { } ⟨0, 0, 0, 0, 0, 0, 8, 9, 0, 0⟩,
     .mma { } ⟨0, 0, 0, 0, 0, 0, 11, 8, 0, 0⟩, .mma { } ⟨0, 0, 0, 0, 0, 0, 6, 6, 1, 0⟩, .mmat { } ⟨0, 0, 0, 0, 0, 0, 7, 0, 0, 0⟩,
     .mzero { } ⟨0, 1, 0, 0, 0, 0, 0, 0, 0, 0⟩, .mzero { } ⟨0, 0, 0, 1, 0, 0, 0, 0, 0, 0⟩, .mst { } ⟨0, 0, 0, 0, 0, 0, 7, 0, 1, 0⟩,
     .mwrv { } ⟨0, 0, 0, 32, 0⟩, .mwrv { } ⟨0, 0, 0, 0, 2⟩, .mwrv { } ⟨1, 0, 0, 0, 0⟩] = true := by decide +kernel
-- R199, R209: variants, types and unused operands of copies and collectives
theorem test_wf_cu : tells [.cpy { } ⟨31, 31, 63, 63, 31, 0, 0, 0, 0, 0, 0, 0, 0x46, 0⟩, .cpyc { } ⟨1, 2, 3, 0, 5, 6, 7, 6, 11, 7, 3, 0, 0x30, 0⟩,
      .cring { } ⟨0, 31, 31, 63, 15, 0, 0, 15⟩]
    [.cpy { } ⟨0, 0, 0, 0, 0, 0, 0, 0, 0, 0, 0, 0, 4, 0⟩, .cpy { } ⟨0, 0, 0, 1, 0, 0, 0, 0, 0, 0, 0, 0, 0, 0⟩,
     .cpy { } ⟨0, 0, 0, 0, 1, 0, 0, 0, 0, 0, 0, 0, 8, 0⟩, .cpy { } ⟨0, 0, 0, 0, 0, 0, 0, 0, 0, 0, 0, 0, 0x10, 0⟩,
     .cpyc { } ⟨0, 0, 0, 0, 0, 0, 0, 5, 6, 0, 0, 0, 0, 0⟩, .cpyc { } ⟨0, 0, 0, 0, 0, 0, 0, 6, 6, 6, 0, 0, 0, 0⟩,
     .cpyc { } ⟨0, 0, 0, 0, 0, 1, 0, 6, 6, 0, 0, 0, 0, 0⟩, .cpyg { } ⟨0, 0, 0, 0, 0, 0, 0, 8, 0, 0, 0, 0, 0, 0⟩,
     .cwaitb { } ⟨0, 0, 0, 0, 0, 0, 0, 0, 0, 0, 0, 0, 0, 64⟩, .cring { } ⟨0, 0, 0, 0, 16, 0, 0, 0⟩, .credu { } ⟨0, 0, 0, 0, 0, 0, 5, 0⟩,
     .credu { } ⟨0, 0, 0, 0, 0, 0, 6, 8⟩, .cbar { } ⟨0, 1, 0, 0, 0, 0, 0, 0⟩] = true := by decide +kernel
-- R158 to R162
theorem test_wf_lin : tells [.lnq { } ⟨63, 63, 63, 0, 0, 0, 6⟩, .flatten { } ⟨0, 1, 0, 0, 31, 7, 0⟩]
    [.lnq { } ⟨1, 2, 3, 0, 0, 0, 5⟩, .lnq { } ⟨1, 2, 0, 0, 0, 0, 8⟩, .flatten { } ⟨0, 1, 0, 0, 1, 0, 1⟩, .lnew { } ⟨1, 2, 0, 0, 0, 8, 0⟩,
     .ldiff { } ⟨1, 2, 3, 4, 1, 0, 0⟩] = true := by decide +kernel
-- R272, R280, R283, R299: atomics, messages, fences and regions
theorem test_wf_sync : tells [.amo { } ⟨63, 31, 63, 0, 11, 2, 9, 65535⟩, .append { } ⟨1, 56, 3, 8, 0, 0⟩, .fence { } ⟨0, 5, 2⟩,
      .rbegin { } ⟨0, 0, 0, 1, 0, 4⟩]
    [.amo { } ⟨0, 0, 0, 0, 0, 3, 9, 0⟩, .amo { } ⟨0, 0, 0, 0, 0, 2, 10, 0⟩, .amo { } ⟨0, 0, 0, 0, 0, 4, 0, 0⟩, .amo { } ⟨0, 0, 0, 1, 0, 2, 0, 0⟩,
     .red { } ⟨0, 0, 0, 0, 0, 2, 0, 0⟩, .red { } ⟨1, 0, 0, 0, 0, 2, 1, 0⟩, .append { } ⟨1, 57, 3, 8, 0, 0⟩, .append { } ⟨1, 2, 3, 0, 0, 0⟩,
     .append { } ⟨1, 2, 3, 9, 0, 0⟩, .appendCfg { } ⟨1, 2, 0, 1, 1, 4⟩, .fence { } ⟨0, 6, 0⟩, .fence { } ⟨0, 0, 3⟩, .fence { } ⟨1, 0, 0⟩,
     .fencee { } ⟨1, 0, 1⟩, .rbegin { } ⟨0, 0, 0, 2, 0, 0⟩, .rbegin { } ⟨0, 0, 0, 0, 0, 5⟩, .rabort { } ⟨0, 0, 0, 0, 0, 256⟩,
     .rstat { } ⟨1, 0, 8, 0, 0, 0⟩, .rposL { } ⟨1, 2, 0, 1, 32, 0⟩] = true := by decide +kernel
-- R88, R97, R319, R331, R357, R365: the system group, tasks, queues and banks
theorem test_wf_sys : tells [.csrr { } ⟨31, 0, 1, 0x17F⟩, .trap { } ⟨2 ^ 32 - 1⟩, .callat { } ⟨63, 60, 31⟩, .semp { } ⟨1, 0, 1, 7, 15⟩, .tlbi { } ⟨31, 63, 1, 0⟩,
      .trwl { } ⟨0, 0, 63, 31, 0, 7, 255⟩]
    [.csrr { } ⟨32, 0, 1, 0x17F⟩, .csrr { } ⟨1, 0, 0, 0x03F⟩, .csrx { } ⟨1, 2, 3, 0⟩, .trap { } ⟨2 ^ 32⟩, .callat { } ⟨0, 61, 0⟩, .semp { } ⟨1, 0, 0, 7, 0⟩,
     .semp { } ⟨1, 0, 0, 0, 16⟩, .qpush { } ⟨0, 1, 0, 0, 4⟩, .qstat { } ⟨1, 0, 0, 0, 4⟩, .tlbi { } ⟨0, 0, 0, 2⟩, .tlbi { } ⟨0, 0, 5, 2⟩, .tlbi { } ⟨1, 0, 1, 1⟩,
     .tlbi { } ⟨0, 1, 1, 3⟩, .trwl { } ⟨0, 0, 0, 0, 0, 8, 0⟩, .trwb { } ⟨0, 0, 0, 0, 64, 0, 0⟩, .park { } ⟨64, 0⟩,
     .trowel { } ⟨64, 0, 0, 0, 0, 0, 0⟩] = true := by decide +kernel
-- steps of other agents: tiles, contexts, threads, lines, queues and directions in range
theorem test_wf_events : tells [.fifoSend 4095, .eviction 4095 3, .lrTimeout 4095 3 7, .rds 64 (2 ^ 45 - 1), .launchStart 15 15, .appeal 0 3, .fatalDump 1]
    [.fifoSend 4096, .eviction 4096 0, .eviction 0 4, .lrTimeout 0 0 8, .rds 65 0, .rds 0 (2 ^ 45), .launchStart 16 0, .launchStart 0 16, .appeal 0 4,
     .fatalDump 0, .fatalDump 7, .hostRead (2 ^ 52) 0, .hostRead 0 2, .hostMemWr 32 0, .trapEntry 0 0 0 256 0, .ueDetected 0 0 0 (2 ^ 72),
     .launchQueueDescWrite 0 0 4 0 0, .launchQueueTailWrite 0 0 (2 ^ 32), .lineEviction 6 0 0, .syncArrival 0 0 8 0] = true := by decide +kernel

/-! ### States for tests -/

/-- The state after reset with one NOP placed (log 13): tile 0, thread 0 of context 0 live at privilege F and PC 0x2000. The
manufacture record is in force, and the root is taken as a table of level 2, so that the first 1 GiB is mapped to itself for U and F,
and, from 0x4000_0000, for S. -/
def t0 : State :=
  let s := State.reset.withFetchWord 96 0
  { s with
    agenda := [], cfg := PConfig.manufacture 0, ctx := { s.ctx with ptbr := 0x1002 }
    mem := Memory.write s.mem 0x1008 (toLE 8 0x1D) }

/-- The same with values in `s`, `a` and `v` registers. -/
def sets (s : State) (l : List (Nat × Nat)) : State :=
  { s with thr := l.foldl (fun x e => x.setReg (.s e.1) (BitVec.ofNat 1024 e.2)) s.thr }
def seta (s : State) (l : List (Nat × Nat)) : State :=
  { s with thr := l.foldl (fun x e => x.setReg (.a e.1) (BitVec.ofNat 1024 e.2)) s.thr }
def setv (s : State) (l : List (Nat × Nat)) : State :=
  { s with thr := l.foldl (fun x e => x.setReg (.v e.1) (BitVec.ofNat 1024 e.2)) s.thr }

/-- The same with bytes in memory, or in another role, or changed in its thread. -/
def poke (s : State) (a : Nat) (bs : List Byte) : State := { s with mem := Memory.write s.mem a bs }
def inRole (s : State) (n : Nat) : State := { s with thr := { s.thr with role := n } }
def thrWith (s : State) (f : Thread → Thread) : State := { s with thr := f s.thr }
def ctxWith (s : State) (f : Ctx → Ctx) : State := { s with ctx := f s.ctx }

/-- Every condition holds. -/
def met (l : List Bool) : Bool := l.all id

/-- The instruction answers a next state of which `p` holds. -/
def gives (i : Instr) (s : State) (p : State → Bool) : Bool := match exec i s with | .next t => p t | _ => false

/-- The instruction reaches its own effect, execution can go on after it, and it goes on to the next instruction. -/
def goes (i : Instr) (s : State) (op : Nat) (k : Ctl) (regs : List Reg) : Bool :=
  s.ready op k regs && s.flow.isSome && gives i s fun t => t.thr.pc == nextPC s.thr.pc

/-- The instruction writes the register and goes on. -/
def writes (i : Instr) (s : State) (r : Reg) (v : Nat) : Bool :=
  gives i s fun t => t.thr.reg r == BitVec.ofNat 1024 v && t.thr.pc == nextPC s.thr.pc

/-- The instruction leaves the value to come for the register and goes on. -/
def brings (i : Instr) (s : State) (r : Reg) (v : Nat) : Bool :=
  gives i s fun t => (t.thr.pend.any fun p => p.dests.any fun d => d.r == r && d.v == BitVec.ofNat 1024 v) && t.thr.pc == nextPC s.thr.pc

/-! ### The scalar group -/

def s1 : State := seta (sets t0 [(1, 2 ^ 63), (2, 2 ^ 64 - 1), (3, 0x0123456789ABCDEF), (4, 68)]) [(1, 2 ^ 71 + 5), (2, 0x1000)]

-- R72: the sum wraps, clamps as signed, clamps as unsigned
theorem test_add : met [writes (.add { } ⟨5, 1, 2, 0, 0⟩) s1 (.s 5) (2 ^ 63 - 1), writes (.add { } ⟨5, 1, 2, 0, 1⟩) s1 (.s 5) (2 ^ 63),
    writes (.add { } ⟨5, 1, 2, 0, 2⟩) s1 (.s 5) (2 ^ 64 - 1), writes (.add { } ⟨0, 3, 4, 0, 0⟩) s1 (.s 0) 0] = true := by decide +kernel
theorem test_sub : met [writes (.sub { } ⟨5, 0, 4, 0, 0⟩) s1 (.s 5) (2 ^ 64 - 68), writes (.sub { } ⟨5, 0, 4, 0, 2⟩) s1 (.s 5) 0,
    writes (.sub { } ⟨5, 1, 4, 0, 1⟩) s1 (.s 5) (2 ^ 63)] = true := by decide +kernel
theorem test_addi : writes (.addi { } ⟨5, 2, 0, 2⟩) s1 (.s 5) 1 = true := by decide +kernel
-- R72: −2^63 times −1, signed and unsigned
theorem test_mul : met [writes (.mul { } ⟨5, 1, 2, 0, 0⟩) s1 (.s 5) (2 ^ 63), writes (.mulh { } ⟨5, 1, 2, 0, 0⟩) s1 (.s 5) 0,
    writes (.mulhu { } ⟨5, 1, 2, 0, 0⟩) s1 (.s 5) (2 ^ 63 - 1)] = true := by decide +kernel
-- R73
theorem test_div : met [writes (.div { } ⟨5, 1, 2, 0, 0⟩) s1 (.s 5) (2 ^ 63), writes (.div { } ⟨5, 1, 0, 0, 0⟩) s1 (.s 5) (2 ^ 64 - 1),
    writes (.rem { } ⟨5, 1, 2, 0, 0⟩) s1 (.s 5) 0, writes (.rem { } ⟨5, 1, 4, 0, 0⟩) s1 (.s 5) (2 ^ 64 - 60),
    writes (.remu { } ⟨5, 1, 4, 0, 0⟩) s1 (.s 5) 60, writes (.divu { } ⟨5, 4, 0, 0, 0⟩) s1 (.s 5) (2 ^ 64 - 1)] = true := by decide +kernel
-- R74: counts of 4 in bits [5:0] of 68
theorem test_shifts : met [writes (.shl { } ⟨5, 3, 4, 0, 0⟩) s1 (.s 5) 0x123456789ABCDEF0, writes (.shr { } ⟨5, 3, 4, 0, 0⟩) s1 (.s 5) 0x00123456789ABCDE,
    writes (.sra { } ⟨5, 1, 4, 0, 0⟩) s1 (.s 5) 0xF800000000000000, writes (.rotr { } ⟨5, 3, 4, 0, 0⟩) s1 (.s 5) 0xF0123456789ABCDE,
    writes (.srai { } ⟨5, 1, 0, 63⟩) s1 (.s 5) (2 ^ 64 - 1), writes (.andn { } ⟨5, 2, 3, 0, 0⟩) s1 (.s 5) 0xFEDCBA9876543210] = true := by decide +kernel
theorem test_counts : met [writes (.clz { } ⟨5, 3, 0, 0, 0⟩) s1 (.s 5) 7, writes (.ctz { } ⟨5, 0, 0, 0, 0⟩) s1 (.s 5) 64,
    writes (.pcnt { } ⟨5, 3, 0, 0, 0⟩) s1 (.s 5) 32, writes (.bswap { } ⟨5, 3, 0, 0, 0⟩) s1 (.s 5) 0xEFCDAB8967452301,
    writes (.min { } ⟨5, 1, 4, 0, 0⟩) s1 (.s 5) (2 ^ 63), writes (.minu { } ⟨5, 1, 4, 0, 0⟩) s1 (.s 5) 68] = true := by decide +kernel
-- R76: −1 is below 68 as signed and above it as unsigned
theorem test_compare : met [writes (.cmp { } ⟨1, 2, 4, 0, 2⟩) s1 (.p 1) 1, writes (.cmp { } ⟨1, 2, 4, 0, 4⟩) s1 (.p 1) 0,
    writes (.cmpi { } ⟨1, 4, 3, 68⟩) s1 (.p 1) 1, writes (.pset { } ⟨1, 0, 0, 0, 7⟩) s1 (.p 1) 0, writes (.sel { } ⟨5, 3, 4, 1, 0⟩) s1 (.s 5) 68,
    writes (.cmpa { } ⟨1, 2, 1, 0, 4⟩) s1 (.p 1) 1] = true := by decide +kernel
-- R75: five bits at 56 of s3 are 1; bits [7:0] of s3 sign-extended
theorem test_fields : met [writes (.bfx { } ⟨5, 3, 0, 4 * 256 + 56⟩) s1 (.s 5) 1, writes (.bfx { } ⟨5, 3, 1, 7 * 256⟩) s1 (.s 5) (2 ^ 64 - 17),
    writes (.bfi { } ⟨2, 0, 0, 7 * 256 + 56⟩) s1 (.s 2) (2 ^ 56 - 1), writes (.ext { } ⟨5, 3, 0, 0, 1⟩) s1 (.s 5) (2 ^ 64 - 0x3211),
    writes (.ext { } ⟨5, 3, 0, 0, 5⟩) s1 (.s 5) 0xCDEF, writes (.movAh { } ⟨5, 1, 0, 0, 2⟩) s1 (.s 5) 0x80,
    writes (.movAl { } ⟨5, 1, 0, 0, 1⟩) s1 (.s 5) 5] = true := by decide +kernel
-- R78
theorem test_addresses : met [writes (.lea { } ⟨5, 2, 4, 2, 0, 0, 2 ^ 48 - 1⟩) s1 (.a 5) (0x1000 + 68 * 64 - 1),
    writes (.suba { } ⟨5, 2, 2, 0, 0⟩) s1 (.a 5) 0x1001, writes (.subaD { } ⟨5, 2, 1, 0, 1⟩) s1 (.s 5) (2 ^ 63),
    writes (.movaSh { } ⟨5, 4, 2, 0, 2⟩) s1 (.a 5) (0xFF * 2 ^ 64 + 68), writes (.movai { } ⟨5, 0, 2 ^ 72 - 1⟩) s1 (.a 5) (2 ^ 72 - 1)] = true := by
  decide +kernel

theorem test_meets_ScalarArithmeticResults :
    met [goes (.add { } ⟨5, 1, 2, 0, 0⟩) s1 0x001 { } [.s 5, .s 1, .s 2], goes (.sub { } ⟨5, 1, 2, 0, 1⟩) s1 0x002 { } [.s 5, .s 1, .s 2],
      goes (.addi { } ⟨5, 1, 2, 7⟩) s1 0x003 { } [.s 5, .s 1], goes (.mul { } ⟨0, 1, 2, 0, 0⟩) s1 0x004 { } [.s 0, .s 1, .s 2],
      goes (.mulh { } ⟨63, 1, 2, 0, 0⟩) s1 0x005 { } [.s 63, .s 1, .s 2], goes (.mulhu { } ⟨5, 1, 2, 0, 0⟩) s1 0x006 { } [.s 5, .s 1, .s 2]] = true := by
  decide +kernel
theorem test_meets_DivisionResults :
    met [goes (.div { } ⟨5, 1, 2, 0, 0⟩) s1 0x007 { } [.s 5, .s 1, .s 2], goes (.divu { } ⟨5, 1, 0, 0, 0⟩) s1 0x008 { } [.s 5, .s 1, .s 0],
      goes (.rem { } ⟨5, 1, 2, 0, 0⟩) s1 0x009 { } [.s 5, .s 1, .s 2], goes (.remu { } ⟨5, 1, 0, 0, 0⟩) s1 0x00A { } [.s 5, .s 1, .s 0]] = true := by
  decide +kernel
theorem test_meets_LogicAndShiftResults :
    met [goes (.and { } ⟨5, 1, 2, 0, 0⟩) s1 0x010 { } [.s 5, .s 1, .s 2], goes (.or { } ⟨5, 1, 2, 0, 0⟩) s1 0x011 { } [.s 5, .s 1, .s 2],
      goes (.xor { } ⟨5, 1, 2, 0, 0⟩) s1 0x012 { } [.s 5, .s 1, .s 2], goes (.andn { } ⟨5, 1, 2, 0, 0⟩) s1 0x013 { } [.s 5, .s 1, .s 2],
      goes (.andi { } ⟨5, 1, 0, 7⟩) s1 0x014 { } [.s 5, .s 1], goes (.ori { } ⟨5, 1, 0, 7⟩) s1 0x015 { } [.s 5, .s 1],
      goes (.xori { } ⟨5, 1, 0, 7⟩) s1 0x016 { } [.s 5, .s 1], goes (.shl { } ⟨5, 1, 4, 0, 0⟩) s1 0x018 { } [.s 5, .s 1, .s 4],
      goes (.shr { } ⟨5, 1, 4, 0, 0⟩) s1 0x019 { } [.s 5, .s 1, .s 4], goes (.sra { } ⟨5, 1, 4, 0, 0⟩) s1 0x01A { } [.s 5, .s 1, .s 4],
      goes (.rotr { } ⟨5, 1, 4, 0, 0⟩) s1 0x01B { } [.s 5, .s 1, .s 4], goes (.shli { } ⟨5, 1, 0, 63⟩) s1 0x01C { } [.s 5, .s 1],
      goes (.shri { } ⟨5, 1, 0, 0⟩) s1 0x01D { } [.s 5, .s 1], goes (.srai { } ⟨5, 1, 0, 63⟩) s1 0x01E { } [.s 5, .s 1]] = true := by decide +kernel
theorem test_meets_CountAndMinimumResults :
    met [goes (.clz { } ⟨5, 1, 0, 0, 0⟩) s1 0x020 { } [.s 5, .s 1, .s 0], goes (.ctz { } ⟨5, 0, 0, 0, 0⟩) s1 0x021 { } [.s 5, .s 0, .s 0],
      goes (.pcnt { } ⟨5, 1, 0, 0, 0⟩) s1 0x022 { } [.s 5, .s 1, .s 0], goes (.bswap { } ⟨5, 1, 0, 0, 0⟩) s1 0x023 { } [.s 5, .s 1, .s 0],
      goes (.min { } ⟨5, 1, 2, 0, 0⟩) s1 0x024 { } [.s 5, .s 1, .s 2], goes (.max { } ⟨5, 1, 2, 0, 0⟩) s1 0x025 { } [.s 5, .s 1, .s 2],
      goes (.minu { } ⟨5, 1, 2, 0, 0⟩) s1 0x026 { } [.s 5, .s 1, .s 2], goes (.maxu { } ⟨5, 1, 2, 0, 0⟩) s1 0x027 { } [.s 5, .s 1, .s 2]] = true := by
  decide +kernel
theorem test_meets_CompareSelectResults :
    met [goes (.cmp { } ⟨7, 1, 2, 0, 5⟩) s1 0x028 { } [.s 1, .s 2], goes (.cmpi { } ⟨0, 1, 0, 5⟩) s1 0x029 { } [.s 1],
      goes (.sel { } ⟨5, 1, 2, 7, 0⟩) s1 0x02A { } [.s 5, .s 1, .s 2], goes (.pset { } ⟨1, 2, 3, 0, 3⟩) s1 0x02B { } [],
      goes (.cmpa { } ⟨1, 1, 2, 0, 4⟩) s1 0x03C { } []] = true := by decide +kernel
theorem test_meets_MoveAndFieldResults :
    met [goes (.nop { } ⟨0, 0, 0, 0, 0⟩) s1 0x000 { } [], goes (.mov { } ⟨5, 1, 0, 0, 0⟩) s1 0x030 { } [.s 5, .s 1],
      goes (.movAl { } ⟨5, 1, 0, 0, 1⟩) s1 0x030 { } [.s 5], goes (.movAh { } ⟨5, 1, 0, 0, 2⟩) s1 0x030 { } [.s 5],
      goes (.movi { } ⟨5, 0, 0, 2 ^ 64 - 1⟩) s1 0x031 { } [.s 5], goes (.ext { } ⟨5, 1, 0, 0, 6⟩) s1 0x032 { } [.s 5, .s 1],
      goes (.bfx { } ⟨5, 1, 1, 63⟩) s1 0x033 { } [.s 5, .s 1], goes (.bfi { } ⟨5, 1, 0, 63 * 256⟩) s1 0x034 { } [.s 5, .s 1]] = true := by decide +kernel
theorem test_meets_AddressArithmeticResults :
    met [goes (.lea { } ⟨31, 1, 4, 3, 0, 0, 8⟩) s1 0x038 { } [.s 4], goes (.adda { } ⟨5, 1, 2, 0, 0⟩) s1 0x039 { } [.s 2],
      goes (.suba { } ⟨5, 1, 2, 0, 0⟩) s1 0x03A { } [.s 2], goes (.subaD { } ⟨5, 1, 2, 0, 1⟩) s1 0x03A { } [.s 5],
      goes (.mova { } ⟨5, 1, 0, 0, 0⟩) s1 0x03B { } [], goes (.movaS { } ⟨5, 1, 0, 0, 1⟩) s1 0x03B { } [.s 1],
      goes (.movaSh { } ⟨5, 1, 2, 0, 2⟩) s1 0x03B { } [.s 1, .s 2], goes (.movai { } ⟨5, 0, 7⟩) s1 0x03D { } []] = true := by decide +kernel


/-! ### The vector group -/

/-- A VU thread: element 0 of v1, v2, v4 and v5 is 1.0, −1.5, 2.0 and Inf in FP32, v3 begins with the bytes 0x80, 0x7F, 0xFF, 0x01, and
every other element is 0. -/
def s2 : State := sets (setv (inRole t0 3) [(1, 0x3F800000), (2, 0xBFC00000), (3, 0x01FF7F80), (4, 0x40000000), (5, 0x7F800000)]) [(1, 2 ^ 64 - 3)]

/-- Element 0, of `w` bytes, of the value to come for a v register. -/
def elem0 (i : Instr) (s : State) (w v : Nat) : Bool :=
  gives i s fun t => t.thr.pend.any fun p => p.dests.any fun d => elemOf d.v w 0 == v

-- R167: −128 + −128 as I8 wraps to 0 and clamps to −128; R166: |−128| clamps to 127
theorem test_vadd_int : met [elem0 (.vadd { } ⟨6, 3, 3, 0, 0, 1, 0, 0, 0, 0⟩) s2 1 0, elem0 (.vadd { } ⟨6, 3, 3, 0, 0, 1, 1, 0, 0, 0⟩) s2 1 0x80,
    elem0 (.vabs { } ⟨6, 3, 0, 0, 0, 1, 1, 0, 0, 0⟩) s2 1 0x7F, elem0 (.vsub { } ⟨6, 0, 3, 0, 0, 0, 1, 0, 0, 0⟩) s2 1 0,
    elem0 (.vmul { } ⟨6, 3, 3, 0, 0, 2, 0, 0, 0, 0⟩) s2 2 0x4000] = true := by decide +kernel
-- 1.0 + −1.5 = −0.5; 1.0 · −1.5 + 2.0 = 0.5; √2.0 rounds to 0x3FB504F3; 1.0 ÷ 0 = Inf; 1.0 ÷ −1.5 rounds to 0xBF2AAAAB
theorem test_vfloat : met [elem0 (.vadd { } ⟨6, 1, 2, 0, 0, 7, 0, 0, 0, 0⟩) s2 4 0xBF000000, elem0 (.vfma { } ⟨6, 1, 2, 4, 0, 7, 0, 0, 0, 0⟩) s2 4 0x3F000000,
    elem0 (.vsqrt { } ⟨6, 4, 0, 0, 0, 7, 0, 0, 0, 0⟩) s2 4 0x3FB504F3, elem0 (.vdiv { } ⟨6, 1, 0, 0, 0, 7, 0, 0, 0, 0⟩) s2 4 0x7F800000,
    elem0 (.vdiv { } ⟨6, 1, 2, 0, 0, 7, 0, 0, 0, 0⟩) s2 4 0xBF2AAAAB, elem0 (.vdiv { } ⟨6, 1, 2, 0, 0, 7, 0, 0, 1, 0⟩) s2 4 0xBF2AAAAA] = true := by
  decide +kernel
-- R123: an exact zero sum is +0, and −0 under RD
theorem test_vadd_zero : met [elem0 (.vsub { } ⟨6, 1, 1, 0, 0, 7, 0, 0, 0, 0⟩) s2 4 0, elem0 (.vsub { } ⟨6, 1, 1, 0, 0, 7, 0, 0, 3, 0⟩) s2 4 0x80000000] = true := by
  decide +kernel
-- R169 to R174: 0x80 >> 1 as I8 and as U8; −128 < 127; a broadcast of −3; an extracted −128 sign-extends
theorem test_vmoves : met [elem0 (.vsra { } ⟨6, 3, 0, 0, 0, 1, 1, 2, 0, 0⟩) (sets s2 [(2, 9)]) 1 0xC0,
    elem0 (.vshr { } ⟨6, 3, 0, 0, 0, 0, 1, 2, 0, 0⟩) (sets s2 [(2, 9)]) 1 0x40, elem0 (.vcmp { } ⟨6, 3, 0, 0, 0, 1, 2, 0, 0, 0⟩) s2 1 0xFF,
    elem0 (.vbcast { } ⟨6, 0, 0, 0, 0, 3, 0, 1, 0, 0⟩) s2 2 0xFFFD, brings (.vext { } ⟨0, 3, 0, 0, 0, 1, 0, 5, 0, 0⟩) s2 (.s 5) (2 ^ 64 - 128),
    elem0 (.vins { } ⟨3, 0, 0, 0, 0, 0, 0, 1, 0, 1⟩) s2 4 0x01FFFD80] = true := by decide +kernel
-- R171: 1.0 to I8 is 1; Inf to I32 clamps to 2^31 − 1 and sets TSR.SAT; R173: I8 −128 + 127 − 1 + 1 = −1
theorem test_vcvt : met [elem0 (.vcvt { } ⟨6, 1, 0, 0, 0, 5, 0, 0, 0, 7⟩) s2 4 1, elem0 (.vcvt { } ⟨6, 5, 0, 0, 0, 5, 0, 0, 0, 7⟩) s2 4 0x7FFFFFFF,
    gives (.vcvt { } ⟨6, 5, 0, 0, 0, 5, 0, 0, 0, 7⟩) s2 fun t => t.thr.tsr == 0x6104] = true := by decide +kernel
theorem test_vred : met [elem0 (.vred { } ⟨6, 3, 0, 0, 0, 1, 0, 0, 0, 0⟩) s2 1 0xFF, elem0 (.vred { } ⟨6, 3, 0, 0, 0, 1, 1, 0, 0, 0⟩) s2 1 0x80] = true := by
  decide +kernel
-- R176, R141: HOFF is 0x61 after reset, so the exponent 127 falls in bin 127 − 97 + 2 = 32, and the 31 zeros in bin 0
theorem test_vhist : gives (.vhist { } ⟨0, 1, 0, 0, 0, 7, 0, 0, 0, 0⟩) s2 (fun t => SMap.get 0 t.tile.hist 32 == 1 && SMap.get 0 t.tile.hist 0 == 31) = true := by
  decide +kernel

theorem test_meets_VectorIntegerArithmetic : let f : FV := ⟨6, 1, 2, 0, 1, 5, 1, 0, 0, 0⟩
    (f.ty < 6) ∧ met [s2.vuRoom, goes (.vadd { } f) s2 0x200 { } [.v 6, .v 1, .v 2], goes (.vsub { } f) s2 0x201 { } [.v 6, .v 1, .v 2],
      goes (.vmul { } f) s2 0x202 { } [.v 6, .v 1, .v 2], goes (.vmin { } f) s2 0x205 { } [.v 6, .v 1, .v 2], goes (.vmax { } f) s2 0x206 { } [.v 6, .v 1, .v 2],
      goes (.vabs { } f) s2 0x207 { } [.v 6, .v 1], goes (.vneg { } f) s2 0x208 { } [.v 6, .v 1]] = true := by decide +kernel
theorem test_meets_VectorFloatArithmetic : let f : FV := ⟨6, 1, 2, 4, 0, 6, 0, 0, 3, 0⟩
    let r : List Reg := [.v 6, .v 1, .v 2]
    (6 ≤ f.ty) ∧ met [s2.vuRoom, goes (.vadd { } f) s2 0x200 { } r, goes (.vsub { } f) s2 0x201 { } r, goes (.vmul { } f) s2 0x202 { } r,
      goes (.vfma { } f) s2 0x203 { } (r ++ [.v 4]), goes (.vfms { } f) s2 0x204 { } (r ++ [.v 4]), goes (.vmin { } f) s2 0x205 { } r,
      goes (.vmax { } f) s2 0x206 { } r, goes (.vabs { } f) s2 0x207 { } [.v 6, .v 1], goes (.vneg { } f) s2 0x208 { } [.v 6, .v 1]] = true := by decide +kernel
theorem test_meets_VectorFloatArithmetic_functions : let f : FV := ⟨6, 1, 2, 0, 0, 7, 0, 0, 0, 0⟩
    (6 ≤ f.ty) ∧ met [s2.vuRoom, goes (.vrcp { } f) s2 0x209 { } [.v 6, .v 1], goes (.vrsq { } f) s2 0x20A { } [.v 6, .v 1], goes (.vexp2 { } f) s2 0x20B { } [.v 6, .v 1],
      goes (.vlog2 { } f) s2 0x20C { } [.v 6, .v 1], goes (.vdiv { } f) s2 0x20D { } [.v 6, .v 1, .v 2], goes (.vsqrt { } f) s2 0x20E { } [.v 6, .v 1]] = true := by
  decide +kernel
theorem test_meets_FloatSpecialOperands : (fp32 = fp32 ∨ fp32 = bf16) ∧ (bf16 = fp32 ∨ bf16 = bf16) ∧ 0 < 1 := by decide
theorem test_meets_VectorElementMoves : let f : FV := ⟨6, 1, 2, 3, 0, 4, 0, 0, 0, 0⟩
    let r : List Reg := [.v 6, .v 1, .v 2]
    met [s2.vuRoom, goes (.vand { } f) s2 0x210 { } r, goes (.vor { } f) s2 0x211 { } r, goes (.vxor { } f) s2 0x212 { } r, goes (.vshl { } f) s2 0x213 { } r,
      goes (.vshr { } f) s2 0x214 { } r, goes (.vsra { } f) s2 0x215 { } r, goes (.vsra { } ⟨6, 1, 0, 0, 0, 4, 1, 1, 0, 0⟩) s2 0x215 { } [.v 6, .v 1, .s 1],
      goes (.vcmp { } f) s2 0x218 { } r, goes (.vsel { } f) s2 0x219 { } (r ++ [.v 3]), goes (.vperm { } f) s2 0x220 { } r,
      goes (.vbcast { } f) s2 0x221 { } [.v 6, .s 0], goes (.vmov { } f) s2 0x224 { } [.v 6, .v 1], goes (.vmovi { } f) s2 0x225 { } [.v 6]] = true := by
  decide +kernel
theorem test_meets_VectorInsertExtractMasks : let f : FV := ⟨6, 1, 2, 0, 0, 4, 0, 9, 0, 31⟩
    f.imm < 128 / tyBytes f.ty ∧ met [s2.vuRoom, goes (.vins { } f) s2 0x222 { } [.v 6, .s 9], goes (.vext { } f) s2 0x223 { } [.s 9, .v 1],
      goes (.kop { } ⟨6, 1, 2, 0, 0, 0, 5, 0, 0, 0⟩) s2 0x228 { } [], goes (.kmov { } ⟨6, 0, 0, 0, 0, 0, 0, 9, 0, 0⟩) s2 0x229 { } [.s 9],
      goes (.kmov { } ⟨0, 1, 0, 0, 0, 0, 1, 9, 0, 0⟩) s2 0x229 { } [.s 9], goes (.kmov { } ⟨6, 1, 0, 0, 0, 0, 2, 0, 0, 0⟩) s2 0x229 { } [.v 1]] = true := by
  decide +kernel
theorem test_meets_VectorConvertReduceScan :
    met [s2.vuRoom, goes (.vcvt { } ⟨6, 1, 0, 0, 0, 0, 3, 0, 0, 7⟩) s2 0x21A { } [.v 6, .v 1], goes (.vred { } ⟨6, 1, 0, 0, 0, 6, 3, 0, 0, 0⟩) s2 0x21B { } [.v 6, .v 1],
      goes (.vscan { } ⟨6, 1, 0, 0, 0, 7, 2, 0, 0, 0⟩) s2 0x21C { } [.v 6, .v 1]] = true := by decide +kernel
theorem test_meets_HistogramTags :
    met [s2.vuRoom, goes (.vhist { } ⟨0, 1, 0, 0, 0, 7, 0, 0, 0, 0⟩) s2 0x22A { } [.v 1], s2.flow.isSome, !s2.trails] = true := by decide +kernel


/-! ### Branches, calls, jump tables and loops -/

/-- A thread in a line whose five slots are targets (TGT = 31 and LPAR), with 3 in s1 and a table of jump entries at 0x3000: entry 0
names slot 2 of the own line, entry 1 the slot code 5. -/
def s3 : State := seta (sets (poke (poke t0 0x203C (toLE 4 0x201F)) 0x3000 [2, 0, 0, 0, 5, 0, 0, 0]) [(1, 3), (2, 1)]) [(1, 0x3000), (2, 0x2018), (3, 0x2001)]

def lands (i : Instr) (s : State) (p : Addr) : Bool := gives i s fun t => t.thr.pc == p

-- R59: slot 4 of the own line; R79: not taken; R81: the link is the next slot
theorem test_branch : met [lands (.br { } ⟨0, 0, 0, 0, 0, 4⟩) s3 0x2030, lands (.bc { } ⟨1, 0, 1, 0, 0, 2⟩) s3 0x2018,
    lands (.bc { } ⟨1, 0, 0, 0, 0, 2⟩) s3 0x200C, lands (.bcmp { } ⟨2, 1, 4, 0, 0, 1⟩) s3 0x200C,
    gives (.call { } ⟨7, 0, 0, 0, 0, 3⟩) s3 fun t => t.thr.pc == 0x2024 && t.thr.reg (.a 7) == 0x200C] = true := by decide +kernel
-- R49: a target between slots traps ILLTGT; TVEC is 0 and not mapped executable as a target, so the entry parks the thread
theorem test_branch_bad : gives (.bi { } ⟨0, 3, 0, 0, 0⟩) s3 (fun t => t == (s3.take cILLTGT 0x2001).tickFresh) = true := by decide +kernel
theorem test_jtab : met [lands (.jtab { } ⟨0, 0, 2, 1, 0⟩) s3 0x2018, lands (.jtab { } ⟨0, 2, 2, 1, 0⟩) s3 0x200C] = true := by decide +kernel
-- R84: level 0 armed with count 3, start 0x200C and end 0x2024; R85: after its end the loop goes to its start
theorem test_loop : gives (.loop { } ⟨1, 0, 0, 0, 0, 3⟩) s3 (fun t => t.thr.loops == { lc0 := 3, ls := 0x200C, le := 0x2024 } && t.thr.pc == 0x200C) = true := by
  decide +kernel
theorem test_loop_closes : gives (.nop { } ⟨0, 0, 0, 0, 0⟩) (thrWith s3 fun x => { x with pc := 0x2024, loops := { lc0 := 3, ls := 0x200C, le := 0x2024 } })
    (fun t => t.thr.loops.lc0 == 2 && t.thr.pc == 0x200C) = true := by decide +kernel
theorem test_breakl : lands (.breakl { } ⟨0, 0, 0, 0, 0⟩) (thrWith s3 fun x => { x with loops := { lc0 := 3, ls := 0x200C, le := 0x2024 } }) 0x2030 = true := by
  decide +kernel

theorem test_meets_BranchesAndCalls :
    met [s3.ready 0x080 { } [], (s3.target 0x2030).isNone, (s3.target 0x2001).isSome, s3.flow.isSome, lands (.bc { } ⟨1, 0, 1, 0, 0, 2⟩) s3 0x2018, goes (.bc { } ⟨1, 0, 0, 0, 0, 2⟩) s3 0x081 { } [.s 1],
      lands (.calli { } ⟨7, 2, 0, 0, 0⟩) s3 0x2018, lands (.ret { } ⟨0, 2, 0, 0, 0⟩) s3 0x2018, lands (.bcmp { } ⟨1, 2, 5, 0, 0, 4⟩) s3 0x2030] = true := by
  decide +kernel
/-- The same with a1 in the window of tile 1, whose fence the die has learnt of. -/
def s3w : State := (seta s3 [(1, 0xFE * 2 ^ 64 + 2 ^ 32)]).modDie 0 fun d => { d with knows := [1] }
theorem test_meets_JumpTableGoes :
    let ok := fun (i : Nat) (p : Nat → Bool) => match s3.begun.load (0x3000 + BitVec.ofNat 72 (4 * i)) 4 4 with
      | .ok g => g.bad.isNone && p (ofLE g.bs % 8)
      | _ => false
    met [s3w.ready 0x087 { } [.s 0, .s 2], !s3w.trails, gives (.jtab { } ⟨0, 0, 2, 1, 0⟩) s3w (· == (s3w.take cRESPF (0xFE * 2 ^ 64 + 2 ^ 32)).tickFresh),
      s3.ready 0x087 { } [.s 0, .s 2], ok 0 (· ≤ 4), ok 1 (4 < ·), goes (.jtab { } ⟨0, 2, 2, 1, 0⟩) s3 0x087 { } [.s 2, .s 2]] = true ∧
      (s3.rs 0).toNat < (s3.rs 2).toNat ∧ (s3.rs 2).toNat ≤ (s3.rs 2).toNat := by decide +kernel
-- LoopLegal, decided, for an end at slot 3
theorem test_meets_LoopsArm : let e := targetB s3.thr.pc 0 3
    let b := nextPC s3.thr.pc
    let fetched := match s3.begun.fetch b, slotOf b with | .ok x, some i => x.tgt i | _, _ => false
    b.toNat ≤ e.toNat ∧ e.toNat / 2 ^ 36 = b.toNat / 2 ^ 36 ∧ s3.thr.loops.lc1 = 0 ∧ s3.thr.loops.lc0 = 0 ∧ s3.rs 1 ≠ 0 ∧ s3.rs 0 = 0 ∧
    met [match s3.begun.olderMember e with | .ok b => !b | _ => false, fetched, goes (.loop { } ⟨1, 0, 0, 0, 0, 3⟩) s3 0x088 { } [.s 1],
      lands (.loop { } ⟨0, 0, 0, 0, 0, 3⟩) s3 0x2030, goes (.loopi { } ⟨1, 0, 3⟩) s3 0x089 { } [], lands (.loopi { } ⟨0, 0, 3⟩) s3 0x2030] = true := by
  decide +kernel
theorem test_meets_BreakLeavesLoop :
    let u := thrWith s3 fun x => { x with loops := { lc0 := 3, lc1 := 2, ls := 0x200C * 2 ^ 36 + 0x200C, le := 0x2018 * 2 ^ 36 + 0x2024 } }
    u.thr.loops.lc1 ≠ 0 ∧ met [lands (.breakl { } ⟨0, 0, 0, 0, 0⟩) u 0x2024, (Instr.breakl { } ⟨0, 0, 0, 0, 0⟩).wf, (encode (.breakl { } ⟨0, 0, 0, 0, 0⟩)).isSome, s3.ready 0x08A { } [], s3.thr.loops.lc0 == 0 && s3.thr.loops.lc1 == 0] = true := by
  decide +kernel
-- each clause: at the end of both levels, of one, of none, with turns left and at the last turn
theorem test_meets_LoopsCloseInnermostFirst :
    let l := fun (m n : Word) => ({ lc0 := m, lc1 := n, ls := 0x200C * 2 ^ 36 + 0x2000, le := 0x2024 * 2 ^ 36 + 0x2024 } : Loops)
    let pc : Addr := 0x2024
    low36 pc = (l 1 1).end_ 1 ∧ low36 pc = (l 1 1).end_ 0 ∧ (l 2 2).close pc = (l 2 1, some 0x200C) ∧ (l 2 1).close pc = (l 1 0, some 0x2000) ∧
    (l 1 1).close pc = (l 0 0, none) ∧ (l 0 1).close pc = (l 0 0, none) ∧ (l 2 0).close pc = (l 1 0, some 0x2000) ∧ (l 1 0).close pc = (l 0 0, none) ∧
    (l 2 2).close 0x2030 = (l 2 2, none) := by decide +kernel


/-! ### Stepping, checks and traps -/

/-- The state after reset with ADD s5, s1, s2 placed, 2^63 in s1 and 2^63 + 1 in s2. -/
def s4 : State := sets (State.reset.withFetchWord 96 (wordOf 0x001 [(75, 5), (69, 1), (63, 2)])) [(1, 2 ^ 63), (2, 2 ^ 63 + 1)]

/-- What one step leaves. -/
def steps (s : State) (p : State → Bool) : Bool := match step s with | .next t => p t | _ => false

theorem test_step_add : steps s4 (fun t => t.thr.reg (.s 5) == 1 && t.thr.pc == 0x200C && t.plumb == 1) = true := by decide +kernel
-- R68: a reserved opcode traps ILLOP; without a handler the entry parks the thread, whose shadow registers tell of it (R96)
theorem test_step_reserved : steps (State.reset.withFetchWord 96 (0x380 * 2 ^ 85)) (fun t =>
    t.thr.tcause == BitVec.ofNat 64 cILLOP || t.thr.hfcause != 0) = true := by decide +kernel
-- the all-zero word is NOP
theorem test_step_nop : steps (State.reset.withFetchWord 96 0) (fun t => t.thr.pc == 0x200C && t.thr.sr == []) = true := by decide +kernel

/-- A thread at U with TVEC at a target, a stack in TSP, and loop 0 live. -/
def s4u : State := thrWith s3 fun x => { x with priv := 0, tvec := 0x40002000, tsp := 0x7000, ar := [(31, 0x6000)], loops := { lc0 := 2, ls := 0x2000, le := 0x2030 } }

-- R95
theorem test_trap_entry : (let t := s4u.trapEntry cPERM 0x2024 0x1234
    t.thr.pc == 0x40002000 && t.thr.tpc == 0x2024 && t.thr.taddr == 0x1234 && t.thr.priv == 1 && t.thr.reg (.a 31) == 0x7000 && t.thr.tsp == 0x6000 &&
    t.thr.tstat.getLsbD 4 && t.thr.loops.lc0 == 0 && t.thr.tloops.lc0 == 2) = true := by decide +kernel
-- R97, R95: TRAP #7 at 0x2000
theorem test_trap : gives (.trap { } ⟨7⟩) s4u (fun t => t.thr.tcause == BitVec.ofNat 64 cTRAPI && t.thr.taddr == 7 && t.thr.tpc == 0x200C) = true := by
  decide +kernel
-- R98: back to U
theorem test_eret : gives (.eret { } ⟨⟩) (s4u.trapEntry cPERM 0x2024 0x1234) (fun t => t.thr.pc == 0x2024 && t.thr.priv == 0 && t.thr.loops.lc0 == 2 &&
    t.thr.reg (.a 31) == 0x6000 && !t.thr.tstat.getLsbD 4) = true := by decide +kernel

theorem test_meets_DecodeOfEncode : let i : Instr := .ld { s := true, pg := 7 } ⟨63, 31, 63, 3, 10, 11, 2 ^ 48 - 1⟩
    i.wf = true ∧ isEvent i = false ∧ isEvent (.fifoSend 0) = true := by decide +kernel
theorem test_meets_EncodeOfDecode : let w := wordOf 0x340 [(0, 0xFFFFFFFF)]
    w < 2 ^ 96 ∧ decode w = .ok (.trap { } { imm := 0xFFFFFFFF }) := by decide +kernel
theorem test_meets_StepRunsDecodedInstruction : let i : Instr := .add { } ⟨5, 1, 2, 0, 0⟩
    s4.agenda = [.turn s4.cur.t] ∧ s4.tileIssues s4.cur.t = true ∧ (s4.rotation s4.cur.t).head? = some s4.cur ∧
    s4.mayIssue s4.cur = true ∧ s4.owed = none ∧
    (match ({ s4 with agenda := [] } : State).draw with
     | (u, .ok (l, j)) => !l.older.contains j && decide (decode (l.slot j) = .ok i) && gives i u fun t => t.thr.wait == .none
     | _ => false) = true := by decide +kernel
theorem test_meets_StepRunsNamedEvent : isEvent (.fifoSend 0) = true ∧
    met [steps { t0 with agenda := [.event (.fifoSend 0)] } (· == t0), steps { t0 with agenda := [.tick 5] } fun t => t.plumb == 5] = true := by decide +kernel
theorem test_meets_StepKeepsMemoryCanonical : let s : State := { s4 with agenda := [.event (.hostMemWr (2 ^ 50) 5)] }
    Memory.wf s4.mem = true ∧ Memory.wf s.mem = true ∧ steps s4 (fun _ => true) = true ∧ steps s (fun _ => true) = true := by decide +kernel
theorem test_meets_RegisterFileReadsWrites : (1 : Nat) ≠ 0 ∧ Reg.s 1 ≠ Reg.s 0 ∧ Reg.a 0 ≠ Reg.s 0 := by decide

/-- A thread with eight `s` registers. -/
def s4k : State := ctxWith t0 fun c => { c with sregs := 8 }
theorem test_meets_ChecksComeInOrder : s4k.thr.life = .live ∧ s4k.owed = none ∧ s4k.valueOwed 0x200 = false ∧ s4k.thr.region = none ∧
    [Reg.s 8].any (fun r => !s4k.ctx.has r) = true ∧ [Reg.s 7].any (fun r => !s4k.ctx.has r) = false ∧ roleOf 0x200 = some 3 ∧ 3 ≠ s4k.actsAs ∧
    (roleOf 0x345).all (· == s4k.actsAs) = true ∧ s4k.thr.retry = none ∧ s4k.rp 1 = false ∧ s4k.waitS = none := by decide +kernel
theorem test_meets_PrivilegedTrapsBelowLevel : s4u.thr.life = .live ∧ s4u.owed = none ∧ (∀ op ∈ [0x341, 0x342, 0x343, 0x344, 0x345], s4u.valueOwed op = false) ∧ s4u.thr.region = none ∧
    s4u.ctx.has (.s 63) = true ∧ s4u.thr.priv = 0 ∧ s4u.thr.priv < csrReadLvl 0x200 ∧ s4u.thr.priv < csrWriteLvl 0x101 ∧
    s4u.thr.priv < max (csrReadLvl 0x20B) (csrWriteLvl 0x20B) := by decide +kernel
theorem test_meets_TrapEntrySavesAndEnters : tHbusy s4u.thr.tstat = false ∧ s4u.thr.priv < 3 ∧
    (({ s4u with thr := { s4u.thr with priv := 1 } } : State).target s4u.thr.tvec).isNone = true ∧ s4u.thr.priv = 0 ∧ s3.thr.priv ≠ 0 := by decide +kernel
theorem test_meets_NestedTrapParksInHfault : tHbusy (s4u.trapEntry cPERM 0x2024 0x1234).thr.tstat = true := by decide +kernel
theorem test_meets_TrapTakesTrapi : (Instr.trap { } ⟨7⟩).wf = true ∧ (encode (.trap { } ⟨7⟩)).isSome = true ∧ s4u.ready 0x340 { } [] = true ∧ s4u.begun.owesResults = false ∧ s4u.thr.defer = [] ∧ s4u.begun.muStop = none := by
  decide +kernel
-- a saved privilege above the present one, a TPC that names no slot, and one that does, back to U and back to F
theorem test_meets_EretRestores :
    let x := fun (p : Nat) (tpc : Addr) (saved : Word) => thrWith s4u fun x => { x with priv := p, tpc := tpc, tstat := saved }
    (x 1 0x2024 8).ready 0x341 { } [] = true ∧ (x 1 0x2024 8).thr.priv ≠ 0 ∧ (8 : Word).toNat / 4 % 4 = 2 ∧ slotOf (x 1 0x2001 0).thr.tpc = none ∧
    slotOf (x 1 0x2030 0).thr.tpc ≠ none ∧ slotOf (x 1 0x203C 0).thr.tpc = none ∧
    met [gives (.eret { } ⟨⟩) (x 1 0x2030 0) fun t => t.thr.priv == 0, gives (.eret { } ⟨⟩) (x 2 0x2030 8) fun t => t.thr.priv == 2] = true := by
  decide +kernel


/-! ### The system group -/

def s5 : State := sets (seta t0 [(1, 0x2000), (2, 0x123456)]) [(1, 0xFF07), (2, 4095), (3, 4096), (4, 100)]

-- R88: TID is the tile and the thread; R141: writing TSR clears a sticky bit by a one
theorem test_csrr : met [writes (.csrr { } ⟨5, 0, 0, 0x20B⟩) s5 (.s 5) 8, writes (.csrr { } ⟨5, 0, 1, 0x100⟩) s5 (.a 5) 0x6100] = true := by decide +kernel
theorem test_csrw : met [gives (.csrw { } ⟨0, 1, 0, 0x100⟩) (thrWith s5 fun x => { x with tsr := 0x6106 }) fun t => t.thr.tsr == 0xFF01,
    gives (.csrw { } ⟨0, 0, 0, 0x20B⟩) s5 fun t => t.ctx.rlimit == 1, gives (.csrw { } ⟨0, 2, 1, 0x00B⟩) s5 fun t => t.thr.lseg == 0x23440] = true := by decide +kernel
theorem test_csrx : gives (.csrx { } ⟨5, 4, 1, 0x006⟩) (thrWith s5 fun x => { x with tscr := [(0, 3)] }) (fun t =>
    t.thr.reg (.s 5) == 3 && SMap.get 0 t.thr.tscr 0 == 103) = true := by decide +kernel
theorem test_park : gives (.park { } ⟨5, 4⟩) s5 (fun t => t.thr.wait == .park (some 100) && t.thr.pc == 0x2000) = true := by decide +kernel

theorem test_meets_CsrReads : s5.thr.priv ≥ csrReadLvl 0x001 ∧ s5.trails = false ∧ s5.trailed = false ∧
    met [goes (.csrr { } ⟨5, 0, 0, 0x001⟩) s5 0x342 { } [.s 5], goes (.csrr { } ⟨5, 0, 1, 0x17F⟩) s5 0x342 { } []] = true := by decide +kernel
theorem test_meets_CsrWrites : s5.thr.priv ≥ csrWriteLvl 0x20D ∧ s5.thr.priv ≥ csrReadLvl 0x20D ∧ s5.thr.priv = 2 ∧ s4u.thr.priv ≠ 2 ∧
    met [goes (.csrw { } ⟨0, 1, 0, 0x20D⟩) s5 0x343 { } [.s 1], goes (.csrw { } ⟨0, 1, 1, 0x004⟩) s5 0x343 { } [],
      goes (.csrx { } ⟨5, 1, 2, 0x20D⟩) s5 0x344 { } [.s 5, .s 1]] = true := by decide +kernel
theorem test_meets_InvalidationsAndPark : s5.thr.priv ≠ 0 ∧ (s5.rs 2).toNat < 4096 ∧ 4096 ≤ (s5.rs 3).toNat ∧ s5.thr.owesRmw = false ∧ s5.thr.owesSo = false ∧
    s5.begun.performedAt s5.cur.t 4 = true ∧ s5.begun.onTheWay 4 s5.cur.t s5.ctx.pid = false ∧ s5.begun.usesDropped 4 s5.cur.t s5.ctx.pid (fun e => e.hit 1 s5.ctx.pid 0 0) = false ∧ s5.thr.retry = none ∧
    met [goes (.tlbi { } ⟨1, 2, 4, 0⟩) s5 0x345 { } [.s 2], s5.ready 0x345 { } [.s 3], goes (.icinv { } ⟨0, 1, 0, 0, 0, 0, 0⟩) s5 0x346 { } [.s 0],
      match s5.begun.translate s5.begun.me .x (s5.ea ⟨0, 1, 0, 0, 0, 0, 0⟩) with | .ok x => x.place == .pa 0x2000 | _ => false,
      s5.ready 0x347 { } [.s 5, .s 0], goes (.park { } ⟨5, 0⟩) (thrWith s5 fun x => { x with wait := .park none, retry := some 1 }) 0x347 { } [.s 5, .s 0]] = true := by
  decide +kernel


/-! ### The memory group -/

/-- A thread of a unit with 2 KiB of scratchpad, whose local window is at a2, and whose scratchpad double 1 is empty; DRAM double 0x810 (at
0x4080) is empty. -/
def s6 : State :=
  let s := ctxWith (setv (sets (seta (poke t0 0x4000 [0xF0, 0xFF, 0x80, 0x11, 0x22, 0x33, 0x44, 0x55]) [(1, 0x4000), (2, 0xFF * 2 ^ 64), (3, 0x4080)])
    [(1, 0x1122334455667788)]) [(1, 0x80), (2, 0xAABBCCDD)]) fun c => { c with scratch := 0x800 }
  { s with tile := { s.tile with empty := [(1, true)] }, empty := [(0x810, true)], thr := { s.thr with kr := [(1, 1)] } }

def checked (s : State) (kind : Kind) (align : Nat) (as : List (Addr × Nat)) : List (Addr × List Piece) :=
  match s.begun.checkAll kind align as with | .ok l => l | _ => []
/-- The accesses pass their checks, and loads of them are made now. -/
def loads (s : State) (align : Nat) (as : List (Addr × Nat)) : Bool :=
  let l := checked s .r align as
  !l.isEmpty && (s.begun.waits l).isNone && s.thr.region.isNone && s.solo &&
    !(s.begun.filled l).loadHeld (allPieces l) 0
/-- The accesses pass their checks, and stores of these bytes to them are made now. -/
def stores (s : State) (align ordq : Nat) (as : List (Addr × List Byte)) : Bool :=
  let l := checked s .w align (as.map fun e => (e.1, e.2.length))
  let u := s.begun
  !l.isEmpty && (u.waits l).isNone && s.thr.region.isNone && s.solo && !s.thr.owesRmw && (allPieces l).all (fun p => !u.onFailedDie p) &&
    !u.storeBlocked (allPieces l) ordq && ((u.noteAll l).sendStores false ordq (allPieces l) (as.flatMap (·.2))).isSome

-- R264: bytes F0 FF at 0x4000; R58: sign and zero extension, displacement −1, little-endian
theorem test_ld : met [brings (.ld { } ⟨5, 1, 0, 0, 9, 0, 0⟩) s6 (.s 5) (2 ^ 64 - 16), brings (.ld { } ⟨5, 1, 0, 0, 1, 0, 0⟩) s6 (.s 5) 0xFFF0,
    brings (.ld { } ⟨5, 1, 0, 0, 2, 0, 1⟩) s6 (.s 5) 0x221180FF, brings (.ld { } ⟨5, 1, 0, 0, 0, 0, 2 ^ 48 - 1⟩) s6 (.s 5) 0] = true := by decide +kernel
/-- Bytes as the thread's tile sees them after the instruction. -/
def sees (i : Instr) (s : State) (a n v : Nat) : Bool := gives i s fun t => ofLE (t.readPlace t.me .tile (.pa a) n) == v
theorem test_st : met [sees (.st { } ⟨1, 1, 0, 0, 1, 0, 2⟩) s6 0x4000 8 0x554433227788FFF0, sees (.st { } ⟨1, 1, 0, 0, 3, 0, 0⟩) s6 0x4000 9 0x1122334455667788,
    gives (.st { } ⟨1, 2, 0, 0, 2, 0, 8⟩) s6 fun t => ofLE (t.sramBytes 0 8 8) == 0x55667788] = true := by decide +kernel
-- R263: a misaligned LDA.Q; an offset at the scratchpad's end
theorem test_access_traps : met [gives (.lda { } ⟨5, 1, 0, 0, 4, 0, 8⟩) s6 (· == (s6.take cMISALIGN 0x4008).tickFresh),
    gives (.ld { } ⟨5, 2, 0, 0, 0, 0, 0x800⟩) s6 (· == (s6.take cPERM 0xFF0000000000000800).tickFresh),
    brings (.ld { } ⟨5, 2, 0, 0, 0, 0, 0x7FF⟩) s6 (.s 5) 0] = true := by decide +kernel
-- R266, R267: LDS of an empty double parks; STF stores and sets it full
theorem test_sync : met [gives (.lds { } ⟨5, 2, 0, 0, 3, 0, 8⟩) s6 fun t => t.thr.wait == .lds (.sram 0 8),
    gives (.stf { } ⟨1, 2, 0, 0, 3, 0, 8⟩) s6 fun t => ofLE (t.sramBytes 0 8 8) == 0x1122334455667788 && SMap.get false t.tile.empty 1 == false,
    brings (.feq { } ⟨5, 2, 0, 0, 5, 0, 0⟩) s6 (.s 5) 0xFFFD, gives (.sete { } ⟨0, 1, 0, 0, 3, 0, 0⟩) s6 fun t => SMap.get false t.empty 0x800] = true := by decide +kernel
theorem test_vld : met [brings (.vld { } ⟨5, 1, 0, 0, 5, 0, 0⟩) s6 (.v 5) 0x554433221180FFF0, brings (.vgath { } ⟨5, 0, 0, 0, 1, 4, 0, 0, 0, 1⟩) s6 (.v 5) 0x1180FFF0,
    sees (.vscat { } ⟨0, 0, 2, 0, 1, 4, 0, 0, 0, 1⟩) s6 0x4000 4 0xAABBCCDD] = true := by decide +kernel

theorem test_meets_LoadsBringValues : gatherLanes (s6.rk 1) ≠ [] ∧ gatherLanes (s6.rk 2) = [] ∧
    met [loads s6 1 [(s6.ea ⟨5, 1, 0, 0, 3, 0, 0⟩, 8)], loads s6 16 [(s6.ea ⟨5, 1, 0, 0, 4, 0, 0⟩, 16)], loads s6 1 [(s6.ea ⟨5, 1, 0, 0, 5, 0, 1⟩, 128)],
      loads s6 1 ((List.range 16).map fun e => (s6.eaStride ⟨5, 1, 0, 0, 3, 0, 0⟩ e, 8)),
      loads s6 1 ((gatherLanes (s6.rk 1)).map fun i => (s6.eaLane ⟨5, 0, 0, 0, 1, 4, 0, 0, 0, 1⟩ i, 4)),
      match s6.begun.checkAll .r 1 [(s6.ea ⟨5, 2, 0, 0, 0, 0, 0x800⟩, 1)] with | .error (.trap _ _) => true | _ => false] = true := by decide +kernel
theorem test_meets_LoadsBringValues_complete : let f : FM := ⟨5, 1, 0, 0, 3, 0, 0⟩
    met [goes (.ld { } f) s6 0x100 { } [.s 5, .s 0], goes (.ldq { } f) s6 0x104 { } [.s 5, .s 0], goes (.lda { } { f with sz := 4 }) s6 0x102 { } [.s 0],
      goes (.vld { } { f with sz := 5 }) s6 0x110 { } [.v 5, .s 0], goes (.vlds { } f) s6 0x112 { } [.v 5, .s 0],
      goes (.vgath { } ⟨5, 0, 0, 0, 1, 4, 0, 0, 0, 1⟩) s6 0x114 { } [.v 5, .v 0], goes (.vgath { } ⟨5, 0, 0, 0, 2, 4, 0, 0, 0, 1⟩) s6 0x114 { } [.v 5, .v 0]] = true := by
  decide +kernel
theorem test_meets_StoresWriteValues : let f : FM := ⟨1, 1, 0, 0, 3, 0, 0⟩
    met [stores s6 1 0 [(s6.ea f, toLE 8 (s6.rs 1).toNat)], stores s6 1 5 [(s6.ea f, toLE 8 (s6.rs 1).toNat)], stores s6 16 0 [(s6.ea f, toLE 16 (s6.ra 1 3).toNat)],
      stores s6 1 0 [(s6.ea f, getBytes (s6.rv 1) 0 128)], stores s6 128 0 [(s6.ea f, List.replicate 128 0)],
      stores s6 1 0 ((List.range 16).map fun e => (s6.eaStride f e, getBytes (s6.rv 1) (8 * e) 8)),
      stores s6 1 0 ((gatherLanes (s6.rk 1)).map fun i => (s6.eaLane ⟨0, 0, 2, 0, 1, 4, 0, 0, 0, 1⟩ i, getBytes (s6.rv 2 3) (4 * i) 4))] = true := by decide +kernel
theorem test_meets_StoresWriteValues_complete : let f : FM := ⟨1, 1, 0, 0, 3, 0, 0⟩
    met [goes (.st { } f) s6 0x101 { } [.s 1, .s 0], goes (.stq { } f) s6 0x105 { } [.s 1, .s 0], goes (.sta { } { f with sz := 4 }) s6 0x103 { } [.s 0],
      goes (.vst { } { f with sz := 5 }) s6 0x111 { } [.v 1, .s 0], goes (.vsts { } f) s6 0x113 { } [.v 1, .s 0], goes (.zero { } { f with d := 0 }) s6 0x122 { } [.s 0],
      goes (.vscat { } ⟨0, 0, 2, 0, 1, 4, 0, 0, 0, 1⟩) s6 0x115 { } [.v 0, .v 2], goes (.vscat { } ⟨0, 0, 2, 0, 2, 4, 0, 0, 0, 1⟩) s6 0x115 { } [.v 0, .v 2]] = true := by
  decide +kernel
theorem test_meets_AccessFrames : let p : List Piece := [{ spot := { place := .pa 0x4000 }, n := 8 }, { spot := { place := .sram 0 16 }, n := 8 }]
    (s6.storePieces false 0 p (toLE 16 7)).isSome = true ∧ p.all (fun q => match q.spot.place with | .dev _ => false | _ => true) = true := by decide +kernel
-- LDS, STF, SETE and FEQ of a scratchpad and of DRAM, taken up, full and empty; FEQ of host memory; PREF; CLEAN and DISC
theorem test_meets_FullEmptyAndHints : let f : FM := ⟨5, 2, 0, 0, 3, 0, 0⟩
    let m : FM := ⟨5, 3, 0, 0, 3, 0, 0⟩
    let u := thrWith s6 fun x => { x with wait := .none, retry := some 7 }
    met [goes (.lds { } f) u 0x108 { } [.s 5, .s 0], u.solo, goes (.lds { } f) s6 0x108 { } [.s 5, .s 0], loads s6 8 [(s6.ea f, 8)], loads s6 8 [(s6.ea m, 8)],
      placeOf (checked s6 .r 8 [(s6.ea m, 8)]) == .pa 0x4080, placeOf (checked s6 .r 8 [(s6.ea f, 8)]) == .sram 0 0, s6.homeReady s6.cur.t (lineOf 0x4080), !s6.homeFailed 0x4080,
      SMap.get false s6.empty (0x4080 / 8), s6.ready 0x108 { } [.s 5, .s 0], SMap.get false (s6.getTile 0).empty 1, s6.thr.retry.isNone] = true := by decide +kernel
theorem test_meets_FullEmptyAndHints_complete : let f : FM := ⟨1, 2, 0, 0, 3, 0, 0⟩
    let m : FM := ⟨1, 3, 0, 0, 3, 0, 0⟩
    let z : FM := { m with d := 0 }
    met [s6.mayPerform 0, goes (.stf { } f) s6 0x109 { } [.s 1, .s 0], goes (.stf { } m) s6 0x109 { } [.s 1, .s 0], goes (.sete { } { f with d := 0 }) s6 0x10A { } [.s 0],
      goes (.sete { } z) s6 0x10A { } [.s 0], !(checked s6 .sete 8 [(s6.ea z, 8)]).isEmpty, goes (.feq { } f) s6 0x10B { } [.s 1, .s 0], goes (.feq { } m) s6 0x10B { } [.s 1, .s 0],
      goes (.pref { } { z with sz := 0 }) s6 0x10C { } [.s 0], goes (.pref { } { z with d := 1, sz := 0 }) s6 0x10C { } [.s 0],
      goes (.pref { } ⟨0, 0, 1, 0, 0, 0, 0⟩) s6 0x10C { } [.s 1], match s6.begun.translate s6.begun.me .r (s6.ea ⟨0, 0, 1, 0, 0, 0, 0⟩) with | .error _ => true | _ => false,
      goes (.clean { } { z with sz := 0 }) s6 0x120 { } [.s 0], goes (.disc { } { z with sz := 0 }) s6 0x121 { } [.s 0], goes (.clean { } { f with d := 0, sz := 0 }) s6 0x120 { } [.s 0]] = true := by
  decide +kernel
/-- A page of host memory: the third leaf maps from 0x8000_0000. -/
def s6h : State := seta (poke s6 0x1010 (toLE 8 (0x3D + 2 ^ 51))) [(4, 0x80000000)]
theorem test_meets_FullEmptyAndHints_host : placeOf (checked s6h .r 8 [(s6h.ea ⟨5, 4, 0, 0, 3, 0, 0⟩, 8)]) = .pa (2 ^ 51) ∧ isHost (2 ^ 51) = true ∧
    brings (.feq { } ⟨5, 4, 0, 0, 3, 0, 0⟩) s6h (.s 5) 1 = true := by decide +kernel


/-! ### Atomics, messages, monitors and fences -/

/-- The atomic passes its checks and is made now. -/
def atomicNow (s : State) (ea : Addr) (n ordq : Nat) : Bool :=
  let l := checked s .rw n [(ea, n)]
  !l.isEmpty && (s.begun.waits l).isNone && s.thr.region.isNone && s.solo && s.begun.mayPerform ordq && !s.begun.sealedIn (allPieces l)

-- R273: of a scratchpad the old value comes at once; R274: fetch-and-add, signed minimum of 4 bytes; a CAS that fails writes nothing
theorem test_atomics : let s := { s6 with tile := { s6.tile with sram := [(0, 5), (3, 0x80)] } }
    met [brings (.amo { } ⟨5, 2, 1, 0, 0, 3, 1, 0⟩) s (.s 5) 0x80000005, gives (.amo { } ⟨5, 2, 1, 0, 0, 3, 1, 0⟩) s fun t => ofLE (t.sramBytes 0 0 8) == 0x11223344D566778D,
      gives (.amo { } ⟨5, 2, 1, 0, 0, 2, 5, 0⟩) s fun t => ofLE (t.sramBytes 0 0 8) == 0x80000005,
      gives (.cas { } ⟨5, 2, 1, 1, 0, 3, 0, 0⟩) s fun t => ofLE (t.sramBytes 0 0 8) == 0x80000005] = true := by decide +kernel
-- R280: the tag and the destination of an APPEND to the own tile
theorem test_append : gives (.append { } ⟨5, 1, 3, 1, 0, 0⟩) (sets s6 [(3, 9 * 2 ^ 32)]) (fun t =>
    t.msgs == [.append ⟨0, 0, 0⟩ 0 0 0 0 0 9 [0x1122334455667788]]) = true := by decide +kernel

/-- The queue of DRAM line 0x80 (0x4000) with an AMO ADD 1 of 8 bytes, not granted, granted, and an SC. -/
def req : ResvReq := { who := ⟨0, 0, 0⟩, pend := 7, op := 0, fn := 1, size := 8, a := 0x4000, x := 1, pid := 0, launch := 0 }
def s7 : State := thrWith s6 fun x => { x with pend := [{ id := 7, pc := 0x2000, what := .atomic false, dests := [{ r := .s 9, v := 0 }] }] }

-- R273: at the home the grant reads the old value, and the release stores the sum and answers with the old value
theorem test_grant_release : met [gives (.reservationGrant 0x80) { s7 with resvq := [(0x80, [req])] } fun t =>
      (SMap.get [] t.resvq 0x80).map (fun q => (q.granted, q.old, q.new)) == [(true, 0x554433221180FFF0, some 0x554433221180FFF1)],
    gives (.reservationRelease 0x80) { s7 with resvq := [(0x80, [{ req with granted := true, old := 3, new := some 4 }])] } fun t =>
      ofLE (t.homeBytes 0x4000 8) == 4 && t.resvq == [] && t.thr.pend.map (fun p => (p.what, p.dests.map (·.v))) == [(.ready, [3])]] = true := by decide +kernel

/-- SC: a reservation of the scratchpad line, and one of the DRAM line with its place in the queue. -/
def s7r : State := thrWith s6 fun x => { x with resv := some { line := 0, size := 8, since := 0, scratch := some 0 } }
def s7q : State := { thrWith s6 fun x => { x with resv := some { line := 0x80, size := 8, since := 0 } } with resvq := [(0x80, [{ req with op := 3, granted := true }])] }

theorem test_meets_AtomicsAndReservations_issue : let f : FAtom := ⟨5, 1, 1, 0, 0, 3, 0, 0⟩
    let g : FAtom := { f with base := 2 }
    met [atomicNow s6 (s6.eaAtom f) 8 0, placeOf (checked s6 .rw 8 [(s6.eaAtom f, 8)]) == .pa 0x4000, !s6.homeFailed 0x4000, s6.drained 0 0x80, s6.buffersUsed 0 < 16,
      goes (.amo { } f) s6 0x182 { } [.s 5, .s 1], goes (.cas { } f) s6 0x183 { } [.s 5, .s 1, .s 0], goes (.red { } { f with d := 0, fn := 1 }) s6 0x184 { } [.s 1],
      goes (.lr { } ⟨5, 1, 0, 0, 3, 0, 0⟩) s6 0x180 { } [.s 5, .s 0], s6.thr.resv.isNone, atomicNow s6 (s6.eaAtom g) 8 0,
      placeOf (checked s6 .rw 8 [(s6.eaAtom g, 8)]) == .sram 0 0, !s6.begun.poisoned (allPieces (checked s6 .rw 8 [(s6.eaAtom g, 8)])),
      (atomicNew 0 0 8 0 5 1 0).isSome, (atomicNew 1 0 8 0 5 5 9).isSome, (atomicNew 1 0 8 0 5 4 9).isNone,
      goes (.lr { } ⟨5, 2, 0, 0, 3, 0, 0⟩) s6 0x180 { } [.s 5, .s 0], !s6.lrPending s6.cur] = true := by decide +kernel
theorem test_meets_AtomicsAndReservations_sc : let f : FAtom := ⟨5, 1, 1, 0, 0, 3, 0, 0⟩
    let g : FAtom := { f with base := 2 }
    met [atomicNow s6 (s6.eaAtom f) 8 0, !s6.thr.reserves 0 (.pa 0x4000) 8, brings (.sc { } f) s6 (.s 5) 1, atomicNow s7q (s7q.eaAtom f) 8 0, s7q.thr.reserves 0 (.pa 0x4000) 8,
      s7q.drained 0 0x80, goes (.sc { } f) s7q 0x181 { } [.s 5, .s 1], atomicNow s7r (s7r.eaAtom g) 8 0, s7r.thr.reserves 0 (.sram 0 0) 8,
      brings (.sc { } g) s7r (.s 5) 0, !s7q.lrPending s7q.cur] = true := by decide +kernel
theorem test_meets_AtomicsAndReservations_home : let u : State := { s7 with resvq := [(0x80, [req])] }
    let v : State := { s7 with resvq := [(0x80, [{ req with granted := true, old := 3, new := some 4 }])] }
    SMap.get [] u.resvq 0x80 = [req] ∧ req.granted = false ∧ req.at_ ≤ u.plumb ∧ u.leased 0x80 = false ∧ u.sealedLine 0x80 = false ∧ u.ownable (u.queueAgent 0x80) 0x80 = true ∧ SMap.find u.hostWait 0x80 = none ∧ req.op ≠ 3 ∧
    anyPoison (u.inM (u.queueAgent 0x80) 0x80 0).poison 0x4000 8 = false ∧ v.leased 0x80 = false ∧ v.ownable (v.queueAgent 0x80) 0x80 = true ∧ s7q.plumb < 1024 ∧
    gives (.lrTimeout 0 0 0) { s7q with plumb := 1024 } (fun t => t.thr.resv == none) = true := by decide +kernel

/-- An inbox of two entries at 0x100 of the scratchpad that holds one. -/
def s7i : State := ctxWith s6 fun c => { c with inbox := { en := true, base := 0x100, nent := 2, head := 0, tail := 1 } }
theorem test_meets_MessagesMonitorsAndFences_inbox : let t : Word := 0
    s6.solo = true ∧ s6.thr.region = none ∧ bits t.toNat 12 20 = 0 ∧ s6.ownerOf (t.toNat % 4096) = s6.ctx.pid ∧ s6.thr.owesFence = false ∧ s6.thr.owesRmw = false ∧
    s6.performedAt s6.cur.t (msgScope s6.cur.t 0) = true ∧ ({ s6 with cfg := { s6.cfg with town := [(1, 3)] } } : State).ownerOf 1 ≠ s6.ctx.pid ∧
    (0 : Nat) + 128 * 0 ≤ s6.ctx.scratch ∧ s6.ctx.inbox.count = 0 ∧ s7i.ctx.inbox.count ≠ 0 ∧ s7i.ctx.inbox.nent ≠ 0 ∧ s6.thr.pend = [] ∧
    met [goes (.append { } ⟨5, 1, 3, 8, 0, 0⟩) s6 0x185 { } [.s 5, .s 3], goes (.appendCfg { } ⟨5, 6, 0, 0, 1, 6⟩) (sets s6 [(6, 15)]) 0x185 { } [.s 5, .s 6],
      goes (.appendPop { } ⟨5, 0, 0, 0, 2, 0⟩) s6 0x185 { } [.s 5], goes (.appendPop { } ⟨5, 0, 0, 0, 2, 0⟩) s7i 0x185 { } [.s 5],
      goes (.appendStat { } ⟨5, 0, 0, 0, 3, 0⟩) s7i 0x185 { } [.s 5]] = true := by decide +kernel
theorem test_meets_MessagesMonitorsAndFences_monitors_fences : let m : FM := ⟨1, 1, 0, 0, 3, 0, 0⟩
    let m9 : FM := { m with d := 9 }
    let l := checked s6 .r 8 [(s6.ea m, 8)]
    let eq := sets s6 [(9, 0x554433221180FFF0)]
    let z := s6.begun.shareIn 0 0x80 0
    let zq := eq.begun.shareIn 0 0x80 0
    met [loads s6 8 [(s6.ea m, 8)], placeOf l == .pa 0x4000, z.sent 0 (placeOf l), !z.sealedIn (allPieces l), z.lineHere (placeOf l), !z.poisoned (allPieces l),
      z.wrsRead s6.me (placeOf l) != z.rs 1 3, s6.thr.retry.isNone, !z.ordHeld 0,
      goes (.wrs { } m) s6 0x186 { } [.s 1, .s 0], zq.wrsRead eq.me (placeOf l) == zq.rs 9 3, zq.monitors 0 (placeOf l) < 64,
      gives (.wrs { } m9) eq fun t => t.thr.wait == .wrs (.pa 0x4000) 0 true,
      goes (.wrs { } m) (thrWith s6 fun x => { x with retry := some 7 }) 0x186 { } [.s 1, .s 0], goes (.fence { } ⟨0, 5, 0⟩) s6 0x188 { } [], goes (.fence { } ⟨0, 1, 1⟩) s6 0x188 { } [],
      goes (.fence { } ⟨0, 5, 2⟩) s6 0x188 { } [], goes (.fence { } ⟨0, 0, 2⟩) s6 0x188 { } [], s6.performedAt 0 5,
      !(match exec (.st { } m) s6 with | .next t => t.performedAt 0 5 | _ => true),
      match exec (.st { } m) s6 with | .next t => goes (.fence { } ⟨0, 5, 2⟩) t 0x188 { } [] | _ => false,
      goes (.fencee { } ⟨5, 5, 0⟩) (thrWith s6 fun x => { x with wait := .fencee 0 0 }) 0x189 { } [.s 5]] = true := by decide +kernel


/-! ### Regions -/

/-- A thread in a line of targets, in a region that it can commit, seal and abort. -/
def reg : Region := { elastic := false, check := { sr := [], ar := [], vr := [], kr := [], pr := [], tsr := 0x6100, loops := {} }, target := 0x2030 }
def s8 (r : Region) : State := thrWith s3 fun x => { x with region := some r, rlo := 5, rhi := 9, sr := [(1, 77)] }

-- R287, R288: RBEGIN.E with the abort target at slot 4: bounds 1 to PMAX, RSTAT active and elastic
theorem test_rbegin : gives (.rbegin { } ⟨0, 0, 0, 1, 0, 4⟩) s3 (fun t => t.thr.rlo == 1 && t.thr.rhi == 0x7FFFFFFFFFFFFFFF && t.thr.rstat == 0x30 &&
    t.thr.region.any fun r => r.target == 0x2030 && r.elastic) = true := by decide +kernel
-- R298, R300: RABORT #9 restores the registers, goes to the target, and reports cause 6 and the code
theorem test_rabort : gives (.rabort { } ⟨0, 0, 0, 0, 0, 9⟩) (s8 reg) (fun t => t.thr.pc == 0x2030 && t.thr.sr == [] && bits t.thr.rstat.toNat 0 16 == 0x906) = true := by
  decide +kernel
theorem test_rcommit : gives (.rcommit { } ⟨0, 0, 0, 0, 0, 0⟩) (s8 reg) (fun t => t.thr.region == none && t.thr.pc == 0x200C) = true := by decide +kernel

theorem test_meets_RegionInstructions :
    let tok := fun (k : Option Key) => s3.modDie 0 fun y => { y with token := k }
    let many := thrWith s3 fun x => { x with rcnt := 8 }
    let sealed' := { reg with reads := [0x80], sealing := some [0x80], told := [0x80] }
    met [s3.solo, (s3.target 0x2030).isNone, s3.fenced, (s3.getDie 0).token.isNone, bits s3.thr.rcnt.toNat 0 8 < s3.ctx.rlimit,
      goes (.rbegin { } ⟨0, 0, 0, 0, 0, 4⟩) s3 0x190 { } [], ((tok (some ⟨0, 0, 0⟩)).getDie 0).token == some s3.cur, goes (.rbegin { } ⟨0, 0, 0, 0, 0, 4⟩) (tok (some ⟨0, 0, 0⟩)) 0x190 { } [],
      many.ctx.rlimit ≤ bits many.thr.rcnt.toNat 0 8, many.ready 0x190 { } [], (s8 reg).quiet, (s8 reg).thr.rlo.toNat ≤ (s8 reg).thr.rhi.toNat,
      goes (.rcommit { } ⟨0, 0, 0, 0, 0, 0⟩) (s8 reg) 0x191 { } [], goes (.rcommit { } ⟨0, 0, 0, 0, 0, 0⟩) (s8 sealed') 0x191 { } [],
      goes (.rcommit { } ⟨0, 0, 0, 0, 0, 0⟩) (s8 { reg with irr := true }) 0x191 { } [], (s8 { reg with irr := true }).dieDrained 0, s3.ready 0x191 { } [],
      goes (.rabort { } ⟨0, 0, 0, 0, 0, 9⟩) s3 0x192 { } [], (s8 reg).ready 0x192 { } [], goes (.rstat { } ⟨5, 0, 7, 0, 0, 0⟩) (s8 reg) 0x193 { } [.s 5],
      goes (.rposB { } ⟨5, 6, 0, 0, 0, 0⟩) (s8 reg) 0x194 { } [.s 5, .s 6], goes (.rposL { } ⟨5, 6, 0, 1, 1, 0⟩) s3 0x194 { } [.s 5, .s 6],
      placeOf (checked s3 .r 1 [(s3.ra 1 2, 1)]) == .pa 0x3000] = true := by decide +kernel


/-! ### The matrix unit -/

/-- An MU thread: A at 0x4000 with rows 64 bytes apart, 2^24 in s3 and 2^24 + 1 in s4. -/
def s9 : State := seta (sets (inRole t0 2) [(1, 64), (2, 2 ^ 64 - 64), (3, 2 ^ 24), (4, 2 ^ 24 + 1)]) [(1, 0x4000), (2, 0x4001)]
/-- The same with a command at the head of its queue. -/
def s9q (c : MuCmd) : State := ctxWith s9 fun x => { x with mu := { x.mu with q := [c] }, acc := [(5, 9), (40, 8)] }
def s9stop : State := ctxWith s9 fun x => { x with mu := { x.mu with stop := true, gdone := 3 } }

-- R180: a misaligned base traps MISALIGN with the base
theorem test_mma_misaligned : gives (.mma { } ⟨0, 2, 1, 1, 1, 3, 6, 6, 0, 0⟩) s9 (fun t => t == (s9.take cMISALIGN 0x4001).tickFresh) = true := by decide +kernel
-- R186: MWRV writes the 32 elements of its row; MZERO zeroes its accumulator
theorem test_mwrv : gives (.muCommandRun 0 0) (s9q { op := 0x285, acc := 0, row := 1, data := 0x0000000700000006 }) (fun t =>
    (SMap.get 0 t.ctx.acc 5, SMap.get 0 t.ctx.acc 32, SMap.get 0 t.ctx.acc 33, SMap.get 0 t.ctx.acc 40) == (9, 6, 7, 0)) = true := by decide +kernel
theorem test_mzero : gives (.muCommandRun 0 0) (s9q { op := 0x283, acc := 0 }) (fun t => t.ctx.acc == [] && t.ctx.mu.q == []) = true := by decide +kernel

theorem test_meets_MatrixCommands : let f : FE := ⟨0, 1, 1, 1, 2, 3, 6, 7, 0, 0⟩
    let q : List Reg := [.s 1, .s 2, .s 3]
    (s9.rs 3).toNat ≤ 2 ^ 24 ∧ 2 ^ 24 < (s9.rs 4).toNat ∧ (s9.ra 1).toNat % muAlign 6 = 0 ∧ (s9.rs 1).toInt % (muAlign 6 : Int) = 0 ∧
    (s9.ra 1 2).toNat % muAlign 7 = 0 ∧ (s9.rs 2 3).toInt % (muAlign 7 : Int) = 0 ∧ (s9.ra 0 5).toNat % 64 = 0 ∧
    met [s9.solo, s9.muStop.isNone, s9.ctx.mu.q.length < 2, goes (.mma { } f) s9 0x280 { } q, goes (.mmat { } { f with fb := 0, bbase := 1, ext := 1 }) s9 0x281 { } q,
      goes (.mmas { } { f with ext := 1 }) s9 0x282 { } q, goes (.mzero { } ⟨3, 0, 0, 0, 0, 0, 0, 0, 0, 0⟩) s9 0x283 { } [], goes (.mst { } ⟨0, 1, 1, 0, 0, 0, 6, 0, 15, 0⟩) s9 0x286 { } [.s 1],
      goes (.mlda { } ⟨0, 1, 1, 0, 0, 0, 7, 0, 0, 0⟩) s9 0x287 { } [.s 1], goes (.mrdv { } ⟨0, 1, 0, 31, 0⟩) s9 0x284 { } [.v 1], goes (.mwrv { } ⟨0, 1, 0, 0, 1⟩) s9 0x285 { } [.v 1],
      s9.ready 0x280 { } [.s 1, .s 2, .s 4], goes (.msync { } ⟨0, 0, 0, 0, 0⟩) s9 0x289 { } [], goes (.mstat { } ⟨5, 0, 0, 0, 1⟩) s9 0x28A { } [.s 5],
      s9stop.muStop.isNone, goes (.mprogGo { } ⟨0, 0, 0, 0, 0⟩) s9stop 0x288 { } [], goes (.mprogDrop { } ⟨0, 0, 0, 0, 1⟩) s9stop 0x288 { } []] = true := by decide +kernel
theorem test_meets_MatrixCommands_run : let s := s9q { op := 0x285, acc := 0, row := 1, data := 7 }
    s.ctx.live = true ∧ s.ctx.mu.stop = false ∧ s.ctx.mu.done = 0 ∧ s.ctx.mu.burst = [] ∧ s.engAfter ⟨s.cur.t, s.cur.c, 0⟩ 0 = true ∧ (40 : Nat) / 32 = 1 ∧ (5 : Nat) / 32 ≠ 1 := by decide +kernel


/-! ### The copy unit and collectives -/

/-- A CU thread of a unit with 2 KiB of scratchpad: group 1 is defined, group 2 has a collective outstanding; the member list at 0x5000 names
tiles 0 and 1 of the own part; the sync object at 0x10 has target 200 and count 3 in generation 4. -/
def grp : Group := { key := 9, members := [(0, 0)], rank := 0 }
def s10 : State :=
  let s := ctxWith (sets (seta (inRole (poke t0 0x5008 [1]) 4) [(1, 0x4000), (2, 0x5000), (3, 0x10), (4, 0x6000)]) [(1, 100), (2, 2), (3, 4), (4, 5)])
    fun c => { c with scratch := 0x800, groups := [(1, { grp with status := 6 }), (2, { grp with left := 1 })] }
  { s with tile := { s.tile with sram := [(0x10, 200), (0x18, 3), (0x1D, 4)] } }
def f10 : FCu := ⟨1, 4, 1, 0, 3, 0, 0, 0, 0, 0, 0, 0, 0, 0⟩

-- R200: the queue holds the copy with its operands; R206: STAT of an idle unit
theorem test_cpy : gives (.cpy { } f10) s10 (fun t => t.ctx.cu.q.map (fun x => (x.op, x.dst, x.src, x.n, x.sync)) == [(0x290, 0x4000, 0x6000, 100, 0x10)]) = true := by
  decide +kernel
-- R207: SYNCW of generation 5 where the object is in generation 4 gives its second double
theorem test_syncw : brings (.syncw { } ⟨0, 0, 5, 4, 3, 0, 0, 0, 0, 0, 0, 0, 0, 0⟩) s10 (.s 5) (4 * 2 ^ 40 + 3) = true := by decide +kernel
-- R213: CWAIT gives the status once
theorem test_cwait : met [brings (.cwait { } ⟨5, 0, 0, 0, 1, 0, 0, 0⟩) s10 (.s 5) 6, gives (.cwait { } ⟨5, 0, 0, 0, 1, 0, 0, 0⟩) s10 fun t =>
    (t.ctx.group 1).map (·.status) == some 0] = true := by decide +kernel
-- R210: CGRP finds the own rank in the list
theorem test_cgrp : gives (.cgrp { } ⟨0, 0, 2, 2, 3, 1, 0, 0⟩) s10 (fun t => (t.ctx.group 3).map (fun g => (g.key, g.members, g.rank)) ==
    some (100, [(0, 0), (1, 0)], 0)) = true := by decide +kernel

theorem test_meets_CopyAndCollectiveInstructions : let c : FColl := ⟨0, 1, 4, 1, 1, 0, 0, 0⟩
    met [s10.solo, !s10.ctx.cu.pend, s10.ctx.cu.q.length < 2, (s10.begun.copyChecks (copyCmd s10 0x290 f10) (s10.rs 0 3)).isNone, goes (.cpy { } f10) s10 0x290 { } [.s 1, .s 0],
      (s10.begun.copyChecks (copyCmd s10 0x291 { f10 with td := 6, ts := 7 }) (s10.rs 0 3)).isNone, goes (.cpyc { } { f10 with td := 6, ts := 7 }) s10 0x291 { } [.s 1, .s 0, .s 0],
      (s10.begun.copyChecks (copyCmd s10 0x292 { f10 with ar := 2, td := 7 }) (s10.rs 0 3)).isNone, goes (.cpyg { } { f10 with ar := 2, td := 7 }) s10 0x292 { } [.s 1, .s 0],
      (s10.ctx.group 1).isSome, goes (.cring { } c) s10 0x2A1 { } [.s 1], goes (.credu { } { c with ty := 7 }) s10 0x2A2 { } [.s 1], goes (.cgath { } c) s10 0x2A3 { } [.s 1],
      goes (.cbar { } { c with ad := 0, asrc := 0, n := 0 }) s10 0x2A4 { } [], (s10.ctx.group 15).isNone, s10.ready 0x2A1 { } [.s 1]] = true := by decide +kernel
theorem test_meets_CopyAndCollectiveInstructions_wait : let z : FCu := ⟨0, 0, 0, 0, 0, 0, 0, 0, 0, 0, 0, 0, 0, 0⟩
    let y : FCu := { z with t := 1, ay := 3 }
    met [s10.ctx.cu.outstanding < 64, s10.begun.closeBatch.ctx.cu.outstanding ≤ 0, s10.thr.retry.isNone, goes (.cbatch { } z) s10 0x293 { } [], goes (.cwaitb { } z) s10 0x294 { } [],
      s10.ctx.fmx == [], goes (.csyncWait { } z) s10 0x297 { } [], goes (.csyncStat { } { z with n := 5 }) s10 0x297 { } [.s 5], goes (.csyncGo { } { z with fn := 2 }) s10 0x297 { } [],
      goes (.csyncDrop { } { z with fn := 3 }) (ctxWith s10 fun x => { x with cu := { x.cu with stop := true } }) 0x297 { } [], (s10.ctx.objectBad (s10.ra 3 4)).isNone,
      !bit (s10.syncD 0 0x10 0) 61, syncGen (s10.syncD 0 0x10 1) != (s10.rs 4 3).toNat % 2 ^ 24, goes (.syncw { } { y with n := 5, t := 4 }) s10 0x295 { } [.s 5, .s 4],
      (s10.rs 1 3).toNat < 2 ^ 40, goes (.syncwt { } y) s10 0x296 { } [.s 1], goes (.syncwtInit { } { y with fn := 1 }) s10 0x296 { } [.s 1],
      goes (.cwait { } ⟨5, 0, 0, 0, 15, 0, 0, 0⟩) s10 0x2A5 { } [.s 5], goes (.cwait { } ⟨5, 0, 0, 0, 1, 0, 0, 0⟩) s10 0x2A5 { } [.s 5],
      (s10.ctx.group 2).any (fun g => g.left != 0), s10.ready 0x2A5 { } [.s 5], s10.ready 0x2A0 { } [.s 2, .s 1]] = true := by decide +kernel
theorem test_meets_CopyAndCollectiveInstructions_cgrp : (s10.ctx.group 3).all (fun g => g.left == 0) = true ∧ 1 ≤ (s10.rs 2 2).toNat ∧ (s10.ra 2 1).toNat % 8 = 0 ∧
    (match readMembers s10.begun (s10.ra 2 1) 2 0 [] with
      | .ok (t, l) => t.solo && l.findIdx? (· == (s10.ctx.vtile, s10.ownFab)) == some 0 && l.all fun m => m.2 != s10.ownFab || s10.ownerOf m.1 == s10.ctx.pid
      | _ => false) = true := by decide +kernel


/-! ### Lineage -/

/-- Partition 0 with a pool of 64 MiB: node 1 is a root of 128 bytes with children 2, which holds a block, and 3, which is hidden; node 2 has
the child 5, which is busy; node 1 is bound at 0x8000_0000, the first of a page of 1 GiB with the LIN attribute. -/
def part11 : Partn := {
  lpool := 3, given := 1, binds := [{ space := 0x1002, base := 0x80000000, node := 1, rw := true }]
  nodes := [(1, { blocks := 2, parent := 0, kids := 2 }), (2, { blocks := 2, parent := 1, kids := 1, kinds := [(1, 3)], pays := [(1, 5)] }),
    (3, { blocks := 2, parent := 1, hidden := true }), (4, { blocks := 1, parent := 0 }), (5, { blocks := 2, parent := 2, busy := some { target := 1 } }),
    (6, { blocks := 2, parent := 2 })] }
def s11 : State :=
  let s := ctxWith (seta (sets (poke t0 0x1010 (toLE 8 0x23D)) [(1, 1), (2, 2), (3, 3), (4, 4), (5, 5), (6, 6), (7, 63)]) [(1, 0x80000000), (2, 0x80010000)])
    fun c => { c with scratch := 0x800 }
  { s with parts := [(0, part11)] }

-- R142: a size of 63 bytes fails with SIZE; R160: the parent, the depth and the children of a node
theorem test_lnew : gives (.lnew { } ⟨9, 7, 0, 0, 0, 1, 0⟩) s11 (fun t => t.thr.lstat == 0x30003 && t.thr.pend.any fun p => p.dests.any fun d => d.r == .p 1 && d.v == 0) = true := by
  decide +kernel
theorem test_lnq : met [brings (.lnq { } ⟨9, 6, 0, 0, 0, 0, 0⟩) s11 (.s 9) 2, brings (.lnq { } ⟨9, 6, 0, 0, 0, 0, 1⟩) s11 (.s 9) 2, brings (.lnq { } ⟨9, 1, 0, 0, 0, 0, 2⟩) s11 (.s 9) 128,
    brings (.lnq { } ⟨9, 1, 0, 0, 0, 0, 4⟩) s11 (.s 9) 2, brings (.lnq { } ⟨9, 2, 1, 0, 0, 0, 6⟩) s11 (.s 9) 3] = true := by decide +kernel
-- R160: the first block in which node 2 differs from its parent
theorem test_ldiff : brings (.ldiff { } ⟨9, 2, 1, 0, 0, 1, 0⟩) s11 (.s 9) 1 = true := by decide +kernel
-- DROP of a leaf removes it and its parent loses a child
theorem test_drop : gives (.drop { } ⟨0, 6, 0, 0, 0, 1, 0⟩) s11 (fun t => ((t.getPart 0).node 6).isNone && ((t.getPart 0).node 2).any (·.kids == 0)) = true := by decide +kernel

/-- Whatever identifier the part gives out, a root, and a child of node 1, fit the pool. -/
def one11 : Partn := { lpool := 3, given := 1, nodes := [(1, { blocks := 2, parent := 0 })] }
theorem test_meets_new_nodes (seed : Nat) (x : Node) (h : x.bytes = 128) (k : Nat) : (one11.setNode 1 { blocks := 2, parent := 0, kids := k }).addNode seed x ≠ none := by
  have h1 : ({ blocks := 2, parent := 0, kids := k } : Node).bytes = 128 := by simp [Node.bytes, kindsBytes]
  have h2 : ∀ n g f, (({ (one11.setNode 1 { blocks := 2, parent := 0, kids := k }).setNode n x with given := g, freed := f } : Partn).poolUsed ≤
      0x4000000) := by
    intro n g f
    show List.foldl (fun n e => n + e.2.bytes) 0 (SMap.put [(1, ({ blocks := 2, parent := 0, kids := k } : Node))] n x) ≤ 0x4000000
    unfold SMap.put
    split_ifs
    · simp [h, h1]
    · simp [h]
    · simp [SMap.put, h, h1]
  have h3 : ∀ n g f, ({ (one11.setNode 1 { blocks := 2, parent := 0, kids := k }).setNode n x with given := g, freed := f } : Partn).poolSize =
      0x4000000 := by
    intro n g f
    simp [Partn.poolSize, Partn.setNode, one11, bits]
  have h4 : ∀ n, (one11.setNode 1 { blocks := 2, parent := 0, kids := k }).idTaken n = decide (n = 1) := by
    intro n
    by_cases hn : n = 1 <;> simp [Partn.idTaken, Partn.setNode, one11, SMap.put, SMap.find, hn]
  have h5 : ∀ n, ((one11.setNode 1 { blocks := 2, parent := 0, kids := k }).findId 2 n).isSome = true := by
    intro n
    by_cases hn : n = 1 <;> simp [Partn.findId, h4, hn]
  have h6 : Nat.min ((one11.setNode 1 { blocks := 2, parent := 0, kids := k }).nodes.length +
      (one11.setNode 1 { blocks := 2, parent := 0, kids := k }).freed.length + 1) (2 ^ 32 - 1) = 2 := by
    simp [Partn.setNode, one11, SMap.put]
  obtain ⟨n, hn⟩ := Option.isSome_iff_exists.1 (h5 (seed % (2 ^ 32 - 1) + 1))
  simp only [Partn.addNode, h6, hn]
  rw [if_pos (c := (_ : Nat) ≤ _) (Nat.le_trans (h2 _ _ _) (Nat.le_of_eq (h3 _ _ _).symm))]
  simp
theorem test_meets_new_nodes_bytes : ({ blocks := 1, parent := 0 } : Node).bytes = 128 ∧ ({ blocks := 2, parent := 1 } : Node).bytes = 128 := by decide

theorem test_meets_LineageInstructions : let p := s11.getPart 0
    let n := fun (j : Nat) => p.node j
    met [s11.solo, (n 63).isNone, s11.ready 0x303 { } [.s 9, .s 7], (n 3).any (·.hidden), 64 % 64 == 0, 2 ^ 36 ≤ 2 ^ 36, 63 % 64 != 0, (n 5).any (·.busy.isSome),
      goes (.lnew { } ⟨9, 7, 0, 0, 0, 1, 0⟩) s11 0x300 { } [.s 9, .s 7], 0x80010000 % 0x10000 == 0, (n 4).any (fun x => !x.hidden && windowSize x == 0x10000), s11.begun.linPage 0x80010000,
      goes (.lmap { } ⟨0, 4, 0, 0, 2, 1, 0⟩) s11 0x301 { } [.s 4], p.binds.any (fun b => b.space == 0x1002 && b.base == 0x80000000), goes (.lunmap { } ⟨0, 0, 0, 0, 1, 1, 0⟩) s11 0x302 { } [],
      goes (.lunmap { } ⟨0, 0, 0, 0, 2, 1, 0⟩) s11 0x302 { } [], goes (.fork { } ⟨9, 5, 0, 0, 0, 1, 0⟩) s11 0x303 { } [.s 9, .s 5], p.depth chainMax 2 < 15] = true := by decide +kernel
theorem test_meets_LineageInstructions_engines : let p := s11.getPart 0
    met [match s11.begun.linSync ⟨0, 1, 0, 0, 0, 1, 0⟩ with | .ok _ => true | _ => false, match s11.begun.linSync ⟨0, 1, 0, 0, 0, 1, 1⟩ with | .ok o => o.isNone | _ => false,
      goes (.flatten { } ⟨0, 1, 0, 0, 0, 1, 1⟩) s11 0x305 { } [.s 1], goes (.flatten { } ⟨0, 6, 0, 0, 0, 1, 1⟩) s11 0x305 { } [.s 6], p.above 1 6, p.above 2 6,
      goes (.rebase { } ⟨0, 6, 2, 0, 0, 1, 1⟩) s11 0x304 { } [.s 6, .s 2], goes (.rebase { } ⟨0, 6, 1, 0, 0, 1, 1⟩) s11 0x304 { } [.s 6, .s 1], goes (.drop { } ⟨0, 2, 0, 0, 0, 1, 0⟩) s11 0x306 { } [.s 2],
      goes (.drop { } ⟨0, 6, 0, 0, 0, 1, 0⟩) s11 0x306 { } [.s 6], goes (.drop { } ⟨0, 5, 0, 0, 0, 1, 0⟩) s11 0x306 { } [.s 5], (p.path 0 chainMax 2).isSome,
      goes (.ldiff { } ⟨9, 2, 0, 0, 0, 1, 0⟩) s11 0x308 { } [.s 9, .s 2, .s 0, .s 0], goes (.ldiff { } ⟨9, 4, 0, 0, 0, 1, 0⟩) s11 0x308 { } [.s 9, .s 4, .s 0, .s 0],
      goes (.lnq { } ⟨9, 1, 0, 0, 0, 0, 3⟩) s11 0x307 { } [.s 9, .s 1, .s 0], goes (.lnq { } ⟨9, 1, 0, 0, 0, 0, 5⟩) s11 0x307 { } [.s 9, .s 1, .s 0],
      goes (.lnq { } ⟨9, 1, 0, 0, 0, 0, 7⟩) s11 0x307 { } [.s 9, .s 1, .s 0], goes (.lnq { } ⟨9, 7, 0, 0, 0, 0, 0⟩) s11 0x307 { } [.s 9, .s 7, .s 0]] = true := by decide +kernel
/-- A chain of sixteen nodes: the last is as deep as a node may be. -/
def chain11 : Partn := { nodes := (List.range 16).map fun j => (j + 1, ({ blocks := 1, parent := j, kids := if j = 15 then 0 else 1 } : Node)) }
theorem test_meets_LineageInstructions_depth : chain11.depth chainMax 16 = 15 ∧ chain11.depth chainMax 15 < 15 := by decide +kernel


/-! ### Tasks, queues and semaphores -/

/-- Launch 7 of partition 0 on tile 0, with TCBs at 0x8000: one WAITING for two, one that may start, one READY, one with a bad priority. The
thread runs a unit of the launch. -/
def launch12 : Launch := {
  queue := 0, order := 0, slot := 0, graph := 3, job := 4, phase := 5, codebase := 0x2000, tcbbase := 0x8000, tcblen := 4, tset := 1, frec := 0x9000,
  ptbr := 0x1002, sup := false, qtvec := 0, hslog := 0, qhstk := 0, count := 4, tasks := [0x8000, 0x8080] }
def s12 : State :=
  let s := ctxWith (seta (sets (poke (poke (poke (poke s3 0x8006 [1]) 0x8028 [2]) 0x8086 [2]) 0x80C4 [8]) [(1, 2), (2, 7), (3, 0), (4, 9)])
    [(1, 0x8000), (2, 0x8040), (3, 0x8080), (4, 0x80C0), (5, 0x8100), (6, 0x8001)]) fun c => { c with launch := 7, tcb := 0x8040 }
  { s with parts := [(0, { launches := [(7, launch12)] })] }
/-- The place of a TCB, and its bytes. -/
def tcb12 (a : Addr) : List Byte := s12.homePlace 0 (.pa a.toNat) 64
/-- The TCB passes its checks, and the home of its line can act. -/
def tcbNow (a : Addr) : Bool :=
  let l := checked s12 .w 64 [(a, 64)]
  a.toNat % 64 == 0 && s12.myLaunch == some launch12 && launch12.tcbbase ≤ a.toNat && a.toNat < launch12.tcbbase + 64 * launch12.tcblen &&
    !l.isEmpty && (s12.waits l).isNone && placeOf l == .pa a.toNat && s12.homeReady 0 (lineOf a.toNat)

-- R316: a TCB that is no multiple of 64, and one at the end of the block
theorem test_spawn_traps : met [gives (.spawn { } ⟨9, 6, 0, 0, 0⟩) s12 (· == (s12.take cMISALIGN 0x8001).tickFresh),
    gives (.spawn { } ⟨9, 5, 0, 0, 0⟩) s12 (· == (s12.take cPERM 0x8100).tickFresh)] = true := by decide +kernel
-- R318: the task is number 1 of its launch and READY on the tile
theorem test_spawn : met [brings (.spawn { } ⟨9, 2, 0, 0, 0⟩) s12 (.s 9) 1, gives (.spawn { } ⟨9, 2, 0, 0, 0⟩) s12 fun t =>
    (t.getTile 0).deque.map (fun e => (e.tcb, e.launch, e.seq)) == [(0x8040, 7, 1)] && tcbStatus (t.homePlace 0 (.pa 0x8040) 64) == 2] = true := by decide +kernel
-- R322: the last signal makes the task READY
theorem test_signal : gives (.signal { } ⟨9, 1, 1, 0, 0⟩) s12 (fun t => tcbStatus (t.homePlace 0 (.pa 0x8000) 64) == 2 && (t.getTile 0).deque.length == 1) = true := by
  decide +kernel
theorem test_tqry : met [brings (.tqry { } ⟨9, 1, 0, 0, 0⟩) s12 (.s 9) 1, brings (.tqry { } ⟨9, 1, 0, 0, 1⟩) s12 (.s 9) 2, brings (.lcnt { } ⟨9, 2, 0, 0, 0⟩) s12 (.s 9) 4,
    brings (.lcnt { } ⟨9, 4, 0, 0, 0⟩) s12 (.s 9) (2 ^ 64 - 1)] = true := by decide +kernel

theorem test_meets_TaskInstructions_tcb : met [s12.solo, s12.ready 0x093 { } [.s 9], tcbNow 0x8000, tcbNow 0x8040, tcbNow 0x80C0, tcbBad (tcb12 0x80C0), !tcbBad (tcb12 0x8040),
    s12.begun.released 3, s12.readyRoom 0, s12.begun.chanFree 0 0, s12.begun.taskReady, s12.begun.tasksReady 0 7, goes (.spawn { } ⟨9, 2, 0, 0, 0⟩) s12 0x093 { } [.s 9], tcbStatus (tcb12 0x8080) != stWAITING, goes (.tdep { } ⟨9, 3, 1, 0, 0⟩) s12 0x094 { } [.s 9, .s 1],
    tcbStatus (tcb12 0x8000) == stWAITING, tcbDepc (tcb12 0x8000) == 2, goes (.tdep { } ⟨9, 1, 1, 0, 0⟩) s12 0x094 { } [.s 9, .s 1], goes (.signal { } ⟨9, 3, 1, 0, 0⟩) s12 0x095 { } [.s 9, .s 1],
    goes (.signal { } ⟨9, 1, 1, 0, 0⟩) s12 0x095 { } [.s 9, .s 1], goes (.tqry { } ⟨9, 1, 0, 0, 0⟩) s12 0x098 { } [.s 9], goes (.tqry { } ⟨9, 1, 0, 0, 1⟩) s12 0x098 { } [.s 9],
    goes (.tqry { } ⟨9, 1, 0, 0, 2⟩) s12 0x098 { } [.s 9], goes (.tqry { } ⟨9, 1, 0, 0, 4⟩) s12 0x098 { } [.s 9], goes (.tqry { } ⟨9, 0, 0, 0, 3⟩) s12 0x098 { } [.s 9]] = true := by decide +kernel
theorem test_meets_TaskInstructions_start : let b : FB := ⟨2, 0, 0, 0, 0, 4⟩
    met [tcbStatus (tcb12 0x8040) != stWAITING && tcbStatus (tcb12 0x8040) != stREADY, goes (.cancelTask { } ⟨9, 2, 0, 0, 0⟩) s12 0x099 { } [.s 9],
    goes (.cancelTask { } ⟨9, 1, 0, 0, 0⟩) s12 0x099 { } [.s 9], bits (s12.rs 3).toNat 12 20 == 0, inSet 1 0, goes (.callat { } ⟨3, 1, 2⟩) s12 0x092 { } [.s 3, .s 1, .s 2, .s 3, .s 4],
    s12.actsAs == 1, (inRole s12 3).actsAs != 1, (inRole s12 3).ready 0x090 { } [.s 1, .s 2, .s 3, .s 4], (s12.begun.target (targetB s12.thr.pc 0 4)).isNone, s12.begun.released 3,
    goes (.forkb { } b) s12 0x090 { } [.s 1, .s 2, .s 3, .s 4]] = true := by decide +kernel
theorem test_meets_TaskInstructions_wait : let r := thrWith s12 fun x => { x with retry := some 0 }
    let u := thrWith s12 fun x => { x with priv := 0 }
    met [s12.homeReady 0 (lineOf 0x8040), s12.homeReady 0 (lineOf 0x8000), loads s12 8 [(s12.ra 2, 8)], loads s12 8 [(s12.ra 1, 8)], ofLE (s12.homePlace 0 (.pa 0x8040) 8) == 0, goes (.join { } ⟨9, 2, 0, 0, 0⟩) s12 0x091 { } [.s 9],
    ofLE (s12.homePlace 0 (.pa 0x8000) 8) != 0, s12.thr.role == 1, s12.thr.pend == [], s12.thr.defer == [], s12.ready 0x096 { } [.s 1], s12.thr.retry == none, s12.ready 0x097 { } [],
    goes (.yield { } ⟨0, 0, 0, 0, 0⟩) r 0x097 { } [], u.thr.priv == 0, u.ready 0x099 { } [.s 9, .s 2], (s12.levelOf 0 9).isNone, goes (.cancelLevel { } ⟨9, 4, 0, 0, 1⟩) s12 0x099 { } [.s 9, .s 4],
    (s12.levelOf 1 3).isSome, s12.thr.priv != 0, (s12.levelOf 0 9).isNone, goes (.lcnt { } ⟨9, 4, 0, 0, 0⟩) s12 0x09A { } [.s 9, .s 4], (s12.levelOf 0 7).isSome,
    goes (.lcnt { } ⟨9, 2, 0, 0, 0⟩) s12 0x09A { } [.s 9, .s 2]] = true := by decide +kernel
-- R327: CANCEL.LAUNCH of another launch, taken up when its units have ended
theorem test_meets_TaskInstructions_cancel : let s := { s12 with parts := [(0, { launches := [(7, launch12), (9, { launch12 with tasks := [], tcbbase := 0x9000 })] })] }
    let r := thrWith s fun x => { x with retry := some 0, wait := .hold }
    met [(s.levelOf 0 9).isSome, s.tasksReady 0 9, s.ready 0x099 { } [.s 9, .s 4], (s.levelOf 0 9).all (fun l => !r.begun.levelEnding l && l.all fun e => e.1 != s.ctx.launch),
      goes (.cancelLevel { } ⟨9, 4, 0, 0, 1⟩) r 0x099 { } [.s 9, .s 4]] = true := by decide +kernel

/-- Queue 0 holds 4 and 5, queue 1 is full with a pusher waiting, queue 2 has a popper waiting; semaphore 0 counts 2. -/
def s12q : State := ctxWith (sets t0 [(1, 9)]) fun c => { c with
  qs := [(0, { ents := [4, 5] }), (1, { ents := List.replicate 16 1, pushes := [(3, 8)] }), (2, { pops := [3] })], sems := [(0, { cnt := 2 }), (2, { cnt := 0xFFFF })] }

-- R330: the oldest entry; false in p1 of a pop of an empty queue; the count stays at 65535
theorem test_queues : met [brings (.qpop { } ⟨9, 0, 0, 0, 0⟩) s12q (.s 9) 4, brings (.qpop { } ⟨9, 0, 1, 1, 3⟩) s12q (.p 1) 0, gives (.qpop { } ⟨9, 0, 0, 0, 1⟩) s12q fun t =>
      (SMap.get {} t.ctx.qs 1).ents.getLast? == some 8 && (SMap.get {} t.ctx.qs 1).pushes == [],
    brings (.semp { } ⟨9, 0, 0, 0, 0⟩) s12q (.s 9) 1, brings (.semv { } ⟨9, 1, 0, 0, 2⟩) s12q (.s 9) 0xFFFF, brings (.semv { } ⟨9, 0, 0, 0, 1⟩) s12q (.s 9) 1] = true := by decide +kernel
theorem test_meets_QueueInstructions : met [s12q.solo, s12q.thr.retry == none, !queueWaits s12q.begun, (s12q.ctx.semOf 0).cnt != 0, goes (.semp { } ⟨9, 0, 0, 0, 0⟩) s12q 0x0A0 { } [.s 9],
    (s12q.ctx.semOf 15).cnt == 0, goes (.semp { } ⟨9, 0, 1, 1, 15⟩) s12q 0x0A0 { } [.s 9], s12q.ready 0x0A0 { } [.s 9], (s12q.ctx.semOf 2).waits == [], goes (.semv { } ⟨9, 1, 0, 0, 2⟩) s12q 0x0A1 { } [.s 9, .s 1],
    (s12q.ctx.queueOf 0).pops == [], goes (.qpush { } ⟨0, 1, 0, 0, 0⟩) s12q 0x0A2 { } [.s 1], 16 ≤ (s12q.ctx.queueOf 1).ents.length, goes (.qpush { } ⟨0, 1, 1, 1, 1⟩) s12q 0x0A2 { } [.s 1],
    (s12q.ctx.queueOf 2).pops == [3], 3 != s12q.cur.i, goes (.qpush { } ⟨0, 1, 0, 0, 2⟩) s12q 0x0A2 { } [.s 1], (s12q.ctx.queueOf 0).pushes == [], goes (.qpop { } ⟨9, 0, 0, 0, 0⟩) s12q 0x0A3 { } [.s 9],
    (s12q.ctx.queueOf 1).pushes == [(3, 8)], goes (.qpop { } ⟨9, 0, 0, 0, 1⟩) s12q 0x0A3 { } [.s 9], (s12q.ctx.queueOf 3).ents == [], goes (.qpop { } ⟨9, 0, 1, 0, 3⟩) s12q 0x0A3 { } [.s 9],
    s12q.ready 0x0A3 { } [.s 9], goes (.qstat { } ⟨9, 0, 0, 0, 1⟩) s12q 0x0A4 { } [.s 9], goes (.qstat { } ⟨9, 0, 1, 0, 15⟩) s12q 0x0A4 { } [.s 9]] = true := by decide +kernel


/-! ### Hawk banks and trowel sequences -/

/-- Bank 0 word 4 holds EXIT (0x23); opcode 0x3C0 is bound to word 4 of bank 0, and bank 7 belongs to partition 3. A
new binding of word 255 is in s1, one of bank 7 in s2; the words to load are at 0x4000. -/
def s13 : State :=
  let s := ctxWith (sets (seta (poke t0 0x4000 [9, 0, 0, 0, 0, 0, 0, 0, 7]) [(1, 0x4000)]) [(1, 255 * 8 + 2048), (2, 7 + 2048), (3, 2), (4, 77)])
    fun c => { c with binds := [(0, BitVec.ofNat 64 (4 * 8 + 2048))] }
  { s with tile := { s.tile with hawk := [(4, BitVec.ofNat 64 (0x23 * 2 ^ 58))] }, cfg := { s.cfg with hown := [0, 0, 0, 0, 0, 0, 0, 3] } }
def g13 : FTrowel := ⟨0, 9, 4, 0, 0, 0, 0⟩

-- R365: the old binding comes back, and the new one is held; two words are loaded
theorem test_trwb : met [gives (.trwb { } ⟨9, 1, 0, 0, 0, 0, 0⟩) s13 fun t => t.thr.reg (.s 9) == 2080 && t.binding 0 == 4088,
    gives (.trwl { } ⟨0, 0, 3, 1, 0, 0, 254⟩) s13 fun t => SMap.get 0 t.tile.hawk 254 == 9 && SMap.get 0 t.tile.hawk 255 == 7] = true := by decide +kernel
-- R358, R359: a bank of another partition, and an opcode without a binding
theorem test_trowel_traps : met [gives (.trwb { } ⟨9, 2, 0, 0, 0, 0, 0⟩) s13 (· == (s13.take cPARTITION 7).tickFresh),
    gives (.trowel { } { g13 with op := 1 }) s13 (· == (s13.take cTRWUNB 0x3C1).tickFresh)] = true := by decide +kernel
-- R363: EXIT ends the sequence, and the registers hold its ports' values
theorem test_trowel_exit : gives (.trowel { } g13) s13 (fun t => t.thr.pc == 0x200C && t.thr.pend == [] && t.thr.mrun == none) = true := by decide +kernel

/-- The same with the words to load in the window of tile 1, whose fence the die has learnt of. -/
def s13w : State := (seta s13 [(1, 0xFE * 2 ^ 64 + 2 ^ 32)]).modDie 0 fun d => { d with knows := [1] }
theorem test_meets_HawkAndTrowel : let ok := fun (r : Nat) => decide (1 ≤ bindLen (s13.rs r)) && decide (bindStart (s13.rs r) + bindLen (s13.rs r) ≤ 256) && bits (s13.rs r).toNat 23 41 == 0
    met [s13.solo, ok 1, ok 2, s13.ownsBank (bindBank (s13.rs 1)), !s13.ownsBank (bindBank (s13.rs 2)), s13.thr.priv != 0, goes (.trwb { } ⟨9, 1, 0, 0, 0, 0, 0⟩) s13 0x348 { } [.s 9, .s 1],
      s13.ready 0x348 { } [.s 9, .s 2], goes (.trwu { } ⟨9, 0, 0, 0, 63, 0, 0⟩) s13 0x34A { } [.s 9], goes (.trwq { } ⟨9, 0, 0, 0, 0, 0, 0⟩) s13 0x34B { } [.s 9],
      254 + 2 ≤ 256, 0x4000 % 8 == 0, s13.ownsBank 0, loads s13 1 ((List.range 2).map fun j => (s13.ra 1 + BitVec.ofNat 72 (8 * j), 8)),
      goes (.trwl { } ⟨0, 0, 3, 1, 0, 0, 254⟩) s13 0x349 { } [.s 3],
      gives (.trwl { } ⟨0, 0, 3, 1, 0, 0, 254⟩) s13w (· == (s13w.take cRESPF (0xFE * 2 ^ 64 + 2 ^ 32)).tickFresh), s13w.ready 0x349 { } [.s 3], bindLen (s13.binding 1) == 0, s13.ready 0x3C1 { } [.s 9, .s 4, .s 0, .s 0], bindLen (s13.binding 0) == 1,
      s13.ownsBank (bindBank (s13.binding 0)), !bindVec (s13.binding 0), s13.thr.mrun == none, !s13.thr.mcont, !tMseq s13.thr.tstat, s13.thr.pend == [], s13.thr.retry == none,
      SMap.get 0 s13.tile.hawk 4 == BitVec.ofNat 64 (0x23 * 2 ^ 58), s13.ready 0x3C0 { } [.s 9, .s 4, .s 0, .s 0], s13.thr.loops.lc0 == 0 && s13.thr.loops.lc1 == 0] = true := by
  decide +kernel


/-! ### Steps of other agents: threads -/

/-- The step happens: its next state differs. -/
def acts (i : Instr) (s : State) : Bool := gives i s (· != s)
/-- A thread that waits, and a state with messages. -/
def waiting (w : Wait) (s : State) : State := thrWith s fun x => { x with wait := w }
def s14p (p : Pend) : State := thrWith s6 fun x => { x with pend := [p] }
def p14 : Pend := { id := 3, pc := 0x2000, what := .ready, dests := [{ r := .s 9, v := 5 }] }
def app14 (dst : Nat) : Msg := .append ⟨0, 0, 0⟩ 3 0 0 0 dst 9 [0x77]
def s14m (u : State) (m : List Msg) : State := { s14p { p14 with what := .msg } with msgs := m, ctx := u.ctx, tile := u.tile }
/-- The inbox of s7i, full. -/
def s14f : State := ctxWith s7i fun c => { c with inbox := { c.inbox with tail := 2 } }
/-- A leased copy of the line at the PC whose line word has a bad LPAR, and memory that holds the same. -/
def s14l : State := { t0 with tile := { t0.tile with copies := [(64, { data := (1 : Vec) <<< 480, till := 1000, pid := 0 })] } }

-- R38, R39: the value is written; a condition waits for the switch marker
theorem test_class_v : met [gives (.classVResult 0 0 0 0) (s14p p14) fun t => t.thr.reg (.s 9) == 5 && t.thr.pend == [],
    gives (.classVResult 0 0 0 0) (s14p { p14 with cond := some (cPOISON, 8) }) fun t => t.thr.defer.map (fun c => (c.pc, c.cause, c.at_)) == [(0x2000, cPOISON, 8)]] = true := by decide +kernel
-- R281: the entry's data, sender and tag are written at the tail, and the sender's answer is 0
theorem test_inbox : gives (.inboxDelivery 0) (s14m s7i [app14 0]) (fun t => ofLE (t.sramBytes 0 0x180 8) == 0x77 && ofLE (t.sramBytes 0 0x1C0 8) == 9 * 2 ^ 32 + 1 * 2 ^ 12 &&
    t.ctx.inbox.tail == 2 && t.msgs == [] && t.thr.pend.map (fun p => (p.what, p.dests.map (·.v))) == [(.ready, [0])]) = true := by decide +kernel

theorem test_meets_ThreadsGoOn_results : let r := { reg with doom := none }
    met [p14.cond.isNone, (s14p p14).thr.mayReturn 0 p14, acts (.classVResult 0 0 0 0) (s14p p14), acts (.classVResult 0 0 0 0) (s14p { p14 with cond := some (cUE, 8) }),
      acts (.classVResult 0 0 0 0) (thrWith (s14p { p14 with cond := some (cUE, 8) }) fun x => { x with region := some r }), !r.irr, !r.committed, r.doom.isNone] = true := by decide +kernel
theorem test_meets_ThreadsGoOn_lines : met [match t0.fetch 0x2000 with | .ok l => !lineBad l (l.turnSlots 0) && bits l.word 14 18 == 0 | _ => false,
    match s14l.fetch 0x2000 with | .ok l => lineBad l (l.turnSlots 0) | _ => false, match (s14l.dropLine 0x2000).fetch 0x2000 with | .ok l => !lineBad l (l.turnSlots 0) | _ => false,
    acts (.lineRefetch 0 0 0) s14l, gives (.lineRefetch 0 0 0) (poke t0 0x203C [1]) fun t => t == (((poke t0 0x203C [1]).dropLine 0x2000).take cLINE 0x2000).tickFresh,
    trapCauses.contains cPERM, !t0.owesResults, t0.thr.defer == [], t0.muStop.isNone, acts (.trapEntry 0 0 0 cPERM 8) t0] = true := by decide +kernel
theorem test_meets_ThreadsGoOn_wakes : let d : Place := .sram 0 0
    met [acts (.ldsWake 0 0 0) (waiting (.ldsMet 5) s6), !s6.poisoned [{ spot := { place := d }, n := 8 }], acts (.wrsWake 0 0 0) (waiting (.wrsMet d) s6),
      acts (.wrsTimeout 0 0 0) (waiting (.wrs d 0 false) s6), acts (.joinRecheck 0 0 0) (waiting (.join d 256) s6), ofLE (s6.homePlace 0 d 8) == 0,
      acts (.parkTimeout 0 0 0) (waiting (.park (some 0)) s6), acts (.syncwWake 0 0 0) (waiting (.syncw 0 5) s6), acts (.remoteLoadWake 0 0 0) (waiting (.remote 0) s6),
      (s6.unitAt 0 0 0).isSome, acts (.spuriousWake 0 0 0) (waiting (.park none) s6), acts (.spuriousWake 0 0 0) (waiting (.wrs d 0 true) s6)] = true := by decide +kernel
theorem test_meets_ThreadsGoOn_inbox : let r : Msg := .callRet 5 0 { tile := 0, launch := 0, seq := 0, tag := 1 } 8
    met [(s14m s6 [app14 0]).msgFirst 0 == some (app14 0), s6.unitAt 0 0 0 == some (0, 0), s6.ctx.held == [], !s6.ctx.inbox.en, acts (.inboxDelivery 0) (s14m s6 [app14 0]),
      s7i.ctx.inbox.count < s7i.ctx.inbox.nent, acts (.inboxDelivery 0) (s14m s7i [app14 0]), s14f.ctx.inbox.nent ≤ s14f.ctx.inbox.count, acts (.inboxDelivery 0) (s14m s14f [app14 0]),
      (s6.unitAt 0 0 1).isNone, !bit (SMap.get 0 s6.fence 1) 0, !(s6.getDie 0).knows.contains 1, acts (.inboxDelivery 0) (s14m s6 [app14 1]),
      gives (.inboxDelivery 0) { s14m s6 [app14 1] with dies := [(0, { knows := [1] })] } (fun t => t.msgs == [] && t.thr.pend.any fun p => p.cond == some (cRESPF, 0)),
      s6.liveCtxs.find? (fun e => (s6.getCtx e.1 e.2).isCaller 0 { tile := 0, launch := 0, seq := 0, tag := 1 }) == some (0, 0), acts (.callatReturnDelivery 0) (s14m s7i [r]),
      acts (.callatReturnDelivery 0) (s14m s7i [.callRet 5 0 { tile := 3, launch := 0, seq := 0, tag := 1 } 8]), s7i.ctx.inbox.room,
      acts (.heldReturnDelivery 0 0) (ctxWith s7i fun c => { c with held := [(1, 5, 8)] })] = true := by decide +kernel


/-! ### Steps of other agents: lines -/

/-- A domain of two parts; line 0x80 is at 0x4000. Agent 8 is die 0 of the other part. -/
def s15 : State := { s6 with members := 3 }
def hold15 (st : LState) : SMap Held := [(0x80, { st := st, data := 5, pid := 0 })]
/-- Agent 8 owns the line; agents 0 and 8 share it; a transaction awaits an agent. -/
def s15m : State := { s15 with filter := [(0x80, { dst := 3, own := 8 })], agents := [(8, hold15 .m)] }
def s15s : State := { s15 with filter := [(0x80, { dst := 1, shv := 2 ^ 9 + 1 })], agents := [(0, hold15 .s), (8, hold15 .s)] }
def txn15 (kind : Nat) : Txn := { kind := kind, ag := 0, await := [8], since := 0 }
def s15t (kind : Nat) : State := { s15m with txns := [(0x80, txn15 kind)] }
/-- A request of an agent for the line waits at its home since cycle 0; it is cycle 1. -/
def s15q (s : State) (kind ag : Nat) (wr : Option (Nat × List Byte) := none) : State :=
  { s with plumb := 1, homeq := [(0x80, [{ kind := kind, ag := ag, pid := 0, at_ := 0, wr := wr }])] }
/-- Sixteen lines of one bank are recorded, and a request waits for a seventeenth. -/
def s15v : State := { s15 with
  filter := (List.range 16).map fun j => (0x80 + 256 * j, ({ dst := 3, own := 8 } : SfEnt))
  homeq := [(0x1080, [{ kind := 0, ag := 0, pid := 0, at_ := 0 }])] }
def st15 : Store := { a := 0x4008, bytes := [1, 2], pid := 0, tile := 0 }
def fifo15 (l : List FifoEnt) : State := { s15 with tile := { s15.tile with fifo := l } }
def die15 (f : Die → Die) : State := s15.modDie 0 f
/-- The home serves a host line at 2^51, which agent 0 holds. -/
def h15 : Nat := 2 ^ 44
def s15h : State := { s15 with agents := [(0, [(h15, { st := .m, data := 5, pid := 0 })])] }

-- R237, R238: the store goes to the slice and is performed in the die's line
theorem test_store_path : met [gives (.fifoSend 0) (fifo15 [.store st15]) fun t => (t.getDie 0).waitSt == [st15] && t.tile.fifo == [],
    gives (.storePerformAtSlice 0 0x80) (die15 fun y => { y with waitSt := [st15] }) fun t => ofLE (t.dieBytes 0 0x4008 2) == 0x0201] = true := by decide +kernel
-- R244: an uncached line is given in E with the home's data; an owned one opens a transaction that probes the owner
theorem test_rds : met [gives (.rds 8 0x80) (s15q s15 0 8) fun t => (t.held 8 0x80).any (fun h => h.st == .e && h.data == s15.homeLine 0x80) && (t.entry 0x80).own == 8,
    gives (.rds 0 0x80) (s15q s15m 0 0) fun t => (SMap.find t.txns 0x80).map (fun x => (x.kind, x.ag, x.await)) == some (0, 0, [8])] = true := by decide +kernel
-- R245: an owner in M that answers PrI writes the line back to its home
theorem test_pri : gives (.pri 8 0x80) (s15t 3) (fun t => (t.held 8 0x80).isNone && ofLE (t.homeBytes 0x4000 8) == 5) = true := by decide +kernel

theorem test_meets_LinesMove_leases : met [s15.mayHold 0 0x80, s15.mayLease 0 0x80, acts (.leaseGrant 0 0x80) s15,
    acts (.leaseExpiry 0 0x80) { s15 with tile := { s15.tile with copies := [(0x80, { data := 0, till := 2, pid := 0 })] } }] = true := by decide +kernel
theorem test_meets_LinesMove_stores : let p := die15 fun y => { y with pendB := [st15] }
    met [acts (.fifoSend 0) (fifo15 [.store st15]), (fifo15 [.marker 5 none]).sentPerformed 0 5, acts (.releaseMarkerAck 0) (fifo15 [.marker 5 none]),
      !(s15.getDie 0).leased 0 0x80, !s15.underHold 0x80, acts (.storePerformAtSlice 0 0x80) (die15 fun y => { y with waitSt := [st15] }),
      (p.held 0 0x80).isNone, !p.leasedBeside 0 0x80, acts (.ownershipArrival 0 0x80) p, acts (.ownershipArrival 0 0x80) { p with agents := [(0, hold15 .m)] }] = true := by decide +kernel
theorem test_meets_LinesMove_home : let e := s15.entry 0x80
    met [s15.dieAgent 8, s15.dieAgent 0, isDram 0x4000, (SMap.find s15.txns 0x80).isNone, (s15.held 8 0x80).isNone, e.dst == 0 && !e.h && e.shv == 0, gives (.rds 8 0x80) s15 (fun t => t.homeq == [(0x80, [{ kind := 0, ag := 8, pid := 0, at_ := 0 }])]), acts (.rdx 8 0x80) s15,
      SMap.get [] s15.homeq 0x80 == [], (s15q s15 0 8).bankUsed (bankOf 0x80) < 65536,
      (s15m.entry 0x80).dst == 3 && !(s15m.entry 0x80).h, (s15m.held 0 0x80).isNone, acts (.rds 0 0x80) (s15q s15m 0 0), acts (.rdx 0 0x80) (s15q s15m 1 0), (s15s.entry 0x80).records 0x80 0, (s15s.entry 0x80).records 0x80 8,
      (s15s.entry 0x80).probed 0x80 2 0 != [], acts (.upg 0 0x80) (s15q s15s 2 0), ((s15q s15s 2 0).held 0 0x80).any (fun h => h.st == .s && !h.comp),
      acts (.wb 8 0x80) { s15m with agents := [], wbufs := [(8, [(0x80, ({ st := .m, data := 5, pid := 0 }, false))])] },
      acts (.wb 16 0x80) { s15m with wbufs := [(16, [(0x80, ({ st := .m, data := 5, pid := 0 }, false))])] }] = true := by decide +kernel
theorem test_meets_LinesMove_probes : let gone := { s15t 3 with agents := [], plumb := 40 }
    met [SMap.get [] s15m.resvq 0x80 == [], (s15t 0).probeOf 0x80 (txn15 0) 8 == 0, acts (.prs 8 0x80) (s15t 0), (s15t 3).probeOf 0x80 (txn15 3) 8 == 1, acts (.pri 8 0x80) (s15t 3),
      (s15t 1).probeOf 0x80 (txn15 1) 8 == 2, acts (.prx 8 0x80) (s15t 1), 8 / 8 != s15.domPos, !gone.present 8 0x80 0, acts (.notPresentAnswer 8 0x80 0) gone,
      s15v.wantsEntry (bankOf 0x80), gives (.snoopFilterVictim 0x80) s15v fun t => (SMap.find t.txns 0x80).any fun x => x.kind == 3 && x.await == [8]] = true := by decide +kernel
theorem test_meets_LinesMove_host : let w : State := { s15 with txns := [(0x80, { kind := 0, ag := 0, host := [0, 1] })] }
    met [acts (.hostRead 0x4000 0) (s15q s15m 4 64), gives (.hostMemWr 0x4000 7) (s15q s15 6 64 (some (0x4000, toLE 64 7))) (fun t => ofLE (t.homeBytes 0x4000 8) == 7), acts (.hostMemWr 0x4000 7) w, acts (.bisnpAnswer 0x4000 0) w, isHost (128 * h15), gives (.hostSnoop (128 * h15) 2) s15h (· == s15h),
      acts (.hostSnoop (128 * h15) 1) { s15h with resvq := [(h15, [req])] }, acts (.hostSnoop (128 * h15) 1) s15h,
      acts (.hostLineSnoopAnswer h15) { s15h with hostWait := [(h15, 1)] }] = true := by decide +kernel
theorem test_meets_LinesMove_evictions : let c : Copy := { data := 0, till := 9, pid := 0 }
    met [acts (.lineEviction 0 0 0x80) { s15 with tile := { s15.tile with copies := [(0x80, c)] } }, acts (.lineEviction 3 0 0x80) (die15 fun y => { y with repl := [{ slice := 0, line := 0x80, data := 0, pid := 0, launch := 0 }] }),
      !(s15s.getDie 0).leased 0 0x80, !s15s.pinned 0 0x80, acts (.lineEviction 1 0 0x80) s15s, acts (.lineEviction 2 8 0x80) s15m] = true := by decide +kernel


/-! ### Steps of other agents: regions, lineage engines, copies and collectives -/

/-- A narrowing of a region of tile 1's thread, and one of the region of thread 0. -/
def nar16 : State :=
  let r0 : RegId := { k := ⟨0, 0, 0⟩, seq := (s8 reg).thr.rseq.toNat }
  { s8 reg with narrows := [{ who := { k := ⟨1, 0, 0⟩ }, cause := r0, lo := 6, hi := 8 }, { who := r0, cause := r0, lo := 6, hi := 8 }] }
def s16 : State := s8 { reg with reads := [0x80], writes := [0x81] }

-- R292: bounds 5 to 9 narrow to 6 to 8
theorem test_narrow : gives (.narrowingMessage 1) nar16 (fun t => t.thr.rlo == 6 && t.thr.rhi == 8) = true := by decide +kernel

theorem test_meets_RegionStepsHappen : let silent : State := { nar16 with fence := [(1, 1)], dies := [(0, { knows := [1] })] }
    let wait := waiting .token t0
    let doom := thrWith s16 fun x => { x with region := x.region.map fun r => { r with doom := some (6, 9) } }
    let done := s8 { reg with reads := [0x80], sealing := some [0x80] }
    met [!nar16.silent 0, acts (.narrowingMessage 1) nar16, silent.silent 1, acts (.narrowingMessage 0) silent, acts (.regionAccessAtSlice 0 0 0 0x80 0) s16,
      acts (.regionAccessAtSlice 0 0 0 0x81 1) s16, acts (.sealAtSlice 0 0 0 0x80) (s8 { reg with reads := [0x80], sealing := some [] }),
      ({ reg with reads := [0x80], sealing := some [0x80] } : Region).committed, acts (.finalPositionBroadcast 0 0 0 0x80) done, doom.thr.pend == [], acts (.regionAbort 0 0 0 6 9) doom,
      (wait.getDie 0).token.isNone, wait.regionsOn 0 == [], acts (.tokenGrant 0 0 0) wait] = true := by decide +kernel
/-- Thread 0 waits for the token while thread 1 is in a region. -/
def s16w : State := (waiting .token t0).setThread ⟨0, 0, 1⟩ { (s8 reg).thr with role := 1 }
theorem test_meets_RegionStepsHappen_token : s16w.regionsOn 0 = [⟨0, 0, 1⟩] ∧ ((s16w.getThread ⟨0, 0, 1⟩).region.any fun r => !r.committed) = true ∧
    acts (.tokenGrant 0 0 0) s16w = true := by decide +kernel

/-- Node 5 of part11 has its engine at a cursor, towards node 1, for launch 7, with room or without. -/
def eng16 (e : Engine) (lpool : Word) (l : Launch) : State :=
  let p := { part11 with lpool := lpool, nodes := SMap.put part11.nodes 5 { blocks := 2, parent := 2, busy := some e }, launches := [(7, l)] }
  { s11 with parts := [(0, p)] }
def e16 (undo : Bool) (cursor : Nat) : Engine := { target := 1, cursor := cursor, undo := undo, launch := 7, kindsOld := [(0, 3)], paysOld := [(0, 9)] }

-- R153: at its end node 5 hangs below node 1, node 2 loses a child and the launch's count falls
theorem test_op_end : gives (.lineageOpEnd 0 5) (eng16 (e16 false 2) 3 launch12) (fun t => ((t.getPart 0).node 5).any (fun x => x.parent == 1 && x.busy.isNone) &&
    ((t.getPart 0).node 2).any (·.kids == 0) && (t.launch 0 7).any (·.count == 3)) = true := by decide +kernel
theorem test_meets_EnginesRun_lineage :
    let q := (eng16 (e16 false 1) 1 launch12).getPart 0
    met [acts (.lineageBlockRecompose 0 5) (eng16 (e16 false 1) 3 launch12), acts (.lineageBlockRecompose 0 5) (eng16 (e16 false 1) 1 launch12), q.poolSize == 0 && q.poolUsed != 0,
      acts (.lineageUndo 0 5) (eng16 (e16 true 1) 3 launch12), acts (.lineageOpEnd 0 5) (eng16 (e16 false 2) 3 launch12), acts (.lineageOpEnd 0 5) (eng16 (e16 true 0) 3 launch12)] = true := by decide +kernel
-- the clause of a pool that cannot supply the block: what the new encoding needs is above the pool's size and above what is in use
theorem test_meets_EnginesRun_pool : let q := (eng16 (e16 false 1) 1 launch12).getPart 0
    let x := (q.node 5).getD { blocks := 0, parent := 0 }
    let v := encodeBlock (q.blockOf 5 1) (q.parentVal 1 1)
    let r := q.setNode 5 { (x.setBlock 1 v) with busy := some { e16 false 1 with cursor := 2, kindsOld := [(0, 3)], paysOld := [(0, 9)] } }
    r.poolSize < r.poolUsed ∧ q.poolUsed < r.poolUsed := by decide +kernel

/-- A copy of 100 bytes from 0x6000 to 0x4000 with its sync object, one of no length, and one from an address that does not translate. -/
def c16 : CuCmd := { op := 0x290, dst := 0x4000, src := 0x6000, n := 100, sync := 0x10, id := 1 }
/-- The same from 0x4008, whose range shares bytes with the destination. -/
def over16 : CuCmd := { c16 with src := 0x4008 }
def s16c (x : CuCmd) : State := ctxWith s10 fun c => { c with cu := { c.cu with q := [x] } }
def burst16 (x : CuCmd) (b : Burst) : State := ctxWith (s16c x) fun c => { c with cu := { c.cu with burst := some b } }
def ok16 (x : EngWrite) : Bool := match x with | .ok _ => true | _ => false
-- R201, R197: the first part reaches the end of a 64-byte line, and its bytes arrive at the object
theorem test_copy_part : gives (.cuCopyRun 0 0) (s16c c16) (fun t => t.ctx.cu.burst.any fun b => b.writes.length == 8 && b.amts == [64]) = true ∧
    (let t := (s16c c16).cuPartDone 0 0 c16 { writes := [], step := 64, amts := [64], next := c16 }
     t.ctx.cu.done == 64 && syncCount (t.syncD 0 0x10 1) == 67) = true := by decide +kernel
theorem test_meets_EnginesRun_copies : let bad := { c16 with src := 0xC0000000 }
    met [(s16c c16).engAfter ⟨0, 0, 0⟩ 1, !(s16c c16).syncRefuses c16 0 0 c16.narrow, c16.isCopy, (s16c c16).ctx.live, !(s16c c16).ctx.cu.stop,
      match cuPart (s16c c16) 0 0 c16 0 with | .ok u b => b.fills == [] && ok16 (u.cuArriveAll c16 0 0 b.amts) | _ => false, acts (.cuCopyRun 0 0) (s16c c16),
      match cuPart (s16c bad) 0 0 bad 0 with | .fail _ _ => true | _ => false, acts (.cuCopyRun 0 0) (s16c bad), (s16c c16).ctx.cu.burst.isNone,
      !(s16c { c16 with n := 0 }).syncRefuses { c16 with n := 0 } 0 0 false, !c16.arrived, acts (.cuCopyRun 0 0) (s16c { c16 with n := 0 }),
      (s16c { c16 with n := 0, arrived := true }).cuLanded c16, acts (.cuCopyRun 0 0) (s16c { c16 with n := 0, arrived := true }),
      !(s16c c16).cpyOverlaps c16 0 0, (s16c c16).engGoes 0 0 false, (s16c c16).engGoes 0 0 true, c16.ahead.isNone,
      (s16c over16).cpyOverlaps over16 0 0, !(s16c over16).syncRefuses over16 0 0 over16.narrow, acts (.cuCopyRun 0 0) (s16c over16), match (s16c c16).cuRead (c16.who 0 0) (c16.v 0) c16.src 64 with
        | .ok bs _ => ok16 ((s16c c16).cuTry c16 0 0 ((s16c c16).cuEntries c16 0 0 false 0 bs [])) | _ => false,
      s10.ctx.inside 0x10 16, acts (.syncArrival 0 0 0x10 5) s10] = true := by decide +kernel
-- whichever of a burst's writes comes next, one that is alone can be made
theorem test_meets_EnginesRun_burst (n : Nat) : let e : CuPut := { res := false, off := 8, bs := [1, 2] }
    let b : Burst := { writes := [e], step := 64, amts := [64], next := c16 }
    [e][n % [e].length]? = some e ∧ ok16 ((burst16 c16 b).cuPut c16 0 0 e) = true ∧ (burst16 c16 b).cuMore 0 0 { c16 with n := 64 } b = none ∧ ((burst16 c16 b).cuMore 0 0 c16 b).isSome = true ∧
      b.writes.any ((burst16 c16 b).cuLin c16 0 0) = false := by
  refine ⟨?_, by decide +kernel, by decide +kernel, by decide +kernel, by decide +kernel⟩
  simp [Nat.mod_one]

/-- A barrier of group 1 at the head of the queue, its chunk sent, received and kept. -/
def b16 : CuCmd := { op := 0x2A4, g := 1, id := 1 }
def ch16 : Chunk := { pid := 0, dstTile := 0, dstFab := 0, key := 9, seq := 0, rank := 0, idx := 0, total := 1, op := 0x2A4, fn := 0, ty := 0, n := 0, xsp := false, srcTile := 0, srcFab := 0, bytes := [] }
def s16b (f : Group → Group) (net : List Chunk) : State := { ctxWith (s16c b16) fun c => { c with groups := [(1, f grp)] } with net := net }
theorem test_meets_EnginesRun_collectives : let got := s16b (fun g => { g with sent := true, got := [ch16] }) []
    let keeps := fun (x : Chunk) => s16b (fun g => { g with sent := true, kept := [x] }) []
    let kept := keeps ch16
    let past := ctxWith (s16b (fun g => { g with seq := 1 }) [ch16]) fun c => { c with cu := { c.cu with q := [] } }
    let gone := (s16b id [ch16]).modDie 0 fun y => { y with knows := [0] }
    let up : State := { s16b (fun g => { g with sent := true, members := [(0, 9)], kept := [{ ch16 with dstFab := 9 }] }) [] with portUp := [(0, true)], cfg := { s10.cfg with pown := [0] } }
    met [(s16b id []).engAfter ⟨0, 0, 0⟩ 1, !b16.isCopy, !grp.lost, (chunksFor (s16b id []) 0 0 b16 grp).isSome, acts (.collectiveRun 0 0) (s16b id []), acts (.collectiveRun 0 0) got,
      ((List.range 1).filterMap (({ grp with got := [ch16] } : Group).from_ 0)).length == 1, kept.noWay 0 b16 { grp with sent := true, kept := [ch16] }, acts (.noPathLimit 0 0 1) { kept with plumb := 2 ^ 24 }, acts (.chunkArrival 0) (s16b id [ch16]),
      (s16b id [ch16]).chunkFor ch16 == some (0, 0, 1), ch16.dstFab == s10.ownFab, s10.ownerOf 0 == 0, s10.ownerOf 0 != 3, acts (.chunkArrival 0) (s16b id [{ ch16 with pid := 3 }]),
      kept.ctx.keeps 0 0 0 == some (1, ch16), acts (.chunkAck 0 0 0 0 0) (keeps { ch16 with took := true }), up.ownFab != 9, up.route 0, acts (.chunkAck 0 0 0 0 0) up,
      acts (.chunkResend 0 0 0 0 0) (keeps { ch16 with due := true }), kept.carried ch16, !(s16b id [ch16]).chunkBehind 0 ch16, !(s16b id [ch16]).chunkOrphan ch16,
      gone.chunkOrphan ch16, acts (.chunkArrival 0) gone, !past.chunkOrphan ch16, past.chunkFor ch16 == none, past.chunkParked ch16 == none, past.chunkPast ch16,
      acts (.chunkArrival 0) past] = true := by decide +kernel
-- R198: the object of a queued copy is outstanding
theorem test_meets_AccessFrames_objects : (s16c c16).syncObjects = [(0, 0x10)] := by decide +kernel

/-! ### Launches and units -/

/-- The page table, and the bytes that are not 0 of an entry of launch 9 at 0xA000: no initial task, a block of TCBs at 0x8000, a tile set. -/
def map17 : List (Nat × Byte) := [(0x1000, 61), (0x1008, 29)]
def entry17 : List (Nat × Byte) := [(0xA000, 9), (0xA004, 3), (0xA008, 4), (0xA00C, 2), (0xA011, 0x20), (0xA019, 0x80), (0xA024, 4), (0xA028, 1), (0xA031, 0x90)]
/-- A queue with that entry, ready. -/
def q17 (e : List (Nat × Byte)) : State :=
  let x : LQ := { en := true, tail := 1, base := 0x280, qptbr := 0x1002, ready := true }
  { s12 with mem := map17 ++ e, parts := [(0, { queues := [(0, x)], launches := [(7, { launch12 with complete := true })] })] }
def poll17 (e : List (Nat × Byte)) : State := (q17 e).modQueue 0 0 fun y => { y with ready := false }
/-- A launch of two initial tasks, none of them taken. -/
def more17 : State := { s12 with parts := [(0, { launches := [(7, { launch12 with ninit := 2 })] })] }

-- R406: a slot whose flag is not set is looked at again after 4096 cycles
theorem test_poll : gives (.launchSlotPoll 0 0) (poll17 []) (fun t => ((t.getPart 0).queue 0).poll == t0.plumb + 4096) = true := by decide +kernel
-- R306: the launch is known and its job is in phase 1; R423: a set of no die is refused, with LSTATUS 0x13 and LDONE 1
theorem test_start : gives (.launchStart 0 0) (q17 entry17) (fun t => (t.launch 0 9).any (·.phase == 1) && ((t.getPart 0).queue 0).head == 1) = true := by decide +kernel
theorem test_refused : gives (.launchStart 0 0) (q17 (entry17.filter (·.1 != 0xA028))) (fun t => ofLE (t.homeBytes (0xA000 + 56) 8) == 0x100000013) = true := by decide +kernel
theorem test_meets_LaunchesRun_queues : let idle := poll17 []
    let ok := fun (s : State) => let x := (s.getPart 0).queue 0
      x.en && x.head != x.tail && x.slotAddr == 0xA000 && !x.wild && !s.dieWaits 0 (lineOf 0xA000)
    met [ok idle, acts (.launchSlotPoll 0 0) idle, ok (poll17 entry17), acts (.launchSlotPoll 0 0) (poll17 entry17), ok (q17 entry17),
      (q17 entry17).sysReady 0xA000 64, (q17 entry17).putReady 0 0x1002 0x9000 64,
      !(q17 entry17).badEntry 0 (((q17 entry17).getPart 0).queue 0) ((q17 entry17).homeBytes 0xA000 64),
      (more17.getPart 0).launches.find? (fun e => e.2.queue == 0 && e.2.taken < e.2.ninit && !e.2.complete) == some (7, { launch12 with ninit := 2 })] = true := by decide +kernel

/-- A header at 0x1FC0 with a thread of role 1 that starts in the line after it, with its CRC; tile 1 holds the task. -/
def hdr17 : List (Nat × Byte) := [(0x1FC0, 72), (0x1FC1, 88), (0x1FC2, 75), (0x1FC3, 49), (0x1FC4, 1), (0x1FC6, 16), (0x1FC7, 8), (0x1FC9, 8), (0x1FCC, 1), (0x1FD8, 8),
  (0x1FFC, 208), (0x1FFD, 120), (0x1FFE, 43), (0x1FFF, 58)]
def bad17 : List (Nat × Byte) := hdr17.filter (·.1 != 0x1FFC)
def e17 : Entry := { pid := 0, launch := 7, tcb := 0x8040, seq := 1, prio := 0, origin := 1, tready := 0, tile := 1 }
def s17 (h : List (Nat × Byte)) (y : Launch) (t : Nat) (l : List Entry) : State :=
  ({ s12 with mem := map17 ++ h ++ [(0x203C, 31), (0x203D, 32), (0x8006, 1), (0x8028, 2)], dieMask := 1, parts := [(0, { launches := [(7, { y with codebase := 0x1FC0, tset := 0x200001 })] })] } : State).modTile t fun x => { x with deque := l }
/-- The task of s17 may start: its TCB is taken and the header read. -/
def start17 (h : List (Nat × Byte)) (entry : Nat) : Bool :=
  let s := s17 h launch12 1 [e17]
  s.tileIssues 1 && !s.occupied 1 && firstReady s.plumb (s.getTile 1).deque == some e17 && s.frecReady 0 7 &&
    match s.launch 0 7 with
    | some y =>
      let v := (s.takeEntry 1 e17).tcbPut 0 y 0x8040 6 (toLE 1 stRUNNING)
      s.tcbReady 0 y 0x8040 && match s.tcb 0 y 0x8040, v.sysRead 0 y.ptbr.toNat .r (0x1FC0 + entry) 64 with
      | .ok b, .ok g => tcbEntry b == entry && !v.unitHeld 0 y (0x1FC0 + entry) g && v.headerOk 0 ((v.getTile 1).lsplit * 0x20000) g && v.entryBad 0 y.ptbr.toNat 0 0x1FC0 g == none
      | _, _ => false
    | none => false
theorem test_header : start17 hdr17 0 = true := by decide +kernel
theorem test_meets_LaunchesRun_tiles : let ovf := { s17 hdr17 launch12 1 [] with dies := [(0, { overflow := [e17] })] }
    let none17 := { s12 with dieMask := 1 }
    let many := s17 hdr17 launch12 0 (List.replicate 6 { e17 with tile := 0 })
    met [many.chanFree 0 1, many.chanFree 2 1, firstReady ovf.plumb (ovf.overflowOf 1) == some e17, acts (.overflowMove 1) ovf, many.tileLive 1, !many.occupied 1, many.readyCount 1 == 0, many.mates 1 == [2, 33, 0],
      acts (.stealRequest 1) many, acts (.stealRequest 1) none17, (none17.mates 1).all fun v => (none17.givesUp v 1).isNone, many.tileLive 0, many.leastOf (many.mates 0) == some 1,
      many.plumb % 0x2000 == 0, 4 ≤ many.readyCount 0 - many.readyCount 1, acts (.balance 0) many] = true := by decide +kernel
-- R44, R312: a task with a bad header ends FAULTED
theorem test_bad_dispatch : gives (.dispatch 1) (s17 bad17 launch12 1 [e17]) (fun t => ofLE (t.homeBytes 0x8046 1) == stFAULTED) = true := by decide +kernel

/-- The unit of s12 has ended, or is killed; a signal to a TCB is on its way. -/
def end17 (killed : Option (Nat × Nat)) : State := thrWith (ctxWith s12 fun c => { c with killed := killed, ended := true, roles := [1] }) fun x => { x with life := .exited }
def sig17 (a : Addr) (depc : Nat) : State := { (poke s12 0x8028 [BitVec.ofNat 8 depc]) with msgs := [.signal 0 0 7 a 0 0] }
def call17 : Caller := { tile := 1, launch := 7, seq := 0, tag := 3 }
/-- The unit's successors have received their signals; it was called, or not. -/
def left17 (caller : Option Caller) : State := ctxWith (end17 none) fun c => { c with exiting := 1, extra := { c.extra with caller := caller } }
-- R323, R326: the TCB of an ended unit reads DONE before anything else, then its context is free; a killed one's reads its status
theorem test_unit_done : gives (.unitComplete 0 0) (end17 none) (fun t => ofLE (t.homeBytes 0x8046 1) == stDONE && t.ctx.live && t.ctx.exiting == 1) = true := by decide +kernel
theorem test_unit_left : gives (.unitComplete 0 0) (left17 (some call17)) (fun t => !t.ctx.live && t.msgs.length == 1 && (t.launch 0 7).any (·.count == 3)) = true := by decide +kernel
theorem test_unit_killed : gives (.unitComplete 0 0) (end17 (some (stCANCELLED, 0))) (fun t => ofLE (t.homeBytes 0x8046 1) == stCANCELLED) = true := by decide +kernel
theorem test_meets_LaunchesRun_units :
    let x := end17 none
    let on := fun (s : State) (st d : Nat) (a : Addr) => match s.tcb 0 launch12 a with | .ok b => tcbStatus b == st && tcbDepc b == d | .error _ => false
    met [x.ctx.live, x.ctx.ended, x.ctx.exiting == 0, x.tcbReady 0 launch12 x.ctx.tcb, x.frecReady 0 7,
      match x.tcb 0 launch12 x.ctx.tcb with | .ok bs => (x.readSuccs 0 launch12 (launch12.tcbbase + tcbSuccOff bs) (tcbNsucc bs)).2.isNone | .error _ => false,
      !x.succsHeld 0 launch12 x.ctx.tcb, x.ctx.extra.join.isNone, acts (.unitComplete 0 0) (left17 none), (left17 none).reds == [], (left17 none).msgs == [],
      gives (.unitComplete 0 0) (ctxWith (left17 none) fun c => { c with extra := { c.extra with join := some 0x6000 } }) (fun t => t.ctx.exiting == 2 && t.reds.length == 1),
      x.ctxSettled 0 0, x.performedAt 0 3, x.launch 0 7 == some launch12, ((end17 (some (stCANCELLED, 0))).strip 0 0).ctxSettled 0 0,
      on (sig17 0x8000 2) stWAITING 2 0x8000, (sig17 0x8000 2).homeReady 0 (lineOf 0x8000), !(sig17 0x8000 2).sysHeld 0 launch12.ptbr.toNat 0x8000 64, acts (.successorSignal 0) (sig17 0x8000 2), on (sig17 0x8000 1) stWAITING 1 0x8000,
      acts (.successorSignal 0) (sig17 0x8000 1), (sig17 0x8000 1).readyRoom 0, on (sig17 0x8080 1) 2 0 0x8080, acts (.successorSignal 0) (sig17 0x8080 1)] = true := by decide +kernel

def done17 (rep : SMap Nat) : State := { ctxWith s12 (fun c => { c with live := false }) with parts := [(0, { queues := [(0, { base := 0x280 })], launches := [(7, { launch12 with count := 0, tasks := [], reported := rep })] })] }
def red17 (f : Option (Nat × Addr)) (bad : Bool) : State :=
  { (poke s12 0x6000 [5]) with reds := [{ pid := 0, launch := 7, tile := 0, at_ := .pa 0x6000, fn := 1, size := 8, x := 3, fault := f }], poison := if bad then [(0xC00, true)] else [] }
-- R406: LSTATUS and LDONE of slot 0; R277: 5 + 3 at the home, and the launch's count falls
theorem test_launch_complete : gives (.launchComplete 0 7) (done17 [(0, 0)]) (fun t => ofLE (t.homeBytes (0xA000 + 56) 8) == 0x100000000) = true := by decide +kernel
theorem test_red : gives (.redAck 0) (red17 none false) (fun t => ofLE (t.homeBytes 0x6000 8) == 8 && (t.launch 0 7).any (·.count == 3)) = true := by decide +kernel
theorem test_meets_LaunchesRun_ends : met [acts (.doneMessage 0 7 0) (done17 []), !(done17 []).unitsThere 0 7 0, (done17 []).chanFree 0 (treeParent 1 0), (done17 []).sysReady (0xA000 + 56) 8, (treeKids 1 0) == [], inSet 1 0, rootTile 1 == 0, acts (.launchComplete 0 7) (done17 [(0, 0)]),
    acts (.redAck 0) (red17 (some (5, 9)) false), SMap.get [] (red17 none false).resvq (lineOf 0x6000) == [],
    (red17 none false).reds.all fun z => !comesFirst z.time z.who z.time z.who, (red17 none false).homeReady 0 (lineOf 0x6000), acts (.redAck 0) (red17 none true), anyPoison (red17 none true).poison 0x6000 8,
    acts (.redAck 0) (red17 none false)] = true := by decide +kernel

/-! ### Pre-emption and watchdogs -/

/-- The unit of s12 waits in PARK with a request pending, and the partition has a save pool. -/
def s18 : State :=
  let s := waiting (.park (some 0)) (ctxWith s12 fun c => { c with preempt := true, hflags := 4, roles := [1], scratch := 0x800 })
  { s with cfg := { s.cfg with save := [(0, (0x1000000, 0x480000))] }, dieMask := 1 }
/-- Its image, held by the partition, and the entry of its resumption on tile 1. -/
def im18 (ready : Bool) : Parked := { ctx := s18.ctx, threads := [s18.thr], mem := List.replicate 0x100 0, empties := [], bads := [], tile := 1, image := 0x1000000, ready := ready }
def e18 : Entry := { pid := 0, launch := 7, tcb := 0x8040, seq := 0, prio := 0, origin := 0, tready := 0, tile := 1, resume := true }
def parked18 (ready : Bool) (live : Bool) : State :=
  ({ (ctxWith s18 fun c => { c with live := live, roles := [1], scratch := 0x800, tcb := 0x8000 }) with
    parts := [(0, { parked := [im18 ready], launches := [(7, launch12)] })] } : State).modTile 1 fun x => { x with deque := [e18] }
def away18 (m : Away) (s : State) : State := { s with away := [m] }
def m18 : Away := { pid := 0, launch := 7, vtile := 0, off := 0x40, bytes := [1, 2], sync := 0, amt := 0, signal := false }
def wdog18 (step : Nat) (f : Ctx → Ctx) : State :=
  { (ctxWith s12 f) with plumb := 2 ^ 40, parts := [(0, { queues := [(0, { wstep := step })], launches := [(7, launch12)], wdog3 := 0x100 })] }

-- R324: a YIELD whose time has passed completes with 0; R332: the parked unit's entry waits on its last tile
theorem test_yield : gives (.yieldHoldExpiry 0 0 0) (waiting (.yield 0) t0) (fun t => t.thr.retry == some 0 && t.thr.wait == .none) = true := by decide +kernel
theorem test_resumable : gives (.becomeResumable 0 0) (parked18 false false) (fun t => (t.getTile 1).deque.length == 2) = true := by decide +kernel
-- R336: bytes written to an image's scratchpad
theorem test_traffic : gives (.nonresidentTraffic 0) (away18 m18 (parked18 false false)) (fun t => ofLE (t.homeBytes (0x1000000 + 0x10840) 2) == 0x201) = true := by decide +kernel
-- R339: the first step asks the unit to stop
theorem test_wdog : gives (.watchdogStep1 0 0) (wdog18 0 id) (fun t => t.ctx.preempt && ((t.getPart 0).queue 0).wstep == 1) = true := by decide +kernel

theorem test_meets_UnitsAreParkedAndResumed : let z := parked18 true false
    let both := parked18 true true
    met [s18.ctx.live, acts (.preemptRequest 0 0) t0, s18.evictable 0 0, (ctxKeys 0 0).all fun j => (s18.getThread j).defer == [], s18.imagePlace 0 == some 0x1000000,
      !(waiting (.yield 0) t0).evictable 0 0, (im18 false).threads.any ((parked18 false false).wakes (im18 false)), (parked18 false false).readyRoom 1,
      z.tileIssues 1, !z.occupied 1, firstReady z.plumb (z.getTile 1).deque == some e18, z.parkedOf e18 == some (im18 true), (im18 true).ctx.scratch ≤ (z.getTile 1).lsplit * 0x20000,
      both.tileIssues 0, both.folds 0 (im18 true).ctx, (List.range 4).find? (fun j => !(both.getCtx 0 j).live) == some 1,
      (fitBase ((both.getTile 0).lsplit * 0x20000) 0x800 (both.allocs 0)).isSome] = true := by decide +kernel
-- R390: the image reads back, or no copy of it does, and then the context is lost
theorem test_meets_UnitsAreParkedAndResumed_images : let z := parked18 true false
    let bad := { z with poison := [(0x1000000 / 8, true)] }
    met [s18.sysReady 0x1000000 imageSpace, (s18.launch 0 7).all fun x => s18.tcbReady 0 x s18.ctx.tcb, z.unparkReady (im18 true), z.goodImage (im18 true),
      acts (.resume 1) z, bad.unparkReady (im18 true), !bad.goodImage (im18 true),
      gives (.resume 1) bad (fun t => (t.getPart 0).parked == [] && ofLE (t.homeBytes 0x8046 1) == stFAULTED && t.elcount == 1)] = true := by decide +kernel
-- R319: a return reaches a parked caller
theorem test_meets_ThreadsGoOn_parked : let tgt : Caller := { tile := 0, launch := 7, seq := 0, tag := 1 }
    let z := { ctxWith (parked18 false false) (fun c => { c with inbox := {} }) with msgs := [.callRet 5 0 tgt 8] }
    met [z.liveCtxs.find? (fun e => (z.getCtx e.1 e.2).isCaller 0 tgt) == none, (z.getPart 0).parked.any fun y => y.ctx.isCaller 0 tgt && y.copies.all fun a => z.sysReady a (imageSpace / 2),
      acts (.callatReturnDelivery 0) z] = true := by decide +kernel
theorem test_meets_UnitsAreParkedAndResumed_traffic : let here := s18
    let gone := ctxWith s18 fun c => { c with live := false }
    met [here.unitAt 0 7 0 == some (0, 0), here.ctx.inside 0x40 2, acts (.nonresidentTraffic 0) (away18 m18 here), here.ctx.inside 0x10 16,
      acts (.nonresidentTraffic 0) (away18 { m18 with signal := true, sync := 0x10, amt := 2 } here), (parked18 false false).unitAt 0 7 0 == none,
      ((parked18 false false).getPart 0).parkedAt 7 0 == some (im18 false), gone.unitAt 0 7 0 == none, (gone.getPart 0).parkedAt 7 0 == none,
      acts (.nonresidentTraffic 0) (away18 m18 gone)] = true := by decide +kernel
theorem test_meets_UnitsAreParkedAndResumed_watchdog : let none18 := fun step => wdog18 step fun c => { c with launch := 8 }
    let k := wdog18 2 fun c => { c with killed := some (stCANCELLED, 0) }
    met [((wdog18 0 id).getPart 0).oldest 0 == some 7, (wdog18 0 id).wdogDue 0 0 0, (wdog18 0 id).unitsOf 0 7 == [(0, 0)], (none18 0).unitsOf 0 7 == [], acts (.watchdogStep1 0 0) (none18 0),
      (wdog18 1 id).wdogDue 0 0 1, (none18 2).wdogDue 0 0 2, acts (.watchdogStep3 0 0) (none18 2), k.wdogDue 0 0 2, k.unitsOf 0 7 == [(0, 0)]] = true := by decide +kernel

/-! ### The lath -/

/-- Tile 0 late in its life, its neighbour to the east, tile 1, recorded with this vote; the tile itself changed. -/
def s19 (w : Vote) (f : Tile → Tile) : State :=
  ({ t0 with dieMask := 1, plumb := 2 ^ 40 } : State).modTile 0 fun x => f { x with vote := [(1, w.word)] }
def v19 : Vote := { nst := 1, livemap := 10 }
def near19 (m : Neigh) : State := s19 v19 fun x => { x with lath := { x.lath with neigh := [(1, m)] } }
def own19 (st : Nat) (f : Lath → Lath) : State := s19 v19 fun x => { x with fencest := BitVec.ofNat 64 st, lath := f x.lath }
def cast19 (cause : Nat) : State := { s19 v19 id with casts := [{ x := 0, cause := cause, left := [1] }] }
def appeal19 : State := (own19 1 fun x => { x with bist := true, appeal := some 5 }).modTile 1 fun x => { x with vote := [(3, ({ nst := 2 } : Vote).word)] }
def orphan19 : State := { s19 v19 id with msgs := [app14 5], dies := [(0, { knows := [0] })] }

-- R373: the number after 0; R376: the fields of a heartbeat
theorem test_heartbeat : gives (.heartbeatSend 0 1) (s19 v19 id) (fun t => SMap.get 0 t.tile.lath.hseq 1 == 1) = true := by decide +kernel
/-- A heartbeat, or an accusation, is on its way to tile 0. -/
def heard19 : State := { s19 v19 id with beats := [{ dst := 0, dir := 1, tile := 1, hseq := 7, health := 9 }] }
def told19 (v : Vote) : State := { s19 v id with accs := [{ dst := 0, target := 1, who := 2, judge := 1 }] }
theorem test_heard : gives (.heartbeatReceive 0 1 1 7 9) heard19 (fun t => SMap.get 0 t.tile.vote 1 == 0x9_0007_0A01) = true := by decide +kernel
-- R375: the third period without a heartbeat; R377: one of two voters is no majority, two are
theorem test_silent : ({} : Neigh).judge { miss := 2 } 0 0 = (1, 3, 0) := by decide +kernel
theorem test_majority : ((gives (.accusation 0 1 2 1) (told19 v19) fun t => t.casts == []) &&
    gives (.accusation 0 1 2 1) (told19 { v19 with votes := 8 }) fun t => t.casts.any fun c => c.x == 1 && c.cause == 1) = true := by decide +kernel
-- R382: the fence's count of what was discarded; R384: the tile is LIVE after its probation
theorem test_orphan : gives (.orphanDiscard 0) orphan19 (fun t => (t.getTile 5).fencest == 0x100000000) = true := by decide +kernel
theorem test_probation : gives (.probationEnd 0) (own19 2 id) (fun t => t.stOf 0 == 0) = true := by decide +kernel

theorem test_meets_LathSteps : let s := s19 v19 id
    met [s.tileSeen 17 0, neighbour 0 1 == some 1, s.stOf 0 == 0, SMap.get 0 s.tile.lath.sent 1 != s.periodNo 0 + 1, acts (.heartbeatSend 0 1) s, (s.vote 0 1).nst == 1,
      acts (.heartbeatReceive 0 1 1 7 9) heard19, !(s.getDie 0).failed, neighbour 0 0 == none, ((s19 v19 fun x => { x with lath := { x.lath with hbNext := some (5, 2 ^ 40) } }).tile.lath.hbNext == some (5, 2 ^ 40)), 2 ^ 40 ≤ s.plumb,
      acts (.voteExpiry 0 1) (near19 { age := some 4 }), s.periodNo 0 != (s.neigh 0 1).judged, s.tile.lath.hbNext == none, dirTo 0 1 == some 1, dirTo 1 2 == some 1, bit (s.vote 0 1).livemap 1,
      acts (.accusation 0 1 2 1) (told19 v19), ((near19 { age := some 4 }).neigh 0 1).age == some 4, acts (.voteExpiry 0 1) (near19 { age := some 4 }),
      ({ s with absent := [(1, true), (32, true)] } : State).liveAround 0 == [], ({ s with absent := [(1, true), (32, true)] } : State).tileLive 0,
      dieOf 0 != 1, !((cast19 1).getDie 1).knows.contains 0, acts (.fenceLearn 1 0 1) (cast19 1), acts (.fenceLearn 1 0 0) (cast19 0)] = true := by decide +kernel
theorem test_meets_LathSteps_readmission : let ill := own19 1 id
    let late := own19 1 fun x => { x with appeal := some 5 }
    met [orphan19.orphan (app14 5), acts (.orphanDiscard 0) orphan19, ill.stOf 0 == 1, !ill.tile.lath.bist, ill.tile.lath.appeal == none, acts (.bistResult 0 1) ill, acts (.bistResult 0 0) ill,
      appeal19.stOf 0 == 1, appeal19.tile.lath.bist, !SMap.get false appeal19.tile.lath.told 1, appeal19.tileLive 1, (appeal19.vote 1 3).nst == 2, back 1 == 3,
      appeal19.tile.lath.appeal == some 5, acts (.appeal 0 1) appeal19, late.stOf 0 == 1, 5 + 64 * late.tile.period ≤ late.plumb, acts (.appealTimeout 0) late,
      (own19 2 id).stOf 0 == 2, (own19 2 id).tile.lath.prob + 1024 * (own19 2 id).tile.period ≤ (own19 2 id).plumb] = true := by decide +kernel

/-! ### Errors and failures -/

/-- A thread with a result on its way; every agent of part 1 without lines; a link and a port up; no die that can keep a dump. -/
def s20 : State := s14p p14
def full20 : State := { t0 with buckets := [(0, 64)] }
def leak20 : State := { full20 with plumb := 0x40000000 }
def lead20 : State := thrWith t0 fun x => { x with cmpq := some ([5], false) }
/-- A thread of `s6` that the next thread trails; what comes of its store, and the trailing thread at its own. -/
def red20 : State :=
  let s := ctxWith s6 fun c => { c with roles := [1, 7] }
  s.setThread { s.cur with i := s.cur.i + 1 } { s.thr with role := 7 }
def st20 : Instr := .st { } ⟨1, 1, 0, 0, 3, 0, 0⟩
def ahead20 : State := match exec st20 red20 with | .next t => t | _ => red20
def trail20 : State := ahead20.focus { t0.cur with i := t0.cur.i + 1 }
def port20 (spare : Bool) : State := { t0 with portUp := [(3, true)], portSpare := if spare then [(3, true)] else [], d2dUp := [(2, true)] }
def wires20 : State := { port20 false with d2dWires := [(2, 16)] }
def held20 : State := ({ t0 with dieMask := 1 } : State).modDie 0 fun y => { y with dumpFree := false }

-- R387: the error that passes the mark is logged twice, and the bucket leaks one
theorem test_bucket : ((gives (.correctableError 0 0) full20 fun t => t.elcount == 2) &&
    gives (.bucketLeak 0 0) leak20 fun t => t.buckets == [(0, 63)]) = true := by decide +kernel
-- R388: of a double with an error that nobody has found, the first load of it comes with UE and its thread stands for 512 cycles, the next comes with POISON
theorem test_ue : gives (.ld { } ⟨5, 1, 0, 0, 3, 0, 0⟩) { s6 with ues := [.pa 0x4000], poison := [(0x800, true)] } (fun u =>
    u.thr.ueStall.isSome && (u.thr.pend.any fun p => p.cond == some (cUE, 0x4000)) && gives (.ld { } ⟨6, 1, 0, 0, 3, 0, 0⟩) u fun w =>
      w.thr.pend.any fun p => p.cond == some (cPOISON, 0x4000)) = true := by decide +kernel
-- R18: the spare lane first; R393: a dump with no place is counted
theorem test_lane : ((gives (.laneFailure 3) (port20 false) fun t => SMap.get false t.portUp 3) && gives (.portDown 3) (port20 true) fun t => !SMap.get false t.portUp 3) = true := by decide +kernel
theorem test_missed : gives (.fatalDump 4) held20 (fun t => t.stopped && t.store.missed == 1) = true := by decide +kernel

-- R393: the leading thread goes on while its store waits; the same store of the trailing one performs it, another traps SDC in the leading one
theorem test_comparator : met [gives st20 red20 fun t => t.thr.heldStores.length == 1 && t.thr.pc == nextPC red20.thr.pc && t.tile.fifo == [],
    gives st20 trail20 fun t => (t.getThread t0.cur).pend == [] && t.tile.fifo.length == 1 && t.thr.pc == nextPC red20.thr.pc,
    gives st20 (trail20.wr (.s 1) 5) fun t => let x := t.getThread t0.cur
      x.wait == .trap cSDC 0x4000 && x.pc == red20.thr.pc && x.pend == [] && t.thr.wait == .differs && t.tile.fifo == []] = true := by decide +kernel
theorem test_meets_FailuresAreHandled_ahead : let l := checked red20 .w 1 [(0x4000, 8)]
    let full := thrWith red20 fun x => { x with pend := List.replicate 32 { id := 1, pc := 0, what := .held ⟨0, [], [], false⟩, dests := [] } }
    met [l != [], (red20.waits l).isNone, (full.waits l).isNone, !red20.storeBlocked (allPieces l) 0, !full.storeBlocked (allPieces l) 0, !red20.trails, red20.trailed,
      red20.runsAhead l 0, red20.thr.cmpq == none, decide (red20.thr.heldStores.length < 32), decide (32 ≤ full.thr.heldStores.length),
      ahead20.thr.oldest == some ([0x4000, 0x4000, 8, 0x1122334455667788], red20.thr.pc)] = true := by decide +kernel

theorem test_meets_FailuresAreHandled : let part := { t0 with members := 3 }
    met [SMap.get 0 t0.buckets 0 != t0.store.mark.getD 0 64, acts (.correctableError 0 0) t0, SMap.get 0 full20.buckets 0 == full20.store.mark.getD 0 64, acts (.correctableError 0 0) full20,
      full20.store.leak.getD 0 0x40000000 != 0, acts (.bucketLeak 0 0) leak20,
      match s20.pieces s20.me .r (BitVec.ofNat 72 0x4000) 8 with | .ok (x :: _) => x.spot.place == .pa 0x4000 | _ => false,
      s20.thr.life != .idle, s20.ctx.live, acts (.registerUe 0 0 0) s20, lead20.thr.oldest == some ([5], lead20.thr.pc), acts (.sdc 0 0 0 0x4000 1) lead20,
      t0.sdcAt + 2 ^ 36 ≤ ({ t0 with plumb := 2 ^ 36 } : State).plumb, (t0.modDie 1 fun y => { y with failed := true }).getDie 1 |>.failed, !(t0.getDie 1).failed,
      t0.domPos == 0, t0.txns == [], 1 != part.domPos, (List.range 8).all fun e => SMap.get [] part.agents (8 + e) == [] && SMap.get [] part.wbufs (8 + e) == [], acts (.partFail 1) part,
      homePart 0x80 == part.domPos, isDram (128 * 0x80)] = true := by decide +kernel
theorem test_meets_FailuresAreHandled_links : let p := port20 false
    let ok := ({ t0 with dieMask := 1 } : State)
    met [SMap.get false p.portUp 3, !SMap.get false p.portSpare 3, SMap.get false (port20 true).portSpare 3, acts (.portDown 3) p, !SMap.get false p.d2dUp 1, SMap.get false p.d2dUp 2,
      SMap.get 0 p.d2dWires 2 < 16, acts (.d2dWireSpare 2) p, 16 ≤ SMap.get 0 wires20.d2dWires 2, acts (.d2dWireSpare 2) wires20,
      (List.range 8).all fun e => !bit held20.dieMask e || (held20.getDie e).failed || !(held20.getDie e).dumpFree, bit ok.dieMask 0, !(ok.getDie 0).failed, (ok.getDie 0).dumpFree] = true := by
  decide +kernel

/-! ### The platform and register writes -/

/-- A mailbox command in hand, with an argument. -/
def box21 (cmd a : Nat) : State := { t0 with mbSt := 1, mbCmd := cmd, mbArg0 := BitVec.ofNat 64 a }
/-- A key record at host address 0 with sequence number 5, as far as its fields go. -/
def key21 : State := { box21 6 0 with mem := [(0x8000000000000, 0x48), (0x8000000000001, 0x58), (0x8000000000002, 0x4F), (0x8000000000003, 0x31), (0x8000000000004, 1), (0x8000000000008, 5)] }

-- R19, R420: a limit passed; R410: the mailbox's errors
theorem test_throttle : ((gives (.powerSample 7201 0 0) t0 fun t => t.throttle == 1) && gives (.powerSample 0 0 99) { t0 with throttle := 1 } fun t => t.throttle == 0) = true := by decide +kernel
theorem test_mailbox : ((gives .partcfg (box21 2 8) fun t => t.mbSt == 3 && t.mbErr == 3) && gives .dumpack (box21 5 0) fun t => t.mbErr == 1) = true := by decide +kernel

theorem test_meets_PlatformSteps : let d := { box21 5 0 with newest := some 0 }
    met [t0.plumb % 64 == 0, acts (.currentMonitorSample 0 901) t0, acts (.currentMonitorSample 0 981) t0, t0.plumb % 2 ^ 14 == 0, !t0.monActed, acts (.powerSample 0 0 101) t0,
      acts (.powerSample 0 0 110) t0, !hasAlt 0, hasAlt 1, hostOk 0 64, hostOk (box21 1 0).mbArg1.toNat 512, !hostOk (2 ^ 51) 64, acts .attest (box21 1 (2 ^ 51)),
      8 % 64 != 0, acts .partcfg (box21 2 8), acts .clearsr (box21 4 0), d.newest == some 0, acts .dumpack d, acts .dumpack (box21 5 0), !hostOk (2 ^ 51) 320, acts .opkey (box21 6 (2 ^ 51))] = true := by
  decide +kernel
-- the clauses of a command that carries a signature hold whatever the check answers (log 11); their other conditions
theorem test_meets_PlatformSteps_records : let k := key21.hostRead 0 320
    let r := (box21 2 0).hostRead 0 (recordLen ((box21 2 0).hostRead 0 8))
    met [hostOk 0 320, cutAt k 0 4 == [0x48, 0x58, 0x4F, 0x31], leAt k 4 2 == 1, leAt k 6 2 == 0, leAt k 148 32 == 0, leAt k 312 8 == 0, key21.store.kseq < leAt k 8 8,
      hostOk 0 (recordLen r + 196), leAt r 6 2 ≤ 4096] = true := by decide +kernel

/-- A queue that is free, at 0x1FC000, and one that is enabled with 16 slots. -/
def lq22 : State := { t0 with parts := [(0, { queues := [(0, { base := 0x7F00 }), (1, { en := true, log2n := 4, base := 5 })] })] }
def wide22 : State := { t0 with lanes := 16 }
def mu22 : State := ctxWith t0 fun c => { c with mu := { c.mu with stop := true } }

-- R407: a doorbell beyond the ring is ignored; R352: a lease is at least 256; R315: a period is at least 0x400
theorem test_doorbell : ((gives (.launchQueueTailWrite 0 1 16) lq22 fun t => ((t.getPart 0).queue 1).tail == 16) && gives (.launchQueueTailWrite 0 1 17) lq22 fun t => ((t.getPart 0).queue 1).tail == 0) =
    true := by decide +kernel
theorem test_lease : ((gives (.leaseWrite 0 5) t0 fun t => (t.getPart 0).lease == 256) && gives (.balWrite 0 0x0500000100) t0 fun t => (t.getPart 0).bal == 0x0500000400) = true := by decide +kernel

theorem test_meets_RegisterWritesAct : let part := t0.getPart 0
    let x : LQ := (lq22.getPart 0).queue 0
    let w := x.double 0 / 2 * 2 + 1
    met [(16 + 2 ^ 32 - 0) % 2 ^ 32 ≤ 16, !x.en, bits w 1 5 ≤ 16, isDram (64 * bits w 6 46), lq22.ownsRange 0 (64 * bits w 6 46) (64 * 2 ^ bits w 1 5), acts (.launchQueueEnable 0 0 1 0) lq22,
      acts (.launchQueueDescWrite 0 0 16 5 0) lq22, ((lq22.getPart 0).queue 1).en, bits 0 6 46 != ((lq22.getPart 0).queue 1).base, acts (.eventRingHeadWrite 0 (2 ^ 32 - 1)) t0,
      !part.ring.en, bits 0x8001 1 5 ≤ 16, isDram (64 * bits 0x8001 6 46), t0.ownsRange 0 (64 * bits 0x8001 6 46) (32 * 2 ^ bits 0x8001 1 5), acts (.eventRingDescWrite 0 0x8001) t0,
      part.nodes == [], part.poolUsed == 0, t0.ownsRange 0 (bits 0x10002 16 36 * 65536) (bits 0x10002 1 15 * 0x4000000), acts (.lpoolWrite 0 0x10002) t0,
      t0.scratchNeed 0 ≤ 2 * 0x20000, acts (.lsplitWrite 0 2) t0, 1 % 4 != t0.tile.lgrp, acts (.lgrpWrite 0 1) t0, acts (.rlimitWrite 0 0 3) t0, acts (.hbperWrite 0 0x000A001F) t0,
      acts (.histWrite 0 3 7) t0, mu22.ctx.mu.stop, acts (.mprWrite 0 0 9) mu22, acts (.ptbrWrite 0 0 0x3002) t0, acts (.lsegWrite 0 0 0 0x40) t0, acts (.tsrWrite 0 0 0 0x100) t0,
      packageView 16, t0.mbSt != 1, t0.lanes == 0, wide22.lanes != 0, acts (.registerWrite 0x40010 9 16) wide22, acts (.registerWrite 0x40000 3 16) wide22] = true := by decide +kernel

/-! ### Further hypotheses of the statements -/

theorem test_meets_FullEmptyAndHints_dram : let f : FM := ⟨5, 3, 0, 0, 3, 0, 0⟩
    let full : State := { s6 with empty := [] }
    let down := seta ((poke s6 0x1010 (toLE 8 (2 ^ 37 + 0x1D))).modDie 1 fun y => { y with failed := true }) [(3, 0x80000000)]
    let l := checked s6 .r 8 [(s6.ea f, 8)]
    met [!s6.begun.sealedIn (allPieces l), !s6.begun.ordHeld 0, !SMap.get false full.empty (0x4080 / 8), goes (.lds { } f) full 0x108 { } [.s 5, .s 0],
      placeOf (checked down .r 8 [(down.ea f, 8)]) == .pa (2 ^ 37), down.homeFailed (2 ^ 37), down.homeReady 0 (lineOf (2 ^ 37)), goes (.lds { } f) down 0x108 { } [.s 5, .s 0], goes (.feq { } f) down 0x10B { } [.s 5, .s 0]] = true := by decide +kernel
-- an SC whose reservation is broken fails, and the thread holds none after it
theorem test_meets_AtomicsAndReservations_broken : let f : FAtom := ⟨5, 1, 1, 0, 0, 3, 0, 0⟩
    let lost := thrWith s7q fun x => { x with resv := x.resv.map fun r => { r with broken := true } }
    met [!s7q.begun.placeFailed (.pa 0x4000), lost.thr.resv.isSome, !lost.thr.reserves 0 (.pa 0x4000) 8, atomicNow lost (lost.eaAtom f) 8 0,
      gives (.sc { } f) lost fun t => t.thr.resv.isNone && t.thr.pend.any fun p => p.dests.any fun d => d.v == 1, s7.reds == []] = true := by decide +kernel
theorem test_meets_MessagesMonitorsAndFences_bound : met [!s6.thr.unbound, !s6.begun.hasRed s6.cur] = true := by decide +kernel
theorem test_meets_MatrixCommands_boundary : let s := s9q { op := 0x285, acc := 0, row := 1, data := 7 }
    met [s.engGoes s.cur.t s.cur.c false, s.ctx.mu.q.all fun c => !c.spoilt] = true := by decide +kernel
theorem test_meets_TaskInstructions_room : met [tcb12 0x8040 == s12.begun.tcbSeen launch12 0x8040 (tcb12 0x8040), !s12.begun.sysHeld 0 launch12.ptbr.toNat (launch12.codebase + tcbEntry (tcb12 0x8040)) 64,
    (s12.begun.wordSeen (targetB s12.thr.pc 0 4)).released 3, (s12.begun.wordSeen (targetB s12.thr.pc 0 4)).chanFree 0 0] = true := by decide +kernel
theorem test_meets_HawkAndTrowel_words : let l := checked s13 .r 1 ((List.range 2).map fun j => (s13.ra 1 + BitVec.ofNat 72 (8 * j), 8))
    met [!l.isEmpty, !s13.begun.sealedIn (allPieces l), !s13.begun.poisoned (allPieces l)] = true := by decide +kernel
/-- A load of 8 bytes at 0x4000 that is not bound yet. -/
def s22 : State := s14p { p14 with load := some { parts := [(0x4000, 8, 0)] } }
theorem test_meets_ThreadsGoOn_late : met [p14.load.isNone, !s22.sealedIn [{ spot := { place := .pa 0x4000 }, n := 8 }], s22.thr.pend.any (·.load.isSome),
    s6.thr.defer == [], s6.muStop.isNone, !s6.owesResults, acts (.wrsWake 0 0 0) (waiting (.wrsMet (.pa 0x4000)) s6), !s6.poisoned [{ spot := { place := .pa 0x4000 }, n := 8 }]] = true := by decide +kernel
theorem test_meets_LinesMove_room : s15.tile.cacheRoom 0x80 = true ∧ { s15.tile with lsplit := 8 }.cacheRoom 0x80 = false := by decide +kernel
-- a unit whose eviction is due, at rest or not; a unit that refuses what comes for it
theorem test_meets_UnitsAreParkedAndResumed_rest : let busy := thrWith s18 fun x => { x with pend := [p14] }
    let left := ctxWith s18 fun c => { c with leaving := true }
    met [!s18.stopped, s18.ctx.killed.isNone, s18.atRest 0 0, left.ctx.leaving, left.atRest 0 0, !(ctxWith busy fun c => { c with leaving := true }).atRest 0 0,
      !(waiting (.yield 0) t0).ctx.leaving, s18.ctx.refuses { m18 with off := 0x7FF, bytes := [1, 2], signal := true, sync := 0x7FF }, !(im18 false).ctx.refuses m18] = true := by decide +kernel
theorem test_meets_LathSteps_quorum : let v : Vote := { v19 with votes := 10, judge := 1 }
    met [(s19 v id).vote 0 1 == v, 1 < v.voters, v.voters / 2 + 1 ≤ v.cast, (s19 v id).casts == [], (s19 v id).stOf 1 == 0, !(own19 1 fun x => { x with appeal := some 5 }).readmits 0] = true := by decide +kernel
-- a part whose modified line is in a cache, or on its way back
theorem test_meets_FailuresAreHandled_lost : let back : State := { s15m with agents := [], wbufs := [(8, [(0x80, ({ st := .m, data := 5, pid := 0 }, false))])] }
    met [1 != s15m.domPos, homePart 0x80 == s15m.domPos, isDram (128 * 0x80), SMap.find (SMap.get [] s15m.agents 8) 0x80 == some { st := .m, data := 5, pid := 0 },
      gives (.partFail 1) s15m fun t => SMap.get false t.poison (16 * 0x80), gives (.partFail 1) back fun t => SMap.get false t.poison (16 * 0x80 + 15),
      !SMap.get false t0.portUp 5, t0.sysReady (hostAt 0) 512, t0.moveReady t0.cfg] = true := by decide +kernel

end Sys2Proof.Tests
end

section
/-! PROOFS. The control and status registers: what CSRW and CSRX write (R4, R5, R89). -/

namespace Sys2Proof.Machine

/-! ### The thread and the context in focus -/

theorem bits_low (v n : Nat) : bits v 0 n = v % 2 ^ n := by simp [bits]

theorem State.modThread_cur (s : State) (f : Thread → Thread) : s.modThread s.cur f = { s with thr := f s.thr } := by
  simp [State.modThread, State.setThread, State.getThread]

theorem State.modCtx_cur (s : State) (f : Ctx → Ctx) : s.modCtx s.cur.t s.cur.c f = { s with ctx := f s.ctx } := by
  simp [State.modCtx, State.setCtx, State.getCtx]

/-! ### Reads and writes of the registers -/

/-- A CSR reads the same once a wait is over. -/
@[simp] theorem State.csr_begun (s : State) (n : Nat) : s.begun.csr n = s.csr n := rfl

theorem csrPriv_passed {n lvl : Nat} {s : State} (h : lvl ≤ s.thr.priv) : csrPriv n lvl s = none := if_neg (by omega)

/-- R4, R5. A register that only F writes stays as it is below F. -/
theorem State.csrWrite_fw {s : State} {n : Nat} (v : Nat) (hn : csrFw n = true) (hp : s.thr.priv ≠ 2) : s.csrWrite n v = s := by
  have h : (csrFw n && s.thr.priv != 2) = true := by simp [hn, hp]
  unfold State.csrWrite
  exact if_pos h

theorem State.csrWrite_tcause (s : State) (v : Nat) :
    s.csrWrite 0x001 v = { s with thr := { s.thr with tcause := BitVec.ofNat 64 (v % 256) } } := by
  rw [show v % 256 = bits v 0 8 from (bits_low v 8).symm]; rfl

theorem State.csrWrite_lseg (s : State) (v : Nat) :
    s.csrWrite 0x00B v = { s with thr := { s.thr with lseg := BitVec.ofNat 72 (v / 64 % 2 ^ 14 * 64) } } := by
  change s.lsegWrite s.cur v = _
  rw [State.lsegWrite, State.modThread_cur]
  rfl

theorem State.csrWrite_tsr (s : State) (v : Nat) :
    s.csrWrite 0x100 v = { s with thr := { s.thr with
      tsr := (BitVec.ofNat 64 v &&& 0xFF01) ||| (s.thr.tsr &&& 0x6 &&& ~~~(BitVec.ofNat 64 v)) } } := by
  change s.tsrWrite s.cur v = _
  rw [State.tsrWrite, State.modThread_cur]
  rfl

theorem State.csrWrite_rlimit (s : State) (v : Nat) :
    s.csrWrite 0x20B v = { s with ctx := { s.ctx with rlimit := max (v % 256) 1 } } := by
  change s.rlimitWrite s.cur.t s.cur.c v = _
  rw [State.rlimitWrite, State.modCtx_cur, bits_low]
  rfl

theorem State.csrWrite_pid {s : State} (v : Nat) (hp : s.thr.priv = 2) :
    s.csrWrite 0x201 v = { s with ctx := { s.ctx with pid := v % 16 } } := by
  have h : ¬(csrFw 0x201 && s.thr.priv != 2) = true := by simp [hp]
  rw [show v % 16 = bits v 0 4 from (bits_low v 4).symm]
  unfold State.csrWrite
  exact if_neg h

/-! ### CSRW and CSRX -/

/-- CSRX's combination of s[A] and the old low 64 bits, by `FN` (R89). -/
def csrMix (fn : Nat) (lo x : Word) : Word := if fn = 0 then x else if fn = 1 then lo ||| x else lo &&& ~~~x

theorem csrSwap_eq (s : State) (f : FRI) :
    csrSwap s f = .done (((s.csrWrite f.imm (s.csr f.imm / 2 ^ 64 * 2 ^ 64 +
      (csrMix f.fn (BitVec.ofNat 64 (s.csr f.imm)) (s.rs f.a)).toNat)).ackTrap f.imm).ws f.d (BitVec.ofNat 64 (s.csr f.imm))) := by
  have hlo : BitVec.ofNat 64 (s.csr f.imm % 2 ^ 64) = BitVec.ofNat 64 (s.csr f.imm) :=
    BitVec.eq_of_toNat_eq (by simp only [BitVec.toNat_ofNat, Nat.mod_mod])
  unfold csrSwap csrMix
  dsimp only
  rw [hlo]
  split
  case h_1 h => simp only [h, if_true]
  case h_2 h => simp [h]
  case h_3 h0 h1 =>
    rw [if_neg h0, if_neg h1, BitVec.toNat_and, BitVec.toNat_ofNat, BitVec.ofNat_toNat, BitVec.setWidth_eq]

theorem csrw_becomes (s : State) (k : Ctl) (f : FRI) (hp : csrWriteLvl f.imm ≤ s.thr.priv) :
    Becomes (.csrw k f) s 0x343 k (if f.fn = 0 then [.s f.a] else [])
      (s.begun.csrWrite f.imm (if f.fn = 0 then (s.rs f.a).toNat else (s.ra f.a).toNat)) := by
  intro hr p hf
  exact congrArg Host.Outcome.next (issue_becomes hr (csrPriv_passed hp) rfl hf)

theorem csrx_becomes (s : State) (k : Ctl) (f : FRI) (hr : csrReadLvl f.imm ≤ s.thr.priv) (hw : csrWriteLvl f.imm ≤ s.thr.priv) :
    Becomes (.csrx k f) s 0x344 k [.s f.d, .s f.a] (((s.begun.csrWrite f.imm (s.csr f.imm / 2 ^ 64 * 2 ^ 64 +
      (csrMix f.fn (BitVec.ofNat 64 (s.csr f.imm)) (s.rs f.a)).toNat)).ackTrap f.imm).ws f.d (BitVec.ofNat 64 (s.csr f.imm))) := by
  intro h p hf
  have hb := csrSwap_eq s.begun f
  rw [State.csr_begun, State.rs_begun] at hb
  exact congrArg Host.Outcome.next (issue_becomes h (csrPriv_passed (Nat.max_le.2 ⟨hr, hw⟩)) hb hf)

/-- Settles O36, from what CSRW and CSRX come to and one equation per register. -/
theorem csrWrites : Obligations.CsrWrites := by
  unfold Obligations.CsrWrites
  intro s k f v
  exact ⟨csrw_becomes s k f, csrx_becomes s k f, rfl, s.csrWrite_tcause v, rfl, rfl, s.csrWrite_lseg v, rfl,
    s.csrWrite_tsr v, s.csrWrite_rlimit v,
    fun hp => ⟨State.csrWrite_fw v rfl hp, State.csrWrite_fw v rfl hp, State.csrWrite_fw v rfl hp⟩,
    State.csrWrite_pid v⟩

end Sys2Proof.Machine
end

section
/-! PROOFS. Power and current control, cold reset and start-up, and the mailbox commands (R19, R350, R408 to R411, R416 to R420). -/

namespace Sys2Proof.Machine

/-! ### Power (R19, R419) -/

section
variable {s : State} {amps : Nat}

/-- A sample when it is due, by the turns that it withholds. -/
theorem currentMonitor_due (d : Nat) {w : Nat} (h : s.plumb % 64 = 0)
    (hw : (if 980 < amps then 2 else if 900 < amps then 1 else 0) = w) : exec (.currentMonitorSample d amps) s =
      .next { s.modDie d (fun y => { y with withhold := w }) with monActed := s.monActed || w != 0 } := by
  subst hw
  exact congrArg Host.Outcome.next (if_neg (not_not.2 h))

theorem currentMonitor_below (d : Nat) (h : s.plumb % 64 = 0) (ha : amps ≤ 900) :
    exec (.currentMonitorSample d amps) s = .next (s.modDie d fun y => { y with withhold := 0 }) := by
  have hm : (s.monActed || 0 != 0) = s.monActed := Bool.or_false _
  rw [currentMonitor_due d h (by rw [if_neg (by omega), if_neg (by omega)]), hm]
  rfl

theorem currentMonitor_above900 (d : Nat) (h : s.plumb % 64 = 0) (ha : 900 < amps) (hb : amps ≤ 980) :
    exec (.currentMonitorSample d amps) s =
      .next { s.modDie d (fun y => { y with withhold := 1 }) with monActed := true } := by
  have hm : (s.monActed || 1 != 0) = true := Bool.or_true _
  rw [currentMonitor_due d h (by rw [if_neg (by omega), if_pos ha]), hm]

theorem currentMonitor_above980 (d : Nat) (h : s.plumb % 64 = 0) (ha : 980 < amps) :
    exec (.currentMonitorSample d amps) s =
      .next { s.modDie d (fun y => { y with withhold := 2 }) with monActed := true } := by
  have hm : (s.monActed || 2 != 0) = true := Bool.or_true _
  rw [currentMonitor_due d h (if_pos ha), hm]

variable {watts temp : Nat}

/-- A sample when it is due, after a period in which the monitor has not acted. -/
theorem powerSample_due (h : s.plumb % 2 ^ 14 = 0) (hm : s.monActed = false) : exec (.powerSample amps watts temp) s =
    .next (
      let r : State := { s with
        throttle := if 7200 < amps || 3450 < watts || 100 < temp then min 8 (s.throttle + 1)
          else if amps < 7200 && watts < 3450 && temp < 100 then s.throttle - 1 else s.throttle
        acted := 0, monActed := false }
      if 110 ≤ temp then r.fatalDump 2 else r) := by
  rw [exec_powerSample, execPowerSample, if_neg (not_not.2 h), hm]
  rfl

theorem powerSample_over (h : s.plumb % 2 ^ 14 = 0) (hm : s.monActed = false) (ht : temp < 110)
    (ho : 7200 < amps ∨ 3450 < watts ∨ 100 < temp) : exec (.powerSample amps watts temp) s =
      .next { s with throttle := min 8 (s.throttle + 1), acted := 0, monActed := false } := by
  have hb : (7200 < amps || 3450 < watts || 100 < temp) = true := by simpa [or_assoc] using ho
  rw [powerSample_due h hm, if_neg ht.not_ge, if_pos hb]

theorem powerSample_under (h : s.plumb % 2 ^ 14 = 0) (hm : s.monActed = false) (ha : amps < 7200) (hw : watts < 3450)
    (ht : temp < 100) : exec (.powerSample amps watts temp) s =
      .next { s with throttle := s.throttle - 1, acted := 0, monActed := false } := by
  have hb : ¬(7200 < amps || 3450 < watts || 100 < temp) = true := by simp; omega
  have hu : (amps < 7200 && watts < 3450 && temp < 100) = true := by simp [ha, hw, ht]
  rw [powerSample_due h hm, if_neg (by omega), if_neg hb, if_pos hu]

theorem powerSample_fatal (h : s.plumb % 2 ^ 14 = 0) (hm : s.monActed = false) (ht : 110 ≤ temp) :
    exec (.powerSample amps watts temp) s = .next (({ s with
      throttle := min 8 (s.throttle + 1), acted := 0, monActed := false } : State).fatalDump 2) := by
  have hb : (7200 < amps || 3450 < watts || 100 < temp) = true := by simp; omega
  rw [powerSample_due h hm, if_pos ht, if_pos hb]

end

/-! ### Start-up (R416 to R418) -/

/-- A step that has not failed before is passed when it does not fail. -/
theorem stepResult_passes (i b plumb : Nat) : stepResult i (0, 0, b, plumb) false true = (2, 0, 0) := by
  simp [stepResult]

theorem stepResult_fails {i : Nat} (b plumb : Nat) (h : hasAlt i = false) :
    stepResult i (0, 0, b, plumb) true false = (3, 1, 0) := by
  simp only [stepResult, h]; rfl

theorem stepResult_alternative {i : Nat} (b plumb : Nat) (bad : Bool) (h : hasAlt i = true) :
    stepResult i (0, 0, b, plumb) true bad = (if bad then 3 else 4, 1, 1) := by
  cases bad <;> simp only [stepResult, h] <;> rfl

section
variable (fails : Nat → Bool × Bool) (i plumb : Nat) (r : List Nat) (old : SMap (Nat × Nat × Nat × Nat))

/-- A step's entry once it has been run. -/
def stepEntry : Nat × Nat × Nat × Nat :=
  let e := stepResult i (SMap.get (0, 0, 0, 0) old (i - 1)) (fails i).1 (fails i).2
  (e.1, e.2.1, e.2.2, plumb)

theorem runSteps_cut : runSteps fails i plumb (i :: r) old =
    (SMap.set (0, 0, 0, 0) old (i - 1) (1, (SMap.get (0, 0, 0, 0) old (i - 1)).2), true) :=
  if_pos rfl

theorem runSteps_goes_on {cut : Nat} (hc : cut ≠ i) (h : (stepEntry fails i plumb old).1 ≠ 3 ∨ stopsPart i = false) :
    runSteps fails cut plumb (i :: r) old =
      runSteps fails cut plumb r (SMap.set (0, 0, 0, 0) old (i - 1) (stepEntry fails i plumb old)) := by
  have hn : ¬((stepEntry fails i plumb old).1 = 3 ∧ stopsPart i = true) := by
    rcases h with h | h <;> simp [h]
  exact (if_neg hc.symm).trans (if_neg hn)

theorem runSteps_stops {cut : Nat} (hc : cut ≠ i) (h : (stepEntry fails i plumb old).1 = 3) (hs : stopsPart i = true) :
    runSteps fails cut plumb (i :: r) old = (SMap.set (0, 0, 0, 0) old (i - 1) (stepEntry fails i plumb old), true) :=
  (if_neg hc.symm).trans (if_pos ⟨h, hs⟩)

end

/-! ### Cold reset (R4, R416 to R418) -/

theorem Persist.boots_scrim (st : Persist) (ph : Nat) : (st.scrim ph).boots = st.boots := by
  unfold Persist.scrim
  split
  · rfl
  · split <;> rfl

/-- The tests of start-up step 6 change the scrim map alone. -/
theorem boots_startTiles (st : Persist) (f : Fails) : (startTiles st f).boots = st.boots := by
  unfold startTiles
  refine List.foldlRecOn (motive := fun r : Persist => r.boots = st.boots) _ _ rfl fun r hr t _ => ?_
  dsimp only
  split
  · rw [Persist.boots_scrim, hr]
  · exact hr

/-- At most the tiles differ. -/
def OnlyTiles (s t : State) : Prop := ∃ y m, t = { s with tile := y, tiles := m }

theorem onlyTiles_modTile (s : State) (t : Nat) (f : Tile → Tile) : OnlyTiles s (s.modTile t f) := by
  unfold State.modTile State.setTile
  split <;> exact ⟨_, _, rfl⟩

theorem onlyTiles_foldl (l : List Nat) (g : Nat → Tile → Tile) (s : State) :
    OnlyTiles s (l.foldl (fun r t => r.modTile t (g t)) s) := by
  induction l generalizing s with
  | nil => exact ⟨_, _, rfl⟩
  | cons t l ih =>
    obtain ⟨y, m, h⟩ := onlyTiles_modTile s t (g t)
    obtain ⟨y', m', h'⟩ := ih (s.modTile t (g t))
    exact ⟨y', m', h'.trans (by rw [h])⟩

/-- What start-up leaves as the reset had it. -/
theorem State.startUp_keeps (s : State) (f : Fails) (e : SMap (Nat × Nat × Nat × Nat)) :
    (s.startUp f e).mem = s.mem ∧ (s.startUp f e).agenda = s.agenda ∧ (s.startUp f e).thr = s.thr ∧
    (s.startUp f e).ctx = s.ctx ∧ (s.startUp f e).parts = s.parts ∧ (s.startUp f e).plumb = s.plumb ∧
    (s.startUp f e).store.boots = s.store.boots ∧ (s.startUp f e).version = s.version ∧ (s.startUp f e).started = true := by
  have h : OnlyTiles _ (s.startUp f e) := onlyTiles_foldl _ _ _
  obtain ⟨y, m, h⟩ := h
  rw [h]
  exact ⟨rfl, rfl, rfl, rfl, rfl, rfl, rfl, rfl, rfl⟩

/-- The state in which the start-up steps have left `e` for the record: the reset state with a persistent store, and with what a
cold reset keeps of `s`. -/
def State.cleared (s : State) (base st : Persist) (e : SMap (Nat × Nat × Nat × Nat)) : State :=
  { State.reset with
    mem := s.mem.filter fun x => isHost x.1, agenda := s.agenda, store := { st with start := e }, older := base, version := s.version + 1 }

/-- A cold reset counts a boot, and ends with the part stopped or started. -/
theorem State.coldReset_eq (s : State) (f : Fails) : ∃ (base st : Persist) (y : SMap (Nat × Nat × Nat × Nat) × Bool), st.boots = s.store.boots + 1 ∧
    s.coldReset f = if y.2 then { s.cleared base st y.1 with stopped := true } else (s.cleared base st y.1).startUp f y.1 := by
  refine ⟨_, _, _, ?_, rfl⟩
  rw [boots_startTiles]

theorem State.coldReset_keeps (s : State) (f : Fails) : ∃ u, exec (.coldReset f) s = .next u ∧
    u.mem = s.mem.filter (fun e => isHost e.1) ∧ u.agenda = s.agenda ∧ u.thr = State.reset.thr ∧ u.ctx = State.reset.ctx ∧
    u.parts = State.reset.parts ∧ u.plumb = State.reset.plumb ∧ u.store.boots = s.store.boots + 1 ∧ u.version = s.version + 1 ∧
    (u.started = true ∨ u.stopped = true) := by
  obtain ⟨base, st, y, hb, hu⟩ := s.coldReset_eq f
  refine ⟨_, (exec_coldReset f s).trans (congrArg Host.Outcome.next hu), ?_⟩
  split
  · exact ⟨rfl, rfl, rfl, rfl, rfl, rfl, hb, rfl, .inr rfl⟩
  · obtain ⟨hmem, hag, hthr, hctx, hparts, hpl, hboots, hver, hst⟩ := (s.cleared base st y.1).startUp_keeps f y.1
    exact ⟨hmem, hag, hthr, hctx, hparts, hpl, hboots.trans hb, hver, .inl hst⟩

/-! ### Mailbox commands (R408 to R411) -/

theorem State.command_inHand {s : State} {c : Nat} (f : State → State) (h : s.mbSt = 1) (hc : s.mbCmd = c) :
    s.command c f = f s :=
  if_pos ⟨h, hc⟩

/-- The record that PARTCFG names, its signature and the bytes that pad it (R409). -/
def State.partBytes (s : State) : List Byte := s.hostRead s.mbArg0.toNat (recordLen (s.hostRead s.mbArg0.toNat 8))
def State.partSig (s : State) : List Byte :=
  s.hostRead (s.mbArg0.toNat + recordLen (s.hostRead s.mbArg0.toNat 8)) 132
def State.partPad (s : State) : List Byte :=
  let n := recordLen (s.hostRead s.mbArg0.toNat 8)
  s.hostRead (s.mbArg0.toNat + n + 132) ((64 - (n + 132) % 64) % 64)
def State.partSigned (s : State) : Bool :=
  Config.ecdsaOk s.store.opKey.1 s.store.opKey.2 s.partBytes (beAt s.partSig 0 66) (beAt s.partSig 66 66)

/-- The configuration that the record gives on the dies that are present. -/
def State.partLive (s : State) : PConfig := (recordOf s.partBytes).limit s.dieMask

/-- Every partition that the record would change has completed its launches, and the check of that (R350). -/
def State.PartIdle (s : State) : Prop :=
  ∀ p < 16, s.cfg.shareOf p ≠ s.partLive.shareOf p → ∀ e ∈ (s.getPart p).launches, e.2.complete = true
def State.partBusy (s : State) : Bool :=
  ((List.range 16).filter fun p => s.cfg.shareOf p != s.partLive.shareOf p).any fun p =>
    (s.getPart p).launches.any fun e => !e.2.complete

theorem State.partBusy_eq_false (s : State) : s.partBusy = false ↔ s.PartIdle := by
  simp [State.partBusy, State.PartIdle]

/-- The state after the resources have moved to the record's configuration. -/
def State.partMoved (s : State) : State :=
  let r := s.moveAll s.partLive
  let views := (List.range 17).filter fun v => s.capList v != r.capList v
  ({ r with capGen := views.foldl (fun m v => SMap.set 0 m v ((SMap.get 0 m v + 1) % 65536)) r.capGen } : State).putStore
    { r.store with record := some (recordOf s.partBytes) }

/-- The record that OPKEY names, and whether the operator's present key signs it (R411). -/
def State.keyBytes (s : State) : List Byte := s.hostRead s.mbArg0.toNat 320
def State.opkeySigned (s : State) : Bool :=
  Config.ecdsaOk s.store.opKey.1 s.store.opKey.2 (s.keyBytes.take 180) (beAt s.keyBytes 180 66) (beAt s.keyBytes 246 66)

section
variable {s : State} (h : s.mbSt = 1)
include h

theorem attest_reports (hc : s.mbCmd = 1) (ha : hostOk s.mbArg0.toNat 64 = true) (hb : hostOk s.mbArg1.toNat 512 = true)
    (hr : s.sysReady (hostAt s.mbArg1.toNat) 512 = true) :
    exec .attest s =
      .next (s.homeStore 0 (hostAt s.mbArg1.toNat) (s.report (s.hostRead s.mbArg0.toNat 64))).mbDone := by
  change execAttest s = _
  simp [execAttest, State.command_inHand _ h hc, ha, hb, hr]

theorem attest_refuses (hc : s.mbCmd = 1) (ha : hostOk s.mbArg0.toNat 64 = false) : exec .attest s = .next (s.mbFail 1) := by
  change execAttest s = _
  simp [execAttest, State.command_inHand _ h hc, ha]

theorem dump_done (hc : s.mbCmd = 3) : exec .dump s = .next (s.fatalDump 4).mbDone :=
  congrArg Host.Outcome.next (State.command_inHand _ h hc)

theorem clearsr_done (hc : s.mbCmd = 4) : exec .clearsr s = .next (s.putStore { s.store with
    start := (SMap.map (fun _ (e : Nat × Nat × Nat × Nat) => (e.1, 0, 0, e.2.2.2)) s.store.start).filter
      fun e => e.2 ≠ (0, 0, 0, 0) }).mbDone :=
  congrArg Host.Outcome.next (State.command_inHand _ h hc)

theorem dumpack_none (hc : s.mbCmd = 5) (hn : s.newest = none) : exec .dumpack s = .next (s.mbFail 1) := by
  change execDumpack s = _
  simp [execDumpack, State.command_inHand _ h hc, hn]

theorem dumpack_some (hc : s.mbCmd = 5) {d : Nat} (hn : s.newest = some d) : exec .dumpack s =
    .next (({ s with newest := none } : State).modDie d fun y => { y with dumpFree := true }).mbDone := by
  change execDumpack s = _
  simp [execDumpack, State.command_inHand _ h hc, hn]

/-! PARTCFG (R409, R350): the checks in their order. -/

theorem partcfg_checks (hc : s.mbCmd = 2) : exec .partcfg s = .next (
    if s.mbArg0.toNat % 64 ≠ 0 ∨ hostOk s.mbArg0.toNat (recordLen (s.hostRead s.mbArg0.toNat 8) + 196) = false ∨
      4096 < leAt s.partBytes 6 2 then s.mbFail 3
    else if !s.partSigned then s.mbFail 1
    else if !recordFormOk s.partBytes s.partPad || !(recordOf s.partBytes).ok s.domPos then s.mbFail 3
    else if (recordOf s.partBytes).pseq ≤ (s.store.record.getD (PConfig.manufacture s.domPos)).pseq then s.mbFail 4
    else if s.partBusy then s.mbFail 2
    else if !s.moveReady s.partLive then s
    else s.partMoved.mbDone) :=
  congrArg Host.Outcome.next (State.command_inHand _ h hc)

section
variable (hc : s.mbCmd = 2) (ha : s.mbArg0.toNat % 64 = 0)
  (ho : hostOk s.mbArg0.toNat (recordLen (s.hostRead s.mbArg0.toNat 8) + 196) = true) (hn : leAt s.partBytes 6 2 ≤ 4096)

theorem partcfg_misaligned (hc : s.mbCmd = 2) (ha : s.mbArg0.toNat % 64 ≠ 0) : exec .partcfg s = .next (s.mbFail 3) := by
  rw [partcfg_checks h hc, if_pos (.inl ha)]

include hc ha ho hn

theorem partcfg_unsigned (hs : s.partSigned = false) : exec .partcfg s = .next (s.mbFail 1) := by
  rw [partcfg_checks h hc, if_neg (by simp [ha, ho, hn]), if_pos (by simp [hs])]

variable (hs : s.partSigned = true) (hf : recordFormOk s.partBytes s.partPad = true)
  (hw : (recordOf s.partBytes).ok s.domPos = true)
include hs hf hw

theorem partcfg_wellFormed : exec .partcfg s = .next (
    if (recordOf s.partBytes).pseq ≤ (s.store.record.getD (PConfig.manufacture s.domPos)).pseq then s.mbFail 4
    else if s.partBusy then s.mbFail 2
    else if !s.moveReady s.partLive then s
    else s.partMoved.mbDone) := by
  rw [partcfg_checks h hc, if_neg (by simp [ha, ho, hn]), if_neg (by simp [hs]), if_neg (by simp [hf, hw])]

theorem partcfg_old (hq : (recordOf s.partBytes).pseq ≤ (s.store.record.getD (PConfig.manufacture s.domPos)).pseq) :
    exec .partcfg s = .next (s.mbFail 4) := by
  rw [partcfg_wellFormed h hc ha ho hn hs hf hw, if_pos hq]

variable (hq : (s.store.record.getD (PConfig.manufacture s.domPos)).pseq < (recordOf s.partBytes).pseq)
include hq

theorem partcfg_busy (hi : ¬s.PartIdle) : exec .partcfg s = .next (s.mbFail 2) := by
  have hb : s.partBusy = true := by rwa [← s.partBusy_eq_false, Bool.not_eq_false] at hi
  rw [partcfg_wellFormed h hc ha ho hn hs hf hw, if_neg hq.not_ge, if_pos hb]

variable (hi : s.PartIdle)
include hi

theorem partcfg_waits (hr : s.moveReady s.partLive = false) : exec .partcfg s = .next s := by
  have hb : ¬s.partBusy = true := by simp [s.partBusy_eq_false.2 hi]
  rw [partcfg_wellFormed h hc ha ho hn hs hf hw, if_neg hq.not_ge, if_neg hb, if_pos (by simp [hr])]

theorem partcfg_moves (hr : s.moveReady s.partLive = true) : exec .partcfg s = .next s.partMoved.mbDone := by
  have hb : ¬s.partBusy = true := by simp [s.partBusy_eq_false.2 hi]
  rw [partcfg_wellFormed h hc ha ho hn hs hf hw, if_neg hq.not_ge, if_neg hb, if_neg (by simp [hr])]

end

/-! OPKEY (R411): the checks in their order. -/

theorem opkey_checks (hc : s.mbCmd = 6) : exec .opkey s = .next (
    if hostOk s.mbArg0.toNat 320 = false then s.mbFail 3
    else if !s.opkeySigned then s.mbFail 1
    else if cutAt s.keyBytes 0 4 != [0x48, 0x58, 0x4F, 0x31] || leAt s.keyBytes 4 2 != 1 || leAt s.keyBytes 6 2 != 0 ||
      leAt s.keyBytes 148 32 != 0 || leAt s.keyBytes 312 8 != 0 || !Config.onP521 (beAt s.keyBytes 16 66) (beAt s.keyBytes 82 66)
      then s.mbFail 3
    else if leAt s.keyBytes 8 8 ≤ s.store.kseq then s.mbFail 4
    else (s.putStore { s.store with
      opKey := (beAt s.keyBytes 16 66, beAt s.keyBytes 82 66), kseq := leAt s.keyBytes 8 8 }).mbDone) :=
  congrArg Host.Outcome.next (State.command_inHand _ h hc)

theorem opkey_beyond (hc : s.mbCmd = 6) (ho : hostOk s.mbArg0.toNat 320 = false) : exec .opkey s = .next (s.mbFail 3) := by
  rw [opkey_checks h hc, if_pos ho]

section
variable (hc : s.mbCmd = 6) (ho : hostOk s.mbArg0.toNat 320 = true)
include hc ho

theorem opkey_unsigned (hs : s.opkeySigned = false) : exec .opkey s = .next (s.mbFail 1) := by
  rw [opkey_checks h hc, if_neg (by simp [ho]), if_pos (by simp [hs])]

theorem opkey_wellFormed (hs : s.opkeySigned = true) (hm : cutAt s.keyBytes 0 4 = [0x48, 0x58, 0x4F, 0x31])
    (hv : leAt s.keyBytes 4 2 = 1) (hz : leAt s.keyBytes 6 2 = 0) (hz' : leAt s.keyBytes 148 32 = 0)
    (hz'' : leAt s.keyBytes 312 8 = 0) (hp : Config.onP521 (beAt s.keyBytes 16 66) (beAt s.keyBytes 82 66) = true) :
    exec .opkey s = .next (
      if leAt s.keyBytes 8 8 ≤ s.store.kseq then s.mbFail 4
      else (s.putStore { s.store with
        opKey := (beAt s.keyBytes 16 66, beAt s.keyBytes 82 66), kseq := leAt s.keyBytes 8 8 }).mbDone) := by
  rw [opkey_checks h hc, if_neg (by simp [ho]), if_neg (by simp [hs]), if_neg (by simp [hm, hv, hz, hz', hz'', hp])]

end

end

/-- Settles O59, each step by its own lemmas. -/
theorem platformSteps : Obligations.PlatformSteps := by
  unfold Obligations.PlatformSteps
  intro s d amps watts temp f
  refine ⟨fun h => ⟨currentMonitor_below d h, currentMonitor_above900 d h, currentMonitor_above980 d h⟩,
    fun h hm => ⟨powerSample_over h hm, powerSample_under h hm, powerSample_fatal h hm⟩,
    s.coldReset_keeps f,
    fun i b plumb => ⟨stepResult_passes i b plumb, stepResult_fails b plumb, fun h =>
      ⟨stepResult_alternative b plumb false h, stepResult_alternative b plumb true h⟩⟩,
    fun fails i plumb r old => ⟨runSteps_cut fails i plumb r old, fun _ => runSteps_goes_on fails i plumb r old,
      fun _ => runSteps_stops fails i plumb r old⟩, fun h => ?_⟩
  refine ⟨fun hc => ⟨attest_reports h hc, attest_refuses h hc⟩, fun hc => ⟨partcfg_misaligned h hc, fun ha ho hn =>
    ⟨partcfg_unsigned h hc ha ho hn, fun hs hf hw => ⟨partcfg_old h hc ha ho hn hs hf hw, partcfg_busy h hc ha ho hn hs hf hw,
      partcfg_waits h hc ha ho hn hs hf hw, partcfg_moves h hc ha ho hn hs hf hw⟩⟩⟩, dump_done h, clearsr_done h,
    fun hc => ⟨dumpack_none h hc, dumpack_some h hc⟩, fun hc => ⟨opkey_beyond h hc, opkey_unsigned h hc,
      fun ho hs hm hv hz hz' hz'' hp => ?_⟩⟩
  have hx := opkey_wellFormed h hc ho hs hm hv hz hz' hz'' hp
  exact ⟨fun hq => hx.trans (congrArg _ (if_pos hq)), fun hq => hx.trans (congrArg _ (if_neg hq.not_ge))⟩

end Sys2Proof.Machine
end

section
/-! PROOFS. Enabling a launch queue (R405, R406). -/

namespace Sys2Proof.Machine

theorem State.getPart_modPart (s : State) (p : Nat) (f : Partn → Partn) : (s.modPart p f).getPart p = f (s.getPart p) := by
  unfold State.modPart State.setPart State.getPart
  exact SMap.get_set_self _ _ _ _

/-- A queue that a partition comes to hold is the one that it gives. -/
theorem State.queue_modPart_set (s : State) (p q : Nat) (y : LQ) :
    SMap.get {} ((s.modPart p fun r => { r with queues := SMap.set {} r.queues q y }).getPart p).queues q = y := by
  rw [State.getPart_modPart, SMap.get_set_self]

/-- A write that enables a queue clears what it kept of a submitter that broke the rules of R406. -/
theorem State.queueWrite0_enables {s : State} {p q v : Nat} (fromS : Bool)
    (hx : (SMap.get {} (s.getPart p).queues q).en = false) (hv : bit v 0 = true) (hl : bits v 1 5 ≤ 16)
    (hd : isDram (64 * bits v 6 46) = true) (ho : s.ownsRange p (64 * bits v 6 46) (64 * 2 ^ bits v 1 5) = true) :
    (SMap.get {} ((s.queueWrite0 p q v fromS).getPart p).queues q).wild = false := by
  unfold State.queueWrite0
  rw [if_neg, State.queue_modPart_set]
  · simp only [hx, hv, Bool.not_false, Bool.and_self, Bool.not_true, Bool.and_false]
  · rintro (h | ⟨h, -⟩ | h | h)
    · exact absurd hl h.not_ge
    · exact absurd (hx.symm.trans h) Bool.false_ne_true
    · exact absurd (hd.symm.trans h) (by decide)
    · exact absurd (ho.symm.trans h) (by decide)

/-- A disabled queue of partition 0, whose submitter broke the rules of R406 while it was enabled: disabling a queue leaves `wild`. -/
def wildQueue : State :=
  { State.reset with cfg := PConfig.manufacture 0, parts := [(0, { queues := [(0, { base := 2, wild := true })] })] }

/-- Refutes O60: enabling a launch queue sets more than the clause of LAUNCH_QUEUE_ENABLE gives. It also clears `wild`, which the clause
leaves as it was, and so the two differ at a queue whose submitter has broken the rules of R406. -/
theorem not_registerWritesAct : ¬ Obligations.RegisterWritesAct := by
  unfold Obligations.RegisterWritesAct
  intro h
  obtain ⟨-, -, henable, -⟩ := h wildQueue 0 0 0 0 0 0 0 0 0 0
  have hc := State.queueWrite0_enables (s := wildQueue) (p := 0) (q := 0) (v := 129) false rfl rfl (by decide) (by decide) (by decide)
  have he : State.queueWrite0 wildQueue 0 0 129 false = _ := Host.Outcome.next.inj (henable rfl (by decide) (by decide) (by decide))
  rw [he, State.queue_modPart_set] at hc
  exact absurd hc (by decide)

end Sys2Proof.Machine
end

section
/-! PROOFS. Errors, differences of redundant threads, parts, links and dumps (R18, R214, R387 to R393, R395 to R397, R418, R420). -/

namespace Sys2Proof.Machine

/-! ### Correctable errors (R387, R395, R397) -/

section
variable (s : State) (kind id : Nat)

/-- The tile, and its partition, that the record of a bucket's error names: a cluster's. -/
def errTile : Nat := if kind = 2 then id else 0
def State.errOwner : Nat := if kind = 2 then s.ownerOf id else 0

/-- What a bucket holds once it has leaked. -/
def State.fill : Nat := SMap.get 0 (s.leak kind id).buckets (bucketNo kind id)

/-- The bucket has leaked and risen by one, and the error is logged. -/
def State.errCounted : State :=
  let low := s.leak kind id
  ({ low with buckets := SMap.set 0 low.buckets (bucketNo kind id) (s.fill kind id + 1) } : State).logEvent 1 (errTile kind id)
    (low.errOwner kind id) 0 0

/-- The rise past the mark is logged too. -/
def State.errForeseen : State :=
  (s.errCounted kind id).logEvent 9 (errTile kind id) ((s.leak kind id).errOwner kind id) 0 0

theorem State.store_leak : (s.leak kind id).store = s.store := by
  unfold State.leak
  simp only
  split <;> rfl

theorem State.leak_loses (h : s.store.leak.getD kind 0x40000000 ≠ 0) : s.leak kind id =
    let per := s.store.leak.getD kind 0x40000000
    { s with
      buckets := SMap.set 0 s.buckets (3 * id + kind) (SMap.get 0 s.buckets (3 * id + kind) - (s.plumb / per - SMap.get 0 s.leaks (3 * id + kind)))
      leaks := SMap.set 0 s.leaks (3 * id + kind) (s.plumb / per) } :=
  if_neg h

variable {s kind}

/-- The errors of kinds 0 to 2 are those that a bucket of their own counts. -/
theorem correctableError_counts (hk : kind ≤ 2) : exec (.correctableError kind id) s = .next (s.correctable kind id) := by
  rw [exec_correctableError]
  obtain rfl | rfl | rfl : kind = 0 ∨ kind = 1 ∨ kind = 2 := by omega
  all_goals rfl

theorem correctableError_offMark (hk : kind ≤ 2) (hf : s.fill kind id ≠ s.store.mark.getD kind 64) :
    exec (.correctableError kind id) s = .next (s.errCounted kind id) := by
  rw [correctableError_counts id hk]
  refine congrArg Host.Outcome.next (if_neg fun h => hf ?_)
  rw [s.store_leak] at h
  exact Nat.succ.inj h

/-- R397. What passing the mark brings into use. -/
theorem correctableError_onMark (hk : kind ≤ 2) (hf : s.fill kind id = s.store.mark.getD kind 64) :
    exec (.correctableError kind id) s = .next (
      let v := s.errForeseen kind id
      if kind = 1 then v.useSpareLane id
      else if kind = 0 then v.putStore (if Config.freeChoice (s.leak kind id).fresh id
        then { v.store with bankSpare := SMap.put v.store.bankSpare id true }
        else { v.store with dramSpare := SMap.set 0 v.store.dramSpare id (SMap.get 0 v.store.dramSpare id + 1) })
      else v.putStore { v.store with bist := SMap.put v.store.bist id true }) := by
  rw [correctableError_counts id hk]
  refine congrArg Host.Outcome.next (if_pos ?_)
  rw [s.store_leak]
  exact congrArg Nat.succ hf

end

/-! ### Uncorrectable errors (R387 to R389) -/

section
variable {s : State} {t c i a : Nat}

theorem ueDetected_poisons {x : Piece} {r : List Piece} (hc : (s.getCtx t c).live = true)
    (hp : s.pieces { k := ⟨t, c, i⟩, priv := (s.getThread ⟨t, c, i⟩).priv } .r (BitVec.ofNat 72 (a / 8 * 8)) 8 = .ok (x :: r)) :
    exec (.ueDetected t c i a) s = .next (
      let l := (s.ueSpan x.spot.place).filter fun p => !s.poisoned [{ spot := { place := p }, n := 8 }]
      let v := l.foldl State.poisonAt s
      ({ v with ues := v.ues ++ l } : State).logEvent 2 t (s.getCtx t c).pid cUE a).tickFresh := by
  rw [exec_ueDetected]
  refine congrArg Host.Outcome.next ((if_pos hc).trans ?_)
  unfold State.ueFound
  simp only [hp]

theorem registerUe_kills (hl : (s.getThread ⟨t, c, i⟩).life ≠ .idle) (hc : (s.getCtx t c).live = true) :
    exec (.registerUe t c i) s = .next ((s.killUnit t c stFAULTED cUE).logEvent 2 t (s.getCtx t c).pid cUE 0) := by
  rw [exec_registerUe]
  exact congrArg Host.Outcome.next (if_neg (by simp [hl, hc]))

variable (s)

/-- The doubles that an error in DRAM affects lie in the half-line of the place. -/
theorem State.ueSpan_halfLine {b : Nat} {p : Place} (h : p ∈ s.ueSpan (.pa b)) : ∃ j < 8, p = .pa (b / 64 * 64 + 8 * j) := by
  obtain ⟨j, hj, rfl⟩ := List.mem_map.1 h
  exact ⟨j, List.mem_range.1 (List.mem_filter.1 hj).1, rfl⟩

/-- The double of the place itself is always among them. -/
theorem State.ueSpan_own (b : Nat) : .pa (b / 8 * 8) ∈ s.ueSpan (.pa b) := by
  have hj : b / 8 % 8 < 8 := Nat.mod_lt _ (by decide)
  have hb : b / 64 * 64 + 8 * (b / 8 % 8) = b / 8 * 8 := by omega
  exact List.mem_map.2 ⟨b / 8 % 8, List.mem_filter.2 ⟨List.mem_range.2 hj, by simp⟩, by rw [hb]⟩

/-- Once an error has been found, the next consumer takes POISON. -/
theorem State.badCause_ueFind (ps : List Piece) : (s.ueFind ps).badCause ps = cPOISON := by
  refine if_neg ?_
  unfold State.ueFind
  split
  next h => simp [h]
  next => simp

/-- UE parks the issue slot for 512 cycles, and POISON does not. -/
theorem Thread.ueStall_stalls_ue (y : Thread) (n : Nat) (b : Addr) : (y.stalls n (some (cUE, b))).ueStall = some (n + 512) := by
  rw [Thread.stalls_eq]; rfl

theorem Thread.stalls_poison (y : Thread) (n : Nat) (b : Addr) : y.stalls n (some (cPOISON, b)) = y := rfl

end

/-! ### Redundant threads (R393, R396) -/

section
variable {s : State}

/-- A difference at the oldest entry of a thread's comparator. -/
theorem State.differs_some {k : Key} {it : List Nat} {pc : Addr} (h : (s.getThread k).oldest = some (it, pc)) (unit : Nat) :
    s.differs k unit =
      let x := s.getThread k
      let own := BitVec.ofNat 72 (it.headD 0)
      let r := s.setThread k { x with
        cmpq := none, wait := .trap cSDC own, pc := pc, young := x.young && pc == x.pc, pend := x.pend.filter fun p => p.store.isNone }
      ((r.modThread ⟨k.t, k.c, k.i + 1⟩ fun y => { y with wait := .differs }).countSdc k.t unit).logEvent 4 k.t
        (s.getCtx k.t k.c).pid cSDC own.toNat := by
  unfold State.differs
  simp only [h]

/-- The stores that wait in the comparator come before an item that is to be compared at its instruction. -/
theorem Thread.oldest_held {x : Thread} {p : Pend} {h : HeldStore} {r : List (Pend × HeldStore)} (hx : x.heldStores = (p, h) :: r) :
    x.oldest = some (h.item, p.pc) := by
  unfold Thread.oldest
  rw [hx]

theorem Thread.oldest_item {x : Thread} {e : List Nat} (hx : x.heldStores = []) (hc : x.cmpq = some (e, false)) :
    x.oldest = some (e, x.pc) := by
  unfold Thread.oldest
  rw [hx, hc]

/-- A plain store that nothing holds up goes to its comparator while that has room, and is held when it has none. -/
theorem State.storeAt_ahead {b : Addr} {bs : List Byte} {l : List (Addr × List Piece)} (hl : s.checkAll .w 1 [(b, bs.length)] = .ok l)
    (hw : s.waits l = none) (hb : s.storeBlocked (allPieces l) 0 = false) (ht : s.trails = false) (hd : s.trailed = true)
    (hr : s.runsAhead l 0 = true) (hc : s.thr.cmpq = none) :
    s.storeAt b bs 0 = if 32 ≤ s.thr.heldStores.length then .hold s.held_
      else .done (s.leave (.held { a := b, l := l, bs := bs, drop := false }) []) := by
  have hbs : [(b, bs)].flatMap (·.2) = bs := List.append_nil bs
  have ho : ordered 0 = false := rfl
  unfold State.storeAt State.storeMany
  simp only [List.map_cons, List.map_nil, List.headD_cons, hl, hw, hb, hbs, ho, Bool.false_and, Bool.or_false, Bool.false_eq_true,
    if_false, State.compareStore_ahead ht hd hr hc]
  by_cases hn : 32 ≤ s.thr.heldStores.length
  · simp only [if_pos hn]
  · simp only [if_neg hn]

theorem sdcCountSave_due (h : s.sdcAt + 2 ^ 36 ≤ s.plumb) :
    exec .sdcCountSave s = .next (({ s with sdcAt := s.plumb } : State).putStore { s.store with sdc := s.sdc }) :=
  congrArg Host.Outcome.next (if_pos h)

end

/-! ### A part that fails (R392) -/

/-- Marking the sixteen doubles of a line as poisoned. -/
def poisonLine (m : SMap Bool) (l : Nat) : SMap Bool := (List.range 16).foldl (fun m j => SMap.put m (16 * l + j) true) m

/-- Every double of a line is poisoned. -/
def LineBad (l : Nat) (m : SMap Bool) : Prop := ∀ j < 16, SMap.get false m (16 * l + j) = true

/-- What some element of a list brings about, and no element undoes, holds at the end of a fold over the list. -/
theorem foldl_of_mem {α β : Type} {P : α → Prop} {f : α → β → α} (keep : ∀ x e, P x → P (f x e)) {l : List β} {e : β} (he : e ∈ l)
    (make : ∀ x, P (f x e)) (x : α) : P (l.foldl f x) := by
  obtain ⟨as, bs, rfl⟩ := List.append_of_mem he
  rw [List.foldl_append, List.foldl_cons]
  exact List.foldlRecOn bs f (make _) fun y hy e _ => keep y e hy

theorem SMap.get_put_true {m : SMap Bool} {i : Nat} (j : Nat) (h : SMap.get false m i = true) : SMap.get false (SMap.put m j true) i = true := by
  by_cases hj : i = j
  · rw [hj, SMap.get, SMap.find_put_self]; rfl
  · rw [SMap.get, SMap.find_put_other m true hj]; exact h

theorem lineBad_poisonLine_self (m : SMap Bool) (l : Nat) : LineBad l (poisonLine m l) := fun j hj =>
  foldl_of_mem (P := fun m => SMap.get false m (16 * l + j) = true) (fun _ _ h => SMap.get_put_true _ h) (List.mem_range.2 hj)
    (fun m => by rw [SMap.get, SMap.find_put_self]; rfl) m

theorem lineBad_poisonLine {m : SMap Bool} {k : Nat} (l : Nat) (h : LineBad k m) : LineBad k (poisonLine m l) := fun j hj =>
  List.foldlRecOn (motive := fun m => SMap.get false m (16 * k + j) = true) _ _ (h j hj) fun _ hm _ _ => SMap.get_put_true _ hm

section
variable (s : State) (q : Nat)

/-- The copies that a part's dies hold, by their agents, and the dirty lines homed here that are on their way back from it. -/
def State.copiesOf : List (Nat × Nat × Held) :=
  (List.range 8).flatMap fun d => (SMap.get [] s.agents (8 * q + d)).map fun h => (8 * q + d, h)
def State.backFrom : List (Nat × Held × Bool) :=
  (List.range 8).flatMap fun d => (SMap.get [] s.wbufs (8 * q + d)).filter fun h =>
    !h.2.2 && (h.2.1.st == .m || h.2.1.st == .o) && homePart h.1 == s.domPos && isDram (128 * h.1)

/-- The line of a copy is poisoned when the copy was the only modified one. -/
def State.loseCopy (r : State) (e : Nat × Nat × Held) : State :=
  if e.2.2.st = .m ∨ e.2.2.st = .o then { r with poison := poisonLine r.poison e.2.1 } else r

/-- A copy of part `q` is lost, and leaves the snoop filter. -/
def State.forgetCopy (r : State) (e : Nat × Nat × Held) : State :=
  let l := e.2.1
  if homePart l ≠ s.domPos ∨ isDram (128 * l) = false then r
  else
    let x := r.entry l
    (r.loseCopy e).setEntry l { x with
      dst := if 2 ≤ x.dst ∧ x.own = e.1 then (if andNot x.shv (8 + q) = 0 then 0 else 1)
        else if x.dst = 1 ∧ andNot x.shv (8 + q) = 0 then 0 else x.dst
      own := if 2 ≤ x.dst ∧ x.own = e.1 then 0 else x.own
      shv := andNot x.shv (8 + q) }

/-- The lines that only the part had are poisoned, first those in its caches, then those on their way back. -/
def State.linesLost : State :=
  let r := (s.copiesOf q).foldl (s.forgetCopy q) { s with lostParts := orBit s.lostParts q }
  { r with poison := (s.backFrom q).foldl (fun m h => poisonLine m h.1) r.poison }

/-- What the part's agents held goes, and no transaction awaits them. -/
def State.withoutPart : State := { s with
  agents := s.agents.filter fun e => !(e.1 / 8 == q)
  wbufs := s.wbufs.filter fun e => !(e.1 / 8 == q)
  txns := SMap.map (fun _ (x : Txn) => { x with await := x.await.filter fun b => !(b / 8 == q) }) s.txns }

theorem State.poison_linesLost : (s.linesLost q).poison = (s.backFrom q).foldl (fun m h => poisonLine m h.1)
    ((s.copiesOf q).foldl (s.forgetCopy q) { s with lostParts := orBit s.lostParts q }).poison := rfl

variable {s q}

theorem State.mem_backFrom {e m : Nat} {h : Held} (he : e < 8) (hl : (m, h, false) ∈ SMap.get [] s.wbufs (8 * q + e))
    (hm : homePart m = s.domPos) (hd : isDram (128 * m) = true) (hh : h.st = .m ∨ h.st = .o) : (m, h, false) ∈ s.backFrom q := by
  unfold State.backFrom
  simp only [List.mem_flatMap, List.mem_filter]
  exact ⟨e, List.mem_range.2 he, hl, by simp [hm, hd, hh]⟩

theorem State.partFails_own (h : q = s.domPos) : s.partFails q = s := if_pos h

theorem State.partFails_other (h : q ≠ s.domPos) : s.partFails q = ((s.linesLost q).withoutPart q).logEvent 12 0 0 0 q := if_neg h

/-- Of a part that holds nothing, no line is lost. -/
theorem State.linesLost_empty (h : ∀ e < 8, SMap.get [] s.agents (8 * q + e) = [] ∧ SMap.get [] s.wbufs (8 * q + e) = []) :
    s.linesLost q = { s with lostParts := orBit s.lostParts q } := by
  have hc : s.copiesOf q = [] := List.flatMap_eq_nil_iff.2 fun e he => by rw [(h e (List.mem_range.1 he)).1]; rfl
  have hb : s.backFrom q = [] := List.flatMap_eq_nil_iff.2 fun e he => by rw [(h e (List.mem_range.1 he)).2]; rfl
  rw [State.linesLost, hc, hb]
  rfl

theorem State.poison_setEntry (r : State) (l : Nat) (e : SfEnt) : (r.setEntry l e).poison = r.poison := rfl

/-- Of a copy of a line homed elsewhere nothing changes here; of one homed here only the loss changes poison. -/
theorem State.poison_forgetCopy (r : State) (e : Nat × Nat × Held) : (s.forgetCopy q r e).poison =
    if homePart e.2.1 ≠ s.domPos ∨ isDram (128 * e.2.1) = false then r.poison else (r.loseCopy e).poison := by
  unfold State.forgetCopy
  simp only
  by_cases h : homePart e.2.1 ≠ s.domPos ∨ isDram (128 * e.2.1) = false
  · rw [if_pos h, if_pos h]
  · rw [if_neg h, if_neg h, State.poison_setEntry]

theorem State.poison_loseCopy (r : State) (e : Nat × Nat × Held) :
    (r.loseCopy e).poison = if e.2.2.st = .m ∨ e.2.2.st = .o then poisonLine r.poison e.2.1 else r.poison := by
  unfold State.loseCopy
  by_cases h : e.2.2.st = .m ∨ e.2.2.st = .o
  · rw [if_pos h, if_pos h]
  · rw [if_neg h, if_neg h]

theorem lineBad_loseCopy {k : Nat} {r : State} (e : Nat × Nat × Held) (h : LineBad k r.poison) : LineBad k (r.loseCopy e).poison := by
  rw [State.poison_loseCopy]
  split
  · exact lineBad_poisonLine e.2.1 h
  · exact h

theorem lineBad_forgetCopy {k : Nat} {r : State} (e : Nat × Nat × Held) (h : LineBad k r.poison) :
    LineBad k (s.forgetCopy q r e).poison := by
  rw [State.poison_forgetCopy]
  split
  · exact h
  · exact lineBad_loseCopy e h

theorem lineBad_forgetCopy_self {m ag : Nat} {h : Held} (hm : homePart m = s.domPos) (hd : isDram (128 * m) = true)
    (hh : h.st = .m ∨ h.st = .o) (r : State) : LineBad m (s.forgetCopy q r (ag, m, h)).poison := by
  rw [State.poison_forgetCopy, if_neg (by simp [hm, hd]), State.poison_loseCopy, if_pos hh]
  exact lineBad_poisonLine_self r.poison m

/-- R392. A line homed here is poisoned when the part held its only modified copy, in a cache or on its way back. -/
theorem lineBad_linesLost {e m : Nat} {h : Held} (he : e < 8) (hm : homePart m = s.domPos) (hd : isDram (128 * m) = true)
    (hh : h.st = .m ∨ h.st = .o)
    (hl : (m, h) ∈ SMap.get [] s.agents (8 * q + e) ∨ (m, h, false) ∈ SMap.get [] s.wbufs (8 * q + e)) :
    LineBad m (s.linesLost q).poison := by
  rw [State.poison_linesLost]
  obtain hl | hl := hl
  · have hc : (8 * q + e, m, h) ∈ s.copiesOf q := List.mem_flatMap.2 ⟨e, List.mem_range.2 he, List.mem_map_of_mem hl⟩
    have hp := foldl_of_mem (P := fun r : State => LineBad m r.poison) (f := s.forgetCopy q) (fun _ e => lineBad_forgetCopy e) hc
      (lineBad_forgetCopy_self hm hd hh) { s with lostParts := orBit s.lostParts q }
    exact List.foldlRecOn (motive := LineBad m) _ _ hp fun _ hb b _ => lineBad_poisonLine b.1 hb
  · have hc := State.mem_backFrom he hl hm hd hh
    exact foldl_of_mem (P := LineBad m) (fun _ (b : Nat × Held × Bool) => lineBad_poisonLine b.1) hc (fun b => lineBad_poisonLine_self b m) _

theorem partFail_own (h : q = s.domPos) (ht : s.txns = []) : exec (.partFail q) s = .next s := by
  rw [exec_partFail, execPartFail, State.partFails_own h]
  simp only [ht]
  rfl

theorem partFail_empty (hq : q ≠ s.domPos) (h : ∀ e < 8, SMap.get [] s.agents (8 * q + e) = [] ∧ SMap.get [] s.wbufs (8 * q + e) = []) :
    exec (.partFail q) s = .next (
      let r := (({ s with lostParts := orBit s.lostParts q } : State).withoutPart q).logEvent 12 0 0 0 q
      (r.txns.filter fun e => e.2.await.isEmpty && e.2.host.isEmpty).foldl (fun r e => r.checkTxn e.1 e.2) r) := by
  rw [exec_partFail, execPartFail, State.partFails_other hq, State.linesLost_empty h]

end

/-! ### Dies, lanes and links (R18, R214, R391, R397) -/

section
variable {s : State} {d n : Nat}

theorem dieFail_again (h : (s.getDie d).failed = true) : exec (.dieFail d) s = .next s.tickFresh :=
  congrArg (fun u : State => Host.Outcome.next u.tickFresh) (if_pos h)

theorem State.linkDown_port (hn : n < 24) (h : SMap.get false s.portUp n = true) :
    s.linkDown n = ({ s with portUp := SMap.set false s.portUp n false } : State).pathDown :=
  (if_pos hn).trans (if_pos h)

theorem State.linkDown_port_again (hn : n < 24) (h : SMap.get false s.portUp n = false) : s.linkDown n = s :=
  (if_pos hn).trans (if_neg (by simp [h]))

theorem State.linkDown_link_again (h : SMap.get false s.d2dUp n = false) : s.linkDown (24 + n) = s :=
  (if_neg (by omega)).trans (if_pos (by rwa [Nat.add_sub_cancel_left]))

theorem laneFailure_down (h : SMap.get false s.portUp n = false) : exec (.laneFailure n) s = .next s :=
  congrArg Host.Outcome.next (if_pos h)

theorem laneFailure_spare (h : SMap.get false s.portUp n = true) (hs : SMap.get false s.portSpare n = false) :
    exec (.laneFailure n) s = .next (s.useSpareLane n) :=
  congrArg Host.Outcome.next ((if_neg (by simp [h])).trans (if_pos hs))

theorem laneFailure_noSpare (hn : n < 24) (h : SMap.get false s.portUp n = true) (hs : SMap.get false s.portSpare n = true) :
    exec (.laneFailure n) s = .next (if Config.freeChoice s.fresh n then s
      else ({ s with portUp := SMap.set false s.portUp n false } : State).pathDown).tickFresh := by
  rw [← State.linkDown_port hn h]
  exact congrArg Host.Outcome.next ((if_neg (by simp [h])).trans (if_neg (by simp [hs])))

theorem d2dWireSpare_spare (h : SMap.get false s.d2dUp n = true) (hw : SMap.get 0 s.d2dWires n < 16) :
    exec (.d2dWireSpare n) s = .next (s.useSpareWire n) :=
  congrArg Host.Outcome.next ((if_neg (by simp [h])).trans (if_neg hw.not_ge))

theorem d2dWireSpare_noSpare (h : SMap.get false s.d2dUp n = true) (hw : 16 ≤ SMap.get 0 s.d2dWires n) :
    exec (.d2dWireSpare n) s = exec (.portDown (24 + n)) s :=
  congrArg Host.Outcome.next ((if_neg (by simp [h])).trans (if_pos hw))

end

/-! ### Fatal dumps (R420) -/

section
variable (s : State)

/-- Every tile has stopped, and the counts of differences are saved. -/
def State.halted : State := ({ s with stopped := true, sdcAt := s.plumb } : State).putStore { s.store with sdc := s.sdc }

/-- The die whose region takes a dump. -/
def State.dumpDie : Option Nat := (List.range 8).find? fun d => bit s.dieMask d && !(s.getDie d).failed && (s.getDie d).dumpFree

variable {s} (cause : Nat)

theorem State.fatalDump_missed (h : s.dumpDie = none) :
    s.fatalDump cause = s.halted.putStore { s.halted.store with missed := s.halted.store.missed + 1 } := by
  rw [State.dumpDie] at h
  unfold State.fatalDump
  simp only [h]
  rfl

theorem State.fatalDump_written {d : Nat} (h : s.dumpDie = some d) :
    s.fatalDump cause = ((({ s.halted with newest := some d } : State).putStore
      { s.halted.store with dseq := s.halted.store.dseq + 1 }).modDie d fun y => { y with dumpFree := false }).writeDump cause d := by
  rw [State.dumpDie] at h
  unfold State.fatalDump
  simp only [h]
  rfl

theorem State.dumpDie_none (h : ∀ e < 8, bit s.dieMask e = false ∨ (s.getDie e).failed = true ∨ (s.getDie e).dumpFree = false) :
    s.dumpDie = none := by
  refine List.find?_eq_none.2 fun e he => ?_
  obtain h | h | h := h e (List.mem_range.1 he) <;> simp [h]

theorem State.dumpDie_zero (hm : bit s.dieMask 0 = true) (hl : (s.getDie 0).failed = false) (hf : (s.getDie 0).dumpFree = true) :
    s.dumpDie = some 0 :=
  List.find?_cons_of_pos (by simp [hm, hl, hf])

end

/-- Settles O58, each step by its own lemmas. -/
theorem failuresAreHandled : Obligations.FailuresAreHandled := by
  unfold Obligations.FailuresAreHandled
  intro s kind id d q l n t c i a
  refine ⟨correctableError_offMark id, fun hk hf => ⟨?dram, ?lane, ?cluster⟩, fun h => congrArg Host.Outcome.next (s.leak_loses kind id h), rfl,
    fun x r => ueDetected_poisons, fun b => ⟨rfl, fun p => s.ueSpan_halfLine, s.ueSpan_own b⟩,
    fun b => ⟨rfl, s.badCause_ueFind _⟩, fun y => ⟨y.ueStall_stalls_ue s.plumb 0, y.stalls_poison s.plumb 0⟩, registerUe_kills,
    fun it pc unit h => congrArg Host.Outcome.next (State.differs_some h unit),
    fun x p h r e => ⟨Thread.oldest_held, Thread.oldest_item⟩,
    fun b bs l hl hw hb ht hd hr hc => ⟨fun hn => ?room, fun hn => ?full⟩, sdcCountSave_due,
    dieFail_again, fun hd => ?die, partFail_own, partFail_empty,
    fun e m h hq he hm hd hh hl => ⟨_, State.partFails_other hq, lineBad_linesLost he hm hd hh hl⟩,
    fun hp hn => ⟨laneFailure_spare hp, laneFailure_noSpare hn hp, congrArg Host.Outcome.next (State.linkDown_port hn hp)⟩,
    fun hp hn => ⟨congrArg Host.Outcome.next (State.linkDown_port_again hn hp), laneFailure_down hp⟩,
    fun h => congrArg Host.Outcome.next (State.linkDown_link_again h),
    fun h => ⟨d2dWireSpare_spare h, d2dWireSpare_noSpare h⟩,
    fun h => congrArg Host.Outcome.next (State.fatalDump_missed kind (State.dumpDie_none h)),
    fun hm hl hf => congrArg Host.Outcome.next (State.fatalDump_written kind (State.dumpDie_zero hm hl hf)),
    fun x => ⟨rfl, rfl, rfl, rfl⟩, rfl⟩
  case dram | lane | cluster => rintro rfl; exact correctableError_onMark id hk hf
  case room => rw [State.storeAt_ahead hl hw hb ht hd hr hc, if_neg hn.not_ge]
  case full => rw [State.storeAt_ahead hl hw hb ht hd hr hc, if_pos hn]
  case die => exact congrArg (fun u : State => Host.Outcome.next u.tickFresh) (if_neg (by simp [hd]))

end Sys2Proof.Machine
end

section
/-! PROOFS. The vector group: elements, arithmetic, moves, masks, conversion, reduction and scan (R164 to R175). -/

namespace Sys2Proof.Machine

/-! ### The elements of a vector (R164, R165) -/

/-- The number whose digits to the base 2^(8n) are the first `k` elements of a list. -/
def elemsSum (n : Nat) (l : List Nat) (k : Nat) : Nat :=
  (List.range k).foldl (fun x i => x + l.getD i 0 % 2 ^ (8 * n) * 2 ^ (8 * n * i)) 0

theorem elemsSum_succ (n : Nat) (l : List Nat) (k : Nat) :
    elemsSum n l (k + 1) = elemsSum n l k + l.getD k 0 % 2 ^ (8 * n) * 2 ^ (8 * n * k) := by
  simp [elemsSum, List.range_succ]

theorem elemsSum_lt (n : Nat) (l : List Nat) (k : Nat) : elemsSum n l k < 2 ^ (8 * n * k) := by
  induction k with
  | zero => simp [elemsSum]
  | succ k ih =>
    have hd : l.getD k 0 % 2 ^ (8 * n) + 1 ≤ 2 ^ (8 * n) := Nat.mod_lt _ (Nat.two_pow_pos _)
    calc elemsSum n l (k + 1) < 2 ^ (8 * n * k) + l.getD k 0 % 2 ^ (8 * n) * 2 ^ (8 * n * k) := by
          rw [elemsSum_succ]; omega
      _ = (l.getD k 0 % 2 ^ (8 * n) + 1) * 2 ^ (8 * n * k) := by ring
      _ ≤ 2 ^ (8 * n) * 2 ^ (8 * n * k) := Nat.mul_le_mul_right _ hd
      _ = 2 ^ (8 * n * (k + 1)) := by ring

theorem bits_elemsSum (n : Nat) (l : List Nat) {k e : Nat} (h : e < k) :
    bits (elemsSum n l k) (8 * n * e) (8 * n) = l.getD e 0 % 2 ^ (8 * n) := by
  induction k with
  | zero => omega
  | succ k ih =>
    rw [elemsSum_succ, bits]
    obtain h | rfl := Nat.lt_succ_iff_lt_or_eq.1 h
    · have hp : 2 ^ (8 * n * k) = 2 ^ (8 * n * e) * (2 ^ (8 * n) * 2 ^ (8 * n * (k - e - 1))) := by
        obtain ⟨d, rfl⟩ := Nat.exists_eq_add_of_lt h
        rw [show e + d + 1 - e - 1 = d by omega]
        ring
      rw [hp, mul_left_comm, Nat.add_mul_div_left _ _ (Nat.two_pow_pos _), mul_left_comm, Nat.add_mul_mod_self_left]
      exact ih h
    · rw [Nat.add_mul_div_right _ _ (Nat.two_pow_pos _), Nat.div_eq_of_lt (elemsSum_lt n l _), Nat.zero_add, Nat.mod_mod]

/-- A vector's elements are those that it is made of. -/
theorem elemOf_ofElems {n : Nat} {l : List Nat} {e : Nat} (hl : n * l.length ≤ 128) (he : e < l.length) :
    elemOf (ofElems n l) n e = l.getD e 0 % 2 ^ (8 * n) := by
  have hlt : elemsSum n l l.length < 2 ^ 1024 :=
    (elemsSum_lt n l _).trans_le (Nat.pow_le_pow_right (by decide) (by rw [Nat.mul_assoc]; omega))
  rw [elemOf, show ofElems n l = BitVec.ofNat 1024 (elemsSum n l l.length) from rfl, BitVec.toNat_ofNat, Nat.mod_eq_of_lt hlt]
  exact bits_elemsSum n l he

theorem elemOf_mod (v : Vec) (n e : Nat) : elemOf v n e % 2 ^ (8 * n) = elemOf v n e := Nat.mod_mod _ _

/-- R165. The active elements are given, and the others keep their value. -/
theorem elemOf_mapElems {w e : Nat} (m : BitVec 32) (old : Vec) (g : Nat → Nat) (he : e < 128 / w) :
    elemOf (mapElems w m old g) w e = if m.getLsbD (e * w / 4) then g e % 2 ^ (8 * w) else elemOf old w e := by
  have hd : ∀ x : Nat, ((List.range (128 / w)).map fun e => if activeElem m w e then g e else elemOf old w e).getD e x =
      if activeElem m w e then g e else elemOf old w e := by
    intro x; simp [List.getD, he]
  rw [mapElems, elemOf_ofElems (by simpa using Nat.mul_div_le 128 w) (by simpa using he), hd, activeElem, apply_ite (· % 2 ^ (8 * w)),
    elemOf_mod]

/-! ### What a vector instruction leaves to come -/

@[simp] theorem State.va_begun (s : State) (f : FV) (e : Nat) : s.begun.va f e = elemOf (s.rv f.va 0) (tyBytes f.ty) e := rfl
@[simp] theorem State.vb_begun (s : State) (f : FV) (e : Nat) : s.begun.vb f e = elemOf (s.rv f.vb 1) (tyBytes f.ty) e := rfl
@[simp] theorem State.vc_begun (s : State) (f : FV) (e : Nat) : s.begun.vc f e = elemOf (s.rv f.vc 2) (tyBytes f.ty) e := rfl

/-- The sticky bit SAT (R134). -/
theorem Thread.stick_sat (x : Thread) (sat : Bool) : x.stick false sat = { x with tsr := if sat then x.tsr ||| 4 else x.tsr } := by
  cases sat <;> simp [Thread.stick, b2n]

/-- An instruction that enters one result into the VU's queue leaves it to come. -/
theorem leavesVec_of_vecInto {i : Instr} {s : State} {op : Nat} {k : Ctl} {regs : List Reg} {body : State → Res} {r : Reg} {v : Vec}
    {sat : Bool} (hi : exec i s = run op k regs body s) (hb : body s.begun = vecInto s.begun r v sat) :
    LeavesVec i s op k regs [(r, v)] (if sat then s.thr.tsr ||| 4 else s.thr.tsr) := by
  intro hroom hready hflow
  obtain ⟨p, hp⟩ := Option.isSome_iff_exists.1 hflow
  rw [hi]
  refine run_stick .vec [(r, v)] none _ hready hp ?_
  rw [hb, vecInto_begun hroom, Thread.stick_sat]
  rfl

/-- An instruction that computes each active element of VD leaves them to come, each cut to its width. -/
theorem leavesElements_of_vecMap {i : Instr} {s : State} {op : Nat} {k : Ctl} {f : FV} {regs : List Reg} {g : State → Nat → Nat}
    {h : Nat → Nat} (hi : exec i s = vecMap op k f regs g s)
    (hg : ∀ e, g s.begun e % 2 ^ (8 * tyBytes f.ty) = h e % 2 ^ (8 * tyBytes f.ty)) : LeavesElements i s op k f regs h := by
  refine ⟨_, leavesVec_of_vecInto (sat := false) hi rfl, fun e he => ?_⟩
  rw [elemOf_mapElems _ _ _ he, hg]
  rfl

theorem leavesElements_self {i : Instr} {s : State} {op : Nat} {k : Ctl} {f : FV} {regs : List Reg} {g : State → Nat → Nat}
    (hi : exec i s = vecMap op k f regs g s) : LeavesElements i s op k f regs (g s.begun) :=
  leavesElements_of_vecMap hi fun _ => rfl

theorem leavesElements_of_eq {i : Instr} {s : State} {op : Nat} {k : Ctl} {f : FV} {regs : List Reg} {g : State → Nat → Nat}
    {h : Nat → Nat} (hi : exec i s = vecMap op k f regs g s) (hg : ∀ e, g s.begun e = h e) : LeavesElements i s op k f regs h :=
  leavesElements_of_vecMap hi fun e => congrArg (· % _) (hg e)

/-! ### Integers (R167) -/

theorem clamp_eq {x lo hi : Int} (h : lo ≤ hi) : clamp x lo hi = max lo (min hi x) := by
  unfold clamp; split
  · omega
  · split <;> omega

theorem tyLo_le_tyHi (ty : Nat) : tyLo ty ≤ tyHi ty := by
  have h1 : (0 : Int) < 2 ^ (8 * tyBytes ty - 1) := by positivity
  have h2 : (0 : Int) < 2 ^ (8 * tyBytes ty) := by positivity
  unfold tyLo tyHi
  split <;> omega

theorem intResult_eq (ty fn : Nat) (z : Int) : intResult ty (fn == 1) z =
    ((if fn = 1 then max (tyLo ty) (min (tyHi ty) z) else z) % (2 ^ (8 * tyBytes ty) : Nat)).toNat := by
  by_cases hf : fn = 1
  · simp [intResult, hf, clampTo, intBits, clamp_eq (tyLo_le_tyHi ty)]
  · simp [intResult, hf, intBits]

/-- A signed number and its bits agree modulo 2^n. -/
theorem sgn_emod (n x : Nat) : sgn n x % (2 ^ n : Nat) = (x % 2 ^ n : Nat) := by
  have hlt := Nat.mod_lt x (Nat.two_pow_pos n)
  unfold sgn
  split
  · exact Int.emod_eq_of_lt (by omega) (by exact_mod_cast hlt)
  · rw [Int.sub_emod_right]
    exact Int.emod_eq_of_lt (by omega) (by exact_mod_cast hlt)

/-- An integer element's value has its bits. -/
theorem intBits_readInt (ty x : Nat) : intBits ty (readInt ty x) = x % 2 ^ (8 * tyBytes ty) := by
  unfold intBits readInt
  split
  · rw [sgn_emod, Int.toNat_natCast]
  · rw [← Int.natCast_mod, Int.toNat_natCast, Nat.mod_mod]

theorem pickElem_int {ty x y : Nat} (h : ty < 6) (greater : Bool) : pickElem greater ty x y % 2 ^ (8 * tyBytes ty) =
    intBits ty (if greater then max (readInt ty x) (readInt ty y) else min (readInt ty x) (readInt ty y)) := by
  have hp : pickElem greater ty x y = if decide (readInt ty x < readInt ty y) != greater then x else y := if_pos h
  rw [hp]
  obtain hl | hl := lt_or_ge (readInt ty x) (readInt ty y)
  · cases greater <;> simp [hl, hl.le, intBits_readInt]
  · cases greater <;> simp [hl, hl.not_gt, intBits_readInt]

theorem arithElem_int {ty : Nat} (h : ty < 6) (o : Arith) (mode : Nat) (sat : Bool) (gen x y : Nat) :
    arithElem o ty mode sat gen x y = intResult ty sat
      (match o with | .add => readInt ty x + readInt ty y | .sub => readInt ty x - readInt ty y | .mul => readInt ty x * readInt ty y) :=
  if_pos h

theorem absElem_int {ty : Nat} (h : ty < 6) (sat : Bool) (x : Nat) : absElem ty sat x = intResult ty sat |readInt ty x| := by
  rw [← Int.natCast_natAbs]; exact if_pos h

theorem negElem_int {ty : Nat} (h : ty < 6) (sat : Bool) (x : Nat) : negElem ty sat x = intResult ty sat (-readInt ty x) := if_pos h

/-- Settles O8, from the elements that an instruction leaves to come and what an integer result comes to. -/
theorem vectorIntegerArithmetic : Obligations.VectorIntegerArithmetic := by
  unfold Obligations.VectorIntegerArithmetic
  intro s k f hty x y cut raw
  have result (z : Int) : intResult f.ty (f.fn == 1) z = cut z := intResult_eq f.ty f.fn z
  have pick (greater : Bool) (e : Nat) : pickElem greater f.ty (s.begun.va f e) (s.begun.vb f e) % 2 ^ (8 * tyBytes f.ty) =
      raw (if greater then max (x e) (y e) else min (x e) (y e)) % 2 ^ (8 * tyBytes f.ty) :=
    (Nat.mod_mod _ _).symm.trans (congrArg (· % _) (pickElem_int hty greater))
  exact ⟨leavesElements_of_eq (exec_vadd k f s) fun e => (arithElem_int hty .add _ _ _ _ _).trans (result _),
    leavesElements_of_eq (exec_vsub k f s) fun e => (arithElem_int hty .sub _ _ _ _ _).trans (result _),
    leavesElements_of_eq (exec_vmul k f s) fun e => (arithElem_int hty .mul _ _ _ _ _).trans (result _),
    leavesElements_of_vecMap (h := fun e => raw (min (x e) (y e))) (exec_vmin k f s) (pick false),
    leavesElements_of_vecMap (h := fun e => raw (max (x e) (y e))) (exec_vmax k f s) (pick true),
    leavesElements_of_eq (exec_vabs k f s) fun e => (absElem_int hty _ _).trans (result _),
    leavesElements_of_eq (exec_vneg k f s) fun e => (negElem_int hty _ _).trans (result _)⟩

/-! ### Floats (R166 to R168) -/

theorem arithElem_float {ty : Nat} (h : 6 ≤ ty) (o : Arith) (mode : Nat) (sat : Bool) (gen x y : Nat) :
    arithElem o ty mode sat gen x y =
      (match o with
        | .add => (readFloat (floatOf ty) x).add (readFloat (floatOf ty) y) gen (mode == 3)
        | .sub => (readFloat (floatOf ty) x).add (readFloat (floatOf ty) y).neg gen (mode == 3)
        | .mul => (readFloat (floatOf ty) x).mul (readFloat (floatOf ty) y) gen).pack (floatOf ty) mode sat :=
  if_neg h.not_gt

theorem absElem_float {ty : Nat} (h : 6 ≤ ty) (sat : Bool) (x : Nat) :
    absElem ty sat x = (readFloat (floatOf ty) x).abs.pack (floatOf ty) := if_neg h.not_gt

theorem negElem_float {ty : Nat} (h : 6 ≤ ty) (sat : Bool) (x : Nat) :
    negElem ty sat x = (readFloat (floatOf ty) x).neg.pack (floatOf ty) := if_neg h.not_gt

/-- Settles O9: the elements that each instruction computes are the statement's. -/
theorem vectorFloatArithmetic : Obligations.VectorFloatArithmetic := by
  unfold Obligations.VectorFloatArithmetic
  intro s k f hty p x y z gen down round ab abc
  exact ⟨leavesElements_of_eq (exec_vadd k f s) fun e => arithElem_float hty .add _ _ _ _ _,
    leavesElements_of_eq (exec_vsub k f s) fun e => arithElem_float hty .sub _ _ _ _ _,
    leavesElements_of_eq (exec_vmul k f s) fun e => arithElem_float hty .mul _ _ _ _ _,
    leavesElements_self (exec_vfma k f s), leavesElements_self (exec_vfms k f s),
    leavesElements_self (exec_vmin k f s), leavesElements_self (exec_vmax k f s),
    leavesElements_of_eq (exec_vabs k f s) fun e => absElem_float hty _ _,
    leavesElements_of_eq (exec_vneg k f s) fun e => negElem_float hty _ _,
    leavesElements_self (exec_vrcp k f s), leavesElements_self (exec_vrsq k f s),
    leavesElements_self (exec_vexp2 k f s), leavesElements_self (exec_vlog2 k f s),
    leavesElements_self (exec_vdiv k f s), leavesElements_self (exec_vsqrt k f s)⟩

/-! ### Shifts and selection (R169, R170) -/

/-- A signed number is the one that a bit vector of its width has. -/
theorem sgn_eq_toInt {n : Nat} (h : 0 < n) (x : Nat) : sgn n x = (BitVec.ofNat n x).toInt := by
  have hp : 2 * 2 ^ (n - 1) = 2 ^ n := by rw [← pow_succ', Nat.sub_add_cancel h]
  rw [BitVec.toInt, BitVec.toNat_ofNat, sgn]
  exact if_congr (by omega) rfl rfl

theorem tyBytes_pos (ty : Nat) : 0 < tyBytes ty := by
  unfold tyBytes
  split
  · exact one_pos
  · split <;> decide

/-- VSRA's element: the signed quotient, rounded down, is the arithmetic shift. -/
theorem sgn_ediv_emod {w : Nat} (hw : 0 < w) (x n : Nat) :
    (Int.ediv (sgn w x) (2 ^ n) % (2 ^ w : Nat)).toNat = ((BitVec.ofNat w x).sshiftRight n).toNat := by
  have h : Int.ediv (sgn w x) (2 ^ n) = ((BitVec.ofNat w x).sshiftRight n).toInt := by
    rw [BitVec.toInt_sshiftRight, Int.shiftRight_eq_div_pow, ← sgn_eq_toInt hw]
    rfl
  rw [h, ← BitVec.toNat_ofInt, BitVec.ofInt_toInt]

/-- Settles O11: the elements that each instruction computes are the statement's, cut to the element's width. -/
theorem vectorElementMoves : Obligations.VectorElementMoves := by
  unfold Obligations.VectorElementMoves
  intro s k f w x y z ab sh n
  exact ⟨leavesElements_self (exec_vand k f s), leavesElements_self (exec_vor k f s), leavesElements_self (exec_vxor k f s),
    leavesElements_of_vecMap (exec_vshl k f s) fun e => by rw [Nat.mod_mod, Nat.shiftLeft_eq]; rfl,
    leavesElements_of_eq (exec_vshr k f s) fun e => (Nat.shiftRight_eq_div_pow _ _).symm,
    leavesElements_of_eq (exec_vsra k f s) fun e => sgn_ediv_emod (Nat.mul_pos (by decide) (tyBytes_pos _)) _ _,
    leavesElements_self (exec_vcmp k f s),
    leavesElements_of_eq (exec_vsel k f s) fun e => by simp only [bne_iff_ne]; rfl,
    leavesElements_self (exec_vperm k f s),
    leavesElements_of_vecMap (exec_vbcast k f s) fun e => Nat.mod_mod _ _,
    leavesElements_self (exec_vmov k f s), leavesElements_self (exec_vmovi k f s)⟩

/-! ### Insertion, extraction and masks (R174, R175) -/

theorem testBit_bits (x lo n j : Nat) : (bits x lo n).testBit j = (decide (j < n) && x.testBit (lo + j)) := by
  rw [bits, Nat.testBit_mod_two_pow, Nat.testBit_div_two_pow, Nat.add_comm]

theorem ofLE_toLE (n x : Nat) : ofLE (toLE n x) = x % 2 ^ (8 * n) := by
  induction n generalizing x with
  | zero => simp [toLE, ofLE, Nat.mod_one]
  | succ n ih =>
    rw [toLE, ofLE, ih, BitVec.toNat_ofNat, show 8 * (n + 1) = 8 + 8 * n by ring, pow_add]
    exact Nat.mod_mul.symm

theorem length_toLE (n x : Nat) : (toLE n x).length = n := by
  induction n generalizing x with
  | zero => rfl
  | succ n ih => rw [toLE, List.length_cons, ih]

/-- A bit among the bytes put is theirs, and another stays. -/
theorem getLsbD_putBytes {n : Nat} (v : BitVec n) (off len x : Nat) {j : Nat} (hj : j < n) :
    (putBytes v off (toLE len x)).getLsbD j =
      if 8 * off ≤ j ∧ j < 8 * off + 8 * len then (x % 2 ^ (8 * len)).testBit (j - 8 * off) else v.getLsbD j := by
  have hm : ((2 ^ (8 * len) - 1) * 2 ^ (8 * off)).testBit j = decide (8 * off ≤ j ∧ j < 8 * off + 8 * len) := by
    rw [Nat.testBit_mul_two_pow, Nat.testBit_two_pow_sub_one, ← Bool.decide_and]
    exact decide_eq_decide.2 (by omega)
  have hv : (x % 2 ^ (8 * len) * 2 ^ (8 * off)).testBit j = (decide (8 * off ≤ j) && (x % 2 ^ (8 * len)).testBit (j - 8 * off)) :=
    Nat.testBit_mul_two_pow ..
  rw [putBytes, length_toLE, ofLE_toLE]
  simp only [BitVec.getLsbD_or, BitVec.getLsbD_and, BitVec.getLsbD_not, BitVec.getLsbD_ofNat, hm, hv, hj, decide_true, Bool.true_and]
  split
  case isTrue h => simp [h]
  case isFalse h => simp [h]

theorem elemOf_putBytes {w i e : Nat} (v : Vec) (x : Nat) (he : e < 128 / w) :
    elemOf (putBytes v (w * i) (toLE w x)) w e = if e = i then x % 2 ^ (8 * w) else elemOf v w e := by
  have hb : w * e + w ≤ 128 := by
    calc w * e + w = w * (e + 1) := by ring
      _ ≤ w * (128 / w) := Nat.mul_le_mul_left _ he
      _ ≤ 128 := Nat.mul_div_le 128 w
  refine Nat.eq_of_testBit_eq fun j => ?_
  rw [apply_ite (Nat.testBit · j), elemOf, elemOf, testBit_bits, testBit_bits, BitVec.testBit_toNat, BitVec.testBit_toNat]
  by_cases hj : j < 8 * w
  case neg => simp [hj]
  case pos =>
    rw [Nat.mul_assoc, getLsbD_putBytes _ _ _ _ (by omega)]
    by_cases h : e = i
    case pos => subst h; simp [hj]
    case neg =>
      have hn : w * e + w ≤ w * i ∨ w * i + w ≤ w * e := by
        rw [← Nat.mul_succ, ← Nat.mul_succ]
        exact (Nat.lt_or_gt_of_ne h).imp (Nat.mul_le_mul_left w) (Nat.mul_le_mul_left w)
      rw [if_neg h, if_neg (by omega)]

theorem kopBits_eq (fn : Nat) (a b : BitVec 32) : kopBits fn a b = if fn = 0 then a &&& b else if fn = 1 then a ||| b
    else if fn = 2 then a ^^^ b else if fn = 3 then a &&& ~~~b else if fn = 4 then ~~~a else a := by
  unfold kopBits
  split
  case h_6 h0 h1 h2 h3 h4 => rw [if_neg h0, if_neg h1, if_neg h2, if_neg h3, if_neg h4]
  all_goals rfl

/-- Settles O12, from the result that each instruction leaves to come. -/
theorem vectorInsertExtractMasks : Obligations.VectorInsertExtractMasks := by
  unfold Obligations.VectorInsertExtractMasks
  intro s k f w a b x
  refine ⟨fun _ => ⟨_, leavesVec_of_vecInto (sat := false) (exec_vins k f s) rfl, fun e he => elemOf_putBytes _ _ he⟩,
    leavesVec_of_vecInto (sat := false) (exec_vext k f s) rfl, ?_, fun h => ?_, fun h => ?_, fun h => ?_⟩
  · rw [← kopBits_eq]
    exact leavesVec_of_vecInto (sat := false) (exec_kop k f s) rfl
  all_goals exact leavesVec_of_vecInto (sat := false) (body := fun s => kmov s f) (by rw [exec_kmov, execKmov, h]; rfl) (by rw [kmov, h]; rfl)

/-! ### Conversion, reduction and scan (R171 to R173) -/

/-- Settles O13, from the result that each instruction leaves to come. -/
theorem vectorConvertReduceScan : Obligations.VectorConvertReduceScan := by
  unfold Obligations.VectorConvertReduceScan
  intro s k f ts ns nd w part src one act clamped op op'
  have converts : convert s.begun f = vecInto s.begun (.v f.vd) (mapElems w (s.rk f.km) (s.rv f.vd 3) fun e =>
      match src e with | some x => (one x).1 | none => elemOf (s.rv f.vd 3) w e) clamped := by
    rw [convert, bits_low]; rfl
  refine ⟨⟨_, leavesVec_of_vecInto (exec_vcvt k f s) converts, fun e he => ?_⟩,
    leavesVec_of_vecInto (sat := false) (exec_vred k f s) rfl,
    _, leavesVec_of_vecInto (sat := false) (exec_vscan k f s) rfl, fun e he => elemOf_mapElems _ _ _ he⟩
  rw [elemOf_mapElems _ _ _ he]
  by_cases ha : act e
  case neg => rw [if_neg ha, if_neg ha]
  case pos =>
    rw [if_pos ha, if_pos ha]
    cases src e with
    | some j => rfl
    | none => exact elemOf_mod _ _ _

end Sys2Proof.Machine
end

section
/-! PROOFS. The register file, the checks before an instruction's effect, and trap entry (R29, R30, R33, R50, R56, R61, R95, R96). -/

namespace Sys2Proof.Machine

/-! ### The register file -/

@[simp] theorem Reg.fixed_s {n : Nat} (h : n ≠ 0) : (Reg.s n).fixed = false := beq_false_of_ne h
@[simp] theorem Reg.fixed_k {n : Nat} (h : n ≠ 0) : (Reg.k n).fixed = false := beq_false_of_ne h
@[simp] theorem Reg.fixed_p {n : Nat} (h : n ≠ 0) : (Reg.p n).fixed = false := beq_false_of_ne h

/-- Settles O28, from what a register reads after a write to it and to another. -/
theorem registerFileReadsWrites : Obligations.RegisterFileReadsWrites := by
  unfold Obligations.RegisterFileReadsWrites
  intro x r q v n w a b
  exact ⟨fun h => (x.reg_setReg_self _ _ (Reg.fixed_s h)).trans (Reg.cut_s n w), (x.reg_setReg_self _ _ rfl).trans (Reg.cut_a n a),
    x.reg_setReg_self _ _ rfl, fun h => x.reg_setReg_self _ _ (Reg.fixed_k h),
    fun h => (x.reg_setReg_self _ _ (Reg.fixed_p h)).trans (Reg.cut_p n b),
    rfl, rfl, rfl, x.reg_setReg_other v⟩

/-! ### The checks before an effect -/

section
variable {s : State} {op : Nat} {k : Ctl} {regs : List Reg} {pre : State → Option (Nat × Addr)} {body : State → Res}
  (hlive : s.thr.life = .live) (howed : s.owed = none) (hvalue : s.valueOwed op = false) (hregion : s.thr.region = none)
include hlive howed hvalue hregion

/-- The checks of a thread that is live, owes nothing and is in no region begin with the registers (R30). -/
theorem State.issue_checks : s.issue op k regs pre body =
    if regs.any (fun r => !s.ctx.has r) then (s.take cILLOP 0).tickFresh
    else if (roleOf op).any (· != s.actsAs) then (s.take cILLROLE 0).tickFresh
    else match pre s with
      | some (c, a) => (s.take c a).tickFresh
      | none => match if k.s then s.waitS else none with
        | some t => t
        | none =>
          if s.thr.retry = none && (s.rp k.pg == k.pn) then (s.advance s).tickFresh else ((body s.begun).into s).tickFresh := by
  unfold State.issue
  have hr : (s.thr.region.isSome && regionIllegal op) = false := by rw [hregion]; rfl
  rw [if_neg (not_not.2 hlive), howed]
  simp only [hvalue, hr, Bool.false_eq_true, if_false]
  rfl

theorem State.issue_illop (h : regs.any (fun r => !s.ctx.has r) = true) :
    s.issue op k regs pre body = (s.take cILLOP 0).tickFresh := by
  rw [State.issue_checks hlive howed hvalue hregion, if_pos h]

variable (hregs : regs.any (fun r => !s.ctx.has r) = false)
include hregs

theorem State.issue_illrole {e : Nat} (hr : roleOf op = some e) (he : e ≠ s.actsAs) :
    s.issue op k regs pre body = (s.take cILLROLE 0).tickFresh := by
  rw [State.issue_checks hlive howed hvalue hregion, if_neg (by simp [hregs]), if_pos (by simp [hr, he])]

variable (hrole : (roleOf op).all (· == s.actsAs) = true)
include hrole

omit hlive howed hvalue hregion hregs in
theorem role_passed : ¬(roleOf op).any (· != s.actsAs) = true := by
  cases hr : roleOf op with
  | none => simp
  | some e => simpa [hr] using hrole

theorem State.issue_priv {c : Nat} {a : Addr} (h : pre s = some (c, a)) :
    s.issue op k regs pre body = (s.take c a).tickFresh := by
  rw [State.issue_checks hlive howed hvalue hregion, if_neg (by simp [hregs]), if_neg (role_passed hrole), h]

theorem State.issue_skips (h : pre s = none) (hs : k.s = true → s.waitS = none) (hretry : s.thr.retry = none)
    (hp : s.rp k.pg = k.pn) : s.issue op k regs pre body = (s.advance s).tickFresh := by
  have hw : (if k.s then s.waitS else none) = none := by
    split
    · exact hs ‹_›
    · rfl
  rw [State.issue_checks hlive howed hvalue hregion, if_neg (by simp [hregs]), if_neg (role_passed hrole), h, hw]
  exact if_pos (by simp [hretry, hp])

end

/-- Settles O29: each check in its turn. -/
theorem checksComeInOrder : Obligations.ChecksComeInOrder := by
  unfold Obligations.ChecksComeInOrder
  intro s op k regs pre body hlive howed hvalue hregion
  exact ⟨State.issue_illop hlive howed hvalue hregion, fun hregs =>
    ⟨fun e => State.issue_illrole hlive howed hvalue hregion hregs, fun hrole =>
      ⟨fun c a => State.issue_priv hlive howed hvalue hregion hregs hrole,
        State.issue_skips hlive howed hvalue hregion hregs hrole⟩⟩⟩

/-! ### What a trap gives up (R37, R276, R363, R388) -/

theorem State.getThread_cur (s : State) : s.getThread s.cur = s.thr := if_pos rfl

theorem State.thr_dropResv (s : State) : (s.dropResv s.cur).thr = { s.thr with resv := none } := by
  unfold State.dropResv
  rw [s.getThread_cur]
  split
  case h_1 h => rw [← h]
  case h_2 h =>
    rw [State.modThread_cur]
    dsimp only
    split <;> rfl

theorem State.thr_leaveQueues (s : State) : s.leaveQueues.thr = s.thr := by unfold State.leaveQueues; split <;> rfl

theorem State.thr_ueFind (s : State) (ps : List Piece) : (s.ueFind ps).thr = s.thr := by unfold State.ueFind; split <;> rfl

theorem State.thr_trapLeaves (s : State) (c : Nat) (a : Addr) :
    (s.trapLeaves c a).thr = ({ s.thr with resv := none } : Thread).midway := by
  have hq : (s.dropResv s.cur).leaveQueues.thr = { s.thr with resv := none } := by
    rw [State.thr_leaveQueues, State.thr_dropResv]
  unfold State.trapLeaves
  dsimp only
  split
  · split
    · rw [State.thr_ueFind, hq]
    · rw [hq]
  · rw [hq]

theorem State.trapLeaves_other {c : Nat} (s : State) (a : Addr) (h : c ≠ cUE) :
    s.trapLeaves c a = { (s.dropResv s.cur).leaveQueues with thr := (s.trapLeaves c a).thr } := by
  unfold State.trapLeaves
  dsimp only
  rw [if_neg h]

theorem State.ctx_dropResv (s : State) : (s.dropResv s.cur).ctx = s.ctx := by
  unfold State.dropResv
  split
  case h_1 => rfl
  case h_2 =>
    rw [State.modThread_cur]
    dsimp only
    split <;> rfl

theorem State.ctx_leaveQueues (s : State) :
    s.leaveQueues.ctx = { s.ctx with qs := s.leaveQueues.ctx.qs, sems := s.leaveQueues.ctx.sems } := by
  unfold State.leaveQueues; split <;> rfl

theorem State.ctx_ueFind (s : State) (ps : List Piece) : (s.ueFind ps).ctx = s.ctx := by unfold State.ueFind; split <;> rfl

/-- Of its unit, a trap gives up places in queues and semaphores alone. -/
theorem State.ctx_trapLeaves (s : State) (c : Nat) (a : Addr) :
    (s.trapLeaves c a).ctx = { s.ctx with qs := (s.trapLeaves c a).ctx.qs, sems := (s.trapLeaves c a).ctx.sems } := by
  have hq : (s.trapLeaves c a).ctx = (s.dropResv s.cur).leaveQueues.ctx := by
    unfold State.trapLeaves
    dsimp only
    split
    · split
      · rw [State.ctx_ueFind]
      · rfl
    · rfl
  rw [hq, State.ctx_leaveQueues, State.ctx_dropResv]

/-! ### Trap entry (R95, R96) -/

@[simp] theorem Thread.tstat_midway (x : Thread) : x.midway.tstat = x.tstat := by unfold Thread.midway; split <;> rfl

theorem State.tstat_trapLeaves (s : State) (c : Nat) (a : Addr) : (s.trapLeaves c a).thr.tstat = s.thr.tstat := by
  rw [State.thr_trapLeaves, Thread.tstat_midway]

/-- Settles O32: what a trap gives up, and then the handler-fault path. -/
theorem nestedTrapParksInHfault : Obligations.NestedTrapParksInHfault := by
  unfold Obligations.NestedTrapParksInHfault
  intro s c x a hbusy r
  have hr : tHbusy r.thr.tstat = true := by rw [s.tstat_trapLeaves]; exact hbusy
  have htile : r.ctx.vtile = s.ctx.vtile := by rw [s.ctx_trapLeaves]
  have hpid : r.ctx.pid = s.ctx.pid := by rw [s.ctx_trapLeaves]
  rw [← htile, ← hpid]
  exact if_pos hr

/-- The thread that enters its handler. -/
def Thread.entered (t : Thread) (c : Nat) (x a : Addr) : Thread :=
  { t with
    tpc := x, tcause := BitVec.ofNat 64 c, taddr := a, tstat := tstatWord (t.mcont || t.mrun.isSome) false t.priv true 0 0
    ar := if t.priv = 0 then SMap.set 0 t.ar 31 t.tsp else t.ar, tsp := if t.priv = 0 then SMap.get 0 t.ar 31 else t.tsp
    tloops := t.loops, loops := { t.loops with lc0 := 0, lc1 := 0 }, priv := max t.priv 1, pc := t.tvec, young := false
    wait := .none, retry := none, mcont := false, mrun := none }

/-- The state whose thread has entered its handler. -/
def State.entered (s : State) (c : Nat) (x a : Addr) : State :=
  { s.trapLeaves c a with thr := (s.trapLeaves c a).thr.entered c x a }

theorem State.trapEntry_enters {s : State} {c : Nat} (x a : Addr) (hbusy : tHbusy s.thr.tstat = false)
    (ht : (s.entered c x a).target (s.entered c x a).thr.pc = none) :
    s.trapEntry c x a = (s.entered c x a).wordSeen (s.entered c x a).thr.pc := by
  have hb : ¬tHbusy (s.trapLeaves c a).thr.tstat = true := by rw [s.tstat_trapLeaves, hbusy]; simp
  have he : s.trapEntry c x a = match (s.entered c x a).target (s.entered c x a).thr.pc with
      | none => (s.entered c x a).wordSeen (s.entered c x a).thr.pc
      | some (c', a') => ((s.entered c x a).wordSeen (s.entered c x a).thr.pc).handlerFault c' x a' := if_neg hb
  rw [he, ht]

/-- TSTAT at the entry of a trap whose condition is not a deferred one. -/
theorem tstatWord_entry (m : Bool) {p : Nat} (h : p < 3) :
    (tstatWord m false p true 0 0).getLsbD 4 = true ∧ (tstatWord m false p true 0 0).toNat / 4 % 4 = p ∧
    (tstatWord m false p true 0 0).getLsbD 1 = false ∧ (tstatWord m false p true 0 0).getLsbD 0 = m := by
  revert m p
  decide

/-! ### A line word that is fetched again (R50) -/

/-- `t` is `s` but for the tile's copies and what an error leaves in the buckets, the log and the store. -/
structure Noted (s t : State) : Prop where
  thr     : t.thr = s.thr
  ctx     : t.ctx = s.ctx
  threads : t.threads = s.threads
  ctxs    : t.ctxs = s.ctxs
  mem     : t.mem = s.mem

theorem Noted.refl (s : State) : Noted s s := ⟨rfl, rfl, rfl, rfl, rfl⟩

theorem Noted.trans {s t u : State} (h : Noted s t) (g : Noted t u) : Noted s u :=
  ⟨g.thr.trans h.thr, g.ctx.trans h.ctx, g.threads.trans h.threads, g.ctxs.trans h.ctxs, g.mem.trans h.mem⟩

theorem noted_record (s : State) (pid a : Nat) (bs : List Byte) (ring : Option Nat) : Noted s (s.record pid a bs ring) :=
  ⟨rfl, rfl, rfl, rfl, rfl⟩

theorem noted_modPart (s : State) (p : Nat) (f : Partn → Partn) : Noted s (s.modPart p f) := ⟨rfl, rfl, rfl, rfl, rfl⟩

theorem noted_putStore (s : State) (x : Persist) : Noted s (s.putStore x) := ⟨rfl, rfl, rfl, rfl, rfl⟩

theorem noted_sendRec (s : State) (p : Nat) : Noted s (s.sendRec p) := by
  unfold State.sendRec
  dsimp only
  split
  · exact .refl s
  · exact noted_record _ _ _ _ _

theorem noted_post (s : State) (r : ERec) : Noted s (s.post r) := by
  unfold State.post
  dsimp only
  split
  · split
    · exact (noted_modPart _ _ _).trans (noted_sendRec _ _)
    · exact noted_modPart _ _ _
  · exact noted_modPart _ _ _

theorem noted_writeLog (s : State) (k : Nat) (r : ERec) : Noted s (s.writeLog k r) := by
  unfold State.writeLog
  split
  · exact .refl s
  · exact noted_record _ _ _ _ _

theorem noted_logEvent (s : State) (kind tile pid cause addr : Nat) : Noted s (s.logEvent kind tile pid cause addr) := by
  have again (q : Option ERec) (n k : Nat) (r : ERec) : Noted s (({ s with lastErr := q, elcount := n } : State).writeLog k r) :=
    .trans (t := { s with lastErr := q, elcount := n }) ⟨rfl, rfl, rfl, rfl, rfl⟩ (noted_writeLog _ _ _)
  unfold State.logEvent
  dsimp only
  split
  · exact again _ _ _ _
  · split
    · exact (again _ _ _ _).trans (noted_post _ _)
    · exact again _ _ _ _

theorem noted_leak (s : State) (kind id : Nat) : Noted s (s.leak kind id) := by
  unfold State.leak
  dsimp only
  split <;> exact ⟨rfl, rfl, rfl, rfl, rfl⟩

theorem noted_errCounted (s : State) (kind id : Nat) : Noted s (s.errCounted kind id) :=
  ((noted_leak s kind id).trans (u := { s.leak kind id with
      buckets := SMap.set 0 (s.leak kind id).buckets (bucketNo kind id) (s.fill kind id + 1) })
    ⟨rfl, rfl, rfl, rfl, rfl⟩).trans (noted_logEvent _ _ _ _ _ _)

theorem noted_errForeseen (s : State) (kind id : Nat) : Noted s (s.errForeseen kind id) :=
  (noted_errCounted s kind id).trans (noted_logEvent _ _ _ _ _ _)

theorem noted_correctable (s : State) (kind id : Nat) : Noted s (s.correctable kind id) := by
  unfold State.correctable
  dsimp only
  split
  · refine (noted_errForeseen s kind id).trans ?_
    split
    · exact ⟨rfl, rfl, rfl, rfl, rfl⟩
    · split <;> exact noted_putStore _ _
  · exact noted_errCounted s kind id

theorem noted_noteTlb (s : State) (a : Addr) : Noted s (s.noteTlb s.me a) := by
  rw [s.noteTlb_eq a]
  exact ⟨rfl, rfl, rfl, rfl, rfl⟩

theorem noted_noteFetch (s : State) (a : Addr) : Noted s (s.noteFetch a) := by
  unfold State.noteFetch
  split
  · exact (noted_noteTlb s _).trans ⟨rfl, rfl, rfl, rfl, rfl⟩
  · exact .refl s

theorem noted_dropLine (s : State) (a : Addr) : Noted s (s.dropLine a) := by
  unfold State.dropLine
  split <;> exact ⟨rfl, rfl, rfl, rfl, rfl⟩

theorem noted_wordSeen (s : State) (a : Addr) : Noted s (s.wordSeen a) := by
  unfold State.wordSeen
  dsimp only
  split
  · exact .refl s
  · split
    · split
      · exact ((noted_dropLine s a).trans (noted_correctable _ _ _)).trans (noted_noteFetch _ _)
      · exact noted_dropLine s a
    · exact noted_dropLine s a

/-! ### Trap entry from outside a handler -/

/-- MPC of a thread that a trap stops, in the middle of a sequence or not (R363). -/
def Thread.stoppedMpc (x : Thread) : Word := match x.mrun with | some q => q.mpc | none => x.mpc

theorem Thread.midway_eq (x : Thread) : x.midway = { x with mpc := x.stoppedMpc } := by
  unfold Thread.midway
  split
  next q h =>
    have hm : x.stoppedMpc = q.mpc := by rw [Thread.stoppedMpc, h]
    rw [hm]
  next h =>
    have hm : x.stoppedMpc = x.mpc := by rw [Thread.stoppedMpc, h]
    rw [hm]

section
variable (s : State) (c : Nat) (x a : Addr)

/-- The thread that has entered its handler, field by field, from what it was before the trap. -/
theorem State.thr_entered : (s.entered c x a).thr = { s.thr with
    tpc := x, tcause := BitVec.ofNat 64 c, taddr := a, tstat := tstatWord (s.thr.mcont || s.thr.mrun.isSome) false s.thr.priv true 0 0
    ar := if s.thr.priv = 0 then SMap.set 0 s.thr.ar 31 s.thr.tsp else s.thr.ar
    tsp := if s.thr.priv = 0 then SMap.get 0 s.thr.ar 31 else s.thr.tsp
    tloops := s.thr.loops, loops := { s.thr.loops with lc0 := 0, lc1 := 0 }, priv := max s.thr.priv 1, pc := s.thr.tvec
    young := false, wait := .none, retry := none, mcont := false, mrun := none
    mpc := s.thr.stoppedMpc, resv := none } := by
  rw [State.entered, State.thr_trapLeaves, Thread.midway_eq]
  rfl

/-- No register but a31 changes, and that only from U. -/
theorem State.reg_entered {q : Reg} (h : q ≠ .a 31) : (s.entered c x a).thr.reg q = s.thr.reg q := by
  rw [State.thr_entered]
  cases q with
  | a n =>
    have hn : n ≠ 31 := fun e => h (by rw [e])
    simp only [Thread.reg]
    split
    · rw [SMap.get_set_other _ _ _ hn]
    · rfl
  | _ => rfl

end

/-- Settles O31: the thread enters its handler, and fetching the line of TVEC keeps it. -/
theorem trapEntrySavesAndEnters : Obligations.TrapEntrySavesAndEnters := by
  unfold Obligations.TrapEntrySavesAndEnters
  intro s c x a r u t hbusy hpriv htarget
  have hthr := s.thr_entered c x a
  have hpc : (s.entered c x a).thr.pc = s.thr.tvec := by rw [hthr]
  have hup : (s.entered c x a).thr.priv = u.thr.priv := by rw [hthr]
  have hu : s.entered c x a = { u with thr := (s.entered c x a).thr } := rfl
  have ht : t = (s.entered c x a).wordSeen s.thr.tvec := by
    rw [← hpc]
    refine State.trapEntry_enters x a hbusy ?_
    rw [hpc, hu, u.target_thr _ hup, htarget]
  have hn : Noted (s.entered c x a) t := ht ▸ noted_wordSeen _ _
  have hregs (q : Reg) (h : q ≠ .a 31) : t.thr.reg q = s.thr.reg q := by rw [hn.thr]; exact s.reg_entered c x a h
  have hword (h : u.wordOk s.thr.tvec = true) : t = { r with thr := t.thr } := by
    have hw : (s.entered c x a).wordOk s.thr.tvec = true := by rw [hu, u.wordOk_thr _ hup]; exact h
    rw [ht, State.wordSeen_ok hw]
    rfl
  obtain ⟨h4, h2, h1, h0⟩ := tstatWord_entry (s.thr.mcont || s.thr.mrun.isSome) hpriv
  refine ⟨?_, ?_, ?_, ?_, ?_, ?_, ?_, ?_, fun h => ?_, fun h => ?_, ?_, ?_, ?_, ?_, hregs, fun h => s.trapLeaves_other a h, hword,
    hn.mem, hn.threads, hn.ctx, hn.ctxs, ?_⟩
  all_goals rw [hn.thr, hthr]
  case refine_4 => exact h4
  case refine_5 => exact h2
  case refine_6 => exact h1
  case refine_7 => exact h0
  case refine_9 => simp [h, Thread.reg, ofAddr]
  case refine_10 => simp [h, Thread.reg]
  all_goals rfl

end Sys2Proof.Machine
end

section
/-! PROOFS. A turn of a tile whose first thread issues (R34, R35, R47, R61). -/

namespace Sys2Proof.Machine

theorem State.focus_cur (s : State) : s.focus s.cur = s := if_pos rfl

def Wait.isTrap : Wait → Bool
  | .trap _ _ => true
  | _ => false

/-- A thread owes a trap or an abort before its next instruction (R287, R298, R339). -/
def Thread.owes (x : Thread) : Bool :=
  !x.region.any (·.committed) &&
    (x.wait.isTrap || (x.region.bind (·.doom)).isSome || x.rill || (x.wdog.isSome && x.retry.isNone))

theorem isSome_ite_some {α : Type} (p : Prop) [Decidable p] (a b : α) : (if p then some a else some b).isSome = true := by
  split <;> rfl

theorem State.isSome_owed (s : State) : s.owed.isSome = s.thr.owes := by
  unfold State.owed Thread.owes
  cases s.thr.region.any (·.committed) with
  | true => rfl
  | false =>
    rw [if_neg Bool.false_ne_true]
    split
    next c a h =>
      rw [isSome_ite_some, show s.thr.wait.isTrap = true by rw [h]; rfl]
      rfl
    next h =>
      have hw : s.thr.wait.isTrap = false := by
        unfold Wait.isTrap
        split
        · exact absurd ‹_› (h _ _)
        · rfl
      rw [hw]
      cases s.thr.region.bind (·.doom) with
      | some d => exact isSome_ite_some _ _ _
      | none =>
        cases s.thr.rill with
        | true => exact (congrArg Option.isSome (if_pos rfl)).trans (isSome_ite_some _ _ _)
        | false =>
          cases s.thr.wdog with
          | none => rfl
          | some l => cases s.thr.retry with
            | some e => rfl
            | none => exact isSome_ite_some _ _ _

theorem State.owed_agenda {s : State} (r : List Move) (h : s.owed = none) : ({ s with agenda := r } : State).owed = none := by
  rw [← Option.not_isSome_iff_eq_none, State.isSome_owed] at h ⊢
  exact h

/-- A thread that may issue, and whose slot is drawn from a line in which it is no older member of a pair, executes it. -/
theorem State.turn_slot {ex : Instr → State → Out} {s u : State} {l : Line} {j : Nat} {i : Instr} (hlive : s.thr.life = .live)
    (howed : s.owed = none) (hdraw : s.draw = (u, .ok (l, j))) (holder : l.older.contains j = false) (hi : decode (l.slot j) = .ok i) :
    s.turn ex = ex i (if opOf (l.slot j) < 0x3C0 then { u with thr := { u.thr with mcont := false } } else u) := by
  unfold State.turn
  rw [if_neg (not_not.2 hlive), howed]
  simp only [hdraw, holder, Bool.false_eq_true, if_false]
  unfold State.slot
  rw [hi]

theorem State.life_of_mayIssue {s : State} (h : s.mayIssue s.cur = true) : s.thr.life = .live := by
  unfold State.mayIssue at h
  simp only [Bool.and_eq_true, beq_iff_eq, s.getThread_cur] at h
  exact h.1.1.1.2

/-- The first thread of a rotation that may issue, and whose turn does not leave it waiting with its turn handed on, issues. -/
theorem tryThreads_issues {ex : Instr → State → Out} {s t : State} {ks : List Key} (hk : ks.head? = some s.cur)
    (hi : s.mayIssue s.cur = true) (ht : s.turn ex = .next t)
    (hw : t.thr.wait ≠ .hold ∧ (∀ c a, t.thr.wait ≠ .trap c a) ∧ t.thr.wait ≠ .token ∧ ∀ m c, t.thr.wait ≠ .fencee m c) :
    tryThreads ex ks s = (.next { t with tile := { t.tile with rot := s.hwOf s.cur } }, true) := by
  obtain ⟨hhold, htrap, htoken, hfence⟩ := hw
  obtain ⟨r, rfl⟩ := List.head?_eq_some_iff.1 hk
  unfold tryThreads
  rw [if_pos hi, s.focus_cur, ht]
  dsimp only
  split
  case h_1 h => exact absurd h hhold
  case h_2 h => exact absurd h (htrap _ _)
  case h_3 h => exact absurd h htoken
  case h_4 h => exact absurd h (hfence _ _)
  case h_5 => rfl

theorem State.tileTurn_issues {ex : Instr → State → Out} {s t : State} (hissues : s.tileIssues s.cur.t = true)
    (hk : (s.rotation s.cur.t).head? = some s.cur) (hi : s.mayIssue s.cur = true) (ht : s.turn ex = .next t)
    (hw : t.thr.wait ≠ .hold ∧ (∀ c a, t.thr.wait ≠ .trap c a) ∧ t.thr.wait ≠ .token ∧ ∀ m c, t.thr.wait ≠ .fencee m c) :
    s.tileTurn ex s.cur.t = (.next { t with tile := { t.tile with rot := s.hwOf s.cur }, plumb := t.plumb + 1 }, true) := by
  unfold State.tileTurn
  rw [if_pos hissues, tryThreads_issues hk hi ht hw]

/-- Settles O23: the thread in focus is the first that the tile tries. -/
theorem stepRunsDecodedInstruction : Obligations.StepRunsDecodedInstruction := by
  unfold Obligations.StepRunsDecodedInstruction
  intro s u v r l j i t hagenda hissues hrot hmay howed hdraw holder hi hv ht hw
  let q : State := { s with agenda := r }
  have hlive : q.thr.life = .live := State.life_of_mayIssue (s := s) hmay
  have hturn : q.turn exec = .next t := by
    rw [State.turn_slot hlive (State.owed_agenda r howed) hdraw holder hi, ← hv, ht]
  have hmove : s.move exec dueSteps = (q.tileTurn exec q.cur.t).1 := by
    unfold State.move
    rw [hagenda]
  exact hmove.trans (congrArg Prod.fst (State.tileTurn_issues (s := q) hissues hrot hmay hturn hw))

end Sys2Proof.Machine
end

section
/-! PROOFS. A line fetched again after a bad parity (R50): the statement of the steps that move threads on fails there. -/

namespace Sys2Proof.Machine

/-- A thread at a NOP at 0x2000, in a tile that holds a copy of its line in which bit 0 of the line word is flipped. -/
def staleLine : State :=
  let s := State.reset.withFetchWord 96 0
  { s with tile := { s.tile with copies := [(64, { data := (1 : Vec) <<< 480, till := 1000, pid := 0 })] } }

/-- The line as the tile's copy has it, and as memory has it. -/
def flippedNops : Line := { bytes := List.replicate 60 0, word := 1 }
def nopsLine : Line := { bytes := List.replicate 60 0, word := 0 }

def fetchesLine (s : State) (l : Line) : Bool := match s.fetch 0x2000 with | .ok m => m == l | .error _ => false

theorem fetch_of_fetchesLine {s : State} {l : Line} (h : fetchesLine s l = true) : s.fetch 0x2000 = .ok l := by
  unfold fetchesLine at h
  split at h
  next m hm => rw [hm, beq_iff_eq.1 h]
  next => cases h

/-- The step keeps the line that the second fetch brought, as every draw of a line does. -/
theorem lineRefetch_staleLine :
    (match exec (.lineRefetch 0 0 0) staleLine with | .next t => t.thr.drawn.isSome | _ => false) = true := by decide +kernel

/-- Refutes O51: in `staleLine` the copy fails its parity and memory's line passes. The step keeps the line that it drew
(`drawn`); the statement's next state leaves that out. -/
theorem not_threadsGoOn : ¬ Obligations.ThreadsGoOn := by
  unfold Obligations.ThreadsGoOn
  intro h
  obtain ⟨-, -, -, -, hline, -⟩ := h staleLine 0 0 0 0
  have hfocus : staleLine.focus ⟨0, 0, 0⟩ = staleLine := staleLine.focus_cur
  have hpc : staleLine.thr.pc = 0x2000 := rfl
  rw [hfocus, hpc] at hline
  have hfetch := fetch_of_fetchesLine (s := staleLine) (l := flippedNops) (by decide +kernel)
  have hagain := fetch_of_fetchesLine (s := staleLine.dropLine 0x2000) (l := nopsLine) (by decide +kernel)
  have hstep := (hline 0 flippedNops nopsLine (by decide +kernel) (by decide +kernel) hfetch (by decide +kernel) hagain).2
    (by decide +kernel) (by decide +kernel)
  have hdrawn := lineRefetch_staleLine
  have hthr := (((noted_dropLine staleLine 0x2000).trans (noted_correctable _ 2 (clusterOf staleLine.cur.t))).trans
    (noted_noteFetch _ 0x2000)).thr
  rw [hstep] at hdrawn
  dsimp only [State.thr_tickFresh] at hdrawn
  rw [hthr] at hdrawn
  exact absurd hdrawn (by decide +kernel)

end Sys2Proof.Machine
end

section
/-! PROOFS. The copy unit's instructions and the collectives' (R34, R196 to R214). -/

namespace Sys2Proof.Machine

/-! ### What the bodies come to, of a thread without a redundant partner to which no stop is to be delivered -/

section
variable {s : State}

theorem State.cuStop_none (h : s.ctx.cu.pend = false) : s.cuStop = none := if_neg (by simp [h])

theorem State.cur_syncPut (s : State) (t b i v : Nat) : (s.syncPut t b i v).cur = s.cur := by
  unfold State.syncPut State.sramWrite
  refine List.foldlRecOn (motive := fun r : State => r.cur = s.cur) _ _ ?_ fun r hr p _ => hr
  unfold State.modTile State.setTile
  split <;> rfl

theorem State.cur_sramFull (s : State) (t d n : Nat) (full : Bool) : (s.sramFull t d n full).cur = s.cur := by
  unfold State.sramFull State.modTile State.setTile
  split <;> rfl

variable (hsolo : s.solo = true) (hpend : s.ctx.cu.pend = false)
include hsolo

theorem State.not_trails : ¬s.trails = true := by rw [(State.solo_iff hsolo).1]; exact Bool.false_ne_true

/-- A read of a value that a partner would be given too. -/
theorem done_copyTo_late (r : Reg) (v : Vec) :
    Res.done ((s.copyTo s.cur v).late [(r, v)]) = .done (s.leave .ready [(r, v)]) := by
  rw [State.copyTo_solo hsolo]; rfl

/-- A collective whose group is not defined. -/
theorem waitGroup_none (c : FColl) (hg : s.ctx.group c.g = none) : waitGroup s c = .done (s.leave .ready [(.s c.d, 0)]) := by
  unfold waitGroup
  rw [if_neg (State.not_trails hsolo), hg]
  exact done_copyTo_late hsolo _ _

/-- A group with a collective that is outstanding. -/
theorem waitGroup_left {c : FColl} {g : Group} (hg : s.ctx.group c.g = some g) (hl : g.left ≠ 0) :
    waitGroup s c = .hold { s with thr := { s.thr with wait := .cwait c.g } } := by
  unfold waitGroup
  rw [if_neg (State.not_trails hsolo), hg]
  exact if_pos hl

omit hsolo in
theorem Ctx.roles_modGroup (x : Ctx) (n : Nat) (f : Group → Group) : (x.modGroup n f).roles = x.roles := by
  unfold Ctx.modGroup; split <;> rfl

theorem State.solo_modGroup (n : Nat) (f : Group → Group) : ({ s with ctx := s.ctx.modGroup n f } : State).solo = true := by
  unfold State.solo State.trailed
  rw [Ctx.roles_modGroup]
  exact hsolo

theorem waitGroup_done {c : FColl} {g : Group} (hg : s.ctx.group c.g = some g) (hl : g.left = 0) (hf : g.fmx = none) :
    waitGroup s c = .done (({ s with ctx := s.ctx.modGroup c.g fun y => { y with status := 0 } } : State).late
      [(.s c.d, BitVec.ofNat 1024 g.status)]) := by
  unfold waitGroup
  rw [if_neg (State.not_trails hsolo), hg]
  dsimp only
  rw [if_neg (not_not.2 hl), hf]
  exact done_copyTo_late (State.solo_modGroup hsolo _ _) _ _

theorem defineGroup_left {c : FColl} {g : Group} (hg : s.ctx.group c.g = some g) (hl : g.left ≠ 0) :
    defineGroup s c = .hold { s with thr := { s.thr with wait := .cwait c.g } } := by
  unfold defineGroup
  dsimp only
  rw [if_neg (State.not_trails hsolo), hg]
  exact if_pos (by simpa using hl)

/-- A group with no collective outstanding, whose members are well formed, this tile among them. -/
theorem defineGroup_done {c : FColl} {t : State} {l : List (Nat × Nat)} {r : Nat}
    (hl : (s.ctx.group c.g).all (fun g => g.left == 0) = true) (hn : 1 ≤ (s.rs c.n 2).toNat) (hn' : (s.rs c.n 2).toNat ≤ 65536)
    (ha : (s.ra c.asrc 1).toNat % 8 = 0) (hm : readMembers s (s.ra c.asrc 1) (s.rs c.n 2).toNat 0 [] = .ok (t, l))
    (ht : t.solo = true) (hr : l.findIdx? (· == (s.ctx.vtile, s.ownFab)) = some r)
    (ho : ∀ m ∈ l, m.2 = s.ownFab → s.ownerOf m.1 = s.ctx.pid) :
    let g : Group := { key := (s.rs c.k 3).toNat, members := l, rank := r, status := ((s.ctx.group c.g).map (·.status)).getD 0
                       fmx := (s.ctx.group c.g).bind (·.fmx) }
    defineGroup s c = .done { t with ctx := { t.ctx with groups := SMap.put t.ctx.groups c.g g } } := by
  intro g
  have hleft : ¬((s.ctx.group c.g).any fun x => x.left != 0) = true := by
    cases hg : s.ctx.group c.g with
    | none => simp
    | some g => simpa [hg] using hl
  have howner : (l.find? fun m => m.2 == s.ownFab && s.ownerOf m.1 != s.ctx.pid) = none := by
    simpa [List.find?_eq_none] using fun a b hmem (hb : b = s.ownFab) => ho (a, b) hmem hb
  unfold defineGroup
  dsimp only
  rw [if_neg (State.not_trails hsolo), if_neg hleft, if_neg (by omega), if_neg (not_not.2 ha), hm]
  dsimp only [Try.into]
  rw [hr]
  dsimp only
  rw [howner]
  dsimp only
  rw [State.compare_solo ht]

omit hsolo in
theorem fields_three (a b c x y z : Nat) : fields [(a, x), (b, y), (c, z)] = x * 2 ^ a + y * 2 ^ b + z * 2 ^ c := by
  simp [fields]

/-- The byte of the sync object that an instruction names. -/
def State.syncAt (s : State) (f : FCu) : Nat := s.ctx.ubase + (s.ra f.ay 4).toNat

section
variable {f : FCu} (hobj : s.ctx.objectBad (s.ra f.ay 4) = none) (hmis : bit (s.syncD s.cur.t (s.syncAt f) 0) 61 = false)
include hobj hmis

theorem syncWait_stale (hg : syncGen (s.syncD s.cur.t (s.syncAt f) 1) ≠ (s.rs f.t 3).toNat % 2 ^ 24) : syncWait s f =
    .done (s.leave .ready [(.s f.n, BitVec.ofNat 1024 (s.syncD s.cur.t (s.syncAt f) 1))]) := by
  rw [← bits_low] at hg
  unfold syncWait
  dsimp only
  rw [hobj]
  dsimp only
  rw [if_neg (State.not_trails hsolo), if_neg (Bool.not_eq_true _ ▸ hmis)]
  exact (if_pos hg).trans (done_copyTo_late hsolo _ _)

variable (hv : (s.rs f.t 3).toNat < 2 ^ 40)
include hv

theorem syncSet_target : syncSet s f false = .done ((s.syncPut s.cur.t (s.syncAt f) 0 ((s.rs f.t 3).toNat +
    bits (s.syncD s.cur.t (s.syncAt f) 0) 40 12 * 2 ^ 40 + bits (s.syncD s.cur.t (s.syncAt f) 0) 61 3 * 2 ^ 61)).syncMatch s.cur.t
      (s.syncAt f) (syncCount (s.syncD s.cur.t (s.syncAt f) 1))) := by
  unfold syncSet
  dsimp only
  rw [hobj]
  dsimp only
  rw [if_neg hv.not_ge, if_neg (by rw [Bool.and_eq_true]; exact fun h => Bool.false_ne_true (hmis.symm.trans h.1)),
    State.compare_solo hsolo]
  dsimp only [Try.into]
  rw [if_neg Bool.false_ne_true, fields_three, Nat.pow_zero, Nat.mul_one]
  rfl

theorem syncSet_init : syncSet s f true = .done ((((s.syncPut s.cur.t (s.syncAt f) 0 ((s.rs f.t 3).toNat +
    b2n (tsrXsp s.thr.tsr) * 2 ^ 62)).syncPut s.cur.t (s.syncAt f) 1 (syncGen (s.syncD s.cur.t (s.syncAt f) 1) * 2 ^ 40)).sramFull s.cur.t
      (s.syncAt f / 8 + 1) 1 false).syncClear s.cur.t s.cur.c (s.syncAt f)) := by
  unfold syncSet
  dsimp only
  rw [hobj]
  dsimp only
  rw [if_neg hv.not_ge, if_neg (by rw [Bool.and_eq_true]; exact fun h => Bool.false_ne_true (hmis.symm.trans h.1)),
    State.compare_solo hsolo]
  dsimp only [Try.into]
  rw [if_pos rfl]
  simp only [State.cur_syncPut]
  rfl

end

include hpend

/-- A command enters a queue that has room. -/
theorem State.cuEnter_room (hq : s.ctx.cu.q.length < 2) (x : CuCmd) (stops : Bool) (after : State → State) :
    s.cuEnter x stops after = .done (after (cuQueued s x)) := by
  have hroom : s.ctx.cu.room = true := decide_eq_true hq
  have hstop : (if stops || !s.ctx.cu.room then s.cuStop else none) = none := by
    rw [State.cuStop_none hpend, ite_self]
  unfold State.cuEnter
  rw [hstop]
  dsimp only
  rw [if_neg (State.not_trails hsolo), if_neg (by simp [hroom]), State.compare_solo hsolo]
  rfl

omit hsolo hpend in
theorem issueColl_none {c : FColl} (hg : s.ctx.group c.g = none) (op : Nat) : issueColl s op c = .trap cILLOP 0 := by
  unfold issueColl
  rw [hg]

/-- A collective of a defined group enters the queue as the next of its group. -/
theorem issueColl_room (hq : s.ctx.cu.q.length < 2) {c : FColl} {g : Group} (hg : s.ctx.group c.g = some g) (op : Nat) :
    let x : CuCmd := { op := op, dst := s.ra c.ad 0, src := s.ra c.asrc 1, n := (s.rs c.n 2).toNat, sync := 0, fn := c.fn, g := c.g
                       seq := g.seq, ty := c.ty }
    let t := cuQueued s (if op = 0x2A4 then { x with n := 0, dst := 0, src := 0 } else x)
    issueColl s op c = .done { t with ctx := t.ctx.modGroup c.g fun y => { y with seq := y.seq + 1, left := y.left + 1 } } := by
  intro x t
  unfold issueColl
  rw [hg]
  exact State.cuEnter_room hsolo hpend hq _ _ _

theorem issueCopy_room (hq : s.ctx.cu.q.length < 2) {op : Nat} {f : FCu}
    (hc : (s.copyChecks (copyCmd s op f) (s.rs f.t 3)).isNone = true) : issueCopy s op f = .done (cuQueued s (copyCmd s op f)) := by
  unfold issueCopy
  rw [if_neg (by simp [hpend])]
  dsimp only
  rw [Option.isNone_iff_eq_none.1 hc]
  exact State.cuEnter_room hsolo hpend hq _ _ _

end

/-- Settles O46, from what each instruction comes to. -/
theorem copyAndCollectiveInstructions : Obligations.CopyAndCollectiveInstructions := by
  unfold Obligations.CopyAndCollectiveInstructions
  intro s k f c u cu off b d0 d1 v coll more hsolo hpend
  have hu : u.solo = true := hsolo
  have hp : u.ctx.cu.pend = false := hpend
  have hstop : u.cuStop = none := State.cuStop_none hp
  have becomes {i : Instr} {op : Nat} {regs : List Reg} {body : State → Res} {w : State} (hi : exec i s = run op k regs body s)
      (hb : body u = .done w) : Becomes i s op k regs w := fun hr q hf => hi.trans (run_becomes hr hb hf)
  have leaves {i : Instr} {op : Nat} {regs : List Reg} {body : State → Res} {ds : List (Reg × Vec)}
      (hi : exec i s = run op k regs body s) (hb : body u = .done (u.leave .ready ds)) : Leaves i s op k regs .ready ds := by
    intro hr hf
    obtain ⟨q, hq⟩ := Option.isSome_iff_exists.1 hf
    rw [hi]
    exact run_leave .ready ds none hr hq hb
  refine ⟨fun hq => ⟨fun hc => becomes (exec_cpy k f s) (issueCopy_room hu hp hq hc),
      fun hc => becomes (exec_cpyc k f s) (issueCopy_room hu hp hq hc), fun hc => becomes (exec_cpyg k f s) (issueCopy_room hu hp hq hc),
      fun g hg => ⟨becomes (exec_cring k c s) (issueColl_room hu hp hq hg _), becomes (exec_credu k c s) (issueColl_room hu hp hq hg _),
        becomes (exec_cgath k c s) (issueColl_room hu hp hq hg _), becomes (exec_cbar k c s) (issueColl_room hu hp hq hg _)⟩⟩,
    fun hg hr => ?_, fun hb => becomes (exec_cbatch k f s) ?_, fun hr hb ho => becomes (exec_cwaitb k f s) ?_, fun hx hq => ?_,
    leaves (exec_csyncStat k f s) ?_, becomes (exec_csyncGo k f s) ?_, fun hs => becomes (exec_csyncDrop k f s) ?_,
    fun ho hd => ⟨fun hg => leaves (exec_syncw k f s) (syncWait_stale hu ho hd hg),
      fun hv => becomes (exec_syncwt k f s) (syncSet_target hu ho hd hv),
      fun hv => becomes (exec_syncwtInit k f s) (syncSet_init hu ho hd hv)⟩,
    fun hg => leaves (exec_cwait k c s) (waitGroup_none hu c hg),
    fun g hg => ⟨fun hl hx => becomes (exec_cwait k c s) (waitGroup_done hu hg hl hx), fun hl hr => ?_, fun hl hr => ?_⟩,
    fun t l r hl hn hn' ha hm ht hr ho => becomes (exec_cgrp k c s) (defineGroup_done hu hl hn hn' ha hm ht hr ho)⟩
  case refine_1 => exact run_trap hr (issueColl_none (s := u) hg _)
  case refine_2 =>
    rw [hstop]
    exact (if_neg (State.not_trails hu)).trans (if_neg hb.not_ge)
  case refine_3 =>
    rw [hstop]
    exact (if_neg (State.not_trails hu)).trans ((if_pos hr).trans ((if_neg hb.not_ge).trans (if_pos ho)))
  case refine_4 =>
    have hhead : (if u.trails then none else u.ctx.fmx.head?) = none := by
      rw [if_neg (State.not_trails hu)]
      exact congrArg List.head? hx
    intro hr hf
    obtain ⟨p, hp⟩ := Option.isSome_iff_exists.1 hf
    refine run_kept hr hp ?_
    dsimp only
    rw [hstop]
    dsimp only
    rw [hhead]
    exact if_neg fun h => Bool.false_ne_true (hq.symm.trans h)
  case refine_5 => exact (if_neg (State.not_trails hu)).trans (done_copyTo_late hu _ _)
  case refine_6 => exact congrArg Res.done (if_neg (State.not_trails hu))
  case refine_7 => exact congrArg Res.done (if_pos (by rw [(State.solo_iff hu).1]; exact hs))
  case refine_8 => exact (exec_cwait k c s).trans ((run_ready hr).trans (by rw [waitGroup_left hu hg hl]; rfl))
  case refine_9 => exact (exec_cgrp k c s).trans ((run_ready hr).trans (by rw [defineGroup_left hu hg hl]; rfl))

end Sys2Proof.Machine
end

section
/-! PROOFS. What fetching asks nothing of, and the instructions that change only that: the histogram's and the matrix unit's
(R34, R140, R141, R176 to R195). -/

namespace Sys2Proof.Machine

/-! ### Fetching asks nothing of the other threads, of the matrix unit or of the histogram -/

/-- A state with its threads, the matrix unit in focus and the tile's histogram replaced. -/
def State.aside (s : State) (y : Thread) (m : SMap Thread) (z : Mu) (h : SMap (BitVec 32)) : State :=
  { s with thr := y, threads := m, ctx := { s.ctx with mu := z }, tile := { s.tile with hist := h } }

section
variable (s : State) (y : Thread) (m : SMap Thread) (z : Mu) (h : SMap (BitVec 32))

theorem State.getCtx_aside (t c : Nat) : ∃ mu, (s.aside y m z h).getCtx t c = { s.getCtx t c with mu := mu } := by
  by_cases hc : t = s.cur.t ∧ c = s.cur.c
  · refine ⟨z, ?_⟩
    rw [show s.getCtx t c = s.ctx from if_pos hc]
    exact if_pos hc
  · exact ⟨(s.getCtx t c).mu, (if_neg hc).trans (if_neg hc).symm⟩

theorem State.getTile_aside (t : Nat) : ∃ g, (s.aside y m z h).getTile t = { s.getTile t with hist := g } := by
  by_cases ht : t = s.cur.t
  · refine ⟨h, ?_⟩
    rw [show s.getTile t = s.tile from if_pos ht]
    exact if_pos ht
  · exact ⟨(s.getTile t).hist, (if_neg ht).trans (if_neg ht).symm⟩

theorem State.pid_aside (t c : Nat) : ((s.aside y m z h).getCtx t c).pid = (s.getCtx t c).pid := by
  obtain ⟨_, e⟩ := s.getCtx_aside y m z h t c; rw [e]

theorem State.ptbr_aside (t c : Nat) : ((s.aside y m z h).getCtx t c).ptbr = (s.getCtx t c).ptbr := by
  obtain ⟨_, e⟩ := s.getCtx_aside y m z h t c; rw [e]

theorem State.launch_aside (t c : Nat) : ((s.aside y m z h).getCtx t c).launch = (s.getCtx t c).launch := by
  obtain ⟨_, e⟩ := s.getCtx_aside y m z h t c; rw [e]

theorem State.tlbFind_aside (t pid asid va : Nat) (mu : Bool) :
    ((s.aside y m z h).getTile t).tlbFind pid asid va mu = (s.getTile t).tlbFind pid asid va mu := by
  obtain ⟨_, e⟩ := s.getTile_aside y m z h t; rw [e]; rfl

theorem State.copyAt_aside (t n l : Nat) : ((s.aside y m z h).getTile t).copyAt n l = (s.getTile t).copyAt n l := by
  obtain ⟨_, e⟩ := s.getTile_aside y m z h t; rw [e]; rfl

theorem State.lgrp_aside (t : Nat) : ((s.aside y m z h).getTile t).lgrp = (s.getTile t).lgrp := by
  obtain ⟨_, e⟩ := s.getTile_aside y m z h t; rw [e]

theorem State.ownStores_aside (t : Nat) : (s.aside y m z h).ownStores t = s.ownStores t := by
  obtain ⟨_, e⟩ := s.getTile_aside y m z h t
  unfold State.ownStores
  rw [e]; rfl

theorem State.sramBytes_aside (t b n : Nat) : (s.aside y m z h).sramBytes t b n = s.sramBytes t b n := by
  obtain ⟨_, e⟩ := s.getTile_aside y m z h t
  unfold State.sramBytes
  rw [e]

theorem State.copyIn_aside (t l : Nat) : (s.aside y m z h).copyIn t l = s.copyIn t l := by
  unfold State.copyIn State.cacheGroup
  simp only [s.copyAt_aside, s.lgrp_aside, s.ownStores_aside]
  rfl

theorem State.tileLine_aside (t l : Nat) : (s.aside y m z h).tileLine t l = s.tileLine t l := by
  unfold State.tileLine
  rw [s.copyIn_aside, s.ownStores_aside]
  rfl

theorem State.replicaOf_aside (k : Key) (l : Nat) : (s.aside y m z h).replicaOf k l = s.replicaOf k l := by
  unfold State.replicaOf
  dsimp only
  rw [s.pid_aside, s.launch_aside]
  rfl

/-- The capability list names no thread, unit or tile's own state. -/
theorem State.capEntries_focus (s : State) (y : Thread) (m : SMap Thread) (c : Ctx) (x : Tile) (v : Nat) :
    ({ s with thr := y, threads := m, ctx := c, tile := x } : State).capEntries v = s.capEntries v := by
  have hseen : ({ s with thr := y, threads := m, ctx := c, tile := x } : State).tileSeen v = s.tileSeen v := rfl
  have hranges : ({ s with thr := y, threads := m, ctx := c, tile := x } : State).viewRanges v = s.viewRanges v := rfl
  have hdies : ({ s with thr := y, threads := m, ctx := c, tile := x } : State).viewDies v = s.viewDies v := rfl
  unfold State.capEntries
  simp only [hseen, hranges, hdies]

theorem State.devDouble_focus (s : State) (y : Thread) (m : SMap Thread) (c : Ctx) (x : Tile) (v o : Nat) :
    ({ s with thr := y, threads := m, ctx := c, tile := x } : State).devDouble v o = s.devDouble v o :=
  State.devDouble_congr (s := s) (t := { s with thr := y, threads := m, ctx := c, tile := x }) rfl rfl rfl rfl rfl rfl rfl rfl rfl rfl rfl v o

theorem State.devRead_focus (s : State) (y : Thread) (m : SMap Thread) (c : Ctx) (x : Tile) (v o n : Nat) :
    ({ s with thr := y, threads := m, ctx := c, tile := x } : State).devRead v o n = s.devRead v o n := by
  unfold State.devRead State.capList
  simp only [s.capEntries_focus, s.devDouble_focus]

theorem State.readPlace_aside (w : Who) (via : Via) (p : Place) (n : Nat) :
    (s.aside y m z h).readPlace w via p n = s.readPlace w via p n := by
  cases p <;> unfold State.readPlace
  case pa a =>
    simp only [s.tileLine_aside, s.replicaOf_aside]
    rfl
  case dev off => dsimp only; rw [s.pid_aside]; exact s.devRead_focus y m _ _ _ off n
  case sram t b => exact s.sramBytes_aside y m z h t b n
  all_goals rfl

theorem State.walkFrom_aside (die pid priv va : Nat) :
    ∀ l t, (s.aside y m z h).walkFrom die pid priv va l t = s.walkFrom die pid priv va l t
  | 0, _ => rfl
  | l + 1, t => by
    unfold State.walkFrom
    simp only [State.walkFrom_aside die pid priv va l]
    rfl

theorem State.walk_aside (die pid priv ptbr va : Nat) :
    (s.aside y m z h).walk die pid priv ptbr va = s.walk die pid priv ptbr va := by
  unfold State.walk
  simp only [s.walkFrom_aside]
  rfl

theorem State.leaf_aside (w : Who) (va : Nat) : (s.aside y m z h).leaf w va = s.leaf w va := by
  unfold State.leaf
  simp only [s.walk_aside, s.pid_aside, s.ptbr_aside, s.tlbFind_aside]
  rfl

theorem State.translate_x_aside (w : Who) (a : Addr) : (s.aside y m z h).translate w .x a = s.translate w .x a := by
  unfold State.translate
  simp only [s.leaf_aside, s.pid_aside, s.ptbr_aside]
  rfl

variable (hp : y.priv = s.thr.priv)
include hp

theorem State.me_aside : (s.aside y m z h).me = s.me := by
  unfold State.me
  rw [← hp]
  rfl

theorem State.fetch_aside (a : Addr) : (s.aside y m z h).fetch a = s.fetch a := by
  unfold State.fetch
  simp only [s.me_aside y m z h hp, s.translate_x_aside, s.readPlace_aside]
  rfl

theorem State.dropLine_aside (a : Addr) :
    (s.aside y m z h).dropLine a = (s.dropLine a).aside y m z h ∧ (s.dropLine a).thr.priv = s.thr.priv := by
  unfold State.dropLine
  simp only [s.me_aside y m z h hp, s.translate_x_aside]
  split <;> exact ⟨rfl, rfl⟩

theorem State.target_aside (a : Addr) : (s.aside y m z h).target a = s.target a := by
  obtain ⟨h1, h2⟩ := s.dropLine_aside y m z h hp a
  unfold State.target State.fetchWord
  simp only [s.fetch_aside y m z h hp, h1, (s.dropLine a).fetch_aside y m z h (hp.trans h2.symm)]

theorem State.wordOk_aside (a : Addr) : (s.aside y m z h).wordOk a = s.wordOk a := by
  unfold State.wordOk
  simp only [s.fetch_aside y m z h hp]

/-- Execution goes on as before, at the same PC with the same loops. -/
theorem State.flow_aside (hl : y.loops = s.thr.loops) (hc : y.pc = s.thr.pc) : (s.aside y m z h).flow = s.flow := by
  unfold State.flow
  simp only [s.target_aside y m z h hp, s.wordOk_aside y m z h hp]
  rw [show (s.aside y m z h).thr = y from rfl, hl, hc]

end

/-- No byte of memory changes. -/
theorem State.sameMemory_aside (s : State) (y : Thread) (m : SMap Thread) (z : Mu) (h : SMap (BitVec 32)) :
    SameMemory s (s.aside y m z h) :=
  ⟨fun _ => rfl, s.sramBytes_aside y m z h, s.tileLine_aside y m z h⟩

/-- Nor does one where then only the thread in focus differs. -/
theorem SameMemory.machine {s t u : State} (h : SameMemory s t) (hm : SameMachine t u) : SameMemory s u where
  mem a := (hm.memory.mem a).trans (h.mem a)
  sram k b n := (hm.memory.sram k b n).trans (h.sram k b n)
  seen k l := (hm.memory.seen k l).trans (h.seen k l)

theorem State.sameMemory_moved_aside (s : State) (y : Thread) (m : SMap Thread) (z : Mu) (h : SMap (BitVec 32)) (p : Loops × Addr) :
    SameMemory s ((s.aside y m z h).moved p) :=
  (s.sameMemory_aside y m z h).machine (sameMachine_moved (s.aside y m z h) y p)

/-! ### The histogram (R140, R141, R176) -/

/-- One more in a bin, saturating. -/
theorem toNat_saturate (c : BitVec 32) : (if c = 0xFFFFFFFF then c else c + 1).toNat = min 0xFFFFFFFF (c.toNat + 1) := by
  split
  next h => rw [h]; rfl
  next h =>
    have hc : c.toNat ≠ 0xFFFFFFFF := fun e => h (BitVec.eq_of_toNat_eq e)
    rw [BitVec.toNat_add, show (1 : BitVec 32).toNat = 1 from rfl]
    have := c.isLt
    omega

/-- Tagging adds to each bin the exponents that lie in it, saturating. -/
theorem get_hist_tag (x : Tile) (hoff : Nat) (es : List Nat) (b : Nat) : (SMap.get 0 (x.tag hoff es).hist b).toNat =
    min 0xFFFFFFFF ((SMap.get 0 x.hist b).toNat + es.countP fun e => histBin hoff e == b) := by
  induction es generalizing x with
  | nil =>
    have := (SMap.get 0 x.hist b).isLt
    change (SMap.get 0 x.hist b).toNat = _
    rw [List.countP_nil]
    omega
  | cons e es ih =>
    let c := SMap.get 0 x.hist (histBin hoff e)
    have htag : x.tag hoff (e :: es) = ({ x with
      hist := SMap.set 0 x.hist (histBin hoff e) (if c = 0xFFFFFFFF then c else c + 1) } : Tile).tag hoff es := rfl
    rw [htag, ih, List.countP_cons]
    dsimp only
    by_cases hb : histBin hoff e = b
    · subst hb
      rw [SMap.get_set_self, toNat_saturate, if_pos (beq_self_eq_true _), show c = SMap.get 0 x.hist (histBin hoff e) from rfl]
      omega
    · rw [SMap.get_set_other _ _ _ (Ne.symm hb), if_neg (by simpa using hb)]
      omega

/-- A thread that has come to its instruction's end with one more result to come. -/
def Thread.awaits (x : Thread) (r : Pend) : Thread := { x with wait := .none, pend := x.pend ++ [r] }

theorem State.moved_hist (s : State) (y : Thread) (h : SMap (BitVec 32)) (p : Loops × Addr) :
    let t := (s.aside y s.threads s.ctx.mu h).moved p
    t = { s with thr := t.thr, fresh := s.fresh + 1, tile := { s.tile with hist := t.tile.hist } } := rfl

/-- VHIST's effect: the histogram is tagged, and an empty result is to come. -/
theorem tagElems_begun {s : State} {f : FV} (htrails : s.trails = false) (hroom : s.vuRoom = true) :
    let w := tyBytes f.ty
    let es := ((List.range (tyCount f.ty)).filter fun e => (s.rk f.km).getLsbD (e * w / 4)).map fun e =>
      elemOf (s.rv f.va 0) w e / 2 ^ floatOf f.ty % 256
    tagElems s.begun f = .done (s.aside (s.thr.awaits { id := s.fresh, pc := s.thr.pc, what := .vec, dests := [] }) s.threads s.ctx.mu
      (s.tile.tag (s.thr.tsr.toNat / 256 % 256) es).hist) := by
  unfold tagElems
  dsimp only
  rw [if_neg (by rw [show s.begun.trails = s.trails from rfl, htrails]; exact Bool.false_ne_true), vuEnter_begun hroom]
  rfl

/-- Settles O14: VHIST leaves an empty result to come, and of the tile the histogram alone differs. -/
theorem histogramTags : Obligations.HistogramTags := by
  unfold Obligations.HistogramTags
  intro s k f hready hflow htrails hroom w es hoff bin
  obtain ⟨p, hp⟩ := Option.isSome_iff_exists.1 hflow
  have hbody := tagElems_begun (f := f) htrails hroom
  have hgoes := (s.flow_aside (s.thr.awaits { id := s.fresh, pc := s.thr.pc, what := .vec, dests := [] }) s.threads s.ctx.mu
    (s.tile.tag hoff es).hist rfl rfl rfl).trans hp
  exact ⟨_, (exec_vhist k f s).trans (run_becomes hready hbody hgoes),
    get_hist_tag s.tile hoff es, s.moved_hist _ _ p, rfl, fun q => by cases q <;> rfl,
    s.sameMemory_moved_aside _ _ _ _ p, rfl, hp⟩

end Sys2Proof.Machine
end

section
/-! PROOFS. The matrix unit: its instructions, and the step in which it runs a command (R34, R179 to R194). -/

namespace Sys2Proof.Machine

/-! ### Issuing -/

section
variable {s : State} (hsolo : s.solo = true) (hstop : s.muStop = none)

include hstop in
theorem State.muTrap_none : s.muTrap = none := by
  unfold State.muTrap
  rw [hstop]
  rfl

include hsolo hstop

/-- A command enters a queue that has room, and an MRDV leaves its row to come. -/
theorem muEnter_room (hq : s.ctx.mu.q.length < 2) (x : MuCmd) (vr : Option Nat) : s.muEnter x vr =
    .done (match vr with | some v => (muQueued s x).leave .mrdv [(.v v, 0)] | none => muQueued s x) := by
  unfold State.muEnter
  rw [State.muTrap_none hstop]
  dsimp only
  rw [if_neg (State.not_trails hsolo), if_neg hq.not_ge, State.compare_solo hsolo]
  rfl

end

/-! ### Checks (R180) -/

theorem muChecks_passed {kmax : Option Nat} {al : List (Addr × Int × Nat)} (hk : ∀ k ∈ kmax, k ≤ 2 ^ 24)
    (ha : ∀ x ∈ al, x.1.toNat % x.2.2 = 0 ∧ x.2.1 % (x.2.2 : Int) = 0) : muChecks kmax al = none := by
  have hkmax : ¬(kmax.any (2 ^ 24 < ·)) = true := by
    cases kmax with
    | none => simp
    | some k => simpa using hk k rfl
  have hfind : (al.find? fun x => x.1.toNat % x.2.2 != 0 || x.2.1 % (x.2.2 : Int) != 0) = none := by
    rw [List.find?_eq_none]
    intro x hx
    obtain ⟨h1, h2⟩ := ha x hx
    simp [h1, h2]
  unfold muChecks
  rw [if_neg hkmax, hfind]
  rfl

theorem muChecks_long {k : Nat} (al : List (Addr × Int × Nat)) (hk : 2 ^ 24 < k) : muChecks (some k) al = some (.trap cILLOP 0) :=
  if_pos (by simpa using hk)

/-- A command that passes its checks enters a queue that has room. -/
theorem muChecks_enters {s : State} (hsolo : s.solo = true) (hstop : s.muStop = none) (hq : s.ctx.mu.q.length < 2)
    {kmax : Option Nat} {al : List (Addr × Int × Nat)} (hk : ∀ k ∈ kmax, k ≤ 2 ^ 24)
    (ha : ∀ x ∈ al, x.1.toNat % x.2.2 = 0 ∧ x.2.1 % (x.2.2 : Int) = 0) (x : MuCmd) :
    (muChecks kmax al).getD (s.muEnter x none) = .done (muQueued s x) := by
  rw [muChecks_passed hk ha]
  exact muEnter_room hsolo hstop hq x none

/-! ### Letting the unit go on, and dropping its commands (R192) -/

theorem Mu.go_stopped {m : Mu} (h : m.stop = true) :
    m.go = { m with stop := false, pend := false, done := if m.pois then 0 else m.gdone } := if_pos h

theorem Mu.go_running {m : Mu} (h : m.stop = false) : m.go = m := if_neg (by rw [h]; exact Bool.false_ne_true)

/-- At most the threads, the matrix unit in focus and the tile's histogram differ, and the thread in focus stands where it stood. -/
def Aside (s t : State) : Prop :=
  ∃ y m z h, t = s.aside y m z h ∧ y.priv = s.thr.priv ∧ y.loops = s.thr.loops ∧ y.pc = s.thr.pc

theorem Aside.flow {s t : State} (h : Aside s t) : t.flow = s.flow := by
  obtain ⟨y, m, z, h, rfl, hp, hl, hc⟩ := h
  exact s.flow_aside y m z h hp hl hc

theorem Aside.modThread_pend {s t : State} (h : Aside s t) (k : Key) (f : List Pend → List Pend) :
    Aside s (t.modThread k fun x => { x with pend := f x.pend }) := by
  obtain ⟨y, m, z, h, rfl, hp, hl, hc⟩ := h
  unfold State.modThread State.setThread
  split
  next hk =>
    subst hk
    rw [State.getThread_cur]
    exact ⟨_, m, z, h, rfl, hp, hl, hc⟩
  next => exact ⟨y, _, z, h, rfl, hp, hl, hc⟩

theorem Aside.modCtx_mu {s t : State} (h : Aside s t) (f : Mu → Mu) :
    Aside s (t.modCtx s.cur.t s.cur.c fun x => { x with mu := f x.mu }) := by
  obtain ⟨y, m, z, h, rfl, hp, hl, hc⟩ := h
  exact ⟨y, m, f z, h, (s.aside y m z h).modCtx_cur _, hp, hl, hc⟩

theorem Aside.leave {s t : State} (h : Aside s t) (w : PendK) (ds : List (Reg × Vec)) (c : Option (Nat × Addr)) :
    Aside s (t.leave w ds c) := by
  obtain ⟨y, m, z, h, rfl, hp, hl, hc⟩ := h
  have hthr := (s.aside y m z h).thr_leave w ds c
  rw [Thread.stalls_eq] at hthr
  exact ⟨((s.aside y m z h).leave w ds c).thr, m, z, h, rfl, by rw [hthr]; exact hp, by rw [hthr]; exact hl, by rw [hthr]; exact hc⟩

theorem Aside.muDrop {s t : State} (h : Aside s t) : Aside s (t.muDrop s.cur.t s.cur.c) := by
  unfold State.muDrop
  refine Aside.modCtx_mu ?_ fun m => { m with
    q := [], stop := false, pend := false, valid := false, done := 0, burst := [], rows := 1, ended := m.ended + _ }
  refine List.foldlRecOn (motive := Aside s) _ _ h fun r hr x _ => ?_
  split
  · exact hr.modThread_pend _ fun l => l.filter _
  · exact hr

/-! ### Accumulators -/

theorem get_acc_accSet (c : Ctx) (a i j x n : Nat) : SMap.get 0 (c.accSet a i j x).acc n =
    if n = accNo a i j then BitVec.ofNat 32 x else SMap.get 0 c.acc n := SMap.get_set _ _ _ _ _

theorem get_acc_fillRow (c : Ctx) (a i k e : Nat) (g : Nat → Nat → Nat) :
    SMap.get 0 ((List.range k).foldl (fun c j => c.accSet a i j (g i j)) c).acc (a * 1024 + e) =
      if i * 32 ≤ e ∧ e < i * 32 + k then BitVec.ofNat 32 (g i (e - i * 32)) else SMap.get 0 c.acc (a * 1024 + e) := by
  induction k with
  | zero => rw [if_neg (by omega)]; rfl
  | succ k ih =>
    rw [List.range_succ, List.foldl_append, List.foldl_cons, List.foldl_nil, get_acc_accSet, ih, accNo]
    by_cases he : e = i * 32 + k
    · rw [if_pos (by omega), if_pos (by omega), he, Nat.add_sub_cancel_left]
    · rw [if_neg (by omega)]
      exact if_congr (by omega) rfl rfl

/-- What an accumulator holds once some rows of it have been set. -/
theorem get_acc_accFill (c : Ctx) (a e : Nat) (rows : List Nat) (g : Nat → Nat → Nat) :
    SMap.get 0 (c.accFill a rows g).acc (a * 1024 + e) =
      if e / 32 ∈ rows then BitVec.ofNat 32 (g (e / 32) (e % 32)) else SMap.get 0 c.acc (a * 1024 + e) := by
  unfold Ctx.accFill
  induction rows generalizing c with
  | nil => rw [if_neg (List.not_mem_nil)]; rfl
  | cons i rows ih =>
    rw [List.foldl_cons, ih, get_acc_fillRow]
    by_cases hr : e / 32 ∈ rows
    · rw [if_pos hr, if_pos (List.mem_cons_of_mem _ hr)]
    · rw [if_neg hr]
      by_cases hi : e / 32 = i
      · subst hi
        rw [if_pos (by omega), if_pos List.mem_cons_self, show e - e / 32 * 32 = e % 32 by omega]
      · rw [if_neg (by omega), if_neg (by simp [hi, hr])]

/-! ### Running a command -/

theorem Ctx.mu_accFill (c : Ctx) (a : Nat) (rows : List Nat) (g : Nat → Nat → Nat) : (c.accFill a rows g).mu = c.mu := by
  unfold Ctx.accFill
  refine List.foldlRecOn (motive := fun r : Ctx => r.mu = c.mu) _ _ rfl fun r hr i _ => ?_
  exact List.foldlRecOn (motive := fun q : Ctx => q.mu = c.mu) _ _ hr fun q hq j _ => hq

/-- The unit whose head command is running. -/
def Mu.begins (m : Mu) (x : MuCmd) : Mu := { m with q := m.q.map fun z => if z.pend = x.pend then { z with run := true } else z }

theorem Mu.length_retire_begins {m : Mu} {x : MuCmd} {r : List MuCmd} (h : m.q = x :: r) : (m.begins x).retire.q.length = r.length := by
  unfold Mu.retire Mu.begins
  simp [h]

/-- A head command of one part that fills rows of an accumulator is run, and leaves the queue. -/
theorem muRun_fill {s : State} {x : MuCmd} {r : List MuCmd} {rows : List Nat} {g : Nat → Nat → Nat} (hq : s.ctx.mu.q = x :: r)
    (hgo : s.engGoes s.cur.t s.cur.c false = true) (hstop : s.ctx.mu.stop = false) (hdone : s.ctx.mu.done = 0)
    (hburst : s.ctx.mu.burst = []) (hspoilt : x.spoilt = false) (hafter : s.engAfter ⟨s.cur.t, s.cur.c, x.thr⟩ x.pend = true)
    (hop : x.op ≠ 0x286)
    (hpart : muPart s s.cur.t s.cur.c x = (1, .ok (s.modCtx s.cur.t s.cur.c fun y => y.accFill x.acc rows g))) :
    exec (.muCommandRun s.cur.t s.cur.c) s = .next { s with
      ctx := { s.ctx.accFill x.acc rows g with mu := (s.ctx.mu.begins x).retire }, fresh := s.fresh + 1 } := by
  have hmu : (s.getCtx s.cur.t s.cur.c).mu = s.ctx.mu := congrArg Ctx.mu (if_pos ⟨rfl, rfl⟩)
  have hwait : ¬(s.engGoes s.cur.t s.cur.c (s.ctx.mu.burst ≠ []) = false ∨ s.ctx.mu.stop ∨
      s.engAfter ⟨s.cur.t, s.cur.c, x.thr⟩ x.pend = false) := by
    simp [hburst, hgo, hstop, hafter]
  have hrun : s.muRun s.cur.t s.cur.c = ({ s with
      ctx := { s.ctx.accFill x.acc rows g with mu := s.ctx.mu.begins x } } : State).muPartDone s.cur.t s.cur.c x 1 := by
    unfold State.muRun
    simp only [hmu, hq]
    rw [if_neg hwait, if_neg (not_not.2 hburst), hpart, if_neg (by simp [hdone])]
    dsimp only
    rw [State.modCtx_cur, State.modCtx_cur, hspoilt]
    rw [if_neg Bool.false_ne_true, ← Ctx.mu_accFill s.ctx x.acc rows g]
    rfl
  have hpartDone (v : State) (hv : (v.getCtx s.cur.t s.cur.c).mu.done = 0) :
      v.muPartDone s.cur.t s.cur.c x 1 = v.modCtx s.cur.t s.cur.c fun y => { y with mu := y.mu.retire } := by
    have htags : ¬(x.op = 0x286 && bit x.mode 2) = true := by simp [hop]
    have hclears : ¬(x.op = 0x286 ∧ bit x.mode 3 = true) := fun h => hop h.1
    unfold State.muPartDone
    dsimp only
    rw [if_neg htags, hv, if_pos (Nat.le_refl 1), if_neg hclears]
  have hctx (c : Ctx) : ({ s with ctx := c } : State).getCtx s.cur.t s.cur.c = c := if_pos ⟨rfl, rfl⟩
  refine (exec_muCommandRun _ _ s).trans (congrArg Host.Outcome.next ?_)
  rw [hrun, hpartDone _ (by rw [hctx]; exact hdone), State.modCtx_cur]
  rfl

/-- What such a command leaves: the rows it fills, and a queue shorter by one. -/
theorem muRun_fill_leaves {s : State} {x : MuCmd} {r : List MuCmd} {rows : List Nat} {g : Nat → Nat → Nat} (hq : s.ctx.mu.q = x :: r)
    (hgo : s.engGoes s.cur.t s.cur.c false = true) (hstop : s.ctx.mu.stop = false) (hdone : s.ctx.mu.done = 0)
    (hburst : s.ctx.mu.burst = []) (hspoilt : x.spoilt = false) (hafter : s.engAfter ⟨s.cur.t, s.cur.c, x.thr⟩ x.pend = true)
    (hop : x.op ≠ 0x286)
    (hpart : muPart s s.cur.t s.cur.c x = (1, .ok (s.modCtx s.cur.t s.cur.c fun y => y.accFill x.acc rows g))) :
    ∃ t, exec (.muCommandRun s.cur.t s.cur.c) s = .next t ∧ (∀ n, SMap.get 0 t.ctx.acc n = SMap.get 0 (s.ctx.accFill x.acc rows g).acc n) ∧
      t.ctx.mu.q.length = r.length ∧ t.mem = s.mem ∧ t.thr = s.thr :=
  ⟨_, muRun_fill hq hgo hstop hdone hburst hspoilt hafter hop hpart, fun _ => rfl, Mu.length_retire_begins hq, rfl, rfl⟩

/-- Settles O45, from what each instruction comes to and the step of a command of one part. -/
theorem matrixCommands : Obligations.MatrixCommands := by
  unfold Obligations.MatrixCommands
  intro s k f g p u q al a as b bst x kk mu withMu hsolo hstop hp
  have hu : u.solo = true := hsolo
  have hs : u.muStop = none := hstop
  have hau : Aside s u := ⟨u.thr, s.threads, mu, s.tile.hist, rfl, rfl, rfl, rfl⟩
  have haq (y : MuCmd) : Aside s (muQueued u y) := ⟨u.thr, s.threads, (muQueued u y).ctx.mu, s.tile.hist, rfl, rfl, rfl, rfl⟩
  have moves {i : Instr} {op : Nat} {regs : List Reg} {body : State → Res} {w : State} (hi : exec i s = run op k regs body s)
      (hr : s.ready op k regs = true) (hb : body u = .done w) (hw : Aside s w) : exec i s = .next (w.moved p) :=
    hi.trans (run_becomes hr hb (hw.flow.trans hp))
  have hlong {kk : Nat} (h : kk ≤ 2 ^ 24) : ∀ k ∈ some kk, k ≤ 2 ^ 24 := fun k e => Option.some.inj e ▸ h
  have pair {α : Type} {P : α → Prop} {y : α} {l : List α} (hy : P y) (hl : ∀ z ∈ l, P z) : ∀ z ∈ y :: l, P z :=
    List.forall_mem_cons.2 ⟨hy, hl⟩
  have one {α : Type} {P : α → Prop} {y : α} (hy : P y) : ∀ z ∈ [y], P z := List.forall_mem_singleton.2 hy
  refine ⟨fun hq => ⟨fun hk h1 h2 h3 h4 hr => ?_, fun hk h1 h2 h3 hr => ?_, fun hk h1 h2 h3 h4 h5 hr => ?_, fun hr => ?_,
    fun h1 h2 hr => ?_, fun h1 h2 hr => ?_, fun hr => ?_, fun hr => ?_⟩, fun hk hr => ?_, fun hq hst hr => ?_, fun hf hr => ?_,
    fun hf hr => ?_, fun hst hr => ⟨?_, ?_⟩, fun hst hr => ⟨?_, ?_⟩,
    fun c r e hq hgo hst hdone hburst hspoilt hafter he => ⟨fun hop => ?_, fun hop hfn => ?_⟩⟩
  case refine_1 => exact moves (exec_mma k f s) hr (muChecks_enters hu hs hq (hlong hk) (pair ⟨h1, h2⟩ (one ⟨h3, h4⟩)) _) (haq _)
  case refine_2 => exact moves (exec_mmat k f s) hr (muChecks_enters hu hs hq (hlong hk) (pair ⟨h1, h2⟩ (one ⟨h3, rfl⟩)) _) (haq _)
  case refine_3 =>
    exact moves (exec_mmas k f s) hr (muChecks_enters hu hs hq (hlong hk) (pair ⟨h1, h2⟩ (pair ⟨h3, h4⟩ (one ⟨h5, rfl⟩))) _) (haq _)
  case refine_4 => exact moves (exec_mzero k f s) hr (muEnter_room hu hs hq _ none) (haq _)
  case refine_5 => exact moves (exec_mst k f s) hr (muChecks_enters hu hs hq (fun _ h => absurd h (Option.not_mem_none _)) (one ⟨h1, h2⟩) _) (haq _)
  case refine_6 => exact moves (exec_mlda k f s) hr (muChecks_enters hu hs hq (fun _ h => absurd h (Option.not_mem_none _)) (one ⟨h1, h2⟩) _) (haq _)
  case refine_7 => exact moves (exec_mrdv k g s) hr (muEnter_room hu hs hq _ (some g.vr)) ((haq _).leave _ _ _)
  case refine_8 => exact moves (exec_mwrv k g s) hr (muEnter_room hu hs hq _ none) (haq _)
  case refine_9 => exact (exec_mma k f s).trans (run_trap hr (congrArg (Option.getD · _) (muChecks_long _ hk)))
  case refine_10 =>
    refine moves (exec_msync k g s) hr ?_ hau
    rw [State.muTrap_none hs]
    exact if_pos (by rw [Mu.idle]; exact (congrArg₂ (fun (l : List MuCmd) (b : Bool) => l.isEmpty && !b) hq hst))
  case refine_11 =>
    refine moves (exec_mstat k g s) hr ?_ (hau.leave _ _ _)
    rw [if_neg (State.not_trails hu), if_pos hf]
    exact done_copyTo_late hu _ _
  case refine_12 =>
    refine moves (exec_mstat k g s) hr ?_ (hau.leave _ _ _)
    rw [if_neg (State.not_trails hu), if_neg hf]
    exact done_copyTo_late hu _ _
  case refine_13 =>
    refine moves (exec_mprogGo k g s) hr (congrArg Res.done ?_) ⟨u.thr, s.threads, _, s.tile.hist, rfl, rfl, rfl, rfl⟩
    rw [if_neg (State.not_trails hu)]
    exact congrArg withMu (Mu.go_stopped hst)
  case refine_14 =>
    exact moves (exec_mprogDrop k g s) hr (congrArg Res.done (if_pos (by rw [(State.solo_iff hu).1]; exact hst))) hau.muDrop
  case refine_15 =>
    refine moves (exec_mprogGo k g s) hr (congrArg Res.done ?_) hau
    rw [if_neg (State.not_trails hu)]
    exact congrArg withMu (Mu.go_running hst)
  case refine_16 =>
    refine moves (exec_mprogDrop k g s) hr (congrArg Res.done (if_neg ?_)) hau
    rw [show u.ctx.mu.stop = false from hst, Bool.and_false]
    exact Bool.false_ne_true
  case refine_17 =>
    obtain ⟨t, ht, hacc, hleft⟩ := muRun_fill_leaves hq hgo hst hdone hburst hspoilt hafter (by rw [hop]; decide)
      (rows := List.range 32) (g := fun _ _ => 0) (by simp only [muPart, hop])
    refine ⟨t, ht, ?_, hleft⟩
    rw [hacc, get_acc_accFill]
    exact if_pos (List.mem_range.2 (by omega))
  case refine_18 =>
    obtain ⟨t, ht, hacc, hleft⟩ := muRun_fill_leaves hq hgo hst hdone hburst hspoilt hafter (by rw [hop]; decide)
      (rows := [c.row]) (g := fun _ j => elemOf c.data 4 j) (by simp only [muPart, hop, hfn, if_true])
    refine ⟨t, ht, fun hrow => ?_, fun hrow => ?_, hleft⟩
    · rw [hacc, get_acc_accFill]
      exact if_pos (List.mem_singleton.2 hrow)
    · rw [hacc, get_acc_accFill]
      exact if_neg fun h => hrow (List.mem_singleton.1 h)

end Sys2Proof.Machine
end

section
/-! PROOFS. The schedulers' steps: launch queues, dispatch, steals and balancing, the end of units, signals, REDs and launches (R40 to
R45, R306 to R314, R322, R323, R326, R406). -/

namespace Sys2Proof.Machine

/-! ### Launch queues (R406, R306) -/

section
variable {s : State} {p q : Nat}

theorem State.pollSlot_stopped (h : s.stopped = true) : s.pollSlot p q = s := by
  unfold State.pollSlot
  exact if_neg (by simp [h])

/-- A slot that is due to be looked at is ready when its flag is set, and else is looked at again. -/
theorem State.pollSlot_due (h : s.stopped = false) (hen : ((s.getPart p).queue q).en = true)
    (hne : ((s.getPart p).queue q).head ≠ ((s.getPart p).queue q).tail) (hready : ((s.getPart p).queue q).ready = false)
    (hpoll : ((s.getPart p).queue q).poll ≤ s.plumb) (hwait : s.dieWaits 0 (lineOf ((s.getPart p).queue q).slotAddr) = false) :
    s.pollSlot p q = if bit (ofLE (s.homeBytes (((s.getPart p).queue q).slotAddr + 12) 1)) 1 = true then
      s.modQueue p q fun y => { y with ready := true } else s.modQueue p q fun y => { y with poll := s.plumb + 4096 } := by
  unfold State.pollSlot
  exact if_pos (by simp [h, hen, hne, hready, hpoll, hwait])

theorem State.startLaunch_stopped (h : s.stopped = true) : s.startLaunch p q = s := by
  unfold State.startLaunch
  exact if_pos h

/-- A launch of the queue that is under way takes more of its initial tasks. -/
theorem State.startLaunch_goesOn {l : Nat} {y : Launch} (h : s.stopped = false)
    (hfind : (s.getPart p).launches.find? (fun e => e.2.queue == q && e.2.taken < e.2.ninit && !e.2.complete) = some (l, y)) :
    s.startLaunch p q = s.takeSlots p l (y.ninit - y.taken) := by
  simp only [State.startLaunch, h, hfind, Bool.false_eq_true, if_false]

/-- No launch of a queue is under way when each has taken its tasks or is complete. -/
theorem find?_underWay_none {ls : SMap Launch} (h : ∀ e ∈ ls, e.2.queue = q → e.2.ninit ≤ e.2.taken ∨ e.2.complete = true) :
    ls.find? (fun e => e.2.queue == q && e.2.taken < e.2.ninit && !e.2.complete) = none := by
  rw [List.find?_eq_none]
  intro e he hunder
  simp only [Bool.and_eq_true, beq_iff_eq, decide_eq_true_eq, Bool.not_eq_true'] at hunder
  obtain ⟨⟨hqueue, htaken⟩, hcomplete⟩ := hunder
  rcases h e he hqueue with hall | hdone
  · exact absurd htaken hall.not_gt
  · exact absurd hdone (by rw [hcomplete]; exact Bool.false_ne_true)

section
variable (h : s.stopped = false)
  (hall : ∀ e ∈ (s.getPart p).launches, e.2.queue = q → e.2.ninit ≤ e.2.taken ∨ e.2.complete = true)
  (hen : ((s.getPart p).queue q).en = true) (hne : ((s.getPart p).queue q).head ≠ ((s.getPart p).queue q).tail)
  (hready : ((s.getPart p).queue q).ready = true) (hsys : s.sysReady ((s.getPart p).queue q).slotAddr 64 = true)
  (hwait : s.dieWaits 0 (lineOf ((s.getPart p).queue q).slotAddr) = false)
  (hput : s.putReady p ((s.getPart p).queue q).qptbr.toNat (tcbField (s.slotEntry ((s.getPart p).queue q)) 48 8) 64 = true)

include h hall hen hne hready hsys hwait hput

/-- A malformed entry at a queue's head is refused. -/
theorem State.startLaunch_refuses (hbad : s.badEntry p ((s.getPart p).queue q) (s.slotEntry ((s.getPart p).queue q)) = true) :
    s.startLaunch p q =
      let u := s.refuseEntry p ((s.getPart p).queue q) (s.slotEntry ((s.getPart p).queue q))
      u.modQueue p q fun y => { y with head := (y.head + 1) % 2 ^ 32, ready := false, poll := u.plumb } := by
  simp only [State.startLaunch, h, find?_underWay_none hall, hen, bne_iff_ne.2 hne, hready, hsys, hwait, hput, hbad,
    Bool.false_eq_true, if_false, Bool.and_self, Bool.not_true, Bool.or_self, if_true]

/-- A well-formed entry of a launch that is not known, of a job in no phase, starts its launch. -/
theorem State.startLaunch_starts (hgood : s.badEntry p ((s.getPart p).queue q) (s.slotEntry ((s.getPart p).queue q)) = false)
    (hphase : SMap.get 0 (s.getPart p).phases (tcbField (s.slotEntry ((s.getPart p).queue q)) 8 4) = 0)
    (hnew : SMap.find (s.getPart p).launches (tcbField (s.slotEntry ((s.getPart p).queue q)) 0 4) = none) :
    s.startLaunch p q =
      let x := (s.getPart p).queue q
      let e := s.slotEntry x
      let id := tcbField e 0 4
      let y := launchOf q x e 1
      let v := (s.modQueue p q fun y => { y with head := (y.head + 1) % 2 ^ 32, ready := false, poll := s.plumb }).modPart p fun z =>
        { z with launches := SMap.put z.launches id y, phases := SMap.set 0 z.phases (tcbField e 8 4) 1 }
      let w := if (s.getPart p).launches.all (fun e => e.2.queue != q || e.2.complete) then
        v.modQueue p q fun z => { z with wstep := 0, wfrom := s.plumb } else v
      (w.frecPut p id 0 (List.replicate 64 0)).takeSlots p id y.ninit := by
  simp only [State.startLaunch, h, find?_underWay_none hall, hen, bne_iff_ne.2 hne, hready, hsys, hwait, hput, hgood, hphase, hnew,
    Bool.false_eq_true, if_false, Bool.and_self, Bool.not_true, Bool.or_self, if_true, bne_self_eq_false, Bool.and_false,
    Bool.false_and, Option.any_none]

end

end

/-! ### Dispatch (R312) -/

section
variable {s : State} {t : Nat} {e : Entry} {y : Launch} {pl : Place} {bs h : List Byte} (hissues : s.tileIssues t = true)
  (hfree : s.occupied t = false) (hfirst : firstReady s.plumb (s.getTile t).deque = some e) (htask : e.resume = false)
  (hl : s.launch e.pid e.launch = some y) (htcb : s.tcbReady e.pid y e.tcb = true) (hfrec : s.frecReady e.pid e.launch = true)
  (hplace : (s.takeEntry t e).sysPlace e.pid y.ptbr.toNat .w e.tcb.toNat = .ok pl) (hbs : (s.takeEntry t e).tcb e.pid y e.tcb = .ok bs)
  (hread : ((s.takeEntry t e).tcbPut e.pid y e.tcb 6 (toLE 1 stRUNNING)).sysRead e.pid y.ptbr.toNat .r (y.codebase + tcbEntry bs) 64 = .ok h)
  (hheld : ((s.takeEntry t e).tcbPut e.pid y e.tcb 6 (toLE 1 stRUNNING)).unitHeld e.pid y (y.codebase + tcbEntry bs) h = false)

include hissues hfree hfirst htask hl htcb hfrec hplace hbs hread hheld

/-- A first entry's task whose header is misaligned or not legal is faulted. -/
theorem State.dispatchTile_badHeader (hbad : (y.codebase + tcbEntry bs) % 64 ≠ 0 ∨
      ((s.takeEntry t e).tcbPut e.pid y e.tcb 6 (toLE 1 stRUNNING)).headerOk e.pid
        ((((s.takeEntry t e).tcbPut e.pid y e.tcb 6 (toLE 1 stRUNNING)).getTile t).lsplit * 0x20000) h = false) :
    s.dispatchTile t =
      ((s.takeEntry t e).tcbPut e.pid y e.tcb 6 (toLE 1 stRUNNING)).faultTask e t cILLOP (y.codebase + tcbEntry bs) := by
  simp only [State.dispatchTile, hissues, hfree, hfirst, htask, hl, htcb, hfrec, hplace, hbs, hread, hheld, Bool.true_eq_false,
    Bool.false_eq_true, or_self, if_false, Bool.not_true, Bool.or_self]
  exact if_pos hbad

/-- A first entry's task starts its unit from a legal header whose entries are targets. -/
theorem State.dispatchTile_starts (hal : (y.codebase + tcbEntry bs) % 64 = 0)
    (hok : ((s.takeEntry t e).tcbPut e.pid y e.tcb 6 (toLE 1 stRUNNING)).headerOk e.pid
      ((((s.takeEntry t e).tcbPut e.pid y e.tcb 6 (toLE 1 stRUNNING)).getTile t).lsplit * 0x20000) h = true)
    (hent : ((s.takeEntry t e).tcbPut e.pid y e.tcb 6 (toLE 1 stRUNNING)).entryBad e.pid y.ptbr.toNat (if y.sup then 1 else 0)
      (y.codebase + tcbEntry bs) h = none) :
    s.dispatchTile t =
      ((s.takeEntry t e).tcbPut e.pid y e.tcb 6 (toLE 1 stRUNNING)).startUnit t e y bs h (y.codebase + tcbEntry bs) := by
  simp only [State.dispatchTile, hissues, hfree, hfirst, htask, hl, htcb, hfrec, hplace, hbs, hread, hheld, hal, hok, hent,
    Bool.true_eq_false, Bool.false_eq_true, or_self, if_false, Bool.not_true, Bool.or_self, ne_eq, not_true_eq_false]

end

/-! ### Overflow, steals and balancing (R310, R313, R314) -/

theorem State.overflowIn_room {s : State} {t : Nat} {e : Entry} (hfirst : firstReady s.plumb (s.overflowOf t) = some e)
    (hroom : (s.getTile t).deque.length < 32) : s.overflowIn t =
      (s.modDie (dieOf t) fun d => { d with overflow := d.overflow.erase e }).modTile t fun y => { y with deque := y.deque ++ [e] } := by
  simp only [State.overflowIn, hfirst, if_neg hroom.not_ge]

section
variable {s : State} {t : Nat} (hlive : s.tileLive t = true) (hfree : s.occupied t = false) (hnone : s.readyCount t = 0)
  (hdue : (s.getTile t).steal ≤ s.plumb)

include hlive hfree hnone hdue

/-- An idle empty tile takes the entry that its first neighbour gives up. -/
theorem State.stealFor_takes {v : Nat} {r : List Nat} {e : Entry}
    (hmates : (s.modTile t fun y => { y with steal := s.plumb + 512 }).mates t = v :: r)
    (hchan : (s.modTile t fun y => { y with steal := s.plumb + 512 }).chanFree v t = true)
    (hgives : (s.modTile t fun y => { y with steal := s.plumb + 512 }).givesUp v t = some e) :
    s.stealFor t = (s.modTile t fun y => { y with steal := s.plumb + 512 }).ship v t e := by
  have hidle : (s.tileLive t && !s.occupied t && s.readyCount t == 0 && decide ((s.getTile t).steal ≤ s.plumb)) = true := by
    simp [hlive, hfree, hnone, hdue]
  simp only [State.stealFor, if_pos hidle, hmates, List.findSome?_cons, hchan, hgives, if_true, Option.map_some]

/-- An idle empty tile that no neighbour gives anything waits to ask again. -/
theorem State.stealFor_nothing (hnothing : ∀ v ∈ (s.modTile t fun y => { y with steal := s.plumb + 512 }).mates t,
      (s.modTile t fun y => { y with steal := s.plumb + 512 }).chanFree v t = true →
      (s.modTile t fun y => { y with steal := s.plumb + 512 }).givesUp v t = none) :
    s.stealFor t = s.modTile t fun y => { y with steal := s.plumb + 512 } := by
  have hidle : (s.tileLive t && !s.occupied t && s.readyCount t == 0 && decide ((s.getTile t).steal ≤ s.plumb)) = true := by
    simp [hlive, hfree, hnone, hdue]
  have hfind : ((s.modTile t fun y => { y with steal := s.plumb + 512 }).mates t).findSome? (fun v =>
      if (s.modTile t fun y => { y with steal := s.plumb + 512 }).chanFree v t then
        ((s.modTile t fun y => { y with steal := s.plumb + 512 }).givesUp v t).map fun e => (v, e)
      else none) = none := by
    rw [List.findSome?_eq_none_iff]
    intro v hv
    split
    next hchan => rw [hnothing v hv hchan]; rfl
    next => rfl
  simp only [State.stealFor, if_pos hidle, hfind]

end

theorem State.balanceTile_ships {s : State} {t u : Nat} (hlive : s.tileLive t = true) (hleast : s.leastOf (s.mates t) = some u)
    (hper : bits (s.getPart (s.ownerOf t)).bal.toNat 0 32 ≠ 0) (hdue : s.plumb % bits (s.getPart (s.ownerOf t)).bal.toNat 0 32 = 0)
    (hgap : bits (s.getPart (s.ownerOf t)).bal.toNat 32 8 ≤ s.readyCount t - s.readyCount u) (hfree : s.chanFree t u = true) :
    s.balanceTile t = s.shipMany t u ((s.readyCount t - s.readyCount u) / 2) := by
  unfold State.balanceTile
  dsimp only
  rw [if_neg (by simp [hlive, hper, hdue]), hleast]
  exact if_pos ⟨hgap, hfree⟩

/-! ### Units complete (R323, R326) -/

section
variable {s : State} {t c : Nat}

theorem execUnitComplete_live (h : (s.getCtx t c).live = true) : execUnitComplete t c s = .next (s.finishUnit t c).tickFresh := by
  unfold execUnitComplete
  rw [if_pos h]

theorem State.finishUnit_stopped (h : s.stopped = true) : s.finishUnit t c = s := by
  unfold State.finishUnit
  exact if_pos h

theorem State.finishUnit_exiting (h : s.stopped = false) (hexit : (s.getCtx t c).exiting ≠ 0) : s.finishUnit t c = s.exitOn t c := by
  unfold State.finishUnit
  dsimp only
  rw [if_neg (by rw [h]; exact Bool.false_ne_true), if_pos hexit]

theorem State.finishUnit_killed {st cause : Nat} (h : s.stopped = false) (hexit : (s.getCtx t c).exiting = 0)
    (hkilled : (s.getCtx t c).killed = some (st, cause)) : s.finishUnit t c = s.killed t c st cause := by
  unfold State.finishUnit
  dsimp only
  rw [if_neg (by rw [h]; exact Bool.false_ne_true), if_neg (not_not.2 hexit), hkilled]

/-- A unit whose threads have ended is DONE, and signals its successors. -/
theorem State.finishUnit_done {y : Launch} {as : List Addr} {bs : List Byte} (h : s.stopped = false) (hexit : (s.getCtx t c).exiting = 0)
    (hkilled : (s.getCtx t c).killed = none) (hended : (s.getCtx t c).ended = true) (hsettled : s.ctxSettled t c = true)
    (hperf : s.performedAt t 3 = true) (hl : s.launch (s.getCtx t c).pid (s.getCtx t c).launch = some y)
    (htcb : s.tcbReady (s.getCtx t c).pid y (s.getCtx t c).tcb = true)
    (hfrec : s.frecReady (s.getCtx t c).pid (s.getCtx t c).launch = true)
    (hheld : s.succsHeld (s.getCtx t c).pid y (s.getCtx t c).tcb = false) (hbs : s.tcb (s.getCtx t c).pid y (s.getCtx t c).tcb = .ok bs)
    (has : s.readSuccs (s.getCtx t c).pid y (y.tcbbase + tcbSuccOff bs) (tcbNsucc bs) = (as, none)) : s.finishUnit t c =
      let z := s.getCtx t c
      let u := s.tcbPut z.pid y z.tcb 6 (toLE 1 stDONE)
      ({ u with msgs := u.msgs ++ as.map fun a => Msg.signal t z.pid z.launch a (s.succTile z.pid y t a) 0 } : State).modCtx
        t c fun x => { x with exiting := 1, exitBad := false } := by
  unfold State.finishUnit
  simp only [h, hexit, hkilled, hended, hsettled, hperf, hl, htcb, hfrec, hheld, hbs, has, Bool.false_eq_true, Bool.true_eq_false, if_false,
    ne_eq, not_true_eq_false, or_self, Bool.not_true, Bool.or_self, Option.isSome_none]

theorem State.noJoin_of_joined (hjoined : (s.getCtx t c).exiting ≠ 1 ∨ (s.getCtx t c).extra.join = none) :
    (if (s.getCtx t c).exiting = 1 then (s.getCtx t c).extra.join else none) = none := by
  rcases hjoined with hexit | hjoin
  · exact if_neg hexit
  · rw [hjoin, ite_self]

section
variable (hsig : (s.msgs.any fun m => m.signalOf t (s.getCtx t c).pid (s.getCtx t c).launch) = false)
  (hred : (s.reds.any fun r => r.who == ⟨t, c, 8⟩) = false)

include hsig hred

/-- The join counter changes once every successor has received its signal. -/
theorem State.exitOn_join {j : Addr} (hexit : (s.getCtx t c).exiting = 1) (hj : (s.getCtx t c).extra.join = some j) :
    s.exitOn t c = (s.joinRed (s.getCtx t c) t c j).modCtx t c fun x => { x with exiting := 2 } := by
  unfold State.exitOn
  simp only [hsig, hred, hexit, hj, Bool.or_self, Bool.false_eq_true, if_false, if_true]

section
variable (hjoined : (s.getCtx t c).exiting ≠ 1 ∨ (s.getCtx t c).extra.join = none)

include hjoined

/-- With no join counter left to change, the caller has its return and the context is free. -/
theorem State.exitOn_returns {k : Caller} (hk : (s.getCtx t c).extra.caller = some k) : s.exitOn t c =
    let z := s.getCtx t c
    (({ s with msgs := s.msgs ++ [Msg.callRet z.vtile z.pid k z.exitVal] } : State).freeCtx t c).leaveTask
      z.pid z.launch z.tcb z.vtile (if z.exitBad then 3 else 0) z.exitBad := by
  simp only [State.exitOn, hsig, hred, State.noJoin_of_joined hjoined, hk, Bool.or_self, Bool.false_eq_true, if_false]

theorem State.exitOn_frees (hk : (s.getCtx t c).extra.caller = none) : s.exitOn t c =
    let z := s.getCtx t c
    (s.freeCtx t c).leaveTask z.pid z.launch z.tcb z.vtile (if z.exitBad then 3 else 0) z.exitBad := by
  simp only [State.exitOn, hsig, hred, State.noJoin_of_joined hjoined, hk, Bool.or_self, Bool.false_eq_true, if_false]

end

end

/-- A killed unit at rest, its task's launch there, ends with its status. -/
theorem State.killed_ends {st : Nat} (cause : Nat) {y : Launch} (hmu : (s.getCtx t c).mu.burst = []) (hcu : (s.getCtx t c).cu.burst = none)
    (hsettled : (s.strip t c).ctxSettled t c = true) (hperf : (s.strip t c).performedAt t 3 = true)
    (hl : (s.strip t c).launch (s.getCtx t c).pid (s.getCtx t c).launch = some y)
    (htcb : (s.strip t c).tcbReady (s.getCtx t c).pid y (s.getCtx t c).tcb = true)
    (hfrec : (s.strip t c).frecReady (s.getCtx t c).pid (s.getCtx t c).launch = true) (hst : st ≠ stFAULTED) : s.killed t c st cause =
      let z := s.getCtx t c
      ((s.strip t c).freeCtx t c).endTask z.pid z.launch z.tcb z.vtile st 2 := by
  unfold State.killed
  simp only [hmu, hcu, hsettled, hperf, hl, htcb, hfrec, ne_eq, not_true_eq_false, Option.isSome_none, Bool.false_eq_true, or_self, if_false,
    Bool.and_self, if_true, if_neg hst]

end

/-! ### Signals to successors (R322) -/

/-- A signal that acts now on a TCB that can be read and written: it is dropped, or waits for room, or counts. -/
theorem State.succSignal_acts {s : State} {n src pid l dst after : Nat} {a : Addr} {y : Launch} {at_ : Place} {bs : List Byte}
    (hstop : s.stopped = false) (hmsg : s.msgFirst n = some (.signal src pid l a dst after)) (hl : s.launch pid l = some y)
    (hafter : after ≤ s.plumb) (hheld : s.sysHeld pid y.ptbr.toNat a.toNat 64 = false)
    (hplace : s.sysPlace pid y.ptbr.toNat .w a.toNat = .ok at_) (hbs : s.tcb pid y a = .ok bs)
    (hhome : ∀ z, at_ = .pa z → s.homeReady src (lineOf z) = true) : s.succSignal n =
      let u := (s.dropMsg n).nextSignal src pid l
      if tcbStatus bs ≠ stWAITING ∨ tcbDepc bs = 0 then u
      else if tcbDepc bs = 1 ∧ s.readyRoom src = false then s
      else u.signalTask pid l at_ bs a 1 src := by
  have hnow : ¬(s.stopped = true ∨ s.plumb < after) := by
    rw [hstop]
    exact not_or.2 ⟨Bool.false_ne_true, hafter.not_gt⟩
  unfold State.succSignal
  simp only [hmsg, if_neg hnow, hl, hheld, Bool.false_eq_true, if_false, hplace, hbs]
  cases at_ with
  | pa x => exact if_neg (by simp [hhome x rfl])
  | _ => exact if_neg Bool.false_ne_true

/-! ### REDs and launches complete (R41, R277, R406) -/

section
variable {s : State}

theorem State.doneMsg_stopped (p l t : Nat) (h : s.stopped = true) : s.doneMsg p l t = s := by
  unfold State.doneMsg
  split
  next => rfl
  next => exact if_pos (by simp [h])

/-- A tile whose units are complete and whose children have reported reports its combined word. -/
theorem State.doneMsg_reports {p l t : Nat} {y : Launch} (h : s.stopped = false) (hl : s.launch p l = some y) (hopen : y.complete = false)
    (hunits : s.unitsThere p l t = false) (hfree : s.chanFree t (treeParent y.tset t) = true) (hin : inSet y.tset t = true)
    (hnew : SMap.find y.reported t = none) (hkids : ∀ u ∈ treeKids y.tset t, (SMap.find y.reported u).isSome = true) :
    s.doneMsg p l t =
      let w := (treeKids y.tset t).foldl (fun w u => joinWords w (SMap.get 0 y.reported u)) (SMap.get 0 y.words t)
      s.modLaunch p l fun z => { z with reported := SMap.put z.reported t w } := by
  have hall : ((treeKids y.tset t).any fun u => (SMap.find y.reported u).isNone) = false := by
    rw [List.any_eq_false]
    intro u hu
    simp [Option.isSome_iff_ne_none.1 (hkids u hu)]
  unfold State.doneMsg
  simp only [hl, h, hopen, hunits, hfree, hin, hnew, hall, Option.isSome_none, Bool.not_true, Bool.or_self, Bool.false_eq_true, if_false]

theorem State.completeLaunch_stopped (p l : Nat) (h : s.stopped = true) : s.completeLaunch p l = s := by
  unfold State.completeLaunch
  split
  next => rfl
  next =>
    split
    next => rfl
    next => exact if_pos (by simp [h])

/-- A launch whose root has reported and that is over completes: its replicas go, and its slot takes its status. -/
theorem State.completeLaunch_completes {p l w : Nat} {y : Launch} (h : s.stopped = false) (hl : s.launch p l = some y)
    (hopen : y.complete = false) (hroot : SMap.find y.reported (rootTile y.tset) = some w) (hover : y.overs = true)
    (hready : s.sysReady (64 * ((s.getPart p).queue y.queue).base + 64 * y.slot + 56) 8 = true) : s.completeLaunch p l =
      let a := 64 * ((s.getPart p).queue y.queue).base + 64 * y.slot
      let u := s.allDies fun _ d => { d with repl := d.repl.filter fun z => !(z.pid == p && z.launch == l) }
      let v := ((u.homeStore p (a + 56) (toLE 4 (y.status w))).homeStore p (a + 60) (toLE 4 1)).modLaunch p l fun z => { z with complete := true }
      if (s.getPart p).oldest y.queue = some l then v.modQueue p y.queue fun z => { z with wstep := 0, wfrom := u.plumb } else v := by
  unfold State.completeLaunch
  simp only [hl, hroot, h, hopen, hover, hready, Bool.not_true, Bool.or_self, Bool.false_eq_true, if_false]
  rfl

/-- A RED that failed late is dropped, and its launch's record says so. -/
theorem State.redDone_fault {n : Nat} {r : Red} {cause : Nat} {a : Addr} (hr : s.reds[n]? = some r) (hfault : r.fault = some (cause, a))
    (hfrec : s.frecReady r.pid r.launch = true) : s.redDone n =
      (({ s with reds := s.reds.eraseIdx n } : State).noteRed r.pid r.launch cause a).modLaunch r.pid r.launch fun y =>
        { y with count := y.count - 1 } := by
  simp only [State.redDone, hr, hfault, hfrec, Bool.not_true, Bool.and_false, Bool.false_eq_true, if_false]

/-- A RED whose turn at its slice has come is merged, or, on a poisoned double, only acknowledged. -/
theorem State.redDone_merges {n : Nat} {r : Red} {a : Nat} (hr : s.reds[n]? = some r) (hfault : r.fault = none) (hat : r.at_ = .pa a)
    (htime : r.time ≤ s.plumb)
    (hresv : ∀ q ∈ SMap.get [] s.resvq (lineOf a), q.granted = false ∧ comesFirst q.at_ q.who r.time r.who = false)
    (hreds : ∀ z ∈ s.reds, z.on (lineOf a) = true →
      comesFirst z.time z.who r.time r.who = false ∧ (z.time = r.time → z.who = r.who → r.id ≤ z.id))
    (hhome : s.homeReady r.tile (lineOf a) = true) : s.redDone n =
      let u : State := { s with reds := s.reds.eraseIdx n }
      let done := fun (v : State) => v.modLaunch r.pid r.launch fun y => { y with count := y.count - 1 }
      if anyPoison s.poison a r.size = true then done u
      else done ((u.homeStore r.pid a
        (toLE r.size (amoNew r.fn r.size r.tile (ofLE (s.homeBytes a r.size)) (r.x.toNat % 2 ^ (8 * r.size))))).spoilMem a r.size) := by
  have hqueue : ((SMap.get [] s.resvq (lineOf a)).any fun q => q.granted || comesFirst q.at_ q.who r.time r.who) = false := by
    rw [List.any_eq_false]
    intro q hq
    obtain ⟨hgranted, hfirst⟩ := hresv q hq
    simp [hgranted, hfirst]
  have hfirst : (s.reds.any fun x => x.on (lineOf a) && (comesFirst x.time x.who r.time r.who ||
      (x.time == r.time && x.who == r.who && x.id < r.id))) = false := by
    rw [List.any_eq_false]
    intro z hz hon
    simp only [Bool.and_eq_true, Bool.or_eq_true, beq_iff_eq, decide_eq_true_eq] at hon
    obtain ⟨hline, hbefore⟩ := hon
    obtain ⟨hlater, hid⟩ := hreds z hz hline
    rcases hbefore with hearlier | ⟨⟨htime, hwho⟩, hless⟩
    · exact Bool.false_ne_true (hlater.symm.trans hearlier)
    · exact absurd hless (hid htime hwho).not_gt
  simp only [State.redDone, hr, hfault, hat, hqueue, hfirst, hhome, htime.not_gt, Option.isSome_none, Bool.or_self, Bool.false_and,
    Bool.false_eq_true, Bool.true_eq_false, or_self, if_false]

end

/-- Settles O55, from what each step of the schedulers comes to. -/
theorem launchesRun : Obligations.LaunchesRun := by
  unfold Obligations.LaunchesRun
  intro s p q t c l n part x z up
  refine ⟨fun h => ⟨?_, ?_, ?_, ?_, fun hlive => ?_⟩, fun h => ⟨fun hen hne hready hpoll hwait => ⟨fun hflag => ?_, fun hflag => ?_⟩,
    fun hen hne hready hall => ⟨fun hwild => ?_, fun hsys hwait hput => ⟨fun hbad => ?_, fun hgood hphase hnew => ?_⟩⟩,
    fun y hfind => ?_, fun e y pl bs hd hissues hfree hfirst htask hl htcb hfrec hplace hbs hread hheld => ⟨fun hbad => ?_, fun hal hok hent => ?_⟩,
    fun e hfirst hroom => ?_, fun hlive hfree hnone hdue => ⟨fun v r e hmates hchan hgives => ?_, fun hnothing => ?_⟩,
    fun u hlive hleast hper hdue hgap hfree => ?_,
    fun y as bs hlive hexit hkilled hended hsettled hperf hl htcb hfrec hheld hbs has => ?_,
    fun hlive hexit hsig hred => ⟨fun j hone hj => ?_, fun k hjoined hk => ?_, fun hjoined hk => ?_⟩,
    fun st cause y hlive hexit hkilled hmu hcu hsettled hperf hl htcb hfrec hst => ?_,
    fun src pid y a at_ bs dst after hmsg hl hafter hheld hplace hbs hhome => ⟨fun hdrop => ?_, fun hwaits hcounts => ?_⟩,
    fun y hl hopen => ⟨fun hunits hfree hin hnew hkids => ?_, fun w hroot hover hready => ?_⟩,
    fun r hr => ⟨fun cause a hfault hfrec => ?_, fun a hfault hat htime hresv hreds hhome => ?_⟩⟩⟩
  case refine_1 => rw [exec_launchSlotPoll, execLaunchSlotPoll, State.pollSlot_stopped h]
  case refine_2 => rw [exec_launchStart, execLaunchStart, State.startLaunch_stopped h]
  case refine_3 => rw [exec_doneMessage, execDoneMessage, State.doneMsg_stopped p l t h]
  case refine_4 => rw [exec_launchComplete, execLaunchComplete, State.completeLaunch_stopped p l h]
  case refine_5 => rw [exec_unitComplete, execUnitComplete_live hlive, State.finishUnit_stopped h]
  case refine_6 => rw [exec_launchSlotPoll, execLaunchSlotPoll, State.pollSlot_due h hen hne hready hpoll hwait, if_pos hflag]
  case refine_7 =>
    rw [exec_launchSlotPoll, execLaunchSlotPoll, State.pollSlot_due h hen hne hready hpoll hwait,
      if_neg (hflag.trans_ne Bool.false_ne_true)]
  case refine_8 => exact if_neg (hwild.trans_ne Bool.false_ne_true)
  case refine_9 => rw [exec_launchStart, execLaunchStart, State.startLaunch_refuses h hall hen hne hready hsys hwait hput hbad]
  case refine_10 =>
    rw [exec_launchStart, execLaunchStart, State.startLaunch_starts h hall hen hne hready hsys hwait hput hgood hphase hnew]
  case refine_11 => rw [exec_launchStart, execLaunchStart, State.startLaunch_goesOn h hfind]
  case refine_12 =>
    rw [exec_dispatch, execDispatch, State.dispatchTile_badHeader hissues hfree hfirst htask hl htcb hfrec hplace hbs hread hheld hbad]
  case refine_13 =>
    rw [exec_dispatch, execDispatch,
      State.dispatchTile_starts hissues hfree hfirst htask hl htcb hfrec hplace hbs hread hheld hal hok hent]
  case refine_14 => rw [exec_overflowMove, execOverflowMove, State.overflowIn_room hfirst hroom]
  case refine_15 => rw [exec_stealRequest, execStealRequest, State.stealFor_takes hlive hfree hnone hdue hmates hchan hgives]
  case refine_16 => rw [exec_stealRequest, execStealRequest, State.stealFor_nothing hlive hfree hnone hdue hnothing]
  case refine_17 => rw [exec_balance, execBalance, State.balanceTile_ships hlive hleast hper hdue hgap hfree]
  case refine_18 =>
    rw [exec_unitComplete, execUnitComplete_live hlive,
      State.finishUnit_done h hexit hkilled hended hsettled hperf hl htcb hfrec hheld hbs has]
  case refine_19 =>
    rw [exec_unitComplete, execUnitComplete_live hlive, State.finishUnit_exiting h hexit, State.exitOn_join hsig hred hone hj]
  case refine_20 =>
    rw [exec_unitComplete, execUnitComplete_live hlive, State.finishUnit_exiting h hexit, State.exitOn_returns hsig hred hjoined hk]
  case refine_21 =>
    rw [exec_unitComplete, execUnitComplete_live hlive, State.finishUnit_exiting h hexit, State.exitOn_frees hsig hred hjoined hk]
  case refine_22 =>
    rw [exec_unitComplete, execUnitComplete_live hlive, State.finishUnit_killed h hexit hkilled,
      State.killed_ends cause hmu hcu hsettled hperf hl htcb hfrec hst]
  case refine_23 =>
    rw [exec_successorSignal, execSuccessorSignal, State.succSignal_acts h hmsg hl hafter hheld hplace hbs hhome]
    exact congrArg Host.Outcome.next (if_pos hdrop)
  case refine_24 =>
    have hcounted : ¬(tcbStatus bs ≠ stWAITING ∨ tcbDepc bs = 0) := by
      rcases hcounts with htwo | ⟨hone, -⟩ <;> simp only [ne_eq, hwaits, not_true_eq_false, false_or] <;> omega
    have hroom : ¬(tcbDepc bs = 1 ∧ s.readyRoom src = false) := by
      rintro ⟨hone, hfull⟩
      rcases hcounts with htwo | ⟨-, hroom⟩
      · omega
      · exact Bool.false_ne_true (hfull.symm.trans hroom)
    rw [exec_successorSignal, execSuccessorSignal, State.succSignal_acts h hmsg hl hafter hheld hplace hbs hhome]
    exact congrArg Host.Outcome.next ((if_neg hcounted).trans (if_neg hroom))
  case refine_25 => rw [exec_doneMessage, execDoneMessage, State.doneMsg_reports h hl hopen hunits hfree hin hnew hkids]
  case refine_26 => rw [exec_launchComplete, execLaunchComplete, State.completeLaunch_completes h hl hopen hroot hover hready]
  case refine_27 => rw [exec_redAck, execRedAck, State.redDone_fault hr hfault hfrec]
  case refine_28 =>
    rw [exec_redAck, execRedAck, State.redDone_merges hr hfault hat htime hresv hreds hhome]
    exact ⟨fun hpoison => congrArg Host.Outcome.next (if_pos hpoison),
      fun hclean => congrArg Host.Outcome.next (if_neg (hclean.trans_ne Bool.false_ne_true))⟩

end Sys2Proof.Machine
end

section
/-! PROOFS. The decoder and the encoder are each other's inverse (R47, R55 to R61, R68): once for each body format, then for the table. -/

namespace Sys2Proof

/-! ### Packing the fields taken out of a word -/

/-- A word is made again of the fields taken out of it and of what lies above them. -/
theorem pack_of_unpack {l m : List (Nat × Nat)} {w : Nat} (h : unpack (l.map Prod.fst) w = l.map Prod.snd)
    (hm : pack m = w / 2 ^ (l.map Prod.fst).sum) : pack (l ++ m) = w := by
  induction l generalizing w with
  | nil => simpa using hm
  | cons e l ih =>
    obtain ⟨n, v⟩ := e
    simp only [List.map_cons, unpack, List.cons.injEq] at h
    obtain ⟨hv, hl⟩ := h
    rw [List.map_cons, List.sum_cons, Nat.pow_add, ← Nat.div_div_eq_div_mul] at hm
    calc pack ((n, v) :: l ++ m) = v + 2 ^ n * pack (l ++ m) := rfl
      _ = w % 2 ^ n + 2 ^ n * (w / 2 ^ n) := by rw [hv, ih hl hm]
      _ = w := Nat.mod_add_div w (2 ^ n)

/-- The common fields of a word of 96 bits are what lies above its body (R55). -/
theorem pack_common {w : Nat} (hw : w < 2 ^ 96) :
    pack [(3, bits w 81 3), (1, b2n (bit w 84)), (10, bits w 85 10), (1, b2n (bit w 95))] = w / 2 ^ 81 := by
  have hbit (i : Nat) : b2n (bit w i) = w / 2 ^ i % 2 := by
    unfold bit bits
    rcases Nat.mod_two_eq_zero_or_one (w / 2 ^ i) with h | h <;> simp [h]
  simp only [pack, hbit, bits]
  omega

/-- A word of 96 bits is its body's and common fields', whatever layout the body has (R55). -/
theorem word_of_unpack {l : List (Nat × Nat)} {w : Nat} (hs : (l.map Prod.fst).sum = 81) (hw : w < 2 ^ 96)
    (h : unpack (l.map Prod.fst) w = l.map Prod.snd) :
    word (bits w 85 10) { s := bit w 95, pn := bit w 84, pg := bits w 81 3 } l = w :=
  pack_of_unpack h (by rw [hs]; exact pack_common hw)

/-! ### Each format's reader and its layout -/

/-- A body format: its layout has 81 bits, its reader gives back the fields of a word that holds them, and accepts a word only where the
layout of what it gives is the fields of the word, those that must be zero included (R55, R57). -/
structure IsFormat {F : Type} (read : Nat → Except Reject F) (layout : F → List (Nat × Nat)) : Prop where
  sum  : ∀ f, ((layout f).map Prod.fst).sum = 81
  back : ∀ {op k f}, fits (layout f) → read (word op k (layout f)) = .ok f
  only : ∀ {w f}, read w = .ok f → unpack ((layout f).map Prod.fst) w = (layout f).map Prod.snd

theorem ok_of_ite {F : Type} {p : Prop} [Decidable p] {e : Reject} {f g : F} (h : (if p then Except.ok f else .error e) = .ok g) :
    p ∧ f = g := by
  split at h
  · exact ⟨‹p›, Except.ok.inj h⟩
  · cases h

@[simp] theorem FRR.isFormat : IsFormat FRR.read FRR.layout := ⟨FRR.layout_sum, FRR.read_word, fun h => by
  obtain ⟨hz, rfl⟩ := ok_of_ite h
  simpa [FRR.layout, unpack] using hz⟩
@[simp] theorem FRI.isFormat : IsFormat FRI.read FRI.layout := ⟨FRI.layout_sum, FRI.read_word, fun h => by
  obtain ⟨hz, rfl⟩ := ok_of_ite h
  simpa [FRI.layout, unpack] using hz⟩
@[simp] theorem FAI.isFormat : IsFormat FAI.read FAI.layout := ⟨FAI.layout_sum, FAI.read_word, fun h => by
  obtain rfl := Except.ok.inj h
  rfl⟩
@[simp] theorem FM.isFormat : IsFormat FM.read FM.layout := ⟨FM.layout_sum, FM.read_word, fun h => by
  obtain ⟨hz, rfl⟩ := ok_of_ite h
  simpa [FM.layout, unpack] using hz⟩
@[simp] theorem FB.isFormat : IsFormat FB.read FB.layout := ⟨FB.layout_sum, FB.read_word, fun h => by
  obtain ⟨hz, rfl⟩ := ok_of_ite h
  simpa [FB.layout, unpack] using hz⟩
@[simp] theorem FV.isFormat : IsFormat FV.read FV.layout := ⟨FV.layout_sum, FV.read_word, fun h => by
  obtain ⟨hz, rfl⟩ := ok_of_ite h
  simpa [FV.layout, unpack] using hz⟩
@[simp] theorem FE.isFormat : IsFormat FE.read FE.layout := ⟨FE.layout_sum, FE.read_word, fun h => by
  obtain ⟨hz, rfl⟩ := ok_of_ite h
  simpa [FE.layout, unpack] using hz⟩
@[simp] theorem FLoopi.isFormat : IsFormat FLoopi.read FLoopi.layout := ⟨FLoopi.layout_sum, FLoopi.read_word, fun h => by
  obtain ⟨hz, rfl⟩ := ok_of_ite h
  simpa [FLoopi.layout, unpack] using hz⟩
@[simp] theorem FCallat.isFormat : IsFormat FCallat.read FCallat.layout := ⟨FCallat.layout_sum, FCallat.read_word, fun h => by
  obtain ⟨hz, rfl⟩ := ok_of_ite h
  simpa [FCallat.layout, unpack] using hz⟩
@[simp] theorem FAtom.isFormat : IsFormat FAtom.read FAtom.layout := ⟨FAtom.layout_sum, FAtom.read_word, fun h => by
  obtain ⟨hz, rfl⟩ := ok_of_ite h
  simpa [FAtom.layout, unpack] using hz⟩
@[simp] theorem FAppend.isFormat : IsFormat FAppend.read FAppend.layout := ⟨FAppend.layout_sum, FAppend.read_word, fun h => by
  obtain ⟨hz, rfl⟩ := ok_of_ite h
  simpa [FAppend.layout, unpack] using hz⟩
@[simp] theorem FFence.isFormat : IsFormat FFence.read FFence.layout := ⟨FFence.layout_sum, FFence.read_word, fun h => by
  obtain ⟨hz, rfl⟩ := ok_of_ite h
  simpa [FFence.layout, unpack] using hz⟩
@[simp] theorem FRegion.isFormat : IsFormat FRegion.read FRegion.layout := ⟨FRegion.layout_sum, FRegion.read_word, fun h => by
  obtain ⟨hz, rfl⟩ := ok_of_ite h
  simpa [FRegion.layout, unpack] using hz⟩
@[simp] theorem FMu.isFormat : IsFormat FMu.read FMu.layout := ⟨FMu.layout_sum, FMu.read_word, fun h => by
  obtain ⟨hz, rfl⟩ := ok_of_ite h
  simpa [FMu.layout, unpack] using hz⟩
@[simp] theorem FCu.isFormat : IsFormat FCu.read FCu.layout := ⟨FCu.layout_sum, FCu.read_word, fun h => by
  obtain rfl := Except.ok.inj h
  rfl⟩
@[simp] theorem FColl.isFormat : IsFormat FColl.read FColl.layout := ⟨FColl.layout_sum, FColl.read_word, fun h => by
  obtain ⟨hz, rfl⟩ := ok_of_ite h
  simpa [FColl.layout, unpack] using hz⟩
@[simp] theorem FLin.isFormat : IsFormat FLin.read FLin.layout := ⟨FLin.layout_sum, FLin.read_word, fun h => by
  obtain ⟨hz, rfl⟩ := ok_of_ite h
  simpa [FLin.layout, unpack] using hz⟩
@[simp] theorem FTrap.isFormat : IsFormat FTrap.read FTrap.layout := ⟨FTrap.layout_sum, FTrap.read_word, fun h => by
  obtain ⟨hz, rfl⟩ := ok_of_ite h
  simpa [FTrap.layout, unpack] using hz⟩
@[simp] theorem FNul.isFormat : IsFormat FNul.read FNul.layout := ⟨FNul.layout_sum, FNul.read_word, fun h => by
  obtain ⟨hz, rfl⟩ := ok_of_ite h
  simpa [FNul.layout, unpack] using hz⟩
@[simp] theorem FTlbi.isFormat : IsFormat FTlbi.read FTlbi.layout := ⟨FTlbi.layout_sum, FTlbi.read_word, fun h => by
  obtain ⟨hz, rfl⟩ := ok_of_ite h
  simpa [FTlbi.layout, unpack] using hz⟩
@[simp] theorem FPark.isFormat : IsFormat FPark.read FPark.layout := ⟨FPark.layout_sum, FPark.read_word, fun h => by
  obtain ⟨hz, rfl⟩ := ok_of_ite h
  simpa [FPark.layout, unpack] using hz⟩
@[simp] theorem FHawk.isFormat : IsFormat FHawk.read FHawk.layout := ⟨FHawk.layout_sum, FHawk.read_word, fun h => by
  obtain ⟨hz, rfl⟩ := ok_of_ite h
  simpa [FHawk.layout, unpack] using hz⟩

/-- The trowel's reader is told the low bits of the opcode, which no field of the body holds. -/
theorem FTrowel.layout_of_read {op w : Nat} {f : FTrowel} (h : FTrowel.read op w = .ok f) :
    unpack (f.layout.map Prod.fst) w = f.layout.map Prod.snd ∧ f.op = op := by
  obtain ⟨hz, rfl⟩ := ok_of_ite h
  exact ⟨by simpa [FTrowel.layout, unpack] using hz, rfl⟩

/-! ### Decoding what has been encoded -/

section
open Laws.F

variable {F : Type} {read : Nat → Except Reject F} {layout : F → List (Nat × Nat)} {i : Instr} {op : Nat} {k : Ctl} {f : F}

/-- The instruction has a word, and that word decodes to it. -/
def Decodes (i : Instr) : Prop := ∃ w, encode i = some w ∧ decode w = .ok i

/-- An instruction's word decodes to it where its opcode's arm gives it back and its checks pass. -/
theorem decodes_of_decodeOp {l : List (Nat × Nat)} (hfits : k.ok = true ∧ fits l) (hwf : i.wf = true)
    (henc : encode i = some (word op k l)) (hop : op < 1024) (hs : (l.map Prod.fst).sum = 81)
    (hdec : decodeOp op k (word op k l) = .ok i) : Decodes i := by
  refine ⟨_, henc, ?_⟩
  rw [decode_word hop hfits.1 hfits.2 hs, hdec]
  exact if_pos hwf

/-- An instruction whose opcode names it alone. -/
theorem IsFormat.decodes (T : IsFormat read layout) (hfits : k.ok = true ∧ fits (layout f)) {c : F → Instr} (hwf : (c f).wf = true)
    (henc : encode (c f) = some (word op k (layout f))) (hdec : ∀ w, decodeOp op k w = (read w).map c) (hop : op < 1024 := by decide) :
    Decodes (c f) :=
  decodes_of_decodeOp hfits hwf henc hop (T.sum f) (by rw [hdec, T.back hfits.2]; rfl)

/-- An instruction that its opcode names with a field of its body. -/
theorem IsFormat.decodes_variant (T : IsFormat read layout) (hfits : k.ok = true ∧ fits (layout f)) (hwf : i.wf = true)
    (henc : encode i = some (word op k (layout f))) {g : F → Except Reject Instr} (hdec : ∀ w, decodeOp op k w = (read w).bind g)
    (hg : g f = .ok i) (hop : op < 1024 := by decide) : Decodes i :=
  decodes_of_decodeOp hfits hwf henc hop (T.sum f) (by rw [hdec, T.back hfits.2]; exact hg)

theorem eq_of_contains_singleton {m n : Nat} (h : [n].contains m = true) : m = n := by simpa using h

theorem FRR.fn_of_ok {f : FRR} {d a b c n : Nat} (h : f.ok d a b c [n] = true) : f.fn = n :=
  eq_of_contains_singleton (both h).2
theorem FMu.fn_of_ok {f : FMu} {d vr acc row n : Nat} (h : f.ok d vr acc row [n] = true) : f.fn = n :=
  eq_of_contains_singleton (both h).2
theorem FRegion.fn_of_ok {f : FRegion} {d e pd ar n imm : Nat} (h : f.ok d e pd ar [n] imm = true) : f.fn = n :=
  eq_of_contains_singleton (both (both h).1).2
theorem FAppend.fn_of_ok {f : FAppend} {a t ar n : Nat} (h : f.ok a t ar n = true) : f.fn = n := beq_iff_eq.1 (both h).2

theorem decodeOp_syncwt (k : Ctl) (w : Nat) : decodeOp 0x296 k w = (FCu.read w).bind fun f => match f.fn with
    | 0 => .ok (.syncwt k f)
    | 1 => .ok (.syncwtInit k f)
    | _ => .error .notAccepted := rfl

theorem decodeOp_csync (k : Ctl) (w : Nat) : decodeOp 0x297 k w = (FCu.read w).bind fun f => match f.fn with
    | 0 => .ok (.csyncWait k f)
    | 1 => .ok (.csyncStat k f)
    | 2 => .ok (.csyncGo k f)
    | 3 => .ok (.csyncDrop k f)
    | _ => .error .notAccepted := rfl

theorem decodes_cancelLevel {f : FRR} (h : (Instr.cancelLevel k f).wf = true) : Decodes (.cancelLevel k f) := by
  have hn : f.fn = 1 ∨ f.fn = 2 ∨ f.fn = 3 ∨ f.fn = 4 := by simpa using (both (both h).2).2
  refine FRR.isFormat.decodes_variant (fits_cancelLevel h) h rfl (fun _ => rfl) ?_
  rcases hn with hn | hn | hn | hn <;> rw [hn] <;> rfl

/-- A trowel word's opcode is a field of the instruction (R59, R69). -/
theorem decodeOp_trowel {op : Nat} (h : op < 64) (k : Ctl) (w : Nat) :
    decodeOp (0x3C0 + op) k w = (FTrowel.read op w).map (.trowel k) := by
  interval_cases op <;> rfl

theorem decodes_trowel {f : FTrowel} (h : (Instr.trowel k f).wf = true) : Decodes (.trowel k f) := by
  have hop : f.op < 64 := by simpa using (both (both (both (both (both (both (both h).1).1).1).1).1).1).2
  refine decodes_of_decodeOp (fits_trowel h) h rfl (by omega) f.layout_sum ?_
  rw [decodeOp_trowel hop, FTrowel.read_word (fits_trowel h).2]
  rfl

/-- Every well-formed instruction of the table, by its format and the arm of its opcode. -/
theorem decodes_of_wf {i : Instr} (h : i.wf = true) (hinstr : Machine.isEvent i = false) : Decodes i := by
  cases i with
  | nop k f => exact FRR.isFormat.decodes (fits_nop h) h rfl fun _ => rfl
  | add k f => exact FRR.isFormat.decodes (fits_add h) h rfl fun _ => rfl
  | sub k f => exact FRR.isFormat.decodes (fits_sub h) h rfl fun _ => rfl
  | addi k f => exact FRI.isFormat.decodes (fits_addi h) h rfl fun _ => rfl
  | mul k f => exact FRR.isFormat.decodes (fits_mul h) h rfl fun _ => rfl
  | mulh k f => exact FRR.isFormat.decodes (fits_mulh h) h rfl fun _ => rfl
  | mulhu k f => exact FRR.isFormat.decodes (fits_mulhu h) h rfl fun _ => rfl
  | div k f => exact FRR.isFormat.decodes (fits_div h) h rfl fun _ => rfl
  | divu k f => exact FRR.isFormat.decodes (fits_divu h) h rfl fun _ => rfl
  | rem k f => exact FRR.isFormat.decodes (fits_rem h) h rfl fun _ => rfl
  | remu k f => exact FRR.isFormat.decodes (fits_remu h) h rfl fun _ => rfl
  | and k f => exact FRR.isFormat.decodes (fits_and h) h rfl fun _ => rfl
  | or k f => exact FRR.isFormat.decodes (fits_or h) h rfl fun _ => rfl
  | xor k f => exact FRR.isFormat.decodes (fits_xor h) h rfl fun _ => rfl
  | andn k f => exact FRR.isFormat.decodes (fits_andn h) h rfl fun _ => rfl
  | andi k f => exact FRI.isFormat.decodes (fits_andi h) h rfl fun _ => rfl
  | ori k f => exact FRI.isFormat.decodes (fits_ori h) h rfl fun _ => rfl
  | xori k f => exact FRI.isFormat.decodes (fits_xori h) h rfl fun _ => rfl
  | shl k f => exact FRR.isFormat.decodes (fits_shl h) h rfl fun _ => rfl
  | shr k f => exact FRR.isFormat.decodes (fits_shr h) h rfl fun _ => rfl
  | sra k f => exact FRR.isFormat.decodes (fits_sra h) h rfl fun _ => rfl
  | rotr k f => exact FRR.isFormat.decodes (fits_rotr h) h rfl fun _ => rfl
  | shli k f => exact FRI.isFormat.decodes (fits_shli h) h rfl fun _ => rfl
  | shri k f => exact FRI.isFormat.decodes (fits_shri h) h rfl fun _ => rfl
  | srai k f => exact FRI.isFormat.decodes (fits_srai h) h rfl fun _ => rfl
  | clz k f => exact FRR.isFormat.decodes (fits_clz h) h rfl fun _ => rfl
  | ctz k f => exact FRR.isFormat.decodes (fits_ctz h) h rfl fun _ => rfl
  | pcnt k f => exact FRR.isFormat.decodes (fits_pcnt h) h rfl fun _ => rfl
  | bswap k f => exact FRR.isFormat.decodes (fits_bswap h) h rfl fun _ => rfl
  | min k f => exact FRR.isFormat.decodes (fits_min h) h rfl fun _ => rfl
  | max k f => exact FRR.isFormat.decodes (fits_max h) h rfl fun _ => rfl
  | minu k f => exact FRR.isFormat.decodes (fits_minu h) h rfl fun _ => rfl
  | maxu k f => exact FRR.isFormat.decodes (fits_maxu h) h rfl fun _ => rfl
  | cmp k f => exact FRR.isFormat.decodes (fits_cmp h) h rfl fun _ => rfl
  | cmpi k f => exact FRI.isFormat.decodes (fits_cmpi h) h rfl fun _ => rfl
  | sel k f => exact FRR.isFormat.decodes (fits_sel h) h rfl fun _ => rfl
  | pset k f => exact FRR.isFormat.decodes (fits_pset h) h rfl fun _ => rfl
  | mov k f => exact FRR.isFormat.decodes_variant (fits_mov h) h rfl (fun _ => rfl) (by rw [FRR.fn_of_ok (both h).2]; rfl)
  | movAl k f => exact FRR.isFormat.decodes_variant (fits_movAl h) h rfl (fun _ => rfl) (by rw [FRR.fn_of_ok (both h).2]; rfl)
  | movAh k f => exact FRR.isFormat.decodes_variant (fits_movAh h) h rfl (fun _ => rfl) (by rw [FRR.fn_of_ok (both h).2]; rfl)
  | movi k f => exact FRI.isFormat.decodes (fits_movi h) h rfl fun _ => rfl
  | ext k f => exact FRR.isFormat.decodes (fits_ext h) h rfl fun _ => rfl
  | bfx k f => exact FRI.isFormat.decodes (fits_bfx h) h rfl fun _ => rfl
  | bfi k f => exact FRI.isFormat.decodes (fits_bfi h) h rfl fun _ => rfl
  | lea k f => exact FM.isFormat.decodes (fits_lea h) h rfl fun _ => rfl
  | adda k f => exact FRR.isFormat.decodes (fits_adda h) h rfl fun _ => rfl
  | suba k f => exact FRR.isFormat.decodes_variant (fits_suba h) h rfl (fun _ => rfl) (by rw [FRR.fn_of_ok (both h).2]; rfl)
  | subaD k f => exact FRR.isFormat.decodes_variant (fits_subaD h) h rfl (fun _ => rfl) (by rw [FRR.fn_of_ok (both h).2]; rfl)
  | mova k f => exact FRR.isFormat.decodes_variant (fits_mova h) h rfl (fun _ => rfl) (by rw [FRR.fn_of_ok (both h).2]; rfl)
  | movaS k f => exact FRR.isFormat.decodes_variant (fits_movaS h) h rfl (fun _ => rfl) (by rw [FRR.fn_of_ok (both h).2]; rfl)
  | movaSh k f => exact FRR.isFormat.decodes_variant (fits_movaSh h) h rfl (fun _ => rfl) (by rw [FRR.fn_of_ok (both h).2]; rfl)
  | cmpa k f => exact FRR.isFormat.decodes (fits_cmpa h) h rfl fun _ => rfl
  | movai k f => exact FAI.isFormat.decodes (fits_movai h) h rfl fun _ => rfl
  | br k f => exact FB.isFormat.decodes (fits_br h) h rfl fun _ => rfl
  | bc k f => exact FB.isFormat.decodes (fits_bc h) h rfl fun _ => rfl
  | bcmp k f => exact FB.isFormat.decodes (fits_bcmp h) h rfl fun _ => rfl
  | bi k f => exact FRR.isFormat.decodes (fits_bi h) h rfl fun _ => rfl
  | call k f => exact FB.isFormat.decodes (fits_call h) h rfl fun _ => rfl
  | calli k f => exact FRR.isFormat.decodes (fits_calli h) h rfl fun _ => rfl
  | ret k f => exact FRR.isFormat.decodes (fits_ret h) h rfl fun _ => rfl
  | jtab k f => exact FRR.isFormat.decodes (fits_jtab h) h rfl fun _ => rfl
  | loop k f => exact FB.isFormat.decodes (fits_loop h) h rfl fun _ => rfl
  | loopi k f => exact FLoopi.isFormat.decodes (fits_loopi h) h rfl fun _ => rfl
  | breakl k f => exact FRR.isFormat.decodes (fits_breakl h) h rfl fun _ => rfl
  | forkb k f => exact FB.isFormat.decodes (fits_forkb h) h rfl fun _ => rfl
  | join k f => exact FRR.isFormat.decodes (fits_join h) h rfl fun _ => rfl
  | callat k f => exact FCallat.isFormat.decodes (fits_callat h) h rfl fun _ => rfl
  | spawn k f => exact FRR.isFormat.decodes (fits_spawn h) h rfl fun _ => rfl
  | tdep k f => exact FRR.isFormat.decodes (fits_tdep h) h rfl fun _ => rfl
  | signal k f => exact FRR.isFormat.decodes (fits_signal h) h rfl fun _ => rfl
  | texit k f => exact FRR.isFormat.decodes (fits_texit h) h rfl fun _ => rfl
  | yield k f => exact FRR.isFormat.decodes (fits_yield h) h rfl fun _ => rfl
  | tqry k f => exact FRR.isFormat.decodes (fits_tqry h) h rfl fun _ => rfl
  | cancelTask k f => exact FRR.isFormat.decodes_variant (fits_cancelTask h) h rfl (fun _ => rfl) (by rw [FRR.fn_of_ok (both h).2]; rfl)
  | cancelLevel k f => exact decodes_cancelLevel h
  | lcnt k f => exact FRR.isFormat.decodes (fits_lcnt h) h rfl fun _ => rfl
  | semp k f => exact FRR.isFormat.decodes (fits_semp h) h rfl fun _ => rfl
  | semv k f => exact FRR.isFormat.decodes (fits_semv h) h rfl fun _ => rfl
  | qpush k f => exact FRR.isFormat.decodes (fits_qpush h) h rfl fun _ => rfl
  | qpop k f => exact FRR.isFormat.decodes (fits_qpop h) h rfl fun _ => rfl
  | qstat k f => exact FRR.isFormat.decodes (fits_qstat h) h rfl fun _ => rfl
  | ld k f => exact FM.isFormat.decodes (fits_ld h) h rfl fun _ => rfl
  | st k f => exact FM.isFormat.decodes (fits_st h) h rfl fun _ => rfl
  | lda k f => exact FM.isFormat.decodes (fits_lda h) h rfl fun _ => rfl
  | sta k f => exact FM.isFormat.decodes (fits_sta h) h rfl fun _ => rfl
  | ldq k f => exact FM.isFormat.decodes (fits_ldq h) h rfl fun _ => rfl
  | stq k f => exact FM.isFormat.decodes (fits_stq h) h rfl fun _ => rfl
  | lds k f => exact FM.isFormat.decodes (fits_lds h) h rfl fun _ => rfl
  | stf k f => exact FM.isFormat.decodes (fits_stf h) h rfl fun _ => rfl
  | sete k f => exact FM.isFormat.decodes (fits_sete h) h rfl fun _ => rfl
  | feq k f => exact FM.isFormat.decodes (fits_feq h) h rfl fun _ => rfl
  | pref k f => exact FM.isFormat.decodes (fits_pref h) h rfl fun _ => rfl
  | vld k f => exact FM.isFormat.decodes (fits_vld h) h rfl fun _ => rfl
  | vst k f => exact FM.isFormat.decodes (fits_vst h) h rfl fun _ => rfl
  | vlds k f => exact FM.isFormat.decodes (fits_vlds h) h rfl fun _ => rfl
  | vsts k f => exact FM.isFormat.decodes (fits_vsts h) h rfl fun _ => rfl
  | vgath k f => exact FV.isFormat.decodes (fits_vgath h) h rfl fun _ => rfl
  | vscat k f => exact FV.isFormat.decodes (fits_vscat h) h rfl fun _ => rfl
  | clean k f => exact FM.isFormat.decodes (fits_clean h) h rfl fun _ => rfl
  | disc k f => exact FM.isFormat.decodes (fits_disc h) h rfl fun _ => rfl
  | zero k f => exact FM.isFormat.decodes (fits_zero h) h rfl fun _ => rfl
  | lr k f => exact FM.isFormat.decodes (fits_lr h) h rfl fun _ => rfl
  | sc k f => exact FAtom.isFormat.decodes (fits_sc h) h rfl fun _ => rfl
  | amo k f => exact FAtom.isFormat.decodes (fits_amo h) h rfl fun _ => rfl
  | cas k f => exact FAtom.isFormat.decodes (fits_cas h) h rfl fun _ => rfl
  | red k f => exact FAtom.isFormat.decodes (fits_red h) h rfl fun _ => rfl
  | append k f => exact FAppend.isFormat.decodes_variant (Laws.F.fits_append h) h rfl (fun _ => rfl) (by rw [FAppend.fn_of_ok (both (both (both (both h).1).1).1).2]; rfl)
  | appendCfg k f => exact FAppend.isFormat.decodes_variant (fits_appendCfg h) h rfl (fun _ => rfl) (by rw [FAppend.fn_of_ok (both (both h).1).2]; rfl)
  | appendPop k f => exact FAppend.isFormat.decodes_variant (fits_appendPop h) h rfl (fun _ => rfl) (by rw [FAppend.fn_of_ok (both (both h).1).2]; rfl)
  | appendStat k f => exact FAppend.isFormat.decodes_variant (fits_appendStat h) h rfl (fun _ => rfl) (by rw [FAppend.fn_of_ok (both (both h).1).2]; rfl)
  | wrs k f => exact FM.isFormat.decodes (fits_wrs h) h rfl fun _ => rfl
  | fence k f => exact FFence.isFormat.decodes (fits_fence h) h rfl fun _ => rfl
  | fencee k f => exact FFence.isFormat.decodes (fits_fencee h) h rfl fun _ => rfl
  | rbegin k f => exact FRegion.isFormat.decodes (fits_rbegin h) h rfl fun _ => rfl
  | rcommit k f => exact FRegion.isFormat.decodes (fits_rcommit h) h rfl fun _ => rfl
  | rabort k f => exact FRegion.isFormat.decodes (fits_rabort h) h rfl fun _ => rfl
  | rstat k f => exact FRegion.isFormat.decodes (fits_rstat h) h rfl fun _ => rfl
  | rposB k f => exact FRegion.isFormat.decodes_variant (fits_rposB h) h rfl (fun _ => rfl) (by rw [FRegion.fn_of_ok (both h).2]; rfl)
  | rposL k f => exact FRegion.isFormat.decodes_variant (fits_rposL h) h rfl (fun _ => rfl) (by rw [FRegion.fn_of_ok (both h).2]; rfl)
  | vadd k f => exact FV.isFormat.decodes (fits_vadd h) h rfl fun _ => rfl
  | vsub k f => exact FV.isFormat.decodes (fits_vsub h) h rfl fun _ => rfl
  | vmul k f => exact FV.isFormat.decodes (fits_vmul h) h rfl fun _ => rfl
  | vfma k f => exact FV.isFormat.decodes (fits_vfma h) h rfl fun _ => rfl
  | vfms k f => exact FV.isFormat.decodes (fits_vfms h) h rfl fun _ => rfl
  | vmin k f => exact FV.isFormat.decodes (fits_vmin h) h rfl fun _ => rfl
  | vmax k f => exact FV.isFormat.decodes (fits_vmax h) h rfl fun _ => rfl
  | vabs k f => exact FV.isFormat.decodes (fits_vabs h) h rfl fun _ => rfl
  | vneg k f => exact FV.isFormat.decodes (fits_vneg h) h rfl fun _ => rfl
  | vrcp k f => exact FV.isFormat.decodes (fits_vrcp h) h rfl fun _ => rfl
  | vrsq k f => exact FV.isFormat.decodes (fits_vrsq h) h rfl fun _ => rfl
  | vexp2 k f => exact FV.isFormat.decodes (fits_vexp2 h) h rfl fun _ => rfl
  | vlog2 k f => exact FV.isFormat.decodes (fits_vlog2 h) h rfl fun _ => rfl
  | vdiv k f => exact FV.isFormat.decodes (fits_vdiv h) h rfl fun _ => rfl
  | vsqrt k f => exact FV.isFormat.decodes (fits_vsqrt h) h rfl fun _ => rfl
  | vand k f => exact FV.isFormat.decodes (fits_vand h) h rfl fun _ => rfl
  | vor k f => exact FV.isFormat.decodes (fits_vor h) h rfl fun _ => rfl
  | vxor k f => exact FV.isFormat.decodes (fits_vxor h) h rfl fun _ => rfl
  | vshl k f => exact FV.isFormat.decodes (fits_vshl h) h rfl fun _ => rfl
  | vshr k f => exact FV.isFormat.decodes (fits_vshr h) h rfl fun _ => rfl
  | vsra k f => exact FV.isFormat.decodes (fits_vsra h) h rfl fun _ => rfl
  | vcmp k f => exact FV.isFormat.decodes (fits_vcmp h) h rfl fun _ => rfl
  | vsel k f => exact FV.isFormat.decodes (fits_vsel h) h rfl fun _ => rfl
  | vcvt k f => exact FV.isFormat.decodes (fits_vcvt h) h rfl fun _ => rfl
  | vred k f => exact FV.isFormat.decodes (fits_vred h) h rfl fun _ => rfl
  | vscan k f => exact FV.isFormat.decodes (fits_vscan h) h rfl fun _ => rfl
  | vperm k f => exact FV.isFormat.decodes (fits_vperm h) h rfl fun _ => rfl
  | vbcast k f => exact FV.isFormat.decodes (fits_vbcast h) h rfl fun _ => rfl
  | vins k f => exact FV.isFormat.decodes (fits_vins h) h rfl fun _ => rfl
  | vext k f => exact FV.isFormat.decodes (fits_vext h) h rfl fun _ => rfl
  | vmov k f => exact FV.isFormat.decodes (fits_vmov h) h rfl fun _ => rfl
  | vmovi k f => exact FV.isFormat.decodes (fits_vmovi h) h rfl fun _ => rfl
  | kop k f => exact FV.isFormat.decodes (fits_kop h) h rfl fun _ => rfl
  | kmov k f => exact FV.isFormat.decodes (fits_kmov h) h rfl fun _ => rfl
  | vhist k f => exact FV.isFormat.decodes (fits_vhist h) h rfl fun _ => rfl
  | mma k f => exact FE.isFormat.decodes (fits_mma h) h rfl fun _ => rfl
  | mmat k f => exact FE.isFormat.decodes (fits_mmat h) h rfl fun _ => rfl
  | mmas k f => exact FE.isFormat.decodes (fits_mmas h) h rfl fun _ => rfl
  | mzero k f => exact FE.isFormat.decodes (fits_mzero h) h rfl fun _ => rfl
  | mrdv k f => exact FMu.isFormat.decodes (fits_mrdv h) h rfl fun _ => rfl
  | mwrv k f => exact FMu.isFormat.decodes (fits_mwrv h) h rfl fun _ => rfl
  | mst k f => exact FE.isFormat.decodes (fits_mst h) h rfl fun _ => rfl
  | mlda k f => exact FE.isFormat.decodes (fits_mlda h) h rfl fun _ => rfl
  | mprogGo k f => exact FMu.isFormat.decodes_variant (fits_mprogGo h) h rfl (fun _ => rfl) (by rw [FMu.fn_of_ok (both h).2]; rfl)
  | mprogDrop k f => exact FMu.isFormat.decodes_variant (fits_mprogDrop h) h rfl (fun _ => rfl) (by rw [FMu.fn_of_ok (both h).2]; rfl)
  | msync k f => exact FMu.isFormat.decodes (fits_msync h) h rfl fun _ => rfl
  | mstat k f => exact FMu.isFormat.decodes (fits_mstat h) h rfl fun _ => rfl
  | cpy k f => exact FCu.isFormat.decodes (fits_cpy h) h rfl fun _ => rfl
  | cpyc k f => exact FCu.isFormat.decodes (fits_cpyc h) h rfl fun _ => rfl
  | cpyg k f => exact FCu.isFormat.decodes (fits_cpyg h) h rfl fun _ => rfl
  | cbatch k f => exact FCu.isFormat.decodes (fits_cbatch h) h rfl fun _ => rfl
  | cwaitb k f => exact FCu.isFormat.decodes (fits_cwaitb h) h rfl fun _ => rfl
  | syncw k f => exact FCu.isFormat.decodes (fits_syncw h) h rfl fun _ => rfl
  | syncwt k f => exact FCu.isFormat.decodes_variant (fits_syncwt h) h rfl (decodeOp_syncwt k) (by rw [beq_iff_eq.1 (both h).2]; rfl)
  | syncwtInit k f => exact FCu.isFormat.decodes_variant (fits_syncwtInit h) h rfl (decodeOp_syncwt k) (by rw [beq_iff_eq.1 (both h).2]; rfl)
  | csyncWait k f => exact FCu.isFormat.decodes_variant (fits_csyncWait h) h rfl (decodeOp_csync k) (by rw [beq_iff_eq.1 (both h).2]; rfl)
  | csyncStat k f => exact FCu.isFormat.decodes_variant (fits_csyncStat h) h rfl (decodeOp_csync k) (by rw [beq_iff_eq.1 (both h).2]; rfl)
  | csyncGo k f => exact FCu.isFormat.decodes_variant (fits_csyncGo h) h rfl (decodeOp_csync k) (by rw [beq_iff_eq.1 (both h).2]; rfl)
  | csyncDrop k f => exact FCu.isFormat.decodes_variant (fits_csyncDrop h) h rfl (decodeOp_csync k) (by rw [beq_iff_eq.1 (both h).2]; rfl)
  | cgrp k f => exact FColl.isFormat.decodes (fits_cgrp h) h rfl fun _ => rfl
  | cring k f => exact FColl.isFormat.decodes (fits_cring h) h rfl fun _ => rfl
  | credu k f => exact FColl.isFormat.decodes (fits_credu h) h rfl fun _ => rfl
  | cgath k f => exact FColl.isFormat.decodes (fits_cgath h) h rfl fun _ => rfl
  | cbar k f => exact FColl.isFormat.decodes (fits_cbar h) h rfl fun _ => rfl
  | cwait k f => exact FColl.isFormat.decodes (fits_cwait h) h rfl fun _ => rfl
  | lnew k f => exact FLin.isFormat.decodes (fits_lnew h) h rfl fun _ => rfl
  | lmap k f => exact FLin.isFormat.decodes (fits_lmap h) h rfl fun _ => rfl
  | lunmap k f => exact FLin.isFormat.decodes (fits_lunmap h) h rfl fun _ => rfl
  | fork k f => exact FLin.isFormat.decodes (fits_fork h) h rfl fun _ => rfl
  | rebase k f => exact FLin.isFormat.decodes (fits_rebase h) h rfl fun _ => rfl
  | flatten k f => exact FLin.isFormat.decodes (fits_flatten h) h rfl fun _ => rfl
  | drop k f => exact FLin.isFormat.decodes (fits_drop h) h rfl fun _ => rfl
  | lnq k f => exact FLin.isFormat.decodes (fits_lnq h) h rfl fun _ => rfl
  | ldiff k f => exact FLin.isFormat.decodes (fits_ldiff h) h rfl fun _ => rfl
  | trap k f => exact FTrap.isFormat.decodes (fits_trap h) h rfl fun _ => rfl
  | eret k f => exact FNul.isFormat.decodes (fits_eret h) h rfl fun _ => rfl
  | csrr k f => exact FRI.isFormat.decodes (fits_csrr h) h rfl fun _ => rfl
  | csrw k f => exact FRI.isFormat.decodes (fits_csrw h) h rfl fun _ => rfl
  | csrx k f => exact FRI.isFormat.decodes (fits_csrx h) h rfl fun _ => rfl
  | tlbi k f => exact FTlbi.isFormat.decodes (fits_tlbi h) h rfl fun _ => rfl
  | icinv k f => exact FM.isFormat.decodes (fits_icinv h) h rfl fun _ => rfl
  | park k f => exact FPark.isFormat.decodes (fits_park h) h rfl fun _ => rfl
  | trwb k f => exact FHawk.isFormat.decodes (fits_trwb h) h rfl fun _ => rfl
  | trwl k f => exact FHawk.isFormat.decodes (fits_trwl h) h rfl fun _ => rfl
  | trwu k f => exact FHawk.isFormat.decodes (fits_trwu h) h rfl fun _ => rfl
  | trwq k f => exact FHawk.isFormat.decodes (fits_trwq h) h rfl fun _ => rfl
  | trowel k f => exact decodes_trowel h
  | _ => cases hinstr

end

/-! ### Encoding what has been decoded -/

/-- Whatever an opcode's arm comes to is refused, or is an instruction whose word has this opcode and control field and the body's
fields. -/
def Accepts (op : Nat) (k : Ctl) (w : Nat) (x : Except Reject Instr) : Prop :=
  ∀ i, x = .ok i → ∃ l, encode i = some (word op k l) ∧ (l.map Prod.fst).sum = 81 ∧ unpack (l.map Prod.fst) w = l.map Prod.snd

section
variable {F : Type} {read : Nat → Except Reject F} {layout : F → List (Nat × Nat)} {op : Nat} {k : Ctl} {w : Nat}

theorem ok_of_bind {x : Except Reject F} {g : F → Except Reject Instr} {i : Instr} (h : x.bind g = .ok i) :
    ∃ f, x = .ok f ∧ g f = .ok i := by
  cases x with
  | error e => cases h
  | ok f => exact ⟨f, rfl, h⟩

theorem ok_of_map {x : Except Reject F} {c : F → Instr} {i : Instr} (h : x.map c = .ok i) : ∃ f, x = .ok f ∧ c f = i := by
  cases x with
  | error e => cases h
  | ok f => exact ⟨f, rfl, Except.ok.inj h⟩

theorem IsFormat.accepts_bind (T : IsFormat read layout) {g : F → Except Reject Instr}
    (henc : ∀ f i, g f = .ok i → encode i = some (word op k (layout f))) : Accepts op k w ((read w).bind g) := by
  intro i h
  obtain ⟨f, hr, hg⟩ := ok_of_bind h
  exact ⟨layout f, henc f i hg, T.sum f, T.only hr⟩

theorem IsFormat.accepts_map (T : IsFormat read layout) {c : F → Instr}
    (henc : ∀ f, encode (c f) = some (word op k (layout f))) : Accepts op k w ((read w).map c) := by
  intro i h
  obtain ⟨f, hr, rfl⟩ := ok_of_map h
  exact ⟨layout f, henc f, T.sum f, T.only hr⟩

/-- One opcode's arm, and the arms below it. -/
theorem Accepts.arm {n : Nat} {x : Except Reject Instr} {b : ¬op = n → Except Reject Instr} (here : Accepts n k w x)
    (below : ∀ h, Accepts op k w (b h)) : Accepts op k w (dite (op = n) (Eq.ndrec_symm (motive := fun _ => Except Reject Instr) x) b) := by
  split
  · subst op
    exact here
  · exact below _

/-- Above the table lie the trowel opcodes (R69); all else is reserved (R68). -/
theorem accepts_trowel :
    Accepts op k w (if 0x3C0 ≤ op then (FTrowel.read (op - 0x3C0) w).map (.trowel k) else .error .reservedOpcode) := by
  intro i h
  by_cases hop : 0x3C0 ≤ op
  · rw [if_pos hop] at h
    obtain ⟨f, hr, rfl⟩ := ok_of_map h
    obtain ⟨hfields, hfop⟩ := FTrowel.layout_of_read hr
    have henc : encode (.trowel k f) = some (word (0x3C0 + f.op) k f.layout) := rfl
    rw [hfop, Nat.add_sub_cancel' hop] at henc
    exact ⟨f.layout, henc, f.layout_sum, hfields⟩
  · rw [if_neg hop] at h
    cases h

set_option smartUnfolding false in
/-- The decoder's table, arm by arm: each but the last has a format, and either one instruction, or variants that a field names. (With
the option off, the table's `match` is seen as the chain of tests that it is.) -/
theorem accepts_decodeOp : Accepts op k w (decodeOp op k w) := by
  repeat' refine Accepts.arm ?_ fun _ => ?_
  any_goals exact IsFormat.accepts_map (by simp) fun _ => rfl
  any_goals exact accepts_trowel
  any_goals refine FRR.isFormat.accepts_bind fun f i h => ?_
  any_goals refine FAppend.isFormat.accepts_bind fun f i h => ?_
  any_goals refine FRegion.isFormat.accepts_bind fun f i h => ?_
  any_goals refine FMu.isFormat.accepts_bind fun f i h => ?_
  any_goals refine FCu.isFormat.accepts_bind fun f i h => ?_
  all_goals split at h <;> cases h <;> rfl

end

/-- A word that decodes is the word of what it gives, whose checks have passed. -/
theorem encode_of_decode {w : Nat} {i : Instr} (hw : w < 2 ^ 96) (h : decode w = .ok i) : encode i = some w := by
  unfold decode at h
  obtain ⟨j, hd, hwf⟩ := ok_of_bind h
  obtain ⟨-, rfl⟩ := ok_of_ite hwf
  obtain ⟨l, henc, hs, hfields⟩ := accepts_decodeOp j hd
  rw [henc, word_of_unpack hs hw hfields]

end Sys2Proof

namespace Sys2Proof.Machine

/-- Settles O20, by the table's instructions. -/
theorem decodeOfEncode : Obligations.DecodeOfEncode := by
  unfold Obligations.DecodeOfEncode
  exact fun i hwf hinstr => decodes_of_wf hwf hinstr

/-- Settles O21, by the decoder's arms. -/
theorem encodeOfDecode : Obligations.EncodeOfDecode := by
  unfold Obligations.EncodeOfDecode
  exact fun w i hw h => encode_of_decode hw h

/-- Settles O22, by decoding the words. -/
theorem writtenWordsDecode : Obligations.WrittenWordsDecode := by
  unfold Obligations.WrittenWordsDecode
  decide +kernel

end Sys2Proof.Machine
end

section
/-! PROOFS. Comparisons, selection and address arithmetic (R58, R59, R76, R78). -/

namespace Sys2Proof.Machine

/-- An instruction whose effect is one class F write. -/
theorem writes_of_wr {i : Instr} {s : State} {op : Nat} {k : Ctl} {regs : List Reg} {body : State → Res} {r : Reg} {v : Vec}
    (hexec : exec i s = run op k regs body s) (hbody : body s.begun = .done (s.begun.wr r v)) (hcut : r.cut v = v) :
    Writes i s op k regs r v := by
  intro hready hflow
  obtain ⟨f, hf⟩ := Option.isSome_iff_exists.1 hflow
  obtain ⟨t, hrun, hwrote⟩ := run_wr r v hready hf hbody
  exact ⟨t, hexec.trans hrun, hcut ▸ hwrote⟩

/-! ### Comparisons and selection (R59, R76, R78) -/

theorem slt_eq_decide (x y : Word) : x.slt y = decide (x.toInt < y.toInt) := rfl

theorem not_slt_eq_decide (x y : Word) : (!x.slt y) = decide (y.toInt ≤ x.toInt) := by
  rw [slt_eq_decide, ← decide_not]
  exact decide_eq_decide.2 Int.not_lt

theorem not_ult_eq_decide {n : Nat} (x y : BitVec n) : (!x.ult y) = decide (y.toNat ≤ x.toNat) := by
  rw [BitVec.ult, ← decide_not]
  exact decide_eq_decide.2 Nat.not_lt

theorem bne_eq_decide {n : Nat} (x y : BitVec n) : (x != y) = decide (x ≠ y) := by
  rw [bne, decide_not]
  rfl

/-- The model's conditions are those of R59. -/
theorem cond_eq_condHolds (c : Nat) (x y : Word) : cond c x y = condHolds c x y := by
  match c with
  | 0 => rfl
  | 1 => exact bne_eq_decide x y
  | 2 => rfl
  | 3 => exact not_slt_eq_decide x y
  | 4 => rfl
  | _ + 5 => exact not_ult_eq_decide x y

/-- Settles O5: each comparison's condition and each of PSET's functions is the statement's. -/
theorem compareSelectResults : Obligations.CompareSelectResults := by
  unfold Obligations.CompareSelectResults
  intro s k f g ca p q
  have hca (c : Nat) (x y : Addr) : condA c x y = ca c x y := by
    match c with
    | 0 => rfl
    | 1 => exact bne_eq_decide x y
    | 2 | 3 => exact not_ult_eq_decide x y
    | 4 => rfl
    | _ + 5 => exact not_ult_eq_decide x y
  have hpset : psetVal f.fn p q = (if f.fn = 0 then p && q else if f.fn = 1 then p || q else if f.fn = 2 then p != q
      else if f.fn = 3 then p && !q else if f.fn = 4 then p else if f.fn = 5 then !p else if f.fn = 6 then true else false) := by
    match f.fn with
    | 0 | 1 | 2 | 3 | 4 | 5 | 6 => rfl
    | _ + 7 => rfl
  refine ⟨?_, ?_, ?_, ?_, ?_⟩
  · rw [← cond_eq_condHolds]
    exact writes_of_wr (exec_cmp k f s) rfl (Reg.cut_p _ _)
  · rw [← cond_eq_condHolds]
    exact writes_of_wr (exec_cmpi k g s) rfl (Reg.cut_p _ _)
  · exact writes_of_wr (exec_sel k f s) rfl (Reg.cut_s _ _)
  · rw [← hpset]
    exact writes_of_wr (exec_pset k f s) rfl (Reg.cut_p _ _)
  · rw [← hca]
    exact writes_of_wr (exec_cmpa k f s) rfl (Reg.cut_p _ _)

/-! ### Address arithmetic (R58, R78) -/

theorem addr_natCast (n : Nat) : addr n = BitVec.ofNat 72 n := BitVec.ofInt_natCast 72 n

theorem addr_toNat (a : Addr) : addr a.toNat = a := by rw [addr_natCast, BitVec.ofNat_toNat, BitVec.setWidth_eq]

theorem addr_add (y z : Int) : addr (y + z) = addr y + addr z := BitVec.ofInt_add y z

/-- Integers are added to addresses, and subtracted from them, modulo 2^72. -/
theorem add_addr (a : Addr) (z : Int) : a + addr z = addr (a.toNat + z) := by rw [addr_add, addr_toNat]

theorem sub_addr (a : Addr) (z : Int) : a - addr z = addr (a.toNat - z) := by
  have hneg : addr (-z) = -addr z := BitVec.ofInt_neg
  rw [BitVec.sub_eq_add_neg, ← hneg, add_addr, Int.sub_eq_add_neg]

theorem scaleOf_eq (sc : Nat) : scaleOf sc = if sc = 0 then 1 else if sc = 1 then 8 else if sc = 2 then 64 else 128 := by
  match sc with
  | 0 | 1 | 2 => rfl
  | _ + 3 => rfl

/-- The effective address is a sum of integers modulo 2^72 (R58). -/
theorem State.ea_eq (s : State) (f : FM) :
    s.ea f = addr ((s.ra f.base).toNat + (s.rs f.idx 2).toNat * scaleOf f.sc + sgn 48 f.disp) := by
  rw [State.ea, ← addr_natCast, BitVec.add_assoc, ← addr_add, add_addr]
  push_cast
  rw [Int.add_assoc]

/-- MOVA.SH puts eight bits above a word (R78). -/
theorem append_eq_ofNat (x y : Word) : (y.setWidth 8 ++ x : Addr) = BitVec.ofNat 72 (y.toNat % 256 * 2 ^ 64 + x.toNat) := by
  apply BitVec.eq_of_toNat_eq
  rw [BitVec.toNat_append, ← Nat.shiftLeft_add_eq_or_of_lt x.isLt, Nat.shiftLeft_eq, BitVec.toNat_setWidth, BitVec.toNat_ofNat]
  have := x.isLt
  omega

/-- Settles O7: each result is the integer one modulo 2^72. -/
theorem addressArithmeticResults : Obligations.AddressArithmeticResults := by
  unfold Obligations.AddressArithmeticResults
  intro s k f m h x z scale
  refine ⟨?_, ?_, ?_, ?_, ?_, ?_, ?_, ?_⟩
  · have hea : s.ea m = addr ((s.ra m.base).toNat + (s.rs m.idx 2).toNat * scale + sgn 48 m.disp) := by
      rw [State.ea_eq, scaleOf_eq]
    rw [← hea]
    exact writes_of_wr (exec_lea k m s) rfl (Reg.cut_a _ _)
  · rw [← add_addr]
    exact writes_of_wr (exec_adda k f s) rfl (Reg.cut_a _ _)
  · rw [← sub_addr]
    exact writes_of_wr (exec_suba k f s) rfl (Reg.cut_a _ _)
  · rw [← clamp_eq (by norm_num)]
    exact writes_of_wr (exec_subaD k f s) rfl (Reg.cut_s _ _)
  · exact writes_of_wr (exec_mova k f s) rfl (Reg.cut_a _ _)
  · rw [BitVec.ofNat_toNat]
    exact writes_of_wr (exec_movaS k f s) rfl (Reg.cut_a _ _)
  · rw [← append_eq_ofNat]
    exact writes_of_wr (exec_movaSh k f s) rfl (Reg.cut_a _ _)
  · exact writes_of_wr (exec_movai k h s) rfl (Reg.cut_a _ _)

end Sys2Proof.Machine
end

section
/-! PROOFS. Branches, calls, jump tables and loops (R50, R59, R79 to R84). -/

namespace Sys2Proof.Machine

section
variable {i : Instr} {s u : State} {op : Nat} {k : Ctl} {regs : List Reg} {pre : State → Option (Nat × Addr)} {body : State → Res}

/-- An instruction whose effect is a transfer. -/
theorem jumps_of_go {p : Addr} (hexec : exec i s = run op k regs body s) (hbody : body s.begun = .go u p) : Jumps i s op k regs u p := by
  intro hready
  rw [hexec]
  exact run_jumps hready hbody

/-- An instruction whose effect is to go on. -/
theorem keeps_of_done (hexec : exec i s = run op k regs body s) (hbody : body s.begun = .done s.begun) : Keeps i s op k regs := by
  intro hready hflow
  obtain ⟨f, hf⟩ := Option.isSome_iff_exists.1 hflow
  rw [hexec]
  exact run_kept hready hf hbody

/-- An instruction whose own check before its effect passes is as one without the check. -/
theorem issue_eq_run (hready : s.ready op k regs = true) (hpre : pre s = none) :
    Host.Outcome.next (s.issue op k regs pre body) = run op k regs body s := by
  rw [run_ready hready, State.issue_ready hready hpre]

/-- An instruction whose own check before its effect fails traps. -/
theorem issue_trap {c : Nat} {a : Addr} (hready : s.ready op k regs = true) (hpre : pre s = some (c, a)) :
    s.issue op k regs pre body = (s.take c a).tickFresh := by
  obtain ⟨hlive, howed, hvalue, hregion, hregs, hrole, -, -⟩ := (s.ready_iff op k regs).1 hready
  have hregion : ¬(s.thr.region.isSome && regionIllegal op) = true := by rwa [Bool.and_eq_true]
  have hregs : ¬regs.any (fun r => !s.ctx.has r) = true := by simpa using hregs
  unfold State.issue
  rw [if_neg (not_not.2 hlive), howed]
  simp only [hvalue, Bool.false_eq_true, if_false]
  rw [if_neg hregion, if_neg hregs, if_neg (role_passed hrole), hpre]

end

/-! ### Branches and calls (R59, R79 to R81) -/

theorem jumps_of_taken {i : Instr} {s : State} {op : Nat} {k : Ctl} {regs : List Reg} {taken : State → Bool} {target : State → Addr}
    (hexec : exec i s = run op k regs (fun s => branch s (taken s) (target s)) s) (h : taken s.begun = true) :
    Jumps i s op k regs s.begun (target s.begun) :=
  jumps_of_go hexec (if_pos h)

theorem keeps_of_not_taken {i : Instr} {s : State} {op : Nat} {k : Ctl} {regs : List Reg} {taken : State → Bool} {target : State → Addr}
    (hexec : exec i s = run op k regs (fun s => branch s (taken s) (target s)) s) (h : taken s.begun = false) : Keeps i s op k regs :=
  keeps_of_done hexec (if_neg (h.trans_ne Bool.false_ne_true))

/-- Settles O15: each instruction's effect is a transfer, or going on. -/
theorem branchesAndCalls : Obligations.BranchesAndCalls := by
  unfold Obligations.BranchesAndCalls
  intro s k f r p x y
  exact ⟨jumps_of_go (exec_br k f s) rfl,
    fun h => jumps_of_taken (exec_bc k f s) ((cond_eq_condHolds _ _ _).trans h),
    fun h => keeps_of_not_taken (exec_bc k f s) ((cond_eq_condHolds _ _ _).trans h),
    fun h => jumps_of_taken (exec_bcmp k f s) ((cond_eq_condHolds _ _ _).trans h),
    fun h => keeps_of_not_taken (exec_bcmp k f s) ((cond_eq_condHolds _ _ _).trans h),
    jumps_of_go (exec_bi k r s) rfl, jumps_of_go (exec_call k f s) rfl, jumps_of_go (exec_calli k r s) rfl,
    jumps_of_go (exec_ret k r s) rfl⟩

/-! ### Jump tables (R82) -/

/-- Where JTAB reads its entry. -/
def State.entryAt (s : State) (f : FRR) : Addr := s.ra f.c 2 + BitVec.ofNat 72 (4 * (s.rs f.a).toNat)

/-- Where an entry sends JTAB. -/
def State.entryTarget (s : State) (e : Nat) : Addr := lineAddr s.thr.pc + addr (64 * sgn 29 (e / 8)) + BitVec.ofNat 72 (12 * (e % 8))

/-- An access of one piece is checked with its own address. -/
theorem State.checkAll_one {s : State} {kind : Kind} {align n : Nat} {a : Addr} {l : List (Addr × List Piece)}
    (h : s.checkAll kind align [(a, n)] = .ok l) : ∃ ps, l = [(a, ps)] := by
  unfold State.checkAll at h
  split at h
  · cases h
  · split at h
    · cases h
    · split at h
      next => cases h
      next ps _ =>
        cases h
        exact ⟨ps, rfl⟩

/-- The entry at an address lies in a tile that cannot answer, and the thread has no copy of it to take (R381, R393). -/
def State.entryDead (s : State) (a : Addr) : Bool :=
  !s.trails && (s.checkAll .r 4 [(a, 4)]).toOption.any fun l => l.any fun e => s.deadTile e.2

theorem State.loadNow_entryDead {s : State} {a : Addr} (h : s.entryDead a = true) :
    s.loadNow [(a, 4)] 4 = .error (.trap cRESPF a) := by
  obtain ⟨htrails, hdead⟩ : s.trails = false ∧ ((s.checkAll .r 4 [(a, 4)]).toOption.any fun l => l.any fun e => s.deadTile e.2) = true := by
    simpa [State.entryDead] using h
  rcases hl : s.checkAll .r 4 [(a, 4)] with r | l
  · rw [hl] at hdead
    cases hdead
  · obtain ⟨ps, rfl⟩ := State.checkAll_one hl
    have hps : s.deadTile ps = true := by simpa [hl, Except.toOption] using hdead
    exact State.loadNow_dead hl (e := (a, ps)) (by simp [hps]) htrails

theorem State.loadNow_entryAlive {s : State} {a : Addr} (h : s.entryDead a = false) : s.loadNow [(a, 4)] 4 = s.load a 4 4 := by
  cases htrails : s.trails with
  | true =>
    unfold State.loadNow
    rw [htrails]
    split <;> rfl
  | false =>
    rcases hl : s.checkAll .r 4 [(a, 4)] with r | l
    · simp [State.loadNow, State.load, hl, Except.toOption]
    · exact State.loadNow_eq hl (by simpa [State.entryDead, htrails, hl, Except.toOption] using h)

section
variable {s : State} {f : FRR}

theorem jtab_outside (h : (s.rs f.b 1).toNat ≤ (s.rs f.a).toNat) : jtab s f = .done s := if_pos h

variable (hin : (s.rs f.a).toNat < (s.rs f.b 1).toNat)
include hin

theorem jtab_inside : jtab s f = (s.loadNow [(s.entryAt f, 4)] 4).into fun g =>
    if g.bad.isSome then .trap g.why (s.entryAt f)
    else if 4 < ofLE g.bs % 8 then .trap cILLTGT (s.entryAt f)
    else .go g.s (s.entryTarget (ofLE g.bs)) := if_neg (by omega)

theorem jtab_dead (h : s.entryDead (s.entryAt f) = true) : jtab s f = .trap cRESPF (s.entryAt f) := by
  rw [jtab_inside hin, State.loadNow_entryDead h]
  rfl

variable (halive : s.entryDead (s.entryAt f) = false) {g : Got} (hg : s.load (s.entryAt f) 4 4 = .ok g)
include halive hg

theorem jtab_bad (h : g.bad.isSome = true) : jtab s f = .trap g.why (s.entryAt f) := by
  rw [jtab_inside hin, State.loadNow_entryAlive halive, hg]
  exact if_pos h

variable (hgood : g.bad = none)
include hgood

theorem jtab_good : jtab s f = if 4 < ofLE g.bs % 8 then .trap cILLTGT (s.entryAt f) else .go g.s (s.entryTarget (ofLE g.bs)) := by
  rw [jtab_inside hin, State.loadNow_entryAlive halive, hg]
  exact if_neg (by simp [hgood])

end

/-- Settles O16: the bound, the entry's tile, its error, and its slot code, in their order. -/
theorem jumpTableGoes : Obligations.JumpTableGoes := by
  unfold Obligations.JumpTableGoes
  intro s k f i regs ea
  refine ⟨fun hout => keeps_of_done (exec_jtab k f s) (jtab_outside hout), fun hin hdead hready => ?_,
    fun hin halive g hg hbad hready => ?_, fun hin halive g hg hgood => ⟨fun hslot => ?_, fun hslot hready => ?_⟩⟩
  · exact (exec_jtab k f s).trans (run_trap hready (jtab_dead (s := s.begun) hin hdead))
  · exact (exec_jtab k f s).trans (run_trap hready (jtab_bad (s := s.begun) hin halive hg hbad))
  · exact jumps_of_go (exec_jtab k f s) ((jtab_good (s := s.begun) hin halive hg hgood).trans (if_neg (by omega)))
  · exact (exec_jtab k f s).trans (run_trap hready ((jtab_good (s := s.begun) hin halive hg hgood).trans (if_pos hslot)))

/-! ### Loops (R83, R84) -/

/-- The loop registers with the outermost free level armed, 0 then 1, from the instruction at `b` to the one at `e` (R83). -/
def Loops.armed (l : Loops) (n : Word) (b e : Addr) : Loops :=
  if l.lc0 = 0 then { l with lc0 := n, ls := setHalf l.ls 0 (low36 b), le := setHalf l.le 0 (low36 e) }
  else { l with lc1 := n, ls := setHalf l.ls 1 (low36 b), le := setHalf l.le 1 (low36 e) }

/-- The thread with the loop registers of a legal loop to `e`, once the lines of the end and of the start have been looked at (R50). -/
def State.loopArmed (s : State) (n : Word) (e : Addr) : State :=
  let t := (s.begun.wordSeen e).wordSeen (nextPC s.thr.pc)
  { t with thr := { t.thr with loops := s.thr.loops.armed n (nextPC s.thr.pc) e } }

section
variable {s : State} {e : Addr}

theorem loopEnd_legal (h : LoopLegal s e) : loopEnd e s = none := by
  obtain ⟨hle, hsame, holder, -⟩ := h
  have hrange : ¬(e < nextPC s.thr.pc ∨ e.toNat / 2 ^ 36 ≠ (nextPC s.thr.pc).toNat / 2 ^ 36) := by
    rw [BitVec.lt_def]
    omega
  unfold loopEnd
  rw [if_neg hrange, holder]

theorem loopEnd_before (h : e.toNat < (nextPC s.thr.pc).toNat) : loopEnd e s = some (cILLOP, 0) := if_pos (.inl h)

/-- A legal loop passes the checks that remain (R84). -/
theorem armLoop_legal (h : LoopLegal s e) (n : Word) : armLoop s.begun n e =
    if n = 0 then .go ((s.begun.wordSeen e).wordSeen (nextPC s.thr.pc)) (nextPC e) else .done (s.loopArmed n e) := by
  obtain ⟨-, -, -, ⟨x, j, hfetch, hslot, htgt⟩, hinner, houter⟩ := h
  have hstart : ¬((slotOf (nextPC s.thr.pc)).all fun j => !x.tgt j) = true := by simp [hslot, htgt]
  have hends : ¬(s.thr.loops.lc0 ≠ 0 ∧ s.thr.loops.end_ 0 < low36 e) := by
    rintro ⟨hactive, hlt⟩
    exact absurd (houter hactive) (by omega)
  unfold armLoop
  simp only [State.pc_begun, State.loops_begun, hfetch]
  rw [if_neg hstart, if_neg (not_not.2 hinner), if_neg hends]
  unfold State.loopArmed Loops.armed
  split
  · rfl
  · split <;> rfl

variable {i : Instr} {op : Nat} {k : Ctl} {regs : List Reg} {body : State → Res} {n : Word}
  (hexec : exec i s = .next (s.issue op k regs (loopEnd e) body)) (hbody : body s.begun = armLoop s.begun n e)
include hexec

theorem trap_of_before (h : e.toNat < (nextPC s.thr.pc).toNat) (hready : s.ready op k regs = true) :
    exec i s = .next (s.take cILLOP 0).tickFresh :=
  hexec.trans (congrArg Host.Outcome.next (issue_trap hready (loopEnd_before h)))

variable (h : LoopLegal s e)
include hbody h

theorem becomes_loopArmed (hn : n ≠ 0) : Becomes i s op k regs (s.loopArmed n e) := fun hready _ hflow =>
  hexec.trans (congrArg Host.Outcome.next
    (issue_becomes hready (loopEnd_legal h) (hbody.trans ((armLoop_legal h n).trans (if_neg hn))) hflow))

theorem jumps_past_loop (hn : n = 0) : Jumps i s op k regs ((s.begun.wordSeen e).wordSeen (nextPC s.thr.pc)) (nextPC e) := fun hready =>
  jumps_of_go (hexec.trans (issue_eq_run hready (loopEnd_legal h))) (hbody.trans ((armLoop_legal h n).trans (if_pos hn))) hready

end

/-- Settles O17: both instructions arm a level, skip the loop, or trap alike. -/
theorem loopsArm : Obligations.LoopsArm := by
  unfold Obligations.LoopsArm
  intro s k f g b l armed looked u e e' n n'
  exact ⟨becomes_loopArmed (exec_loop k f s) rfl, jumps_past_loop (exec_loop k f s) rfl, becomes_loopArmed (exec_loopi k g s) rfl,
    jumps_past_loop (exec_loopi k g s) rfl, trap_of_before (exec_loop k f s), trap_of_before (exec_loopi k g s)⟩

end Sys2Proof.Machine
end

section
/-! PROOFS. Moves, extensions and bit fields (R66, R75, R77), and instructions below their privilege (R65, R89). -/

namespace Sys2Proof.Machine

/-! ### Words given by their bits -/

theorem eq_ofFnLE {x : Word} {b : Fin 64 → Bool} (h : ∀ i : Fin 64, x.getLsbD i = b i) : x = BitVec.ofFnLE b := by
  refine BitVec.eq_of_getLsbD_eq fun i hi => ?_
  rw [BitVec.getLsbD_ofFnLE, dif_pos hi, h ⟨i, hi⟩]

/-- An instruction whose effect is to write the word `x`, which is the word `y`. -/
theorem writes_of_ws {i : Instr} {s : State} {op : Nat} {k : Ctl} {regs : List Reg} {body : State → Res} {d : Nat} {x y : Word}
    (hexec : exec i s = run op k regs body s) (hbody : body s.begun = .done (s.begun.ws d x)) (hxy : x = y) :
    Writes i s op k regs (.s d) (ofWord y) :=
  writes_of_wr hexec (hxy ▸ hbody) (Reg.cut_s _ _)

/-- A signed field continues its highest bit. -/
theorem getLsbD_ofInt_sgn {n : Nat} (hn : 0 < n) (v : Nat) {i : Nat} (hi : i < 64) :
    (BitVec.ofInt 64 (sgn n v)).getLsbD i = if i < n then v.testBit i else v.testBit (n - 1) := by
  have hext : BitVec.ofInt 64 (sgn n v) = (BitVec.ofNat n v).signExtend 64 := by
    rw [sgn_eq_toInt hn]
    rfl
  rw [hext, BitVec.getLsbD_signExtend, BitVec.msb_eq_getLsbD_last]
  by_cases hin : i < n
  case pos =>
    rw [if_pos hin, if_pos hin, BitVec.getLsbD_ofNat]
    simp [hi, hin]
  case neg =>
    rw [if_neg hin, if_neg hin, BitVec.getLsbD_ofNat]
    simp [hi, hn]

/-- Ones from bit `p` on, `n` of them. -/
theorem testBit_ones_mul_two_pow (n p j : Nat) : ((2 ^ n - 1) * 2 ^ p).testBit j = decide (p ≤ j ∧ j < p + n) := by
  rw [Nat.testBit_mul_two_pow, Nat.testBit_two_pow_sub_one, ← Bool.decide_and]
  exact decide_eq_decide.2 (by omega)

/-! ### Bit fields and extensions (R75, R77) -/

theorem fieldPos_eq (imm : Nat) : fieldPos imm = imm % 64 := bits_low imm 6

theorem fieldLen_eq (imm : Nat) : fieldLen imm = imm / 256 % 64 + 1 := rfl

theorem bfx_eq (fn imm : Nat) (x : Word) :
    bfx fn imm x = BitVec.ofFnLE fun i : Fin 64 =>
      if i < fieldLen imm then x.getLsbD (fieldPos imm + i) else fn == 1 && x.getLsbD (fieldPos imm + fieldLen imm - 1) := by
  refine eq_ofFnLE fun ⟨i, hi⟩ => ?_
  have hlen : 0 < fieldLen imm := Nat.succ_pos _
  unfold bfx
  by_cases hfn : fn = 1
  case pos =>
    rw [if_pos hfn, getLsbD_ofInt_sgn hlen _ hi, testBit_bits, testBit_bits, BitVec.testBit_toNat, BitVec.testBit_toNat,
      ← Nat.add_sub_assoc hlen]
    by_cases hin : i < fieldLen imm
    case pos => simp [hin]
    case neg => simp [hin, hfn, hlen]
  case neg =>
    rw [if_neg hfn, BitVec.getLsbD_ofNat, testBit_bits, BitVec.testBit_toNat]
    by_cases hin : i < fieldLen imm
    case pos => simp [hin, hi]
    case neg => simp [hin, hfn]

theorem bfi_eq (imm : Nat) (old x : Word) :
    bfi imm old x = BitVec.ofFnLE fun i : Fin 64 =>
      if fieldPos imm ≤ i ∧ i < fieldPos imm + fieldLen imm then x.getLsbD (i - fieldPos imm) else old.getLsbD i := by
  refine eq_ofFnLE fun ⟨i, hi⟩ => ?_
  unfold bfi
  rw [BitVec.getLsbD_or, BitVec.getLsbD_and, BitVec.getLsbD_and, BitVec.getLsbD_not, BitVec.getLsbD_shiftLeft, BitVec.getLsbD_ofNat,
    testBit_ones_mul_two_pow]
  split
  case isTrue hin => simp [hin, hi, Nat.not_lt.2 hin.1]
  case isFalse hin => simp [hin, hi]

/-- An unsigned extension clears the bits above the part. -/
theorem setWidth_setWidth_eq_and (n : Nat) (x : Word) :
    (x.setWidth n).setWidth 64 = x &&& BitVec.ofNat 64 (2 ^ n - 1) := by
  refine BitVec.eq_of_getLsbD_eq fun i hi => ?_
  rw [BitVec.getLsbD_setWidth, BitVec.getLsbD_setWidth, BitVec.getLsbD_and, BitVec.getLsbD_ofNat, Nat.testBit_two_pow_sub_one]
  simp [hi, Bool.and_comm]

theorem extWord_eq (fn : Nat) (x : Word) :
    extWord fn x = if fn = 0 then (x.setWidth 8).signExtend 64 else if fn = 1 then (x.setWidth 16).signExtend 64
      else if fn = 2 then (x.setWidth 32).signExtend 64 else if fn = 4 then x &&& 0xFF
      else if fn = 5 then x &&& 0xFFFF else x &&& 0xFFFFFFFF := by
  match fn with
  | 0 | 1 | 2 => rfl
  | 3 => exact setWidth_setWidth_eq_and 32 x
  | 4 => exact setWidth_setWidth_eq_and 8 x
  | 5 => exact setWidth_setWidth_eq_and 16 x
  | _ + 6 => exact setWidth_setWidth_eq_and 32 x

/-- Settles O6: each move's, extension's and field's result is the statement's, bit by bit where that gives bits. -/
theorem moveAndFieldResults : Obligations.MoveAndFieldResults := by
  unfold Obligations.MoveAndFieldResults
  intro s k f g x pos len word
  have hbfx := bfx_eq g.fn g.imm (s.rs g.a)
  have hbfi := bfi_eq g.imm (s.rs g.d 2) (s.rs g.a)
  rw [fieldPos_eq, fieldLen_eq] at hbfx hbfi
  refine ⟨keeps_of_done (exec_nop k f s) rfl, ?_, ?_, ?_, ?_, ?_, ?_, ?_⟩
  · exact writes_of_ws (exec_mov k f s) rfl rfl
  · exact writes_of_ws (exec_movAl k f s) rfl (eq_ofFnLE fun i => by simp)
  · exact writes_of_ws (exec_movAh k f s) rfl (eq_ofFnLE fun i => by simp)
  · exact writes_of_ws (exec_movi k g s) rfl rfl
  · exact writes_of_ws (exec_ext k f s) rfl (extWord_eq f.fn x)
  · exact writes_of_ws (exec_bfx k g s) rfl hbfx
  · exact writes_of_ws (exec_bfi k g s) rfl hbfi

/-! ### Below the privilege (R65, R89) -/

theorem csrPriv_failed {n lvl : Nat} {s : State} (h : s.thr.priv < lvl) : csrPriv n lvl s = some (cPRIV, BitVec.ofNat 72 n) := if_pos h

theorem needS_failed {s : State} (h : s.thr.priv = 0) : needS s = some (cPRIV, 0) := if_pos h

/-- An instruction of no role whose privilege check fails traps, and has no other effect. -/
theorem exec_traps_priv {i : Instr} {s : State} {op : Nat} {k : Ctl} {regs : List Reg} {pre : State → Option (Nat × Addr)}
    {body : State → Res} {c : Nat} {a : Addr} (hlive : s.thr.life = .live) (howed : s.owed = none) (hregion : s.thr.region = none)
    (hexec : exec i s = .next (s.issue op k regs pre body)) (hpre : pre s = some (c, a)) (hvalue : s.valueOwed op = false)
    (hrole : roleOf op = none) (hregs : ∀ r ∈ regs, s.ctx.has r = true) : exec i s = .next (s.take c a).tickFresh := by
  have hcounts : regs.any (fun r => !s.ctx.has r) = false := by simpa using hregs
  have hany : (roleOf op).all (· == s.actsAs) = true := by rw [hrole]; rfl
  rw [hexec, State.issue_priv hlive howed hvalue hregion hcounts hany hpre]

/-- Settles O30: each instruction's own check fails, and what it traps with is the statement's. -/
theorem privilegedTrapsBelowLevel : Obligations.PrivilegedTrapsBelowLevel := by
  unfold Obligations.PrivilegedTrapsBelowLevel
  intro s k t n c hlive howed hvalue hregion hsa hd ha
  refine ⟨fun h => ?tlbi, fun h => ?eret, fun h => ?csrr, fun h => ?csrw, fun h => ?csrx⟩
  case tlbi =>
    exact exec_traps_priv hlive howed hregion (exec_tlbi k t s) (needS_failed h) (hvalue _ (by simp)) rfl (by simp [hsa])
  case eret =>
    exact exec_traps_priv hlive howed hregion (exec_eret k n s) (needS_failed h) (hvalue _ (by simp)) rfl (by simp)
  case csrr =>
    have hregs : ∀ r ∈ (if c.fn = 0 then [Reg.s c.d] else []), s.ctx.has r = true := by split <;> simp [hd]
    exact exec_traps_priv hlive howed hregion (exec_csrr k c s) (csrPriv_failed h) (hvalue _ (by simp)) rfl hregs
  case csrw =>
    have hregs : ∀ r ∈ (if c.fn = 0 then [Reg.s c.a] else []), s.ctx.has r = true := by split <;> simp [ha]
    exact exec_traps_priv hlive howed hregion (exec_csrw k c s) (csrPriv_failed h) (hvalue _ (by simp)) rfl hregs
  case csrx =>
    exact exec_traps_priv hlive howed hregion (exec_csrx k c s) (csrPriv_failed h) (hvalue _ (by simp)) rfl (by simp [hd, ha])

end Sys2Proof.Machine
end

section
/-! PROOFS. Integer arithmetic, division, logic, shifts, counts, minimum and maximum (R72 to R74). -/

namespace Sys2Proof.Machine

/-! ### Integer arithmetic (R72) -/

theorem ofInt_max_zero_min {hi : Nat} (n : Int) : BitVec.ofInt 64 (max 0 (min (hi : Int) n)) = BitVec.ofNat 64 (min hi n.toNat) := by
  rw [← BitVec.ofInt_natCast]
  congr 1
  omega

/-- The three forms of a sum or difference: wrapped, clamped as a signed number, clamped as an unsigned one (R72). -/
theorem fit_eq (fn : Nat) (un sg : Int) :
    fit fn un sg = if fn = 0 then BitVec.ofInt 64 un else if fn = 1 then BitVec.ofInt 64 (max (-(2 ^ 63)) (min (2 ^ 63 - 1) sg))
      else BitVec.ofNat 64 (min (2 ^ 64 - 1) un.toNat) := by
  match fn with
  | 0 => rfl
  | 1 => exact congrArg (BitVec.ofInt 64) (clamp_eq (by norm_num))
  | _ + 2 => exact (congrArg (BitVec.ofInt 64) (clamp_eq (by norm_num))).trans (ofInt_max_zero_min un)

theorem ofInt_toNat (x : Word) : BitVec.ofInt 64 x.toNat = x := by
  rw [BitVec.ofInt_natCast, BitVec.ofNat_toNat, BitVec.setWidth_eq]

theorem fit_add (fn : Nat) (x y : Word) : fit fn ((x.toNat : Int) + y.toNat) (x.toInt + y.toInt) =
    if fn = 0 then x + y else if fn = 1 then BitVec.ofInt 64 (max (-(2 ^ 63)) (min (2 ^ 63 - 1) (x.toInt + y.toInt)))
      else BitVec.ofNat 64 (min (2 ^ 64 - 1) ((x.toNat : Int) + y.toNat).toNat) := by
  rw [fit_eq, BitVec.ofInt_add, ofInt_toNat, ofInt_toNat]

theorem fit_sub (fn : Nat) (x y : Word) : fit fn ((x.toNat : Int) - y.toNat) (x.toInt - y.toInt) =
    if fn = 0 then x - y else if fn = 1 then BitVec.ofInt 64 (max (-(2 ^ 63)) (min (2 ^ 63 - 1) (x.toInt - y.toInt)))
      else BitVec.ofNat 64 (min (2 ^ 64 - 1) ((x.toNat : Int) - y.toNat).toNat) := by
  rw [fit_eq, Int.sub_eq_add_neg, BitVec.ofInt_add, BitVec.ofInt_neg, ofInt_toNat, ofInt_toNat, BitVec.sub_eq_add_neg]

/-- The high half of a product of 128 bits is the product divided by 2^64, rounded down. -/
theorem ofInt_div_eq_extract (z : Int) : BitVec.ofInt 64 (z / 2 ^ 64) = (BitVec.ofInt 128 z).extractLsb' 64 64 := by
  apply BitVec.eq_of_toNat_eq
  rw [BitVec.extractLsb'_toNat, BitVec.toNat_ofInt, BitVec.toNat_ofInt, Nat.shiftRight_eq_div_pow]
  omega

theorem ofNat_div_eq_extract (n : Nat) : BitVec.ofNat 64 (n / 2 ^ 64) = (BitVec.ofNat 128 n).extractLsb' 64 64 := by
  rw [← BitVec.ofInt_natCast, ← BitVec.ofInt_natCast, ← ofInt_div_eq_extract]
  rfl

/-- Settles O1: each result is the model's, its sums and differences in their three forms. -/
theorem scalarArithmeticResults : Obligations.ScalarArithmeticResults := by
  unfold Obligations.ScalarArithmeticResults
  intro s k f g x y z sat usat
  refine ⟨?_, ?_, ?_, ?_, ?_, ?_⟩
  · exact writes_of_ws (exec_add k f s) rfl (fit_add f.fn x y)
  · exact writes_of_ws (exec_sub k f s) rfl (fit_sub f.fn x y)
  · exact writes_of_ws (exec_addi k g s) rfl (fit_add g.fn (s.rs g.a) z)
  · exact writes_of_ws (exec_mul k f s) rfl rfl
  · exact writes_of_ws (exec_mulh k f s) rfl (ofInt_div_eq_extract _)
  · exact writes_of_ws (exec_mulhu k f s) rfl (ofNat_div_eq_extract _)

/-! ### Division (R73) -/

theorem divS_eq (x y : Word) :
    divS x y = if y = 0 then BitVec.allOnes 64 else BitVec.ofInt 64 (x.toInt.tdiv y.toInt) := by
  unfold divS
  refine if_congr Iff.rfl rfl (BitVec.eq_of_toInt_eq ?_)
  rw [BitVec.toInt_sdiv, BitVec.toInt_ofInt]

theorem divU_eq (x y : Word) :
    divU x y = if y = 0 then BitVec.allOnes 64 else BitVec.ofNat 64 (x.toNat / y.toNat) := by
  unfold divU
  refine if_congr Iff.rfl rfl ?_
  rw [← BitVec.toNat_udiv, BitVec.ofNat_toNat, BitVec.setWidth_eq]

theorem remS_eq (x y : Word) : remS x y = if y = 0 then x else BitVec.ofInt 64 (x.toInt.tmod y.toInt) := by
  unfold remS
  rw [← BitVec.toInt_srem, BitVec.ofInt_toInt]

theorem remU_eq (x y : Word) : remU x y = if y = 0 then x else BitVec.ofNat 64 (x.toNat % y.toNat) := by
  unfold remU
  rw [← BitVec.toNat_umod, BitVec.ofNat_toNat, BitVec.setWidth_eq]

/-- Settles O2: each quotient and remainder is the statement's. -/
theorem divisionResults : Obligations.DivisionResults := by
  unfold Obligations.DivisionResults
  intro s k f x y regs
  exact ⟨writes_of_ws (exec_div k f s) rfl (divS_eq x y), writes_of_ws (exec_divu k f s) rfl (divU_eq x y),
    writes_of_ws (exec_rem k f s) rfl (remS_eq x y), writes_of_ws (exec_remu k f s) rfl (remU_eq x y)⟩

/-! ### Logic, shifts and rotation (R74) -/

theorem shN_ofNat (n : Nat) : shN (BitVec.ofNat 64 n) = n % 64 := by
  unfold shN
  rw [BitVec.toNat_ofNat]
  omega

theorem and_not_eq (x y : Word) : x &&& ~~~y = BitVec.ofFnLE fun i : Fin 64 => x.getLsbD i && !y.getLsbD i :=
  eq_ofFnLE fun i => by simp

theorem shiftLeft_eq_ofFnLE (x : Word) (n : Nat) :
    x <<< n = BitVec.ofFnLE fun i : Fin 64 => decide (n ≤ i) && x.getLsbD (i - n) :=
  eq_ofFnLE fun ⟨i, hi⟩ => by
    rw [BitVec.getLsbD_shiftLeft, decide_eq_true hi, Bool.true_and, ← decide_not, decide_eq_decide.2 Nat.not_lt]

theorem ushiftRight_eq_ofFnLE (x : Word) (n : Nat) : x >>> n = BitVec.ofFnLE fun i : Fin 64 => x.getLsbD (i + n) :=
  eq_ofFnLE fun i => by rw [BitVec.getLsbD_ushiftRight, Nat.add_comm]

theorem sshiftRight_eq_ofFnLE (x : Word) (n : Nat) :
    x.sshiftRight n = BitVec.ofFnLE fun i : Fin 64 => if i + n < 64 then x.getLsbD (i + n) else x.getLsbD 63 :=
  eq_ofFnLE fun ⟨i, hi⟩ => by
    rw [BitVec.getLsbD_sshiftRight, BitVec.msb_eq_getLsbD_last, Nat.add_comm]
    simp [hi]

/-- The two halves of a rotation meet at bit 64 − n. -/
theorem rotr64_eq_ofFnLE (x : Word) {n : Nat} (hn : n < 64) :
    rotr64 x n = BitVec.ofFnLE fun i : Fin 64 => x.getLsbD ((i + n) % 64) := by
  refine eq_ofFnLE fun ⟨i, hi⟩ => ?_
  unfold rotr64
  rw [BitVec.getLsbD_or, BitVec.getLsbD_ushiftRight, BitVec.getLsbD_shiftLeft, Nat.add_comm n i]
  rcases Nat.lt_or_ge (i + n) 64 with h | h
  case inl =>
    have hlow : i < 64 - n := by omega
    simp [hlow, Nat.mod_eq_of_lt h]
  case inr =>
    have hwrap : i - (64 - n) = (i + n) % 64 := by omega
    have hhigh : ¬ i < 64 - n := by omega
    simp [hi, hhigh, hwrap, BitVec.getLsbD_of_ge x (i + n) h]

/-- Settles O3: each result is the statement's, bit by bit where that gives bits. -/
theorem logicAndShiftResults : Obligations.LogicAndShiftResults := by
  unfold Obligations.LogicAndShiftResults
  intro s k f g x y w z n m r3 r2 word
  have hm : shN z = m := shN_ofNat g.imm
  refine ⟨?_, ?_, ?_, ?_, ?_, ?_, ?_, ?_, ?_, ?_, ?_, ?_, ?_, ?_⟩
  · exact writes_of_ws (exec_and k f s) rfl rfl
  · exact writes_of_ws (exec_or k f s) rfl rfl
  · exact writes_of_ws (exec_xor k f s) rfl rfl
  · exact writes_of_ws (exec_andn k f s) rfl (and_not_eq x y)
  · exact writes_of_ws (exec_andi k g s) rfl rfl
  · exact writes_of_ws (exec_ori k g s) rfl rfl
  · exact writes_of_ws (exec_xori k g s) rfl rfl
  · exact writes_of_ws (exec_shl k f s) rfl (shiftLeft_eq_ofFnLE x n)
  · exact writes_of_ws (exec_shr k f s) rfl (ushiftRight_eq_ofFnLE x n)
  · exact writes_of_ws (exec_sra k f s) rfl (sshiftRight_eq_ofFnLE x n)
  · exact writes_of_ws (exec_rotr k f s) rfl (rotr64_eq_ofFnLE x (Nat.mod_lt _ (by decide)))
  · exact writes_of_ws (exec_shli k g s) rfl (hm ▸ shiftLeft_eq_ofFnLE w (shN z))
  · exact writes_of_ws (exec_shri k g s) rfl (hm ▸ ushiftRight_eq_ofFnLE w (shN z))
  · exact writes_of_ws (exec_srai k g s) rfl (hm ▸ sshiftRight_eq_ofFnLE w (shN z))

/-! ### Counts, byte reversal, minimum and maximum (R74) -/

/-- The first index below `n` at which a predicate holds, or `n`: it holds there unless that is `n`, and at no index before. -/
theorem find_range_getD (p : Nat → Bool) (n : Nat) :
    let m := ((List.range n).find? p).getD n
    m ≤ n ∧ (m < n → p m = true) ∧ ∀ i < m, p i = false := by
  rcases h : (List.range n).find? p with _ | m
  case none =>
    rw [List.find?_range_eq_none] at h
    exact ⟨le_rfl, fun hm => absurd hm (Nat.lt_irrefl n), fun i hi => by simpa using h i hi⟩
  case some =>
    rw [List.find?_range_eq_some] at h
    obtain ⟨hp, hm, hbefore⟩ := h
    exact ⟨(List.mem_range.1 hm).le, fun _ => hp, fun i hi => by simpa using hbefore i hi⟩

theorem ones_eq_countP (n x : Nat) : ones n x = (List.range n).countP fun i => x.testBit i := by
  induction n generalizing x with
  | zero => rfl
  | succ n ih =>
    rw [ones, ih, List.range_succ_eq_map, List.countP_cons, List.countP_map, Nat.add_comm]
    simp only [Function.comp_def, Nat.testBit_succ, Nat.testBit_zero, decide_eq_true_eq]
    congr 1
    split <;> omega

/-- Bit `j` of a number made of bytes is bit `j % 8` of its byte `j / 8`. -/
theorem testBit_ofLE (bs : List Byte) (j : Nat) : (ofLE bs).testBit j = (bs.getD (j / 8) 0).getLsbD (j % 8) := by
  induction bs generalizing j with
  | nil => simp [ofLE]
  | cons b r ih =>
    have hb : b.toNat < 2 ^ 8 := b.isLt
    rw [ofLE, Nat.add_comm, show 256 = 2 ^ 8 from rfl, Nat.testBit_two_pow_mul_add _ hb, BitVec.testBit_toNat]
    rcases Nat.lt_or_ge j 8 with hj | hj
    case inl => simp [hj, Nat.div_eq_of_lt hj, Nat.mod_eq_of_lt hj]
    case inr =>
      rw [if_neg (by omega), ih, show j / 8 = (j - 8) / 8 + 1 by omega, List.getD_cons_succ, show (j - 8) % 8 = j % 8 by omega]

theorem getElem?_toLE {n j : Nat} (x : Nat) (h : j < n) : (toLE n x)[j]? = some (BitVec.ofNat 8 (x / 256 ^ j)) := by
  induction n generalizing x j with
  | zero => omega
  | succ n ih =>
    rw [toLE]
    cases j with
    | zero => simp
    | succ j => rw [List.getElem?_cons_succ, ih _ (by omega), Nat.div_div_eq_div_mul, pow_succ']

/-- Byte `i` of the reversed word is byte `7 - i` of the word. -/
theorem bswap64_eq (x : Word) :
    bswap64 x = BitVec.ofFnLE fun i : Fin 64 => x.getLsbD (56 - 8 * (i / 8) + i % 8) := by
  refine eq_ofFnLE fun ⟨i, hi⟩ => ?_
  have hlen : (toLE 8 x.toNat).length = 8 := length_toLE 8 _
  have hpos : 8 * (7 - i / 8) + i % 8 = 56 - 8 * (i / 8) + i % 8 := by omega
  have hpow : 256 ^ (7 - i / 8) = 2 ^ (8 * (7 - i / 8)) := by rw [pow_mul]; rfl
  unfold bswap64
  rw [BitVec.getLsbD_ofNat, testBit_ofLE, List.getD_eq_getElem?_getD, List.getElem?_reverse (by omega), hlen,
    getElem?_toLE _ (by omega), Option.getD_some, BitVec.getLsbD_ofNat, show 8 - 1 - i / 8 = 7 - i / 8 from rfl, hpow,
    Nat.testBit_div_two_pow, BitVec.testBit_toNat, Nat.add_comm (i % 8), hpos]
  simp [hi, Nat.mod_lt]

theorem ite_slt_eq_min (x y : Word) : (if x.slt y then x else y) = BitVec.ofInt 64 (min x.toInt y.toInt) := by
  simp only [BitVec.slt, decide_eq_true_eq]
  split
  case isTrue h => rw [min_eq_left h.le, BitVec.ofInt_toInt]
  case isFalse h => rw [min_eq_right (not_lt.1 h), BitVec.ofInt_toInt]

theorem ite_slt_eq_max (x y : Word) : (if x.slt y then y else x) = BitVec.ofInt 64 (max x.toInt y.toInt) := by
  simp only [BitVec.slt, decide_eq_true_eq]
  split
  case isTrue h => rw [max_eq_right h.le, BitVec.ofInt_toInt]
  case isFalse h => rw [max_eq_left (not_lt.1 h), BitVec.ofInt_toInt]

theorem ite_ult_eq_min (x y : Word) : (if x.ult y then x else y) = BitVec.ofNat 64 (min x.toNat y.toNat) := by
  simp only [BitVec.ult, decide_eq_true_eq]
  split
  case isTrue h => rw [min_eq_left h.le, BitVec.ofNat_toNat, BitVec.setWidth_eq]
  case isFalse h => rw [min_eq_right (not_lt.1 h), BitVec.ofNat_toNat, BitVec.setWidth_eq]

theorem ite_ult_eq_max (x y : Word) : (if x.ult y then y else x) = BitVec.ofNat 64 (max x.toNat y.toNat) := by
  simp only [BitVec.ult, decide_eq_true_eq]
  split
  case isTrue h => rw [max_eq_right h.le, BitVec.ofNat_toNat, BitVec.setWidth_eq]
  case isFalse h => rw [max_eq_left (not_lt.1 h), BitVec.ofNat_toNat, BitVec.setWidth_eq]

/-- Settles O4, from the first one of a word, its number of ones, its bytes, and the comparison of two words. -/
theorem countAndMinimumResults : Obligations.CountAndMinimumResults := by
  unfold Obligations.CountAndMinimumResults
  intro s k f x y r3
  obtain ⟨hclz, hclzOne, hclzZeros⟩ := find_range_getD (fun i => x.getLsbD (63 - i)) 64
  obtain ⟨hctz, hctzOne, hctzZeros⟩ := find_range_getD (fun i => x.getLsbD i) 64
  have hpcnt : BitVec.ofNat 64 (pcnt64 x) = BitVec.ofNat 64 ((List.range 64).countP fun i => x.getLsbD i) :=
    congrArg (BitVec.ofNat 64) (ones_eq_countP 64 x.toNat)
  refine ⟨⟨clz64 x, hclz, hclzOne, hclzZeros, ?_⟩, ⟨ctz64 x, hctz, hctzOne, hctzZeros, ?_⟩, ?_, ?_, ?_, ?_, ?_, ?_⟩
  · exact writes_of_ws (exec_clz k f s) rfl rfl
  · exact writes_of_ws (exec_ctz k f s) rfl rfl
  · exact writes_of_ws (exec_pcnt k f s) rfl hpcnt
  · exact writes_of_ws (exec_bswap k f s) rfl (bswap64_eq x)
  · exact writes_of_ws (exec_min k f s) rfl (ite_slt_eq_min x y)
  · exact writes_of_ws (exec_max k f s) rfl (ite_slt_eq_max x y)
  · exact writes_of_ws (exec_minu k f s) rfl (ite_ult_eq_min x y)
  · exact writes_of_ws (exec_maxu k f s) rfl (ite_ult_eq_max x y)

end Sys2Proof.Machine
end

section
/-! PROOFS. Loop ends and BREAKL, TRAP and ERET, and what CSRR reads (R85 to R94, R97, R98). -/

namespace Sys2Proof.Machine

/-! ### From bodies to instructions -/

section
variable {i : Instr} {s t : State} {op : Nat} {k : Ctl} {regs : List Reg} {body : State → Res} (hexec : exec i s = run op k regs body s)
include hexec

theorem becomes_of_done (hbody : body s.begun = .done t) : Becomes i s op k regs t :=
  fun hready _ hflow => hexec.trans (run_becomes hready hbody hflow)

variable (hready : s.ready op k regs = true)
include hready

theorem exec_of_hold (hbody : body s.begun = .hold t) : exec i s = .next t.tickFresh := by
  rw [hexec, run_ready hready, hbody]
  rfl

theorem exec_of_end (hbody : body s.begun = .end_ t) : exec i s = .next t.tickFresh := by
  rw [hexec, run_ready hready, hbody]
  rfl

end

/-! ### The word of an instruction (R55) -/

theorem pack_append (l m : List (Nat × Nat)) : pack (l ++ m) = pack l + 2 ^ (l.map Prod.fst).sum * pack m := by
  induction l with
  | nil => simp [pack]
  | cons e l ih =>
    obtain ⟨n, v⟩ := e
    simp only [List.cons_append, pack, List.map_cons, List.sum_cons, ih, pow_add]
    ring

/-- The opcode and the body of an instruction's word. -/
theorem opcode_body_of_encode {i : Instr} {op : Nat} {k : Ctl} {l : List (Nat × Nat)} {w : Nat} (henc : encode i = some (word op k l))
    (hfits : k.ok = true ∧ fits l) (hs : (l.map Prod.fst).sum = 81) (hop : op < 1024) (hw : encode i = some w) :
    bits w 85 10 = op ∧ bits w 0 81 = pack l := by
  obtain rfl : word op k l = w := Option.some.inj (henc.symm.trans hw)
  obtain ⟨-, -, hopcode, -⟩ := word_common hop hfits.1 hfits.2 hs
  refine ⟨hopcode, ?_⟩
  have hlt : pack l < 2 ^ 81 := hs ▸ pack_lt hfits.2
  rw [bits_low, word, pack_append, hs, Nat.add_mul_mod_self_left, Nat.mod_eq_of_lt hlt]

/-! ### Loop ends and BREAKL (R85, R86) -/

section
variable {l : Loops} {pc : Addr}

theorem Loops.close_outside (h1 : ¬(l.lc1 ≠ 0 ∧ low36 pc = l.end_ 1)) : l.close pc =
    if l.lc0 ≠ 0 ∧ low36 pc = l.end_ 0 then
      if l.lc0 - 1 ≠ 0 then ({ l with lc0 := l.lc0 - 1 }, some (withLow36 pc (l.start 0))) else ({ l with lc0 := l.lc0 - 1 }, none)
    else (l, none) := by
  unfold Loops.close
  simp only [if_neg h1]
  rw [if_neg fun h => h1 h.1]

theorem Loops.close_turn (h1 : l.lc1 ≠ 0 ∧ low36 pc = l.end_ 1) (hturn : l.lc1 ≠ 1) :
    l.close pc = ({ l with lc1 := l.lc1 - 1 }, some (withLow36 pc (l.start 1))) := by
  have hleft : l.lc1 - 1 ≠ 0 := sub_ne_zero.2 hturn
  unfold Loops.close
  simp only [if_pos h1]
  rw [if_pos ⟨h1, hleft⟩]

/-- At its last turn the inner loop ends, and the outer level decides as if the inner had not been active. -/
theorem Loops.close_last (h1 : low36 pc = l.end_ 1) (hlast : l.lc1 = 1) : l.close pc = ({ l with lc1 := 0 } : Loops).close pc := by
  have hin : l.lc1 ≠ 0 ∧ low36 pc = l.end_ 1 := ⟨by rw [hlast]; decide, h1⟩
  have hend : l.lc1 - 1 = 0 := sub_eq_zero.2 hlast
  rw [Loops.close_outside (l := { l with lc1 := 0 }) fun h => h.1 rfl]
  unfold Loops.close
  simp only [if_pos hin, hend]
  rw [if_neg fun h => h.2 rfl]
  rfl

theorem Loops.close_outer_turn (h1 : ¬(l.lc1 ≠ 0 ∧ low36 pc = l.end_ 1)) (h0 : l.lc0 ≠ 0 ∧ low36 pc = l.end_ 0)
    (hturn : l.lc0 ≠ 1) : l.close pc = ({ l with lc0 := l.lc0 - 1 }, some (withLow36 pc (l.start 0))) := by
  rw [Loops.close_outside h1, if_pos h0, if_pos (sub_ne_zero.2 hturn)]

theorem Loops.close_outer_last (h1 : ¬(l.lc1 ≠ 0 ∧ low36 pc = l.end_ 1)) (h0 : l.lc0 ≠ 0 ∧ low36 pc = l.end_ 0)
    (hlast : l.lc0 = 1) : l.close pc = ({ l with lc0 := 0 }, none) := by
  have hend : l.lc0 - 1 = 0 := sub_eq_zero.2 hlast
  rw [Loops.close_outside h1, if_pos h0, hend]
  rfl

theorem Loops.close_none (h1 : ¬(l.lc1 ≠ 0 ∧ low36 pc = l.end_ 1)) (h0 : ¬(l.lc0 ≠ 0 ∧ low36 pc = l.end_ 0)) :
    l.close pc = (l, none) := by
  rw [Loops.close_outside h1, if_neg h0]

end

/-- Settles O19: the inner level decides, and where its loop ends or it is not at its end, the outer one. -/
theorem loopsCloseInnermostFirst : Obligations.LoopsCloseInnermostFirst := by
  unfold Obligations.LoopsCloseInnermostFirst
  intro l pc at1 at0
  have hended : ¬((0 : Word) ≠ 0 ∧ low36 pc = ({ l with lc1 := 0 } : Loops).end_ 1) := fun h => h.1 rfl
  exact ⟨Loops.close_turn,
    fun h1 hlast h0 hturn => (Loops.close_last h1.2 hlast).trans (Loops.close_outer_turn hended h0 hturn),
    fun h1 hlast h0 hlast0 => (Loops.close_last h1.2 hlast).trans (Loops.close_outer_last hended h0 hlast0),
    fun h1 hlast h0 => (Loops.close_last h1.2 hlast).trans (Loops.close_none hended h0),
    Loops.close_outer_turn, Loops.close_outer_last, Loops.close_none⟩

section
variable {s : State}

theorem breakLoop_inner (h1 : s.thr.loops.lc1 ≠ 0) : breakLoop s =
    .go { s with thr := { s.thr with loops := { s.thr.loops with lc1 := 0 } } } (nextPC (withLow36 s.thr.pc (s.thr.loops.end_ 1))) :=
  if_pos h1

theorem breakLoop_outer (h1 : s.thr.loops.lc1 = 0) (h0 : s.thr.loops.lc0 ≠ 0) : breakLoop s =
    .go { s with thr := { s.thr with loops := { s.thr.loops with lc0 := 0 } } } (nextPC (withLow36 s.thr.pc (s.thr.loops.end_ 0))) :=
  (if_neg (not_not.2 h1)).trans (if_pos h0)

theorem breakLoop_none (h1 : s.thr.loops.lc1 = 0) (h0 : s.thr.loops.lc0 = 0) : breakLoop s = .trap cILLOP 0 :=
  (if_neg (not_not.2 h1)).trans (if_neg (not_not.2 h0))

end

theorem FRR.layout_zero {f : FRR} (h : f.ok 1 1 1 1 [0] = true) : pack f.layout = 0 := by
  simp only [FRR.ok, Bool.and_eq_true, decide_eq_true_eq, Nat.lt_one_iff, List.contains_cons, List.contains_nil, Bool.or_false,
    beq_iff_eq] at h
  obtain ⟨⟨⟨⟨hd, ha⟩, hb⟩, hc⟩, hfn⟩ := h
  simp [FRR.layout, pack, hd, ha, hb, hc, hfn]

/-- Settles O18: the loop that ends, innermost first, and the word, whose fields are all zero. -/
theorem breakLeavesLoop : Obligations.BreakLeavesLoop := by
  unfold Obligations.BreakLeavesLoop
  intro s k f l u
  refine ⟨fun h1 => ?_, fun h1 h0 => ?_, fun h1 h0 hready => ?_, fun hwf w hw => ?_⟩
  · exact jumps_of_go (exec_breakl k f s) (breakLoop_inner (s := s.begun) h1)
  · exact jumps_of_go (exec_breakl k f s) (breakLoop_outer (s := s.begun) h1 h0)
  · exact (exec_breakl k f s).trans (run_trap hready (breakLoop_none (s := s.begun) h1 h0))
  · obtain ⟨hop, hbody⟩ := opcode_body_of_encode rfl (Laws.F.fits_breakl hwf) f.layout_sum (by decide) hw
    exact ⟨hop, hbody.trans (FRR.layout_zero (Laws.F.both hwf).2)⟩

/-! ### TRAP (R97) -/

/-- The thread past the TRAP, once the loop that ends there has closed. -/
def State.pastTrap (s : State) : State :=
  let c := s.thr.loops.close s.thr.pc
  { s with thr := { s.thr with loops := c.1, pc := c.2.getD (nextPC s.thr.pc) } }

section
variable {s : State} {imm : Nat} (howes : s.owesResults = false) (hdefer : s.thr.defer = []) (hstop : s.muStop = none)
include howes hdefer hstop

theorem trapNow_nothing_due : trapNow s imm =
    let c := s.thr.loops.close s.thr.pc
    let seen := fun (r : State) => match c.2 with | some b => r.wordSeen b | none => r
    match c.2.bind s.target with
    | some (e, x) => .end_ ((seen s).take e x)
    | none => .end_ ((seen s.pastTrap).trapEntry cTRAPI s.thr.pc (BitVec.ofNat 72 imm) none s.pastTrap.thr.pc) := by
  unfold trapNow
  rw [if_neg (by simp [howes]), if_neg (by simp [hdefer, hstop])]
  rfl

theorem trapNow_next_slot (hc : (s.thr.loops.close s.thr.pc).2 = none) :
    trapNow s imm = .end_ (s.pastTrap.trapEntry cTRAPI s.thr.pc (BitVec.ofNat 72 imm) none s.pastTrap.thr.pc) := by
  simp only [trapNow_nothing_due howes hdefer hstop, hc, Option.bind_none]

variable {b : Addr} (hc : (s.thr.loops.close s.thr.pc).2 = some b)
include hc

theorem trapNow_loop_start (ht : s.target b = none) : trapNow s imm =
    .end_ ((s.pastTrap.wordSeen b).trapEntry cTRAPI s.thr.pc (BitVec.ofNat 72 imm) none s.pastTrap.thr.pc) := by
  simp only [trapNow_nothing_due howes hdefer hstop, hc, Option.bind_some, ht]

theorem trapNow_loop_start_forbidden {e : Nat} {x : Addr} (ht : s.target b = some (e, x)) :
    trapNow s imm = .end_ ((s.wordSeen b).take e x) := by
  simp only [trapNow_nothing_due howes hdefer hstop, hc, Option.bind_some, ht]

end

/-- Settles O33: where the loop that ends at the TRAP sends the thread, and the word. -/
theorem trapTakesTrapi : Obligations.TrapTakesTrapi := by
  unfold Obligations.TrapTakesTrapi
  intro s k f
  refine ⟨fun hready howes hdefer hstop => ?effect, fun hwf w hw => ?word⟩
  case effect =>
    exact ⟨fun hc => exec_of_end (exec_trap k f s) hready (trapNow_next_slot (s := s.begun) howes hdefer hstop hc),
      fun b hc ht => exec_of_end (exec_trap k f s) hready (trapNow_loop_start (s := s.begun) howes hdefer hstop hc ht),
      fun b e x hc ht => exec_of_end (exec_trap k f s) hready (trapNow_loop_start_forbidden (s := s.begun) howes hdefer hstop hc ht)⟩
  case word =>
    have himm : f.imm < 2 ^ 32 := of_decide_eq_true (Laws.F.both hwf).2
    obtain ⟨hop, hbody⟩ := opcode_body_of_encode rfl (Laws.F.fits_trap hwf) f.layout_sum (by decide) hw
    have hpack : pack f.layout = f.imm := by simp [FTrap.layout, pack]
    rw [hpack, bits_low] at hbody
    refine ⟨hop, ?_, ?_⟩
    · unfold bits
      omega
    · rw [bits_low]
      omega

/-! ### ERET (R98) -/

/-- The thread that returns from its handler to privilege `p`. -/
def Thread.returned (t : Thread) (p : Nat) : Thread :=
  { t with
    ar := if p = 0 then SMap.set 0 t.ar 31 t.tsp else t.ar, tsp := if p = 0 then SMap.get 0 t.ar 31 else t.tsp
    loops := t.tloops, priv := p, pc := t.tpc, young := false
    tstat := tstatWord false (t.tstat.getLsbD 1) p false (bits t.tstat.toNat 13 3) (bits t.tstat.toNat 16 48)
    mcont := tMseq t.tstat }

section
variable {s : State} {p : Nat} (hp : tPpriv s.thr.tstat = p)
include hp

theorem eret_above (h : p = 3 ∨ s.thr.priv < p) : s.eret = .trap cPRIV 0 := by
  subst hp
  exact if_pos h

variable (h3 : p ≠ 3) (hle : p ≤ s.thr.priv)
include h3 hle

theorem eret_no_slot (hslot : slotOf s.thr.tpc = none) : s.eret = .trap cILLTGT s.thr.tpc := by
  subst hp
  exact (if_neg (by omega)).trans (if_pos (by simp [hslot]))

theorem eret_returns (hslot : slotOf s.thr.tpc ≠ none) : s.eret = .end_ { s with thr := s.thr.returned p } := by
  subst hp
  exact (if_neg (by omega)).trans (if_neg (by simpa using hslot))

end

theorem needS_passed {s : State} (h : s.thr.priv ≠ 0) : needS s = none := if_neg h

/-- HBUSY and MSEQ are clear in the TSTAT that a return leaves. -/
theorem tstatWord_return (d : Bool) (p v w : Nat) :
    (tstatWord false d p false v w).getLsbD 4 = false ∧ (tstatWord false d p false v w).getLsbD 0 = false := by
  have hw : fields [(0, b2n false), (1, b2n d), (2, p % 4), (4, b2n false), (13, v % 8), (16, w % 2 ^ 48)] =
      2 * b2n d + 4 * (p % 4) + 2 ^ 13 * (v % 8) + 2 ^ 16 * (w % 2 ^ 48) := by
    have h0 : b2n false = 0 := rfl
    simp only [fields, List.foldl_cons, List.foldl_nil, h0]
    ring
  have hd : b2n d < 2 := by cases d <;> decide
  unfold tstatWord
  rw [hw]
  generalize b2n d = b at hd
  rw [BitVec.getLsbD_ofNat, BitVec.getLsbD_ofNat, Nat.testBit_eq_decide_div_mod_eq, Nat.testBit_eq_decide_div_mod_eq]
  exact ⟨Bool.and_eq_false_imp.2 fun _ => decide_eq_false (by omega), Bool.and_eq_false_imp.2 fun _ => decide_eq_false (by omega)⟩

section
variable (t : Thread) {p : Nat}

/-- On the way back to U, a31 and TSP are exchanged. -/
theorem Thread.a31_returned_u : (t.returned 0).reg (.a 31) = ofAddr t.tsp ∧ ofAddr (t.returned 0).tsp = t.reg (.a 31) :=
  ⟨congrArg ofAddr (SMap.get_set_self _ _ _ _), rfl⟩

theorem Thread.a31_returned_above (h : p ≠ 0) : (t.returned p).reg (.a 31) = t.reg (.a 31) ∧ (t.returned p).tsp = t.tsp := by
  have har : (t.returned p).ar = t.ar := if_neg h
  exact ⟨congrArg (fun m => ofAddr (SMap.get 0 m 31)) har, if_neg h⟩

theorem Thread.reg_returned {q : Reg} (h : q ≠ .a 31) : (t.returned p).reg q = t.reg q := by
  cases q with
  | a n =>
    have hn : n ≠ 31 := fun e => h (by rw [e])
    simp only [Thread.reg, Thread.returned]
    split
    · rw [SMap.get_set_other _ _ _ hn]
    · rfl
  | _ => rfl

end

/-- Settles O34: the two traps, and the thread that returns, field by field. -/
theorem eretRestores : Obligations.EretRestores := by
  unfold Obligations.EretRestores
  intro s k f hready hpriv x p
  have hp : tPpriv s.begun.thr.tstat = p := rfl
  have hrun : exec (.eret k f) s = run 0x341 k [] (fun s => s.eret) s :=
    (exec_eret k f s).trans (issue_eq_run hready (needS_passed hpriv))
  refine ⟨fun h => hrun.trans (run_trap hready (eret_above hp h)),
    fun h3 hle hslot => hrun.trans (run_trap hready (eret_no_slot hp h3 hle hslot)), fun h3 hle hslot => ?_⟩
  have hexec := exec_of_end hrun hready (eret_returns hp h3 hle hslot)
  obtain ⟨hbusy, hmseq⟩ := tstatWord_return (x.tstat.getLsbD 1) p (bits x.tstat.toNat 13 3) (bits x.tstat.toNat 16 48)
  refine ⟨_, hexec, rfl, rfl, rfl, hbusy, hmseq, rfl, fun h0 => ?_, fun h0 => ?_, fun q hq => ?_, rfl, rfl⟩
  · rw [h0]
    exact s.begun.thr.a31_returned_u
  · exact s.begun.thr.a31_returned_above h0
  · exact s.begun.thr.reg_returned hq

/-! ### CSRR (R88, R89) -/

/-- The state in which CSRR has put a register's value, and acknowledged a trap by reading TCAUSE. -/
def State.csrGiven (s : State) (f : FRI) : State :=
  (if f.fn = 0 then s.ws f.d (BitVec.ofNat 64 (s.csr f.imm)) else s.wa f.d (BitVec.ofNat 72 (s.csr f.imm))).ackTrap f.imm

theorem csrRead_solo {s : State} {f : FRI} (htrails : s.trails = false) (htrailed : s.trailed = false) :
    csrRead s f = .done (s.csrGiven f) := by
  have hsolo : s.solo = true := by simp [State.solo, htrails, htrailed]
  have hroom : s.lvqFull = false := by simp [State.lvqFull, htrailed]
  unfold csrRead
  simp only [htrails, hroom, Bool.false_eq_true, if_false, State.copyTo_solo hsolo]
  rfl

theorem csrr_becomes {s : State} {f : FRI} (k : Ctl) (hlvl : csrReadLvl f.imm ≤ s.thr.priv) (htrails : s.trails = false)
    (htrailed : s.trailed = false) :
    Becomes (.csrr k f) s 0x342 k (if f.fn = 0 then [.s f.d] else []) (s.begun.csrGiven f) := fun hready _ hflow =>
  congrArg Host.Outcome.next
    (issue_becomes hready (csrPriv_passed hlvl) (csrRead_solo (s := s.begun) htrails htrailed) hflow)

theorem State.csr_tscr (s : State) {j : Nat} (h : j < 4) : s.csr (0x006 + j) = (SMap.get 0 s.thr.tscr j).toNat := by
  match j with
  | 0 | 1 | 2 | 3 => rfl
  | _ + 4 => omega

theorem State.csr_hist (s : State) {j : Nat} (h : j < 64) : s.csr (0x140 + j) = (SMap.get 0 s.tile.hist j).toNat := by
  unfold State.csr
  rw [if_pos (by omega), Nat.add_sub_cancel_left]

theorem State.csr_vote (s : State) {j : Nat} (h : j < 4) : s.csr (0x180 + j) = (SMap.get 0 s.tile.vote j).toNat := by
  unfold State.csr
  rw [if_neg (by omega), if_pos (by omega), Nat.add_sub_cancel_left]

theorem State.csr_tid (s : State) : s.csr 0x00A = s.ctx.vtile + s.cur.i * 2 ^ 12 := by
  change fields _ = _
  simp [fields]

theorem State.csr_rid (s : State) : s.csr 0x012 = s.ctx.vtile + s.cur.i * 2 ^ 12 + s.thr.rseq.toNat * 2 ^ 16 := by
  change fields _ = _
  simp [fields]

/-- MPR stays folded in the proof: the kernel would otherwise compute its word of 64 bits from variables. -/
theorem State.csr_mpr (s : State) : s.csr 0x018 = s.ctx.mu.mpr.toNat := by
  have folded (v : Nat) (hv : s.ctx.mu.mpr.toNat = v) : s.csr 0x018 = v := by
    unfold State.csr
    rw [hv]
    rfl
  exact folded _ rfl

/-- Settles O35, from what CSRR comes to and one equation per register. -/
theorem csrReads : Obligations.CsrReads := by
  unfold Obligations.CsrReads
  intro s k f hlvl htrails htrailed v u u'
  exact ⟨csrr_becomes k hlvl htrails htrailed, rfl, rfl, rfl, rfl, rfl, rfl, fun j => s.csr_tscr, s.csr_tid, rfl, rfl, rfl, rfl, rfl, rfl,
    rfl, rfl, rfl, rfl, fun j => s.csr_hist, rfl, rfl, rfl, rfl, rfl, rfl, rfl, s.csr_rid, rfl, rfl, s.csr_mpr, rfl, rfl, rfl, rfl, rfl,
    rfl, rfl, rfl, rfl, fun j => s.csr_vote, rfl, rfl, rfl, rfl, rfl, rfl, rfl⟩

end Sys2Proof.Machine
end

section
/-! PROOFS. Full and empty doubles, prefetches and cleans (R265 to R267, R270, R271). -/

namespace Sys2Proof.Machine

/-! ### Operations that leave the thread in focus its place and partners -/

/-- The same thread is in focus, and its unit's threads have the roles that they had. -/
structure SamePartners (s t : State) : Prop where
  cur   : t.cur = s.cur
  roles : t.ctx.roles = s.ctx.roles

theorem SamePartners.refl (s : State) : SamePartners s s := ⟨rfl, rfl⟩

theorem SamePartners.trans {s t u : State} (h : SamePartners s t) (g : SamePartners t u) : SamePartners s u :=
  ⟨g.cur.trans h.cur, g.roles.trans h.roles⟩

theorem samePartners_foldl {α : Type} {f : State → α → State} (h : ∀ s x, SamePartners s (f s x)) (l : List α) (s : State) :
    SamePartners s (l.foldl f s) :=
  List.foldlRecOn (motive := SamePartners s) l f (.refl s) fun _ hr x _ => hr.trans (h _ x)

/-- A value of a thread without a partner goes to no other thread. -/
theorem State.copyTo_samePartners {s t : State} (h : SamePartners s t) (hsolo : s.solo = true) (v : Vec) : t.copyTo s.cur v = t := by
  have hnext : (s.ctx.roles.getD (s.cur.i + 1) 0 == 7) = false := (State.solo_iff hsolo).2
  have hctx : t.getCtx s.cur.t s.cur.c = t.ctx := if_pos (by rw [h.cur]; exact ⟨rfl, rfl⟩)
  unfold State.copyTo
  rw [hctx, h.roles, hnext]
  rfl

section
variable (s : State)

theorem samePartners_modThread (k : Key) (f : Thread → Thread) : SamePartners s (s.modThread k f) := by
  unfold State.modThread State.setThread
  split <;> exact ⟨rfl, rfl⟩

theorem samePartners_hostPut (a : Nat) (bs : List Byte) : SamePartners s (s.hostPut a bs) := by
  unfold State.hostPut State.spoilSlots
  split
  · exact .refl s
  · dsimp only
    split <;> exact ⟨rfl, rfl⟩

theorem samePartners_settleTxn (l : Nat) : SamePartners s (s.settleTxn l) := by
  unfold State.settleTxn
  split
  · exact .refl s
  · dsimp only
    split
    · exact ⟨rfl, rfl⟩
    · refine SamePartners.trans ?_ (samePartners_hostPut _ _ _)
      exact ⟨rfl, rfl⟩

theorem samePartners_takeM (ag l pid : Nat) (spare : List Nat) : SamePartners s (s.takeM ag l pid spare) := by
  unfold State.takeM
  refine SamePartners.trans ?_ (samePartners_foldl (fun r d => ?_) _ _)
  · exact (samePartners_settleTxn s l).trans ⟨rfl, rfl⟩
  · split
    · exact .refl r
    · exact ⟨rfl, rfl⟩

theorem samePartners_mergeHeld (ag : Nat) (x : Store) : SamePartners s (s.mergeHeld ag x) := by
  unfold State.mergeHeld
  split <;> exact ⟨rfl, rfl⟩

theorem samePartners_finish (o : Option (Key × Nat)) : SamePartners s (s.finish o) := by
  unfold State.finish
  split
  · exact .refl s
  · split
    · exact .refl s
    · exact samePartners_modThread s _ _

theorem samePartners_sendRec (p : Nat) : SamePartners s (s.sendRec p) := by
  unfold State.sendRec
  dsimp only
  split <;> exact ⟨rfl, rfl⟩

theorem samePartners_recorded (o : Option Nat) : SamePartners s (s.recorded o) := by
  unfold State.recorded
  split
  · exact .refl s
  · refine SamePartners.trans ?_ (samePartners_sendRec _ _)
    exact ⟨rfl, rfl⟩

theorem samePartners_merged (ag : Nat) (x : Store) : SamePartners s (s.merged ag x) := by
  unfold State.merged
  refine SamePartners.trans ?_ ((samePartners_finish _ _).trans (samePartners_recorded _ _))
  refine (samePartners_mergeHeld s ag x).trans ?_
  split <;> exact ⟨rfl, rfl⟩

theorem samePartners_mergePending (d l : Nat) : SamePartners s (s.mergePending d l) := by
  unfold State.mergePending
  refine SamePartners.trans ?_ (samePartners_foldl (fun r x => samePartners_merged r _ x) _ _)
  exact ⟨rfl, rfl⟩

theorem samePartners_inM (ag l pid : Nat) : SamePartners s (s.inM ag l pid) := by
  have htake : SamePartners s (if (s.held ag l).any fun h => h.st == .m then s else s.takeM ag l pid (s.strangers ag l pid)) := by
    split
    · exact .refl s
    · exact samePartners_takeM s _ _ _ _
  unfold State.inM
  split
  · exact .refl s
  · dsimp only
    split
    · exact htake.trans (samePartners_mergePending _ _ _)
    · exact htake

theorem samePartners_noteTlb (w : Who) (a : Addr) : SamePartners s (s.noteTlb w a) := by
  unfold State.noteTlb State.modTile State.setTile
  dsimp only
  split
  · exact .refl s
  · split
    · exact .refl s
    · split <;> exact ⟨rfl, rfl⟩

theorem samePartners_spoilDests (ps : List Piece) : SamePartners s (s.spoilDests ps) := by
  obtain ⟨e, c, cs, h⟩ := s.spoilDests_eq ps
  rw [h]
  exact ⟨rfl, rfl⟩

end

theorem State.lvqFull_solo {s : State} (hsolo : s.solo = true) : s.lvqFull = false := by
  unfold State.lvqFull
  rw [(State.solo_iff hsolo).2]
  rfl

/-! ### LDS (R266, R267) -/

theorem loadSync_taken {s : State} {f : FM} {v : Word} (hretry : s.thr.retry = some v) (hsolo : s.solo = true) : loadSync s f =
    .done (({ s with thr := { s.thr with retry := none } } : State).late [(.s f.d, ofWord v)]) := by
  unfold loadSync
  rw [hretry]
  dsimp only
  rw [State.copyTo_solo hsolo]
  rfl

section
variable {s : State} {f : FM} {l : List (Addr × List Piece)} (hretry : s.thr.retry = none)
  (hcheck : s.checkAll .r 8 [(s.ea f, 8)] = .ok l) (hwaits : s.waits l = none) (hsolo : s.solo = true)
include hretry hcheck hwaits hsolo

theorem loadSync_sram {t b : Nat} (hplace : placeOf l = .sram t b) : loadSync s f =
    if SMap.get false (s.getTile t).empty (b / 8) then .hold { s with thr := { s.thr with wait := .lds (.sram t b) } }
    else (s.load (s.ea f) 8 8 false f.ordq).into fun g => g.late [(.s f.d, ofWord (BitVec.ofNat 64 (ofLE g.bs)))] := by
  unfold loadSync
  rw [hretry]
  dsimp only
  rw [hcheck]
  dsimp only [Try.into]
  rw [if_neg (State.not_trails hsolo), hwaits, hplace]

theorem loadSync_sram_full {t b : Nat} (hplace : placeOf l = .sram t b) (hnow : LoadsNow s l f.ordq)
    (hfull : SMap.get false (s.getTile t).empty (b / 8) = false) : loadSync s f =
    .done (afterLoads s false l [(.s f.d, ofWord (BitVec.ofNat 64 (ofLE (loadedBytes s false l))))] f.ordq) := by
  rw [loadSync_sram hretry hcheck hwaits hsolo hplace, hfull]
  exact State.loadMany_late hcheck hnow fun bs => [(.s f.d, ofWord (BitVec.ofNat 64 (ofLE bs)))]

theorem loadSync_sram_empty {t b : Nat} (hplace : placeOf l = .sram t b) (hempty : SMap.get false (s.getTile t).empty (b / 8) = true) :
    loadSync s f = .hold { s with thr := { s.thr with wait := .lds (.sram t b) } } := by
  rw [loadSync_sram hretry hcheck hwaits hsolo hplace]
  exact if_pos hempty

variable (hseal : s.sealedIn (allPieces l) = false) (hord : s.ordHeld f.ordq = false) {a : Nat} (hplace : placeOf l = .pa a)
  (hhost : isHost a = false) (hhome : s.homeReady s.cur.t (lineOf a) = true)
include hseal hord hplace hhost hhome

theorem loadSync_dram : loadSync s f =
    if SMap.get false s.empty (a / 8) && !s.homeFailed a then .hold { s with thr := { s.thr with wait := .lds (.pa a) } }
    else
      let t := s.inM (homeAgent (lineOf a)) (lineOf a) s.ctx.pid
      .done (((t.noteTlb s.me (s.ea f)).spoilDests (allPieces l)).late [(.s f.d, ofWord (BitVec.ofNat 64 (ofLE (t.homeBytes a 8))))]
        (if s.poisoned (allPieces l) then some (s.badCause (allPieces l), s.ea f) else none)) := by
  have hpartners : SamePartners s (((s.inM (homeAgent (lineOf a)) (lineOf a) s.ctx.pid).noteTlb s.me (s.ea f)).spoilDests (allPieces l)) :=
    ((samePartners_inM s _ _ _).trans (samePartners_noteTlb _ _ _)).trans (samePartners_spoilDests _ _)
  unfold loadSync
  rw [hretry]
  dsimp only
  rw [hcheck]
  dsimp only [Try.into]
  rw [if_neg (State.not_trails hsolo), hwaits, hplace]
  dsimp only
  rw [if_neg (by simp [hhost]), if_neg (by simp [hhome, hseal, hord]), State.copyTo_samePartners hpartners hsolo]
  unfold Got.late State.leaveLoad State.late
  dsimp only [Option.map_none]
  rw [apply_ite (Option.map _)]
  rfl

theorem loadSync_dram_empty (hempty : SMap.get false s.empty (a / 8) = true) (hfailed : s.homeFailed a = false) :
    loadSync s f = .hold { s with thr := { s.thr with wait := .lds (.pa a) } } := by
  rw [loadSync_dram hretry hcheck hwaits hsolo hseal hord hplace hhost hhome]
  exact if_pos (by simp [hempty, hfailed])

theorem loadSync_dram_full (hfull : SMap.get false s.empty (a / 8) = false ∨ s.homeFailed a = true) : loadSync s f =
    .done ((((s.inM (homeAgent (lineOf a)) (lineOf a) s.ctx.pid).noteTlb s.me (s.ea f)).spoilDests (allPieces l)).late
      [(.s f.d, ofWord (BitVec.ofNat 64 (ofLE ((s.inM (homeAgent (lineOf a)) (lineOf a) s.ctx.pid).homeBytes a 8))))]
      (if s.poisoned (allPieces l) then some (s.badCause (allPieces l), s.ea f) else none)) := by
  have hgoes : ¬(SMap.get false s.empty (a / 8) && !s.homeFailed a) = true := by
    rcases hfull with h | h <;> simp [h]
  rw [loadSync_dram hretry hcheck hwaits hsolo hseal hord hplace hhost hhome, if_neg hgoes]

end

/-! ### STF and SETE (R267) -/

section
variable {s : State} {f : FM} {l : List (Addr × List Piece)} (hwaits : s.waits l = none) (hsolo : s.solo = true)
  (hperform : s.mayPerform f.ordq = true)
include hwaits hsolo hperform

theorem storeFull_sram (hcheck : s.checkAll .w 8 [(s.ea f, 8)] = .ok l) {t b : Nat} (hplace : placeOf l = .sram t b) : storeFull s f =
    .done (((((s.sramWrite t b (toLE 8 (s.rs f.d).toNat)).spoilSources (.sram t b) 8).spoil t b 8).sramFull t (b / 8) 1 true).wakeLds
      (.sram t b) (s.rs f.d)) := by
  unfold storeFull
  dsimp only
  rw [hcheck]
  dsimp only [Try.into]
  rw [hwaits, hplace]
  dsimp only
  rw [if_neg (by simp [hperform]), State.compare_solo hsolo]

theorem storeFull_dram (hcheck : s.checkAll .w 8 [(s.ea f, 8)] = .ok l) {a : Nat} (hplace : placeOf l = .pa a)
    (hhost : isHost a = false) (hfailed : s.homeFailed a = false) (hhome : s.homeReady s.cur.t (lineOf a) = true) : storeFull s f =
    .done (((((s.homeStore s.ctx.pid a (toLE 8 (s.rs f.d).toNat)).spoilMem a 8).setFull (a / 8) 1 true).wakeLds (.pa a) (s.rs f.d)).noteTlb
      s.me (s.ea f)) := by
  unfold storeFull
  dsimp only
  rw [hcheck]
  dsimp only [Try.into]
  rw [hwaits, hplace]
  dsimp only
  rw [if_neg (by simp [hhost, hfailed]), if_neg (by simp [hhome, hperform]), State.compare_solo hsolo]

variable (hcheck : s.checkAll .sete (szBytes f.sz) [(s.ea f, szBytes f.sz)] = .ok l)
include hcheck

theorem setEmpty_sram {t b : Nat} (hplace : placeOf l = .sram t b) :
    setEmpty s f = .done (s.sramFull t (b / 8) (szBytes f.sz / 8) false) := by
  unfold setEmpty
  dsimp only
  rw [hcheck]
  dsimp only [Try.into]
  rw [hwaits, hplace]
  dsimp only
  rw [if_neg (by simp [hperform]), State.compare_solo hsolo]

theorem setEmpty_dram {a : Nat} (hplace : placeOf l = .pa a) (hfailed : s.homeFailed a = false)
    (hhome : s.homeReady s.cur.t (lineOf a) = true) : setEmpty s f =
    .done (((s.inM (homeAgent (lineOf a)) (lineOf a) s.ctx.pid).setFull (a / 8) (szBytes f.sz / 8) false).noteTlb s.me (s.ea f)) := by
  unfold setEmpty
  dsimp only
  rw [hcheck]
  dsimp only [Try.into]
  rw [hwaits, hplace]
  dsimp only
  rw [if_neg (by simp [hfailed]), if_neg (by simp [hhome, hperform]), State.compare_solo hsolo]

end

/-! ### FEQ (R267) -/

section
variable {s : State} {f : FM} {l : List (Addr × List Piece)} (hcheck : s.checkAll .r (szBytes f.sz) [(s.ea f, szBytes f.sz)] = .ok l)
  (hwaits : s.waits l = none) (hsolo : s.solo = true)
include hcheck hwaits hsolo

theorem testFull_eq : testFull s f =
    let out := fun (t : State) (v : Nat) => Res.done ((t.copyTo s.cur (BitVec.ofNat 1024 v)).late [(.s f.d, BitVec.ofNat 1024 v)])
    match placeOf l with
    | .sram t b => out s (fullBits (s.getTile t).empty (b / 8) (szBytes f.sz / 8))
    | .pa a =>
      if isHost a then out s (2 ^ (szBytes f.sz / 8) - 1)
      else if s.homeFailed a then .done ((s.copyTo s.cur 0).late [(.s f.d, 0)] (some (cPOISON, s.ea f)))
      else if !s.homeReady s.cur.t (lineOf a) then .hold s.held_
      else out ((s.inM (homeAgent (lineOf a)) (lineOf a) s.ctx.pid).noteTlb s.me (s.ea f)) (fullBits s.empty (a / 8) (szBytes f.sz / 8))
    | _ => out s (2 ^ (szBytes f.sz / 8) - 1) := by
  unfold testFull
  dsimp only
  rw [hcheck]
  dsimp only [Try.into]
  rw [if_neg (State.not_trails hsolo), State.lvqFull_solo hsolo, hwaits]
  cases placeOf l <;> rfl

theorem testFull_sram {t b : Nat} (hplace : placeOf l = .sram t b) : testFull s f =
    .done (s.late [(.s f.d, BitVec.ofNat 1024 (fullBits (s.getTile t).empty (b / 8) (szBytes f.sz / 8)))]) := by
  rw [testFull_eq hcheck hwaits hsolo, hplace]
  dsimp only
  rw [State.copyTo_solo hsolo]

section
variable {a : Nat} (hplace : placeOf l = .pa a)
include hplace

theorem testFull_host (hhost : isHost a = true) :
    testFull s f = .done (s.late [(.s f.d, BitVec.ofNat 1024 (2 ^ (szBytes f.sz / 8) - 1))]) := by
  rw [testFull_eq hcheck hwaits hsolo, hplace]
  dsimp only
  rw [if_pos hhost, State.copyTo_solo hsolo]

variable (hhost : isHost a = false)
include hhost

theorem testFull_failed (hfailed : s.homeFailed a = true) :
    testFull s f = .done (s.late [(.s f.d, 0)] (some (cPOISON, s.ea f))) := by
  rw [testFull_eq hcheck hwaits hsolo, hplace]
  dsimp only
  rw [if_neg (by simp [hhost]), if_pos hfailed, State.copyTo_solo hsolo]

theorem testFull_dram (hfailed : s.homeFailed a = false) (hhome : s.homeReady s.cur.t (lineOf a) = true) : testFull s f =
    .done (((s.inM (homeAgent (lineOf a)) (lineOf a) s.ctx.pid).noteTlb s.me (s.ea f)).late
      [(.s f.d, BitVec.ofNat 1024 (fullBits s.empty (a / 8) (szBytes f.sz / 8)))]) := by
  have hpartners := (samePartners_inM s (homeAgent (lineOf a)) (lineOf a) s.ctx.pid).trans (samePartners_noteTlb _ s.me (s.ea f))
  rw [testFull_eq hcheck hwaits hsolo, hplace]
  dsimp only
  rw [if_neg (by simp [hhost]), if_neg (by simp [hfailed]), if_neg (by simp [hhome]), State.copyTo_samePartners hpartners hsolo]

end

end

/-! ### PREF, CLEAN and DISC (R270, R271) -/

section
variable {s : State} {f : FM}

theorem prefetch_untranslated {c : Nat} (h : s.translate s.me .r (s.ea f) = .error c) : prefetch s f = .done s := by
  unfold prefetch
  rw [h]

theorem prefetch_slice {y : Spot} {a : Nat} (h : s.translate s.me .r (s.ea f) = .ok y) (hplace : y.place = .pa a) (hd : f.d = 1) :
    prefetch s f = .done (s.fillShared (s.agentOf (dieOf s.cur.t)) (lineOf a) s.ctx.pid) := by
  obtain ⟨p⟩ := y
  obtain rfl : p = .pa a := hplace
  unfold prefetch
  rw [h, hd]
  rfl

variable {l : List (Addr × List Piece)} (hcheck : s.checkAll .r 1 [(s.ea f, 1)] = .ok l) (g : State → Nat → State)
include hcheck

theorem lineOp_line {a : Nat} (hplace : placeOf l = .pa a) (hwaits : s.waits l = none) :
    lineOp s f g = .done ((g s (lineOf a)).noteAll l) := by
  unfold lineOp
  rw [hcheck]
  dsimp only [Try.into]
  rw [hplace, hwaits]

theorem lineOp_no_line (hplace : ∀ a, placeOf l ≠ .pa a) : lineOp s f g = .done s := by
  unfold lineOp
  rw [hcheck]
  dsimp only [Try.into]
  split
  · exact absurd ‹_› (hplace _)
  · exact absurd ‹_› (hplace _)
  · rfl

end

/-- Settles O41, from what each instruction's body comes to. -/
theorem fullEmptyAndHints : Obligations.FullEmptyAndHints := by
  unfold Obligations.FullEmptyAndHints
  intro s k f l u ea w x op
  refine ⟨fun v hretry hsolo => ?taken,
    fun hretry hcheck hnow t b hplace => ⟨fun hfull => ?sramFull, fun hempty hready => ?sramEmpty⟩,
    fun hretry hcheck hwaits hsolo hseal hord a hplace hhost hhome hfailed hempty hready => ?dramEmpty,
    fun hretry hcheck hwaits hsolo hseal hord a hplace hhost hhome hfull => ?dramFull,
    fun hcheck hwaits hsolo hperform => ⟨fun t b hplace => ?stfSram, fun a hplace hhost hfailed hhome => ?stfDram⟩,
    fun hcheck hwaits hsolo hperform => ⟨fun t b hplace => ?seteSram, fun a hplace hfailed hhome => ?seteDram⟩,
    fun hcheck hwaits hsolo => ⟨fun t b hplace => ?feqSram, fun a hplace hhost => ?feqHost,
      fun a hplace hhost hfailed hhome => ?feqDram, fun a hplace hhost hfailed => ?feqFailed⟩,
    fun c h => ?prefNone, fun y a h hplace hd => ?prefSlice,
    fun hcheck => ⟨fun a hplace hwaits => ⟨?clean, ?disc⟩, fun hplace => ⟨?cleanNone, ?discNone⟩⟩⟩
  case taken => exact becomes_of_done (exec_lds k f s) (loadSync_taken (s := u) hretry hsolo)
  case sramFull =>
    have ⟨hwaits, _, hsolo, _⟩ := hnow
    exact becomes_of_done (exec_lds k f s) (loadSync_sram_full (s := u) hretry hcheck hwaits hsolo hplace hnow hfull)
  case sramEmpty =>
    have ⟨hwaits, _, hsolo, _⟩ := hnow
    exact exec_of_hold (exec_lds k f s) hready (loadSync_sram_empty (s := u) hretry hcheck hwaits hsolo hplace hempty)
  case dramEmpty =>
    exact exec_of_hold (exec_lds k f s) hready
      (loadSync_dram_empty (s := u) hretry hcheck hwaits hsolo hseal hord hplace hhost hhome hempty hfailed)
  case dramFull =>
    exact becomes_of_done (exec_lds k f s)
      (loadSync_dram_full (s := u) hretry hcheck hwaits hsolo hseal hord hplace hhost hhome hfull)
  case stfSram => exact becomes_of_done (exec_stf k f s) (storeFull_sram (s := u) hwaits hsolo hperform hcheck hplace)
  case stfDram =>
    exact becomes_of_done (exec_stf k f s) (storeFull_dram (s := u) hwaits hsolo hperform hcheck hplace hhost hfailed hhome)
  case seteSram => exact becomes_of_done (exec_sete k f s) (setEmpty_sram (s := u) hwaits hsolo hperform hcheck hplace)
  case seteDram => exact becomes_of_done (exec_sete k f s) (setEmpty_dram (s := u) hwaits hsolo hperform hcheck hplace hfailed hhome)
  case feqSram => exact becomes_of_done (exec_feq k f s) (testFull_sram (s := u) hcheck hwaits hsolo hplace)
  case feqHost => exact becomes_of_done (exec_feq k f s) (testFull_host (s := u) hcheck hwaits hsolo hplace hhost)
  case feqDram => exact becomes_of_done (exec_feq k f s) (testFull_dram (s := u) hcheck hwaits hsolo hplace hhost hfailed hhome)
  case feqFailed => exact becomes_of_done (exec_feq k f s) (testFull_failed (s := u) hcheck hwaits hsolo hplace hhost hfailed)
  case prefNone => exact keeps_of_done (exec_pref k f s) (prefetch_untranslated (s := u) h)
  case prefSlice => exact becomes_of_done (exec_pref k f s) (prefetch_slice (s := u) h hplace hd)
  case clean => exact becomes_of_done (exec_clean k f s) (lineOp_line (s := u) hcheck _ hplace hwaits)
  case disc => exact becomes_of_done (exec_disc k f s) (lineOp_line (s := u) hcheck _ hplace hwaits)
  case cleanNone => exact keeps_of_done (exec_clean k f s) (lineOp_no_line (s := u) hcheck _ hplace)
  case discNone => exact keeps_of_done (exec_disc k f s) (lineOp_no_line (s := u) hcheck _ hplace)

end Sys2Proof.Machine
end

section
/-! PROOFS. The lineage instructions (R142 to R162). -/

namespace Sys2Proof.Machine

/-! ### What lineage instructions do leaves the thread in focus its place and partners -/

section
variable (s : State)

theorem samePartners_setPart (p : Nat) (x : Partn) : SamePartners s (s.setPart p x) := ⟨rfl, rfl⟩

theorem samePartners_mapThreads (f : Key → Thread → Thread) : SamePartners s (s.mapThreads f) := ⟨rfl, rfl⟩

theorem samePartners_modTile (t : Nat) (f : Tile → Tile) : SamePartners s (s.modTile t f) := by
  unfold State.modTile State.setTile
  split <;> exact ⟨rfl, rfl⟩

theorem samePartners_strongNode (pid n : Nat) (on_ : Key → Bool) : SamePartners s (s.strongNode pid n on_) := ⟨rfl, rfl⟩

theorem samePartners_sramWrite (t b : Nat) (bs : List Byte) : SamePartners s (s.sramWrite t b bs) := by
  unfold State.sramWrite
  refine (samePartners_modTile s t _).trans (samePartners_foldl (fun r p => ?_) _ _)
  exact ⟨rfl, rfl⟩

theorem samePartners_syncMatch (t b count : Nat) : SamePartners s (s.syncMatch t b count) := by
  unfold State.syncMatch
  dsimp only
  split
  · have hmismatch : SamePartners s (if syncTarget (s.syncD t b 0) < count && !bit (s.syncD t b 0) 63 then
        s.syncPut t b 0 (s.syncD t b 0 + 2 ^ 63) else s) := by
      split
      · exact samePartners_sramWrite s _ _ _
      · exact .refl s
    exact hmismatch.trans (((samePartners_sramWrite _ _ _ _).trans (samePartners_modTile _ _ _)).trans (samePartners_mapThreads _ _))
  · exact samePartners_sramWrite s _ _ _

theorem samePartners_signalOwn (o : Option Nat) : SamePartners s (s.signalOwn o) := by
  cases o with
  | none => exact .refl s
  | some off => exact samePartners_syncMatch s _ _ _

end

/-! ### From what an instruction answers to its next state -/

section
variable {s : State} {op : Nat} {f : FLin} {ds : List Reg} {g : State → LinOut}

theorem lineage_trap (hsolo : s.solo = true) {c : Nat} {a : Addr} (htrap : g s = .trap c a) : lineage s op f ds g = .trap c a := by
  unfold lineage
  dsimp only
  rw [if_neg (State.not_trails hsolo), htrap]

/-- The answer goes to no partner, and `D`, `PD` and LSTAT get it. -/
theorem lineage_answer (hsolo : s.solo = true) {u : State} {d : Word} {ok : Bool} {code : Nat} (hpartners : SamePartners s u)
    (hanswer : g s = .ans u d ok code) : lineage s op f ds g = .done (linLeaves u op ds d ok code) := by
  unfold lineage
  dsimp only
  rw [if_neg (State.not_trails hsolo), hanswer]
  dsimp only
  rw [State.compare_solo hsolo]
  dsimp only [Try.into]
  rw [hanswer]
  dsimp only
  rw [hpartners.cur, State.copyTo_samePartners hpartners hsolo]
  rfl

variable {i : Instr} {k : Ctl} {regs : List Reg} (hexec : exec i s = run op k regs (fun s => lineage s op f ds g) s) (hsolo : s.solo = true)
include hexec hsolo

theorem becomes_of_answer {u : State} {d : Word} {ok : Bool} {code : Nat} (hpartners : SamePartners s.begun u)
    (hanswer : g s.begun = .ans u d ok code) : Becomes i s op k regs (linLeaves u op ds d ok code) :=
  becomes_of_done hexec (lineage_answer (s := s.begun) hsolo hpartners hanswer)

/-- What fails changes nothing, and reports its code. -/
theorem becomes_of_linFail {code : Nat} (hfail : g s.begun = linFail s.begun code) :
    Becomes i s op k regs (linLeaves s.begun op ds 0 false code) :=
  becomes_of_answer hexec hsolo (.refl _) hfail

theorem exec_of_linTrap (hready : s.ready op k regs = true) {c : Nat} {a : Addr} (htrap : g s.begun = .trap c a) :
    exec i s = .next (s.take c a).tickFresh :=
  hexec.trans (run_trap hready (lineage_trap (s := s.begun) hsolo htrap))

end

/-! ### A node operand (R160) -/

section
variable {s : State} {n : Nat} {x : Node} (g : Node → LinOut)

theorem withNode_none (hnode : (s.getPart s.ctx.pid).node n = none) : withNode s n g = .trap cLNODE (BitVec.ofNat 72 n) := by
  unfold withNode State.nodeArg
  rw [hnode]

variable (hnode : (s.getPart s.ctx.pid).node n = some x)
include hnode

theorem withNode_hidden (hhidden : x.hidden = true) : withNode s n g = .trap cLHIDDEN (BitVec.ofNat 72 n) := by
  unfold withNode State.nodeArg
  rw [hnode]
  dsimp only
  rw [if_pos hhidden]

theorem withNode_visible (hvisible : x.hidden = false) : withNode s n g = g x := by
  unfold withNode State.nodeArg
  rw [hnode]
  dsimp only
  rw [if_neg (Bool.not_eq_true _ ▸ hvisible)]

end

/-! ### LNEW, LMAP and LUNMAP -/

section
variable {s : State} {n va : Nat}

theorem linNew_bad_size (hsize : n % 64 ≠ 0 ∨ n < 64 ∨ 2 ^ 36 < n) : linNew s n = linFail s lSIZE := if_pos hsize

theorem linNew_root {q : Partn} {c : Nat} (hmod : n % 64 = 0) (hlow : 64 ≤ n) (hhigh : n ≤ 2 ^ 36)
    (hadd : (s.getPart s.ctx.pid).addNode (Config.nodeSeed s.fresh) { blocks := n / 64, parent := 0 } = some (q, c)) :
    linNew s n = linOk (s.setPart s.ctx.pid q) (BitVec.ofNat 64 c) := by
  unfold linNew
  rw [if_neg (by omega), hadd]

theorem linMap_binds {x : Node} {rw_ : Bool} (halign : va % 0x10000 = 0) (hnode : (s.getPart s.ctx.pid).node n = some x)
    (hvisible : x.hidden = false) (hpages : ∀ j < windowSize x / 0x10000, s.linPage (va + 0x10000 * j) = true)
    (hapart : ∀ b ∈ (s.getPart s.ctx.pid).binds, b.space = s.ctx.ptbr.toNat → ∀ y, (s.getPart s.ctx.pid).node b.node = some y →
      b.base + windowSize y ≤ va ∨ va + windowSize x ≤ b.base)
    (hroom : ((s.getPart s.ctx.pid).binds.filter fun b => b.space == s.ctx.ptbr.toNat).length < 1024) :
    linMap s va n rw_ = linOk (s.setPart s.ctx.pid { s.getPart s.ctx.pid with
      binds := (s.getPart s.ctx.pid).binds ++ [{ space := s.ctx.ptbr.toNat, base := va, node := n, rw := rw_ }] }) := by
  unfold linMap
  rw [if_neg (not_not.2 halign), withNode_visible _ hnode hvisible]
  dsimp only
  rw [if_neg ?pages, if_neg ?overlap, if_neg hroom.not_ge]
  case pages => simpa using hpages
  case overlap =>
    rw [List.any_eq_true]
    rintro ⟨b, hmine, hmeets⟩
    obtain ⟨hb, hspace⟩ := List.mem_filter.1 hmine
    split at hmeets
    case h_1 y hy =>
      have hmeets : va < b.base + windowSize y ∧ b.base < va + windowSize x := by simpa using hmeets
      have := hapart b hb (by simpa using hspace) y hy
      omega
    case h_2 => exact Bool.false_ne_true hmeets

theorem linUnmap_found {b : Bind}
    (hfind : (s.getPart s.ctx.pid).binds.find? (fun b => b.space == s.ctx.ptbr.toNat && b.base == va) = some b) :
    linUnmap s va = linOk ((s.setPart s.ctx.pid { s.getPart s.ctx.pid with
      binds := (s.getPart s.ctx.pid).binds.filter fun b => !(b.space == s.ctx.ptbr.toNat && b.base == va) }).strongNode s.ctx.pid b.node
        fun j => (s.getCtx j.t j.c).ptbr == s.ctx.ptbr) := by
  unfold linUnmap
  dsimp only
  rw [hfind]

theorem linUnmap_none (hnone : ∀ b ∈ (s.getPart s.ctx.pid).binds, b.space ≠ s.ctx.ptbr.toNat ∨ b.base ≠ va) :
    linUnmap s va = linFail s lNOMAP := by
  have hfind : (s.getPart s.ctx.pid).binds.find? (fun b => b.space == s.ctx.ptbr.toNat && b.base == va) = none := by
    rw [List.find?_eq_none]
    intro b hb h
    obtain ⟨hspace, hbase⟩ : b.space = s.ctx.ptbr.toNat ∧ b.base = va := by simpa using h
    exact (hnone b hb).elim (· hspace) (· hbase)
  unfold linUnmap
  dsimp only
  rw [hfind]

end

/-! ### FORK, FLATTEN, REBASE, DROP and LDIFF of a node that is not hidden -/

section
variable {s : State} {f : FLin} {n : Nat} {x : Node} (hnode : (s.getPart s.ctx.pid).node n = some x) (hvisible : x.hidden = false)
include hnode hvisible

theorem linFork_busy (hbusy : x.busy.isSome = true) : linFork s n = linFail s lBUSY :=
  (withNode_visible _ hnode hvisible).trans (if_pos hbusy)

theorem linDrop_busy (hbusy : x.busy.isSome = true) : linDrop s n = linFail s lBUSY :=
  (withNode_visible _ hnode hvisible).trans (if_pos hbusy)

variable (hidle : x.busy = none)
include hidle

theorem linFork_deep (hdepth : 15 ≤ (s.getPart s.ctx.pid).depth chainMax n) : linFork s n = linFail s lDEPTH := by
  unfold linFork
  rw [withNode_visible _ hnode hvisible]
  dsimp only
  rw [if_neg (by simp [hidle]), if_pos hdepth]

theorem linFork_child {q : Partn} {c : Nat} (hdepth : (s.getPart s.ctx.pid).depth chainMax n < 15)
    (hadd : ((s.getPart s.ctx.pid).setNode n { x with kids := x.kids + 1 }).addNode (Config.nodeSeed s.fresh)
      { blocks := x.blocks, parent := n } = some (q, c)) :
    linFork s n = linOk ((s.setPart s.ctx.pid q).strongNode s.ctx.pid n) (BitVec.ofNat 64 c) := by
  unfold linFork
  rw [withNode_visible _ hnode hvisible]
  dsimp only
  rw [if_neg (by simp [hidle]), if_neg hdepth.not_ge, hadd]

theorem linDrop_parent (hkids : x.kids ≠ 0) : linDrop s n = linOk ((s.setPart s.ctx.pid
    (({ s.getPart s.ctx.pid with binds := (s.getPart s.ctx.pid).binds.filter fun b => b.node != n } : Partn).setNode n
      { x with hidden := true })).strongNode s.ctx.pid n) := by
  unfold linDrop
  rw [withNode_visible _ hnode hvisible, if_neg (by simp [hidle])]
  dsimp only
  rw [if_pos hkids]

theorem linDrop_leaf (hkids : x.kids = 0) : linDrop s n = linOk ((s.setPart s.ctx.pid
    ((({ s.getPart s.ctx.pid with binds := (s.getPart s.ctx.pid).binds.filter fun b => b.node != n } : Partn).freeNode n).loseChild
      chainMax x.parent)).strongNode s.ctx.pid n) := by
  unfold linDrop
  rw [withNode_visible _ hnode hvisible, if_neg (by simp [hidle])]
  dsimp only
  rw [if_neg (not_not.2 hkids)]

/-- Without an ancestor to compare with, every node up to the root counts. -/
theorem linDiff_root {g : Nat} (hg : g = 0) {path : List Nat} (hpath : (s.getPart s.ctx.pid).path 0 chainMax n = some path) (c : Nat) :
    linDiff s n g c = ((s.getPart s.ctx.pid).firstDiff path c).elim (.ans s (BitVec.ofNat 64 x.blocks) false lNONE)
      fun i => linOk s (BitVec.ofNat 64 i) := by
  subst hg
  unfold linDiff
  rw [withNode_visible _ hnode hvisible]
  dsimp only
  rw [if_pos rfl, if_neg (by simp [hidle]), hpath]
  dsimp only
  cases (s.getPart s.ctx.pid).firstDiff path c <;> rfl

variable {o : Option Nat} (hsync : s.linSync f = .ok o)
include hsync

theorem linFlatten_idle : linFlatten s f n = if x.parent = 0 then linOk (s.signalOwn o) else linOk (s.startEngine n x 0 o) := by
  unfold linFlatten
  rw [hsync]
  dsimp only
  rw [withNode_visible _ hnode hvisible, if_neg (by simp [hidle])]

theorem linRebase_above {g : Nat} {y : Node} (htarget : (s.getPart s.ctx.pid).node g = some y) (htarget' : y.hidden = false)
    (hroot : x.parent ≠ 0) (habove : (s.getPart s.ctx.pid).above g n = true) :
    linRebase s f n g = if x.parent = g then linOk (s.signalOwn o) else linOk (s.startEngine n x g o) := by
  unfold linRebase
  rw [hsync]
  dsimp only
  rw [withNode_visible _ hnode hvisible, withNode_visible _ htarget htarget', if_neg (by simp [hidle]), if_neg hroot,
    if_neg (by simp [habove])]

end

/-! ### LNQ (R161) -/

section
variable {s : State} {n : Nat}

theorem linQuery_node {x : Node} (hnode : (s.getPart s.ctx.pid).node n = some x) (b : Nat) :
    let p := s.getPart s.ctx.pid
    let gives := fun (q v : Nat) => linQuery s q n b = linOk s (BitVec.ofNat 64 v)
    gives 0 x.parent ∧ gives 1 (p.depth chainMax n) ∧ gives 2 (64 * x.blocks) ∧ gives 3 (p.stateWord n x) ∧ gives 4 x.kids ∧
      gives 5 x.bytes ∧ (b < x.blocks → gives 6 (SMap.get 0 x.kinds b)) ∧ (x.busy = none → gives 7 0) := by
  unfold linQuery
  dsimp only
  rw [hnode]
  refine ⟨rfl, rfl, rfl, rfl, rfl, rfl, fun hblock => if_pos hblock, fun hidle => ?_⟩
  dsimp only
  rw [hidle]
  rfl

theorem linQuery_none (hnode : (s.getPart s.ctx.pid).node n = none) {q : Nat} (hq : n ≠ 0 ∨ q ≠ 5) (b : Nat) :
    linQuery s q n b = linOk s 0 := by
  unfold linQuery
  dsimp only
  rw [hnode]
  dsimp only
  rw [if_neg (by omega)]
  rfl

end

/-- Settles O47, from what each instruction answers. -/
theorem lineageInstructions : Obligations.LineageInstructions := by
  unfold Obligations.LineageInstructions
  intro s k f u pid p n g va sd sa sb pd hsolo
  have strong (q : Partn) (m : Nat) (on_ : Key → Bool) : SamePartners u ((u.setPart pid q).strongNode pid m on_) :=
    (samePartners_setPart u pid q).trans (samePartners_strongNode _ _ _ _)
  have signals (o : Option Nat) : SamePartners u (u.signalOwn o) := samePartners_signalOwn u o
  have starts (x : Node) (t : Nat) (o : Option Nat) : SamePartners u (u.startEngine n x t o) := samePartners_setPart u _ _
  refine ⟨fun hnode hready => ?forkNone, fun x hnode hhidden hready => ?forkHidden, fun q c hmod hlow hhigh hadd => ?lnew,
    fun hsize => ?lnewSize, fun x halign hnode hvisible hpages hapart hroom => ?lmap, fun b hfind => ?lunmap, fun hnone => ?lunmapNone,
    fun x hnode hvisible => ⟨fun hbusy => ⟨?forkBusy, ?dropBusy⟩, fun hidle => ⟨fun hdepth => ?forkDeep, fun q c hdepth hadd => ?fork,
      fun o hsync => ⟨fun hroot => ?flattenRoot, fun hroot => ?flatten, fun y htarget htarget' hroot habove =>
        ⟨fun hparent => ?rebaseParent, fun hparent => ?rebase⟩⟩,
      fun hkids => ?dropHides, fun hkids => ?dropFrees,
      fun path hg hpath => ⟨fun i hdiff => ?ldiff, fun hdiff => ?ldiffNone⟩⟩⟩,
    fun x hnode => ?lnq, fun hnode hq => ?lnqNone⟩
  case forkNone => exact exec_of_linTrap (exec_fork k f s) hsolo hready (withNode_none (s := u) _ hnode)
  case forkHidden => exact exec_of_linTrap (exec_fork k f s) hsolo hready (withNode_hidden (s := u) _ hnode hhidden)
  case lnew =>
    exact becomes_of_answer (exec_lnew k f s) hsolo (samePartners_setPart u pid q) (linNew_root (s := u) hmod hlow hhigh hadd)
  case lnewSize => exact becomes_of_linFail (exec_lnew k f s) hsolo (linNew_bad_size (s := u) hsize)
  case lmap =>
    exact becomes_of_answer (exec_lmap k f s) hsolo (samePartners_setPart u pid _)
      (linMap_binds (s := u) halign hnode hvisible hpages hapart hroom)
  case lunmap => exact becomes_of_answer (exec_lunmap k f s) hsolo (strong _ _ _) (linUnmap_found (s := u) hfind)
  case lunmapNone => exact becomes_of_linFail (exec_lunmap k f s) hsolo (linUnmap_none (s := u) hnone)
  case forkBusy => exact becomes_of_linFail (exec_fork k f s) hsolo (linFork_busy (s := u) hnode hvisible hbusy)
  case dropBusy => exact becomes_of_linFail (exec_drop k f s) hsolo (linDrop_busy (s := u) hnode hvisible hbusy)
  case forkDeep => exact becomes_of_linFail (exec_fork k f s) hsolo (linFork_deep (s := u) hnode hvisible hidle hdepth)
  case fork =>
    exact becomes_of_answer (exec_fork k f s) hsolo (strong _ _ _) (linFork_child (s := u) hnode hvisible hidle hdepth hadd)
  case flattenRoot =>
    exact becomes_of_answer (exec_flatten k f s) hsolo (signals o)
      ((linFlatten_idle (s := u) hnode hvisible hidle hsync).trans (if_pos hroot))
  case flatten =>
    exact becomes_of_answer (exec_flatten k f s) hsolo (starts x 0 o)
      ((linFlatten_idle (s := u) hnode hvisible hidle hsync).trans (if_neg hroot))
  case rebaseParent =>
    exact becomes_of_answer (exec_rebase k f s) hsolo (signals o)
      ((linRebase_above (s := u) hnode hvisible hidle hsync htarget htarget' hroot habove).trans (if_pos hparent))
  case rebase =>
    exact becomes_of_answer (exec_rebase k f s) hsolo (starts x g o)
      ((linRebase_above (s := u) hnode hvisible hidle hsync htarget htarget' hroot habove).trans (if_neg hparent))
  case dropHides => exact becomes_of_answer (exec_drop k f s) hsolo (strong _ _ _) (linDrop_parent (s := u) hnode hvisible hidle hkids)
  case dropFrees => exact becomes_of_answer (exec_drop k f s) hsolo (strong _ _ _) (linDrop_leaf (s := u) hnode hvisible hidle hkids)
  case ldiff =>
    exact becomes_of_answer (exec_ldiff k f s) hsolo (.refl u)
      ((linDiff_root (s := u) hnode hvisible hidle hg hpath _).trans (congrArg (Option.elim · _ _) hdiff))
  case ldiffNone =>
    exact becomes_of_answer (exec_ldiff k f s) hsolo (.refl u)
      ((linDiff_root (s := u) hnode hvisible hidle hg hpath _).trans (congrArg (Option.elim · _ _) hdiff))
  case lnq =>
    obtain ⟨hparent, hdepth, hsize, hword, hkids, hbytes, hkind, hcursor⟩ := linQuery_node (s := u) hnode g
    have queries {q v : Nat} (hq : linQuery u q n g = linOk u (BitVec.ofNat 64 v)) (hfn : f.fn = q) :
        Becomes (.lnq k f) s 0x307 k [sd, sa, sb] (linLeaves u 0x307 [sd] (BitVec.ofNat 64 v) true 0) :=
      becomes_of_answer (exec_lnq k f s) hsolo (.refl u) (hfn ▸ hq)
    exact ⟨queries hparent, queries hdepth, queries hsize, queries hword, queries hkids, queries hbytes,
      fun hfn hblock => queries (hkind hblock) hfn, fun hfn hidle => queries (hcursor hidle) hfn⟩
  case lnqNone =>
    exact becomes_of_answer (exec_lnq k f s) hsolo (.refl u) (linQuery_none (s := u) hnode hq g)

end Sys2Proof.Machine
end

section
/-! PROOFS. The steps of the lineage, copy and collective engines (R153, R155, R197, R201, R206, R208, R211 to R214). -/

namespace Sys2Proof.Machine

/-! ### Lineage engines (R153, R155) -/

theorem Partn.loseChild_launches (fuel : Nat) (p : Partn) (n : Nat) : (p.loseChild fuel n).launches = p.launches := by
  induction fuel generalizing p n with
  | zero => rfl
  | succ fuel ih =>
    unfold Partn.loseChild
    split
    · rfl
    · split
      · exact ih _ _
      · rfl

section
variable {p : Partn} {n : Nat} {x : Node} {e : Engine} (hnode : p.node n = some x) (hbusy : x.busy = some e)
include hnode hbusy

theorem Partn.recompose_next (hundo : e.undo = false) (hmore : e.cursor < x.blocks) : p.recompose n =
    let b := e.cursor
    let y : Node := { (x.setBlock b (encodeBlock (p.blockOf n b) (p.parentVal e.target b))) with busy := some { e with
      cursor := b + 1, kindsOld := SMap.set 0 e.kindsOld b (SMap.get 0 x.kinds b), paysOld := SMap.set 0 e.paysOld b (SMap.get 0 x.pays b) } }
    if p.supplies (p.setNode n y) then p.keepBad (p.setNode n y) n [b] fun _ => false
    else p.setNode n { x with busy := some { e with undo := true } } := by
  unfold Partn.recompose
  rw [hnode]
  dsimp only
  rw [hbusy]
  exact if_neg (by simp [hundo, hmore])

theorem Partn.undoBlock_next (hundo : e.undo = true) (hcursor : e.cursor ≠ 0) : p.undoBlock n =
    let b := e.cursor - 1
    p.keepBad (p.setNode n { (x.setBlock b (SMap.get 0 e.kindsOld b, SMap.get 0 e.paysOld b)) with busy := some { e with
      cursor := b, kindsOld := SMap.erase e.kindsOld b, paysOld := SMap.erase e.paysOld b } }) n [b] fun _ => false := by
  unfold Partn.undoBlock
  rw [hnode]
  dsimp only
  rw [hbusy]
  exact if_neg (by simp [hundo, hcursor])

end

/-- An operation on node `n` has ended and left it as `y`: `lost`, the old parent or the target that was not reached, loses a child, and the
launch `l` counts one operation less (R153, R155). -/
def State.opEnded (s : State) (p n : Nat) (y : Node) (lost : Nat) (e : Engine) (l : Launch) : State :=
  let r := ((s.getPart p).setNode n y).loseChild chainMax lost
  s.setPart p { r with launches := SMap.put r.launches e.launch { l with count := l.count - 1 } }

section
variable {s : State} {p n : Nat} {x : Node} {e : Engine} {l : Launch} (hnode : (s.getPart p).node n = some x) (hbusy : x.busy = some e)
  (hlaunch : SMap.find (s.getPart p).launches e.launch = some l) (hsync : e.sync = none)
include hnode hbusy hlaunch hsync

/-- An operation at its last block, or undone to its first, ends. -/
theorem State.engineEnd_ends (hends : (!(e.undo && e.cursor == 0) && (e.undo || e.cursor != x.blocks)) = false) : s.engineEnd p n =
    if e.undo && e.cursor == 0 then s.opEnded p n { x with busy := none, last := 1 } e.target e l
    else s.opEnded p n { x with busy := none, last := 0, parent := e.target } x.parent e l := by
  have hkept (y : Node) (lost : Nat) : SMap.find (((s.getPart p).setNode n y).loseChild chainMax lost).launches e.launch = some l := by
    rw [Partn.loseChild_launches]
    exact hlaunch
  unfold State.engineEnd
  dsimp only
  rw [hnode]
  dsimp only
  rw [hbusy]
  dsimp only
  rw [if_neg (ne_true_of_eq_false hends), hkept, hsync]
  dsimp only
  split <;> rfl

theorem State.engineEnd_done (hundo : e.undo = false) (hlast : e.cursor = x.blocks) :
    s.engineEnd p n = s.opEnded p n { x with busy := none, last := 0, parent := e.target } x.parent e l :=
  (State.engineEnd_ends hnode hbusy hlaunch hsync (by simp [hundo, hlast])).trans (if_neg (by simp [hundo]))

theorem State.engineEnd_undone (hundo : e.undo = true) (hfirst : e.cursor = 0) :
    s.engineEnd p n = s.opEnded p n { x with busy := none, last := 1 } e.target e l :=
  (State.engineEnd_ends hnode hbusy hlaunch hsync (by simp [hundo, hfirst])).trans (if_pos (by simp [hundo, hfirst]))

end

/-! ### Copies (R197, R201, R206) -/

section
variable {s : State} {t c : Nat} {x : CuCmd} (hgoes : s.engGoes t c (s.getCtx t c).cu.burst.isSome = true)
  (hstop : (s.getCtx t c).cu.stop = false) (hcopy : x.isCopy = true) (hafter : s.engAfter ⟨t, c, x.thr⟩ x.id = true)
include hgoes hstop hcopy hafter

theorem State.cuRun_not_idle : ¬(s.engGoes t c (s.getCtx t c).cu.burst.isSome = false ∨ (s.getCtx t c).cu.stop = true ∨ x.isCopy = false ∨
    s.engAfter ⟨t, c, x.thr⟩ x.id = false) := by
  simp [hgoes, hstop, hcopy, hafter]

variable {r : List CuCmd} (hq : (s.getCtx t c).cu.q = x :: r)
include hq

theorem State.cuRun_inHand {b : Burst} (hburst : (s.getCtx t c).cu.burst = some b) : s.cuRun t c = s.cuGo t c x b := by
  unfold State.cuRun
  dsimp only
  rw [hq]
  dsimp only
  rw [if_neg (State.cuRun_not_idle hgoes hstop hcopy hafter), hburst]

/-- A copy with nothing in hand, whose object takes its arrivals. -/
theorem State.cuRun_between (hburst : (s.getCtx t c).cu.burst = none) (hrefuses : s.syncRefuses x t c x.narrow = false) : s.cuRun t c =
    if x.n = 0 ∧ x.arrived = false then
      s.cuPartDone t c x { writes := [], step := 0, amts := [0], next := { x with arrived := true } }
    else if x.n ≤ (s.getCtx t c).cu.done then s.cuRetire t c x
    else if x.op = 0x290 ∧ x.ahead.isNone ∧ s.cpyOverlaps x t c then
      s.modCtx t c fun u => { u with cu := { u.cu with
        q := { x with ahead := some (s.cuReadRun (x.who t c) x (x.n / 64 + 1) 0) } :: u.cu.q.drop 1 } }
    else s.cuBegin t c x (s.getCtx t c).cu.done := by
  unfold State.cuRun
  dsimp only
  rw [hq]
  dsimp only
  rw [if_neg (State.cuRun_not_idle hgoes hstop hcopy hafter), hburst, hrefuses]
  rfl

/-- A part of a copy that has more bytes to move, and no source to read ahead, begins. -/
theorem State.cuRun_begins (hburst : (s.getCtx t c).cu.burst = none) (hrefuses : s.syncRefuses x t c x.narrow = false)
    (hmore : (s.getCtx t c).cu.done < x.n) (hahead : x.op = 0x290 → x.ahead = none → s.cpyOverlaps x t c = false) :
    s.cuRun t c = s.cuBegin t c x (s.getCtx t c).cu.done := by
  have hread : ¬(x.op = 0x290 ∧ x.ahead.isNone = true ∧ s.cpyOverlaps x t c = true) := fun ⟨hop, hnone, hover⟩ =>
    Bool.false_ne_true ((hahead hop (Option.isNone_iff_eq_none.1 hnone)).symm.trans hover)
  rw [State.cuRun_between hgoes hstop hcopy hafter hq hburst hrefuses, if_neg (by omega), if_neg hmore.not_ge, if_neg hread]

end

section
variable {s : State} {t c : Nat} {x : CuCmd}

theorem State.cuGo_joins {b : Burst} {u : State} (hmore : s.cuMore t c x b = some u) :
    s.cuGo t c x b = if Config.freeChoice s.fresh 0x290 then u else s.cuBurst t c x b := by
  unfold State.cuGo
  rw [hmore]
  cases Config.freeChoice s.fresh 0x290 <;> rfl

theorem State.cuGo_writes {b : Burst} (hchoice : Config.freeChoice s.fresh 0x290 = false ∨ s.cuMore t c x b = none) :
    s.cuGo t c x b = s.cuBurst t c x b := by
  have hnone : (if Config.freeChoice s.fresh 0x290 then s.cuMore t c x b else none) = none := by
    rcases hchoice with h | h
    · exact if_neg (ne_true_of_eq_false h)
    · rw [h, ite_self]
  unfold State.cuGo
  rw [hnone]

/-- The next write of a burst without lineage is any one of them (R254). -/
theorem State.cuBurst_one {b : Burst} {e : CuPut} {u : State} (hlin : b.writes.any (s.cuLin x t c) = false)
    (hpick : b.writes[(Config.freeWord s.fresh 0x290).toNat % b.writes.length]? = some e) (hput : s.cuPut x t c e = .ok u) :
    let d := { b with writes := b.writes.eraseIdx ((Config.freeWord s.fresh 0x290).toNat % b.writes.length) }
    let v := (u.tagAway s.away.length x).modCtx t c fun y => { y with cu := { y.cu with burst := some d } }
    s.cuBurst t c x b = if d.writes = [] then v.cuPartDone t c x d else v := by
  intro d v
  have hone : b.pick s.fresh (s.cuLin x t c) = ([e], d.writes) := by
    unfold Burst.pick
    rw [if_neg (ne_true_of_eq_false hlin)]
    dsimp only
    rw [hpick]
    rfl
  unfold State.cuBurst
  dsimp only
  rw [hone]
  dsimp only [List.foldl_cons, List.foldl_nil]
  rw [hput]

theorem State.cuPartDone_arrives {b : Burst} {v : State} (hfills : b.fills = []) (harrive : s.cuArriveAll x t c b.amts = .ok v) :
    let u := (v.tagAway s.away.length x).modCtx t c fun y => { y with cu :=
      { y.cu with q := b.next :: y.cu.q.drop 1, done := y.cu.done + b.step, burst := none } }
    s.cuPartDone t c x b = if x.n ≤ (u.getCtx t c).cu.done then u.cuRetire t c x else u := by
  unfold State.cuPartDone
  rw [hfills, List.foldl_nil, harrive]

theorem State.cuBegin_ok {done : Nat} {u : State} {b : Burst} (hpart : cuPart s t c x done = .ok u b) : s.cuBegin t c x done =
    (u.engLooked (x.who t c) (x.partReads done b.step)).modCtx t c fun y => { y with cu := { y.cu with burst := some b } } := by
  unfold State.cuBegin
  rw [hpart]

theorem State.cuBegin_fail {done cause : Nat} {a : Addr} (hpart : cuPart s t c x done = .fail cause a) :
    s.cuBegin t c x done = s.cuHalt t c cause a := by
  unfold State.cuBegin
  rw [hpart]

/-- The part of a CPY that reads nothing ahead is its source's bytes, as they are. -/
theorem cuPart_cpy {done : Nat} {bs : List Byte} {bad : Bool} {u : State} (hop : x.op = 0x290) (hahead : x.ahead = none) :
    let w := x.who t c
    let a := x.src + BitVec.ofNat 72 done
    let len := cpyPart x done
    let es := s.cuEntries x t c false done bs (s.cuBad w (x.v 0) a len)
    s.cuRead w (x.v 0) a len = .ok bs bad → s.cuTry x t c es = .ok u → (∀ z v, u.cuArriveAll x t c [len] ≠ .fail z v) →
    cuPart s t c x done = .ok s { writes := es, step := len, amts := [len], next := x } := by
  intro w a len es hread htry harrive
  have hbytes : cpyBytes s t c x done len = .ok bs bad := by
    unfold cpyBytes
    rw [hread, hahead]
  unfold cuPart
  rw [hop]
  show cpyStep s t c x done = _
  unfold cpyStep
  dsimp only
  rw [hbytes]
  dsimp only
  unfold State.cuPartOf
  rw [htry]
  dsimp only
  split
  case h_1 z v hfail => exact absurd hfail (harrive z v)
  case h_2 => rfl

end

theorem execSyncArrival_inside {s : State} {t c n : Nat} (hlive : (s.getCtx t c).live = true) (hinside : (s.getCtx t c).inside n 16 = true)
    (halign : n % 16 = 0) (amt : Nat) : execSyncArrival t c n amt s = .next (s.syncAdd t ((s.getCtx t c).ubase + n) amt) := by
  unfold execSyncArrival
  dsimp only
  rw [if_pos (by simp [hlive, hinside, halign])]

/-! ### Collectives (R211 to R214) -/

section
variable {s : State} {t c : Nat} {x : CuCmd} {r : List CuCmd} {h : Group} (hq : (s.getCtx t c).cu.q = x :: r)
  (hgoes : s.engGoes t c false = true) (hstop : (s.getCtx t c).cu.stop = false) (hcoll : x.isCopy = false)
  (hafter : s.engAfter ⟨t, c, x.thr⟩ x.id = true) (hgroup : (s.getCtx t c).group x.g = some h) (hlost : h.lost = false)
include hq hgoes hstop hcoll hafter hgroup hlost

theorem State.collRun_sends (hsent : h.sent = false) {l : List Chunk} (hchunks : chunksFor s t c x h = some l) :
    let u := if x.op = 0x2A4 ∨ bit x.fn 0 then s else s.engLooked (x.who t c) [(x.src, x.collBytes)]
    s.collRun t c = { (u.modCtx t c fun y => y.modGroup x.g fun g => { g with sent := true, kept := g.kept ++ l, since := s.plumb }) with
      net := s.net ++ l } := by
  unfold State.collRun
  rw [hq]
  dsimp only
  rw [if_neg (by simp [hgoes, hstop, hcoll, hafter]), hgroup]
  dsimp only
  rw [if_neg (ne_true_of_eq_false hlost), if_pos (by simp [hsent]), hchunks]

theorem State.collRun_finishes (hsent : h.sent = true) (hacked : ∀ d ∈ h.kept, d.seq ≠ x.seq) {sets : List (List Chunk)}
    (hsets : sets = (List.range h.members.length).filterMap (h.from_ x.seq)) (hall : sets.length = h.members.length) :
    s.collRun t c = s.collFinish t c x h sets := by
  subst hsets
  unfold State.collRun
  rw [hq]
  dsimp only
  rw [if_neg (by simp [hgoes, hstop, hcoll, hafter]), hgroup]
  dsimp only
  rw [if_neg (ne_true_of_eq_false hlost), if_neg (by simp [hsent]), if_neg (by simpa using hacked)]
  exact if_pos hall

omit hgoes hstop hafter hlost in
theorem State.noPath_ends (hsent : h.sent = true) (hsince : h.since + 2 ^ 24 ≤ s.plumb) (hno : s.noWay t x h = true) :
    s.noPath t c x.g = (s.spill t c x h).collEnd t c x true false := by
  unfold State.noPath
  rw [hq, hgroup]
  dsimp only
  rw [if_pos (by simpa [hcoll, hsent, hno] using hsince)]

end

/-! ### Chunks (R211, R214, R382) -/

theorem State.chunkArrive_inFlight {s : State} {n : Nat} {x : Chunk} (hnet : s.net[n]? = some x) : s.chunkArrive n = s.chunkDeliver n x := by
  unfold State.chunkArrive
  rw [hnet]

theorem State.chunkDue_of {s : State} {x : Chunk} (hcarried : s.carried x = true) (hsettled : s.ownerOf x.dstTile ≠ x.pid ∨
    s.chunkOrphan x = true ∨ (s.chunkFor x).isSome = true ∨ s.chunkPast x = true) : s.chunkDue x = true := by
  unfold State.chunkDue
  rcases hsettled with h | h | h | h <;> simp [hcarried, h]

section
variable {s : State} {n : Nat} {x : Chunk} (hfab : x.dstFab = s.ownFab) (hdue : s.chunkDue x = true) (hbehind : s.chunkBehind n x = false)
include hfab hdue hbehind

theorem State.chunkDeliver_foreign (howner : s.ownerOf x.dstTile ≠ x.pid) :
    s.chunkDeliver n x = ({ s with net := s.net.eraseIdx n } : State).logEvent 14 x.dstTile x.pid 0 x.key := by
  unfold State.chunkDeliver
  dsimp only
  rw [if_neg (by simp [hfab, hdue, hbehind]), if_pos howner]

variable (howner : s.ownerOf x.dstTile = x.pid)
include howner

theorem State.chunkDeliver_orphan (horphan : s.chunkOrphan x = true) :
    s.chunkDeliver n x = ({ s with net := s.net.eraseIdx n } : State).orphaned (s.seat x.pid x.dstTile) := by
  unfold State.chunkDeliver
  dsimp only
  rw [if_neg (by simp [hfab, hdue, hbehind]), if_neg (not_not.2 howner), if_pos horphan]

variable (horphan : s.chunkOrphan x = false)
include horphan

theorem State.chunkDeliver_accepts {t c g : Nat} (hfor : s.chunkFor x = some (t, c, g)) : s.chunkDeliver n x =
    (({ s with net := s.net.eraseIdx n } : State).answered x).modCtx t c fun y => y.accept g s.plumb x := by
  unfold State.chunkDeliver
  dsimp only
  rw [if_neg (by simp [hfab, hdue, hbehind]), if_neg (not_not.2 howner), if_neg (ne_true_of_eq_false horphan), hfor]

theorem State.chunkDeliver_repeat (hfor : s.chunkFor x = none) (hparked : s.chunkParked x = none) :
    s.chunkDeliver n x = ({ s with net := s.net.eraseIdx n } : State).answered x := by
  unfold State.chunkDeliver
  dsimp only
  rw [if_neg (by simp [hfab, hdue, hbehind]), if_neg (not_not.2 howner), if_neg (ne_true_of_eq_false horphan), hfor]
  dsimp only
  rw [hparked]

end

/-- A change of contexts, or of groups, leaves the chunks in flight and memory as they are. -/
theorem State.modCtx_keeps (s : State) (t c : Nat) (f : Ctx → Ctx) : (s.modCtx t c f).net = s.net ∧ (s.modCtx t c f).mem = s.mem := by
  unfold State.modCtx State.setCtx
  split <;> exact ⟨rfl, rfl⟩

theorem State.mapGroups_keeps (s : State) (f : Group → Group) : (s.mapGroups f).net = s.net ∧ (s.mapGroups f).mem = s.mem := by
  unfold State.mapGroups
  refine List.foldlRecOn (motive := fun r : State => r.net = s.net ∧ r.mem = s.mem) _ _ ⟨rfl, rfl⟩ fun r hr tc _ => ?_
  obtain ⟨hnet, hmem⟩ := r.modCtx_keeps tc.1 tc.2 _
  exact ⟨hnet.trans hr.1, hmem.trans hr.2⟩

theorem Chunk.same_marked (x : Chunk) (a b c : Bool) : ({ x with rerouted := a, due := b, took := c } : Chunk).same x = true :=
  beq_self_eq_true _

section
variable {s : State} {t c rank seq idx g : Nat} {x : Chunk} (hkeeps : (s.getCtx t c).keeps rank seq idx = some (g, x))
include hkeeps

theorem State.chunkAck_far (hfab : x.dstFab ≠ s.ownFab) (hroute : s.route x.pid = true) : s.chunkAck t c rank seq idx =
    ({ s with net := s.net.filter fun y => !y.same x } : State).modCtx t c fun y => y.modGroup g fun h =>
      { h with kept := h.kept.filter (fun d => !d.same x), since := s.plumb } := by
  unfold State.chunkAck
  rw [hkeeps]
  dsimp only
  rw [if_neg hfab, if_neg (by simp [hroute]), if_neg hfab]

theorem State.chunkAck_near (hfab : x.dstFab = s.ownFab) (htook : x.took = true) : s.chunkAck t c rank seq idx =
    s.modCtx t c fun y => y.modGroup g fun h => { h with kept := h.kept.filter (fun d => !d.same x), since := s.plumb } := by
  unfold State.chunkAck
  rw [hkeeps]
  dsimp only
  rw [if_pos hfab, if_neg (by simp [htook]), if_pos hfab]

/-- The chunk goes out again as the last in flight, marked or not. -/
theorem State.chunkResend_sends (hdue : x.due = true) (hcarried : s.carried x = true) :
    let u := s.chunkResend t c rank seq idx
    ∃ y, u.net.length = s.net.length + 1 ∧ u.net.getLast? = some y ∧ y.same x = true ∧ u.mem = s.mem := by
  unfold State.chunkResend
  rw [hkeeps]
  dsimp only
  rw [if_neg (by simp [hdue, hcarried]), (State.mapGroups_keeps _ _).1, (State.mapGroups_keeps _ _).2]
  dsimp only
  rw [(s.modCtx_keeps t c _).1, (s.modCtx_keeps t c _).2, List.map_append, List.map_singleton, List.getLast?_concat]
  exact ⟨_, by simp, rfl, Chunk.same_marked x _ _ _, rfl⟩

end

/-- Settles O54, each step by its own lemmas. -/
theorem enginesRun : Obligations.EnginesRun := by
  unfold Obligations.EnginesRun
  intro s p node t c g n rank seq idx q cu keep
  have copies {u : State} (h : s.cuRun t c = u) : exec (.cuCopyRun t c) s = .next u.tickFresh :=
    congrArg (fun v : State => Host.Outcome.next v.tickFresh) h
  have collects {u : State} (h : s.collRun t c = u) : exec (.collectiveRun t c) s = .next u.tickFresh :=
    congrArg (fun v : State => Host.Outcome.next v.tickFresh) h
  refine ⟨fun x e hnode hbusy => ⟨fun hundo hmore => ⟨fun hsupplies => ?recompose, fun hsupplies => ?recomposeFails⟩,
      fun hundo hcursor => ?undo, fun l hlaunch hsync => ⟨fun hundo hlast => ?done, fun hundo hfirst => ?undone⟩⟩,
    fun x r hq hgoes hstop hcopy hafter => ⟨fun hburst hrefuses hmore hop hahead hover => ?ahead,
      fun hburst hrefuses hmore happart => ⟨fun u b hpart => ?begins, fun cause a hpart => ?beginFails⟩,
      fun b u hburst hmore => ?joins, fun b e u hburst hchoice hlin hpick hput => ?writes,
      fun b v hfills harrive => State.cuPartDone_arrives hfills harrive, fun hburst hrefuses hnone harrived => ?empty,
      fun hburst hrefuses hall hsome hlanded => ?landed,
      fun bs bad u hop hahead hread htry harrive => cuPart_cpy hop hahead hread htry harrive⟩,
    fun hlive hinside halign amt => execSyncArrival_inside hlive hinside halign amt,
    fun x r h hq hgoes hstop hcoll hafter hgroup hlost => ⟨fun l hsent hchunks => ?sends, fun sets hsent hacked hsets hall => ?finishes,
      fun hg hsent hsince hno => ?noPath⟩,
    fun x hnet hfab hbehind hcarried => ⟨fun howner horphan hfor => ?accepts, fun howner horphan => ?orphan,
      fun howner horphan hfor hparked hpast => ?past, fun howner => ?foreign⟩,
    fun x hkeeps => ⟨fun hfab hroute => ?ackFar, fun hfab htook => ?ackNear, fun hdue hcarried => ?resend⟩⟩
  case recompose =>
    exact congrArg (fun r => Host.Outcome.next (s.setPart p r)) ((Partn.recompose_next hnode hbusy hundo hmore).trans (if_pos hsupplies))
  case recomposeFails =>
    exact congrArg (fun r => Host.Outcome.next (s.setPart p r))
      ((Partn.recompose_next hnode hbusy hundo hmore).trans (if_neg (ne_true_of_eq_false hsupplies)))
  case undo => exact congrArg (fun r => Host.Outcome.next (s.setPart p r)) (Partn.undoBlock_next hnode hbusy hundo hcursor)
  case done => exact congrArg Host.Outcome.next (State.engineEnd_done hnode hbusy hlaunch hsync hundo hlast)
  case undone => exact congrArg Host.Outcome.next (State.engineEnd_undone hnode hbusy hlaunch hsync hundo hfirst)
  case ahead =>
    refine copies ((State.cuRun_between hgoes hstop hcopy hafter hq hburst hrefuses).trans ?_)
    rw [if_neg (by omega), if_neg hmore.not_ge, if_pos ⟨hop, by rw [hahead]; rfl, hover⟩]
  case begins =>
    exact copies ((State.cuRun_begins hgoes hstop hcopy hafter hq hburst hrefuses hmore happart).trans (State.cuBegin_ok hpart))
  case beginFails =>
    exact copies ((State.cuRun_begins hgoes hstop hcopy hafter hq hburst hrefuses hmore happart).trans (State.cuBegin_fail hpart))
  case joins => exact copies ((State.cuRun_inHand hgoes hstop hcopy hafter hq hburst).trans (State.cuGo_joins hmore))
  case writes =>
    exact copies ((State.cuRun_inHand hgoes hstop hcopy hafter hq hburst).trans
      ((State.cuGo_writes hchoice).trans (State.cuBurst_one hlin hpick hput)))
  case empty =>
    exact copies ((State.cuRun_between hgoes hstop hcopy hafter hq hburst hrefuses).trans (if_pos ⟨hnone, harrived⟩))
  case landed =>
    have hnext : ¬(x.n = 0 ∧ x.arrived = false) := fun h => hsome.elim (· h.1) (by simp [h.2])
    refine copies ((State.cuRun_between hgoes hstop hcopy hafter hq hburst hrefuses).trans ?_)
    rw [if_neg hnext, if_pos hall]
    exact if_pos hlanded
  case sends =>
    refine ⟨_, ?_, collects (State.collRun_sends hq hgoes hstop hcoll hafter hgroup hlost hsent hchunks)⟩
    split
    · exact .inl rfl
    · exact .inr ⟨_, rfl⟩
  case finishes => exact collects (State.collRun_finishes hq hgoes hstop hcoll hafter hgroup hlost hsent hacked hsets hall)
  case noPath =>
    subst hg
    exact congrArg (fun v : State => Host.Outcome.next v.tickFresh) (State.noPath_ends hq hcoll hgroup hsent hsince hno)
  case accepts =>
    have hdue : s.chunkDue x = true := State.chunkDue_of hcarried (by simp [hfor])
    exact congrArg Host.Outcome.next ((State.chunkArrive_inFlight hnet).trans
      (State.chunkDeliver_accepts hfab hdue hbehind howner horphan hfor))
  case orphan =>
    have hdue : s.chunkDue x = true := State.chunkDue_of hcarried (by simp [horphan])
    exact congrArg Host.Outcome.next ((State.chunkArrive_inFlight hnet).trans
      (State.chunkDeliver_orphan hfab hdue hbehind howner horphan))
  case past =>
    have hdue : s.chunkDue x = true := State.chunkDue_of hcarried (by simp [hpast])
    exact congrArg Host.Outcome.next ((State.chunkArrive_inFlight hnet).trans
      (State.chunkDeliver_repeat hfab hdue hbehind howner horphan hfor hparked))
  case foreign =>
    have hdue : s.chunkDue x = true := State.chunkDue_of hcarried (.inl howner)
    exact congrArg Host.Outcome.next ((State.chunkArrive_inFlight hnet).trans (State.chunkDeliver_foreign hfab hdue hbehind howner))
  case ackFar => exact congrArg Host.Outcome.next (State.chunkAck_far hkeeps hfab hroute)
  case ackNear => exact congrArg Host.Outcome.next (State.chunkAck_near hkeeps hfab htook)
  case resend =>
    obtain ⟨y, hlength, hlast, hsame, hmem⟩ := State.chunkResend_sends hkeeps hdue hcarried
    exact ⟨_, y, rfl, hlength, hlast, hsame, hmem⟩

end Sys2Proof.Machine
end

section
/-! PROOFS. What loads leave unchanged (R241): the statement fails of a state that lists a die twice. -/

namespace Sys2Proof.Machine

/-- The map of dies is not in canonical form: it lists die 1 twice, with a replica that no load of the launch in focus has made, and as
failed. A lookup finds the first. -/
def doubledDie : State :=
  { State.reset with dies := [(1, { repl := [{ slice := 0, pid := 0, launch := 0, line := 0x80, data := 0 }] }), (1, { failed := true })] }

/-- A load of the double at 0x4000, of the replica's line. -/
def replicaLoad : List (Addr × List Piece) := [(0x4000, [{ spot := { place := .pa 0x4000 }, n := 8 }])]

/-- R241. The launch's first load with the hint drops the old replica. That leaves the first entry at the reset values, which the map
drops, and lookups find the second. -/
theorem failed_afterLoads_doubledDie : ((afterLoads doubledDie true replicaLoad []).getDie 1).failed = true := by decide +kernel

/-- Refutes O40: of every state, canonical or not, it says that loads change nothing of a die but its replicas. In `doubledDie` a load
uncovers the second entry of die 1, and the die, which had not failed, reads as failed. The statement lacks the hypothesis that the map of
dies is canonical. -/
theorem not_accessFrames : ¬ Obligations.AccessFrames := by
  unfold Obligations.AccessFrames
  intro h
  obtain ⟨-, ⟨-, -, hdie, -⟩, -⟩ := h doubledDie doubledDie replicaLoad [] false true 0 id [] []
  have hfailed := failed_afterLoads_doubledDie
  rw [hdie 1] at hfailed
  exact absurd hfailed (by decide +kernel)

end Sys2Proof.Machine
end

section
/-! PROOFS. Pre-emption, parking and resumption of units, traffic for units that are away, and watchdogs (R197, R207, R324, R331 to R333,
R336, R337, R339, R390). -/

namespace Sys2Proof.Machine

/-! ### Eviction (R324, R331, R332) -/

section
variable {s : State} {t c : Nat}

theorem execPreemptRequest_live (hlive : (s.getCtx t c).live = true) :
    execPreemptRequest t c s = .next (s.modCtx t c fun x => { x with preempt := true }) := congrArg Host.Outcome.next (if_pos hlive)

section
variable (hruns : s.stopped = false) (hlive : (s.getCtx t c).live = true) (hkilled : (s.getCtx t c).killed = none)
  (hdue : (s.getCtx t c).leaving = true ∨ s.evictable t c = true)
include hruns hlive hkilled hdue

theorem State.evict_due : ¬(s.stopped = true ∨ (s.getCtx t c).live = false ∨ (s.getCtx t c).killed.isSome = true ∨
    ((s.getCtx t c).leaving = false ∧ s.evictable t c = false)) := by
  rcases hdue with hleaving | hevictable
  · simp [hruns, hlive, hkilled, hleaving]
  · simp [hruns, hlive, hkilled, hevictable]

/-- A unit that is to leave issues nothing more while it is not at rest. -/
theorem State.evict_leaves (hbusy : s.atRest t c = false) : s.evict t c = s.modCtx t c fun x => { x with leaving := true } := by
  unfold State.evict
  dsimp only
  rw [if_neg (State.evict_due hruns hlive hkilled hdue), if_pos hbusy]

/-- At rest, with no condition waiting for an S, it is saved where an image has room. -/
theorem State.evict_parks {a : Nat} (hrest : s.atRest t c = true) (hdefer : ∀ k ∈ ctxKeys t c, (s.getThread k).defer = [])
    (hplace : s.imagePlace (s.getCtx t c).pid = some a) (himage : s.sysReady a imageSpace = true)
    (htcb : ∀ x, s.launch (s.getCtx t c).pid (s.getCtx t c).launch = some x →
      s.tcbReady (s.getCtx t c).pid x (s.getCtx t c).tcb = true) : s.evict t c = s.park_ t c a := by
  have hnone : (ctxKeys t c).find? (fun k => !(s.getThread k).defer.isEmpty && (s.getThread k).life == .live) = none :=
    List.find?_eq_none.2 fun k hk => by simp [hdefer k hk]
  unfold State.evict
  dsimp only
  rw [if_neg (State.evict_due hruns hlive hkilled hdue), if_neg (by simp [hrest]), hnone]
  dsimp only
  rw [hplace]
  refine if_pos (Bool.and_eq_true_iff.2 ⟨himage, ?_⟩)
  cases hlaunch : s.launch (s.getCtx t c).pid (s.getCtx t c).launch with
  | none => rfl
  | some x => exact htcb x hlaunch

end

/-- A YIELD that has held for its time completes, when its unit is not to leave. -/
theorem execYieldHoldExpiry_past {i till : Nat} (hwait : (s.getThread ⟨t, c, i⟩).wait = .yield till) (hpast : till ≤ s.plumb)
    (hstays : s.evictable t c = false) (hleaving : (s.getCtx t c).leaving = false) :
    execYieldHoldExpiry t c i s = .next (s.wake ⟨t, c, i⟩ (some 0)) := by
  unfold execYieldHoldExpiry
  rw [hwait]
  exact congrArg Host.Outcome.next (if_pos ⟨hpast, hstays, hleaving⟩)

end

/-! ### Resumption (R332, R333, R337, R390) -/

section
variable {s : State} {x : Parked}

/-- The entry by which a tile takes a parked unit up again. -/
def Parked.entry (x : Parked) (p now : Nat) : Entry :=
  { pid := p, launch := x.ctx.launch, tcb := x.ctx.tcb, seq := x.ctx.seq, prio := x.ctx.prio, origin := x.ctx.origin,
    tready := now, nosteal := x.ctx.nosteal, tile := x.tile, resume := true }

theorem State.resumable_wakes {p n : Nat} (hruns : s.stopped = false) (hx : (s.getPart p).parked[n]? = some x) (hready : x.ready = false)
    (hwakes : x.threads.any (s.wakes x) = true) (hroom : s.readyRoom x.tile = true) : s.resumable p n =
      (s.modPart p fun z => { z with parked := z.parked.set n { x with ready := true } }).pushEntry x.tile (x.entry p s.plumb) := by
  unfold State.resumable
  rw [hx]
  dsimp only
  rw [hruns, hready, hwakes, hroom]
  rfl

section
variable {t : Nat} {e : Entry} (hissues : s.tileIssues t = true) (hfree : s.occupied t = false)
  (hfirst : firstReady s.plumb (s.getTile t).deque = some e) (hresume : e.resume = true) (hx : s.parkedOf e = some x)
  (hfits : x.ctx.scratch ≤ (s.getTile t).lsplit * 0x20000) (hready : s.unparkReady x = true)
include hissues hfree hfirst hresume hx hfits hready

/-- A tile without a unit takes its first entry, a resumption: its unit is restored, or lost when no copy of its image reads back. -/
theorem State.resumeOn_takes : s.resumeOn t =
    if !s.goodImage x then (s.takeEntry t e).loseContext x
    else ((s.takeEntry t e).restore t 0 (pickBase s.fresh ((s.getTile t).lsplit * 0x20000) x.ctx.scratch)
      { x with ctx := { x.ctx with hw := List.range 8 } }).modTile t fun y => { y with hist := [] } := by
  unfold State.resumeOn
  rw [if_neg (by simp [hissues, hfree]), hfirst]
  dsimp only
  rw [if_neg (by simp [hresume]), hx]
  exact if_neg (by simp [hfits, hready])

end

section
variable {t n j b : Nat} (hx : (s.getPart (s.ownerOf t)).parked[n]? = some x) (hwoken : x.ready = true) (hissues : s.tileIssues t = true)
  (hfolds : s.folds t x.ctx = true) (hplace : (List.range 4).find? (fun j => !(s.getCtx t j).live) = some j)
  (hbase : fitBase ((s.getTile t).lsplit * 0x20000) x.ctx.scratch (s.allocs t) = some b) (hready : s.unparkReady x = true)
include hx hwoken hissues hfolds hplace hbase hready

/-- A unit is folded in beside units of its launch, or lost when no copy of its image reads back. -/
theorem State.foldOn_takes : s.foldOn t n =
    if !s.goodImage x then s.loseContext x
    else (s.dropEntries x.ctx.pid x.ctx.launch x.ctx.tcb).restore t j b { x with ctx := { x.ctx with hw := s.foldHw t x.ctx } } := by
  unfold State.foldOn
  rw [hx]
  dsimp only
  rw [if_neg (by simp [hwoken, hissues, hfolds, hready]), hplace, hbase]

end

end

/-! ### Traffic for units that are away (R197, R207, R336) -/

theorem Ctx.refuses_eq_false {x : Ctx} {m : Away} (hbytes : x.inside m.off m.bytes.length = true)
    (hsync : m.signal = true → x.inside m.sync 16 = true) : x.refuses m = false := by
  unfold Ctx.refuses
  cases hsignal : m.signal with
  | false => simp [hbytes]
  | true => simp [hbytes, hsync hsignal]

section
variable {s : State} {n : Nat} {m : Away} (hm : s.away[n]? = some m)
  (hfirst : ((s.away.take n).any fun y => y.pid == m.pid && y.launch == m.launch && y.vtile == m.vtile && y.src == m.src) = false)
include hm hfirst

section
variable {t c : Nat} (hunit : s.unitAt m.pid m.launch m.vtile = some (t, c))
include hunit

theorem State.traffic_refused (hrefuses : (s.getCtx t c).refuses m = true) :
    s.traffic n = ({ s with away := s.away.eraseIdx n } : State).refused m := by
  unfold State.traffic
  rw [hm]
  dsimp only
  rw [hfirst, hunit]
  exact if_pos hrefuses

/-- Traffic with no XSP to compare (R207) reaches the unit that is there by now: a signal its object, bytes its scratchpad. -/
theorem State.traffic_resident (hxsp : m.xsp = none) (hrefuses : (s.getCtx t c).refuses m = false) : s.traffic n =
    let v : State := { s with away := s.away.eraseIdx n }
    if m.signal then v.syncAdd t ((s.getCtx t c).ubase + m.sync) m.amt else v.awayLand t (s.getCtx t c).ubase m := by
  unfold State.traffic
  rw [hm]
  dsimp only
  rw [hfirst, hunit]
  dsimp only
  rw [hrefuses, hxsp]
  rfl

end

section
variable (hunit : s.unitAt m.pid m.launch m.vtile = none)
include hunit

theorem State.traffic_parked {x : Parked} (hx : (s.getPart m.pid).parkedAt m.launch m.vtile = some x) (hrefuses : x.ctx.refuses m = false)
    (hcopies : ∀ a ∈ x.copies, s.sysReady a (imageSpace / 2) = true) :
    s.traffic n = ({ s with away := s.away.eraseIdx n } : State).saveParked m.pid (x.apply m) := by
  unfold State.traffic
  rw [hm]
  dsimp only
  rw [hfirst, hunit]
  dsimp only
  rw [hx]
  dsimp only
  rw [hrefuses]
  exact if_pos (List.all_eq_true.2 hcopies)

/-- Traffic for a unit that is nowhere is dropped, and counted where it stands for an arrival (R309). -/
theorem State.traffic_dropped (hx : (s.getPart m.pid).parkedAt m.launch m.vtile = none) (hready : s.frecReady m.pid m.launch = true) :
    s.traffic n = let v : State := { s with away := s.away.eraseIdx n }
      if m.lone then v.noteLost m.pid m.launch else v := by
  unfold State.traffic
  rw [hm]
  dsimp only
  rw [hfirst, hunit]
  dsimp only
  rw [hx, hready]
  rfl

end

end

/-! ### Watchdogs (R339) -/

section
variable {s : State} {p q l : Nat} (hruns : s.stopped = false) (hold : (s.getPart p).oldest q = some l)
include hruns hold

theorem State.wdog1_due (hdue : s.wdogDue p q 0 = true) : s.wdog1 p q =
    ((s.unitsOf p l).foldl (fun s x => (ctxKeys x.1 x.2).foldl (fun s k =>
      let y := s.getThread k
      if y.life = .live ∧ y.role = 1 then s.setThread k { y with wdog := some l } else s)
      (s.modCtx x.1 x.2 fun c => { c with preempt := true })) s).wdogNext p q 0 := by
  unfold State.wdog1
  rw [hold]
  exact if_pos (by simp [hruns, hdue])

theorem State.wdog2_due (hdue : s.wdogDue p q 1 = true) (hready : s.tasksReady p l = true) : s.wdog2 p q =
    ((s.endLaunch p l stFAULTED cWDOG).modLaunch p l fun y =>
      { y.note (rootTile y.tset) 3 false with taken := y.ninit }).wdogNext p q 1 := by
  unfold State.wdog2
  rw [hold]
  exact if_pos (by simp [hruns, hdue, hready])

section
variable (hdue : s.wdogDue p q 2 = true)
include hdue

theorem State.wdog3_none (hunits : s.unitsOf p l = []) : s.wdog3 p q = s.wdogNext p q 2 := by
  unfold State.wdog3
  rw [hold]
  dsimp only
  rw [if_pos (by simp [hruns, hdue]), hunits]
  rfl

/-- The tile of a unit that was killed, but not as FAULTED, and has not ended is sheeted, and its task ends. -/
theorem State.wdog3_one {t c st cause : Nat} (hunits : s.unitsOf p l = [(t, c)]) (hkilled : (s.getCtx t c).killed = some (st, cause))
    (hst : st ≠ stFAULTED) : s.wdog3 p q =
      let x := s.getCtx t c
      ((((s.strip t c).freeCtx t c).endTask x.pid x.launch x.tcb x.vtile st 2).broadcast t 3).wdogNext p q 2 := by
  unfold State.wdog3
  rw [hold]
  dsimp only
  rw [if_pos (by simp [hruns, hdue]), hunits, List.foldl_cons, List.foldl_nil, hkilled]
  dsimp only
  rw [if_neg hst, if_neg hst]

end

end

/-- Settles O56, each step by its own lemma. -/
theorem unitsAreParkedAndResumed : Obligations.UnitsAreParkedAndResumed := by
  unfold Obligations.UnitsAreParkedAndResumed
  have ticked {u v : State} (h : u = v) : (.next u.tickFresh : Out) = .next v.tickFresh := h ▸ rfl
  intro s t c i p q n l k u
  refine ⟨execPreemptRequest_live,
    fun hruns hlive hkilled hdue hbusy => ticked (State.evict_leaves hruns hlive hkilled hdue hbusy),
    fun a hruns hlive hkilled hdue hrest hdefer hplace himage htcb =>
      ticked (State.evict_parks hruns hlive hkilled hdue hrest hdefer hplace himage htcb),
    fun till hwait hpast hstays hleaving => execYieldHoldExpiry_past hwait hpast hstays hleaving,
    fun x hruns hx hready hwakes hroom => congrArg Host.Outcome.next (State.resumable_wakes hruns hx hready hwakes hroom),
    fun e x hissues hfree hfirst hresume hx hfits hready => ?resume,
    fun x j b hx hwoken hissues hfolds hplace hbase hready => ?folded,
    fun m hm hfirst => ⟨fun hunit hxsp hbytes => ?resident,
      fun hunit hrefuses => congrArg Host.Outcome.next (State.traffic_refused hm hfirst hunit hrefuses),
      fun x hunit hx hrefuses hcopies => congrArg Host.Outcome.next (State.traffic_parked hm hfirst hunit hx hrefuses hcopies),
      fun hunit hx hready => congrArg Host.Outcome.next (State.traffic_dropped hm hfirst hunit hx hready)⟩,
    fun hruns hold => ⟨fun hdue hunits => ?asksNone, fun hdue hunits => ?asksOne,
      fun hdue hready => congrArg Host.Outcome.next (State.wdog2_due hruns hold hdue hready),
      fun hdue hunits => congrArg Host.Outcome.next (State.wdog3_none hruns hold hdue hunits),
      fun st cause hdue hunits hkilled hst => congrArg Host.Outcome.next (State.wdog3_one hruns hold hdue hunits hkilled hst)⟩⟩
  case resume =>
    have htakes := State.resumeOn_takes hissues hfree hfirst hresume hx hfits hready
    exact ⟨fun hgood => ticked (htakes.trans (if_neg (by simp [hgood]))), fun hbad => ticked (htakes.trans (if_pos (by simp [hbad])))⟩
  case folded =>
    have htakes := State.foldOn_takes hx hwoken hissues hfolds hplace hbase hready
    exact ⟨fun hgood => ticked (htakes.trans (if_neg (by simp [hgood]))), fun hbad => ticked (htakes.trans (if_pos (by simp [hbad])))⟩
  case resident =>
    have hreaches := State.traffic_resident hm hfirst hunit hxsp
    refine ⟨fun hsignal hsync => congrArg Host.Outcome.next ((hreaches ?_).trans (if_pos hsignal)),
      fun hsignal => congrArg Host.Outcome.next ((hreaches ?_).trans (if_neg (by simp [hsignal])))⟩
    · exact Ctx.refuses_eq_false hbytes fun _ => hsync
    · exact Ctx.refuses_eq_false hbytes fun h => absurd (hsignal.symm.trans h) Bool.false_ne_true
  case asksNone => exact congrArg Host.Outcome.next ((State.wdog1_due hruns hold hdue).trans (by rw [hunits]; rfl))
  case asksOne =>
    refine congrArg Host.Outcome.next ((State.wdog1_due hruns hold hdue).trans ?_)
    rw [hunits, List.foldl_cons, List.foldl_nil, State.wdogNext]

end Sys2Proof.Machine
end

section
/-! PROOFS. The values that loads bring and stores write (R220, R222, R263, R264, R268, R269). -/

namespace Sys2Proof.Machine

/-! ### What the bodies of loads come to, of loads that are made now -/

section
variable {s : State} {l : List (Addr × List Piece)}

section
variable {f : FM} (hnow : LoadsNow s l f.ordq)
include hnow

theorem loadWord_now (hcheck : s.checkAll .r 1 [(s.ea f, szBytes f.sz)] = .ok l) (repl : Bool) : loadWord s f repl =
    .done (afterLoads s repl l [(.s f.d, ofWord (extend f.sz (ofLE (loadedBytes s repl l))))] f.ordq
      fun x => { x with ext := some f.sz }) :=
  State.loadMany_late hcheck hnow (fun bs => [(.s f.d, ofWord (extend f.sz (ofLE bs)))]) fun x => { x with ext := some f.sz }

theorem loadPtr_now (hcheck : s.checkAll .r 16 [(s.ea f, 16)] = .ok l) : loadPtr s f =
    .done (afterLoads s false l [(.a f.d, ofAddr (BitVec.ofNat 72 (ofLE (loadedBytes s false l))))] f.ordq) :=
  State.loadMany_late hcheck hnow fun bs => [(.a f.d, ofAddr (BitVec.ofNat 72 (ofLE bs)))]

theorem loadStride_now
    (hcheck : s.checkAll .r 1 ((List.range (128 / szBytes f.sz)).map fun e => (s.eaStride f e, szBytes f.sz)) = .ok l) :
    loadStride s f = .done (afterLoads s false l [(.v f.d, BitVec.ofNat 1024 (ofLE (loadedBytes s false l)))] f.ordq) :=
  State.loadMany_late hcheck hnow fun bs => [(.v f.d, BitVec.ofNat 1024 (ofLE bs))]

end

/-- An access that fails a check ends a load before it is made. -/
theorem loadWord_trap {f : FM} {c : Nat} {a : Addr} (hcheck : s.checkAll .r 1 [(s.ea f, szBytes f.sz)] = .error (.trap c a))
    (repl : Bool) : loadWord s f repl = .trap c a := by
  unfold loadWord State.load State.loadMany
  rw [hcheck]
  rfl

/-- The register that elements read from memory, in their order, make of `v`: each in its lane of `ls`, the other lanes as they were. -/
def gathered (v : Vec) (ls : List Nat) (bs : List Byte) : Vec :=
  (List.range ls.length).foldl (fun v j => putBytes v (4 * ls.getD j 0) ((bs.drop (4 * j)).take 4)) v

/-- A load that binds later, its parts laid in the lanes of `ls`. -/
def Unbound.inLanes (ls : List Nat) (x : Unbound) : Unbound :=
  { x with parts := x.parts.map fun q => (q.1, q.2.1, 4 * ls.getD (q.2.2 / 4) 0 + q.2.2 % 4) }

section
variable {g : FV}

theorem gather_now (hlanes : gatherLanes (s.rk g.km) ≠ []) (hnow : LoadsNow s l)
    (hcheck : s.checkAll .r 1 ((gatherLanes (s.rk g.km)).map fun i => (s.eaLane g i, 4)) = .ok l) : gather s g =
    .done (afterLoads s false l [(.v g.vd, gathered (s.rv g.vd 3) (gatherLanes (s.rk g.km)) (loadedBytes s false l))] 0
      (Unbound.inLanes (gatherLanes (s.rk g.km)))) := by
  unfold gather
  dsimp only
  rw [if_neg (by simpa using hlanes)]
  exact State.loadMany_late hcheck hnow (fun bs => [(.v g.vd, gathered (s.rv g.vd 3) (gatherLanes (s.rk g.km)) bs)])
    (Unbound.inLanes (gatherLanes (s.rk g.km)))

theorem gather_no_lanes (hlanes : gatherLanes (s.rk g.km) = []) : gather s g = .done (s.late [(.v g.vd, s.rv g.vd 3)]) := by
  unfold gather
  rw [hlanes]
  rfl

end

end

/-- Settles O38, from what each load's body comes to. -/
theorem loadsBringValues : Obligations.LoadsBringValues := by
  unfold Obligations.LoadsBringValues
  intro s k f g l u w lanes bytes o ext
  refine ⟨fun hnow hcheck => ⟨?ld, ?ldq⟩, fun hnow hcheck => ?lda, fun hnow hcheck => ?vld, fun hnow hcheck => ?vlds,
    fun hlanes hnow hcheck => ?vgath, fun hlanes => ?vgathNone, fun c a hcheck hready => ?trap⟩
  case ld => exact becomes_of_done (exec_ld k f s) (loadWord_now (s := u) hnow hcheck false)
  case ldq => exact becomes_of_done (exec_ldq k f s) (loadWord_now (s := u) hnow hcheck true)
  case lda => exact becomes_of_done (exec_lda k f s) (loadPtr_now (s := u) hnow hcheck)
  case vld =>
    exact becomes_of_done (exec_vld k f s)
      (State.loadMany_late (s := u) hcheck hnow fun bs => [(.v f.d, BitVec.ofNat 1024 (ofLE bs))])
  case vlds => exact becomes_of_done (exec_vlds k f s) (loadStride_now (s := u) hnow hcheck)
  case vgath => exact becomes_of_done (exec_vgath k g s) (gather_now (s := u) hlanes hnow hcheck)
  case vgathNone => exact becomes_of_done (exec_vgath k g s) (gather_no_lanes (s := u) hlanes)
  case trap => exact (exec_ld k f s).trans (run_trap hready (loadWord_trap (s := u) hcheck false))

/-! ### What the bodies of VSCAT and ZERO come to -/

section
variable {s : State}

theorem scatter_lanes {g : FV} (hlanes : gatherLanes (s.rk g.km) ≠ []) : scatter s g =
    s.storeMany ((gatherLanes (s.rk g.km)).map fun i => (s.eaLane g i, getBytes (s.rv g.vb 3) (4 * i) 4)) 0 := by
  unfold scatter
  exact if_neg (by simpa using hlanes)

theorem scatter_no_lanes {g : FV} (hlanes : gatherLanes (s.rk g.km) = []) : scatter s g = .done s := by
  unfold scatter
  rw [hlanes]
  rfl

theorem zeroLine_aligned {f : FM} (halign : (s.ea f).toNat % 128 = 0) : zeroLine s f =
    s.storeMany ((List.range 16).map fun j => (s.ea f + BitVec.ofNat 72 (8 * j), List.replicate 8 0)) f.ordq 8 :=
  if_neg (not_not.2 halign)

theorem zeroLine_misaligned {f : FM} (halign : (s.ea f).toNat % 128 ≠ 0) : zeroLine s f = .trap cMISALIGN (s.ea f) := if_pos halign

end

/-- Settles O39: each body is stores of the bytes that the statement names, and stores made now leave the state that `StoresNow` names. -/
theorem storesWriteValues : Obligations.StoresWriteValues := by
  unfold Obligations.StoresWriteValues
  intro s k f g u w lanes
  refine ⟨fun hnow => ?st, fun hnow => ?stq, fun hnow => ?sta, fun hnow => ?vst, fun hnow => ?vsts, fun hlanes hnow => ?vscat,
    fun hlanes => ?vscatNone, fun halign hnow => ?zero, fun halign hready => ?zeroTrap⟩
  case st => exact becomes_of_done (exec_st k f s) (State.storeMany_now hnow)
  case stq => exact becomes_of_done (exec_stq k f s) (State.storeMany_now hnow)
  case sta => exact becomes_of_done (exec_sta k f s) (State.storeMany_now hnow)
  case vst => exact becomes_of_done (exec_vst k f s) (State.storeMany_now hnow)
  case vsts => exact becomes_of_done (exec_vsts k f s) (State.storeMany_now hnow)
  case vscat =>
    exact becomes_of_done (exec_vscat k g s) ((scatter_lanes (s := s.begun) hlanes).trans (State.storeMany_now hnow))
  case vscatNone => exact keeps_of_done (exec_vscat k g s) (scatter_no_lanes (s := s.begun) hlanes)
  case zero =>
    exact becomes_of_done (exec_zero k f s) ((zeroLine_aligned (s := s.begun) halign).trans (State.storeMany_now hnow))
  case zeroTrap => exact (exec_zero k f s).trans (run_trap hready (zeroLine_misaligned (s := s.begun) halign))

end Sys2Proof.Machine
end

section
/-! PROOFS. Queues and semaphores (R231, R329, R330). -/

namespace Sys2Proof.Machine

/-! ### Words of fields, and threads to which no wait has brought a result -/

theorem fields_two (a b x y : Nat) : fields [(a, x), (b, y)] = x * 2 ^ a + y * 2 ^ b := by simp [fields]

/-- A result taken up leaves nothing where there was none. -/
theorem State.retry_cleared {s : State} (hretry : s.thr.retry = none) :
    ({ s with thr := { s.thr with retry := none } } : State) = s := by
  rw [← hretry]

theorem State.thr_wakeWith {s : State} {j : Nat} (hj : j ≠ s.cur.i) (v : Word) : (s.wakeWith j v).thr = s.thr := by
  unfold State.wakeWith State.modThread State.setThread
  rw [if_neg fun h => hj (congrArg Key.i h)]

theorem State.serve_no_waits {s : State} {n : Nat} (hwaits : (s.ctx.semOf n).waits = []) (a : Nat) : s.serve n a = s := by
  cases a with
  | zero => rfl
  | succ a =>
    unfold State.serve
    dsimp only
    rw [hwaits]

theorem samePartners_setQueue (s : State) (n : Nat) (y : TQueue) : SamePartners s { s with ctx := s.ctx.setQueue n y } := ⟨rfl, rfl⟩

theorem samePartners_setSem (s : State) (n : Nat) (y : Sem) : SamePartners s { s with ctx := s.ctx.setSem n y } := ⟨rfl, rfl⟩

/-- What .NB adds to the results of an instruction on a queue or semaphore: whether it could go on (R330). -/
def queueFlag (f : FRR) (ok : Bool) : List (Reg × Vec) := if f.b = 1 then [(.p f.c, ofBool ok)] else []

section
variable {s : State} (hsolo : s.solo = true)
include hsolo

/-! ### What the instructions share -/

theorem queueGive_solo {t : State} (hpartners : SamePartners s t) (hretry : t.thr.retry = none) (d : Option Nat) (f : FRR) (v : Word)
    (ok : Bool) :
    queueGive t d f v ok = .done (t.late ((d.map fun n => (Reg.s n, ofWord v)).toList ++ queueFlag f ok)) := by
  unfold queueGive
  dsimp only
  rw [State.retry_cleared hretry, hpartners.cur, State.copyTo_samePartners hpartners hsolo]
  cases d <;> rfl

theorem taskGive_solo {t : State} (hpartners : SamePartners s t) (n v : Nat) :
    taskGive t (some n) v = .done (t.late [(.s n, BitVec.ofNat 1024 (v % 2 ^ 64))]) := by
  unfold taskGive
  rw [hpartners.cur, State.copyTo_samePartners hpartners hsolo]

theorem taskTrail_solo (item : List Nat) (d : Option Nat) (r : Unit → Res) : taskTrail s item d r = r () := by
  unfold taskTrail
  rw [if_neg (State.not_trails hsolo), State.lvqFull_solo hsolo]
  rfl

section
variable {f : FRR} (hgo : queueWaits s = false)
include hgo

section
variable (hretry : s.thr.retry = none)
include hretry

/-! ### SEMP -/

theorem semp_eq : semp s f =
    let m := s.ctx.semOf f.fn
    if m.cnt ≠ 0 then
      queueGive { s with ctx := s.ctx.setSem f.fn { m with cnt := m.cnt - 1 } } (some f.d) f (BitVec.ofNat 64 (m.cnt - 1)) true
    else if f.b = 1 then queueGive s (some f.d) f 0 false
    else .hold { s with
      thr := { s.thr with wait := .semp f.fn }, ctx := s.ctx.setSem f.fn { m with waits := m.waits ++ [s.cur.i] } } := by
  unfold semp
  rw [if_neg (State.not_trails hsolo), hretry]
  exact if_neg (by simp [hgo])

theorem semp_takes (hcnt : (s.ctx.semOf f.fn).cnt ≠ 0) : let m := s.ctx.semOf f.fn
    semp s f = .done (({ s with ctx := s.ctx.setSem f.fn { m with cnt := m.cnt - 1 } } : State).late
      ((.s f.d, ofWord (BitVec.ofNat 64 (m.cnt - 1))) :: queueFlag f true)) :=
  ((semp_eq hsolo hgo hretry).trans (if_pos hcnt)).trans (queueGive_solo hsolo (samePartners_setSem s _ _) hretry (some f.d) f _ true)

theorem semp_zero (hcnt : (s.ctx.semOf f.fn).cnt = 0) : let m := s.ctx.semOf f.fn
    semp s f = if f.b = 1 then .done (s.late ((.s f.d, ofWord 0) :: queueFlag f false))
      else .hold { s with
        thr := { s.thr with wait := .semp f.fn }, ctx := s.ctx.setSem f.fn { m with waits := m.waits ++ [s.cur.i] } } := by
  refine ((semp_eq hsolo hgo hretry).trans (if_neg (not_not.2 hcnt))).trans ?_
  rw [queueGive_solo hsolo (.refl s) hretry]
  rfl

/-! ### QPUSH -/

theorem qpush_eq : qpush s f =
    let q := s.ctx.queueOf f.fn
    let x := s.rs f.a
    match q.pops with
    | j :: r => queueGive (({ s with ctx := s.ctx.setQueue f.fn { q with pops := r } } : State).wakeWith j x) none f 0 true
    | [] =>
      if q.ents.length < 16 then queueGive { s with ctx := s.ctx.setQueue f.fn { q with ents := q.ents ++ [x] } } none f 0 true
      else if f.b = 1 then queueGive s none f 0 false
      else .hold { s with
        thr := { s.thr with wait := .qpush f.fn }
        ctx := s.ctx.setQueue f.fn { q with pushes := q.pushes ++ [(s.cur.i, x)] } } := by
  unfold qpush
  dsimp only
  rw [if_neg (State.not_trails hsolo), State.compare_solo hsolo]
  dsimp only [Try.into]
  rw [hretry]
  exact if_neg (by simp [hgo])

section
variable (hpops : (s.ctx.queueOf f.fn).pops = [])
include hpops

theorem qpush_room (hroom : (s.ctx.queueOf f.fn).ents.length < 16) : let q := s.ctx.queueOf f.fn
    qpush s f = .done (({ s with ctx := s.ctx.setQueue f.fn { q with ents := q.ents ++ [s.rs f.a] } } : State).late
      (queueFlag f true)) := by
  refine (qpush_eq hsolo hgo hretry).trans ?_
  dsimp only
  rw [hpops]
  exact (if_pos hroom).trans (queueGive_solo hsolo (samePartners_setQueue s _ _) hretry none f 0 true)

theorem qpush_full (hfull : 16 ≤ (s.ctx.queueOf f.fn).ents.length) (hb : f.b = 1) :
    qpush s f = .done (s.late (queueFlag f false)) := by
  refine (qpush_eq hsolo hgo hretry).trans ?_
  dsimp only
  rw [hpops]
  exact ((if_neg hfull.not_gt).trans (if_pos hb)).trans (queueGive_solo hsolo (.refl s) hretry none f 0 false)

end

/-! ### A result for another thread of the unit -/

omit hgo in
theorem queueGive_wakeWith (y : TQueue) {j : Nat} (hj : j ≠ s.cur.i) (w : Word) (d : Option Nat) (v : Word) :
    let t := ({ s with ctx := s.ctx.setQueue f.fn y } : State).wakeWith j w
    queueGive t d f v true = .done (t.late ((d.map fun n => (Reg.s n, ofWord v)).toList ++ queueFlag f true)) := by
  refine queueGive_solo hsolo ((samePartners_setQueue s _ _).trans (samePartners_modThread _ _ _)) ?_ d f v true
  exact (congrArg Thread.retry (State.thr_wakeWith (s := { s with ctx := s.ctx.setQueue f.fn y }) hj w)).trans hretry

theorem qpush_hands {j : Nat} {r : List Nat} (hpops : (s.ctx.queueOf f.fn).pops = j :: r) (hj : j ≠ s.cur.i) :
    let q := s.ctx.queueOf f.fn
    qpush s f = .done ((({ s with ctx := s.ctx.setQueue f.fn { q with pops := r } } : State).wakeWith j (s.rs f.a)).late
      (queueFlag f true)) := by
  refine (qpush_eq hsolo hgo hretry).trans ?_
  dsimp only
  rw [hpops]
  exact queueGive_wakeWith hsolo hretry _ hj _ none 0

/-! ### QPOP -/

section
variable {v : Word} {r : List Word} (hents : (s.ctx.queueOf f.fn).ents = v :: r)
include hents

theorem qpop_entry : qpop s f =
    let q := s.ctx.queueOf f.fn
    queueGive (match q.pushes with
      | [] => ({ s with ctx := s.ctx.setQueue f.fn { q with ents := r } } : State)
      | (j, w) :: z => ({ s with ctx := s.ctx.setQueue f.fn { q with ents := r ++ [w], pushes := z } } : State).wakeWith j 0)
      (some f.d) f v true := by
  unfold qpop
  rw [if_neg (State.not_trails hsolo), hretry]
  dsimp only
  rw [hents]
  exact if_neg (by simp [hgo])

theorem qpop_takes (hpushes : (s.ctx.queueOf f.fn).pushes = []) : let q := s.ctx.queueOf f.fn
    qpop s f = .done (({ s with ctx := s.ctx.setQueue f.fn { q with ents := r } } : State).late
      ((.s f.d, ofWord v) :: queueFlag f true)) := by
  refine (qpop_entry hsolo hgo hretry hents).trans ?_
  dsimp only
  rw [hpushes]
  exact queueGive_solo hsolo (samePartners_setQueue s _ _) hretry (some f.d) f v true

theorem qpop_refills {j : Nat} {w : Word} {z : List (Nat × Word)} (hpushes : (s.ctx.queueOf f.fn).pushes = (j, w) :: z)
    (hj : j ≠ s.cur.i) : let q := s.ctx.queueOf f.fn
    qpop s f = .done ((({ s with ctx := s.ctx.setQueue f.fn { q with ents := r ++ [w], pushes := z } } : State).wakeWith j 0).late
      ((.s f.d, ofWord v) :: queueFlag f true)) := by
  refine (qpop_entry hsolo hgo hretry hents).trans ?_
  dsimp only
  rw [hpushes]
  exact queueGive_wakeWith hsolo hretry _ hj 0 (some f.d) v

end

theorem qpop_empty (hents : (s.ctx.queueOf f.fn).ents = []) : let q := s.ctx.queueOf f.fn
    qpop s f = if f.b = 1 then .done (s.late [(.p f.c, ofBool false)])
      else .hold { s with
        thr := { s.thr with wait := .qpop f.fn }, ctx := s.ctx.setQueue f.fn { q with pops := q.pops ++ [s.cur.i] } } := by
  unfold qpop
  rw [if_neg (State.not_trails hsolo), hretry]
  dsimp only
  rw [if_neg (by simp [hgo]), hents]
  dsimp only
  rw [State.retry_cleared hretry, State.copyTo_solo hsolo]

end

/-! ### SEMV and QSTAT -/

/-- A semaphore that no SEMP waits for gets what is added, up to its maximum. -/
theorem semv_no_waits (hwaits : (s.ctx.semOf f.fn).waits = []) :
    let m := s.ctx.semOf f.fn
    let n := min (m.cnt + if f.a = 0 then 1 else (s.rs f.a).toNat) 0xFFFF
    semv s f = .done (({ s with ctx := s.ctx.setSem f.fn { m with cnt := n } } : State).late
      [(.s f.d, BitVec.ofNat 1024 (n % 2 ^ 64))]) := by
  intro m n
  have hsem : (s.ctx.setSem f.fn { m with cnt := n }).semOf f.fn = { m with cnt := n } := SMap.get_set_self ..
  have hserve := State.serve_no_waits (s := { s with ctx := s.ctx.setSem f.fn { m with cnt := n } })
    ((congrArg Sem.waits hsem).trans hwaits)
  have hgive := taskGive_solo hsolo (samePartners_setSem s f.fn { m with cnt := n }) f.d n
  unfold semv
  dsimp only
  rw [taskTrail_solo hsolo, if_neg (by simp [hgo]), State.compare_solo hsolo]
  dsimp only [Try.into]
  refine Eq.trans ?_ hgive
  refine (congrArg (fun v : State => taskGive v (some f.d) (v.ctx.semOf f.fn).cnt) (hserve _)).trans ?_
  dsimp only
  rw [hsem]

end

section
variable {f : FRR} (hretry : s.thr.retry = none)
include hretry

theorem qstat_eq : qstat s f = .done (s.late [(.s f.d, ofWord (BitVec.ofNat 64 (if f.b = 0 then
      let q := s.ctx.queueOf f.fn
      fields [(0, q.ents.length), (8, q.pops.length + q.pushes.length)]
    else
      let m := s.ctx.semOf f.fn
      fields [(0, m.cnt), (16, m.waits.length)])))]) := by
  unfold qstat
  dsimp only
  rw [if_neg (State.not_trails hsolo), State.lvqFull_solo hsolo, queueGive_solo hsolo (.refl s) hretry]
  rfl

theorem qstat_queue (hb : f.b = 0) : let q := s.ctx.queueOf f.fn
    qstat s f = .done (s.late [(.s f.d, ofWord (BitVec.ofNat 64 (q.ents.length + (q.pops.length + q.pushes.length) * 2 ^ 8)))]) := by
  dsimp only
  rw [qstat_eq hsolo hretry, if_pos hb, fields_two, pow_zero, mul_one]

theorem qstat_sem (hb : f.b ≠ 0) : let m := s.ctx.semOf f.fn
    qstat s f = .done (s.late [(.s f.d, ofWord (BitVec.ofNat 64 (m.cnt + m.waits.length * 2 ^ 16)))]) := by
  dsimp only
  rw [qstat_eq hsolo hretry, if_neg hb, fields_two, pow_zero, mul_one]

end

end

/-- Settles O49, from what each instruction's body comes to. -/
theorem queueInstructions : Obligations.QueueInstructions := by
  unfold Obligations.QueueInstructions
  intro s k f u q m sd sa x flag putQ putS hsolo hretry hgo
  refine ⟨fun hcnt => ?semp, fun hcnt hb => ?sempFails, fun hcnt hb hready => ?sempWaits, fun hwaits => ?semv,
    fun hpops hroom => ?push, fun hpops hfull hb => ?pushFails, fun j r hpops hj => ?pushHands,
    fun v r hents hpushes => ?pop, fun v r j w z hents hpushes hj => ?popRefills, fun hents hb => ?popFails,
    fun hents hb hready => ?popWaits, fun hb => ?statQueue, fun hb => ?statSem⟩
  case semp => exact becomes_of_done (exec_semp k f s) (semp_takes (s := u) hsolo hgo hretry hcnt)
  case sempFails => exact becomes_of_done (exec_semp k f s) ((semp_zero (s := u) hsolo hgo hretry hcnt).trans (if_pos hb))
  case sempWaits => exact exec_of_hold (exec_semp k f s) hready ((semp_zero (s := u) hsolo hgo hretry hcnt).trans (if_neg hb))
  case semv => exact becomes_of_done (exec_semv k f s) (semv_no_waits (s := u) hsolo hgo hwaits)
  case push => exact becomes_of_done (exec_qpush k f s) (qpush_room (s := u) hsolo hgo hretry hpops hroom)
  case pushFails => exact becomes_of_done (exec_qpush k f s) (qpush_full (s := u) hsolo hgo hretry hpops hfull hb)
  case pushHands => exact becomes_of_done (exec_qpush k f s) (qpush_hands (s := u) hsolo hgo hretry hpops hj)
  case pop => exact becomes_of_done (exec_qpop k f s) (qpop_takes (s := u) hsolo hgo hretry hents hpushes)
  case popRefills => exact becomes_of_done (exec_qpop k f s) (qpop_refills (s := u) hsolo hgo hretry hents hpushes hj)
  case popFails =>
    rw [show flag false = [(.p f.c, ofBool false)] from if_pos hb]
    exact becomes_of_done (exec_qpop k f s) ((qpop_empty (s := u) hsolo hgo hretry hents).trans (if_pos hb))
  case popWaits =>
    exact exec_of_hold (exec_qpop k f s) hready ((qpop_empty (s := u) hsolo hgo hretry hents).trans (if_neg hb))
  case statQueue => exact becomes_of_done (exec_qstat k f s) (qstat_queue (s := u) hsolo hretry hb)
  case statSem => exact becomes_of_done (exec_qstat k f s) (qstat_sem (s := u) hsolo hretry hb)

end Sys2Proof.Machine
end

section
/-! PROOFS. Messages to other units, monitors and fences (R227, R255, R278 to R283). -/

namespace Sys2Proof.Machine

/-! ### Words of four fields, and operations that leave the thread in focus its place and partners -/

theorem fields_four (a b c d x y z w : Nat) :
    fields [(a, x), (b, y), (c, z), (d, w)] = x * 2 ^ a + y * 2 ^ b + z * 2 ^ c + w * 2 ^ d := by
  simp [fields]

theorem samePartners_sramFull (s : State) (t d n : Nat) (full : Bool) : SamePartners s (s.sramFull t d n full) :=
  samePartners_modTile s t _

theorem samePartners_noteAll (s : State) (l : List (Addr × List Piece)) : SamePartners s (s.noteAll l) := by
  rw [State.noteAll_eq]
  exact ⟨rfl, rfl⟩

theorem LinesMoved.samePartners {s t : State} (h : LinesMoved s t) : SamePartners s t := by
  rw [h.all]
  exact ⟨rfl, rfl⟩

theorem LinesMoved.solo {s t : State} (h : LinesMoved s t) : t.solo = s.solo := by
  rw [h.all]
  rfl

theorem LinesMoved.me {s t : State} (h : LinesMoved s t) : t.me = s.me := by
  rw [h.all]
  rfl

/-! ### APPEND and the inbox (R255, R278 to R281) -/

section
variable {s : State} {f : FAppend}

theorem appendSend_partition (hbits : bits (s.rs f.t).toNat 12 20 = 0) (howner : s.ownerOf ((s.rs f.t).toNat % 4096) ≠ s.ctx.pid) :
    appendSend s f = .trap cPARTITION (BitVec.ofNat 72 (s.rs f.t).toNat) := by
  unfold appendSend
  dsimp only
  rw [if_neg (not_not.2 hbits), if_pos howner]

variable (hsolo : s.solo = true)
include hsolo

theorem appendSend_sends (hbits : bits (s.rs f.t).toNat 12 20 = 0) (howner : s.ownerOf ((s.rs f.t).toNat % 4096) = s.ctx.pid)
    (hfence : s.thr.owesFence = false) (hrmw : s.thr.owesRmw = false)
    (hperformed : s.performedAt s.cur.t (msgScope s.cur.t ((s.rs f.t).toNat % 4096)) = true) : appendSend s f =
    .done (({ s with msgs := s.msgs ++ [.append s.cur s.fresh s.ctx.pid s.ctx.launch s.ctx.vtile ((s.rs f.t).toNat % 4096)
      (bits (s.rs f.t).toNat 32 32) ((List.range f.n).map fun j => s.rs (f.a + j) (2 + j))] } : State).leave .msg [(.s f.d, 0)]) := by
  unfold appendSend
  dsimp only
  rw [if_neg (not_not.2 hbits), if_neg (not_not.2 howner), if_neg (State.not_trails hsolo),
    if_neg (by simp [hfence, hrmw, hperformed]), State.compare_solo hsolo]
  rfl

theorem inboxResult_solo {t : State} (hpartners : SamePartners s t) (d v : Nat) :
    inboxResult t d v = .done (t.late [(.s d, BitVec.ofNat 1024 v)]) := by
  unfold inboxResult
  rw [hpartners.cur, State.copyTo_samePartners hpartners hsolo]

theorem trailTake_solo (d : Nat) (r : Unit → Res) : trailTake s d r = r () := if_neg (State.not_trails hsolo)

/-- An inbox set up anew, or whose head has moved, with its doubles made empty. -/
theorem inboxResult_empties (x : Inbox) (a n d : Nat) :
    inboxResult (({ s with ctx := { s.ctx with inbox := x } } : State).sramFull s.cur.t a n false) d 0 =
      .done ((({ s with ctx := { s.ctx with inbox := x } } : State).sramFull s.cur.t a n false).late [(.s d, 0)]) :=
  inboxResult_solo (s := { s with ctx := { s.ctx with inbox := x } }) hsolo (samePartners_sramFull _ _ _ _ _) d 0

theorem appendCfg_empty (hn : (s.rs f.a 2).toNat ≤ 1024) (halign : (s.ra f.ar 3).toNat % 128 = 0)
    (hfits : (s.ra f.ar 3).toNat + 128 * (s.rs f.a 2).toNat ≤ s.ctx.scratch) (hempty : s.ctx.inbox.count = 0) :
    let n := (s.rs f.a 2).toNat
    let b := (s.ra f.ar 3).toNat
    appendCfg s f = .done ((({ s with ctx := { s.ctx with
        inbox := { en := n != 0, base := b, nent := n, head := 0, tail := 0 } } } : State).sramFull
      s.cur.t ((s.ctx.ubase + b) / 8) (16 * n) false).late [(.s f.d, 0)]) := by
  unfold appendCfg
  dsimp only
  rw [if_neg hn.not_gt, if_neg (not_not.2 halign), if_neg hfits.not_gt, trailTake_solo hsolo, if_neg (not_not.2 hempty)]
  exact inboxResult_empties hsolo _ _ _ _

section
variable (hpend : ∀ p ∈ s.thr.pend, p.what ≠ .ready ∧ ∀ q, p.what ≠ .atomic q)
include hpend

/-- With no older result still to come, APPEND.POP looks at the inbox. -/
theorem appendPop_eq : let x := s.ctx.inbox
    appendPop s f = if x.count = 0 then .done (s.late [(.s f.d, 1)])
      else .done ((({ s with ctx := { s.ctx with inbox := { x with head := (x.head + 1) % 2 ^ 32 } } } : State).sramFull
        s.cur.t (s.ctx.inboxByte x.head / 8) 16 false).late [(.s f.d, 0)]) := by
  unfold appendPop
  refine (if_neg ?older).trans ?_
  case older =>
    rw [List.any_eq_true]
    rintro ⟨p, hp, hwhat⟩
    obtain ⟨hready, hatomic⟩ := hpend p hp
    split at hwhat
    case h_1 h => exact hready h
    case h_2 q h => exact hatomic q h
    case h_3 => exact Bool.false_ne_true hwhat
  rw [trailTake_solo hsolo]
  dsimp only
  rw [inboxResult_solo hsolo (.refl s), inboxResult_empties hsolo]
  rfl

end

theorem appendStat_counts (hnent : s.ctx.inbox.nent ≠ 0) : let x := s.ctx.inbox
    appendStat s f = .done (s.late [(.s f.d, BitVec.ofNat 1024
      (x.count % 2048 + x.nent % 2048 * 2 ^ 16 + b2n x.en * 2 ^ 27 + x.head % x.nent * 2 ^ 32))]) := by
  unfold appendStat
  rw [trailTake_solo hsolo]
  dsimp only
  rw [if_neg hnent, inboxResult_solo hsolo (.refl s), fields_four, pow_zero, mul_one]

end

/-! ### WRS (R282) -/

/-- The line of a place, when it has one in memory, has come to the die of the thread's tile (R245, R282). -/
def State.brought (s : State) (p : Place) : State :=
  match p with
  | .pa a => s.shareIn (s.agentOf (dieOf s.cur.t)) (lineOf a) s.ctx.pid
  | _ => s

theorem linesMoved_brought (s : State) (p : Place) : LinesMoved s (s.brought p) := by
  cases p
  case pa a => exact linesMoved_shareIn s _ _ _
  all_goals exact .refl s

/-- WRS of a double at `ea` once its line has come: the read is held back, gives its value, or is waited for. -/
def State.wrsLooks (z : State) (f : FM) (ea : Addr) (l : List (Addr × List Piece)) : Res :=
  let p := placeOf l
  if !z.sent z.cur.t p || z.sealedIn (allPieces l) || z.ordHeld f.ordq || !z.lineHere p then .hold z.held_
  else
    let v := z.wrsRead z.me p
    let bad := z.poisoned (allPieces l)
    if bad || v != z.rs f.d 3 then
      .done ((((z.noteAll l).spoilDests (allPieces l)).copyTo z.cur (ofWord v)).late [(.s f.d, ofWord v)]
        (if bad then some (z.badCause (allPieces l), ea) else none))
    else if z.monitors (dieOf z.cur.t) p < (match p with | .sram _ _ => 16 | _ => 64) then
      .hold { z with thr := { z.thr with wait := .wrs p 0 true } }
    else .hold { z with thr := { z.thr with wait := .wrs p (z.plumb + 256) false } }

section
variable {s : State} {f : FM} (hsolo : s.solo = true)
include hsolo

theorem waitStore_taken {v : Word} (hretry : s.thr.retry = some v) : waitStore s f =
    .done (({ s with thr := { s.thr with retry := none } } : State).late [(.s f.d, ofWord v)]) := by
  unfold waitStore
  rw [hretry]
  exact congrArg (fun t : State => Res.done (t.late [(.s f.d, ofWord v)]))
    (State.copyTo_solo (s := { s with thr := { s.thr with retry := none } }) hsolo (ofWord v))

section
variable {l : List (Addr × List Piece)}

theorem waitStore_eq (hretry : s.thr.retry = none) (hcheck : s.checkAll .r 8 [(s.ea f, 8)] = .ok l) (hwaits : s.waits l = none) :
    waitStore s f = (s.brought (placeOf l)).wrsLooks f (s.ea f) l := by
  unfold waitStore
  rw [hretry]
  dsimp only
  rw [hcheck]
  dsimp only [Try.into]
  rw [if_neg (State.not_trails hsolo), State.lvqFull_solo hsolo, hwaits]
  rfl

variable (hsent : s.sent s.cur.t (placeOf l) = true) (hseal : s.sealedIn (allPieces l) = false) (hord : s.ordHeld f.ordq = false)
  (hhere : s.lineHere (placeOf l) = true) (hgood : s.poisoned (allPieces l) = false) (ea : Addr)
include hsent hseal hord hhere hgood

theorem State.wrsLooks_gives (hdiffers : s.wrsRead s.me (placeOf l) ≠ s.rs f.d 3) : s.wrsLooks f ea l =
    .done (((s.noteAll l).spoilDests (allPieces l)).late [(.s f.d, ofWord (s.wrsRead s.me (placeOf l)))]) := by
  have hpartners := (samePartners_noteAll s l).trans (samePartners_spoilDests _ (allPieces l))
  unfold State.wrsLooks
  dsimp only
  rw [if_neg (by simp [hsent, hseal, hord, hhere]), if_pos (by simp [hdiffers]), State.copyTo_samePartners hpartners hsolo, hgood]
  rfl

omit hsolo in
theorem State.wrsLooks_parks (hsame : s.wrsRead s.me (placeOf l) = s.rs f.d 3) {a : Nat} (hplace : placeOf l = .pa a)
    (hfree : s.monitors (dieOf s.cur.t) (placeOf l) < 64) : s.wrsLooks f ea l =
    .hold { s with thr := { s.thr with wait := .wrs (placeOf l) 0 true } } := by
  unfold State.wrsLooks
  dsimp only
  rw [if_neg (by simp [hsent, hseal, hord, hhere]), if_neg (by simp [hgood, hsame])]
  refine if_pos ?_
  rw [hplace] at hfree ⊢
  exact hfree

end

end

/-! ### FENCE and FENCEE (R227, R238, R283) -/

section
variable {s : State} {e : FFence}

theorem fence_scope_zero (hscope : e.scope = 0) : fence s e = .done s := if_pos (by simp [hscope])

section
variable (hsolo : s.solo = true) (hregion : s.thr.region = none) (hscope : e.scope ≠ 0) (hrmw : s.thr.owesRmw = false)
  (hbound : s.thr.unbound = false) (hred : s.hasRed s.cur = false)
include hsolo hregion hscope hrmw hbound hred

/-- Of a thread with no older atomic, RED or load that is to be waited for. -/
theorem fence_eq : fence s e =
    if e.kind = 0 then .done s
    else if e.scope = 1 then (if s.reds.any fun r => r.tile == s.cur.t then .hold s.held_ else .done s)
    else if s.performedAt s.cur.t e.scope && !s.thr.owesSo && !s.thr.owesFence then .done s
    else if 64 ≤ fifoCount none s.tile.fifo then .hold s.held_
    else .done ((s.marker e.scope (some (s.cur, s.fresh))).leave (.fence e.kind e.scope) []) := by
  unfold fence
  rw [if_neg (by simp [hregion, (State.solo_iff hsolo).1, hscope]), if_neg (by simp [hrmw, hbound, hred])]

theorem fence_acquire (hkind : e.kind = 0) : fence s e = .done s :=
  (fence_eq hsolo hregion hscope hrmw hbound hred).trans (if_pos hkind)

variable (hkind : e.kind ≠ 0)
include hkind

theorem fence_tile (htile : e.scope = 1) (hreds : s.reds.any (fun r => r.tile == s.cur.t) = false) : fence s e = .done s := by
  rw [fence_eq hsolo hregion hscope hrmw hbound hred, if_neg hkind, if_pos htile, hreds]
  rfl

theorem fence_performed (hwide : e.scope ≠ 1) (hperformed : s.performedAt s.cur.t e.scope = true) (hso : s.thr.owesSo = false)
    (hfence : s.thr.owesFence = false) : fence s e = .done s := by
  rw [fence_eq hsolo hregion hscope hrmw hbound hred, if_neg hkind, if_neg hwide, if_pos (by simp [hperformed, hso, hfence])]

theorem fence_marks (hwide : e.scope ≠ 1) (hperformed : s.performedAt s.cur.t e.scope = false)
    (hroom : fifoCount none s.tile.fifo < 64) :
    fence s e = .done ((s.marker e.scope (some (s.cur, s.fresh))).leave (.fence e.kind e.scope) []) := by
  rw [fence_eq hsolo hregion hscope hrmw hbound hred, if_neg hkind, if_neg hwide, if_neg (by simp [hperformed]), if_neg hroom.not_ge]

end

/-- Taken up when each engine has ended what it had, or stopped, FENCEE gives which of them stopped. -/
theorem fenceEngines_ended (hsolo : s.solo = true) {p q : Nat} (hmu : s.ctx.mu.ended < p → s.ctx.mu.stop = true)
    (hcu : s.ctx.cu.ended < q → s.ctx.cu.stop = true) : let mu := s.ctx.mu
    let cu := s.ctx.cu
    fenceEngines s e (.fencee p q) = .done (s.late [(.s e.d,
      BitVec.ofNat 1024 (b2n (mu.stop && (mu.ended < p || (mu.pois && mu.ended == p))) + 2 * b2n (cu.stop && cu.ended < q)))]) := by
  unfold fenceEngines
  dsimp only
  rw [if_neg (State.not_trails hsolo), if_neg ?ended, State.copyTo_solo hsolo, Bool.not_false, Bool.and_true]
  case ended =>
    by_cases hp : s.ctx.mu.ended < p <;> by_cases hq : s.ctx.cu.ended < q <;> simp [hp, hq, hmu, hcu]

end

/-- Settles O43, from what each instruction's body comes to. -/
theorem messagesMonitorsAndFences : Obligations.MessagesMonitorsAndFences := by
  unfold Obligations.MessagesMonitorsAndFences
  intro s k f m e l u t x n b mu cu hsolo hregion
  refine ⟨fun hbits howner hfence hrmw hperformed => ?append, fun hbits howner hready => ?appendPartition,
    fun hn halign hfits hempty => ?appendCfg, fun hpend => ⟨fun hempty => ?popEmpty, fun hentry => ?pop⟩, fun hnent => ?appendStat,
    fun hretry hcheck hwaits => ?wrs, fun w hretry => ?wrsTaken,
    fun hrmw hbound hred hscope => ⟨fun hkind => ?acquire, fun hkind htile hreds => ?tile,
      fun hkind hwide hperformed hso hfence => ?performed, fun hkind hwide hperformed hroom => ?marks⟩,
    fun hscope => ?scopeZero, fun p q hwait hmu hcu => ?fencee⟩
  case append => exact becomes_of_done (exec_append k f s) (appendSend_sends (s := u) hsolo hbits howner hfence hrmw hperformed)
  case appendPartition => exact (exec_append k f s).trans (run_trap hready (appendSend_partition (s := u) hbits howner))
  case appendCfg => exact becomes_of_done (exec_appendCfg k f s) (appendCfg_empty (s := u) hsolo hn halign hfits hempty)
  case popEmpty => exact becomes_of_done (exec_appendPop k f s) ((appendPop_eq (s := u) hsolo hpend).trans (if_pos hempty))
  case pop => exact becomes_of_done (exec_appendPop k f s) ((appendPop_eq (s := u) hsolo hpend).trans (if_neg hentry))
  case appendStat => exact becomes_of_done (exec_appendStat k f s) (appendStat_counts (s := u) hsolo hnent)
  case wrs =>
    intro z hord hsent hseal hhere hgood
    have hmoved : LinesMoved u z := linesMoved_brought u (placeOf l)
    have hcur : z.cur = s.cur := hmoved.samePartners.cur
    have hme : z.me = s.me := hmoved.me
    have hlooks : waitStore u m = z.wrsLooks m (u.ea m) l := waitStore_eq (s := u) hsolo hretry hcheck hwaits
    rw [← hcur] at hsent
    rw [← hme]
    refine ⟨fun hdiffers => ?gives, fun hsame a hplace hfree hready => ?parks⟩
    case gives =>
      exact becomes_of_done (exec_wrs k m s)
        (hlooks.trans (State.wrsLooks_gives (hmoved.solo.trans hsolo) hsent hseal hord hhere hgood _ hdiffers))
    case parks =>
      rw [← hcur] at hfree
      exact exec_of_hold (exec_wrs k m s) hready
        (hlooks.trans (State.wrsLooks_parks hsent hseal hord hhere hgood _ hsame hplace hfree))
  case wrsTaken => exact becomes_of_done (exec_wrs k m s) (waitStore_taken (s := u) hsolo hretry)
  case acquire => exact keeps_of_done (exec_fence k e s) (fence_acquire (s := u) hsolo hregion hscope hrmw hbound hred hkind)
  case tile => exact keeps_of_done (exec_fence k e s) (fence_tile (s := u) hsolo hregion hscope hrmw hbound hred hkind htile hreds)
  case performed =>
    exact keeps_of_done (exec_fence k e s)
      (fence_performed (s := u) hsolo hregion hscope hrmw hbound hred hkind hwide hperformed hso hfence)
  case marks =>
    exact becomes_of_done (exec_fence k e s)
      (fence_marks (s := u) hsolo hregion hscope hrmw hbound hred hkind hwide hperformed hroom)
  case scopeZero => exact keeps_of_done (exec_fence k e s) (fence_scope_zero (s := u) hscope)
  case fencee =>
    refine becomes_of_done (body := fun v => fenceEngines v e s.thr.wait) (exec_fencee k e s) ?_
    rw [hwait]
    exact fenceEngines_ended (s := u) hsolo hmu hcu

end Sys2Proof.Machine
end

section
/-! PROOFS. Leases, stores on their way, requests and transactions at a home, probes, the host, and evictions (R229, R236 to R239, R242 to
R251, R273, R426). -/

namespace Sys2Proof.Machine

/-! ### Leases (R236, R237) -/

section
variable {s : State} {t l : Nat}

theorem State.leaseTo_grants (hhold : s.mayHold t l = true) (hlease : s.mayLease (dieOf t) l = true)
    (hroom : (s.getTile t).cacheRoom l = true)
    (hcomes : ((s.fillShared (s.agentOf (dieOf t)) l (s.ownerOf t)).held (s.agentOf (dieOf t)) l).isSome = true) :
    s.leaseTo t l = (s.fillShared (s.agentOf (dieOf t)) l (s.ownerOf t)).grantLease t l :=
  (if_pos (by simp [hhold, hlease, hroom])).trans (if_pos hcomes)

theorem execLeaseExpiry_past {c : Copy} (hcopy : SMap.find (s.getTile t).copies l = some c) (hpast : c.till ≤ s.plumb + 2) :
    execLeaseExpiry t l s = .next (s.modTile t fun x => { x with copies := SMap.erase x.copies l }) := by
  unfold execLeaseExpiry
  rw [hcopy]
  exact congrArg Host.Outcome.next (if_pos hpast)

end

/-! ### Stores on their way (R229, R237 to R239, R273) -/

section
variable {s : State} {t d : Nat} {x : Store}

theorem State.sendRun_store {r : List FifoEnt} (hfifo : (s.getTile t).fifo = .store x :: r) : s.sendRun t =
    let run := (r.takeWhile fun e => (e.store?).any fun y => lineOf y.a == lineOf x.a).filterMap FifoEnt.store?
    (s.modTile t fun y => { y with fifo := r.drop run.length }).modDie (dieOf t) fun y => { y with waitSt := y.waitSt ++ x :: run } := by
  unfold State.sendRun
  rw [hfifo]

theorem execReleaseMarkerAck_performed {scope : Nat} {o : Option (Key × Nat)} {r : List FifoEnt}
    (hfifo : (s.getTile t).fifo = .marker scope o :: r) (hperformed : s.sentPerformed t scope = true) :
    execReleaseMarkerAck t s = .next ((s.modTile t fun y => { y with fifo := r }).finish o) := by
  unfold execReleaseMarkerAck
  rw [hfifo]
  exact congrArg Host.Outcome.next (if_pos hperformed)

theorem takeOn_head (n : Nat) (r : List Store) : takeOn (lineOf x.a) n (x :: r) = some ((x.part n).1, (x.part n).2 ++ r) := if_pos rfl

theorem Store.part_whole (hwhole : x.whole = true) (n : Nat) : x.part n = (x, []) := if_pos (.inl hwhole)

theorem execStorePerformAtSlice_head {r : List Store} (hwaits : (s.getDie d).waitSt = x :: r)
    (hleased : (s.getDie d).leased s.plumb (lineOf x.a) = false) (hhold : s.underHold (lineOf x.a) = false) :
    execStorePerformAtSlice d (lineOf x.a) s =
      .next (({ (s.modDie d fun y => { y with waitSt := (x.part s.fresh).2 ++ r }) with fresh := s.fresh + 1 } : State).performStore d
        (x.part s.fresh).1) := by
  unfold execStorePerformAtSlice
  rw [hwaits, takeOn_head]
  exact congrArg Host.Outcome.next (if_neg (by simp [hleased, hhold]))

/-! Ownership comes to the line of the first pending bytes (R239, R244). -/

section
variable {r : List Store} (hpend : (s.getDie d).pendB = x :: r)
include hpend

theorem find?_pendB_head : ((s.getDie d).pendB.find? fun y => lineOf y.a == lineOf x.a) = some x := by
  rw [hpend]
  exact List.find?_cons_of_pos (by simp)

theorem execOwnershipArrival_owned {h : Held} (hheld : s.held (s.agentOf d) (lineOf x.a) = some h) (howns : h.st = .m ∨ h.st = .e) :
    execOwnershipArrival d (lineOf x.a) s = .next (s.mergePending d (lineOf x.a)) := by
  unfold execOwnershipArrival
  rw [find?_pendB_head hpend, hheld]
  exact congrArg Host.Outcome.next (if_pos (by simpa using howns))

section
variable (hheld : s.held (s.agentOf d) (lineOf x.a) = none)
include hheld

theorem execOwnershipArrival_takes (hidle : s.homeIdle (lineOf x.a) = true) (hleased : s.leasedBeside d (lineOf x.a) = false)
    (hhold : s.underHold (lineOf x.a) = false) :
    execOwnershipArrival d (lineOf x.a) s = .next (s.inM (s.agentOf d) (lineOf x.a) x.pid) := by
  simp [execOwnershipArrival, find?_pendB_head hpend, hheld, hidle, hleased, hhold]

theorem execOwnershipArrival_asks (hidle : s.homeIdle (lineOf x.a) = false) : execOwnershipArrival d (lineOf x.a) s =
    .next (s.ask (lineOf x.a) { kind := 1, ag := s.agentOf d, pid := x.pid, at_ := s.plumb }) := by
  simp [execOwnershipArrival, find?_pendB_head hpend, hheld, hidle]

end

end

end

/-! ### Requests at a home (R244, R248, R251) -/

theorem HomeReq.same_of_die {q r : HomeReq} (hag : q.ag = r.ag) (hdie : q.ag < 64) : q.same r = true := by
  simp [HomeReq.same, ← hag, hdie]

theorem HomeReq.same_of_host {q r : HomeReq} (hag : q.ag = r.ag) (hkind : q.kind = r.kind) (hwr : q.wr = r.wr) : q.same r = true := by
  simp [HomeReq.same, hag, hkind, hwr]

theorem State.dieAgent_lt {s : State} {ag : Nat} (h : s.dieAgent ag = true) : ag < 64 := by
  simp only [State.dieAgent, Bool.and_eq_true, decide_eq_true_eq] at h
  exact h.1

section
variable {s : State} {l : Nat} {q : HomeReq}

theorem State.servedAs_rds (hkind : q.kind = 0) (hheld : s.held q.ag l = none) : s.servedAs l q = some 0 := by
  simp [State.servedAs, hkind, hheld]

theorem State.servedAs_rdx (hkind : q.kind = 1) (hheld : s.held q.ag l = none) : s.servedAs l q = some 1 := by
  simp [State.servedAs, hkind, hheld]

theorem State.servedAs_upg {h : Held} (hkind : q.kind = 2) (hheld : s.held q.ag l = some h) (hshares : h.st = .s ∨ h.st = .o)
    (hrecords : (s.entry l).records l q.ag = true) (hcomp : h.comp = false) : s.servedAs l q = some 2 := by
  rcases hshares with hst | hst <;> simp [State.servedAs, hkind, hheld, hst, hrecords, hcomp]

theorem State.servedAs_host (hkind : 3 ≤ q.kind) : s.servedAs l q = some q.kind := by
  obtain ⟨k, hk⟩ := Nat.exists_eq_add_of_le' hkind
  unfold State.servedAs
  rw [hk]
  rfl

end

section
variable {s : State} {l : Nat} (htxn : SMap.find s.txns l = none)
include htxn

/-- The first request of a line waits at its home, which takes it up in a later cycle. -/
theorem State.ask_first (hhome : SMap.get [] s.homeq l = []) (q : HomeReq) (hnow : s.plumb ≤ q.at_) :
    s.ask l q = { s with homeq := SMap.set [] s.homeq l [q] } := by
  have harrives : s.arrive l q = { s with homeq := SMap.set [] s.homeq l [q] } := by
    simp [State.arrive, hhome, htxn, insertHome]
  unfold State.ask
  rw [harrives]
  unfold State.takeUp
  rw [SMap.get_set_self]
  exact if_pos (by simp [hnow])

/-- A request that has waited is taken up when its agent asks again. -/
theorem State.ask_again {q q' : HomeReq} {w : List HomeReq} {k : Nat} (hhome : SMap.get [] s.homeq l = q :: w) (hsame : q'.same q = true)
    (hturn : q.at_ < s.plumb) (hroom : s.bankUsed (bankOf l) < 65536) (hserved : s.servedAs l q = some k) :
    s.ask l q' = ({ s with homeq := SMap.set [] s.homeq l w } : State).beginTxn l k q.ag q.pid q.wr := by
  have hstays : s.arrive l q' = s := if_pos (by simp [hhome, hsame])
  unfold State.ask
  rw [hstays]
  unfold State.takeUp
  rw [hhome]
  dsimp only
  rw [if_neg (by simp [htxn, hturn, hroom]), hserved]

end

section
variable {s : State} {ag l : Nat} (hag : s.dieAgent ag = true) (hdram : isDram (128 * l) = true)
include hag hdram

theorem execRds_dram (hheld : s.held ag l = none) : execRds ag l s = .next (s.askDram ag l 0) := by
  simp [execRds, hag, hdram, hheld]

theorem execRdx_dram (hheld : s.held ag l = none) : execRdx ag l s = .next (s.askDram ag l 1) := by
  simp [execRdx, hag, hdram, hheld]

theorem execUpg_dram {h : Held} (hheld : s.held ag l = some h) (hshares : h.st = .s ∨ h.st = .o) :
    execUpg ag l s = .next (s.askDram ag l 2) := by
  have hasks : (s.held ag l).any (fun h => h.st == .s || h.st == .o) = true := by simpa [hheld] using hshares
  simp [execUpg, hag, hdram, hasks]

end

/-! ### Transactions at a home (R244, R246, R251) -/

theorem shvAgents_zero (l : Nat) : shvAgents l 0 = [] := by
  simp [shvAgents, bit, bits]

section
variable {e : SfEnt} {l kind ag : Nat}

/-- Nothing is probed of a line of which nothing is recorded. -/
theorem SfEnt.probed_none (hdst : e.dst = 0) (hshv : e.shv = 0 ∨ kind = 0 ∨ kind = 4) : e.probed l kind ag = [] := by
  unfold SfEnt.probed
  rcases hshv with hshv | hkind
  · simp [hdst, hshv, shvAgents_zero]
  · simp [hdst, hkind]

/-- A read asks the owner alone. -/
theorem SfEnt.probed_read (hdst : 2 ≤ e.dst) (hkind : kind = 0 ∨ kind = 4) : e.probed l kind ag = [e.own] :=
  (if_pos hkind).trans (if_pos hdst)

/-- Of what is not a read or an upgrade the owner is asked too. -/
theorem SfEnt.probed_ne_nil (hdst : 2 ≤ e.dst) (hread : ¬(kind = 0 ∨ kind = 4)) (hupg : kind ≠ 2) : e.probed l kind ag ≠ [] := by
  have howner : e.own ∈ e.probed l kind ag := by simp [SfEnt.probed, hdst, hread, hupg]
  exact List.ne_nil_of_mem howner

end

section
variable {s : State} {l kind ag pid : Nat} (htxn : SMap.find s.txns l = none) (hhost : ¬((s.entry l).h = true ∧ kind ≤ 3))
include htxn hhost

/-- A transaction that has agents to probe, and not the host, opens with its probes. -/
theorem State.beginTxn_opens (hdst : (s.entry l).dst ≠ 0) (hprobed : (s.entry l).probed l kind ag ≠ []) : s.beginTxn l kind ag pid =
    { s with
      txns := SMap.put s.txns l
        { kind := kind, ag := ag, pid := pid, since := s.plumb, await := (s.entry l).probed l kind ag } } := by
  simp [State.beginTxn, State.checkTxn, htxn, hhost, hdst, hprobed]

/-- A read of a line that has an owner opens with the owner's probe. -/
theorem State.beginTxn_read (hdst : 2 ≤ (s.entry l).dst) (hread : kind = 0 ∨ kind = 4) : s.beginTxn l kind ag pid =
    { s with txns := SMap.put s.txns l { kind := kind, ag := ag, pid := pid, since := s.plumb, await := [(s.entry l).own] } } := by
  have hprobed : (s.entry l).probed l kind ag = [(s.entry l).own] := SfEnt.probed_read hdst hread
  rw [State.beginTxn_opens htxn hhost (Nat.ne_zero_of_lt hdst) (by simp [hprobed]), hprobed]

/-- A transaction that has nobody to ask ends at once. -/
theorem State.beginTxn_ends {wr : Option (Nat × List Byte)} (hprobed : (s.entry l).probed l kind ag = []) : s.beginTxn l kind ag pid wr =
    s.endTxn l
      { kind := kind, ag := ag, pid := pid, since := s.plumb, lone := (s.entry l).dst = 0 ∧ (s.entry l).h = false, wr := wr } := by
  simp [State.beginTxn, State.checkTxn, htxn, hhost, hprobed]

end

section
variable {s : State} {l ag pid since : Nat}

theorem State.endTxn_rds_lone : s.endTxn l { kind := 0, ag := ag, pid := pid, since := since, lone := true } =
    (({ s with txns := SMap.erase s.txns l } : State).setHeld ag l (some { st := .e, data := s.homeLine l, pid := pid })).setEntry l
      { dst := 3, own := ag, h := (s.entry l).h } := rfl

theorem State.endTxn_rdx_away {lone : Bool} (haway : ag / 8 ≠ s.domPos) :
    s.endTxn l { kind := 1, ag := ag, pid := pid, since := since, lone := lone } =
      (({ s with txns := SMap.erase s.txns l } : State).takeM ag l pid).setEntry l { dst := 3, own := ag, h := (s.entry l).h } :=
  if_neg haway

theorem State.endTxn_hostWrite {lone : Bool} (a : Nat) (bs : List Byte) :
    s.endTxn l { kind := 6, ag := ag, pid := pid, since := since, lone := lone, wr := some (a, bs) } =
      ((({ s with txns := SMap.erase s.txns l } : State).recall l).hostPut a bs).setEntry l { dst := 0, h := (s.entry l).h } := rfl

end

/-! ### Write-backs (R242, R244) -/

section
variable {s : State} {ag l : Nat} {h : Held} (hbuf : SMap.find (SMap.get [] s.wbufs ag) l = some (h, false))
  (htxn : SMap.find s.txns l = none) (hhost : isHost (128 * l) = false)
include hbuf htxn hhost

theorem execWb_owner (hdst : 2 ≤ (s.entry l).dst) (hown : (s.entry l).own = ag) : execWb ag l s =
    .next (({ s with
        wbufs := SMap.set [] s.wbufs ag (SMap.erase (SMap.get [] s.wbufs ag) l)
        mem := Memory.write s.mem (128 * l) (getBytes h.data 0 128) } : State).setEntry l
      { (s.entry l) with dst := if (s.entry l).shv = 0 then 0 else 1, own := 0 }) := by
  simp [execWb, hbuf, htxn, hhost, hdst, hown]

theorem execWb_stale (hown : (s.entry l).own ≠ ag) : execWb ag l s =
    .next { s with wbufs := SMap.set [] s.wbufs ag (SMap.erase (SMap.get [] s.wbufs ag) l) } := by
  simp [execWb, hbuf, htxn, hhost, hown]

end

/-! ### Probes (R245 to R247) -/

section
variable {s : State} {ag l : Nat}

section
variable {x : Txn} (htxn : SMap.find s.txns l = some x) (hawait : ag ∈ x.await)
include htxn hawait

/-- An agent that holds the line under the probe's identifier answers it, once neither a lease nor a reservation queue keeps the line. -/
theorem State.answerProbe_held {h : Held} {kind : Nat} (hheld : s.held ag l = some h) (hpid : h.pid = x.pid)
    (hqueue : SMap.get [] s.resvq l = []) (hprobe : s.probeOf l x ag = kind)
    (hleased : kind ≠ 0 → ag / 8 = s.domPos → (s.getDie (ag % 8)).leased s.plumb l = false) :
    s.answerProbe kind ag l =
      (if kind = 0 then s.lower ag l else s.giveUp ag l).checkTxn l { x with await := x.await.filter (· != ag) } := by
  have hpresent : s.present ag l x.pid = true := by simp [State.present, hheld, hpid]
  have hfree : ¬(kind ≠ 0 ∧ ag / 8 = s.domPos ∧ (s.getDie (ag % 8)).leased s.plumb l = true) :=
    fun ⟨hremoves, hhere, hl⟩ => Bool.false_ne_true ((hleased hremoves hhere).symm.trans hl)
  unfold State.answerProbe
  rw [htxn]
  dsimp only
  rw [if_neg (by simp [hawait, hprobe, hpresent]), if_neg hfree, if_neg fun hkept => hkept.2 hqueue]

theorem execNotPresentAnswer_awaited (habsent : s.present ag l x.pid = false) (hsince : x.since + 40 ≤ s.plumb) :
    execNotPresentAnswer ag l x.pid s =
      .next (s.checkTxn l { x with await := x.await.filter (· != ag), absent := x.absent ++ [ag] }) := by
  simp [execNotPresentAnswer, htxn, hawait, habsent, hsince]

end

section
variable {h : Held} (hheld : s.held ag l = some h) (haway : ag / 8 ≠ s.domPos)
include hheld haway

/-- On another part's agent a probe has no effect but on the line. -/
theorem State.lower_away : s.lower ag l =
    s.setHeld ag l (some { h with st := match h.st with | .m | .o => .o | .e | .s => .s }) := by
  unfold State.lower
  rw [hheld]
  exact if_neg fun hhere => haway hhere.1

theorem State.giveUp_away : s.giveUp ag l =
    ({ s with mem := if h.st = .m ∨ h.st = .o then Memory.write s.mem (128 * l) (getBytes h.data 0 128) else s.mem } :
      State).setHeld ag l none := by
  unfold State.giveUp
  rw [hheld]
  exact if_pos haway

end

theorem State.entry_of_find {x : SfEnt} (h : SMap.find s.filter l = some x) : s.entry l = x := by
  simp [State.entry, h]

theorem execSnoopFilterVictim_wanted {x : SfEnt} (hx : SMap.find s.filter l = some x) (hwants : s.wantsEntry (bankOf l) = true) :
    execSnoopFilterVictim l s = .next (s.beginTxn l 3 64 (s.linePid l)) := by
  simp [execSnoopFilterVictim, hx, hwants]

end

/-! ### The host (R240, R249 to R251, R426) -/

theorem lineOf_line (l : Nat) : lineOf (128 * l) = l := Nat.mul_div_cancel_left l (by decide)

/-- The first half of a line. -/
theorem half_line (l : Nat) : bits (128 * l) 6 1 = 0 := by
  unfold bits
  omega

section
variable {s : State} {l : Nat}

section
variable (hdram : isDram (128 * l) = true)
include hdram

theorem execHostRead_dram (mv : Nat) : execHostRead (128 * l) mv s =
    .next (s.ask l { kind := 4 + mv, ag := 64, pid := s.linePid l, at_ := s.plumb }) := by
  simp [execHostRead, hdram, lineOf_line]

theorem execHostMemWr_dram (htxn : SMap.find s.txns l = none) (v : Nat) : execHostMemWr (128 * l) v s =
    .next (s.ask l { kind := 6, ag := 64, pid := s.linePid l, at_ := s.plumb, wr := some (128 * l, toLE 64 v) }) := by
  simp [execHostMemWr, hdram, lineOf_line, htxn]

theorem execHostMemWr_snooped {x : Txn} (htxn : SMap.find s.txns l = some x) (hhost : 0 ∈ x.host) (v : Nat) :
    execHostMemWr (128 * l) v s = .next ((List.range 8).foldl (fun r d => r.strong d l) (s.hostPut (128 * l) (toLE 64 v))) := by
  simp [execHostMemWr, hdram, lineOf_line, half_line, htxn, hhost]

end

/-- The first half's answer leaves the second half's to come. -/
theorem execBisnpAnswer_first {x : Txn} (htxn : SMap.find s.txns l = some x) (hfirst : 0 ∈ x.host) (hsecond : 1 ∈ x.host) :
    execBisnpAnswer (128 * l) 0 s = .next (s.checkTxn l { x with host := x.host.filter (· != 0) }) := by
  have hleft : x.host.filter (· != 0) ≠ [] := List.ne_nil_of_mem (List.mem_filter.2 ⟨hsecond, rfl⟩)
  simp [execBisnpAnswer, lineOf_line, half_line, htxn, hfirst, hleft]

section
variable (hhost : isHost (128 * l) = true)
include hhost

theorem execHostSnoop_current : execHostSnoop (128 * l) 2 s = .next s := by
  simp [execHostSnoop, hhost, State.snoopHost]

theorem execHostSnoop_waits (hqueue : SMap.get [] s.resvq l ≠ []) (hwait : SMap.find s.hostWait l = none) :
    execHostSnoop (128 * l) 1 s = .next { s with hostWait := SMap.put s.hostWait l 1 } := by
  simp [execHostSnoop, hhost, lineOf_line, hqueue, hwait]

theorem execHostSnoop_free (hqueue : SMap.get [] s.resvq l = []) (m : Nat) : execHostSnoop (128 * l) m s = .next (s.snoopHost l m) := by
  simp [execHostSnoop, hhost, lineOf_line, hqueue]

end

theorem execHostLineSnoopAnswer_free {m : Nat} (hwait : SMap.find s.hostWait l = some m) (hqueue : SMap.get [] s.resvq l = []) :
    execHostLineSnoopAnswer l s = .next (s.snoopHost l (m % 4)) := by
  simp [execHostLineSnoopAnswer, hwait, hqueue]

end

/-! ### Evictions of lines that a die's agent holds (R242, R273, R282, R294) -/

section
variable {s : State} {ag l : Nat} {h : Held}
  (hfree : ag / 8 = s.domPos → (s.getDie (ag % 8)).leased s.plumb l = false ∧ s.pinned (ag % 8) l = false)
include hfree

theorem State.evictable_line : ¬(ag / 8 = s.domPos ∧ ((s.getDie (ag % 8)).leased s.plumb l = true ∨ s.pinned (ag % 8) l = true)) := by
  rintro ⟨hhere, hkept⟩
  obtain ⟨hleased, hpinned⟩ := hfree hhere
  simp [hleased, hpinned] at hkept

variable (hheld : s.held ag l = some h)
include hheld

theorem execLineEviction_clean (hclean : h.st = .s ∨ h.st = .e) : execLineEviction 1 ag l s =
    .next ((if ag / 8 = s.domPos then s.wakeLine (some (ag % 8)) (none, l) else s).setHeld ag l none) := by
  have hdirty : ¬(h.st = .m ∨ h.st = .o) := by rcases hclean with hst | hst <;> simp [hst]
  unfold execLineEviction
  dsimp only
  rw [hheld]
  dsimp only
  rw [if_neg (State.evictable_line hfree), if_neg fun hgoes => hdirty hgoes.1]
  exact congrArg Host.Outcome.next (if_pos (by simp [hdirty]))

theorem execLineEviction_dirty (hdirty : h.st = .m ∨ h.st = .o) : execLineEviction 2 ag l s =
    .next (({ (if ag / 8 = s.domPos then s.wakeLine (some (ag % 8)) (none, l) else s) with
      wbufs := SMap.set [] s.wbufs ag (SMap.put (SMap.get [] s.wbufs ag) l (h, false)) } : State).setHeld ag l none) := by
  unfold execLineEviction
  dsimp only
  rw [hheld]
  dsimp only
  rw [if_neg (State.evictable_line hfree)]
  exact congrArg Host.Outcome.next (if_pos ⟨hdirty, rfl⟩)

end

/-- Settles O52, each step by its own lemmas. -/
theorem linesMove : Obligations.LinesMove := by
  unfold Obligations.LinesMove
  intro s t d ag l e pid open_ idle
  refine ⟨fun hhold hlease hroom hcomes => congrArg Host.Outcome.next (State.leaseTo_grants hhold hlease hroom hcomes),
    fun c => execLeaseExpiry_past,
    fun x r hfifo => congrArg Host.Outcome.next (State.sendRun_store hfifo),
    fun scope o r => execReleaseMarkerAck_performed,
    fun x r hwaits hleased hhold => ⟨execStorePerformAtSlice_head hwaits hleased hhold, fun hwhole => Store.part_whole hwhole _⟩,
    fun x r hpend => ⟨fun h => execOwnershipArrival_owned hpend, execOwnershipArrival_takes hpend, execOwnershipArrival_asks hpend⟩,
    fun hag hdram htxn => ⟨fun hhome hheld => ?asked, fun q w hhome hq hturn hroom => ?served⟩,
    fun htxn hhost => ?begun,
    fun h hbuf htxn hhost => ⟨execWb_owner hbuf htxn hhost, execWb_stale hbuf htxn hhost⟩,
    fun x h htxn hawait hheld hpid hqueue => ?probed,
    fun h hheld haway => ⟨State.lower_away hheld haway, State.giveUp_away hheld haway⟩,
    fun x => execNotPresentAnswer_awaited,
    fun x hx htxn hwants hdst hhost => ?victim,
    fun q w hdram htxn hhome hag hturn hroom => ?hostAsks,
    fun htxn => ?hostBegun,
    fun x htxn hdram hfirst => ⟨execHostMemWr_snooped hdram htxn hfirst, execBisnpAnswer_first htxn hfirst⟩,
    fun hhost => ⟨execHostSnoop_current hhost, execHostSnoop_waits hhost, fun m hqueue _ => execHostSnoop_free hhost hqueue m⟩,
    fun m => execHostLineSnoopAnswer_free,
    rfl, rfl,
    fun h hheld hfree => ⟨execLineEviction_clean hfree hheld, execLineEviction_dirty hfree hheld⟩⟩
  case asked =>
    exact ⟨(execRds_dram hag hdram hheld).trans (congrArg Host.Outcome.next (State.ask_first htxn hhome _ le_rfl)),
      (execRdx_dram hag hdram hheld).trans (congrArg Host.Outcome.next (State.ask_first htxn hhome _ le_rfl))⟩
  case served =>
    subst hq
    have hagain (kind k : Nat) (hserved : s.servedAs l q = some k) :
        s.askDram q.ag l kind = ({ s with homeq := SMap.set [] s.homeq l w } : State).beginTxn l k q.ag q.pid q.wr :=
      State.ask_again htxn hhome (HomeReq.same_of_die rfl (State.dieAgent_lt hag)) hturn hroom hserved
    exact ⟨fun hkind hheld => (execRds_dram hag hdram hheld).trans
        (congrArg Host.Outcome.next (hagain 0 0 (State.servedAs_rds hkind hheld))),
      fun hkind hheld => (execRdx_dram hag hdram hheld).trans
        (congrArg Host.Outcome.next (hagain 1 1 (State.servedAs_rdx hkind hheld))),
      fun h hkind hheld hshares hrecords hcomp => (execUpg_dram hag hdram hheld hshares).trans
        (congrArg Host.Outcome.next (hagain 2 2 (State.servedAs_upg hkind hheld hshares hrecords hcomp)))⟩
  case begun =>
    have hasks (kind : Nat) : ¬(e.h = true ∧ kind ≤ 3) := by simp [hhost]
    refine ⟨fun hdst => ?lone, fun hdst hshv haway => ?uncached, fun hdst => ⟨?shares, ?owns⟩, fun hdst hprobed => ?upgrades⟩
    case lone =>
      rw [State.beginTxn_ends htxn (hasks 0) (SfEnt.probed_none hdst (.inr (.inl rfl))), decide_eq_true ⟨hdst, hhost⟩,
        State.endTxn_rds_lone, show (s.entry l).h = false from hhost]
    case uncached =>
      rw [State.beginTxn_ends htxn (hasks 1) (SfEnt.probed_none hdst (.inl hshv)), State.endTxn_rdx_away haway,
        show (s.entry l).h = false from hhost]
    case shares => exact State.beginTxn_read htxn (hasks 0) hdst (.inl rfl)
    case owns => exact State.beginTxn_opens htxn (hasks 1) (Nat.ne_zero_of_lt hdst) (SfEnt.probed_ne_nil hdst (by decide) (by decide))
    case upgrades => exact State.beginTxn_opens htxn (hasks 2) hdst hprobed
  case probed =>
    refine ⟨fun hprobe => ?lowers, fun hleased => ⟨fun hprobe => ?drops, fun hprobe => ?passes⟩⟩
    case lowers =>
      exact congrArg Host.Outcome.next (State.answerProbe_held htxn hawait hheld hpid hqueue hprobe fun h => absurd rfl h)
    case drops =>
      exact congrArg Host.Outcome.next (State.answerProbe_held htxn hawait hheld hpid hqueue hprobe fun _ => hleased)
    case passes =>
      exact congrArg Host.Outcome.next (State.answerProbe_held htxn hawait hheld hpid hqueue hprobe fun _ => hleased)
  case victim =>
    obtain rfl := State.entry_of_find hx
    have hprobed := SfEnt.probed_ne_nil (l := l) (kind := 3) (ag := 64) hdst (by decide) (by decide)
    exact (execSnoopFilterVictim_wanted hx hwants).trans
      (congrArg Host.Outcome.next (State.beginTxn_opens htxn (by simp [hhost]) (Nat.ne_zero_of_lt hdst) hprobed))
  case hostAsks =>
    refine ⟨fun hkind hwr => ?reads, fun v hkind hwr => ?writes⟩
    case reads =>
      have hserved : s.servedAs l q = some 4 := (State.servedAs_host (by omega)).trans (congrArg some hkind)
      refine (execHostRead_dram hdram 0).trans (congrArg Host.Outcome.next ?_)
      rw [State.ask_again htxn hhome (HomeReq.same_of_host hag.symm hkind.symm hwr.symm) hturn hroom hserved, hag, hwr]
    case writes =>
      have hserved : s.servedAs l q = some 6 := (State.servedAs_host (by omega)).trans (congrArg some hkind)
      refine (execHostMemWr_dram hdram htxn v).trans (congrArg Host.Outcome.next ?_)
      rw [State.ask_again htxn hhome (HomeReq.same_of_host hag.symm hkind.symm hwr.symm) hturn hroom hserved, hag]
  case hostBegun =>
    refine ⟨fun hdst => ?reads, fun v hdst hshv => ?writes⟩
    case reads => exact State.beginTxn_read htxn (by omega) hdst (.inr rfl)
    case writes =>
      rw [State.beginTxn_ends htxn (by omega) (SfEnt.probed_none hdst (.inl hshv)), State.endTxn_hostWrite]

end Sys2Proof.Machine
end

section
/-! PROOFS. The registers' values at reset (R83, R87, R94 and the register maps). -/

namespace Sys2Proof.Machine

/-- Settles O27: each register's own reading of the state at reset; histogram and vote registers read maps that hold nothing. -/
theorem resetRegisterValues : Obligations.ResetRegisterValues := by
  unfold Obligations.ResetRegisterValues
  refine ⟨by decide, rfl, rfl, fun j hj => ?hist, fun j hj => ?vote, rfl, rfl, rfl, rfl, rfl, rfl, rfl, rfl, rfl, rfl⟩
  case hist => exact State.csr_hist .reset hj
  case vote => exact State.csr_vote .reset hj

end Sys2Proof.Machine
end

section
/-! PROOFS. Atomics, reservations, their grants and releases, and RED (R272 to R277, R426, R427). -/

namespace Sys2Proof.Machine

/-! ### Operations that leave the thread in focus its place and partners -/

section
variable (s : State)

theorem samePartners_ueOver (p : Place) (n : Nat) : SamePartners s (s.ueOver p n) := by
  unfold State.ueOver
  split <;> exact ⟨rfl, rfl⟩

theorem samePartners_spoilSources (p : Place) (n : Nat) : SamePartners s (s.spoilSources p n) :=
  (samePartners_ueOver s p n).trans ⟨rfl, rfl⟩

theorem samePartners_spoil (t b n : Nat) : SamePartners s (s.spoil t b n) :=
  samePartners_foldl (fun r _ => samePartners_modTile r t _) _ s

theorem samePartners_dropResv (k : Key) : SamePartners s (s.dropResv k) := by
  have hmod := samePartners_modThread s k fun x => { x with resv := none }
  unfold State.dropResv
  split
  · exact .refl s
  · dsimp only
    split
    · exact ⟨hmod.cur, hmod.roles⟩
    · exact hmod

theorem State.dropResv_none {s : State} (hresv : s.thr.resv = none) : s.dropResv s.cur = s := by
  unfold State.dropResv
  rw [s.getThread_cur, hresv]

/-- A word's low bytes as a program stores them in a scratchpad (R198, R214, R427). -/
def State.scratchPut (t b n : Nat) (z : Word) : State :=
  ((s.sramWrite t b (toLE n z.toNat)).spoilSources (.sram t b) n).spoil t b n

theorem samePartners_scratchPut (t b n : Nat) (z : Word) : SamePartners s (s.scratchPut t b n z) :=
  ((samePartners_sramWrite s _ _ _).trans (samePartners_spoilSources _ _ _)).trans (samePartners_spoil _ _ _ _)

theorem State.writePlace_sram (w : Who) (way : StoreWay) (t b n : Nat) (z : Word) :
    s.writePlace w way (.sram t b) (toLE n z.toNat) = some ((s.sramWrite t b (toLE n z.toNat)).spoilSources (.sram t b) n) := by
  unfold State.writePlace
  dsimp only
  rw [length_toLE]

end

/-! ### Alignment (R263) -/

theorem State.aligned_of_checkAll {s : State} {l : List (Addr × List Piece)} {kind : Kind} {n m : Nat} {a : Addr}
    (h : s.checkAll kind n [(a, m)] = .ok l) : a.toNat % n = 0 := by
  unfold State.checkAll at h
  split at h
  · cases h
  · exact not_not.1 ‹_›

/-! ### Atomics of a scratchpad: one step (R273 to R275) -/

/-- What is written, if anything, comes first; then AMO and CAS (not SC, operation 4) have also read the place, and give its old value. -/
theorem State.atomicHere_sram {s : State} (hsolo : s.solo = true) (t b n : Nat) (ea : Addr) (op fn d : Nat) (x y : Word) :
    s.atomicHere (.sram t b) ea false op fn n x y d =
      let old : Word := BitVec.ofNat 64 (ofLE (s.sramBytes t b n))
      let u := (atomicNew op fn n s.cur.t old x y).elim s (s.scratchPut t b n)
      .done ((if op = 4 then u else u.spoilDests [{ spot := { place := .sram t b }, n := n }]).late
        [(.s d, if op = 4 then 0 else ofWord old)]) := by
  have hgive : ∀ (u : State) (v : Vec), SamePartners s u →
      let r := if op = 4 then u else u.spoilDests [{ spot := { place := .sram t b }, n := n }]
      r.copyTo r.cur v = r := by
    intro u v hu
    have hr : SamePartners s (if op = 4 then u else u.spoilDests [{ spot := { place := .sram t b }, n := n }]) := by
      split
      · exact hu
      · exact hu.trans (samePartners_spoilDests u _)
    dsimp only
    rw [hr.cur, State.copyTo_samePartners hr hsolo]
  unfold State.atomicHere
  simp only [State.readPlace, Bool.false_eq_true, if_false]
  cases atomicNew op fn n s.cur.t (BitVec.ofNat 64 (ofLE (s.sramBytes t b n))) x y with
  | none =>
    dsimp only [Option.elim]
    rw [hgive s _ (.refl s)]
  | some z =>
    dsimp only [Option.elim]
    rw [State.writePlace_sram]
    exact congrArg (fun r : State => Res.done (r.late _)) (hgive _ _ (samePartners_scratchPut s t b n z))

section
variable {s : State} {l : List (Addr × List Piece)}

section
variable {f : FAtom} (hnow : AtomicNow s (s.eaAtom f) (szBytes f.sz) f.ordq l)
include hnow

/-! ### AMO and CAS (R272 to R275) -/

section
variable (hstands : s.placeFailed (placeOf l) = false) (op : Nat)
include hstands

theorem atomic_eq : atomic s f op =
    let x := s.rs f.a 2
    let y := s.rs f.b 3
    match placeOf l with
    | .pa a =>
      if !s.drained s.cur.t (lineOf a) || 16 ≤ s.buffersUsed s.cur.t then .hold s.held_
      else .done ((s.noteAll l).joinQueue (s.eaAtom f) a op f.fn (szBytes f.sz) x y
        (ordered f.ordq || (allPieces l).any fun p => p.spot.ord == 1) f.d)
    | p => (s.noteAll l).atomicHere p (s.eaAtom f) (s.poisoned (allPieces l)) op f.fn (szBytes f.sz) x y f.d := by
  obtain ⟨hcheck, hwaits, hregion, hsolo, hperform, hseal⟩ := hnow
  unfold atomic
  dsimp only
  rw [hcheck]
  dsimp only [Try.into]
  rw [if_neg (State.not_trails hsolo), hwaits]
  dsimp only
  rw [if_neg (by simp [hregion]), if_neg (by simp [hperform, hseal]), State.compare_solo hsolo]
  refine (if_neg (by simp [hstands])).trans ?_
  cases placeOf l <;> rfl

end

/-- With room for one more request of its tile, an atomic of memory joins the queue of its line. -/
theorem atomic_joins {a : Nat} (hplace : placeOf l = .pa a) (hhome : s.homeFailed a = false)
    (hdrained : s.drained s.cur.t (lineOf a) = true) (hroom : s.buffersUsed s.cur.t < 16) (op : Nat) : atomic s f op =
    .done ((s.noteAll l).joinQueue (s.eaAtom f) a op f.fn (szBytes f.sz) (s.rs f.a 2) (s.rs f.b 3)
      (ordered f.ordq || (allPieces l).any fun p => p.spot.ord == 1) f.d) := by
  rw [atomic_eq hnow (by rw [hplace]; exact hhome), hplace]
  exact if_neg (by simp [hdrained, hroom])

section
variable (hgood : s.poisoned (allPieces l) = false) {t b : Nat} (hplace : placeOf l = .sram t b) {op : Nat} (hop : op ≠ 4)
include hgood hplace hop

theorem atomic_sram :
    let v := s.noteAll l
    let old : Word := BitVec.ofNat 64 (ofLE (v.sramBytes t b (szBytes f.sz)))
    atomic s f op = .done ((((atomicNew op f.fn (szBytes f.sz) s.cur.t old (s.rs f.a 2) (s.rs f.b 3)).elim v
      (v.scratchPut t b (szBytes f.sz))).spoilDests [{ spot := { place := .sram t b }, n := szBytes f.sz }]).late [(.s f.d, ofWord old)]) := by
  have ⟨_, _, _, hsolo, _⟩ := hnow
  have hsolo' : (s.noteAll l).solo = true := (s.solo_noteAll l).trans hsolo
  dsimp only
  rw [atomic_eq hnow (by rw [hplace]; rfl), hplace, hgood]
  dsimp only
  rw [State.atomicHere_sram hsolo']
  dsimp only
  rw [if_neg hop, if_neg hop, (samePartners_noteAll s l).cur]

theorem atomic_writes {z : Word} : let v := s.noteAll l
    let old : Word := BitVec.ofNat 64 (ofLE (v.sramBytes t b (szBytes f.sz)))
    atomicNew op f.fn (szBytes f.sz) s.cur.t old (s.rs f.a 2) (s.rs f.b 3) = some z →
    atomic s f op = .done (((v.scratchPut t b (szBytes f.sz) z).spoilDests
      [{ spot := { place := .sram t b }, n := szBytes f.sz }]).late [(.s f.d, ofWord old)]) := by
  intro v old hnew
  rw [atomic_sram hnow hgood hplace hop, hnew]
  rfl

theorem atomic_keeps : let v := s.noteAll l
    let old : Word := BitVec.ofNat 64 (ofLE (v.sramBytes t b (szBytes f.sz)))
    atomicNew op f.fn (szBytes f.sz) s.cur.t old (s.rs f.a 2) (s.rs f.b 3) = none →
    atomic s f op = .done ((v.spoilDests [{ spot := { place := .sram t b }, n := szBytes f.sz }]).late [(.s f.d, ofWord old)]) := by
  intro v old hnew
  rw [atomic_sram hnow hgood hplace hop, hnew]
  rfl

end

/-! ### RED (R277) -/

theorem redIssue_buffers {a : Nat} (hplace : placeOf l = .pa a) (hhome : s.homeFailed a = false)
    (hdrained : s.drained s.cur.t (lineOf a) = true) (hroom : s.buffersUsed s.cur.t < 16) : redIssue s f =
    .done ((s.noteAll l).placeRed (.pa a) f (s.rs f.a 2) none ((allPieces l).any fun p => p.spot.ord == 1)) := by
  obtain ⟨hcheck, hwaits, -, hsolo, hperform, -⟩ := hnow
  unfold redIssue
  dsimp only
  rw [if_neg (not_not.2 (State.aligned_of_checkAll hcheck)), if_neg (by simp [hperform, hroom]), hcheck]
  dsimp only
  rw [hwaits, hplace]
  dsimp only
  rw [if_neg (by simp [State.placeFailed, hhome]), if_neg (by simp [hdrained]), State.compare_solo hsolo]
  rfl

/-! ### SC (R276, R427) -/

section
variable (hdrained : ∀ a, placeOf l = .pa a → s.drained s.cur.t (lineOf a) = true) (hpending : s.lrPending s.cur = false)
  (hstands : s.placeFailed (placeOf l) = false)
include hdrained hpending hstands

theorem storeCond_eq : storeCond s f =
    if s.thr.reserves s.plumb (placeOf l) (szBytes f.sz) then
      match placeOf l with
      | .pa a => .done ((s.turnIntoSC (lineOf a) (szBytes f.sz) a (s.rs f.a 2)).leave
          (.atomic (ordered f.ordq || (allPieces l).any fun p => p.spot.ord == 1)) [(.s f.d, 0)])
      | p => ({ s with thr := { s.thr with resv := none } } : State).atomicHere p (s.eaAtom f) false 4 0 (szBytes f.sz) (s.rs f.a 2) 0 f.d
    else .done ((s.dropResv s.cur).late [(.s f.d, 1)]) := by
  obtain ⟨hcheck, hwaits, hregion, hsolo, hperform, -⟩ := hnow
  have hgoes : ¬(!s.mayPerform f.ordq || s.lrPending s.cur ||
      (match placeOf l with | .pa a => !s.drained s.cur.t (lineOf a) | _ => false)) = true := by
    rw [hperform, hpending]
    split
    case h_1 a h => simp [hdrained a h]
    case h_2 => simp
  unfold storeCond
  dsimp only
  rw [hcheck]
  dsimp only [Try.into]
  rw [if_neg (State.not_trails hsolo), hwaits]
  dsimp only
  rw [if_neg (by simp [hregion]), if_neg (by simp [hstands])]
  refine (if_neg hgoes).trans ?_
  rw [State.compare_solo hsolo]
  dsimp only
  rw [State.copyTo_samePartners (samePartners_dropResv s s.cur) hsolo]
  cases placeOf l <;> rfl

theorem storeCond_fails (hbroken : s.thr.reserves s.plumb (placeOf l) (szBytes f.sz) = false) :
    storeCond s f = .done ((s.dropResv s.cur).late [(.s f.d, 1)]) := by
  rw [storeCond_eq hnow hdrained hpending hstands, if_neg (by simp [hbroken])]

variable (hheld : s.thr.reserves s.plumb (placeOf l) (szBytes f.sz) = true)
include hheld

theorem storeCond_queued {a : Nat} (hplace : placeOf l = .pa a) : storeCond s f =
    .done ((s.turnIntoSC (lineOf a) (szBytes f.sz) a (s.rs f.a 2)).leave
      (.atomic (ordered f.ordq || (allPieces l).any fun p => p.spot.ord == 1)) [(.s f.d, 0)]) := by
  rw [storeCond_eq hnow hdrained hpending hstands, if_pos hheld, hplace]

theorem storeCond_stores {t b : Nat} (hplace : placeOf l = .sram t b) : storeCond s f =
    .done ((({ s with thr := { s.thr with resv := none } } : State).scratchPut t b (szBytes f.sz)
      (BitVec.ofNat 64 ((s.rs f.a 2).toNat % 2 ^ (8 * szBytes f.sz)))).late [(.s f.d, 0)]) := by
  have ⟨_, _, _, hsolo, _⟩ := hnow
  rw [storeCond_eq hnow hdrained hpending hstands, if_pos hheld, hplace]
  exact State.atomicHere_sram (s := { s with thr := { s.thr with resv := none } }) hsolo _ _ _ _ 4 _ _ _ _

end

end

/-! ### LR (R276, R427) -/

section
variable {f : FM} (hnow : AtomicNow s (s.ea f) (szBytes f.sz) f.ordq l) (hresv : s.thr.resv = none) (hpending : s.lrPending s.cur = false)
include hnow hresv hpending

theorem loadReserve_eq (hstands : s.placeFailed (placeOf l) = false) : loadReserve s f =
    let v := s.noteAll l
    match placeOf l with
    | .pa a =>
      if !s.drained s.cur.t (lineOf a) || 16 ≤ s.buffersUsed s.cur.t then .hold s.held_
      else .done (v.joinQueue (s.ea f) a 3 0 (szBytes f.sz) 0 0 (ordered f.ordq || (allPieces l).any fun p => p.spot.ord == 1) f.d)
    | p => .done ((({ v with thr := { v.thr with
        resv := some { line := p.resvLine.2, size := szBytes f.sz, since := s.plumb, scratch := p.resvLine.1 } } } : State).spoilDests
          (allPieces l)).late [(.s f.d, BitVec.ofNat 1024 (ofLE (s.readPlace s.me .tile p (szBytes f.sz))))]
            (if s.poisoned (allPieces l) then some (s.badCause (allPieces l), s.ea f) else none)) := by
  obtain ⟨hcheck, hwaits, hregion, hsolo, hperform, hseal⟩ := hnow
  unfold loadReserve
  dsimp only
  rw [hcheck]
  dsimp only [Try.into]
  rw [if_neg (State.not_trails hsolo), hwaits]
  dsimp only
  rw [if_neg (by simp [State.lvqFull_solo hsolo, hpending]), if_neg (by simp [hregion]), if_neg (by simp [hperform, hseal]),
    if_neg (by simp [hstands]), State.dropResv_none hresv]
  have hlooked : ∀ (o : Option Resv) (w : Vec), let u : State := { s.noteAll l with thr := { (s.noteAll l).thr with resv := o } }
      (u.spoilDests (allPieces l)).copyTo (s.noteAll l).cur w = u.spoilDests (allPieces l) := fun o w =>
    State.copyTo_samePartners (s := { s.noteAll l with thr := { (s.noteAll l).thr with resv := o } }) (samePartners_spoilDests _ _)
      ((s.solo_noteAll l).trans hsolo) w
  have hplumb : (s.noteAll l).plumb = s.plumb := by rw [s.noteAll_eq l]
  dsimp only at hlooked
  rw [hlooked, hplumb]
  cases placeOf l <;> rfl

theorem loadReserve_joins {a : Nat} (hplace : placeOf l = .pa a) (hhome : s.homeFailed a = false)
    (hdrained : s.drained s.cur.t (lineOf a) = true) (hroom : s.buffersUsed s.cur.t < 16) : loadReserve s f =
    .done ((s.noteAll l).joinQueue (s.ea f) a 3 0 (szBytes f.sz) 0 0 (ordered f.ordq || (allPieces l).any fun p => p.spot.ord == 1) f.d) := by
  rw [loadReserve_eq hnow hresv hpending (by rw [hplace]; exact hhome), hplace]
  exact if_neg (by simp [hdrained, hroom])

theorem loadReserve_sram (hgood : s.poisoned (allPieces l) = false) {t b : Nat} (hplace : placeOf l = .sram t b) : let v := s.noteAll l
    loadReserve s f = .done ((({ v with thr := { v.thr with
        resv := some { line := lineOf b, size := szBytes f.sz, since := s.plumb, scratch := some t } } } : State).spoilDests
          (allPieces l)).late [(.s f.d, BitVec.ofNat 1024 (ofLE (s.sramBytes t b (szBytes f.sz))))]) := by
  dsimp only
  rw [loadReserve_eq hnow hresv hpending (by rw [hplace]; rfl), hplace, hgood]
  rfl

end

end

/-! ### Grants, releases and the end of a reservation (R273, R276) -/

section
variable {s : State} {l : Nat} {q : ResvReq} {r : List ResvReq} (hqueue : SMap.get [] s.resvq l = q :: r) (hop : q.op ≠ 3)
  (hleased : s.leased l = false) (hownable : s.ownable (s.queueAgent l) l = true)
include hqueue hop hleased hownable

theorem grantResv_head (hgranted : q.granted = false) (harrived : q.at_ ≤ s.plumb) (hseal : s.sealedLine l = false)
    (hhost : SMap.find s.hostWait l = none) (hreds : s.reds.any (fun x => x.on l && comesFirst x.time x.who q.at_ q.who) = false) :
    let t := s.inM (s.queueAgent l) l q.pid
    let w := if q.op = 4 then t else t.spoilDests [{ spot := { place := .pa q.a }, n := q.size }]
    let old : Word := BitVec.ofNat 64 (ofLE (t.homeBytes q.a q.size))
    let q' : ResvReq := { q with granted := true, since := t.plumb, old := old, new := atomicNew q.op q.fn q.size q.who.t old q.x q.y }
    anyPoison t.poison q.a q.size = false → s.grantResv l = { w with resvq := SMap.put w.resvq l (q' :: r) } := by
  intro t w old q' hgood
  unfold State.grantResv
  rw [hqueue]
  dsimp only
  rw [if_neg (by simp [hgranted, harrived.not_gt, hreds, hleased, hseal, hownable, hhost]), hhost]
  dsimp only
  rw [hgood, if_neg hop]
  rfl

theorem releaseResv_stores (hgranted : q.granted = true) {z : Word} (hnew : q.new = some z) :
    let t := (({ s with resvq := SMap.set [] s.resvq l r } : State).homeStore q.pid q.a (toLE q.size z.toNat)).spoilMem q.a q.size
    s.releaseResv l = t.answer q.who q.pend (if q.op = 4 then 0 else q.old)
      (((t.getThread q.who).pend.find? fun p => p.id == q.pend).bind (·.cond)) := by
  dsimp only
  unfold State.releaseResv
  rw [hqueue]
  dsimp only
  rw [if_neg (by simp [hgranted, hop, hleased, hownable]), hnew]

end

theorem execLrTimeout_ends {s : State} {t c i : Nat} {r : Resv} (hresv : (s.getThread ⟨t, c, i⟩).resv = some r)
    (hpast : r.since + 1024 ≤ s.plumb) : execLrTimeout t c i s = .next (s.dropResv ⟨t, c, i⟩) := by
  unfold execLrTimeout
  rw [hresv]
  exact congrArg Host.Outcome.next (if_pos hpast)

/-! ### The values that AMO and RED write (R274) -/

theorem sgn_toNat (x : Word) : sgn 64 x.toNat = x.toInt := by
  rw [sgn_eq_toInt (by decide), BitVec.ofNat_toNat, BitVec.setWidth_eq]

/-- One of two words, chosen and then cut to 64 bits. -/
theorem ite_toNat_mod {p : Prop} [Decidable p] {c : Bool} (h : p ↔ c = true) (a b : Word) :
    (if p then a.toNat else b.toNat) % 2 ^ 64 = (if c then a else b).toNat := by
  rw [if_congr h rfl rfl, ← apply_ite BitVec.toNat, Nat.mod_eq_of_lt (BitVec.isLt _)]

/-- R274, for doubles: swap, sum, and, or, xor, and the lesser and the greater of two signed and of two unsigned numbers. -/
theorem amoNew_double (tile : Nat) (a b : Word) :
    amoNew 0 8 tile a.toNat b.toNat = b.toNat ∧ amoNew 1 8 tile a.toNat b.toNat = (a + b).toNat ∧
    amoNew 2 8 tile a.toNat b.toNat = (a &&& b).toNat ∧ amoNew 3 8 tile a.toNat b.toNat = (a ||| b).toNat ∧
    amoNew 4 8 tile a.toNat b.toNat = (a ^^^ b).toNat ∧ amoNew 5 8 tile a.toNat b.toNat = (if a.slt b then a else b).toNat ∧
    amoNew 6 8 tile a.toNat b.toNat = (if a.slt b then b else a).toNat ∧ amoNew 7 8 tile a.toNat b.toNat = (if a.ult b then a else b).toNat ∧
    amoNew 8 8 tile a.toNat b.toNat = (if a.ult b then b else a).toNat := by
  have hcut : ∀ x : Word, x.toNat % 2 ^ 64 = x.toNat := fun x => Nat.mod_eq_of_lt x.isLt
  have hsgn : ∀ x : Word, sgn (8 * 8) x.toNat = x.toInt := sgn_toNat
  unfold amoNew
  dsimp only
  rw [hsgn, hsgn]
  exact ⟨hcut b, (BitVec.toNat_add a b).symm, hcut (a &&& b), hcut (a ||| b), hcut (a ^^^ b),
    ite_toNat_mod BitVec.slt_iff_toInt_lt.symm a b, ite_toNat_mod BitVec.slt_iff_toInt_lt.symm b a,
    (congrArg BitVec.toNat (ite_ult_eq_min a b)).symm, (congrArg BitVec.toNat (ite_ult_eq_max a b)).symm⟩

/-- Settles O42, from what each instruction's body and each step of a line's home come to. -/
theorem atomicsAndReservations : Obligations.AtomicsAndReservations := by
  unfold Obligations.AtomicsAndReservations
  intro s k f m l u v ea n x y mn acq
  refine ⟨fun hnow a hplace hhome hdrained hroom => ⟨?amoJoins, ?casJoins, ?red⟩,
    fun hnow a hplace hhome hdrained hroom hresv hpending => ?lrJoins,
    fun hnow hgood t b hplace => ⟨fun z hnew => ?amo, fun z hnew => ?casWrites, fun hnew => ?casKeeps⟩,
    fun hnow hgood hresv hpending t b hplace => ?lr,
    fun hnow hdrained hpending hstands => ⟨fun hbroken => ?scFails, fun hheld a hplace => ?scQueued, fun hheld t b hplace => ?scStores⟩,
    fun ln q r hqueue => ⟨fun hgranted harrived hleased hseal hownable hhost hop hreds => ?grant,
      fun hgranted hop hleased hownable z hnew => ?release⟩,
    fun t c i r hresv hpast => execLrTimeout_ends hresv hpast, amoNew_double⟩
  case amoJoins => exact becomes_of_done (exec_amo k f s) (atomic_joins (s := u) hnow hplace hhome hdrained hroom 0)
  case casJoins => exact becomes_of_done (exec_cas k f s) (atomic_joins (s := u) hnow hplace hhome hdrained hroom 1)
  case red => exact becomes_of_done (exec_red k f s) (redIssue_buffers (s := u) hnow hplace hhome hdrained hroom)
  case lrJoins =>
    exact becomes_of_done (exec_lr k m s) (loadReserve_joins (s := u) hnow hresv hpending hplace hhome hdrained hroom)
  case amo => exact becomes_of_done (exec_amo k f s) (atomic_writes (s := u) hnow hgood hplace (by decide) hnew)
  case casWrites => exact becomes_of_done (exec_cas k f s) (atomic_writes (s := u) hnow hgood hplace (by decide) hnew)
  case casKeeps => exact becomes_of_done (exec_cas k f s) (atomic_keeps (s := u) hnow hgood hplace (by decide) hnew)
  case lr => exact becomes_of_done (exec_lr k m s) (loadReserve_sram (s := u) hnow hresv hpending hgood hplace)
  case scFails => exact becomes_of_done (exec_sc k f s) (storeCond_fails (s := u) hnow hdrained hpending hstands hbroken)
  case scQueued => exact becomes_of_done (exec_sc k f s) (storeCond_queued (s := u) hnow hdrained hpending hstands hheld hplace)
  case scStores => exact becomes_of_done (exec_sc k f s) (storeCond_stores (s := u) hnow hdrained hpending hstands hheld hplace)
  case grant =>
    exact fun hgood => congrArg Host.Outcome.next (grantResv_head hqueue hop hleased hownable hgranted harrived hseal hhost hreds hgood)
  case release => exact congrArg Host.Outcome.next (releaseResv_stores hqueue hop hleased hownable hgranted hnew)

end Sys2Proof.Machine
end

section
/-! PROOFS. Dropping translations and fetch lines, parking, memory at reset, and steps that the agenda names (R99, R100, R357). -/

namespace Sys2Proof.Machine

/-! ### Steps that the agenda names -/

/-- Settles O24: the head of the agenda says which arm of the step is taken. -/
theorem stepRunsNamedEvent : Obligations.StepRunsNamedEvent := by
  unfold Obligations.StepRunsNamedEvent
  intro s r i n
  refine ⟨fun hagenda hevent => ?event, fun hagenda => ?tick⟩
  case event =>
    unfold step State.move
    rw [hagenda]
    exact if_pos hevent
  case tick =>
    unfold step State.move
    rw [hagenda]

/-- Settles O26: the map that lists nothing. -/
theorem resetMemoryCanonical : Obligations.ResetMemoryCanonical :=
  ⟨rfl, fun _ => rfl⟩

/-! ### TLBI, ICINV and PARK -/

section
variable {s : State} {f : FTlbi}

theorem tlbDrop_illop (hasid : 4096 ≤ (s.rs f.sa).toNat) : tlbDrop s f = .trap cILLOP 0 := if_pos hasid

theorem tlbDrop_done (hasid : (s.rs f.sa).toNat < 4096) (hrmw : s.thr.owesRmw = false) (hso : s.thr.owesSo = false)
    (hperf : 2 ≤ f.scope → s.performedAt s.cur.t f.scope = true) (hway : s.onTheWay f.scope s.cur.t s.ctx.pid = false)
    (huses : s.usesDropped f.scope s.cur.t s.ctx.pid (fun e => e.hit f.fn s.ctx.pid (s.rs f.sa).toNat (s.ra f.ar).toNat) = false) :
    tlbDrop s f = .done (s.allTiles fun u x =>
      if s.ownerOf u == s.ctx.pid then
        { x with tlb := x.tlb.filter fun e =>
            !(e.hit f.fn s.ctx.pid (s.rs f.sa).toNat (s.ra f.ar).toNat && inScope (e.scope f.scope) s.cur.t u) } else x) := by
  have hfree : (2 ≤ f.scope && !s.performedAt s.cur.t f.scope) = false := by
    by_cases h : 2 ≤ f.scope <;> simp [h, hperf]
  unfold tlbDrop
  dsimp only
  rw [if_neg (not_le.2 hasid), if_neg (by simp only [hrmw, hso, hfree, hway, huses]; decide)]

end

theorem dropFetch_pa {s : State} {f : FM} {x : Spot} {a : Nat} (htr : s.translate s.me .x (s.ea f) = .ok x) (hplace : x.place = .pa a) :
    dropFetch s f = .done { s with tile := { s.tile with fetched := SMap.erase s.tile.fetched (a / 64) } } := by
  unfold dropFetch
  dsimp only
  rw [htr]
  dsimp only
  rw [hplace]

section
variable {s : State} {f : FPark}

theorem park_taken {v : Word} (hretry : s.thr.retry = some v) :
    park s f = .done (({ s with thr := { s.thr with retry := none } } : State).late [(.s f.d, ofWord v)]) := by
  unfold park
  rw [hretry]

theorem park_waits (hretry : s.thr.retry = none) : park s f = .hold { s with thr := { s.thr with
    wait := .park (if s.rs f.a = 0 then none else some (s.plumb + (s.rs f.a).toNat)) } } := by
  unfold park
  rw [hretry]
  dsimp only
  simp only [BitVec.toNat_eq]
  rfl

end

/-- Settles O37, from what each instruction's body comes to. -/
theorem invalidationsAndPark : Obligations.InvalidationsAndPark := by
  unfold Obligations.InvalidationsAndPark
  intro s k f m p v
  refine ⟨fun hpriv hasid hrmw hso hperf hway huses hready q hflow => ?drop, fun hpriv hasid hready => ?illop,
    fun x a htr hplace => ?icinv, fun hretry hready => ?parks, fun hretry => ?taken⟩
  case drop =>
    rw [exec_tlbi, execTlbi]
    exact congrArg Host.Outcome.next (issue_becomes hready (needS_passed hpriv) (tlbDrop_done (s := s.begun) hasid hrmw hso hperf hway huses) hflow)
  case illop =>
    rw [exec_tlbi, execTlbi, State.issue_ready hready (needS_passed hpriv), tlbDrop_illop (s := s.begun) hasid]
    rfl
  case icinv => exact becomes_of_done (exec_icinv k m s) (dropFetch_pa htr hplace)
  case parks => exact exec_of_hold (exec_park k p s) hready (park_waits (s := s.begun) hretry)
  case taken => exact becomes_of_done (exec_park k p s) (park_taken (s := s.begun) hretry)

end Sys2Proof.Machine
end

section
/-! PROOFS. The region instructions (R50, R284, R287 to R289, R295, R297, R298, R300). -/

namespace Sys2Proof.Machine

/-! ### A line word that is fetched again keeps the thread in focus and its partners (R50) -/

section
variable (s : State)

theorem samePartners_post (r : ERec) : SamePartners s (s.post r) := by
  unfold State.post
  dsimp only
  split
  · split
    · refine SamePartners.trans ?_ (samePartners_sendRec _ _)
      exact ⟨rfl, rfl⟩
    · exact ⟨rfl, rfl⟩
  · exact ⟨rfl, rfl⟩

theorem samePartners_writeLog (k : Nat) (r : ERec) : SamePartners s (s.writeLog k r) := by
  unfold State.writeLog
  split <;> exact ⟨rfl, rfl⟩

theorem samePartners_logEvent (kind tile pid cause addr : Nat) : SamePartners s (s.logEvent kind tile pid cause addr) := by
  have logged (q : Option ERec) (n k : Nat) (r : ERec) : SamePartners s (({ s with lastErr := q, elcount := n } : State).writeLog k r) :=
    .trans (t := { s with lastErr := q, elcount := n }) ⟨rfl, rfl⟩ (samePartners_writeLog _ _ _)
  unfold State.logEvent
  dsimp only
  split
  · exact logged _ _ _ _
  · split
    · exact (logged _ _ _ _).trans (samePartners_post _ _)
    · exact logged _ _ _ _

theorem samePartners_leak (kind id : Nat) : SamePartners s (s.leak kind id) := by
  unfold State.leak
  dsimp only
  split <;> exact ⟨rfl, rfl⟩

theorem samePartners_errCounted (kind id : Nat) : SamePartners s (s.errCounted kind id) :=
  ((samePartners_leak s kind id).trans (u := { s.leak kind id with
      buckets := SMap.set 0 (s.leak kind id).buckets (bucketNo kind id) (s.fill kind id + 1) })
    ⟨rfl, rfl⟩).trans (samePartners_logEvent _ _ _ _ _ _)

theorem samePartners_errForeseen (kind id : Nat) : SamePartners s (s.errForeseen kind id) :=
  (samePartners_errCounted s kind id).trans (samePartners_logEvent _ _ _ _ _ _)

theorem samePartners_correctable (kind id : Nat) : SamePartners s (s.correctable kind id) := by
  unfold State.correctable
  dsimp only
  split
  · refine (samePartners_errForeseen s kind id).trans ?_
    split
    · exact ⟨rfl, rfl⟩
    · split <;> exact ⟨rfl, rfl⟩
  · exact samePartners_errCounted s kind id

theorem samePartners_noteFetch (a : Addr) : SamePartners s (s.noteFetch a) := by
  unfold State.noteFetch
  split
  · exact (samePartners_noteTlb s _ _).trans ⟨rfl, rfl⟩
  · exact .refl s

theorem samePartners_dropLine (a : Addr) : SamePartners s (s.dropLine a) := by
  unfold State.dropLine
  split <;> exact ⟨rfl, rfl⟩

theorem samePartners_wordSeen (a : Addr) : SamePartners s (s.wordSeen a) := by
  unfold State.wordSeen
  dsimp only
  split
  · exact .refl s
  · split
    · split
      · exact ((samePartners_dropLine s a).trans (samePartners_correctable _ _ _)).trans (samePartners_noteFetch _ _)
      · exact samePartners_dropLine s a
    · exact samePartners_dropLine s a

end

/-! ### RBEGIN (R298, R300) -/

section
variable {s : State} {f : FRegion} {tgt : Addr} (htgt : targetB s.thr.pc (bits f.imm 3 29) (bits f.imm 0 3) = tgt)
  (hsolo : s.solo = true) (htarget : s.target tgt = none) (hfenced : (s.wordSeen tgt).fenced = true)
include htgt hsolo htarget hfenced

theorem beginR_fenced : beginR s f =
    let v := s.wordSeen tgt
    let die := v.getDie (dieOf s.cur.t)
    if die.token = some s.cur then .done (v.beginRegion (f.fn == 1) tgt (some (die.pmax + 1)))
    else if s.ctx.rlimit ≤ bits s.thr.rcnt.toNat 0 8 then .hold { v with thr := { v.thr with wait := .token } }
    else if die.token.isSome then .hold v.held_
    else .done (v.beginRegion (f.fn == 1) tgt none) := by
  have hnoted := noted_wordSeen s tgt
  have htrails : (s.wordSeen tgt).trails = false := by
    unfold State.trails
    rw [hnoted.thr]
    exact (State.solo_iff hsolo).1
  unfold beginR
  dsimp only
  rw [htgt, htarget]
  dsimp only
  rw [htrails, hfenced, (samePartners_wordSeen s tgt).cur, hnoted.thr, hnoted.ctx]
  rfl

theorem beginR_irrevocable (htoken : ((s.wordSeen tgt).getDie (dieOf s.cur.t)).token = some s.cur) : beginR s f =
    .done ((s.wordSeen tgt).beginRegion (f.fn == 1) tgt (some (((s.wordSeen tgt).getDie (dieOf s.cur.t)).pmax + 1))) :=
  (beginR_fenced htgt hsolo htarget hfenced).trans (if_pos htoken)

theorem beginR_waits (htoken : ((s.wordSeen tgt).getDie (dieOf s.cur.t)).token ≠ some s.cur)
    (hlimit : s.ctx.rlimit ≤ bits s.thr.rcnt.toNat 0 8) :
    beginR s f = .hold { s.wordSeen tgt with thr := { (s.wordSeen tgt).thr with wait := .token } } :=
  (beginR_fenced htgt hsolo htarget hfenced).trans ((if_neg htoken).trans (if_pos hlimit))

theorem beginR_begins (htoken : ((s.wordSeen tgt).getDie (dieOf s.cur.t)).token = none)
    (hlimit : bits s.thr.rcnt.toNat 0 8 < s.ctx.rlimit) :
    beginR s f = .done ((s.wordSeen tgt).beginRegion (f.fn == 1) tgt none) := by
  refine (beginR_fenced htgt hsolo htarget hfenced).trans ((if_neg ?_).trans ((if_neg hlimit.not_ge).trans (if_neg ?_)))
  · simp [htoken]
  · simp [htoken]

end

theorem rstatWord_active (e i : Bool) :
    rstatWord 0 1 (b2n e) (b2n i) 0 = BitVec.ofNat 64 (2 ^ 4 + b2n e * 2 ^ 5 + b2n i * 2 ^ 6) := by
  cases e <;> cases i <;> rfl

/-! ### RCOMMIT and RABORT (R295, R298, R300) -/

section
variable {s : State} {r : Region} (hregion : s.thr.region = some r)
include hregion

theorem commitR_irr (hirr : r.irr = true) (hpend : s.thr.pend = []) (hdrained : s.dieDrained s.cur.t = true) :
    commitR s = .done (s.endIrr s.cur 0 0) := by
  unfold commitR
  rw [hregion]
  dsimp only
  rw [if_pos hirr, if_pos (by rw [hpend, hdrained]; rfl)]

variable (hirr : r.irr = false)
include hirr

theorem commitR_empty (hsealing : r.sealing = none) (hquiet : s.quiet = true) (hbounds : s.thr.rlo.toNat ≤ s.thr.rhi.toNat)
    (hreads : r.reads = []) (hwrites : r.writes = []) : commitR s = .done (s.committedAt s.thr.rlo.toNat) := by
  unfold commitR
  rw [hregion]
  dsimp only
  rw [if_neg (by simp [hirr]), hsealing]
  dsimp only
  rw [if_neg (by simp [hquiet]), if_neg hbounds.not_gt, if_pos (by rw [hreads, hwrites]; rfl)]

theorem commitR_told {got : List Nat} (hsealing : r.sealing = some got) (hrefused : r.refused = false)
    (hlines : ∀ l ∈ r.reads ++ r.writes, l ∈ got ∧ l ∈ r.told) : commitR s = .done (s.committedAt s.thr.rlo.toNat) := by
  have hgot : (r.reads ++ r.writes).all got.contains = true :=
    List.all_eq_true.2 fun l hl => List.contains_iff_mem.2 (hlines l hl).1
  have htold : (r.reads ++ r.writes).all r.told.contains = true :=
    List.all_eq_true.2 fun l hl => List.contains_iff_mem.2 (hlines l hl).2
  unfold commitR
  rw [hregion]
  dsimp only
  rw [if_neg (by simp [hirr]), hsealing]
  dsimp only
  rw [if_neg (by simp [hgot]), if_neg (by simp [hrefused]), if_pos htold]

theorem abortR_aborts (hpend : s.thr.pend = []) (f : FRegion) : abortR s f = .end_ (s.abortRegion s.cur 6 (bits f.imm 0 8)) := by
  unfold abortR
  rw [hregion]
  dsimp only
  rw [if_neg (by simp [hirr]), if_pos (by rw [hpend]; rfl)]

end

theorem commitR_outside {s : State} (hregion : s.thr.region = none) (hsolo : s.solo = true) : commitR s = .trap cILLOP 0 := by
  unfold commitR
  rw [hregion]
  exact if_neg (State.not_trails hsolo)

theorem abortR_outside {s : State} (hregion : s.thr.region = none) (f : FRegion) : abortR s f = .done s := by
  unfold abortR
  rw [hregion]

/-- What an abort leaves of the thread in focus. -/
theorem State.thr_abortRegion {s : State} {r : Region} (hregion : s.thr.region = some r) (cause tc : Nat) :
    (s.abortRegion s.cur cause tc).thr = { s.thr.restore r.check with
      pend := [], defer := [], wait := .none, retry := none, region := none, pc := r.target, young := false
      mcont := false, mrun := none, rill := cause == 8, rcnt := rcntUp s.thr.rcnt
      rstat := rstatWord cause 0 (rstatCls s.thr.rstat) (rstatIrr s.thr.rstat) tc } := by
  have hfocus : s.getThread s.cur = s.thr := if_pos rfl
  unfold State.abortRegion
  rw [hfocus]
  dsimp only
  rw [hregion]
  exact congrArg State.thr (if_pos rfl)

@[simp] theorem State.mem_abortRegion (s : State) (k : Key) (cause tc : Nat) : (s.abortRegion k cause tc).mem = s.mem := by
  unfold State.abortRegion State.setThread
  dsimp only
  split
  · rfl
  · split <;> rfl

/-- The cause and the code that an outcome word of a region that has ended holds (R289). -/
theorem bits_rstatWord {cause cls irr tc : Nat} (hcause : cause < 16) (hcls : cls < 2) (hirr : irr < 2) :
    bits (rstatWord cause 0 cls irr tc).toNat 0 4 = cause ∧ bits (rstatWord cause 0 cls irr tc).toNat 8 8 = tc % 256 := by
  have hword : (rstatWord cause 0 cls irr tc).toNat = cause + cls * 2 ^ 5 + irr * 2 ^ 6 + tc % 256 * 2 ^ 8 := by
    unfold rstatWord fields
    simp only [List.foldl_cons, List.foldl_nil, BitVec.toNat_ofNat]
    omega
  rw [hword]
  unfold bits
  omega

theorem bits_lt (x lo n : Nat) : bits x lo n < 2 ^ n := Nat.mod_lt _ (Nat.two_pow_pos n)

/-! ### RSTAT and RPOS (R300) -/

section
variable {s : State} (hsolo : s.solo = true)
include hsolo

theorem readRstat_done (f : FRegion) : readRstat s f = .done ((s.ws f.d s.thr.rstat).wp f.pd (s.thr.rstat.getLsbD 4)) := by
  have hflag : (ofWord s.thr.rstat).getLsbD 4 = s.thr.rstat.getLsbD 4 := by simp [ofWord]
  have hword : (ofWord s.thr.rstat).setWidth 64 = s.thr.rstat := by simp [ofWord]
  unfold readRstat
  dsimp only
  rw [if_neg (State.not_trails hsolo), State.lvqFull_solo hsolo, State.copyTo_solo hsolo, hflag, hword]
  rfl

theorem twoWords_solo (f : FRegion) (x y : Word) : twoWords s f x y = .done (s.late [(.s f.d, ofWord x), (.s f.e, ofWord y)]) := by
  unfold twoWords
  rw [State.copyTo_solo hsolo]

theorem readBounds_done (hquiet : s.thr.region = none ∨ s.quiet = true) (f : FRegion) :
    readBounds s f = .done (s.late [(.s f.d, ofWord s.thr.rlo), (.s f.e, ofWord s.thr.rhi)]) := by
  unfold readBounds
  rw [if_neg (State.not_trails hsolo), if_neg, twoWords_solo hsolo]
  rcases hquiet with h | h <;> simp [h, State.lvqFull_solo hsolo]

theorem readPositions_done {f : FRegion} {l : List (Addr × List Piece)} {a : Nat} (hcheck : s.checkAll .r 1 [(s.ra f.ar 2, 1)] = .ok l)
    (hwaits : s.waits l = none) (haddr : (placeOf l).regionAddr = some a) : readPositions s f =
    let die := s.getDie (dieOf s.cur.t)
    .done (s.late [(.s f.d, ofWord (BitVec.ofNat 64 (die.wposOf (lineOf a)))), (.s f.e, ofWord (BitVec.ofNat 64 (die.rposOf (lineOf a))))]) := by
  unfold readPositions
  dsimp only
  rw [hcheck]
  dsimp only [Try.into]
  rw [if_neg (State.not_trails hsolo), hwaits, State.lvqFull_solo hsolo, haddr]
  exact twoWords_solo hsolo f _ _

end

/-- Settles O44, from what each instruction's body comes to. -/
theorem regionInstructions : Obligations.RegionInstructions := by
  unfold Obligations.RegionInstructions
  intro s k f r u die tgt v dv hsolo
  have hu : u.solo = true := hsolo
  refine ⟨fun htarget hfenced => ⟨fun htoken hlimit => ?begins, fun htoken => ?irrevocable, fun htoken hlimit hready => ?waits⟩,
    fun e i => ?begun, fun hregion hirr hsealing hquiet hbounds hreads hwrites => ?empty, fun got hregion hirr hsealing hrefused hlines => ?told,
    fun hregion hirr hpend hdrained => ?ends, fun hregion hready => ?illop, fun hregion hready hflow => ?nothing,
    fun hregion hirr hpend hready => ?aborts, ?rstat, fun hquiet => ?bounds, fun l a hcheck hwaits haddr => ?positions⟩
  case begins => exact becomes_of_done (exec_rbegin k f s) (beginR_begins (s := u) rfl hu htarget hfenced htoken hlimit)
  case irrevocable => exact becomes_of_done (exec_rbegin k f s) (beginR_irrevocable (s := u) rfl hu htarget hfenced htoken)
  case waits => exact exec_of_hold (exec_rbegin k f s) hready (beginR_waits (s := u) rfl hu htarget hfenced htoken hlimit)
  case begun => exact ⟨rfl, rfl, rfl, rfl, rstatWord_active e i.isSome⟩
  case empty =>
    exact becomes_of_done (exec_rcommit k f s) (commitR_empty (s := u) hregion hirr hsealing hquiet hbounds hreads hwrites)
  case told => exact becomes_of_done (exec_rcommit k f s) (commitR_told (s := u) hregion hirr hsealing hrefused hlines)
  case ends => exact becomes_of_done (exec_rcommit k f s) (commitR_irr (s := u) hregion hirr hpend hdrained)
  case illop => exact run_trap (body := commitR) hready (commitR_outside (s := u) hregion hu)
  case nothing => 
    obtain ⟨p, hp⟩ := Option.isSome_iff_exists.1 hflow
    exact run_kept hready hp (abortR_outside (s := u) hregion f)
  case aborts =>
    have hexec := exec_of_end (exec_rabort k f s) hready (abortR_aborts (s := u) hregion hirr hpend f)
    have hthr := State.thr_abortRegion (s := u) hregion 6 (bits f.imm 0 8)
    obtain ⟨hcause, hcode⟩ := bits_rstatWord (cause := 6) (tc := bits f.imm 0 8) (by decide) (bits_lt u.thr.rstat.toNat 5 1)
      (bits_lt u.thr.rstat.toNat 6 1)
    refine ⟨_, hexec, ?_⟩
    dsimp only [State.thr_tickFresh, State.mem_tickFresh]
    rw [hthr]
    exact ⟨rfl, rfl, rfl, rfl, rfl, rfl, rfl, rfl, rfl, State.mem_abortRegion u _ _ _, hcause,
      hcode.trans (Nat.mod_eq_of_lt (bits_lt f.imm 0 8))⟩
  case rstat => exact becomes_of_done (exec_rstat k f s) (readRstat_done hu f)
  case bounds => exact becomes_of_done (exec_rposB k f s) (readBounds_done hu hquiet f)
  case positions => exact becomes_of_done (exec_rposL k f s) (readPositions_done hu hcheck hwaits haddr)

end Sys2Proof.Machine
end

section
/-! PROOFS. The steps of slices, tiles and tokens for regions (R290, R292, R295, R298). -/

namespace Sys2Proof.Machine

/-! ### Narrowing messages (R290, R292) -/

section
variable {s : State} {n : Nat} {m : Narrow} (hmsg : s.narrows[n]? = some m)
include hmsg

theorem State.applyNarrow_narrows (hanswers : s.silent m.who.k.t = false) (howner : s.ownerOf m.who.k.t = m.pid) : s.applyNarrow n =
    ({ s with narrows := s.narrows.eraseIdx n } : State).modThread m.who.k fun y =>
      if y.rseq.toNat = m.who.seq then y.narrow m.lo m.hi else y := by
  unfold State.applyNarrow
  rw [hmsg]
  dsimp only
  rw [if_neg (by simp [hanswers]), if_neg (not_not.2 howner)]

theorem State.applyNarrow_lost (hsilent : s.silent m.who.k.t = true) (hother : m.who ≠ m.cause)
    (hknows : (s.getDie (dieOf m.cause.k.t)).knows.contains m.who.k.t = true) : s.applyNarrow n =
    ({ s with narrows := s.narrows.eraseIdx n } : State).modThread m.cause.k fun y =>
      if y.rseq.toNat = m.cause.seq then y.markRegion 9 else y := by
  unfold State.applyNarrow
  rw [hmsg]
  dsimp only
  rw [if_pos (by simp [hsilent, hother]), if_pos hknows]
  rfl

end

/-! ### Accesses, seals, final positions and aborts of a region (R292, R295, R298) -/

theorem Region.touches_of_mem {r : Region} {line : Nat} (hline : line ∈ r.reads ∨ line ∈ r.writes) : r.touches line = true := by
  simpa [Region.touches] using hline

section
variable {s : State} {t c i line : Nat} {r : Region} (hregion : (s.getThread ⟨t, c, i⟩).region = some r)
include hregion

theorem exec_regionAccessAtSlice_read (hdoom : r.doom = none) (hsealing : r.sealing = none) (hline : line ∈ r.reads)
    (hnew : ((s.getDie (dieOf t)).parties.any fun p => p.who == s.regId ⟨t, c, i⟩ && p.line == line && p.ld) = false) :
    exec (.regionAccessAtSlice t c i line 0) s = .next (s.sliceAccess ⟨t, c, i⟩ line false) := by
  rw [exec_regionAccessAtSlice, execRegionAccessAtSlice]
  rw [hregion]
  exact congrArg Host.Outcome.next (if_pos ⟨List.contains_iff_mem.2 hline, hsealing, hdoom, hnew⟩)

theorem exec_regionAccessAtSlice_write (hdoom : r.doom = none) (hsealing : r.sealing = none) (hline : line ∈ r.writes)
    (hnew : ((s.getDie (dieOf t)).parties.any fun p => p.who == s.regId ⟨t, c, i⟩ && p.line == line && p.st) = false) :
    exec (.regionAccessAtSlice t c i line 1) s = .next (s.sliceAccess ⟨t, c, i⟩ line true) := by
  rw [exec_regionAccessAtSlice, execRegionAccessAtSlice]
  rw [hregion]
  exact congrArg Host.Outcome.next (if_pos ⟨List.contains_iff_mem.2 hline, hsealing, hdoom, hnew⟩)

theorem exec_regionAbort_decided {cause tc : Nat} (hdoom : r.doom = some (cause, tc)) (hpend : (s.getThread ⟨t, c, i⟩).pend = []) :
    exec (.regionAbort t c i cause tc) s = .next (s.abortRegion ⟨t, c, i⟩ cause tc) := by
  rw [exec_regionAbort, execRegionAbort]
  rw [hregion]
  exact congrArg Host.Outcome.next (if_pos ⟨hdoom, hpend⟩)

variable (hline : line ∈ r.reads ∨ line ∈ r.writes)
include hline

theorem exec_sealAtSlice_touched (hdoom : r.doom = none) :
    exec (.sealAtSlice t c i line) s = .next (s.sealLine ⟨t, c, i⟩ line) := by
  rw [exec_sealAtSlice, execSealAtSlice]
  rw [hregion]
  exact congrArg Host.Outcome.next (if_pos ⟨Region.touches_of_mem hline, hdoom⟩)

theorem exec_finalPositionBroadcast_committed (hcommitted : r.committed = true) (hirr : r.irr = false) :
    exec (.finalPositionBroadcast t c i line) s = .next (s.finalLine ⟨t, c, i⟩ line) := by
  rw [exec_finalPositionBroadcast, execFinalPositionBroadcast]
  rw [hregion]
  exact congrArg Host.Outcome.next (if_pos (by rw [Region.touches_of_mem hline, hcommitted, hirr]; rfl))

end

/-! ### The die's token (R298) -/

theorem exec_tokenGrant_free {s : State} {t c i : Nat} (hwait : (s.getThread ⟨t, c, i⟩).wait = .token)
    (htoken : (s.getDie (dieOf t)).token = none)
    (hends : ∀ j ∈ s.regionsOn (dieOf t), (s.getThread j).region.any (·.committed) = false) :
    exec (.tokenGrant t c i) s = .next ((s.regionsOn (dieOf t)).foldl (fun s j => s.modThread j fun y => y.markRegion 10)
      (s.modDie (dieOf t) fun y => { y with token := some ⟨t, c, i⟩ })) := by
  rw [exec_tokenGrant, execTokenGrant]
  exact congrArg Host.Outcome.next (if_pos ⟨hwait, htoken, List.all_eq_true.2 fun j hj => by rw [hends j hj]; rfl⟩)

/-- Settles O53, each step by its own lemma. -/
theorem regionStepsHappen : Obligations.RegionStepsHappen := by
  unfold Obligations.RegionStepsHappen
  intro s t c i line n k x
  refine ⟨fun m hmsg => ⟨fun hanswers howner => ?narrows, fun hsilent hother hknows => ?lost⟩,
    fun r hregion => ⟨fun hdoom hsealing => ⟨fun hline hnew => ?reads, fun hline hnew => ?writes⟩, fun hdoom hline => ?seals,
      fun hline hcommitted hirr => ?final, fun cause tc hdoom hpend => ?aborts⟩,
    fun hwait htoken hnone => ?alone, fun j r hwait htoken hone hregion hcommitted => ?yields⟩
  case narrows => exact congrArg Host.Outcome.next (State.applyNarrow_narrows hmsg hanswers howner)
  case lost => exact congrArg Host.Outcome.next (State.applyNarrow_lost hmsg hsilent hother hknows)
  case reads => exact exec_regionAccessAtSlice_read hregion hdoom hsealing hline hnew
  case writes => exact exec_regionAccessAtSlice_write hregion hdoom hsealing hline hnew
  case seals => exact exec_sealAtSlice_touched hregion hline hdoom
  case final => exact exec_finalPositionBroadcast_committed hregion hline hcommitted hirr
  case aborts => exact exec_regionAbort_decided hregion hdoom hpend
  case alone =>
    rw [exec_tokenGrant_free hwait htoken (by rw [hnone]; exact fun _ h => absurd h List.not_mem_nil), hnone]
    rfl
  case yields =>
    have hends : ∀ q ∈ s.regionsOn (dieOf t), (s.getThread q).region.any (·.committed) = false := by
      rw [hone]
      intro q hq
      rw [List.mem_singleton.1 hq, hregion]
      exact hcommitted
    rw [exec_tokenGrant_free hwait htoken hends, hone]
    rfl

end Sys2Proof.Machine
end

section
/-! PROOFS. Task instructions (R316 to R328). -/

namespace Sys2Proof.Machine

/-! ### Writes that scheduling makes keep the thread in focus and its partners -/

section
variable (s : State)

theorem samePartners_modPart (p : Nat) (f : Partn → Partn) : SamePartners s (s.modPart p f) := samePartners_setPart s p _

theorem samePartners_modDie (d : Nat) (f : Die → Die) : SamePartners s (s.modDie d f) := ⟨rfl, rfl⟩

theorem samePartners_modLaunch (p l : Nat) (f : Launch → Launch) : SamePartners s (s.modLaunch p l f) := by
  unfold State.modLaunch
  split
  · exact .refl s
  · exact samePartners_modPart s p _

theorem samePartners_homeWrite (pid a : Nat) (bs : List Byte) : SamePartners s (s.homeWrite pid a bs) := by
  have hmerge : SamePartners s ((linePieces a bs).foldl (fun s p =>
      let ag := s.queueAgent (lineOf p.1)
      let s := if (s.held ag (lineOf p.1)).any fun h => h.st == .m then s else s.takeM ag (lineOf p.1) pid
      (s.dropCopies (lineOf p.1)).mergeHeld ag { a := p.1, bytes := p.2, pid := pid, tile := 0 }) s) := by
    refine samePartners_foldl (fun t p => SamePartners.trans ?_ (samePartners_mergeHeld _ _ _)) _ s
    split
    · exact .trans (.refl t) ⟨rfl, rfl⟩
    · exact (samePartners_takeM t _ _ pid []).trans ⟨rfl, rfl⟩
  refine hmerge.trans (SamePartners.trans (samePartners_foldl (fun r p => ?_) (linePieces a bs) _) ⟨rfl, rfl⟩)
  exact ⟨rfl, rfl⟩

theorem samePartners_homeStore (pid a : Nat) (bs : List Byte) : SamePartners s (s.homeStore pid a bs) := by
  refine ((samePartners_foldl (fun t p => ?_) (linePieces a bs) s).trans (samePartners_homeWrite _ pid a bs)).trans
    (samePartners_foldl (fun r p => ?_) (linePieces a bs) _)
  · exact samePartners_inM t _ _ pid
  · exact ⟨rfl, rfl⟩

theorem samePartners_spoilMmas (pid node : Nat) : SamePartners s (s.spoilMmas pid node) := ⟨rfl, rfl⟩

theorem samePartners_linPut (pid node off : Nat) (bs : List Byte) {t : State} (ht : s.linPut pid node off bs = some t) :
    SamePartners s t := by
  obtain ⟨q, -, rfl⟩ := Option.map_eq_some_iff.1 ht
  refine (((samePartners_setPart s pid q).trans (samePartners_spoilMmas _ pid node)).trans
    (samePartners_foldl (fun _ _ => ?_) _ _)).trans (samePartners_spoilSources _ _ _)
  exact ⟨rfl, rfl⟩

theorem samePartners_queueWrite (p q i v : Nat) (fromS : Bool) : SamePartners s (s.queueWrite p q i v fromS) := by
  unfold State.queueWrite State.queueWrite0 State.queueTail
  dsimp only
  (repeat' split) <;> exact ⟨rfl, rfl⟩

theorem samePartners_mailbox (v : Nat) : SamePartners s (s.mailbox v) := by
  unfold State.mailbox
  dsimp only
  split
  · exact .refl s
  · split <;> exact ⟨rfl, rfl⟩

theorem samePartners_ringWrite0 (p v : Nat) : SamePartners s (s.ringWrite0 p v) := by
  unfold State.ringWrite0
  dsimp only
  split
  · exact .refl s
  · refine SamePartners.trans ?_ (samePartners_modPart _ p _)
    split
    · exact ⟨rfl, rfl⟩
    · exact .refl s

theorem samePartners_ringHead (p v : Nat) : SamePartners s (s.ringHead p v) := by
  unfold State.ringHead
  dsimp only
  split
  · exact .refl s
  · exact samePartners_modPart s p _

theorem samePartners_devWriteDouble (view off v : Nat) : SamePartners s (s.devWriteDouble view off v) := by
  unfold State.devWriteDouble
  dsimp only
  split
  · split
    · exact samePartners_queueWrite s _ _ _ v _
    · exact .refl s
  split
  · split
    · exact samePartners_mailbox s v
    · exact ⟨rfl, rfl⟩
    · exact ⟨rfl, rfl⟩
    · exact .refl s
  split
  · split
    · split
      · exact samePartners_ringWrite0 s _ v
      · exact samePartners_ringHead s _ v
      · exact .refl s
    · exact .refl s
  · exact .refl s

theorem samePartners_devWrite (view off : Nat) (bs : List Byte) : SamePartners s (s.devWrite view off bs) := by
  refine samePartners_foldl (fun t j => ?_) _ s
  dsimp only
  split
  · exact .refl t
  · exact samePartners_devWriteDouble t _ _ _

theorem samePartners_homePut (pid : Nat) (p : Place) (bs : List Byte) : SamePartners s ((s.homePut pid p bs).getD s) := by
  cases p with
  | pa a => exact samePartners_homeStore s pid a bs
  | lin q node off pad =>
    cases ht : s.linPut q node off bs with
    | none => simpa [State.homePut, ht] using .refl s
    | some t => simpa [State.homePut, ht] using samePartners_linPut s q node off bs ht
  | dev off => exact samePartners_devWrite s pid off bs
  | sram t b => exact samePartners_sramWrite s t b bs
  | linPad | linNone | away => exact .refl s

theorem samePartners_pushEntry (t : Nat) (e : Entry) : SamePartners s (s.pushEntry t e) := by
  unfold State.pushEntry
  dsimp only
  split
  · exact samePartners_modTile s t _
  · exact samePartners_modDie s _ _

theorem samePartners_createTask (p l : Nat) (x : Launch) (at_ : Place) (bs : List Byte) (a : Addr) (origin t : Nat) (extra : Extra) :
    SamePartners s (s.createTask p l x at_ bs a origin t extra) := by
  unfold State.createTask
  dsimp only
  split
  · exact ((samePartners_homePut s p at_ _).trans (samePartners_modLaunch _ p l _)).trans (samePartners_pushEntry _ t _)
  · exact (samePartners_homePut s p at_ _).trans (samePartners_modLaunch _ p l _)

theorem samePartners_signalTask (p l : Nat) (at_ : Place) (bs : List Byte) (a : Addr) (n t : Nat) :
    SamePartners s (s.signalTask p l at_ bs a n t) := by
  unfold State.signalTask
  dsimp only
  split
  · exact (samePartners_homePut s p at_ _).trans (samePartners_pushEntry _ t _)
  · exact samePartners_homePut s p at_ _

theorem samePartners_tcbPut (p : Nat) (l : Launch) (a : Addr) (off : Nat) (bs : List Byte) : SamePartners s (s.tcbPut p l a off bs) := by
  unfold State.tcbPut State.sysWrite
  cases s.sysPlace p l.ptbr.toNat .w (a.toNat + off) with
  | error c => exact .refl s
  | ok q =>
    have hput := samePartners_homePut s p q bs
    cases ht : s.homePut p q bs with
    | none => simpa [ht] using .refl s
    | some t => simpa [ht] using hput

theorem samePartners_endTask (p l : Nat) (a : Addr) (t status outcome : Nat) :
    SamePartners s (s.endTask p l a t status outcome) := by
  unfold State.endTask
  split
  · exact .refl s
  · exact (samePartners_tcbPut s p _ a 6 _).trans (samePartners_modLaunch _ p l _)

theorem samePartners_dropEntries (p l : Nat) (a : Addr) : SamePartners s (s.dropEntries p l a) := ⟨rfl, rfl⟩

end

/-! ### The block that an instruction names -/

theorem withTcb_misaligned {s : State} {a : Addr} (halign : a.toNat % 64 ≠ 0) (g : Launch → Place → List Byte → Res) :
    withTcb s a g = .trap cMISALIGN a := if_pos halign

theorem withTcb_outside {s : State} {a : Addr} {l : Launch} (halign : a.toNat % 64 = 0) (hlaunch : s.myLaunch = some l)
    (hout : a.toNat < l.tcbbase ∨ l.tcbbase + 64 * l.tcblen ≤ a.toNat) (g : Launch → Place → List Byte → Res) :
    withTcb s a g = .trap cPERM a := by
  unfold withTcb
  rw [if_neg (not_not.2 halign), hlaunch]
  exact if_pos hout

theorem withTcb_now {s : State} {a : Addr} {l : Launch} {p : Place} {bs : List Byte} (hnow : TcbNow s a l p bs)
    (g : Launch → Place → List Byte → Res) : withTcb s a g = g l p bs := by
  obtain ⟨halign, hlaunch, hlow, hhigh, ps, hcheck, hwaits, rfl, hhome, rfl⟩ := hnow
  unfold withTcb
  rw [if_neg (not_not.2 halign), hlaunch]
  dsimp only
  rw [if_neg (by omega), hcheck]
  dsimp only [Try.into]
  rw [hwaits]
  refine if_neg ?_
  cases hplace : placeOf ps with
  | pa x => simp [hhome x hplace]
  | _ => exact Bool.false_ne_true

/-! ### What the instructions share -/

/-- What the creation of a task waits for (R316): everything older performed, no message on its way to the tile, room in its deque for
a task that is ready at once, and the line of its entry word at rest. -/
def TaskRoom (s : State) (l : Launch) (t : Nat) (bs : List Byte) : Prop :=
  s.released 3 = true ∧ s.chanFree s.cur.t t = true ∧ (tcbDepc bs ≠ 0 ∨ s.readyRoom t = true) ∧
    s.sysHeld s.ctx.pid l.ptbr.toNat (l.codebase + tcbEntry bs) 64 = false

section
variable {s : State} (hsolo : s.solo = true)
include hsolo

theorem taskGive_none {t : State} (hpartners : SamePartners s t) (v : Nat) : taskGive t none v = .done (t.late []) := by
  unfold taskGive
  rw [hpartners.cur, State.copyTo_samePartners hpartners hsolo]

theorem compare_into_solo (a : Addr) (item : List Nat) (g : State → Res) : (s.compare a item).into g = g s := by
  rw [State.compare_solo hsolo]
  rfl

theorem create_room {l : Launch} {t : Nat} {bs : List Byte} (hroom : TaskRoom s l t bs) (item : List Nat) (p : Place) (a : Addr)
    (extra : Extra) (d : Option Nat) : create s item l p bs a t extra d =
      taskGive (s.createTask s.ctx.pid s.ctx.launch l p bs a s.ctx.vtile t extra) d l.nextSeq := by
  obtain ⟨hreleased, hchan, hready, hheld⟩ := hroom
  have hfull : (tcbDepc bs == 0 && !s.readyRoom t) = false := by
    cases hready with
    | inl hdepc => simp [hdepc]
    | inr hready => simp [hready]
  unfold create
  rw [hreleased, hchan, hfull, hheld, compare_into_solo hsolo]
  rfl

/-! ### SPAWN, CALLAT and FORKB -/

section
variable {f : FRR}

theorem spawn_eq : spawn s f = withTcb s (s.ra f.a) fun l p bs =>
    if tcbBad bs then .trap cILLOP 0 else create s [0x093, (s.ra f.a).toNat] l p bs (s.ra f.a) s.cur.t {} (some f.d) := by
  unfold spawn
  exact taskTrail_solo hsolo _ _ _

theorem spawn_misaligned (halign : (s.ra f.a).toNat % 64 ≠ 0) : spawn s f = .trap cMISALIGN (s.ra f.a) :=
  (spawn_eq hsolo).trans (withTcb_misaligned halign _)

theorem spawn_outside {l : Launch} (halign : (s.ra f.a).toNat % 64 = 0) (hlaunch : s.myLaunch = some l)
    (hout : (s.ra f.a).toNat < l.tcbbase ∨ l.tcbbase + 64 * l.tcblen ≤ (s.ra f.a).toNat) : spawn s f = .trap cPERM (s.ra f.a) :=
  (spawn_eq hsolo).trans (withTcb_outside halign hlaunch hout _)

section
variable {l : Launch} {p : Place} {bs : List Byte} (hnow : TcbNow s (s.ra f.a) l p bs)
include hnow

theorem spawn_bad (hbad : tcbBad bs = true) : spawn s f = .trap cILLOP 0 :=
  ((spawn_eq hsolo).trans (withTcb_now hnow _)).trans (if_pos hbad)

theorem spawn_creates (hgood : tcbBad bs = false) (hroom : TaskRoom s l s.cur.t bs) : spawn s f =
    .done ((s.createTask s.ctx.pid s.ctx.launch l p bs (s.ra f.a) s.ctx.vtile s.cur.t {}).late
      [(.s f.d, BitVec.ofNat 1024 (l.nextSeq % 2 ^ 64))]) := by
  refine ((spawn_eq hsolo).trans (withTcb_now hnow _)).trans ?_
  rw [hgood, create_room hsolo hroom, taskGive_solo hsolo (samePartners_createTask s _ _ _ _ _ _ _ _ _)]
  rfl

end

end

theorem callat_creates {f : FCallat} {l : Launch} {p : Place} {bs : List Byte} (hnow : TcbNow s (s.ra f.c 7) l p bs)
    (hgood : tcbBad bs = false) (hreserved : bits (s.rs f.t).toNat 12 20 = 0) (hset : inSet l.tset ((s.rs f.t).toNat % 4096) = true)
    (hroom : TaskRoom s l ((s.rs f.t).toNat % 4096)
      (overBytes (withArgs bs ((List.range 4).map fun j => s.rs (f.a + j) (1 + j))) 40 (toLE 4 0))) :
    callat s f = .done ((s.createTask s.ctx.pid s.ctx.launch l p
      (overBytes (withArgs bs ((List.range 4).map fun j => s.rs (f.a + j) (1 + j))) 40 (toLE 4 0)) (s.ra f.c 7) s.ctx.vtile
      ((s.rs f.t).toNat % 4096)
      { caller := some { tile := s.ctx.vtile, launch := s.ctx.launch, seq := s.ctx.seq, tag := bits (s.rs f.t).toNat 32 32 } }).late
        []) := by
  unfold callat
  dsimp only
  rw [taskTrail_solo hsolo, withTcb_now hnow, hgood, hset]
  refine (if_neg Bool.false_ne_true).trans ((if_neg (not_not.2 hreserved)).trans ((if_neg Bool.false_ne_true).trans ?_))
  rw [create_room hsolo hroom, taskGive_none hsolo (samePartners_createTask s _ _ _ _ _ _ _ _ _)]

theorem State.solo_wordSeen (t : Addr) : (s.wordSeen t).solo = true := by
  unfold State.solo State.trails State.trailed
  rw [(noted_wordSeen s t).thr, (noted_wordSeen s t).ctx, (samePartners_wordSeen s t).cur]
  exact hsolo

omit hsolo in
theorem forkb_illegal {f : FB} (hrole : s.actsAs ≠ 1) : forkb s f = .trap cILLOP 0 := if_pos hrole

/-- The block of a task that FORKB creates: the creator's four arguments, its entry, and nothing to wait for (R318). -/
def forkBlock (s : State) (bs : List Byte) : List Byte :=
  overBytes (overBytes (withArgs bs ((List.range 4).map fun j => s.rs (1 + j) (2 + j))) 0 (toLE 4 s.ctx.entry)) 40 (toLE 4 0)

theorem forkb_creates {f : FB} {l : Launch} {p : Place} {bs : List Byte} (hrole : s.actsAs = 1) (hnow : TcbNow s (s.ra f.a) l p bs)
    (hgood : tcbBad bs = false) (htarget : s.target (targetB s.thr.pc f.dl f.sl) = none) (hfn : f.fn = 0)
    (hroom : TaskRoom (s.wordSeen (targetB s.thr.pc f.dl f.sl)) l s.cur.t (forkBlock s bs)) :
    let t := targetB s.thr.pc f.dl f.sl
    forkb s f = .done (((s.wordSeen t).createTask s.ctx.pid s.ctx.launch l p (forkBlock s bs) (s.ra f.a) s.ctx.vtile s.cur.t
      { start := some t }).late []) := by
  intro t
  have hnoted := (noted_wordSeen s t).ctx
  have hcur := (samePartners_wordSeen s t).cur
  have hsolo' := State.solo_wordSeen hsolo t
  unfold forkb
  dsimp only
  rw [if_neg (not_not.2 hrole), taskTrail_solo hsolo, withTcb_now hnow, hgood, htarget]
  refine (if_neg Bool.false_ne_true).trans ?_
  unfold joinCounter
  dsimp only
  rw [if_pos hfn, hnoted, hcur]
  refine (create_room hsolo' hroom _ p _ _ none).trans ?_
  rw [taskGive_none hsolo' (samePartners_createTask _ _ _ _ _ _ _ _ _ _), hnoted]
  rfl

/-! ### JOIN -/

theorem join_now {f : FRR} {ps : List (Addr × List Piece)} (hcheck : s.checkAll .r 8 [(s.ra f.a, 8)] = .ok ps) (hwaits : s.waits ps = none)
    (hhome : ∀ x, placeOf ps = .pa x → s.homeReady s.cur.t (lineOf x) = true) (hsealed : s.sealedIn (allPieces ps) = false)
    (hclean : s.poisoned (allPieces ps) = false) : join s f =
      if ofLE (s.homePlace s.ctx.pid (placeOf ps) 8) = 0 then .done (s.late [(.s f.d, 0)])
      else .hold { s with thr := { s.thr with wait := .join (placeOf ps) (s.plumb + 256) } } := by
  unfold join
  dsimp only
  rw [hcheck]
  dsimp only [Try.into]
  rw [if_neg (State.not_trails hsolo), State.lvqFull_solo hsolo, hwaits, hsealed, hclean, State.copyTo_solo hsolo]
  refine (if_neg Bool.false_ne_true).trans ((if_neg ?_).trans (if_neg Bool.false_ne_true))
  cases hplace : placeOf ps with
  | pa x => simp [hhome x hplace]
  | _ => exact Bool.false_ne_true

/-! ### TDEP, SIGNAL, CANCEL of a task and TQRY -/

/-- What the forms of TQRY that read a task's block give of it (R325). -/
def tqryForm (s : State) (a : Addr) (bs : List Byte) : Nat → Nat
  | 0 => tcbStatus bs
  | 1 => tcbDepc bs
  | 2 =>
    if tcbStatus bs ≠ stREADY then 0xFF
    else match s.allEntries.find? fun e => e.is s.ctx.pid s.ctx.launch a with
      | some e => e.ep s.plumb
      | none => 0xFF
  | _ => tcbSeq bs

omit hsolo in
theorem tqryForm_seq (a : Addr) (bs : List Byte) {n : Nat} (hn : 4 ≤ n) : tqryForm s a bs n = tcbSeq bs := by
  obtain ⟨m, rfl⟩ := Nat.exists_eq_add_of_le' hn
  rfl

section
variable {f : FRR} {l : Launch} {p : Place} {bs : List Byte} (hnow : TcbNow s (s.ra f.a) l p bs)
include hnow

theorem tdep_now (hready : s.taskReady = true) : let n := (s.rs f.b 1).toNat
    tdep s f = if tcbStatus bs ≠ stWAITING then taskGive s (some f.d) 1
      else if n = 0 ∨ 2 ^ 32 ≤ tcbDepc bs + n then taskGive s (some f.d) 2
      else taskGive ((s.homePut s.ctx.pid p (overBytes bs 40 (toLE 4 (tcbDepc bs + n)))).getD s) (some f.d) 0 := by
  unfold tdep
  dsimp only
  rw [taskTrail_solo hsolo, withTcb_now hnow, hready, compare_into_solo hsolo]
  exact if_neg Bool.false_ne_true

theorem tdep_other (hready : s.taskReady = true) (hstatus : tcbStatus bs ≠ stWAITING) :
    tdep s f = .done (s.late [(.s f.d, BitVec.ofNat 1024 (1 % 2 ^ 64))]) :=
  ((tdep_now hsolo hnow hready).trans (if_pos hstatus)).trans (taskGive_solo hsolo (.refl s) f.d 1)

theorem tdep_raises (hready : s.taskReady = true) (hstatus : tcbStatus bs = stWAITING) (hn : (s.rs f.b 1).toNat ≠ 0)
    (hfits : tcbDepc bs + (s.rs f.b 1).toNat < 2 ^ 32) : tdep s f =
      .done (((s.homePut s.ctx.pid p (overBytes bs 40 (toLE 4 (tcbDepc bs + (s.rs f.b 1).toNat)))).getD s).late
        [(.s f.d, BitVec.ofNat 1024 (0 % 2 ^ 64))]) :=
  ((tdep_now hsolo hnow hready).trans ((if_neg (not_not.2 hstatus)).trans (if_neg (by omega)))).trans
    (taskGive_solo hsolo (samePartners_homePut s _ _ _) f.d 0)

theorem signal_now (hready : s.taskReady = true)
    (hroom : (tcbStatus bs = stWAITING && (s.rs f.b 1).toNat == tcbDepc bs && (s.rs f.b 1).toNat != 0 && !s.readyRoom s.cur.t) = false) :
    let n := (s.rs f.b 1).toNat
    signal s f = if tcbStatus bs ≠ stWAITING then taskGive s (some f.d) 1
      else if n = 0 ∨ tcbDepc bs < n then taskGive s (some f.d) 2
      else taskGive (s.signalTask s.ctx.pid s.ctx.launch p bs (s.ra f.a) n s.cur.t) (some f.d) 0 := by
  unfold signal
  dsimp only
  rw [taskTrail_solo hsolo, withTcb_now hnow, hready, hroom, compare_into_solo hsolo]
  exact (if_neg Bool.false_ne_true).trans (if_neg Bool.false_ne_true)

theorem signal_other (hready : s.taskReady = true) (hstatus : tcbStatus bs ≠ stWAITING) :
    signal s f = .done (s.late [(.s f.d, BitVec.ofNat 1024 (1 % 2 ^ 64))]) :=
  ((signal_now hsolo hnow hready (by simp [hstatus])).trans (if_pos hstatus)).trans (taskGive_solo hsolo (.refl s) f.d 1)

theorem signal_lowers (hready : s.taskReady = true) (hstatus : tcbStatus bs = stWAITING) (hn : (s.rs f.b 1).toNat ≠ 0)
    (hcount : (s.rs f.b 1).toNat < tcbDepc bs ∨ ((s.rs f.b 1).toNat = tcbDepc bs ∧ s.readyRoom s.cur.t = true)) :
    signal s f = .done ((s.signalTask s.ctx.pid s.ctx.launch p bs (s.ra f.a) (s.rs f.b 1).toNat s.cur.t).late
      [(.s f.d, BitVec.ofNat 1024 (0 % 2 ^ 64))]) := by
  have hroom : (tcbStatus bs = stWAITING && (s.rs f.b 1).toNat == tcbDepc bs && (s.rs f.b 1).toNat != 0 &&
      !s.readyRoom s.cur.t) = false := by
    rcases hcount with hless | ⟨-, hfree⟩
    · simp [hless.ne]
    · simp [hfree]
  exact ((signal_now hsolo hnow hready hroom).trans ((if_neg (not_not.2 hstatus)).trans (if_neg (by omega)))).trans
    (taskGive_solo hsolo (samePartners_signalTask s _ _ _ _ _ _ _) f.d 0)

theorem tqry_now (hfn : f.fn ≠ 3) :
    tqry s f = .done (s.late [(.s f.d, BitVec.ofNat 1024 (tqryForm s (s.ra f.a) bs f.fn % 2 ^ 64))]) := by
  refine Eq.trans ?_ (taskGive_solo hsolo (.refl s) f.d (tqryForm s (s.ra f.a) bs f.fn))
  unfold tqry
  dsimp only
  rw [taskTrail_solo hsolo, if_neg hfn, withTcb_now hnow]
  generalize f.fn = n
  rcases n with _ | _ | _ | n <;> exact compare_into_solo hsolo 0 _ _

theorem cancelOne_other (hready : s.tasksReady s.ctx.pid s.ctx.launch = true) (hwaiting : tcbStatus bs ≠ stWAITING)
    (hqueued : tcbStatus bs ≠ stREADY) : cancelOne s f = .done (s.late [(.s f.d, BitVec.ofNat 1024 (1 % 2 ^ 64))]) := by
  unfold cancelOne
  dsimp only
  rw [taskTrail_solo hsolo, withTcb_now hnow, hready, compare_into_solo hsolo]
  exact (if_neg Bool.false_ne_true).trans ((if_pos ⟨hwaiting, hqueued⟩).trans (taskGive_solo hsolo (.refl s) f.d 1))

theorem cancelOne_ends (hready : s.tasksReady s.ctx.pid s.ctx.launch = true)
    (hstatus : tcbStatus bs = stWAITING ∨ tcbStatus bs = stREADY) :
    let all := s.ra f.a :: (s.closure s.ctx.pid l (256 * (l.tcblen + 1)) (s.successors s.ctx.pid l bs) []).filter fun x =>
      x != s.ra f.a && s.waitingTask s.ctx.pid l x
    cancelOne s f = .done ((all.foldl (fun v x => (v.dropEntries s.ctx.pid v.ctx.launch x).endTask s.ctx.pid v.ctx.launch x
      (rootTile l.tset) stCANCELLED 2) s).late [(.s f.d, BitVec.ofNat 1024 (0 % 2 ^ 64))]) := by
  intro all
  have hpartners := samePartners_foldl (fun v x => (samePartners_dropEntries v s.ctx.pid v.ctx.launch x).trans
    (samePartners_endTask _ s.ctx.pid v.ctx.launch x (rootTile l.tset) stCANCELLED 2)) all s
  unfold cancelOne
  dsimp only
  rw [taskTrail_solo hsolo, withTcb_now hnow, hready, compare_into_solo hsolo]
  exact (if_neg Bool.false_ne_true).trans ((if_neg fun h => hstatus.elim h.1 h.2).trans (taskGive_solo hsolo hpartners f.d 0))

end

theorem tqry_count {f : FRR} (hfn : f.fn = 3) :
    tqry s f = .done (s.late [(.s f.d, BitVec.ofNat 1024 (s.readyCount s.cur.t % 2 ^ 64))]) := by
  unfold tqry
  dsimp only
  rw [taskTrail_solo hsolo, if_pos hfn, compare_into_solo hsolo]
  exact taskGive_solo hsolo (.refl s) f.d _

/-! ### TEXIT and YIELD -/

omit hsolo in
theorem texit_owes_nothing {f : FRR} (hrole : s.actsAs = 1) (hown : s.thr.role = 1) (hpend : s.thr.pend = []) (hdefer : s.thr.defer = []) :
    texit s f = .end_ (s.exitThread (s.rs f.a)) := by
  have hmu : s.muTrap = none := by simp [State.muTrap, State.muStop, hown]
  have hwait : s.waitS = none := by simp [State.waitS, State.owesResults, hpend, hdefer]
  have hcu : s.cuStop = none := by simp [State.cuStop, hown]
  unfold texit
  dsimp only
  rw [if_neg fun h => h.2 hrole, hmu, hwait, hcu, hown]
  rfl

omit hsolo in
theorem yieldTurn_parks (hretry : s.thr.retry = none) :
    yieldTurn s = .hold { s with thr := { s.thr with wait := .yield (s.plumb + 64) } } := by
  unfold yieldTurn
  rw [hretry]

omit hsolo in
theorem yieldTurn_goes_on {v : Word} (hretry : s.thr.retry = some v) :
    yieldTurn s = .done { s with thr := { s.thr with retry := none } } := by
  unfold yieldTurn
  rw [hretry]

/-! ### CANCEL of a level, and LCNT -/

section
variable {f : FRR}

omit hsolo in
theorem cancelMany_priv (hlevel : f.fn - 1 ≠ 0) (hpriv : s.thr.priv = 0) : cancelMany s f = .trap cPRIV 0 := if_pos ⟨hlevel, hpriv⟩

section
variable (hallowed : f.fn - 1 = 0 ∨ s.thr.priv ≠ 0)
include hallowed

theorem cancelMany_unknown (hretry : s.thr.retry = none) (hlevel : s.levelOf (f.fn - 1) (s.rs f.a).toNat = none) :
    cancelMany s f = .done (s.late [(.s f.d, BitVec.ofNat 1024 (1 % 2 ^ 64))]) := by
  unfold cancelMany
  dsimp only
  rw [if_neg fun h => hallowed.elim h.1 (· h.2), taskTrail_solo hsolo, hretry, hlevel, compare_into_solo hsolo, hlevel]
  exact taskGive_solo hsolo (.refl s) f.d 1

theorem cancelMany_ends {ls : List (Nat × Launch)} (hretry : s.thr.retry = none)
    (hlevel : s.levelOf (f.fn - 1) (s.rs f.a).toNat = some ls) (hready : ∀ e ∈ ls, s.tasksReady s.ctx.pid e.1 = true) :
    let v := ls.foldl (fun s e => s.endLaunch s.ctx.pid e.1 stCANCELLED 0 (some (s.cur.t, s.cur.c))) s
    cancelMany s f = .hold { v with thr := { v.thr with wait := .hold, retry := some 0 } } := by
  have hall : (ls.any fun e => !s.tasksReady s.ctx.pid e.1) = false := by
    rw [List.any_eq_false]
    intro e he
    simp [hready e he]
  unfold cancelMany
  dsimp only
  rw [if_neg fun h => hallowed.elim h.1 (· h.2), taskTrail_solo hsolo, hretry, hlevel, compare_into_solo hsolo, hlevel]
  exact if_neg (by simpa using hall)

theorem cancelMany_ended {v : Word} {ls : List (Nat × Launch)} (hretry : s.thr.retry = some v)
    (hlevel : s.levelOf (f.fn - 1) (s.rs f.a).toNat = some ls) (hending : s.levelEnding ls = false)
    (hother : ∀ e ∈ ls, e.1 ≠ s.ctx.launch) : cancelMany s f =
      .done (({ s with thr := { s.thr with retry := none } } : State).late [(.s f.d, BitVec.ofNat 1024 (0 % 2 ^ 64))]) := by
  have hmine : (ls.any fun e => e.1 == s.ctx.launch) = false := by
    rw [List.any_eq_false]
    intro e he
    simp [hother e he]
  unfold cancelMany
  dsimp only
  rw [if_neg fun h => hallowed.elim h.1 (· h.2), taskTrail_solo hsolo, hretry, hlevel]
  dsimp only
  rw [hending, hmine]
  exact (if_neg Bool.false_ne_true).trans ((if_neg Bool.false_ne_true).trans
    (taskGive_solo hsolo (t := { s with thr := { s.thr with retry := none } }) ⟨rfl, rfl⟩ f.d 0))

end

theorem levelCounter_eq : levelCounter s f = .done (s.late [(.s f.d, BitVec.ofNat 1024 ((match s.levelOf f.fn (s.rs f.a).toNat with
    | none => 2 ^ 64 - 1
    | some ls => levelCount f.fn ls) % 2 ^ 64))]) := by
  unfold levelCounter
  dsimp only
  rw [taskTrail_solo hsolo, compare_into_solo hsolo]
  exact taskGive_solo hsolo (.refl s) f.d _

end

end

/-- Settles O48, from what each instruction's body comes to. -/
theorem taskInstructions : Obligations.TaskInstructions := by
  unfold Obligations.TaskInstructions
  intro s k f c b l p bs u pid a n d room sd sb hsolo
  refine ⟨fun halign hready => ?misaligned, fun halign hlaunch hout hready => ?outside,
    fun hnow => ⟨fun hbad hready => ?bad, fun hgood hroom => ?spawn, fun hstatus hready => ?depOther,
      fun hstatus hready hn hfits => ?depRaises, fun hstatus hready => ?signalOther, fun hstatus hready hn hcount => ?signalLowers,
      fun hfn => ?status, fun hfn => ?depc, fun hfn hstatus => ?noPriority, fun hfn => ?seq,
      fun hwaiting hqueued hready => ?cancelOther, fun hstatus hready => ?cancelEnds⟩,
    fun hfn => ?count, fun hnow hgood hreserved hset hroom => ?callat,
    ⟨fun hrole hready => ?forkIllegal, fun hrole hnow hgood htarget hfn hroom => ?fork⟩,
    fun ps hcheck hwaits hhome hsealed hclean => ⟨fun hzero => ?joinZero, fun hzero hready => ?joinParks⟩,
    fun hrole hown hpend hdefer hready => ?texit, fun hretry hready => ?yield, fun v hretry => ?yielded,
    fun hfn hpriv hready htask => ?levelPriv, fun hallowed hretry hlevel => ?levelUnknown,
    fun ls hallowed hretry hlevel hall hready => ?levelEnds, fun v ls hallowed hretry hlevel hending hother => ?levelEnded,
    fun hlevel => ?countUnknown, fun ls hlevel => ?countLevel⟩
  case misaligned => exact (exec_spawn k f s).trans (run_trap hready (spawn_misaligned (s := u) hsolo halign))
  case outside => exact (exec_spawn k f s).trans (run_trap hready (spawn_outside (s := u) hsolo halign hlaunch hout))
  case bad => exact (exec_spawn k f s).trans (run_trap hready (spawn_bad (s := u) hsolo hnow hbad))
  case spawn => exact becomes_of_done (exec_spawn k f s) (spawn_creates (s := u) hsolo hnow hgood hroom)
  case depOther => exact becomes_of_done (exec_tdep k f s) (tdep_other (s := u) hsolo hnow hready hstatus)
  case depRaises => exact becomes_of_done (exec_tdep k f s) (tdep_raises (s := u) hsolo hnow hready hstatus hn hfits)
  case signalOther => exact becomes_of_done (exec_signal k f s) (signal_other (s := u) hsolo hnow hready hstatus)
  case signalLowers => exact becomes_of_done (exec_signal k f s) (signal_lowers (s := u) hsolo hnow hready hstatus hn hcount)
  case status =>
    have hgives := tqry_now (s := u) hsolo hnow (by omega)
    rw [hfn] at hgives
    exact becomes_of_done (exec_tqry k f s) hgives
  case depc =>
    have hgives := tqry_now (s := u) hsolo hnow (by omega)
    rw [hfn] at hgives
    exact becomes_of_done (exec_tqry k f s) hgives
  case noPriority =>
    have hgives := tqry_now (s := u) hsolo hnow (by omega)
    rw [hfn, show tqryForm u (u.ra f.a) bs 2 = 0xFF from if_pos hstatus] at hgives
    exact becomes_of_done (exec_tqry k f s) hgives
  case seq =>
    have hgives := tqry_now (s := u) hsolo hnow (by omega)
    rw [tqryForm_seq _ _ hfn] at hgives
    exact becomes_of_done (exec_tqry k f s) hgives
  case cancelOther => exact becomes_of_done (exec_cancelTask k f s) (cancelOne_other (s := u) hsolo hnow hready hwaiting hqueued)
  case cancelEnds => exact becomes_of_done (exec_cancelTask k f s) (cancelOne_ends (s := u) hsolo hnow hready hstatus)
  case count => exact becomes_of_done (exec_tqry k f s) (tqry_count (s := u) hsolo hfn)
  case callat => exact becomes_of_done (exec_callat k c s) (callat_creates (s := u) hsolo hnow hgood hreserved hset hroom)
  case forkIllegal => exact (exec_forkb k b s).trans (run_trap hready (forkb_illegal (s := u) hrole))
  case fork =>
    have hroom' : TaskRoom (u.wordSeen (targetB u.thr.pc b.dl b.sl)) l u.cur.t (forkBlock u bs) := by
      unfold TaskRoom
      rw [(samePartners_wordSeen u _).cur, (noted_wordSeen u _).ctx]
      exact hroom
    exact becomes_of_done (exec_forkb k b s) (forkb_creates (s := u) hsolo hrole hnow hgood htarget hfn hroom')
  case joinZero =>
    exact becomes_of_done (exec_join k f s) ((join_now (s := u) hsolo hcheck hwaits hhome hsealed hclean).trans (if_pos hzero))
  case joinParks =>
    exact exec_of_hold (exec_join k f s) hready ((join_now (s := u) hsolo hcheck hwaits hhome hsealed hclean).trans (if_neg hzero))
  case texit => exact exec_of_end (exec_texit k f s) hready (texit_owes_nothing (s := u) hrole hown hpend hdefer)
  case yield => exact exec_of_hold (exec_yield k f s) hready (yieldTurn_parks (s := u) hretry)
  case yielded => exact becomes_of_done (exec_yield k f s) (yieldTurn_goes_on (s := u) hretry)
  case levelPriv =>
    exact (exec_cancelLevel k f s).trans (run_trap hready (cancelMany_priv (s := u) (by omega) hpriv))
  case levelUnknown =>
    have hallowed' : f.fn - 1 = 0 ∨ u.thr.priv ≠ 0 := hallowed.imp_left fun h => by omega
    exact becomes_of_done (exec_cancelLevel k f s) (cancelMany_unknown (s := u) hsolo hallowed' hretry hlevel)
  case levelEnds =>
    have hallowed' : f.fn - 1 = 0 ∨ u.thr.priv ≠ 0 := hallowed.imp_left fun h => by omega
    exact exec_of_hold (exec_cancelLevel k f s) hready (cancelMany_ends (s := u) hsolo hallowed' hretry hlevel hall)
  case levelEnded =>
    have hallowed' : f.fn - 1 = 0 ∨ u.thr.priv ≠ 0 := hallowed.imp_left fun h => by omega
    exact becomes_of_done (exec_cancelLevel k f s) (cancelMany_ended (s := u) hsolo hallowed' hretry hlevel hending hother)
  case countUnknown =>
    have hgives := levelCounter_eq (s := u) (f := f) hsolo
    rw [show u.levelOf f.fn (u.rs f.a).toNat = none from hlevel] at hgives
    exact becomes_of_done (exec_lcnt k f s) hgives
  case countLevel =>
    have hgives := levelCounter_eq (s := u) (f := f) hsolo
    rw [show u.levelOf f.fn (u.rs f.a).toNat = some ls from hlevel] at hgives
    exact becomes_of_done (exec_lcnt k f s) hgives

end Sys2Proof.Machine
end

section
/-! PROOFS. The steps of the lath (R373 to R379, R381, R382, R384, R385). -/

namespace Sys2Proof.Machine

/-! ### What a tile keeps of a neighbour -/

@[simp] theorem State.getTile_modTile_self (s : State) (t : Nat) (f : Tile → Tile) : (s.modTile t f).getTile t = f (s.getTile t) := by
  unfold State.modTile State.setTile
  by_cases h : t = s.cur.t
  · simp [State.getTile, h]
  · simp [State.getTile, h]

theorem State.ownerOf_modTile (s : State) (t x : Nat) (f : Tile → Tile) : (s.modTile t f).ownerOf x = s.ownerOf x := by
  unfold State.modTile State.setTile
  split <;> rfl

theorem State.vote_modVote_self (s : State) (t d : Nat) (f : Vote → Vote) :
    (s.modVote t d f).vote t d = Vote.ofWord (f (s.vote t d)).word := by
  simp [State.vote, State.modVote]

theorem State.vote_modNeigh_self (s : State) (t d e : Nat) (f : Neigh → Neigh) : (s.modNeigh t d f).vote t e = s.vote t e := by
  simp [State.vote, State.modNeigh]

/-- A change of a neighbour's vote leaves the tile's heartbeats and appeals as they are (R373). -/
theorem State.lath_modVote (s : State) (t d : Nat) (f : Vote → Vote) : ((s.modVote t d f).getTile t).lath = (s.getTile t).lath := by
  simp [State.modVote]

theorem fields_cons (a n : Nat) (l : List (Nat × Nat)) : fields ((a, n) :: l) = n * 2 ^ a + fields l := by
  have hfrom (k : Nat) : l.foldl (fun n e => n + e.2 * 2 ^ e.1) k = k + fields l := by
    unfold fields
    induction l generalizing k with
    | nil => rfl
    | cons e l ih => rw [List.foldl_cons, List.foldl_cons, ih, ih (0 + _), Nat.zero_add, Nat.add_assoc]
  exact (hfrom _).trans (congrArg (· + fields l) (Nat.zero_add _))

theorem fields_nil : fields [] = 0 := rfl

/-- The fields of VOTE below, and above, the map of live neighbours (R376). -/
def Vote.low (x : Vote) : Nat := x.nst % 4 + x.judge % 4 * 2 ^ 2 + x.votes % 16 * 2 ^ 4
def Vote.high (x : Vote) : Nat := x.miss % 4 + x.napp % 4 * 2 ^ 2 + x.lastseq % 2 ^ 16 * 2 ^ 4 + x.health % 2 ^ 32 * 2 ^ 20

theorem Vote.toNat_word (x : Vote) : x.word.toNat = (x.low + x.livemap % 16 * 2 ^ 8 + x.high * 2 ^ 12) % 2 ^ 64 := by
  rw [Vote.word, BitVec.toNat_ofNat]
  simp only [fields_cons, fields_nil, Vote.low, Vote.high]
  refine congrArg (· % 2 ^ 64) ?_
  ring

theorem Vote.low_lt (x : Vote) : x.low < 2 ^ 8 := by
  unfold Vote.low
  omega

/-- VOTE keeps a map of live neighbours (R376). -/
theorem Vote.livemap_ofWord_word (x : Vote) : (Vote.ofWord x.word).livemap = x.livemap % 16 := by
  have hfield (low map high : Nat) (hlow : low < 2 ^ 8) (hmap : map < 16) :
      (low + map * 2 ^ 8 + high * 2 ^ 12) % 2 ^ 64 / 2 ^ 8 % 2 ^ 4 = map := by omega
  calc (Vote.ofWord x.word).livemap = x.word.toNat / 2 ^ 8 % 2 ^ 4 := rfl
    _ = x.livemap % 16 := by rw [x.toNat_word, hfield _ _ _ x.low_lt (Nat.mod_lt _ (by decide))]

theorem State.livemap_lt (s : State) (t d : Nat) : (s.vote t d).livemap < 16 := Nat.mod_lt _ (by decide)

theorem State.newPeriod_of_none {s : State} {t : Nat} (h : (s.getTile t).lath.hbNext = none) : s.newPeriod t = s := by
  unfold State.newPeriod
  rw [h]

/-! ### Heartbeats and judgements (R373 to R375) -/

section
variable {s : State} {t dir x : Nat}

theorem exec_heartbeatSend_sent (hseen : s.tileSeen 17 t = true) (hdie : (s.getDie (dieOf t)).failed = false)
    (hneigh : neighbour t dir = some x) (hlives : s.stOf t = 0 ∨ s.stOf t = 2 ∨ s.stOf t = 1 ∧ (s.getTile t).lath.bist = true)
    (hperiod : (s.getTile t).lath.hbNext = none) (hsent : SMap.get 0 (s.getTile t).lath.sent dir ≠ s.periodNo t + 1) :
    exec (.heartbeatSend t dir) s = .next ((({ s with beats := s.beats ++ [
        { dst := x, dir := back dir, tile := t, hseq := SMap.get 0 (s.getTile t).lath.hseq dir, health := s.healthOf t }] } : State).modLath t fun y =>
      { y with
        sent := SMap.set 0 y.sent dir (s.periodNo t + 1),
        hseq := SMap.set 0 y.hseq dir ((SMap.get 0 (s.getTile t).lath.hseq dir + 1) % 2 ^ 16) }).tickFresh) := by
  have hopen : (!s.tileSeen 17 t || (s.getDie (dieOf t)).failed || s.stOf t == 3 || (s.stOf t == 1 && !(s.getTile t).lath.bist) ||
      SMap.get 0 (s.getTile t).lath.sent dir == s.periodNo t + 1) = false := by
    rcases hlives with h | h | ⟨h, hbist⟩
    · simp [hseen, hdie, h, hsent]
    · simp [hseen, hdie, h, hsent]
    · simp [hseen, hdie, h, hbist, hsent]
  rw [exec_heartbeatSend, execHeartbeatSend, State.sendBeat, State.newPeriod_of_none hperiod]
  dsimp only
  rw [hneigh]
  dsimp only
  rw [hopen]
  rfl

/-- At the edge of the mesh only the period length can change (R374). -/
theorem exec_heartbeatSend_edge (hedge : neighbour t dir = none) : exec (.heartbeatSend t dir) s = .next (s.newPeriod t) := by
  rw [exec_heartbeatSend, execHeartbeatSend, State.sendBeat]
  dsimp only
  rw [hedge]

theorem exec_heartbeatReceive_heard {tid hseq health : Nat}
    (hfirst : s.beats.find? (fun y => y.dst == t && y.dir == dir) = some { dst := t, dir := dir, tile := tid, hseq := hseq, health := health })
    (hneigh : neighbour t dir = some x) (hnst : (s.vote t dir).nst = 1 ∨ (s.vote t dir).nst = 3) :
    exec (.heartbeatReceive t dir tid hseq health) s = .next
      ((({ s with beats := s.beats.erase { dst := t, dir := dir, tile := tid, hseq := hseq, health := health } } : State).modVote t dir fun y =>
        { y with lastseq := hseq, health := health }).modNeigh t dir fun y =>
          { y with
            heard := y.heard + 1, last := true
            odd := y.odd || (tid != x || ((s.neigh t dir).last && hseq % 2 ^ 16 != ((s.vote t dir).lastseq + 1) % 2 ^ 16)) }) := by
  have hcounts : ¬((s.vote t dir).nst = 0 ∨ ((s.vote t dir).nst = 2 ∧ (s.neigh t dir).listen.isNone)) := by
    rintro (h | ⟨h, -⟩) <;> omega
  rw [exec_heartbeatReceive, execHeartbeatReceive, if_pos (beq_iff_eq.2 hfirst), State.hearBeat]
  dsimp only
  rw [hneigh]
  exact congrArg Host.Outcome.next (if_neg hcounts)

theorem Neigh.judge_silent_period {m : Neigh} {w : Vote} (f : Nat) (hheard : m.heard = 0) (hodd : m.odd = false) (hmiss : w.miss < 2) :
    m.judge w 0 f = (0, w.miss + 1, 0) := by
  have hmin : Nat.min 3 (w.miss + 1) = w.miss + 1 := Nat.min_eq_right (by omega)
  have hthree : w.miss ≠ 2 := by omega
  simp [Neigh.judge, hheard, hodd, hmin, hthree]

theorem Neigh.judge_third_silent {m : Neigh} {w : Vote} (f : Nat) (hheard : m.heard = 0) (hmiss : 2 ≤ w.miss) :
    m.judge w 0 f = (1, 3, 0) := by
  have hmin : Nat.min 3 (w.miss + 1) = 3 := Nat.min_eq_left (by omega)
  simp [Neigh.judge, hheard, hmin]

theorem Neigh.judge_clean {m : Neigh} (w : Vote) (f : Nat) (hheard : m.heard = 1 ∨ m.heard = 2) (hodd : m.odd = false) :
    m.judge w 0 f = (0, 0, 0) := by
  have hsome : m.heard ≠ 0 := by omega
  have hfew : ¬ 2 < m.heard := by omega
  simp [Neigh.judge, hsome, hfew, hodd]

theorem Neigh.judge_babbling {m : Neigh} (w : Vote) (f : Nat) (h : 2 < m.heard ∨ 0 < m.heard ∧ m.odd = true) :
    m.judge w 0 f = (2, 0, 0) := by
  have hsome : m.heard ≠ 0 := by omega
  have hbad : 2 < m.heard ∨ m.odd = true := h.imp_right And.right
  simp [Neigh.judge, hsome, hbad]

theorem exec_periodJudgement_judged (hneigh : neighbour t dir = some x) (hnew : s.periodNo t ≠ (s.neigh t dir).judged)
    (hnst : (s.vote t dir).nst = 1 ∨ (s.vote t dir).nst = 3) (hlives : s.stOf t = 0 ∨ s.stOf t = 2)
    (hperiod : (s.getTile t).lath.hbNext = none) :
    let y := (s.neigh t dir).judge (s.vote t dir) (bits (s.getTile t).hbper.toNat 16 16) (Config.flits x (s.neigh t dir).judged)
    let r := s.modVote t dir fun w => { w with miss := y.2.1 }
    exec (.periodJudgement t dir) s = .next ((r.modNeigh t dir fun m =>
      { m with heard := 0, odd := false, overs := y.2.2, judged := r.periodNo t }).judged t dir x y.1) := by
  intro y r
  have hdue : ¬(s.periodNo t = (s.neigh t dir).judged ∨ (s.vote t dir).nst = 0 ∨
      ((s.vote t dir).nst = 2 ∧ (s.neigh t dir).listen.isNone) ∨ s.stOf t = 1 ∨ s.stOf t = 3) := by
    rintro (h | h | ⟨h, -⟩ | h | h)
    · exact hnew h
    all_goals omega
  have hsame : r.newPeriod t = r := State.newPeriod_of_none (by rw [State.lath_modVote, hperiod])
  rw [exec_periodJudgement, execPeriodJudgement]
  dsimp only
  rw [hneigh]
  dsimp only
  rw [if_neg hdue]
  exact congrArg (fun z : State => Host.Outcome.next ((z.modNeigh t dir fun m =>
    { m with heard := 0, odd := false, overs := y.2.2, judged := z.periodNo t }).judged t dir x y.1)) hsame

/-! ### Votes (R377, R378) -/

/-- Whom a tile tells of a judgement rests on the neighbours alive, which its own vote leaves (R377). -/
theorem State.accuse_modVote (s : State) (t dir x j : Nat) (f : Vote → Vote) (hf : (f (s.vote t dir)).livemap = (s.vote t dir).livemap) :
    (s.modVote t dir f).accuse t dir x j = { s.modVote t dir f with accs := (s.modVote t dir f).accs ++
      (((List.range 4).filter fun k => k != back dir && bit (s.vote t dir).livemap k).filterMap (neighbour x)).map fun m =>
        { dst := m, target := x, who := t, judge := j } } := by
  have hmap : ((s.modVote t dir f).vote t dir).livemap = (s.vote t dir).livemap := by
    rw [State.vote_modVote_self, Vote.livemap_ofWord_word, hf, Nat.mod_eq_of_lt (s.livemap_lt t dir)]
  unfold State.accuse
  dsimp only
  rw [hmap]

theorem State.judged_bad {j : Nat} (hj : j = 1 ∨ j = 2) (hnst : (s.vote t dir).nst = 1 ∨ (s.vote t dir).nst = 3) :
    let r := (s.modNeigh t dir fun y => { y with age := some (match y.age with | some e => e + 1 | none => 0) }).modVote t dir fun w =>
      { w with judge := j, votes := orBit w.votes (back dir) }
    s.judged t dir x j = (({ r with accs := r.accs ++
      (((List.range 4).filter fun k => k != back dir && bit (s.vote t dir).livemap k).filterMap (neighbour x)).map fun m =>
        { dst := m, target := x, who := t, judge := j } } : State).takeQuorum t dir) := by
  intro r
  have hlive : (s.vote t dir).nst ≠ 2 := by omega
  have hbad : j ≠ 0 := by omega
  unfold State.judged
  dsimp only
  rw [if_neg hlive, if_neg hbad, State.accuse_modVote (hf := rfl), State.vote_modNeigh_self] <;> rfl

theorem exec_accusation_counted {a d j : Nat} (hmem : ({ dst := t, target := x, who := a, judge := j } : Acc) ∈ s.accs)
    (hdir : dirTo t x = some dir) (hfrom : dirTo x a = some d) (hlive : bit (s.vote t dir).livemap d = true)
    (hnst : (s.vote t dir).nst = 1 ∨ (s.vote t dir).nst = 3) (hj : j = 1 ∨ j = 2) (hst : s.stOf t = 0 ∨ s.stOf t = 2) :
    exec (.accusation t x a j) s = .next (((({ s with accs := s.accs.erase { dst := t, target := x, who := a, judge := j } } : State).modNeigh
      t dir fun y => { y with why := j }).modVote t dir fun w => { w with votes := orBit w.votes d }).takeQuorum t dir) := by
  have hheard : ¬(j = 0 ∨ bit (s.vote t dir).livemap d = false ∨ s.stOf t = 1 ∨ s.stOf t = 3) := by
    rw [hlive]
    rintro (h | h | h | h)
    · omega
    · exact Bool.noConfusion h
    all_goals omega
  have hown : (s.vote t dir).nst ≠ 2 := by omega
  have hjudge : j ≠ 3 ∧ ((s.vote t dir).nst = 1 ∨ (s.vote t dir).nst = 3) := ⟨by omega, hnst⟩
  rw [exec_accusation, execAccusation, if_neg (by simpa using hmem), hdir, hfrom]
  exact congrArg Host.Outcome.next ((if_neg hheard).trans ((if_neg hown).trans (if_pos hjudge)))

/-- A broadcast of a fence of a tile that no broadcast names starts on its way to every die (R378). -/
theorem State.broadcast_fence {cause : Nat} (hcause : cause ≠ 0) (hcasts : s.casts = []) (hst : s.stOf x = 0 ∨ s.stOf x = 2) :
    s.broadcast x cause = ({ s with casts := [{ x := x, cause := cause, left := (List.range 8).filter (bit s.dieMask) }] } : State) := by
  have hopen : ((s.casts.any fun c => c.x == x && c.cause == cause) || (cause == 0) != (s.stOf x == 1) || s.stOf x == 3) = false := by
    rcases hst with h | h <;> simp [hcasts, hcause, h]
  unfold State.broadcast
  rw [hopen, hcasts]
  rfl

theorem State.takeQuorum_fence (hneigh : neighbour t dir = some x) (hnst : (s.vote t dir).nst = 1) (hvoters : 1 < (s.vote t dir).voters)
    (hcast : (s.vote t dir).voters / 2 + 1 ≤ (s.vote t dir).cast) (hjudge : (s.vote t dir).judge = 1 ∨ (s.vote t dir).judge = 2)
    (hcasts : s.casts = []) (hst : s.stOf x = 0 ∨ s.stOf x = 2) : s.takeQuorum t dir = ({ s with casts :=
      [{ x := x, cause := (s.vote t dir).judge, left := (List.range 8).filter (bit s.dieMask) }] } : State) := by
  have hquorum : (s.vote t dir).quorum = (s.vote t dir).voters / 2 + 1 := by simp [Vote.quorum, hnst]
  have hformed : ¬((s.vote t dir).voters ≤ 1 ∧ (s.vote t dir).nst ≠ 3 ∨ (s.vote t dir).cast < (s.vote t dir).quorum) := by omega
  have hlive : (s.vote t dir).nst ≠ 2 := by omega
  have hcause : (s.vote t dir).judge ≠ 0 := by omega
  unfold State.takeQuorum
  dsimp only
  rw [hneigh]
  dsimp only
  rw [if_neg hformed, if_neg hlive, if_pos (Or.inl hnst), if_pos hjudge]
  exact State.broadcast_fence hcause hcasts hst

theorem exec_voteExpiry_lapsed {m : Nat} (hage : (s.neigh t dir).age = some m) (hm : 4 ≤ m) : exec (.voteExpiry t dir) s =
    .next ((s.modNeigh t dir fun y => { y with age := none }).modVote t dir fun w => { w with votes := 0 }) := by
  have hdue : (s.neigh t dir).age.any (4 ≤ ·) = true := by simp [hage, hm]
  rw [exec_voteExpiry, execVoteExpiry, if_pos hdue]

theorem exec_firmwareReferral_alone (hnone : s.liveAround x = []) (hlive : s.tileLive x = true) :
    exec (.firmwareReferral x 1) s = .next ((s.logEvent 15 x (s.ownerOf x) 0 0).broadcast x 3) := by
  have hlone : s.loneVote x = some 1 := by simp [State.loneVote, hnone]
  rw [exec_firmwareReferral, execFirmwareReferral, hlone]
  exact congrArg Host.Outcome.next (if_pos ⟨hlive, Or.inl rfl⟩)

end

/-! ### Fences (R378, R380 to R382) -/

section
variable {s : State} {d x cause : Nat} (hcasts : s.casts = [{ x := x, cause := cause, left := [d] }])
include hcasts

/-- The one broadcast is for the die, and no fence of the tile goes before it (R378). -/
theorem State.cast_arrives : (!(s.casts.any fun c => c.x == x && c.cause == cause && c.left.contains d) ||
    (cause == 0 && s.casts.any fun c => c.x == x && c.cause != 0 && c.left.contains d)) = false := by
  simp +contextual [hcasts]

/-- The last die that a broadcast reaches ends it. -/
theorem State.cast_ends : ((s.casts.map fun c =>
    if c.x = x ∧ c.cause = cause then { c with left := c.left.filter (· != d) } else c).filter fun c => !c.left.isEmpty) = [] := by
  simp [hcasts]

theorem exec_fenceLearn_readmitted (hcause : cause = 0) (hd : d ≠ dieOf x) : exec (.fenceLearn d x 0) s =
    .next ((({ s with casts := [] } : State).modDie d fun y => { y with knows := y.knows.filter (· != x) }).tickFresh) := by
  subst hcause
  rw [exec_fenceLearn, execFenceLearn, State.cast_arrives hcasts, State.cast_ends hcasts]
  exact congrArg Host.Outcome.next (if_neg hd)

theorem exec_fenceLearn_fenced (hcause : cause ≠ 0) (hd : d ≠ dieOf x) (hknows : (s.getDie d).knows.contains x = false) :
    exec (.fenceLearn d x cause) s = .next ((((((({ s with casts := [] } : State).modDie d fun y => { y with knows := y.knows ++ [x] }).respf
      d x).lostParties d x).revoke d x).respfRemote d x).tickFresh) := by
  have hnew : ¬ (({ s with casts := [] } : State).getDie d).knows.contains x = true := by
    rw [Bool.not_eq_true]
    exact hknows
  rw [exec_fenceLearn, execFenceLearn, State.cast_arrives hcasts, State.cast_ends hcasts]
  dsimp only
  rw [if_neg hcause, if_neg hnew, if_neg hd]
  rfl

end

theorem exec_orphanDiscard_orphan {s : State} {n : Nat} {m : Msg} (hmsg : s.msgs[n]? = some m) (horphan : s.orphan m = true) :
    exec (.orphanDiscard n) s = .next ((s.dropMsg n).orphaned m.to) := by
  rw [exec_orphanDiscard, execOrphanDiscard, hmsg]
  exact congrArg Host.Outcome.next (if_neg (by simp [horphan]))

/-! ### Readmission (R384, R385) -/

section
variable {s : State} {t : Nat}

theorem exec_bistResult_ended (pass : Nat) (hst : s.stOf t = 1) (hbist : (s.getTile t).lath.bist = false)
    (happeal : (s.getTile t).lath.appeal = none) : exec (.bistResult t pass) s =
    .next (if pass = 1 then s.modLath t fun y => { y with bist := true, bistBad := false }
      else (s.modLath t fun y => { y with bistBad := true }).scrim t) := by
  rw [exec_bistResult, execBistResult, if_neg (by simp [hst, hbist, happeal])]

theorem exec_appeal_again {dir n : Nat} (hneigh : neighbour t dir = some n) (hst : s.stOf t = 1) (hbist : (s.getTile t).lath.bist = true)
    (htold : SMap.get false (s.getTile t).lath.told dir = false) (hlive : s.tileLive n = true) (hsheeted : (s.vote n (back dir)).nst = 2)
    (hagain : (s.getTile t).lath.appeal.isSome = true) :
    let r := s.modLath t fun y => { y with appeal := some (y.appeal.getD s.plumb), told := SMap.put y.told dir true }
    exec (.appeal t dir) s = .next ((r.modNeigh n (back dir) fun _ => { listen := some 0, judged := r.periodNo n }).modVote n (back dir)
      fun w => { w with napp := Nat.min 3 (w.napp + 1), miss := 0 }) := by
  intro r
  have hopen : ¬(s.stOf t ≠ 1 ∨ (s.getTile t).lath.bist = false ∨ SMap.get false (s.getTile t).lath.told dir ∨ s.tileLive n = false) := by
    simp [hst, hbist, htold, hlive]
  have hnotFirst : (s.getTile t).lath.appeal.isNone = false := by
    obtain ⟨p, hp⟩ := Option.isSome_iff_exists.1 hagain
    rw [hp]
    rfl
  rw [exec_appeal, execAppeal]
  dsimp only
  rw [hneigh]
  dsimp only
  rw [if_neg hopen, hnotFirst, if_pos hsheeted]
  rfl

theorem exec_appealTimeout_late {m : Nat} (happeal : (s.getTile t).lath.appeal = some m) (hst : s.stOf t = 1)
    (hnone : s.readmits t = false) (hlate : m + 64 * (s.getTile t).period ≤ s.plumb) :
    exec (.appealTimeout t) s = .next (s.appealFails t) := by
  rw [exec_appealTimeout, execAppealTimeout, happeal]
  exact congrArg Host.Outcome.next (if_pos ⟨hst, hnone, hlate⟩)

theorem exec_probationEnd_due (hst : s.stOf t = 2) (hdue : (s.getTile t).lath.prob + 1024 * (s.getTile t).period ≤ s.plumb) :
    exec (.probationEnd t) s = .next ((s.setSt t 0).aroundTile t fun r m e => r.modVote m e fun w =>
      if w.nst = 3 then { w with nst := 1 } else w) := by
  rw [exec_probationEnd, execProbationEnd, if_pos ⟨hst, hdue⟩]

end

/-- Settles O57: each clause is a branch of the step that it names; a vote's own change leaves the map of live neighbours by which
the accusations go out, and a period without a new length is the same before the judgement and after it. -/
theorem lathSteps : Obligations.LathSteps := by
  unfold Obligations.LathSteps
  intro s t dir x d n a j v ne lath
  refine ⟨fun hseen hdie hneigh hlives hperiod hsent => ?sends, fun w at_ hedge hnext => ⟨fun hearly => ?early, fun hdue => ?begins⟩,
    fun tid hseq health => ?hears,
    fun m w f hovers => ⟨Neigh.judge_silent_period f, Neigh.judge_third_silent f, Neigh.judge_clean w f, Neigh.judge_babbling w f⟩,
    fun hneigh hnew hnst hlives hperiod => exec_periodJudgement_judged hneigh hnew hnst hlives hperiod,
    fun hj hnst hneigh => State.judged_bad hj hnst, ?counted,
    fun hneigh hnst hvoters hcast hjudge hcasts hst => State.takeQuorum_fence hneigh hnst hvoters hcast hjudge hcasts hst,
    fun m hage hm => exec_voteExpiry_lapsed hage hm, fun hnone hlive => exec_firmwareReferral_alone hnone hlive,
    ?learns,
    fun m hmsg horphan => ?orphan,
    fun hst hbist happeal => ⟨exec_bistResult_ended 1 hst hbist happeal, exec_bistResult_ended 0 hst hbist happeal⟩,
    fun hneigh hst hbist htold hlive hsheeted hagain => exec_appeal_again hneigh hst hbist htold hlive hsheeted hagain,
    fun m happeal hst hnone hlate => exec_appealTimeout_late happeal hst hnone hlate, fun hst hdue => exec_probationEnd_due hst hdue⟩
  case sends => exact exec_heartbeatSend_sent hseen hdie hneigh hlives hperiod hsent
  case early =>
    rw [exec_heartbeatSend_edge hedge, State.newPeriod, hnext]
    exact congrArg Host.Outcome.next (if_pos hearly)
  case begins =>
    rw [exec_heartbeatSend_edge hedge, State.newPeriod, hnext]
    exact congrArg Host.Outcome.next (if_neg (Nat.not_lt.2 hdue))
  case hears =>
    intro b r hfirst hneigh hnst
    exact exec_heartbeatReceive_heard hfirst hneigh hnst
  case counted =>
    intro m r hmem hdir hfrom hlive hnst hj hst
    exact exec_accusation_counted hmem hdir hfrom hlive hnst hj hst
  case learns =>
    intro cause c hcasts hd r
    exact ⟨fun hcause => exec_fenceLearn_readmitted hcasts hcause hd,
      fun hcause hknows => exec_fenceLearn_fenced hcasts hcause hd hknows⟩
  case orphan =>
    intro tgt
    rw [exec_orphanDiscard_orphan hmsg horphan]
    dsimp only
    rw [State.ownerOf_modTile]
    rfl

end Sys2Proof.Machine
end

section
/-! PROOFS. Every step keeps memory in its canonical form (O25).

Memory changes in a dozen places only: the model's `Memory.write`, which keeps a canonical memory canonical, and filters of the list,
which do too. The first part says which operations on a state leave memory as it is (`State.mem_…`), in the order in which the model
defines them; the second says of every other operation that its result is canonical when the state is (`canonical_…`). Results that
carry a state only in some of their forms have a predicate `Canonical` of their own. -/

namespace Sys2Proof.Machine

/-! ### Canonical memories -/

theorem SMap.rising_filter {α : Type} {lo : Nat} (m : SMap α) (p : Nat × α → Bool) (h : SMap.rising lo m = true) :
    SMap.rising lo (m.filter p) = true := by
  induction m generalizing lo with
  | nil => rfl
  | cons e m ih =>
    obtain ⟨k, v⟩ := e
    simp only [SMap.rising, Bool.and_eq_true, decide_eq_true_eq] at h
    rw [List.filter_cons]
    split
    · simp only [SMap.rising, Bool.and_eq_true, decide_eq_true_eq]
      exact ⟨h.1, ih h.2⟩
    · exact SMap.rising_le _ (ih h.2) (by omega)

@[simp] theorem wf_filter {m : SMap Byte} (h : Memory.wf m = true) (p : Nat × Byte → Bool) : Memory.wf (m.filter p) = true := by
  simp only [Memory.wf, SMap.wf, Bool.and_eq_true] at h ⊢
  obtain ⟨hrising, hall⟩ := h
  exact ⟨SMap.rising_filter m p hrising, List.all_eq_true.mpr fun e he => List.all_eq_true.mp hall e (List.mem_filter.mp he).1⟩

@[simp] theorem wf_write {m : SMap Byte} (h : Memory.wf m = true) (a : Nat) (bs : List Byte) : Memory.wf (Memory.write m a bs) = true :=
  memory_write_wf m a bs h

@[simp] theorem wf_ite {c : Prop} [Decidable c] {m n : SMap Byte} (hm : Memory.wf m = true) (hn : Memory.wf n = true) :
    Memory.wf (if c then m else n) = true := by
  split <;> assumption

@[simp] theorem State.mem_ite {c : Prop} [Decidable c] (a b : State) : (if c then a else b).mem = if c then a.mem else b.mem :=
  apply_ite State.mem c a b

theorem wf_ite_mem {c : Prop} [Decidable c] {a b : State} (ha : Memory.wf a.mem = true) (hb : Memory.wf b.mem = true) :
    Memory.wf (if c then a else b).mem = true := by
  split <;> assumption

theorem mem_foldl {α : Type} {f : State → α → State} (h : ∀ s x, (f s x).mem = s.mem) (l : List α) (s : State) :
    (l.foldl f s).mem = s.mem :=
  List.foldlRecOn (motive := fun t => t.mem = s.mem) l f rfl fun _ hr x _ => (h _ x).trans hr

theorem canonical_foldl {α : Type} {f : State → α → State} (h : ∀ s x, Memory.wf s.mem = true → Memory.wf (f s x).mem = true)
    (l : List α) {s : State} (hs : Memory.wf s.mem = true) : Memory.wf (l.foldl f s).mem = true :=
  List.foldlRecOn (motive := fun t => Memory.wf t.mem = true) l f hs fun _ hr x _ => h _ x hr

/-! ### Results that carry a state -/

/-- The state that a body ends with is canonical; a trap is taken at the state that the body began with. -/
def Res.Canonical : Res → Prop
  | .done s | .go s _ | .hold s | .end_ s => Memory.wf s.mem = true
  | .trap _ _ => True

@[simp] theorem Res.canonical_done (s : State) : (Res.done s).Canonical ↔ Memory.wf s.mem = true := Iff.rfl
@[simp] theorem Res.canonical_go (s : State) (t : Addr) : (Res.go s t).Canonical ↔ Memory.wf s.mem = true := Iff.rfl
@[simp] theorem Res.canonical_hold (s : State) : (Res.hold s).Canonical ↔ Memory.wf s.mem = true := Iff.rfl
@[simp] theorem Res.canonical_end (s : State) : (Res.end_ s).Canonical ↔ Memory.wf s.mem = true := Iff.rfl
@[simp] theorem Res.canonical_trap (c : Nat) (a : Addr) : (Res.trap c a).Canonical := trivial

@[simp] theorem Res.canonical_ite {c : Prop} [Decidable c] {a b : Res} (ha : a.Canonical) (hb : b.Canonical) :
    (if c then a else b).Canonical := by
  split <;> assumption

theorem Res.canonical_getD {o : Option Res} (ho : ∀ r, o = some r → r.Canonical) {x : Res} (hx : x.Canonical) : (o.getD x).Canonical := by
  cases o with
  | none => exact hx
  | some r => exact ho r rfl

/-- A list of checks is canonical when its first trap and the checks after it are. -/
theorem canonical_guard {c : Prop} [Decidable c] {r : Res} {o : Option Res} (hr : r.Canonical) (ho : ∀ q, o = some q → q.Canonical) :
    ∀ q, (if c then some r else o) = some q → q.Canonical := by
  split
  · rintro q ⟨⟩
    exact hr
  · exact ho

theorem Res.Canonical.of_done {x : Res} (hx : x.Canonical) {t : State} (ht : x = .done t) : Memory.wf t.mem = true := by
  subst ht
  exact hx

/-- The next state of an answered step is canonical. -/
def Out.Canonical (o : Out) : Prop := ∀ t, o = .next t → Memory.wf t.mem = true

@[simp] theorem Out.canonical_next (s : State) : Out.Canonical (.next s) ↔ Memory.wf s.mem = true :=
  ⟨fun h => h s rfl, fun h t ht => by cases ht; exact h⟩

theorem Out.Canonical.of_next {x : Out} (hx : x.Canonical) {t : State} (ht : x = .next t) : Memory.wf t.mem = true := hx t ht

/-- What an attempt gives has the property `P`, and what it stops with is canonical. -/
def Try.Sat {α : Type} (P : α → Prop) : Try α → Prop
  | .error r => r.Canonical
  | .ok a => P a

@[simp] theorem Try.sat_error {α : Type} (P : α → Prop) (r : Res) : Try.Sat P (.error r : Try α) ↔ r.Canonical := Iff.rfl
@[simp] theorem Try.sat_ok {α : Type} (P : α → Prop) (a : α) : Try.Sat P (.ok a) ↔ P a := Iff.rfl

theorem Try.Sat.of_ok {α : Type} {P : α → Prop} {x : Try α} (hx : x.Sat P) {a : α} (ha : x = .ok a) : P a := by
  subst ha
  exact hx

theorem Try.Sat.of_error {α : Type} {P : α → Prop} {x : Try α} (hx : x.Sat P) {r : Res} (hr : x = .error r) : r.Canonical := by
  subst hr
  exact hx

theorem Try.canonical_into {α : Type} {P : α → Prop} {x : Try α} {f : α → Res} (hx : x.Sat P) (hf : ∀ a, P a → (f a).Canonical) :
    (x.into f).Canonical := by
  cases x with
  | error r => exact hx
  | ok a => exact hf a hx

/-- The state after an engine's write is canonical. -/
def EngWrite.Canonical : EngWrite → Prop
  | .ok s => Memory.wf s.mem = true
  | _ => True

@[simp] theorem EngWrite.canonical_ok (s : State) : (EngWrite.ok s).Canonical ↔ Memory.wf s.mem = true := Iff.rfl

theorem EngWrite.Canonical.of_ok {x : EngWrite} (hx : x.Canonical) {t : State} (ht : x = .ok t) : Memory.wf t.mem = true := by
  subst ht
  exact hx

/-- The state after a part of a copy is canonical. -/
def CuStep.Canonical : CuStep → Prop
  | .ok s _ => Memory.wf s.mem = true
  | _ => True

theorem CuStep.Canonical.of_ok {x : CuStep} (hx : x.Canonical) {t : State} {b : Burst} (ht : x = .ok t b) : Memory.wf t.mem = true := by
  subst ht
  exact hx

/-- The state after a group or row of the matrix unit is canonical. -/
def MuStep.Canonical : MuStep → Prop
  | .ok s => Memory.wf s.mem = true
  | _ => True

@[simp] theorem MuStep.canonical_ok (s : State) : (MuStep.ok s).Canonical ↔ Memory.wf s.mem = true := Iff.rfl

/-- The state in which a lineage instruction answers is canonical. -/
def LinOut.Canonical : LinOut → Prop
  | .ans s _ _ _ => Memory.wf s.mem = true
  | _ => True

@[simp] theorem LinOut.canonical_ans (s : State) (d : Word) (ok : Bool) (code : Nat) :
    (LinOut.ans s d ok code).Canonical ↔ Memory.wf s.mem = true := Iff.rfl

theorem LinOut.Canonical.of_ans {x : LinOut} (hx : x.Canonical) {t : State} {d : Word} {ok : Bool} {code : Nat}
    (ht : x = .ans t d ok code) : Memory.wf t.mem = true := by
  subst ht
  exact hx


/-! ## Operations that leave memory as it is -/


/-! ### Focus -/

@[simp] theorem State.mem_setThread (s : State) (k : Key) (x : Thread) : (s.setThread k x).mem = s.mem := by
  simp [State.setThread]
@[simp] theorem State.mem_modThread (s : State) (k : Key) (f : Thread → Thread) : (s.modThread k f).mem = s.mem := by
  simp [State.modThread]
@[simp] theorem State.mem_setCtx (s : State) (t c : Nat) (x : Ctx) : (s.setCtx t c x).mem = s.mem := by
  simp [State.setCtx]
@[simp] theorem State.mem_modCtx (s : State) (t c : Nat) (f : Ctx → Ctx) : (s.modCtx t c f).mem = s.mem := by
  simp [State.modCtx]
@[simp] theorem State.mem_setTile (s : State) (t : Nat) (x : Tile) : (s.setTile t x).mem = s.mem := by
  simp [State.setTile]
@[simp] theorem State.mem_modTile (s : State) (t : Nat) (f : Tile → Tile) : (s.modTile t f).mem = s.mem := by
  simp [State.modTile]
@[simp] theorem State.mem_focus (s : State) (k : Key) : (s.focus k).mem = s.mem := by
  simp [State.focus]
@[simp] theorem State.mem_modDie (s : State) (d : Nat) (f : Die → Die) : (s.modDie d f).mem = s.mem := (rfl)
@[simp] theorem State.mem_setPart (s : State) (p : Nat) (x : Partn) : (s.setPart p x).mem = s.mem := (rfl)
@[simp] theorem State.mem_modPart (s : State) (p : Nat) (f : Partn → Partn) : (s.modPart p f).mem = s.mem := (rfl)
@[simp] theorem State.mem_ws (s : State) (n : Nat) (w : Word) : (s.ws n w).mem = s.mem := (rfl)
@[simp] theorem State.mem_wa (s : State) (n : Nat) (a : Addr) : (s.wa n a).mem = s.mem := (rfl)
@[simp] theorem State.mem_wp (s : State) (n : Nat) (b : Bool) : (s.wp n b).mem = s.mem := (rfl)
@[simp] theorem State.mem_late (s : State) (ds : List (Reg × Vec)) (cond : Option (Nat × Addr)) : (s.late ds cond).mem = s.mem := (rfl)

/-! ### Line -/

@[simp] theorem State.mem_setHeld (s : State) (ag l : Nat) (h : Option Held) : (s.setHeld ag l h).mem = s.mem := (rfl)
@[simp] theorem State.mem_allTiles (s : State) (f : Nat → Tile → Tile) : (s.allTiles f).mem = s.mem := (rfl)
@[simp] theorem State.mem_allDies (s : State) (f : Nat → Die → Die) : (s.allDies f).mem = s.mem := (rfl)
@[simp] theorem State.mem_dropCopies (s : State) (l : Nat) (keep : Option Nat) : (s.dropCopies l keep).mem = s.mem := (rfl)
@[simp] theorem State.mem_mapThreads (s : State) (f : Key → Thread → Thread) : (s.mapThreads f).mem = s.mem := (rfl)
@[simp] theorem State.mem_wakeLine (s : State) (die : Option Nat) (l : Option Nat × Nat) : (s.wakeLine die l).mem = s.mem := (rfl)
@[simp] theorem State.mem_wakeLds (s : State) (p : Place) (v : Word) : (s.wakeLds p v).mem = s.mem := (rfl)
@[simp] theorem State.mem_breakResv (s : State) (scratch : Option Nat) (l : Nat) : (s.breakResv scratch l).mem = s.mem := (rfl)
@[simp] theorem State.mem_strong (s : State) (die l : Nat) : (s.strong die l).mem = s.mem := (rfl)
@[simp] theorem State.mem_stripLine (s : State) (l : Nat) (spare : List Nat) : (s.stripLine l spare).mem = s.mem := (rfl)
@[simp] theorem State.mem_spoilSlots (s : State) (a n : Nat) : (s.spoilSlots a n).mem = s.mem := by
  simp [State.spoilSlots]
@[simp] theorem State.mem_mergeHeld (s : State) (ag : Nat) (x : Store) : (s.mergeHeld ag x).mem = s.mem := by
  unfold State.mergeHeld
  split <;> rfl
@[simp] theorem State.mem_setFull (s : State) (d n : Nat) (full : Bool) : (s.setFull d n full).mem = s.mem := (rfl)
@[simp] theorem State.mem_record (s : State) (pid a : Nat) (bs : List Byte) (ring : Option Nat) :
    (s.record pid a bs ring).mem = s.mem := (rfl)
@[simp] theorem State.mem_sendRec (s : State) (p : Nat) : (s.sendRec p).mem = s.mem := by
  unfold State.sendRec
  dsimp only
  split <;> simp
@[simp] theorem State.mem_post (s : State) (r : ERec) : (s.post r).mem = s.mem := by
  simp [State.post]
@[simp] theorem State.mem_recorded (s : State) (o : Option Nat) : (s.recorded o).mem = s.mem := by
  unfold State.recorded
  split <;> simp
@[simp] theorem State.mem_forgetRing (s : State) (p : Nat) : (s.forgetRing p).mem = s.mem := (rfl)
@[simp] theorem State.mem_writeLog (s : State) (k : Nat) (r : ERec) : (s.writeLog k r).mem = s.mem := by
  unfold State.writeLog
  split <;> rfl
@[simp] theorem State.mem_logEvent (s : State) (kind tile pid cause addr : Nat) : (s.logEvent kind tile pid cause addr).mem = s.mem := by
  unfold State.logEvent
  dsimp only
  split <;> simp

/-! ### Window -/

@[simp] theorem State.mem_queueWrite0 (s : State) (p q v : Nat) (fromS : Bool) : (s.queueWrite0 p q v fromS).mem = s.mem := by
  simp [State.queueWrite0]
@[simp] theorem State.mem_queueTail (s : State) (p q v : Nat) : (s.queueTail p q v).mem = s.mem := by
  simp [State.queueTail]
@[simp] theorem State.mem_queueWrite (s : State) (p q i v : Nat) (fromS : Bool) : (s.queueWrite p q i v fromS).mem = s.mem := by
  unfold State.queueWrite
  dsimp only
  split <;> simp
@[simp] theorem State.mem_ringWrite0 (s : State) (p v : Nat) : (s.ringWrite0 p v).mem = s.mem := by
  simp [State.ringWrite0]
@[simp] theorem State.mem_ringHead (s : State) (p v : Nat) : (s.ringHead p v).mem = s.mem := by
  simp [State.ringHead]
@[simp] theorem State.mem_mailbox (s : State) (v : Nat) : (s.mailbox v).mem = s.mem := by
  simp [State.mailbox]
@[simp] theorem State.mem_devWriteDouble (s : State) (view off v : Nat) : (s.devWriteDouble view off v).mem = s.mem := by
  unfold State.devWriteDouble
  (repeat' split) <;> simp
@[simp] theorem State.mem_devWrite (s : State) (view off : Nat) (bs : List Byte) : (s.devWrite view off bs).mem = s.mem := by
  simp [State.devWrite, mem_foldl]

/-! ### Translate -/

@[simp] theorem State.mem_noteTlb (s : State) (w : Who) (a : Addr) : (s.noteTlb w a).mem = s.mem := by
  unfold State.noteTlb
  dsimp only
  (repeat' split) <;> simp

/-! ### Access -/

@[simp] theorem State.mem_sramWrite (s : State) (t b : Nat) (bs : List Byte) : (s.sramWrite t b bs).mem = s.mem := by
  simp [State.sramWrite, mem_foldl]
@[simp] theorem State.mem_spoil (s : State) (t b n : Nat) : (s.spoil t b n).mem = s.mem := by
  simp [State.spoil, mem_foldl]
@[simp] theorem State.mem_spoilAt (s : State) (p : Place) (n : Nat) : (s.spoilAt p n).mem = s.mem := by
  unfold State.spoilAt
  split <;> simp
@[simp] theorem State.mem_sramFull (s : State) (t d n : Nat) (full : Bool) : (s.sramFull t d n full).mem = s.mem := by
  simp [State.sramFull]
@[simp] theorem State.mem_sendRun (s : State) (t : Nat) : (s.sendRun t).mem = s.mem := by
  unfold State.sendRun
  split <;> simp
@[simp] theorem State.mem_sendExcess (s : State) (t : Nat) : (s.sendExcess t).mem = s.mem := by
  simp [State.sendExcess, mem_foldl]
@[simp] theorem State.mem_enterFifo (s : State) (k : Key) (pid a : Nat) (bs : List Byte) (way : StoreWay) :
    (s.enterFifo k pid a bs way).mem = s.mem := by
  simp [State.enterFifo]
@[simp] theorem State.mem_finish (s : State) (o : Option (Key × Nat)) : (s.finish o).mem = s.mem := by
  unfold State.finish
  split <;> simp
@[simp] theorem State.mem_merged (s : State) (ag : Nat) (x : Store) : (s.merged ag x).mem = s.mem := by
  simp [State.merged]
@[simp] theorem State.mem_mergePending (s : State) (d l : Nat) : (s.mergePending d l).mem = s.mem := by
  simp [State.mergePending, mem_foldl]
@[simp] theorem State.mem_performStore (s : State) (d : Nat) (x : Store) : (s.performStore d x).mem = s.mem := by
  unfold State.performStore
  dsimp only
  split <;> simp
@[simp] theorem State.mem_mapEntries (s : State) (f : Entry → Entry) : (s.mapEntries f).mem = s.mem := (rfl)
@[simp] theorem State.mem_spoilTcb (s : State) (p : Place) (n : Nat) : (s.spoilTcb p n).mem = s.mem := by
  simp [State.spoilTcb]
@[simp] theorem State.mem_mapCtxs (s : State) (f : Nat → Ctx → Ctx) : (s.mapCtxs f).mem = s.mem := (rfl)
@[simp] theorem State.mem_spoilMmas (s : State) (pid node : Nat) : (s.spoilMmas pid node).mem = s.mem := (rfl)
@[simp] theorem State.mem_ueFind (s : State) (ps : List Piece) : (s.ueFind ps).mem = s.mem := by
  simp [State.ueFind]
@[simp] theorem State.mem_spoilDests (s : State) (ps : List Piece) : (s.spoilDests ps).mem = s.mem := by
  simp [State.spoilDests]
@[simp] theorem State.mem_ueOver (s : State) (p : Place) (n : Nat) : (s.ueOver p n).mem = s.mem := by
  simp [State.ueOver]
@[simp] theorem State.mem_spoilSources (s : State) (p : Place) (n : Nat) : (s.spoilSources p n).mem = s.mem := by
  simp [State.spoilSources]
@[simp] theorem State.mem_spoilMem (s : State) (a n : Nat) : (s.spoilMem a n).mem = s.mem := by
  simp [State.spoilMem]
@[simp] theorem State.mem_poisonAt (s : State) (p : Place) : (s.poisonAt p).mem = s.mem := by
  unfold State.poisonAt
  split <;> simp

/-! ### Region -/

@[simp] theorem State.mem_markId (s : State) (z : RegId) (cause : Nat) : (s.markId z cause).mem = s.mem := by
  simp [State.markId]
@[simp] theorem State.mem_sendNarrow (s : State) (d l : Nat) (who cause : RegId) (lo hi : Nat) : (s.sendNarrow d l who cause lo hi).mem =
    s.mem := (rfl)
@[simp] theorem State.mem_precede (s : State) (d l : Nat) (k w : RegId) (first : Bool) : (s.precede d l k w first).mem = s.mem := by
  unfold State.precede
  dsimp only
  split <;> simp
@[simp] theorem State.mem_endIrr (s : State) (k : Key) (cause tc : Nat) : (s.endIrr k cause tc).mem = s.mem := by
  unfold State.endIrr
  dsimp only
  split <;> simp

/-! ### Ops -/

@[simp] theorem State.mem_putStore (s : State) (x : Persist) : (s.putStore x).mem = s.mem := (rfl)
@[simp] theorem State.mem_useSpareLane (s : State) (port : Nat) : (s.useSpareLane port).mem = s.mem := (rfl)
@[simp] theorem State.mem_leak (s : State) (kind id : Nat) : (s.leak kind id).mem = s.mem := by
  simp [State.leak]
@[simp] theorem State.mem_correctable (s : State) (kind id : Nat) : (s.correctable kind id).mem = s.mem := by
  simp [State.correctable]
@[simp] theorem State.mem_noteFetch (s : State) (pc : Addr) : (s.noteFetch pc).mem = s.mem := by
  unfold State.noteFetch
  split <;> simp
@[simp] theorem State.mem_dropLine (s : State) (pc : Addr) : (s.dropLine pc).mem = s.mem := by
  unfold State.dropLine
  split <;> rfl
@[simp] theorem State.mem_wordSeen (s : State) (pc : Addr) : (s.wordSeen pc).mem = s.mem := by
  unfold State.wordSeen
  dsimp only
  (repeat' split) <;> simp
@[simp] theorem State.mem_leaveQueues (s : State) : (s.leaveQueues).mem = s.mem := by
  unfold State.leaveQueues
  split <;> rfl
@[simp] theorem State.mem_handlerFault (s : State) (c : Nat) (x a : Addr) : (s.handlerFault c x a).mem = s.mem := by
  simp [State.handlerFault]
@[simp] theorem State.mem_dropResv (s : State) (k : Key) : (s.dropResv k).mem = s.mem := by
  unfold State.dropResv
  split <;> simp
@[simp] theorem State.mem_trapLeaves (s : State) (c : Nat) (a : Addr) : (s.trapLeaves c a).mem = s.mem := by
  unfold State.trapLeaves
  dsimp only
  (repeat' split) <;> simp
@[simp] theorem State.mem_trapEntry (s : State) (c : Nat) (x a : Addr) (v : Option Addr) (back : Addr) : (s.trapEntry c x a v back).mem =
    s.mem := by
  unfold State.trapEntry
  dsimp only
  (repeat' split) <;> simp
@[simp] theorem State.mem_muDelivered (s : State) : (s.muDelivered).mem = s.mem := (rfl)
@[simp] theorem State.mem_due (s : State) (c : Nat) (a : Addr) : (s.due c a).1.mem = s.mem := by
  unfold State.due
  split
  · rfl
  · split <;> simp
@[simp] theorem State.mem_trapWaits (s : State) (c : Nat) (a : Addr) : (s.trapWaits c a).mem = s.mem := by
  simp [State.trapWaits]
@[simp] theorem State.mem_held_ (s : State) : (s.held_).mem = s.mem := (rfl)

/-! ### Coherence -/

@[simp] theorem State.mem_grantLease (s : State) (t l : Nat) : (s.grantLease t l).mem = s.mem := by
  simp [State.grantLease, mem_foldl]
@[simp] theorem State.mem_fillShared (s : State) (ag l pid : Nat) : (s.fillShared ag l pid).mem = s.mem := by
  simp [State.fillShared]
@[simp] theorem State.mem_leaseTo (s : State) (t l : Nat) : (s.leaseTo t l).mem = s.mem := by
  simp [State.leaseTo]
@[simp] theorem State.mem_dropReplicas (s : State) (t l : Nat) : (s.dropReplicas t l).mem = s.mem := (rfl)
@[simp] theorem State.mem_discard (s : State) (t l : Nat) : (s.discard t l).mem = s.mem := by
  simp [State.discard, mem_foldl]
@[simp] theorem State.mem_setEntry (s : State) (l : Nat) (e : SfEnt) : (s.setEntry l e).mem = s.mem := (rfl)
@[simp] theorem State.mem_arrive (s : State) (l : Nat) (q : HomeReq) : (s.arrive l q).mem = s.mem := by
  simp [State.arrive]
@[simp] theorem State.mem_want (s : State) (t pid : Nat) (ps : List Piece) : (s.want t pid ps).mem = s.mem := (rfl)

/-! ### MemOps -/

@[simp] theorem State.mem_copyTo (s : State) (k : Key) (v : Vec) : (s.copyTo k v).mem = s.mem := by
  simp [State.copyTo]
@[simp] theorem State.mem_countSdc (s : State) (t unit : Nat) : (s.countSdc t unit).mem = s.mem := (rfl)
@[simp] theorem State.mem_differs (s : State) (k : Key) (unit : Nat) : (s.differs k unit).mem = s.mem := by
  unfold State.differs
  dsimp only
  split <;> simp
@[simp] theorem State.mem_regionWrite (s : State) (a : Nat) (bs : List Byte) : (s.regionWrite a bs).mem = s.mem := (rfl)
@[simp] theorem State.mem_replicate (s : State) (l : Nat) (load : Bool) : (s.replicate l load).mem = s.mem := by
  simp [State.replicate]
@[simp] theorem State.mem_makeReplicas (s : State) (ps : List Piece) (repl : Bool) : (s.makeReplicas ps repl).mem = s.mem := by
  simp [State.makeReplicas, mem_foldl]
@[simp] theorem State.mem_noteAll (s : State) (l : List (Addr × List Piece)) : (s.noteAll l).mem = s.mem := by
  simp [State.noteAll, mem_foldl]
@[simp] theorem State.mem_marker (s : State) (scope : Nat) (owner : Option (Key × Nat)) : (s.marker scope owner).mem = s.mem := (rfl)
@[simp] theorem State.mem_spoilPieces (s : State) (ps : List Piece) : (s.spoilPieces ps).mem = s.mem := by
  simp [State.spoilPieces, mem_foldl]

/-! ### Atomics -/

@[simp] theorem State.mem_joinQueue (s : State) (va : Addr) (a op fn n : Nat) (x y : Word) (acq : Bool) (d : Nat) :
    (s.joinQueue va a op fn n x y acq d).mem = s.mem := (rfl)
@[simp] theorem State.mem_turnIntoSC (s : State) (l n a : Nat) (x : Word) : (s.turnIntoSC l n a x).mem = s.mem := (rfl)
@[simp] theorem State.mem_modLaunch (s : State) (p l : Nat) (f : Launch → Launch) : (s.modLaunch p l f).mem = s.mem := by
  unfold State.modLaunch
  split <;> rfl
@[simp] theorem State.mem_placeRed (s : State) (at_ : Place) (f : FAtom) (x : Word) (fault : Option (Nat × Addr)) (so : Bool) :
    (s.placeRed at_ f x fault so).mem = s.mem := by
  simp [State.placeRed]
@[simp] theorem State.mem_answer (s : State) (k : Key) (id : Nat) (v : Word) (cond : Option (Nat × Addr)) : (s.answer k id v cond).mem =
    s.mem := by
  simp [State.answer]

/-! ### Engine -/

@[simp] theorem State.mem_sramFills (s : State) (t d : Nat) : (s.sramFills t d).mem = s.mem := by
  simp [State.sramFills]
@[simp] theorem State.mem_memFills (s : State) (d : Nat) : (s.memFills d).mem = s.mem := (rfl)
@[simp] theorem State.mem_sramLand (s : State) (t b : Nat) (bs : List Byte) : (s.sramLand t b bs).mem = s.mem := by
  simp [State.sramLand, mem_foldl]
@[simp] theorem State.mem_engPoison (s : State) (ps : List Piece) : (s.engPoison ps).mem = s.mem := by
  refine mem_foldl (fun t p => ?_) ps s
  dsimp only
  split <;> simp
@[simp] theorem State.mem_stickAt (s : State) (k : Key) (bad sat : Bool) : (s.stickAt k bad sat).mem = s.mem := by
  simp [State.stickAt]

/-! ### Copy -/

@[simp] theorem State.mem_syncPut (s : State) (t b i v : Nat) : (s.syncPut t b i v).mem = s.mem := by
  simp [State.syncPut]
@[simp] theorem State.mem_syncMatch (s : State) (t b count : Nat) : (s.syncMatch t b count).mem = s.mem := by
  simp [State.syncMatch]
@[simp] theorem State.mem_syncAdd (s : State) (t b amt : Nat) : (s.syncAdd t b amt).mem = s.mem := by
  simp [State.syncAdd]
@[simp] theorem State.mem_syncMismatch (s : State) (t c b sender : Nat) : (s.syncMismatch t c b sender).mem = s.mem := by
  simp [State.syncMismatch]
@[simp] theorem State.mem_syncClear (s : State) (t c b : Nat) : (s.syncClear t c b).mem = s.mem := by
  simp [State.syncClear]
@[simp] theorem State.mem_closeBatch (s : State) : (s.closeBatch).mem = s.mem := (rfl)
@[simp] theorem State.mem_dropArrivals (s : State) (ids : List Nat) : (s.dropArrivals ids).mem = s.mem := (rfl)
@[simp] theorem State.mem_cuDrop (s : State) (t c : Nat) : (s.cuDrop t c).mem = s.mem := by
  simp [State.cuDrop]
@[simp] theorem State.mem_tagAway (s : State) (n : Nat) (x : CuCmd) : (s.tagAway n x).mem = s.mem := (rfl)
@[simp] theorem State.mem_cuFills (s : State) (x : CuCmd) (t c : Nat) (o : Bool × Nat) : (s.cuFills x t c o).mem = s.mem := by
  unfold State.cuFills
  (repeat' split) <;> simp
@[simp] theorem State.mem_cuHalt (s : State) (t c cause : Nat) (a : Addr) : (s.cuHalt t c cause a).mem = s.mem := by
  simp [State.cuHalt]
@[simp] theorem State.mem_cuRetire (s : State) (t c : Nat) (x : CuCmd) : (s.cuRetire t c x).mem = s.mem := by
  simp [State.cuRetire]

/-! ### Collective -/

@[simp] theorem State.mem_collEnd (s : State) (t c : Nat) (x : CuCmd) (failed mismatch : Bool) : (s.collEnd t c x failed mismatch).mem =
    s.mem := by
  simp [State.collEnd, mem_foldl]
@[simp] theorem State.mem_mapGroups (s : State) (f : Group → Group) : (s.mapGroups f).mem = s.mem := by
  simp [State.mapGroups, mem_foldl]
@[simp] theorem State.mem_answered (s : State) (x : Chunk) : (s.answered x).mem = s.mem := by
  simp [State.answered]
@[simp] theorem State.mem_orphaned (s : State) (t : Nat) : (s.orphaned t).mem = s.mem := by
  simp [State.orphaned]
@[simp] theorem State.mem_chunkDeliver (s : State) (n : Nat) (x : Chunk) : (s.chunkDeliver n x).mem = s.mem := by
  unfold State.chunkDeliver
  (repeat' split) <;> simp
@[simp] theorem State.mem_chunkArrive (s : State) (n : Nat) : (s.chunkArrive n).mem = s.mem := by
  unfold State.chunkArrive
  (repeat' split) <;> simp
@[simp] theorem State.mem_chunkAck (s : State) (t c rank seq idx : Nat) : (s.chunkAck t c rank seq idx).mem = s.mem := by
  unfold State.chunkAck
  split <;> simp
@[simp] theorem State.mem_pathDown (s : State) : (s.pathDown).mem = s.mem := by
  simp [State.pathDown]
@[simp] theorem State.mem_chunkResend (s : State) (t c rank seq idx : Nat) : (s.chunkResend t c rank seq idx).mem = s.mem := by
  unfold State.chunkResend
  split <;> simp

/-! ### Matrix -/

@[simp] theorem State.mem_muDrop (s : State) (t c : Nat) : (s.muDrop t c).mem = s.mem := by
  simp [State.muDrop, mem_foldl]
@[simp] theorem State.mem_answerRow (s : State) (t c : Nat) (x : MuCmd) (v : Vec) : (s.answerRow t c x v).mem = s.mem := by
  simp [State.answerRow]
@[simp] theorem State.mem_muPartDone (s : State) (t c : Nat) (x : MuCmd) (n : Nat) : (s.muPartDone t c x n).mem = s.mem := by
  simp [State.muPartDone]

/-! ### Sched -/

@[simp] theorem State.mem_pushEntry (s : State) (t : Nat) (e : Entry) : (s.pushEntry t e).mem = s.mem := by
  simp [State.pushEntry]
@[simp] theorem State.mem_takeEntry (s : State) (t : Nat) (e : Entry) : (s.takeEntry t e).mem = s.mem := by
  simp [State.takeEntry]
@[simp] theorem State.mem_dropEntries (s : State) (p l : Nat) (a : Addr) : (s.dropEntries p l a).mem = s.mem := (rfl)
@[simp] theorem State.mem_leaveTask (s : State) (p l : Nat) (a : Addr) (t outcome : Nat) (faulted : Bool) :
    (s.leaveTask p l a t outcome faulted).mem = s.mem := by
  simp [State.leaveTask]
@[simp] theorem State.mem_killUnit (s : State) (t c status cause : Nat) : (s.killUnit t c status cause).mem = s.mem := by
  simp [State.killUnit]

/-! ### Task -/

@[simp] theorem State.mem_exitThread (s : State) (v : Word) : (s.exitThread v).mem = s.mem := by
  simp [State.exitThread]
@[simp] theorem State.mem_wakeWith (s : State) (i : Nat) (v : Word) : (s.wakeWith i v).mem = s.mem := by
  simp [State.wakeWith]

/-! ### System -/

@[simp] theorem State.mem_lpoolWrite (s : State) (p v : Nat) : (s.lpoolWrite p v).mem = s.mem := by
  simp [State.lpoolWrite]
@[simp] theorem State.mem_lsplitWrite (s : State) (t v : Nat) : (s.lsplitWrite t v).mem = s.mem := by
  simp [State.lsplitWrite]
@[simp] theorem State.mem_lgrpWrite (s : State) (t v : Nat) : (s.lgrpWrite t v).mem = s.mem := by
  simp [State.lgrpWrite, mem_foldl]
@[simp] theorem State.mem_leaseWrite (s : State) (p v : Nat) : (s.leaseWrite p v).mem = s.mem := (rfl)
@[simp] theorem State.mem_balWrite (s : State) (p v : Nat) : (s.balWrite p v).mem = s.mem := (rfl)
@[simp] theorem State.mem_wdogWrite (s : State) (p i v : Nat) : (s.wdogWrite p i v).mem = s.mem := (rfl)
@[simp] theorem State.mem_rlimitWrite (s : State) (t c v : Nat) : (s.rlimitWrite t c v).mem = s.mem := by
  simp [State.rlimitWrite]
@[simp] theorem State.mem_hbperWrite (s : State) (t v : Nat) : (s.hbperWrite t v).mem = s.mem := by
  simp [State.hbperWrite]
@[simp] theorem State.mem_histWrite (s : State) (t n v : Nat) : (s.histWrite t n v).mem = s.mem := by
  simp [State.histWrite]
@[simp] theorem State.mem_mprWrite (s : State) (t c v : Nat) : (s.mprWrite t c v).mem = s.mem := by
  simp [State.mprWrite]
@[simp] theorem State.mem_ptbrWrite (s : State) (t c v : Nat) : (s.ptbrWrite t c v).mem = s.mem := by
  simp [State.ptbrWrite]
@[simp] theorem State.mem_lsegWrite (s : State) (k : Key) (v : Nat) : (s.lsegWrite k v).mem = s.mem := by
  simp [State.lsegWrite]
@[simp] theorem State.mem_tsrWrite (s : State) (k : Key) (v : Nat) : (s.tsrWrite k v).mem = s.mem := by
  simp [State.tsrWrite]
@[simp] theorem State.mem_fencestWrite (s : State) (t v : Nat) : (s.fencestWrite t v).mem = s.mem := by
  simp [State.fencestWrite]
@[simp] theorem State.mem_csrWrite (s : State) (n v : Nat) : (s.csrWrite n v).mem = s.mem := by
  unfold State.csrWrite
  (repeat' split) <;> simp
@[simp] theorem State.mem_ackTrap (s : State) (n : Nat) : (s.ackTrap n).mem = s.mem := by
  simp [State.ackTrap]

/-! ### Turn -/

@[simp] theorem State.mem_notYet (s u : State) : (s.notYet u).mem = s.mem := rfl

/-! ### Threads -/

@[simp] theorem State.mem_returnNth (s : State) (k : Key) (n : Nat) : (s.returnNth k n).mem = s.mem := by
  unfold State.returnNth
  dsimp only
  (repeat' split) <;> simp
@[simp] theorem State.mem_wake (s : State) (k : Key) (v : Option Word) : (s.wake k v).mem = s.mem := by
  simp [State.wake]
@[simp] theorem State.mem_wrsReturn (s : State) (k : Key) (p : Place) : (s.wrsReturn k p).mem = s.mem := by
  simp [State.wrsReturn]
@[simp] theorem State.mem_dropMsg (s : State) (n : Nat) : (s.dropMsg n).mem = s.mem := (rfl)

/-! ### Launch -/

@[simp] theorem State.mem_modQueue (s : State) (p q : Nat) (f : LQ → LQ) : (s.modQueue p q f).mem = s.mem := (rfl)
@[simp] theorem State.mem_pollSlot (s : State) (p q : Nat) : (s.pollSlot p q).mem = s.mem := by
  simp [State.pollSlot]
@[simp] theorem State.mem_startUnit (s : State) (t : Nat) (e : Entry) (x : Launch) (bs h : List Byte) (a : Nat) :
    (s.startUnit t e x bs h a).mem = s.mem := by
  simp [State.startUnit, mem_foldl]
@[simp] theorem State.mem_overflowIn (s : State) (t : Nat) : (s.overflowIn t).mem = s.mem := by
  unfold State.overflowIn
  split <;> simp
@[simp] theorem State.mem_ship (s : State) (t u : Nat) (e : Entry) : (s.ship t u e).mem = s.mem := by
  simp [State.ship]
@[simp] theorem State.mem_stealFor (s : State) (t : Nat) : (s.stealFor t).mem = s.mem := by
  unfold State.stealFor
  dsimp only
  (repeat' split) <;> simp
@[simp] theorem State.mem_shipMany (t u n : Nat) (s : State) : (s.shipMany t u n).mem = s.mem := by
  induction n generalizing s with
  | zero => rfl
  | succ n ih =>
    unfold State.shipMany
    split
    · split
      · simp [ih]
      · rfl
    · rfl
@[simp] theorem State.mem_joinRed (s : State) (c : Ctx) (t n : Nat) (j : Addr) : (s.joinRed c t n j).mem = s.mem := by
  simp [State.joinRed]
@[simp] theorem State.mem_freeCtx (s : State) (t c : Nat) : (s.freeCtx t c).mem = s.mem := by
  simp [State.freeCtx, mem_foldl]
@[simp] theorem State.mem_exitOn (s : State) (t c : Nat) : (s.exitOn t c).mem = s.mem := by
  unfold State.exitOn
  dsimp only
  (repeat' split) <;> simp
@[simp] theorem State.mem_nextSignal (s : State) (src pid launch : Nat) : (s.nextSignal src pid launch).mem = s.mem := (rfl)
@[simp] theorem State.mem_doneMsg (s : State) (p l t : Nat) : (s.doneMsg p l t).mem = s.mem := by
  unfold State.doneMsg
  split <;> simp

/-! ### Trowel -/

@[simp] theorem State.mem_bindPut (s : State) (i : Nat) (v : Word) : (s.bindPut i v).mem = s.mem := (rfl)
@[simp] theorem State.mem_opndPut (s : State) (f : FTrowel) (n : Nat) (v : Word) : (s.opndPut f n v).mem = s.mem := by
  simp [State.opndPut]
@[simp] theorem State.mem_microVec (s : State) (f : FTrowel) (m : Micro) : (microVec s f m).mem = s.mem := by
  unfold microVec
  split <;> simp
@[simp] theorem State.mem_hawkKeep (s : State) (q : HawkRun) : (s.hawkKeep q).mem = s.mem := (rfl)
@[simp] theorem State.mem_hawkGoes (s : State) : (s.hawkGoes).mem = s.mem := by
  simp [State.hawkGoes]

/-! ### Preempt -/

@[simp] theorem State.mem_resumable (s : State) (p n : Nat) : (s.resumable p n).mem = s.mem := by
  unfold State.resumable
  split <;> simp
@[simp] theorem State.mem_refused (s : State) (m : Away) : (s.refused m).mem = s.mem := by
  unfold State.refused
  split <;> simp
@[simp] theorem State.mem_wdogNext (s : State) (p q step : Nat) : (s.wdogNext p q step).mem = s.mem := (rfl)
@[simp] theorem State.mem_wdog1 (s : State) (p q : Nat) : (s.wdog1 p q).mem = s.mem := by
  unfold State.wdog1
  split <;> simp [mem_foldl]

/-! ### Lath -/

@[simp] theorem State.mem_modVote (s : State) (t d : Nat) (f : Vote → Vote) : (s.modVote t d f).mem = s.mem := by
  simp [State.modVote]
@[simp] theorem State.mem_modNeigh (s : State) (t d : Nat) (f : Neigh → Neigh) : (s.modNeigh t d f).mem = s.mem := by
  simp [State.modNeigh]
@[simp] theorem State.mem_modLath (s : State) (t : Nat) (f : Lath → Lath) : (s.modLath t f).mem = s.mem := by
  simp [State.modLath]
@[simp] theorem State.mem_setSt (s : State) (t st : Nat) : (s.setSt t st).mem = s.mem := by
  simp [State.setSt]
@[simp] theorem State.mem_newPeriod (s : State) (t : Nat) : (s.newPeriod t).mem = s.mem := by
  unfold State.newPeriod
  split <;> simp [mem_foldl]
@[simp] theorem State.mem_sendBeat (s : State) (t dir : Nat) : (s.sendBeat t dir).mem = s.mem := by
  unfold State.sendBeat
  split <;> simp
@[simp] theorem State.mem_hearBeat (s : State) (t dir tid hseq health : Nat) : (s.hearBeat t dir tid hseq health).mem = s.mem := by
  unfold State.hearBeat
  split <;> simp
@[simp] theorem State.mem_broadcast (s : State) (x cause : Nat) : (s.broadcast x cause).mem = s.mem := by
  simp [State.broadcast]
@[simp] theorem State.mem_takeQuorum (s : State) (t dir : Nat) : (s.takeQuorum t dir).mem = s.mem := by
  unfold State.takeQuorum
  split <;> simp
@[simp] theorem State.mem_scrim (s : State) (x : Nat) : (s.scrim x).mem = s.mem := (rfl)
@[simp] theorem State.mem_permanent (s : State) (x : Nat) : (s.permanent x).mem = s.mem := by
  simp [State.permanent]
theorem State.mem_aroundTile (s : State) (x : Nat) {f : State → Nat → Nat → State} (hf : ∀ s a b, (f s a b).mem = s.mem) :
    (s.aroundTile x f).mem = s.mem := by
  refine mem_foldl (fun u k => ?_) _ s
  split
  · exact hf _ _ _
  · rfl
@[simp] theorem State.mem_appealFails (s : State) (x : Nat) : (s.appealFails x).mem = s.mem := by
  unfold State.appealFails
  dsimp only
  split <;> simp [State.mem_aroundTile]
@[simp] theorem State.mem_accuse (s : State) (t dir x j : Nat) : (s.accuse t dir x j).mem = s.mem := (rfl)
@[simp] theorem State.mem_respfRemote (s : State) (d x : Nat) : (s.respfRemote d x).mem = s.mem := (rfl)
@[simp] theorem State.mem_lostParties (s : State) (d x : Nat) : (s.lostParties d x).mem = s.mem := by
  simp [State.lostParties, mem_foldl]
@[simp] theorem State.mem_unvote (s : State) (x : Nat) : (s.unvote x).mem = s.mem := by
  unfold State.unvote
  refine (mem_foldl (fun u k => ?_) _ _).trans (State.mem_aroundTile _ _ (by simp))
  split
  · rfl
  · exact State.mem_aroundTile _ _ (by simp)
@[simp] theorem State.mem_readmitHome (s : State) (x : Nat) : (s.readmitHome x).mem = s.mem := by
  unfold State.readmitHome
  split
  · rfl
  extract_lets r r' r'' r'''
  have hr' : r'.mem = s.mem := (State.mem_aroundTile _ _ (by simp)).trans (by simp [r])
  have hr'' : r''.mem = s.mem := by
    refine (mem_foldl (fun u k => ?_) _ _).trans hr'
    split
    · rfl
    · exact State.mem_aroundTile _ _ (by simp)
  simpa [r'''] using hr''

/-! ### Lineage -/

@[simp] theorem State.mem_strongNode (s : State) (pid n : Nat) (on_ : Key → Bool) : (s.strongNode pid n on_).mem = s.mem := (rfl)
@[simp] theorem State.mem_signalOwn (s : State) (o : Option Nat) : (s.signalOwn o).mem = s.mem := by
  unfold State.signalOwn
  split <;> simp
@[simp] theorem State.mem_startEngine (s : State) (n : Nat) (x : Node) (target : Nat) (o : Option Nat) :
    (s.startEngine n x target o).mem = s.mem := (rfl)
@[simp] theorem State.mem_engineSignal (s : State) (pid launch vt off : Nat) : (s.engineSignal pid launch vt off).mem = s.mem := by
  unfold State.engineSignal
  split <;> simp
@[simp] theorem State.mem_engineEnd (s : State) (p n : Nat) : (s.engineEnd p n).mem = s.mem := by
  unfold State.engineEnd
  dsimp only
  (repeat' split) <;> simp

/-! ### Lines -/

@[simp] theorem State.mem_moveCopy (s : State) (t l : Nat) : (s.moveCopy t l).mem = s.mem := by
  unfold State.moveCopy
  split <;> simp

/-! ### Recovery -/

@[simp] theorem State.mem_ueFound (s : State) (k : Key) (va : Nat) : (s.ueFound k va).mem = s.mem := by
  unfold State.ueFound
  dsimp only
  (repeat' split) <;> simp [mem_foldl]
@[simp] theorem State.mem_partFails (s : State) (q : Nat) : (s.partFails q).mem = s.mem := by
  simp [State.partFails, mem_foldl]
@[simp] theorem State.mem_useSpareWire (s : State) (j : Nat) : (s.useSpareWire j).mem = s.mem := (rfl)

/-! ### Platform -/

@[simp] theorem State.mem_mbDone (s : State) : (s.mbDone).mem = s.mem := (rfl)
@[simp] theorem State.mem_mbFail (s : State) (e : Nat) : (s.mbFail e).mem = s.mem := (rfl)

/-! ### Regions -/

@[simp] theorem State.mem_beginRegion (s : State) (elastic : Bool) (target : Addr) (irr : Option Nat) :
    (s.beginRegion elastic target irr).mem = s.mem := (rfl)
@[simp] theorem State.mem_committedAt (s : State) (p : Nat) : (s.committedAt p).mem = s.mem := (rfl)
@[simp] theorem State.mem_applyNarrow (s : State) (n : Nat) : (s.applyNarrow n).mem = s.mem := by
  unfold State.applyNarrow
  split <;> simp

/-! ## Operations that may write memory -/

section

variable {s : State} (h : Memory.wf s.mem = true)
include h


/-! ### Line -/

@[simp] theorem canonical_recall (l : Nat) (spare : List Nat) : Memory.wf (s.recall l spare).mem = true := by
  simp [State.recall, h]
@[simp] theorem canonical_hostPut (a : Nat) (bs : List Byte) : Memory.wf (s.hostPut a bs).mem = true := by
  simp [State.hostPut, h]
@[simp] theorem canonical_settleTxn (l : Nat) : Memory.wf (s.settleTxn l).mem = true := by
  unfold State.settleTxn
  (repeat' split) <;> simp [h]
@[simp] theorem canonical_takeM (ag l pid : Nat) (spare : List Nat) : Memory.wf (s.takeM ag l pid spare).mem = true := by
  simp +contextual [State.takeM, canonical_foldl, h]
@[simp] theorem canonical_homeWrite (pid a : Nat) (bs : List Byte) : Memory.wf (s.homeWrite pid a bs).mem = true := by
  unfold State.homeWrite
  simp only [mem_foldl, State.mem_wakeLine, State.mem_breakResv, implies_true]
  refine canonical_foldl (fun t p ht => ?_) _ h
  rw [State.mem_mergeHeld, State.mem_dropCopies]
  split <;> simp [ht]

/-! ### Access -/

@[simp] theorem canonical_inM (ag l pid : Nat) : Memory.wf (s.inM ag l pid).mem = true := by
  unfold State.inM
  split <;> simp [h]
@[simp] theorem canonical_homeStore (pid a : Nat) (bs : List Byte) : Memory.wf (s.homeStore pid a bs).mem = true := by
  have hin := canonical_foldl (fun t p ht => canonical_inM ht (t.queueAgent (lineOf p.1)) (lineOf p.1) pid) (linePieces a bs) h
  simp [State.homeStore, mem_foldl, hin]
theorem canonical_linPut (pid node off : Nat) (bs : List Byte) : ∀ t, s.linPut pid node off bs = some t → Memory.wf t.mem = true := by
  simp +contextual [State.linPut, canonical_foldl, h]
theorem canonical_writePlace (w : Who) (way : StoreWay) (p : Place) (bs : List Byte) : ∀ t, s.writePlace w way p bs =
    some t → Memory.wf t.mem = true := by
  intro t ht
  cases p with
  | lin pid node off pad =>
    obtain ⟨u, hu, rfl⟩ := Option.map_eq_some_iff.mp ht
    simp [canonical_linPut h _ _ _ _ u hu]
  | pa | dev | sram | linPad | linNone | away =>
    cases ht
    simp [h]

/-! ### Region -/

@[simp] theorem canonical_sliceAccess (k : Key) (l : Nat) (wr : Bool) : Memory.wf (s.sliceAccess k l wr).mem = true := by
  unfold State.sliceAccess
  dsimp only
  (repeat' split) <;> simp +contextual [canonical_foldl, h]
theorem canonical_linCommit (pid : Nat) (r : Region) : ∀ t, s.linCommit pid r = some t → Memory.wf t.mem = true := by
  intro t ht
  unfold State.linCommit at ht
  dsimp only at ht
  split at ht
  · cases ht; exact h
  split at ht
  · cases ht
    refine canonical_foldl (fun u b hu => ?_) _ h
    split <;> simp [hu]
  · cases ht
@[simp] theorem canonical_sealAnswer (k : Key) (r : Region) (got : List Nat) (l : Nat) (ok : Bool) : Memory.wf
    (s.sealAnswer k r got l ok).mem = true := by
  unfold State.sealAnswer
  dsimp only
  split
  · split
    · next u hu => exact canonical_linCommit (by simp [h]) _ _ u hu
    · simp [h]
  · simp [h]
@[simp] theorem canonical_sealLine (k : Key) (l : Nat) : Memory.wf (s.sealLine k l).mem = true := by
  unfold State.sealLine
  dsimp only
  (repeat' split) <;> simp [h]
@[simp] theorem canonical_mergeRegion (k : Key) (r : Region) (l : Nat) : Memory.wf (s.mergeRegion k r l).mem = true := by
  unfold State.mergeRegion
  (repeat' split) <;> simp +contextual [canonical_foldl, h]
@[simp] theorem canonical_finalLine (k : Key) (l : Nat) : Memory.wf (s.finalLine k l).mem = true := by
  unfold State.finalLine
  dsimp only
  (repeat' split) <;> simp [h]
@[simp] theorem canonical_endCommit (k : Key) : Memory.wf (s.endCommit k).mem = true := by
  unfold State.endCommit
  split
  · split
    · exact canonical_foldl (fun _ l ht => canonical_finalLine ht k l) _ h
    · exact h
  · exact h

/-! ### Ops -/

omit h in
theorem canonical_muTrap (s : State) : ∀ r, s.muTrap = some r → r.Canonical := by
  intro r hr
  obtain ⟨e, -, rfl⟩ := Option.map_eq_some_iff.mp hr
  trivial
@[simp] theorem canonical_deliver (c : Nat) (a : Addr) : Memory.wf (s.deliver c a).mem = true := by
  simp [State.deliver, h]
@[simp] theorem canonical_take (c : Nat) (a : Addr) : Memory.wf (s.take c a).mem = true := by
  unfold State.take
  (repeat' split) <;> simp [h]
@[simp] theorem canonical_trapOnce {clear : State → State} (hc : Memory.wf (clear s).mem = true) (c : Nat) (a : Addr) :
    (s.trapOnce clear c a).Canonical := by
  unfold State.trapOnce
  (repeat' split) <;> simp [h, hc]
omit h in
@[simp] theorem canonical_advance {s0 s : State} (h0 : Memory.wf s0.mem = true) (h : Memory.wf s.mem = true) : Memory.wf
    (s0.advance s).mem = true := by
  unfold State.advance
  dsimp only
  (repeat' split) <;> simp [h0, h]
@[simp] theorem canonical_into {r : Res} (hr : r.Canonical) : Memory.wf (r.into s).mem = true := by
  cases r with
  | done t => exact canonical_advance h hr
  | go t a =>
    have ht : Memory.wf t.mem = true := hr
    simp only [Res.into]
    split <;> simp [h, ht]
  | trap c a => exact canonical_take h c a
  | hold t => exact hr
  | end_ t => exact hr
theorem canonical_owed : ∀ t, s.owed = some t → Memory.wf t.mem = true := by
  unfold State.owed
  (repeat' split) <;> simp [h]
theorem canonical_waitS : ∀ t, s.waitS = some t → Memory.wf t.mem = true := by
  unfold State.waitS
  split <;> simp [h]
@[simp] theorem canonical_issue (op : Nat) (k : Ctl) (regs : List Reg) (pre : State → Option (Nat × Addr)) {body : State → Res}
    (hb : ∀ u : State, Memory.wf u.mem = true → (body u).Canonical) : Memory.wf (s.issue op k regs pre body).mem = true := by
  have howed := canonical_owed h
  have hwaits := canonical_waitS h
  unfold State.issue
  dsimp only
  (repeat' split) <;> simp_all
@[simp] theorem canonical_run {op : Nat} {k : Ctl} {regs : List Reg} {body : State → Res}
    (hb : ∀ u : State, Memory.wf u.mem = true → (body u).Canonical) : Out.Canonical (run op k regs body s) :=
  (Out.canonical_next _).mpr (canonical_issue h _ _ _ _ hb)
@[simp] theorem canonical_eret : (s.eret).Canonical := by
  simp [State.eret, h]

/-! ### Coherence -/

@[simp] theorem canonical_clean (l : Nat) : Memory.wf (s.clean l).mem = true := by
  unfold State.clean
  (repeat' split) <;> simp [h]
@[simp] theorem canonical_giveUp (ag l : Nat) : Memory.wf (s.giveUp ag l).mem = true := by
  unfold State.giveUp
  dsimp only
  (repeat' split) <;> simp +contextual [canonical_foldl, h]
@[simp] theorem canonical_lower (ag l : Nat) : Memory.wf (s.lower ag l).mem = true := by
  unfold State.lower
  split <;> simp [h]
@[simp] theorem canonical_endTxn (l : Nat) (x : Txn) : Memory.wf (s.endTxn l x).mem = true := by
  unfold State.endTxn
  (repeat' split) <;> simp [h]
@[simp] theorem canonical_checkTxn (l : Nat) (x : Txn) : Memory.wf (s.checkTxn l x).mem = true := by
  simp [State.checkTxn, h]
@[simp] theorem canonical_beginTxn (l kind ag pid : Nat) (wr : Option (Nat × List Byte)) : Memory.wf (s.beginTxn l kind ag pid wr).mem =
    true := by
  simp [State.beginTxn, h]
@[simp] theorem canonical_takeUp (l : Nat) : Memory.wf (s.takeUp l).mem = true := by
  unfold State.takeUp
  (repeat' split) <;> simp [h]
@[simp] theorem canonical_ask (l : Nat) (q : HomeReq) : Memory.wf (s.ask l q).mem = true := by
  simp [State.ask, h]
@[simp] theorem canonical_shareIn (ag l pid : Nat) : Memory.wf (s.shareIn ag l pid).mem = true := by
  unfold State.shareIn
  dsimp only
  (repeat' split) <;> simp [h]
@[simp] theorem canonical_fillLoads (t pid : Nat) (ps : List Piece) : Memory.wf (s.fillLoads t pid ps).mem = true := by
  simp +contextual [State.fillLoads, canonical_foldl, h]

/-! ### MemOps -/

theorem canonical_takeCopy : s.takeCopy.Sat fun x => Memory.wf x.1.mem = true := by
  unfold State.takeCopy
  (repeat' split) <;> simp [h]
@[simp] theorem canonical_takeCopy_into {f : State × Vec → Res} (hf : ∀ x : State × Vec, Memory.wf x.1.mem = true → (f x).Canonical) :
    (s.takeCopy.into f).Canonical :=
  Try.canonical_into (canonical_takeCopy h) hf
theorem canonical_compare (a : Addr) (item : List Nat) : (s.compare a item).Sat fun t => Memory.wf t.mem = true := by
  unfold State.compare
  dsimp only
  (repeat' split) <;> simp [h]
@[simp] theorem canonical_compare_into (a : Addr) (item : List Nat) {f : State → Res}
    (hf : ∀ t : State, Memory.wf t.mem = true → (f t).Canonical) : ((s.compare a item).into f).Canonical :=
  Try.canonical_into (canonical_compare h a item) hf
theorem canonical_waits (l : List (Addr × List Piece)) : ∀ r, s.waits l = some r → r.Canonical := by
  unfold State.waits
  split <;> simp [h]
@[simp] theorem canonical_settle : (s.settle).Canonical := by
  unfold State.settle
  split <;> simp [h]
@[simp] theorem canonical_regionTouch (ps : List Piece) (wr : Bool) : Memory.wf (s.regionTouch ps wr).mem = true := by
  unfold State.regionTouch
  split
  · exact h
  split
  · simp [h]
  refine canonical_foldl (fun t p ht => ?_) _ h
  split
  · exact ht
  · refine canonical_foldl (fun u j hu => ?_) _ ht
    split <;> simp [hu]
theorem canonical_loadPieces (ps : List Piece) (repl : Bool) : (s.loadPieces ps repl).Sat fun x => Memory.wf x.1.mem = true := by
  unfold State.loadPieces
  dsimp only
  (repeat' split) <;> simp [h]
@[simp] theorem canonical_loadPieces_into (ps : List Piece) (repl : Bool) {f : State × List Byte → Res}
    (hf : ∀ x : State × List Byte, Memory.wf x.1.mem = true → (f x).Canonical) : ((s.loadPieces ps repl).into f).Canonical :=
  Try.canonical_into (canonical_loadPieces h ps repl) hf
theorem sat_checkAll (kind : Kind) (align : Nat) (l : List (Addr × Nat)) : (s.checkAll kind align l).Sat fun _ => True := by
  induction l with
  | nil => trivial
  | cons e r ih =>
    obtain ⟨a, n⟩ := e
    unfold State.checkAll
    (repeat' split) <;> simp_all
@[simp] theorem canonical_checkAll_into (kind : Kind) (align : Nat) (l : List (Addr × Nat)) {f : List (Addr × List Piece) → Res}
    (hf : ∀ l, (f l).Canonical) : ((s.checkAll kind align l).into f).Canonical :=
  Try.canonical_into (sat_checkAll h kind align l) fun l _ => hf l
theorem canonical_loadMany (as : List (Addr × Nat)) (align : Nat) (repl : Bool) (ordq : Nat) :
    (s.loadMany as align repl ordq).Sat fun g => Memory.wf g.s.mem = true := by
  have hcheck := sat_checkAll h .r align as
  have hcopy := canonical_takeCopy h
  unfold State.loadMany
  split
  · simp_all
  next l _ =>
    dsimp only
    split
    · split <;> simp_all
    split
    · simp [h]
    split
    next r hr => exact canonical_waits h _ _ hr
    next =>
      have hfill : Memory.wf (if s.thr.region.isNone then s.fillLoads s.cur.t s.ctx.pid (allPieces l) else s).mem = true := by
        split <;> simp [h]
      generalize (if s.thr.region.isNone then s.fillLoads s.cur.t s.ctx.pid (allPieces l) else s) = u at hfill ⊢
      have hpieces := canonical_loadPieces hfill (allPieces l) repl
      split
      · simp [h]
      · split <;> simp_all
@[simp] theorem canonical_loadMany_into (as : List (Addr × Nat)) (align : Nat) (repl : Bool) (ordq : Nat) {f : Got → Res}
    (hf : ∀ g : Got, Memory.wf g.s.mem = true → (f g).Canonical) : ((s.loadMany as align repl ordq).into f).Canonical :=
  Try.canonical_into (canonical_loadMany h as align repl ordq) hf
theorem canonical_load (a : Addr) (n align : Nat) (repl : Bool) (ordq : Nat) :
    (s.load a n align repl ordq).Sat fun g => Memory.wf g.s.mem = true :=
  canonical_loadMany h _ _ _ _
@[simp] theorem canonical_load_into (a : Addr) (n align : Nat) (repl : Bool) (ordq : Nat) {f : Got → Res}
    (hf : ∀ g : Got, Memory.wf g.s.mem = true → (f g).Canonical) : ((s.load a n align repl ordq).into f).Canonical :=
  Try.canonical_into (canonical_load h a n align repl ordq) hf
theorem canonical_loadNow (as : List (Addr × Nat)) (align : Nat) : (s.loadNow as align).Sat fun g => Memory.wf g.s.mem = true := by
  unfold State.loadNow
  (repeat' split) <;> simp [h, canonical_loadMany]
@[simp] theorem canonical_loadNow_into (as : List (Addr × Nat)) (align : Nat) {f : Got → Res}
    (hf : ∀ g : Got, Memory.wf g.s.mem = true → (f g).Canonical) : ((s.loadNow as align).into f).Canonical :=
  Try.canonical_into (canonical_loadNow h as align) hf
theorem canonical_bindLoad (k : Key) (p : Pend) : ∀ t, s.bindLoad k p = some t → Memory.wf t.mem = true := by
  unfold State.bindLoad
  split <;> simp [h]
omit h in
theorem canonical_storePieces (drop : Bool) (ordq : Nat) (ps : List Piece) (bs : List Byte) {s : State} (h : Memory.wf s.mem = true) :
    ∀ t, s.storePieces drop ordq ps bs = some t → Memory.wf t.mem = true := by
  induction ps generalizing s bs with
  | nil => simp [State.storePieces, h]
  | cons p r ih =>
    intro t ht
    unfold State.storePieces at ht
    split at ht
    · cases ht
    · next u hu => exact ih _ (canonical_writePlace h _ _ _ _ u hu) t ht
omit h in
theorem canonical_regionStore (ps : List Piece) (bs : List Byte) {s : State} (h : Memory.wf s.mem = true) : ∀ t, s.regionStore ps bs =
    some t → Memory.wf t.mem = true := by
  induction ps generalizing s bs with
  | nil => simp [State.regionStore, h]
  | cons p r ih =>
    intro t ht
    unfold State.regionStore at ht
    dsimp only at ht
    split at ht
    · exact ih _ (by simp [h]) t ht
    · split at ht
      · exact ih _ (by simp [h]) t ht
      · cases ht
    · obtain ⟨u, hu, ht⟩ := Option.bind_eq_some_iff.mp ht
      exact ih _ (canonical_writePlace h _ _ _ _ u hu) t ht
theorem canonical_sendStores (drop : Bool) (ordq : Nat) (ps : List Piece) (bs : List Byte) : ∀ t, s.sendStores drop ordq ps bs =
    some t → Memory.wf t.mem = true := by
  intro t ht
  obtain ⟨u, hu, rfl⟩ := Option.map_eq_some_iff.mp ht
  have hw := canonical_storePieces drop ordq ps bs (by split <;> simp [h]) u hu
  split <;> simp [hw]
@[simp] theorem canonical_storeOut (a : Addr) (l : List (Addr × List Piece)) (bs : List Byte) (ordq : Nat) (drop : Bool) :
    (s.storeOut a l bs ordq drop).Canonical := by
  have htouch : Memory.wf ((s.noteAll l).regionTouch (allPieces l) true).mem = true := by simp [h]
  unfold State.storeOut
  dsimp only
  generalize (s.noteAll l).regionTouch (allPieces l) true = t at htouch ⊢
  split
  · simp [h]
  split
  · simp [htouch]
  split
  · split
    next u hu => simp [canonical_regionStore _ _ htouch u hu]
    next => trivial
  split
  · simp [htouch]
  split
  · trivial
  next u hu =>
    obtain ⟨v, hv, rfl⟩ := Option.map_eq_some_iff.mp hu
    have hmem := canonical_sendStores htouch _ _ _ _ v hv
    split <;> simp [hmem]
theorem canonical_releaseStore (k : Key) (p : Pend) (x : HeldStore) : ∀ t, s.releaseStore k p x = some t → Memory.wf t.mem = true := by
  intro t ht
  unfold State.releaseStore at ht
  dsimp only at ht
  split at ht
  · cases ht; simp [h]
  split at ht
  next u hu =>
    cases ht
    have hmem : (Res.done u).Canonical := hu ▸ canonical_storeOut (by simp [h]) _ _ _ _ _
    rw [Res.canonical_done] at hmem
    simp [hmem]
  next =>
    cases ht
    simp [h]
  next => cases ht
theorem canonical_compareStore (a : Addr) (l : List (Addr × List Piece)) (bs : List Byte) (ordq : Nat) (drop : Bool) :
    (s.compareStore a l bs ordq drop).Sat fun t => Memory.wf t.mem = true := by
  have hcompare := canonical_compare h a [a.toNat, bs.length, ofLE bs]
  unfold State.compareStore
  dsimp only
  split
  · split
    · split
      · split
        next t ht => simp [canonical_releaseStore h _ _ _ t ht]
        next => simp [h]
      · exact hcompare
    · exact hcompare
  split
  · split <;> simp [h]
  · exact hcompare
@[simp] theorem canonical_storeMany (as : List (Addr × List Byte)) (ordq align : Nat) (drop : Bool) :
    (s.storeMany as ordq align drop).Canonical := by
  have hcheck := sat_checkAll h .w align (as.map fun e => (e.1, e.2.length))
  unfold State.storeMany
  split
  · simp_all
  split
  next r hr => exact canonical_waits h _ r hr
  next l _ _ _ =>
    have hcompare := canonical_compareStore h ((as.map (·.1)).headD 0) l (as.flatMap (·.2)) ordq drop
    dsimp only
    split
    · simp [h]
    · split <;> simp_all
@[simp] theorem canonical_storeAt (a : Addr) (bs : List Byte) (ordq align : Nat) (drop : Bool) :
    (s.storeAt a bs ordq align drop).Canonical := by
  simp [State.storeAt, h]
omit h in
@[simp] theorem canonical_late {g : Got} (h : Memory.wf g.s.mem = true) (ds : List (Reg × Vec)) (fix : Unbound → Unbound) :
    (g.late ds fix).Canonical := by
  simp [Got.late, h]

/-! ### Atomics -/

@[simp] theorem canonical_trailValue (a : Addr) (item : List Nat) (r : Reg) : (s.trailValue a item r).Canonical := by
  have hcompare := canonical_compare h a item
  unfold State.trailValue
  split
  · simp +contextual [h]
  · split <;> simp_all
@[simp] theorem canonical_atomicHere (p : Place) (ea : Addr) (bad : Bool) (op fn n : Nat) (x y : Word) (d : Nat) :
    (s.atomicHere p ea bad op fn n x y d).Canonical := by
  unfold State.atomicHere
  dsimp only
  split
  · split <;> simp [h]
  next v _ =>
    split
    · trivial
    next t ht =>
      have hmem := canonical_writePlace h _ _ _ _ t ht
      split <;> simp [hmem]
@[simp] theorem canonical_regionAtomic (l : List (Addr × List Piece)) (ea : Addr) (op fn n : Nat) (x y : Word) (d : Nat) :
    (s.regionAtomic l ea op fn n x y d).Canonical := by
  unfold State.regionAtomic
  dsimp only
  split
  · simp [h]
  refine canonical_compare_into h _ _ fun t ht => canonical_loadPieces_into ht _ _ fun g hg => ?_
  split
  · simp [hg]
  have hstore : ∀ bs, ((g.1.spoilDests (allPieces l)).storeOut ea l bs 0 false).Canonical := fun _ => by simp [hg]
  next z _ =>
    specialize hstore (toLE n z.toNat)
    split <;> simp_all
@[simp] theorem canonical_atomic (f : FAtom) (op : Nat) : (atomic s f op).Canonical := by
  unfold atomic
  refine canonical_checkAll_into h _ _ _ fun l => ?_
  dsimp only
  split
  · simp [h]
  split
  next r hr => exact canonical_waits h _ r hr
  (repeat' split) <;> simp +contextual [h]
@[simp] theorem canonical_execAmo (k : Ctl) (f : FAtom) : Out.Canonical (execAmo k f s) :=
  canonical_run h fun _ hu => canonical_atomic hu _ _
@[simp] theorem canonical_execCas (k : Ctl) (f : FAtom) : Out.Canonical (execCas k f s) :=
  canonical_run h fun _ hu => canonical_atomic hu _ _
@[simp] theorem canonical_loadReserve (f : FM) : (loadReserve s f).Canonical := by
  unfold loadReserve
  refine canonical_checkAll_into h _ _ _ fun l => ?_
  dsimp only
  split
  · simp +contextual [h]
  split
  next r hr => exact canonical_waits h _ r hr
  (repeat' split) <;> simp +contextual [h]
@[simp] theorem canonical_execLr (k : Ctl) (f : FM) : Out.Canonical (execLr k f s) :=
  canonical_run h fun _ hu => canonical_loadReserve hu _
@[simp] theorem canonical_storeCond (f : FAtom) : (storeCond s f).Canonical := by
  unfold storeCond
  refine canonical_checkAll_into h _ _ _ fun l => ?_
  dsimp only
  split
  · simp [h]
  split
  next r hr => exact canonical_waits h _ r hr
  split
  · simp [h]
  split
  · simp [h]
  split <;>
    (split
     · simp [h]
     · refine canonical_compare_into h _ _ fun t ht => ?_
       (repeat' split) <;> simp [ht])
@[simp] theorem canonical_execSc (k : Ctl) (f : FAtom) : Out.Canonical (execSc k f s) :=
  canonical_run h fun _ hu => canonical_storeCond hu _
@[simp] theorem canonical_redIssue (f : FAtom) : (redIssue s f).Canonical := by
  have hcheck := sat_checkAll h .rw (szBytes f.sz) [(s.eaAtom f, szBytes f.sz)]
  unfold redIssue
  dsimp only
  split
  · trivial
  split
  · simp [h]
  split
  · split <;> simp +contextual [h]
  · simp_all
  split
  next r hr => exact canonical_waits h _ r hr
  split
  · simp +contextual [h]
  split
  · split <;> simp +contextual [h]
  refine canonical_compare_into h _ _ fun t ht => ?_
  split
  next u hu => simp [canonical_writePlace ht _ _ _ _ u hu]
  next => split <;> simp [ht]
@[simp] theorem canonical_execRed (k : Ctl) (f : FAtom) : Out.Canonical (execRed k f s) :=
  canonical_run h fun _ hu => canonical_redIssue hu _
@[simp] theorem canonical_appendSend (f : FAppend) : (appendSend s f).Canonical := by
  unfold appendSend
  dsimp only
  (repeat' split) <;> simp [h]
@[simp] theorem canonical_inboxResult (d v : Nat) : (inboxResult s d v).Canonical := by
  simp [inboxResult, h]
@[simp] theorem canonical_trailTake (d : Nat) {r : Unit → Res} (hr : (r ()).Canonical) : (trailTake s d r).Canonical := by
  unfold trailTake
  split
  · simp +contextual [h]
  · exact hr
@[simp] theorem canonical_appendCfg (f : FAppend) : (appendCfg s f).Canonical := by
  unfold appendCfg
  dsimp only
  (repeat' split) <;> simp [h]
@[simp] theorem canonical_appendPop (f : FAppend) : (appendPop s f).Canonical := by
  unfold appendPop
  dsimp only
  (repeat' split) <;> simp [h]
@[simp] theorem canonical_appendStat (f : FAppend) : (appendStat s f).Canonical := by
  simp [appendStat, h]
@[simp] theorem canonical_execAppend (k : Ctl) (f : FAppend) : Out.Canonical (execAppend k f s) :=
  canonical_run h fun _ hu => canonical_appendSend hu _
@[simp] theorem canonical_execAppendCfg (k : Ctl) (f : FAppend) : Out.Canonical (execAppendCfg k f s) :=
  canonical_run h fun _ hu => canonical_appendCfg hu _
@[simp] theorem canonical_execAppendPop (k : Ctl) (f : FAppend) : Out.Canonical (execAppendPop k f s) :=
  canonical_run h fun _ hu => canonical_appendPop hu _
@[simp] theorem canonical_execAppendStat (k : Ctl) (f : FAppend) : Out.Canonical (execAppendStat k f s) :=
  canonical_run h fun _ hu => canonical_appendStat hu _
@[simp] theorem canonical_waitStore (f : FM) : (waitStore s f).Canonical := by
  unfold waitStore
  split
  · simp [waitStore.takeRetry', h]
  refine canonical_checkAll_into h _ _ _ fun l => ?_
  dsimp only
  split
  · simp +contextual [h]
  split
  · simp [h]
  split
  next r hr => exact canonical_waits h _ r hr
  (repeat' split) <;> simp [h]
@[simp] theorem canonical_execWrs (k : Ctl) (f : FM) : Out.Canonical (execWrs k f s) :=
  canonical_run h fun _ hu => canonical_waitStore hu _
@[simp] theorem canonical_fence (f : FFence) : (fence s f).Canonical := by
  unfold fence
  (repeat' split) <;> simp [h]
@[simp] theorem canonical_execFence (k : Ctl) (f : FFence) : Out.Canonical (execFence k f s) :=
  canonical_run h fun _ hu => canonical_fence hu _
@[simp] theorem canonical_fenceEngines (f : FFence) (w : Wait) : (fenceEngines s f w).Canonical := by
  simp [fenceEngines, h]
@[simp] theorem canonical_execFencee (k : Ctl) (f : FFence) : Out.Canonical (execFencee k f s) :=
  canonical_run h fun _ hu => by simp [hu]
@[simp] theorem canonical_grantResv (l : Nat) : Memory.wf (s.grantResv l).mem = true := by
  unfold State.grantResv
  split <;> simp [h]
@[simp] theorem canonical_execReservationGrant (line : Nat) : Out.Canonical (execReservationGrant line s) := by
  simp [execReservationGrant, h]
@[simp] theorem canonical_releaseResv (l : Nat) : Memory.wf (s.releaseResv l).mem = true := by
  unfold State.releaseResv
  (repeat' split) <;> simp [h]
@[simp] theorem canonical_execReservationRelease (line : Nat) : Out.Canonical (execReservationRelease line s) := by
  simp [execReservationRelease, h]
@[simp] theorem canonical_execLrTimeout (t c i : Nat) : Out.Canonical (execLrTimeout t c i s) := by
  unfold execLrTimeout
  split <;> simp [h]

/-! ### Engine -/

@[simp] theorem canonical_engLooked (w : Who) (l : List (Addr × Nat)) : Memory.wf (s.engLooked w l).mem = true := by
  refine canonical_foldl (fun t e ht => ?_) l h
  split <;> simp [ht]
theorem canonical_engPlace (w : Who) (p : Place) (bs : List Byte) : ∀ t, s.engPlace w p bs = some t → Memory.wf t.mem = true := by
  intro t ht
  unfold State.engPlace at ht
  dsimp only at ht
  split at ht
  · cases ht
    split
    · simp [h]
    · simp [mem_foldl, h]
  · cases ht
    simp [h]
  · exact canonical_writePlace h _ _ _ _ t ht
omit h in
theorem canonical_engPieces (w : Who) (ps : List Piece) (bs : List Byte) {s : State} (h : Memory.wf s.mem = true) :
    ∀ t, s.engPieces w ps bs = some t → Memory.wf t.mem = true := by
  induction ps generalizing s bs with
  | nil => simp [State.engPieces, h]
  | cons p r ih =>
    intro t ht
    obtain ⟨u, hu, ht⟩ := Option.bind_eq_some_iff.mp ht
    exact ih _ (canonical_engPlace h _ _ _ u hu) t ht
@[simp] theorem canonical_engWrite (w : Who) (a : Addr) (bs : List Byte) : (s.engWrite w a bs).Canonical := by
  unfold State.engWrite
  split
  · exact h
  split
  · trivial
  split
  · trivial
  split
  · trivial
  split
  · trivial
  split
  · trivial
  next t ht => simp [canonical_engPieces _ _ _ h t ht]
@[simp] theorem canonical_engPut (w : Who) (a : Nat) (bs : List Byte) : (s.engPut w a bs).Canonical := by
  unfold State.engPut
  split
  · exact h
  split
  · trivial
  split
  · trivial
  next t ht => exact canonical_engPlace h _ _ _ t ht

/-! ### Copy -/

@[simp] theorem canonical_fmtx (b : Nat) : (s.fmtx b).Canonical := by
  simp [State.fmtx, h]
theorem canonical_cuStop : ∀ r, s.cuStop = some r → r.Canonical := by
  intro r hr
  unfold State.cuStop at hr
  split at hr
  · cases hr
    simp [h]
  · cases hr
@[simp] theorem canonical_cuEnter (x : CuCmd) (stops : Bool) {after : State → State}
    (ha : ∀ u : State, Memory.wf u.mem = true → Memory.wf (after u).mem = true) : (s.cuEnter x stops after).Canonical := by
  unfold State.cuEnter
  split
  next r hr =>
    split at hr
    · exact canonical_cuStop h r hr
    · cases hr
  split
  · simp +contextual [h]
  split
  · simp [h]
  refine canonical_compare_into h _ _ fun t ht => ?_
  simp [ha, ht]
omit h in
theorem canonical_copyChecks (s : State) (x : CuCmd) (tw : Word) : ∀ r, s.copyChecks x tw = some r → r.Canonical := by
  unfold State.copyChecks
  dsimp only
  iterate 9 refine canonical_guard trivial ?_
  intro r hr
  split at hr
  · obtain ⟨e, -, rfl⟩ := Option.map_eq_some_iff.mp hr
    trivial
  · cases hr
@[simp] theorem canonical_issueCopy (op : Nat) (f : FCu) : (issueCopy s op f).Canonical := by
  unfold issueCopy
  split
  next r hr =>
    split at hr
    · exact canonical_cuStop h r hr
    · cases hr
  next => exact Res.canonical_getD (canonical_copyChecks s _ _) (canonical_cuEnter h _ _ fun _ hu => hu)
@[simp] theorem canonical_execCpy (k : Ctl) (f : FCu) : Out.Canonical (execCpy k f s) :=
  canonical_run h fun _ hu => canonical_issueCopy hu _ _
@[simp] theorem canonical_execCpyc (k : Ctl) (f : FCu) : Out.Canonical (execCpyc k f s) :=
  canonical_run h fun _ hu => canonical_issueCopy hu _ _
@[simp] theorem canonical_execCpyg (k : Ctl) (f : FCu) : Out.Canonical (execCpyg k f s) :=
  canonical_run h fun _ hu => canonical_issueCopy hu _ _
@[simp] theorem canonical_execCbatch (k : Ctl) (f : FCu) : (execCbatch k f s).Canonical := by
  refine canonical_run h fun u hu => ?_
  have hstop := canonical_cuStop hu
  (repeat' split) <;> simp_all
@[simp] theorem canonical_execCwaitb (k : Ctl) (f : FCu) : (execCwaitb k f s).Canonical := by
  refine canonical_run h fun u hu => ?_
  have hstop := canonical_cuStop hu
  (repeat' split) <;> simp_all
@[simp] theorem canonical_execCsyncWait (k : Ctl) (f : FCu) : (execCsyncWait k f s).Canonical := by
  refine canonical_run h fun u hu => ?_
  have hstop := canonical_cuStop hu
  (repeat' split) <;> simp_all
@[simp] theorem canonical_execCsyncStat (k : Ctl) (f : FCu) : Out.Canonical (execCsyncStat k f s) :=
  canonical_run h fun _ hu => by simp [hu]
@[simp] theorem canonical_execCsyncGo (k : Ctl) (x : FCu) : Out.Canonical (execCsyncGo k x s) :=
  canonical_run h fun _ hu => by simp [hu]
@[simp] theorem canonical_execCsyncDrop (k : Ctl) (x : FCu) : Out.Canonical (execCsyncDrop k x s) :=
  canonical_run h fun _ hu => by simp [hu]
@[simp] theorem canonical_syncWait (f : FCu) : (syncWait s f).Canonical := by
  unfold syncWait
  dsimp only
  (repeat' split) <;> simp +contextual [h]
@[simp] theorem canonical_execSyncw (k : Ctl) (f : FCu) : Out.Canonical (execSyncw k f s) :=
  canonical_run h fun _ hu => canonical_syncWait hu _
@[simp] theorem canonical_syncSet (f : FCu) (init : Bool) : (syncSet s f init).Canonical := by
  unfold syncSet
  dsimp only
  split
  · trivial
  split
  · trivial
  split
  · simp [h]
  refine canonical_compare_into h _ _ fun t ht => ?_
  split <;> simp [ht]
@[simp] theorem canonical_execSyncwt (k : Ctl) (f : FCu) : Out.Canonical (execSyncwt k f s) :=
  canonical_run h fun _ hu => canonical_syncSet hu _ _
@[simp] theorem canonical_execSyncwtInit (k : Ctl) (f : FCu) : Out.Canonical (execSyncwtInit k f s) :=
  canonical_run h fun _ hu => canonical_syncSet hu _ _
@[simp] theorem canonical_cuWrite (w : Who) (d : Dest2) (bs : List Byte) (bad : List Nat) : (s.cuWrite w d bs bad).Canonical := by
  unfold State.cuWrite
  dsimp only
  split
  next a =>
    have hwrite := canonical_engWrite h w a bs
    split
    next u hu =>
      have hmem := hwrite.of_ok hu
      rw [EngWrite.canonical_ok]
      split
      · split <;> simp [hmem]
      · exact hmem
    next => exact hwrite
  next =>
    split
    · trivial
    split
    · trivial
    next v hv =>
      have hmem := canonical_engPlace h _ _ _ v hv
      rw [EngWrite.canonical_ok]
      split <;> simp [hmem]
  next =>
    split
    · trivial
    · exact h
@[simp] theorem canonical_cuArrive (x : CuCmd) (t c amt : Nat) : (s.cuArrive x t c amt).Canonical := by
  unfold State.cuArrive
  dsimp only
  split
  · exact h
  split
  · split
    · simp [h]
    · trivial
  · split
    · trivial
    · exact h
  · exact h
@[simp] theorem canonical_cuPut (x : CuCmd) (t c : Nat) (e : CuPut) : (s.cuPut x t c e).Canonical := by
  unfold State.cuPut
  split
  · simp [h]
  next a _ =>
    have hput := canonical_engPut h (x.who t c) a e.bs
    split
    next u hu =>
      have hmem := hput.of_ok hu
      rw [EngWrite.canonical_ok]
      split <;> simp [hmem]
    next => exact hput
omit h in
@[simp] theorem canonical_cuArriveAll (x : CuCmd) (t c : Nat) (l : List Nat) {s : State} (h : Memory.wf s.mem = true) :
    (s.cuArriveAll x t c l).Canonical := by
  induction l generalizing s with
  | nil => exact h
  | cons n r ih =>
    have harrive := canonical_cuArrive h x t c n
    unfold State.cuArriveAll
    split
    next u hu => exact ih (harrive.of_ok hu)
    next => exact harrive
@[simp] theorem canonical_cuPartOf (x : CuCmd) (t c : Nat) (b : Burst) : (s.cuPartOf x t c b).Canonical := by
  unfold State.cuPartOf
  (repeat' split) <;> trivial
@[simp] theorem canonical_cpyStep (t c : Nat) (x : CuCmd) (done : Nat) : (cpyStep s t c x done).Canonical := by
  unfold cpyStep
  dsimp only
  split
  · trivial
  · trivial
  · exact canonical_cuPartOf h _ _ _ _
@[simp] theorem canonical_cpygStep (t c : Nat) (x : CuCmd) (e : Nat) : (cpygStep s t c x e).Canonical := by
  unfold cpygStep
  dsimp only
  split
  · trivial
  · trivial
  split
  · trivial
  · trivial
  · exact canonical_cuPartOf h _ _ _ _
omit h in
theorem decodeElem_error {s : State} {w : Who} {sl : Bool} {base : Addr} {ty : Nat} {rs : Num} {xsp : Bool} {e : Nat} {z : CuStep}
    (hz : decodeElem s w sl base ty rs xsp e = .error z) : z.Canonical := by
  cases z with
  | ok u b =>
    unfold decodeElem at hz
    grind
  | fail c a => trivial
  | wait => trivial
omit h in
theorem cpycIn_error {s : State} {t c : Nat} {x : CuCmd} {e : Nat} {z : CuStep} (hz : cpycIn s t c x e = .error z) : z.Canonical := by
  unfold cpycIn at hz
  dsimp only at hz
  split at hz
  next r hr => cases hz; exact decodeElem_error hr
  split at hz
  · split at hz
    next r hr => cases hz; exact decodeElem_error hr
    next => cases hz
  · cases hz
omit h in
theorem cpycIns_error {s : State} {t c : Nat} {x : CuCmd} {l : List Nat} {z : CuStep} (hz : cpycIns s t c x l = .error z) :
    z.Canonical := by
  induction l generalizing z with
  | nil => cases hz
  | cons e r ih =>
    unfold cpycIns at hz
    split at hz
    next z' hr => cases hz; exact cpycIn_error hr
    split at hz
    next z' hr => cases hz; exact ih hr
    next => cases hz
@[simp] theorem canonical_cpycStep (t c : Nat) (x : CuCmd) (done : Nat) : (cpycStep s t c x done).Canonical := by
  unfold cpycStep
  dsimp only
  split
  next z hz => exact cpycIns_error hz
  next => exact canonical_cuPartOf (by simp [h]) _ _ _ _
@[simp] theorem canonical_cuPart (t c : Nat) (x : CuCmd) (done : Nat) : (cuPart s t c x done).Canonical := by
  unfold cuPart
  split <;> simp [h]
@[simp] theorem canonical_cuPartDone (t c : Nat) (x : CuCmd) (b : Burst) : Memory.wf (s.cuPartDone t c x b).mem = true := by
  have hfills : Memory.wf (b.fills.foldl (fun s o => s.cuFills x t c o) s).mem = true := by simp [mem_foldl, h]
  have harrive := canonical_cuArriveAll x t c b.amts hfills
  unfold State.cuPartDone
  split
  · exact h
  · simp [h]
  next v hv =>
    have hmem := harrive.of_ok hv
    dsimp only
    split <;> simp [hmem]
@[simp] theorem canonical_cuBurst (t c : Nat) (x : CuCmd) (b : Burst) : Memory.wf (s.cuBurst t c x b).mem = true := by
  unfold State.cuBurst
  dsimp only
  split
  · exact h
  · simp [h]
  next u hu =>
    have hmem : Memory.wf u.mem = true := by
      refine EngWrite.Canonical.of_ok ?_ hu
      refine List.foldlRecOn (motive := EngWrite.Canonical) _ _ h fun r hr e _ => ?_
      split
      next v => exact canonical_cuPut hr x t c e
      next => exact hr
    split <;> simp [hmem]
@[simp] theorem canonical_cuBegin (t c : Nat) (x : CuCmd) (done : Nat) : Memory.wf (s.cuBegin t c x done).mem = true := by
  have hpart := canonical_cuPart h t c x done
  unfold State.cuBegin
  split
  · exact h
  · simp [h]
  next u b hu => simp [hpart.of_ok hu]
theorem canonical_cuMore (t c : Nat) (x : CuCmd) (b : Burst) : ∀ u, s.cuMore t c x b = some u → Memory.wf u.mem = true := by
  intro u hu
  unfold State.cuMore at hu
  dsimp only at hu
  split at hu
  · cases hu
  split at hu
  next v d hv =>
    have hmem := (canonical_cuPart h _ _ _ _).of_ok hv
    split at hu
    · cases hu
    · cases hu; simp [hmem]
  next => cases hu
@[simp] theorem canonical_cuGo (t c : Nat) (x : CuCmd) (b : Burst) : Memory.wf (s.cuGo t c x b).mem = true := by
  unfold State.cuGo
  split
  next u hu =>
    split at hu
    · exact canonical_cuMore h t c x b u hu
    · cases hu
  next => simp [h]
@[simp] theorem canonical_cuRun (t c : Nat) : Memory.wf (s.cuRun t c).mem = true := by
  unfold State.cuRun
  dsimp only
  (repeat' split) <;> simp [h]
@[simp] theorem canonical_execCuCopyRun (t c : Nat) : Out.Canonical (execCuCopyRun t c s) := by
  simp [execCuCopyRun, h]
@[simp] theorem canonical_execSyncArrival (t c off amt : Nat) : Out.Canonical (execSyncArrival t c off amt s) := by
  simp [execSyncArrival, h]

/-! ### Collective -/

omit h in
theorem canonical_readMembers (a : Addr) (n i : Nat) (l : List (Nat × Nat)) {s : State} (h : Memory.wf s.mem = true) :
    (readMembers s a n i l).Sat fun x => Memory.wf x.1.mem = true := by
  induction n generalizing s i l with
  | zero => exact h
  | succ n ih =>
    have hload := canonical_load h (a + BitVec.ofNat 72 (8 * i)) 8 8 false 0
    unfold readMembers
    dsimp only
    split
    next r hr => exact hload.of_error hr
    next g hg =>
      split
      · trivial
      split
      · trivial
      · exact ih _ _ (hload.of_ok hg)
@[simp] theorem canonical_defineGroup (f : FColl) : (defineGroup s f).Canonical := by
  unfold defineGroup
  dsimp only
  split
  · simp +contextual [h]
  split
  · exact h
  split
  · trivial
  split
  · trivial
  refine Try.canonical_into (canonical_readMembers _ _ _ _ h) fun x hx => ?_
  (repeat' split) <;> simp +contextual [hx]
@[simp] theorem canonical_execCgrp (k : Ctl) (f : FColl) : Out.Canonical (execCgrp k f s) :=
  canonical_run h fun _ hu => canonical_defineGroup hu _
@[simp] theorem canonical_issueColl (op : Nat) (f : FColl) : (issueColl s op f).Canonical := by
  unfold issueColl
  split
  · trivial
  · exact canonical_cuEnter h _ _ fun _ hu => hu
@[simp] theorem canonical_execCring (k : Ctl) (f : FColl) : Out.Canonical (execCring k f s) :=
  canonical_run h fun _ hu => canonical_issueColl hu _ _
@[simp] theorem canonical_execCredu (k : Ctl) (f : FColl) : Out.Canonical (execCredu k f s) :=
  canonical_run h fun _ hu => canonical_issueColl hu _ _
@[simp] theorem canonical_execCgath (k : Ctl) (f : FColl) : Out.Canonical (execCgath k f s) :=
  canonical_run h fun _ hu => canonical_issueColl hu _ _
@[simp] theorem canonical_execCbar (k : Ctl) (f : FColl) : Out.Canonical (execCbar k f s) :=
  canonical_run h fun _ hu => canonical_issueColl hu _ _
@[simp] theorem canonical_waitGroup (f : FColl) : (waitGroup s f).Canonical := by
  unfold waitGroup
  dsimp only
  (repeat' split) <;> simp +contextual [h]
@[simp] theorem canonical_execCwait (k : Ctl) (f : FColl) : Out.Canonical (execCwait k f s) :=
  canonical_run h fun _ hu => canonical_waitGroup hu _
omit h in
theorem canonical_collWrite (t c : Nat) (x : CuCmd) (l : List (Nat × List Byte × List Nat)) {s : State} (h : Memory.wf s.mem = true) :
    ∀ y, s.collWrite t c x l = some y → Memory.wf y.1.mem = true := by
  induction l generalizing s with
  | nil => simp [State.collWrite, h]
  | cons e r ih =>
    obtain ⟨off, bs, bad⟩ := e
    intro y hy
    unfold State.collWrite at hy
    split at hy
    · cases hy
    · cases hy; exact h
    next u hu => exact ih ((canonical_cuWrite h _ _ _ _).of_ok hu) y hy
@[simp] theorem canonical_spill (t c : Nat) (x : CuCmd) (g : Group) : Memory.wf (s.spill t c x g).mem = true := by
  refine canonical_foldl (fun v p hv => ?_) _ h
  split
  next u _ hu => exact canonical_collWrite t c x [p] hv _ hu
  next => exact hv
@[simp] theorem canonical_collFinish (t c : Nat) (x : CuCmd) (g : Group) (sets : List (List Chunk)) : Memory.wf
    (s.collFinish t c x g sets).mem = true := by
  unfold State.collFinish
  dsimp only
  split
  · simp [h]
  split
  · simp [h]
  split
  · exact h
  next u hu =>
    have hmem : Memory.wf u.mem = true := canonical_collWrite _ _ _ _ h _ hu
    simp [hmem]
  next u hu =>
    have hmem : Memory.wf u.mem = true := canonical_collWrite _ _ _ _ h _ hu
    simp [hmem]
@[simp] theorem canonical_collRun (t c : Nat) : Memory.wf (s.collRun t c).mem = true := by
  unfold State.collRun
  (repeat' split) <;> simp [h]
@[simp] theorem canonical_execCollectiveRun (t c : Nat) : Out.Canonical (execCollectiveRun t c s) := by
  simp [execCollectiveRun, h]
@[simp] theorem canonical_execChunkArrival (n : Nat) : Out.Canonical (execChunkArrival n s) := by
  simp [execChunkArrival, h]
@[simp] theorem canonical_execChunkAck (t c rank seq idx : Nat) : Out.Canonical (execChunkAck t c rank seq idx s) := by
  simp [execChunkAck, h]
@[simp] theorem canonical_execChunkResend (t c rank seq idx : Nat) : Out.Canonical (execChunkResend t c rank seq idx s) := by
  simp [execChunkResend, h]
@[simp] theorem canonical_noPath (t c g : Nat) : Memory.wf (s.noPath t c g).mem = true := by
  unfold State.noPath
  split <;> simp [h]
@[simp] theorem canonical_execNoPathLimit (t c g : Nat) : Out.Canonical (execNoPathLimit t c g s) := by
  simp [execNoPathLimit, h]

/-! ### Control -/

@[simp] theorem canonical_branch (taken : Bool) (t : Addr) : (branch s taken t).Canonical := by
  simp [branch, h]
@[simp] theorem canonical_execBr (k : Ctl) (f : FB) : Out.Canonical (execBr k f s) :=
  canonical_run h fun _ hu => hu
@[simp] theorem canonical_execBc (k : Ctl) (f : FB) : Out.Canonical (execBc k f s) :=
  canonical_run h fun _ hu => canonical_branch hu _ _
@[simp] theorem canonical_execBcmp (k : Ctl) (f : FB) : Out.Canonical (execBcmp k f s) :=
  canonical_run h fun _ hu => canonical_branch hu _ _
@[simp] theorem canonical_execBi (k : Ctl) (f : FRR) : Out.Canonical (execBi k f s) :=
  canonical_run h fun _ hu => hu
@[simp] theorem canonical_execCall (k : Ctl) (f : FB) : Out.Canonical (execCall k f s) :=
  canonical_run h fun _ hu => hu
@[simp] theorem canonical_execCalli (k : Ctl) (f : FRR) : Out.Canonical (execCalli k f s) :=
  canonical_run h fun _ hu => hu
@[simp] theorem canonical_execRet (k : Ctl) (f : FRR) : Out.Canonical (execRet k f s) :=
  canonical_run h fun _ hu => hu
@[simp] theorem canonical_jtab (f : FRR) : (jtab s f).Canonical := by
  unfold jtab
  dsimp only
  split
  · exact h
  refine canonical_loadNow_into h _ _ fun g hg => ?_
  (repeat' split) <;> simp [hg]
@[simp] theorem canonical_execJtab (k : Ctl) (f : FRR) : Out.Canonical (execJtab k f s) :=
  canonical_run h fun _ hu => canonical_jtab hu _
@[simp] theorem canonical_armLoop (count : Word) (e : Addr) : (armLoop s count e).Canonical := by
  unfold armLoop
  dsimp only
  (repeat' split) <;> simp [h]
@[simp] theorem canonical_execLoop (k : Ctl) (f : FB) : Out.Canonical (execLoop k f s) := by
  simp +contextual [execLoop, h]
@[simp] theorem canonical_execLoopi (k : Ctl) (f : FLoopi) : Out.Canonical (execLoopi k f s) := by
  simp +contextual [execLoopi, h]
@[simp] theorem canonical_breakLoop : (breakLoop s).Canonical := by
  simp [breakLoop, h]
@[simp] theorem canonical_execBreakl (k : Ctl) (x : FRR) : Out.Canonical (execBreakl k x s) :=
  canonical_run h fun _ hu => by simp [hu]

/-! ### Vector -/

omit h in
@[simp] theorem canonical_vuEnter {s t : State} (hs : Memory.wf s.mem = true) (ht : Memory.wf t.mem = true) (ds : List (Reg × Vec)) :
    (vuEnter s t ds).Canonical := by
  unfold vuEnter
  split <;> simp [hs, ht]
@[simp] theorem canonical_vecInto (r : Reg) (v : Vec) (sat : Bool) : (vecInto s r v sat).Canonical := by
  simp [vecInto, h]
@[simp] theorem canonical_execVadd (k : Ctl) (f : FV) : Out.Canonical (execVadd k f s) :=
  canonical_run h fun _ hu => by simp [hu]
@[simp] theorem canonical_execVsub (k : Ctl) (f : FV) : Out.Canonical (execVsub k f s) :=
  canonical_run h fun _ hu => by simp [hu]
@[simp] theorem canonical_execVmul (k : Ctl) (f : FV) : Out.Canonical (execVmul k f s) :=
  canonical_run h fun _ hu => by simp [hu]
@[simp] theorem canonical_execVfma (k : Ctl) (f : FV) : Out.Canonical (execVfma k f s) :=
  canonical_run h fun _ hu => by simp [hu]
@[simp] theorem canonical_execVfms (k : Ctl) (f : FV) : Out.Canonical (execVfms k f s) :=
  canonical_run h fun _ hu => by simp [hu]
@[simp] theorem canonical_execVmin (k : Ctl) (f : FV) : Out.Canonical (execVmin k f s) :=
  canonical_run h fun _ hu => by simp [hu]
@[simp] theorem canonical_execVmax (k : Ctl) (f : FV) : Out.Canonical (execVmax k f s) :=
  canonical_run h fun _ hu => by simp [hu]
@[simp] theorem canonical_execVabs (k : Ctl) (f : FV) : Out.Canonical (execVabs k f s) :=
  canonical_run h fun _ hu => by simp [hu]
@[simp] theorem canonical_execVneg (k : Ctl) (f : FV) : Out.Canonical (execVneg k f s) :=
  canonical_run h fun _ hu => by simp [hu]
@[simp] theorem canonical_execVrcp (k : Ctl) (f : FV) : Out.Canonical (execVrcp k f s) :=
  canonical_run h fun _ hu => by simp [hu]
@[simp] theorem canonical_execVrsq (k : Ctl) (f : FV) : Out.Canonical (execVrsq k f s) :=
  canonical_run h fun _ hu => by simp [hu]
@[simp] theorem canonical_execVexp2 (k : Ctl) (f : FV) : Out.Canonical (execVexp2 k f s) :=
  canonical_run h fun _ hu => by simp [hu]
@[simp] theorem canonical_execVlog2 (k : Ctl) (f : FV) : Out.Canonical (execVlog2 k f s) :=
  canonical_run h fun _ hu => by simp [hu]
@[simp] theorem canonical_execVdiv (k : Ctl) (f : FV) : Out.Canonical (execVdiv k f s) :=
  canonical_run h fun _ hu => by simp [hu]
@[simp] theorem canonical_execVsqrt (k : Ctl) (f : FV) : Out.Canonical (execVsqrt k f s) :=
  canonical_run h fun _ hu => by simp [hu]
@[simp] theorem canonical_execVand (k : Ctl) (f : FV) : Out.Canonical (execVand k f s) :=
  canonical_run h fun _ hu => by simp [hu]
@[simp] theorem canonical_execVor (k : Ctl) (f : FV) : Out.Canonical (execVor k f s) :=
  canonical_run h fun _ hu => by simp [hu]
@[simp] theorem canonical_execVxor (k : Ctl) (f : FV) : Out.Canonical (execVxor k f s) :=
  canonical_run h fun _ hu => by simp [hu]
@[simp] theorem canonical_execVshl (k : Ctl) (f : FV) : Out.Canonical (execVshl k f s) :=
  canonical_run h fun _ hu => by simp [hu]
@[simp] theorem canonical_execVshr (k : Ctl) (f : FV) : Out.Canonical (execVshr k f s) :=
  canonical_run h fun _ hu => by simp [hu]
@[simp] theorem canonical_execVsra (k : Ctl) (f : FV) : Out.Canonical (execVsra k f s) :=
  canonical_run h fun _ hu => by simp [hu]
@[simp] theorem canonical_execVcmp (k : Ctl) (f : FV) : Out.Canonical (execVcmp k f s) :=
  canonical_run h fun _ hu => by simp [hu]
@[simp] theorem canonical_execVsel (k : Ctl) (f : FV) : Out.Canonical (execVsel k f s) :=
  canonical_run h fun _ hu => by simp [hu]
@[simp] theorem canonical_convert (f : FV) : (convert s f).Canonical := by
  simp [convert, h]
@[simp] theorem canonical_execVcvt (k : Ctl) (f : FV) : Out.Canonical (execVcvt k f s) :=
  canonical_run h fun _ hu => canonical_convert hu _
@[simp] theorem canonical_reduce (f : FV) : (reduce s f).Canonical := by
  simp [reduce, h]
@[simp] theorem canonical_execVred (k : Ctl) (f : FV) : Out.Canonical (execVred k f s) :=
  canonical_run h fun _ hu => canonical_reduce hu _
@[simp] theorem canonical_scan (f : FV) : (scan s f).Canonical := by
  simp [scan, h]
@[simp] theorem canonical_execVscan (k : Ctl) (f : FV) : Out.Canonical (execVscan k f s) :=
  canonical_run h fun _ hu => canonical_scan hu _
@[simp] theorem canonical_execVperm (k : Ctl) (f : FV) : Out.Canonical (execVperm k f s) :=
  canonical_run h fun _ hu => by simp [hu]
@[simp] theorem canonical_execVbcast (k : Ctl) (f : FV) : Out.Canonical (execVbcast k f s) :=
  canonical_run h fun _ hu => by simp [hu]
@[simp] theorem canonical_execVins (k : Ctl) (f : FV) : Out.Canonical (execVins k f s) :=
  canonical_run h fun _ hu => canonical_vecInto hu _ _ _
@[simp] theorem canonical_execVext (k : Ctl) (f : FV) : Out.Canonical (execVext k f s) :=
  canonical_run h fun _ hu => by simp [hu]
@[simp] theorem canonical_execVmov (k : Ctl) (f : FV) : Out.Canonical (execVmov k f s) :=
  canonical_run h fun _ hu => by simp [hu]
@[simp] theorem canonical_execVmovi (k : Ctl) (f : FV) : Out.Canonical (execVmovi k f s) :=
  canonical_run h fun _ hu => by simp [hu]
@[simp] theorem canonical_execKop (k : Ctl) (f : FV) : Out.Canonical (execKop k f s) :=
  canonical_run h fun _ hu => canonical_vecInto hu _ _ _
@[simp] theorem canonical_kmov (f : FV) : (kmov s f).Canonical := by
  unfold kmov
  split <;> simp [h]
@[simp] theorem canonical_execKmov (k : Ctl) (f : FV) : Out.Canonical (execKmov k f s) :=
  canonical_run h fun _ hu => canonical_kmov hu _
@[simp] theorem canonical_tagElems (f : FV) : (tagElems s f).Canonical := by
  simp [tagElems, h]
@[simp] theorem canonical_execVhist (k : Ctl) (f : FV) : Out.Canonical (execVhist k f s) :=
  canonical_run h fun _ hu => canonical_tagElems hu _

/-! ### Matrix -/

omit h in
theorem canonical_muChecks (kmax : Option Nat) (al : List (Addr × Int × Nat)) : ∀ r, muChecks kmax al = some r → r.Canonical := by
  refine canonical_guard trivial fun r hr => ?_
  obtain ⟨e, -, rfl⟩ := Option.map_eq_some_iff.mp hr
  trivial
@[simp] theorem canonical_muEnter (x : MuCmd) (vr : Option Nat) : (s.muEnter x vr).Canonical := by
  have hcompare := canonical_compare h 0 [x.op, x.acc, x.a.toNat, (x.astr % 2 ^ 64).toNat, x.b.toNat, (x.bstr % 2 ^ 64).toNat, x.k,
    x.fa, x.fb, x.mode, x.x.toNat, x.row, x.fn, x.data.toNat]
  unfold State.muEnter
  split
  next r hr => exact canonical_muTrap s r hr
  split
  · split
    next t ht =>
      have hmem := (hcompare.of_error ht).of_done rfl
      split <;> simp [hmem]
    next r _ hr => exact hcompare.of_error hr
    next t ht => simp [hcompare.of_ok ht]
  split
  · simp [h]
  split
  next r hr => exact hcompare.of_error hr
  next t ht =>
    have hmem := hcompare.of_ok ht
    dsimp only
    split <;> simp [hmem]
@[simp] theorem canonical_execMma (k : Ctl) (f : FE) : (execMma k f s).Canonical :=
  canonical_run h fun _ hu => Res.canonical_getD (canonical_muChecks _ _) (canonical_muEnter hu _ _)
@[simp] theorem canonical_execMmat (k : Ctl) (f : FE) : (execMmat k f s).Canonical :=
  canonical_run h fun _ hu => Res.canonical_getD (canonical_muChecks _ _) (canonical_muEnter hu _ _)
@[simp] theorem canonical_execMmas (k : Ctl) (f : FE) : (execMmas k f s).Canonical :=
  canonical_run h fun _ hu => Res.canonical_getD (canonical_muChecks _ _) (canonical_muEnter hu _ _)
@[simp] theorem canonical_execMzero (k : Ctl) (f : FE) : Out.Canonical (execMzero k f s) :=
  canonical_run h fun _ hu => by simp [hu]
@[simp] theorem canonical_execMst (k : Ctl) (f : FE) : (execMst k f s).Canonical :=
  canonical_run h fun _ hu => Res.canonical_getD (canonical_muChecks _ _) (canonical_muEnter hu _ _)
@[simp] theorem canonical_execMlda (k : Ctl) (f : FE) : (execMlda k f s).Canonical :=
  canonical_run h fun _ hu => Res.canonical_getD (canonical_muChecks _ _) (canonical_muEnter hu _ _)
@[simp] theorem canonical_execMrdv (k : Ctl) (f : FMu) : Out.Canonical (execMrdv k f s) :=
  canonical_run h fun _ hu => by simp [hu]
@[simp] theorem canonical_execMwrv (k : Ctl) (f : FMu) : Out.Canonical (execMwrv k f s) :=
  canonical_run h fun _ hu => by simp [hu]
@[simp] theorem canonical_execMprogGo (k : Ctl) (x : FMu) : Out.Canonical (execMprogGo k x s) :=
  canonical_run h fun _ hu => by simp [hu]
@[simp] theorem canonical_execMprogDrop (k : Ctl) (x : FMu) : Out.Canonical (execMprogDrop k x s) :=
  canonical_run h fun _ hu => by simp [hu]
@[simp] theorem canonical_execMsync (k : Ctl) (f : FMu) : (execMsync k f s).Canonical := by
  refine canonical_run h fun u hu => ?_
  split
  next r hr => exact canonical_muTrap u r hr
  next => split <;> simp [hu]
@[simp] theorem canonical_execMstat (k : Ctl) (f : FMu) : Out.Canonical (execMstat k f s) :=
  canonical_run h fun _ hu => by simp [hu]
omit h in
theorem readAll_error {s : State} {w : Who} {l : List (Addr × Nat)} {z : MuStep} (hz : readAll s w l = .error z) : z.Canonical := by
  induction l generalizing z with
  | nil => cases hz
  | cons e r ih =>
    obtain ⟨a, n⟩ := e
    unfold readAll at hz
    split at hz
    · cases hz; trivial
    · cases hz; trivial
    split at hz
    next z' hr => cases hz; exact ih hr
    next => cases hz
omit h in
theorem muFirst_error {s : State} {w : Who} {x : MuCmd} {z : MuStep} (hz : muFirst s w x = .error z) : z.Canonical := by
  unfold muFirst at hz
  split at hz
  · cases hz
  split at hz
  · cases hz
  · cases hz; trivial
  · cases hz; trivial
omit h in
theorem masPart_error {s : State} {w : Who} {ac aa : Addr} {n : Nat} {z : MuStep} (hz : s.masPart w ac aa n = .error z) : z.Canonical := by
  cases z with
  | ok u =>
    unfold State.masPart at hz
    grind
  | fail c a => trivial
  | poison a => trivial
  | burst l => trivial
  | wait => trivial
omit h in
theorem masRow_error {s : State} {w : Who} {ac aa : Addr} {n full : Nat} {z : MuStep} (hz : s.masRow w ac aa n full = .error z) :
    z.Canonical := by
  revert hz
  refine List.foldlRecOn (motive := fun r : Except MuStep Bool => r = .error z → z.Canonical) _ _ (fun hz => nomatch hz)
    fun r ih e _ hz => ?_
  split at hz
  next z' => cases hz; exact ih rfl
  next d =>
    dsimp only at hz
    split at hz
    next z' hp => cases hz; exact masPart_error hp
    next => cases hz
omit h in
theorem masRows_error {s : State} {w : Who} {n full : Nat} {l : List (Addr × Addr)} {z : MuStep} (hz : masRows s w n full l = .error z) :
    z.Canonical := by
  induction l generalizing z with
  | nil => cases hz
  | cons e r ih =>
    obtain ⟨ac, aa⟩ := e
    unfold masRows at hz
    split at hz
    next z' hr => cases hz; exact masRow_error hr
    split at hz
    next z' hr => cases hz; exact ih hr
    next => cases hz
@[simp] theorem canonical_muGroup (w : Who) (x : MuCmd) (e g : Nat) (first : Block) : (muGroup s w x e g first).Canonical := by
  unfold muGroup
  dsimp only
  split
  next z hz =>
    split at hz
    · exact masRows_error hz
    · cases hz
  split
  · exact h
  split
  next z hz => exact readAll_error hz
  split
  · trivial
  · simp [h]
@[simp] theorem canonical_muTable (w : Who) (x : MuCmd) (g : Nat) : (muTable s w x g).Canonical := by
  unfold muTable
  dsimp only
  split
  next z hz => exact readAll_error hz
  split
  · trivial
  · simp [h]
@[simp] theorem canonical_muLoadRow (w : Who) (x : MuCmd) (i : Nat) : (muLoadRow s w x i).Canonical := by
  unfold muLoadRow
  dsimp only
  split
  · trivial
  · trivial
  split
  · trivial
  · simp [h]
@[simp] theorem canonical_muStoreRow (w : Who) (x : MuCmd) (i : Nat) : (muStoreRow s w x i).Canonical := by
  unfold muStoreRow
  dsimp only
  split
  · trivial
  · trivial
  next u hu =>
    split
    · trivial
    · exact (canonical_engWrite h _ _ _).of_ok hu
@[simp] theorem canonical_muPart (t c : Nat) (x : MuCmd) : (muPart s t c x).2.Canonical := by
  unfold muPart
  dsimp only
  split
  · simp [h]
  · simp [h]
  · simp [h]
  · simp [h]
  · simp [h]
  · split <;> simp [h]
  · split
    · exact h
    · split
      next z hz => exact muFirst_error hz
      next => simp [h]
omit h in
@[simp] theorem canonical_muRowsDone (t c : Nat) (x : MuCmd) (n : Nat) {s : State} (h : Memory.wf s.mem = true) : Memory.wf
    (s.muRowsDone t c x n).mem = true := by
  induction n generalizing s with
  | zero => exact h
  | succ n ih => exact ih (by simp [h])
@[simp] theorem canonical_muPut (w : Who) (e : Addr × List Byte × Option Nat) : (s.muPut w e).Canonical := by
  unfold State.muPut
  split <;> simp [h]
@[simp] theorem canonical_muBurst (t c : Nat) (x : MuCmd) : Memory.wf (s.muBurst t c x).mem = true := by
  unfold State.muBurst
  dsimp only
  split
  · exact h
  next e _ =>
    split
    · exact h
    · simp [h]
    next u hu =>
      have hmem := (canonical_muPut h (x.who t c) e).of_ok hu
      split <;> simp [hmem]
theorem canonical_muMore (t c : Nat) (x : MuCmd) : ∀ u, s.muMore t c x = some u → Memory.wf u.mem = true := by
  intro u hu
  unfold State.muMore at hu
  dsimp only at hu
  split at hu
  · cases hu
  split at hu
  · cases hu; simp [h]
  · cases hu
@[simp] theorem canonical_muGo (t c : Nat) (x : MuCmd) : Memory.wf (s.muGo t c x).mem = true := by
  unfold State.muGo
  split
  next u hu =>
    split at hu
    · exact canonical_muMore h t c x u hu
    · cases hu
  next => simp [h]
@[simp] theorem canonical_muRun (t c : Nat) : Memory.wf (s.muRun t c).mem = true := by
  unfold State.muRun
  dsimp only
  split
  · exact h
  next x _ _ =>
    have hpart := canonical_muPart h t c x
    split
    · exact h
    split
    · simp [h]
    split
    · simp [h]
    split
    · simp [h]
    · simp [h]
    · simp [h]
    · simp [h]
    next n u hu =>
      rw [hu] at hpart
      have hmem : Memory.wf u.mem = true := hpart
      simp [hmem]
@[simp] theorem canonical_execMuCommandRun (t c : Nat) : Out.Canonical (execMuCommandRun t c s) := by
  simp [execMuCommandRun, h]

/-! ### Sched -/

theorem canonical_homePut (pid : Nat) (p : Place) (bs : List Byte) : ∀ t, s.homePut pid p bs = some t → Memory.wf t.mem = true := by
  intro t ht
  cases p with
  | lin q node off pad => exact canonical_linPut h _ _ _ _ t ht
  | pa | dev | sram | linPad | linNone | away =>
    cases ht
    simp [h]
@[simp] theorem canonical_homePut_getD (pid : Nat) (p : Place) (bs : List Byte) : Memory.wf ((s.homePut pid p bs).getD s).mem = true := by
  cases ht : s.homePut pid p bs with
  | none => exact h
  | some t => exact canonical_homePut h pid p bs t ht
theorem canonical_sysWrite (pid ptbr a : Nat) (bs : List Byte) : ∀ t, s.sysWrite pid ptbr a bs = .ok t → Memory.wf t.mem = true := by
  intro t ht
  unfold State.sysWrite at ht
  split at ht
  · cases ht
  split at ht
  · cases ht
  next u hu => cases ht; exact canonical_homePut h _ _ _ _ hu
@[simp] theorem canonical_tcbPut (p : Nat) (l : Launch) (a : Addr) (off : Nat) (bs : List Byte) : Memory.wf (s.tcbPut p l a off bs).mem =
    true := by
  unfold State.tcbPut
  split
  next t ht => exact canonical_sysWrite h _ _ _ _ t ht
  next => exact h
@[simp] theorem canonical_frecPut (p l off : Nat) (bs : List Byte) : Memory.wf (s.frecPut p l off bs).mem = true := by
  unfold State.frecPut
  split
  · exact h
  split
  · exact h
  split
  next t ht => exact canonical_sysWrite h _ _ _ _ t ht
  next => exact h
@[simp] theorem canonical_noteFault (p l cause uaddr : Nat) (tcb : Addr) : Memory.wf (s.noteFault p l cause uaddr tcb).mem = true := by
  unfold State.noteFault
  split
  · exact h
  · have hcount : ∀ n, Memory.wf (s.frecPut p l 8 (toLE 4 n)).mem = true := fun _ => by simp [h]
    dsimp only
    split
    · refine canonical_frecPut ?_ _ _ _ _
      simp [hcount]
    · simp [hcount]
@[simp] theorem canonical_noteRed (p l cause : Nat) (va : Addr) : Memory.wf (s.noteRed p l cause va).mem = true := by
  unfold State.noteRed
  split
  · exact h
  · have hcount : ∀ n, Memory.wf (s.frecPut p l 0 (toLE 4 n)).mem = true := fun _ => by simp [h]
    dsimp only
    split <;> simp [hcount]
@[simp] theorem canonical_noteLost (p l : Nat) : Memory.wf (s.noteLost p l).mem = true := by
  unfold State.noteLost
  split <;> simp [h]
@[simp] theorem canonical_endTask (p l : Nat) (a : Addr) (t status outcome : Nat) : Memory.wf (s.endTask p l a t status outcome).mem =
    true := by
  unfold State.endTask
  split <;> simp [h]
@[simp] theorem canonical_createTask (p l : Nat) (x : Launch) (at_ : Place) (bs : List Byte) (a : Addr) (origin t : Nat) (extra : Extra) :
    Memory.wf (s.createTask p l x at_ bs a origin t extra).mem = true := by
  unfold State.createTask
  dsimp only
  split <;> simp [h]
@[simp] theorem canonical_signalTask (p l : Nat) (at_ : Place) (bs : List Byte) (a : Addr) (n t : Nat) : Memory.wf
    (s.signalTask p l at_ bs a n t).mem = true := by
  unfold State.signalTask
  dsimp only
  split <;> simp [h]
@[simp] theorem canonical_killParked (p l : Nat) (a : Addr) (status cause : Nat) : Memory.wf (s.killParked p l a status cause).mem =
    true := by
  unfold State.killParked
  dsimp only
  (repeat' split) <;> simp [h]
@[simp] theorem canonical_endOne (p l : Nat) (a : Addr) (status cause : Nat) (skip : Option (Nat × Nat)) : Memory.wf
    (s.endOne p l a status cause skip).mem = true := by
  unfold State.endOne
  (repeat' split) <;> simp [h]
@[simp] theorem canonical_dropInitial (p l : Nat) (x : Launch) : Memory.wf (s.dropInitial p l x).mem = true := by
  unfold State.dropInitial
  (repeat' split) <;> simp +contextual [canonical_foldl, h]
@[simp] theorem canonical_endLaunch (p l status cause : Nat) (skip : Option (Nat × Nat)) : Memory.wf
    (s.endLaunch p l status cause skip).mem = true := by
  unfold State.endLaunch
  (repeat' split) <;> simp +contextual [canonical_foldl, h]

/-! ### Task -/

@[simp] theorem canonical_taskGive (d : Option Nat) (v : Nat) : (taskGive s d v).Canonical := by
  simp [taskGive, h]
theorem canonical_taskTrail (item : List Nat) (d : Option Nat) {r : Unit → Res} (hr : (r ()).Canonical) :
    (taskTrail s item d r).Canonical := by
  have hcompare := canonical_compare h 0 item
  unfold taskTrail
  split
  · split
    · refine canonical_takeCopy_into h fun x hx => ?_
      simp [hx]
    · split
      next t ht => simpa using (hcompare.of_error ht).of_done rfl
      next r' _ ht => exact hcompare.of_error ht
      next t ht => simp [hcompare.of_ok ht]
  split
  · simp [h]
  · exact hr
theorem canonical_withTcb (a : Addr) {g : Launch → Place → List Byte → Res} (hg : ∀ l p bs, (g l p bs).Canonical) :
    (withTcb s a g).Canonical := by
  unfold withTcb
  split
  · trivial
  split
  · trivial
  split
  · trivial
  refine canonical_checkAll_into h _ _ _ fun ps => ?_
  split
  next r hr => exact canonical_waits h _ r hr
  · exact Res.canonical_ite (by simp [h]) (hg _ _ _)
theorem canonical_create (item : List Nat) (l : Launch) (p : Place) (bs : List Byte) (a : Addr) (t : Nat) (extra : Extra)
    (d : Option Nat) {before : State → State} (hb : ∀ u : State, Memory.wf u.mem = true → Memory.wf (before u).mem = true) :
    (create s item l p bs a t extra d before).Canonical := by
  unfold create
  split
  · simp [h]
  refine canonical_compare_into h _ _ fun u hu => ?_
  simp [hb u hu]
@[simp] theorem canonical_spawn (f : FRR) : (spawn s f).Canonical := by
  unfold spawn
  refine canonical_taskTrail h _ _ ?_
  refine canonical_withTcb h _ fun l p bs => ?_
  split
  · trivial
  · exact canonical_create h _ _ _ _ _ _ _ _ fun _ hu => hu
@[simp] theorem canonical_execSpawn (k : Ctl) (f : FRR) : Out.Canonical (execSpawn k f s) :=
  canonical_run h fun _ hu => canonical_spawn hu _
@[simp] theorem canonical_callat (f : FCallat) : (callat s f).Canonical := by
  unfold callat
  refine canonical_taskTrail h _ _ ?_
  refine canonical_withTcb h _ fun l p bs => ?_
  split
  · trivial
  split
  · trivial
  split
  · trivial
  · exact canonical_create h _ _ _ _ _ _ _ _ fun _ hu => hu
@[simp] theorem canonical_execCallat (k : Ctl) (f : FCallat) : Out.Canonical (execCallat k f s) :=
  canonical_run h fun _ hu => canonical_callat hu _
@[simp] theorem canonical_addAt_getD (pid : Nat) (p : Place) (x : Nat) : Memory.wf ((s.addAt pid p x).getD s).mem = true :=
  canonical_homePut_getD h _ _ _
theorem canonical_joinCounter (f : FB) {g : Option (Addr × Place) → Res} (hg : ∀ j, (g j).Canonical) : (joinCounter s f g).Canonical := by
  unfold joinCounter
  split
  · exact hg none
  refine canonical_checkAll_into h _ _ _ fun ps => ?_
  split
  next r hr => exact canonical_waits h _ r hr
  · exact Res.canonical_ite (by simp [h]) (hg _)
@[simp] theorem canonical_forkb (f : FB) : (forkb s f).Canonical := by
  unfold forkb
  dsimp only
  split
  · trivial
  refine canonical_taskTrail h _ _ ?_
  refine canonical_withTcb h _ fun l p bs => ?_
  split
  · trivial
  split
  · trivial
  refine canonical_joinCounter h _ fun j => canonical_create (by simp [h]) _ _ _ _ _ _ _ _ fun u hu => ?_
  split <;> simp [hu]
@[simp] theorem canonical_execForkb (k : Ctl) (f : FB) : Out.Canonical (execForkb k f s) :=
  canonical_run h fun _ hu => canonical_forkb hu _
@[simp] theorem canonical_join (f : FRR) : (join s f).Canonical := by
  refine canonical_checkAll_into h _ _ _ fun ps => ?_
  split
  · simp +contextual [h]
  split
  · simp [h]
  split
  next r hr => exact canonical_waits h _ r hr
  · (repeat' split) <;> simp [h]
@[simp] theorem canonical_execJoin (k : Ctl) (f : FRR) : Out.Canonical (execJoin k f s) :=
  canonical_run h fun _ hu => canonical_join hu _
@[simp] theorem canonical_tdep (f : FRR) : (tdep s f).Canonical := by
  unfold tdep
  refine canonical_taskTrail h _ _ ?_
  refine canonical_withTcb h _ fun l p bs => ?_
  split
  · simp [h]
  refine canonical_compare_into h _ _ fun u hu => ?_
  (repeat' split) <;> simp [hu]
@[simp] theorem canonical_execTdep (k : Ctl) (f : FRR) : Out.Canonical (execTdep k f s) :=
  canonical_run h fun _ hu => canonical_tdep hu _
@[simp] theorem canonical_signal (f : FRR) : (signal s f).Canonical := by
  unfold signal
  refine canonical_taskTrail h _ _ ?_
  refine canonical_withTcb h _ fun l p bs => ?_
  split
  · simp [h]
  split
  · simp [h]
  refine canonical_compare_into h _ _ fun u hu => ?_
  (repeat' split) <;> simp [hu]
@[simp] theorem canonical_execSignal (k : Ctl) (f : FRR) : Out.Canonical (execSignal k f s) :=
  canonical_run h fun _ hu => canonical_signal hu _
@[simp] theorem canonical_tqry (f : FRR) : (tqry s f).Canonical := by
  unfold tqry
  refine canonical_taskTrail h _ _ ?_
  dsimp only
  split
  · simp +contextual [h]
  refine canonical_withTcb h _ fun l p bs => ?_
  split <;> simp +contextual [h]
@[simp] theorem canonical_execTqry (k : Ctl) (f : FRR) : Out.Canonical (execTqry k f s) :=
  canonical_run h fun _ hu => canonical_tqry hu _
@[simp] theorem canonical_texit (f : FRR) : (texit s f).Canonical := by
  unfold texit
  dsimp only
  split
  · trivial
  split
  next r hr => exact canonical_muTrap s r hr
  split
  next t ht =>
    have hmem := canonical_waitS h t ht
    split <;> simp [hmem]
  split
  next r hr => exact canonical_cuStop h r hr
  (repeat' split) <;> simp [h]
@[simp] theorem canonical_execTexit (k : Ctl) (f : FRR) : Out.Canonical (execTexit k f s) :=
  canonical_run h fun _ hu => canonical_texit hu _
@[simp] theorem canonical_yieldTurn : (yieldTurn s).Canonical := by
  unfold yieldTurn
  split <;> simp [h]
@[simp] theorem canonical_execYield (k : Ctl) (x : FRR) : Out.Canonical (execYield k x s) :=
  canonical_run h fun _ hu => by simp [hu]
@[simp] theorem canonical_cancelOne (f : FRR) : (cancelOne s f).Canonical := by
  unfold cancelOne
  refine canonical_taskTrail h _ _ ?_
  refine canonical_withTcb h _ fun l p bs => ?_
  split
  · simp [h]
  refine canonical_compare_into h _ _ fun u hu => ?_
  dsimp only
  split
  · simp [hu]
  refine canonical_taskGive (canonical_foldl (fun v x hv => ?_) _ hu) _ _
  simp [hv]
@[simp] theorem canonical_execCancelTask (k : Ctl) (f : FRR) : Out.Canonical (execCancelTask k f s) :=
  canonical_run h fun _ hu => canonical_cancelOne hu _
@[simp] theorem canonical_cancelMany (f : FRR) : (cancelMany s f).Canonical := by
  unfold cancelMany
  dsimp only
  split
  · trivial
  refine canonical_taskTrail h _ _ ?_
  split
  · split
    · simp [h]
    refine canonical_compare_into h _ _ fun u hu => ?_
    split
    · simp [hu]
    · refine (Res.canonical_hold _).mpr (canonical_foldl (fun v e hv => ?_) _ hu)
      simp [hv]
  · (repeat' split) <;> simp [h]
@[simp] theorem canonical_execCancelLevel (k : Ctl) (f : FRR) : Out.Canonical (execCancelLevel k f s) :=
  canonical_run h fun _ hu => canonical_cancelMany hu _
@[simp] theorem canonical_levelCounter (f : FRR) : (levelCounter s f).Canonical := by
  unfold levelCounter
  refine canonical_taskTrail h _ _ ?_
  simp +contextual [h]
@[simp] theorem canonical_execLcnt (k : Ctl) (f : FRR) : Out.Canonical (execLcnt k f s) :=
  canonical_run h fun _ hu => canonical_levelCounter hu _
@[simp] theorem canonical_queueGive (d : Option Nat) (f : FRR) (v : Word) (ok : Bool) : (queueGive s d f v ok).Canonical := by
  simp [queueGive, h]
@[simp] theorem canonical_queueTrail (f : FRR) (d : Option Nat) : (queueTrail s f d).Canonical := by
  simp [queueTrail, h]
@[simp] theorem canonical_semp (f : FRR) : (semp s f).Canonical := by
  unfold semp
  (repeat' split) <;> simp [h]
@[simp] theorem canonical_execSemp (k : Ctl) (f : FRR) : Out.Canonical (execSemp k f s) :=
  canonical_run h fun _ hu => canonical_semp hu _
omit h in
@[simp] theorem canonical_serve (n m : Nat) {s : State} (h : Memory.wf s.mem = true) : Memory.wf (s.serve n m).mem = true := by
  induction m generalizing s with
  | zero => exact h
  | succ m ih =>
    unfold State.serve
    dsimp only
    split
    · exact h
    split
    · exact h
    · exact ih (by simp [h])
@[simp] theorem canonical_semv (f : FRR) : (semv s f).Canonical := by
  unfold semv
  refine canonical_taskTrail h _ _ ?_
  dsimp only
  split
  · simp [h]
  refine canonical_compare_into h _ _ fun u hu => ?_
  simp [hu]
@[simp] theorem canonical_execSemv (k : Ctl) (f : FRR) : Out.Canonical (execSemv k f s) :=
  canonical_run h fun _ hu => canonical_semv hu _
@[simp] theorem canonical_qpush (f : FRR) : (qpush s f).Canonical := by
  unfold qpush
  dsimp only
  split
  · split
    · simp [h]
    · exact canonical_taskTrail h _ _ (by simp [h])
  split
  · simp [h]
  split
  · simp [h]
  refine canonical_compare_into h _ _ fun u hu => ?_
  (repeat' split) <;> simp [hu]
@[simp] theorem canonical_execQpush (k : Ctl) (f : FRR) : Out.Canonical (execQpush k f s) :=
  canonical_run h fun _ hu => canonical_qpush hu _
@[simp] theorem canonical_qpop (f : FRR) : (qpop s f).Canonical := by
  unfold qpop
  dsimp only
  (repeat' split) <;> simp [h]
@[simp] theorem canonical_execQpop (k : Ctl) (f : FRR) : Out.Canonical (execQpop k f s) :=
  canonical_run h fun _ hu => canonical_qpop hu _
@[simp] theorem canonical_qstat (f : FRR) : (qstat s f).Canonical := by
  unfold qstat
  split <;> simp [h]
@[simp] theorem canonical_execQstat (k : Ctl) (f : FRR) : Out.Canonical (execQstat k f s) :=
  canonical_run h fun _ hu => canonical_qstat hu _

/-! ### System -/

@[simp] theorem canonical_csrRead (f : FRI) : (csrRead s f).Canonical := by
  simp [csrRead, h]
@[simp] theorem canonical_execCsrr (k : Ctl) (f : FRI) : Out.Canonical (execCsrr k f s) := by
  simp +contextual [execCsrr, h]
@[simp] theorem canonical_csrStore (f : FRI) : (csrStore s f).Canonical := by
  simp [csrStore, h]
@[simp] theorem canonical_execCsrw (k : Ctl) (f : FRI) : Out.Canonical (execCsrw k f s) := by
  simp +contextual [execCsrw, h]
@[simp] theorem canonical_csrSwap (f : FRI) : (csrSwap s f).Canonical := by
  simp [csrSwap, h]
@[simp] theorem canonical_execCsrx (k : Ctl) (f : FRI) : Out.Canonical (execCsrx k f s) := by
  simp +contextual [execCsrx, h]
@[simp] theorem canonical_trapNow (imm : Nat) : (trapNow s imm).Canonical := by
  unfold trapNow
  dsimp only
  (repeat' split) <;> simp [h]
@[simp] theorem canonical_execTrap (k : Ctl) (f : FTrap) : Out.Canonical (execTrap k f s) :=
  canonical_run h fun _ hu => canonical_trapNow hu _
@[simp] theorem canonical_execEret (k : Ctl) (x : FNul) : Out.Canonical (execEret k x s) := by
  simp +contextual [execEret, h]
@[simp] theorem canonical_tlbDrop (f : FTlbi) : (tlbDrop s f).Canonical := by
  simp [tlbDrop, h]
@[simp] theorem canonical_execTlbi (k : Ctl) (f : FTlbi) : Out.Canonical (execTlbi k f s) := by
  simp +contextual [execTlbi, h]
@[simp] theorem canonical_park (f : FPark) : (park s f).Canonical := by
  unfold park
  split <;> simp [h]
@[simp] theorem canonical_execPark (k : Ctl) (f : FPark) : Out.Canonical (execPark k f s) :=
  canonical_run h fun _ hu => canonical_park hu _

/-! ### Turn -/

@[simp] theorem canonical_draw : Memory.wf s.draw.1.mem = true := by
  unfold State.draw
  dsimp only
  (repeat' split) <;> simp [h]
@[simp] theorem canonical_slot {ex : Instr → State → Out} (hex : ∀ i s, Memory.wf s.mem = true → (ex i s).Canonical) (w : Nat) :
    (s.slot ex w).Canonical := by
  unfold State.slot
  split
  · exact hex _ _ h
  · simp [h]
@[simp] theorem canonical_pair {ex : Instr → State → Out} (hex : ∀ i s, Memory.wf s.mem = true → (ex i s).Canonical) (w0 w1 : Nat) :
    (s.pair ex w0 w1).Canonical := by
  have hfirst : ((if s.thr.young then { s with thr := { s.thr with retry := none } } else s).slot ex w0).Canonical :=
    canonical_slot (by split <;> exact h) hex w0
  unfold State.pair
  dsimp only
  split
  next t ht =>
    have hmem := hfirst.of_next ht
    split
    · split <;> simp [h, hmem]
    split
    · exact (Out.canonical_next _).mpr hmem
    have hsecond : ((if s.thr.young then { t with thr := { t.thr with retry := s.thr.retry, wait := s.thr.wait } } else t).slot
        ex w1).Canonical := canonical_slot (by split <;> exact hmem) hex w1
    split
    next u hu =>
      have hlast := hsecond.of_next hu
      (repeat' split) <;> simp [h, hlast]
    next => exact hsecond
  next => exact hfirst
@[simp] theorem canonical_turn {ex : Instr → State → Out} (hex : ∀ i s, Memory.wf s.mem = true → (ex i s).Canonical) :
    (s.turn ex).Canonical := by
  unfold State.turn
  split
  · exact (Out.canonical_next _).mpr h
  split
  next t ht => exact (Out.canonical_next _).mpr (canonical_owed h t ht)
  have hdraw := canonical_draw h
  split
  next t c a ht =>
    rw [ht] at hdraw
    simp [hdraw]
  next u l i hu =>
    rw [hu] at hdraw
    have hmem : Memory.wf (if opOf (l.slot i) < 0x3C0 then { u with thr := { u.thr with mcont := false } } else u).mem = true := by
      split <;> exact hdraw
    dsimp only
    generalize (if opOf (l.slot i) < 0x3C0 then { u with thr := { u.thr with mcont := false } } else u) = t at hmem ⊢
    split
    · split
      · simp [hmem]
      split
      next v hv =>
        split at hv
        · exact (Out.canonical_next _).mpr (canonical_waitS hmem v hv)
        · cases hv
      next => exact canonical_pair hmem hex _ _
    · exact canonical_slot hmem hex _
omit h in
@[simp] theorem canonical_tryThreads {ex : Instr → State → Out} (hex : ∀ i s, Memory.wf s.mem = true → (ex i s).Canonical)
    (l : List Key) {s : State} (h : Memory.wf s.mem = true) : (tryThreads ex l s).1.Canonical := by
  induction l generalizing s with
  | nil => exact (Out.canonical_next _).mpr h
  | cons k r ih =>
    have hturn := canonical_turn (s := s.focus k) (by simp [h]) hex
    unfold tryThreads
    split
    · split
      next t ht =>
        have hmem := hturn.of_next ht
        split <;> simp [ih, hmem]
      next => exact hturn
    · exact ih h
@[simp] theorem canonical_tileTurn {ex : Instr → State → Out} (hex : ∀ i s, Memory.wf s.mem = true → (ex i s).Canonical) (t : Nat) :
    (s.tileTurn ex t).1.Canonical := by
  have htry := canonical_tryThreads hex (s.rotation t) h
  unfold State.tileTurn
  split
  · split
    next u b hu =>
      rw [hu] at htry
      have hmem : Memory.wf u.mem = true := htry.of_next rfl
      exact (Out.canonical_next _).mpr hmem
    next => exact htry
  · exact (Out.canonical_next _).mpr h
theorem canonical_move {ex : Instr → State → Out} (hex : ∀ i s, Memory.wf s.mem = true → (ex i s).Canonical)
    {due : State → List (State → Out)} (hdue : ∀ u, ∀ f ∈ due u, ∀ s : State, Memory.wf s.mem = true → (f s).Canonical) :
    (s.move ex due).Canonical := by
  unfold State.move
  split
  next i r _ =>
    dsimp only
    split
    · exact hex _ _ h
    · exact (Out.canonical_next _).mpr h
  next k r _ => exact canonical_tileTurn (s := { s with agenda := r }) h hex k
  next => exact (Out.canonical_next _).mpr h
  next =>
    have hturn := canonical_tileTurn h hex s.cur.t
    split
    next t ht =>
      rw [ht] at hturn
      have hmem : Memory.wf t.mem = true := hturn.of_next rfl
      dsimp only
      split
      next f hf => exact hdue t f (List.mem_of_getElem? hf) t hmem
      next => exact (Out.canonical_next _).mpr hmem
    next o b _ ho =>
      rw [ho] at hturn
      exact hturn

/-! ### Threads -/

@[simp] theorem canonical_classV (k : Key) (n : Nat) : Memory.wf (s.classV k n).mem = true := by
  unfold State.classV
  split
  · exact h
  · exact h
  next t ht =>
    obtain ⟨p, -, hp⟩ := Option.map_eq_some_iff.mp ht
    simp [canonical_bindLoad h k p t hp]
@[simp] theorem canonical_execClassVResult (t c i n : Nat) : Out.Canonical (execClassVResult t c i n s) := by
  simp [execClassVResult, h]
@[simp] theorem canonical_execLineRefetch (t c i : Nat) : (execLineRefetch t c i s).Canonical := by
  have hdraw : Memory.wf (s.focus ⟨t, c, i⟩).draw.1.mem = true := by simp [h]
  unfold execLineRefetch
  rw [Out.canonical_next]
  split
  · dsimp only
    split
    · split
      next v _ _ hv => simp_all
      next v _ hv => simp_all
    · exact h
  · exact h
@[simp] theorem canonical_execTrapEntry (t c i cause addr : Nat) : Out.Canonical (execTrapEntry t c i cause addr s) := by
  simp [execTrapEntry, h]
@[simp] theorem canonical_execLdsWake (t c i : Nat) : Out.Canonical (execLdsWake t c i s) := by
  unfold execLdsWake
  split <;> simp [h]
@[simp] theorem canonical_execWrsWake (t c i : Nat) : Out.Canonical (execWrsWake t c i s) := by
  unfold execWrsWake
  split <;> simp [h]
@[simp] theorem canonical_execWrsTimeout (t c i : Nat) : Out.Canonical (execWrsTimeout t c i s) := by
  unfold execWrsTimeout
  split <;> simp [h]
@[simp] theorem canonical_execJoinRecheck (t c i : Nat) : Out.Canonical (execJoinRecheck t c i s) := by
  unfold execJoinRecheck
  split <;> simp [h]
@[simp] theorem canonical_execParkTimeout (t c i : Nat) : Out.Canonical (execParkTimeout t c i s) := by
  unfold execParkTimeout
  split <;> simp [h]
@[simp] theorem canonical_execSyncwWake (t c i : Nat) : Out.Canonical (execSyncwWake t c i s) := by
  unfold execSyncwWake
  split <;> simp [h]
@[simp] theorem canonical_execRemoteLoadWake (t c i : Nat) : Out.Canonical (execRemoteLoadWake t c i s) := by
  unfold execRemoteLoadWake
  split <;> simp [h]
@[simp] theorem canonical_execSpuriousWake (t c i : Nat) : Out.Canonical (execSpuriousWake t c i s) := by
  unfold execSpuriousWake
  split <;> simp [h]
@[simp] theorem canonical_wakeParks (t c : Nat) (code : Word) : Memory.wf (s.wakeParks t c code).mem = true := by
  refine canonical_foldl (fun u k hu => ?_) _ h
  split <;> simp [hu]
@[simp] theorem canonical_deliverEntry (t c tile kind tag : Nat) (data : List Word) : Memory.wf
    (s.deliverEntry t c tile kind tag data).mem = true := by
  simp +contextual [State.deliverEntry, canonical_foldl, h]
omit h in
@[simp] theorem canonical_deliverHeld (t c n : Nat) {s : State} (h : Memory.wf s.mem = true) : Memory.wf (s.deliverHeld t c n).mem =
    true := by
  induction n generalizing s with
  | zero => exact h
  | succ n ih =>
    unfold State.deliverHeld
    dsimp only
    split
    · exact h
    split
    · exact ih (by simp [h])
    · exact h
@[simp] theorem canonical_execHeldReturnDelivery (t c : Nat) : Out.Canonical (execHeldReturnDelivery t c s) := by
  simp [execHeldReturnDelivery, h]
@[simp] theorem canonical_inboxDeliver (n : Nat) : Memory.wf (s.inboxDeliver n).mem = true := by
  unfold State.inboxDeliver
  dsimp only
  (repeat' split) <;> simp [h]
@[simp] theorem canonical_execInboxDelivery (n : Nat) : Out.Canonical (execInboxDelivery n s) := by
  simp [execInboxDelivery, h]
@[simp] theorem canonical_saveParked (pid : Nat) (x : Parked) : Memory.wf (s.saveParked pid x).mem = true := by
  refine canonical_foldl (fun u a hu => ?_) _ (by simp [h])
  simp [hu]
@[simp] theorem canonical_callReturn (n : Nat) : Memory.wf (s.callReturn n).mem = true := by
  unfold State.callReturn
  (repeat' split) <;> simp [h]
@[simp] theorem canonical_execCallatReturnDelivery (n : Nat) : Out.Canonical (execCallatReturnDelivery n s) := by
  simp [execCallatReturnDelivery, h]

/-! ### Launch -/

@[simp] theorem canonical_execLaunchSlotPoll (p q : Nat) : Out.Canonical (execLaunchSlotPoll p q s) := by
  simp [execLaunchSlotPoll, h]
@[simp] theorem canonical_refuseEntry (p : Nat) (x : LQ) (e : List Byte) : Memory.wf (s.refuseEntry p x e).mem = true := by
  have hput : ∀ (u : State) a bs, Memory.wf u.mem = true →
      Memory.wf (match u.sysWrite p x.qptbr.toNat a bs with | .ok t => t | .error _ => u).mem = true := by
    intro u a bs hu
    split
    next t ht => exact canonical_sysWrite hu _ _ _ _ t ht
    next => exact hu
  unfold State.refuseEntry
  refine canonical_homeStore (canonical_homeStore ?_ _ _ _) _ _ _
  split
  · exact hput _ _ _ (hput _ _ _ (hput _ _ _ h))
  · exact h
omit h in
@[simp] theorem canonical_takeSlots (p l n : Nat) {s : State} (h : Memory.wf s.mem = true) : Memory.wf (s.takeSlots p l n).mem = true := by
  induction n generalizing s with
  | zero => exact h
  | succ n ih =>
    unfold State.takeSlots
    split
    · exact h
    split
    · exact h
    refine wf_ite_mem h ?_
    split
    · exact ih (by simp [h])
    · exact ih (by simp [h])
    dsimp only
    split
    · split
      · exact h
      · exact ih (by simp [h])
    · exact ih (by simp [h])
@[simp] theorem canonical_startLaunch (p q : Nat) : Memory.wf (s.startLaunch p q).mem = true := by
  unfold State.startLaunch
  dsimp only
  (repeat' split) <;> simp [h]
@[simp] theorem canonical_execLaunchStart (p q : Nat) : Out.Canonical (execLaunchStart p q s) := by
  simp [execLaunchStart, h]
@[simp] theorem canonical_faultTask (e : Entry) (t cause addr : Nat) : Memory.wf (s.faultTask e t cause addr).mem = true := by
  simp [State.faultTask, h]
@[simp] theorem canonical_dispatchTile (t : Nat) : Memory.wf (s.dispatchTile t).mem = true := by
  unfold State.dispatchTile
  dsimp only
  (repeat' split) <;> simp [h]
@[simp] theorem canonical_execDispatch (t : Nat) : Out.Canonical (execDispatch t s) := by
  simp [execDispatch, h]
@[simp] theorem canonical_execOverflowMove (t : Nat) : Out.Canonical (execOverflowMove t s) := by
  simp [execOverflowMove, h]
@[simp] theorem canonical_execStealRequest (t : Nat) : Out.Canonical (execStealRequest t s) := by
  simp [execStealRequest, h]
@[simp] theorem canonical_balanceTile (t : Nat) : Memory.wf (s.balanceTile t).mem = true := by
  unfold State.balanceTile
  split <;> simp [h]
@[simp] theorem canonical_execBalance (t : Nat) : Out.Canonical (execBalance t s) := by
  simp [execBalance, h]
@[simp] theorem canonical_loseChunks (x : Ctx) : Memory.wf (s.loseChunks x).mem = true := by
  simp +contextual [State.loseChunks, canonical_foldl, h]
@[simp] theorem canonical_strip (t c : Nat) : Memory.wf (s.strip t c).mem = true := by
  simp +contextual [State.strip, canonical_foldl, h]
@[simp] theorem canonical_killed (t c st cause : Nat) : Memory.wf (s.killed t c st cause).mem = true := by
  have hstrip : Memory.wf (s.strip t c).mem = true := by simp [h]
  unfold State.killed
  dsimp only
  generalize s.strip t c = u at hstrip ⊢
  refine wf_ite_mem h (wf_ite_mem ?_ hstrip)
  have hend : ∀ p l a o st n, Memory.wf ((u.freeCtx t c).endTask p l a o st n).mem = true := fun _ _ _ _ _ _ => by simp [hstrip]
  exact wf_ite_mem (by simp [hend]) (hend _ _ _ _ _ _)
@[simp] theorem canonical_finishUnit (t c : Nat) : Memory.wf (s.finishUnit t c).mem = true := by
  unfold State.finishUnit
  dsimp only
  (repeat' split) <;> simp [h]
@[simp] theorem canonical_execUnitComplete (t c : Nat) : Out.Canonical (execUnitComplete t c s) := by
  simp [execUnitComplete, h]
@[simp] theorem canonical_succSignal (n : Nat) : Memory.wf (s.succSignal n).mem = true := by
  unfold State.succSignal
  (repeat' split) <;> simp [h]
@[simp] theorem canonical_execSuccessorSignal (n : Nat) : Out.Canonical (execSuccessorSignal n s) := by
  simp [execSuccessorSignal, h]
@[simp] theorem canonical_redDone (n : Nat) : Memory.wf (s.redDone n).mem = true := by
  unfold State.redDone
  split
  · exact h
  next r _ =>
    refine wf_ite_mem h ?_
    split
    · simp [h]
    split
    · dsimp only
      split
      · exact h
      split
      · simp [h]
      · simp [h]
    · dsimp only
      split
      next w hw =>
        have hmem : Memory.wf w.mem = true := canonical_homePut (s := { s with reds := s.reds.eraseIdx n }) h _ _ _ w hw
        simp [hmem]
      next => simp [h]
@[simp] theorem canonical_execRedAck (n : Nat) : Out.Canonical (execRedAck n s) := by
  simp [execRedAck, h]
@[simp] theorem canonical_execDoneMessage (p l t : Nat) : Out.Canonical (execDoneMessage p l t s) := by
  simp [execDoneMessage, h]
@[simp] theorem canonical_completeLaunch (p l : Nat) : Memory.wf (s.completeLaunch p l).mem = true := by
  unfold State.completeLaunch
  dsimp only
  (repeat' split) <;> simp [h]
@[simp] theorem canonical_execLaunchComplete (p l : Nat) : Out.Canonical (execLaunchComplete p l s) := by
  simp [execLaunchComplete, h]

/-! ### Scalar -/

@[simp] theorem canonical_execNop (k : Ctl) (x : FRR) : Out.Canonical (execNop k x s) :=
  canonical_run h fun _ hu => hu
@[simp] theorem canonical_execAdd (k : Ctl) (f : FRR) : Out.Canonical (execAdd k f s) :=
  canonical_run h fun _ hu => hu
@[simp] theorem canonical_execSub (k : Ctl) (f : FRR) : Out.Canonical (execSub k f s) :=
  canonical_run h fun _ hu => hu
@[simp] theorem canonical_execAddi (k : Ctl) (f : FRI) : Out.Canonical (execAddi k f s) :=
  canonical_run h fun _ hu => hu
@[simp] theorem canonical_execMul (k : Ctl) (f : FRR) : Out.Canonical (execMul k f s) :=
  canonical_run h fun _ hu => hu
@[simp] theorem canonical_execMulh (k : Ctl) (f : FRR) : Out.Canonical (execMulh k f s) :=
  canonical_run h fun _ hu => hu
@[simp] theorem canonical_execMulhu (k : Ctl) (f : FRR) : Out.Canonical (execMulhu k f s) :=
  canonical_run h fun _ hu => hu
@[simp] theorem canonical_execDiv (k : Ctl) (f : FRR) : Out.Canonical (execDiv k f s) :=
  canonical_run h fun _ hu => hu
@[simp] theorem canonical_execDivu (k : Ctl) (f : FRR) : Out.Canonical (execDivu k f s) :=
  canonical_run h fun _ hu => hu
@[simp] theorem canonical_execRem (k : Ctl) (f : FRR) : Out.Canonical (execRem k f s) :=
  canonical_run h fun _ hu => hu
@[simp] theorem canonical_execRemu (k : Ctl) (f : FRR) : Out.Canonical (execRemu k f s) :=
  canonical_run h fun _ hu => hu
@[simp] theorem canonical_execAnd (k : Ctl) (f : FRR) : Out.Canonical (execAnd k f s) :=
  canonical_run h fun _ hu => hu
@[simp] theorem canonical_execOr (k : Ctl) (f : FRR) : Out.Canonical (execOr k f s) :=
  canonical_run h fun _ hu => hu
@[simp] theorem canonical_execXor (k : Ctl) (f : FRR) : Out.Canonical (execXor k f s) :=
  canonical_run h fun _ hu => hu
@[simp] theorem canonical_execAndn (k : Ctl) (f : FRR) : Out.Canonical (execAndn k f s) :=
  canonical_run h fun _ hu => hu
@[simp] theorem canonical_execAndi (k : Ctl) (f : FRI) : Out.Canonical (execAndi k f s) :=
  canonical_run h fun _ hu => hu
@[simp] theorem canonical_execOri (k : Ctl) (f : FRI) : Out.Canonical (execOri k f s) :=
  canonical_run h fun _ hu => hu
@[simp] theorem canonical_execXori (k : Ctl) (f : FRI) : Out.Canonical (execXori k f s) :=
  canonical_run h fun _ hu => hu
@[simp] theorem canonical_execShl (k : Ctl) (f : FRR) : Out.Canonical (execShl k f s) :=
  canonical_run h fun _ hu => hu
@[simp] theorem canonical_execShr (k : Ctl) (f : FRR) : Out.Canonical (execShr k f s) :=
  canonical_run h fun _ hu => hu
@[simp] theorem canonical_execSra (k : Ctl) (f : FRR) : Out.Canonical (execSra k f s) :=
  canonical_run h fun _ hu => hu
@[simp] theorem canonical_execRotr (k : Ctl) (f : FRR) : Out.Canonical (execRotr k f s) :=
  canonical_run h fun _ hu => hu
@[simp] theorem canonical_execShli (k : Ctl) (f : FRI) : Out.Canonical (execShli k f s) :=
  canonical_run h fun _ hu => hu
@[simp] theorem canonical_execShri (k : Ctl) (f : FRI) : Out.Canonical (execShri k f s) :=
  canonical_run h fun _ hu => hu
@[simp] theorem canonical_execSrai (k : Ctl) (f : FRI) : Out.Canonical (execSrai k f s) :=
  canonical_run h fun _ hu => hu
@[simp] theorem canonical_execClz (k : Ctl) (f : FRR) : Out.Canonical (execClz k f s) :=
  canonical_run h fun _ hu => hu
@[simp] theorem canonical_execCtz (k : Ctl) (f : FRR) : Out.Canonical (execCtz k f s) :=
  canonical_run h fun _ hu => hu
@[simp] theorem canonical_execPcnt (k : Ctl) (f : FRR) : Out.Canonical (execPcnt k f s) :=
  canonical_run h fun _ hu => hu
@[simp] theorem canonical_execBswap (k : Ctl) (f : FRR) : Out.Canonical (execBswap k f s) :=
  canonical_run h fun _ hu => hu
@[simp] theorem canonical_execMin (k : Ctl) (f : FRR) : Out.Canonical (execMin k f s) :=
  canonical_run h fun _ hu => hu
@[simp] theorem canonical_execMax (k : Ctl) (f : FRR) : Out.Canonical (execMax k f s) :=
  canonical_run h fun _ hu => hu
@[simp] theorem canonical_execMinu (k : Ctl) (f : FRR) : Out.Canonical (execMinu k f s) :=
  canonical_run h fun _ hu => hu
@[simp] theorem canonical_execMaxu (k : Ctl) (f : FRR) : Out.Canonical (execMaxu k f s) :=
  canonical_run h fun _ hu => hu
@[simp] theorem canonical_execCmp (k : Ctl) (f : FRR) : Out.Canonical (execCmp k f s) :=
  canonical_run h fun _ hu => hu
@[simp] theorem canonical_execCmpi (k : Ctl) (f : FRI) : Out.Canonical (execCmpi k f s) :=
  canonical_run h fun _ hu => hu
@[simp] theorem canonical_execSel (k : Ctl) (f : FRR) : Out.Canonical (execSel k f s) :=
  canonical_run h fun _ hu => hu
@[simp] theorem canonical_execPset (k : Ctl) (f : FRR) : Out.Canonical (execPset k f s) :=
  canonical_run h fun _ hu => hu
@[simp] theorem canonical_execMov (k : Ctl) (f : FRR) : Out.Canonical (execMov k f s) :=
  canonical_run h fun _ hu => hu
@[simp] theorem canonical_execMovAl (k : Ctl) (f : FRR) : Out.Canonical (execMovAl k f s) :=
  canonical_run h fun _ hu => hu
@[simp] theorem canonical_execMovAh (k : Ctl) (f : FRR) : Out.Canonical (execMovAh k f s) :=
  canonical_run h fun _ hu => hu
@[simp] theorem canonical_execMovi (k : Ctl) (f : FRI) : Out.Canonical (execMovi k f s) :=
  canonical_run h fun _ hu => hu
@[simp] theorem canonical_execExt (k : Ctl) (f : FRR) : Out.Canonical (execExt k f s) :=
  canonical_run h fun _ hu => hu
@[simp] theorem canonical_execBfx (k : Ctl) (f : FRI) : Out.Canonical (execBfx k f s) :=
  canonical_run h fun _ hu => hu
@[simp] theorem canonical_execBfi (k : Ctl) (f : FRI) : Out.Canonical (execBfi k f s) :=
  canonical_run h fun _ hu => hu
@[simp] theorem canonical_execLea (k : Ctl) (f : FM) : Out.Canonical (execLea k f s) :=
  canonical_run h fun _ hu => hu
@[simp] theorem canonical_execAdda (k : Ctl) (f : FRR) : Out.Canonical (execAdda k f s) :=
  canonical_run h fun _ hu => hu
@[simp] theorem canonical_execSuba (k : Ctl) (f : FRR) : Out.Canonical (execSuba k f s) :=
  canonical_run h fun _ hu => hu
@[simp] theorem canonical_execSubaD (k : Ctl) (f : FRR) : Out.Canonical (execSubaD k f s) :=
  canonical_run h fun _ hu => hu
@[simp] theorem canonical_execMova (k : Ctl) (f : FRR) : Out.Canonical (execMova k f s) :=
  canonical_run h fun _ hu => hu
@[simp] theorem canonical_execMovaS (k : Ctl) (f : FRR) : Out.Canonical (execMovaS k f s) :=
  canonical_run h fun _ hu => hu
@[simp] theorem canonical_execMovaSh (k : Ctl) (f : FRR) : Out.Canonical (execMovaSh k f s) :=
  canonical_run h fun _ hu => hu
@[simp] theorem canonical_execCmpa (k : Ctl) (f : FRR) : Out.Canonical (execCmpa k f s) :=
  canonical_run h fun _ hu => hu
@[simp] theorem canonical_execMovai (k : Ctl) (f : FAI) : Out.Canonical (execMovai k f s) :=
  canonical_run h fun _ hu => hu

/-! ### Trowel -/

@[simp] theorem canonical_bindGive (f : FHawk) (put : Option Word) : (bindGive s f put).Canonical := by
  unfold bindGive
  (repeat' split) <;> simp [h]
@[simp] theorem canonical_trwb (f : FHawk) : (trwb s f).Canonical := by
  unfold trwb
  dsimp only
  (repeat' split) <;> simp [h]
@[simp] theorem canonical_trwl (f : FHawk) : (trwl s f).Canonical := by
  unfold trwl
  dsimp only
  split
  · trivial
  split
  · trivial
  split
  · trivial
  split
  · trivial
  split
  · simp +contextual [h]
  refine canonical_loadNow_into h _ _ fun g hg => ?_
  split <;> simp [hg]
@[simp] theorem canonical_execTrwb (k : Ctl) (f : FHawk) : Out.Canonical (execTrwb k f s) :=
  canonical_run h fun _ hu => canonical_trwb hu _
@[simp] theorem canonical_execTrwl (k : Ctl) (f : FHawk) : Out.Canonical (execTrwl k f s) :=
  canonical_run h fun _ hu => canonical_trwl hu _
@[simp] theorem canonical_execTrwu (k : Ctl) (f : FHawk) : Out.Canonical (execTrwu k f s) :=
  canonical_run h fun _ hu => canonical_bindGive hu _ _
@[simp] theorem canonical_execTrwq (k : Ctl) (f : FHawk) : Out.Canonical (execTrwq k f s) :=
  canonical_run h fun _ hu => canonical_bindGive hu _ _
@[simp] theorem canonical_microMem (f : FTrowel) (m : Micro) : (microMem s f m).Canonical := by
  unfold microMem
  dsimp only
  split
  · split <;> simp [h]
  · simp [h]
  · refine canonical_loadNow_into h _ _ fun g hg => ?_
    split <;> simp [hg]
@[simp] theorem canonical_microPriv (f : FTrowel) (m : Micro) : (microPriv s f m).Canonical := by
  unfold microPriv
  dsimp only
  (repeat' split) <;> simp [h]
@[simp] theorem canonical_trapMid (q : HawkRun) (c : Nat) (a : Addr) : (trapMid s q c a).Canonical := by
  simp [trapMid, h]
@[simp] theorem canonical_hawkEnd : (hawkEnd s).Canonical := h
omit h in
@[simp] theorem canonical_hawkLoop (f : FTrowel) (n : Nat) (q : HawkRun) {s : State} (h : Memory.wf s.mem = true) :
    (hawkLoop f n q s).Canonical := by
  induction n generalizing q s with
  | zero => simp [hawkLoop, h]
  | succ n ih =>
    unfold hawkLoop
    extract_lets len opc no now old m next y x t
    split
    · split <;> simp [h]
    split
    · simp [h]
    split
    · simp [h]
    split
    · simp [h]
    have hpriv := canonical_microPriv h f m
    have hmem := canonical_microMem h f m
    split
    · exact ih _ (by simp [h])
    · exact ih _ (by simp [h])
    · have ht : Memory.wf t.mem = true := wf_ite_mem (by simp [h]) h
      exact ih _ (by simp [ht])
    · exact ih _ (by simp [h])
    · split
      · simp [h]
      next t ht => exact ih _ (by simp [hpriv.of_done ht])
      next t ht =>
        rw [ht] at hpriv
        exact hpriv
      · exact hpriv
    · split
      · simp [h]
      next t ht => simp [hmem.of_done ht]
      next t ht =>
        rw [ht] at hmem
        exact hmem
      · exact hmem
@[simp] theorem canonical_trowel (f : FTrowel) : (trowel s f).Canonical := by
  unfold trowel
  dsimp only
  (repeat' split) <;> simp [h]
@[simp] theorem canonical_execTrowel (k : Ctl) (f : FTrowel) : Out.Canonical (execTrowel k f s) := by
  simp +contextual [execTrowel, h]

/-! ### Preempt -/

@[simp] theorem canonical_execPreemptRequest (t c : Nat) : Out.Canonical (execPreemptRequest t c s) := by
  simp [execPreemptRequest, h]
@[simp] theorem canonical_execYieldHoldExpiry (t c i : Nat) : Out.Canonical (execYieldHoldExpiry t c i s) := by
  unfold execYieldHoldExpiry
  split <;> simp [h]
@[simp] theorem canonical_writeImage (a : Nat) (c : Ctx) (xs : List Thread) (mem : List Byte) : Memory.wf (s.writeImage a c xs mem).mem =
    true := by
  have hput : ∀ (o : Nat) (l : List (Nat × List Byte)) (u : State), Memory.wf u.mem = true →
      Memory.wf (l.foldl (fun u p => u.homeStore c.pid (a + o + p.1) p.2) u).mem = true := fun o l u hu =>
    canonical_foldl (fun v p hv => canonical_homeStore hv _ _ _) l hu
  unfold State.writeImage
  refine canonical_homeStore (canonical_foldl (fun u i hu => hput _ _ u hu) _ (hput _ _ _ ?_)) _ _ _
  simp [h]
@[simp] theorem canonical_park_ (t c a : Nat) : Memory.wf (s.park_ t c a).mem = true := by
  unfold State.park_
  extract_lets u x ths mem tile pick im v v' v''
  have hu : Memory.wf u.mem = true := by simp [u, mem_foldl, h]
  have hv : Memory.wf v.mem = true := canonical_writeImage hu _ _ _ _
  have hv' : Memory.wf v'.mem = true := wf_ite_mem (canonical_writeImage hv _ _ _ _) hv
  have hv'' : Memory.wf v''.mem = true := by simp [v'', hv']
  split <;> simp [hv'']
@[simp] theorem canonical_evict (t c : Nat) : Memory.wf (s.evict t c).mem = true := by
  unfold State.evict
  dsimp only
  (repeat' split) <;> simp [h]
@[simp] theorem canonical_execEviction (t c : Nat) : Out.Canonical (execEviction t c s) := by
  simp [execEviction, h]
@[simp] theorem canonical_execBecomeResumable (p n : Nat) : Out.Canonical (execBecomeResumable p n s) := by
  simp [execBecomeResumable, h]
@[simp] theorem canonical_restore (t c base : Nat) (y : Parked) : Memory.wf (s.restore t c base y).mem = true := by
  unfold State.restore
  dsimp only
  (repeat' split) <;> simp +contextual [canonical_foldl, h]
@[simp] theorem canonical_loseContext (x : Parked) : Memory.wf (s.loseContext x).mem = true := by
  simp [State.loseContext, h]
@[simp] theorem canonical_resumeOn (t : Nat) : Memory.wf (s.resumeOn t).mem = true := by
  unfold State.resumeOn
  (repeat' split) <;> simp [h]
@[simp] theorem canonical_execResume (t : Nat) : Out.Canonical (execResume t s) := by
  simp [execResume, h]
@[simp] theorem canonical_foldOn (t n : Nat) : Memory.wf (s.foldOn t n).mem = true := by
  unfold State.foldOn
  (repeat' split) <;> simp [h]
@[simp] theorem canonical_execFoldedResume (t n : Nat) : Out.Canonical (execFoldedResume t n s) := by
  simp [execFoldedResume, h]
@[simp] theorem canonical_awayLand (t b : Nat) (m : Away) : Memory.wf (s.awayLand t b m).mem = true := by
  simp +contextual [State.awayLand, canonical_foldl, h]
@[simp] theorem canonical_traffic (n : Nat) : Memory.wf (s.traffic n).mem = true := by
  unfold State.traffic
  dsimp only
  (repeat' split) <;> simp [h]
@[simp] theorem canonical_execNonresidentTraffic (n : Nat) : Out.Canonical (execNonresidentTraffic n s) := by
  simp [execNonresidentTraffic, h]
@[simp] theorem canonical_execWatchdogStep1 (p q : Nat) : Out.Canonical (execWatchdogStep1 p q s) := by
  simp [execWatchdogStep1, h]
@[simp] theorem canonical_wdog2 (p q : Nat) : Memory.wf (s.wdog2 p q).mem = true := by
  unfold State.wdog2
  split <;> simp [h]
@[simp] theorem canonical_execWatchdogStep2 (p q : Nat) : Out.Canonical (execWatchdogStep2 p q s) := by
  simp [execWatchdogStep2, h]

/-! ### Lath -/

@[simp] theorem canonical_execHeartbeatSend (t dir : Nat) : Out.Canonical (execHeartbeatSend t dir s) := by
  simp [execHeartbeatSend, h]
@[simp] theorem canonical_execHeartbeatReceive (t dir tid hseq health : Nat) : Out.Canonical
    (execHeartbeatReceive t dir tid hseq health s) := by
  simp [execHeartbeatReceive, h]
@[simp] theorem canonical_judged (t dir x j : Nat) : Memory.wf (s.judged t dir x j).mem = true := by
  unfold State.judged
  split <;> simp [h]
@[simp] theorem canonical_execPeriodJudgement (t dir : Nat) : Out.Canonical (execPeriodJudgement t dir s) := by
  unfold execPeriodJudgement
  split <;> simp [h]
@[simp] theorem canonical_hearVote (t dir target k judge : Nat) : Memory.wf (s.hearVote t dir target k judge).mem = true := by
  simp [State.hearVote, h]
@[simp] theorem canonical_execAccusation (t target accuser judge : Nat) : Out.Canonical (execAccusation t target accuser judge s) := by
  unfold execAccusation
  split <;> simp [h]
@[simp] theorem canonical_execVoteExpiry (t dir : Nat) : Out.Canonical (execVoteExpiry t dir s) := by
  simp [execVoteExpiry, h]
@[simp] theorem canonical_execFirmwareReferral (x fence : Nat) : (execFirmwareReferral x fence s).Canonical := by
  unfold execFirmwareReferral
  dsimp only
  (repeat' split) <;> simp [State.mem_aroundTile, h]
@[simp] theorem canonical_loseTask (p l : Nat) (a : Addr) (vt x : Nat) : Memory.wf (s.loseTask p l a vt x).mem = true := by
  simp [State.loseTask, h]
@[simp] theorem canonical_relocate (c : Ctx) (x : Nat) : Memory.wf (s.relocate c x).mem = true := by
  unfold State.relocate
  split <;> simp [h]
@[simp] theorem canonical_evacuate (x : Nat) : Memory.wf (s.evacuate x).mem = true := by
  unfold State.evacuate
  extract_lets here owed s' r r' r'' es r'''
  have hr : Memory.wf r.mem = true := by
    refine canonical_foldl (fun u c hu => ?_) here h
    dsimp only
    split <;> simp [hu]
  have hr'' : Memory.wf r''.mem = true := by
    refine canonical_foldl (fun u p hu => ?_) _ hr
    exact canonical_foldl (fun v y hv => by simp [hv]) _ (by simp [hu])
  have hr''' : Memory.wf r'''.mem = true := by simp [r''', hr'']
  refine canonical_foldl (fun u e hu => ?_) es hr'''
  split <;> simp [hu]
@[simp] theorem canonical_revoke (d x : Nat) : Memory.wf (s.revoke d x).mem = true := by
  simp +contextual [State.revoke, canonical_foldl, h]
@[simp] theorem canonical_respf (d x : Nat) : Memory.wf (s.respf d x).mem = true := by
  unfold State.respf
  extract_lets mine r
  have hr : Memory.wf r.mem = true := by
    refine canonical_foldl (fun u m hu => ?_) _ h
    split <;> simp [hu]
  refine canonical_foldl (fun u tc hu => ?_) _ hr
  refine wf_ite_mem hu ?_
  dsimp only
  split
  · split
    · split <;> simp [hu]
    · simp [hu]
  · simp [hu]
@[simp] theorem canonical_fenceHome (x cause : Nat) : Memory.wf (s.fenceHome x cause).mem = true := by
  simp [State.fenceHome, h]
@[simp] theorem canonical_execFenceLearn (die x cause : Nat) : (execFenceLearn die x cause s).Canonical := by
  refine (Out.canonical_next _).mpr (wf_ite_mem h (wf_ite_mem ?_ (wf_ite_mem h ?_)))
  · exact wf_ite_mem (by simp [h]) (by simp [h])
  · rw [State.mem_tickFresh, State.mem_respfRemote]
    exact wf_ite_mem (canonical_fenceHome (by simp [h]) _ _) (by simp [h])
@[simp] theorem canonical_execOrphanDiscard (n : Nat) : Out.Canonical (execOrphanDiscard n s) := by
  unfold execOrphanDiscard
  split <;> simp [h]
@[simp] theorem canonical_execBistResult (t pass : Nat) : Out.Canonical (execBistResult t pass s) := by
  simp [execBistResult, h]
@[simp] theorem canonical_execAppeal (t dir : Nat) : Out.Canonical (execAppeal t dir s) := by
  unfold execAppeal
  split <;> simp [h]
@[simp] theorem canonical_execProbationEnd (t : Nat) : (execProbationEnd t s).Canonical := by
  unfold execProbationEnd
  split <;> simp [State.mem_aroundTile, h]
@[simp] theorem canonical_execAppealTimeout (t : Nat) : Out.Canonical (execAppealTimeout t s) := by
  unfold execAppealTimeout
  split <;> simp [h]
@[simp] theorem canonical_wdog3 (p q : Nat) : Memory.wf (s.wdog3 p q).mem = true := by
  unfold State.wdog3
  split
  · exact h
  next l _ =>
    refine wf_ite_mem ?_ h
    rw [State.mem_wdogNext]
    refine canonical_foldl (fun u x hu => ?_) _ h
    dsimp only
    split
    · exact hu
    · have hend : ∀ p l a o st n, Memory.wf (((u.strip x.1 x.2).freeCtx x.1 x.2).endTask p l a o st n).mem = true :=
        fun _ _ _ _ _ _ => by simp [hu]
      split <;> simp [hend]
@[simp] theorem canonical_execWatchdogStep3 (p q : Nat) : Out.Canonical (execWatchdogStep3 p q s) := by
  simp [execWatchdogStep3, h]

/-! ### Lineage -/

@[simp] theorem canonical_linFail (code : Nat) : (linFail s code).Canonical := h
@[simp] theorem canonical_linOk (d : Word) : (linOk s d).Canonical := h
@[simp] theorem canonical_linGive (op : Nat) (ds : List Reg) (d : Word) (ok : Bool) (code : Nat) :
    (linGive s op ds d ok code).Canonical := h
theorem canonical_lineage (op : Nat) (f : FLin) (ds : List Reg) {g : State → LinOut}
    (hg : ∀ u : State, Memory.wf u.mem = true → (g u).Canonical) : (lineage s op f ds g).Canonical := by
  unfold lineage
  extract_lets item
  have hcompare := canonical_compare h 0 item
  split
  · split
    · refine canonical_takeCopy_into h fun x hx => ?_
      simp [hx]
    · split
      next t ht => simpa using (hcompare.of_error ht).of_done rfl
      next r _ ht => exact hcompare.of_error ht
      next t ht => simp [hcompare.of_ok ht]
  split
  · trivial
  refine canonical_compare_into h _ _ fun t ht => ?_
  split
  · trivial
  next u _ _ _ hu => simp [(hg t ht).of_ans hu]
omit h in
theorem canonical_withNode (s : State) (n : Nat) {g : Node → LinOut} (hg : ∀ x, (g x).Canonical) : (withNode s n g).Canonical := by
  unfold withNode
  split
  · trivial
  · exact hg _
@[simp] theorem canonical_linNew (size : Nat) : (linNew s size).Canonical := by
  unfold linNew
  split
  · simp [linFail, h]
  split
  · trivial
  · simp [linOk, h]
@[simp] theorem canonical_execLnew (k : Ctl) (f : FLin) : (execLnew k f s).Canonical :=
  canonical_run h fun _ hu => canonical_lineage hu _ _ _ fun _ hv => canonical_linNew hv _
@[simp] theorem canonical_linMap (va n : Nat) (rw : Bool) : (linMap s va n rw).Canonical := by
  unfold linMap
  split
  · trivial
  refine canonical_withNode s n fun x => ?_
  dsimp only
  split
  · simp [linFail, h]
  split
  · simp [linFail, h]
  split
  · simp [linFail, h]
  · simp [linOk, h]
@[simp] theorem canonical_execLmap (k : Ctl) (f : FLin) : (execLmap k f s).Canonical :=
  canonical_run h fun _ hu => canonical_lineage hu _ _ _ fun _ hv => canonical_linMap hv _ _ _
@[simp] theorem canonical_linUnmap (va : Nat) : (linUnmap s va).Canonical := by
  unfold linUnmap
  dsimp only
  split <;> simp [h]
@[simp] theorem canonical_execLunmap (k : Ctl) (f : FLin) : (execLunmap k f s).Canonical :=
  canonical_run h fun _ hu => canonical_lineage hu _ _ _ fun _ hv => canonical_linUnmap hv _
@[simp] theorem canonical_linFork (n : Nat) : (linFork s n).Canonical := by
  unfold linFork
  refine canonical_withNode s n fun x => ?_
  dsimp only
  split
  · simp [linFail, h]
  split
  · simp [linFail, h]
  split
  · trivial
  · simp [linOk, h]
@[simp] theorem canonical_execFork (k : Ctl) (f : FLin) : (execFork k f s).Canonical :=
  canonical_run h fun _ hu => canonical_lineage hu _ _ _ fun _ hv => canonical_linFork hv _
@[simp] theorem canonical_linRebase (f : FLin) (n g : Nat) : (linRebase s f n g).Canonical := by
  unfold linRebase
  split
  · trivial
  refine canonical_withNode s n fun x => canonical_withNode s g fun _ => ?_
  dsimp only
  (repeat' split) <;> simp [linFail, linOk, h]
@[simp] theorem canonical_execRebase (k : Ctl) (f : FLin) : (execRebase k f s).Canonical :=
  canonical_run h fun _ hu => canonical_lineage hu _ _ _ fun _ hv => canonical_linRebase hv _ _ _
@[simp] theorem canonical_linFlatten (f : FLin) (n : Nat) : (linFlatten s f n).Canonical := by
  unfold linFlatten
  split
  · trivial
  refine canonical_withNode s n fun x => ?_
  (repeat' split) <;> simp [linFail, linOk, h]
@[simp] theorem canonical_execFlatten (k : Ctl) (f : FLin) : (execFlatten k f s).Canonical :=
  canonical_run h fun _ hu => canonical_lineage hu _ _ _ fun _ hv => canonical_linFlatten hv _ _
@[simp] theorem canonical_linDrop (n : Nat) : (linDrop s n).Canonical := by
  unfold linDrop
  refine canonical_withNode s n fun x => ?_
  split <;> simp [linFail, linOk, h]
@[simp] theorem canonical_execDrop (k : Ctl) (f : FLin) : (execDrop k f s).Canonical :=
  canonical_run h fun _ hu => canonical_lineage hu _ _ _ fun _ hv => canonical_linDrop hv _
@[simp] theorem canonical_linQuery (q n b : Nat) : (linQuery s q n b).Canonical := by
  unfold linQuery
  dsimp only
  (repeat' split) <;> simp [h]
@[simp] theorem canonical_execLnq (k : Ctl) (f : FLin) : (execLnq k f s).Canonical :=
  canonical_run h fun _ hu => canonical_lineage hu _ _ _ fun _ hv => canonical_linQuery hv _ _ _
@[simp] theorem canonical_linDiff (n g c : Nat) : (linDiff s n g c).Canonical := by
  unfold linDiff
  refine canonical_withNode s n fun x => ?_
  extract_lets p go
  have hgo : ∀ y, (go y).Canonical := by
    intro y
    dsimp only [go]
    (repeat' split) <;> simp [linFail, linOk, h]
  split
  · exact hgo x
  · exact canonical_withNode s g hgo
@[simp] theorem canonical_execLdiff (k : Ctl) (f : FLin) : (execLdiff k f s).Canonical :=
  canonical_run h fun _ hu => canonical_lineage hu _ _ _ fun _ hv => canonical_linDiff hv _ _ _
@[simp] theorem canonical_execLineageBlockRecompose (p node : Nat) : Out.Canonical (execLineageBlockRecompose p node s) := by
  simp [execLineageBlockRecompose, h]
@[simp] theorem canonical_execLineageUndo (p node : Nat) : Out.Canonical (execLineageUndo p node s) := by
  simp [execLineageUndo, h]
@[simp] theorem canonical_execLineageOpEnd (p node : Nat) : Out.Canonical (execLineageOpEnd p node s) := by
  simp [execLineageOpEnd, h]

/-! ### Lines -/

@[simp] theorem canonical_execLeaseGrant (t line : Nat) : Out.Canonical (execLeaseGrant t line s) := by
  simp [execLeaseGrant, h]
@[simp] theorem canonical_execLeaseExpiry (t line : Nat) : Out.Canonical (execLeaseExpiry t line s) := by
  unfold execLeaseExpiry
  split <;> simp [h]
@[simp] theorem canonical_execFifoSend (t : Nat) : Out.Canonical (execFifoSend t s) := by
  simp [execFifoSend, h]
@[simp] theorem canonical_execReleaseMarkerAck (t : Nat) : Out.Canonical (execReleaseMarkerAck t s) := by
  unfold execReleaseMarkerAck
  split <;> simp [h]
@[simp] theorem canonical_execStorePerformAtSlice (d line : Nat) : Out.Canonical (execStorePerformAtSlice d line s) := by
  unfold execStorePerformAtSlice
  split <;> simp [h]
@[simp] theorem canonical_execOwnershipArrival (d line : Nat) : Out.Canonical (execOwnershipArrival d line s) := by
  unfold execOwnershipArrival
  (repeat' split) <;> simp [h]
@[simp] theorem canonical_ownHost (ag l : Nat) : Memory.wf (s.ownHost ag l).mem = true := by
  simp [State.ownHost, h]
@[simp] theorem canonical_askDram (ag line kind : Nat) : Memory.wf (s.askDram ag line kind).mem = true := by
  simp [State.askDram, h]
@[simp] theorem canonical_execRds (ag line : Nat) : Out.Canonical (execRds ag line s) := by
  unfold execRds
  split <;> simp [h]
@[simp] theorem canonical_execRdx (ag line : Nat) : Out.Canonical (execRdx ag line s) := by
  unfold execRdx
  (repeat' split) <;> simp [h]
@[simp] theorem canonical_execUpg (ag line : Nat) : Out.Canonical (execUpg ag line s) := by
  unfold execUpg
  (repeat' split) <;> simp [h]
@[simp] theorem canonical_execWb (ag line : Nat) : Out.Canonical (execWb ag line s) := by
  unfold execWb
  (repeat' split) <;> simp [h]
@[simp] theorem canonical_answerProbe (kind ag l : Nat) : Memory.wf (s.answerProbe kind ag l).mem = true := by
  unfold State.answerProbe
  (repeat' split) <;> simp [h]
@[simp] theorem canonical_execPrs (ag line : Nat) : Out.Canonical (execPrs ag line s) := by
  simp [execPrs, h]
@[simp] theorem canonical_execPri (ag line : Nat) : Out.Canonical (execPri ag line s) := by
  simp [execPri, h]
@[simp] theorem canonical_execPrx (ag line : Nat) : Out.Canonical (execPrx ag line s) := by
  simp [execPrx, h]
@[simp] theorem canonical_execNotPresentAnswer (ag line pid : Nat) : Out.Canonical (execNotPresentAnswer ag line pid s) := by
  unfold execNotPresentAnswer
  split <;> simp [h]
@[simp] theorem canonical_execSnoopFilterVictim (line : Nat) : Out.Canonical (execSnoopFilterVictim line s) := by
  simp [execSnoopFilterVictim, h]
@[simp] theorem canonical_execHostRead (pa mv : Nat) : Out.Canonical (execHostRead pa mv s) := by
  simp [execHostRead, h]
@[simp] theorem canonical_execHostMemWr (pa data : Nat) : Out.Canonical (execHostMemWr pa data s) := by
  unfold execHostMemWr
  dsimp only
  (repeat' split) <;> simp +contextual [canonical_foldl, h]
@[simp] theorem canonical_execBisnpAnswer (pa rsp : Nat) : Out.Canonical (execBisnpAnswer pa rsp s) := by
  unfold execBisnpAnswer
  dsimp only
  split <;> simp [h]
@[simp] theorem canonical_snoopHost (l kind : Nat) : Memory.wf (s.snoopHost l kind).mem = true := by
  unfold State.snoopHost
  refine wf_ite_mem h (wf_ite_mem h ?_)
  refine canonical_foldl (fun u d hu => ?_) _ h
  dsimp only
  split
  · simp [hu]
  split
  · simp [hu]
  · split <;> simp [hu]
@[simp] theorem canonical_execHostSnoop (pa kind : Nat) : Out.Canonical (execHostSnoop pa kind s) := by
  unfold execHostSnoop
  split <;> simp [h]
@[simp] theorem canonical_execHostLineSnoopAnswer (line : Nat) : Out.Canonical (execHostLineSnoopAnswer line s) := by
  unfold execHostLineSnoopAnswer
  split <;> simp [h]
@[simp] theorem canonical_execLineEviction (kind ag line : Nat) : Out.Canonical (execLineEviction kind ag line s) := by
  unfold execLineEviction
  (repeat' split) <;> simp [h]

/-! ### Memory -/

@[simp] theorem canonical_loadWord (f : FM) (repl : Bool) : (loadWord s f repl).Canonical := by
  simp +contextual [loadWord, h]
@[simp] theorem canonical_execLd (k : Ctl) (f : FM) : Out.Canonical (execLd k f s) :=
  canonical_run h fun _ hu => canonical_loadWord hu _ _
@[simp] theorem canonical_execLdq (k : Ctl) (f : FM) : Out.Canonical (execLdq k f s) :=
  canonical_run h fun _ hu => canonical_loadWord hu _ _
@[simp] theorem canonical_storeWord (f : FM) (drop : Bool) : (storeWord s f drop).Canonical := by
  simp [storeWord, h]
@[simp] theorem canonical_execSt (k : Ctl) (f : FM) : Out.Canonical (execSt k f s) :=
  canonical_run h fun _ hu => canonical_storeWord hu _ _
@[simp] theorem canonical_execStq (k : Ctl) (f : FM) : Out.Canonical (execStq k f s) :=
  canonical_run h fun _ hu => canonical_storeWord hu _ _
@[simp] theorem canonical_loadPtr (f : FM) : (loadPtr s f).Canonical := by
  simp +contextual [loadPtr, h]
@[simp] theorem canonical_execLda (k : Ctl) (f : FM) : Out.Canonical (execLda k f s) :=
  canonical_run h fun _ hu => canonical_loadPtr hu _
@[simp] theorem canonical_execSta (k : Ctl) (f : FM) : Out.Canonical (execSta k f s) :=
  canonical_run h fun _ hu => by simp [hu]
@[simp] theorem canonical_takeRetry (d : Nat) (v : Word) : (takeRetry s d v).Canonical := h
@[simp] theorem canonical_loadSync (f : FM) : (loadSync s f).Canonical := by
  unfold loadSync
  split
  · simp [h]
  refine canonical_checkAll_into h _ _ _ fun l => ?_
  extract_lets plain
  have hplain : plain.Canonical := canonical_load_into h _ _ _ _ _ fun g hg => by simp [hg]
  split
  · exact hplain
  split
  next r hr => exact canonical_waits h _ r hr
  · split
    · exact h
    · exact hplain
  · split
    · exact hplain
    split
    · simp [h]
    split
    · exact h
    · simp [h]
  · exact hplain
@[simp] theorem canonical_execLds (k : Ctl) (f : FM) : Out.Canonical (execLds k f s) :=
  canonical_run h fun _ hu => canonical_loadSync hu _
@[simp] theorem canonical_storeFull (f : FM) : (storeFull s f).Canonical := by
  unfold storeFull
  refine canonical_checkAll_into h _ _ _ fun l => ?_
  dsimp only
  split
  next r hr => exact canonical_waits h _ r hr
  · split <;> simp +contextual [h]
  · split
    · simp [h]
    · split <;> simp +contextual [h]
  · simp [h]
@[simp] theorem canonical_execStf (k : Ctl) (f : FM) : Out.Canonical (execStf k f s) :=
  canonical_run h fun _ hu => canonical_storeFull hu _
@[simp] theorem canonical_setEmpty (f : FM) : (setEmpty s f).Canonical := by
  unfold setEmpty
  refine canonical_checkAll_into h _ _ _ fun l => ?_
  split
  next r hr => exact canonical_waits h _ r hr
  · split <;> simp +contextual [h]
  · split
    · simp [h]
    · split <;> simp +contextual [h]
  · exact h
@[simp] theorem canonical_execSete (k : Ctl) (f : FM) : Out.Canonical (execSete k f s) :=
  canonical_run h fun _ hu => canonical_setEmpty hu _
@[simp] theorem canonical_testFull (f : FM) : (testFull s f).Canonical := by
  unfold testFull
  refine canonical_checkAll_into h _ _ _ fun l => ?_
  dsimp only
  split
  · simp +contextual [h]
  split
  · simp [h]
  split
  next r hr => exact canonical_waits h _ r hr
  · simp [h]
  · (repeat' split) <;> simp [h]
  · simp [h]
@[simp] theorem canonical_execFeq (k : Ctl) (f : FM) : Out.Canonical (execFeq k f s) :=
  canonical_run h fun _ hu => canonical_testFull hu _
@[simp] theorem canonical_prefetch (f : FM) : (prefetch s f).Canonical := by
  unfold prefetch
  (repeat' split) <;> simp [h]
@[simp] theorem canonical_execPref (k : Ctl) (f : FM) : Out.Canonical (execPref k f s) :=
  canonical_run h fun _ hu => canonical_prefetch hu _
@[simp] theorem canonical_execVld (k : Ctl) (f : FM) : Out.Canonical (execVld k f s) := by
  refine canonical_run h fun u hu => ?_
  simp +contextual [hu]
@[simp] theorem canonical_execVst (k : Ctl) (f : FM) : Out.Canonical (execVst k f s) :=
  canonical_run h fun _ hu => by simp [hu]
@[simp] theorem canonical_loadStride (f : FM) : (loadStride s f).Canonical := by
  simp +contextual [loadStride, h]
@[simp] theorem canonical_storeStride (f : FM) : (storeStride s f).Canonical := by
  simp [storeStride, h]
@[simp] theorem canonical_execVlds (k : Ctl) (f : FM) : Out.Canonical (execVlds k f s) :=
  canonical_run h fun _ hu => canonical_loadStride hu _
@[simp] theorem canonical_execVsts (k : Ctl) (f : FM) : Out.Canonical (execVsts k f s) :=
  canonical_run h fun _ hu => canonical_storeStride hu _
@[simp] theorem canonical_gather (f : FV) : (gather s f).Canonical := by
  unfold gather
  dsimp only
  (repeat' split) <;> simp +contextual [h]
@[simp] theorem canonical_scatter (f : FV) : (scatter s f).Canonical := by
  simp [scatter, h]
@[simp] theorem canonical_execVgath (k : Ctl) (f : FV) : Out.Canonical (execVgath k f s) :=
  canonical_run h fun _ hu => canonical_gather hu _
@[simp] theorem canonical_execVscat (k : Ctl) (f : FV) : Out.Canonical (execVscat k f s) :=
  canonical_run h fun _ hu => canonical_scatter hu _
theorem canonical_lineOp (f : FM) {g : State → Nat → State} (hg : ∀ n, Memory.wf (g s n).mem = true) : (lineOp s f g).Canonical := by
  unfold lineOp
  refine canonical_checkAll_into h _ _ _ fun l => ?_
  split
  next r _ hr => exact canonical_waits h _ r hr
  · simp [hg]
  · exact h
@[simp] theorem canonical_execClean (k : Ctl) (f : FM) : (execClean k f s).Canonical :=
  canonical_run h fun _ hu => canonical_lineOp hu f fun _ => by simp [hu]
@[simp] theorem canonical_execDisc (k : Ctl) (f : FM) : (execDisc k f s).Canonical :=
  canonical_run h fun _ hu => canonical_lineOp hu f fun _ => by simp [hu]
@[simp] theorem canonical_zeroLine (f : FM) : (zeroLine s f).Canonical := by
  simp [zeroLine, h]
@[simp] theorem canonical_execZero (k : Ctl) (f : FM) : Out.Canonical (execZero k f s) :=
  canonical_run h fun _ hu => canonical_zeroLine hu _
@[simp] theorem canonical_dropFetch (f : FM) : (dropFetch s f).Canonical := by
  unfold dropFetch
  dsimp only
  (repeat' split) <;> simp [h]
@[simp] theorem canonical_execIcinv (k : Ctl) (f : FM) : Out.Canonical (execIcinv k f s) :=
  canonical_run h fun _ hu => canonical_dropFetch hu _

/-! ### Recovery -/

@[simp] theorem canonical_writeDump (cause d : Nat) : Memory.wf (s.writeDump cause d).mem = true := by
  unfold State.writeDump
  iterate 7 refine canonical_homeWrite ?_ _ _ _
  exact h
@[simp] theorem canonical_fatalDump (cause : Nat) : Memory.wf (s.fatalDump cause).mem = true := by
  unfold State.fatalDump
  dsimp only
  split <;> simp [h]
@[simp] theorem canonical_execFatalDump (cause : Nat) : Out.Canonical (execFatalDump cause s) := by
  simp [execFatalDump, h]
@[simp] theorem canonical_execFirmwareWatchdog : Out.Canonical (execFirmwareWatchdog s) := by
  simp [execFirmwareWatchdog, h]
@[simp] theorem canonical_wayOut (id : Nat) : Memory.wf (s.wayOut id).mem = true := by
  unfold State.wayOut
  simp only [State.mem_tickFresh, State.mem_putStore]
  refine canonical_foldl (fun u e hu => ?_) _ h
  split
  next t ht => exact (canonical_execLineEviction hu _ _ _).of_next ht
  next => exact hu
@[simp] theorem canonical_execCorrectableError (kind id : Nat) : Out.Canonical (execCorrectableError kind id s) := by
  unfold execCorrectableError
  split <;> simp [h]
@[simp] theorem canonical_execBucketLeak (kind id : Nat) : Out.Canonical (execBucketLeak kind id s) := by
  simp [execBucketLeak, h]
@[simp] theorem canonical_execUeDetected (t c i va : Nat) : Out.Canonical (execUeDetected t c i va s) := by
  simp [execUeDetected, h]
@[simp] theorem canonical_execRegisterUe (t c i : Nat) : Out.Canonical (execRegisterUe t c i s) := by
  simp [execRegisterUe, h]
@[simp] theorem canonical_execDramScrub (line : Nat) : Out.Canonical (execDramScrub line s) := by
  simp [execDramScrub, h]
@[simp] theorem canonical_execSdc (t c i _addr unit : Nat) : Out.Canonical (execSdc t c i _addr unit s) := by
  simp [execSdc, h]
@[simp] theorem canonical_execSdcCountSave : Out.Canonical (execSdcCountSave s) := by
  simp [execSdcCountSave, h]
@[simp] theorem canonical_salvageDie (d e : Nat) : Memory.wf (s.salvageDie d e).mem = true := by
  refine canonical_foldl (fun u x hu => ?_) _ h
  dsimp only
  rw [State.mem_setHeld, State.mem_modDie]
  exact wf_ite_mem (by simp [hu]) hu
@[simp] theorem canonical_dieFails (d : Nat) : Memory.wf (s.dieFails d).mem = true := by
  unfold State.dieFails
  refine wf_ite_mem h ?_
  extract_lets r xs r' r'' r'''
  have hr' : Memory.wf r'.mem = true := canonical_foldl (fun u x hu => by simp [hu]) xs (by simp [r, h])
  have hr'' : Memory.wf r''.mem = true := by
    refine canonical_foldl (fun u x hu => ?_) xs hr'
    rw [State.mem_unvote]
    exact canonical_evacuate (canonical_foldl (fun v e hv => by simp [hv]) _ hu) _
  refine canonical_foldl (fun u e hu => ?_) _ (by simp [r''', hr''])
  exact wf_ite_mem hu (by simp [hu])
@[simp] theorem canonical_execDieFail (d : Nat) : Out.Canonical (execDieFail d s) := by
  simp [execDieFail, h]
@[simp] theorem canonical_execPartFail (q : Nat) : Out.Canonical (execPartFail q s) := by
  simp +contextual [execPartFail, canonical_foldl, h]
@[simp] theorem canonical_linkDown (n : Nat) : Memory.wf (s.linkDown n).mem = true := by
  unfold State.linkDown
  (repeat' split) <;> simp [h]
@[simp] theorem canonical_execPortDown (link : Nat) : Out.Canonical (execPortDown link s) := by
  simp [execPortDown, h]
@[simp] theorem canonical_execLaneFailure (port : Nat) : Out.Canonical (execLaneFailure port s) := by
  unfold execLaneFailure
  (repeat' split) <;> simp [h]
@[simp] theorem canonical_execD2dWireSpare (j : Nat) : Out.Canonical (execD2dWireSpare j s) := by
  unfold execD2dWireSpare
  split <;> simp [h]

/-! ### Platform -/

@[simp] theorem canonical_execCurrentMonitorSample (d amps : Nat) : Out.Canonical (execCurrentMonitorSample d amps s) := by
  simp [execCurrentMonitorSample, h]
@[simp] theorem canonical_execPowerSample (amps watts temp : Nat) : Out.Canonical (execPowerSample amps watts temp s) := by
  unfold execPowerSample
  (repeat' split) <;> simp [h]
@[simp] theorem canonical_coldReset (f : Fails) : Memory.wf (s.coldReset f).mem = true := by
  obtain ⟨u, hu, hmem, -⟩ := s.coldReset_keeps f
  rw [exec_coldReset] at hu
  cases hu
  rw [hmem]
  exact wf_filter h _
@[simp] theorem canonical_execColdReset (fails : Nat) : Out.Canonical (execColdReset fails s) := by
  simp [execColdReset, h]
@[simp] theorem canonical_command (c : Nat) {f : State → State} (hf : Memory.wf (f s).mem = true) : Memory.wf (s.command c f).mem =
    true :=
  wf_ite_mem hf h
@[simp] theorem canonical_execAttest : (execAttest s).Canonical := by
  refine (Out.canonical_next _).mpr (canonical_command h _ ?_)
  dsimp only
  (repeat' split) <;> simp [h]
@[simp] theorem canonical_moveAll (new : PConfig) : Memory.wf (s.moveAll new).mem = true := by
  refine wf_filter (canonical_foldl (fun u l hu => ?_) _ ?_) _
  · simp [hu]
  · simp [h]
@[simp] theorem canonical_execPartcfg : (execPartcfg s).Canonical := by
  refine (Out.canonical_next _).mpr (canonical_command h _ ?_)
  dsimp only
  refine wf_ite_mem (by simp [h]) (wf_ite_mem (by simp [h]) (wf_ite_mem (by simp [h]) (wf_ite_mem (by simp [h])
    (wf_ite_mem (by simp [h]) (wf_ite_mem h ?_)))))
  simp [h]
@[simp] theorem canonical_execDump : (execDump s).Canonical :=
  (Out.canonical_next _).mpr (canonical_command h _ (by simp [h]))
@[simp] theorem canonical_execClearsr : (execClearsr s).Canonical :=
  (Out.canonical_next _).mpr (canonical_command h _ (by simp [h]))
@[simp] theorem canonical_execDumpack : (execDumpack s).Canonical := by
  refine (Out.canonical_next _).mpr (canonical_command h _ ?_)
  split <;> simp [h]
@[simp] theorem canonical_execOpkey : (execOpkey s).Canonical := by
  refine (Out.canonical_next _).mpr (canonical_command h _ ?_)
  dsimp only
  (repeat' split) <;> simp [h]

/-! ### Regions -/

@[simp] theorem canonical_beginR (f : FRegion) : (beginR s f).Canonical := by
  unfold beginR
  dsimp only
  (repeat' split) <;> simp [h]
@[simp] theorem canonical_execRbegin (k : Ctl) (f : FRegion) : Out.Canonical (execRbegin k f s) :=
  canonical_run h fun _ hu => canonical_beginR hu _
@[simp] theorem canonical_commitR : (commitR s).Canonical := by
  unfold commitR
  (repeat' split) <;> simp [h]
@[simp] theorem canonical_execRcommit (k : Ctl) (x : FRegion) : Out.Canonical (execRcommit k x s) :=
  canonical_run h fun _ hu => by simp [hu]
@[simp] theorem canonical_abortR (f : FRegion) : (abortR s f).Canonical := by
  unfold abortR
  (repeat' split) <;> simp [h]
@[simp] theorem canonical_execRabort (k : Ctl) (f : FRegion) : Out.Canonical (execRabort k f s) :=
  canonical_run h fun _ hu => canonical_abortR hu _
@[simp] theorem canonical_readRstat (f : FRegion) : (readRstat s f).Canonical := by
  simp [readRstat, h]
@[simp] theorem canonical_execRstat (k : Ctl) (f : FRegion) : Out.Canonical (execRstat k f s) :=
  canonical_run h fun _ hu => canonical_readRstat hu _
@[simp] theorem canonical_twoWords (f : FRegion) (x y : Word) : (twoWords s f x y).Canonical := by
  simp [twoWords, h]
@[simp] theorem canonical_trailTwo (f : FRegion) : (trailTwo s f).Canonical := by
  simp [trailTwo, h]
@[simp] theorem canonical_readBounds (f : FRegion) : (readBounds s f).Canonical := by
  unfold readBounds
  split <;> simp [h]
@[simp] theorem canonical_readPositions (f : FRegion) : (readPositions s f).Canonical := by
  unfold readPositions
  refine canonical_checkAll_into h _ _ _ fun l => ?_
  split
  · simp [h]
  split
  next r hr => exact canonical_waits h _ r hr
  dsimp only
  (repeat' split) <;> simp [h]
@[simp] theorem canonical_execRposB (k : Ctl) (f : FRegion) : Out.Canonical (execRposB k f s) :=
  canonical_run h fun _ hu => canonical_readBounds hu _
@[simp] theorem canonical_execRposL (k : Ctl) (f : FRegion) : Out.Canonical (execRposL k f s) :=
  canonical_run h fun _ hu => canonical_readPositions hu _
@[simp] theorem canonical_execNarrowingMessage (n : Nat) : Out.Canonical (execNarrowingMessage n s) := by
  simp [execNarrowingMessage, h]
@[simp] theorem canonical_execRegionAccessAtSlice (t c i line wr : Nat) : Out.Canonical (execRegionAccessAtSlice t c i line wr s) := by
  unfold execRegionAccessAtSlice
  dsimp only
  split <;> simp [h]
@[simp] theorem canonical_execSealAtSlice (t c i line : Nat) : Out.Canonical (execSealAtSlice t c i line s) := by
  unfold execSealAtSlice
  dsimp only
  split <;> simp [h]
@[simp] theorem canonical_execFinalPositionBroadcast (t c i line : Nat) : Out.Canonical (execFinalPositionBroadcast t c i line s) := by
  unfold execFinalPositionBroadcast
  dsimp only
  split <;> simp [h]
@[simp] theorem canonical_execRegionAbort (t c i cause tc : Nat) : Out.Canonical (execRegionAbort t c i cause tc s) := by
  simp [execRegionAbort, h]
@[simp] theorem canonical_execTokenGrant (t c i : Nat) : Out.Canonical (execTokenGrant t c i s) := by
  simp +contextual [execTokenGrant, canonical_foldl, h]

/-! ### Registers -/

@[simp] theorem canonical_execLaunchQueueTailWrite (p q v : Nat) : Out.Canonical (execLaunchQueueTailWrite p q v s) := by
  simp [execLaunchQueueTailWrite, h]
@[simp] theorem canonical_execLaunchQueueEnable (p q v fromS : Nat) : Out.Canonical (execLaunchQueueEnable p q v fromS s) := by
  simp [execLaunchQueueEnable, h]
@[simp] theorem canonical_execLaunchQueueDescWrite (p q off v fromS : Nat) :
    Out.Canonical (execLaunchQueueDescWrite p q off v fromS s) := by
  simp [execLaunchQueueDescWrite, h]
@[simp] theorem canonical_execEventRingHeadWrite (p v : Nat) : Out.Canonical (execEventRingHeadWrite p v s) := by
  simp [execEventRingHeadWrite, h]
@[simp] theorem canonical_execEventRingDescWrite (p v : Nat) : Out.Canonical (execEventRingDescWrite p v s) := by
  simp [execEventRingDescWrite, h]
@[simp] theorem canonical_execRegisterWrite (off v view : Nat) : Out.Canonical (execRegisterWrite off v view s) := by
  simp [execRegisterWrite, h]
@[simp] theorem canonical_execLpoolWrite (p v : Nat) : Out.Canonical (execLpoolWrite p v s) := by
  simp [execLpoolWrite, h]
@[simp] theorem canonical_execLsplitWrite (t v : Nat) : Out.Canonical (execLsplitWrite t v s) := by
  simp [execLsplitWrite, h]
@[simp] theorem canonical_execLgrpWrite (t v : Nat) : Out.Canonical (execLgrpWrite t v s) := by
  simp [execLgrpWrite, h]
@[simp] theorem canonical_execLeaseWrite (p v : Nat) : Out.Canonical (execLeaseWrite p v s) := by
  simp [execLeaseWrite, h]
@[simp] theorem canonical_execBalWrite (p v : Nat) : Out.Canonical (execBalWrite p v s) := by
  simp [execBalWrite, h]
@[simp] theorem canonical_execRlimitWrite (t c v : Nat) : Out.Canonical (execRlimitWrite t c v s) := by
  simp [execRlimitWrite, h]
@[simp] theorem canonical_execHbperWrite (t v : Nat) : Out.Canonical (execHbperWrite t v s) := by
  simp [execHbperWrite, h]
@[simp] theorem canonical_execHistWrite (t n v : Nat) : Out.Canonical (execHistWrite t n v s) := by
  simp [execHistWrite, h]
@[simp] theorem canonical_execMprWrite (t c v : Nat) : Out.Canonical (execMprWrite t c v s) := by
  simp [execMprWrite, h]
@[simp] theorem canonical_execPtbrWrite (t c v : Nat) : Out.Canonical (execPtbrWrite t c v s) := by
  simp [execPtbrWrite, h]
@[simp] theorem canonical_execLsegWrite (t c i v : Nat) : Out.Canonical (execLsegWrite t c i v s) := by
  simp [execLsegWrite, h]
@[simp] theorem canonical_execTsrWrite (t c i v : Nat) : Out.Canonical (execTsrWrite t c i v s) := by
  simp [execTsrWrite, h]

/-! ### Dispatch -/

@[simp] theorem canonical_exec (i : Instr) : Out.Canonical (exec i s) := by
  unfold exec
  split <;> simp [h]

/-! ### Due -/

/-- The steps of a list keep memory canonical. -/
def DueKeeps (l : List (State → Out)) : Prop := ∀ f ∈ l, ∀ u : State, Memory.wf u.mem = true → (f u).Canonical
omit h in
@[simp] theorem dueKeeps_nil : DueKeeps [] := fun _ h => nomatch h
omit h in
@[simp] theorem dueKeeps_cons {f : State → Out} {l : List (State → Out)} : DueKeeps (f :: l) ↔
    (∀ u : State, Memory.wf u.mem = true → (f u).Canonical) ∧ DueKeeps l := List.forall_mem_cons
omit h in
@[simp] theorem dueKeeps_append {l m : List (State → Out)} : DueKeeps (l ++ m) ↔ DueKeeps l ∧ DueKeeps m := List.forall_mem_append
omit h in
@[simp] theorem dueKeeps_map {α : Type} {g : α → State → Out} {l : List α} : DueKeeps (l.map g) ↔ ∀ a ∈ l, ∀ u : State, Memory.wf u.mem =
    true → (g a u).Canonical := List.forall_mem_map
omit h in
@[simp] theorem dueKeeps_flatMap {α : Type} {g : α → List (State → Out)} {l : List α} : DueKeeps (l.flatMap g) ↔ ∀ a ∈ l, DueKeeps
    (g a) := List.forall_mem_flatMap
omit h in
theorem dueKeeps_dueThread (s : State) (k : Key) : DueKeeps (dueThread s k) := by
  unfold dueThread
  dsimp only
  rw [dueKeeps_append, dueKeeps_append, dueKeeps_append]
  refine ⟨⟨⟨?_, ?_⟩, ?_⟩, ?_⟩
  · exact dueKeeps_map.mpr fun n _ u hu => canonical_execClassVResult hu _ _ _ _
  · generalize (s.getThread k).wait = w
    cases w with
    | wrs p n b => cases b <;> simp +contextual
    | park o => cases o <;> simp +contextual
    | _ => simp +contextual
  · split
    · simp
    · split
      · simp +contextual
      · split <;> simp +contextual
  · split <;> simp +contextual
omit h in
theorem dueKeeps_dueCtx (s : State) (t c : Nat) : DueKeeps (dueCtx s t c) := by
  unfold dueCtx
  dsimp only
  split
  · simp
  simp only [dueKeeps_append]
  refine ⟨⟨⟨⟨⟨⟨⟨?_, ?_⟩, ?_⟩, ?_⟩, ?_⟩, ?_⟩, ?_⟩, ?_⟩
  · simp [dueKeeps_dueThread]
  · split <;> simp +contextual
  · split
    · simp
    · split <;> simp +contextual
  · split <;> simp +contextual
  · split <;> simp +contextual
  · split <;> simp +contextual
  · split <;> simp +contextual
  · simp +contextual
omit h in
theorem dueKeeps_dueTile (s : State) (t : Nat) : DueKeeps (dueTile s t) := by
  unfold dueTile
  simp only [dueKeeps_append]
  refine ⟨⟨⟨⟨?_, ?_⟩, ?_⟩, ?_⟩, ?_⟩
  · split <;> simp +contextual
  · split <;> simp +contextual
  · split <;> simp +contextual
  · simp +contextual
  · simp +contextual
omit h in
theorem dueKeeps_dueHome (s : State) : DueKeeps (dueHome s) := by
  simp +contextual [dueHome]
omit h in
@[simp] theorem canonical_dueMsg (n : Nat) (m : Msg) {s : State} (h : Memory.wf s.mem = true) : (dueMsg n m s).Canonical := by
  cases m <;> simp [dueMsg, h]
omit h in
theorem dueKeeps_duePart (s : State) : DueKeeps (duePart s) := by
  unfold duePart
  simp only [dueKeeps_append, dueKeeps_flatMap]
  refine ⟨⟨⟨⟨⟨⟨⟨⟨⟨?_, ?_⟩, ?_⟩, ?_⟩, ?_⟩, ?_⟩, ?_⟩, ?_⟩, ?_⟩, fun p _ => ⟨⟨⟨⟨?_, ?_⟩, ?_⟩, ?_⟩, ?_⟩⟩
  · simp +contextual
  · intro m _
    split <;> simp +contextual
  · simp +contextual
  · simp +contextual
  · simp +contextual
  · split <;> simp +contextual
  · simp +contextual
  · simp +contextual
  · simp +contextual
  · intro q _
    split
    · simp
    · split <;> simp +contextual
  · simp +contextual
  · intro l _
    split <;> simp +contextual
  · simp +contextual
  · intro n _
    split
    · simp
    · split <;> simp +contextual
omit h in
theorem dueKeeps_dueSteps (s : State) : DueKeeps (dueSteps s) := by
  simp [dueSteps, dueKeeps_dueCtx, dueKeeps_dueTile, dueKeeps_dueHome, dueKeeps_duePart]

/-! ### The step -/

theorem canonical_step : Out.Canonical (step s) :=
  canonical_move h (fun i _ hs => canonical_exec hs i) dueKeeps_dueSteps

end

/-- Settles O25: an answered step's state is canonical. -/
theorem stepKeepsMemoryCanonical : Obligations.StepKeepsMemoryCanonical := by
  unfold Obligations.StepKeepsMemoryCanonical
  intro s t hs ht
  exact canonical_step hs t ht

end Sys2Proof.Machine
end
